-- ==== Sys2Proof/Word.lean ====
section
/-! DEFINITION. The words of the ND9: bytes, 32-bit lane registers, 64-bit scalars, and sparse maps in canonical form. -/

namespace Sys2Proof

/-- One byte of memory (R173). -/
abbrev Byte := BitVec 8
/-- One lane's vector register (R31). -/
abbrev W32 := BitVec 32
/-- One scalar register, address or program counter (R31). -/
abbrev W64 := BitVec 64
/-- A mask with one bit per lane (R35). -/
abbrev LaneMask := BitVec 32

/-- A finite map from numbers, as a list of pairs. -/
abbrev NMap (α : Type) := List (Nat × α)

/-- The value at a key, or the default where the key is not listed. -/
def NMap.get {α : Type} (d : α) (m : NMap α) (k : Nat) : α :=
  match m with
  | [] => d
  | (k', v) :: rest => if k' = k then v else NMap.get d rest k

/-- Every entry except those of one key. -/
def NMap.erase {α : Type} (m : NMap α) (k : Nat) : NMap α :=
  match m with
  | [] => []
  | (k', v) :: rest => if k' = k then NMap.erase rest k else (k', v) :: NMap.erase rest k

/-- Inserts an entry before the first larger key. -/
def NMap.insert {α : Type} (m : NMap α) (k : Nat) (v : α) : NMap α :=
  match m with
  | [] => [(k, v)]
  | (k', v') :: rest => if k < k' then (k, v) :: (k', v') :: rest else (k', v') :: NMap.insert rest k v

/-- Lists the key with the value, whatever the value. -/
def NMap.put {α : Type} (m : NMap α) (k : Nat) (v : α) : NMap α :=
  NMap.insert (NMap.erase m k) k v

/-- Writes the value in canonical form: a key that holds the default is not listed. -/
def NMap.set {α : Type} [DecidableEq α] (d : α) (m : NMap α) (k : Nat) (v : α) : NMap α :=
  if v = d then NMap.erase m k else NMap.insert (NMap.erase m k) k v

/-- The key is listed. -/
def NMap.has {α : Type} (m : NMap α) (k : Nat) : Bool :=
  m.any fun e => e.1 == k

end Sys2Proof
end

