-- ==== Sys2Proof/Syntax.lean ====
section
/-! DEFINITION. The instructions and events of spec/opcode_table.json, one constructor per row. The program
instructions carry the fields of their words (R51 to R61); the other rows carry the operands of the event. -/

namespace Sys2Proof

/-- Integer types (R61): signed i, unsigned n. -/
inductive IType
  | i32 | n32 | i16 | n16 | i8 | n8 | i64 | n64
  deriving DecidableEq, Repr, Inhabited

/-- Float types (R61). -/
inductive FType
  | f32 | f16 | bf16 | e4m3 | e5m2 | e2m1 | f16x2 | bf16x2
  deriving DecidableEq, Repr, Inhabited

/-- Rounding modes (R12, R61). -/
inductive Rnd
  | rn | rz | ru | rd
  deriving DecidableEq, Repr, Inhabited

/-- Conditions of icmp (R78). -/
inductive ICond
  | eq | ne | lt | le | gt | ge | tst | ntst
  deriving DecidableEq, Repr, Inhabited

/-- Conditions of fcmp (R86). -/
inductive FCond
  | eq | ne | lt | le | gt | ge | ord | uno
  deriving DecidableEq, Repr, Inhabited

/-- Source types of cvt (R91). -/
inductive CvtSrc
  | int (t : IType) | f32 | f16 | bf16 | e4m3 | e5m2 | e2m1
  deriving DecidableEq, Repr, Inhabited

/-- Formats of pk and unpk (R92). -/
inductive PkFmt
  | f16 | bf16 | e4m3 | e5m2 | e2m1 | e5m3
  deriving DecidableEq, Repr, Inhabited

/-- Formats of scaleq (R94). -/
inductive ScFmt
  | sc8 | sc8w | sc4
  deriving DecidableEq, Repr, Inhabited

/-- The specials of R34. LID is an operand of its own, for it alone may be routed. -/
inductive Special
  | cm | en | lc0 | lc1 | lc2 | ab | al | fps | live | sbz | gix | rank
  deriving DecidableEq, Repr, Inhabited

/-- A source operand field (R53). -/
inductive Operand
  | v (r : BitVec 6) (rt : BitVec 4)
  | q (k : BitVec 4) (rt : BitVec 4)
  | s (r : BitVec 5)
  | sp (k : Special)
  | lid (rt : BitVec 4)
  | const (idx : BitVec 6)
  deriving DecidableEq, Repr, Inhabited

/-- A destination field (R52): a vector register, the result queue alone, a scalar register or a special. -/
inductive Dest
  | v (r : BitVec 6)
  | keep
  | s (r : BitVec 5)
  | sp (k : Special)
  deriving DecidableEq, Repr, Inhabited

/-- The tail (R55): the slot whose count the instruction holds until it completes. -/
abbrev Tail := Option (BitVec 3)

/-- The last operand of a word, with the word's tail. -/
structure Tailed (α : Type) where
  arg : α
  tail : Tail
  deriving DecidableEq, Repr

/-- The member-mask field (R99). -/
inductive MaskOp
  | s (r : BitVec 5)
  | all
  deriving DecidableEq, Repr, Inhabited

/-- Tests of mtest (R105). -/
inductive MTest
  | any | all | same
  deriving DecidableEq, Repr, Inhabited

/-- Fold operations of mfold and scan (R106). -/
inductive FoldOp
  | add | min | max | and | or | xor
  deriving DecidableEq, Repr, Inhabited

/-- Fold types of mfold and scan (R106). -/
inductive FoldTy
  | i32 | n32 | f32
  deriving DecidableEq, Repr, Inhabited

/-- Modes of lperm (R107). -/
inductive LpMode
  | idx | up | down | xor
  deriving DecidableEq, Repr, Inhabited

/-- Cache policies (R61). -/
inductive Policy
  | dflt | strm | byp
  deriving DecidableEq, Repr, Inhabited

/-- Access widths (R61). -/
inductive Width
  | b | h | w | d | q
  deriving DecidableEq, Repr, Inhabited

/-- Scopes (R61). -/
inductive Scope
  | cl | die | pkg | sys
  deriving DecidableEq, Repr, Inhabited

/-- Branch hints (R57). -/
inductive Hint
  | none | likely | unlikely | uni
  deriving DecidableEq, Repr, Inhabited

/-- Conditions of brc (R137). -/
inductive BrcCond
  | cm | ncm | nz (a : Operand) | z (a : Operand)
  deriving DecidableEq, Repr, Inhabited

/-- Conditions of bru (R137). -/
inductive BruCond
  | any | all | none | nall | snz (a : Operand) | sz (a : Operand)
  deriving DecidableEq, Repr, Inhabited

/-- Operations of atom (R185). -/
inductive AtomOp
  | add | sub | min | max | and | or | xor | xchg
  deriving DecidableEq, Repr, Inhabited

/-- Operations of fatom (R187). -/
inductive FatomOp
  | add | min | max
  deriving DecidableEq, Repr, Inhabited

/-- Targets of aconv (R182). -/
inductive ConvTarget
  | dev | cl | tile
  deriving DecidableEq, Repr, Inhabited

/-- Address spaces, as aclass names them (R158, R183). -/
inductive Space
  | dev | vault | cl | tile | priv
  deriving DecidableEq, Repr, Inhabited

/-- What cwb and cinv act on (R181). -/
inductive LineSel
  | line (base index : Operand) (off : BitVec 12)
  | all
  deriving DecidableEq, Repr, Inhabited

/-- The accumulator field (R203): a base tile and, with a ring, its size minus one and its loop counter. -/
structure AccField where
  base : BitVec 3
  ring : Option (BitVec 3 × BitVec 2)
  deriving DecidableEq, Repr, Inhabited

/-- The CV a tile instruction attaches to, or none where W is 0 (R202). -/
abbrev CvAttach := Option (BitVec 3)

/-- Items of mstat (R218). -/
inductive MstatItem
  | state (d : BitVec 5) (n : BitVec 3)
  | fmt (d : BitVec 5) (n : BitVec 3)
  | tol (d : BitVec 5)
  | settol (a : Operand)
  | mmc (d : BitVec 5)
  deriving DecidableEq, Repr, Inhabited

/-- Modes of attr (R231). -/
inductive AttrMode
  | vg (j : Operand) | v (j : Operand) | b
  deriving DecidableEq, Repr, Inhabited

/-- Depth functions of prim (R351). -/
inductive DepthFn
  | lt | le | gt | ge | al
  deriving DecidableEq, Repr, Inhabited

/-- Culling of prim (R351). -/
inductive Cull
  | none | back | front
  deriving DecidableEq, Repr, Inhabited

/-- The engine queues (R300). -/
inductive EngineQ
  | xc | xt | xe | xm
  deriving DecidableEq, Repr, Inhabited

/-- Output formats of tdec (R115). -/
inductive TdecFmt
  | f32 (b : Operand) | f16 | e4m3 | s
  deriving DecidableEq, Repr, Inhabited

/-- Output formats of tdec2 (R116). -/
inductive Tdec2Fmt
  | f16x2 | bf16x2 | e4m3x2
  deriving DecidableEq, Repr, Inhabited

/-- What a physical error met (R401, CODE 0x31). -/
inductive MemUnit
  | vault | l2 | lpddr
  deriving DecidableEq, Repr, Inhabited

/-- What Oasis replaces by a spare (R322, R401 type 6). -/
inductive WornPart
  | core (die cluster worn spare : Nat)
  | vault (die vault spare : Nat)
  deriving DecidableEq, Repr, Inhabited

/-- An engine whose access faults after acceptance (R219, R250, R314, R351, R409, R413). -/
inductive EngineRef
  | copyJob (job : Nat)
  | encoderJob (job : Nat)
  | matrixOp (op : Nat)
  | ray (ray : Nat)
  | primitive (prim : Nat)
  | tilePass (slot tile : Nat)
  | pool (slot : Nat)
  deriving DecidableEq, Repr, Inhabited

/-- The access that met an uncorrectable error (R323): one of the instruction that a group issues, of an operation in flight, of
an engine at an address, of a queue's command in progress, or one of a launch that none of these names. -/
inductive ErrorAccess
  | group (gid : Nat)
  | op (id : Nat)
  | engine (e : EngineRef) (addr : W64)
  | command (queue number : Nat)
  | launch (n : Nat)
  deriving DecidableEq, Repr, Inhabited

/-- What a request packet asks of this package's memory (R423): with its operands. -/
inductive PeerOp
  | read (size : Nat)
  | write (data : List Byte)
  | atom (op : AtomOp) (x : W32)
  | cas (b c : W32)
  | fatom (op : FatomOp) (x : W32)
  | ctrAdd (x : W64)
  | fetch
  deriving DecidableEq, Repr, Inhabited

/-- One constructor for every row of spec/opcode_table.json. -/
inductive Instr
  -- integer arithmetic (R75 to R78)
  | iadd (t : IType) (d : Dest) (a b : Operand) (tl : Tail)
  | isub (t : IType) (d : Dest) (a b : Operand) (tl : Tail)
  | imul (t : IType) (sat : Bool) (d : Dest) (a b : Operand) (tl : Tail)
  | imulhi (t : IType) (d : Dest) (a b : Operand) (tl : Tail)
  | imad (t : IType) (sat : Bool) (d : Dest) (a b c : Operand) (tl : Tail)
  | idiv (t : IType) (sat : Bool) (d : Dest) (a b : Operand) (tl : Tail)
  | irem (t : IType) (d : Dest) (a b : Operand) (tl : Tail)
  | ineg (t : IType) (sat : Bool) (d : Dest) (a : Operand) (tl : Tail)
  | iabs (t : IType) (sat : Bool) (d : Dest) (a : Operand) (tl : Tail)
  | imin (t : IType) (d : Dest) (a b : Operand) (tl : Tail)
  | imax (t : IType) (d : Dest) (a b : Operand) (tl : Tail)
  | iaddsat (t : IType) (d : Dest) (a b : Operand) (tl : Tail)
  | isubsat (t : IType) (d : Dest) (a b : Operand) (tl : Tail)
  | iclamp (t : IType) (d : Dest) (a b c : Operand) (tl : Tail)
  | add64 (t : IType) (d : Dest) (a b : Operand) (tl : Tail)
  | lea (t : IType) (d : Dest) (a b : Operand) (sh : BitVec 3) (tl : Tail)
  | dot4 (t : IType) (sat : Bool) (d : Dest) (a b c : Operand) (tl : Tail)
  | icmp (t : IType) (cond : ICond) (a b : Operand) (tl : Tail)
  -- logic, shifts, bit fields, moves (R79 to R83)
  | and (t : IType) (d : Dest) (a b : Operand) (tl : Tail)
  | or (t : IType) (d : Dest) (a b : Operand) (tl : Tail)
  | xor (t : IType) (d : Dest) (a b : Operand) (tl : Tail)
  | not (t : IType) (d : Dest) (a : Operand) (tl : Tail)
  | andn (t : IType) (d : Dest) (a b : Operand) (tl : Tail)
  | shl (t : IType) (d : Dest) (a b : Operand) (tl : Tail)
  | shr (t : IType) (d : Dest) (a b : Operand) (tl : Tail)
  | sar (t : IType) (d : Dest) (a b : Operand) (tl : Tail)
  | rot (t : IType) (d : Dest) (a b : Operand) (tl : Tail)
  | popc (t : IType) (d : Dest) (a : Operand) (tl : Tail)
  | clz (t : IType) (d : Dest) (a : Operand) (tl : Tail)
  | ctz (t : IType) (d : Dest) (a : Operand) (tl : Tail)
  | brev (t : IType) (d : Dest) (a : Operand) (tl : Tail)
  | bfx (t : IType) (d : Dest) (a b c : Operand) (tl : Tail)
  | bfi (d : Dest) (a b c : Operand) (tl : Tail)
  | perm8 (d : Dest) (a b c : Operand) (tl : Tail)
  | sel (t : IType) (d : Dest) (a b : Operand) (tl : Tail)
  | mov (t : IType) (d : Dest) (a : Operand) (tl : Tail)
  | movi (t : IType) (d : Dest) (imm : BitVec 24) (tl : Tail)
  | lit (t : IType) (d : Dest) (a : Operand) (imm : BitVec 24) (tl : Tail)
  -- floating point (R84 to R90)
  | fadd (t : FType) (sat : Bool) (rnd : Rnd) (d : Dest) (a b : Operand) (tl : Tail)
  | fsub (t : FType) (sat : Bool) (rnd : Rnd) (d : Dest) (a b : Operand) (tl : Tail)
  | fmul (t : FType) (sat : Bool) (rnd : Rnd) (d : Dest) (a b : Operand) (tl : Tail)
  | ffma (t : FType) (sat : Bool) (rnd : Rnd) (d : Dest) (a b c : Operand) (tl : Tail)
  | fmin (t : FType) (num : Bool) (d : Dest) (a b : Operand) (tl : Tail)
  | fmax (t : FType) (num : Bool) (d : Dest) (a b : Operand) (tl : Tail)
  | fcmp (t : FType) (cond : FCond) (a b : Operand) (tl : Tail)
  | fclass (t : FType) (d : Dest) (a : Operand) (tl : Tail)
  | frcp (t : FType) (sat : Bool) (rnd : Rnd) (d : Dest) (a : Operand) (tl : Tail)
  | frsq (t : FType) (sat : Bool) (rnd : Rnd) (d : Dest) (a : Operand) (tl : Tail)
  | fsqrt (t : FType) (sat : Bool) (rnd : Rnd) (d : Dest) (a : Operand) (tl : Tail)
  | fdiv (t : FType) (sat : Bool) (rnd : Rnd) (d : Dest) (a b : Operand) (tl : Tail)
  | fexp2 (t : FType) (d : Dest) (a : Operand) (tl : Tail)
  | flog2 (t : FType) (d : Dest) (a : Operand) (tl : Tail)
  | fsinpi (t : FType) (d : Dest) (a : Operand) (tl : Tail)
  | fcospi (t : FType) (d : Dest) (a : Operand) (tl : Tail)
  | ftanh (t : FType) (d : Dest) (a : Operand) (tl : Tail)
  | frnd (t : FType) (rnd : Rnd) (d : Dest) (a : Operand) (tl : Tail)
  | ffrac (t : FType) (d : Dest) (a : Operand) (tl : Tail)
  | fldexp (t : FType) (sat : Bool) (rnd : Rnd) (d : Dest) (a b : Operand) (tl : Tail)
  | fgetexp (t : FType) (d : Dest) (a : Operand) (tl : Tail)
  | fgetmant (t : FType) (d : Dest) (a : Operand) (tl : Tail)
  | hadd2 (t : FType) (sat : Bool) (rnd : Rnd) (d : Dest) (a b : Operand) (tl : Tail)
  | hmul2 (t : FType) (sat : Bool) (rnd : Rnd) (d : Dest) (a b : Operand) (tl : Tail)
  | hfma2 (t : FType) (sat : Bool) (rnd : Rnd) (d : Dest) (a b c : Operand) (tl : Tail)
  | fdot2 (t : FType) (sat : Bool) (rnd : Rnd) (d : Dest) (a b c : Operand) (tl : Tail)
  | fabs (t : FType) (d : Dest) (a : Operand) (tl : Tail)
  | fneg (t : FType) (d : Dest) (a : Operand) (tl : Tail)
  | fclamp (t : FType) (d : Dest) (a b c : Operand) (tl : Tail)
  -- conversions and block quantisation (R91 to R94)
  | cvtToInteger (src : CvtSrc) (t : IType) (sat : Bool) (rnd : Rnd) (d : Dest) (a : Operand) (tl : Tail)
  | cvtToFloat (src : CvtSrc) (t : FType) (sat : Bool) (rnd : Rnd) (d : Dest) (a : Operand) (tl : Tail)
  | pk (fmt : PkFmt) (sat : Bool) (rnd : Rnd) (d : Dest) (a b : Operand) (c : BitVec 2) (tl : Tail)
  | unpk (fmt : PkFmt) (d : Dest) (a : Operand) (c : BitVec 3) (tl : Tail)
  | scaleq (fmt : ScFmt) (rnd : Rnd) (d : Dest) (a : Operand) (m : MaskOp) (tl : Tail)
  -- member-mask instructions (R104 to R110)
  | mtest (op : MTest) (d : Dest) (a : Operand) (m : MaskOp) (tl : Tail)
  | mbits (d : Dest) (a : Operand) (m : MaskOp) (tl : Tail)
  | mfold (op : FoldOp) (ty : FoldTy) (d : Dest) (a : Operand) (m : MaskOp) (tl : Tail)
  | scan (op : FoldOp) (ty : FoldTy) (ex : Bool) (d : Dest) (a : Operand) (m : MaskOp) (tl : Tail)
  | lperm (mode : LpMode) (d : Dest) (a b : Operand) (m : MaskOp) (tl : Tail)
  | mpeers (wide : Bool) (d : Dest) (a : Operand) (m : MaskOp) (tl : Tail)
  | mlow (d : Dest) (m : MaskOp) (tl : Tail)
  | lsync (m : MaskOp) (tl : Tail)
  -- windows and trellis decoding (R113 to R116); a base of none is the constant 0
  | twld (pol : Policy) (w : BitVec 2) (base : Option (BitVec 5)) (off : BitVec 12) (tl : Tail)
  | twst (pol : Policy) (w : BitVec 2) (base : Option (BitVec 5)) (off : BitVec 12) (tl : Tail)
  | tdec (w : BitVec 2) (k2 hi : Bool) (fmt : TdecFmt) (d : Dest) (a : Operand) (tl : Tail)
  | tdec2 (w : BitVec 2) (k2 hi : Bool) (fmt : Tdec2Fmt) (d : Dest) (a : Operand) (tl : Tail)
  -- masks, window of the accumulator, routing table (R95 to R97)
  | ensave (d : BitVec 5) (tl : Tail)
  | enrest (a : Operand) (tl : Tail)
  | enand (a : Operand) (tl : Tail)
  | enor (a : Operand) (tl : Tail)
  | enandn (a : Operand) (tl : Tail)
  | cmget (d : BitVec 6) (tl : Tail)
  | cmset (a : Operand) (tl : Tail)
  | setab (a b c : Operand) (tl : Tail)
  | setrt (n : BitVec 3) (e : BitVec 16) (tl : Tail)
  -- control flow (R137 to R150)
  | bra (h : Hint) (off : BitVec 24)
  | brc (c : BrcCond) (h : Hint) (off : BitVec 24)
  | bru (c : BruCond) (h : Hint) (off : BitVec 24)
  | call (link : BitVec 5) (h : Hint) (off : BitVec 24)
  | ret (a : Operand)
  | jmpi (a : Operand)
  | calli (d : Dest) (a : Operand)
  | loop (n : BitVec 2) (off : BitVec 24)
  | spawn (d : BitVec 6) (a b c : Operand)
  | trap (imm : BitVec 24)
  | brk (code : BitVec 6)
  | sleep (n : BitVec 24)
  | illegalOpcode (word : W64)
  -- memory (R176 to R187)
  | ld (wd : Width) (sx : Bool) (pol : Policy) (d : BitVec 6) (base index : Operand) (off : BitVec 12) (tl : Tail)
  | st (wd : Width) (pol : Policy) (src : Dest) (base index : Operand) (off : BitVec 12) (tl : Tail)
  | ldsc (wd : Width) (sx : Bool) (pol : Policy) (d : BitVec 5) (base : Option (BitVec 5)) (index : Option Operand)
      (off : BitVec 12) (tl : Tail)
  | ldp (pol : Policy) (d : BitVec 6) (base : BitVec 5) (xy : Operand) (c2 c3 : BitVec 6) (tl : Tail)
  | stp (pol : Policy) (src : Dest) (base : BitVec 5) (xy : Operand) (c2 c3 : BitVec 6) (tl : Tail)
  | prefetch (pol : Policy) (base index : Operand) (off : BitVec 12)
  | cwb (sel : LineSel) (tl : Tail)
  | cinv (sel : LineSel) (tl : Tail)
  | aconv (tgt : ConvTarget) (d : Dest) (a : Operand)
  | aclass (sp : Space) (a : Operand)
  | atom (op : AtomOp) (d : BitVec 6) (base x : Operand) (off : BitVec 12) (tl : Tail)
  | atomCas (d : BitVec 6) (a b c : Operand) (tl : Tail)
  | fatom (op : FatomOp) (d : BitVec 6) (base x : Operand) (off : BitVec 12) (tl : Tail)
  -- counters, phases, fences (R288 to R293)
  | ctrAdd (rel : Option Scope) (base : Option (BitVec 5)) (x : Operand) (off : BitVec 12) (tl : Tail)
  | ctrWait (acq : Bool) (t : BitVec 3) (d : Option (BitVec 5)) (base : Option (BitVec 5)) (x : Operand)
      (off : BitVec 12) (slot : BitVec 3)
  | ctrRd (d : BitVec 5) (base : Option (BitVec 5)) (off : BitVec 12) (tl : Tail)
  | phase (sc : Scope) (tl : Tail)
  | phaseP (sc : Scope) (tl : Tail)
  | phaseS (tl : Tail)
  | lfence (sc : Scope) (tl : Tail)
  -- matrix engine (R195 to R218)
  | sign (n : BitVec 3) (a b : Operand) (slot : BitVec 3)
  | mma (cv : BitVec 3) (set sat : Bool) (acc : AccField) (b c : BitVec 5) (tl : Tail)
  | mmas (cv : BitVec 3) (set sat : Bool) (acc : AccField) (b c : BitVec 5) (tl : Tail)
  | mmt (cv : BitVec 3) (set sat : Bool) (acc : AccField) (b c : BitVec 5) (tl : Tail)
  | mzero (cv : CvAttach) (acc : AccField) (tl : Tail)
  | mld (cv : CvAttach) (acc : AccField) (b : BitVec 5) (tl : Tail)
  | mrd (n : BitVec 3) (d : BitVec 6) (acc : AccField) (c0 : Operand) (tl : Tail)
  | mdrain (cv : CvAttach) (rnd : Rnd) (acc : AccField) (b : BitVec 5) (tl : Tail)
  | mdraint (cv : CvAttach) (rnd : Rnd) (acc : AccField) (b c : BitVec 5) (tl : Tail)
  | mchk (cv : CvAttach) (acc : AccField) (b c : BitVec 5) (tl : Tail)
  | mstat (item : MstatItem) (tl : Tail)
  | mrel (n : BitVec 3)
  -- graphics (R229 to R249, R351, R412)
  | attr (mode : AttrMode) (d : BitVec 6) (a b : Operand) (tl : Tail)
  | vbld (n : BitVec 2) (d : BitVec 6) (a : BitVec 5) (b : Operand) (tl : Tail)
  | prim (df : DepthFn) (cov : Option (BitVec 5)) (cull : Cull) (a b : Operand) (tl : Tail)
  | sample (d : BitVec 6) (a : Operand) (b : BitVec 5) (c : Operand) (tl : Tail)
  | sampleg (d : BitVec 6) (a : Operand) (b : BitVec 5) (g : BitVec 6) (rt : BitVec 4) (tl : Tail)
  | texld (d : BitVec 6) (a : Operand) (b : BitVec 5) (c : Operand) (tl : Tail)
  | hit (a b : Operand)
  | tretNext (d : BitVec 5) (a : Operand) (slot : BitVec 3)
  | tretDone (tl : Tail)
  | covw (a : Operand)
  -- engine queues (R301, R303, R343, R243)
  | xpushXc (d : Option (BitVec 5)) (n : BitVec 5) (tl : Tail)
  | xpushXe (d : Option (BitVec 5)) (n : BitVec 5) (tl : Tail)
  | xpushXt (d : Option (BitVec 5)) (k : BitVec 6) (sp : BitVec 5) (tl : Tail)
  | xpopXt (d : BitVec 6) (slot : BitVec 3)
  | xpopXe (d : BitVec 5) (slot : BitVec 3)
  | xpopXm (d : BitVec 5) (slot : BitVec 3)
  | xstat (q : EngineQ) (d : BitVec 5)
  -- control registers, system and debug (R262 to R265)
  | csrr (d : Dest) (csr : BitVec 24)
  | csrw (csr : BitVec 24) (a : Operand)
  | syscNote (a : Operand) (tl : Tail)
  | syscKill (a : Operand) (tl : Tail)
  | dbgr (d : BitVec 5) (a : Tailed Operand)
  | dbgw (a : Operand) (b : Tailed Operand)
  | iinv (a : BitVec 5) (b : Tailed (BitVec 5))
  -- steps of the core (R100, R124, R127, R103, R144, R66, R131, R151, R152, R118)
  | clauseStart (core : Nat)
  | dwellBreak (gid : Nat)
  | convergenceTimeout (gid : Nat) (hdr : W64)
  | sleepEnd (gid : Nat)
  | asyncComplete (op : Nat)
  | exitDrainingEnd (gid : Nat)
  | binTimeExpiry (core bin : Nat)
  | spawnedGroupStart (core bin : Nat)
  | blockPlacement (launch : Nat) (cores : List Nat)
  -- accesses on their way (R171, R184, R274, R279, R282, R288, R289)
  | tileAccessPerformed (gid : Nat)
  | atomicAtHome (req : Nat)
  | remoteAccess (req : Nat)
  | storeAck (req : Nat)
  | publishComplete (pub : Nat)
  | counterAdditionAtHome (req : Nat)
  | ctrWaitComplete (w : Nat)
  | ctrWaitTimeout (w : Nat)
  -- engines (R199 to R221, R248, R314, R323, R269, R271, R310 to R315, R344, R346, R339)
  | matrixOpStart (core : Nat) (ctx : Nat)
  | matrixOpComplete (core : Nat) (ctx : Nat)
  | matrixCheckTrap (gid : Nat)
  | matrixContextEnd (blk : Nat)
  | rayRecordReady (ray : Nat)
  | eviction (blk : Nat)
  | blockResume (blk core : Nat)
  | copyJobStart (job engine : Nat)
  | granuleLanded (job : Nat)
  | copyJobComplete (job : Nat)
  | encoderJob (die : Nat)
  | encoderJobComplete (job : Nat)
  | tileWrite (die ap : Nat)
  -- rendering (R352 to R362, R408 to R413)
  | meshGroupStart (launch : Nat) (core : Nat)
  | primitiveBin (prim : Nat)
  | listAppend (slot prim : Nat)
  | tilePassGrant (slot : Nat)
  | startSequence (slot tile : Nat)
  | coverageVerdictWrite (slot tile : Nat)
  | retirementComplete (blk : Nat)
  -- front end and commands (R392 to R405)
  | nodeComplete (launch : Nat)
  | commandStart (q : Nat)
  | nopCommand (q c : Nat)
  | launch (q c : Nat) (first count : Nat)
  | signal (q c : Nat) (va value : W64)
  | wait (q c : Nat) (va target : W64)
  | rpass (q c : Nat) (slot : Nat) (va : W64)
  | rpend (q c : Nat) (slot : Nat)
  | preempt (q c : Nat) (victim : Nat) (off : W64)
  | shootdown (q c : Nat) (va len : W64)
  | migrate (q c : Nat) (va len : W64)
  | release (q c : Nat) (va len : W64)
  | gang (q c : Nat) (first count : Nat) (k1 k2 k3 : W64)
  | kill (q c : Nat) (value : W64)
  | debugSampling (q c : Nat) (k1 k2 : W64)
  | debugRing (q c : Nat) (k1 k2 : W64)
  | debugBreakpoints (q c : Nat) (k1 k2 : W64)
  | debugPredicate (q c : Nat) (k1 k2 : W64)
  | debugL2Watch (q c : Nat) (k1 k2 : W64)
  | debugResume (q c : Nat) (k1 k2 : W64)
  | debugReadState (q c : Nat) (k1 k2 : W64)
  | debugWriteState (q c : Nat) (k1 k2 : W64)
  | aperture (q c : Nat) (die ap : Nat) (ctl vbase size pbase dim : W64)
  | attest (q c : Nat) (nonce report : W64)
  -- host accesses (R388 to R392, R401, R436, R438)
  | eventPost (q : Nat)
  | firmwareEvent (core : Nat)
  -- debug, profiling and replay (R368 to R385)
  | pcSample (core : Nat)
  | memorySample (core : Nat)
  | predicateResult (gid : Nat)
  | capacityRefreshRecord (core : Nat)
  | debugRecord (die : Nat)
  | orderGate (req : Nat)
  | gateTimeout (req : Nat)
  -- the fabric (R420 to R438)
  | peerAccessFail (req : Nat)
  | contributionArrival (die : Nat) (contrib : Nat)
  | mergeHoldExpiry (die : Nat) (entry : Nat)
  | reductionFlush (pub : Nat)
  | reductionAck (contrib : Nat)
  | goTime (tag : Nat)
  | armTimeout (tag : Nat)
  | startedDeadline (tag : Nat)
  | gangReleaseTimeout (tag : Nat)
  | mirageDeadline (surface : Nat)
  | vsync (surface : Nat)
  | writeBackAtHome (wb : Nat)
  -- control flow and system without operands (R139, R140, R143, R144, R402, R435)
  | exit
  | rtt
  | halt
  | yield
  | nop
  | deviceLevelError
  | timeLock
  -- what hosts, parts and other packages do (R388 to R392, R322, R403 to R405, R401, R314, R376, R420 to R438)
  | tailWrite (q : Nat) (x : W64) (size : Nat) (aligned : Bool)
  | semRead (n : Nat) (port0 port1 : Bool)
  | semWrite (n : Nat) (port : Nat) (value : W64)
  | evheadWrite (q : Nat) (value : W64)
  | queueEnable (q : Nat) (value : W64)
  | ndropRead (q : Nat)
  | mmissRead (surface : Nat)
  | leave (value : W64)
  | registerWrite (off : Nat) (value : W64)
  | hostWrite (port : Nat) (pa : Nat) (bytes : List Byte)
  | hostPortDown (port : Nat)
  | oasisSubstitution (p : WornPart)
  | firmwareCoreWear (core : Nat)
  | supplySag (die : Nat)
  | clockStep (die : Nat) (up : Bool)
  | packageReset (verified : Bool) (l2Vaults : Nat)
  | asyncEngineFault (e : EngineRef) (addr : W64)
  | uncorrectableError (u : MemUnit) (die loc : Nat) (accesses : List ErrorAccess)
  | softErrorCorrected (u : MemUnit) (die loc : Nat)
  | l2WatchHit (die slice : Nat) (pa : Nat) (write : Bool) (cls unit reqDie : Nat)
  | laneFailure (port : Nat)
  | peerAccess (src : Nat) (fa : Nat) (op : PeerOp)
  | timePacket (delta : Int) (pathChanged : Bool)
  | routeChange (src dst port : Nat)
  | packetDrop (cls dst : Nat)
  | packageJoin (number : Nat) (routes : List (Nat × Nat))
  | arm (member : Nat) (k1 k2 k3 hash : W64)
  | started (tag : Nat) (member : Nat)
  | go (tag : Nat) (time : Nat)
  | abort (tag : Nat)
  | miss (tag : Nat)
  | broken (tag : Nat)
  -- a clause start that R127 singles out
  | starved (core : Nat)
  deriving DecidableEq, Repr

end Sys2Proof
end

