-- ==== Sys2Proof/Machine/Num.lean ====
section
/-! DEFINITION. Number formats and rounding (R8 to R18): encoded values are read exactly, an operation's exact result is
rounded once. Exact results are signed rationals; irrational square roots carry a sticky half. -/

namespace Sys2Proof.Machine

/-- How a format spends its top codes (R9 to R11). -/
inductive Specials
  /-- infinities and NaNs in the all-ones exponent -/
  | ieee
  /-- E4M3: one NaN magnitude, all ones -/
  | nanOnly
  /-- E2M1: neither -/
  | none
  /-- E5M3 block scale: unsigned, one NaN -/
  | scale
  deriving DecidableEq, Repr

/-- A floating-point format: exponent bits, mantissa bits, bias (R9, R11). -/
structure Fmt where
  e : Nat
  m : Nat
  bias : Nat
  sp : Specials
  deriving DecidableEq, Repr

/-- FP32 (R9). -/
def fp32 : Fmt := ⟨8, 23, 127, .ieee⟩
/-- FP16 (R9). -/
def fp16 : Fmt := ⟨5, 10, 15, .ieee⟩
/-- BF16 (R9). -/
def bf16 : Fmt := ⟨8, 7, 127, .ieee⟩
/-- FP8 E4M3 (R9). -/
def e4m3 : Fmt := ⟨4, 3, 7, .nanOnly⟩
/-- FP8 E5M2 (R9). -/
def e5m2 : Fmt := ⟨5, 2, 15, .ieee⟩
/-- FP4 E2M1 (R9). -/
def e2m1 : Fmt := ⟨2, 1, 1, .none⟩
/-- The E5M3 block scale (R11). -/
def e5m3 : Fmt := ⟨5, 3, 15, .scale⟩

/-- The flags of R37: invalid, divide by zero, overflow, underflow, inexact. -/
abbrev FpFlags := BitVec 5
/-- Invalid operation. -/
def fIV : FpFlags := 16
/-- Divide by zero. -/
def fDZ : FpFlags := 8
/-- Overflow. -/
def fOF : FpFlags := 4
/-- Underflow. -/
def fUF : FpFlags := 2
/-- Inexact. -/
def fIX : FpFlags := 1

/-- An encoded value, read exactly: a NaN (signalling or not), an infinity, or (-1)^neg * sig * 2^exp. -/
inductive Val
  | nan (signalling : Bool)
  | inf (neg : Bool)
  | fin (neg : Bool) (sig : Nat) (exp : Int)
  deriving DecidableEq, Repr

/-- Reads a code of a format (R9, R10, R11). -/
def Fmt.dec (f : Fmt) (code : Nat) : Val :=
  let neg := f.sp != .scale && code / 2 ^ (f.e + f.m) % 2 == 1
  let E := code / 2 ^ f.m % 2 ^ f.e
  let M := code % 2 ^ f.m
  let top := E == 2 ^ f.e - 1
  let finite : Val :=
    if E = 0 then .fin neg M (1 - (f.bias : Int) - f.m) else .fin neg (2 ^ f.m + M) ((E : Int) - f.bias - f.m)
  match f.sp with
  | .ieee => if top then (if M = 0 then .inf neg else .nan (M < 2 ^ (f.m - 1))) else finite
  | .nanOnly => if top && M == 2 ^ f.m - 1 then .nan false else finite
  | .scale => if top && M == 2 ^ f.m - 1 then .nan false else finite
  | .none => finite

/-- The canonical quiet NaN (R10); E2M1 has none and holds +0 (R14). -/
def Fmt.nan (f : Fmt) : Nat :=
  match f.sp with
  | .ieee => (2 ^ f.e - 1) * 2 ^ f.m + 2 ^ (f.m - 1)
  | .nanOnly => (2 ^ f.e - 1) * 2 ^ f.m + 2 ^ f.m - 1
  | .scale => (2 ^ f.e - 1) * 2 ^ f.m + 2 ^ f.m - 1
  | .none => 0

/-- The code of the largest finite magnitude. -/
def Fmt.maxCode (f : Fmt) : Nat :=
  match f.sp with
  | .ieee => (2 ^ f.e - 2) * 2 ^ f.m + 2 ^ f.m - 1
  | .nanOnly => (2 ^ f.e - 1) * 2 ^ f.m + 2 ^ f.m - 2
  | .scale => (2 ^ f.e - 1) * 2 ^ f.m + 2 ^ f.m - 2
  | .none => (2 ^ f.e - 1) * 2 ^ f.m + 2 ^ f.m - 1

/-- Adds the sign bit to a magnitude code. -/
def Fmt.signed (f : Fmt) (neg : Bool) (mag : Nat) : Nat := if neg then 2 ^ (f.e + f.m) + mag else mag

/-- The code of an infinity. -/
def Fmt.inf (f : Fmt) (neg : Bool) : Nat := f.signed neg ((2 ^ f.e - 1) * 2 ^ f.m)

/-- An exact result: NaN, infinity, or (-1)^neg * n / d. A zero keeps its sign (R14, R15). -/
inductive Exact
  | nan
  | inf (neg : Bool)
  | num (neg : Bool) (n d : Nat)
  deriving DecidableEq, Repr

/-- A magnitude sig * 2^exp as a fraction. -/
def dyadic (neg : Bool) (sig : Nat) (exp : Int) : Exact :=
  if exp ≥ 0 then .num neg (sig * 2 ^ exp.toNat) 1 else .num neg sig (2 ^ (-exp).toNat)

/-- The exact value of an encoded one. -/
def Val.exact : Val → Exact
  | .nan _ => .nan
  | .inf n => .inf n
  | .fin n s e => dyadic n s e

/-- A signalling NaN operand sets IV (R16). -/
def Val.snan : Val → FpFlags
  | .nan true => fIV
  | _ => 0

/-- NaN of either kind. -/
def Val.isNan : Val → Bool
  | .nan _ => true
  | _ => false

/-- floor (log2 (n / d)) for positive n and d. -/
def log2Frac (n d : Nat) : Int :=
  let g : Int := (Nat.log2 n : Int) - Nat.log2 d
  let below := if g ≥ 0 then n < d * 2 ^ g.toNat else n * 2 ^ (-g).toNat < d
  if below then g - 1 else g

/-- The integer nearest to n / d * 2^(-q) by a mode, and whether n / d is not a multiple of 2^q. -/
def roundAt (mode : Rnd) (neg : Bool) (n d : Nat) (q : Int) : Nat × Bool :=
  let num := if q ≥ 0 then n else n * 2 ^ (-q).toNat
  let den := if q ≥ 0 then d * 2 ^ q.toNat else d
  let s := num / den
  let r := num % den
  let up := match mode with
    | .rn => 2 * r > den || (2 * r == den && s % 2 == 1)
    | .rz => false
    | .ru => !neg && r != 0
    | .rd => neg && r != 0
  (if up then s + 1 else s, r != 0)

/-- The result of an overflow of a sign (R13), or with `.sat` the largest finite value (R14). -/
def Fmt.overflow (f : Fmt) (mode : Rnd) (sat neg : Bool) : Nat :=
  let big := f.signed neg f.maxCode
  if sat then big
  else
    let away := match mode with
      | .rn => true
      | .rz => false
      | .ru => !neg
      | .rd => neg
    if !away then big
    else match f.sp with
      | .ieee => f.inf neg
      | .nanOnly => f.nan
      | .scale => f.nan
      | .none => big

/-- Rounds a positive magnitude n / d once (R12 to R14): the code and the flags. -/
def Fmt.roundMag (f : Fmt) (mode : Rnd) (sat neg : Bool) (n d : Nat) : Nat × FpFlags :=
  let e := log2Frac n d
  let qmin : Int := 1 - (f.bias : Int) - f.m
  let qp := e - f.m
  -- as if the exponent range were unbounded
  let sp := (roundAt mode neg n d qp).1
  let ep := if sp = 2 ^ (f.m + 1) then e + 1 else e
  let maxE : Int := (f.maxCode / 2 ^ f.m : Int) - f.bias
  let maxS := 2 ^ f.m + f.maxCode % 2 ^ f.m
  let maxQ := maxE - f.m
  let ovf : Bool := match mode with
    | .rn =>
      -- exact magnitude at least the largest plus half its unit
      let num := if maxQ ≥ 1 then 2 * n else 2 * n * 2 ^ (-maxQ).toNat
      let den := if maxQ ≥ 1 then d * 2 ^ maxQ.toNat else d
      decide (num ≥ (2 * maxS + 1) * den)
    | _ => decide (ep > maxE) || (ep == maxE && (if sp = 2 ^ (f.m + 1) then 2 ^ f.m else sp) > maxS)
  if ovf then (f.overflow mode sat neg, fOF ||| fIX)
  else
    let q := if qp < qmin then qmin else qp
    let (s, ix) := roundAt mode neg n d q
    let tiny := ep < 1 - (f.bias : Int)
    let mag := if s < 2 ^ f.m then s else ((q + f.m + f.bias).toNat) * 2 ^ f.m + (s - 2 ^ f.m)
    (f.signed neg mag, if ix then (if tiny then fUF ||| fIX else fIX) else 0)

/-- Delivers an exact result to a format (R13, R14, R92): the code and the flags. -/
def Fmt.deliver (f : Fmt) (mode : Rnd) (sat : Bool) (x : Exact) : Nat × FpFlags :=
  match f.sp, x with
  | .scale, .nan => (f.nan, fIV)
  | .scale, .inf neg => if neg then (f.nan, fIV) else (f.overflow mode sat false, fOF ||| fIX)
  | .scale, .num neg n d =>
    if n = 0 then (0, 0) else if neg then (f.nan, fIV) else f.roundMag mode sat false n d
  | .none, .nan => (0, fIV)
  | _, .nan => (f.nan, 0)
  | .ieee, .inf neg => if sat then (f.signed neg f.maxCode, fOF ||| fIX) else (f.inf neg, 0)
  | _, .inf neg => (f.overflow mode sat neg, fOF ||| fIX)
  | _, .num neg n d => if n = 0 then (f.signed neg 0, 0) else f.roundMag mode sat neg n d

/-- A finite term of an exact sum: (-1)^neg * sig * 2^exp. -/
structure Term where
  neg : Bool
  sig : Nat
  exp : Int
  deriving DecidableEq, Repr

/-- The signed integer of a term at a common exponent not above its own. -/
def Term.at (t : Term) (e : Int) : Int :=
  let a : Int := t.sig * 2 ^ (t.exp - e).toNat
  if t.neg then -a else a

/-- The sign of an exact zero sum (R15); a sum of no terms is +0. -/
def zeroSign (mode : Rnd) (ts : List Term) : Bool :=
  if ts.isEmpty then false
  else if ts.all (fun t => t.sig == 0 && t.neg) then true
  else if ts.all (fun t => t.sig == 0 && !t.neg) then false
  else mode == .rd

/-- The exact sum of terms, its zero signed by R15. -/
def sumTerms (mode : Rnd) (ts : List Term) : Exact :=
  let nz := ts.filter fun t => t.sig != 0
  match nz with
  | [] => .num (zeroSign mode ts) 0 1
  | t :: rest =>
    let e := rest.foldl (fun m x => min m x.exp) t.exp
    let s := nz.foldl (fun acc x => acc + x.at e) (0 : Int)
    if s = 0 then .num (zeroSign mode ts) 0 1 else dyadic (s < 0) s.natAbs e

/-- A product of finite values: the sign is the exclusive-or (R15). -/
def mulTerm (na : Bool) (sa : Nat) (ea : Int) (nb : Bool) (sb : Nat) (eb : Int) : Term := ⟨na ^^ nb, sa * sb, ea + eb⟩

/-- A product as a value: 0 * inf is invalid (R16). -/
def mulVal (a b : Val) : Val × FpFlags :=
  match a, b with
  | .nan _, _ => (.nan false, a.snan ||| b.snan)
  | _, .nan _ => (.nan false, a.snan ||| b.snan)
  | .inf na, .inf nb => (.inf (na ^^ nb), 0)
  | .inf na, .fin nb sb _ => if sb = 0 then (.nan false, fIV) else (.inf (na ^^ nb), 0)
  | .fin na sa _, .inf nb => if sa = 0 then (.nan false, fIV) else (.inf (na ^^ nb), 0)
  | .fin na sa ea, .fin nb sb eb => let t := mulTerm na sa ea nb sb eb; (.fin t.neg t.sig t.exp, 0)

/-- The exact sum of values: opposite infinities are invalid (R16); beside a NaN term they set no flag (log entry 84). -/
def sumVals (mode : Rnd) (vs : List Val) : Exact × FpFlags :=
  let sn := vs.foldl (fun f v => f ||| v.snan) 0
  let pos := vs.any fun v => v == .inf false
  let neg := vs.any fun v => v == .inf true
  if vs.any Val.isNan then (.nan, sn)
  else if pos && neg then (.nan, fIV)
  else if pos then (.inf false, 0)
  else if neg then (.inf true, 0)
  else
    (sumTerms mode (vs.filterMap fun v => match v with
      | .fin n s e => some ⟨n, s, e⟩
      | _ => none), 0)

/-- Negation of a value. -/
def Val.negate : Val → Val
  | .nan s => .nan s
  | .inf n => .inf (!n)
  | .fin n s e => .fin (!n) s e

/-- a + b. -/
def exactAdd (mode : Rnd) (a b : Val) : Exact × FpFlags := sumVals mode [a, b]

/-- a - b. -/
def exactSub (mode : Rnd) (a b : Val) : Exact × FpFlags := sumVals mode [a, b.negate]

/-- a * b. -/
def exactMul (a b : Val) : Exact × FpFlags := let (v, fl) := mulVal a b; (v.exact, fl)

/-- a * b + c, rounded once by the caller: a product 0 * inf is invalid whatever the addend (R84). -/
def exactFma (mode : Rnd) (a b c : Val) : Exact × FpFlags :=
  let (p, f1) := mulVal a b
  let (x, f2) := sumVals mode [p, c]
  (x, f1 ||| f2 ||| c.snan)

/-- a.lo * b.lo + a.hi * b.hi + c (R84). -/
def exactDot2 (mode : Rnd) (a0 b0 a1 b1 c : Val) : Exact × FpFlags :=
  let (p, f1) := mulVal a0 b0
  let (q, f2) := mulVal a1 b1
  let (x, f3) := sumVals mode [p, q, c]
  (x, f1 ||| f2 ||| f3 ||| c.snan)

/-- a / b (R84). -/
def exactDiv (a b : Val) : Exact × FpFlags :=
  match a, b with
  | .nan _, _ => (.nan, a.snan ||| b.snan)
  | _, .nan _ => (.nan, a.snan ||| b.snan)
  | .inf _, .inf _ => (.nan, fIV)
  | .inf na, .fin nb _ _ => (.inf (na ^^ nb), 0)
  | .fin na _ _, .inf nb => (.num (na ^^ nb) 0 1, 0)
  | .fin na sa ea, .fin nb sb eb =>
    if sb = 0 then (if sa = 0 then (.nan, fIV) else (.inf (na ^^ nb), fDZ))
    else
      let e := ea - eb
      (if e ≥ 0 then .num (na ^^ nb) (sa * 2 ^ e.toNat) sb else .num (na ^^ nb) sa (sb * 2 ^ (-e).toNat), 0)

/-- The floor of a square root, by bits from the given one down. -/
def isqrtBits (n : Nat) : Nat → Nat → Nat
  | 0, r => r
  | b + 1, r => isqrtBits n b (if (r + 2 ^ b) * (r + 2 ^ b) ≤ n then r + 2 ^ b else r)

/-- The floor of a square root. -/
def isqrt (n : Nat) : Nat := isqrtBits n (Nat.log2 n / 2 + 1) 0

/-- The square root of n / d: exact where it is a multiple of 2^(-k), else with a half of that unit added, which lies
strictly between two multiples and rounds alike. -/
def sqrtFrac (neg : Bool) (n d : Nat) : Exact :=
  let g := log2Frac n d
  let k := ((96 - g) / 2).toNat
  let q := n * 4 ^ k / d
  let r := isqrt q
  if r * r = q && n * 4 ^ k % d = 0 then .num neg r (2 ^ k) else .num neg (2 * r + 1) (2 ^ (k + 1))

/-- The square root (R84). -/
def exactSqrt (a : Val) : Exact × FpFlags :=
  match a with
  | .nan s => (.nan, if s then fIV else 0)
  | .inf n => if n then (.nan, fIV) else (.inf false, 0)
  | .fin n s e =>
    if s = 0 then (.num n 0 1, 0)
    else if n then (.nan, fIV)
    else match dyadic false s e with
      | .num _ p q => (sqrtFrac false p q, 0)
      | x => (x, 0)

/-- 1 / a (R84). -/
def exactRcp (a : Val) : Exact × FpFlags := exactDiv (.fin false 1 0) a

/-- 1 / sqrt a (R84). -/
def exactRsq (a : Val) : Exact × FpFlags :=
  match a with
  | .nan s => (.nan, if s then fIV else 0)
  | .inf n => if n then (.nan, fIV) else (.num false 0 1, 0)
  | .fin n s e =>
    if s = 0 then (.inf n, fDZ)
    else if n then (.nan, fIV)
    else match dyadic false s e with
      | .num _ p q => (sqrtFrac false q p, 0)
      | x => (x, 0)

/-- a * 2^n (R84): the power is cut where every result has overflowed or vanished alike. -/
def exactLdexp (a : Val) (n : Int) : Exact × FpFlags :=
  let k := max (-1000) (min 1000 n)
  match a with
  | .nan s => (.nan, if s then fIV else 0)
  | .inf g => (.inf g, 0)
  | .fin g s e => (dyadic g s (e + k), 0)

/-- Orders two non-NaN values, with -0 below +0 (R17): a is at most b. -/
def Val.le (a b : Val) : Bool :=
  match a, b with
  | .inf true, _ => true
  | _, .inf false => true
  | .inf false, _ => false
  | _, .inf true => false
  | .fin na sa ea, .fin nb sb eb =>
    if na && !nb then true
    else if !na && nb then false
    else
      let e := min ea eb
      let x := sa * 2 ^ (ea - e).toNat
      let y := sb * 2 ^ (eb - e).toNat
      if na then decide (y ≤ x) else decide (x ≤ y)
  | _, _ => false

/-- Numerical comparison of two non-NaN values, where +0 and -0 are equal: a < b. -/
def Val.lt (a b : Val) : Bool :=
  match a, b with
  | .fin _ 0 _, .fin _ 0 _ => false
  | _, _ => Val.le a b && !Val.le b a

/-- Minimum and maximum of two codes of a format (R17): the chosen operand's code, canonical NaN otherwise. -/
def Fmt.minmax (f : Fmt) (isMax num : Bool) (a b : Nat) : Nat × FpFlags :=
  let x := f.dec a
  let y := f.dec b
  let fl := x.snan ||| y.snan
  let pick := if isMax then (if Val.le x y then b else a) else (if Val.le x y then a else b)
  match x.isNan, y.isNan with
  | false, false => (pick, fl)
  | true, true => (f.nan, fl)
  | true, false => (if num then b else f.nan, fl)
  | false, true => (if num then a else f.nan, fl)

/-- One of the conditions of fcmp (R86). -/
def Fmt.compare (f : Fmt) (c : FCond) (a b : Nat) : Bool × FpFlags :=
  let x := f.dec a
  let y := f.dec b
  let uno := x.isNan || y.isNan
  let lt := !uno && Val.lt x y
  let gt := !uno && Val.lt y x
  let eq := !uno && !lt && !gt
  (match c with
    | .eq => eq
    | .ne => uno || lt || gt
    | .lt => lt
    | .le => lt || eq
    | .gt => gt
    | .ge => gt || eq
    | .ord => !uno
    | .uno => uno, x.snan ||| y.snan)

/-- The class number of fclass (R87). -/
def Fmt.classOf (f : Fmt) (a : Nat) : Nat :=
  match f.dec a with
  | .nan true => 0
  | .nan false => 1
  | .inf true => 2
  | .inf false => 9
  | .fin n s _ =>
    if s = 0 then (if n then 5 else 6)
    else
      let sub := a / 2 ^ f.m % 2 ^ f.e == 0
      if n then (if sub then 4 else 3) else (if sub then 7 else 8)

/-- fabs and fneg (R85): a NaN gives the canonical one. -/
def Fmt.signOp (f : Fmt) (flip : Bool) (a : Nat) : Nat × FpFlags :=
  match f.dec a with
  | .nan s => (f.nan, if s then fIV else 0)
  | _ =>
    let sbit := 2 ^ (f.e + f.m)
    let mag := a % sbit
    (if flip then (if a / sbit % 2 = 1 then mag else sbit + mag) else mag, 0)

/-- The largest integer multiple at most, or nearest to, a dyadic value: its sign and magnitude (R90). -/
def integral (mode : Rnd) (neg : Bool) (sig : Nat) (exp : Int) : Nat :=
  match dyadic neg sig exp with
  | .num _ n d => (roundAt mode neg n d 0).1
  | _ => 0

/-- frnd (R90): never sets IX. -/
def Fmt.rnd (f : Fmt) (mode : Rnd) (a : Nat) : Nat × FpFlags :=
  match f.dec a with
  | .nan s => (f.nan, if s then fIV else 0)
  | .inf _ => (a, 0)
  | .fin n s e => if s = 0 then (a, 0) else ((f.deliver .rn false (.num n (integral mode n s e) 1)).1, 0)

/-- ffrac (R90): a - floor a, rounded to nearest; 1.0 is replaced by the largest value below it. -/
def Fmt.frac (f : Fmt) (a : Nat) : Nat × FpFlags :=
  match f.dec a with
  | .nan s => (f.nan, if s then fIV else 0)
  | .inf _ => (f.nan, fIV)
  | .fin n s e =>
    if s = 0 then (0, 0)
    else
      let fl := integral .rd n s e
      let x := sumTerms .rn [⟨n, s, e⟩, ⟨!n, fl, 0⟩]
      let (c, g) := f.deliver .rn false x
      let one := f.bias * 2 ^ f.m
      (if c = one then one - 1 else c, g)

/-- fgetexp (R90), as an int32. -/
def Fmt.getexp (f : Fmt) (a : Nat) : Int :=
  match f.dec a with
  | .nan _ => 2 ^ 31 - 1
  | .inf _ => 2 ^ 31 - 1
  | .fin _ s e => if s = 0 then -(2 ^ 31) else (Nat.log2 s : Int) + e

/-- fgetmant (R90). -/
def Fmt.getmant (f : Fmt) (a : Nat) : Nat × FpFlags :=
  match f.dec a with
  | .nan s => (f.nan, if s then fIV else 0)
  | .inf _ => (f.nan, fIV)
  | .fin n s _ => if s = 0 then (a, 0) else ((f.deliver .rn false (dyadic n s (-(Nat.log2 s : Int)))).1, 0)

/-- A conversion between float formats (R18). -/
def Fmt.convert (src dst : Fmt) (mode : Rnd) (sat : Bool) (a : Nat) : Nat × FpFlags :=
  let v := src.dec a
  let (c, fl) := dst.deliver mode sat v.exact
  (c, fl ||| v.snan)

/-- The exact FP32 code of a value of a narrower format, canonical for NaN (R18). -/
def Fmt.widen (src : Fmt) (a : Nat) : W32 := BitVec.ofNat 32 (src.convert fp32 .rn false a).1

-- Integers

/-- The integer of a width-w code by signedness (R71). -/
def intOf (signed : Bool) (w x : Nat) : Int :=
  let y := x % 2 ^ w
  if signed && y ≥ 2 ^ (w - 1) then (y : Int) - 2 ^ w else y

/-- The smallest and largest integer of a type (R8). -/
def intMin (signed : Bool) (w : Nat) : Int := if signed then -(2 ^ (w - 1) : Int) else 0

/-- The largest integer of a type. -/
def intMax (signed : Bool) (w : Nat) : Int := if signed then (2 ^ (w - 1) : Int) - 1 else (2 ^ w : Int) - 1

/-- Clamps to the type's range. -/
def clampInt (signed : Bool) (w : Nat) (v : Int) : Int := max (intMin signed w) (min (intMax signed w) v)

/-- The low w bits of an integer, as a natural number. -/
def wrapNat (w : Nat) (v : Int) : Nat := (v % (2 ^ w : Int)).toNat

/-- Fit of R75: wraps, or clamps with `.sat`; the code of width w. -/
def fit (signed sat : Bool) (w : Nat) (v : Int) : Nat := wrapNat w (if sat then clampInt signed w v else v)

/-- A float to an integer (R18): rounded, then clamped. -/
def Fmt.toInt (f : Fmt) (mode : Rnd) (signed : Bool) (w : Nat) (a : Nat) : Nat × FpFlags :=
  match f.dec a with
  | .nan _ => (0, fIV)
  | .inf n => (wrapNat w (if n then intMin signed w else intMax signed w), fOF ||| fIV)
  | .fin n s e =>
    match dyadic n s e with
    | .num _ p q =>
      let (r, ix) := roundAt mode n p q 0
      let v : Int := if n then -(r : Int) else r
      let c := clampInt signed w v
      (wrapNat w c, if c = v then (if ix then fIX else 0) else fOF ||| fIX)
    | _ => (0, 0)

/-- An integer to a float (R18). -/
def Fmt.ofInt (f : Fmt) (mode : Rnd) (sat : Bool) (v : Int) : Nat × FpFlags :=
  f.deliver mode sat (.num (v < 0) v.natAbs 1)

/-- FP32 addition rounded to nearest even, on codes: scan, atomics and the accumulators (R26, R29, R106). -/
def fp32Add (a b : W32) : W32 :=
  BitVec.ofNat 32 (fp32.deliver .rn false (exactAdd .rn (fp32.dec a.toNat) (fp32.dec b.toNat)).1).1

end Sys2Proof.Machine
end

