-- ==== Sys2Proof/Config.lean ====
section
/-! DEFINITION. The free values of the model: constants without a body, one for each value the spec leaves open.
Nothing in Lean can evaluate them, so a theorem about the model holds for every choice of them. -/

namespace Sys2Proof.Config

/-- Arithmetic-clock cycles that pass before the step numbered n: the spec gives no step its time (log entry 3). -/
opaque elapsed : Nat → Nat
/-- Which of the enabled moves comes next at the step numbered n, where no rule orders them (log entry 2). -/
opaque choice : Nat → Nat
/-- Which cores and engines a free choice of a place names at the step numbered n (log entry 2). -/
opaque placeAt : Nat → Nat → Nat
/-- Fabric-time ticks that pass before the step numbered n (log entry 3). -/
opaque elapsedTicks : Nat → Nat

/-- The five transcendental functions of R88 on FP32 bits outside their exact cases: fixed functions of the operand
(R89) whose bits the spec does not give (log entry 6). The index is 0 fexp2, 1 flog2, 2 fsinpi, 3 fcospi, 4 ftanh. -/
opaque transcendental : Nat → W32 → W32
/-- The value that attr delivers where its exact result is no FP32 value, if it lies within two ulps: a fixed function of the instruction's inputs (R232, log entry 7). The list is the inputs' words, last the result's number. -/
opaque attrValue : List W32 → W32
/-- Whether a running matrix operation reads or writes a 16-byte unit or an element by the step numbered n (R201, log entry 63). -/
opaque matMoves : Nat → Nat → Bool
/-- Whether a value that has been delivered for an operation in flight reaches its destination before the step numbered n (R66,
log entry 28): step number, operation, the destination's key. -/
opaque lands : Nat → Nat → Nat → Bool
/-- Whether the fetch unit has fetched a clause by the step numbered n (R122, log entry 3); the second number is the group. -/
opaque fetches : Nat → Nat → Bool
/-- The word by which a record names a suspended ray (R244, log entry 21). -/
opaque rayHandle : Nat → W32
/-- The intersection of a ray with a triangle where the ray or the triangle holds an infinity or a NaN: no exact one
exists (R247, log entry 22). Arguments: the words of both, and which value: 0 whether there is one, 1 t, 2 u, 3 v, 4 the
side. -/
opaque rayHit : List W32 → Nat → W32
/-- Words 1, 2, 3 and 6 of a record of status 3, and a box of non-finite numbers: what the spec does not say of them (R244,
R245, log entry 22). -/
opaque rayMalformed : Nat → Nat → W32
/-- A global register of the hub: the spec names the identity, the boot status and the operating point and gives no layout
(R388, log entry 86). Arguments: the word's number, whether the boot was verified, and the dies' clock steps. -/
opaque globalRegister : Nat → Bool → List Nat → W64
/-- Whether the addition to a node's DONE meets an uncorrectable error (R398, log entry 23): step number, node. -/
opaque doneError : Nat → Nat → Bool
/-- The bytes of an attestation report: signature, leaf index and certificate (R405, log entry 9). Arguments: nonce,
leaf count. -/
opaque attestReport : List Byte → Nat → List Byte
/-- An attestation report that holds a status and no signature (R405, log entry 9): its layout is not given. -/
opaque attestStatus : Nat → List Byte
/-- Whether an effect that a kill may or may not let happen happens (R268, log entry 14): step number, the number of the request,
contribution or publish, and its access. -/
opaque killKeeps : Nat → Nat → Nat → Bool
/-- A byte that the spec calls unpredictable (R416, log entry 15): step number, address. -/
opaque unpredictable : Nat → Nat → Byte
/-- Byte v-near list of the topology records (R403): which cores lie beneath a vault depends on the part. -/
opaque topology : Nat → W64
/-- Additional tiles in which the binner lists a primitive (R354): primitive ID, tile. -/
opaque extraTile : W64 → Nat → Bool
/-- The hash of an attestation nonce and image, or a member list's hash in ARM (R405, R430). -/
opaque listHash : List (BitVec 12) → W64
/-- The value of a peer's register or memory that only the peer knows, as this package receives it (R423). -/
opaque peerReply : Nat → W64
/-- A byte of a peer's memory as this package reads it (R423): every package may write it. Arguments: step number, home
address, and the byte that this package wrote last (log entry 35). -/
opaque peerByte : Nat → Nat → Byte → Byte
/-- The requester identifier of a peer's operation, which its packet does not show (R381, log entry 39): package, step number. -/
opaque peerRequester : Nat → Nat → W64
/-- Whether a peer's import table refuses an access (R423, R424): step number, home address (log entry 35). -/
opaque peerRefuses : Nat → Nat → Bool
/-- The requester that a physical measurement names: latency fields of sampled records (R377, log entry 3). -/
opaque measured : Nat → Nat → W64
/-- The site of a kill report that concerns no instruction: a KILL command's, a device-level error's, an uncorrectable error's
where the event names the launch alone (R366, log entry 23). Arguments: launch, and which value: 0 PC, 1 SEQ, 2 core, 3 GIX,
4 block; 5 which CODE the kills of a device-level error report. -/
opaque errorSite : Nat → Nat → W64

/-- The words of a debug-ring record (R369) or, with 256 added to the type, of an event record (R401) that the spec does not
lay out: type, contents, word (log entry 19). -/
opaque recordWord : Nat → List W64 → Nat → W64
/-- The place in the replay log table of a logical home's entry, and the number that names the home in a report: the spec
gives neither (R391, R385; log entry 20). The list is the kind and numbers of the home. -/
opaque logEntry : List Nat → Nat
/-- The number that names a home in a report (log entry 20). -/
opaque homeName : List Nat → W64

end Sys2Proof.Config
end

