-- ==== Sys2Proof/WellFormed.lean ====
section
/-! DEFINITION. Well-formed instructions: the rules of the entries whose breach makes a word illegal (R41, R53, R54,
R60, R70, R73 and each entry), as one check that names what is wrong. The rules that depend on the state (the clause,
the allocation, the handler) are the meanings' own. -/

namespace Sys2Proof

/-- Why an instruction is not well formed. -/
inductive WfError
  | constIndex      -- a constant index above 46 (R54)
  | typeCode        -- a type outside the entry's list (R73)
  | destination     -- a destination outside the entry's set (R52, R41, R70)
  | operandClass    -- an operand class the entry does not allow (R53, R73)
  | scalarForm      -- a vector operand in a scalar form (R70)
  | queueWide       -- a queue operand read at 64 bits (R41)
  | modifier        -- a modifier the entry does not define (R60)
  | register        -- a register or control-register number that does not exist (R261)
  deriving DecidableEq, Repr

/-- The first check that fails. -/
def firstErr : List (Bool × WfError) → Option WfError
  | [] => none
  | (ok, e) :: rest => if ok then firstErr rest else some e

namespace IType

/-- The type is 64 bits wide. -/
def wide : IType → Bool
  | .i64 => true
  | .n64 => true
  | _ => false

/-- The type is signed. -/
def signed : IType → Bool
  | .i32 => true
  | .i16 => true
  | .i8 => true
  | .i64 => true
  | _ => false

/-- The width in bits. -/
def width : IType → Nat
  | .i32 => 32
  | .n32 => 32
  | .i16 => 16
  | .n16 => 16
  | .i8 => 8
  | .n8 => 8
  | .i64 => 64
  | .n64 => 64

end IType

namespace FType

/-- FP32, FP16 or BF16. -/
def scalar : FType → Bool
  | .f32 => true
  | .f16 => true
  | .bf16 => true
  | _ => false

/-- A packed pair of 16-bit values. -/
def packed : FType → Bool
  | .f16x2 => true
  | .bf16x2 => true
  | _ => false

end FType

/-- A constant of R54 exists. -/
def Operand.constOk : Operand → Bool
  | .const idx => idx.toNat ≤ 46
  | _ => true

/-- Operand classes, for the entries that list them. -/
def Operand.isV : Operand → Bool
  | .v _ _ => true
  | _ => false

/-- A queue operand. -/
def Operand.isQ : Operand → Bool
  | .q _ _ => true
  | _ => false

/-- A general scalar register. -/
def Operand.isS : Operand → Bool
  | .s _ => true
  | _ => false

/-- A special other than LID. -/
def Operand.isSp : Operand → Bool
  | .sp _ => true
  | _ => false

/-- An inline constant. -/
def Operand.isConst : Operand → Bool
  | .const _ => true
  | _ => false

/-- An inline constant of index 0 to n. -/
def Operand.isConstLe (n : Nat) : Operand → Bool
  | .const idx => idx.toNat ≤ n
  | _ => false

/-- An operand that has one value per issue: S, a special other than LID, or a constant (R34, R70). -/
def Operand.uniform : Operand → Bool
  | .s _ => true
  | .sp _ => true
  | .const _ => true
  | _ => false

/-- The destination makes the form scalar (R70). -/
def Dest.scalar : Dest → Bool
  | .s _ => true
  | .sp _ => true
  | _ => false

/-- The specials a scalar form may write (R70). -/
def Special.writable : Special → Bool
  | .cm => true
  | .en => true
  | .lc0 => true
  | .lc1 => true
  | .lc2 => true
  | .fps => true
  | _ => false

/-- A destination of the arithmetic instructions: `_` only where the result would be pushed (R41). -/
def Dest.aluOk (wide : Bool) : Dest → Bool
  | .v _ => true
  | .keep => !wide
  | .s _ => true
  | .sp k => k.writable

/-- V or `_`. -/
def Dest.vecOk : Dest → Bool
  | .v _ => true
  | .keep => true
  | _ => false

/-- CM or S (R104). -/
def Dest.cmOrS : Dest → Bool
  | .sp .cm => true
  | .s _ => true
  | _ => false

/-- V, `_` or S (R104). -/
def Dest.vecOrS : Dest → Bool
  | .v _ => true
  | .keep => true
  | .s _ => true
  | _ => false

/-- A source of an arithmetic instruction: its constant exists, it suits the form, and no queue entry is read at 64
bits (R41, R54, R70). -/
def srcChecks (d : Dest) (wide : Bool) (o : Operand) : List (Bool × WfError) :=
  [(o.constOk, .constIndex), (!d.scalar || o.uniform, .scalarForm), (!(wide && o.isQ), .queueWide)]

/-- The checks of an arithmetic instruction: its type, its destination and its sources with their widths. -/
def aluWf (typeOk : Bool) (d : Dest) (dWide : Bool) (srcs : List (Operand × Bool)) : Option WfError :=
  firstErr ((typeOk, .typeCode) :: (d.aluOk dWide, .destination) :: srcs.flatMap fun p => srcChecks d p.2 p.1)

/-- A per-lane comparison into CM (R78, R86). -/
def cmpWf (typeOk wide : Bool) (a b : Operand) : Option WfError :=
  firstErr ((typeOk, .typeCode) :: (srcChecks .keep wide a ++ srcChecks .keep wide b))

/-- The base of a memory instruction (R59). -/
def baseOk (o : Operand) : Bool :=
  match o with
  | .v _ _ => true
  | .s _ => true
  | .const idx => idx == 0
  | _ => false

/-- The index of a memory instruction (R59, R172). A Q index, which is a 32-bit source, is taken at every access width: R59 does
not list it and R172 refuses it 'with a 64-bit width' alone (log entry 90, DEDUCED). -/
def indexOk (o : Operand) : Bool :=
  match o with
  | .v _ _ => true
  | .q _ _ => true
  | .s _ => true
  | .const idx => idx.toNat ≤ 46
  | _ => false

/-- A V, Q, S or constant data operand, read in each EM lane. Class 10 holds the specials too (R53), and R34 allows LID
here by name. -/
def dataOk (o : Operand) : Bool := o.constOk

/-- An S register or a constant. -/
def sOrConst (o : Operand) : Bool :=
  match o with
  | .s _ => true
  | .const idx => idx.toNat ≤ 46
  | _ => false

/-- V or S. -/
def vOrS (o : Operand) : Bool := o.isV || o.isS

/-- V, Q or S, read in each EM lane: class 10 holds the specials too (R53), and R34 allows LID here. -/
def vqs (o : Operand) : Bool := !o.isConst

/-- The accumulator field of R203: a counter that exists and a ring that ends at tile 7 or before. -/
def AccField.ok (f : AccField) : Bool :=
  match f.ring with
  | none => true
  | some (r, lc) => lc.toNat < 3 && f.base.toNat + r.toNat ≤ 7

/-- The data register of a store: V, or S where the width allows it (R176). -/
def storeSrcOk (wide128 : Bool) : Dest → Bool
  | .v _ => true
  | .s _ => !wide128
  | _ => false

/-- Control registers (R261): number, handler only, writable. -/
def csrTable : List (Nat × Bool × Bool) :=
  [(0x000, true, false), (0x001, true, false), (0x002, true, false), (0x003, true, true), (0x004, true, true),
   (0x005, true, true), (0x006, false, false), (0x007, true, false), (0x008, true, true), (0x009, true, true),
   (0x00A, true, true), (0x00B, true, true), (0x010, false, false), (0x011, false, false), (0x012, false, false),
   (0x013, false, false), (0x014, false, false), (0x015, false, false)]

/-- The row of a control register. -/
def csrRow (n : BitVec 24) : Option (Bool × Bool) :=
  (csrTable.find? fun r => r.1 == n.toNat).map fun r => r.2

/-- A routing-table entry of R45: reserved bits zero, bit 5 zero for kinds 0 to 2. -/
def rtEntryOk (e : BitVec 16) : Bool :=
  e.extractLsb' 6 8 == 0#8 && (e.extractLsb' 14 2 == 3#2 || e.getLsbD 5 == false)

/-- One test as a check. -/
def chk (ok : Bool) (e : WfError) : Option WfError := firstErr [(ok, e)]

/-- What is wrong with an instruction, or none. The rows that are events have no word and nothing to check. -/
def Instr.wfError : Instr → Option WfError
  | .iadd t d a b _ => aluWf true d t.wide [(a, t.wide), (b, t.wide)]
  | .isub t d a b _ => aluWf true d t.wide [(a, t.wide), (b, t.wide)]
  | .imul t _ d a b _ => aluWf true d t.wide [(a, t.wide), (b, t.wide)]
  | .imulhi t d a b _ => aluWf (t.width ≥ 32) d t.wide [(a, t.wide), (b, t.wide)]
  | .imad t _ d a b c _ => aluWf true d t.wide [(a, t.wide), (b, t.wide), (c, t.wide)]
  | .idiv t _ d a b _ => aluWf true d t.wide [(a, t.wide), (b, t.wide)]
  | .irem t d a b _ => aluWf true d t.wide [(a, t.wide), (b, t.wide)]
  | .ineg t _ d a _ => aluWf t.signed d t.wide [(a, t.wide)]
  | .iabs t _ d a _ => aluWf t.signed d t.wide [(a, t.wide)]
  | .imin t d a b _ => aluWf true d t.wide [(a, t.wide), (b, t.wide)]
  | .imax t d a b _ => aluWf true d t.wide [(a, t.wide), (b, t.wide)]
  | .iaddsat t d a b _ => aluWf true d t.wide [(a, t.wide), (b, t.wide)]
  | .isubsat t d a b _ => aluWf true d t.wide [(a, t.wide), (b, t.wide)]
  | .iclamp t d a b c _ => aluWf true d t.wide [(a, t.wide), (b, t.wide), (c, t.wide)]
  | .add64 t d a b _ => (chk (vOrS a || a.isConst) .operandClass).or (aluWf (t == .i32 || t == .n32) d true [(a, true), (b, false)])
  | .lea t d a b _ _ => (chk (vOrS a || a.isConst) .operandClass).or (aluWf (t == .i32 || t == .n32) d true [(a, true), (b, false)])
  | .dot4 t _ d a b c _ => aluWf (t == .i8 || t == .n8) d false [(a, false), (b, false), (c, false)]
  | .icmp t _ a b _ => cmpWf true t.wide a b
  | .and t d a b _ => aluWf (t == .i32 || t == .i64) d t.wide [(a, t.wide), (b, t.wide)]
  | .or t d a b _ => aluWf (t == .i32 || t == .i64) d t.wide [(a, t.wide), (b, t.wide)]
  | .xor t d a b _ => aluWf (t == .i32 || t == .i64) d t.wide [(a, t.wide), (b, t.wide)]
  | .not t d a _ => aluWf (t == .i32 || t == .i64) d t.wide [(a, t.wide)]
  | .andn t d a b _ => aluWf (t == .i32 || t == .i64) d t.wide [(a, t.wide), (b, t.wide)]
  | .shl t d a b _ => aluWf (t == .i32 || t == .i64) d t.wide [(a, t.wide), (b, false)]
  | .shr t d a b _ => aluWf (t == .i32 || t == .i64) d t.wide [(a, t.wide), (b, false)]
  | .sar t d a b _ => aluWf (t == .i32 || t == .i64) d t.wide [(a, t.wide), (b, false)]
  | .rot t d a b _ => aluWf (t == .i32 || t == .i64) d t.wide [(a, t.wide), (b, false)]
  | .popc t d a _ => aluWf (t == .i32 || t == .i64) d false [(a, t.wide)]
  | .clz t d a _ => aluWf (t == .i32 || t == .i64) d false [(a, t.wide)]
  | .ctz t d a _ => aluWf (t == .i32 || t == .i64) d false [(a, t.wide)]
  | .brev t d a _ => aluWf (t == .i32 || t == .i64) d t.wide [(a, t.wide)]
  | .bfx t d a b c _ => aluWf (t == .i32 || t == .n32) d false [(a, false), (b, false), (c, false)]
  | .bfi d a b c _ => aluWf true d false [(a, false), (b, false), (c, false)]
  | .perm8 d a b c _ => aluWf true d false [(a, false), (b, false), (c, false)]
  | .sel t d a b _ => aluWf (t == .i32 || t == .i64) d t.wide [(a, t.wide), (b, t.wide)]
  | .mov t d a _ => aluWf (t == .i32 || t == .i64) d t.wide [(a, t.wide)]
  | .movi t d _ _ => aluWf (t.width ≥ 32) d t.wide []
  | .lit t d a _ _ => aluWf (t == .i32 || t == .i64) d t.wide [(a, t.wide)]
  | .fadd t _ _ d a b _ => aluWf t.scalar d false [(a, false), (b, false)]
  | .fsub t _ _ d a b _ => aluWf t.scalar d false [(a, false), (b, false)]
  | .fmul t _ _ d a b _ => aluWf t.scalar d false [(a, false), (b, false)]
  | .ffma t _ _ d a b c _ => aluWf t.scalar d false [(a, false), (b, false), (c, false)]
  | .fmin t _ d a b _ => aluWf (t.scalar || t.packed) d false [(a, false), (b, false)]
  | .fmax t _ d a b _ => aluWf (t.scalar || t.packed) d false [(a, false), (b, false)]
  | .fcmp t _ a b _ => cmpWf t.scalar false a b
  | .fclass t d a _ => aluWf (!t.packed) d false [(a, false)]
  | .frcp t _ _ d a _ => aluWf t.scalar d false [(a, false)]
  | .frsq t _ _ d a _ => aluWf t.scalar d false [(a, false)]
  | .fsqrt t _ _ d a _ => aluWf t.scalar d false [(a, false)]
  | .fdiv t _ _ d a b _ => aluWf t.scalar d false [(a, false), (b, false)]
  | .fexp2 t d a _ => aluWf t.scalar d false [(a, false)]
  | .flog2 t d a _ => aluWf t.scalar d false [(a, false)]
  | .fsinpi t d a _ => aluWf t.scalar d false [(a, false)]
  | .fcospi t d a _ => aluWf t.scalar d false [(a, false)]
  | .ftanh t d a _ => aluWf t.scalar d false [(a, false)]
  | .frnd t _ d a _ => aluWf t.scalar d false [(a, false)]
  | .ffrac t d a _ => aluWf t.scalar d false [(a, false)]
  | .fldexp t _ _ d a b _ => aluWf t.scalar d false [(a, false), (b, false)]
  | .fgetexp t d a _ => aluWf t.scalar d false [(a, false)]
  | .fgetmant t d a _ => aluWf t.scalar d false [(a, false)]
  | .hadd2 t _ _ d a b _ => aluWf t.packed d false [(a, false), (b, false)]
  | .hmul2 t _ _ d a b _ => aluWf t.packed d false [(a, false), (b, false)]
  | .hfma2 t _ _ d a b c _ => aluWf t.packed d false [(a, false), (b, false), (c, false)]
  | .fdot2 t _ _ d a b c _ => aluWf t.packed d false [(a, false), (b, false), (c, false)]
  | .fabs t d a _ => aluWf (t.scalar || t.packed) d false [(a, false)]
  | .fneg t d a _ => aluWf (t.scalar || t.packed) d false [(a, false)]
  | .fclamp t d a b c _ => aluWf (t.scalar || t.packed) d false [(a, false), (b, false), (c, false)]
  | .cvtToInteger src t _ rnd d a _ =>
    match src with
    | .int it => (chk (rnd == .rn) .modifier).or (aluWf true d t.wide [(a, it.wide)])
    | _ => aluWf true d t.wide [(a, false)]
  | .cvtToFloat src t _ _ d a _ =>
    match src with
    | .int it => aluWf (!t.packed) d false [(a, it.wide)]
    | _ => aluWf (!t.packed) d false [(a, false)]
  | .pk fmt _ _ d a b c _ =>
    (chk (match fmt with
      | .f16 => c == 0
      | .bf16 => c == 0
      | .e2m1 => true
      | _ => c.toNat < 2) .modifier).or (aluWf true d false [(a, false), (b, false)])
  | .unpk fmt d a c _ =>
    (chk (match fmt with
      | .f16 => c.toNat < 2
      | .bf16 => c.toNat < 2
      | .e2m1 => true
      | _ => c.toNat < 4) .modifier).or (aluWf true d false [(a, false)])
  | .scaleq _ _ d a _ _ => firstErr [(d.vecOk, .destination), (a.constOk, .constIndex)]
  | .mtest _ d a _ _ => firstErr [(d.cmOrS, .destination), (a.constOk, .constIndex)]
  | .mbits d a _ _ => firstErr [(d.vecOrS, .destination), (a.constOk, .constIndex)]
  | .mfold op ty d a _ _ =>
    firstErr [(ty != .f32 || op == .add || op == .min || op == .max, .modifier), (d.vecOrS, .destination),
      (a.constOk, .constIndex)]
  | .scan op ty _ d a _ _ =>
    firstErr [(ty != .f32 || op == .add || op == .min || op == .max, .modifier), (d.vecOk, .destination),
      (a.constOk, .constIndex)]
  | .lperm _ d a b _ _ => firstErr [(d.vecOk, .destination), (a.constOk, .constIndex), (b.constOk, .constIndex)]
  | .mpeers wide d a _ _ =>
    firstErr [(d.vecOk, .destination), (!wide || vOrS a, .operandClass), (a.constOk, .constIndex)]
  | .mlow d _ _ => chk d.cmOrS .destination
  | .lsync _ _ => none
  | .twld _ _ _ _ _ => none
  | .twst _ _ _ _ _ => none
  | .tdec _ k2 hi fmt d a _ =>
    firstErr [(!(k2 && hi), .modifier), (d.vecOk, .destination), (a.constOk, .constIndex),
      ((match fmt with
        | .f32 b => b.constOk
        | _ => true), .constIndex)]
  | .tdec2 _ k2 hi _ d a _ => firstErr [(!(k2 && hi), .modifier), (d.vecOk, .destination), (a.constOk, .constIndex)]
  | .ensave _ _ => none
  | .enrest a _ => firstErr [(a.uniform, .operandClass), (a.constOk, .constIndex)]
  | .enand a _ => firstErr [(a.uniform, .operandClass), (a.constOk, .constIndex)]
  | .enor a _ => firstErr [(a.uniform, .operandClass), (a.constOk, .constIndex)]
  | .enandn a _ => firstErr [(a.uniform, .operandClass), (a.constOk, .constIndex)]
  | .cmget _ _ => none
  | .cmset a _ => chk (a.isV || a.isQ || a.isS) .operandClass
  | .setab a b c _ => chk (sOrConst a && sOrConst b && sOrConst c) .operandClass
  | .setrt n e _ => firstErr [(n.toNat < 7, .register), (rtEntryOk e, .modifier)]
  | .bra _ _ => none
  | .brc c _ _ =>
    match c with
    | .nz a => chk a.constOk .constIndex
    | .z a => chk a.constOk .constIndex
    | _ => none
  | .bru c _ _ =>
    match c with
    | .snz a => firstErr [(a.uniform, .operandClass), (a.constOk, .constIndex)]
    | .sz a => firstErr [(a.uniform, .operandClass), (a.constOk, .constIndex)]
    | _ => none
  | .call _ _ _ => none
  | .ret a => chk (vOrS a) .operandClass
  | .jmpi a => chk (vOrS a) .operandClass
  | .calli d a =>
    firstErr [((match d with
      | .v _ => true
      | .s _ => true
      | _ => false), .destination), (vOrS a, .operandClass)]
  | .exit => none
  | .rtt => none
  | .halt => none
  | .loop n off => firstErr [(n.toNat < 3, .register), (off.getLsbD 23 || off == 0, .modifier)]
  | .yield => none
  | .spawn _ a b c => firstErr [(vOrS a, .operandClass), (b.constOk, .constIndex), (c.constOk, .constIndex)]
  | .trap _ => none
  | .brk _ => none
  | .nop => none
  | .sleep _ => none
  | .ld wd sx _ _ base index _ _ =>
    firstErr [(!sx || wd == .b || wd == .h, .modifier), (baseOk base, .operandClass), (indexOk index, .operandClass)]
  | .st wd _ src base index _ _ =>
    firstErr [(storeSrcOk (wd == .q) src, .destination), (baseOk base, .operandClass), (indexOk index, .operandClass)]
  | .ldsc wd sx _ _ _ index _ _ =>
    firstErr [(!sx || wd == .b || wd == .h, .modifier), (wd != .q, .modifier),
      ((match index with
        | none => true
        | some o => sOrConst o), .operandClass)]
  | .ldp _ _ _ xy _ _ _ => chk (vqs xy) .operandClass
  | .stp _ src _ xy _ _ _ => firstErr [(storeSrcOk false src, .destination), (vqs xy, .operandClass)]
  | .prefetch _ base index _ => firstErr [(baseOk base, .operandClass), (indexOk index, .operandClass)]
  | .cwb lines _ =>
    match lines with
    | .line base index _ => firstErr [(baseOk base, .operandClass), (indexOk index, .operandClass)]
    | .all => none
  | .cinv lines _ =>
    match lines with
    | .line base index _ => firstErr [(baseOk base, .operandClass), (indexOk index, .operandClass)]
    | .all => none
  | .aconv _ d a =>
    match d with
    | .v _ => chk (vOrS a) .operandClass
    | .s _ => chk a.isS .operandClass
    | _ => some .destination
  | .aclass _ a => chk (vOrS a) .operandClass
  | .atom _ _ base x _ _ => firstErr [(baseOk base, .operandClass), (dataOk x, .operandClass)]
  | .atomCas _ a b c _ => chk (vOrS a && dataOk b && dataOk c) .operandClass
  | .fatom _ _ base x _ _ => firstErr [(baseOk base, .operandClass), (dataOk x, .operandClass)]
  | .ctrAdd _ _ x _ _ => chk (sOrConst x) .operandClass
  | .ctrWait _ _ _ _ x _ _ => chk (sOrConst x) .operandClass
  | .ctrRd _ _ _ _ => none
  | .phase _ _ => none
  | .phaseP _ _ => none
  | .phaseS _ => none
  | .lfence _ _ => none
  | .sign _ a b _ => chk ((a.isS || a.isConstLe 31) && vqs b) .operandClass
  | .mma _ _ _ acc _ _ _ => chk acc.ok .modifier
  | .mmas _ _ _ acc _ _ _ => chk acc.ok .modifier
  | .mmt _ _ _ acc _ _ _ => chk acc.ok .modifier
  | .mzero _ acc _ => chk acc.ok .modifier
  | .mld _ acc _ _ => chk acc.ok .modifier
  | .mrd n _ acc c0 _ =>
    firstErr [(n.toNat < 5, .modifier), (acc.ok, .modifier), (c0.isS || c0.isConstLe 31, .operandClass)]
  | .mdrain _ _ acc _ _ => chk acc.ok .modifier
  | .mdraint _ _ acc _ _ _ => chk acc.ok .modifier
  | .mchk _ acc _ _ _ => chk acc.ok .modifier
  | .mstat item _ =>
    match item with
    | .settol a => chk (sOrConst a) .operandClass
    | _ => none
  | .mrel _ => none
  | .attr mode _ a b _ =>
    firstErr [(vOrS a, .operandClass), (vqs b, .operandClass),
      ((match mode with
        | .vg j => j.isS || j.isConstLe 31
        | .v j => j.isS || j.isConstLe 31
        | .b => true), .operandClass)]
  | .vbld _ _ _ b _ => chk (vqs b) .operandClass
  | .prim _ _ _ a b _ => firstErr [(vOrS a, .operandClass), (dataOk b, .operandClass)]
  | .sample _ a _ c _ => firstErr [(a.isV, .operandClass), (dataOk c, .operandClass)]
  | .sampleg _ a _ _ _ _ => chk a.isV .operandClass
  | .texld _ a _ c _ => firstErr [(a.isV, .operandClass), (dataOk c, .operandClass)]
  | .hit a b => firstErr [(vqs a, .operandClass), (dataOk b, .operandClass)]
  | .tretNext _ a _ => chk (a.isS || a.isConstLe 7) .operandClass
  | .tretDone _ => none
  | .covw a => chk (dataOk a) .operandClass
  | .csrr d csr =>
    match csrRow csr, d with
    | none, _ => some .register
    | some _, .s _ => chk (csr != 3) .destination
    | some _, .v _ => chk (csr == 3) .destination
    | some _, _ => some .destination
  | .csrw csr a =>
    match csrRow csr with
    | none => some .register
    | some (_, rw) =>
      firstErr [(rw, .register), ((if csr == 3 then a.isV else sOrConst a), .operandClass)]
  | .syscNote a _ => chk (sOrConst a) .operandClass
  | .syscKill a _ => chk (sOrConst a) .operandClass
  | .dbgr _ a => chk (a.arg.isS || a.arg.isConstLe 31) .operandClass
  | .dbgw a b => firstErr [(a.isS || a.isConstLe 31, .operandClass), (sOrConst b.arg, .operandClass)]
  | _ => none

/-- An instruction the spec calls legal, as far as its own fields say. -/
def Instr.wellFormed (i : Instr) : Bool := i.wfError.isNone

end Sys2Proof
end

