-- ==== Sys2Proof/Decode.lean ====
section
/-! DEFINITION. Decoding and encoding of the 64-bit instruction words (R51 to R62). Decoding is total and names what is
wrong with a word that is no instruction. -/

namespace Sys2Proof

/-- Why a word is no legal instruction. -/
inductive DecodeError
  | unassigned            -- the opcode is assigned to no instruction (R62)
  | unusedField           -- an unused operand or destination field is not zero (R53)
  | operandField          -- an operand field names nothing (R34, R41, R53, R54)
  | destinationField      -- a destination field names nothing (R34, R52)
  | modifierField         -- a modifier value the entry does not define (R60)
  | tailField             -- a tail with a clear flag and a nonzero slot, or a tail not allowed (R55, R136)
  | missingTail           -- a mandatory tail is absent (R195, R289, R301, R412)
  | illFormed (e : WfError)
  deriving DecidableEq, Repr

/-- The result of decoding. -/
abbrev Dec (α : Type) := Except DecodeError α

/-! ## Codes of the modifier fields (R61) -/

/-- The code of an integer type. -/
def IType.code : IType → BitVec 3
  | .i32 => 0 | .n32 => 1 | .i16 => 2 | .n16 => 3 | .i8 => 4 | .n8 => 5 | .i64 => 6 | .n64 => 7

/-- The integer type of a code. -/
def IType.ofCode (c : BitVec 3) : IType :=
  match c.toNat with
  | 0 => .i32 | 1 => .n32 | 2 => .i16 | 3 => .n16 | 4 => .i8 | 5 => .n8 | 6 => .i64 | _ => .n64

/-- The code of a float type. -/
def FType.code : FType → BitVec 3
  | .f32 => 0 | .f16 => 1 | .bf16 => 2 | .e4m3 => 3 | .e5m2 => 4 | .e2m1 => 5 | .f16x2 => 6 | .bf16x2 => 7

/-- The float type of a code. -/
def FType.ofCode (c : BitVec 3) : FType :=
  match c.toNat with
  | 0 => .f32 | 1 => .f16 | 2 => .bf16 | 3 => .e4m3 | 4 => .e5m2 | 5 => .e2m1 | 6 => .f16x2 | _ => .bf16x2

/-- The code of a rounding mode. -/
def Rnd.code : Rnd → BitVec 2
  | .rn => 0 | .rz => 1 | .ru => 2 | .rd => 3

/-- The rounding mode of a code. -/
def Rnd.ofCode (c : BitVec 2) : Rnd :=
  match c.toNat with
  | 0 => .rn | 1 => .rz | 2 => .ru | _ => .rd

/-- The code of an integer condition (R78). -/
def ICond.code : ICond → BitVec 3
  | .eq => 0 | .ne => 1 | .lt => 2 | .le => 3 | .gt => 4 | .ge => 5 | .tst => 6 | .ntst => 7

/-- The integer condition of a code. -/
def ICond.ofCode (c : BitVec 3) : ICond :=
  match c.toNat with
  | 0 => .eq | 1 => .ne | 2 => .lt | 3 => .le | 4 => .gt | 5 => .ge | 6 => .tst | _ => .ntst

/-- The code of a float condition (R86). -/
def FCond.code : FCond → BitVec 3
  | .eq => 0 | .ne => 1 | .lt => 2 | .le => 3 | .gt => 4 | .ge => 5 | .ord => 6 | .uno => 7

/-- The float condition of a code. -/
def FCond.ofCode (c : BitVec 3) : FCond :=
  match c.toNat with
  | 0 => .eq | 1 => .ne | 2 => .lt | 3 => .le | 4 => .gt | 5 => .ge | 6 => .ord | _ => .uno

/-- The source index of cvt (R91). -/
def CvtSrc.code : CvtSrc → BitVec 4
  | .int t => 0#1 ++ t.code
  | .f32 => 8 | .f16 => 9 | .bf16 => 10 | .e4m3 => 11 | .e5m2 => 12 | .e2m1 => 13

/-- The source of a cvt opcode's low bits: 14 and 15 are illegal opcodes. -/
def CvtSrc.ofCode (c : BitVec 4) : Dec CvtSrc :=
  match c.toNat with
  | 8 => .ok .f32 | 9 => .ok .f16 | 10 => .ok .bf16 | 11 => .ok .e4m3 | 12 => .ok .e5m2 | 13 => .ok .e2m1
  | 14 => .error .unassigned | 15 => .error .unassigned
  | _ => .ok (.int (IType.ofCode (c.extractLsb' 0 3)))

/-- The code of a pk format (R92). -/
def PkFmt.code : PkFmt → BitVec 3
  | .f16 => 0 | .bf16 => 1 | .e4m3 => 2 | .e5m2 => 3 | .e2m1 => 4 | .e5m3 => 5

/-- The pk format of a code. -/
def PkFmt.ofCode (c : BitVec 3) : Dec PkFmt :=
  match c.toNat with
  | 0 => .ok .f16 | 1 => .ok .bf16 | 2 => .ok .e4m3 | 3 => .ok .e5m2 | 4 => .ok .e2m1 | 5 => .ok .e5m3
  | _ => .error .modifierField

/-- The code of a scaleq format (R94). -/
def ScFmt.code : ScFmt → BitVec 3
  | .sc8 => 0 | .sc8w => 1 | .sc4 => 2

/-- The scaleq format of a code. -/
def ScFmt.ofCode (c : BitVec 3) : Dec ScFmt :=
  match c.toNat with
  | 0 => .ok .sc8 | 1 => .ok .sc8w | 2 => .ok .sc4
  | _ => .error .modifierField

/-- The code of an mtest operation (R104). -/
def MTest.code : MTest → BitVec 3
  | .any => 0 | .all => 1 | .same => 2

/-- The mtest operation of a code. -/
def MTest.ofCode (c : BitVec 3) : Dec MTest :=
  match c.toNat with
  | 0 => .ok .any | 1 => .ok .all | 2 => .ok .same
  | _ => .error .modifierField

/-- The code of a fold operation (R106). -/
def FoldOp.code : FoldOp → BitVec 3
  | .add => 0 | .min => 1 | .max => 2 | .and => 3 | .or => 4 | .xor => 5

/-- The fold operation of a code. -/
def FoldOp.ofCode (c : BitVec 3) : Dec FoldOp :=
  match c.toNat with
  | 0 => .ok .add | 1 => .ok .min | 2 => .ok .max | 3 => .ok .and | 4 => .ok .or | 5 => .ok .xor
  | _ => .error .modifierField

/-- The code of a fold type (R106). -/
def FoldTy.code : FoldTy → BitVec 2
  | .i32 => 0 | .n32 => 1 | .f32 => 2

/-- The fold type of a code. -/
def FoldTy.ofCode (c : BitVec 2) : Dec FoldTy :=
  match c.toNat with
  | 0 => .ok .i32 | 1 => .ok .n32 | 2 => .ok .f32
  | _ => .error .modifierField

/-- The code of an lperm mode (R104). -/
def LpMode.code : LpMode → BitVec 3
  | .idx => 0 | .up => 1 | .down => 2 | .xor => 3

/-- The lperm mode of a code. -/
def LpMode.ofCode (c : BitVec 3) : Dec LpMode :=
  match c.toNat with
  | 0 => .ok .idx | 1 => .ok .up | 2 => .ok .down | 3 => .ok .xor
  | _ => .error .modifierField

/-- The code of a cache policy (R61). -/
def Policy.code : Policy → BitVec 2
  | .dflt => 0 | .strm => 1 | .byp => 2

/-- The cache policy of a code. -/
def Policy.ofCode (c : BitVec 2) : Dec Policy :=
  match c.toNat with
  | 0 => .ok .dflt | 1 => .ok .strm | 2 => .ok .byp
  | _ => .error .modifierField

/-- The code of a width (R61). -/
def Width.code : Width → BitVec 3
  | .b => 0 | .h => 1 | .w => 2 | .d => 3 | .q => 4

/-- The width of a code. -/
def Width.ofCode (c : BitVec 3) : Dec Width :=
  match c.toNat with
  | 0 => .ok .b | 1 => .ok .h | 2 => .ok .w | 3 => .ok .d | 4 => .ok .q
  | _ => .error .modifierField

/-- The code of a scope (R61). -/
def Scope.code : Scope → BitVec 2
  | .cl => 0 | .die => 1 | .pkg => 2 | .sys => 3

/-- The scope of a code. -/
def Scope.ofCode (c : BitVec 2) : Scope :=
  match c.toNat with
  | 0 => .cl | 1 => .die | 2 => .pkg | _ => .sys

/-- The code of a hint (R57). -/
def Hint.code : Hint → BitVec 2
  | .none => 0 | .likely => 1 | .unlikely => 2 | .uni => 3

/-- The hint of a code. -/
def Hint.ofCode (c : BitVec 2) : Hint :=
  match c.toNat with
  | 0 => .none | 1 => .likely | 2 => .unlikely | _ => .uni

/-- The code of an atom operation (R185). -/
def AtomOp.code : AtomOp → BitVec 3
  | .add => 0 | .sub => 1 | .min => 2 | .max => 3 | .and => 4 | .or => 5 | .xor => 6 | .xchg => 7

/-- The atom operation of a code. -/
def AtomOp.ofCode (c : BitVec 3) : AtomOp :=
  match c.toNat with
  | 0 => .add | 1 => .sub | 2 => .min | 3 => .max | 4 => .and | 5 => .or | 6 => .xor | _ => .xchg

/-- The code of a fatom operation (R187). -/
def FatomOp.code : FatomOp → BitVec 3
  | .add => 0 | .min => 1 | .max => 2

/-- The fatom operation of a code. -/
def FatomOp.ofCode (c : BitVec 3) : Dec FatomOp :=
  match c.toNat with
  | 0 => .ok .add | 1 => .ok .min | 2 => .ok .max
  | _ => .error .modifierField

/-- The code of an aconv target (R182). -/
def ConvTarget.code : ConvTarget → BitVec 3
  | .dev => 0 | .cl => 1 | .tile => 2

/-- The aconv target of a code. -/
def ConvTarget.ofCode (c : BitVec 3) : Dec ConvTarget :=
  match c.toNat with
  | 0 => .ok .dev | 1 => .ok .cl | 2 => .ok .tile
  | _ => .error .modifierField

/-- The code of a space (R183). -/
def Space.code : Space → BitVec 3
  | .dev => 0 | .vault => 1 | .cl => 2 | .tile => 3 | .priv => 4

/-- The space of a code. -/
def Space.ofCode (c : BitVec 3) : Dec Space :=
  match c.toNat with
  | 0 => .ok .dev | 1 => .ok .vault | 2 => .ok .cl | 3 => .ok .tile | 4 => .ok .priv
  | _ => .error .modifierField

/-- The code of a depth function (R351). -/
def DepthFn.code : DepthFn → BitVec 3
  | .lt => 0 | .le => 1 | .gt => 2 | .ge => 3 | .al => 4

/-- The depth function of a code. -/
def DepthFn.ofCode (c : BitVec 3) : Dec DepthFn :=
  match c.toNat with
  | 0 => .ok .lt | 1 => .ok .le | 2 => .ok .gt | 3 => .ok .ge | 4 => .ok .al
  | _ => .error .modifierField

/-- The code of a culling mode (R351). -/
def Cull.code : Cull → BitVec 2
  | .none => 0 | .back => 1 | .front => 2

/-- The culling mode of a code. -/
def Cull.ofCode (c : BitVec 2) : Dec Cull :=
  match c.toNat with
  | 0 => .ok .none | 1 => .ok .back | 2 => .ok .front
  | _ => .error .modifierField

/-- The code of an engine queue (R301). -/
def EngineQ.code : EngineQ → BitVec 3
  | .xc => 0 | .xt => 1 | .xe => 2 | .xm => 3

/-- The engine queue of a code. -/
def EngineQ.ofCode (c : BitVec 3) : Dec EngineQ :=
  match c.toNat with
  | 0 => .ok .xc | 1 => .ok .xt | 2 => .ok .xe | 3 => .ok .xm
  | _ => .error .modifierField

/-- The number of a special (R34). LID is 10. -/
def Special.num : Special → BitVec 5
  | .cm => 0 | .en => 1 | .lc0 => 2 | .lc1 => 3 | .lc2 => 4 | .ab => 5 | .al => 6 | .fps => 7 | .live => 8
  | .sbz => 9 | .gix => 11 | .rank => 12

/-- The special of a number, other than LID: 13 to 31 do not exist (R34). -/
def Special.ofNum (n : BitVec 5) : Option Special :=
  match n.toNat with
  | 0 => some .cm | 1 => some .en | 2 => some .lc0 | 3 => some .lc1 | 4 => some .lc2 | 5 => some .ab
  | 6 => some .al | 7 => some .fps | 8 => some .live | 9 => some .sbz | 11 => some .gix | 12 => some .rank
  | _ => none

/-! ## Operand, destination and tail fields (R52, R53, R55) -/

/-- The twelve bits of an operand. -/
def Operand.field : Operand → BitVec 12
  | .v r rt => 0#2 ++ r ++ rt
  | .q k rt => 1#2 ++ (0#2 ++ k) ++ rt
  | .s r => 2#2 ++ (0#1 ++ r) ++ 0#4
  | .sp k => 2#2 ++ (1#1 ++ k.num) ++ 0#4
  | .lid rt => 2#2 ++ (1#1 ++ 10#5) ++ rt
  | .const i => 3#2 ++ i ++ 0#4

/-- The operand of twelve bits. -/
def Operand.ofField (f : BitVec 12) : Dec Operand :=
  let idx : BitVec 6 := f.extractLsb' 4 6
  let rt : BitVec 4 := f.extractLsb' 0 4
  match (f.extractLsb' 10 2).toNat with
  | 0 => .ok (.v idx rt)
  | 1 => if idx.extractLsb' 4 2 = 0#2 then .ok (.q (idx.extractLsb' 0 4) rt) else .error .operandField
  | 2 =>
    if idx.getLsbD 5 then
      if idx.extractLsb' 0 5 = 10#5 then .ok (.lid rt)
      else if rt = 0 then
        match Special.ofNum (idx.extractLsb' 0 5) with
        | some k => .ok (.sp k)
        | none => .error .operandField
      else .error .operandField
    else if rt = 0 then .ok (.s (idx.extractLsb' 0 5)) else .error .operandField
  | _ => if rt = 0 then .ok (.const idx) else .error .operandField

/-- The eight bits of a destination. -/
def Dest.field : Dest → BitVec 8
  | .v r => 0#2 ++ r
  | .keep => 0x80#8
  | .s r => 2#3 ++ r
  | .sp k => 3#3 ++ k.num

/-- The destination of eight bits: with the keep bit the index must be zero (R41). -/
def Dest.ofField (f : BitVec 8) : Dec Dest :=
  if f.getLsbD 7 then
    if f = 0x80#8 then .ok .keep else .error .destinationField
  else if f.getLsbD 6 then
    if f.getLsbD 5 then
      match Special.ofNum (f.extractLsb' 0 5) with
      | some k => .ok (.sp k)
      | none => .error .destinationField
    else .ok (.s (f.extractLsb' 0 5))
  else .ok (.v (f.extractLsb' 0 6))

/-- The four bits of a tail. -/
def tailField : Tail → BitVec 4
  | none => 0
  | some n => 1#1 ++ n

/-- The tail of four bits. -/
def tailOf (f : BitVec 4) : Dec Tail :=
  if f.getLsbD 3 then .ok (some (f.extractLsb' 0 3))
  else if f = 0 then .ok none else .error .tailField

/-- A mandatory tail. -/
def slotOf (f : BitVec 4) : Dec (BitVec 3) :=
  if f.getLsbD 3 then .ok (f.extractLsb' 0 3)
  else if f = 0 then .error .missingTail else .error .tailField

/-- A tail that must be zero (R136). -/
def noTail (f : BitVec 4) : Dec Unit := if f = 0 then .ok () else .error .tailField

/-- An operand field that is not used (R53). -/
def unused (f : BitVec 12) : Dec Unit := if f = 0 then .ok () else .error .unusedField

/-- A destination field that is not used (R52). -/
def noDest (f : BitVec 8) : Dec Unit := if f = 0 then .ok () else .error .unusedField

/-- A destination field that names S0 to S31. -/
def destS (f : BitVec 8) : Dec (BitVec 5) :=
  if f.extractLsb' 5 3 = 2#3 then .ok (f.extractLsb' 0 5) else .error .destinationField

/-- A destination field that names V0 to V63. -/
def destV (f : BitVec 8) : Dec (BitVec 6) :=
  if f.extractLsb' 6 2 = 0#2 then .ok (f.extractLsb' 0 6) else .error .destinationField

/-- A destination field that names S0 to S31, or 0x00 to discard (R289, R301). -/
def destSOrNone (f : BitVec 8) : Dec (Option (BitVec 5)) :=
  if f = 0 then .ok none else (destS f).map some

/-- The destination field of a discardable S destination. -/
def destSOrNoneField : Option (BitVec 5) → BitVec 8
  | none => 0
  | some r => 2#3 ++ r

/-- An operand field that names S0 to S31. -/
def opS (f : BitVec 12) : Dec (BitVec 5) :=
  if f.extractLsb' 9 3 = 4#3 && f.extractLsb' 0 4 = 0#4 then .ok (f.extractLsb' 4 5) else .error .operandField

/-- The operand field of S0 to S31. -/
def opSField (r : BitVec 5) : BitVec 12 := 4#3 ++ r ++ 0#4

/-- A base field that names an S register or the constant 0. -/
def opSOrZero (f : BitVec 12) : Dec (Option (BitVec 5)) :=
  if f = 0xC00#12 then .ok none else (opS f).map some

/-- The base field of an S register or the constant 0. -/
def opSOrZeroField : Option (BitVec 5) → BitVec 12
  | none => 0xC00
  | some r => opSField r

/-- The member-mask field (R99). -/
def MaskOp.field : MaskOp → BitVec 12
  | .s r => opSField r
  | .all => 0xE00

/-- The member mask of a field. -/
def MaskOp.ofField (f : BitVec 12) : Dec MaskOp :=
  if f = 0xE00#12 then .ok .all else (opS f).map .s

/-- The accumulator field (R203). -/
def AccField.field (x : AccField) : BitVec 12 :=
  match x.ring with
  | none => 3#2 ++ x.base ++ 0#3 ++ 3#2 ++ 0#2
  | some (r, lc) => 3#2 ++ x.base ++ r ++ lc ++ 0#2

/-- The accumulator field of twelve bits. -/
def AccField.ofField (f : BitVec 12) : Dec AccField :=
  if f.extractLsb' 10 2 = 3#2 && f.extractLsb' 0 2 = 0#2 then
    if f.extractLsb' 2 2 = 3#2 then
      if f.extractLsb' 4 3 = 0#3 then .ok ⟨f.extractLsb' 7 3, none⟩ else .error .operandField
    else .ok ⟨f.extractLsb' 7 3, some (f.extractLsb' 4 3, f.extractLsb' 2 2)⟩
  else .error .operandField

/-- A constant operand field of a small index. -/
def constField (i : BitVec 6) : BitVec 12 := 3#2 ++ i ++ 0#4

/-- A constant operand field whose index is at most n. -/
def constLe (n : Nat) (f : BitVec 12) : Dec (BitVec 6) :=
  if f.extractLsb' 10 2 = 3#2 && f.extractLsb' 0 4 = 0#4 && (f.extractLsb' 4 6).toNat ≤ n then
    .ok (f.extractLsb' 4 6)
  else .error .operandField

/-! ## The fields of a word (R51) -/

/-- A word cut into its fields; a, b and c together are the 36 bits that formats I and B lay out anew. -/
structure Fields where
  op : BitVec 10
  md : BitVec 6
  dst : BitVec 8
  a : BitVec 12
  b : BitVec 12
  c : BitVec 12
  tail : BitVec 4
  deriving DecidableEq, Repr

/-- The word of its fields. -/
def Fields.word (f : Fields) : W64 := f.op ++ f.md ++ f.dst ++ f.a ++ f.b ++ f.c ++ f.tail

/-- The fields of a word. -/
def Fields.ofWord (w : W64) : Fields :=
  { op := w.extractLsb' 54 10, md := w.extractLsb' 48 6, dst := w.extractLsb' 40 8, a := w.extractLsb' 28 12,
    b := w.extractLsb' 16 12, c := w.extractLsb' 4 12, tail := w.extractLsb' 0 4 }

/-- The 24-bit immediate or offset of formats I and B (R56, R57). -/
def Fields.imm (f : Fields) : BitVec 24 := f.b ++ f.c

/-- Bits [53:51] of the modifier. -/
def Fields.m3 (f : Fields) : BitVec 3 := f.md.extractLsb' 3 3

/-- Bits [50:48] of the modifier. -/
def Fields.l3 (f : Fields) : BitVec 3 := f.md.extractLsb' 0 3

/-- Bit [50] of the modifier. -/
def Fields.m50 (f : Fields) : Bool := f.md.getLsbD 2

/-- Bits [49:48] of the modifier. -/
def Fields.l2 (f : Fields) : BitVec 2 := f.md.extractLsb' 0 2

/-- A modifier of three upper bits, bit [50] and two lower bits (R60). -/
def modBits (hi : BitVec 3) (mid : Bool) (lo : BitVec 2) : BitVec 6 := hi ++ BitVec.ofBool mid ++ lo

/-- A requirement on the modifier. -/
def modReq (ok : Bool) : Dec Unit := if ok then .ok () else .error .modifierField

/-! ## Shapes of words -/

/-- Destination and three operands. -/
def dec3 (f : Fields) (k : Dest → Operand → Operand → Operand → Tail → Instr) : Dec Instr := do
  let d ← Dest.ofField f.dst
  let a ← Operand.ofField f.a
  let b ← Operand.ofField f.b
  let c ← Operand.ofField f.c
  let t ← tailOf f.tail
  .ok (k d a b c t)

/-- Destination and two operands. -/
def dec2 (f : Fields) (k : Dest → Operand → Operand → Tail → Instr) : Dec Instr := do
  let d ← Dest.ofField f.dst
  let a ← Operand.ofField f.a
  let b ← Operand.ofField f.b
  unused f.c
  let t ← tailOf f.tail
  .ok (k d a b t)

/-- Destination and one operand. -/
def dec1 (f : Fields) (k : Dest → Operand → Tail → Instr) : Dec Instr := do
  let d ← Dest.ofField f.dst
  let a ← Operand.ofField f.a
  unused f.b
  unused f.c
  let t ← tailOf f.tail
  .ok (k d a t)

/-- CM and two operands (R78). -/
def decCmp (f : Fields) (k : Operand → Operand → Tail → Instr) : Dec Instr := do
  if f.dst = 0x60#8 then
    let a ← Operand.ofField f.a
    let b ← Operand.ofField f.b
    unused f.c
    let t ← tailOf f.tail
    .ok (k a b t)
  else .error .destinationField

/-- Destination, one operand and a member mask in field b. -/
def decM (f : Fields) (k : Dest → Operand → MaskOp → Tail → Instr) : Dec Instr := do
  let d ← Dest.ofField f.dst
  let a ← Operand.ofField f.a
  let m ← MaskOp.ofField f.b
  unused f.c
  let t ← tailOf f.tail
  .ok (k d a m t)

/-- One operand and no destination. -/
def decA (f : Fields) (k : Operand → Tail → Instr) : Dec Instr := do
  noDest f.dst
  let a ← Operand.ofField f.a
  unused f.b
  unused f.c
  let t ← tailOf f.tail
  .ok (k a t)

/-- Nothing but the opcode. -/
def decNone (f : Fields) (i : Instr) : Dec Instr := do
  modReq (f.md == 0)
  noDest f.dst
  unused f.a
  unused f.b
  unused f.c
  noTail f.tail
  .ok i

/-- The word of a destination and three operands. -/
def enc3 (op : BitVec 10) (md : BitVec 6) (d : Dest) (a b c : Operand) (t : Tail) : Fields :=
  ⟨op, md, d.field, a.field, b.field, c.field, tailField t⟩

/-- The word of a destination and two operands. -/
def enc2 (op : BitVec 10) (md : BitVec 6) (d : Dest) (a b : Operand) (t : Tail) : Fields :=
  ⟨op, md, d.field, a.field, b.field, 0, tailField t⟩

/-- The word of a destination and one operand. -/
def enc1 (op : BitVec 10) (md : BitVec 6) (d : Dest) (a : Operand) (t : Tail) : Fields :=
  ⟨op, md, d.field, a.field, 0, 0, tailField t⟩

/-- The word of a comparison into CM. -/
def encCmp (op : BitVec 10) (md : BitVec 6) (a b : Operand) (t : Tail) : Fields :=
  ⟨op, md, 0x60, a.field, b.field, 0, tailField t⟩

/-- The word of a member-mask instruction with its mask in field b. -/
def encM (op : BitVec 10) (md : BitVec 6) (d : Dest) (a : Operand) (m : MaskOp) (t : Tail) : Fields :=
  ⟨op, md, d.field, a.field, m.field, 0, tailField t⟩

/-- The word of one operand without destination. -/
def encA (op : BitVec 10) (md : BitVec 6) (a : Operand) (t : Tail) : Fields :=
  ⟨op, md, 0, a.field, 0, 0, tailField t⟩

/-- The word of an opcode alone. -/
def encNone (op : BitVec 10) : Fields := ⟨op, 0, 0, 0, 0, 0, 0⟩

/-- The word of formats I and B: destination, operand a and 24 bits. -/
def encI (op : BitVec 10) (md : BitVec 6) (dst : BitVec 8) (a : BitVec 12) (imm : BitVec 24) (tail : BitVec 4) :
    Fields :=
  ⟨op, md, dst, a, imm.extractLsb' 12 12, imm.extractLsb' 0 12, tail⟩

/-- The pair of a CV attachment and W in the modifier of a tile instruction (R202). -/
def cvBits (cv : CvAttach) (lo : BitVec 2) : BitVec 6 :=
  match cv with
  | none => modBits 0 false lo
  | some n => modBits n true lo

/-- The CV attachment of a modifier: n must be 0 where W is 0 (R202). -/
def cvOf (f : Fields) : Dec CvAttach :=
  if f.m50 then .ok (some f.m3) else if f.m3 = 0 then .ok none else .error .modifierField

/-- Integer arithmetic, opcodes 0x001 to 0x012 (R62). -/
def decodeInt (f : Fields) : Dec Instr :=
  match f.op.toNat with
  | 0x001 => do modReq (!f.m50 && f.l2 == 0); dec2 f (.iadd (IType.ofCode f.m3))
  | 0x002 => do modReq (!f.m50 && f.l2 == 0); dec2 f (.isub (IType.ofCode f.m3))
  | 0x003 => do modReq (f.l2 == 0); dec2 f (.imul (IType.ofCode f.m3) f.m50)
  | 0x004 => do modReq (!f.m50 && f.l2 == 0); dec2 f (.imulhi (IType.ofCode f.m3))
  | 0x005 => do modReq (f.l2 == 0); dec3 f (.imad (IType.ofCode f.m3) f.m50)
  | 0x006 => do modReq (f.l2 == 0); dec2 f (.idiv (IType.ofCode f.m3) f.m50)
  | 0x007 => do modReq (!f.m50 && f.l2 == 0); dec2 f (.irem (IType.ofCode f.m3))
  | 0x008 => do modReq (f.l2 == 0); dec1 f (.ineg (IType.ofCode f.m3) f.m50)
  | 0x009 => do modReq (f.l2 == 0); dec1 f (.iabs (IType.ofCode f.m3) f.m50)
  | 0x00A => do modReq (!f.m50 && f.l2 == 0); dec2 f (.imin (IType.ofCode f.m3))
  | 0x00B => do modReq (!f.m50 && f.l2 == 0); dec2 f (.imax (IType.ofCode f.m3))
  | 0x00C => do modReq (!f.m50 && f.l2 == 0); dec2 f (.iaddsat (IType.ofCode f.m3))
  | 0x00D => do modReq (!f.m50 && f.l2 == 0); dec2 f (.isubsat (IType.ofCode f.m3))
  | 0x00E => do modReq (!f.m50 && f.l2 == 0); dec3 f (.iclamp (IType.ofCode f.m3))
  | 0x00F => do modReq (!f.m50 && f.l2 == 0); dec2 f (.add64 (IType.ofCode f.m3))
  | 0x010 => do
    modReq (!f.m50 && f.l2 == 0)
    let d ← Dest.ofField f.dst
    let a ← Operand.ofField f.a
    let b ← Operand.ofField f.b
    let c ← constLe 7 f.c
    let t ← tailOf f.tail
    .ok (.lea (IType.ofCode f.m3) d a b (c.extractLsb' 0 3) t)
  | 0x011 => do modReq (f.l2 == 0); dec3 f (.dot4 (IType.ofCode f.m3) f.m50)
  | 0x012 => decCmp f (.icmp (IType.ofCode f.m3) (ICond.ofCode f.l3))
  | _ => .error .unassigned

/-- Logic, bit fields and moves, opcodes 0x020 to 0x033 (R62). -/
def decodeLogic (f : Fields) : Dec Instr :=
  match f.op.toNat with
  | 0x020 => do modReq (!f.m50 && f.l2 == 0); dec2 f (.and (IType.ofCode f.m3))
  | 0x021 => do modReq (!f.m50 && f.l2 == 0); dec2 f (.or (IType.ofCode f.m3))
  | 0x022 => do modReq (!f.m50 && f.l2 == 0); dec2 f (.xor (IType.ofCode f.m3))
  | 0x023 => do modReq (!f.m50 && f.l2 == 0); dec1 f (.not (IType.ofCode f.m3))
  | 0x024 => do modReq (!f.m50 && f.l2 == 0); dec2 f (.andn (IType.ofCode f.m3))
  | 0x025 => do modReq (!f.m50 && f.l2 == 0); dec2 f (.shl (IType.ofCode f.m3))
  | 0x026 => do modReq (!f.m50 && f.l2 == 0); dec2 f (.shr (IType.ofCode f.m3))
  | 0x027 => do modReq (!f.m50 && f.l2 == 0); dec2 f (.sar (IType.ofCode f.m3))
  | 0x028 => do modReq (!f.m50 && f.l2 == 0); dec2 f (.rot (IType.ofCode f.m3))
  | 0x029 => do modReq (!f.m50 && f.l2 == 0); dec1 f (.popc (IType.ofCode f.m3))
  | 0x02A => do modReq (!f.m50 && f.l2 == 0); dec1 f (.clz (IType.ofCode f.m3))
  | 0x02B => do modReq (!f.m50 && f.l2 == 0); dec1 f (.ctz (IType.ofCode f.m3))
  | 0x02C => do modReq (!f.m50 && f.l2 == 0); dec1 f (.brev (IType.ofCode f.m3))
  | 0x02D => do modReq (!f.m50 && f.l2 == 0); dec3 f (.bfx (IType.ofCode f.m3))
  | 0x02E => do modReq (f.md == 0); dec3 f .bfi
  | 0x02F => do modReq (f.md == 0); dec3 f .perm8
  | 0x030 => do modReq (!f.m50 && f.l2 == 0); dec2 f (.sel (IType.ofCode f.m3))
  | 0x031 => do modReq (!f.m50 && f.l2 == 0); dec1 f (.mov (IType.ofCode f.m3))
  | 0x032 => do
    modReq (!f.m50 && f.l2 == 0)
    let d ← Dest.ofField f.dst
    unused f.a
    let t ← tailOf f.tail
    .ok (.movi (IType.ofCode f.m3) d f.imm t)
  | 0x033 => do
    modReq (!f.m50 && f.l2 == 0)
    let d ← Dest.ofField f.dst
    let a ← Operand.ofField f.a
    let t ← tailOf f.tail
    .ok (.lit (IType.ofCode f.m3) d a f.imm t)
  | _ => .error .unassigned

/-- Floating point, opcodes 0x100 to 0x11C (R62). -/
def decodeFloat (f : Fields) : Dec Instr :=
  match f.op.toNat with
  | 0x100 => dec2 f (.fadd (FType.ofCode f.m3) f.m50 (Rnd.ofCode f.l2))
  | 0x101 => dec2 f (.fsub (FType.ofCode f.m3) f.m50 (Rnd.ofCode f.l2))
  | 0x102 => dec2 f (.fmul (FType.ofCode f.m3) f.m50 (Rnd.ofCode f.l2))
  | 0x103 => dec3 f (.ffma (FType.ofCode f.m3) f.m50 (Rnd.ofCode f.l2))
  | 0x104 => do modReq (f.l2 == 0); dec2 f (.fmin (FType.ofCode f.m3) f.m50)
  | 0x105 => do modReq (f.l2 == 0); dec2 f (.fmax (FType.ofCode f.m3) f.m50)
  | 0x106 => decCmp f (.fcmp (FType.ofCode f.m3) (FCond.ofCode f.l3))
  | 0x107 => do modReq (!f.m50 && f.l2 == 0); dec1 f (.fclass (FType.ofCode f.m3))
  | 0x108 => dec1 f (.frcp (FType.ofCode f.m3) f.m50 (Rnd.ofCode f.l2))
  | 0x109 => dec1 f (.frsq (FType.ofCode f.m3) f.m50 (Rnd.ofCode f.l2))
  | 0x10A => dec1 f (.fsqrt (FType.ofCode f.m3) f.m50 (Rnd.ofCode f.l2))
  | 0x10B => dec2 f (.fdiv (FType.ofCode f.m3) f.m50 (Rnd.ofCode f.l2))
  | 0x10C => do modReq (!f.m50 && f.l2 == 0); dec1 f (.fexp2 (FType.ofCode f.m3))
  | 0x10D => do modReq (!f.m50 && f.l2 == 0); dec1 f (.flog2 (FType.ofCode f.m3))
  | 0x10E => do modReq (!f.m50 && f.l2 == 0); dec1 f (.fsinpi (FType.ofCode f.m3))
  | 0x10F => do modReq (!f.m50 && f.l2 == 0); dec1 f (.fcospi (FType.ofCode f.m3))
  | 0x110 => do modReq (!f.m50 && f.l2 == 0); dec1 f (.ftanh (FType.ofCode f.m3))
  | 0x111 => do modReq (!f.m50); dec1 f (.frnd (FType.ofCode f.m3) (Rnd.ofCode f.l2))
  | 0x112 => do modReq (!f.m50 && f.l2 == 0); dec1 f (.ffrac (FType.ofCode f.m3))
  | 0x113 => dec2 f (.fldexp (FType.ofCode f.m3) f.m50 (Rnd.ofCode f.l2))
  | 0x114 => do modReq (!f.m50 && f.l2 == 0); dec1 f (.fgetexp (FType.ofCode f.m3))
  | 0x115 => do modReq (!f.m50 && f.l2 == 0); dec1 f (.fgetmant (FType.ofCode f.m3))
  | 0x116 => dec2 f (.hadd2 (FType.ofCode f.m3) f.m50 (Rnd.ofCode f.l2))
  | 0x117 => dec2 f (.hmul2 (FType.ofCode f.m3) f.m50 (Rnd.ofCode f.l2))
  | 0x118 => dec3 f (.hfma2 (FType.ofCode f.m3) f.m50 (Rnd.ofCode f.l2))
  | 0x119 => dec3 f (.fdot2 (FType.ofCode f.m3) f.m50 (Rnd.ofCode f.l2))
  | 0x11A => do modReq (!f.m50 && f.l2 == 0); dec1 f (.fabs (FType.ofCode f.m3))
  | 0x11B => do modReq (!f.m50 && f.l2 == 0); dec1 f (.fneg (FType.ofCode f.m3))
  | 0x11C => do modReq (!f.m50 && f.l2 == 0); dec3 f (.fclamp (FType.ofCode f.m3))
  | _ => .error .unassigned

/-- pk, unpk and scaleq, opcodes 0x1E0 to 0x1E2 (R62). -/
def decodeConv (f : Fields) : Dec Instr :=
  match f.op.toNat with
  | 0x1E0 => do
    let fmt ← PkFmt.ofCode f.m3
    let d ← Dest.ofField f.dst
    let a ← Operand.ofField f.a
    let b ← Operand.ofField f.b
    let t ← tailOf f.tail
    match fmt with
    | .f16 => do
      unused f.c
      .ok (.pk fmt f.m50 (Rnd.ofCode f.l2) d a b 0 t)
    | .bf16 => do
      unused f.c
      .ok (.pk fmt f.m50 (Rnd.ofCode f.l2) d a b 0 t)
    | _ => do
      let c ← constLe 3 f.c
      .ok (.pk fmt f.m50 (Rnd.ofCode f.l2) d a b (c.extractLsb' 0 2) t)
  | 0x1E1 => do
    modReq (f.l3 == 0)
    let fmt ← PkFmt.ofCode f.m3
    let d ← Dest.ofField f.dst
    let a ← Operand.ofField f.a
    unused f.b
    let c ← constLe 7 f.c
    let t ← tailOf f.tail
    .ok (.unpk fmt d a (c.extractLsb' 0 3) t)
  | 0x1E2 => do
    modReq (!f.m50)
    let fmt ← ScFmt.ofCode f.m3
    decM f (.scaleq fmt (Rnd.ofCode f.l2))
  | _ => .error .unassigned

/-- Member masks, windows and trellis decoding, opcodes 0x200 to 0x223 (R62). -/
def decodeCross (f : Fields) : Dec Instr :=
  match f.op.toNat with
  | 0x200 => do
    modReq (f.l3 == 0)
    let op ← MTest.ofCode f.m3
    decM f (.mtest op)
  | 0x201 => do modReq (f.md == 0); decM f .mbits
  | 0x202 => do
    modReq (f.l3.getLsbD 0 == false)
    let op ← FoldOp.ofCode f.m3
    let ty ← FoldTy.ofCode (f.l3.extractLsb' 1 2)
    decM f (.mfold op ty)
  | 0x203 => do
    let op ← FoldOp.ofCode f.m3
    let ty ← FoldTy.ofCode (f.l3.extractLsb' 1 2)
    decM f (.scan op ty (f.l3.getLsbD 0))
  | 0x204 => do
    modReq (f.l3 == 0)
    let mode ← LpMode.ofCode f.m3
    let d ← Dest.ofField f.dst
    let a ← Operand.ofField f.a
    let b ← Operand.ofField f.b
    let m ← MaskOp.ofField f.c
    let t ← tailOf f.tail
    .ok (.lperm mode d a b m t)
  | 0x205 => do
    modReq (f.l3 == 0 && f.m3.toNat ≤ 1)
    decM f (.mpeers (f.m3 == 1))
  | 0x206 => do
    modReq (f.md == 0)
    let d ← Dest.ofField f.dst
    let m ← MaskOp.ofField f.a
    unused f.b
    unused f.c
    let t ← tailOf f.tail
    .ok (.mlow d m t)
  | 0x207 => do
    modReq (f.md == 0)
    noDest f.dst
    let m ← MaskOp.ofField f.a
    unused f.b
    unused f.c
    let t ← tailOf f.tail
    .ok (.lsync m t)
  | 0x220 => do
    modReq (f.m3 == 0 && !f.m50 && f.dst.toNat < 4)
    let pol ← Policy.ofCode f.l2
    let base ← opSOrZero f.a
    unused f.b
    let t ← tailOf f.tail
    .ok (.twld pol (f.dst.extractLsb' 0 2) base f.c t)
  | 0x221 => do
    modReq (f.m3 == 0 && !f.m50 && f.dst.toNat < 4)
    let pol ← Policy.ofCode f.l2
    let base ← opSOrZero f.a
    unused f.b
    let t ← tailOf f.tail
    .ok (.twst pol (f.dst.extractLsb' 0 2) base f.c t)
  | 0x222 => do
    let d ← Dest.ofField f.dst
    let a ← Operand.ofField f.a
    unused f.c
    let t ← tailOf f.tail
    match f.l2.toNat with
    | 0 => do
      let b ← Operand.ofField f.b
      .ok (.tdec (f.md.extractLsb' 4 2) (f.md.getLsbD 3) f.m50 (.f32 b) d a t)
    | 1 => do
      unused f.b
      .ok (.tdec (f.md.extractLsb' 4 2) (f.md.getLsbD 3) f.m50 .f16 d a t)
    | 2 => do
      unused f.b
      .ok (.tdec (f.md.extractLsb' 4 2) (f.md.getLsbD 3) f.m50 .e4m3 d a t)
    | _ => do
      unused f.b
      .ok (.tdec (f.md.extractLsb' 4 2) (f.md.getLsbD 3) f.m50 .s d a t)
  | 0x223 => do
    let d ← Dest.ofField f.dst
    let a ← Operand.ofField f.a
    unused f.b
    unused f.c
    let t ← tailOf f.tail
    match f.l2.toNat with
    | 0 => .ok (.tdec2 (f.md.extractLsb' 4 2) (f.md.getLsbD 3) f.m50 .f16x2 d a t)
    | 1 => .ok (.tdec2 (f.md.extractLsb' 4 2) (f.md.getLsbD 3) f.m50 .bf16x2 d a t)
    | 2 => .ok (.tdec2 (f.md.extractLsb' 4 2) (f.md.getLsbD 3) f.m50 .e4m3x2 d a t)
    | _ => .error .modifierField
  | _ => .error .unassigned

/-- Masks and tables, opcodes 0x240 to 0x249 (R62). -/
def decodeMask (f : Fields) : Dec Instr :=
  match f.op.toNat with
  | 0x240 => do
    modReq (f.md == 0)
    let d ← destS f.dst
    unused f.a
    unused f.b
    unused f.c
    let t ← tailOf f.tail
    .ok (.ensave d t)
  | 0x241 => do modReq (f.md == 0); decA f .enrest
  | 0x242 => do modReq (f.md == 0); decA f .enand
  | 0x243 => do modReq (f.md == 0); decA f .enor
  | 0x244 => do modReq (f.md == 0); decA f .enandn
  | 0x246 => do modReq (f.md == 0); decA f .cmset
  | 0x245 => do
    modReq (f.md == 0)
    let d ← destV f.dst
    unused f.a
    unused f.b
    unused f.c
    let t ← tailOf f.tail
    .ok (.cmget d t)
  | 0x247 => do
    modReq (f.md == 0)
    noDest f.dst
    let a ← Operand.ofField f.a
    let b ← Operand.ofField f.b
    let c ← Operand.ofField f.c
    let t ← tailOf f.tail
    .ok (.setab a b c t)
  | 0x249 => do
    modReq (f.m3 == 0)
    noDest f.dst
    unused f.a
    modReq (f.imm.extractLsb' 16 8 == 0)
    let t ← tailOf f.tail
    .ok (.setrt f.l3 (f.imm.extractLsb' 0 16) t)
  | _ => .error .unassigned

/-- Control flow, opcodes 0x280 to 0x296 (R62). -/
def decodeControl (f : Fields) : Dec Instr :=
  match f.op.toNat with
  | 0x280 => do
    noTail f.tail
    noDest f.dst
    unused f.a
    modReq (f.md.extractLsb' 2 4 == 0)
    .ok (.bra (Hint.ofCode f.l2) f.imm)
  | 0x281 => do
    noTail f.tail
    noDest f.dst
    match (f.md.extractLsb' 2 4).toNat with
    | 0 => do
      unused f.a
      .ok (.brc .cm (Hint.ofCode f.l2) f.imm)
    | 1 => do
      unused f.a
      .ok (.brc .ncm (Hint.ofCode f.l2) f.imm)
    | 2 => do
      let a ← Operand.ofField f.a
      .ok (.brc (.nz a) (Hint.ofCode f.l2) f.imm)
    | 3 => do
      let a ← Operand.ofField f.a
      .ok (.brc (.z a) (Hint.ofCode f.l2) f.imm)
    | _ => .error .modifierField
  | 0x282 => do
    noTail f.tail
    noDest f.dst
    match (f.md.extractLsb' 2 4).toNat with
    | 0 => do
      unused f.a
      .ok (.bru .any (Hint.ofCode f.l2) f.imm)
    | 1 => do
      unused f.a
      .ok (.bru .all (Hint.ofCode f.l2) f.imm)
    | 2 => do
      unused f.a
      .ok (.bru .none (Hint.ofCode f.l2) f.imm)
    | 3 => do
      unused f.a
      .ok (.bru .nall (Hint.ofCode f.l2) f.imm)
    | 4 => do
      let a ← Operand.ofField f.a
      .ok (.bru (.snz a) (Hint.ofCode f.l2) f.imm)
    | 5 => do
      let a ← Operand.ofField f.a
      .ok (.bru (.sz a) (Hint.ofCode f.l2) f.imm)
    | _ => .error .modifierField
  | 0x283 => do
    noTail f.tail
    unused f.a
    modReq (f.md.extractLsb' 2 4 == 0)
    let d ← destS f.dst
    .ok (.call d (Hint.ofCode f.l2) f.imm)
  | 0x284 => do
    modReq (f.md == 0)
    noTail f.tail
    decA f (fun a _ => .ret a)
  | 0x285 => do
    modReq (f.md == 0)
    noTail f.tail
    decA f (fun a _ => .jmpi a)
  | 0x286 => do
    modReq (f.md == 0)
    noTail f.tail
    dec1 f (fun d a _ => .calli d a)
  | 0x287 => decNone f .exit
  | 0x288 => decNone f .rtt
  | 0x289 => decNone f .halt
  | 0x291 => decNone f .yield
  | 0x295 => decNone f .nop
  | 0x290 => do
    modReq (f.md.extractLsb' 2 4 == 0)
    noTail f.tail
    noDest f.dst
    unused f.a
    .ok (.loop f.l2 f.imm)
  | 0x292 => do
    modReq (f.md == 0)
    noTail f.tail
    let d ← destV f.dst
    let a ← Operand.ofField f.a
    let b ← Operand.ofField f.b
    let c ← Operand.ofField f.c
    .ok (.spawn d a b c)
  | 0x293 => do
    modReq (f.md == 0)
    noTail f.tail
    noDest f.dst
    unused f.a
    .ok (.trap f.imm)
  | 0x296 => do
    modReq (f.md == 0)
    noTail f.tail
    noDest f.dst
    unused f.a
    .ok (.sleep f.imm)
  | 0x294 => do
    noTail f.tail
    noDest f.dst
    unused f.a
    unused f.b
    unused f.c
    .ok (.brk f.md)
  | _ => .error .unassigned

/-- Memory, counters, phases, opcodes 0x2C0 to 0x2F4 (R62). -/
def decodeMem (f : Fields) : Dec Instr :=
  match f.op.toNat with
  | 0x2C0 => do
    let w ← Width.ofCode f.m3
    let pol ← Policy.ofCode f.l2
    let d ← destV f.dst
    let base ← Operand.ofField f.a
    let index ← Operand.ofField f.b
    let t ← tailOf f.tail
    .ok (.ld w f.m50 pol d base index f.c t)
  | 0x2C1 => do
    modReq (!f.m50)
    let w ← Width.ofCode f.m3
    let pol ← Policy.ofCode f.l2
    let src ← Dest.ofField f.dst
    let base ← Operand.ofField f.a
    let index ← Operand.ofField f.b
    let t ← tailOf f.tail
    .ok (.st w pol src base index f.c t)
  | 0x2C2 => do
    let w ← Width.ofCode f.m3
    let pol ← Policy.ofCode f.l2
    let d ← destS f.dst
    let base ← opSOrZero f.a
    let index ← (if f.b = 0 then .ok none else (Operand.ofField f.b).map some)
    let t ← tailOf f.tail
    .ok (.ldsc w f.m50 pol d base index f.c t)
  | 0x2C3 => do
    modReq (f.m3 == 2 && !f.m50)
    let pol ← Policy.ofCode f.l2
    let d ← destV f.dst
    let base ← opS f.a
    let xy ← Operand.ofField f.b
    let t ← tailOf f.tail
    .ok (.ldp pol d base xy (f.c.extractLsb' 6 6) (f.c.extractLsb' 0 6) t)
  | 0x2C4 => do
    modReq (f.m3 == 2 && !f.m50)
    let pol ← Policy.ofCode f.l2
    let src ← Dest.ofField f.dst
    let base ← opS f.a
    let xy ← Operand.ofField f.b
    let t ← tailOf f.tail
    .ok (.stp pol src base xy (f.c.extractLsb' 6 6) (f.c.extractLsb' 0 6) t)
  | 0x2C5 => do
    modReq (f.m3 == 0 && !f.m50)
    let pol ← Policy.ofCode f.l2
    noDest f.dst
    let base ← Operand.ofField f.a
    let index ← Operand.ofField f.b
    noTail f.tail
    .ok (.prefetch pol base index f.c)
  | 0x2C6 => do
    modReq (f.l3 == 0)
    noDest f.dst
    let t ← tailOf f.tail
    match f.m3.toNat with
    | 0 => do
      let base ← Operand.ofField f.a
      let index ← Operand.ofField f.b
      .ok (.cwb (.line base index f.c) t)
    | 1 => do
      unused f.a
      unused f.b
      unused f.c
      .ok (.cwb .all t)
    | _ => .error .modifierField
  | 0x2C7 => do
    modReq (f.l3 == 0)
    noDest f.dst
    let t ← tailOf f.tail
    match f.m3.toNat with
    | 0 => do
      let base ← Operand.ofField f.a
      let index ← Operand.ofField f.b
      .ok (.cinv (.line base index f.c) t)
    | 1 => do
      unused f.a
      unused f.b
      unused f.c
      .ok (.cinv .all t)
    | _ => .error .modifierField
  | 0x2C8 => do
    modReq (f.l3 == 0)
    noTail f.tail
    let tgt ← ConvTarget.ofCode f.m3
    dec1 f (fun d a _ => .aconv tgt d a)
  | 0x2C9 => do
    modReq (f.l3 == 0)
    noTail f.tail
    let s ← Space.ofCode f.m3
    if f.dst = 0x60#8 then
      let a ← Operand.ofField f.a
      unused f.b
      unused f.c
      .ok (.aclass s a)
    else .error .destinationField
  | 0x2E0 => do
    modReq (f.l3 == 0)
    let d ← destV f.dst
    let base ← Operand.ofField f.a
    let x ← Operand.ofField f.b
    let t ← tailOf f.tail
    .ok (.atom (AtomOp.ofCode f.m3) d base x f.c t)
  | 0x2E1 => do
    modReq (f.md == 0)
    let d ← destV f.dst
    let a ← Operand.ofField f.a
    let b ← Operand.ofField f.b
    let c ← Operand.ofField f.c
    let t ← tailOf f.tail
    .ok (.atomCas d a b c t)
  | 0x2E2 => do
    modReq (f.l3 == 0)
    let op ← FatomOp.ofCode f.m3
    let d ← destV f.dst
    let base ← Operand.ofField f.a
    let x ← Operand.ofField f.b
    let t ← tailOf f.tail
    .ok (.fatom op d base x f.c t)
  | 0x2F0 => do
    modReq (f.m3 == 0 && (f.m50 || f.l2 == 0))
    noDest f.dst
    let base ← opSOrZero f.a
    let x ← Operand.ofField f.b
    let t ← tailOf f.tail
    .ok (.ctrAdd (if f.m50 then some (Scope.ofCode f.l2) else none) base x f.c t)
  | 0x2F1 => do
    modReq (f.l2 == 0)
    let d ← destSOrNone f.dst
    let base ← opSOrZero f.a
    let x ← Operand.ofField f.b
    let n ← slotOf f.tail
    .ok (.ctrWait f.m50 f.m3 d base x f.c n)
  | 0x2F2 => do
    modReq (f.md == 0)
    let d ← destS f.dst
    let base ← opSOrZero f.a
    unused f.b
    let t ← tailOf f.tail
    .ok (.ctrRd d base f.c t)
  | 0x2F3 => do
    modReq (!f.m50)
    noDest f.dst
    unused f.a
    unused f.b
    unused f.c
    let t ← tailOf f.tail
    match f.m3.toNat with
    | 0 => .ok (.phase (Scope.ofCode f.l2) t)
    | 1 => .ok (.phaseP (Scope.ofCode f.l2) t)
    | 2 => if f.l2 = 0 then .ok (.phaseS t) else .error .modifierField
    | _ => .error .modifierField
  | 0x2F4 => do
    modReq (f.m3 == 0 && !f.m50)
    noDest f.dst
    unused f.a
    unused f.b
    unused f.c
    let t ← tailOf f.tail
    .ok (.lfence (Scope.ofCode f.l2) t)
  | _ => .error .unassigned

/-- The matrix engine, opcodes 0x340 to 0x34B (R62). -/
def decodeMatrix (f : Fields) : Dec Instr :=
  match f.op.toNat with
  | 0x340 => do
    modReq (f.l3 == 0)
    noDest f.dst
    let a ← Operand.ofField f.a
    let b ← Operand.ofField f.b
    unused f.c
    let n ← slotOf f.tail
    .ok (.sign f.m3 a b n)
  | 0x341 => do
    modReq f.m50
    noDest f.dst
    let acc ← AccField.ofField f.a
    let b ← opS f.b
    let c ← opS f.c
    let t ← tailOf f.tail
    .ok (.mma f.m3 (f.l2.getLsbD 0) (f.l2.getLsbD 1) acc b c t)
  | 0x342 => do
    modReq f.m50
    noDest f.dst
    let acc ← AccField.ofField f.a
    let b ← opS f.b
    let c ← opS f.c
    let t ← tailOf f.tail
    .ok (.mmas f.m3 (f.l2.getLsbD 0) (f.l2.getLsbD 1) acc b c t)
  | 0x343 => do
    modReq f.m50
    noDest f.dst
    let acc ← AccField.ofField f.a
    let b ← opS f.b
    let c ← opS f.c
    let t ← tailOf f.tail
    .ok (.mmt f.m3 (f.l2.getLsbD 0) (f.l2.getLsbD 1) acc b c t)
  | 0x344 => do
    modReq (f.l2 == 0)
    let cv ← cvOf f
    noDest f.dst
    let acc ← AccField.ofField f.a
    unused f.b
    unused f.c
    let t ← tailOf f.tail
    .ok (.mzero cv acc t)
  | 0x345 => do
    modReq (f.l2 == 0)
    let cv ← cvOf f
    noDest f.dst
    let acc ← AccField.ofField f.a
    let b ← opS f.b
    unused f.c
    let t ← tailOf f.tail
    .ok (.mld cv acc b t)
  | 0x346 => do
    modReq (f.l3 == 0)
    let d ← destV f.dst
    let acc ← AccField.ofField f.a
    let c0 ← Operand.ofField f.b
    unused f.c
    let t ← tailOf f.tail
    .ok (.mrd f.m3 d acc c0 t)
  | 0x347 => do
    let cv ← cvOf f
    noDest f.dst
    let acc ← AccField.ofField f.a
    let b ← opS f.b
    unused f.c
    let t ← tailOf f.tail
    .ok (.mdrain cv (Rnd.ofCode f.l2) acc b t)
  | 0x348 => do
    let cv ← cvOf f
    noDest f.dst
    let acc ← AccField.ofField f.a
    let b ← opS f.b
    let c ← opS f.c
    let t ← tailOf f.tail
    .ok (.mdraint cv (Rnd.ofCode f.l2) acc b c t)
  | 0x349 => do
    modReq (f.l2 == 0)
    let cv ← cvOf f
    noDest f.dst
    let acc ← AccField.ofField f.a
    let b ← opS f.b
    let c ← opS f.c
    let t ← tailOf f.tail
    .ok (.mchk cv acc b c t)
  | 0x34A => do
    unused f.b
    unused f.c
    let t ← tailOf f.tail
    match f.l3.toNat with
    | 0 => do
      unused f.a
      let d ← destS f.dst
      .ok (.mstat (.state d f.m3) t)
    | 1 => do
      unused f.a
      let d ← destS f.dst
      .ok (.mstat (.fmt d f.m3) t)
    | 2 => do
      modReq (f.m3 == 0)
      if f.dst = 0 then
        let a ← Operand.ofField f.a
        .ok (.mstat (.settol a) t)
      else
        unused f.a
        let d ← destS f.dst
        .ok (.mstat (.tol d) t)
    | 3 => do
      modReq (f.m3 == 0)
      unused f.a
      let d ← destS f.dst
      .ok (.mstat (.mmc d) t)
    | _ => .error .modifierField
  | 0x34B => do
    modReq (f.l3 == 0)
    noDest f.dst
    unused f.a
    unused f.b
    unused f.c
    noTail f.tail
    .ok (.mrel f.m3)
  | _ => .error .unassigned

/-- Graphics, opcodes 0x380 to 0x388 (R62). -/
def decodeGfx (f : Fields) : Dec Instr :=
  match f.op.toNat with
  | 0x380 => do
    modReq (f.md.extractLsb' 2 4 == 0)
    let d ← destV f.dst
    let a ← Operand.ofField f.a
    let b ← Operand.ofField f.b
    let t ← tailOf f.tail
    match f.l2.toNat with
    | 0 => do
      let j ← Operand.ofField f.c
      .ok (.attr (.vg j) d a b t)
    | 1 => do
      let j ← Operand.ofField f.c
      .ok (.attr (.v j) d a b t)
    | 2 => do
      unused f.c
      .ok (.attr .b d a b t)
    | _ => .error .modifierField
  | 0x381 => do
    modReq (f.md.extractLsb' 2 4 == 0)
    let d ← destV f.dst
    let a ← opS f.a
    let b ← Operand.ofField f.b
    unused f.c
    let t ← tailOf f.tail
    .ok (.vbld f.l2 d a b t)
  | 0x382 => do
    let df ← DepthFn.ofCode f.m3
    let cull ← Cull.ofCode f.l2
    noDest f.dst
    let a ← Operand.ofField f.a
    let b ← Operand.ofField f.b
    let t ← tailOf f.tail
    if f.m50 then
      let c ← opS f.c
      .ok (.prim df (some c) cull a b t)
    else
      unused f.c
      .ok (.prim df none cull a b t)
  | 0x383 => do
    modReq (f.md == 0)
    let d ← destV f.dst
    let a ← Operand.ofField f.a
    let b ← opS f.b
    let c ← Operand.ofField f.c
    let t ← tailOf f.tail
    .ok (.sample d a b c t)
  | 0x385 => do
    modReq (f.md == 0)
    let d ← destV f.dst
    let a ← Operand.ofField f.a
    let b ← opS f.b
    let c ← Operand.ofField f.c
    let t ← tailOf f.tail
    .ok (.texld d a b c t)
  | 0x384 => do
    modReq (f.md == 0 && f.c.extractLsb' 10 2 == 0)
    let d ← destV f.dst
    let a ← Operand.ofField f.a
    let b ← opS f.b
    let t ← tailOf f.tail
    .ok (.sampleg d a b (f.c.extractLsb' 4 6) (f.c.extractLsb' 0 4) t)
  | 0x386 => do
    modReq (f.md == 0)
    noDest f.dst
    noTail f.tail
    let a ← Operand.ofField f.a
    let b ← Operand.ofField f.b
    unused f.c
    .ok (.hit a b)
  | 0x387 => do
    modReq (f.l3 == 0)
    unused f.b
    unused f.c
    match f.m3.toNat with
    | 0 => do
      let d ← destS f.dst
      let a ← Operand.ofField f.a
      let n ← slotOf f.tail
      .ok (.tretNext d a n)
    | 1 => do
      noDest f.dst
      unused f.a
      let t ← tailOf f.tail
      .ok (.tretDone t)
    | _ => .error .modifierField
  | 0x388 => do
    modReq (f.md == 0)
    noTail f.tail
    decA f (fun a _ => .covw a)
  | _ => .error .unassigned

/-- Engine queues, control registers and system, opcodes 0x3C0 to 0x3C8 (R62). -/
def decodeEngine (f : Fields) : Dec Instr :=
  match f.op.toNat with
  | 0x3C0 => do
    modReq (f.l3 == 0)
    let d ← destSOrNone f.dst
    unused f.c
    let t ← tailOf f.tail
    match f.m3.toNat with
    | 0 => do
      let n ← opS f.a
      unused f.b
      .ok (.xpushXc d n t)
    | 1 => do
      let k ← destV (if f.a.extractLsb' 0 4 = 0#4 && f.a.extractLsb' 10 2 = 0#2 then 0#2 ++ f.a.extractLsb' 4 6 else 0x80)
      let p ← opS f.b
      .ok (.xpushXt d k p t)
    | 2 => do
      let n ← opS f.a
      unused f.b
      .ok (.xpushXe d n t)
    | _ => .error .modifierField
  | 0x3C1 => do
    modReq (f.l3 == 0)
    unused f.a
    unused f.b
    unused f.c
    let n ← slotOf f.tail
    match f.m3.toNat with
    | 1 => do
      let d ← destV f.dst
      .ok (.xpopXt d n)
    | 2 => do
      let d ← destS f.dst
      .ok (.xpopXe d n)
    | 3 => do
      let d ← destS f.dst
      .ok (.xpopXm d n)
    | _ => .error .modifierField
  | 0x3C2 => do
    modReq (f.l3 == 0)
    let q ← EngineQ.ofCode f.m3
    let d ← destS f.dst
    unused f.a
    unused f.b
    unused f.c
    noTail f.tail
    .ok (.xstat q d)
  | 0x3C3 => do
    modReq (f.md == 0)
    let d ← Dest.ofField f.dst
    unused f.a
    noTail f.tail
    .ok (.csrr d f.imm)
  | 0x3C4 => do
    modReq (f.md == 0)
    noDest f.dst
    let a ← Operand.ofField f.a
    noTail f.tail
    .ok (.csrw f.imm a)
  | 0x3C5 => do
    modReq (f.l3 == 0)
    match f.m3.toNat with
    | 0 => decA f .syscNote
    | 1 => decA f .syscKill
    | _ => .error .modifierField
  | 0x3C6 => do
    modReq (f.md == 0)
    let d ← destS f.dst
    let a ← Operand.ofField f.a
    unused f.b
    unused f.c
    let t ← tailOf f.tail
    .ok (.dbgr d ⟨a, t⟩)
  | 0x3C7 => do
    modReq (f.md == 0)
    noDest f.dst
    let a ← Operand.ofField f.a
    let b ← Operand.ofField f.b
    unused f.c
    let t ← tailOf f.tail
    .ok (.dbgw a ⟨b, t⟩)
  | 0x3C8 => do
    modReq (f.md == 0)
    noDest f.dst
    let a ← opS f.a
    let b ← opS f.b
    unused f.c
    let t ← tailOf f.tail
    .ok (.iinv a ⟨b, t⟩)
  | _ => .error .unassigned

/-- Conversions, opcodes 0x1C0 to 0x1CD and 0x1D0 to 0x1DD (R62, R91). -/
def decodeCvt (f : Fields) : Dec Instr := do
  let src ← CvtSrc.ofCode (f.op.extractLsb' 0 4)
  if f.op.getLsbD 4 then dec1 f (.cvtToFloat src (FType.ofCode f.m3) f.m50 (Rnd.ofCode f.l2))
  else dec1 f (.cvtToInteger src (IType.ofCode f.m3) f.m50 (Rnd.ofCode f.l2))

/-- The instruction that the fields spell, before its entry's own checks. -/
def decodeFields (f : Fields) : Dec Instr :=
  let n := f.op.toNat
  if n < 0x020 then decodeInt f
  else if n < 0x100 then decodeLogic f
  else if n < 0x1C0 then decodeFloat f
  else if n < 0x1E0 then decodeCvt f
  else if n < 0x200 then decodeConv f
  else if n < 0x240 then decodeCross f
  else if n < 0x280 then decodeMask f
  else if n < 0x2C0 then decodeControl f
  else if n < 0x340 then decodeMem f
  else if n < 0x380 then decodeMatrix f
  else if n < 0x3C0 then decodeGfx f
  else decodeEngine f

/-- Decodes a word: the instruction its fields spell, if it is well formed (R53, R60 to R63). -/
def decode (w : W64) : Dec Instr :=
  match decodeFields (Fields.ofWord w) with
  | .ok i =>
    match i.wfError with
    | none => .ok i
    | some e => .error (.illFormed e)
  | .error e => .error e

/-- The fields of an instruction's word; the rows that are events have none. -/
def encodeFields : Instr → Option Fields
  | .iadd t d a b tl => some (enc2 0x001 (modBits t.code false 0) d a b tl)
  | .isub t d a b tl => some (enc2 0x002 (modBits t.code false 0) d a b tl)
  | .imul t sat d a b tl => some (enc2 0x003 (modBits t.code sat 0) d a b tl)
  | .imulhi t d a b tl => some (enc2 0x004 (modBits t.code false 0) d a b tl)
  | .imad t sat d a b c tl => some (enc3 0x005 (modBits t.code sat 0) d a b c tl)
  | .idiv t sat d a b tl => some (enc2 0x006 (modBits t.code sat 0) d a b tl)
  | .irem t d a b tl => some (enc2 0x007 (modBits t.code false 0) d a b tl)
  | .ineg t sat d a tl => some (enc1 0x008 (modBits t.code sat 0) d a tl)
  | .iabs t sat d a tl => some (enc1 0x009 (modBits t.code sat 0) d a tl)
  | .imin t d a b tl => some (enc2 0x00A (modBits t.code false 0) d a b tl)
  | .imax t d a b tl => some (enc2 0x00B (modBits t.code false 0) d a b tl)
  | .iaddsat t d a b tl => some (enc2 0x00C (modBits t.code false 0) d a b tl)
  | .isubsat t d a b tl => some (enc2 0x00D (modBits t.code false 0) d a b tl)
  | .iclamp t d a b c tl => some (enc3 0x00E (modBits t.code false 0) d a b c tl)
  | .add64 t d a b tl => some (enc2 0x00F (modBits t.code false 0) d a b tl)
  | .lea t d a b sh tl => some ⟨0x010, modBits t.code false 0, d.field, a.field, b.field, constField (0#3 ++ sh), tailField tl⟩
  | .dot4 t sat d a b c tl => some (enc3 0x011 (modBits t.code sat 0) d a b c tl)
  | .icmp t cond a b tl => some (encCmp 0x012 (t.code ++ cond.code) a b tl)
  | .and t d a b tl => some (enc2 0x020 (modBits t.code false 0) d a b tl)
  | .or t d a b tl => some (enc2 0x021 (modBits t.code false 0) d a b tl)
  | .xor t d a b tl => some (enc2 0x022 (modBits t.code false 0) d a b tl)
  | .not t d a tl => some (enc1 0x023 (modBits t.code false 0) d a tl)
  | .andn t d a b tl => some (enc2 0x024 (modBits t.code false 0) d a b tl)
  | .shl t d a b tl => some (enc2 0x025 (modBits t.code false 0) d a b tl)
  | .shr t d a b tl => some (enc2 0x026 (modBits t.code false 0) d a b tl)
  | .sar t d a b tl => some (enc2 0x027 (modBits t.code false 0) d a b tl)
  | .rot t d a b tl => some (enc2 0x028 (modBits t.code false 0) d a b tl)
  | .popc t d a tl => some (enc1 0x029 (modBits t.code false 0) d a tl)
  | .clz t d a tl => some (enc1 0x02A (modBits t.code false 0) d a tl)
  | .ctz t d a tl => some (enc1 0x02B (modBits t.code false 0) d a tl)
  | .brev t d a tl => some (enc1 0x02C (modBits t.code false 0) d a tl)
  | .bfx t d a b c tl => some (enc3 0x02D (modBits t.code false 0) d a b c tl)
  | .bfi d a b c tl => some (enc3 0x02E 0 d a b c tl)
  | .perm8 d a b c tl => some (enc3 0x02F 0 d a b c tl)
  | .sel t d a b tl => some (enc2 0x030 (modBits t.code false 0) d a b tl)
  | .mov t d a tl => some (enc1 0x031 (modBits t.code false 0) d a tl)
  | .movi t d imm tl => some (encI 0x032 (modBits t.code false 0) d.field 0 imm (tailField tl))
  | .lit t d a imm tl => some (encI 0x033 (modBits t.code false 0) d.field a.field imm (tailField tl))
  | .fadd t sat r d a b tl => some (enc2 0x100 (modBits t.code sat r.code) d a b tl)
  | .fsub t sat r d a b tl => some (enc2 0x101 (modBits t.code sat r.code) d a b tl)
  | .fmul t sat r d a b tl => some (enc2 0x102 (modBits t.code sat r.code) d a b tl)
  | .ffma t sat r d a b c tl => some (enc3 0x103 (modBits t.code sat r.code) d a b c tl)
  | .fmin t sat d a b tl => some (enc2 0x104 (modBits t.code sat 0) d a b tl)
  | .fmax t sat d a b tl => some (enc2 0x105 (modBits t.code sat 0) d a b tl)
  | .fcmp t cond a b tl => some (encCmp 0x106 (t.code ++ cond.code) a b tl)
  | .fclass t d a tl => some (enc1 0x107 (modBits t.code false 0) d a tl)
  | .frcp t sat r d a tl => some (enc1 0x108 (modBits t.code sat r.code) d a tl)
  | .frsq t sat r d a tl => some (enc1 0x109 (modBits t.code sat r.code) d a tl)
  | .fsqrt t sat r d a tl => some (enc1 0x10A (modBits t.code sat r.code) d a tl)
  | .fdiv t sat r d a b tl => some (enc2 0x10B (modBits t.code sat r.code) d a b tl)
  | .fexp2 t d a tl => some (enc1 0x10C (modBits t.code false 0) d a tl)
  | .flog2 t d a tl => some (enc1 0x10D (modBits t.code false 0) d a tl)
  | .fsinpi t d a tl => some (enc1 0x10E (modBits t.code false 0) d a tl)
  | .fcospi t d a tl => some (enc1 0x10F (modBits t.code false 0) d a tl)
  | .ftanh t d a tl => some (enc1 0x110 (modBits t.code false 0) d a tl)
  | .frnd t r d a tl => some (enc1 0x111 (modBits t.code false r.code) d a tl)
  | .ffrac t d a tl => some (enc1 0x112 (modBits t.code false 0) d a tl)
  | .fldexp t sat r d a b tl => some (enc2 0x113 (modBits t.code sat r.code) d a b tl)
  | .fgetexp t d a tl => some (enc1 0x114 (modBits t.code false 0) d a tl)
  | .fgetmant t d a tl => some (enc1 0x115 (modBits t.code false 0) d a tl)
  | .hadd2 t sat r d a b tl => some (enc2 0x116 (modBits t.code sat r.code) d a b tl)
  | .hmul2 t sat r d a b tl => some (enc2 0x117 (modBits t.code sat r.code) d a b tl)
  | .hfma2 t sat r d a b c tl => some (enc3 0x118 (modBits t.code sat r.code) d a b c tl)
  | .fdot2 t sat r d a b c tl => some (enc3 0x119 (modBits t.code sat r.code) d a b c tl)
  | .fabs t d a tl => some (enc1 0x11A (modBits t.code false 0) d a tl)
  | .fneg t d a tl => some (enc1 0x11B (modBits t.code false 0) d a tl)
  | .fclamp t d a b c tl => some (enc3 0x11C (modBits t.code false 0) d a b c tl)
  | .pk fmt sat r d a b c tl => some ⟨0x1E0, modBits fmt.code sat r.code, d.field, a.field, b.field,
      (match fmt with
      | .f16 => 0
      | .bf16 => 0
      | _ => constField (0#4 ++ c)), tailField tl⟩
  | .unpk fmt d a c tl => some ⟨0x1E1, modBits fmt.code false 0, d.field, a.field, 0, constField (0#3 ++ c), tailField tl⟩
  | .scaleq fmt r d a m tl => some (encM 0x1E2 (modBits fmt.code false r.code) d a m tl)
  | .mtest op d a m tl => some (encM 0x200 (modBits op.code false 0) d a m tl)
  | .mbits d a m tl => some (encM 0x201 0 d a m tl)
  | .mfold op ty d a m tl => some (encM 0x202 (op.code ++ ty.code ++ 0#1) d a m tl)
  | .scan op ty ex d a m tl => some (encM 0x203 (op.code ++ ty.code ++ BitVec.ofBool ex) d a m tl)
  | .lperm mode d a b m tl => some ⟨0x204, modBits mode.code false 0, d.field, a.field, b.field, m.field, tailField tl⟩
  | .mpeers wide d a m tl => some (encM 0x205 (modBits (0#2 ++ BitVec.ofBool wide) false 0) d a m tl)
  | .mlow d m tl => some ⟨0x206, 0, d.field, m.field, 0, 0, tailField tl⟩
  | .lsync m tl => some ⟨0x207, 0, 0, m.field, 0, 0, tailField tl⟩
  | .twld pol w base off tl => some ⟨0x220, modBits 0 false pol.code, 0#6 ++ w, opSOrZeroField base, 0, off, tailField tl⟩
  | .twst pol w base off tl => some ⟨0x221, modBits 0 false pol.code, 0#6 ++ w, opSOrZeroField base, 0, off, tailField tl⟩
  | .tdec w k2 hi fmt d a tl => some ⟨0x222, w ++ BitVec.ofBool k2 ++ BitVec.ofBool hi ++
      (match fmt with
      | .f32 _ => 0#2
      | .f16 => 1#2
      | .e4m3 => 2#2
      | .s => 3#2), d.field, a.field,
      (match fmt with
      | .f32 b => b.field
      | _ => 0), 0, tailField tl⟩
  | .tdec2 w k2 hi fmt d a tl => some ⟨0x223, w ++ BitVec.ofBool k2 ++ BitVec.ofBool hi ++
      (match fmt with
      | .f16x2 => 0#2
      | .bf16x2 => 1#2
      | .e4m3x2 => 2#2), d.field, a.field, 0, 0, tailField tl⟩
  | .ensave d tl => some ⟨0x240, 0, (Dest.s d).field, 0, 0, 0, tailField tl⟩
  | .enrest a tl => some (encA 0x241 0 a tl)
  | .enand a tl => some (encA 0x242 0 a tl)
  | .enor a tl => some (encA 0x243 0 a tl)
  | .enandn a tl => some (encA 0x244 0 a tl)
  | .cmset a tl => some (encA 0x246 0 a tl)
  | .cmget d tl => some ⟨0x245, 0, (Dest.v d).field, 0, 0, 0, tailField tl⟩
  | .setab a b c tl => some ⟨0x247, 0, 0, a.field, b.field, c.field, tailField tl⟩
  | .setrt n e tl => some (encI 0x249 (0#3 ++ n) 0 0 (0#8 ++ e) (tailField tl))
  | .bra h off => some (encI 0x280 (0#4 ++ h.code) 0 0 off 0)
  | .brc c h off => match c with
    | .cm => some (encI 0x281 (0#4 ++ h.code) 0 0 off 0)
    | .ncm => some (encI 0x281 (1#4 ++ h.code) 0 0 off 0)
    | .nz a => some (encI 0x281 (2#4 ++ h.code) 0 a.field off 0)
    | .z a => some (encI 0x281 (3#4 ++ h.code) 0 a.field off 0)
  | .bru c h off => match c with
    | .any => some (encI 0x282 (0#4 ++ h.code) 0 0 off 0)
    | .all => some (encI 0x282 (1#4 ++ h.code) 0 0 off 0)
    | .none => some (encI 0x282 (2#4 ++ h.code) 0 0 off 0)
    | .nall => some (encI 0x282 (3#4 ++ h.code) 0 0 off 0)
    | .snz a => some (encI 0x282 (4#4 ++ h.code) 0 a.field off 0)
    | .sz a => some (encI 0x282 (5#4 ++ h.code) 0 a.field off 0)
  | .call d h off => some (encI 0x283 (0#4 ++ h.code) (Dest.s d).field 0 off 0)
  | .ret a => some (encA 0x284 0 a none)
  | .jmpi a => some (encA 0x285 0 a none)
  | .calli d a => some (enc1 0x286 0 d a none)
  | .exit => some (encNone 0x287)
  | .rtt => some (encNone 0x288)
  | .halt => some (encNone 0x289)
  | .yield => some (encNone 0x291)
  | .nop => some (encNone 0x295)
  | .loop n off => some (encI 0x290 (0#4 ++ n) 0 0 off 0)
  | .spawn d a b c => some ⟨0x292, 0, (Dest.v d).field, a.field, b.field, c.field, 0⟩
  | .trap imm => some (encI 0x293 0 0 0 imm 0)
  | .sleep imm => some (encI 0x296 0 0 0 imm 0)
  | .brk code => some ⟨0x294, code, 0, 0, 0, 0, 0⟩
  | .ld wd sx pol d base index off tl => some ⟨0x2C0, modBits wd.code sx pol.code, (Dest.v d).field, base.field, index.field, off, tailField tl⟩
  | .st wd pol src base index off tl => some ⟨0x2C1, modBits wd.code false pol.code, src.field, base.field, index.field, off, tailField tl⟩
  | .ldsc wd sx pol d base index off tl => some ⟨0x2C2, modBits wd.code sx pol.code, (Dest.s d).field, opSOrZeroField base,
      (match index with
      | none => 0
      | some o => o.field), off, tailField tl⟩
  | .ldp pol d base xy c2 c3 tl => some ⟨0x2C3, modBits 2 false pol.code, (Dest.v d).field, opSField base, xy.field, c2 ++ c3, tailField tl⟩
  | .stp pol src base xy c2 c3 tl => some ⟨0x2C4, modBits 2 false pol.code, src.field, opSField base, xy.field, c2 ++ c3, tailField tl⟩
  | .prefetch pol base index off => some ⟨0x2C5, modBits 0 false pol.code, 0, base.field, index.field, off, 0⟩
  | .cwb lines tl => match lines with
    | .line base index off => some ⟨0x2C6, 0, 0, base.field, index.field, off, tailField tl⟩
    | .all => some ⟨0x2C6, modBits 1 false 0, 0, 0, 0, 0, tailField tl⟩
  | .cinv lines tl => match lines with
    | .line base index off => some ⟨0x2C7, 0, 0, base.field, index.field, off, tailField tl⟩
    | .all => some ⟨0x2C7, modBits 1 false 0, 0, 0, 0, 0, tailField tl⟩
  | .aconv tgt d a => some (enc1 0x2C8 (modBits tgt.code false 0) d a none)
  | .aclass s a => some ⟨0x2C9, modBits s.code false 0, 0x60, a.field, 0, 0, 0⟩
  | .atom op d base x off tl => some ⟨0x2E0, modBits op.code false 0, (Dest.v d).field, base.field, x.field, off, tailField tl⟩
  | .atomCas d a b c tl => some ⟨0x2E1, 0, (Dest.v d).field, a.field, b.field, c.field, tailField tl⟩
  | .fatom op d base x off tl => some ⟨0x2E2, modBits op.code false 0, (Dest.v d).field, base.field, x.field, off, tailField tl⟩
  | .ctrAdd rel base x off tl => some ⟨0x2F0,
      (match rel with
      | none => 0
      | some sc => modBits 0 true sc.code), 0, opSOrZeroField base, x.field, off, tailField tl⟩
  | .ctrWait acq t d base x off slot => some ⟨0x2F1, modBits t acq 0, destSOrNoneField d, opSOrZeroField base, x.field, off, 1#1 ++ slot⟩
  | .ctrRd d base off tl => some ⟨0x2F2, 0, (Dest.s d).field, opSOrZeroField base, 0, off, tailField tl⟩
  | .phase sc tl => some ⟨0x2F3, modBits 0 false sc.code, 0, 0, 0, 0, tailField tl⟩
  | .phaseP sc tl => some ⟨0x2F3, modBits 1 false sc.code, 0, 0, 0, 0, tailField tl⟩
  | .phaseS tl => some ⟨0x2F3, modBits 2 false 0, 0, 0, 0, 0, tailField tl⟩
  | .lfence sc tl => some ⟨0x2F4, modBits 0 false sc.code, 0, 0, 0, 0, tailField tl⟩
  | .sign n a b slot => some ⟨0x340, modBits n false 0, 0, a.field, b.field, 0, 1#1 ++ slot⟩
  | .mma cv set sat acc b c tl => some ⟨0x341, modBits cv true (BitVec.ofBool sat ++ BitVec.ofBool set), 0, acc.field, opSField b, opSField c, tailField tl⟩
  | .mmas cv set sat acc b c tl => some ⟨0x342, modBits cv true (BitVec.ofBool sat ++ BitVec.ofBool set), 0, acc.field, opSField b, opSField c, tailField tl⟩
  | .mmt cv set sat acc b c tl => some ⟨0x343, modBits cv true (BitVec.ofBool sat ++ BitVec.ofBool set), 0, acc.field, opSField b, opSField c, tailField tl⟩
  | .mzero cv acc tl => some ⟨0x344, cvBits cv 0, 0, acc.field, 0, 0, tailField tl⟩
  | .mld cv acc b tl => some ⟨0x345, cvBits cv 0, 0, acc.field, opSField b, 0, tailField tl⟩
  | .mrd n d acc c0 tl => some ⟨0x346, modBits n false 0, (Dest.v d).field, acc.field, c0.field, 0, tailField tl⟩
  | .mdrain cv r acc b tl => some ⟨0x347, cvBits cv r.code, 0, acc.field, opSField b, 0, tailField tl⟩
  | .mdraint cv r acc b c tl => some ⟨0x348, cvBits cv r.code, 0, acc.field, opSField b, opSField c, tailField tl⟩
  | .mchk cv acc b c tl => some ⟨0x349, cvBits cv 0, 0, acc.field, opSField b, opSField c, tailField tl⟩
  | .mstat item tl => match item with
    | .state d n => some ⟨0x34A, n ++ 0#3, (Dest.s d).field, 0, 0, 0, tailField tl⟩
    | .fmt d n => some ⟨0x34A, n ++ 1#3, (Dest.s d).field, 0, 0, 0, tailField tl⟩
    | .tol d => some ⟨0x34A, 2, (Dest.s d).field, 0, 0, 0, tailField tl⟩
    | .settol a => some ⟨0x34A, 2, 0, a.field, 0, 0, tailField tl⟩
    | .mmc d => some ⟨0x34A, 3, (Dest.s d).field, 0, 0, 0, tailField tl⟩
  | .mrel n => some ⟨0x34B, modBits n false 0, 0, 0, 0, 0, 0⟩
  | .attr mode d a b tl => match mode with
    | .vg j => some ⟨0x380, 0, (Dest.v d).field, a.field, b.field, j.field, tailField tl⟩
    | .v j => some ⟨0x380, 1, (Dest.v d).field, a.field, b.field, j.field, tailField tl⟩
    | .b => some ⟨0x380, 2, (Dest.v d).field, a.field, b.field, 0, tailField tl⟩
  | .vbld n d a b tl => some ⟨0x381, 0#4 ++ n, (Dest.v d).field, opSField a, b.field, 0, tailField tl⟩
  | .prim df cov cull a b tl => match cov with
    | none => some ⟨0x382, modBits df.code false cull.code, 0, a.field, b.field, 0, tailField tl⟩
    | some c => some ⟨0x382, modBits df.code true cull.code, 0, a.field, b.field, opSField c, tailField tl⟩
  | .sample d a b c tl => some ⟨0x383, 0, (Dest.v d).field, a.field, opSField b, c.field, tailField tl⟩
  | .texld d a b c tl => some ⟨0x385, 0, (Dest.v d).field, a.field, opSField b, c.field, tailField tl⟩
  | .sampleg d a b g rt tl => some ⟨0x384, 0, (Dest.v d).field, a.field, opSField b, (Operand.v g rt).field, tailField tl⟩
  | .hit a b => some ⟨0x386, 0, 0, a.field, b.field, 0, 0⟩
  | .tretNext d a slot => some ⟨0x387, 0, (Dest.s d).field, a.field, 0, 0, 1#1 ++ slot⟩
  | .tretDone tl => some ⟨0x387, modBits 1 false 0, 0, 0, 0, 0, tailField tl⟩
  | .covw a => some (encA 0x388 0 a none)
  | .xpushXc d n tl => some ⟨0x3C0, 0, destSOrNoneField d, opSField n, 0, 0, tailField tl⟩
  | .xpushXe d n tl => some ⟨0x3C0, modBits 2 false 0, destSOrNoneField d, opSField n, 0, 0, tailField tl⟩
  | .xpushXt d k p tl => some ⟨0x3C0, modBits 1 false 0, destSOrNoneField d, (Operand.v k 0).field, opSField p, 0, tailField tl⟩
  | .xpopXt d slot => some ⟨0x3C1, modBits 1 false 0, (Dest.v d).field, 0, 0, 0, 1#1 ++ slot⟩
  | .xpopXe d slot => some ⟨0x3C1, modBits 2 false 0, (Dest.s d).field, 0, 0, 0, 1#1 ++ slot⟩
  | .xpopXm d slot => some ⟨0x3C1, modBits 3 false 0, (Dest.s d).field, 0, 0, 0, 1#1 ++ slot⟩
  | .xstat q d => some ⟨0x3C2, modBits q.code false 0, (Dest.s d).field, 0, 0, 0, 0⟩
  | .csrr d csr => some (encI 0x3C3 0 d.field 0 csr 0)
  | .csrw csr a => some (encI 0x3C4 0 0 a.field csr 0)
  | .syscNote a tl => some (encA 0x3C5 0 a tl)
  | .syscKill a tl => some (encA 0x3C5 (modBits 1 false 0) a tl)
  | .dbgr d a => some ⟨0x3C6, 0, (Dest.s d).field, a.arg.field, 0, 0, tailField a.tail⟩
  | .dbgw a b => some ⟨0x3C7, 0, 0, a.field, b.arg.field, 0, tailField b.tail⟩
  | .iinv a b => some ⟨0x3C8, 0, 0, opSField a, opSField b.arg, 0, tailField b.tail⟩
  | .cvtToInteger src t sat r d a tl => some (enc1 (0x1C#6 ++ src.code) (modBits t.code sat r.code) d a tl)
  | .cvtToFloat src t sat r d a tl => some (enc1 (0x1D#6 ++ src.code) (modBits t.code sat r.code) d a tl)
  | _ => none

/-- The word of an instruction, from the layouts of R51 to R62. -/
def encode (i : Instr) : Option W64 := (encodeFields i).map Fields.word

/-- The word of an instruction as the model's own bytes: little-endian (R68). -/
def wordBytes (w : W64) : List Byte := (List.range 8).map fun k => w.extractLsb' (8 * k) 8

/-- The word of eight little-endian bytes. -/
def bytesWord (bs : List Byte) : W64 :=
  bs.foldr (fun b acc => (acc <<< 8) ||| b.zeroExtend 64) 0

/-- The instruction the decoder reads from a word of nbits bits whose bits above are zero. A table row of this
hardware has no bits; an instruction is one 64-bit word, stored little-endian. -/
def decodeTableWord (_nbits w : Nat) : Option Instr :=
  match decode (bytesWord (wordBytes (BitVec.ofNat 64 w))) with
  | .ok i => some i
  | .error _ => none

end Sys2Proof
end

