-- ==== Sys2Proof/Machine/Types.lean ====
section
/-! DEFINITION. The records of the machine's state, from the lane to the cluster: plain data. Sparse tables are
finite maps (NMap) in which an unlisted key reads as the default that the accessor names. Numbers: a core is
die * 512 + cluster * 256 + k (R273), a group is core * 48 + slot (R118), a lane's vector element is
register * 32 + lane. -/

namespace Sys2Proof.Machine

/-- Who moves next: a group issues its next word, or an event of the table happens (log entry 2). -/
inductive Move
  | word (gid : Nat)
  | event (i : Instr)
  deriving DecidableEq, Repr

/-- The site of an instruction, as reports name it (R366): PC, sequence number, die, cluster, block index, GIX, queue
and launch number. -/
structure Site where
  pc : W64
  seq : W32
  core : Nat
  gix : Nat
  queue : Nat
  block : Nat
  launch : Nat
  deriving DecidableEq, Repr

/-- A step of a group's store hash that waits for its turn (R384), or a hash point (R385). -/
inductive HashStep
  /-- a datum at a canonical address -/
  | datum (a d : W64)
  /-- an atomic of an operation, whose old value for a lane has not arrived -/
  | awaits (a : W64) (op lane : Nat)
  /-- a hash point -/
  | point (pc : W64) (seq : W32)
  deriving DecidableEq, Repr

/-- A clause that a group is issuing (R47, R48). -/
structure Clause where
  /-- address of the header -/
  hdr : W64
  /-- engine class, 0 to 5 -/
  cls : Nat
  /-- instruction words minus one -/
  cnt : Nat
  /-- address of the next word to issue -/
  pc : W64
  /-- the clause was chosen at the minimum PC (R124) -/
  atMin : Bool
  /-- its lanes at the choice were all the unparked live lanes (R124) -/
  alone : Bool
  /-- the lanes that passed its header (R48) -/
  lanes : LaneMask
  /-- the S registers when its header test was made: the member masks are read then (R101) -/
  sAt : NMap W64
  /-- its words after the header as they were fetched before it started, in order; none where no fetch was allowed (R122) -/
  words : List (Option W64)
  /-- YLD of the header, or a yield issued (R127) -/
  yld : Bool
  /-- cycles of the last sleep issued (R144) -/
  sleep : Option Nat
  deriving DecidableEq, Repr

/-- What a watch stop took from a group, which goes back if no predicate is true (R372): its clause, the queue and its shadow,
and what it holds of lanes returned inside a clause; with SEQ at the stop (R366). -/
structure WatchSave where
  seq : W32
  clause : Clause
  queue : List (List W32)
  shadow : List (List W32)
  mid : LaneMask
  midHdr : W64
  midQueue : List (List W32)
  midEnd : Bool × Option Nat
  deriving DecidableEq, Repr

/-- A group slot's occupant (R31, R32, R42, R261). -/
structure Group where
  core : Nat
  blk : Nat
  launch : Nat
  /-- index within the block (R34) -/
  gix : Nat
  /-- lanes that were launched, whether or not they have exited (R32) -/
  launched : LaneMask
  live : LaneMask
  /-- vector registers allocated (R33) -/
  nregs : Nat
  /-- generation tag of the register allocation (R132) -/
  tag : BitVec 4
  pcv : NMap W64
  v : NMap W32
  s : NMap W64
  cm : LaneMask
  en : LaneMask
  lc : NMap W32
  w : NMap (BitVec 512)
  t : NMap (BitVec 16)
  ab : BitVec 9
  al : BitVec 9
  sb : NMap (BitVec 6)
  fps : BitVec 5
  /-- result queue, newest entry first, each of 32 elements (R39) -/
  queue : List (List W32)
  /-- queue shadow (R42) -/
  shadow : List (List W32)
  epc : NMap W64
  ecause : W64
  eaddr : W64
  emask : LaneMask
  ehdr : W64
  sen : LaneMask
  scm : LaneMask
  hkind : BitVec 2
  escr : NMap W64
  /-- debug registers that a dbgw of its handler has written, in effect after the rtt (R264) -/
  dbgPend : NMap W64
  clause : Option Clause
  dwell : Nat
  last : W64
  lprev : LaneMask
  pref : Option W64
  /-- cycle on which it started, and the placement order of its block (R127) -/
  age : Nat
  /-- since when it is in the ready set without issuing (R127) -/
  readySince : Option Nat
  yielded : Bool
  sleepUntil : Option Nat
  halted : Bool
  draining : Bool
  evicting : Bool
  /-- starts of the convergence timers, by parked header (R103) -/
  timers : NMap Nat
  /-- lanes that an rtt or a resume returned to a word inside the clause at EHDR (R48, R258), and the queue they resume
  with -/
  mid : LaneMask
  midHdr : W64
  midQueue : List (List W32)
  /-- the yield and the sleep issued in a clause that a handler interrupted (R144), and in the clause that the lanes of mid
  resume -/
  shadowEnd : Bool × Option Nat
  midEnd : Bool × Option Nat
  /-- the clause that a branch's hint has the fetch unit fetch (R130) -/
  hint : Option W64
  /-- the next header or word is exempt from breakpoints (R266) -/
  bpExempt : Bool
  /-- the next instruction is exempt from data watches (R372) -/
  watchExempt : Bool
  /-- a watch stop (R372): each hitting comparator and lane, with the store datum, the home address of the lane's first
  aligned word and the comparator's HITS after its increment; empty when no predicates are being evaluated -/
  watchHit : List (Nat × Nat × W32 × Nat × W32)
  watchSave : Option WatchSave
  /-- PC of the last word retired (R367), and its SEQ (R366) -/
  lastPc : W64
  lastSeq : W32
  /-- coverage threads: the candidate mask in [3:0] and the tile's pixel above it, by lane (R233) -/
  covCand : NMap Nat
  /-- lanes that have issued covw (R234) -/
  covDone : LaneMask
  /-- store hash, the steps that wait (R384), and the next hash-point ordinal (R385) -/
  hash : W64
  hashQ : List HashStep
  ordinal : Nat
  /-- spawned threads: spawn slots it holds (R154), and the requests that must be performed before its first clause
  issues (R155) -/
  spawnHeld : Nat
  waitReqs : List Nat
  /-- failing rows of mchk operations whose matrix-check trap waits for a clause boundary (R217) -/
  checks : List W32
  /-- jobs it has pushed to XC and to XE (R381) -/
  xcCount : Nat
  xeCount : Nat
  deriving DecidableEq, Repr

/-- A group that has ended while steps of its store hash wait (R131, R384): its slot, its block's index, the block's launched
groups, and the group as it left. -/
structure HashLeft where
  gid : Nat
  index : Nat
  ngroups : Nat
  g : Group
  deriving DecidableEq, Repr

/-- A spawned thread in a bin (R150, R153). -/
structure SpawnThread where
  b : W32
  c : W32
  ident : W32
  /-- a coverage thread (R362): V3, and the pixel of its tile -/
  cov : Option (W32 × Nat)
  deriving DecidableEq, Repr

/-- A spawn bin that is not free (R151). -/
structure Bin where
  blk : Nat
  entry : W64
  threads : List SpawnThread
  /-- cycle at which its timer reaches the bin time -/
  expires : Nat
  /-- cycle at which it closed, or none while no event has closed it -/
  closedAt : Option Nat
  /-- requests that must be performed before the group's first clause issues (R155) -/
  before : List Nat
  deriving DecidableEq, Repr

/-- An L1 line (R161): its data, the bytes held, the dirty bytes, its sectors in the read set (R281), and whether it is
marked as the next victim (R162). -/
structure L1Line where
  held : BitVec 128
  dirty : BitVec 128
  readSet : BitVec 4
  nextVictim : Bool
  data : BitVec 1024
  deriving DecidableEq, Repr

/-- A translation held in a TLB (R331): address-space number, page bits (16, 21 or 30), page number, leaf entry. -/
structure TlbEntry where
  asn : Nat
  bits : Nat
  vpn : Nat
  pte : W64
  deriving DecidableEq, Repr

/-- A convergence register (R194 to R198). -/
structure CvReg where
  fires : BitVec 8
  /-- 0 idle, 1 collecting, 2 complete, 3 attached -/
  st : Nat
  signed : Nat
  dis : Bool
  /-- N - 1 of the declared set -/
  size : BitVec 11
  ref : W32
  /-- lowest dissenting GIX (R196) -/
  dgix : Option Nat
  /-- the operations of the sign instructions counted: each holds its slot -/
  signOps : List Nat
  /-- id of the attached operation -/
  op : Option Nat
  deriving DecidableEq, Repr

/-- The tile instructions of the matrix engine (R202). -/
inductive MatKind
  | mma | mmas | mmt | mzero | mld | mdrain | mdraint | mchk
  deriving DecidableEq, Repr

/-- An operand pair at issue (R204): the record's generic address and the origin word. -/
structure MatPair where
  ra : W64
  org : W64
  deriving DecidableEq, Repr

/-- How far an operation of a context is (R198 to R200). -/
inductive MatStage
  | attached | fired | running
  deriving DecidableEq, Repr

/-- An operation in a context's attach order (R198). -/
structure MatOp where
  id : Nat
  kind : MatKind
  gid : Nat
  tag : BitVec 4
  stage : MatStage
  tile : Nat
  set : Bool
  sat : Bool
  rnd : Rnd
  b : MatPair
  c : MatPair
  /-- the format word it fired with (R198) -/
  fmt : W32
  /-- the records as read at the fire, eight words each (R198, R219) -/
  recB : List W64
  recC : List W64
  /-- its own instruction, for a check's record (R378), and the firing one, for an asynchronous fault's report (R219) -/
  site : Site
  firing : Site
  /-- 16-byte units of its operands that it has read, by home address / 16, and what they held (R201) -/
  got : List (Nat × Nat)
  /-- home addresses of the elements and scales that a drain has written (R201, R223) -/
  wrote : List Nat
  deriving DecidableEq, Repr

/-- A matrix context (R191, R215). -/
structure MatCtx where
  owner : Option Nat
  /-- element row * 64 + column -/
  bank : NMap W32
  cvs : NMap CvReg
  mtolTrap : Bool
  mtolExp : BitVec 5
  mmc : W32
  xm : List W64
  ops : List MatOp
  deriving DecidableEq, Repr

/-- The engine queues that an xpop pops (R301): with the first register and lanes of a ray pop, or the S register. -/
inductive PopKind
  | xt (reg : Nat) (m : LaneMask)
  | xe (reg : Nat)
  | xm (reg : Nat)
  deriving DecidableEq, Repr

/-- What a core holds beyond its groups (R118, R151, R161, R170, R191, R300, R370). -/
structure Core where
  /-- generation tag of the last grant, by group slot (R132) -/
  tags : NMap (BitVec 4)
  /-- blocks placed on it -/
  blocks : List Nat
  /-- tile lines whose presence bit is clear (R170); listed means clear -/
  absent : NMap Bool
  l1 : NMap L1Line
  refreshes : Nat
  tlb : List TlbEntry
  icache : NMap W64
  engineSeq : W32
  /-- entries of the XE queue, oldest first, with the launch that pushed the job (R346) -/
  xe : List (Nat × W64)
  bins : NMap Bin
  bpa : NMap W64
  bpf : NMap W64
  dwa : NMap W64
  dwc : NMap W64
  ctx0 : MatCtx
  ctx1 : MatCtx
  /-- context whose operation ran last (R133) -/
  lastCtx : Nat
  /-- samples: memory-class instructions since the last sampled one, slot sampled last (R368, R377) -/
  memCount : Nat
  lastSampled : Nat
  /-- samples taken since the sampler was set (R368) -/
  pcTaken : Nat
  /-- sampled memory instructions: the operation awaited, the record's words 0 to 2, and its site's words (R366, R377) -/
  samples : List (Nat × List W64 × List W64)
  /-- the capacity-refresh count as last reported, and when (R378) -/
  refreshesSeen : Nat
  refreshesAt : Nat
  deriving DecidableEq, Repr

/-- Where a value read goes (R66). -/
inductive Dst
  | none
  /-- n bytes to the elements of a lane from a first register, sign-extended to 32 bits or not -/
  | v (lane reg n : Nat) (sx : Bool)
  /-- n bytes to an S register, sign-extended to 64 bits or not -/
  | s (reg n : Nat) (sx : Bool)
  /-- a 32-byte half of a window register -/
  | w (win half : Nat)
  /-- a value that a graphics instruction's result is computed from, under a key -/
  | raw (key : Nat)
  deriving DecidableEq, Repr

/-- A texel that contributes to a lane's result (R240): the key of its block, the format, its place in the block, and its
weight as a fraction. -/
structure Tap where
  key : Nat
  fmt : Nat
  sub : Nat
  wn : Nat
  wd : Nat
  deriving DecidableEq, Repr

/-- What an instruction computes from the values it reads (R179, R231, R240). -/
inductive Gfx
  /-- attr: mode, first register, and each lane's pixel, NA and attribute index -/
  | attr (mode d : Nat) (ls : List (Nat × W32 × Nat × Nat))
  /-- a texture instruction: first register and each lane's texels -/
  | tex (d : Nat) (ls : List (Nat × List Tap))
  /-- ldp (R179): the destination, the record's format code, and each lane with the nibble of its element -/
  | plane (d fmt : Nat) (ls : List (Nat × Bool))
  deriving DecidableEq, Repr

/-- One single-copy-atomic access at an array (R173, R184, R286). Addresses are home addresses. -/
inductive Access
  | ld (addr n : Nat) (dst : Dst)
  | st (addr : Nat) (data : List Byte)
  | nib (addr : Nat) (hi : Bool) (x : BitVec 4)
  | atom (addr : Nat) (op : AtomOp) (x : W32) (dst : Dst)
  | cas (addr : Nat) (b c : W32) (dst : Dst)
  | fatom (addr : Nat) (op : FatomOp) (x : W32) (dst : Dst)
  | ctrAdd (addr : Nat) (x : W64) (va : W64)
  | ctrRd (addr : Nat) (dst : Dst)
  deriving DecidableEq, Repr

/-- An instruction's accesses on their way to one array (R171, R274, R279): the accesses still to be performed, in
order. A remote store that has been performed waits for its acknowledgement. -/
structure Req where
  id : Nat
  /-- issuing core (an engine's requests: the core of the push + 8192 × (job's identifier + 1), a source of its own), and
  group where a group issued it -/
  core : Nat
  gid : Nat
  launch : Nat
  /-- the array, as `arrayOf` numbers it -/
  arr : Nat
  /-- the accesses go to the issuing core's own tile port (R171) -/
  own : Bool
  /-- they are to snapshot spaces, performed at the home (R163, R184), their loads with a cache policy -/
  snap : Bool
  pol : Policy
  todo : List Access
  /-- the asynchronous operation that waits for it -/
  op : Nat
  /-- a remote store that is performed and not acknowledged -/
  acked : Bool
  site : Site
  /-- when it reached the order gate of its home (R383) -/
  arrived : Option Nat
  /-- requester identifier of its logged operations (R381) -/
  ident : W64
  deriving DecidableEq, Repr

/-- An asynchronous instruction in flight (R66): what it will write, and what it still waits for. -/
structure AsyncOp where
  id : Nat
  gid : Nat
  core : Nat
  launch : Nat
  tag : BitVec 4
  slot : Option (BitVec 3)
  /-- element key and value -/
  vw : List (Nat × W32)
  sw : List (Nat × W64)
  /-- window, half, bits -/
  ww : List (Nat × Nat × BitVec 256)
  /-- keys of the destinations already written (R66) -/
  landed : List Nat
  /-- a value still to come may raise FPS flags: a read of FPS waits for it (R37) -/
  fp : Bool
  /-- false while it waits for an event of its own: an engine's entry, a counter's wait -/
  ready : Bool
  /-- requests, write-backs and publishes it waits for: it may complete when none of them is in flight -/
  deps : List Nat
  /-- a mrd: context's owner block, tile, first column, columns, first register, lanes (R214) -/
  mrd : Option (Nat × Nat × Nat × Nat × Nat × LaneMask)
  /-- the L1 lines that its loads missed: each is an outstanding miss until it completes (R190) -/
  missed : List Nat
  /-- work on the values that have arrived for it, by key -/
  gfx : Option Gfx
  raw : List (Nat × Nat)
  /-- an xpop that waits for its entry -/
  pop : Option PopKind
  /-- PC of its instruction, which an asynchronous report names (R366) -/
  site : Site
  deriving DecidableEq, Repr

/-- Dirty bytes on their way to the home (R161, R282). The stage counts the egress queues that have accepted it: 0 none,
1 the cluster's, 2 the die's, 3 the edge die's fabric port. -/
structure WriteBack where
  id : Nat
  core : Nat
  launch : Nat
  line : Nat
  mask : BitVec 128
  data : BitVec 1024
  stage : Nat
  /-- when they accepted it, in the numbering of identifiers; 0 before that (R282) -/
  acc1 : Nat
  acc2 : Nat
  acc3 : Nat
  /-- the site of a `.byp` store, performed before any later access of the core to its sector (R163, R424) -/
  through : Option Site
  deriving DecidableEq, Repr

/-- The ten operations of a contribution to a reduction window (R426, R427). -/
inductive RedOp
  | atom (op : AtomOp)
  | fatom (op : FatomOp)
  | ctrAdd
  deriving DecidableEq, Repr

/-- A contributor of this package to a contribution (R427): the contribution's first number, and who made it. -/
structure Contributor where
  id : Nat
  launch : Nat
  core : Nat
  site : Site
  deriving DecidableEq, Repr

/-- A contribution on its way to a reduction window's home (R426, R427): at no unit yet, held in a die's merge unit, or
past the units. -/
structure Contrib where
  id : Nat
  op : RedOp
  addr : Nat
  value : W64
  /-- contributions of this package that are merged in it, and the packages of the others -/
  owners : List Contributor
  peers : List Nat
  /-- edge die of the unit that holds it, and when its hold timer runs out -/
  unit : Option (Nat × Nat)
  /-- it has left the units of this package, and whether unmerged: it then passes every later unit too -/
  past : Bool
  lone : Bool
  /-- counter address, for a kill's report -/
  va : W64
  site : Site
  /-- when replay's order gate at the unit or the home first held it (R383) -/
  arrived : Option Nat
  deriving DecidableEq, Repr

/-- What follows a publish (R282, R288, R292, R293). -/
inductive AfterPub
  | nothing
  /-- a ctr.add.rel leaves the core -/
  | ctrAdd (req : Req)
  /-- a ctr.add.rel to snapshot space: the L1's sector is treated as R189 says, then the request leaves -/
  | ctrAddL1 (req : Req) (line : Nat) (sector : Nat)
  /-- a ctr.add.rel to a reduction window -/
  | contribute (k : Contrib)
  /-- lfence: the layout-record cache of the cluster is invalidated -/
  | lfence
  deriving DecidableEq, Repr

/-- A publish in progress (R282). -/
structure Publish where
  id : Nat
  core : Nat
  gid : Nat
  launch : Nat
  scope : Scope
  reqs : List Nat
  wbs : List Nat
  /-- stores through compressed-tile apertures that it waits for (R339) -/
  aps : List Nat
  /-- its contributions to reduction windows, and whether the flush was sent (R428) -/
  contribs : List Nat
  op : Nat
  after : AfterPub
  deriving DecidableEq, Repr

/-- A registered counter wait (R289, R291). -/
structure Wait where
  id : Nat
  core : Nat
  gid : Nat
  tag : BitVec 4
  launch : Nat
  slot : BitVec 3
  addr : Nat
  va : W64
  target : W64
  acq : Bool
  dst : Option (BitVec 5)
  /-- cycle at which the limit elapses -/
  limit : Option Nat
  /-- its counter met the target before the limit elapsed (R289) -/
  met : Bool
  /-- when replay's order gate first held it (R383) -/
  arrived : Option Nat
  /-- earlier requests of the core to the same array: it registers after them (R279) -/
  behind : List Nat
  /-- the asynchronous operation it completes, and its requester identifier (R381) -/
  op : Nat
  ident : W64
  deriving DecidableEq, Repr

/-- An intersection (R247, R248): its exact t as a fraction, and the values that its record delivers. -/
structure RayHit where
  tn : Int
  td : Nat
  t : W32
  u : W32
  v : W32
  pid : W64
  front : Bool
  deriving DecidableEq, Repr

/-- What a ray has still to visit: a node with the nodes above it counted, or a triangle. -/
inductive RayItem
  | node (a : W64) (depth : Nat)
  | tri (a : W64)
  deriving DecidableEq, Repr

/-- How far a ray is (R243, R248): under way, with a record to pop (and its candidate), or suspended with its candidate
popped. -/
inductive RayStage
  | running
  | ready (words : List W32) (cand : Option RayHit)
  | asked (cand : RayHit)
  deriving DecidableEq, Repr

/-- A ray that is outstanding (R243). -/
structure Ray where
  id : Nat
  gid : Nat
  core : Nat
  launch : Nat
  blk : Nat
  tag : BitVec 4
  lane : Nat
  /-- V[k] to V[k + 7] -/
  words : List W32
  flags : W64
  todo : List RayItem
  closest : Option RayHit
  stage : RayStage
  site : Site
  deriving DecidableEq, Repr

/-- A block that has been placed (R118 to R121), or is saved (R270). -/
structure Block where
  launch : Nat
  core : Nat
  /-- linear index in its launch (S1), index of its array or all ones (S2), rank in the array (R120, R34) -/
  index : Nat
  array : W64
  rank : Nat
  /-- first byte of the tile reservation, its KiB, and the .tile size in bytes (R159) -/
  res : Nat
  tileKiB : Nat
  tileSize : Nat
  /-- first counter slot and their number -/
  ctr0 : Nat
  nctr : Nat
  /-- group slots it reserved, in order: the launched groups' then the spawned groups' -/
  slots : List Nat
  ngroups : Nat
  nregs : Nat
  /-- spawn slots reserved and taken (R151) -/
  spawn : Nat
  spawnTaken : Nat
  /-- matrix context it owns -/
  ctx : Option Nat
  /-- placement order -/
  order : Nat
  evicting : Bool
  /-- saved at an eviction: the groups, the context, the counters and the tile bytes (R270) -/
  savedGroups : List Group
  /-- its closed bins as unstarted groups, in the order in which they closed (R156) -/
  unstarted : List Bin
  savedCtx : Option MatCtx
  savedTile : List (Nat × Byte)
  savedCtrs : List W64
  savedWaits : List Wait
  savedOps : List AsyncOp
  savedRays : List Ray
  saved : Bool
  /-- owned tile pass: render slot and tile (R407) -/
  pass : Option (Nat × Nat)
  /-- a tret.next that has not completed (R412): its operation, pass slot and destination, and whether a pass is granted -/
  tret : Option (Nat × Nat × Nat × Bool)
  deriving DecidableEq, Repr

/-- The parameters of a launch (R119, R397): as its node gives them. -/
structure Launch where
  /-- queue, its command's number, and the node -/
  queue : Nat
  cmd : Nat
  node : Nat
  asn : Nat
  root : Nat
  entry : W64
  args : W64
  nblocks : Nat
  /-- blocks per array, 0 when the launch has none -/
  arrayLen : Nat
  groups : Nat
  lastLanes : Nat
  nregs : Nat
  tile : Nat
  nctr : Nat
  spawn : Nat
  matrix : Bool
  /-- private limit in words and base (R165) -/
  plim : Nat
  pbase : W64
  cto : Nat
  bint : Nat
  tha : W64
  dha : W64
  /-- its queue has debug enabled (R140, R391) -/
  debug : Bool
  /-- render pass slot of a mesh launch (R352) -/
  rpass : Option Nat
  mesh : Bool
  /-- blocks placed so far and finished so far -/
  placed : Nat
  finished : Nat
  /-- a gang's blocks wait for GO (R430) -/
  held : Bool
  /-- mode of its queue: 0 free, 1 record, 2 replay; trace records (R379, R369) -/
  mode : Nat
  trace : Bool
  logt : W64
  /-- member number in its gang, 0 outside one (R381) -/
  member : Nat
  /-- cores that ran its blocks, and the publishes made on them before the node completes (R398) -/
  cores : List Nat
  pubs : Option (List Nat)
  /-- the node's eight 64-bit words and more, as read (R397) -/
  words : List W64
  /-- blocks of its arrays that have ended: their entries of the rank tables still name their bytes (R273) -/
  ranks : List Block
  deriving DecidableEq, Repr

/-- A layout record held in a cluster's cache (R340): its location tag and its words. -/
structure RecEntry where
  space : Nat
  asn : Nat
  addr : Nat
  words : List W64
  deriving DecidableEq, Repr

/-- An aperture's registers (R335), after the write port's checks. -/
structure Aperture where
  ctl : W64
  vbase : W64
  size : W64
  pbase : W64
  dim : W64
  deriving DecidableEq, Repr

/-- A store on its way through a compressed-tile aperture (R337, R339). -/
structure ApWrite where
  ap : Nat
  core : Nat
  launch : Nat
  /-- byte offset in the view -/
  off : Nat
  data : List Byte
  /-- its identifier -/
  id : Nat
  deriving DecidableEq, Repr

/-- A die's debug ring (R369): base, log2 of its records, and the addresses of the written and consumed counts. -/
structure DebugRing where
  base : Nat
  n : Nat
  written : Nat
  consumed : Nat
  deriving DecidableEq, Repr

/-- What a die holds (R331, R335, R368, R369, R373, R375, R404). -/
structure Die where
  apertures : NMap Aperture
  apWrites : List ApWrite
  tlb : List TlbEntry
  /-- log2 of the sampling periods, once set, and when they were -/
  pcRate : Option Nat
  pcSince : Nat
  memRate : Option Nat
  ring : Option DebugRing
  /-- records on their way to the ring: type, the first words and last the cycle of the event, and the words that name the
  location (R366) where the first words do not -/
  records : List (Nat × List W64 × List W64)
  /-- predicate words, number * 8 + word -/
  preds : NMap W64
  /-- L2-slice comparators, number * 4 + comparator -/
  l2w : NMap W64
  /-- steps of 100 MHz below the nominal frequency, and the clock is stretched -/
  steps : Nat
  sag : Bool
  /-- logical vault to physical vault, identity where not listed (R322) -/
  vaults : NMap Nat
  /-- corrected errors counted for the host (R323) -/
  corrected : Nat
  deriving DecidableEq, Repr

/-- What a cluster holds (R273, R322, R340). -/
structure Cluster where
  recs : List RecEntry
  /-- logical core to physical core of the cluster, 0 to 271; identity where not listed; 272 + the worn core's
  number while its blocks leave it (R403) -/
  phys : NMap Nat
  deriving DecidableEq, Repr

end Sys2Proof.Machine
end

