-- ==== Sys2Proof/Machine/TypesHost.lean ====
section
/-! DEFINITION. The records of the package's front end: queues and their commands (R391 to R398), gangs (R429 to R432), the
firmware's events (R396), the output surfaces (R436), the ports (R421), the replay streams and hash log (R382, R385). -/

namespace Sys2Proof.Machine

/-- What has become of a node within its LAUNCH (R398). -/
inductive NodeSt
  | waiting
  | running (launch : Nat)
  | complete
  | failed
  | unreachable
  deriving DecidableEq, Repr

/-- A gang of a GANG command on this member (R429 to R432). -/
structure Gang where
  leader : Nat
  members : List Nat
  tag : Nat
  /-- own member number -/
  me : Nat
  armTimeout : Nat
  goLead : Nat
  hash : W64
  /-- fabric times: of the command's start, of its ARM -/
  start : Nat
  armedAt : Option Nat
  /-- at the leader: members whose ARM has arrived, and whether its words matched -/
  arms : List (Nat × Bool)
  /-- start time of the GO -/
  go : Option Nat
  /-- its blocks have started -/
  issued : Bool
  started : List Nat
  deriving DecidableEq, Repr

/-- A command in progress (R393): its number, its words, and the nodes of a LAUNCH or GANG. -/
structure Cmd where
  num : Nat
  words : List W64
  first : Nat
  count : Nat
  nodes : NMap NodeSt
  counters : NMap Nat
  /-- successor words of the nodes that have launched, as read then (R397) -/
  succWords : NMap W64
  /-- blocks whose eviction a PREEMPT waits for; requests and write-backs that a SHOOTDOWN or MIGRATE waits for -/
  blocks : List Nat
  gang : Option Gang
  /-- its first part is done: the rest waits (R333, R430) -/
  begun : Bool
  deriving DecidableEq, Repr

/-- A queue (R391, R392, R400, R401). -/
structure Queue where
  /-- descriptor words, 0 where not listed, and the descriptor as the front end read it when EN was last set (R391) -/
  qd : NMap W64
  desc : NMap W64
  tail : W64
  head : W64
  evcnt : W64
  evhead : W64
  /-- core-mask table by cluster, all ones where not listed -/
  mask : NMap (BitVec 256)
  cmds : List Cmd
  /-- the next enable skips the command at HEAD (R395) -/
  skip : Bool
  /-- event records that wait, oldest first: EV0 to EV7 -/
  events : List (List W64)
  deriving DecidableEq, Repr

/-- A reported happening in the hub's event queue (R396). -/
inductive FwEvent
  /-- an addition to a queue's TAIL -/
  | start (q : Nat)
  /-- a node of a launch is complete (R398) -/
  | completed (n : Nat) (la : Launch)
  /-- a launch context was killed: its cause, EADDR and site (R402) -/
  | killed (n : Nat) (la : Launch) (code : Nat) (addr : W64) (site : Site)
  /-- a part to substitute (R403) -/
  | substitute (p : WornPart)
  /-- a step of a die's clock (R404) -/
  | clock (die : Nat) (up : Bool)
  /-- a lane of a fabric port failed: the port and its active lanes (R421) -/
  | lane (port active : Nat)
  /-- a host port whose link is down (R390) -/
  | portDown (port : Nat)
  /-- an addition that would carry TAIL past its end (R392) -/
  | overflow (q : Nat)
  /-- a queue's part of a device-level error (R402) -/
  | deviceError (q : Nat)
  /-- a worn firmware core (R403) -/
  | coreWear (core : Nat)
  /-- an aperture whose registers are an illegal combination (R335) -/
  | aperture (die ap : Nat)
  deriving DecidableEq, Repr

/-- What a gang control packet of this package says (R430 to R433). -/
inductive CtlKind
  | arm (k1 k2 k3 hash : W64)
  | go (time : Nat)
  | started
  | abort
  | miss
  | broken
  deriving DecidableEq, Repr

/-- A gang control packet that this package has sent (R433): to which package, for which tag. -/
structure CtlPacket where
  dst : Nat
  tag : Nat
  kind : CtlKind
  deriving DecidableEq, Repr

/-- The lanes of a port (R421): failures so far. -/
structure Port where
  failures : Nat
  deriving DecidableEq, Repr

/-- A surface of Mirage beyond its registers (R437): the frame chosen for the next vsync. -/
structure Surface where
  chosen : Option (Nat × W64)
  /-- the frame whose deadline is checked next -/
  checked : Nat
  deriving DecidableEq, Repr

/-- A replay or record stream of one home for one launch (R380 to R386): logical name, position of the next entry, units of
the current entry used, and whether it runs free. -/
structure Stream where
  launch : Nat
  home : List Nat
  pos : Nat
  used : Nat
  free : Bool
  deriving DecidableEq, Repr

/-- A hash point as logged (R385). -/
structure HashEntry where
  logt : W64
  ident : W64
  ordinal : Nat
  hash : W64
  pc : W64
  seq : W32
  deriving DecidableEq, Repr

end Sys2Proof.Machine
end

