-- ==== Sys2Proof/Machine/TypesEngine.lean ====
section
/-! DEFINITION. The records of the copy engines (R302 to R316) and the trellis encoder (R341 to R346). -/

namespace Sys2Proof.Machine

/-- One thing a copy job writes (R304 to R312): the element of a window position, the scale byte of a destination block
(its coordinates), or a checksum (rows or columns, index). -/
inductive CopyItem
  | elem (p : Nat)
  | scale (c : List Nat)
  | sum (cols : Bool) (i : Nat)
  deriving DecidableEq, Repr

/-- A 32-byte granule still to land (R310): its generic address, and its items with the generic address of each. -/
structure Granule where
  addr : W64
  items : List (W64 × CopyItem)
  deriving DecidableEq, Repr

/-- A copy job that is accepted and not complete (R303, R315). -/
structure CopyJob where
  id : Nat
  core : Nat
  gid : Nat
  launch : Nat
  blk : Nat
  site : Site
  ident : W64
  card : List W64
  src : List W64
  dst : List W64
  rowRec : List W64
  colRec : List W64
  /-- tile lines whose presence bit it cleared: core * 8192 + line, and those not yet landed (R309) -/
  cleared : List Nat
  /-- footprint: ranges of keys read and written (R315) -/
  reads : List (Nat × Nat)
  writes : List (Nat × Nat)
  /-- the block that pushed it, as it was then (R273) -/
  home : Block
  /-- units of its source that it has read: address, bytes and what they held (R308) -/
  units : List (Nat × Nat × Nat)
  /-- scales computed so far, by the block's coordinates (R307) -/
  scales : List (List Nat × Nat)
  /-- element codes converted so far, by window position: the same for every multicast destination, and what the checksums
  add up (R312, R313) -/
  codes : NMap Nat
  /-- engine of the cluster that runs it -/
  engine : Option Nat
  todo : List Granule
  /-- its counter additions not yet performed (R311) -/
  adds : List Nat
  deriving DecidableEq, Repr

/-- An encoder job that is accepted and not complete (R341, R346). -/
structure EncJob where
  id : Nat
  core : Nat
  gid : Nat
  launch : Nat
  blk : Nat
  site : Site
  ident : W64
  card : List W64
  src : List W64
  dst : List W64
  /-- the block that pushed it, as it was then (R273) -/
  home : Block
  /-- its counter addition on the way, after its last write (R346) -/
  added : Option Nat
  /-- encoded: its writes by generic address, and blocks with non-finite targets -/
  out : Option (List (W64 × List Byte) × Nat)
  deriving DecidableEq, Repr

end Sys2Proof.Machine
end

