-- ==== Sys2Proof/Machine/TypesRender.lean ====
section
/-! DEFINITION. The records of rendering: primitives, parameter lists, tile passes and their
requests (R348 to R364, R406 to R416). -/

namespace Sys2Proof.Machine

/-- A record address as prim resolved it (R364): the issuing core (which follows its block), block and tables. -/
structure RecAt where
  a : W64
  core : Nat
  blk : Nat
  asn : Nat
  root : Nat
  deriving DecidableEq, Repr

/-- An entry of a parameter list (R356) with its record's resolution (R364). -/
structure RenderEntry where
  pid : W64
  at_ : RecAt
  df : Nat
  cov : Bool
  entry : W64
  deriving DecidableEq, Repr

/-- A primitive that prim has emitted and that is not yet appended or dropped (R351): its tiles once it is binned. -/
structure Prim where
  id : Nat
  slot : Nat
  e : RenderEntry
  /-- 0 none, 1 back faces, 2 front faces -/
  cull : Nat
  gid : Nat
  tag : BitVec 4
  launch : Nat
  site : Site
  tiles : Option (List Nat)
  deriving DecidableEq, Repr

/-- A chunk of a pool that is in use (R356). -/
structure Chunk where
  idx : Nat
  key : Nat
  tile : Nat
  entries : List RenderEntry
  used : Nat
  deriving DecidableEq, Repr

/-- A mesh group that has started in a pass (R352, R355). -/
structure MeshGroup where
  key : Nat
  gid : Nat
  tag : BitVec 4
  launch : Nat
  blk : Nat
  /-- ID of its last primitive that is appended or dropped -/
  last : Option W64
  /-- it has left exit-draining -/
  exited : Bool
  deriving DecidableEq, Repr

/-- An outstanding tile pass (R406) and how far its start sequence is (R409). -/
structure TilePass where
  final : Bool
  hi : W64
  owner : Option Nat
  /-- step 1 of the start sequence is done, and the whole of it -/
  began : Bool
  started : Bool
  /-- entries still to render -/
  todo : List RenderEntry
  nent : Nat
  ncov : Nat
  anyCov : Bool
  /-- the `.cov` entry being rendered, pixels without a thread yet, and pixels awaited, each pixel × 16 + candidates -/
  cur : Option RenderEntry
  covTodo : List Nat
  covWait : List Nat
  /-- verdicts that have arrived: pixel × 16 + samples kept -/
  covGot : List Nat
  /-- HiZ bounds, hmin and hmax of each block (R363) -/
  hiz : NMap W32
  deriving DecidableEq, Repr

/-- A tile of a render pass (R406). -/
structure Tile where
  /-- earlier passes, and the HI of the last -/
  n : Nat
  lo : W64
  out : Option TilePass
  /-- its final pass is retired -/
  done : Bool
  deriving DecidableEq, Repr

/-- A render pass in a slot (R348). -/
structure RenderPass where
  queue : Nat
  cmd : Nat
  asn : Nat
  root : Nat
  p : List W64
  running : Bool
  failed : Bool
  /-- the pass's geometry has ended -/
  ended : Bool
  groups : List MeshGroup
  chunks : List Chunk
  tiles : NMap Tile
  /-- partial passes in the order in which they were forced -/
  forced : List Nat
  /-- cycle since when an append is held back -/
  heldSince : Option Nat
  deriving DecidableEq, Repr

/-- A request for a tile pass (R408), in arrival order. -/
structure TileReq where
  slot : Nat
  blk : Nat
  deriving DecidableEq, Repr

/-- A retirement in progress (R413): the accesses it waits for, then its publish; the tails' operations of `.done`. -/
structure Retire where
  blk : Nat
  gid : Nat
  waits : List Nat
  pub : Option Nat
  ops : List Nat
  site : Site
  deriving DecidableEq, Repr

end Sys2Proof.Machine
end

