-- ==== Sys2Proof/Machine/State.lean ====
section
/-! DEFINITION. The state of one ND9 package: plain data, holding every piece of state the spec names; the reasons a
step can stop; and the state after reset. -/

namespace Sys2Proof.Machine

/-- Why the machine stops. -/
inductive Fault
  /-- Raised by the meaning of a program word when no group has a clause in progress: the step never does this, since
  it names the group that issues (R47). Safe: no behaviour of the hardware is given away. -/
  | noIssuingGroup
  deriving DecidableEq, Repr

/-- Why an instruction has no meaning. -/
inductive Refusal
  /-- Raised by an arm of exec that has no meaning yet; the argument is the table's mnemonic. Safe. -/
  | notModelled (mnemonic : String)
  deriving DecidableEq, Repr

/-- The package. -/
structure State where
  /-- moves that come next, oldest first; empty when the next mover is a free choice (log entry 2) -/
  agenda : List Move
  /-- steps taken, the argument of the free values (log entries 2 and 3) -/
  tick : Nat
  /-- arithmetic-clock cycles since the package left reset (R369) -/
  now : Nat
  /-- the group whose word is being issued -/
  cur : Option Nat
  /-- the instruction word being issued, which an illegal-instruction trap records (R260) -/
  word : W64
  /-- the next fresh identifier -/
  nextId : Nat
  /-- memory bytes, by home address (log entry 1) -/
  mem : List Host.Cell
  /-- installed device memory in bytes, and L2 vaults per die (R324, R325) -/
  capacity : Nat
  l2n : Nat
  groups : NMap Group
  blocks : NMap Block
  launches : NMap Launch
  cores : NMap Core
  clusters : NMap Cluster
  dies : NMap Die
  asyncs : List AsyncOp
  reqs : List Req
  wbs : List WriteBack
  pubs : List Publish
  ctrWaits : List Wait
  contribs : List Contrib
  /-- copy jobs and encoder jobs in acceptance order -/
  copies : List CopyJob
  encodes : List EncJob
  /-- rays in push order (R243) -/
  rays : List Ray
  /-- primitives in emission order, render passes by slot, requests for tile passes in arrival order, retirements -/
  prims : List Prim
  passes : NMap RenderPass
  tileReqs : List TileReq
  retires : List Retire
  queues : NMap Queue
  /-- hub memory and plain registers as 8-byte words by hub offset: nodes, windows, Mirage, topology (R388) -/
  hub : NMap W64
  /-- semaphore owners, and the port that lost the last tie on each (R390) -/
  sems : NMap Nat
  semLost : NMap Nat
  /-- host links that are down -/
  portsDown : List Nat
  /-- the word that the last register read of each host port returned (R5, R390); under 2 that of a port which the event does
  not name -/
  replies : NMap W64
  /-- whether the last access of each host port that may end so got an error response (R388, R392), under the same numbers -/
  portErrs : NMap Bool
  fwEvents : List FwEvent
  /-- firmware cores that are worn (R403) -/
  fwWorn : List Nat
  /-- a failed verification leaves the boot status register alone (R405) -/
  verified : Bool
  /-- migrated ranges whose walks wait (R333, R393): address-space number, first byte, bytes -/
  migrating : List (Nat × Nat × Nat)
  /-- the next launch number, and the next placement order of a block (R399) -/
  launchSeq : Nat
  blockSeq : Nat
  streams : List Stream
  hashLog : List HashEntry
  /-- groups that have ended and whose hash still waits for the old values of atomics (R384) -/
  hashLeft : List HashLeft
  /-- die and cluster of the blocks of recorded launches, by log table and index: the cluster's number (R379) -/
  placeLog : List (W64 × Nat × Nat)
  /-- launches whose log is incomplete (R386) -/
  logFull : List Nat
  /-- own package number, the root of its fabric import table (R423), the port of each route by source package * 4096 +
  destination package, the ports (R421, R422, R438), the tags of aborted gangs (R431), and the gang control packets sent, oldest
  first (R433) -/
  pkg : Nat
  importRoot : Nat
  routes : NMap Nat
  ports : NMap Port
  aborted : List Nat
  sent : List CtlPacket
  /-- packets dropped or discarded, as fabric status counts them (R420, R433) -/
  drops : Nat
  /-- fabric time in ticks, its last path change, and whether it is locked (R435) -/
  ft : Nat
  ftChanged : Nat
  locked : Bool
  surfaces : NMap Surface
  misses : NMap Nat
  /-- one-time signatures used (R405) -/
  leavesUsed : Nat
  deriving DecidableEq, Repr

/-- The package after reset (R5, R31, R118, R170, R273, R335, R370, R388 to R391, R401, R435, R436). Records that are not
listed hold their reset values; log entry 4 names the values that the spec does not give: the installed capacity of 2 TiB,
no L2 vaults, package number 0, fabric time 0. -/
def State.reset : State :=
  { agenda := [], tick := 0, now := 0, cur := none, word := 0, nextId := 1, mem := [], capacity := 2 ^ 41, l2n := 0,
    groups := [], blocks := [], launches := [], cores := [], clusters := [], dies := [], asyncs := [], reqs := [],
    wbs := [], pubs := [], ctrWaits := [], contribs := [], copies := [], encodes := [], rays := [], prims := [],
    passes := [], tileReqs := [], retires := [], queues := [], hub := [], sems := [], semLost := [], portsDown := [], replies := [],
    portErrs := [],
    fwEvents := [], fwWorn := [], verified := true, migrating := [], launchSeq := 0, blockSeq := 0, streams := [],
    hashLog := [], hashLeft := [], placeLog := [], logFull := [], pkg := 0, importRoot := 0, routes := [], ports := [], aborted := [],
    sent := [], drops := 0, ft := 0, ftChanged := 0, locked := false, surfaces := [], misses := [], leavesUsed := 0 }

end Sys2Proof.Machine
end

