-- ==== Sys2Proof/Machine/Ops.lean ====
section
/-! DEFINITION. Named operations over registers, groups and cores: lane masks, the register files of R31 and their
accessors, the scoreboard (R38), the end of a clause (R124, R144), and taking and leaving a handler (R255 to R258). -/

namespace Sys2Proof.Machine

/-- What one step of the machine answers. -/
abbrev Result := Host.Outcome State Fault Refusal

-- Lanes and masks

/-- The lanes of a group. -/
def lanes : List Nat := List.range 32

/-- The mask of the lanes of a list that satisfy a test. -/
def maskFrom (p : Nat → Bool) : List Nat → LaneMask
  | [] => 0
  | l :: ls => (if p l then BitVec.shiftLeft 1#32 l else 0#32) ||| maskFrom p ls

/-- The mask of the lanes that satisfy a test. -/
def maskOf (p : Nat → Bool) : LaneMask := maskFrom p lanes

/-- The lanes of a mask, in ascending order. -/
def laneList (m : LaneMask) : List Nat := lanes.filter fun l => m.getLsbD l

/-- The number of lanes of a mask. -/
def laneCount (m : LaneMask) : Nat := (laneList m).length

/-- The lowest lane of a mask. -/
def lowestLane (m : LaneMask) : Option Nat := (laneList m).head?

/-- Writes an element of the lanes of a list. -/
def setLanes {α : Type} (put : NMap α → Nat → α → NMap α) (f : Nat → α) (m : NMap α) : List Nat → NMap α
  | [] => m
  | l :: ls => setLanes put f (put m l (f l)) ls

/-- Sign extension of the low n bits of a natural number to a width. -/
def sext (n w : Nat) (x : Nat) : BitVec w := (BitVec.ofNat n x).signExtend w

-- Default records

/-- A matrix context that no block owns (R191, R215). -/
def freeCtx : MatCtx :=
  { owner := none, bank := [], cvs := [], mtolTrap := false, mtolExp := 12, mmc := 0, xm := [], ops := [] }

/-- A convergence register at reset (R194). -/
def idleCv : CvReg :=
  { fires := 0, st := 0, signed := 0, dis := false, size := 0, ref := 0, dgix := none, signOps := [], op := none }

/-- A core at reset (R118, R161, R170, R300, R370). -/
def freshCore : Core :=
  { tags := [], blocks := [], absent := [], l1 := [], refreshes := 0, tlb := [], icache := [], engineSeq := 0, xe := [],
    bins := [], bpa := [], bpf := [], dwa := [], dwc := [], ctx0 := freeCtx, ctx1 := freeCtx, lastCtx := 1,
    memCount := 0, lastSampled := 47, pcTaken := 0, samples := [], refreshesSeen := 0, refreshesAt := 0 }

/-- A cluster at reset. -/
def freshCluster : Cluster := { recs := [], phys := [] }

/-- An aperture at reset (R335). -/
def freshAperture : Aperture := { ctl := 0, vbase := 0, size := 0, pbase := 0, dim := 0 }

/-- A die at reset. -/
def freshDie : Die :=
  { apertures := [], apWrites := [], tlb := [], pcRate := none, pcSince := 0, memRate := none, ring := none, records := [], preds := [],
    l2w := [], steps := 0, sag := false, vaults := [], corrected := 0 }

-- The state's tables

/-- The die of a number. -/
def State.die (s : State) (d : Nat) : Die := NMap.get freshDie s.dies d

/-- Changes a die. -/
def State.modDie (s : State) (d : Nat) (f : Die → Die) : State := { s with dies := NMap.put s.dies d (f (s.die d)) }

/-- The core of a number. -/
def State.core (s : State) (c : Nat) : Core := NMap.get freshCore s.cores c

/-- Changes a core. -/
def State.modCore (s : State) (c : Nat) (f : Core → Core) : State :=
  { s with cores := NMap.put s.cores c (f (s.core c)) }

/-- The cluster of a number: core / 256. -/
def State.cluster (s : State) (c : Nat) : Cluster := NMap.get freshCluster s.clusters c

/-- Changes a cluster. -/
def State.modCluster (s : State) (c : Nat) (f : Cluster → Cluster) : State :=
  { s with clusters := NMap.put s.clusters c (f (s.cluster c)) }

/-- A context of a core by number. -/
def Core.ctx (c : Core) (n : Nat) : MatCtx := if n = 0 then c.ctx0 else c.ctx1

/-- Writes a context of a core. -/
def Core.setCtx (c : Core) (n : Nat) (x : MatCtx) : Core := if n = 0 then { c with ctx0 := x } else { c with ctx1 := x }

/-- The group in a slot, if any. -/
def State.group? (s : State) (gid : Nat) : Option Group := NMap.get none (s.groups.map fun e => (e.1, some e.2)) gid

/-- Writes a group's record. -/
def State.setGroup (s : State) (gid : Nat) (g : Group) : State := { s with groups := NMap.put s.groups gid g }

/-- Changes a group, if the slot holds one. -/
def State.modGroup (s : State) (gid : Nat) (f : Group → Group) : State :=
  match s.group? gid with
  | some g => s.setGroup gid (f g)
  | none => s

/-- The block of a number, if any. -/
def State.block? (s : State) (b : Nat) : Option Block := NMap.get none (s.blocks.map fun e => (e.1, some e.2)) b

/-- Changes a block. -/
def State.modBlock (s : State) (b : Nat) (f : Block → Block) : State :=
  match s.block? b with
  | some x => { s with blocks := NMap.put s.blocks b (f x) }
  | none => s

/-- The launch of a number, if any. -/
def State.launch? (s : State) (n : Nat) : Option Launch := NMap.get none (s.launches.map fun e => (e.1, some e.2)) n

/-- Changes a launch. -/
def State.modLaunch (s : State) (n : Nat) (f : Launch → Launch) : State :=
  match s.launch? n with
  | some x => { s with launches := NMap.put s.launches n (f x) }
  | none => s

/-- A fresh identifier. -/
def State.fresh (s : State) : Nat × State := (s.nextId, { s with nextId := s.nextId + 1 })

/-- A free choice below n, and the state that has used it (log entry 2). -/
def State.pick (s : State) (n : Nat) : Nat × State :=
  if n ≤ 1 then (0, s) else (Config.choice s.tick % n, { s with tick := s.tick + 1 })

/-- The die of a core, and its cluster (R273). -/
def dieOf (core : Nat) : Nat := core / 512

/-- The cluster of a core. -/
def clusterOf (core : Nat) : Nat := core / 256

-- A group's registers

/-- V register r of lane l (R31). -/
def Group.vget (g : Group) (r l : Nat) : W32 := NMap.get 0 g.v (r * 32 + l)

/-- Writes V register r of lane l. -/
def Group.vset (g : Group) (r l : Nat) (x : W32) : Group := { g with v := NMap.set 0 g.v (r * 32 + l) x }

/-- Writes V register r in the lanes of a list. -/
def Group.vsetLanes (g : Group) (r : Nat) (f : Nat → W32) : List Nat → Group
  | [] => g
  | l :: ls => Group.vsetLanes (g.vset r l (f l)) r f ls

/-- The pair that starts at an even register (R8). -/
def Group.vget64 (g : Group) (r l : Nat) : W64 := g.vget (r + 1) l ++ g.vget r l

/-- Writes a pair in the lanes of a list. -/
def Group.vset64Lanes (g : Group) (r : Nat) (f : Nat → W64) (ls : List Nat) : Group :=
  (g.vsetLanes r (fun l => (f l).setWidth 32) ls).vsetLanes (r + 1) (fun l => (f l).extractLsb' 32 32) ls

/-- S register r. -/
def Group.sget (g : Group) (r : Nat) : W64 := NMap.get 0 g.s r

/-- Writes S register r. -/
def Group.sset (g : Group) (r : Nat) (x : W64) : Group := { g with s := NMap.set 0 g.s r x }

/-- Program counter of lane l. -/
def Group.pc (g : Group) (l : Nat) : W64 := NMap.get 0 g.pcv l

/-- Writes the program counter of lane l. -/
def Group.setPc (g : Group) (l : Nat) (x : W64) : Group := { g with pcv := NMap.set 0 g.pcv l x }

/-- Writes the program counter of the lanes of a list. -/
def Group.setPcs (g : Group) (f : Nat → W64) : List Nat → Group
  | [] => g
  | l :: ls => Group.setPcs (g.setPc l (f l)) f ls

/-- Loop counter n. -/
def Group.lcGet (g : Group) (n : Nat) : W32 := NMap.get 0 g.lc n

/-- Writes loop counter n. -/
def Group.lcSet (g : Group) (n : Nat) (x : W32) : Group := { g with lc := NMap.set 0 g.lc n x }

/-- Window register n (R112). -/
def Group.wget (g : Group) (n : Nat) : BitVec 512 := NMap.get 0 g.w n

/-- Writes a half of window register n. -/
def Group.wsetHalf (g : Group) (n h : Nat) (x : BitVec 256) : Group :=
  let old := g.wget n
  let new : BitVec 512 :=
    if h = 0 then old.extractLsb' 256 256 ++ x else x ++ old.extractLsb' 0 256
  { g with w := NMap.set 0 g.w n new }

/-- Scoreboard count of slot n (R38). -/
def Group.sbGet (g : Group) (n : Nat) : BitVec 6 := NMap.get 0 g.sb n

/-- Adds one to a slot's count. -/
def Group.sbInc (g : Group) (n : Nat) : Group := { g with sb := NMap.set 0 g.sb n (g.sbGet n + 1) }

/-- Takes one from a slot's count. -/
def Group.sbDec (g : Group) (n : Nat) : Group := { g with sb := NMap.set 0 g.sb n (g.sbGet n - 1) }

/-- Bit n set where slot n is zero (R34, special SBZ). -/
def Group.sbz (g : Group) : BitVec 8 :=
  (List.range 8).foldl (fun m n => if g.sbGet n = 0 then m ||| BitVec.shiftLeft 1#8 n else m) 0

/-- Routing-table entry n (R45). -/
def Group.rt (g : Group) (n : Nat) : BitVec 16 := NMap.get 0 g.t n

/-- The live lanes as loop, the member masks and LIVE see them: inside a handler those of EMASK (R102, R255). -/
def Group.liveView (g : Group) : LaneMask := if g.hkind = 0 then g.live else g.live &&& g.emask

/-- The live lanes whose program counter is an address (R35). -/
def Group.lanesAt (g : Group) (pc : W64) : LaneMask := maskOf fun l => g.live.getLsbD l && g.pc l == pc

/-- Pushes a result-queue entry: the elements of the lanes of EM, zero elsewhere (R39). -/
def Group.push (g : Group) (em : LaneMask) (f : Nat → W32) : Group :=
  { g with queue := ((lanes.map fun l => if em.getLsbD l then f l else 0) :: g.queue).take 16 }

/-- Ors sticky flags (R37). -/
def Group.orFlags (g : Group) (fl : BitVec 5) : Group := { g with fps := g.fps ||| fl }

/-- Releases a slot of a group, if the slot's grant is still the one the operation was issued under (R132). -/
def State.releaseSlot (s : State) (gid : Nat) (tag : BitVec 4) (slot : Option (BitVec 3)) : State :=
  match slot with
  | none => s
  | some n => s.modGroup gid fun g => if g.tag = tag then g.sbDec n.toNat else g

-- Clause boundaries

/-- What a clause's end does to its group: whether it yields, and how long it sleeps (R127, R144). -/
def Clause.pause (c : Clause) (now : Nat) : Bool × Option Nat :=
  (c.yld || c.sleep == some 0, (c.sleep.filter fun n => n != 0).map fun n => now + n)

/-- Ends the clause in progress: the queue is emptied (R40), the dwell state follows R124, and a yield or a sleep takes
effect (R127, R144). -/
def Group.endClause (g : Group) (now : Nat) : Group :=
  match g.clause with
  | none => g
  | some c =>
    let g := { g with clause := none, queue := [], readySince := none,
                      yielded := (c.pause now).1, sleepUntil := (c.pause now).2 }
    if c.atMin then
      if c.alone then { g with dwell := 0, lprev := c.lanes }
      else if c.lanes = g.lprev then { g with dwell := g.dwell + 1 }
      else { g with dwell := 1, last := c.hdr, lprev := c.lanes }
    else g

/-- The address after the clause (R134). -/
def Clause.fall (c : Clause) : W64 := c.hdr + BitVec.ofNat 64 (8 * (c.cnt + 2))

/-- The address of the clause's last word. -/
def Clause.lastWord (c : Clause) : W64 := c.hdr + BitVec.ofNat 64 (8 * (c.cnt + 1))

/-- Every live lane at the issue PC advances past the word, whatever its EN bit (R35), and the clause ends after its
last word. -/
def Group.advance (g : Group) (at_ : LaneMask) (now : Nat) (seq : W32) : Group :=
  match g.clause with
  | none => g
  | some c =>
    let g := (g.setPcs (fun l => g.pc l + 8) (laneList (at_ &&& g.live)))
    let g := { g with clause := some { c with pc := c.pc + 8 }, lastPc := c.pc, lastSeq := seq, mid := g.mid &&& ~~~at_,
                       bpExempt := false, watchExempt := false }
    if c.pc = c.lastWord then g.endClause now else g

-- Handlers

/-- What a precise trap records (R260). -/
structure Trap where
  code : Nat
  /-- the faulting access wrote memory (R259) -/
  wr : Bool
  addr : W64
  mask : LaneMask
  resume : W64
  deriving DecidableEq, Repr

/-- ECAUSE (R260): the code, and bit 8 where the access wrote. -/
def Trap.cause (t : Trap) : W64 := BitVec.ofNat 64 (t.code + if t.wr then 256 else 0)

/-- Entry into the trap handler or the debug handler (R255, R256): every live lane goes to the handler's address, the
lanes at the issue PC resume at the resume address, the queue moves to its shadow, and EN becomes the fault mask. A yield
or sleep issued in the interrupted clause waits for its end (R144). At a boundary of a group with lanes that would resume inside
a clause (R217, R258), the queue and the end are that clause's (log entry 27). -/
def Group.enterHandler (g : Group) (kind : BitVec 2) (target : W64) (issuePc hdr : W64) (t : Trap) : Group :=
  let g1 := { g with epc := setLanes (NMap.set 0) (fun l => if g.pc l = issuePc then t.resume else g.pc l) g.epc
                              (laneList g.live) }
  let g2 := g1.setPcs (fun _ => target) (laneList g.live)
  let inside := g.clause.isNone && g.mid != 0
  { g2 with ehdr := hdr, sen := g.en, scm := g.cm, shadow := if inside then g.midQueue else g.queue, queue := [],
            ecause := t.cause, eaddr := t.addr, emask := t.mask,
            hkind := kind, en := t.mask, clause := none, timers := [], mid := 0, midQueue := [], readySince := none,
            shadowEnd := match g.clause with
              | some c => (c.yld, c.sleep)
              | none => if inside then g.midEnd else (false, none) }

/-- A group after the entry of a handler by the last word of its clause: the clause has ended, and its yield or sleep takes effect
(R144). -/
def Group.pauseAfter (g : Group) (cl : Option Clause) (t : Trap) (now : Nat) : Group :=
  match cl with
  | none => g
  | some c =>
    if t.resume = c.fall then { g with yielded := (c.pause now).1, sleepUntil := (c.pause now).2, shadowEnd := (false, none) }
    else g

/-- The address lies after EHDR and within the words of the clause headed there (R258). -/
def insideClause (ehdr header pc : W64) : Bool :=
  decide (ehdr.toNat < pc.toNat) && decide (pc.toNat ≤ ehdr.toNat + 8 * ((header.extractLsb' 0 4).toNat + 1))

/-- Return from a handler (R143, R258): every live lane goes to its EPC element, EN, CM and the queue come back. The
header word at EHDR tells which lanes resume inside its clause. -/
def Group.leaveHandler (g : Group) (header : W64) : Group :=
  let back := maskOf fun l => g.live.getLsbD l && insideClause g.ehdr header (NMap.get 0 g.epc l)
  let g1 := g.setPcs (fun l => NMap.get 0 g.epc l) (laneList g.live)
  { g1 with en := g.sen, cm := g.scm, queue := [], shadow := [], mid := back, midHdr := g.ehdr, midQueue := g.shadow, midEnd := g.shadowEnd,
            shadowEnd := (false, none), hkind := 0, bpExempt := g.hkind == 2 }

-- Blocks and their groups

/-- The groups of a block that are in their slots. -/
def State.blockGroups (s : State) (blk : Nat) : NMap Group := s.groups.filter fun e => e.2.blk == blk

/-- The block's groups have left and no bin holds its threads (R131, R154, R221). -/
def State.blockEmpty (s : State) (blk : Nat) : Bool :=
  (s.blockGroups blk).isEmpty &&
    match s.block? blk with
    | none => true
    | some b => b.unstarted.isEmpty && (s.core b.core).bins.all fun e => e.2.blk != blk

end Sys2Proof.Machine
end

