-- ==== Sys2Proof/Machine/Operands.lean ====
section
/-! DEFINITION. Operands: lane routing (R43, R44), the specials (R34), the constants (R54), reads at 32 and 64 bits
(R71), and the register checks that raise illegal-operand (R33, R41, R45). -/

namespace Sys2Proof.Machine

/-- How an inline constant is supplied, by the instruction's type (R54). -/
inductive ConstKind
  | word | f16 | bf16 | f16x2 | bf16x2
  deriving DecidableEq, Repr

/-- The constant kind of a float type. -/
def constKindOf : FType → ConstKind
  | .f16 => .f16
  | .bf16 => .bf16
  | .f16x2 => .f16x2
  | .bf16x2 => .bf16x2
  | _ => .word

/-- The 32-bit pattern of a constant index (R54). -/
def constWord (i : Nat) : W32 :=
  if i < 32 then BitVec.ofNat 32 i
  else match i with
    | 32 => 0xFFFFFFFF
    | 33 => 0x80000000
    | 34 => 0x7FFFFFFF
    | 35 => 0x3F000000
    | 36 => 0x3F800000
    | 37 => 0x40000000
    | 38 => 0x40800000
    | 39 => 0xBF000000
    | 40 => 0xBF800000
    | 41 => 0xC0000000
    | 42 => 0xC0800000
    | 43 => 0x3E800000
    | 44 => 0x41000000
    | 45 => 0x7F800000
    | 46 => 0x7FC00000
    | _ => 0

/-- The 16-bit pattern of a constant index in a 16-bit format (R54). -/
def constHalf (f : Fmt) (i : Nat) : BitVec 16 :=
  if i < 35 then (constWord i).setWidth 16 else BitVec.ofNat 16 (fp32.convert f .rn false (constWord i).toNat).1

/-- A constant as an instruction of a kind reads it (R54). -/
def constValue (k : ConstKind) (i : Nat) : W32 :=
  match k with
  | .word => constWord i
  | .f16 => (constHalf fp16 i).setWidth 32
  | .bf16 => (constHalf bf16 i).setWidth 32
  | .f16x2 => constHalf fp16 i ++ constHalf fp16 i
  | .bf16x2 => constHalf bf16 i ++ constHalf bf16 i

/-- Source lane of a routing code for a reading lane (R43). -/
def Group.route (g : Group) (code : BitVec 4) (l : Nat) : Nat :=
  let c := code.toNat
  if c = 0 then l
  else if c ≤ 5 then Nat.xor l (2 ^ (c - 1))
  else if c = 6 then 0
  else if c = 7 then (l + 1) % 32
  else if c = 8 then (l + 31) % 32
  else
    let e := g.rt (c - 9)
    let n := (e.extractLsb' 0 6).toNat
    match (e.extractLsb' 14 2).toNat with
    | 0 => (l + n) % 32
    | 1 => n % 32
    | 2 => Nat.xor l (n % 32)
    | _ => (g.vget n l).toNat % 32

/-- A V register as a source lane supplies it (R44). -/
def Group.supply (g : Group) (r m : Nat) : W32 := if g.launched.getLsbD m then g.vget r m else 0

/-- An element of a queue entry (R39, R44). -/
def Group.qget (g : Group) (k m : Nat) : W32 := (g.queue.getD k []).getD m 0

/-- A special, zero-extended to 64 bits (R34). -/
def Group.special (g : Group) (rank : Nat) : Special → W64
  | .cm => g.cm.setWidth 64
  | .en => g.en.setWidth 64
  | .lc0 => (g.lcGet 0).setWidth 64
  | .lc1 => (g.lcGet 1).setWidth 64
  | .lc2 => (g.lcGet 2).setWidth 64
  | .ab => g.ab.setWidth 64
  | .al => g.al.setWidth 64
  | .fps => g.fps.setWidth 64
  | .live => g.liveView.setWidth 64
  | .sbz => g.sbz.setWidth 64
  | .gix => BitVec.ofNat 64 g.gix
  | .rank => BitVec.ofNat 64 rank

/-- An operand read as 32 bits by a lane. -/
def Group.read32 (g : Group) (rank : Nat) (k : ConstKind) (o : Operand) (l : Nat) : W32 :=
  match o with
  | .v r rt => g.supply r.toNat (g.route rt l)
  | .q n rt => g.qget n.toNat (g.route rt l)
  | .s r => (g.sget r.toNat).setWidth 32
  | .sp x => (g.special rank x).setWidth 32
  | .lid rt => BitVec.ofNat 32 (g.route rt l)
  | .const i => constValue k i.toNat

/-- An operand read as 64 bits by a lane: a pair is routed as a unit, a constant is sign-extended (R43, R54). -/
def Group.read64 (g : Group) (rank : Nat) (o : Operand) (l : Nat) : W64 :=
  match o with
  | .v r rt => let m := g.route rt l; g.supply (r.toNat + 1) m ++ g.supply r.toNat m
  | .q n rt => (g.qget n.toNat (g.route rt l)).setWidth 64
  | .s r => g.sget r.toNat
  | .sp x => g.special rank x
  | .lid rt => BitVec.ofNat 64 (g.route rt l)
  | .const i => (constWord i.toNat).signExtend 64

/-- The index operand of format M (R59): a V register zero-extended, an S register whole, a constant sign-extended. -/
def Group.readIndex (g : Group) (rank : Nat) (o : Operand) (l : Nat) : W64 :=
  match o with
  | .v _ _ => (g.read32 rank .word o l).setWidth 64
  | .q _ _ => (g.read32 rank .word o l).setWidth 64
  | .lid _ => (g.read32 rank .word o l).setWidth 64
  | _ => g.read64 rank o l

/-- A register that an instruction names, for the checks of R33 and R41. -/
inductive Use
  /-- a source of 32 bits -/
  | src (o : Operand)
  /-- a source of 64 bits: an even pair -/
  | src64 (o : Operand)
  /-- n vector registers from a first one, which is a multiple of the alignment -/
  | regs (r : BitVec 6) (n align : Nat)
  /-- a destination of 32 bits, or of 64 -/
  | dst (d : Dest) (wide : Bool)
  deriving DecidableEq, Repr

/-- A routing code that names an indexed entry names an allocated register (R45). -/
def Group.routeOk (g : Group) (code : BitVec 4) : Bool :=
  if code.toNat < 9 then true
  else
    let e := g.rt (code.toNat - 9)
    (e.extractLsb' 14 2) != 3 || (e.extractLsb' 0 6).toNat < g.nregs

/-- n registers from r exist and start on a multiple of the alignment (R33). -/
def Group.regsOk (g : Group) (r n align : Nat) : Bool := r % align == 0 && r + n ≤ g.nregs

/-- The use raises no illegal-operand trap. -/
def Group.useOk (g : Group) : Use → Bool
  | .src (.v r rt) => g.regsOk r.toNat 1 1 && g.routeOk rt
  | .src (.q k rt) => k.toNat < g.queue.length && g.routeOk rt
  | .src (.lid rt) => g.routeOk rt
  | .src _ => true
  | .src64 (.v r rt) => g.regsOk r.toNat 2 2 && g.routeOk rt
  | .src64 (.lid rt) => g.routeOk rt
  | .src64 _ => true
  | .regs r n a => g.regsOk r.toNat n a
  | .dst (.v r) wide => if wide then g.regsOk r.toNat 2 2 else g.regsOk r.toNat 1 1
  | .dst _ _ => true

/-- The operand reads FPS, and so clears it (R37). -/
def Use.readsFps : Use → Bool
  | .src (.sp .fps) => true
  | .src64 (.sp .fps) => true
  | _ => false

end Sys2Proof.Machine
end

