-- ==== Sys2Proof/Machine/Flags.lean ====
section
/-! DEFINITION. The flags an instruction leaves: the sticky FP status (R16, R37, R74), the condition mask (R36) and the
order in which a read of FPS clears it. -/

namespace Sys2Proof.Machine

/-- The flags raised by the lanes of a mask, ored (R16). -/
def flagsOver (f : Nat → FpFlags) : List Nat → FpFlags
  | [] => 0
  | l :: ls => f l ||| flagsOver f ls

/-- A read of FPS clears the flags set before it, and the instruction's own flags are then set (R37). -/
def Group.settleFps (g : Group) (cleared : Bool) (own : FpFlags) : Group :=
  { g with fps := (if cleared then 0 else g.fps) ||| own }

/-- Writes CM in the lanes of a mask and leaves the other bits (R36). -/
def Group.setCm (g : Group) (em : LaneMask) (f : Nat → Bool) : Group :=
  { g with cm := (g.cm &&& ~~~em) ||| maskOf fun l => em.getLsbD l && f l }

/-- A saturating counter's increment: the capacity and error counts do not wrap. -/
def satInc32 (x : W32) : W32 := if x = 0xFFFFFFFF then x else x + 1

end Sys2Proof.Machine
end

