-- ==== Sys2Proof/Machine/Mem.lean ====
section
/-! DEFINITION. Memory as one canonical list of bytes by home address: device memory at its physical address, the vault
SRAM, the cores' tile memories and the modelled bytes of peer packages in ranges of their own (R158, R169, R273, R321,
R325). -/

namespace Sys2Proof.Machine

/-- What a byte of memory that nothing has written reads as (log entry 1). -/
def unwritten : Byte := 0

/-- Addresses rise strictly and no entry equals what an unlisted address reads as. -/
def Memory.wf : List Host.Cell → Bool
  | [] => true
  | [(_, b)] => b != unwritten
  | (a, b) :: (a', b') :: rest => decide (a < a') && b != unwritten && Memory.wf ((a', b') :: rest)

/-- Reads a byte. -/
def Memory.read (m : List Host.Cell) (a : Nat) : Byte :=
  match m with
  | [] => unwritten
  | (k, b) :: rest => if k = a then b else if a < k then unwritten else Memory.read rest a

/-- Writes a byte: an entry equal to the unwritten byte is not listed. -/
def Memory.write (m : List Host.Cell) (a : Nat) (b : Byte) : List Host.Cell :=
  match m with
  | [] => if b = unwritten then [] else [(a, b)]
  | (k, x) :: rest =>
    if k = a then (if b = unwritten then rest else (a, b) :: rest)
    else if a < k then (if b = unwritten then (k, x) :: rest else (a, b) :: (k, x) :: rest)
    else (k, x) :: Memory.write rest a b

/-- Writes consecutive bytes. -/
def Memory.writes (m : List Host.Cell) (a : Nat) : List Byte → List Host.Cell
  | [] => m
  | b :: bs => Memory.write (Memory.writes m (a + 1) bs) a b

/-- Reads n consecutive bytes. -/
def Memory.reads (m : List Host.Cell) (a : Nat) : Nat → List Byte
  | 0 => []
  | n + 1 => Memory.read m a :: Memory.reads m (a + 1) n

-- Home addresses

/-- Byte of a die's vault space (R158, R321). -/
def vaultAddr (die off : Nat) : Nat := 2 ^ 48 + die * 2 ^ 30 + off
/-- Byte of a core's tile memory (R169). -/
def tileAddr (core off : Nat) : Nat := 2 ^ 49 + core * 2 ^ 19 + off
/-- Byte of a peer package's fabric address (R423). -/
def peerAddr (pkg fa : Nat) : Nat := 2 ^ 60 + pkg * 2 ^ 56 + fa

/-- The kind of an array, and its number (R279). -/
inductive HomeArray
  | slice (die : Nat)
  | vault (die v : Nat)
  | tile (core : Nat)
  | peer (pkg : Nat)
  deriving DecidableEq, Repr

/-- The array that holds a home address: the home die's slice (R325), a vault, a core's tile banks, or a peer. -/
def arrayAt (a : Nat) : HomeArray :=
  if a ≥ 2 ^ 60 then .peer ((a - 2 ^ 60) / 2 ^ 56)
  else if a ≥ 2 ^ 49 then .tile ((a - 2 ^ 49) / 2 ^ 19)
  else if a ≥ 2 ^ 48 then .vault ((a - 2 ^ 48) / 2 ^ 30) ((a - 2 ^ 48) % 2 ^ 30 / 2 ^ 24)
  else .slice (a / 4096 % 16)

/-- The array's number in a request. -/
def arrayOf (a : Nat) : Nat :=
  match arrayAt a with
  | .slice d => d
  | .vault d v => 64 + d * 64 + v
  | .tile c => 4096 + c
  | .peer p => 2 ^ 20 + p

/-- Little-endian bytes as a number. -/
def bytesNat : List Byte → Nat
  | [] => 0
  | b :: bs => b.toNat + 256 * bytesNat bs

/-- A number's n little-endian bytes (R173). -/
def natBytes (x : Nat) : Nat → List Byte
  | 0 => []
  | n + 1 => BitVec.ofNat 8 x :: natBytes (x / 256) n

/-- n bytes at a home address as this package reads them: a peer's bytes are what the peer holds, which any package may have
written since this one did (R423, log entry 35). -/
def State.homeBytes (s : State) (a n : Nat) : List Byte :=
  if a < 2 ^ 60 then Memory.reads s.mem a n
  else (List.range n).map fun i => Config.peerByte s.tick (a + i) (Memory.read s.mem (a + i))

/-- Reads n bytes at a home address, as a number. -/
def State.loadN (s : State) (a n : Nat) : Nat := bytesNat (s.homeBytes a n)

/-- Reads a 64-bit word at a home address. -/
def State.load64 (s : State) (a : Nat) : W64 := BitVec.ofNat 64 (s.loadN a 8)

/-- Reads a 32-bit word at a home address. -/
def State.load32 (s : State) (a : Nat) : W32 := BitVec.ofNat 32 (s.loadN a 4)

/-- Writes bytes at a home address. -/
def State.storeBytes (s : State) (a : Nat) (bs : List Byte) : State := { s with mem := Memory.writes s.mem a bs }

/-- Writes a 32-bit word at a home address. -/
def State.store32 (s : State) (a : Nat) (x : W32) : State := s.storeBytes a (natBytes x.toNat 4)

/-- Writes a 64-bit word at a home address. -/
def State.store64 (s : State) (a : Nat) (x : W64) : State := s.storeBytes a (natBytes x.toNat 8)

end Sys2Proof.Machine
end

