-- ==== Sys2Proof/Machine/Report.lean ====
section
/-! DEFINITION. What the package reports: event records of queues (R401), notes (R263), records of the debug ring (R369), and
the sites they name (R366). -/

namespace Sys2Proof.Machine

/-- A queue at package reset (R391, R400). -/
def freshQueue : Queue :=
  { qd := [], desc := [], tail := 0, head := 0, evcnt := 0, evhead := 0, mask := [], cmds := [], skip := false, events := [] }

/-- The queue of a number. -/
def State.queue (s : State) (q : Nat) : Queue := NMap.get freshQueue s.queues q

/-- Requester identifier of a group (R381), of the ordinal-th job it pushed (kind 1 or 2), or of another engine (kind 3). -/
def requester (kind member block gix ordinal : Nat) : W64 :=
  BitVec.ofNat 64 (kind * 2 ^ 62 + member % 2 ^ 12 * 2 ^ 50 + block % 2 ^ 26 * 2 ^ 24 + gix % 64 * 2 ^ 18 + ordinal % 2 ^ 18)

/-- Changes a queue. -/
def State.modQueue (s : State) (q : Nat) (f : Queue → Queue) : State :=
  { s with queues := NMap.put s.queues q (f (s.queue q)) }

/-- A descriptor word of a queue. -/
def Queue.word (x : Queue) (n : Nat) : W64 := NMap.get 0 x.qd n

/-- A descriptor word as the front end read it (R391). -/
def Queue.read (x : Queue) (n : Nat) : W64 := NMap.get 0 x.desc n

/-- The queue is enabled (R391). -/
def Queue.enabled (x : Queue) : Bool := (x.word 1).getLsbD 0

/-- The queue is stopped by an error (R395). -/
def Queue.stopped (x : Queue) : Bool := (x.word 1).getLsbD 1

/-- Sets or clears bits of a descriptor word. -/
def Queue.setWord (x : Queue) (n : Nat) (v : W64) : Queue := { x with qd := NMap.set 0 x.qd n v }

/-- The enabled queues (R391). -/
def State.enabledQueues (s : State) : List Nat := (s.queues.filter fun e => e.2.enabled).map (·.1)

/-- EV0 of an event: its type and the rest (R401). -/
def ev0 (type : Nat) (rest : Nat) : W64 := BitVec.ofNat 64 (type * 2 ^ 56 + rest % 2 ^ 56)

/-- An event record of eight words from its first ones, with the cycle in EV7 (R401); the words that R401 gives its type no
contents are free (log entry 19). -/
def State.eventWords (s : State) (ws : List W64) : List W64 :=
  ((List.range 7).map fun i =>
    if i < ws.length then ws.getD i 0 else Config.recordWord (256 + (ws.headD 0).toNat / 2 ^ 56) ws i) ++
    [BitVec.ofNat 64 s.now]

/-- An event arises for a queue: it waits in the hub until a slot of the ring is free (R401). -/
def State.postEvent (s : State) (q : Nat) (ws : List W64) : State :=
  s.modQueue q fun x => { x with events := x.events ++ [s.eventWords ws] }

/-- An event arises for several queues. -/
def State.postEvents (s : State) (ws : List W64) : List Nat → State
  | [] => s
  | q :: qs => State.postEvents (s.postEvent q ws) ws qs

/-- An event of type 6 or 8 goes to every enabled queue (R401). -/
def State.postAll (s : State) (ws : List W64) : State := s.postEvents ws s.enabledQueues

/-- The place of a site, as EV4 gives it (R401). -/
def Site.word (x : Site) : W64 :=
  BitVec.ofNat 64 (dieOf x.core * 2 ^ 60 + clusterOf x.core % 2 * 2 ^ 55 + x.gix * 2 ^ 49 + x.queue * 2 ^ 32 +
    x.block % 2 ^ 32)

/-- The site of a word of a group (R366). -/
def State.siteOf (s : State) (g : Group) (pc : W64) : Site :=
  { pc := pc, seq := (s.core g.core).engineSeq, core := g.core, gix := g.gix,
    queue := ((s.launch? g.launch).map Launch.queue).getD 0, block := ((s.block? g.blk).map Block.index).getD 0,
    launch := g.launch }

/-- The site of the last word that a group retired, with its SEQ (R366, R367). -/
def State.lastSite (s : State) (g : Group) : Site := { s.siteOf g g.lastPc with seq := g.lastSeq }

/-- A site without a group. -/
def Site.of (core : Nat) : Site := { pc := 0, seq := 0, core := core, gix := 0, queue := 0, block := 0, launch := 0 }

/-- A record on its way to the debug ring of a die (R369): its words and last the cycle of the event, and the words of the
site that it concerns (R366). One that has no ring set is not written. -/
def State.recordAt (s : State) (die type : Nat) (ws loc : List W64) : State :=
  if (s.die die).ring.isNone then s
  else s.modDie die fun d => { d with records := d.records ++ [(type, ws ++ [BitVec.ofNat 64 s.now], loc)] }

/-- A record that concerns no instruction, or whose words name its site. -/
def State.record (s : State) (die type : Nat) (ws : List W64) : State := s.recordAt die type ws []

/-- A record whose words the spec does not lay out (log entry 19). -/
def State.recordFree (s : State) (die type : Nat) (ws : List W64) : State :=
  s.record die type ((List.range 7).map fun i => Config.recordWord type ws i)

/-- The words that name a site in a record of free layout. -/
def Site.words (x : Site) : List W64 := [x.pc, x.seq.setWidth 64, x.word, BitVec.ofNat 64 x.launch]

/-- A report of a trap or a debug-handler entry: type 5 (R369). -/
def State.recordTrap (s : State) (x : Site) (cause addr : W64) (mask : LaneMask) : State :=
  s.recordFree (dieOf x.core) 5 ([cause, addr, mask.setWidth 64] ++ x.words)

/-- Words 1 and 2 of a sample (R368, R377): SEQ, GIX, queue and a field; the block and launch numbers. -/
def Site.sample1 (x : Site) (low : Nat) : W64 :=
  BitVec.ofNat 64 (x.seq.toNat * 2 ^ 32 + x.gix * 2 ^ 26 + x.queue * 2 ^ 16 + low % 2 ^ 16)

-- L2-slice watchpoints (R375, R376)

/-- A comparator sees an access (R375). -/
def l2Match (w : W64) (pa : Nat) (write : Bool) : Bool :=
  let base := (w.extractLsb' 6 44).toNat * 64
  w.getLsbD 0 && (write || !w.getLsbD 1) && decide (base ≤ pa) && decide (pa < base + 64 * 2 ^ (w.extractLsb' 2 4).toNat)

/-- The slice of its home die that serves an address of device memory (R325). -/
def State.sliceAt (s : State) (a : Nat) : Nat := Nat.xor (a / 128 % 32) (a / 2 ^ 18 % 32) % s.l2n

/-- A comparator of the slice that serves an address sees an access there (R376). -/
def State.l2Sees (s : State) (a : Nat) (write : Bool) : Bool :=
  (List.range 4).any fun i => l2Match (NMap.get 0 (s.die (a / 4096 % 16)).l2w (s.sliceAt a * 4 + i)) a write

/-- The units of a class of requester (R376). -/
def l2Units : Nat → Nat
  | 3 => 16
  | 4 => 1
  | 8 => 48
  | 9 => 2
  | 10 => 1
  | n => if n < 8 then 512 else 0

/-- A slice posts a record of an access that one of its comparators sees (R376); a write-back is a write. -/
def State.l2Post (s : State) (pa : Nat) (write : Bool) (who : Nat × Nat) (die : Nat) : State :=
  let wr := write || who.1 == 1
  if pa ≥ 2 ^ 48 || s.l2n = 0 || who.2 ≥ l2Units who.1 || !s.l2Sees pa wr then s
  else s.record (pa / 4096 % 16) 9 [BitVec.ofNat 64 pa,
    BitVec.ofNat 64 (die % 256 * 2 ^ 56 + who.1 % 256 * 2 ^ 48 + who.2 % 2 ^ 16 * 2 ^ 32 + if wr then 1 else 0)]

/-- An access of n bytes reaches its slice (R376): the first byte that a comparator sees is reported, with the requester's die,
class and unit. Comparators cover whole 64-byte units (R375). -/
def State.l2See (s : State) (a n : Nat) (write : Bool) (who : Nat × Nat) (die : Nat) : State :=
  if a ≥ 2 ^ 48 || s.l2n = 0 || s.dies.all (fun d => d.2.l2w.isEmpty) then s
  else match (a :: (List.range ((a + Nat.max n 1 - 1) / 64 - a / 64)).map fun i => (a / 64 + 1 + i) * 64).find?
      fun p => s.l2Sees p write with
    | none => s
    | some p => s.l2Post p write who die

/-- Class and unit of a core's fills, of its write-backs, and of its atomics and counter instructions (R376). -/
def coreWho (cls core : Nat) : Nat × Nat := (cls, core % 512)

end Sys2Proof.Machine
end

