-- ==== Sys2Proof/Machine/Xlate.lean ====
section
/-! DEFINITION. Translation of device-virtual addresses (R328 to R332) and the apertures that take precedence (R335 to
R337). -/

namespace Sys2Proof.Machine

/-- A non-leaf entry is legal: valid, not a leaf, its reserved bits zero, and the next table aligned (R329, R330). -/
def pointerOk (e : W64) (align : Nat) : Bool :=
  e.getLsbD 0 && !e.getLsbD 1 && e.extractLsb' 48 16 == 0 && e.extractLsb' 2 6 == 0 &&
    e.toNat / 256 % 2 ^ 40 * 256 % align == 0

/-- The table a non-leaf entry points to. -/
def nextTable (e : W64) : Nat := e.toNat / 256 % 2 ^ 40 * 256

/-- A leaf entry of a page size is legal (R329, R330). -/
def leafOk (e : W64) (bits : Nat) : Bool :=
  let ty := (e.extractLsb' 6 2).toNat
  e.getLsbD 0 && e.getLsbD 1 && e.extractLsb' 48 4 == 0 && e.extractLsb' 8 8 == 0 && e.extractLsb' 2 2 == 0 &&
    (ty == 2 || (ty == 0 && e.extractLsb' 52 12 == 0)) && e.toNat % 2 ^ 48 / 2 ^ 16 * 2 ^ 16 % 2 ^ bits == 0

/-- The walk of the four levels (R328): the leaf and its page bits, or a failure. -/
def State.walk (s : State) (root va : Nat) : Option (W64 × Nat) :=
  let rd (a : Nat) : Option W64 := if a + 8 ≤ s.capacity then some (s.load64 a) else none
  match rd (root + 8 * (va / 2 ^ 39 % 2 ^ 17)) with
  | none => none
  | some e0 =>
    if !pointerOk e0 4096 then none
    else match rd (nextTable e0 + 8 * (va / 2 ^ 30 % 512)) with
      | none => none
      | some e1 =>
        if e1.getLsbD 1 then (if leafOk e1 30 then some (e1, 30) else none)
        else if !pointerOk e1 4096 then none
        else match rd (nextTable e1 + 8 * (va / 2 ^ 21 % 512)) with
          | none => none
          | some e2 =>
            if e2.getLsbD 1 then (if leafOk e2 21 then some (e2, 21) else none)
            else if !pointerOk e2 256 then none
            else match rd (nextTable e2 + 8 * (va / 2 ^ 16 % 32)) with
              | none => none
              | some e3 => if leafOk e3 16 then some (e3, 16) else none

/-- The entries that a walk reads, in order, as far as it goes (R328). -/
def State.walkReads (s : State) (root va : Nat) : List Nat :=
  let next (a align i : Nat) : Option Nat :=
    if pointerOk (s.load64 a) align then some (nextTable (s.load64 a) + 8 * i) else none
  let a0 := root + 8 * (va / 2 ^ 39 % 2 ^ 17)
  let a1 := next a0 4096 (va / 2 ^ 30 % 512)
  let a2 := a1.bind fun a => next a 4096 (va / 2 ^ 21 % 512)
  let a3 := a2.bind fun a => next a 256 (va / 2 ^ 16 % 32)
  (a0 :: [a1, a2, a3].filterMap id).filter fun a => decide (a + 8 ≤ s.capacity)

/-- The reads of a walk by a unit of the package that keeps no TLB reach the slices (R331, R376). -/
def State.hubWalk (s : State) (root va : Nat) : State :=
  (s.walkReads root va).foldl (fun s a => s.l2See a 8 false (7, 0) 0) s

/-- A TLB entry that maps an address. -/
def TlbEntry.maps (e : TlbEntry) (asn va : Nat) : Bool := e.asn == asn && e.vpn == va / 2 ^ e.bits

/-- Puts an entry into a TLB of a size, the oldest leaving (R331; the order of replacement is a choice, log entry 17). -/
def tlbFill (t : List TlbEntry) (size : Nat) (e : TlbEntry) : List TlbEntry := (e :: t).take size

/-- A die's copy and encoder engines as a unit that translates: they have no TLB of their own and use the die's (R331). Units
below 8192 are cores. -/
def engineUnit (die : Nat) : Nat := 8192 + die

/-- The die of a unit that translates: a core's, or an engine's own. -/
def unitDie (u : Nat) : Nat := if u < 8192 then dieOf u else u - 8192

/-- An entry enters the TLB of a unit that has one. -/
def State.fillUnit (s : State) (u : Nat) (e : TlbEntry) : State :=
  if u < 8192 then s.modCore u fun c => { c with tlb := tlbFill c.tlb 64 e } else s

/-- The leaf for an address: from the core's TLB, the die's, or a walk that fills both (R331). -/
def State.leaf (s : State) (core asn root va : Nat) : Option W64 × State :=
  match (s.core core).tlb.find? fun e => e.maps asn va with
  | some e => (some e.pte, s)
  | none =>
    match (s.die (unitDie core)).tlb.find? fun e => e.maps asn va with
    | some e => (some e.pte, s.fillUnit core e)
    | none =>
      let s1 := (s.walkReads root va).foldl
        (fun s a => s.l2See a 8 false (7, if core < 8192 then core % 512 else 0) (unitDie core)) s
      match s.walk root va with
      | none => (none, s1)
      | some (p, bits) =>
        let e : TlbEntry := { asn := asn, bits := bits, vpn := va / 2 ^ bits, pte := p }
        (some p, (s1.fillUnit core e).modDie (unitDie core)
          fun d => { d with tlb := tlbFill d.tlb 8192 e })

/-- The leaf for an address and the bits of its page, without filling a TLB (R331). -/
def State.leafBits (s : State) (core asn root va : Nat) : Option (W64 × Nat) :=
  match (s.core core).tlb.find? fun e => e.maps asn va with
  | some e => some (e.pte, e.bits)
  | none =>
    match (s.die (unitDie core)).tlb.find? fun e => e.maps asn va with
    | some e => some (e.pte, e.bits)
    | none => s.walk root va

/-- What an access does, for the permission checks (R330, R337). -/
inductive AccKind
  | read | write | atomic | fetch
  /-- atom.xchg and atom.cas, which no reduction window serves (R426) -/
  | exchange
  /-- reads and writes that no transforming aperture serves: twld, twst, matrix operands, ray reads (R337) -/
  | readWhole | writeWhole
  deriving DecidableEq, Repr

/-- The access writes memory. -/
def AccKind.writes : AccKind → Bool
  | .write => true
  | .atomic => true
  | .exchange => true
  | .writeWhole => true
  | _ => false

/-- Where a device-virtual access goes. -/
inductive Place
  /-- a home address, held in the L1 (R161) -/
  | home (a : Nat)
  /-- a transforming aperture of the core's die: its number and the offset in its view (R336) -/
  | port (ap off : Nat)
  deriving DecidableEq, Repr

/-- A failed resolution: an address-space fault or a translation fault. -/
inductive XErr
  | space | translation
  deriving DecidableEq, Repr

namespace Apert

/-- The aperture is enabled (R335). -/
def enabled (a : Aperture) : Bool := a.ctl.getLsbD 0
/-- Writes are allowed. -/
def writable (a : Aperture) : Bool := a.ctl.getLsbD 1
/-- The transform. -/
def xf (a : Aperture) : Nat := (a.ctl.extractLsb' 2 2).toNat
/-- The view's element format. -/
def efmt (a : Aperture) : Nat := (a.ctl.extractLsb' 6 2).toNat
/-- log2 of the transpose's element size. -/
def esz (a : Aperture) : Nat := (a.ctl.extractLsb' 8 3).toNat
/-- First byte of the range. -/
def base (a : Aperture) : Nat := (a.vbase.extractLsb' 16 40).toNat * 2 ^ 16
/-- Bytes of the range. -/
def bytes (a : Aperture) : Nat := (a.size.extractLsb' 0 40).toNat * 2 ^ 16
/-- Transpose rows and columns. -/
def rows (a : Aperture) : Nat := (a.dim.extractLsb' 16 16).toNat + 1
/-- Transpose columns. -/
def cols (a : Aperture) : Nat := (a.dim.extractLsb' 0 16).toNat + 1
/-- The home address of a byte of the physical buffer. -/
def phys (die : Nat) (a : Aperture) (o : Nat) : Nat :=
  let pb := (a.pbase.extractLsb' 0 48).toNat
  if a.pbase.getLsbD 63 then vaultAddr die ((pb + o) % 2 ^ 30) else pb + o

end Apert

/-- The lowest-numbered enabled aperture of a die that holds an address (R336). -/
def Die.apertureFor (d : Die) (va : Nat) : Option (Nat × Aperture) :=
  (List.range 16).findSome? fun m =>
    let a := NMap.get freshAperture d.apertures m
    if Apert.enabled a && decide (Apert.base a ≤ va) && decide (va < Apert.base a + Apert.bytes a) then some (m, a)
    else none

/-- The place of a leaf's byte: device memory, or a peer's address to be translated again there (R330). -/
def leafPlace (p : W64) (bits va : Nat) : Nat :=
  let pa := p.toNat % 2 ^ 48 / 2 ^ 16 * 2 ^ 16 + va % 2 ^ bits
  if p.extractLsb' 6 2 = 2 then peerAddr (p.extractLsb' 52 12).toNat pa else pa

/-- Permissions and capacity of a leaf for an access (R330); a fetch through a peer page is refused (R423). -/
def leafAllows (s : State) (p : W64) (bits va : Nat) (k : AccKind) : Bool :=
  (p.extractLsb' 6 2 == 2 || decide (leafPlace p bits va < s.capacity)) &&
    (match k with
      | .fetch => p.getLsbD 5 && p.extractLsb' 6 2 != 2
      | k => !k.writes || p.getLsbD 4)

/-- An address lies in a transforming aperture of a die other than the accessing unit's (R337). -/
def State.foreignPort (s : State) (die va : Nat) : Bool :=
  s.dies.any fun e => e.1 != die && ((e.2.apertureFor va).map fun m => Apert.xf m.2 != 0).getD false

/-- Resolves a device-virtual access of n bytes (R328, R336, R337), without filling a TLB. -/
def State.resolve (s : State) (core asn root va n : Nat) (k : AccKind) : Except XErr Place :=
  match (s.die (unitDie core)).apertureFor va with
  | some (m, a) =>
    if k.writes && !Apert.writable a then .error .space
    else if Apert.xf a = 0 then .ok (.home (Apert.phys (unitDie core) a (va - Apert.base a)))
    else if k != .read && k != .write then .error .space
    else if Apert.xf a = 3 && n != 4 then .error .space
    else .ok (.port m (va - Apert.base a))
  | none =>
    if s.foreignPort (unitDie core) va then .error .space
    else match s.leafBits core asn root va with
    | none => .error .translation
    | some (p, bits) => if leafAllows s p bits va k then .ok (.home (leafPlace p bits va)) else .error .translation

/-- A walk of the address would be needed, and a migration holds the walks of its range (R333, R393). -/
def State.walkHeld (s : State) (core asn va : Nat) : Bool :=
  ((s.die (unitDie core)).apertureFor va).isNone &&
    ((s.core core).tlb.all fun e => !e.maps asn va) && ((s.die (unitDie core)).tlb.all fun e => !e.maps asn va) &&
    s.migrating.any fun r => r.1 == asn && decide (r.2.1 ≤ va) && decide (va < r.2.1 + r.2.2)

/-- A migration holds walks of part of a range (R333, R393). -/
def State.rangeHeld (s : State) (asn va n : Nat) : Bool :=
  s.migrating.any fun r => r.1 == asn && decide (r.2.1 < va + n) && decide (va < r.2.1 + r.2.2)

/-- The TLB entries an access leaves behind (R331). -/
def State.fillTlb (s : State) (core asn root va : Nat) : State :=
  match (s.die (unitDie core)).apertureFor va with
  | some _ => s
  | none => (s.leaf core asn root va).2

end Sys2Proof.Machine
end

