-- ==== Sys2Proof/Machine/Pass.lean ====
section
/-! DEFINITION. Render passes as data (R348, R349, R355, R406): descriptors, counts, the watermark, the groups and verdicts
that reach a pass. -/

namespace Sys2Proof.Machine

-- Descriptors (R348)

/-- The pass in a slot. -/
def State.pass? (s : State) (slot : Nat) : Option RenderPass := NMap.get none (s.passes.map fun e => (e.1, some e.2)) slot

/-- Changes the pass in a slot. -/
def State.modPass (s : State) (slot : Nat) (f : RenderPass → RenderPass) : State :=
  match s.pass? slot with
  | some x => { s with passes := NMap.put s.passes slot (f x) }
  | none => s

/-- The pass in a slot, if it is running. -/
def State.runningPass (s : State) (slot : Nat) : Option RenderPass :=
  match s.pass? slot with
  | some x => if x.running then some x else none
  | none => none

/-- A field of a descriptor word. -/
def passField (p : List W64) (w lo n : Nat) : Nat := ((p.getD w 0).extractLsb' lo n).toNat

/-- Views. -/
def passViews (p : List W64) : Nat := passField p 0 56 8 + 1
/-- Tiles across. -/
def passAcross (p : List W64) : Nat := passField p 0 48 8 + 1
/-- Tiles down. -/
def passDown (p : List W64) : Nat := passField p 0 40 8 + 1
/-- Samples per pixel. -/
def passSamples (p : List W64) : Nat := 2 ^ passField p 0 38 2
/-- Clear depth. -/
def passClear (p : List W64) : W32 := (p.getD 0 0).extractLsb' 0 32
/-- Parameter pool. -/
def passPool (p : List W64) : Nat := (p.getD 1 0).toNat
/-- Pool chunks. -/
def passChunks (p : List W64) : Nat := passField p 2 0 32
/-- Reserve chunks. -/
def passReserve (p : List W64) : Nat := passField p 2 32 32
/-- Save area of a tile. -/
def passSave (p : List W64) (t : Nat) : Nat := (p.getD 3 0).toNat + t * passField p 4 0 32
/-- The visibility buffer's offset in a reservation. -/
def passVbo (p : List W64) : Nat := passField p 4 32 32
/-- The colour region's offset. -/
def passPlo (p : List W64) : Nat := passField p 5 32 20
/-- The colour region's size. -/
def passPlb (p : List W64) : Nat := passField p 5 0 20
/-- Tiles of the pass. -/
def passTiles (p : List W64) : Nat := passViews p * passAcross p * passDown p
/-- View, row and column of a tile. -/
def tileView (p : List W64) (t : Nat) : Nat := t / (passAcross p * passDown p)
/-- Row of a tile. -/
def tileRow (p : List W64) (t : Nat) : Nat := t / passAcross p % passDown p
/-- Column of a tile. -/
def tileCol (p : List W64) (t : Nat) : Nat := t % passAcross p

/-- The front end's checks of a descriptor. -/
def passOk (p : List W64) : Bool :=
  passField p 0 38 2 != 3 && passField p 0 32 6 == 0 && passField p 5 52 12 == 0 && passField p 5 20 12 == 0 &&
    p.getD 7 0 == 0 && (p.getD 1 0).toNat % 4096 == 0 && (p.getD 3 0).toNat % 4096 == 0 && passVbo p % 1024 == 0 &&
    passField p 4 0 32 % 4096 == 0 && passPlo p % 64 == 0 && passPlb p % 64 == 0 && (p.getD 6 0).toNat % 64 == 0 &&
    decide (passTiles p ≤ passReserve p) && decide (passReserve p < passChunks p) &&
    decide (49152 + 128 + passPlb p ≤ passField p 4 0 32)

-- Memory reached through a queue's tables

/-- The home address of n bytes that an engine of the hub reaches through tables, for a write or not. -/
def State.tableHome (s : State) (root va : Nat) (write : Bool) : Option Nat :=
  if va ≥ 2 ^ 56 then none
  else match s.walk root va with
    | none => none
    | some (p, bits) =>
      if leafAllows s p bits va (if write then .write else .read) then some (leafPlace p bits va) else none

/-- A migration holds the walks of a pass's status block (R333, R393). -/
def State.statusHeld (s : State) (x : RenderPass) : Bool := s.rangeHeld x.asn (x.p.getD 6 0).toNat 64

/-- A migration holds the walks of what the list engine writes for a pass. -/
def State.listHeld (s : State) (x : RenderPass) : Bool :=
  s.rangeHeld x.asn (passPool x.p) (4096 * passChunks x.p) || s.statusHeld x

/-- Hub offset of FCTL (R438). -/
def fctl : Nat := 0x63000

/-- The package has left the fabric: its ports are down (R438). -/
def State.gone (s : State) : Bool := (NMap.get 0 s.hub (fctl / 8)).getLsbD 1

/-- No route leads to a package: there is none, or its port is down (R421, R424, R438). -/
def State.cutOff (s : State) (pkg : Nat) : Bool :=
  s.gone || (match NMap.get none (s.routes.map fun e => (e.1, some e.2)) (s.pkg * 4096 + pkg) with
    | none => true
    | some port => decide ((NMap.get { failures := 0 } s.ports port).failures ≥ 3))

/-- An access to a home address in a peer package fails: no route leads there, or the peer's walk fails (R424). -/
def State.peerDown (s : State) (a : Nat) : Bool :=
  decide (a ≥ 2 ^ 60) && (s.cutOff ((a - 2 ^ 60) / 2 ^ 56) || Config.peerRefuses s.tick a)

/-- The fabric address of a peer's byte (R423). -/
def fabricAddr (a : Nat) : W64 := BitVec.ofNat 64 ((a - 2 ^ 60) % 2 ^ 56)

/-- The launch of the mesh group that a pass started last, if its queue records or replays (R380). -/
def State.loggedPass (s : State) (x : RenderPass) : Option Nat :=
  match x.groups.getLast? with
  | none => none
  | some g => match s.launch? g.launch with
    | some la => if la.mode = 0 then none else some g.launch
    | none => none

/-- An addition to a word of a pass's status block, an atomic add at its home (R349); a logged one leaves as the list engine's
request (R380, R381). -/
def State.passCount (s : State) (slot word n : Nat) : State :=
  match s.pass? slot with
  | none => s
  | some x =>
    match s.tableHome x.root ((x.p.getD 6 0).toNat + 8 * word) true with
    | none => s
    | some a =>
      if n = 0 then s
      else match s.loggedPass x with
        | none => ((s.hubWalk x.root ((x.p.getD 6 0).toNat + 8 * word)).l2See a 8 true (10, 0) 0).store64 a (s.load64 a + BitVec.ofNat 64 n)
        | some m =>
          let r : Req :=
            { id := s.nextId, core := 8192 * (2 ^ 32 + slot), gid := 8192 * 48, launch := m, arr := arrayOf a, own := false,
              snap := true, pol := .dflt, todo := [.ctrAdd a (BitVec.ofNat 64 n) (x.p.getD 6 0 + BitVec.ofNat 64 (8 * word))],
              op := 0, acked := false, site := Site.of 0, arrived := none, ident := requester 3 0 0 0 0 }
          { s with nextId := s.nextId + 1, reqs := s.reqs ++ [r] }

/-- The cycles since a pass's append was first held back are added to its status word 3 (R349): the interval is closed. -/
def State.closeHeld (s : State) (slot : Nat) : State :=
  match (s.pass? slot).bind RenderPass.heldSince with
  | none => s
  | some t => (s.passCount slot 3 (s.now - t)).modPass slot fun x => { x with heldSince := none }

-- Groups and the watermark (R352, R355)

/-- The first ID of a key. -/
def keyId (key : Nat) : W64 := BitVec.ofNat 64 (key * 2 ^ 20)

/-- The key of an ID. -/
def idKey (id : W64) : Nat := id.toNat / 2 ^ 20

/-- A started group is complete: it has left exit-draining and no primitive of it waits (R352). -/
def State.meshDone (s : State) (slot : Nat) (g : MeshGroup) : Bool :=
  g.exited && s.prims.all fun p => p.slot != slot || idKey p.e.pid != g.key

/-- The watermark group: the incomplete started group with the lowest key. -/
def State.watermarkGroup (s : State) (slot : Nat) (x : RenderPass) : Option MeshGroup :=
  (x.groups.filter fun g => !s.meshDone slot g).foldl (fun (best : Option MeshGroup) (g : MeshGroup) => match best with
    | none => some g
    | some b => if g.key < b.key then some g else best) none

/-- The largest key started. -/
def RenderPass.topKey (x : RenderPass) : Nat := x.groups.foldl (fun k g => Nat.max k g.key) 0

/-- The completion watermark (R355). -/
def State.watermark (s : State) (slot : Nat) (x : RenderPass) : W64 :=
  if x.ended then 0xFFFFFFFFFFFFFFFF
  else match s.watermarkGroup slot x with
    | some g => match g.last with
      | some i => i + 1
      | none => keyId g.key
    | none => if x.groups.isEmpty then 0 else keyId (x.topKey + 1)

/-- A mesh group leaves exit-draining (R352). -/
def State.meshExit (s : State) (gid : Nat) (tag : BitVec 4) (blk : Nat) : State :=
  { s with passes := s.passes.map fun e => (e.1, { e.2 with groups := e.2.groups.map fun g =>
             if g.gid = gid && g.tag = tag && g.blk = blk then { g with exited := true } else g }) }

/-- A primitive is appended everywhere or dropped (R351): its group's last ID rises, and it waits no more. -/
def State.primDone (s : State) (p : Prim) : State :=
  State.modPass { s with prims := s.prims.filter fun q => q.id != p.id } p.slot fun x =>
    { x with groups := x.groups.map fun g => if g.key = idKey p.e.pid then { g with last := some p.e.pid } else g }

/-- Every primitive of a slot that waits is completed as dropped and counted (R416). -/
def State.dropPrims (s : State) (slot : Nat) : State :=
  let n := (s.prims.filter fun p => p.slot == slot).length
  { s.passCount slot 2 n with prims := s.prims.filter fun p => p.slot != slot }

-- Tiles (R406)

/-- A tile before any pass. -/
def freshTile : Tile := { n := 0, lo := 0, out := none, done := false }

/-- A tile of a pass. -/
def RenderPass.tile (x : RenderPass) (t : Nat) : Tile := NMap.get freshTile x.tiles t

/-- Changes a tile. -/
def State.modTile (s : State) (slot t : Nat) (f : Tile → Tile) : State :=
  s.modPass slot fun x => { x with tiles := NMap.put x.tiles t (f (x.tile t)) }

/-- Changes a tile's outstanding pass. -/
def State.modOut (s : State) (slot t : Nat) (f : TilePass → TilePass) : State :=
  s.modTile slot t fun y => { y with out := y.out.map f }

/-- The outstanding pass of a tile. -/
def State.outOf (s : State) (slot t : Nat) : Option TilePass := (s.pass? slot).bind fun x => (x.tile t).out

/-- A pass of a tile as it becomes ready (R406). -/
def newTilePass (final : Bool) (hi : W64) : TilePass :=
  { final := final, hi := hi, owner := none, began := false, started := false, todo := [], nent := 0, ncov := 0,
    anyCov := false, cur := none, covTodo := [], covWait := [], covGot := [], hiz := [] }

-- Verdicts (R234)

/-- A lane's verdict reaches the pass that its block owns: the samples kept of its pixel. -/
def State.verdict (s : State) (g : Group) (lane kept : Nat) : State :=
  let x := NMap.get 0 g.covCand lane
  match (s.block? g.blk).bind Block.pass with
  | none => s
  | some (slot, t) =>
    s.modOut slot t fun o =>
      if o.covWait.contains x then
        { o with covWait := o.covWait.filter fun y => y != x, covGot := o.covGot ++ [x / 16 * 16 + kept] }
      else o

/-- The verdicts of several lanes. -/
def State.verdicts (s : State) (g : Group) (kept : Nat → Nat) : List Nat → State
  | [] => s
  | l :: ls => State.verdicts (s.verdict g l (kept l)) g kept ls

/-- The lanes of a group that are coverage threads (R233). -/
def Group.covLanes (g : Group) : LaneMask := maskOf fun l => NMap.has g.covCand l

end Sys2Proof.Machine
end

