-- ==== Sys2Proof/Machine/Kill.lean ====
section
/-! DEFINITION. Kills (R223, R257, R267, R268, R402): everything a launch context holds is discarded in one step, its node
fails, and the commands that waited for it are settled (R395, R398, R432). -/

namespace Sys2Proof.Machine

-- Nodes of a LAUNCH (R397, R398)

/-- Hub offset of the resident table. -/
def nodeBase : Nat := 0x800000

/-- A word of hub memory at an offset. -/
def State.hubWord (s : State) (off : Nat) : W64 := NMap.get 0 s.hub (off / 8)

/-- Writes a word of hub memory. -/
def State.setHub (s : State) (off : Nat) (x : W64) : State := { s with hub := NMap.set 0 s.hub (off / 8) x }

/-- Word w of a node of the resident table. -/
def State.nodeWord (s : State) (node w : Nat) : W64 := s.hubWord (nodeBase + 128 * node + 8 * w)

/-- The successor word of a node: as it was read when the node launched, and for a node that never does as its table entry
holds it (R397). -/
def State.succWord (s : State) (c : Cmd) (node : Nat) : W64 :=
  if NMap.has c.succWords node then NMap.get 0 c.succWords node else s.nodeWord node 12

/-- The successors of a node within the range of a command (R398). -/
def State.succs (s : State) (c : Cmd) (node : Nat) : List Nat :=
  ((List.range 4).map fun i => ((s.succWord c node).extractLsb' (16 * i) 16).toNat).filter fun n =>
    n != 0xFFFF && decide (c.first ≤ n) && decide (n < c.first + c.count)

/-- What has become of a node. -/
def Cmd.node (c : Cmd) (n : Nat) : NodeSt := NMap.get .waiting c.nodes n

/-- Sets what has become of a node. -/
def Cmd.setNode (c : Cmd) (n : Nat) (x : NodeSt) : Cmd := { c with nodes := NMap.put c.nodes n x }

/-- The nodes behind a failed one that still wait are unreachable (R398); the fuel bounds the nodes followed. -/
def State.spread (s : State) (c : Cmd) : Nat → List Nat → Cmd
  | 0, _ => c
  | _, [] => c
  | k + 1, n :: rest =>
    let new := (s.succs c n).filter fun m => c.node m == .waiting
    State.spread s (new.foldl (fun c m => c.setNode m .unreachable) c) k (rest ++ new)

/-- A node has ended in its command. -/
def NodeSt.ended : NodeSt → Bool
  | .waiting => false
  | .running _ => false
  | _ => true

/-- Every node of the range has ended (R398). -/
def Cmd.allEnded (c : Cmd) : Bool := (List.range c.count).all fun i => (c.node (c.first + i)).ended

/-- The command asked for a type-1 event (R393). -/
def Cmd.evt (c : Cmd) : Bool := (c.words.getD 0 0).getLsbD 54

/-- A command completes: it leaves the queue's list and posts its type-1 event (R393). -/
def State.completeCmd (s : State) (q num : Nat) : State :=
  match (s.queue q).cmds.find? fun (c : Cmd) => c.num == num with
  | none => s
  | some c =>
    let s1 := s.modQueue q fun x => { x with cmds := x.cmds.filter fun (c : Cmd) => c.num != num }
    if c.evt then s1.postEvent q [ev0 1 num] else s1

/-- Changes a command in progress. -/
def State.modCmd (s : State) (q num : Nat) (f : Cmd → Cmd) : State :=
  s.modQueue q fun x => { x with cmds := x.cmds.map fun (c : Cmd) => if c.num = num then f c else c }

/-- No member's STARTED is still to come: only the leader of a gang waits for them (R432). -/
def Cmd.allStarted (c : Cmd) (pkg : Nat) : Bool :=
  match c.gang with
  | some g => g.leader != pkg || decide (g.members.length ≤ g.started.length)
  | none => true

/-- A LAUNCH or GANG completes once its nodes have ended (R398, R434), and the leader's once every member has started (R432). -/
def State.settleCmd (s : State) (q num : Nat) : State :=
  match (s.queue q).cmds.find? fun (c : Cmd) => c.num == num with
  | none => s
  | some c => if c.count != 0 && c.allEnded && c.allStarted s.pkg then s.completeCmd q num else s

/-- A node fails (R398, R402). -/
def State.failNode (s : State) (q num node : Nat) : State :=
  (match (s.queue q).cmds.find? fun (c : Cmd) => c.num == num with
    | none => s
    | some c =>
      let c1 := s.spread (c.setNode node .failed) (4 * c.count + 4) [node]
      s.modCmd q num fun _ => c1).settleCmd q num

-- Mirage (R437)

/-- Hub offset of a surface's registers. -/
def mirageBase (n : Nat) : Nat := 0x62000 + 64 * n

/-- A surface falls back at once: CUR := FBNEXT, and a miss is counted (R437). -/
def State.fallback (s : State) (n : Nat) : State :=
  { s.setHub (mirageBase n + 40) (s.load64 ((s.hubWord (mirageBase n + 32)).toNat + 8)) with
    misses := NMap.set 0 s.misses n (NMap.get 0 s.misses n + 1) }

/-- The surfaces whose producer is a queue fall back. -/
def State.mirageFallback (s : State) (q : Nat) : State :=
  ((List.range 8).filter fun n =>
    let m := s.hubWord (mirageBase n)
    m.getLsbD 0 && (m.extractLsb' 16 10).toNat == q).foldl State.fallback s

/-- A queue stops with a reason (R395, R440). A command that failed at HEAD before is still skipped by the next enable. -/
def State.stopQueue (s : State) (q reason : Nat) (num : Nat) (skip : Bool) : State :=
  ((s.modQueue q fun x => { x.setWord 1 (x.word 1 ||| 2) with skip := x.skip || skip }).postEvent q
    [ev0 5 reason, BitVec.ofNat 64 num]).mirageFallback q

-- Discarding

/-- The accesses of a request that still take effect after a kill, from the i-th on: each does or does not (R268, log
entry 14). -/
def keptAccesses (tick id i : Nat) : List Access → List Access
  | [] => []
  | a :: as =>
    let rest := keptAccesses tick id (i + 1) as
    match a with
    | .ld _ _ _ => rest
    | .ctrRd _ _ => rest
    | _ => if Config.killKeeps tick id i then a :: rest else rest

/-- A request after its context was killed: nothing waits for it, and some of its accesses remain (R268). -/
def Req.afterKill (tick : Nat) (r : Req) : Req := { r with todo := keptAccesses tick r.id 0 r.todo, op := 0 }

/-- What follows a publish of a killed context: nothing waits for its addition. -/
def AfterPub.afterKill : AfterPub → AfterPub
  | .ctrAdd r => .ctrAdd { r with op := 0 }
  | .ctrAddL1 r line sector => .ctrAddL1 { r with op := 0 } line sector
  | x => x

/-- A counter addition that waits for a publish of a killed context takes effect after it, or never (R268). -/
def Publish.afterKill (tick : Nat) (p : Publish) : Option Publish :=
  match p.after with
  | .nothing => none
  | .lfence => none
  | _ => if Config.killKeeps tick p.id 0 then some { p with op := 0, after := p.after.afterKill } else none

/-- A contribution of a killed context alone takes effect or does not; one merged with others' stays (R268). -/
def Contrib.stays (tick n : Nat) (k : Contrib) : Bool :=
  !k.peers.isEmpty || k.owners.any (fun o => o.launch != n) || Config.killKeeps tick k.id 0

/-- A core after a kill of a launch whose blocks are listed: bins and matrix contexts of those blocks end (R223, R267). -/
def Core.dropBlocks (c : Core) (dead : Nat → Bool) (launch : Nat) : Core :=
  { c with xe := c.xe.filter fun e => e.1 != launch,
           blocks := c.blocks.filter fun b => !dead b,
           bins := c.bins.filter fun e => !dead e.2.blk,
           ctx0 := match c.ctx0.owner with
             | some b => if dead b then freeCtx else c.ctx0
             | none => c.ctx0,
           ctx1 := match c.ctx1.owner with
             | some b => if dead b then freeCtx else c.ctx1
             | none => c.ctx1 }

/-- Sets the presence bits of tile lines, named core * 8192 + line (R170). -/
def State.setPresent (s : State) : List Nat → State
  | [] => s
  | k :: ks =>
    State.setPresent (s.modCore (k / 8192) fun c => { c with absent := NMap.erase c.absent (k % 8192) }) ks

/-- Clears presence bits (R170). -/
def State.clearPresent (s : State) : List Nat → State
  | [] => s
  | k :: ks =>
    State.clearPresent (s.modCore (k / 8192) fun c => { c with absent := NMap.put c.absent (k % 8192) true }) ks

/-- The lines that only discarded copies had cleared (R170, R309). -/
def State.freedLines (s : State) (n : Nat) : List Nat :=
  ((s.copies.filter fun j => j.launch == n).flatMap CopyJob.cleared).filter fun k =>
    (s.copies.filter fun j => j.launch != n).all fun j => !j.cleared.contains k

-- Render passes (R414, R416)

/-- A request for a tile pass ends with the tile word V = 0 (R414). -/
def State.denyTile (s : State) (blk : Nat) : State :=
  match (s.block? blk).bind Block.tret with
  | none => s
  | some (op, _, d, _) =>
    State.modBlock { s with
      tileReqs := s.tileReqs.filter fun r => r.blk != blk,
      asyncs := s.asyncs.map fun a => if a.id = op then { a with ready := true, sw := [(d, 0)] } else a } blk
      fun b => { b with tret := none }

/-- A block's request arrives at the hub: it waits, or is answered at once when no pass runs (R414). -/
def State.sendTile (s : State) (blk : Nat) : State :=
  match (s.block? blk).bind Block.tret with
  | none => s
  | some (_, slot, _, _) =>
    if (s.runningPass slot).isSome then { s with tileReqs := s.tileReqs ++ [{ slot := slot, blk := blk }] }
    else s.denyTile blk

/-- A start sequence for the block's request is in progress (R409). -/
def Block.starting (b : Block) : Bool :=
  match b.tret with
  | some (_, _, _, granted) => granted
  | none => false

/-- Several requests end so. -/
def State.denyTiles (s : State) : List Nat → State
  | [] => s
  | b :: bs => State.denyTiles (s.denyTile b) bs

/-- The blocks whose request for a slot has not completed, a granted one included. -/
def State.requesters (s : State) (slot : Nat) : List Nat :=
  (s.blocks.filter fun e => match e.2.tret with
    | some (_, n, _, granted) => n == slot && !e.2.saved && (granted || s.retires.all fun r => r.blk != e.1)
    | none => false).map (·.1)

/-- n bytes that a queue's tables map become unpredictable, in pieces of one page each; the fuel bounds the pieces. -/
def State.spoil (s : State) (root va n : Nat) : Nat → State
  | 0 => s
  | k + 1 =>
    if n = 0 then s
    else
      let m := Nat.min n (4096 - va % 4096)
      State.spoil (match s.tableHome root va true with
        | some a => if s.peerDown a then s else s.storeBytes a ((List.range m).map fun i => Config.unpredictable s.tick (a + i))
        | none => s) root (va + m) (n - m) k

/-- The save areas of tiles become unpredictable (R363, R416, log entry 15). -/
def State.spoilTiles (s : State) (x : RenderPass) : List Nat → State
  | [] => s
  | t :: ts => State.spoilTiles (s.spoil x.root (passSave x.p t) (49280 + passPlb x.p) ((49280 + passPlb x.p) / 4096 + 3)) x ts

/-- A render pass fails (R416): its outstanding passes are discarded, its requests answered, its pool freed, its waiting
primitives dropped, its save areas unpredictable, and its RPASS completes with a type-5 event. -/
def State.failPass (s : State) (slot : Nat) : State :=
  match s.runningPass slot with
  | none => s
  | some x =>
    let s1 := (s.closeHeld slot).modPass slot fun x =>
      { x with running := false, failed := true, chunks := [], forced := [],
               tiles := x.tiles.map fun e => (e.1, { e.2 with out := none }) }
    let s2 := (s1.denyTiles (s.requesters slot)).dropPrims slot
    let s3 : State := { s2 with
      blocks := s2.blocks.map fun (e : Nat × Block) =>
        if (e.2.pass.map (·.1)) = some slot then (e.1, { e.2 with pass := none }) else e }
    ((s3.spoilTiles x (List.range (passTiles x.p))).postEvent x.queue [ev0 5 7, BitVec.ofNat 64 x.cmd]).completeCmd x.queue x.cmd

/-- Several passes fail. -/
def State.failPasses (s : State) : List Nat → State
  | [] => s
  | n :: ns => State.failPasses (s.failPass n) ns

/-- The slots whose running pass a launch owns a tile pass of, or holds a mesh group of (R416). -/
def State.passesOf (s : State) (n : Nat) : List Nat :=
  (s.passes.filter fun e => e.2.running &&
    (e.2.groups.any (fun g => g.launch == n) ||
      s.blocks.any fun b => b.2.launch == n && (match b.2.pass with
        | some (slot, _) => slot == e.1
        | none => false))).map (·.1)

/-- The request is an addition of the list engine to a pass's status block, which no launch made (R349). -/
def Req.ofHub (r : Req) : Bool := decide (8192 * 2 ^ 32 ≤ r.core)

/-- The work of a launch is discarded: its groups, blocks, asynchronous writes, waits, bins, contexts, engine jobs and
aperture writes (R267, R339, R346). -/
def State.dropLaunch (s : State) (n : Nat) : State :=
  let dead (b : Nat) : Bool := match s.block? b with
    | some x => x.launch == n
    | none => false
  let s1 := s.setPresent (s.freedLines n)
  { s1 with groups := s.groups.filter fun e => e.2.launch != n,
            blocks := s.blocks.filter fun e => e.2.launch != n,
            cores := s1.cores.map fun e => (e.1, e.2.dropBlocks dead n),
            dies := s1.dies.map fun e => (e.1, { e.2 with apWrites := e.2.apWrites.filter fun w => w.launch != n }),
            asyncs := s.asyncs.filter fun a => a.launch != n,
            reqs := (s.reqs.map fun r => if r.launch = n && !r.ofHub then r.afterKill s.tick else r).filter fun r => !r.todo.isEmpty || r.acked,
            pubs := s.pubs.filterMap fun p => if p.launch = n then p.afterKill s.tick else some p,
            contribs := s.contribs.filter (Contrib.stays s.tick n),
            ctrWaits := s.ctrWaits.filter fun w => w.launch != n,
            copies := s.copies.filter fun j => j.launch != n,
            encodes := s.encodes.filter fun j => j.launch != n,
            rays := s.rays.filter fun r => r.launch != n,
            prims := s.prims.filter fun p => p.launch != n,
            tileReqs := s.tileReqs.filter fun r => !dead r.blk,
            retires := s.retires.filter fun r => !dead r.blk,
            streams := s.streams.filter fun x => x.launch != n,
            hashLeft := s.hashLeft.filter fun x => x.g.launch != n,
            tick := s.tick + 1 }

/-- The kill report: one type-3 record (R401, R402). -/
def State.killReport (s : State) (la : Launch) (n code : Nat) (addr : W64) (x : Site) : State :=
  s.postEvent la.queue
    [ev0 3 code, addr, x.pc, x.seq.setWidth 64, Site.word { x with queue := la.queue }, BitVec.ofNat 64 n]

/-- An event enters the hub's event queue (R396). -/
def State.pushFw (s : State) (e : FwEvent) : State := { s with fwEvents := s.fwEvents ++ [e] }

/-- A launch context is discarded (R267): the passes that it serves fail, its work goes, and its queue's surfaces fall back. -/
def State.discard (s : State) (n : Nat) : State :=
  match s.launch? n with
  | none => s
  | some la =>
    let own : State := { s with prims := s.prims.filter fun p => p.launch != n }
    let s1 := ((own.failPasses (s.passesOf n)).dropLaunch n).mirageFallback la.queue
    { s1 with launches := NMap.erase s1.launches n }

/-- A launch context is discarded and reported at once. -/
def State.dropReport (s : State) (n code : Nat) (addr : W64) (x : Site) : State :=
  match s.launch? n with
  | none => s
  | some la => (s.discard n).killReport la n code addr x

/-- The launches of a command. -/
def State.launchesOf (s : State) (q num : Nat) : List Nat :=
  (s.launches.filter fun (e : Nat × Launch) => e.2.queue == q && e.2.cmd == num).map (·.1)

/-- A site without an instruction, in a queue. -/
def Site.ofQueue (q : Nat) : Site := { Site.of 0 with queue := q }

-- Gangs (R430 to R433)

/-- Gang control packets leave for some packages; one that no route takes is dropped here (R433). -/
def State.sendCtl (s : State) (tag : Nat) (kind : CtlKind) (dsts : List Nat) : State :=
  { s with sent := s.sent ++ ((dsts.filter fun d => d != s.pkg && !s.cutOff d).map fun d => { dst := d, tag := tag, kind := kind }) }

/-- The gang of a command in progress. -/
def State.cmdGang (s : State) (q num : Nat) : Option Gang :=
  ((s.queue q).cmds.find? fun (c : Cmd) => c.num == num).bind Cmd.gang

/-- This member tells every other that the gang is broken: the leader by BROKEN, another member by MISS (R432). -/
def State.tellBroken (s : State) (q num : Nat) : State :=
  match s.cmdGang q num with
  | none => s
  | some g => s.sendCtl g.tag (if g.leader = s.pkg then .broken else .miss) g.members

/-- The launches of a broken gang are discarded with CODE 0x34 (R432). -/
def State.discardGang (s : State) (q : Nat) : List Nat → State
  | [] => s
  | n :: ns => State.discardGang (s.dropReport n 0x34 0 (Site.ofQueue q)) q ns

/-- A gang is broken: its contexts are killed and the command ends (R432). -/
def State.breakGang (s : State) (q num : Nat) : State :=
  match s.cmdGang q num with
  | none => s
  | some _ => (s.discardGang q (s.launchesOf q num)).completeCmd q num

/-- The firmware's part of a kill (R396, R402, R432): the report, the node fails, and its gang breaks on every member. -/
def State.reportKill (s : State) (n : Nat) (la : Launch) (code : Nat) (addr : W64) (x : Site) : State :=
  (((s.killReport la n code addr x).tellBroken la.queue la.cmd).failNode la.queue la.cmd la.node).breakGang la.queue la.cmd

/-- A kill of a launch context with a cause, its EADDR and its site (R267, R396, R402): its work goes in this step, and the
firmware reports it. -/
def State.killLaunch (s : State) (n code : Nat) (addr : W64) (x : Site) : State :=
  match s.launch? n with
  | none => s
  | some la => (s.discard n).pushFw (.killed n la code addr x)

/-- A kill that the firmware itself makes (R393, R402). -/
def State.killNow (s : State) (n code : Nat) (addr : W64) (x : Site) : State :=
  match s.launch? n with
  | none => s
  | some la => (s.discard n).reportKill n la code addr x

/-- Kills several launches. -/
def State.killLaunches (s : State) (code : Nat) (addr : W64) (x : Site) : List Nat → State
  | [] => s
  | n :: ns => State.killLaunches (s.killLaunch n code addr x) code addr x ns

/-- Kills the contributors of a contribution, each at its own instruction (R288, R366, R424). -/
def State.killOwners (s : State) (code : Nat) (addr : W64) : List Contributor → State
  | [] => s
  | o :: os => State.killOwners (s.killLaunch o.launch code addr o.site) code addr os

end Sys2Proof.Machine
end

