-- ==== Sys2Proof/Machine/L1.lean ====
section
/-! DEFINITION. The L1 and the write-backs on their way (R161 to R163, R280 to R282). A sector's valid bit is kept per byte,
so that bytes a publish has cleaned stay valid in a sector that was never fetched (R282; log entry 18). -/

namespace Sys2Proof.Machine

/-- A line with nothing in it. -/
def freshLine : L1Line := { held := 0, dirty := 0, readSet := 0, nextVictim := false, data := 0 }

/-- The mask of n bytes from an offset of a line. -/
def byteMask (off n : Nat) : BitVec 128 := BitVec.ofNat 128 ((2 ^ n - 1) * 2 ^ off)

/-- The bits of the bytes of a mask. -/
def bitMask (m : BitVec 128) : BitVec 1024 :=
  (List.range 128).foldl (fun acc i => if m.getLsbD i then acc ||| BitVec.ofNat 1024 (255 * 2 ^ (8 * i)) else acc) 0

/-- A home's line as 1024 bits. -/
def State.homeLine (s : State) (line : Nat) : BitVec 1024 := BitVec.ofNat 1024 (s.loadN (line * 128) 128)

/-- Writes the bytes of a mask into a list of cells. -/
def writeMasked (m : List Host.Cell) (a : Nat) (mask : BitVec 128) (data : BitVec 1024) : Nat → List Host.Cell
  | 0 => m
  | n + 1 =>
    let m' := writeMasked m a mask data n
    if mask.getLsbD n then Memory.write m' (a + n) (data.extractLsb' (8 * n) 8) else m'

/-- The bytes of a mask, from the first to the last. -/
def maskSpan (m : BitVec 128) : Nat × Nat :=
  let is := (List.range 128).filter fun i => m.getLsbD i
  (is.headD 0, is.getLastD 0 + 1 - is.headD 0)

/-- A write-back's access at its slice (R376). -/
def State.wbSeen (s : State) (w : WriteBack) : State :=
  let x := maskSpan w.mask
  s.l2See (w.line * 128 + x.1) x.2 true (coreWho 1 w.core) (dieOf w.core)

/-- A write-back is performed at the home (R161). -/
def State.performWb (s : State) (w : WriteBack) : State :=
  { s.wbSeen w with mem := writeMasked s.mem (w.line * 128) w.mask w.data 128, wbs := s.wbs.filter fun x => x.id != w.id }

/-- Performs the write-backs of a list, in order. -/
def State.performWbs (s : State) : List WriteBack → State
  | [] => s
  | w :: ws => State.performWbs (s.performWb w) ws

/-- Two home addresses have one home (R282, R325): a slice, a vault, a core's banks or a peer package. -/
def State.sameHome (s : State) (a b : Nat) : Bool :=
  arrayOf a == arrayOf b && (decide (a ≥ 2 ^ 48) || s.l2n == 0 || s.sliceAt a == s.sliceAt b)

/-- An egress queue that accepted one write-back at a moment, 0 for none, had the other behind it: it accepted that later, or
the other had not left its core by then (R282). -/
def queuedBefore (acc other otherId : Nat) : Bool := acc != 0 && (if other = 0 then decide (acc ≤ otherId) else decide (acc < other))

/-- Of one core: to one line, or to one peer package (R163, R422). -/
def samePath (line line' : Nat) : Bool :=
  line == line' || (decide (arrayOf (line * 128) ≥ 2 ^ 20) && arrayOf (line * 128) == arrayOf (line' * 128))

/-- One write-back reaches the home before another: of the core's own the earlier to its line or to its peer (R161, R163, R422),
and those ahead of it in an egress queue that keeps the order of requests to the home (R282). -/
def State.wbAhead (s : State) (x w : WriteBack) : Bool :=
  (x.core == w.core && decide (x.id < w.id) && samePath x.line w.line) ||
    (s.sameHome (x.line * 128) (w.line * 128) &&
      ((queuedBefore x.acc1 w.acc1 w.id && clusterOf x.core == clusterOf w.core) ||
        (queuedBefore x.acc2 w.acc2 w.id && dieOf x.core == dieOf w.core) || queuedBefore x.acc3 w.acc3 w.id))

/-- Some write-backs with those ahead of them; the fuel bounds the steps from one to the next. -/
def State.wbsWith (s : State) : Nat → List WriteBack → List WriteBack
  | 0, ws => ws
  | n + 1, ws => State.wbsWith s n (s.wbs.filter fun w => ws.any fun x => x.id == w.id || s.wbAhead w x)

/-- Performs the write-backs of a list, those ahead first; the fuel is their number. -/
def State.performOrdered (s : State) : Nat → List WriteBack → State
  | 0, ws => s.performWbs ws
  | n + 1, ws =>
    match ws.find? fun w => ws.all fun x => x.id == w.id || !s.wbAhead x w with
    | none => s.performWbs ws
    | some w => State.performOrdered (s.performWb w) n (ws.filter fun x => x.id != w.id)

/-- Performs some write-backs and those that reach the home before them (R282, R422). -/
def State.performFirst (s : State) (ws : List WriteBack) : State :=
  s.performOrdered s.wbs.length (s.wbsWith s.wbs.length ws)

/-- A write-back that a read from a core's cluster finds performed: its cluster's egress queue has accepted it, its die's has,
or, to a peer, the edge die's port has (R282). -/
def WriteBack.seenFrom (w : WriteBack) (core : Nat) : Bool :=
  (decide (w.stage ≥ 1) && clusterOf w.core == clusterOf core) || (decide (w.stage ≥ 2) && dieOf w.core == dieOf core) ||
    decide (w.stage ≥ 3)

/-- The write-backs that a core's read of a line finds performed: its own to the line or to its peer, and those to the line's
home that a queue on its way has accepted. -/
def State.wbsBefore (s : State) (core line : Nat) : List WriteBack :=
  s.wbs.filter fun w => (w.core == core && samePath w.line line) || (w.seenFrom core && s.sameHome (w.line * 128) (line * 128))

/-- The home as a read from a core finds it. -/
def State.beforeRead (s : State) (core line : Nat) : State := s.performFirst (s.wbsBefore core line)

/-- The home as a read of an engine of a core's cluster finds it: what no queue has accepted is not published to it (R285). -/
def State.beforeEngine (s : State) (core line : Nat) : State :=
  s.performFirst (s.wbs.filter fun w => w.seenFrom core && s.sameHome (w.line * 128) (line * 128))

/-- A `.byp` store of the core to the line is performed before a later access to it, and the core's write-backs of the line
that are older than it come first (R163). -/
def State.beforeHit (s : State) (core line : Nat) : State :=
  s.performFirst (s.wbs.filter fun w => w.line == line && w.core == core && w.through.isSome)

/-- Sends the bytes of a mask of a line to the home. -/
def State.sendWb (s : State) (core launch line : Nat) (mask : BitVec 128) (data : BitVec 1024) (through : Option Site) : State :=
  if mask = 0 then s
  else { s with nextId := s.nextId + 1,
                wbs := s.wbs ++ [{ id := s.nextId, core := core, launch := launch, line := line, mask := mask, data := data,
                                   stage := 0, acc1 := 0, acc2 := 0, acc3 := 0, through := through }] }

/-- The lines of a set that an L1 holds (R281). -/
def Core.setLines (c : Core) (line : Nat) : NMap L1Line := c.l1.filter fun e => e.1 % 128 == line % 128

/-- A refresh (R280): no clean byte survives, and the read set is empty. -/
def Core.refresh (c : Core) : Core :=
  { c with l1 := c.l1.filterMap fun e =>
             if e.2.dirty = 0 then none else some (e.1, { e.2 with held := e.2.dirty, readSet := 0 }) }

/-- Evicts a line: only its dirty bytes go to the home (R161). -/
def State.evictLine (s : State) (core line : Nat) : State :=
  match (s.core core).l1.find? fun e => e.1 == line with
  | none => s
  | some e =>
    let s1 := s.modCore core fun c => { c with l1 := NMap.erase c.l1 line }
    s1.sendWb core 0 line e.2.dirty e.2.data none

/-- The candidates to leave a full set: a marked line, else a line outside the read set (R162, R281). -/
def victims (set : NMap L1Line) : NMap L1Line :=
  let out := set.filter fun e => e.2.readSet == 0
  let marked := out.filter fun e => e.2.nextVictim
  if marked.isEmpty then out else marked

/-- Makes room for a line in its set: a capacity refresh when every line of it is in the read set (R281). -/
def State.makeRoom (s : State) (core line : Nat) : State :=
  let set := (s.core core).setLines line
  if set.length < 8 then s
  else
    let s1 := if (victims set).isEmpty then
        s.modCore core fun c => { c.refresh with refreshes := c.refreshes + 1 }
      else s
    let set1 := (s1.core core).setLines line
    if set1.length < 8 then s1
    else
      let vs := victims set1
      let p := s1.pick vs.length
      match vs.getD p.1 (line, freshLine) with
      | (v, _) => p.2.evictLine core v

/-- The line, allocated if it was absent. -/
def State.allocLine (s : State) (core line : Nat) : State :=
  if NMap.has (s.core core).l1 line then s
  else (s.makeRoom core line).modCore core fun c => { c with l1 := NMap.put c.l1 line freshLine }

/-- The line of an L1. -/
def Core.line (c : Core) (line : Nat) : L1Line := NMap.get freshLine c.l1 line

/-- Changes a line. -/
def State.modLine (s : State) (core line : Nat) (f : L1Line → L1Line) : State :=
  s.modCore core fun c => { c with l1 := NMap.put c.l1 line (f (c.line line)) }

/-- Fills the bytes of a mask that a line does not hold from the home. -/
def L1Line.fill (l : L1Line) (mask : BitVec 128) (home : BitVec 1024) : L1Line :=
  let new := mask &&& ~~~l.held
  { l with held := l.held ||| mask, data := (l.data &&& ~~~bitMask new) ||| (home &&& bitMask new) }

/-- n bytes of 1024 bits from a byte offset. -/
def bytesOfLine (d : BitVec 1024) (off n : Nat) : Nat := d.toNat / 2 ^ (8 * off) % 2 ^ (8 * n)

/-- A load of n bytes of one sector through a core's L1 (R161, R162): the value and the state after. A miss reads the sector
at its slice for a requester (R376). -/
def State.l1LoadBy (s : State) (who : Nat × Nat) (core : Nat) (pol : Policy) (pa n : Nat) : Nat × State :=
  let line := pa / 128
  let off := pa % 128
  let need := byteMask off n
  let sec := byteMask (off / 32 * 32) 32
  let l := (s.core core).line line
  let mark (l : L1Line) : L1Line :=
    if pol = .dflt then { l with readSet := l.readSet ||| BitVec.ofNat 4 (2 ^ (off / 32)) } else l
  if need &&& ~~~l.held = 0 then
    let s1 := s.beforeHit core line
    let s2 := if pol = .dflt then s1.modLine core line mark else s1
    (bytesOfLine l.data off n, s2)
  else if pol = .byp then
    let s1 := (s.beforeRead core line).l2See (pa / 32 * 32) 32 false who (dieOf core)
    (bytesOfLine (l.fill sec (s1.homeLine line)).data off n, s1)
  else
    let s1 := ((s.beforeRead core line).l2See (pa / 32 * 32) 32 false who (dieOf core)).allocLine core line
    let home := s1.homeLine line
    let fresh := !NMap.has (s.core core).l1 line
    let s2 := s1.modLine core line fun l =>
      let l' := mark (l.fill sec home)
      if pol = .strm && fresh then { l' with nextVictim := true } else l'
    (bytesOfLine ((s2.core core).line line).data off n, s2)

/-- A core's own load. -/
def State.l1Load (s : State) (core : Nat) (pol : Policy) (pa n : Nat) : Nat × State :=
  s.l1LoadBy (coreWho 0 core) core pol pa n

/-- Puts n bytes into a line's data. -/
def putBytes (d : BitVec 1024) (off n x : Nat) : BitVec 1024 :=
  (d &&& ~~~bitMask (byteMask off n)) ||| BitVec.ofNat 1024 (x % 2 ^ (8 * n) * 2 ^ (8 * off))

/-- A store of n bytes of one sector by an instruction of a core (R161, R162). -/
def State.l1Store (s : State) (core launch : Nat) (site : Site) (pol : Policy) (pa n x : Nat) : State :=
  let line := pa / 128
  let off := pa % 128
  let m := byteMask off n
  if pol = .byp then
    let s1 := s.beforeHit core line
    let s2 := if NMap.has (s1.core core).l1 line then
        s1.modLine core line fun l =>
          let have_ := m &&& l.held
          { l with data := (l.data &&& ~~~bitMask have_) ||| (putBytes 0 off n x &&& bitMask have_),
                   dirty := l.dirty &&& ~~~m }
      else s1
    s2.sendWb core launch line m (putBytes 0 off n x) (some site)
  else
    let s1 := (s.beforeHit core line).allocLine core line
    s1.modLine core line fun l =>
      { l with data := putBytes l.data off n x, held := l.held ||| m, dirty := l.dirty ||| m,
               nextVictim := l.nextVictim || pol == .strm }

/-- Sends the dirty bytes of a line within a mask to the home and leaves them clean (R181, R282). -/
def State.cleanLine (s : State) (core launch line : Nat) (mask : BitVec 128) : State :=
  if NMap.has (s.core core).l1 line then
    let l := (s.core core).line line
    (s.modLine core line fun l => { l with dirty := l.dirty &&& ~~~mask }).sendWb core launch line (l.dirty &&& mask) l.data none
  else s

/-- Cleans the lines of a list. -/
def State.cleanLines (s : State) (core launch : Nat) : List Nat → State
  | [] => s
  | l :: ls => State.cleanLines (s.cleanLine core launch l (BitVec.allOnes 128)) core launch ls

/-- The bytes of a mask leave a line without a write-back of the clean ones: the sector of an atomic (R189), or a whole
line (R181). -/
def State.dropBytes (s : State) (core line : Nat) (mask : BitVec 128) : State :=
  if NMap.has (s.core core).l1 line then
    s.modCore core fun c =>
      let l := c.line line
      let l' := { l with held := l.held &&& ~~~mask, dirty := l.dirty &&& ~~~mask }
      { c with l1 := if l'.held = 0 then NMap.erase c.l1 line else NMap.put c.l1 line l' }
  else s

/-- Writes back and invalidates the lines of a list (R181). -/
def State.flushLines (s : State) (core launch : Nat) : List Nat → State
  | [] => s
  | l :: ls =>
    State.flushLines ((s.cleanLine core launch l (BitVec.allOnes 128)).dropBytes core l (BitVec.allOnes 128)) core launch ls

/-- The dirty bytes of the sector of an address are written back and the sector leaves the L1 (R189). -/
def State.purgeSector (s : State) (core launch pa : Nat) : State :=
  let line := pa / 128
  let sec := byteMask (pa % 128 / 32 * 32) 32
  (s.cleanLine core launch line sec).dropBytes core line sec

end Sys2Proof.Machine
end

