-- ==== Sys2Proof/Machine/View.lean ====
section
/-! DEFINITION. The spaces of generic addresses (R158), what a group's addresses are checked against, and the walks of its
device-virtual accesses (R165, R331, R376). -/

namespace Sys2Proof.Machine

/-- The space of a generic address (R158), or none. -/
def spaceOf (a : W64) : Option Space :=
  let n := a.toNat
  if n < 2 ^ 56 then some .dev
  else if 0xFB00000000000000 ≤ n && n < 0xFB00000040000000 then some .vault
  else if 0xFC00000000000000 ≤ n && n < 0xFC00000010000000 then some .cl
  else if 0xFD00000000000000 ≤ n && n < 0xFD00000000080000 then some .tile
  else if 0xFE00000000000000 ≤ n && n < 0xFF00000000000000 then some .priv
  else none

/-- What a group's addresses are checked against. -/
structure View where
  core : Nat
  /-- the unit that translates: the core, or the engines of its die (R331) -/
  unit : Nat
  gid : Nat
  gix : Nat
  launchId : Nat
  blkId : Nat
  blk : Block
  la : Launch
  /-- class and unit under which an L2 slice knows its reads (R376) -/
  l2 : Nat × Nat
  deriving DecidableEq, Repr

/-- A block and a launch of nothing, for a group whose block is gone. -/
def noBlock : Block :=
  { launch := 0, core := 0, index := 0, array := 0, rank := 0, res := 0, tileKiB := 0, tileSize := 0, ctr0 := 0,
    nctr := 0, slots := [], ngroups := 0, nregs := 8, spawn := 0, spawnTaken := 0, ctx := none, order := 0,
    evicting := false, savedGroups := [], unstarted := [], savedCtx := none, savedTile := [],
    savedCtrs := [], savedWaits := [], savedOps := [], savedRays := [], saved := false,
    pass := none, tret := none }

/-- A launch of nothing. -/
def noLaunch : Launch :=
  { queue := 0, cmd := 0, node := 0, asn := 0, root := 0, entry := 0, args := 0, nblocks := 0, arrayLen := 0, groups := 0,
    lastLanes := 0, nregs := 8, tile := 0, nctr := 0, spawn := 0, matrix := false, plim := 0, pbase := 0, cto := 65536,
    bint := 256, tha := 0, dha := 0, debug := false, rpass := none, mesh := false, placed := 0, finished := 0,
    held := false, mode := 0, trace := false, logt := 0, member := 0, cores := [], pubs := none, words := [], ranks := [] }

/-- The view of a group. -/
def State.viewOf (s : State) (gid : Nat) (g : Group) : View :=
  { core := g.core, unit := g.core, gid := gid, gix := g.gix, launchId := g.launch, blkId := g.blk, blk := (s.block? g.blk).getD noBlock,
    la := (s.launch? g.launch).getD noLaunch, l2 := coreWho 0 g.core }

/-- The private base of the group (R165). -/
def View.privBase (v : View) : Nat := v.la.pbase.toNat + (v.blk.index * 48 + v.gix) * v.la.plim * 128

/-- The device-virtual address of a byte of a lane's private memory (R165). -/
def View.backing (v : View) (l b : Nat) : Nat := (v.privBase + (b / 4 * 32 + l) * 4 + b % 4) % 2 ^ 64

/-- The TLB entries that the device-virtual pieces of an access leave (R331). -/
def State.touchTlb (s : State) (v : View) (l : Nat) (a : W64) : State :=
  match spaceOf a with
  | some .dev => s.fillTlb v.unit v.la.asn v.la.root a.toNat
  | some .priv => s.fillTlb v.unit v.la.asn v.la.root (v.backing l (a.toNat % 2 ^ 56))
  | _ => s

/-- The TLB entries of several lanes. -/
def State.touchTlbs (s : State) (v : View) (addr : Nat → W64) : List Nat → State
  | [] => s
  | l :: ls => State.touchTlbs (s.touchTlb v l (addr l)) v addr ls

/-- The walk of an access or a fetch that failed its translation reached the slices too (R376). -/
def State.trapWalk (s : State) (gid : Nat) (g : Group) (t : Trap) : State :=
  if t.code = 0x0B || t.code = 0x06 then s.touchTlb (s.viewOf gid g) ((lowestLane t.mask).getD 0) t.addr else s

end Sys2Proof.Machine
end

