-- ==== Sys2Proof/Machine/Issue.lean ====
section
/-! DEFINITION. The issue of one instruction word by the group whose turn it is: the shared frame of every meaning. A
word traps with no effect of its own (R252), stalls, or takes effect and is passed by the lanes at it (R35). -/

namespace Sys2Proof.Machine

/-- What a meaning sees of the group that issues. -/
structure Ctx where
  gid : Nat
  core : Nat
  g : Group
  cl : Clause
  /-- the clause's live lanes at the issue PC (R48) -/
  at_ : LaneMask
  /-- lanes with EM = 1 (R35) -/
  em : LaneMask
  rank : Nat
  word : W64
  /-- the number that the core's next push takes (R366) -/
  seq : W32
  deriving DecidableEq, Repr

/-- The effect of an instruction before its lanes move on. -/
inductive Effect
  /-- it takes effect -/
  | ok (s : State)
  /-- a precise trap: nothing was written (R252) -/
  | trap (t : Trap)
  /-- it does not issue yet (R123) -/
  | stall
  /-- the group stops at the word (R372) -/
  | stop (s : State)
  deriving DecidableEq, Repr

/-- The rank of a group's block in its array (R34). -/
def State.rankOf (s : State) (g : Group) : Nat := ((s.block? g.blk).map Block.rank).getD 0

/-- The issuing context, if a group has a clause in progress. -/
def State.ctx? (s : State) : Option Ctx :=
  match s.cur with
  | none => none
  | some gid =>
    match s.group? gid with
    | none => none
    | some g =>
      match g.clause with
      | none => none
      | some cl =>
        let at_ := g.lanesAt cl.pc &&& cl.lanes
        some { gid := gid, core := g.core, g := g, cl := cl, at_ := at_, em := at_ &&& g.en, rank := s.rankOf g,
               word := s.word, seq := (s.core g.core).engineSeq }

/-- A trap at the word itself, resuming there (R260). -/
def Ctx.fault (c : Ctx) (code : Nat) (addr : W64) (mask : LaneMask) (wr : Bool := false) : Effect :=
  .trap { code := code, wr := wr, addr := addr, mask := mask, resume := c.cl.pc }

/-- Illegal-instruction (R260, code 0x02): EADDR holds the word; the lanes at fault are those of EM. -/
def Ctx.illegal (c : Ctx) : Effect := c.fault 0x02 c.word c.em

/-- Illegal-operand (R260, code 0x03). -/
def Ctx.illegalOperand (c : Ctx) : Effect := c.fault 0x03 c.word c.em

/-- Takes a precise trap (R255, R257): the trap handler, or a kill when the group is in a handler or has none. -/
def State.takeTrap (s : State) (gid : Nat) (issuePc hdr : W64) (t : Trap) : State :=
  match s.group? gid with
  | none => s
  | some g =>
    let tha := ((s.launch? g.launch).map Launch.tha).getD 0
    let x := s.siteOf g issuePc
    let s := s.trapWalk gid g t
    if g.hkind != 0 || tha == 0 then s.killLaunch g.launch t.code t.addr x
    else (s.setGroup gid ((g.enterHandler 1 tha issuePc hdr t).pauseAfter g.clause t s.now)).recordTrap x t.cause t.addr t.mask

/-- An asynchronous operation of a group (R66), in flight. -/
def Ctx.async (c : Ctx) (slot : Option (BitVec 3)) : AsyncOp :=
  { id := 0, gid := c.gid, core := c.core, launch := c.g.launch, tag := c.g.tag, slot := slot, vw := [], sw := [],
    ww := [], landed := [], fp := false, ready := true, deps := [], mrd := none, missed := [], gfx := none, raw := [], pop := none,
    site := { pc := c.cl.pc, seq := 0, core := c.core, gix := c.g.gix, queue := 0, block := 0, launch := c.g.launch } }

/-- Puts an asynchronous operation in flight under a fresh identifier: its slot is counted (R38, R55). -/
def State.launchAsync (s : State) (a : AsyncOp) : State :=
  let s1 := { s with nextId := s.nextId + 1, asyncs := s.asyncs ++ [{ a with id := s.nextId }] }
  match a.slot with
  | none => s1
  | some n => s1.modGroup a.gid fun g => g.sbInc n.toNat

/-- The lanes at the word pass it (R35), and the clause ends after its last word. -/
def State.passWord (s : State) (c : Ctx) : State := s.modGroup c.gid fun g => g.advance c.at_ s.now c.seq

/-- The slot an instruction would increment is at its limit (R38). -/
def Ctx.slotFull (c : Ctx) (tl : Tail) : Bool :=
  match tl with
  | none => false
  | some n => c.g.sbGet n.toNat == 63

/-- A tail on an instruction that holds its slot until it completes (R38, R55): an operation with nothing to write. -/
def State.holdTail (s : State) (c : Ctx) (tl : Tail) : State :=
  match tl with
  | none => s
  | some n => s.launchAsync (c.async (some n))

/-- The frame of an instruction: the checks that need the state come in the order of R64, then the body. -/
def issueWith (pre : Ctx → Bool) (uses : List Use) (tl : Tail) (body : Ctx → State → Effect)
    (finish : Ctx → State → State) (s : State) : Result :=
  match s.ctx? with
  | none => .fault .noIssuingGroup
  | some c =>
    if c.slotFull tl || (uses.any Use.readsFps && s.asyncs.any fun a => a.gid == c.gid && a.tag == c.g.tag && a.fp) then .next s
    else
      let e :=
        if !pre c then c.illegal
        else if !uses.all c.g.useOk then c.illegalOperand
        else body c s
      match e with
      | .stall => .next s
      | .stop s' => .next s'
      | .trap t => .next (s.takeTrap c.gid c.cl.pc c.cl.hdr t)
      | .ok s' => .next (finish c s')

/-- An instruction whose tail is held by the frame. -/
def issue (uses : List Use) (tl : Tail) (body : Ctx → State → Effect) (s : State) : Result :=
  issueWith (fun _ => true) uses tl body (fun c s' => (s'.holdTail c tl).passWord c) s

/-- The same, with checks of the illegal-instruction kind that need the state. -/
def issueIf (pre : Ctx → Bool) (uses : List Use) (tl : Tail) (body : Ctx → State → Effect) (s : State) : Result :=
  issueWith pre uses tl body (fun c s' => (s'.holdTail c tl).passWord c) s

/-- Settles the sticky flags when an operand read them (R37). -/
def State.settle (s : State) (c : Ctx) (uses : List Use) : State :=
  if uses.any Use.readsFps then s.modGroup c.gid fun g => g.settleFps true 0 else s

/-- An instruction whose body puts its own asynchronous operation in flight with the tail (R66, R175). -/
def issueAsync (pre : Ctx → Bool) (uses : List Use) (tl : Tail) (body : Ctx → State → Effect) (s : State) : Result :=
  issueWith pre uses tl (fun c s => body c (s.settle c uses)) (fun c s' => s'.passWord c) s

/-- A terminal instruction (R134): the body moves the lanes, and the clause ends. -/
def issueTerminal (pre : Ctx → Bool) (uses : List Use) (body : Ctx → State → Effect) (s : State) : Result :=
  issueWith pre uses none body (fun c s' => s'.modGroup c.gid fun g =>
    { g with mid := if g.hkind = c.g.hkind then g.mid &&& ~~~c.at_ else g.mid,
             lastPc := c.cl.pc, lastSeq := c.seq,
             bpExempt := if g.hkind = c.g.hkind then false else g.bpExempt }
      |>.endClause s'.now) s

/-- Writes the issuing group. -/
def State.put (s : State) (c : Ctx) (g : Group) : State := s.setGroup c.gid g

end Sys2Proof.Machine
end

