-- ==== Sys2Proof/Machine/Space.lean ====
section
/-! DEFINITION. The checks of R159 to R166 in the order of R174, and where each piece of an
access goes. -/

namespace Sys2Proof.Machine

/-- The block of a rank of the array (R273). The rank table outlasts the block: R159 bounds the rank by the number of
blocks in the array, running or not. -/
def State.rankBlock (s : State) (v : View) (rank : Nat) : Option Block :=
  if v.blk.array = 0xFFFFFFFFFFFFFFFF then (if rank = 0 then some v.blk else none)
  else ((s.blocks.find? fun e => e.2.launch == v.launchId && e.2.array == v.blk.array && e.2.rank == rank).map (·.2)).or
    (v.la.ranks.find? fun b => b.array == v.blk.array && b.rank == rank)

/-- The bytes lie in the block's tile reservation or its counter slots (R159, R287). -/
def View.tileOk (v : View) (off n : Nat) : Bool :=
  (decide (v.blk.res ≤ off) && decide (off + n ≤ v.blk.res + v.blk.tileKiB * 1024)) ||
    (decide (0x7FE00 + 8 * v.blk.ctr0 ≤ off) && decide (off + n ≤ 0x7FE00 + 8 * (v.blk.ctr0 + v.blk.nctr)))

/-- Where one piece of an access goes. -/
inductive Target
  /-- a home address held in the L1 -/
  | snap (pa : Nat)
  /-- a transforming aperture of the die -/
  | port (ap off : Nat)
  /-- an arrival-space array; the own tile port or not -/
  | arr (a : Nat) (own : Bool)
  deriving DecidableEq, Repr

/-- The home address of a counter's target, and whether it is the own tile port. -/
def Target.home : Target → Nat × Bool
  | .arr a own => (a, own)
  | .snap pa => (pa, false)
  | .port _ off => (off, false)

/-- The target is of a snapshot space. -/
def Target.isSnap : Target → Bool
  | .snap _ => true
  | _ => false

/-- The causes of R174, in their order. -/
inductive MemErr
  | space | misaligned | stack | translation
  deriving DecidableEq, Repr

/-- The cause code (R260). -/
def MemErr.code : MemErr → Nat
  | .space => 0x08
  | .misaligned => 0x09
  | .stack => 0x0A
  | .translation => 0x0B

/-- A device-virtual piece. -/
def State.devPiece (s : State) (v : View) (va n : Nat) (k : AccKind) : Except MemErr Target :=
  if va ≥ 2 ^ 56 then .error .space
  else match s.resolve v.unit v.la.asn v.la.root va n k with
    | .ok (.home a) => .ok (.snap a)
    | .ok (.port m o) => .ok (.port m o)
    | .error .space => .error .space
    | .error .translation => .error .translation

/-- The address lies in an enabled reduction window (R425). -/
def State.window (s : State) (va : Nat) : Option Nat :=
  (List.range 64).find? fun w =>
    let base := s.hubWord (0x60000 + 32 * w)
    let size := s.hubWord (0x60000 + 32 * w + 8)
    (s.hubWord (0x60000 + 32 * w + 16)).getLsbD 0 && decide (base.toNat ≤ va) &&
      decide (va < base.toNat + size.toNat * 65536)

/-- A lane's address needs a walk that a migration holds (R333). -/
def State.heldAddr (s : State) (v : View) (l : Nat) (a : W64) : Bool :=
  match spaceOf a with
  | some .dev => s.walkHeld v.unit v.la.asn a.toNat
  | some .priv => s.walkHeld v.unit v.la.asn (v.backing l (a.toNat % 2 ^ 56))
  | _ => false

/-- The error of the address-space check alone (R159, R337, R426). -/
def State.spaceErr (s : State) (v : View) (a : W64) (n : Nat) (k : AccKind) (single : Bool) : Bool :=
  match spaceOf a with
  | none => true
  | some .dev =>
    (k == .exchange && (s.window a.toNat).isSome) ||
      (match s.devPiece v a.toNat n k with
        | .error .space => true
        | _ => false)
  | some .vault => decide ((a.toNat % 2 ^ 30) / 2 ^ 24 ≥ 64 - s.l2n)
  | some .tile => !v.tileOk (a.toNat % 2 ^ 19) n
  | some .cl =>
    let rank := a.toNat % 2 ^ 28 / 2 ^ 20
    let off := a.toNat % 2 ^ 20
    (match s.rankBlock v rank with
      | none => true
      | some b => decide (off + n > b.tileSize))
  | some .priv => single || k == .atomic || k == .exchange

/-- The stack-limit check (R166). -/
def View.stackErr (v : View) (a : W64) (n : Nat) : Bool :=
  spaceOf a == some .priv && decide (a.toNat % 2 ^ 56 + n > 4 * v.la.plim)

/-- The pieces of an access that has passed the first checks: private accesses of 8 or 16 bytes are split by words. -/
def State.pieces (s : State) (v : View) (l : Nat) (a : W64) (n : Nat) (k : AccKind) :
    Except MemErr (List (Target × Nat)) :=
  match spaceOf a with
  | some .dev => (s.devPiece v a.toNat n k).map fun t => [(t, n)]
  | some .vault => .ok [(.arr (vaultAddr (dieOf v.core) (a.toNat % 2 ^ 30)) false, n)]
  | some .tile => .ok [(.arr (tileAddr v.core (a.toNat % 2 ^ 19)) true, n)]
  | some .cl =>
    match s.rankBlock v (a.toNat % 2 ^ 28 / 2 ^ 20) with
    | none => .error .space
    | some b =>
      .ok [(.arr (tileAddr b.core (b.res + a.toNat % 2 ^ 20)) (decide (a.toNat % 2 ^ 28 / 2 ^ 20 = v.blk.rank)), n)]
  | some .priv =>
    let b := a.toNat % 2 ^ 56
    if n ≤ 4 then (s.devPiece v (v.backing l b) n k).map fun t => [(t, n)]
    else (List.range (n / 4)).mapM fun i => (s.devPiece v (v.backing l (b + 4 * i)) 4 k).map fun t => (t, 4)
  | none => .error .space

/-- A translation check (R174). -/
def State.transErr (s : State) (v : View) (l : Nat) (a : W64) (n : Nat) (k : AccKind) : Bool :=
  match s.pieces v l a n k with
  | .error _ => true
  | .ok _ => false

/-- The first cause that some lane raises, with the lanes that raise it (R174). -/
def State.memCheck (s : State) (v : View) (ls : List Nat) (addr : Nat → W64) (n align : Nat) (k : AccKind)
    (single : Bool) : Option (MemErr × LaneMask) :=
  let raised (p : Nat → Bool) : LaneMask := maskFrom p ls
  let m1 := raised fun l => s.spaceErr v (addr l) n k single
  if m1 != 0 then some (.space, m1)
  else
    let m2 := raised fun l => (addr l).toNat % align != 0
    if m2 != 0 then some (.misaligned, m2)
    else
      let m3 := raised fun l => v.stackErr (addr l) n
      if m3 != 0 then some (.stack, m3)
      else
        let m4 := raised fun l => s.transErr v l (addr l) n k
        if m4 != 0 then some (.translation, m4) else none

/-- The lowest lane of a mask supplies EADDR (R174). -/
def Ctx.memFault (c : Ctx) (e : MemErr) (m : LaneMask) (addr : Nat → W64) (wr : Bool) : Effect :=
  c.fault e.code (addr ((lowestLane m).getD 0)) m wr

end Sys2Proof.Machine
end

