-- ==== Sys2Proof/Machine/Replay.lean ====
section
/-! DEFINITION. Record and replay (R379 to R386): requester identifiers, the streams of the homes, the order gate, store
hashes and hash points. -/

namespace Sys2Proof.Machine

/-- Requester identifier of a group (R381). -/
def View.ident (v : View) : W64 := requester 0 v.la.member v.blk.index v.gix 0

/-- The logical name of the home of an address (R380): a block's tile banks, a vault, a slice. -/
def State.homeOf (s : State) (a : Nat) : List Nat :=
  match arrayAt a with
  | .tile c =>
    let off := (a - 2 ^ 49) % 2 ^ 19
    (match s.blocks.find? fun e => e.2.core == c && !e.2.saved &&
        ((decide (e.2.res ≤ off) && decide (off < e.2.res + e.2.tileKiB * 1024)) ||
          (!s.blockEmpty e.1 && decide (0x7FE00 + 8 * e.2.ctr0 ≤ off) && decide (off < 0x7FE00 + 8 * (e.2.ctr0 + e.2.nctr)))) with
      | some e => [0, e.2.index]
      | none => [0, c])
  | .vault d v => [1, d, v]
  | .slice d => [2, d, if s.l2n = 0 then 0 else Nat.xor (a / 128 % 32) (a / 2 ^ 18 % 32) % s.l2n]
  | .peer p => [4, p]

/-- The stream buffer of a home: its address and size (R391). -/
def State.streamBuf (s : State) (la : Launch) (home : List Nat) : Option (Nat × Nat) :=
  if la.logt = 0 then none
  else
    let e := la.logt.toNat + 16 * Config.logEntry home
    some ((s.load64 e).toNat, (s.load64 (e + 8)).toNat)

/-- The stream of a home for a launch, as far as it has been used. -/
def State.stream (s : State) (n : Nat) (home : List Nat) : Stream :=
  (s.streams.find? fun x => x.launch == n && x.home == home).getD
    { launch := n, home := home, pos := 0, used := 0, free := false }

/-- Writes a stream's position. -/
def State.setStream (s : State) (x : Stream) : State :=
  { s with streams := x :: s.streams.filter fun y => y.launch != x.launch || y.home != x.home }

/-- Writes a 16-byte entry (R382). -/
def State.writeEntry (s : State) (a : Nat) (q : W64) (run : Nat) (to_ : Bool) : State :=
  (s.store64 a q).store64 (a + 8) (BitVec.ofNat 64 (run + if to_ then 2 ^ 32 else 0))

/-- A logged operation is appended to its home's stream (R382, R386). -/
def State.logOp (s : State) (n : Nat) (la : Launch) (die : Nat) (home : List Nat) (q : W64) (to_ : Bool) : State :=
  if s.logFull.contains n then s
  else
    match s.streamBuf la home with
    | none => s
    | some (buf, size) =>
      let x := s.stream n home
      let last := buf + 16 * (x.pos - 1)
      if x.pos != 0 && !to_ && s.load64 last == q && !((s.load64 (last + 8)).getLsbD 32) && x.used < 2 ^ 32 - 1 then
        (s.writeEntry last q (x.used + 1) false).setStream { x with used := x.used + 1 }
      else if 16 * (x.pos + 1) > size then
        { s.record die 13 [] with logFull := n :: s.logFull }
      else (s.writeEntry (buf + 16 * x.pos) q 1 to_).setStream { x with pos := x.pos + 1, used := 1 }

/-- What the gate says of an operation (R383). -/
inductive GateView
  | open_ (timeout : Bool)
  | hold
  | diverge (reason : Nat)
  deriving DecidableEq, Repr

/-- Some entry from a position names the requester; n entries remain. -/
def State.namedLater (s : State) (buf : Nat) (q : W64) (pos : Nat) : Nat → Bool
  | 0 => false
  | n + 1 =>
    if (s.load64 (buf + 16 * pos + 8)).extractLsb' 0 32 = 0 then false
    else s.load64 (buf + 16 * pos) == q || State.namedLater s buf q (pos + 1) n

/-- The order gate (R383): an entry with RUN = 0, or the end of the buffer, ends the stream. -/
def State.gate (s : State) (n : Nat) (la : Launch) (home : List Nat) (q : W64) : GateView :=
  let x := s.stream n home
  if x.free then .open_ false
  else match s.streamBuf la home with
    | none => .diverge 4
    | some (buf, size) =>
      let e := buf + 16 * x.pos
      let w := s.load64 (e + 8)
      if 16 * (x.pos + 1) > size || w.extractLsb' 0 32 = 0 then .diverge 4
      else if s.load64 e = q then .open_ (w.getLsbD 32)
      else if s.namedLater buf q (x.pos + 1) (size / 16 - x.pos - 1) then .hold
      else .diverge 2

/-- Consumes one unit of the current entry's RUN (R383). -/
def State.consume (s : State) (n : Nat) (la : Launch) (home : List Nat) : State :=
  let x := s.stream n home
  if x.free then s
  else match s.streamBuf la home with
    | none => s
    | some (buf, _) =>
      let run := ((s.load64 (buf + 16 * x.pos + 8)).extractLsb' 0 32).toNat
      s.setStream (if x.used + 1 ≥ run then { x with pos := x.pos + 1, used := 0 } else { x with used := x.used + 1 })

/-- A divergence of a home's order: the record, and the home runs free (R383, R385). -/
def State.diverge (s : State) (n die : Nat) (home : List Nat) (q : W64) (reason : Nat) (x : Site) : State :=
  (s.recordAt die 12 [BitVec.ofNat 64 reason, q, Config.homeName home, x.seq.setWidth 64] x.words).setStream
    { s.stream n home with free := true }

-- Store hash (R384)

/-- The canonical address: own tile addresses in cluster form (R182, R384). -/
def View.canonical (v : View) (a : W64) : W64 :=
  let off := a.toNat % 2 ^ 19
  if spaceOf a = some .tile then
    (if v.blk.res ≤ off && off < v.blk.res + v.blk.tileSize then
      0xFC00000000000000#64 + BitVec.ofNat 64 (v.blk.rank * 2 ^ 20 + (off - v.blk.res))
    else 0xFFFFFFFFFFFFFFFF#64)
  else a

/-- One step of the store hash (R384). -/
def hashStep (h a d : W64) : W64 := (h.rotateLeft 7) ^^^ (a * 0x9E3779B97F4A7C15#64 + d)

/-- The site of a hash point (R366). -/
def hashSite (g : Group) (la : Launch) (index : Nat) (pc : W64) (seq : W32) : Site :=
  { pc := pc, seq := seq, core := g.core, gix := g.gix, queue := la.queue, block := index, launch := g.launch }

/-- A hash point of a launched group is logged or compared (R385): spawned groups have none. -/
def State.hashPoint (s : State) (g : Group) (index ngroups : Nat) (pc : W64) (seq : W32) : State :=
  match s.launch? g.launch with
  | none => s
  | some la =>
    let q := requester 0 la.member index g.gix 0
    let die := dieOf g.core
    let loc := (hashSite g la index pc seq).words
    if ngroups ≤ g.gix then s
    else if la.mode = 1 then
      (if s.logFull.contains g.launch then s
      else { s with hashLog := { logt := la.logt, ident := q, ordinal := g.ordinal, hash := g.hash, pc := pc, seq := seq } ::
                      s.hashLog.filter fun e => e.logt != la.logt || e.ident != q || e.ordinal != g.ordinal })
    else if la.mode = 2 then
      (match s.hashLog.find? fun e => e.logt == la.logt && e.ident == q && e.ordinal == g.ordinal with
        | some e =>
          if e.hash = g.hash then s else s.recordAt die 12 [1, q, pc, seq.setWidth 64] loc
        | none => s.recordAt die 12 [5, q, pc, seq.setWidth 64] loc)
    else s

/-- Records of the hash points of the log that a group of a replay did not reach (R385). -/
def State.reportMissed (s : State) (g : Group) (la : Launch) (index : Nat) : List HashEntry → State
  | [] => s
  | e :: es =>
    State.reportMissed (s.recordAt (dieOf g.core) 12 [5, e.ident, e.pc, e.seq.setWidth 64] (hashSite g la index e.pc e.seq).words) g la
      index es

/-- The points that a launched group of a replay never reached, now that it has ended (R385). -/
def State.missedPoints (s : State) (x : HashLeft) : State :=
  match s.launch? x.g.launch with
  | none => s
  | some la =>
    if la.mode != 2 || x.ngroups ≤ x.g.gix then s
    else
      let q := requester 0 la.member x.index x.g.gix 0
      s.reportMissed x.g la x.index (s.hashLog.filter fun (e : HashEntry) =>
        e.logt == la.logt && e.ident == q && decide (x.g.ordinal ≤ e.ordinal))

/-- The waiting steps of a group's hash are taken as far as their values have arrived (R384): the state and the group after;
the fuel is their number. -/
def State.hashSteps (s : State) (index ngroups : Nat) (g : Group) : Nat → State × Group
  | 0 => (s, g)
  | n + 1 =>
    match g.hashQ with
    | [] => (s, g)
    | .datum a d :: rest => State.hashSteps s index ngroups { g with hash := hashStep g.hash a d, hashQ := rest } n
    | .point pc seq :: rest =>
      State.hashSteps (s.hashPoint g index ngroups pc seq) index ngroups { g with hashQ := rest, ordinal := g.ordinal + 1 } n
    | .awaits _ _ _ :: _ => (s, g)

/-- A group in its slot, as its hash keeps it. -/
def State.hashOf (s : State) (gid : Nat) (g : Group) : HashLeft :=
  { gid := gid, index := ((s.block? g.blk).map Block.index).getD 0, ngroups := ((s.block? g.blk).map Block.ngroups).getD 0,
    g := g }

/-- The waiting steps of the hash of a group in its slot are taken as far as their values have arrived. -/
def State.drainHash (s : State) (gid : Nat) (g : Group) : State :=
  let x := s.hashOf gid g
  let r := s.hashSteps x.index x.ngroups g g.hashQ.length
  r.1.setGroup gid r.2

/-- Adds steps to a group's hash when its queue records or replays (R384). -/
def State.addHash (s : State) (gid : Nat) (xs : List HashStep) : State :=
  match s.group? gid with
  | none => s
  | some g =>
    if ((s.launch? g.launch).map Launch.mode).getD 0 = 0 then s
    else s.drainHash gid { g with hashQ := g.hashQ ++ xs }

/-- The old value of an atomic arrives for its hash step (R384). -/
def fillHash (op lane : Nat) (d : W64) : List HashStep → List HashStep
  | [] => []
  | .awaits a o l :: rest => if o = op && l = lane then .datum a d :: rest else .awaits a o l :: fillHash op lane d rest
  | x :: rest => x :: fillHash op lane d rest

/-- A group that has ended keeps its hash until no step of it waits; then the points that it never reached are reported. -/
def State.leaveHash (s : State) (x : HashLeft) : State :=
  let r := s.hashSteps x.index x.ngroups x.g x.g.hashQ.length
  if r.2.hashQ.isEmpty then r.1.missedPoints { x with g := r.2 }
  else { r.1 with hashLeft := r.1.hashLeft ++ [{ x with g := r.2 }] }

/-- Several such groups. -/
def State.leaveHashes (s : State) : List HashLeft → State
  | [] => s
  | x :: xs => State.leaveHashes (s.leaveHash x) xs

/-- The old value of an atomic arrives at its group, which may have ended. -/
def State.arriveHash (s : State) (gid op lane : Nat) (d : W64) : State :=
  let fill (g : Group) : Group := { g with hashQ := fillHash op lane d g.hashQ }
  let s1 := match s.group? gid with
    | none => s
    | some g => if g.hashQ.isEmpty then s else s.drainHash gid (fill g)
  if s1.hashLeft.isEmpty then s1
  else State.leaveHashes { s1 with hashLeft := [] } (s1.hashLeft.map fun (x : HashLeft) => { x with g := fill x.g })

end Sys2Proof.Machine
end

