-- ==== Sys2Proof/Machine/Watch.lean ====
section
/-! DEFINITION. Data watches (R372 to R374) and memory samples (R377) at the issue of a memory instruction. -/

namespace Sys2Proof.Machine

/-- The comparator's kinds (R370). -/
inductive WatchKind
  | load | store | atomic
  deriving DecidableEq, Repr

/-- The code of a kind. -/
def WatchKind.code : WatchKind → Nat
  | .load => 0
  | .store => 1
  | .atomic => 2

/-- A comparator hits n bytes at an address (R370, R372). -/
def Core.watchHits (c : Core) (k : Nat) (kind : WatchKind) (a n : Nat) : Bool :=
  let ctl := NMap.get 0 c.dwc k
  let size := 2 ^ (ctl.extractLsb' 20 4).toNat
  let base := (NMap.get 0 c.dwa k).toNat / size * size
  let kd := (ctl.extractLsb' 2 2).toNat
  ctl.getLsbD 0 && (kd == 3 || kd == kind.code) && decide (a < base + size) && decide (base < a + n)

/-- Adds one to HITS of a comparator (R370). -/
def Core.countHit (c : Core) (k : Nat) : Core :=
  let ctl := NMap.get 0 c.dwc k
  { c with dwc := NMap.set 0 c.dwc k ((ctl.extractLsb' 32 32 + 1) ++ ctl.extractLsb' 0 32) }

/-- The home address of the aligned word that holds a lane's first byte (R373); an address no unit of this model holds,
for an access through a transforming aperture. -/
def State.firstWord (s : State) (v : View) (l : Nat) (a : W64) (n : Nat) : Nat :=
  match s.pieces v l a n .read with
  | .ok ((.snap p, _) :: _) => p / 4 * 4
  | .ok ((.arr p _, _) :: _) => p / 4 * 4
  | _ => 2 ^ 80

/-- The stop of a group at a watched access (R372): the effects of a precise trap without a handler. -/
def State.watchStop (s : State) (c : Ctx) (hits : List (Nat × Nat × W32 × Nat)) : State :=
  let s1 := s.modCore c.core fun x =>
    ((List.range 8).filter fun k => hits.any fun h => h.1 == k).foldl Core.countHit x
  let count (k : Nat) : W32 := (NMap.get 0 (s1.core c.core).dwc k).extractLsb' 32 32
  let save : WatchSave :=
    { seq := c.seq, clause := c.cl, queue := c.g.queue, shadow := c.g.shadow, mid := c.g.mid, midHdr := c.g.midHdr, midQueue := c.g.midQueue,
      midEnd := c.g.midEnd }
  s1.setGroup c.gid
    { c.g with shadow := c.g.queue, queue := [], clause := none, halted := true,
               mid := if c.g.midHdr = c.cl.hdr then c.g.mid ||| c.at_ else c.at_, midHdr := c.cl.hdr,
               midQueue := c.g.queue, midEnd := (c.cl.yld, c.cl.sleep), readySince := none, watchSave := some save,
               watchHit := hits.map fun h => (h.1, h.2.1, h.2.2.1, h.2.2.2, count h.1) }

/-- The watch check of an instruction that raises no fault, over its accesses by lane, address and bytes: a hit stops the
group, else it goes on (R372). A comparator counts one hit, and each lane once. -/
def Ctx.watchedSized (c : Ctx) (kind : WatchKind) (accs : List (Nat × W64 × Nat)) (datum : Nat → W32) (v : View)
    (s : State) (go_ : Effect) : Effect :=
  if c.g.watchExempt then go_
  else
    let core := s.core c.core
    let hits := (List.range 8).flatMap fun k =>
      lanes.filterMap fun l =>
        (accs.find? fun e => e.1 == l && core.watchHits k kind e.2.1.toNat e.2.2).map fun e =>
          (k, l, (if kind = .store then datum l else 0), s.firstWord v l e.2.1 e.2.2)
    if hits.isEmpty then go_ else .stop (s.watchStop c hits)

/-- The watch check of accesses of one size. -/
def Ctx.watchedAll (c : Ctx) (kind : WatchKind) (accs : List (Nat × W64)) (n : Nat) (datum : Nat → W32) (v : View)
    (s : State) (go_ : Effect) : Effect :=
  c.watchedSized kind (accs.map fun e => (e.1, e.2, n)) datum v s go_

/-- The watch check of one access per lane. -/
def Ctx.watched (c : Ctx) (kind : WatchKind) (ls : List Nat) (addr : Nat → W64) (n : Nat) (datum : Nat → W32) (v : View)
    (s : State) (go_ : Effect) : Effect :=
  c.watchedAll kind (ls.map fun l => (l, addr l)) n datum v s go_

-- Predicates (R373)

/-- The value of a predicate's source. -/
def State.predValue (s : State) (g : Group) (hit : Nat × Nat × W32 × Nat × W32) (src idx : Nat) : W32 :=
  match src with
  | 0 => hit.2.2.1
  | 1 => if hit.2.2.2.1 < 2 ^ 80 then s.load32 hit.2.2.2.1 else (Config.peerReply s.tick).setWidth 32
  | 2 => g.vget idx hit.2.1
  | 3 => (g.sget (idx % 32)).setWidth 32
  | 4 => hit.2.2.2.2
  | 5 => BitVec.ofNat 32 hit.2.1
  | 6 => BitVec.ofNat 32 g.gix
  | _ => BitVec.ofNat 32 (((s.block? g.blk).map Block.index).getD 0)

/-- The test of a predicate's step. -/
def predTest (op : Nat) (x k : W32) : Bool :=
  match op with
  | 0 => x == k
  | 1 => x != k
  | 2 => x.ult k
  | 3 => k.ule x
  | 4 => x.slt k
  | _ => k.sle x

/-- A step's second word is malformed (R373). -/
def stepBad (w : W64) : Bool :=
  w.extractLsb' 16 48 != 0 || (w.extractLsb' 0 4).toNat ≥ 8 || (w.extractLsb' 4 3).toNat ≥ 6 ||
    (w.extractLsb' 8 2).toNat ≥ 2

/-- A predicate's words. -/
def Die.pred (d : Die) (p w : Nat) : W64 := NMap.get 0 d.preds (p * 8 + w)

/-- The steps of a predicate that are evaluated: up to and including the first END, or step 3. -/
def Die.predSteps (d : Die) (p : Nat) : List Nat :=
  match (List.range 4).find? fun i => (d.pred p (2 * i + 1)).getLsbD 7 with
  | some i => List.range (i + 1)
  | none => List.range 4

/-- A predicate is malformed when one of its four steps is (R373). -/
def Die.predBad (d : Die) (p : Nat) : Bool := (List.range 4).any fun i => stepBad (d.pred p (2 * i + 1))

/-- One step's truth joined to the result so far. -/
def State.predStep (s : State) (g : Group) (hit : Nat × Nat × W32 × Nat × W32) (d : Die) (p : Nat) (acc : Bool) (i : Nat) : Bool :=
  let w0 := d.pred p (2 * i)
  let w1 := d.pred p (2 * i + 1)
  let x := s.predValue g hit (w1.extractLsb' 0 4).toNat (w1.extractLsb' 10 6).toNat &&& w0.extractLsb' 0 32
  let t := predTest (w1.extractLsb' 4 3).toNat x (w0.extractLsb' 32 32)
  if i = 0 then t else if w1.extractLsb' 8 2 = 0 then acc && t else acc || t

/-- The evaluation of a hit's predicate; a malformed one is true (R373). -/
def State.predTrue (s : State) (g : Group) (hit : Nat × Nat × W32 × Nat × W32) : Bool :=
  let d := s.die (dieOf g.core)
  let p := ((NMap.get 0 (s.core g.core).dwc hit.1).extractLsb' 24 8).toNat
  d.predBad p || (d.predSteps p).foldl (s.predStep g hit d p) false

/-- The resume of a halted group (R374): as rtt moves the shadow back. -/
def Group.resumeHalt (g : Group) : Group :=
  { g with halted := false, queue := [], shadow := [], midQueue := g.shadow, watchHit := [], watchSave := none }

/-- The resume of a group whose predicates are all false (R372): it goes on as it stood, with the watch suppressed once. -/
def Group.unwatch (g : Group) (w : WatchSave) : Group :=
  { g with halted := false, clause := some w.clause, queue := w.queue, shadow := w.shadow, mid := w.mid, midHdr := w.midHdr,
           midQueue := w.midQueue, midEnd := w.midEnd, watchHit := [], watchSave := none, watchExempt := true,
           bpExempt := true }

/-- The site of the word at which a watch stopped a group (R366). -/
def State.watchSite (s : State) (g : Group) : Site :=
  match g.watchSave with
  | some w => { s.siteOf g w.clause.pc with seq := w.seq }
  | none => s.lastSite g

/-- PREDICATE_RESULT (R372): a group stopped by a watch resumes when every predicate is false, and stays halted with a type-6
record otherwise: the site, the comparator mask, the lanes, whether a predicate was malformed, and for each comparator the lanes
for which its predicate is true (R369). -/
def execPredicateResult (gid : Nat) (s : State) : Result :=
  .next (match s.group? gid with
    | none => s
    | some g =>
      if g.watchHit.isEmpty then s
      else
        let core := s.core g.core
        let pred (h : Nat × Nat × W32 × Nat × W32) : Bool := (NMap.get 0 core.dwc h.1).getLsbD 1
        match g.watchSave, g.watchHit.all fun h => pred h && !s.predTrue g h with
        | some w, true => s.setGroup gid (g.unwatch w)
        | _, _ =>
          let mask := g.watchHit.foldl (fun m h => m ||| 2 ^ h.1) 0
          let ls := maskOf fun l => g.watchHit.any fun h => h.2.1 == l
          let bad := g.watchHit.any fun h =>
            pred h && (s.die (dieOf g.core)).predBad ((NMap.get 0 core.dwc h.1).extractLsb' 24 8).toNat
          (s.setGroup gid { g with watchHit := [] }).recordFree (dieOf g.core) 6
            ((s.watchSite g).words ++ [BitVec.ofNat 64 mask, ls.setWidth 64, if bad then 1 else 0] ++
              (List.range 8).map fun k => (maskOf fun l => g.watchHit.any fun h =>
                h.1 == k && h.2.1 == l && pred h && s.predTrue g h).setWidth 64))

-- Memory samples (R377)

/-- The space code of a sample. -/
def spaceCode : Option Space → Nat
  | some .vault => 1
  | some .cl => 2
  | some .tile => 3
  | some .priv => 4
  | _ => 0

/-- Distinct values of a list. -/
def distinct (xs : List Nat) : List Nat := xs.foldr (fun x acc => if acc.contains x then acc else x :: acc) []

/-- The numbers of the n-byte blocks of bytes a to a + k - 1. -/
def blocksOf (n a k : Nat) : List Nat := (List.range ((a + Nat.max k 1 - 1) / n + 1 - a / n)).map fun i => a / n + i

/-- The sectors of n bytes at a lane's address, of its snapshot space's backing or of its own space (R165, R168). -/
def View.sectors (v : View) (l : Nat) (a : W64) (n : Nat) : List Nat :=
  if spaceOf a = some .priv then
    (List.range ((n + 3) / 4)).map fun i => v.backing l (a.toNat % 2 ^ 56 + 4 * i) / 32
  else blocksOf 32 a.toNat n

/-- The address is of a snapshot space (R158). -/
def snapAddr (a : W64) : Bool := spaceOf a == some .dev || spaceOf a == some .priv

/-- The address goes to the core's own tile port (R274). -/
def View.ownTile (v : View) (a : W64) : Bool :=
  spaceOf a == some .tile || (spaceOf a == some .cl && a.toNat % 2 ^ 28 / 2 ^ 20 == v.blk.rank)

/-- The byte of the core's tile memory that an own-tile address names, in either space (R158, R273). -/
def View.ownByte (v : View) (a : W64) : Nat :=
  if spaceOf a = some .tile then a.toNat % 2 ^ 19 else v.blk.res + a.toNat % 2 ^ 20

/-- The requests of some accesses, by lane, address and bytes (R168): one for each line of a snapshot space, one for each
destination and 64-byte line of remote tile memory and the vaults, one for each bank pass of own tile memory (R169). -/
def View.requests (v : View) (accs : List (Nat × W64 × Nat)) (passes : Nat) : Nat :=
  (distinct ((accs.filter fun e => snapAddr e.2.1).flatMap fun e => (v.sectors e.1 e.2.1 e.2.2).map fun k => k / 4)).length +
    (distinct ((accs.filter fun e => !snapAddr e.2.1 && !v.ownTile e.2.1).flatMap fun e =>
      blocksOf 64 e.2.1.toNat e.2.2)).length + passes

/-- Tile bank passes (R169): the largest number of distinct words in one bank. -/
def View.bankPasses (v : View) (accs : List (Nat × W64 × Nat)) : Nat :=
  let words := distinct ((accs.filter fun e => v.ownTile e.2.1).flatMap fun e => blocksOf 4 (v.ownByte e.2.1) e.2.2)
  (List.range 32).foldl (fun m b => Nat.max m (words.filter fun w => w % 32 == b).length) 0

/-- Words 0 to 2 of a memory sample (R377). The replays of a full miss queue and the lane that ended last are timing
(log entry 3). -/
def State.sampleWords (s : State) (c : Ctx) (v : View) (accs : List (Nat × W64 × Nat)) : List W64 :=
  let x := s.siteOf c.g c.cl.pc
  let sp := spaceOf ((accs.map fun e => e.2.1).headD 0)
  let secs := distinct (accs.flatMap fun e =>
    (v.sectors e.1 e.2.1 e.2.2).map fun k => 2 * k + if snapAddr e.2.1 then 1 else 0)
  let passes := v.bankPasses accs
  let m := Config.measured s.tick 0
  [x.pc, x.sample1 (spaceCode sp * 2 ^ 13),
   BitVec.ofNat 64 (c.em.toNat * 2 ^ 32 + secs.length % 256 * 2 ^ 24 + v.requests accs passes % 256 * 2 ^ 16 +
     (passes - 1 + m.toNat) % 256 * 2 ^ 8 + (Config.measured s.tick 1).toNat % 32)]

/-- A memory-class instruction issues: one in 2^n is sampled (R377). The operation is the asynchronous one whose completion
ends the sample. -/
def State.countAccs (s : State) (c : Ctx) (v : View) (accs : List (Nat × W64 × Nat)) (op : Nat) : State :=
  match (s.die (dieOf c.core)).memRate with
  | none => s
  | some r =>
    let k := (s.core c.core).memCount + 1
    if k % 2 ^ r != 0 then s.modCore c.core fun x => { x with memCount := k }
    else
      let ws := s.sampleWords c v accs
      s.modCore c.core fun x => { x with memCount := 0, samples := x.samples ++ [(op, ws, (s.siteOf c.g c.cl.pc).words)] }

/-- The same of some lanes' accesses of n bytes. -/
def State.countMem (s : State) (c : Ctx) (v : View) (ls : List Nat) (addr : Nat → W64) (n op : Nat) : State :=
  s.countAccs c v (ls.map fun l => (l, addr l, n)) op

/-- MEMORY_SAMPLE (R377): the record of the oldest sampled instruction that has completed. The times it reports are free
(log entry 3). -/
def execMemorySample (core : Nat) (s : State) : Result :=
  .next (match (s.core core).samples.find? fun e => s.asyncs.all fun a => a.id != e.1 with
    | none => s
    | some e =>
      (s.modCore core fun x => { x with samples := x.samples.erase e }).recordAt (dieOf core) 2
        (e.2.1 ++ [Config.measured s.tick 2, (Config.measured s.tick 3).setWidth 32 |>.setWidth 64,
                   (Config.measured s.tick 4).setWidth 32 |>.setWidth 64]) e.2.2)

end Sys2Proof.Machine
end

