-- ==== Sys2Proof/Machine/Access.lean ====
section
/-! DEFINITION. The accesses of an instruction: how they are gathered at issue (R168, R173), and how each is performed at
its array (R171, R184 to R188, R274, R279, R286 to R290, R383). -/

namespace Sys2Proof.Machine

-- Values

/-- n bytes of a value as elements of a lane's registers (R176). -/
def laneElems (lane reg n : Nat) (sx : Bool) (x : Nat) : List (Nat × W32) :=
  if n < 4 then [(reg * 32 + lane, if sx then sext (8 * n) 32 x else BitVec.ofNat 32 (x % 2 ^ (8 * n)))]
  else (List.range (n / 4)).map fun i => ((reg + i) * 32 + lane, BitVec.ofNat 32 (x / 2 ^ (32 * i)))

/-- n bytes of a value in a scalar register (R177). -/
def scalarValue (n : Nat) (sx : Bool) (x : Nat) : W64 := if sx then sext (8 * n) 64 x else BitVec.ofNat 64 (x % 2 ^ (8 * n))

/-- A value that arrives for an operation is added to what it will write. -/
def AsyncOp.deliver (a : AsyncOp) (dst : Dst) (x : Nat) : AsyncOp :=
  match dst with
  | .none => a
  | .v l r n sx => { a with vw := a.vw ++ laneElems l r n sx x }
  | .s r n sx => { a with sw := a.sw ++ [(r, scalarValue n sx x)] }
  | .w w h => { a with ww := a.ww ++ [(w, h, BitVec.ofNat 256 x)] }
  | .raw k => { a with raw := a.raw ++ [(k, x)] }

/-- A value arrives for an operation in flight. -/
def State.deliver (s : State) (op : Nat) (dst : Dst) (x : Nat) : State :=
  { s with asyncs := s.asyncs.map fun a => if a.id = op then a.deliver dst x else a }

/-- The new value of an atom (R185). -/
def atomNew (op : AtomOp) (old x : W32) : W32 :=
  match op with
  | .add => old + x
  | .sub => old - x
  | .min => if old.slt x then old else x
  | .max => if x.slt old then old else x
  | .and => old &&& x
  | .or => old ||| x
  | .xor => old ^^^ x
  | .xchg => x

/-- The new value of a fatom (R29, R187). -/
def fatomNew (op : FatomOp) (old x : W32) : W32 :=
  match op with
  | .add => fp32Add old x
  | .min => BitVec.ofNat 32 (fp32.minmax false false old.toNat x.toNat).1
  | .max => BitVec.ofNat 32 (fp32.minmax true false old.toNat x.toNat).1

/-- An identifier names something still in flight. -/
def State.inFlight (s : State) (id : Nat) : Bool :=
  s.reqs.any (fun r => r.id == id) || s.wbs.any (fun w => w.id == id) || s.pubs.any (fun p => p.id == id) ||
    s.contribs.any (fun k => k.owners.any fun o => o.id == id) || s.prims.any (fun p => p.id == id) ||
    s.dies.any fun d => d.2.apWrites.any fun w => w.id == id

-- Plane elements (R179, R298)

/-- The float format of a record's element format code; scaled formats give their elements' format. -/
def layFmt : Nat → Option Fmt
  | 0 => some bf16
  | 1 => some fp16
  | 2 => some e4m3
  | 3 => some e5m2
  | 4 => some e4m3
  | 5 => some e5m2
  | 6 => some e2m1
  | 11 => some fp32
  | 12 => some e2m1
  | 17 => some e4m3
  | 18 => some e5m2
  | 19 => some e2m1
  | _ => none

/-- Sign and width of an integer format code. -/
def layInt : Nat → Option (Bool × Nat)
  | 7 => some (true, 8)
  | 8 => some (false, 8)
  | 13 => some (true, 16)
  | 14 => some (false, 16)
  | 15 => some (true, 32)
  | 16 => some (false, 32)
  | _ => none

/-- An element of a format read from its bytes: nibble hi of a byte for the 4-bit formats (R20). -/
def pickElem (fmt : Nat) (hi : Bool) (x : Nat) : Nat :=
  if fmt = 6 || fmt = 12 || fmt = 19 then (if hi then x / 16 % 16 else x % 16) else x

/-- Exact(scale) × Exact(element) of a scaled format (R19, R21). -/
def scaledVal (f : Fmt) (scale code : Nat) : Exact × FpFlags := exactMul (e5m3.dec scale) (f.dec code)

/-- Widen (R179): the 32-bit value of an element and the flags of its conversion. -/
def widenElem (fmt : Nat) (scale : Option Nat) (code : Nat) : W32 × FpFlags :=
  match layInt fmt with
  | some (sg, w) => (if sg then sext w 32 code else BitVec.ofNat 32 code, 0)
  | none =>
    match layFmt fmt, scale with
    | some f, some c =>
      let x := scaledVal f c code
      let r := fp32.deliver .rn false x.1
      (BitVec.ofNat 32 r.1, x.2 ||| r.2)
    | some f, none => let r := f.convert fp32 .rn false code; (BitVec.ofNat 32 r.1, r.2)
    | none, _ => (0, 0)

/-- Narrow (R179): the element code of a 32-bit value and the flags of its conversion. -/
def narrowElem (fmt : Nat) (x : W32) : Nat × FpFlags :=
  match layInt fmt with
  | some (sg, w) => (fit sg true w (if sg then x.toInt else (x.toNat : Int)), 0)
  | none =>
    match layFmt fmt with
    | some f => fp32.convert f .rn true x.toNat
    | none => (0, 0)

/-- Flags are raised in a group that still holds the grant (R37, R132). -/
def State.raise (s : State) (gid : Nat) (tag : BitVec 4) (fl : FpFlags) : State :=
  s.modGroup gid fun g => if g.tag = tag then g.orFlags fl else g

/-- The keys of a lane's element and scale among the values that arrive for ldp (R179). -/
def planeKey (lane : Nat) (scale : Bool) : Nat := 2 * lane + if scale then 1 else 0

-- Performing one access

/-- The lane a destination names, for the store hash. -/
def Dst.lane : Dst → Nat
  | .v l _ _ _ => l
  | _ => 0

/-- A counter addition at its home: it saturates and kills on overflow (R288). -/
def State.addCounter (s : State) (a : Nat) (x : W64) (va : W64) (launch : Nat) (site : Site) : State :=
  let old := s.load64 a
  if old.toNat + x.toNat ≥ 2 ^ 64 then
    (s.store64 a 0xFFFFFFFFFFFFFFFF).killLaunch launch 0x33 va site
  else s.store64 a (old + x)

/-- An old value is returned: to the destination, and to the store hash. -/
def State.giveOld (s : State) (r : Req) (dst : Dst) (old : W32) : State :=
  if r.op = 0 then s
  else (s.deliver r.op dst old.toNat).arriveHash r.gid r.op dst.lane (old.setWidth 64)

/-- One access is performed at its array, indivisibly (R173, R184). -/
def State.performAt (s : State) (r : Req) (a : Access) : State :=
  match a with
  | .ld addr n dst => s.deliver r.op dst (s.loadN addr n)
  | .st addr bs => s.storeBytes addr bs
  | .nib addr hi x =>
    let old := BitVec.ofNat 8 (s.loadN addr 1)
    s.storeBytes addr [if hi then x ++ old.extractLsb' 0 4 else old.extractLsb' 4 4 ++ x]
  | .atom addr op x dst =>
    let old := s.load32 addr
    (s.store32 addr (atomNew op old x)).giveOld r dst old
  | .cas addr b c dst =>
    let old := s.load32 addr
    (if old = b then s.store32 addr c else s).giveOld r dst old
  | .fatom addr op x dst =>
    let old := s.load32 addr
    (s.store32 addr (fatomNew op old x)).giveOld r dst old
  | .ctrAdd addr x va =>
    if r.ident.extractLsb' 62 2 = 3 then s.store64 addr (s.load64 addr + x) else s.addCounter addr x va r.launch r.site
  | .ctrRd addr dst => s.deliver r.op dst (s.loadN addr 8)

/-- The address an access goes to. -/
def Access.addr : Access → Nat
  | .ld a _ _ => a
  | .st a _ => a
  | .nib a _ _ => a
  | .atom a _ _ _ => a
  | .cas a _ _ _ => a
  | .fatom a _ _ _ => a
  | .ctrAdd a _ _ => a
  | .ctrRd a _ => a

/-- The bytes it touches. -/
def Access.size : Access → Nat
  | .ld _ n _ => n
  | .st _ bs => bs.length
  | .nib _ _ _ => 1
  | .ctrAdd _ _ _ => 8
  | .ctrRd _ _ => 8
  | _ => 4

/-- Two accesses touch a byte in common. -/
def Access.meets (a b : Access) : Bool := decide (a.addr < b.addr + b.size) && decide (b.addr < a.addr + a.size)

/-- The operation is logged (R380). -/
def Access.logged : Access → Bool
  | .atom _ _ _ _ => true
  | .cas _ _ _ _ => true
  | .fatom _ _ _ _ => true
  | .ctrAdd _ _ _ => true
  | _ => false

/-- The access waits for an acknowledgement when it is remote (R279). -/
def Access.isStore : Access → Bool
  | .st _ _ => true
  | .nib _ _ _ => true
  | _ => false

/-- The access is a store or an atomic (R155, R282). -/
def Access.updates : Access → Bool
  | .st _ _ => true
  | .nib _ _ _ => true
  | .atom _ _ _ _ => true
  | .cas _ _ _ _ => true
  | .fatom _ _ _ _ => true
  | _ => false

/-- One access is performed. A core's access to a snapshot space that followed an atomic acts on its L1 as well: a load as any
load does, a store as a `.byp` store, and an atomic finds its sector written back and gone (R163, R189). -/
def State.perform (s : State) (r : Req) (a : Access) : State :=
  if !r.snap || r.core ≥ 8192 then s.performAt r a
  else
    let line := a.addr / 128
    let through (n x : Nat) : State := (s.l1Store r.core r.launch r.site .byp a.addr n x).beforeHit r.core line
    match a with
    | .ld addr n dst => let x := s.l1Load r.core r.pol addr n; x.2.deliver r.op dst x.1
    | .st _ bs => through bs.length (bytesNat bs)
    | .nib addr hi x =>
      let old := (s.l1Load r.core .byp addr 1).1
      through 1 (if hi then x.toNat * 16 + old % 16 else old / 16 * 16 + x.toNat)
    | .ctrRd _ _ => s.performAt r a
    | _ => ((s.purgeSector r.core r.launch a.addr).beforeRead r.core line).performAt r a

/-- Who asks at a slice for a request's atomic or counter access (R376): a core, or for a job the engine that runs it. -/
def State.reqWho (s : State) (r : Req) : Nat × Nat :=
  if r.core < 8192 then coreWho 2 r.core
  else if r.ident.extractLsb' 62 2 = 1 then
    (3, clusterOf (r.core % 8192) % 2 * 8 +
      ((((s.copies.find? fun j => j.id == r.core / 8192 - 1).bind CopyJob.engine).getD 0)))
  else (if r.ident.extractLsb' 62 2 = 2 then 4 else 10, 0)

/-- A request's atomic or counter access at its slice (R376). -/
def State.reqSeen (s : State) (r : Req) (a : Access) : State :=
  match a with
  | .ctrRd addr _ => s.l2See addr 8 false (s.reqWho r) (dieOf (r.core % 8192))
  | a => if a.logged then s.l2See a.addr a.size true (s.reqWho r) (dieOf (r.core % 8192)) else s

/-- Changes a request in place. -/
def State.modReq (s : State) (id : Nat) (f : Req → Req) : State :=
  { s with reqs := s.reqs.map fun r => if r.id = id then f r else r }

/-- A request whose accesses are all performed leaves, unless it is a remote store, which waits for its
acknowledgement. -/
def State.reqDone (s : State) (id : Nat) : State :=
  { s with reqs := s.reqs.filter fun r => r.id != id || !r.todo.isEmpty || r.acked }

/-- The first access of a request is performed and leaves the request. -/
def State.performHead (s : State) (r : Req) : State :=
  match r.todo with
  | [] => s
  | a :: rest =>
    let wait := !r.own && !r.snap && a.isStore
    (((s.modReq r.id fun x => { x with todo := rest, acked := x.acked || wait, arrived := none }).reqSeen r a).perform r a).reqDone r.id

/-- The first access passes the order gate of its home and is performed (R380, R383); a held one notes when it arrived. -/
def State.gated (s : State) (r : Req) : State :=
  match r.todo, s.launch? r.launch with
  | a :: _, some la =>
    if !a.logged || la.mode = 0 then s.performHead r
    else
      let home := s.homeOf a.addr
      let die := dieOf (r.core % 8192)
      if la.mode = 1 then (s.logOp r.launch la die home r.ident false).performHead r
      else match s.gate r.launch la home r.ident with
        | .open_ _ => (s.consume r.launch la home).performHead r
        | .hold => s.modReq r.id fun x => { x with arrived := some (x.arrived.getD s.now) }
        | .diverge n => (s.diverge r.launch die home r.ident n r.site).performHead r
  | _, _ => s.performHead r

/-- The tile line of an address has its presence bit set (R170); other arrays have none. -/
def State.present (s : State) (a : Nat) : Bool :=
  match arrayAt a with
  | .tile c => !NMap.has (s.core c).absent ((a - 2 ^ 49) % 2 ^ 19 / 64)
  | _ => true

/-- The request of a number. -/
def State.req? (s : State) (id : Nat) : Option Req := s.reqs.find? fun r => r.id == id

/-- An own-tile or remote access of the group to the array waits on an absent line, at or before a request: other groups'
accesses pass it (R171, R274). -/
def State.stuck (s : State) (x : Req) : Bool :=
  s.reqs.any fun y => decide (y.id ≤ x.id) && y.core == x.core && y.gid == x.gid && y.arr == x.arr && !y.snap &&
    (match y.todo with
      | a :: _ => !s.present a.addr
      | [] => false)

/-- A request waits where the accesses of other groups pass it: on an absent line (R171), or at the order gate (R383). -/
def State.aside (s : State) (x : Req) : Bool := x.arrived.isSome || s.stuck x

/-- An earlier request of the source is performed before an access of another: at an array the source's order holds (R274,
R279), in snapshot spaces accesses to one sector keep it (R163, R188, R189), and requests to one peer do as a whole (R422). A
request that waits on an absent line or at the order gate holds its own group's alone (R171, R383). -/
def State.goesBefore (s : State) (x r : Req) (a : Access) : Bool :=
  decide (x.id < r.id) && !x.todo.isEmpty && x.arr == r.arr && x.core == r.core && x.snap == r.snap &&
    (x.gid == r.gid || !s.aside x) &&
    (!r.snap || (decide (r.arr ≥ 2 ^ 20) && x.arrived.isNone) || x.todo.any fun y => y.addr / 32 == a.addr / 32)

/-- The counter addition that leaves after the publish (R288). -/
def Publish.added (p : Publish) : Option Req :=
  match p.after with
  | .ctrAdd r => some r
  | .ctrAddL1 r _ _ => some r
  | _ => none

/-- The request is a group's, to a tile memory. -/
def Req.atTile (r : Req) (gid : Nat) : Bool := r.gid == gid && decide (4096 ≤ r.arr) && decide (r.arr < 2 ^ 20)

/-- The group's earlier accesses to tile memories on their way, with its counter additions that wait for a publish (R155, R303,
R413). -/
def State.tileReqsOf (s : State) (gid : Nat) : List Nat :=
  (s.reqs.filter fun r => r.atTile gid).map Req.id ++
    (s.pubs.filter fun p => p.added.any fun r => r.atTile gid).map Publish.id

/-- An own or cluster tile access of the group waits to be performed (R195). -/
def State.tileWaiting (s : State) (gid : Nat) : Bool :=
  (s.reqs.any fun r => r.atTile gid && !r.todo.isEmpty) || s.pubs.any fun p => p.added.any fun r => r.atTile gid

/-- A publish waits for a request that waits so. -/
def State.pubAside (s : State) (p : Publish) : Bool := p.reqs.any fun i => (s.req? i).any s.aside

/-- A counter addition that waits for a publish goes before a later access of its core to its array, or in snapshot spaces to
its sector (R279, R288); what the publish waits for on an absent line holds its own group's alone (R171). -/
def State.addsBefore (s : State) (p : Publish) (r : Req) (a : Access) : Bool :=
  p.core == r.core && decide (p.id < r.id) &&
    (match p.after with
      | .ctrAdd x => !r.snap && x.arr == r.arr && (p.gid == r.gid || !s.pubAside p)
      | .ctrAddL1 x _ _ => r.snap && x.todo.any fun y => y.addr / 32 == a.addr / 32
      | _ => false)

/-- The write-back reaches the home before an access of a core that leaves under an identifier: the core's own earlier ones to
the line or to its peer, and those to the line's home that an egress queue on its way had accepted (R163, R282, R422). -/
def State.wbLeads (s : State) (w : WriteBack) (core id line : Nat) : Bool :=
  (w.core == core && decide (w.id < id) && samePath w.line line) ||
    (s.sameHome (w.line * 128) (line * 128) &&
      ((queuedBefore w.acc1 0 id && clusterOf w.core == clusterOf (core % 8192)) ||
        (queuedBefore w.acc2 0 id && dieOf w.core == dieOf (core % 8192)) || queuedBefore w.acc3 0 id))

/-- The request's first access may be performed now, as far as order and presence go (R163, R171, R188, R189, R274, R279,
R282, R422). -/
def State.reqReady (s : State) (r : Req) : Bool :=
  match r.todo with
  | [] => false
  | a :: _ =>
    s.present a.addr && !s.peerDown a.addr &&
      (!r.snap || s.wbs.all fun w => !s.wbLeads w r.core r.id (a.addr / 128)) &&
      (s.reqs.all fun x => !s.goesBefore x r a) && s.pubs.all fun p => !s.addsBefore p r a

/-- The core's accesses to a 32-byte sector of snapshot space that are still on their way, and its counter additions that
wait for a publish (R189, R288): its later accesses to the sector are made at the home, behind them. -/
def State.sectorBusy (s : State) (core pa : Nat) : Bool :=
  (s.reqs.any fun r => r.core == core && r.snap && r.todo.any fun a => a.addr / 32 == pa / 32) ||
    s.pubs.any fun p => p.core == core && (match p.after with
      | .ctrAddL1 r _ _ => r.todo.any fun a => a.addr / 32 == pa / 32
      | _ => false)

/-- Accesses of the core to an arrival-space array that left before a number are on their way, or wait for a publish: a group's
later access there waits (R171, R279). -/
def State.arrayBusy (s : State) (core gid before a : Nat) : Bool :=
  (s.reqs.any fun r => decide (r.id < before) && !r.todo.isEmpty && r.core == core && !r.snap && r.arr == arrayOf a &&
      (r.gid == gid || !s.aside r)) ||
    s.pubs.any fun p => decide (p.id < before) && p.core == core && (match p.after with
      | .ctrAdd x => x.arr == arrayOf a && (p.gid == gid || !s.pubAside p)
      | _ => false)

/-- Requests of the core to a peer package are on their way, and its later ones go behind them (R422). -/
def State.peerBusy (s : State) (core pa : Nat) : Bool :=
  decide (arrayOf pa ≥ 2 ^ 20) && s.reqs.any fun r => r.core == core && r.arr == arrayOf pa && !r.todo.isEmpty && r.arrived.isNone

/-- TILE_ACCESS_PERFORMED (R171): the group's oldest own-tile access, when its line is present. -/
def execTileAccessPerformed (gid : Nat) (s : State) : Result :=
  .next (match s.reqs.find? fun r => r.own && r.gid == gid && !r.todo.isEmpty with
    | none => s
    | some r => if s.reqReady r then s.gated r else s)

/-- A request that goes to a counter first. -/
def Req.counterFirst (r : Req) : Bool :=
  match r.todo with
  | .ctrAdd _ _ _ :: _ => true
  | _ => false

/-- ATOMIC_AT_HOME (R184, R188): an access to a word at its device home is performed in arrival order. -/
def execAtomicAtHome (req : Nat) (s : State) : Result :=
  .next (match s.req? req with
    | none => s
    | some r =>
      if !r.own && !(decide (64 ≤ r.arr) && decide (r.arr < 2 ^ 20)) && !r.counterFirst && s.reqReady r then s.gated r
      else s)

/-- REMOTE_ACCESS (R274, R279): an access arrives at a remote core's banks or a vault and is performed there. -/
def execRemoteAccess (req : Nat) (s : State) : Result :=
  .next (match s.req? req with
    | none => s
    | some r =>
      if !r.own && decide (64 ≤ r.arr) && decide (r.arr < 2 ^ 20) && !r.counterFirst && s.reqReady r then s.gated r else s)

/-- STORE_ACK (R279): the acknowledgement of a store that is performed reaches its source. -/
def execStoreAck (req : Nat) (s : State) : Result :=
  .next { s with reqs := s.reqs.filter fun r => r.id != req || !r.todo.isEmpty || !r.acked }

/-- COUNTER_ADDITION_AT_HOME (R286, R288). -/
def execCounterAdditionAtHome (req : Nat) (s : State) : Result :=
  .next (match s.req? req with
    | none => s
    | some r => if r.counterFirst && s.reqReady r then s.gated r else s)

/-- ORDER_GATE (R383): a held operation that its stream's entry names now is performed. -/
def execOrderGate (req : Nat) (s : State) : Result :=
  .next (match s.req? req with
    | none => s
    | some r => if r.arrived.isSome && s.reqReady r then s.gated r else s)

/-- A write-back may be performed at its home now. -/
def State.wbReady (s : State) (w : WriteBack) : Bool :=
  !s.peerDown (w.line * 128) && (s.wbs.all fun x => x.id == w.id || !s.wbAhead x w) &&
    (decide (arrayOf (w.line * 128) < 2 ^ 20) || s.reqs.all fun r =>
      r.core != w.core || r.arr != arrayOf (w.line * 128) || r.todo.isEmpty || r.arrived.isSome || decide (w.id < r.id))

/-- WRITE_BACK_AT_HOME (R161, R163, R282, R422): a write-back is performed, after those that come before it. -/
def execWriteBackAtHome (wb : Nat) (s : State) : Result :=
  .next (match s.wbs.find? fun w => w.id == wb with
    | none => s
    | some w => if s.wbReady w then s.performWb w else s)

end Sys2Proof.Machine
end

