-- ==== Sys2Proof/Machine/Aperture.lean ====
section
/-! DEFINITION. Accesses at a die's aperture port (R336 to R339): transpose, format view, compressed tiles. -/

namespace Sys2Proof.Machine

/-- The aperture m of a die. -/
def State.aperture (s : State) (die m : Nat) : Aperture := NMap.get freshAperture (s.die die).apertures m

/-- Home address of a byte of a transposed view (R336). -/
def transposed (die : Nat) (a : Aperture) (o : Nat) : Nat :=
  let e := 2 ^ Apert.esz a
  let k := o / e
  let vr := k / Apert.rows a
  let vc := k % Apert.rows a
  Apert.phys die a ((vc * Apert.cols a + vr) * e + o % e)

/-- The element format of a format view (R335). -/
def viewFmt (a : Aperture) : Fmt :=
  match Apert.efmt a with
  | 0 => bf16
  | 1 => fp16
  | 2 => e4m3
  | _ => e5m2

/-- Bytes of an element of a format view. -/
def viewBytes (a : Aperture) : Nat := if Apert.efmt a < 2 then 2 else 1

-- Compressed tiles (R338, R339)

/-- Tiles of a compressed aperture. -/
def tilesOf (a : Aperture) : Nat := (a.size.extractLsb' 0 40).toNat * 16

/-- Home address of a tile's entry. -/
def entryAddr (die : Nat) (a : Aperture) (t : Nat) : Nat := Apert.phys die a (8 * t)

/-- Home address of a slot: the slot array starts at the next 4 KiB boundary after the table. -/
def slotAddr (die : Nat) (a : Aperture) (k : Nat) : Nat :=
  Apert.phys die a ((8 * tilesOf a + 4095) / 4096 * 4096 + 4096 * k)

/-- The number of set bits of a mask below a sector. -/
def rankBelow (m : Nat) (q : Nat) : Nat := ((List.range q).filter fun i => m.testBit i).length

/-- The 4096 bytes of a tile (R338). -/
def State.expandTile (s : State) (die : Nat) (a : Aperture) (t : Nat) : List Byte :=
  let e := s.load64 (entryAddr die a t)
  let clen := (e.extractLsb' 48 8).toNat
  let slot := slotAddr die a (e.extractLsb' 0 32).toNat
  if clen = 0 then List.replicate 4096 0
  else if clen ≥ 128 then s.homeBytes slot 4096
  else
    let m := s.loadN slot 16
    (List.range 128).flatMap fun q =>
      if m.testBit q then s.homeBytes (slot + 32 * (rankBelow m q + 1)) 32 else List.replicate 32 0

/-- The sectors of a tile that are not zero. -/
def liveSectors (x : List Byte) : List Nat :=
  (List.range 128).filter fun q => (x.drop (32 * q) |>.take 32).any (· != 0)

/-- The stored form of a tile: CLEN and the slot's bytes (R338). -/
def compressTile (x : List Byte) : Nat × List Byte :=
  let qs := liveSectors x
  let z := qs.length
  if z = 0 then (0, [])
  else if z ≥ 127 then (128, x)
  else
    (z + 1, natBytes (qs.foldl (fun m q => m + 2 ^ q) 0) 16 ++ List.replicate 16 0 ++
      qs.flatMap fun q => x.drop (32 * q) |>.take 32)

/-- Slots that no entry names (R339). -/
def State.freeSlots (s : State) (die : Nat) (a : Aperture) : List Nat :=
  let used := (List.range (tilesOf a)).map fun t => ((s.load64 (entryAddr die a t)).extractLsb' 0 32).toNat
  (List.range (tilesOf a + 16)).filter fun k => !used.contains k

/-- Merges bytes into a tile at an offset. -/
def mergeBytes (x : List Byte) (off : Nat) (bs : List Byte) : List Byte :=
  x.take off ++ bs ++ x.drop (off + bs.length)

/-- A write of a compressed tile (R339): into a free slot, then the entry's swap. -/
def State.tileWriteAt (s : State) (die : Nat) (a : Aperture) (off : Nat) (bs : List Byte) : State :=
  let t := off / 4096
  let c := compressTile (mergeBytes (s.expandTile die a t) (off % 4096) bs)
  let p := s.pick (s.freeSlots die a).length
  let k := (s.freeSlots die a).getD p.1 0
  (p.2.storeBytes (slotAddr die a k) c.2).store64 (entryAddr die a t) (BitVec.ofNat 64 (c.1 * 2 ^ 48 + k))

/-- Performs the pending aperture writes of a list. -/
def State.performApWrites (s : State) (die : Nat) : List ApWrite → State
  | [] => s
  | w :: ws =>
    State.performApWrites ((s.tileWriteAt die (s.aperture die w.ap) w.off w.data).modDie die fun d =>
      { d with apWrites := d.apWrites.filter fun x => x.id != w.id }) die ws

/-- TILE_WRITE (R339): the oldest write that waits at an aperture. -/
def execTileWrite (die ap : Nat) (s : State) : Result :=
  .next (match (s.die die).apWrites.find? fun w => w.ap == ap with
    | none => s
    | some w => s.performApWrites die [w])

/-- The home as a core's read at the port finds it: write-backs of the lines come first (R337). -/
def State.beforePort (s : State) (core a n : Nat) : State :=
  if a / 128 = (a + n - 1) / 128 then s.beforeRead core (a / 128)
  else (s.beforeRead core (a / 128)).beforeRead core ((a + n - 1) / 128)

/-- The addresses of device memory that an access at the port reaches first: the tile's entry, or the bytes of the range
itself (R336, R338). -/
def State.portReach (s : State) (die m off n : Nat) : List Nat :=
  let a := s.aperture die m
  match Apert.xf a with
  | 1 => [entryAddr die a (off / 4096)]
  | 2 => (List.range n).map fun i => transposed die a (off + i)
  | _ => (List.range (viewBytes a)).map fun i => Apert.phys die a (off / 4 * viewBytes a + i)

/-- An access at the port reaches the L2 slices (R376). -/
def State.portSeen (s : State) (core m off n : Nat) (write : Bool) (who : Nat × Nat) : State :=
  match (s.portReach (dieOf core) m off n).find? fun a => decide (a < 2 ^ 48) && s.l2n != 0 && s.l2Sees a write with
  | none => s
  | some a => s.l2See a 1 write who (dieOf core)

/-- Reads n bytes at scattered home addresses. -/
def State.gatherBytes (s : State) (core : Nat) : List Nat → List Byte × State
  | [] => ([], s)
  | a :: as =>
    let s1 := s.beforePort core a 1
    let r := State.gatherBytes s1 core as
    (Memory.read s1.mem a :: r.1, r.2)

/-- A load of n bytes at the port (R336, R339). -/
def State.portLoad (s : State) (core m off n : Nat) : Nat × State :=
  let die := dieOf core
  let a := s.aperture die m
  match Apert.xf a with
  | 1 =>
    let s1 := s.performApWrites die ((s.die die).apWrites.filter fun w =>
      w.ap == m && w.core == core && w.off / 4096 == off / 4096)
    (bytesNat ((s1.expandTile die a (off / 4096)).drop (off % 4096) |>.take n), s1)
  | 2 =>
    let r := s.gatherBytes core ((List.range n).map fun i => transposed die a (off + i))
    (bytesNat r.1, r.2)
  | _ =>
    let k := viewBytes a
    let r := s.gatherBytes core ((List.range k).map fun i => Apert.phys die a (off / 4 * k + i))
    (((viewFmt a).convert fp32 .rn false (bytesNat r.1)).1, r.2)

/-- Writes bytes at scattered home addresses. -/
def State.scatterBytes (s : State) (core : Nat) : List (Nat × Byte) → State
  | [] => s
  | e :: es => State.scatterBytes ((s.beforePort core e.1 1).storeBytes e.1 [e.2]) core es

/-- A store of n bytes at the port (R336, R339), and the identifier of what its completion waits for. -/
def State.portStore (s : State) (core launch m off n x : Nat) : Option Nat × State :=
  let die := dieOf core
  let a := s.aperture die m
  match Apert.xf a with
  | 1 =>
    (some s.nextId, s.fresh.2.modDie die fun d =>
      { d with apWrites := d.apWrites ++
                 [{ ap := m, core := core, launch := launch, off := off, data := natBytes x n, id := s.nextId }] })
  | 2 =>
    (none, s.scatterBytes core (((List.range n).map fun i => transposed die a (off + i)).zip (natBytes x n)))
  | _ =>
    let k := viewBytes a
    let c := (fp32.convert (viewFmt a) .rn true x).1
    (none, s.scatterBytes core (((List.range k).map fun i => Apert.phys die a (off / 4 * k + i)).zip (natBytes c k)))

end Sys2Proof.Machine
end

