-- ==== Sys2Proof/Machine/FloatFn.lean ====
section
/-! DEFINITION. The five transcendental functions (R88, R89): the exact cases of the table, and elsewhere a fixed
function of the operand's bits that lies within the stated bound; which of the values within the bound it is, is free
(log entry 6). Bounds are found from fixed-point approximations with many more bits than FP32 holds. -/

namespace Sys2Proof.Machine

/-- The five functions, by the index of Config.transcendental. -/
inductive Func
  | exp2 | log2 | sinpi | cospi | tanh
  deriving DecidableEq, Repr

/-- The index of a function. -/
def Func.index : Func → Nat
  | .exp2 => 0
  | .log2 => 1
  | .sinpi => 2
  | .cospi => 3
  | .tanh => 4

/-- Fixed-point one: 2^160. -/
def fxOne : Nat := 2 ^ 160

/-- ln 2 in fixed point: the sum of 1 / (k 2^k). -/
def fxLn2 : Nat := (List.range 170).foldl (fun a k => a + fxOne / ((k + 1) * 2 ^ (k + 1))) 0

/-- arctan (1 / n) in fixed point. -/
def fxArctanInv (n : Nat) : Int :=
  (List.range 120).foldl (fun (a : Int) (k : Nat) =>
    let t : Nat := fxOne / ((2 * k + 1) * n ^ (2 * k + 1))
    if k % 2 = 0 then a + t else a - t) 0

/-- Pi in fixed point, by Machin's formula. -/
def fxPi : Nat := (16 * fxArctanInv 5 - 4 * fxArctanInv 239).toNat

/-- exp of a nonnegative fixed-point number below one, by its series. -/
def fxExp (x : Nat) : Nat :=
  ((List.range 48).foldl (fun (acc : Nat × Nat) k => (acc.1 + acc.2, acc.2 * x / fxOne / (k + 1))) (0, fxOne)).1

/-- sin (pi r) divided by r, and cos (pi r), for r = n / d in [0, 1/2]: alternating series in fixed point. -/
def fxSeries (odd : Bool) (n d : Nat) : Nat :=
  let t2 := (fxPi * n / d) * (fxPi * n / d) / fxOne
  let first : Int := if odd then fxPi else fxOne
  ((List.range 40).foldl (fun (acc : Int × Int) (k : Nat) =>
    let j : Int := 2 * k + (if odd then 2 else 1)
    (acc.1 + acc.2, -(acc.2 * t2 / fxOne / (j * (j + 1))))) (0, first)).1.toNat

/-- The fractional bits of log2 of y in [1, 2), by repeated squaring. -/
def fxLog2Bits : Nat → Nat → Nat → Nat
  | 0, _, acc => acc
  | k + 1, y, acc =>
    let z := y * y / fxOne
    if z ≥ 2 * fxOne then fxLog2Bits k (z / 2) (2 * acc + 1) else fxLog2Bits k z (2 * acc)

/-- An approximation of log2 (n / d): an integer part and 80 bits of fraction. -/
def approxLog2 (n d : Nat) : Exact :=
  let e := log2Frac n d
  let y := if e ≥ 0 then n * fxOne / (d * 2 ^ e.toNat) else n * 2 ^ (-e).toNat * fxOne / d
  let v : Int := e * 2 ^ 80 + fxLog2Bits 80 y 0
  .num (v < 0) v.natAbs (2 ^ 80)

/-- An approximation of 2^(n / d) with its sign. -/
def approxExp2 (neg : Bool) (n d : Nat) : Exact :=
  let v : Int := if neg then -(n : Int) else n
  let i := v / (d : Int)
  let r := (v % (d : Int)).toNat
  let m := fxExp (fxLn2 * r / d)
  dyadic false m (i - 160)

/-- sin (pi n / d) for 0 < n / d < 2 not a multiple of 1/2, as a signed fraction; cos by a quarter turn. -/
def approxSinPi (n d : Nat) : Exact :=
  -- fold into a half turn, then a quarter
  let neg := n ≥ d
  let n1 := if neg then n - d else n
  let n2 := if 2 * n1 > d then d - n1 else n1
  if 4 * n2 ≤ d then .num neg (fxSeries true n2 d * n2) (fxOne * d)
  else .num neg (fxSeries false (d - 2 * n2) (2 * d)) fxOne

/-- tanh of a positive n / d. -/
def approxTanh (n d : Nat) : Exact :=
  if 64 * n ≤ d then
    -- x (1 - x²/3 + 2x⁴/15 - 17x⁶/315 + 62x⁸/2835)
    let q : Nat := n * n * fxOne / (d * d)
    let q2 := q * q / fxOne
    let q3 := q2 * q / fxOne
    let q4 := q3 * q / fxOne
    .num false ((fxOne + 2 * q2 / 15 + 62 * q4 / 2835 - q / 3 - 17 * q3 / 315) * n) (fxOne * d)
  else
    -- (1 - u) / (1 + u) with u = exp (-2x), x below 10
    let i := 2 * n / d
    let r := 2 * n * fxOne / d - i * fxOne
    let e1 := fxExp (fxOne / 2)
    let ei := (List.range (2 * i)).foldl (fun a _ => a * e1 / fxOne) fxOne
    let w := ei * fxExp r / fxOne
    .num false (w - fxOne) (w + fxOne)

/-- A magnitude n / d that no FP32 value equals, where an approximation is one: the exact value lies below it, since a cosine
near 1 and a tanh near 0 are approached from below (R88). -/
def offGrid (x : Exact) : Exact :=
  match x with
  | .num neg n d => if (fp32.deliver .rn false x).2 &&& fIX = 0 then .num neg (2 ^ 60 * n - 1) (2 ^ 60 * d) else x
  | x => x

/-- A signed FP32 value in units of 2^-149, none for an infinity or a NaN. -/
def fp32Units (c : Nat) : Option Int :=
  match fp32.dec c with
  | .fin g s e => some ((if g then -1 else 1) * (s * 2 ^ (e + 149).toNat : Nat))
  | _ => none

/-- The unit in the last place of an exact magnitude that is no FP32 value, in units of 2^-149: the gap of the two FP32
values that bracket it (R88). -/
def ulpUnits (x : Exact) : Nat := 2 ^ (((fp32.deliver .rz false x).1 % 2 ^ 31) / 2 ^ 23 - 1)

/-- An FP32 value lies within a distance, in units of 2^-149, of an exact one. -/
def within (dist : Nat) (x : Exact) (c : Nat) : Bool :=
  match x, fp32Units c with
  | .num neg n d, some v => decide (((if neg then -1 else 1) * (n * 2 ^ 149 : Nat) - v * d).natAbs ≤ dist * d)
  | _, _ => false

/-- An FP32 value lies within a number of ulps of an exact one (R88). -/
def withinUlps (k : Nat) (x : Exact) (c : Nat) : Bool := within (k * ulpUnits x) x c

/-- The bound of R88 for an operand: one ulp, two for tanh, and for log2 of an operand in [0.5, 2] also the absolute error
2^-22 (log entry 6). -/
def funcBound (f : Func) (a : W32) (x : Exact) (c : Nat) : Bool :=
  withinUlps (if f == .tanh then 2 else 1) x c ||
    (f == .log2 && decide (0x3F000000 ≤ a.toNat) && decide (a.toNat ≤ 0x40000000) && within (2 ^ 127) x c)

/-- The FP32 value of a function where no exact case applies: a fixed choice among the values within the bound (R89). -/
def freeResult (f : Func) (a : W32) (y : Exact) : Nat × FpFlags :=
  let x := offGrid y
  let (c, fl) := fp32.deliver .rn false x
  -- overflow and underflow as R13 and R16 give them
  if fl.getLsbD 2 then (c, fl)
  else
    let k := (Config.transcendental f.index a).toNat
    (if funcBound f a x k then k else c, fl ||| fIX)

/-- The FP32 code and flags of a function of an FP32 operand (R88). -/
def funcFp32 (f : Func) (a : W32) : Nat × FpFlags :=
  let one := 0x3F800000
  match fp32.dec a.toNat, f with
  | .nan s, _ => (fp32.nan, if s then fIV else 0)
  | .inf n, .exp2 => if n then (0, 0) else (fp32.inf false, 0)
  | .inf n, .log2 => if n then (fp32.nan, fIV) else (fp32.inf false, 0)
  | .inf n, .tanh => (fp32.signed n one, 0)
  | .inf _, _ => (fp32.nan, fIV)
  | .fin n s e, .exp2 =>
    match dyadic n s e with
    | .num _ p q =>
      if s = 0 then (one, 0)
      else if p ≥ 1000 * q then (if n then fp32.deliver .rn false (.num false 1 (2 ^ 1000)) else
        fp32.deliver .rn false (.num false (2 ^ 1000) 1))
      else if p % q = 0 then fp32.deliver .rn false (dyadic false 1 (if n then -((p / q : Nat) : Int) else p / q))
      else freeResult f a (approxExp2 n p q)
    | _ => (fp32.nan, 0)
  | .fin n s e, .log2 =>
    if s = 0 then (fp32.inf true, fDZ)
    else if n then (fp32.nan, fIV)
    else if s = 2 ^ Nat.log2 s then fp32.ofInt .rn false ((Nat.log2 s : Int) + e)
    else match dyadic false s e with
      | .num _ p q => freeResult f a (approxLog2 p q)
      | _ => (fp32.nan, 0)
  | .fin n s e, .sinpi =>
    match dyadic n s e with
    | .num _ p q =>
      if s = 0 then (a.toNat, 0)
      else if p % q = 0 then (fp32.signed n 0, 0)
      else
        -- sin (pi (-x)) = -sin (pi x)
        let r := p % (2 * q)
        if 2 * p % q = 0 then (fp32.signed (n != decide (r ≥ q)) one, 0)
        else match approxSinPi r q with
          | .num g x y => freeResult f a (.num (n != g) x y)
          | x => freeResult f a x
    | _ => (fp32.nan, 0)
  | .fin n s e, .cospi =>
    match dyadic n s e with
    | .num _ p q =>
      if p % q = 0 then (fp32.signed (p / q % 2 == 1) one, 0)
      else if 2 * p % q = 0 then (0, 0)
      else
        -- cos (pi x) = sin (pi (x + 1/2))
        let r := (2 * p + q) % (4 * q)
        freeResult f a (approxSinPi r (2 * q))
    | _ => (fp32.nan, 0)
  | .fin n s e, .tanh =>
    match dyadic n s e with
    | .num _ p q =>
      if s = 0 then (a.toNat, 0)
      else if 8 * p ≥ 73 * q then (fp32.signed n one, 0)
      else match approxTanh p q with
        | .num _ x y => freeResult f a (.num n x y)
        | x => freeResult f a x
    | _ => (fp32.nan, 0)

/-- A function at a float type: the FP32 result is rounded to the type (R88). -/
def funcAt (f : Func) (fmt : Fmt) (code : Nat) : Nat × FpFlags :=
  let (c, fl) := fmt.convert fp32 .rn false code
  let (r, g) := funcFp32 f (BitVec.ofNat 32 c)
  let (x, h) := fp32.convert fmt .rn false r
  (x, fl ||| g ||| h)

end Sys2Proof.Machine
end

