-- ==== Sys2Proof/Machine/Frac.lean ====
section
/-! DEFINITION. Exact fractions for the graphics units (R231, R240, R247, R360): a numerator and a positive denominator,
not reduced. -/

namespace Sys2Proof.Machine

/-- A fraction n / d with d > 0. -/
structure Frac where
  n : Int
  d : Nat
  deriving DecidableEq, Repr

/-- An integer. -/
def Frac.int (n : Int) : Frac := ⟨n, 1⟩
/-- A sum. -/
def Frac.add (a b : Frac) : Frac := ⟨a.n * b.d + b.n * a.d, a.d * b.d⟩
/-- A difference. -/
def Frac.sub (a b : Frac) : Frac := ⟨a.n * b.d - b.n * a.d, a.d * b.d⟩
/-- A product. -/
def Frac.mul (a b : Frac) : Frac := ⟨a.n * b.n, a.d * b.d⟩
/-- A quotient by a nonzero fraction. -/
def Frac.div (a b : Frac) : Frac := if b.n < 0 then ⟨-(a.n * b.d), a.d * b.n.natAbs⟩ else ⟨a.n * b.d, a.d * b.n.natAbs⟩
/-- a ≤ b. -/
def Frac.le (a b : Frac) : Bool := decide (a.n * b.d ≤ b.n * a.d)
/-- a < b. -/
def Frac.lt (a b : Frac) : Bool := decide (a.n * b.d < b.n * a.d)
/-- a = b. -/
def Frac.eq (a b : Frac) : Bool := decide (a.n * b.d = b.n * a.d)
/-- The sum of a list. -/
def Frac.sum (xs : List Frac) : Frac := xs.foldl Frac.add (Frac.int 0)
/-- The integer part, rounded down. -/
def Frac.floor (a : Frac) : Int := a.n / (a.d : Int)
/-- The fraction as an exact number; its zero is positive. -/
def Frac.exact (a : Frac) : Exact := .num (a.n < 0) a.n.natAbs a.d
/-- Rounded to FP32 (RNE). -/
def Frac.fp32 (a : Frac) : W32 := BitVec.ofNat 32 (Sys2Proof.Machine.fp32.deliver .rn false a.exact).1

/-- A finite FP32 value as a fraction, or none. -/
def finite? (x : W32) : Option Frac :=
  match (Sys2Proof.Machine.fp32.dec x.toNat).exact with
  | .num s p q => some ⟨if s then -(p : Int) else p, q⟩
  | _ => none

/-- A finite FP32 value as a fraction, 0 for others. -/
def fracOf (x : W32) : Frac := (finite? x).getD (Frac.int 0)

/-- Every word is a finite FP32 value. -/
def allFinite (xs : List W32) : Bool := xs.all fun x => (finite? x).isSome

/-- The nearest integer, ties to even. -/
def Frac.round (a : Frac) : Int :=
  let r := roundAt .rn (decide (a.n < 0)) a.n.natAbs a.d 0
  if a.n < 0 then -(r.1 : Int) else r.1

/-- The cross product of two vectors. -/
def cross3 (a b : Frac × Frac × Frac) : Frac × Frac × Frac :=
  ((a.2.1.mul b.2.2).sub (a.2.2.mul b.2.1), (a.2.2.mul b.1).sub (a.1.mul b.2.2), (a.1.mul b.2.1).sub (a.2.1.mul b.1))

/-- The dot product of two vectors. -/
def dot3 (a b : Frac × Frac × Frac) : Frac := ((a.1.mul b.1).add (a.2.1.mul b.2.1)).add (a.2.2.mul b.2.2)

/-- The difference of two vectors. -/
def sub3 (a b : Frac × Frac × Frac) : Frac × Frac × Frac := (a.1.sub b.1, a.2.1.sub b.2.1, a.2.2.sub b.2.2)

/-- Every component is zero. -/
def zero3 (a : Frac × Frac × Frac) : Bool := a.1.n == 0 && a.2.1.n == 0 && a.2.2.n == 0

end Sys2Proof.Machine
end

