-- ==== Sys2Proof/Machine/Memory.lean ====
section
/-! DEFINITION. Loads, stores and prefetch, windows, cache maintenance, address conversion (R113, R114, R158 to R183). -/

namespace Sys2Proof.Machine

/-- What an instruction's accesses come to while its lanes are gathered: the state, the values already read, the accesses
on their way by array, own port, class and word, and what its completion waits for. -/
structure Gather where
  s : State
  async : AsyncOp
  buckets : List ((Nat × Bool × Bool × Nat) × List Access)
  /-- the cache policy of its loads -/
  pol : Policy
  deps : List Nat
  deriving DecidableEq, Repr

/-- Adds an access to its array's bucket, after the earlier ones. -/
def putBucket (k : Nat × Bool × Bool × Nat) (a : Access) :
    List ((Nat × Bool × Bool × Nat) × List Access) → List ((Nat × Bool × Bool × Nat) × List Access)
  | [] => [(k, [a])]
  | e :: es => if e.1 = k then (e.1, e.2 ++ [a]) :: es else e :: putBucket k a es

/-- An access leaves for an array: own tile port or not, to a snapshot space or not. -/
def Gather.send (g : Gather) (addr : Nat) (own snap : Bool) (sub : Nat) (a : Access) : Gather :=
  { g with buckets := putBucket (arrayOf addr, own, snap, sub) a g.buckets }

/-- The gathering of an instruction that starts. -/
def Ctx.gather (c : Ctx) (s : State) (tl : Tail) : Gather :=
  { s := s, async := { c.async tl with site := s.siteOf c.g c.cl.pc, id := s.nextId }, buckets := [], pol := .dflt, deps := [] }

/-- A piece of a load (R161, R171, R337). -/
def Gather.load (g : Gather) (v : View) (pol : Policy) (t : Target) (n : Nat) (dst : Dst) : Gather :=
  match t with
  | .snap pa =>
    let hit := byteMask (pa % 128) n &&& ~~~((g.s.core v.core).line (pa / 128)).held = 0
    let behind := g.s.sectorBusy v.core pa || (!hit && g.s.peerBusy v.core pa)
    let lines := g.async.missed
    let missed := if (hit && !behind) || lines.contains (pa / 128) then lines else (pa / 128) :: lines
    let g1 := { g with async := { g.async with missed := missed } }
    if behind then { g1 with pol := pol }.send pa false true (pa + 1) (.ld pa n dst)
    else
      let r := g.s.l1Load v.core pol pa n
      { g1 with s := r.2, async := g1.async.deliver dst r.1 }
  | .port m off =>
    let r := (g.s.portSeen v.core m off n false v.l2).portLoad v.core m off n
    { g with s := r.2, async := g.async.deliver dst r.1 }
  | .arr a own => g.send a own false 0 (.ld a n dst)

/-- A piece of a store. -/
def Gather.store (g : Gather) (v : View) (pol : Policy) (t : Target) (n x : Nat) : Gather :=
  match t with
  | .snap pa =>
    if g.s.sectorBusy v.core pa then g.send pa false true (pa + 1) (.st pa (natBytes x n))
    else
    let id := (g.s.beforeHit v.core (pa / 128)).nextId
    { g with s := g.s.l1Store v.core v.launchId g.async.site pol pa n x, deps := if pol = .byp then g.deps ++ [id] else g.deps }
  | .port m off =>
    let r := (g.s.portSeen v.core m off n true (coreWho 1 v.core)).portStore v.core v.launchId m off n x
    { g with s := r.2, deps := g.deps ++ r.1.toList }
  | .arr a own => g.send a own false 0 (.st a (natBytes x n))

/-- The pieces of a load, in ascending order. -/
def Gather.loads (g : Gather) (v : View) (pol : Policy) (dst : Nat → Nat → Dst) : Nat → List (Target × Nat) → Gather
  | _, [] => g
  | i, (t, n) :: ps => Gather.loads (g.load v pol t n (dst i n)) v pol dst (i + n) ps

/-- The pieces of a store, in ascending order. -/
def Gather.stores (g : Gather) (v : View) (pol : Policy) (x : Nat) : Nat → List (Target × Nat) → Gather
  | _, [] => g
  | i, (t, n) :: ps => Gather.stores (g.store v pol t n (x / 2 ^ (8 * i) % 2 ^ (8 * n))) v pol x (i + n) ps

/-- The requests of the buckets, under fresh identifiers. -/
def Gather.sendAll (g : Gather) (c : Ctx) (v : View) :
    List ((Nat × Bool × Bool × Nat) × List Access) → Gather
  | [] => g
  | (k, as) :: rest =>
    let r : Req := { id := g.s.nextId, core := c.core, gid := c.gid, launch := c.g.launch, arr := k.1, own := k.2.1, snap := k.2.2.1, pol := g.pol,
                     todo := as, op := g.async.id, acked := false, site := g.async.site, arrived := none,
                     ident := v.ident }
    Gather.sendAll { g with s := { g.s with nextId := g.s.nextId + 1, reqs := g.s.reqs ++ [r] },
                            deps := g.deps ++ [r.id] } c v rest

/-- The group's own-tile accesses that wait (R171). -/
def State.ownWaiting (s : State) (gid : Nat) : Nat :=
  (s.reqs.filter fun r => r.own && r.gid == gid && !r.todo.isEmpty).length

/-- The outstanding misses of a core's L1 (R190). -/
def State.missesOf (s : State) (core : Nat) : Nat :=
  s.asyncs.foldl (fun n a => if a.core = core then n + a.missed.length else n) 0

/-- The gathered accesses stall: a seventeenth own-tile access of the group (R171), or a miss beyond the L1's 64 outstanding
ones (R123, R190); an instruction that alone misses more waits until none is outstanding. -/
def Gather.full (g : Gather) (gid core : Nat) : Bool :=
  ((g.buckets.any fun e => e.1.2.1) && decide (g.s.ownWaiting gid ≥ 16)) ||
    (!g.async.missed.isEmpty && g.s.missesOf core != 0 && decide (g.s.missesOf core + g.async.missed.length > 64))

/-- The instruction's accesses leave, and its operation is in flight, where nothing stalls them (R123). -/
def Gather.finishAccs (g : Gather) (c : Ctx) (v : View) (tl : Tail) (isLoad : Bool) (accs : List (Nat × W64 × Nat))
    (hash : Nat → List HashStep) : Effect :=
  if g.full c.gid c.core then .stall
  else
    let op := g.s.nextId
    let g1 := { g with s := { g.s with nextId := op + 1 }, async := { g.async with id := op } }
    let g2 := g1.sendAll c v g1.buckets
    let s1 := (g2.s.addHash c.gid (hash op)).countAccs c v accs op
    if tl.isNone && !isLoad && g2.deps.isEmpty then .ok s1
    else
      let s2 := { s1 with asyncs := s1.asyncs ++ [{ g2.async with deps := g2.deps }] }
      .ok (match tl with
        | none => s2
        | some k => s2.modGroup c.gid fun x => x.sbInc k.toNat)

/-- The same of some lanes' accesses of n bytes. -/
def Gather.finish (g : Gather) (c : Ctx) (v : View) (tl : Tail) (isLoad : Bool) (ls : List Nat) (addr : Nat → W64) (n : Nat)
    (hash : Nat → List HashStep) : Effect :=
  g.finishAccs c v tl isLoad (ls.map fun l => (l, addr l, n)) hash

/-- The address of a lane: base, index and signed offset (R59). -/
def Ctx.addr (c : Ctx) (base index : Operand) (off : BitVec 12) (l : Nat) : W64 :=
  c.g.read64 c.rank base l + c.g.readIndex c.rank index l + off.signExtend 64

/-- The pieces of a lane's access; a checked address has them. -/
def State.piecesOf (s : State) (v : View) (l : Nat) (a : W64) (n : Nat) (k : AccKind) : List (Target × Nat) :=
  match s.pieces v l a n k with
  | .ok ps => ps
  | .error _ => []

/-- The target of an access that has passed its checks. -/
def State.targetOf (s : State) (v : View) (l : Nat) (a : W64) (n : Nat) (k : AccKind) : Target :=
  ((s.piecesOf v l a n k).map (·.1)).headD (.port 0 0)

/-- The home addresses in the L1's spaces that some lanes touch, with their bytes. -/
def State.snapOf (s : State) (v : View) (addr : Nat → W64) (n : Nat) (k : AccKind) (ls : List Nat) : List (Nat × Nat) :=
  ls.flatMap fun l => (s.piecesOf v l (addr l) n k).filterMap fun p => match p.1 with
    | .snap pa => some (pa, p.2)
    | _ => none

/-- Some byte that a core reads lies in a peer package that is down, and its L1 does not hold it (R424). -/
def State.peerMiss (s : State) (core : Nat) (ps : List (Nat × Nat)) : Option Nat :=
  (ps.find? fun p => s.peerDown p.1 && byteMask (p.1 % 128) p.2 &&& ~~~((s.core core).line (p.1 / 128)).held != 0).map (·.1)

/-- A read of a peer that is down is an asynchronous engine fault of its instruction (R424). -/
def Ctx.peerRead (c : Ctx) (k : AccKind) (pas : List (Nat × Nat)) (s : State) (e : Effect) : Effect :=
  if k.writes then e
  else match s.peerMiss c.core pas with
    | some pa => .ok (s.killLaunch c.g.launch 0x30 (fabricAddr pa) (s.siteOf c.g c.cl.pc))
    | none => e

/-- The checks of an access in their order (R174), after a stall on a walk that a migration holds (R333). -/
def Ctx.admitted (c : Ctx) (ls : List Nat) (mask : LaneMask → LaneMask) (addr : Nat → W64) (n align : Nat) (k : AccKind)
    (single : Bool) (s : State) (next : Effect) : Effect :=
  let v := s.viewOf c.gid c.g
  if ls.any fun l => s.heldAddr v l (addr l) then .stall
  else match s.memCheck v ls addr n align k single with
    | some (e, m) => c.memFault e (mask m) addr k.writes
    | none => next

/-- The lane that an access made once per issue is watched in: the lowest of EM, and none where EM is empty (R372). -/
def Ctx.watchLane (c : Ctx) : List Nat := (laneList c.em).take 1

/-- The checks of an access, the watch (R372), then the instruction's own work. -/
def Ctx.checked (c : Ctx) (ls : List Nat) (mask : LaneMask → LaneMask) (addr : Nat → W64) (n align : Nat) (k : AccKind)
    (single : Bool) (kind : WatchKind) (datum : Nat → W32) (s : State) (go_ : View → State → Effect) : Effect :=
  let v := s.viewOf c.gid c.g
  let pas := if kind = .atomic then [] else s.snapOf v addr n k ls
  c.admitted ls mask addr n align k single s
    (c.watched kind (if single then c.watchLane else ls) addr n datum v s (c.peerRead k pas s (go_ v (s.touchTlbs v addr ls))))

/-- The checks of a window's access (R113): both halves are checked, and every lane that passed is at fault. Where the second
half alone fails, EADDR is that half's address, 32 above the access's (log entry 89: the spec does not say which). -/
def Ctx.checkedWindow (c : Ctx) (a : W64) (k : AccKind) (kind : WatchKind) (datum : W32) (s : State)
    (go_ : View → State → Effect) : Effect :=
  let v := s.viewOf c.gid c.g
  let half (h : Nat) : W64 := a + BitVec.ofNat 64 (32 * h)
  if [0, 1].any fun h => s.heldAddr v h (half h) then .stall
  else match s.memCheck v [0, 1] half 32 32 k true with
    | some (e, m) => c.memFault e c.at_ (fun _ => half ((lowestLane m).getD 0)) k.writes
    | none =>
      c.watched kind c.watchLane (fun _ => a) 64 (fun _ => datum) v s
        (c.peerRead k (s.snapOf v half 32 k [0, 1]) s (go_ v (s.touchTlbs v half [0, 1])))

/-- The bytes of a width. -/
def Width.bytes : Width → Nat
  | .b => 1
  | .h => 2
  | .w => 4
  | .d => 8
  | .q => 16

/-- The registers of a width. -/
def Width.regs : Width → Nat
  | .d => 2
  | .q => 4
  | _ => 1

/-- ld (R176). -/
def execLd (wd : Width) (sx : Bool) (pol : Policy) (d : BitVec 6) (base index : Operand) (off : BitVec 12) (tl : Tail)
    (s : State) : Result :=
  let n := Width.bytes wd
  issueAsync (fun _ => true) [.src64 base, .src index, .regs d (Width.regs wd) (Width.regs wd)] tl (fun c s =>
    let ls := laneList c.em
    let a := c.addr base index off
    c.checked ls id a n n .read false .load (fun _ => 0) s fun v s =>
      (ls.foldl (fun g l =>
          g.loads v pol (fun i k => .v l (d.toNat + i / 4) k sx) 0 (s.piecesOf v l (a l) n .read)) (c.gather s tl)).finish
        c v tl true ls a n (fun _ => [])) s

/-- The registers a store's data names. -/
def storeUse (src : Dest) (k : Nat) : List Use :=
  match src with
  | .v r => [.regs r k k]
  | _ => []

/-- The datum of a lane of a store (R176). -/
def Group.storeDatum (g : Group) (src : Dest) (n l : Nat) : Nat :=
  match src with
  | .v r => (List.range ((n + 3) / 4)).foldl (fun x i => x + (g.vget (r.toNat + i) l).toNat * 2 ^ (32 * i)) 0 % 2 ^ (8 * n)
  | .s r => (g.sget r.toNat).toNat % 2 ^ (8 * n)
  | _ => 0

/-- The hash steps of n stored bytes at an address: one for each 8 bytes (R384). -/
def storeSteps (a : W64) (n x : Nat) : List HashStep :=
  (List.range ((n + 7) / 8)).map fun i =>
    .datum (a + BitVec.ofNat 64 (8 * i)) (BitVec.ofNat 64 (x / 2 ^ (64 * i)))

/-- st (R176). -/
def execSt (wd : Width) (pol : Policy) (src : Dest) (base index : Operand) (off : BitVec 12) (tl : Tail) (s : State) :
    Result :=
  let n := Width.bytes wd
  issueAsync (fun _ => true) ([.src64 base, .src index] ++ storeUse src (Width.regs wd)) tl (fun c s =>
    let ls := laneList c.em
    let a := c.addr base index off
    let x := c.g.storeDatum src n
    c.checked ls id a n n .write false .store (fun l => BitVec.ofNat 32 (x l)) s fun v s =>
      (ls.foldl (fun g l => g.stores v pol (x l) 0 (s.piecesOf v l (a l) n .write)) (c.gather s tl)).finish
        c v tl false ls a n (fun _ => ls.flatMap fun l => storeSteps (v.canonical (a l)) n (x l))) s

/-- The value of an S register base, or 0 for the constant. -/
def Ctx.sbase (c : Ctx) (base : Option (BitVec 5)) : W64 :=
  match base with
  | some r => c.g.sget r.toNat
  | none => 0

/-- The lane that stands for an access made once per issue: the lowest that passes the instruction. -/
def Ctx.single (c : Ctx) : List Nat := [(lowestLane c.at_).getD 0]

/-- ldsc (R177): once per issue. -/
def execLdsc (wd : Width) (sx : Bool) (pol : Policy) (d : BitVec 5) (base : Option (BitVec 5)) (index : Option Operand)
    (off : BitVec 12) (tl : Tail) (s : State) : Result :=
  let n := Width.bytes wd
  issueAsync (fun _ => true) [] tl (fun c s =>
    let i : W64 := match index with
      | some o => c.g.readIndex c.rank o 0
      | none => 0
    let a (_ : Nat) : W64 := c.sbase base + i + off.signExtend 64
    c.checked c.single (fun _ => c.at_) a n n .read true .load (fun _ => 0) s fun v s =>
      ((c.gather s tl).loads v pol (fun _ k => .s d.toNat k sx) 0 (s.piecesOf v 0 (a 0) n .read)).finish
        c v tl true c.single a n (fun _ => [])) s

/-- twld (R113, R114): two halves of 32 bytes, the lower first (log entry 87). -/
def execTwld (pol : Policy) (w : BitVec 2) (base : Option (BitVec 5)) (off : BitVec 12) (tl : Tail) (s : State) : Result :=
  issueAsync (fun _ => true) [] tl (fun c s =>
    let a (_ : Nat) : W64 := c.sbase base + off.signExtend 64
    c.checkedWindow (a 0) .readWhole .load 0 s fun v s =>
      ((List.range 2).foldl (fun g h =>
          g.loads v pol (fun _ _ => .w w.toNat h) 0 (s.piecesOf v 0 (a 0 + BitVec.ofNat 64 (32 * h)) 32 .readWhole))
        (c.gather s tl)).finish c v tl true c.single a 64 (fun _ => [])) s

/-- twst (R113, R114): two halves of 32 bytes, the lower first (log entry 87). -/
def execTwst (pol : Policy) (w : BitVec 2) (base : Option (BitVec 5)) (off : BitVec 12) (tl : Tail) (s : State) : Result :=
  issueAsync (fun _ => true) [] tl (fun c s =>
    let a (_ : Nat) : W64 := c.sbase base + off.signExtend 64
    let x := (c.g.wget w.toNat).toNat
    c.checkedWindow (a 0) .writeWhole .store (BitVec.ofNat 32 x) s fun v s =>
      ((List.range 2).foldl (fun g h =>
          g.stores v pol (x / 2 ^ (256 * h) % 2 ^ 256) 0
            (s.piecesOf v 0 (a 0 + BitVec.ofNat 64 (32 * h)) 32 .writeWhole))
        (c.gather s tl)).finish c v tl false c.single a 64
          (fun _ => storeSteps (v.canonical (a 0)) 64 x)) s

-- Prefetch and cache maintenance (R180, R181)

/-- The home line that a lane's address names, if it is a snapshot address that does not fault. -/
def State.lineOf (s : State) (v : View) (l : Nat) (a : W64) : Option Nat :=
  if spaceOf a = some .dev || (spaceOf a = some .priv && !v.stackErr a 1) then
    match s.pieces v l a 1 .read with
    | .ok [(.snap pa, _)] => some (pa / 128)
    | _ => none
  else none

/-- Brings a line into the L1 (R180): nothing enters the read set, for a prefetch is no load. A line of a peer that is down or
has the core's requests on their way stays out (R422, R424), and so does a sector with accesses on their way to it (R189). -/
def State.prefetchLine (s : State) (core : Nat) (pol : Policy) (line : Nat) : State :=
  if pol = .byp || s.peerDown (line * 128) || s.peerBusy core (line * 128) then s
  else
    let mask := ((List.range 4).filter fun i => !s.sectorBusy core (line * 128 + 32 * i)).foldl
      (fun (m : BitVec 128) i => m ||| byteMask (32 * i) 32) 0
    let fresh := !NMap.has (s.core core).l1 line
    let need := maskSpan (mask &&& ~~~((s.core core).line line).held)
    let s0 := s.beforeRead core line
    let s1 := (if mask &&& ~~~((s.core core).line line).held = 0 then s0
      else s0.l2See (line * 128 + need.1) need.2 false (coreWho 0 core) (dieOf core)).allocLine core line
    let home := s1.homeLine line
    s1.modLine core line fun l =>
      let l' := l.fill mask home
      if pol = .strm && fresh then { l' with nextVictim := true } else l'

/-- prefetch (R180): it raises no fault of any kind. -/
def execPrefetch (pol : Policy) (base index : Operand) (off : BitVec 12) (s : State) : Result :=
  issue [.src64 base, .src index] none (fun c s =>
    let v := s.viewOf c.gid c.g
    let ls := (laneList c.em).filter fun l => (s.lineOf v l (c.addr base index off l)).isSome
    .ok ((ls.foldl (fun s l =>
      match s.lineOf v l (c.addr base index off l) with
      | some line => s.prefetchLine c.core pol line
      | none => s) s).countMem c v ls (c.addr base index off) 1 0)) s

/-- The lines that cwb and cinv act on, or their fault (R181). -/
def Ctx.maintained (c : Ctx) (sel : LineSel) (s : State) (go_ : View → List Nat → State → Effect) : Effect :=
  match sel with
  | .all => go_ (s.viewOf c.gid c.g) ((s.core c.core).l1.map (·.1)) s
  | .line base index off =>
    let ls := laneList c.em
    let a := c.addr base index off
    let v := s.viewOf c.gid c.g
    if ls.any fun l => s.heldAddr v l (a l) then .stall
    else match s.memCheck v ls a 1 1 .read false with
      | some (e, m) => c.memFault e m a false
      | none => go_ v (distinct (ls.filterMap fun l => s.lineOf v l (a l))) (s.touchTlbs v a ls)

/-- The uses of a line selection. -/
def lineUses : LineSel → List Use
  | .line base index _ => [.src64 base, .src index]
  | .all => []

/-- The end of cwb and cinv: complete when the bytes they wrote back are performed (R175). -/
def Ctx.maintDone (c : Ctx) (v : View) (sel : LineSel) (old s : State) (tl : Tail) : Effect :=
  let ids := (s.wbs.filter fun w => old.wbs.all fun x => x.id != w.id).map WriteBack.id
  let count (s : State) (op : Nat) : State := match sel with
    | .all => s.countMem c v [] (fun _ => 0) 1 op
    | .line base index off => s.countMem c v (laneList c.em) (c.addr base index off) 1 op
  match tl with
  | none => .ok (count s 0)
  | some _ => .ok (count (s.launchAsync { c.async tl with deps := ids }) s.nextId)

/-- cwb (R181): the lines stay valid and clean. -/
def execCwb (sel : LineSel) (tl : Tail) (s : State) : Result :=
  issueAsync (fun _ => true) (lineUses sel) tl (fun c s =>
    c.maintained sel s fun v lines s => c.maintDone v sel s (s.cleanLines c.core v.launchId lines) tl) s

/-- cinv (R181): the lines are written back and leave. -/
def execCinv (sel : LineSel) (tl : Tail) (s : State) : Result :=
  issueAsync (fun _ => true) (lineUses sel) tl (fun c s =>
    c.maintained sel s fun v lines s => c.maintDone v sel s (s.flushLines c.core v.launchId lines) tl) s

-- Address conversion and tests (R182, R183)

/-- The address that lies in no range. -/
def noAddress : W64 := 0xFFFFFFFFFFFFFFFF

/-- aconv's image of an address (R182); the alias of a private address needs a lane. -/
def View.convert (v : View) (t : ConvTarget) (lane : Option Nat) (a : W64) : W64 :=
  let n := a.toNat
  match spaceOf a, t with
  | some .dev, .dev => a
  | some .priv, .dev =>
    (match lane with
      | none => noAddress
      | some l => if n % 2 ^ 56 < 4 * v.la.plim then BitVec.ofNat 64 (v.backing l (n % 2 ^ 56)) else noAddress)
  | some .tile, .cl =>
    let off := n % 2 ^ 19
    if v.blk.res ≤ off && off < v.blk.res + v.blk.tileSize then
      0xFC00000000000000#64 + BitVec.ofNat 64 (v.blk.rank * 2 ^ 20 + (off - v.blk.res))
    else noAddress
  | some .tile, .tile =>
    let off := n % 2 ^ 19
    if v.blk.res ≤ off && off < v.blk.res + v.blk.tileSize then a else noAddress
  | some .cl, .cl => a
  | some .cl, .tile =>
    if n % 2 ^ 28 / 2 ^ 20 = v.blk.rank && n % 2 ^ 20 < v.blk.tileSize then
      0xFD00000000000000#64 + BitVec.ofNat 64 (v.blk.res + n % 2 ^ 20)
    else noAddress
  | _, _ => noAddress

/-- aconv (R182). -/
def execAconv (tgt : ConvTarget) (d : Dest) (a : Operand) (s : State) : Result :=
  issue [.src64 a, .dst d true] none (fun c s =>
    let v := s.viewOf c.gid c.g
    let g : Group := match d with
      | .s r => c.g.sset r.toNat (v.convert tgt none (c.g.read64 c.rank a 0))
      | .v r => c.g.vset64Lanes r.toNat (fun l => v.convert tgt (some l) (c.g.read64 c.rank a l)) (laneList c.em)
      | _ => c.g
    .ok ((s.put c g).countMem c v [] (fun _ => 0) 1 0)) s

/-- aclass (R183): the range alone. -/
def execAclass (sp : Space) (a : Operand) (s : State) : Result :=
  issue [.src64 a] none (fun c s =>
    .ok ((s.put c (c.g.setCm c.em fun l => spaceOf (c.g.read64 c.rank a l) == some sp)).countMem c (s.viewOf c.gid c.g) []
      (fun _ => 0) 1 0)) s

end Sys2Proof.Machine
end

