-- ==== Sys2Proof/Machine/Rays.lean ====
section
/-! DEFINITION. Rays: push, traversal, records and the resume of a suspended ray (R243 to R250). -/

namespace Sys2Proof.Machine

-- Reading (R250)

/-- What a read of a ray comes to. -/
inductive RayRead
  | held
  | bad (a : W64) (s : State)
  | ok (x : Nat) (s : State)

/-- Reads n bytes of device or vault space as a load of a ray's group at the push finds them, in pieces within sectors; the fuel
bounds the pieces. An address in no such space is a fault of the engine: R245 calls a base a generic address and no more (log
entry 96). -/
def State.rayRead (s : State) (r : Ray) (la : Launch) (a : W64) (n : Nat) : Nat → RayRead
  | 0 => .ok 0 s
  | k + 1 =>
    let core := r.core
    let m := Nat.min n (32 - a.toNat % 32)
    let rest (x : Nat) (s1 : State) : RayRead :=
      if n = m then .ok x s1
      else match State.rayRead s1 r la (a + BitVec.ofNat 64 m) (n - m) k with
        | .ok y s2 => .ok (x + y * 2 ^ (8 * m)) s2
        | r => r
    if a.toNat < 2 ^ 56 then
      if s.walkHeld core la.asn a.toNat then .held
      else match s.resolve core la.asn la.root a.toNat m .readWhole with
        | .ok (.home p) =>
          if s.peerDown p then .bad (fabricAddr p) s
          else if s.sectorBusy core p then .held
          else
            let r := (s.fillTlb core la.asn la.root a.toNat).l1LoadBy (coreWho 6 core) core .byp p m
            rest r.1 r.2
        | _ => .bad a (s.fillTlb core la.asn la.root a.toNat)
    else if spaceOf a = some .vault && !decide ((a.toNat % 2 ^ 30) / 2 ^ 24 ≥ 64 - s.l2n) then
      let p := vaultAddr (dieOf core) (a.toNat % 2 ^ 30)
      if s.arrayBusy core r.gid r.id p then .held else rest (s.loadN p m) s
    else .bad a s

-- The ray (R243, R247)

/-- Word i of a ray. -/
def Ray.word (r : Ray) (i : Nat) : W32 := r.words.getD i 0

/-- Origin or direction. -/
def Ray.vec (r : Ray) (i : Nat) : Frac × Frac × Frac := (fracOf (r.word i), fracOf (r.word (i + 1)), fracOf (r.word (i + 2)))

/-- Its origin and direction are finite. -/
def Ray.plain (r : Ray) : Bool := allFinite [r.word 0, r.word 1, r.word 2, r.word 4, r.word 5, r.word 6]

/-- t is not below tmin. -/
def Ray.aboveMin (r : Ray) (t : Frac) : Bool :=
  match fp32.dec (r.word 3).toNat with
  | .inf n => n
  | _ => (fracOf (r.word 3)).le t

/-- t is not above tmax. -/
def Ray.belowMax (r : Ray) (t : Frac) : Bool :=
  match fp32.dec (r.word 7).toNat with
  | .inf n => !n
  | _ => t.le (fracOf (r.word 7))

/-- The lower end of the segment, none where it has none. -/
def Ray.low (r : Ray) : Option Frac := finite? (r.word 3)

/-- The upper end of the segment as it stands: the current closest, or tmax (R248). -/
def Ray.high (r : Ray) : Option Frac :=
  match r.closest with
  | some h => some ⟨h.tn, h.td⟩
  | none => finite? (r.word 7)

/-- The segment is empty for its infinite ends. -/
def Ray.empty (r : Ray) : Bool := fp32.dec (r.word 3).toNat == .inf false || fp32.dec (r.word 7).toNat == .inf true

/-- One word precedes or equals another as FP32 numbers. -/
def fpGt (a b : W32) : Bool :=
  match fp32.dec a.toNat, fp32.dec b.toNat with
  | .inf n, .inf m => !n && m
  | .inf n, _ => !n
  | _, .inf m => m
  | _, _ => (fracOf b).lt (fracOf a)

/-- The ray completes at once as a miss (R244). -/
def missAtOnce (ws : List W32) : Bool :=
  ws.any (fun x => (fp32.dec x.toNat).isNan) || fpGt (ws.getD 3 0) (ws.getD 7 0) ||
    [4, 5, 6].all fun i => (ws.getD i 0).extractLsb' 0 31 == 0

/-- The record of a miss. -/
def missRecord : List W32 := List.replicate 8 0

/-- A record of an intersection (R244). -/
def RayHit.record (h : RayHit) (status handle : W32) : List W32 :=
  [status, h.t, h.u, h.v, h.pid.extractLsb' 0 32, h.pid.extractLsb' 32 32, if h.front then 1 else 0, handle]

/-- The record of malformed data: the spec states the status, the address and the handle word (R244; log entry 22). -/
def malformedRecord (ray : Nat) (a : W64) : List W32 :=
  [3, Config.rayMalformed ray 1, Config.rayMalformed ray 2, Config.rayMalformed ray 3, a.extractLsb' 0 32, a.extractLsb' 32 32,
   Config.rayMalformed ray 6 &&& 1, 0]

/-- The record of a ray whose visits are over (R248). -/
def Ray.finalRecord (r : Ray) : List W32 :=
  match r.closest with
  | some h => h.record 1 0
  | none => missRecord

/-- The ray ends with a record. -/
def Ray.finish (r : Ray) (ws : List W32) : Ray := { r with todo := [], stage := .ready ws none }

-- Boxes (R245, R247)

/-- An 8-bit value as a signed exponent's power of two. -/
def pow2Frac (e : Int) : Frac := if e < 0 then ⟨1, 2 ^ e.natAbs⟩ else ⟨(2 ^ e.natAbs : Nat), 1⟩

/-- The larger of two lower ends. -/
def laterOf (a : Option Frac) (b : Frac) : Option Frac :=
  match a with
  | none => some b
  | some x => some (if x.le b then b else x)

/-- The smaller of two upper ends. -/
def earlierOf (a : Option Frac) (b : Frac) : Option Frac :=
  match a with
  | none => some b
  | some x => some (if b.le x then b else x)

/-- The interval is not empty. -/
def spanOk (s : Option Frac × Option Frac) : Bool :=
  match s with
  | (some a, some b) => a.le b
  | _ => true

/-- Keeps the part of an interval in which c + t × m ≥ 0; none where there is none. -/
def halfSpan (c m : Frac) (s : Option Frac × Option Frac) : Option (Option Frac × Option Frac) :=
  if m.n = 0 then (if 0 ≤ c.n then some s else none)
  else
    let t := (Frac.int 0 |>.sub c).div m
    let r := if 0 < m.n then (laterOf s.1 t, s.2) else (s.1, earlierOf s.2 t)
    if spanOk r then some r else none

/-- Keeps the part of an interval where several linear forms are not negative. -/
def halfSpans (s : Option Frac × Option Frac) : List (Frac × Frac) → Option (Option Frac × Option Frac)
  | [] => some s
  | e :: es =>
    match halfSpan e.1 e.2 s with
    | none => none
    | some r => halfSpans r es

/-- The segment that is left of the ray. -/
def Ray.span (r : Ray) : Option (Option Frac × Option Frac) :=
  if r.empty || !spanOk (r.low, r.high) then none else some (r.low, r.high)

/-- Byte i of a node or record held as a number. -/
def byteAt (x i : Nat) : Nat := x / 2 ^ (8 * i) % 256

/-- A 32-bit word at byte i. -/
def wordAt (x i : Nat) : W32 := BitVec.ofNat 32 (x / 2 ^ (8 * i))

/-- A 64-bit word at byte i. -/
def dwordAt (x i : Nat) : W64 := BitVec.ofNat 64 (x / 2 ^ (8 * i))

/-- The box of a child meets the segment; none where the ray or the box is not of finite numbers. -/
def Ray.meets (r : Ray) (x c : Nat) : Option Bool :=
  if !r.plain || !allFinite [wordAt x 0, wordAt x 4, wordAt x 8] then none
  else
    let o := r.vec 0
    let d := r.vec 4
    let axis (k : Nat) (oc dc : Frac) : List (Frac × Frac) :=
      let origin := fracOf (wordAt x (4 * k))
      let sc := pow2Frac (BitVec.ofNat 8 (byteAt x (12 + k))).toInt
      let lo := origin.add ((Frac.int (byteAt x (40 + 6 * c + k))).mul sc)
      let hi := origin.add ((Frac.int (byteAt x (43 + 6 * c + k) + 1)).mul sc)
      [(oc.sub lo, dc), (hi.sub oc, Frac.int 0 |>.sub dc)]
    some (match r.span with
      | none => false
      | some sp => (halfSpans sp (axis 0 o.1 d.1 ++ axis 1 o.2.1 d.2.1 ++ axis 2 o.2.2 d.2.2)).isSome)

/-- A node is malformed (R245). -/
def nodeBad (x : Nat) : Bool :=
  let cnt := byteAt x 15
  cnt > 8 || (List.range cnt).any fun c => let t := byteAt x (16 + c); !(t ≤ 1 || t ≥ 0x81)

/-- The items below a child. -/
def childItems (x c depth : Nat) : List RayItem :=
  let t := byteAt x (16 + c)
  let off := (wordAt x (88 + 4 * c)).toNat
  if t = 0 then []
  else if t = 1 then [.node (dwordAt x 24 + BitVec.ofNat 64 (128 * off)) (depth + 1)]
  else (List.range (t - 0x80)).map fun i => .tri (dwordAt x 32 + BitVec.ofNat 64 (48 * off + 48 * i))

/-- The children of a node that are visited: those that meet the segment, and by free choice others (R247). -/
def State.visitChildren (s : State) (r : Ray) (x depth : Nat) : List Nat → List RayItem × State
  | [] => ([], s)
  | c :: cs =>
    let rest := State.visitChildren s r x depth cs
    let items := childItems x c depth
    if items.isEmpty then rest
    else if r.meets x c = some true then (items ++ rest.1, rest.2)
    else
      let p := rest.2.pick 2
      (if p.1 = 1 then items ++ rest.1 else rest.1, p.2)

-- Triangles (R246, R247)

/-- The vector of three words. -/
def vecAt (x i : Nat) : Frac × Frac × Frac := (fracOf (wordAt x i), fracOf (wordAt x (i + 4)), fracOf (wordAt x (i + 8)))

/-- The intersection of a ray with a record's triangle within its segment from tmin to tmax, if there is one. -/
def Ray.hitTri (r : Ray) (x : Nat) : Option RayHit :=
  let ws := (List.range 9).map fun i => wordAt x (4 * i)
  let pid := dwordAt x 36
  if !r.plain || !allFinite ws then
    let f (k : Nat) : W32 := Config.rayHit (r.words ++ ws) k
    let t := fracOf (f 1)
    if (f 0).getLsbD 0 && allFinite [f 1] && r.aboveMin t && r.belowMax t then
      some { tn := t.n, td := t.d, t := f 1, u := f 2, v := f 3, pid := pid, front := (f 4).getLsbD 0 }
    else none
  else
    let v0 := vecAt x 0
    let e1 := sub3 (vecAt x 12) v0
    let e2 := sub3 (vecAt x 24) v0
    let n := cross3 e1 e2
    let nn := dot3 n n
    let d := r.vec 4
    let w0 := sub3 (r.vec 0) v0
    let det := dot3 n d
    let front := decide (det.n < 0)
    -- the barycentrics along the ray are linear: value at t = 0 and slope, each times nn
    let uc := dot3 (cross3 w0 e2) n
    let um := dot3 (cross3 d e2) n
    let vc := dot3 (cross3 e1 w0) n
    let vm := dot3 (cross3 e1 d) n
    let give (t : Frac) : Option RayHit :=
      let u := (uc.add (t.mul um)).div nn
      let v := (vc.add (t.mul vm)).div nn
      some { tn := t.n, td := t.d, t := t.fp32, u := u.fp32, v := v.fp32, pid := pid, front := front }
    if nn.n = 0 || r.empty then none
    else if det.n = 0 then
      if (dot3 n w0).n != 0 then none
      else
        match halfSpans (r.low, finite? (r.word 7)) [(uc, um), (vc, vm), ((nn.sub uc).sub vc, (Frac.int 0 |>.sub um).sub vm)] with
        | some (some t, _) => give t
        | _ => none
    else
      let t := (Frac.int 0 |>.sub (dot3 n w0)).div det
      let u := uc.add (t.mul um)
      let v := vc.add (t.mul vm)
      if r.aboveMin t && r.belowMax t && 0 ≤ u.n && 0 ≤ v.n && ((u.add v).le nn) then give t else none

/-- One intersection precedes another, or there is no other (R248). -/
def RayHit.precedes (h : RayHit) (c : Option RayHit) : Bool :=
  match c with
  | none => true
  | some k =>
    let a : Frac := ⟨h.tn, h.td⟩
    let b : Frac := ⟨k.tn, k.td⟩
    a.lt b || (a.eq b && decide (h.pid.toNat < k.pid.toNat))

/-- A triangle is visited (R246 to R248). -/
def Ray.visitTri (r : Ray) (a : W64) (x : Nat) : Ray :=
  if (wordAt x 44).extractLsb' 1 31 != 0 then r.finish (malformedRecord r.id a)
  else match r.hitTri x with
    | none => r
    | some h =>
      if (r.flags.getLsbD 2 && !h.front) || !h.precedes r.closest then r
      else if r.flags.getLsbD 1 || (!r.flags.getLsbD 0 && !(wordAt x 44).getLsbD 0) then
        { r with stage := .ready (h.record 2 (Config.rayHandle r.id)) (some h) }
      else
        let r1 := { r with closest := some h }
        if r.flags.getLsbD 3 then { r1 with todo := [] } else r1

/-- Puts a ray back in its place. -/
def State.putRay (s : State) (r : Ray) : State := { s with rays := s.rays.map fun x => if x.id = r.id then r else x }

/-- The traversal of a ray until it is suspended, ends, waits or has used its fuel (R247, R248): the order of the visits is a
free choice. -/
def State.rayRun (la : Launch) : Nat → State → Ray → State
  | 0, s, r => s.putRay r
  | k + 1, s, r =>
    match r.stage with
    | .running =>
      if r.todo.isEmpty then s.putRay (r.finish r.finalRecord)
      else
        let p := s.pick r.todo.length
        let r1 := { r with todo := r.todo.eraseIdx p.1 }
        match r.todo.getD p.1 (.tri 0) with
        | .node a depth =>
          if depth > 64 then State.rayRun la k p.2 (r1.finish (malformedRecord r.id a))
          else match p.2.rayRead r la a 128 6 with
            | .held => s.putRay r
            | .bad b s1 => s1.killLaunch r.launch 0x30 b r.site
            | .ok x s1 =>
              if nodeBad x then State.rayRun la k s1 (r1.finish (malformedRecord r.id a))
              else
                let q := s1.visitChildren r1 x depth (List.range (byteAt x 15))
                State.rayRun la k q.2 { r1 with todo := r1.todo ++ q.1 }
        | .tri a =>
          match p.2.rayRead r la a 48 4 with
          | .held => s.putRay r
          | .bad b s1 => s1.killLaunch r.launch 0x30 b r.site
          | .ok x s1 => State.rayRun la k s1 (r1.visitTri a x)
    | _ => s.putRay r

/-- RAY_RECORD_READY (R243, R248). -/
def execRayRecordReady (ray : Nat) (s : State) : Result :=
  .next (match s.rays.find? fun r => r.id == ray with
    | none => s
    | some r =>
      match s.launch? r.launch with
      | none => s
      | some la => State.rayRun la 4096 s r)

-- The instructions (R243, R249, R301)

/-- The rays that a lane has outstanding. -/
def State.lanesRays (s : State) (gid : Nat) (tag : BitVec 4) (l : Nat) : Nat :=
  (s.rays.filter fun r => r.gid == gid && r.tag == tag && r.lane == l).length

/-- Pushes the rays of the lanes of a list. -/
def State.pushRays (s : State) (c : Ctx) (site : Site) (k : Nat) (root flags : W64) : List Nat → State
  | [] => s
  | l :: ls =>
    let ws := (List.range 8).map fun i => c.g.vget (k + i) l
    let r : Ray := { id := s.nextId, gid := c.gid, core := c.core, launch := c.g.launch, blk := c.g.blk, tag := c.g.tag,
                     lane := l, words := ws, flags := flags, todo := [.node root 1], closest := none, stage := .running,
                     site := site }
    State.pushRays { s with nextId := s.nextId + 1,
                            rays := s.rays ++ [if missAtOnce ws then r.finish missRecord else r] } c site k root flags ls

/-- A record of an engine push (7) or of a completed job (8), for a queue with trace enabled (R369). -/
def State.traceEngine (s : State) (launch type queue : Nat) (x : Site) : State :=
  if ((s.launch? launch).map Launch.trace).getD false then
    s.recordFree (dieOf x.core) type (BitVec.ofNat 64 queue :: x.words)
  else s

/-- A push to a queue takes the core's next engine command sequence number, delivered when it is accepted (R300, R301). -/
def State.takeSeq (s : State) (c : Ctx) (queue : Nat) (d : Option (BitVec 5)) (tl : Tail) : State :=
  let seq := (s.core c.core).engineSeq
  let s0 := s.traceEngine c.g.launch 7 queue (s.siteOf c.g c.cl.pc)
  let s1 := s0.modCore c.core fun x => { x with engineSeq := x.engineSeq + 1 }
  match d, tl with
  | none, none => s1
  | _, _ => s1.launchAsync { c.async tl with sw := d.toList.map fun r => (r.toNat, seq.setWidth 64) }

/-- The engine instructions are illegal in a handler (R301). -/
def Ctx.outside (c : Ctx) : Bool := c.g.hkind == 0

/-- xpush.xt (R243, R301). The root is read as it stands, though it be no multiple of 128, and bits 63 to 4 of the flags are
ignored: the spec gives neither an effect (log entry 95). -/
def execXpushXt (d : Option (BitVec 5)) (k : BitVec 6) (sp : BitVec 5) (tl : Tail) (s : State) : Result :=
  issueAsync Ctx.outside [.regs k 8 8] tl (fun c s =>
    if sp.toNat % 2 != 0 then c.illegalOperand
    else if (laneList c.em).any fun l => decide (s.lanesRays c.gid c.g.tag l ≥ 4) then .stall
    else
      .ok ((s.pushRays c (s.siteOf c.g c.cl.pc) k.toNat (c.g.sget sp.toNat) (c.g.sget (sp.toNat + 1))
        (laneList c.em)).takeSeq c 1 d tl)) s

/-- The ray of a lane that a handle names: suspended, its record popped (R249). -/
def State.askedRay (s : State) (c : Ctx) (l : Nat) (h : W32) : Option (Ray × RayHit) :=
  s.rays.findSome? fun r =>
    if r.gid == c.gid && r.tag == c.g.tag && r.lane == l && Config.rayHandle r.id == h then
      match r.stage with
      | .asked x => some (r, x)
      | _ => none
    else none

/-- A ray after a verdict (R248, R249). -/
def Ray.judged (r : Ray) (x : RayHit) (verdict : Nat) : Ray :=
  if verdict = 0 then { r with stage := .running }
  else if verdict = 2 || r.flags.getLsbD 3 then { r with closest := some x, todo := [], stage := .running }
  else { r with closest := some x, stage := .running }

/-- hit (R249). -/
def execHit (a b : Operand) (s : State) : Result :=
  issue [.src a, .src b] none (fun c s =>
    let handle (l : Nat) : W32 := c.g.read32 c.rank .word a l
    let verdict (l : Nat) : Nat := (c.g.read32 c.rank .word b l).toNat % 4
    let bad := maskFrom (fun l => verdict l == 3 || (s.askedRay c l (handle l)).isNone) (laneList c.em)
    if bad != 0 then c.fault 0x03 c.word bad
    else
      .ok ((laneList c.em).foldl (fun s l =>
        match s.askedRay c l (handle l) with
        | some (r, x) => s.putRay (r.judged x (verdict l))
        | none => s) (s.settle c [.src a, .src b]))) s

/-- xpop.xt (R243, R301). -/
def execXpopXt (d : BitVec 6) (slot : BitVec 3) (s : State) : Result :=
  issueAsync Ctx.outside [.regs d 8 8] (some slot) (fun c s =>
    .ok (s.launchAsync { c.async (some slot) with pop := some (.xt d.toNat c.em) })) s

/-- xpop.xe (R301, R346). -/
def execXpopXe (d : BitVec 5) (slot : BitVec 3) (s : State) : Result :=
  issueAsync Ctx.outside [] (some slot) (fun c s =>
    .ok (s.launchAsync { c.async (some slot) with pop := some (.xe d.toNat) })) s

/-- xpop.xm (R217, R301). -/
def execXpopXm (d : BitVec 5) (slot : BitVec 3) (s : State) : Result :=
  issueAsync Ctx.outside [] (some slot) (fun c s =>
    .ok (s.launchAsync { c.async (some slot) with pop := some (.xm d.toNat) })) s

/-- Every ray of the block stands still: a record waits, or a verdict (R269). -/
def State.raysQuiet (s : State) (blk : Nat) : Bool :=
  s.rays.all fun r => r.blk != blk || (match r.stage with
    | .running => false
    | _ => true)

end Sys2Proof.Machine
end

