-- ==== Sys2Proof/Machine/Blocks.lean ====
section
/-! DEFINITION. Groups as they start (R31, R120, R153) and blocks as they end (R131, R221, R303). -/

namespace Sys2Proof.Machine

/-- A group as it starts (R31, R120, R153). -/
def newGroup (core blk launch gix nregs age : Nat) (tag : BitVec 4) (launched : LaneMask) (entry : W64) : Group :=
  { core := core, blk := blk, launch := launch, gix := gix, launched := launched, live := launched, nregs := nregs,
    tag := tag, pcv := setLanes (NMap.set 0) (fun _ => entry) [] lanes, v := [], s := [], cm := 0,
    en := launched, lc := [], w := [], t := [], ab := 0, al := 0, sb := [], fps := 0, queue := [], shadow := [],
    epc := [], ecause := 0, eaddr := 0, emask := 0, ehdr := 0, sen := 0, scm := 0, hkind := 0, escr := [], dbgPend := [],
    clause := none, dwell := 0, last := 0, lprev := 0, pref := none, age := age, readySince := none, yielded := false,
    sleepUntil := none, halted := false, draining := false, evicting := false, timers := [], mid := 0, midHdr := 0, midQueue := [],
    shadowEnd := (false, none), midEnd := (false, none), hint := none,
    bpExempt := false, watchExempt := false, watchHit := [], watchSave := none, lastPc := 0, lastSeq := 0, covCand := [], covDone := 0, hash := 0, hashQ := [],
    ordinal := 0, spawnHeld := 0, waitReqs := [], checks := [], xcCount := 0, xeCount := 0 }

/-- The S registers a group starts with (R120). -/
def startScalars (x : Launch) (b : Block) : NMap W64 :=
  let ctrBase := 0xFD00000000000000#64 + BitVec.ofNat 64 (0x7FE00 + 8 * b.ctr0)
  let vals : List (Nat × W64) :=
    [(0, x.args), (1, BitVec.ofNat 64 b.index), (2, b.array), (3, 0xFD00000000000000#64 + BitVec.ofNat 64 b.res),
     (4, ctrBase), (5, BitVec.ofNat 64 x.nblocks)]
  vals.foldl (fun m e => NMap.set 0 m e.1 e.2) []

/-- The block has no live lane, and no bin holds its threads (R221). -/
def State.blockDead (s : State) (blk : Nat) : Bool :=
  (s.blockGroups blk).all (fun e => e.2.live == 0) &&
    match s.block? blk with
    | none => true
    | some b => b.unstarted.isEmpty && (s.core b.core).bins.all fun e => e.2.blk != blk

/-- A copy job still touches the tile reservation of a block (R221, R269): its footprint holds tile keys of the core. -/
def CopyJob.touches (j : CopyJob) (core res kib : Nat) : Bool :=
  (j.reads ++ j.writes).any fun r =>
    decide (r.1 < tileAddr core (res + kib * 1024)) && decide (tileAddr core res < r.2)

/-- No job touches the reservation. -/
def State.jobsClear (s : State) (b : Block) : Bool := s.copies.all fun j => !j.touches b.core b.res b.tileKiB

/-- A block whose groups have ended, whose context has been returned and whose tile memory no job touches leaves its core,
and counts as ended in its launch (R131, R221, R398). -/
def State.tryEndBlock (s : State) (blk : Nat) : State :=
  match s.block? blk with
  | none => s
  | some b =>
    if b.saved || !s.blockEmpty blk || b.ctx.isSome || !s.jobsClear b || b.pass.isSome then s
    else
      State.modLaunch { s.modCore b.core fun c => { c with blocks := c.blocks.filter fun x => x != blk } with
        blocks := NMap.erase s.blocks blk } b.launch fun la => { la with
          finished := la.finished + 1,
          ranks := if b.array = 0xFFFFFFFFFFFFFFFF then la.ranks else la.ranks ++ [b] }

/-- The blocks of a list that can end do. -/
def State.tryEndBlocks (s : State) : List Nat → State
  | [] => s
  | b :: bs => State.tryEndBlocks (s.tryEndBlock b) bs

end Sys2Proof.Machine
end

