-- ==== Sys2Proof/Machine/Fetch.lean ====
section
/-! DEFINITION. Instruction fetch (R65, R135, R330): words are read through the core's instruction cache, which holds
each 64-bit word as it was first fetched. -/

namespace Sys2Proof.Machine

/-- The physical address of a word of code, if its translation allows a fetch. -/
def State.codeAddr (s : State) (core : Nat) (n : Nat) (va : W64) : Option Nat :=
  match s.launch? n with
  | none => none
  | some x =>
    if va.toNat ≥ 2 ^ 56 then none
    else match s.resolve core x.asn x.root va.toNat 8 .fetch with
      | .ok (.home a) => some a
      | _ => none

/-- The CODE of a fetch that is refused: an address-space fault where a transforming aperture holds the address (R337), else
an instruction-fetch fault (R135). -/
def State.fetchCode (s : State) (core : Nat) (n : Nat) (va : W64) : Nat :=
  match s.launch? n with
  | none => 0x06
  | some x => match s.resolve core x.asn x.root va.toNat 8 .fetch with
    | .error .space => 0x08
    | _ => 0x06

/-- A fetch at an address needs a walk that a migration holds (R333, R393). -/
def State.fetchHeld (s : State) (g : Group) (va : W64) : Bool :=
  match s.launch? g.launch with
  | none => false
  | some x => s.walkHeld g.core x.asn va.toNat

/-- A word of code as the core sees it: from the instruction cache, else from the home (R65). -/
def State.peekWord (s : State) (core n : Nat) (va : W64) : Option W64 :=
  match s.codeAddr core n va with
  | none => none
  | some a =>
    match (s.core core).icache.find? fun e => e.1 == a / 8 with
    | some e => some e.2
    | none => some (s.load64 (a / 8 * 8))

/-- Fetching a word leaves it in the instruction cache and its translation in the TLBs (R65, R331). -/
def State.afterFetch (s : State) (core n : Nat) (va : W64) : State :=
  match s.codeAddr core n va, s.launch? n with
  | some a, some x =>
    match (s.core core).icache.find? fun e => e.1 == a / 8 with
    | some _ => s
    | none =>
      let w := s.load64 (a / 8 * 8)
      ((s.fillTlb core x.asn x.root va.toNat).l2See (a / 8 * 8) 8 false (coreWho 0 core) (dieOf core)).modCore core fun c => { c with icache := NMap.put c.icache (a / 8) w }
  | _, _ => s

/-- The header of the clause at an address, or 0 where it cannot be fetched. -/
def State.headerAt (s : State) (g : Group) (va : W64) : W64 := (s.peekWord g.core g.launch va).getD 0

end Sys2Proof.Machine
end

