-- ==== Sys2Proof/Machine/Alu.lean ====
section
/-! DEFINITION. The shared forms of the instructions that compute on registers (R70 to R74): the vector form writes the
lanes of EM and pushes a queue entry, the scalar form writes once per issue. -/

namespace Sys2Proof.Machine

/-- Writes a writable special from 32 bits (R70, R37). -/
def Group.setSpecial (g : Group) (k : Special) (x : W32) : Group :=
  match k with
  | .cm => { g with cm := x }
  | .en => { g with en := x }
  | .lc0 => g.lcSet 0 x
  | .lc1 => g.lcSet 1 x
  | .lc2 => g.lcSet 2 x
  | .fps => { g with fps := x.setWidth 5 }
  | _ => g

/-- A 32-bit result, or a narrower one already extended, delivered to its destination (R39, R72). -/
def Group.write32 (g : Group) (em : LaneMask) (d : Dest) (sx cleared : Bool) (f : Nat → W32 × FpFlags) : Group :=
  let ls := laneList em
  match d with
  | .v r => (((g.vsetLanes r.toNat (fun l => (f l).1) ls).push em fun l => (f l).1).settleFps cleared
      (flagsOver (fun l => (f l).2) ls))
  | .keep => ((g.push em fun l => (f l).1).settleFps cleared (flagsOver (fun l => (f l).2) ls))
  | .s r => (g.settleFps cleared (f 0).2).sset r.toNat (if sx then (f 0).1.signExtend 64 else (f 0).1.setWidth 64)
  | .sp k => (g.settleFps cleared (f 0).2).setSpecial k (f 0).1

/-- A 64-bit integer result delivered to its destination (R72): nothing is pushed. -/
def Group.write64 (g : Group) (em : LaneMask) (d : Dest) (cleared : Bool) (f : Nat → W64 × FpFlags) : Group :=
  match d with
  | .v r => (g.vset64Lanes r.toNat (fun l => (f l).1) (laneList em)).settleFps cleared
      (flagsOver (fun l => (f l).2) (laneList em))
  | .keep => g
  | .s r => (g.settleFps cleared (f 0).2).sset r.toNat (f 0).1
  | .sp k => (g.settleFps cleared (f 0).2).setSpecial k ((f 0).1.setWidth 32)

/-- An instruction with a 32-bit result computed per lane from the group as it was before (R6). -/
def alu32 (uses : List Use) (d : Dest) (tl : Tail) (sx : Bool) (f : Group → Nat → Nat → W32 × FpFlags) (s : State) :
    Result :=
  issue (uses ++ [.dst d false]) tl (fun c s =>
    .ok (s.put c (c.g.write32 c.em d sx (uses.any Use.readsFps) (f c.g c.rank)))) s

/-- An instruction with a 64-bit result. -/
def alu64 (uses : List Use) (d : Dest) (tl : Tail) (f : Group → Nat → Nat → W64 × FpFlags) (s : State) : Result :=
  issue (uses ++ [.dst d true]) tl (fun c s =>
    .ok (s.put c (c.g.write64 c.em d (uses.any Use.readsFps) (f c.g c.rank)))) s

/-- An instruction that writes CM in the lanes of EM (R36, R78). -/
def aluCm (uses : List Use) (tl : Tail) (f : Group → Nat → Nat → Bool × FpFlags) (s : State) : Result :=
  issue uses tl (fun c s =>
    let ls := laneList c.em
    .ok (s.put c ((c.g.settleFps (uses.any Use.readsFps) (flagsOver (fun l => (f c.g c.rank l).2) ls)).setCm c.em
      fun l => (f c.g c.rank l).1))) s

/-- A source's use at the width of an integer type (R71). -/
def useOf (t : IType) (o : Operand) : Use := if t.wide then .src64 o else .src o

/-- A source read at an integer type (R71), as a code of the type's width. -/
def Group.readType (g : Group) (rank : Nat) (t : IType) (o : Operand) (l : Nat) : Nat :=
  if t.wide then (g.read64 rank o l).toNat else (g.read32 rank .word o l).toNat % 2 ^ t.width

/-- A source read as the integer its type gives it. -/
def Group.readInt (g : Group) (rank : Nat) (t : IType) (o : Operand) (l : Nat) : Int :=
  intOf t.signed t.width (g.readType rank t o l)

/-- A result code of an integer type, extended to 32 bits (R72). -/
def extend32 (t : IType) (code : Nat) : W32 :=
  if t.signed then (BitVec.ofNat t.width code).signExtend 32 else (BitVec.ofNat t.width code).setWidth 32

/-- An integer instruction: the result is a code of the type's width. -/
def aluInt (t : IType) (srcs : List Operand) (d : Dest) (tl : Tail) (f : Group → Nat → Nat → Nat) (s : State) : Result :=
  if t.wide then
    alu64 (srcs.map (useOf t)) d tl (fun g k l => (BitVec.ofNat 64 (f g k l), 0)) s
  else
    alu32 (srcs.map (useOf t)) d tl (t == .i32) (fun g k l => (extend32 t (f g k l), 0)) s

/-- An integer instruction of one operand. -/
def aluInt1 (t : IType) (d : Dest) (a : Operand) (tl : Tail) (f : Int → Nat) (s : State) : Result :=
  aluInt t [a] d tl (fun g k l => f (g.readInt k t a l)) s

/-- An integer instruction of two operands. -/
def aluInt2 (t : IType) (d : Dest) (a b : Operand) (tl : Tail) (f : Int → Int → Nat) (s : State) : Result :=
  aluInt t [a, b] d tl (fun g k l => f (g.readInt k t a l) (g.readInt k t b l)) s

/-- An integer instruction of three operands. -/
def aluInt3 (t : IType) (d : Dest) (a b c : Operand) (tl : Tail) (f : Int → Int → Int → Nat) (s : State) : Result :=
  aluInt t [a, b, c] d tl (fun g k l => f (g.readInt k t a l) (g.readInt k t b l) (g.readInt k t c l)) s

end Sys2Proof.Machine
end

