-- ==== Sys2Proof/Machine/Float.lean ====
section
/-! DEFINITION. Floating-point arithmetic (R84 to R90). -/

namespace Sys2Proof.Machine

/-- The format of a float type; a packed type's is its halves'. -/
def fmtOf : FType → Fmt
  | .f32 => fp32
  | .f16 => fp16
  | .bf16 => bf16
  | .e4m3 => e4m3
  | .e5m2 => e5m2
  | .e2m1 => e2m1
  | .f16x2 => fp16
  | .bf16x2 => bf16

/-- The bits of a code of a format. -/
def fmtWidth (f : Fmt) : Nat := f.e + f.m + (if f.sp == .scale then 0 else 1)

/-- Applies a function on codes to the value of a float type, or to each half of a packed one; the flags are ored. -/
def onFloats (t : FType) (f : List Nat → Nat × FpFlags) (xs : List W32) : W32 × FpFlags :=
  if t.packed then
    let lo := f (xs.map fun x => x.toNat % 2 ^ 16)
    let hi := f (xs.map fun x => x.toNat / 2 ^ 16)
    (BitVec.ofNat 32 (lo.1 + hi.1 * 2 ^ 16), lo.2 ||| hi.2)
  else
    let r := f (xs.map fun x => x.toNat % 2 ^ fmtWidth (fmtOf t))
    (BitVec.ofNat 32 r.1, r.2)

/-- A floating-point instruction on operands of one type. -/
def aluFloat (t : FType) (srcs : List Operand) (d : Dest) (tl : Tail) (f : List Nat → Nat × FpFlags) (s : State) : Result :=
  alu32 (srcs.map .src) d tl false (fun g k l =>
    onFloats t f (srcs.map fun o => g.read32 k (constKindOf t) o l)) s

/-- An exact result rounded to the type, with the operation's own flags. -/
def deliverTo (t : FType) (rnd : Rnd) (sat : Bool) (x : Exact × FpFlags) : Nat × FpFlags :=
  let (c, fl) := (fmtOf t).deliver rnd sat x.1
  (c, fl ||| x.2)

/-- A rounded operation of one operand. -/
def aluF1 (t : FType) (sat : Bool) (rnd : Rnd) (d : Dest) (a : Operand) (tl : Tail) (f : Val → Exact × FpFlags)
    (s : State) : Result :=
  aluFloat t [a] d tl (fun
    | [x] => deliverTo t rnd sat (f ((fmtOf t).dec x))
    | _ => (0, 0)) s

/-- A rounded operation of two operands. -/
def aluF2 (t : FType) (sat : Bool) (rnd : Rnd) (d : Dest) (a b : Operand) (tl : Tail) (f : Val → Val → Exact × FpFlags)
    (s : State) : Result :=
  aluFloat t [a, b] d tl (fun
    | [x, y] => deliverTo t rnd sat (f ((fmtOf t).dec x) ((fmtOf t).dec y))
    | _ => (0, 0)) s

/-- A rounded operation of three operands. -/
def aluF3 (t : FType) (sat : Bool) (rnd : Rnd) (d : Dest) (a b c : Operand) (tl : Tail)
    (f : Val → Val → Val → Exact × FpFlags) (s : State) : Result :=
  aluFloat t [a, b, c] d tl (fun
    | [x, y, z] => deliverTo t rnd sat (f ((fmtOf t).dec x) ((fmtOf t).dec y) ((fmtOf t).dec z))
    | _ => (0, 0)) s

/-- A function of one code. -/
def aluCode1 (t : FType) (d : Dest) (a : Operand) (tl : Tail) (f : Nat → Nat × FpFlags) (s : State) : Result :=
  aluFloat t [a] d tl (fun
    | [x] => f x
    | _ => (0, 0)) s

/-- A function of two codes. -/
def aluCode2 (t : FType) (d : Dest) (a b : Operand) (tl : Tail) (f : Nat → Nat → Nat × FpFlags) (s : State) : Result :=
  aluFloat t [a, b] d tl (fun
    | [x, y] => f x y
    | _ => (0, 0)) s

/-- fadd (R84). -/
def execFadd (t : FType) (sat : Bool) (rnd : Rnd) (d : Dest) (a b : Operand) (tl : Tail) (s : State) : Result :=
  aluF2 t sat rnd d a b tl (exactAdd rnd) s

/-- fsub (R84). -/
def execFsub (t : FType) (sat : Bool) (rnd : Rnd) (d : Dest) (a b : Operand) (tl : Tail) (s : State) : Result :=
  aluF2 t sat rnd d a b tl (exactSub rnd) s

/-- fmul (R84). -/
def execFmul (t : FType) (sat : Bool) (rnd : Rnd) (d : Dest) (a b : Operand) (tl : Tail) (s : State) : Result :=
  aluF2 t sat rnd d a b tl exactMul s

/-- ffma (R84): one rounding. -/
def execFfma (t : FType) (sat : Bool) (rnd : Rnd) (d : Dest) (a b c : Operand) (tl : Tail) (s : State) : Result :=
  aluF3 t sat rnd d a b c tl (exactFma rnd) s

/-- fmin (R17, R85). -/
def execFmin (t : FType) (num : Bool) (d : Dest) (a b : Operand) (tl : Tail) (s : State) : Result :=
  aluCode2 t d a b tl ((fmtOf t).minmax false num) s

/-- fmax (R17, R85). -/
def execFmax (t : FType) (num : Bool) (d : Dest) (a b : Operand) (tl : Tail) (s : State) : Result :=
  aluCode2 t d a b tl ((fmtOf t).minmax true num) s

/-- fcmp (R86). -/
def execFcmp (t : FType) (cond : FCond) (a b : Operand) (tl : Tail) (s : State) : Result :=
  let f := fmtOf t
  aluCm [.src a, .src b] tl (fun g k l =>
    f.compare cond ((g.read32 k (constKindOf t) a l).toNat % 2 ^ fmtWidth f)
      ((g.read32 k (constKindOf t) b l).toNat % 2 ^ fmtWidth f)) s

/-- fclass (R87): one bit for the class; no flag. -/
def execFclass (t : FType) (d : Dest) (a : Operand) (tl : Tail) (s : State) : Result :=
  alu32 [.src a] d tl false (fun g k l =>
    (BitVec.ofNat 32 (2 ^ (fmtOf t).classOf ((g.read32 k (constKindOf t) a l).toNat % 2 ^ fmtWidth (fmtOf t))), 0)) s

/-- frcp (R84). -/
def execFrcp (t : FType) (sat : Bool) (rnd : Rnd) (d : Dest) (a : Operand) (tl : Tail) (s : State) : Result :=
  aluF1 t sat rnd d a tl exactRcp s

/-- frsq (R84). -/
def execFrsq (t : FType) (sat : Bool) (rnd : Rnd) (d : Dest) (a : Operand) (tl : Tail) (s : State) : Result :=
  aluF1 t sat rnd d a tl exactRsq s

/-- fsqrt (R84). -/
def execFsqrt (t : FType) (sat : Bool) (rnd : Rnd) (d : Dest) (a : Operand) (tl : Tail) (s : State) : Result :=
  aluF1 t sat rnd d a tl exactSqrt s

/-- fdiv (R84). -/
def execFdiv (t : FType) (sat : Bool) (rnd : Rnd) (d : Dest) (a b : Operand) (tl : Tail) (s : State) : Result :=
  aluF2 t sat rnd d a b tl exactDiv s

/-- fexp2 (R88). -/
def execFexp2 (t : FType) (d : Dest) (a : Operand) (tl : Tail) (s : State) : Result :=
  aluCode1 t d a tl (funcAt .exp2 (fmtOf t)) s

/-- flog2 (R88). -/
def execFlog2 (t : FType) (d : Dest) (a : Operand) (tl : Tail) (s : State) : Result :=
  aluCode1 t d a tl (funcAt .log2 (fmtOf t)) s

/-- fsinpi (R88). -/
def execFsinpi (t : FType) (d : Dest) (a : Operand) (tl : Tail) (s : State) : Result :=
  aluCode1 t d a tl (funcAt .sinpi (fmtOf t)) s

/-- fcospi (R88). -/
def execFcospi (t : FType) (d : Dest) (a : Operand) (tl : Tail) (s : State) : Result :=
  aluCode1 t d a tl (funcAt .cospi (fmtOf t)) s

/-- ftanh (R88). -/
def execFtanh (t : FType) (d : Dest) (a : Operand) (tl : Tail) (s : State) : Result :=
  aluCode1 t d a tl (funcAt .tanh (fmtOf t)) s

/-- frnd (R90). -/
def execFrnd (t : FType) (rnd : Rnd) (d : Dest) (a : Operand) (tl : Tail) (s : State) : Result :=
  aluCode1 t d a tl ((fmtOf t).rnd rnd) s

/-- ffrac (R90). -/
def execFfrac (t : FType) (d : Dest) (a : Operand) (tl : Tail) (s : State) : Result :=
  aluCode1 t d a tl (fmtOf t).frac s

/-- fldexp (R84): b is an int32 whatever the type, a constant's 32-bit pattern too (log entry 84). -/
def execFldexp (t : FType) (sat : Bool) (rnd : Rnd) (d : Dest) (a b : Operand) (tl : Tail) (s : State) : Result :=
  alu32 [.src a, .src b] d tl false (fun g k l =>
    let r := deliverTo t rnd sat (exactLdexp
      ((fmtOf t).dec ((g.read32 k (constKindOf t) a l).toNat % 2 ^ fmtWidth (fmtOf t)))
      (intOf true 32 (g.read32 k .word b l).toNat))
    (BitVec.ofNat 32 r.1, r.2)) s

/-- fgetexp (R90): an int32 whatever the type, no flag. -/
def execFgetexp (t : FType) (d : Dest) (a : Operand) (tl : Tail) (s : State) : Result :=
  alu32 [.src a] d tl true (fun g k l =>
    (BitVec.ofInt 32 ((fmtOf t).getexp ((g.read32 k (constKindOf t) a l).toNat % 2 ^ fmtWidth (fmtOf t))), 0)) s

/-- fgetmant (R90). -/
def execFgetmant (t : FType) (d : Dest) (a : Operand) (tl : Tail) (s : State) : Result :=
  aluCode1 t d a tl (fmtOf t).getmant s

/-- hadd2 (R84). -/
def execHadd2 (t : FType) (sat : Bool) (rnd : Rnd) (d : Dest) (a b : Operand) (tl : Tail) (s : State) : Result :=
  aluF2 t sat rnd d a b tl (exactAdd rnd) s

/-- hmul2 (R84). -/
def execHmul2 (t : FType) (sat : Bool) (rnd : Rnd) (d : Dest) (a b : Operand) (tl : Tail) (s : State) : Result :=
  aluF2 t sat rnd d a b tl exactMul s

/-- hfma2 (R84). -/
def execHfma2 (t : FType) (sat : Bool) (rnd : Rnd) (d : Dest) (a b c : Operand) (tl : Tail) (s : State) : Result :=
  aluF3 t sat rnd d a b c tl (exactFma rnd) s

/-- fdot2 (R84): two products of halves and an FP32 addend, rounded once to FP32. A constant c is FP32 (log entry 84). -/
def execFdot2 (t : FType) (sat : Bool) (rnd : Rnd) (d : Dest) (a b c : Operand) (tl : Tail) (s : State) : Result :=
  let f := fmtOf t
  alu32 [.src a, .src b, .src c] d tl false (fun g k l =>
    let x := (g.read32 k (constKindOf t) a l).toNat
    let y := (g.read32 k (constKindOf t) b l).toNat
    let z := (g.read32 k .word c l).toNat
    let r := deliverTo .f32 rnd sat (exactDot2 rnd (f.dec (x % 2 ^ 16)) (f.dec (y % 2 ^ 16)) (f.dec (x / 2 ^ 16))
      (f.dec (y / 2 ^ 16)) (fp32.dec z))
    (BitVec.ofNat 32 r.1, r.2)) s

/-- fabs (R85). -/
def execFabs (t : FType) (d : Dest) (a : Operand) (tl : Tail) (s : State) : Result :=
  aluCode1 t d a tl ((fmtOf t).signOp false) s

/-- fneg (R85). -/
def execFneg (t : FType) (d : Dest) (a : Operand) (tl : Tail) (s : State) : Result :=
  aluCode1 t d a tl ((fmtOf t).signOp true) s

/-- fclamp (R85): minimumNumber (maximumNumber (a, b), c). -/
def execFclamp (t : FType) (d : Dest) (a b c : Operand) (tl : Tail) (s : State) : Result :=
  aluFloat t [a, b, c] d tl (fun
    | [x, y, z] =>
      let (m, f1) := (fmtOf t).minmax true true x y
      let (r, f2) := (fmtOf t).minmax false true m z
      (r, f1 ||| f2)
    | _ => (0, 0)) s

end Sys2Proof.Machine
end

