-- ==== Sys2Proof/Machine/Convert.lean ====
section
/-! DEFINITION. Conversions, packing and block quantisation (R91 to R94), and the member masks they share with the
cross-lane instructions (R99 to R102). -/

namespace Sys2Proof.Machine

-- Member masks

/-- The value of a member-mask field (R99), as it was read when the header test was made (R101). -/
def Ctx.mask (c : Ctx) (m : MaskOp) : LaneMask :=
  match m with
  | .s r => (NMap.get 0 c.cl.sAt r.toNat).setWidth 32
  | .all => 0xFFFFFFFF

/-- The members: the mask's live lanes (R102). -/
def Ctx.members (c : Ctx) (m : MaskOp) : LaneMask := c.mask m &&& c.g.liveView

/-- The S register that an instruction word writes, as a mask: every destination field that names one, but for a store's,
which is read (R52). -/
def wordWritesS (w : W64) : BitVec 32 :=
  let op := (w.extractLsb' 54 10).toNat
  let d := (w.extractLsb' 40 8).toNat
  if op = 0x2C1 ∨ op = 0x2C4 ∨ d < 64 ∨ 96 ≤ d then 0 else BitVec.shiftLeft 1#32 (d - 64)

/-- The S registers that the words from an address write. -/
def State.writesFrom (s : State) (g : Group) (pc : W64) : Nat → BitVec 32
  | 0 => 0
  | n + 1 =>
    (match s.peekWord g.core g.launch pc with
      | some w => wordWritesS w
      | none => 0) ||| State.writesFrom s g (pc + 8) n

/-- No earlier instruction of the clause writes the mask's register (R101). -/
def State.maskFresh (s : State) (c : Ctx) (m : MaskOp) : Bool :=
  match m with
  | .s r => !(s.writesFrom c.g (c.cl.hdr + 8) ((c.cl.pc - c.cl.hdr).toNat / 8 - 1)).getLsbD r.toNat
  | .all => true

/-- A member-mask instruction: its mask register is unwritten in the clause, and every lane of EM is a member (R101). -/
def issueMember (m : MaskOp) (uses : List Use) (tl : Tail) (body : Ctx → State → Effect) (s : State) : Result :=
  issueIf (fun c => s.maskFresh c m) uses tl (fun c s =>
    if c.em &&& ~~~c.mask m = 0 then body c s
    else c.fault 0x03 c.word (c.em &&& ~~~c.mask m)) s

-- Conversions

/-- The format of a float source of cvt. -/
def cvtFmt : CvtSrc → Fmt
  | .f32 => fp32
  | .f16 => fp16
  | .bf16 => bf16
  | .e4m3 => e4m3
  | .e5m2 => e5m2
  | .e2m1 => e2m1
  | .int _ => fp32

/-- The constant kind of a source type: constants are supplied in the type the operand is read at (log entry 16). -/
def cvtConst : CvtSrc → ConstKind
  | .f16 => .f16
  | .bf16 => .bf16
  | _ => .word

/-- The use of a conversion's source. -/
def cvtUse (src : CvtSrc) (a : Operand) : Use :=
  match src with
  | .int t => useOf t a
  | _ => .src a

/-- A float source's code. -/
def Group.readFloat (g : Group) (rank : Nat) (src : CvtSrc) (a : Operand) (l : Nat) : Nat :=
  (g.read32 rank (cvtConst src) a l).toNat % 2 ^ fmtWidth (cvtFmt src)

/-- The code of a conversion to an integer type (R18, R91); under `.sat` an integer source clamps too (log entry 84). -/
def cvtIntCode (src : CvtSrc) (t : IType) (sat : Bool) (rnd : Rnd) (a : Operand) (g : Group) (k l : Nat) :
    Nat × FpFlags :=
  match src with
  | .int st => (fit t.signed sat t.width (g.readInt k st a l), 0)
  | _ => (cvtFmt src).toInt rnd t.signed t.width (g.readFloat k src a l)

/-- cvt to an integer type (R91). -/
def execCvtToInteger (src : CvtSrc) (t : IType) (sat : Bool) (rnd : Rnd) (d : Dest) (a : Operand) (tl : Tail)
    (s : State) : Result :=
  let f := cvtIntCode src t sat rnd a
  if t.wide then alu64 [cvtUse src a] d tl (fun g k l => (BitVec.ofNat 64 (f g k l).1, (f g k l).2)) s
  else alu32 [cvtUse src a] d tl (t == .i32) (fun g k l => (extend32 t (f g k l).1, (f g k l).2)) s

/-- cvt to a float type (R91). -/
def execCvtToFloat (src : CvtSrc) (t : FType) (sat : Bool) (rnd : Rnd) (d : Dest) (a : Operand) (tl : Tail) (s : State) :
    Result :=
  alu32 [cvtUse src a] d tl false (fun g k l =>
    let r := match src with
      | .int st => (fmtOf t).ofInt rnd sat (g.readInt k st a l)
      | _ => (cvtFmt src).convert (fmtOf t) rnd sat (g.readFloat k src a l)
    (BitVec.ofNat 32 r.1, r.2)) s

-- Packing

/-- The format of pk and unpk (R92). -/
def pkFmt : PkFmt → Fmt
  | .f16 => fp16
  | .bf16 => bf16
  | .e4m3 => e4m3
  | .e5m2 => e5m2
  | .e2m1 => e2m1
  | .e5m3 => e5m3

/-- The bits of an element of a packing format. -/
def pkBits : PkFmt → Nat
  | .f16 => 16
  | .bf16 => 16
  | .e2m1 => 4
  | _ => 8

/-- The destination's prior 32 bits; with `_` they are zero (R92). -/
def Group.prior (g : Group) (rank : Nat) (d : Dest) (l : Nat) : W32 :=
  match d with
  | .v r => g.vget r.toNat l
  | .keep => 0
  | .s r => (g.sget r.toNat).setWidth 32
  | .sp k => (g.special rank k).setWidth 32

/-- pk (R92): two converted values side by side at element pair c; other bits keep the prior contents, but an S register
receives the 32-bit result zero-extended (R72; log entry 84). -/
def execPk (fmt : PkFmt) (sat : Bool) (rnd : Rnd) (d : Dest) (a b : Operand) (c : BitVec 2) (tl : Tail) (s : State) :
    Result :=
  alu32 [.src a, .src b] d tl false (fun g k l =>
    let w := pkBits fmt
    let x := fp32.convert (pkFmt fmt) rnd sat (g.read32 k .word a l).toNat
    let y := fp32.convert (pkFmt fmt) rnd sat (g.read32 k .word b l).toNat
    let at_ := if w = 16 then 0 else 2 * w * c.toNat
    let m : W32 := BitVec.ofNat 32 ((2 ^ (2 * w) - 1) * 2 ^ at_)
    ((g.prior k d l &&& ~~~m) ||| BitVec.ofNat 32 ((x.1 + y.1 * 2 ^ w) * 2 ^ at_), x.2 ||| y.2)) s

/-- unpk (R93): element c of a 32-bit word, a constant's too (log entry 84), exactly. -/
def execUnpk (fmt : PkFmt) (d : Dest) (a : Operand) (c : BitVec 3) (tl : Tail) (s : State) : Result :=
  alu32 [.src a] d tl false (fun g k l =>
    let w := pkBits fmt
    let r := (pkFmt fmt).convert fp32 .rn false ((g.read32 k .word a l).toNat / 2 ^ (w * c.toNat) % 2 ^ w)
    (BitVec.ofNat 32 r.1, r.2)) s

-- Block quantisation

/-- The element format of a scaled format (R19). -/
def scElem : ScFmt → Fmt
  | .sc8 => e4m3
  | .sc8w => e5m2
  | .sc4 => e2m1

/-- Fmax of a scaled format (R94). -/
def scMax : ScFmt → Nat
  | .sc8 => 448
  | .sc8w => 57344
  | .sc4 => 6

/-- The larger of two exact nonnegative magnitudes. -/
def maxFrac (a b : Nat × Nat) : Nat × Nat := if a.1 * b.2 < b.1 * a.2 then b else a

/-- The largest magnitude of exact values, as a fraction. -/
def maxMag (vs : List Exact) : Nat × Nat :=
  vs.foldl (fun m v => match v with
    | .num _ n d => maxFrac m (n, d)
    | _ => m) (0, 1)

/-- The block scale of exact members (R94): NaN when one is NaN or infinite, 1.0 for an all-zero block, else the smallest
scale that fits. -/
def exactScale (fmt : ScFmt) (vs : List Exact) : Nat :=
  if vs.any (fun v => match v with
    | .num _ _ _ => false
    | _ => true) then 0xFF
  else
    let m := maxMag vs
    if m.1 = 0 then 0x78
    else
      let sc := (e5m3.deliver .ru false (.num false m.1 (m.2 * scMax fmt))).1
      if sc = 0xFF then 0xFE else sc

/-- The block scale of FP32 members. -/
def blockScale (fmt : ScFmt) (xs : List Nat) : Nat := exactScale fmt (xs.map fun x => (fp32.dec x).exact)

/-- An exact value divided by an exact nonzero scale. -/
def divExact (x sc : Exact) : Exact :=
  match x, sc with
  | .num n p q, .num _ a b => .num n (p * b) (q * a)
  | .num _ _ _, _ => .nan
  | .inf n, _ => .inf n
  | .nan, _ => .nan

/-- The code of an exact element under a scale (R94): a NaN scale gives the NaN code. -/
def exactCode (fmt : ScFmt) (rnd : Rnd) (sc : Nat) (x : Exact) : Nat × FpFlags :=
  if sc = 0xFF then ((scElem fmt).nan, 0)
  else (scElem fmt).deliver rnd true (divExact x (e5m3.dec sc).exact)

/-- An FP32 element's code under a scale. -/
def blockCode (fmt : ScFmt) (rnd : Rnd) (sc x : Nat) : Nat × FpFlags := exactCode fmt rnd sc (fp32.dec x).exact

/-- scaleq (R94). -/
def execScaleq (fmt : ScFmt) (rnd : Rnd) (d : Dest) (a : Operand) (m : MaskOp) (tl : Tail) (s : State) : Result :=
  issueMember m [.src a, .dst d false] tl (fun c s =>
    let x (l : Nat) : Nat := (c.g.read32 c.rank .word a l).toNat
    let sc := blockScale fmt ((laneList (c.members m)).map x)
    let iv : FpFlags := if sc = 0xFF then fIV else 0
    let g := c.g.write32 c.em d false ((Use.src a).readsFps) (fun l =>
      let r := blockCode fmt rnd sc (x l)
      (BitVec.ofNat 32 (sc * 256 + r.1), r.2))
    .ok (s.put c (g.orFlags iv))) s

end Sys2Proof.Machine
end

