-- ==== Sys2Proof/Machine/Control.lean ====
section
/-! DEFINITION. Control flow (R134 to R149): branches, calls, exit, halt, handler returns, hardware loops, yielding and
sleeping, the software trap and breakpoint instruction. -/

namespace Sys2Proof.Machine

/-- A target address is valid: a multiple of 8 below 2^56 (R135). -/
def targetOk (t : W64) : Bool := t.extractLsb' 0 3 == 0 && t.extractLsb' 56 8 == 0

/-- The direct target of a branch or loop: the header plus a signed word offset (R57, R145). -/
def Clause.target (c : Clause) (off : BitVec 24) : W64 := c.hdr + off.signExtend 64 * 8

/-- Moves the lanes that passed the clause: those of a mask to their targets, the others to the fall-through (R134). -/
def Group.transfer (g : Group) (c : Clause) (at_ to_ : LaneMask) (t : Nat → W64) : Group :=
  g.setPcs (fun l => if to_.getLsbD l then t l else c.fall) (laneList (at_ &&& g.live))

/-- The lowest lane of a mask, or 0. -/
def firstLane (m : LaneMask) : Nat := (lowestLane m).getD 0

/-- A control-target fault when some lane's target is not valid (R135), else the continuation. -/
def Ctx.checkTargets (c : Ctx) (to_ : LaneMask) (t : Nat → W64) (k : Effect) : Effect :=
  let bad := maskOf fun l => to_.getLsbD l && !targetOk (t l)
  if bad = 0 then k else c.fault 0x05 (t (firstLane bad)) bad

/-- The one-clause preference of a hinted branch that divides the lanes of EM (R129). -/
def branchPref (h : Hint) (c : Ctx) (to_ : LaneMask) (t : W64) (old : Option W64) : Option W64 :=
  let split := to_ != 0 && c.em &&& ~~~to_ != 0 && t != c.cl.fall
  match h with
  | .likely => if split then some t else old
  | .unlikely => if split then some c.cl.fall else old
  | _ => old

/-- The clause that a branch's hint has the fetch unit fetch (R130). -/
def hinted (h : Hint) (c : Clause) (t : W64) : W64 :=
  match h with
  | .likely => t
  | .uni => t
  | _ => c.fall

/-- A direct branch that sends some lanes of EM to its target (R137). -/
def branch (h : Hint) (off : BitVec 24) (uses : List Use) (sel : Ctx → LaneMask) (s : State) : Result :=
  issueTerminal (fun _ => true) uses (fun c s =>
    let t := c.cl.target off
    let to_ := sel c &&& c.em
    c.checkTargets to_ (fun _ => t)
      (.ok (s.put c { (c.g.settleFps (uses.any Use.readsFps) 0).transfer c.cl c.at_ to_ (fun _ => t) with
        pref := branchPref h c to_ t c.g.pref, hint := some (hinted h c.cl t) }))) s

/-- bra (R137). -/
def execBra (h : Hint) (off : BitVec 24) (s : State) : Result := branch h off [] (fun c => c.em) s

/-- The operand uses of brc and bru. -/
def brcUses : BrcCond → List Use
  | .nz a => [.src a]
  | .z a => [.src a]
  | _ => []

/-- The lanes that brc sends to the target (R137). -/
def brcLanes (cond : BrcCond) (c : Ctx) : LaneMask :=
  match cond with
  | .cm => c.g.cm
  | .ncm => ~~~c.g.cm
  | .nz a => maskOf fun l => c.g.read32 c.rank .word a l != 0
  | .z a => maskOf fun l => c.g.read32 c.rank .word a l == 0

/-- brc (R137). -/
def execBrc (cond : BrcCond) (h : Hint) (off : BitVec 24) (s : State) : Result :=
  branch h off (brcUses cond) (brcLanes cond) s

/-- The operand uses of bru, read once per issue as 64 bits. -/
def bruUses : BruCond → List Use
  | .snz a => [.src64 a]
  | .sz a => [.src64 a]
  | _ => []

/-- The decision of bru, one per issue (R137). -/
def bruTaken (cond : BruCond) (c : Ctx) : Bool :=
  let x := c.g.cm &&& c.em
  match cond with
  | .any => x != 0
  | .all => x == c.em
  | .none => x == 0
  | .nall => x != c.em
  | .snz a => c.g.read64 c.rank a 0 != 0
  | .sz a => c.g.read64 c.rank a 0 == 0

/-- bru (R137). -/
def execBru (cond : BruCond) (h : Hint) (off : BitVec 24) (s : State) : Result :=
  branch h off (bruUses cond) (fun c => if bruTaken cond c then c.em else 0) s

/-- call (R137): the link is written once per issue, whatever EN holds. -/
def execCall (link : BitVec 5) (h : Hint) (off : BitVec 24) (s : State) : Result :=
  issueTerminal (fun _ => true) [] (fun c s =>
    let t := c.cl.target off
    c.checkTargets c.em (fun _ => t)
      (.ok (s.put c { (c.g.sset link.toNat c.cl.fall).transfer c.cl c.at_ c.em (fun _ => t) with
        hint := some (hinted h c.cl t) }))) s

/-- An indirect transfer of the lanes of EM to their targets (R138). -/
def indirect (a : Operand) (s : State) : Result :=
  issueTerminal (fun _ => true) [.src64 a] (fun c s =>
    let t (l : Nat) : W64 := c.g.read64 c.rank a l
    c.checkTargets c.em t (.ok (s.put c (c.g.transfer c.cl c.at_ c.em t)))) s

/-- ret (R138). -/
def execRet (a : Operand) (s : State) : Result := indirect a s

/-- jmpi (R138): the effect of ret. -/
def execJmpi (a : Operand) (s : State) : Result := indirect a s

/-- calli (R138): the target is read before the link is written. -/
def execCalli (d : Dest) (a : Operand) (s : State) : Result :=
  issueTerminal (fun _ => true) [.src64 a, .dst d true] (fun c s =>
    let t (l : Nat) : W64 := c.g.read64 c.rank a l
    let linked := match d with
      | .s r => c.g.sset r.toNat c.cl.fall
      | .v r => c.g.vset64Lanes r.toNat (fun _ => c.cl.fall) (laneList c.em)
      | _ => c.g
    c.checkTargets c.em t (.ok (s.put c (linked.transfer c.cl c.at_ c.em t)))) s

/-- The debug handler's address of a group's launch, 0 when debug is disabled (R255). -/
def State.dhaOf (s : State) (g : Group) : W64 := ((s.launch? g.launch).map Launch.dha).getD 0

/-- Debug is enabled in a group's queue (R391). -/
def State.debugOn (s : State) (g : Group) : Bool := ((s.launch? g.launch).map Launch.debug).getD false

/-- exit (R139, R234): the lanes of EM leave, and with the last one the group starts to drain (R131); that is a hash point
(R385). -/
def execExit (s : State) : Result :=
  issueTerminal (fun c => c.g.hkind == 0) [] (fun c s =>
    let left := c.g.live &&& ~~~c.em
    let g := { c.g with live := left, draining := left == 0 }
    let s1 := (s.put c (g.transfer c.cl c.at_ 0 (fun _ => 0))).verdicts c.g (fun _ => 0)
      (laneList (c.em &&& c.g.covLanes &&& ~~~c.g.covDone))
    .ok (if left = 0 then s1.addHash c.gid [.point c.cl.pc (s.core c.core).engineSeq] else s1)) s

/-- Reset value of a breakpoint filter: every group of the mask (R370). -/
def bpfReset : W64 := 0x0000FFFFFFFFFFFF

/-- Writes debug register n (R370). -/
def Core.setDebug (c : Core) (n : Nat) (x : W64) : Core :=
  if n < 8 then { c with bpa := NMap.set 0 c.bpa n x }
  else if n < 16 then { c with bpf := NMap.set bpfReset c.bpf (n - 8) x }
  else if n < 24 then { c with dwa := NMap.set 0 c.dwa (n - 16) x }
  else { c with dwc := NMap.set 0 c.dwc (n - 24) x }

/-- Debug register n (R370). -/
def Core.debugReg (c : Core) (n : Nat) : W64 :=
  if n < 8 then NMap.get 0 c.bpa n
  else if n < 16 then NMap.get bpfReset c.bpf (n - 8)
  else if n < 24 then NMap.get 0 c.dwa (n - 16)
  else NMap.get 0 c.dwc (n - 24)

/-- The debug registers that the handler wrote take effect (R264). -/
def State.applyDebug (s : State) (core : Nat) : NMap W64 → State
  | [] => s
  | (n, x) :: rest => State.applyDebug (s.modCore core fun c => c.setDebug n x) core rest

/-- rtt (R143, R258): outside a handler it is illegal; every live lane's EPC is checked. -/
def execRtt (s : State) : Result :=
  issueTerminal (fun c => c.g.hkind != 0) [] (fun c s =>
    c.checkTargets c.g.live (fun l => NMap.get 0 c.g.epc l)
      (.ok ((s.put c { c.g.leaveHandler (s.headerAt c.g c.g.ehdr) with dbgPend := [] }).applyDebug c.core c.g.dbgPend))) s

/-- halt (R140): with debug enabled the group halts, which a type-6 record reports (R369), otherwise it takes the halt trap. -/
def execHalt (s : State) : Result :=
  issueTerminal (fun _ => true) [] (fun c s =>
    if !s.debugOn c.g then
      .trap { code := 0x19, wr := false, addr := 0, mask := c.at_, resume := c.cl.fall }
    else
      let x := s.siteOf c.g c.cl.pc
      .ok ((s.put c { c.g.transfer c.cl c.at_ 0 (fun _ => 0) with halted := true }).recordFree (dieOf c.core) 6 x.words)) s

/-- loop (R145, R146): the divergence check comes first. -/
def execLoop (n : BitVec 2) (off : BitVec 24) (s : State) : Result :=
  issueTerminal (fun c => c.cl.pc == c.cl.lastWord) [] (fun c s =>
    let live := c.g.liveView
    let lc := c.g.lcGet n.toNat
    if c.em != live then c.fault 0x11 ((live &&& ~~~c.em).setWidth 64) c.em
    else if lc = 0 then .ok (s.put c (c.g.transfer c.cl c.at_ 0 (fun _ => 0)))
    else
      let t := c.cl.target off
      c.checkTargets c.em (fun _ => t)
        (.ok (s.put c ((c.g.lcSet n.toNat (lc - 1)).transfer c.cl c.at_ c.em (fun _ => t))))) s

/-- nop (R144). -/
def execNop (s : State) : Result := issue [] none (fun _ s => .ok s) s

/-- yield (R144): the group ranks as under YLD when the clause ends. -/
def execYield (s : State) : Result :=
  issue [] none (fun c s => .ok (s.put c { c.g with clause := some { c.cl with yld := true } })) s

/-- sleep (R144): the last one issued sets the time. -/
def execSleep (n : BitVec 24) (s : State) : Result :=
  issue [] none (fun c s => .ok (s.put c { c.g with clause := some { c.cl with sleep := some n.toNat } })) s

/-- trap (R141): with an empty EM it has no effect. -/
def execTrap (imm : BitVec 24) (s : State) : Result :=
  issue [] none (fun c s =>
    if c.em = 0 then .ok s
    else .trap { code := 0x18, wr := false, addr := imm.setWidth 64, mask := c.em, resume := c.cl.pc + 8 }) s

/-- Entry into the debug handler (R256). -/
def State.enterDebug (s : State) (gid : Nat) (issuePc hdr : W64) (t : Trap) : State :=
  match s.group? gid with
  | none => s
  | some g =>
    (s.setGroup gid ((g.enterHandler 2 (s.dhaOf g) issuePc hdr t).pauseAfter g.clause t s.now)).recordTrap (s.siteOf g issuePc) t.cause t.addr t.mask

/-- brk (R142): the debug handler when debug is enabled, EM is not empty and no handler runs; otherwise no effect. -/
def execBrk (code : BitVec 6) (s : State) : Result :=
  match s.ctx? with
  | none => .fault .noIssuingGroup
  | some c =>
    if c.em != 0 && s.dhaOf c.g != 0 && c.g.hkind == 0 then
      .next (s.enterDebug c.gid c.cl.pc c.cl.hdr
        { code := 0x21, wr := false, addr := code.setWidth 64, mask := c.em, resume := c.cl.pc + 8 })
    else issue [] none (fun _ s => .ok s) s

/-- A word that is no legal instruction (R62, R63): the trap with cause 0x02, EADDR the word. -/
def execIllegalOpcode (word : W64) (s : State) : Result :=
  issue [] none (fun c _ => c.fault 0x02 word c.em) s

-- Spawning

/-- The cycle at which a bin has closed, if it has: full, by an eviction, or by its timer (R151, R156). -/
def Bin.closing (b : Bin) (now : Nat) : Option Nat :=
  match b.closedAt with
  | some t => some t
  | none => if b.expires ≤ now then some b.expires else none

/-- Whether a bin takes a thread of a key (R151). -/
def Bin.accepts (b : Bin) (now blk : Nat) (entry : W64) : Bool := (b.closing now).isNone && b.blk == blk && b.entry == entry

/-- The stores and atomics of a group to its own core's tile memory, by whatever address, that are still to be performed (R155). -/
def State.ownUpdates (s : State) (gid : Nat) : List Nat :=
  (s.reqs.filter fun r => r.gid == gid && r.arr == 4096 + r.core && r.todo.any Access.updates).map Req.id

/-- A thread joins a bin, which closes when it reaches 32 threads (R151). -/
def Bin.join (b : Bin) (t : SpawnThread) (now : Nat) (before : List Nat) : Bin :=
  { b with threads := b.threads ++ [t], before := b.before ++ before,
           closedAt := if b.threads.length + 1 = 32 then some now else b.closedAt }

/-- The placement of one thread (R151): whether it was created. -/
def State.spawnOne (s : State) (core blk : Nat) (entry : W64) (t : SpawnThread) (before : List Nat) : Bool × State :=
  match s.block? blk with
  | none => (false, s)
  | some x =>
    if x.spawnTaken ≥ x.spawn then (false, s)
    else
      let bins := (s.core core).bins
      let take (n : Nat) (b : Bin) : Bool × State :=
        (true, (s.modCore core fun c => { c with bins := NMap.put c.bins n b }).modBlock blk fun x =>
          { x with spawnTaken := x.spawnTaken + 1 })
      match bins.find? fun e => e.2.accepts s.now blk entry with
      | some (n, b) => take n (b.join t s.now before)
      | none =>
        match (List.range 16).find? fun n => !NMap.has bins n with
        | none => (false, s)
        | some n =>
          let bint := ((s.launch? x.launch).map Launch.bint).getD 256
          take n { blk := blk, entry := entry, threads := [t], expires := s.now + bint, closedAt := none, before := before }

/-- The threads of a list of lanes, in ascending order: the mask of those created (R150). -/
def State.spawnLanes (s : State) (core blk : Nat) (entry : Nat → W64) (t : Nat → SpawnThread) (before : List Nat) :
    List Nat → LaneMask × State
  | [] => (0, s)
  | l :: ls =>
    let (ok, s1) := s.spawnOne core blk (entry l) (t l) before
    let (m, s2) := State.spawnLanes s1 core blk entry t before ls
    ((if ok then BitVec.shiftLeft 1#32 l else 0#32) ||| m, s2)

/-- spawn (R150, R151, R155). -/
def execSpawn (d : BitVec 6) (a b cc : Operand) (s : State) : Result :=
  issueIf (fun c => c.g.hkind == 0) ([.src64 a, .src b, .src cc] ++ (if d = 0 then [] else [.regs d 1 1])) none
    (fun c s =>
      match s.block? c.g.blk with
      | none => c.illegalOperand
      | some x =>
        if x.spawn = 0 then c.illegalOperand
        else
          let entry (l : Nat) : W64 := c.g.read64 c.rank a l
          let thread (l : Nat) : SpawnThread :=
            { b := c.g.read32 c.rank .word b l, c := c.g.read32 c.rank .word cc l,
              ident := BitVec.ofNat 32 (c.g.gix * 32 + l), cov := none }
          let before := s.ownUpdates c.gid
          c.checkTargets c.em entry
            (let r := s.spawnLanes c.core c.g.blk entry thread before (laneList c.em)
             .ok (r.2.modGroup c.gid fun g =>
               let g := g.settleFps ([Use.src b, Use.src cc].any Use.readsFps) 0
               if d = 0 then g
               else g.vsetLanes d.toNat (fun l => if r.1.getLsbD l then 1 else 0) (laneList c.em)))) s

end Sys2Proof.Machine
end

