-- ==== Sys2Proof/Machine/Bc7.lean ====
section
/-! DEFINITION. The texels of a BC7 block (R235) as the Khronos Data Format Specification decodes them: an outside document, whose
tables the model takes over (log entry 8). A block is a number of 128 bits, its first byte lowest. -/

namespace Sys2Proof.Machine

/-- A mode of a block: subsets, partition bits, rotation bits, index-selection bits, colour bits, alpha bits, whether every
endpoint has a p-bit or each subset one, and the widths of the two indices. -/
structure Bc7Mode where
  subsets : Nat
  part : Nat
  rot : Nat
  sel : Nat
  color : Nat
  alpha : Nat
  pEnd : Bool
  pSub : Bool
  ib : Nat
  ib2 : Nat
  deriving DecidableEq, Repr

/-- The eight modes. -/
def bc7Modes : List Bc7Mode :=
  [⟨3, 4, 0, 0, 4, 0, true, false, 3, 0⟩, ⟨2, 6, 0, 0, 6, 0, false, true, 3, 0⟩, ⟨3, 6, 0, 0, 5, 0, false, false, 2, 0⟩,
   ⟨2, 6, 0, 0, 7, 0, true, false, 2, 0⟩, ⟨1, 0, 2, 1, 5, 6, false, false, 2, 3⟩, ⟨1, 0, 2, 0, 7, 8, false, false, 2, 2⟩,
   ⟨1, 0, 0, 0, 7, 7, true, false, 4, 0⟩, ⟨2, 6, 0, 0, 5, 5, true, false, 2, 0⟩]

/-- The partitions into two subsets: bit i is the subset of texel i. -/
def bc7Two : List Nat :=
  [0xCCCC, 0x8888, 0xEEEE, 0xECC8, 0xC880, 0xFEEC, 0xFEC8, 0xEC80, 0xC800, 0xFFEC, 0xFE80, 0xE800, 0xFFE8, 0xFF00, 0xFFF0, 0xF000] ++
  [0xF710, 0x008E, 0x7100, 0x08CE, 0x008C, 0x7310, 0x3100, 0x8CCE, 0x088C, 0x3110, 0x6666, 0x366C, 0x17E8, 0x0FF0, 0x718E, 0x399C] ++
  [0xAAAA, 0xF0F0, 0x5A5A, 0x33CC, 0x3C3C, 0x55AA, 0x9696, 0xA55A, 0x73CE, 0x13C8, 0x324C, 0x3BDC, 0x6996, 0xC33C, 0x9966, 0x0660] ++
  [0x0272, 0x04E4, 0x4E40, 0x2720, 0xC936, 0x936C, 0x39C6, 0x639C, 0x9336, 0x9CC6, 0x817E, 0xE718, 0xCCF0, 0x0FCC, 0x7744, 0xEE22]

/-- The partitions into three subsets: bits 2i + 1 and 2i are the subset of texel i. -/
def bc7Three : List Nat :=
  [0xAA685050, 0x6A5A5040, 0x5A5A4200, 0x5450A0A8, 0xA5A50000, 0xA0A05050, 0x5555A0A0, 0x5A5A5050] ++
  [0xAA550000, 0xAA555500, 0xAAAA5500, 0x90909090, 0x94949494, 0xA4A4A4A4, 0xA9A59450, 0x2A0A4250] ++
  [0xA5945040, 0x0A425054, 0xA5A5A500, 0x55A0A0A0, 0xA8A85454, 0x6A6A4040, 0xA4A45000, 0x1A1A0500] ++
  [0x0050A4A4, 0xAAA59090, 0x14696914, 0x69691400, 0xA08585A0, 0xAA821414, 0x50A4A450, 0x6A5A0200] ++
  [0xA9A58000, 0x5090A0A8, 0xA8A09050, 0x24242424, 0x00AA5500, 0x24924924, 0x24499224, 0x50A50A50] ++
  [0x500AA550, 0xAAAA4444, 0x66660000, 0xA5A0A5A0, 0x50A050A0, 0x69286928, 0x44AAAA44, 0x66666600] ++
  [0xAA444444, 0x54A854A8, 0x95809580, 0x96969600, 0xA85454A8, 0x80959580, 0xAA141414, 0x96960000] ++
  [0xAAAA1414, 0xA05050A0, 0xA0A5A5A0, 0x96000000, 0x40804080, 0xA9A8A9A8, 0xAAAAAA44, 0x2A4A5254]

/-- The anchor texel of the second of two subsets, by partition. -/
def bc7Anchor2 : List Nat :=
  [15, 15, 15, 15, 15, 15, 15, 15, 15, 15, 15, 15, 15, 15, 15, 15] ++ [15, 2, 8, 2, 2, 8, 8, 15, 2, 8, 2, 2, 8, 8, 2, 2] ++
  [15, 15, 6, 8, 2, 8, 15, 15, 2, 8, 2, 2, 2, 15, 15, 6] ++ [6, 2, 6, 8, 15, 15, 2, 2, 15, 15, 15, 15, 15, 2, 2, 15]

/-- The anchor texels of the second and third of three subsets, by partition. -/
def bc7Anchor3 : List Nat × List Nat :=
  ([3, 3, 15, 15, 8, 3, 15, 15, 8, 8, 6, 6, 6, 5, 3, 3] ++ [3, 3, 8, 15, 3, 3, 6, 10, 5, 8, 8, 6, 8, 5, 15, 15] ++
   [8, 15, 3, 5, 6, 10, 8, 15, 15, 3, 15, 5, 15, 15, 15, 15] ++ [3, 15, 5, 5, 5, 8, 5, 10, 5, 10, 8, 13, 15, 12, 3, 3],
   [15, 8, 8, 3, 15, 15, 3, 8, 15, 15, 15, 15, 15, 15, 15, 8] ++ [15, 8, 15, 3, 15, 8, 15, 8, 3, 15, 6, 10, 15, 15, 10, 8] ++
   [15, 3, 15, 10, 10, 8, 9, 10, 6, 15, 8, 15, 3, 6, 6, 8] ++ [15, 3, 15, 15, 15, 15, 15, 15, 15, 15, 15, 15, 3, 15, 15, 8])

/-- Bits of a block. -/
def bitsAt (x at_ n : Nat) : Nat := x / 2 ^ at_ % 2 ^ n

/-- The weights of an index of 2, 3 or 4 bits, in 64ths. -/
def bc7Weights (n : Nat) : List Nat :=
  if n = 2 then [0, 21, 43, 64] else if n = 3 then [0, 9, 18, 27, 37, 46, 55, 64]
  else [0, 4, 9, 13, 17, 21, 26, 30, 34, 38, 43, 47, 51, 55, 60, 64]

/-- The subset of a texel, and the anchor texels of a partition. -/
def bc7Subset (m : Bc7Mode) (part sub : Nat) : Nat × List Nat :=
  if m.subsets = 1 then (0, [0])
  else if m.subsets = 2 then (bitsAt (bc7Two.getD part 0) sub 1, [0, bc7Anchor2.getD part 0])
  else (bitsAt (bc7Three.getD part 0) (2 * sub) 2, [0, bc7Anchor3.1.getD part 0, bc7Anchor3.2.getD part 0])

/-- The index of a texel in an index list that starts at a bit: n bits a texel, the anchors one less. -/
def bc7Index (x start n : Nat) (anchors : List Nat) (sub : Nat) : Nat :=
  let before := (anchors.filter fun a => decide (a < sub)).length
  bitsAt x (start + n * sub - before) (if anchors.contains sub then n - 1 else n)

/-- An endpoint's value of n bits, its upper bits repeated to eight. -/
def bc7Expand (v n : Nat) : Nat := v * 2 ^ (8 - n) + v / 2 ^ (2 * n - 8)

/-- Component comp (r, g, b, a) of texel sub of a block, of 255; a block without a mode gives 0. -/
def bc7Value (x sub comp : Nat) : Nat :=
  match (List.range 8).find? fun k => bitsAt x k 1 == 1 with
  | none => 0
  | some k =>
    let m := bc7Modes.getD k ⟨1, 0, 0, 0, 0, 0, false, false, 2, 0⟩
    let atRot := k + 1 + m.part
    let rot := bitsAt x atRot m.rot
    let sel := bitsAt x (atRot + m.rot) m.sel
    let (subset, anchors) := bc7Subset m (bitsAt x (k + 1) m.part) sub
    -- the component stored where this one is delivered from
    let c := if rot = 0 then comp else if comp = 3 then rot - 1 else if comp + 1 = rot then 3 else comp
    let ends := 2 * m.subsets
    let atEnd := atRot + m.rot + m.sel
    let atP := atEnd + ends * (3 * m.color + m.alpha)
    let atIdx := atP + (if m.pEnd then ends else if m.pSub then m.subsets else 0)
    let endpoint (e : Nat) : Nat :=
      let j := 2 * subset + e
      let w := if c = 3 then m.alpha else m.color
      let v := bitsAt x (if c = 3 then atEnd + ends * 3 * m.color + j * m.alpha else atEnd + (ends * c + j) * m.color) w
      if m.pEnd then bc7Expand (2 * v + bitsAt x (atP + j) 1) (w + 1)
      else if m.pSub then bc7Expand (2 * v + bitsAt x (atP + subset) 1) (w + 1)
      else bc7Expand v w
    if c = 3 && m.alpha = 0 then 255
    else
      -- of two index lists the alpha takes the second, or with the selection bit the first
      let second := m.ib2 != 0 && ((c == 3) != (sel == 1))
      let n := if second then m.ib2 else m.ib
      let i := if second then bc7Index x (atIdx + 16 * m.ib - m.subsets) n [0] sub else bc7Index x atIdx n anchors sub
      let w := (bc7Weights n).getD i 0
      ((64 - w) * endpoint 0 + w * endpoint 1 + 32) / 64

end Sys2Proof.Machine
end

