-- ==== Sys2Proof/Machine/GfxData.lean ====
section
/-! DEFINITION. What attr and the texture instructions compute (R231, R232, R235 to R242). -/

namespace Sys2Proof.Machine

-- attr (R231, R232)

/-- The canonical NaN. -/
def canonNan : W32 := 0x7FC00000

/-- A value of attr: exact where it can be, else one within two ulps (R232). -/
def attrDeliver (inputs : List W32) (k : Nat) (x : Frac) : W32 :=
  let r := fp32.deliver .rn false x.exact
  if r.2 &&& fIX = 0 || (r.2 &&& fOF) != 0 || x.n = 0 then BitVec.ofNat 32 r.1
  else
    let c := Config.attrValue (inputs ++ [BitVec.ofNat 32 k])
    if withinUlps 2 x.exact c.toNat then c else BitVec.ofNat 32 r.1

/-- A point. -/
abbrev Pt := Frac × Frac

/-- Edge(a, b) at P (R231). -/
def edgeAt (a b p : Pt) : Frac :=
  ((a.1.sub p.1).mul (b.2.sub p.2)).sub ((b.1.sub p.1).mul (a.2.sub p.2))

/-- The results of a lane of attr from its words: x, y and q of the three vertices, then attribute j of each. -/
def attrResults (mode : Nat) (ws : List W32) (px : W32) (na j : Nat) : List W32 :=
  let cnt := if mode = 0 then 3 else if mode = 1 then 1 else 2
  if na < 1 || na > 32 || j ≥ na || !allFinite (ws.take (if mode = 2 then 9 else 12)) then List.replicate cnt canonNan
  else
    let w (i : Nat) : Frac := fracOf (ws.getD i 0)
    let half : Frac := ⟨1, 2⟩
    let p : Pt := ((Frac.int (px.extractLsb' 0 16).toNat).add half, (Frac.int (px.extractLsb' 16 16).toNat).add half)
    let v (i : Nat) : Pt := (w (3 * i), w (3 * i + 1))
    let q (i : Nat) : Frac := w (3 * i + 2)
    let nx (i : Nat) : Nat := (i + 1) % 3
    let pv (i : Nat) : Nat := (i + 2) % 3
    let e (i : Nat) : Frac := edgeAt (v (nx i)) (v (pv i)) p
    let ex (i : Nat) : Frac := (v (nx i)).2.sub (v (pv i)).2
    let ey (i : Nat) : Frac := (v (pv i)).1.sub (v (nx i)).1
    let sum (f : Nat → Frac) : Frac := ((f 0).add (f 1)).add (f 2)
    let area := sum e
    let den := sum fun i => (e i).mul (q i)
    if area.n = 0 || den.n = 0 then
      (if mode = 0 then [ws.getD 9 0, 0, 0] else if mode = 1 then [ws.getD 9 0] else [0, 0])
    else
      let ins := ws ++ [px]
      let val (a : Nat → Frac) : Frac := (sum fun i => ((e i).mul (q i)).mul (a i)).div den
      let at_ (i : Nat) : Frac := w (9 + i)
      let grad (g : Nat → Frac) : Frac :=
        let num := sum fun i => ((e i).mul (q i)).mul (at_ i)
        let num' := sum fun i => ((g i).mul (q i)).mul (at_ i)
        let den' := sum fun i => (g i).mul (q i)
        ((num'.mul den).sub (num.mul den')).div (den.mul den)
      if mode = 0 then [attrDeliver ins 0 (val at_), attrDeliver ins 1 (grad ex), attrDeliver ins 2 (grad ey)]
      else if mode = 1 then [attrDeliver ins 0 (val at_)]
      else [attrDeliver ins 3 (((e 1).mul (q 1)).div den), attrDeliver ins 4 (((e 2).mul (q 2)).div den)]

-- Texture formats (R235, R236, R238)

/-- Width and height of a format's block, and its bytes. -/
def texBlock (fmt : Nat) : Nat × Nat :=
  if fmt ≤ 1 then (1, 1) else if fmt ≤ 3 then (1, 2) else if fmt ≤ 5 then (1, 4) else if fmt = 6 then (1, 8)
  else if fmt = 7 then (1, 4) else if fmt = 8 then (4, 8) else if fmt = 9 then (4, 8) else (4, 16)

/-- Byte i of a block. -/
def blockByte (x i : Nat) : Nat := x / 2 ^ (8 * i) % 256

/-- A unorm byte. -/
def unorm8 (c : Nat) : W32 := (Frac.mk c 255).fp32

/-- The integer fifth root by bits. -/
def iroot5 (n : Nat) : Nat → Nat → Nat
  | 0, r => r
  | b + 1, r => iroot5 n b (if (r + 2 ^ b) ^ 5 ≤ n then r + 2 ^ b else r)

/-- The IEC 61966-2-1 decoding of c / 255, rounded once (R238): a fifth root of a twelfth power above the linear part. -/
def srgb8 (c : Nat) : W32 :=
  if c * 100000 ≤ 4045 * 255 then (Frac.div ⟨c * 100, 255⟩ ⟨1292, 1⟩).fp32
  else
    let num := 1000 * c + 55 * 255
    let den := 255 * 1055
    let q := num ^ 12 * 2 ^ 400 / den ^ 12
    let r := iroot5 q 84 0
    if num = den then 0x3F800000
    else (Frac.mk (2 * r + 1 : Nat) (2 ^ 81)).fp32

/-- A BC4 channel of a block (Khronos; log entry 8). -/
def bc4Value (x sub : Nat) : W32 :=
  let r0 := blockByte x 0
  let r1 := blockByte x 1
  let c := x / 2 ^ 16 / 2 ^ (3 * sub) % 8
  if c = 0 then unorm8 r0
  else if c = 1 then unorm8 r1
  else if r0 > r1 then (Frac.mk ((8 - c) * r0 + (c - 1) * r1 : Nat) (7 * 255)).fp32
  else if c = 6 then 0
  else if c = 7 then 0x3F800000
  else (Frac.mk ((6 - c) * r0 + (c - 1) * r1 : Nat) (5 * 255)).fp32

/-- A component of a BC1 texel (Khronos; log entry 8). -/
def bc1Value (x sub comp : Nat) : W32 :=
  let c0 := x % 2 ^ 16
  let c1 := x / 2 ^ 16 % 2 ^ 16
  let code := x / 2 ^ 32 / 2 ^ (2 * sub) % 4
  let part (c : Nat) : Nat := if comp = 0 then c / 2 ^ 11 else if comp = 1 then c / 2 ^ 5 % 64 else c % 32
  let top := if comp = 1 then 63 else 31
  if comp = 3 then (if c0 ≤ c1 && code = 3 then 0 else 0x3F800000)
  else if code = 0 then (Frac.mk (part c0) top).fp32
  else if code = 1 then (Frac.mk (part c1) top).fp32
  else if c0 > c1 then
    (if code = 2 then (Frac.mk (2 * part c0 + part c1 : Nat) (3 * top)).fp32
    else (Frac.mk (part c0 + 2 * part c1 : Nat) (3 * top)).fp32)
  else if code = 2 then (Frac.mk (part c0 + part c1 : Nat) (2 * top)).fp32
  else 0

/-- One: the alpha of the formats without one. -/
def fpOne : W32 := 0x3F800000

/-- The format of a texel at the border, (0, 0, 0, 0) (R238): no code that a descriptor gives. -/
def borderFmt : Nat := 12

/-- A component of a texel of a block, as FP32 (R238). -/
def texelComp (fmt x sub comp : Nat) : W32 :=
  let b := blockByte x comp
  match fmt with
  | 12 => 0
  | 0 => if comp = 0 then unorm8 b else if comp = 3 then fpOne else 0
  | 1 => if comp = 0 then srgb8 b else if comp = 3 then fpOne else 0
  | 2 => if comp < 2 then unorm8 b else if comp = 3 then fpOne else 0
  | 3 => if comp < 2 then srgb8 b else if comp = 3 then fpOne else 0
  | 4 => unorm8 b
  | 5 => if comp < 3 then srgb8 b else unorm8 b
  | 6 => fp16.widen (x / 2 ^ (16 * comp) % 2 ^ 16)
  | 7 => if comp = 0 then (if (fp32.dec x).isNan then canonNan else BitVec.ofNat 32 x) else if comp = 3 then fpOne else 0
  | 8 => bc1Value x sub comp
  | 9 => if comp = 0 then bc4Value x sub else if comp = 3 then fpOne else 0
  | 10 => if comp = 0 then bc4Value (x % 2 ^ 64) sub else if comp = 1 then bc4Value (x / 2 ^ 64) sub
      else if comp = 3 then fpOne else 0
  | _ => unorm8 (bc7Value x sub comp)

/-- A component of a result: the weighted sum, rounded once (R240). -/
def texSum (xs : List (W32 × Frac)) : W32 :=
  let vs := xs.map fun e => fp32.dec e.1.toNat
  if vs.any Val.isNan || (vs.contains (.inf false) && vs.contains (.inf true)) then canonNan
  else if vs.contains (.inf false) then 0x7F800000
  else if vs.contains (.inf true) then 0xFF800000
  else
    let t := Frac.sum (xs.map fun e => (fracOf e.1).mul e.2)
    if t.n = 0 && !xs.isEmpty && xs.all (fun e => e.1 == 0x80000000) then 0x80000000 else t.fp32

/-- A lane's element of ldp from the values that arrived: widened, with the flags of its conversion (R179). -/
def planeValue (fmt : Nat) (raw : List (Nat × Nat)) (e : Nat × Bool) : W32 × FpFlags :=
  widenElem fmt ((raw.find? fun r => r.1 == planeKey e.1 true).map (·.2))
    (pickElem fmt e.2 (((raw.find? fun r => r.1 == planeKey e.1 false).map (·.2)).getD 0))

/-- The elements an instruction writes, from the values that arrived. -/
def gfxElems (g : Gfx) (raw : List (Nat × Nat)) : List (Nat × W32) :=
  match g with
  | .attr mode d ls => ls.flatMap fun e =>
      let ws := (List.range 12).map fun i => BitVec.ofNat 32 (NMap.get 0 raw (e.1 * 16 + i))
      let rs := attrResults mode ws e.2.1 e.2.2.1 e.2.2.2
      (List.range rs.length).map fun i => ((d + i) * 32 + e.1, rs.getD i 0)
  | .tex d ls => ls.flatMap fun e =>
      (List.range 4).map fun comp => ((d + comp) * 32 + e.1,
        texSum (e.2.map fun t => (texelComp t.fmt (NMap.get 0 raw t.key) t.sub comp, Frac.mk t.wn t.wd)))
  | .plane d fmt ls => ls.map fun e => (d * 32 + e.1, (planeValue fmt raw e).1)

/-- The sticky flags that the values of an instruction raise (R37, R179). -/
def gfxFlags (g : Gfx) (raw : List (Nat × Nat)) : FpFlags :=
  match g with
  | .plane _ fmt ls => ls.foldl (fun fl e => fl ||| (planeValue fmt raw e).2) 0
  | _ => 0

-- Descriptors and sampler words (R235, R237, R242)

/-- A texture descriptor. -/
structure TexDesc where
  base : W64
  w : Nat
  h : Nat
  fmt : Nat
  /-- levels - 1 -/
  lm1 : Nat
  deriving DecidableEq, Repr

/-- The fields of the descriptor held in 32 bytes, as one number; none where its code is no format, which names no texels
(R235, R242). -/
def texFields (x : Nat) : Option TexDesc :=
  let fmt := x / 2 ^ 96 % 2 ^ 8
  if fmt ≥ 12 then none
  else some { base := BitVec.ofNat 64 x, w := x / 2 ^ 64 % 2 ^ 16 + 1, h := x / 2 ^ 80 % 2 ^ 16 + 1, fmt := fmt,
              lm1 := x / 2 ^ 104 % 2 ^ 4 }

/-- The extents and levels of a descriptor are within their limits (R235). -/
def TexDesc.within (t : TexDesc) : Bool :=
  decide (t.w ≤ 16384) && decide (t.h ≤ 16384) && decide (t.lm1 ≤ Nat.log2 (Nat.max t.w t.h))

/-- The descriptor held in 32 bytes, or none where it raises a format fault: one out of its limits or with a reserved bit does as
well (R242). -/
def texDesc (x : Nat) : Option TexDesc :=
  if x / 2 ^ 108 != 0 then none else (texFields x).filter TexDesc.within

/-- A sampler word tells which texels sampleg reads: not one of filter 3 with ANI = 0. -/
def samplerFilters (x : W64) : Bool := x.extractLsb' 0 2 != 3 || x.extractLsb' 2 5 != 0

/-- A sampler word raises no format fault. -/
def samplerOk (x : W64) : Bool :=
  x.extractLsb' 28 36 == 0 && x.extractLsb' 12 4 == 0 && !x.getLsbD 7 && samplerFilters x

/-- Extent of a level (R236). -/
def levelDim (n m : Nat) : Nat := Nat.max 1 (n / 2 ^ m)

/-- Row pitch of a level. -/
def TexDesc.pitch (t : TexDesc) (m : Nat) : Nat :=
  let b := texBlock t.fmt
  ((levelDim t.w m + b.1 - 1) / b.1 * b.2 + 63) / 64 * 64

/-- Bytes of a level. -/
def TexDesc.levelSize (t : TexDesc) (m : Nat) : Nat :=
  let b := texBlock t.fmt
  (t.pitch m * ((levelDim t.h m + b.1 - 1) / b.1) + 255) / 256 * 256

/-- Offset of a level. -/
def TexDesc.levelStart (t : TexDesc) (m : Nat) : Nat := (List.range m).foldl (fun n i => n + t.levelSize i) 0

/-- The generic address of a texel's block, and the texel's place in it. -/
def TexDesc.texel (t : TexDesc) (m i k : Nat) : W64 × Nat :=
  let b := texBlock t.fmt
  (t.base + BitVec.ofNat 64 (t.levelStart m + k / b.1 * t.pitch m + i / b.1 * b.2), k % b.1 * b.1 + i % b.1)

/-- A coordinate by an address mode, none at the border (R238). -/
def addressMode (mode : Nat) (c : Int) (n : Nat) : Option Nat :=
  match mode with
  | 0 => some (c % (n : Int)).toNat
  | 1 => some (min (max c 0) ((n : Int) - 1)).toNat
  | 2 => let j := (c % (2 * n : Int)).toNat; some (if j < n then j else 2 * n - 1 - j)
  | _ => if c < 0 || c ≥ n then none else some c.toNat

/-- A level of detail in units of 2^-8, or an infinity. -/
inductive Lod
  | val (x : Int)
  | low
  | high
  deriving DecidableEq, Repr

/-- The level clamped to the levels present. -/
def Lod.clamp (l : Lod) (top : Nat) : Nat :=
  match l with
  | .low => 0
  | .high => 256 * top
  | .val x => (min (max x 0) (256 * top : Int)).toNat

/-- The bias of a sampler word in units of 2^-8. -/
def samplerBias (w : W64) : Int := 16 * (w.extractLsb' 16 8).toInt

/-- The level of detail of sample (R239). -/
def lodOf (c : W32) (w : W64) : Lod :=
  match fp32.dec c.toNat with
  | .nan _ => .high
  | .inf n => if n then .low else .high
  | .fin _ _ _ => .val ((fracOf c).mul (Frac.int 256) |>.add (Frac.int (samplerBias w)) |>.round)

/-- 2^-8 units of half the logarithm of a positive fraction, rounded to the nearest (R239). -/
def halfLog (r : Frac) : Int := (log2Frac (r.n.natAbs ^ 256) (r.d ^ 256) + 1) / 2

/-- The least k up to a limit with k² × b ≥ a. -/
def probeCount (a b : Frac) (limit : Nat) : Nat :=
  ((List.range limit).find? fun k => a.le ((Frac.int ((k + 1) * (k + 1) : Nat)).mul b)).map (· + 1) |>.getD limit

/-- A texel that contributes to a result: its block's address and its place there, none at the border, and its weight. -/
structure Texel where
  at_ : Option (W64 × Nat)
  weight : Frac
  deriving DecidableEq, Repr

/-- The texels of a bilinear sample of a level, with weights (R240). One of weight zero is not read: it cannot fault, and adds no
NaN (log entry 94: the spec does not say). -/
def bilinear (t : TexDesc) (w : W64) (m : Nat) (u v weight : Frac) : List Texel :=
  let wm := levelDim t.w m
  let hm := levelDim t.h m
  let half : Frac := ⟨1, 2⟩
  let split (x : Frac) : Int × Nat :=
    let i := x.floor
    let f := ((x.sub (Frac.int i)).mul (Frac.int 256)).round.toNat
    if f = 256 then (i + 1, 0) else (i, f)
  let x := split ((u.mul (Frac.int wm)).sub half)
  let y := split ((v.mul (Frac.int hm)).sub half)
  (List.range 4).filterMap fun (n : Nat) =>
    let a : Nat := n % 2
    let b : Nat := n / 2
    let wx : Nat := if a = 1 then x.2 else 256 - x.2
    let wy : Nat := if b = 1 then y.2 else 256 - y.2
    if wx * wy = 0 || weight.n = 0 then none
    else match addressMode (w.extractLsb' 8 2).toNat (x.1 + a) wm, addressMode (w.extractLsb' 10 2).toNat (y.1 + b) hm with
      | some i, some k => some { at_ := some (t.texel m i k), weight := weight.mul (Frac.mk (wx * wy : Nat) 65536) }
      | _, _ => some { at_ := none, weight := weight.mul (Frac.mk (wx * wy : Nat) 65536) }

/-- The texel of a point sample (R240). -/
def pointSample (t : TexDesc) (w : W64) (m : Nat) (u v : Frac) : List Texel :=
  let wm := levelDim t.w m
  let hm := levelDim t.h m
  match addressMode (w.extractLsb' 8 2).toNat (u.mul (Frac.int wm)).floor wm,
    addressMode (w.extractLsb' 10 2).toNat (v.mul (Frac.int hm)).floor hm with
  | some i, some k => [{ at_ := some (t.texel m i k), weight := Frac.int 1 }]
  | _, _ => [{ at_ := none, weight := Frac.int 1 }]

/-- A trilinear sample. -/
def trilinear (t : TexDesc) (w : W64) (lam top : Nat) (u v weight : Frac) : List Texel :=
  let m0 := lam / 256
  let f : Frac := ⟨lam % 256, 256⟩
  bilinear t w m0 u v (weight.mul ((Frac.int 1).sub f)) ++ bilinear t w (Nat.min (m0 + 1) top) u v (weight.mul f)

/-- The gradients of sampleg (R239, R240): λ, the probe count and the pair G, none where a probe has no finite place. Three points
that the spec leaves open (log entry 93): of equal lengths Lx and Ly the pair is (dudx, dvdx); with a NaN gradient N and G are
undefined, and filter 3 reads no texel; and an ANI of 17 to 31, which no fault names, is the limit as it stands. -/
def gradientLod (t : TexDesc) (w : W64) (g : List W32) : Lod × Nat × Option Pt :=
  let ani := (w.extractLsb' 2 5).toNat
  let nan := g.any fun x => (fp32.dec x.toNat).isNan
  if nan || !allFinite g then (.high, ani, none)
  else
    let at_ (i n : Nat) : Frac := (fracOf (g.getD i 0)).mul (Frac.int n)
    let sq (a b : Frac) : Frac := (a.mul a).add (b.mul b)
    let lx := sq (at_ 0 t.w) (at_ 1 t.h)
    let ly := sq (at_ 2 t.w) (at_ 3 t.h)
    let big := if ly.le lx then lx else ly
    let small := if ly.le lx then ly else lx
    let pair : Pt := if ly.le lx then (fracOf (g.getD 0 0), fracOf (g.getD 1 0)) else (fracOf (g.getD 2 0), fracOf (g.getD 3 0))
    let n := if w.extractLsb' 0 2 != 3 then 1 else if small.n = 0 then ani else probeCount big small ani
    if big.n = 0 then (.low, n, some pair)
    else (.val (halfLog (big.div (Frac.int (n * n : Nat))) + samplerBias w), n, some pair)

/-- The texels of a sample with weights (R240); none for a coordinate that is NaN or infinite. -/
def texTaps (t : TexDesc) (w : W64) (u v : W32) (l : Lod) (n : Nat) (pair : Option Pt) : List Texel :=
  if !allFinite [u, v] then []
  else
    let top := Nat.min t.lm1 (w.extractLsb' 24 4).toNat
    let lam := l.clamp top
    let uf := fracOf u
    let vf := fracOf v
    match (w.extractLsb' 0 2).toNat with
    | 0 => pointSample t w ((lam + 128) / 256) uf vf
    | 1 => bilinear t w ((lam + 128) / 256) uf vf (Frac.int 1)
    | 2 => trilinear t w lam top uf vf (Frac.int 1)
    | _ => match pair with
      | none => []
      | some g => (List.range n).flatMap fun p =>
          let k : Frac := ((Frac.mk (2 * p + 1 : Nat) (2 * n)).sub ⟨1, 2⟩)
          trilinear t w lam top (uf.add (k.mul g.1)) (vf.add (k.mul g.2)) ⟨1, n⟩

end Sys2Proof.Machine
end

