-- ==== Sys2Proof/Machine/Sched.lean ====
section
/-! DEFINITION. The core between clauses: the meeting at a header (R100 to R103), the choice of the lanes and of the group
that issue (R122 to R129), the start of a clause (R47 to R49, R258, R266), asynchronous completion (R66), draining
(R131) and spawned groups (R151 to R155). -/

namespace Sys2Proof.Machine

-- Clauses in memory

/-- The member-mask field of an instruction, if it is a member-mask instruction (R99). -/
def maskField (i : Instr) : Option MaskOp :=
  match i with
  | .mtest _ _ _ m _ => some m
  | .mbits _ _ m _ => some m
  | .mfold _ _ _ _ m _ => some m
  | .scan _ _ _ _ _ m _ => some m
  | .lperm _ _ _ _ m _ => some m
  | .mpeers _ _ _ m _ => some m
  | .mlow _ m _ => some m
  | .lsync m _ => some m
  | .scaleq _ _ _ _ m _ => some m
  | _ => none

/-- A header with a nonzero reserved bit, or with class 6 or 7, is illegal (R47). -/
def headerOk (h : W64) : Bool := h.extractLsb' 17 47 == 0 && !h.getLsbD 7 && decide ((h.extractLsb' 4 3).toNat ≤ 5)

/-- Instruction words minus one (R47). -/
def headerCnt (h : W64) : Nat := (h.extractLsb' 0 4).toNat

/-- Engine class (R47). -/
def headerCls (h : W64) : Nat := (h.extractLsb' 4 3).toNat

/-- The mask a word contributes to a header's union (R100). -/
def wordMembers (g : Group) (w : W64) : LaneMask :=
  match decode w with
  | .error _ => 0
  | .ok i =>
    match maskField i with
    | none => 0
    | some (.s r) => (g.sget r.toNat).setWidth 32 &&& g.liveView
    | some .all => g.liveView

/-- The union over some words of the clause (R100). -/
def State.membersFrom (s : State) (g : Group) (pc : W64) : Nat → LaneMask
  | 0 => 0
  | n + 1 =>
    (match s.peekWord g.core g.launch pc with
      | some w => wordMembers g w
      | none => 0) ||| State.membersFrom s g (pc + 8) n

/-- The members whose meeting the clause at a header needs (R100). -/
def State.membersAt (s : State) (g : Group) (pc : W64) : LaneMask :=
  match s.peekWord g.core g.launch pc with
  | none => 0
  | some h => if headerOk h then s.membersFrom g (pc + 8) (headerCnt h + 1) else 0

/-- The distinct PCs of the lanes of a list. -/
def Group.pcs (g : Group) : List Nat → List W64
  | [] => []
  | l :: ls => let rest := Group.pcs g ls; if rest.contains (g.pc l) then rest else g.pc l :: rest

/-- The headers at which live lanes are parked: some member is missing (R100), by the masks as the S
registers stand now (log entry 85). -/
def State.parkedPcs (s : State) (g : Group) : List W64 :=
  (g.pcs (laneList (g.live &&& ~~~g.mid))).filter fun p => s.membersAt g p &&& ~~~g.lanesAt p != 0

/-- The live lanes that are parked. -/
def State.parked (s : State) (g : Group) : LaneMask :=
  let ps := s.parkedPcs g
  maskOf fun l => g.live.getLsbD l && !g.mid.getLsbD l && ps.contains (g.pc l)

-- Which lanes issue (R124)

/-- The answer of ChooseIssuePC: the PC, whether it is the minimum, whether it is a dwell break, and the group's state. -/
structure Choice where
  pc : W64
  atMin : Bool
  brk : Bool
  /-- the lanes at the minimum are all the unparked live lanes -/
  alone : Bool
  g : Group
  deriving DecidableEq, Repr

/-- The least of addresses, as numbers. -/
def leastPc : List W64 → Option W64
  | [] => none
  | p :: ps =>
    match leastPc ps with
    | none => some p
    | some q => some (if p.toNat ≤ q.toNat then p else q)

/-- The dwell break's PC (R124): the next above the last one taken, wrapping to the lowest above the minimum. -/
def breakPc (higher : List W64) (last : W64) : Option W64 :=
  match leastPc (higher.filter fun p => decide (last.toNat < p.toNat)) with
  | some p => some p
  | none => leastPc higher

/-- ChooseIssuePC (R124), on the lanes that are not parked. -/
def Group.choose (g : Group) (free : LaneMask) : Option Choice :=
  let ps := g.pcs (laneList free)
  match leastPc ps with
  | none => none
  | some pmin =>
    let alone := ps.length == 1
    let g1 := { g with pref := none }
    let pick (g : Group) : Option Choice :=
      let higher := ps.filter fun p => decide (pmin.toNat < p.toNat)
      match if g.dwell = 64 then breakPc higher g.last else none with
      | some c => some { pc := c, atMin := false, brk := true, alone := alone, g := { g with last := c, dwell := 0 } }
      | none => some { pc := pmin, atMin := true, brk := false, alone := alone, g := g }
    match g.pref with
    | none => pick g
    | some p =>
      if ps.contains p then some { pc := p, atMin := p == pmin, brk := false, alone := alone, g := g1 } else pick g1

/-- The choice of a group now. -/
def State.choice (s : State) (g : Group) : Option Choice := g.choose (g.live &&& ~~~s.parked g)

-- Which group issues (R122, R127)

/-- The word of code at an address is in the core's instruction cache, or no fetch of it is allowed; while a migration holds its
walk neither is known. -/
def State.fetched (s : State) (g : Group) (pc : W64) : Bool :=
  match s.codeAddr g.core g.launch pc with
  | none => !s.fetchHeld g pc
  | some a => NMap.has (s.core g.core).icache (a / 8)

/-- The header of the clause whose words stand at an issue PC: EHDR's for lanes that resume inside it (R258). -/
def Group.headerOf (g : Group) (pc : W64) : W64 := if g.lanesAt pc &&& g.mid != 0 then g.midHdr else pc

/-- The addresses of the words of a clause: its header's, and those that a legal header counts. -/
def State.clauseWords (s : State) (g : Group) (hdr : W64) : List W64 :=
  hdr :: match s.peekWord g.core g.launch hdr with
    | none => []
    | some h => if headerOk h then (List.range (headerCnt h + 1)).map fun i => hdr + BitVec.ofNat 64 (8 * (i + 1)) else []

/-- The clause has been fetched (R122): each of its words is in the instruction cache, or no fetch of it is allowed. -/
def State.clauseFetched (s : State) (g : Group) (hdr : W64) : Bool := (s.clauseWords g hdr).all fun a => s.fetched g a

/-- The fetch unit fetches a clause (R122, R130), as far as no migration holds a word's walk. -/
def State.fetchClause (s : State) (g : Group) (hdr : W64) : State :=
  (s.clauseWords g hdr).foldl (fun s a => if s.fetchHeld g a then s else s.afterFetch g.core g.launch a) s

/-- The clause's WAIT test passes (R49); a lane that resumes inside its clause is not tested again (R258). -/
def State.waitPasses (s : State) (g : Group) (pc : W64) : Bool :=
  if g.lanesAt pc &&& g.mid != 0 then true
  else match s.peekWord g.core g.launch pc with
    | none => true
    | some h => !headerOk h || (h.extractLsb' 8 8 &&& ~~~g.sbz == 0)

/-- The group is ready at its clause boundary (R122, R155): a group whose clause is not fetched is in fetch-wait. -/
def State.ready (s : State) (g : Group) : Bool :=
  g.clause.isNone && g.live != 0 && g.sleepUntil.isNone && !g.halted && !g.evicting && !g.draining &&
    !((s.launch? g.launch).map Launch.held).getD false &&
    g.checks.isEmpty && g.waitReqs.all (fun r => s.reqs.all fun x => x.id != r || x.todo.isEmpty) &&
    (match s.choice g with
      | none => false
      | some c => !s.fetchHeld g c.pc && s.clauseFetched g (g.headerOf c.pc) && s.waitPasses g c.pc)

/-- The groups of a core. -/
def State.coreGroups (s : State) (core : Nat) : NMap Group := s.groups.filter fun e => e.2.core == core

/-- The core's issue stream is free: no group of it has a clause in progress. -/
def State.streamFree (s : State) (core : Nat) : Bool := (s.coreGroups core).all fun e => e.2.clause.isNone

/-- The cycles a ready group has waited (R127). -/
def Group.waited (g : Group) (now : Nat) : Nat :=
  match g.readySince with
  | none => 0
  | some t => now - t

/-- Age order: the cycle of the start, the block's placement order, the GIX (R127). -/
def State.older (s : State) (a b : Group) : Bool :=
  let ord (g : Group) : Nat := ((s.block? g.blk).map Block.order).getD 0
  decide (a.age < b.age) || (a.age == b.age && (decide (ord a < ord b) || (ord a == ord b && decide (a.gix < b.gix))))

/-- The first group ranks before the second (R127). -/
def State.before (s : State) (a b : Group) : Bool :=
  let wa := a.waited s.now
  let wb := b.waited s.now
  let sa := decide (wa ≥ 512)
  let sb := decide (wb ≥ 512)
  if sa != sb then sa
  else if sa then decide (wa > wb) || (wa == wb && s.older a b)
  else if a.yielded != b.yielded then b.yielded
  else s.older a b

/-- The best of some groups. -/
def State.bestGroup (s : State) : NMap Group → Option (Nat × Group)
  | [] => none
  | e :: es =>
    match State.bestGroup s es with
    | none => some e
    | some f => some (if s.before f.2 e.2 then f else e)

/-- The group that issues next on a core (R127). -/
def State.nextGroup (s : State) (core : Nat) : Option (Nat × Group) :=
  if s.streamFree core then s.bestGroup ((s.coreGroups core).filter fun e => s.ready e.2) else none

-- Breakpoints (R266, R371)

/-- The comparator that an address hits, if any (R371). -/
def State.breakpoint (s : State) (g : Group) (pc : W64) : Option Nat :=
  let q := ((s.launch? g.launch).map Launch.queue).getD 0
  if s.dhaOf g = 0 || g.hkind != 0 || g.bpExempt then none
  else (List.range 8).find? fun n =>
    let a := NMap.get 0 (s.core g.core).bpa n
    let f := NMap.get bpfReset (s.core g.core).bpf n
    a.getLsbD 0 && (a.extractLsb' 3 53) == pc.extractLsb' 3 53 && pc.extractLsb' 56 8 == 0 && f.getLsbD g.gix &&
      (!f.getLsbD 63 || (f.extractLsb' 48 10).toNat == q)

-- Clause start

/-- A yield ranks its group last at one boundary of the core only (R127). -/
def State.clearYields (s : State) (core : Nat) : State :=
  { s with groups := s.groups.map fun e => (e.1, if e.2.core == core then { e.2 with yielded := false } else e.2) }

/-- Starts the clause of a choice (R47, R48, R258, R266). The fault mask of an illegal header and of a breakpoint at it is
every live lane at it, whatever EN holds (log entry 26). The clause goes on with the words that were fetched for it
(R122). Lanes that resume inside a clause keep its yield and sleep (R144),
and a member mask there reads the S registers as they stand now (log entry 85). -/
def State.startClause (s : State) (gid : Nat) (c : Choice) : State :=
  let s := s.clearYields c.g.core
  let g := { c.g with readySince := none, yielded := false }
  let at_ := g.lanesAt c.pc
  let clauseAt (h : W64) (hdr pc : W64) : Clause :=
    { hdr := hdr, cls := headerCls h, cnt := headerCnt h, pc := pc, atMin := c.atMin, alone := c.alone, lanes := at_,
      sAt := g.s, words := (List.range (headerCnt h + 1)).map fun i => s.peekWord g.core g.launch (hdr + BitVec.ofNat 64 (8 * (i + 1))),
      yld := h.getLsbD 16, sleep := none }
  if at_ &&& g.mid != 0 then
    let h := s.headerAt g g.midHdr
    let cl := clauseAt h g.midHdr c.pc
    s.setGroup gid { g with clause := some { cl with yld := cl.yld || g.midEnd.1, sleep := g.midEnd.2 },
                            midEnd := (false, none), queue := g.midQueue }
  else
    let s1 := s.setGroup gid { g with queue := [] }
    match s.breakpoint g c.pc with
    | some n =>
      s1.enterDebug gid c.pc c.pc
        { code := 0x20, wr := false, addr := BitVec.ofNat 64 n, mask := at_, resume := c.pc }
    | none =>
      match s.peekWord g.core g.launch c.pc with
      | none => s1.takeTrap gid c.pc c.pc 
          { code := s.fetchCode g.core g.launch c.pc, wr := false, addr := c.pc, mask := at_, resume := c.pc }
      | some h =>
        if !headerOk h then
          (s1.afterFetch g.core g.launch c.pc).takeTrap gid c.pc c.pc
            { code := 0x01, wr := false, addr := c.pc, mask := at_, resume := c.pc }
        else
          (s1.afterFetch g.core g.launch c.pc).setGroup gid
            { g.setPcs (fun _ => c.pc + 8) (laneList at_) with
              queue := [], clause := some (clauseAt h c.pc (c.pc + 8)), bpExempt := false,
              timers := NMap.erase g.timers c.pc.toNat }

/-- CLAUSE_START (R100, R122, R127): the core's next group starts a clause, if one is ready. -/
def execClauseStart (core : Nat) (s : State) : Result :=
  .next (match s.nextGroup core with
    | none => s
    | some (gid, g) =>
      match s.choice g with
      | none => s
      | some c => s.startClause gid c)

/-- STARVED (R127, R128): the start of a clause of a group that has waited 512 cycles. -/
def execStarved (core : Nat) (s : State) : Result :=
  .next (match s.nextGroup core with
    | none => s
    | some (gid, g) =>
      if g.waited s.now < 512 then s
      else match s.choice g with
        | none => s
        | some c => s.startClause gid c)

/-- DWELL_BREAK (R124, R125): the chosen group issues the next PC above its minimum once. -/
def execDwellBreak (gid : Nat) (s : State) : Result :=
  .next (match s.group? gid with
    | none => s
    | some g =>
      match s.nextGroup g.core with
      | none => s
      | some (n, h) =>
        if n != gid then s
        else match s.choice h with
          | none => s
          | some c => if c.brk then s.startClause gid c else s)

/-- CONVERGENCE_TIMEOUT (R103): the lanes parked at a header take the convergence trap. -/
def execConvergenceTimeout (gid : Nat) (hdr : W64) (s : State) : Result :=
  .next (match s.group? gid with
    | none => s
    | some g =>
      let cto := ((s.launch? g.launch).map Launch.cto).getD 65536
      match g.timers.find? fun e => e.1 == hdr.toNat with
      | none => s
      | some (_, t) =>
        if g.clause.isSome || g.halted || s.now < t + cto then s
        else
          let here := g.lanesAt hdr &&& ~~~g.mid
          let missing := s.membersAt g hdr &&& ~~~g.lanesAt hdr
          if here = 0 || missing = 0 then s
          else s.takeTrap gid hdr hdr
            { code := 0x10, wr := false, addr := missing.setWidth 64, mask := here, resume := hdr })

/-- SLEEP_END (R144). -/
def execSleepEnd (gid : Nat) (s : State) : Result :=
  .next (s.modGroup gid fun g =>
    match g.sleepUntil with
    | none => g
    | some t => if s.now < t then g else { g with sleepUntil := none })

-- Asynchronous completion (R66, R131, R132)

/-- Writes vector elements that arrive, in live lanes only (R131). -/
def Group.landV (g : Group) : List (Nat × W32) → Group
  | [] => g
  | (k, x) :: ws => Group.landV (if g.live.getLsbD (k % 32) then { g with v := NMap.set 0 g.v k x } else g) ws

/-- Writes scalar results that arrive. -/
def Group.landS (g : Group) : List (Nat × W64) → Group
  | [] => g
  | (r, x) :: ws => Group.landS { g with s := NMap.set 0 g.s r x } ws

/-- Writes window halves that arrive (R114). -/
def Group.landW (g : Group) : List (Nat × Nat × BitVec 256) → Group
  | [] => g
  | (n, h, x) :: ws => Group.landW (g.wsetHalf n h x) ws

/-- The elements a mrd reads from the bank (R214). -/
def mrdElems (x : MatCtx) (tile c0 n d : Nat) (ls : List Nat) : List (Nat × W32) :=
  ls.flatMap fun l => (List.range n).map fun m => ((d + m) * 32 + l, NMap.get 0 x.bank ((32 * tile + l) * 64 + c0 + m))

/-- The context a block owns. -/
def State.ctxOf (s : State) (blk : Nat) : Option MatCtx :=
  match s.block? blk with
  | none => none
  | some b => b.ctx.map fun n => (s.core b.core).ctx n

/-- Every operation of the context that is earlier than an identifier has completed (R199, R214). -/
def MatCtx.doneBefore (x : MatCtx) (id : Nat) : Bool := x.ops.all fun o => decide (id ≤ o.id)

/-- The earlier pops of the same queue by the group, or for the queues of a core or a context by any group (R301). -/
def State.popsBefore (s : State) (a : AsyncOp) (same : AsyncOp → Bool) : Bool :=
  s.asyncs.any fun b => decide (b.id < a.id) && b.core == a.core && b.pop.isSome && same b

/-- The oldest ray of a lane of a group (R243). -/
def State.firstRay (s : State) (gid : Nat) (tag : BitVec 4) (lane : Nat) : Option Ray :=
  s.rays.find? fun r => r.gid == gid && r.tag == tag && r.lane == lane

/-- The record that a lane's oldest ray has ready. -/
def State.rayRecord (s : State) (gid : Nat) (tag : BitVec 4) (lane : Nat) : Option (List W32) :=
  match s.firstRay gid tag lane with
  | some r => match r.stage with
    | .ready ws _ => some ws
    | _ => none
  | none => none

/-- An xpop's entry has arrived and it is the oldest that waits for the queue (R243, R301). -/
def State.popReady (s : State) (a : AsyncOp) : Bool :=
  match a.pop with
  | none => true
  | some (.xt _ m) =>
    (laneList m).all (fun l => (s.rayRecord a.gid a.tag l).isSome) &&
      !s.popsBefore a fun b => b.gid == a.gid && b.tag == a.tag && (match b.pop with
        | some (.xt _ _) => true
        | _ => false)
  | some (.xe _) =>
    !(s.core a.core).xe.isEmpty && !s.popsBefore a fun b => match b.pop with
      | some (.xe _) => true
      | _ => false
  | some (.xm _) =>
    let blk (g : Nat) : Option Nat := (s.group? g).map Group.blk
    (match (blk a.gid).bind s.ctxOf with
      | some x => !x.xm.isEmpty
      | none => false) &&
      !s.popsBefore a fun b => blk b.gid == blk a.gid && (match b.pop with
        | some (.xm _) => true
        | _ => false)

/-- The operation may complete now. -/
def State.asyncReady (s : State) (a : AsyncOp) : Bool :=
  a.ready && a.deps.all (fun d => !s.inFlight d) && s.popReady a &&
    (match a.mrd with
      | none => true
      | some (blk, _) => match s.ctxOf blk with
        | none => true
        | some x => x.doneBefore a.id)

/-- The elements of a ray pop (R243). -/
def State.popElems (s : State) (a : AsyncOp) : List (Nat × W32) :=
  match a.pop with
  | some (.xt d m) => (laneList m).flatMap fun l =>
      let ws := (s.rayRecord a.gid a.tag l).getD []
      (List.range 8).map fun i => ((d + i) * 32 + l, ws.getD i 0)
  | _ => []

/-- The vector elements an operation delivers. -/
def State.asyncElems (s : State) (a : AsyncOp) : List (Nat × W32) :=
  a.vw ++ (match a.mrd with
    | none => []
    | some (blk, tile, c0, n, d, m) => match s.ctxOf blk with
      | none => []
      | some x => mrdElems x tile c0 n d (laneList m)) ++
    (match a.gfx with
      | none => []
      | some g => gfxElems g a.raw) ++ s.popElems a

/-- The scalar that a pop of an entry delivers. -/
def State.popScalar (s : State) (a : AsyncOp) : List (Nat × W64) :=
  match a.pop with
  | some (.xe d) => [(d, ((s.core a.core).xe.headD (0, 0)).2)]
  | some (.xm d) => match ((s.group? a.gid).map Group.blk).bind s.ctxOf with
    | some x => [(d, x.xm.headD 0)]
    | none => []
  | _ => []

/-- A ray after its record was popped: a candidate's ray is suspended until hit, others are no longer outstanding (R243,
R248). -/
def Ray.popped (r : Ray) : Option Ray :=
  match r.stage with
  | .ready _ (some c) => some { r with stage := .asked c }
  | _ => none

/-- A completed pop takes its entries (R243, R301). -/
def State.takePop (s : State) (a : AsyncOp) : State :=
  match a.pop with
  | none => s
  | some (.xt _ m) =>
    let ids := (laneList m).filterMap fun l => (s.firstRay a.gid a.tag l).map Ray.id
    { s with rays := s.rays.filterMap fun r => if ids.contains r.id then r.popped else some r }
  | some (.xe _) => s.modCore a.core fun c => { c with xe := c.xe.drop 1 }
  | some (.xm _) =>
    match (s.group? a.gid).bind fun g => (s.block? g.blk).bind Block.ctx with
    | none => s
    | some k => s.modCore a.core fun c => c.setCtx k { c.ctx k with xm := (c.ctx k).xm.drop 1 }

/-- The key of an S register among an operation's destinations; an element of a V register has its own. -/
def sKey (r : Nat) : Nat := 4096 + r

/-- The key of a half of a window register. -/
def wKey (w h : Nat) : Nat := 8192 + 2 * w + h

/-- The values of an operation reach those of its destinations that satisfy a test, if its group holds them still (R66, R132). -/
def State.landSome (s : State) (a : AsyncOp) (p : Nat → Bool) (vw : List (Nat × W32)) (sw : List (Nat × W64)) (fl : FpFlags) : State :=
  s.modGroup a.gid fun g =>
    if g.tag = a.tag then
      (((g.landV (vw.filter fun e => p e.1)).landS (sw.filter fun e => p (sKey e.1))).landW
        (a.ww.filter fun e => p (wKey e.1 e.2.1))).orFlags fl
    else g

/-- Each value of an operation in flight may reach its destination once it has been delivered (R66): as memory gave it, or when
all that the operation waits for has come (log entry 28). -/
def State.landEarly (s : State) (a : AsyncOp) : State :=
  let vw := if s.asyncReady a then s.asyncElems a else a.vw
  let sw := if s.asyncReady a then a.sw ++ s.popScalar a else a.sw
  let p (k : Nat) : Bool := !a.landed.contains k && Config.lands s.tick a.id k
  let ks := (vw.map (·.1) ++ sw.map (fun e => sKey e.1) ++ a.ww.map fun e => wKey e.1 e.2.1).filter p
  if ks.isEmpty then s
  else { s.landSome a p vw sw 0 with
         asyncs := s.asyncs.map fun x => if x.id = a.id then { x with landed := ks ++ x.landed } else x }

/-- The values in flight that reach their destinations before a step. -/
def State.landEarlies (s : State) : List AsyncOp → State
  | [] => s
  | a :: as => State.landEarlies (s.landEarly a) as

/-- ASYNC_COMPLETE (R37, R66, R131, R132): the destinations that nothing has reached yet are written, the flags of the values are
raised, and the slot is released. -/
def execAsyncComplete (op : Nat) (s : State) : Result :=
  .next (match s.asyncs.find? fun a => a.id == op with
    | none => s
    | some a =>
      if !s.asyncReady a then s
      else
        let vw := s.asyncElems a
        let sw := a.sw ++ s.popScalar a
        let s0 := s.takePop a
        let s1 := { s0 with asyncs := s0.asyncs.filter fun x => x.id != op }
        let s2 := s1.landSome a (fun k => !a.landed.contains k) vw sw ((a.gfx.map fun x => gfxFlags x a.raw).getD 0)
        s2.releaseSlot a.gid a.tag a.slot)

-- Groups of a block

/-- A block whose last group has ended while it owns a tile pass retires it (R413). -/
def State.endRetire (s : State) (g : Group) : State :=
  match s.block? g.blk with
  | none => s
  | some b =>
    if b.pass.isSome && s.blockEmpty g.blk && s.retires.all fun r => r.blk != g.blk then
      { s with retires := s.retires ++
                 [{ blk := g.blk, gid := 0, waits := [], pub := none, ops := [], site := s.lastSite g }] }
    else s

/-- EXIT_DRAINING_END (R131, R154): the slot and its registers return to the block's reservation. Steps of its store hash that
still wait are kept apart (R384). -/
def execExitDrainingEnd (gid : Nat) (s : State) : Result :=
  .next (match s.group? gid with
    | none => s
    | some g =>
      if !g.draining || g.sbz != 0xFF || s.asyncs.any (fun a => a.gid == gid && a.tag == g.tag && a.mrd.isSome) then s
      else
        let s1 := State.meshExit { s with
          groups := NMap.erase s.groups gid, rays := s.rays.filter fun r => r.gid != gid || r.tag != g.tag } gid g.tag g.blk
        let s2 := s1.modBlock g.blk fun b => { b with spawnTaken := b.spawnTaken - g.spawnHeld }
        let s3 := if ((s.launch? g.launch).map Launch.trace).getD false then
            s2.recordFree (dieOf g.core) 4 ((s.lastSite g).words ++ [g.lastPc, g.hash])
          else s2
        ((s3.leaveHash (s.hashOf gid g)).endRetire g).tryEndBlock g.blk)

/-- BIN_TIME_EXPIRY (R151): an open bin whose timer has reached the bin time closes. -/
def execBinTimeExpiry (core bin : Nat) (s : State) : Result :=
  .next (match (s.core core).bins.find? fun e => e.1 == bin with
    | none => s
    | some (_, b) =>
      if b.closedAt.isSome || s.now < b.expires then s
      else s.modCore core fun c => { c with bins := NMap.put c.bins bin { b with closedAt := some b.expires } })

/-- The closed bins of a block in the order in which they closed (R152). -/
def firstClosed (now : Nat) (bins : NMap Bin) (blk : Nat) : Option Nat :=
  (bins.foldl (fun (best : Option (Nat × Nat)) e =>
    match e.2.closing now with
    | none => best
    | some t =>
      if e.2.blk != blk then best
      else match best with
        | none => some (t, e.1)
        | some (t', n') => if t < t' then some (t, e.1) else some (t', n')) none).map (·.2)

/-- A slot's next tag still has operations in flight (R132). -/
def State.tagBusy (s : State) (core slot : Nat) : Bool :=
  s.asyncs.any fun a => a.gid == core * 48 + slot && a.tag == NMap.get 0 (s.core core).tags slot + 1

/-- The lowest free spawned-group slot of a block (R152): its number among the P/32. Which of several free slots a closed bin
takes, and so its GIX, the spec does not say (log entry 91). -/
def State.freeSpawnSlot (s : State) (b : Block) : Option Nat :=
  (List.range (b.slots.length - b.ngroups)).find? fun k =>
    !NMap.has s.groups (b.core * 48 + b.slots.getD (b.ngroups + k) 0) && !s.tagBusy b.core (b.slots.getD (b.ngroups + k) 0)

/-- The lanes of a started group that are coverage threads (R233): V3 and the candidates. -/
def Group.coverage (g : Group) (cov : Nat → Option (W32 × Nat)) : List Nat → Group
  | [] => g
  | l :: ls =>
    Group.coverage (match cov l with
      | none => g
      | some (m, px) => { g.vset 3 l m with covCand := NMap.put g.covCand l (px * 16 + m.toNat) }) cov ls

/-- A closed bin becomes a group of its block, in the spawned-group slot k (R152, R153, R155); the queue's trace has it
(R369). -/
def State.startSpawned (s : State) (b : Bin) (x : Block) (la : Launch) (k : Nat) : State :=
  let slot := x.slots.getD (x.ngroups + k) 0
  let tag := NMap.get 0 (s.core x.core).tags slot + 1
  let cnt := b.threads.length
  let th (l : Nat) : SpawnThread := b.threads.getD l { b := 0, c := 0, ident := 0, cov := none }
  let g0 := newGroup x.core b.blk x.launch (x.ngroups + k) x.nregs s.now tag (maskOf fun l => decide (l < cnt)) b.entry
  let ls := List.range cnt
  let g1 := ((g0.vsetLanes 0 (fun l => (th l).b) ls).vsetLanes 1 (fun l => (th l).c) ls).vsetLanes 2
    (fun l => (th l).ident) ls
  let g2 := g1.coverage (fun l => (th l).cov) ls
  let g3 := { g2 with s := startScalars la x, spawnHeld := cnt, waitReqs := b.before }
  let s1 := (s.modCore x.core fun c => { c with tags := NMap.set 0 c.tags slot tag }).setGroup (x.core * 48 + slot) g3
  if la.trace then s1.recordFree (dieOf x.core) 3 (s1.siteOf g3 b.entry).words else s1

/-- A bin starts when its block has a slot for it, and the block is not being evicted. -/
def State.trySpawned (s : State) (b : Bin) (drop : State → State) : State :=
  match s.block? b.blk with
  | none => s
  | some x =>
    if (x.evicting && !x.starting) || x.saved then s
    else match s.freeSpawnSlot x, s.launch? x.launch with
      | some k, some la => (drop s).startSpawned b x la k
      | _, _ => s

/-- SPAWNED_GROUP_START (R152, R153, R155, R156): the closed bin of a block that closed first becomes a group. A number of 16
or more names a block, plus 16: the first of the unstarted groups that its eviction saved starts, and they come before the
bins that closed after its resumption. -/
def execSpawnedGroupStart (core bin : Nat) (s : State) : Result :=
  .next (if bin < 16 then
      match (s.core core).bins.find? fun e => e.1 == bin with
      | none => s
      | some (_, b) =>
        if firstClosed s.now (s.core core).bins b.blk != some bin ||
            !((s.block? b.blk).map fun x => x.unstarted.isEmpty).getD false then s
        else s.trySpawned b fun s => s.modCore core fun c => { c with bins := NMap.erase c.bins bin }
    else
      match (s.block? (bin - 16)).map fun x => (x.core, x.unstarted) with
      | some (n, b :: rest) =>
        if n != core then s else s.trySpawned b fun s => s.modBlock (bin - 16) fun x => { x with unstarted := rest }
      | _ => s)

end Sys2Proof.Machine
end

