-- ==== Sys2Proof/Machine/Placement.lean ====
section
/-! DEFINITION. Placing blocks (R118 to R121, R276, R399), evicting and resuming them (R156, R222, R269 to R271, R291). -/

namespace Sys2Proof.Machine

-- The pools of a core (R118)

/-- The blocks placed on a core. -/
def State.coreBlocks (s : State) (core : Nat) : List Block :=
  (s.blocks.filter fun e => e.2.core == core && !e.2.saved).map (·.2)

/-- Those that still hold counter, spawn and group slots: some group of theirs has not left (R131). -/
def State.slotBlocks (s : State) (core : Nat) : List Block :=
  (s.blocks.filter fun e => e.2.core == core && !e.2.saved && !s.blockEmpty e.1).map (·.2)

/-- Group slots that no block of the core has reserved. -/
def State.freeSlots48 (s : State) (core : Nat) : List Nat :=
  (List.range 48).filter fun k => !s.tagBusy core k && (s.slotBlocks core).all fun b => !b.slots.contains k

/-- Registers per lane in use on a core. -/
def State.regsUsed (s : State) (core : Nat) : Nat :=
  (s.slotBlocks core).foldl (fun n b => n + b.slots.length * b.nregs) 0

/-- Spawn slots reserved on a core. -/
def State.spawnUsed (s : State) (core : Nat) : Nat := (s.slotBlocks core).foldl (fun n b => n + b.spawn) 0

/-- A run of n KiB from a KiB number is free. -/
def State.tileFree (s : State) (core k n : Nat) : Bool :=
  decide (k + n ≤ 511) && (s.coreBlocks core).all fun b =>
    decide (k + n ≤ b.res / 1024) || decide (b.res / 1024 + b.tileKiB ≤ k)

/-- A run of n counter slots from one is free. -/
def State.ctrFree (s : State) (core k n : Nat) : Bool :=
  decide (k + n ≤ 64) && (s.slotBlocks core).all fun b => decide (k + n ≤ b.ctr0) || decide (b.ctr0 + b.nctr ≤ k)

/-- The matrix contexts of a core that no block owns. -/
def State.freeCtxs (s : State) (core : Nat) : List Nat :=
  [0, 1].filter fun n => ((s.core core).ctx n).owner.isNone

/-- KiB of a tile size. -/
def kib (bytes : Nat) : Nat := (bytes + 1023) / 1024

/-- A grant on a core: the tile offset, the first counter slot, the group slots, the context (R118). -/
structure Grant where
  tile : Nat
  ctr : Nat
  slots : List Nat
  ctx : Option Nat
  deriving DecidableEq, Repr

/-- A grant at a tile KiB and a counter slot, if the core's pools allow it. -/
def State.grantAt (s : State) (core : Nat) (la : Launch) (k c : Nat) : Option Grant :=
  let n := la.groups + la.spawn / 32
  let slots := (s.freeSlots48 core).take n
  if slots.length = n && s.regsUsed core + n * la.nregs ≤ 1536 && s.tileFree core k (kib la.tile) && s.ctrFree core c la.nctr &&
      s.spawnUsed core + la.spawn ≤ 1536 && (!la.matrix || !(s.freeCtxs core).isEmpty) then
    some { tile := k * 1024, ctr := c, slots := slots, ctx := if la.matrix then (s.freeCtxs core).head? else none }
  else none

/-- The places where a block could be granted; which one it is given is not fixed (log entry 2). -/
def State.grants (s : State) (core : Nat) (la : Launch) : List Grant :=
  let ks := if la.tile = 0 then [0] else (List.range 512).filter fun k => s.tileFree core k (kib la.tile)
  let cs := if la.nctr = 0 then [0] else (List.range 65).filter fun c => s.ctrFree core c la.nctr
  ks.flatMap fun k => cs.filterMap fun c => s.grantAt core la k c

/-- A worn core waits for its blocks to leave before its spare takes its number (R403). -/
def State.beingReplaced (s : State) (core : Nat) : Bool :=
  decide (272 ≤ NMap.get 0 (s.cluster (clusterOf core)).phys (core % 256))

/-- A queue's mask allows a core: its bit by logical core number, whatever the physical core behind it (R322, R400). -/
def State.maskAllows (s : State) (q core : Nat) : Bool :=
  !s.beingReplaced core && (NMap.get (BitVec.allOnes 256) (s.queue q).mask (clusterOf core)).getLsbD (core % 256)

/-- Sets the presence bits of a reservation (R170). -/
def State.presentRange (s : State) (core first n : Nat) : State :=
  s.modCore core fun c => { c with absent := c.absent.filter fun e => decide (e.1 < first) || decide (first + n ≤ e.1) }

/-- The groups of a block start (R31, R120). -/
def State.startGroups (s : State) (core blk n : Nat) (la : Launch) (b : Block) : List Nat → State
  | [] => s
  | gix :: rest =>
    let slot := b.slots.getD gix 0
    let tag := NMap.get 0 (s.core core).tags slot + 1
    let launched : LaneMask := if gix + 1 = la.groups then maskOf fun l => decide (l < la.lastLanes) else 0xFFFFFFFF
    let g := { newGroup core blk n gix la.nregs s.now tag launched la.entry with s := startScalars la b }
    let s1 := (s.modCore core fun c => { c with tags := NMap.set 0 c.tags slot tag }).setGroup (core * 48 + slot) g
    let s2 := if la.trace then s1.recordFree (dieOf core) 3 (s1.siteOf g la.entry).words else s1
    State.startGroups s2 core blk n la b rest

/-- A block is placed on a core with a grant (R118 to R121). -/
def State.placeBlock (s : State) (n core : Nat) (la : Launch) (rank : Nat) (gr : Grant) : State :=
  let blk := s.blockSeq
  let b : Block :=
    { noBlock with
      launch := n, core := core, index := la.placed,
      array := if la.arrayLen = 0 then 0xFFFFFFFFFFFFFFFF else BitVec.ofNat 64 (la.placed / la.arrayLen), rank := rank,
      res := gr.tile, tileKiB := kib la.tile, tileSize := la.tile, ctr0 := gr.ctr, nctr := la.nctr, slots := gr.slots,
      ngroups := la.groups, nregs := la.nregs, spawn := la.spawn, ctx := gr.ctx, order := blk }
  let s1 := { s with blockSeq := blk + 1, blocks := NMap.put s.blocks blk b }
  let s2 := s1.modCore core fun c =>
    let c1 := { c.refresh with blocks := c.blocks ++ [blk] }
    match gr.ctx with
    | some k => c1.setCtx k { freeCtx with owner := some blk }
    | none => c1
  let s3 := (s2.presentRange core (gr.tile / 64) (kib la.tile * 16)).storeBytes (tileAddr core (0x7FE00 + 8 * gr.ctr))
    (List.replicate (8 * la.nctr) 0)
  let s4 := s3.modLaunch n fun x => { x with placed := x.placed + 1, cores := if x.cores.contains core then x.cores else core :: x.cores }
  s4.startGroups core blk n la b (List.range la.groups)

/-- Places one block on each core of a list, with a free choice among the grants; none when one core cannot grant (R276). -/
def State.placeAll (s : State) (n rank : Nat) : List Nat → Option State
  | [] => some s
  | core :: rest =>
    match s.launch? n with
    | none => none
    | some la =>
      let gs := s.grants core la
      if !s.maskAllows la.queue core then none
      else
        let p := s.pick gs.length
        match gs[p.1]? with
        | none => none
        | some gr => State.placeAll (p.2.placeBlock n core la rank gr) n (rank + 1) rest

/-- In replay a block goes to the die and cluster that the recorded run gave it (R379). -/
def State.placeAllowed (s : State) (la : Launch) (core : Nat) : Bool :=
  la.mode != 2 || (match s.placeLog.find? fun e => e.1 == la.logt && e.2.1 == la.placed with
    | some e => e.2.2 == clusterOf core
    | none => true)

/-- The front end records the die and cluster of a block (R379). -/
def State.logPlace (s : State) (la : Launch) (core : Nat) : State :=
  if la.mode = 1 then
    { s with placeLog := (la.logt, la.placed, clusterOf core) ::
               s.placeLog.filter fun e => e.1 != la.logt || e.2.1 != la.placed }
  else s

/-- Places the next block or array of a launch on cores of one cluster, if they can all grant it (R118, R276, R399). -/
def State.placeNext (s : State) (launch : Nat) (cores : List Nat) : State :=
  match s.launch? launch, cores with
  | some la, core :: _ =>
    if la.placed ≥ la.nblocks || cores.length != Nat.max la.arrayLen 1 ||
        cores.any (fun c => clusterOf c != clusterOf core || decide (c ≥ 8192)) || !s.placeAllowed la core then s
    else match (s.logPlace la core).placeAll launch 0 cores with
      | some s' => s'
      | none => s
  | _, _ => s

-- Eviction

/-- An eviction is requested: the groups start no clause, sleeps end, open bins close (R156, R269), once no start sequence for
the block is in progress (R415). -/
def State.requestEvict (s : State) (blk : Nat) : State :=
  match s.block? blk with
  | none => s
  | some b =>
    if b.saved then s
    else if b.starting then s.modBlock blk fun b => { b with evicting := true }
    else
      let s1 := s.modBlock blk fun b => { b with evicting := true }
      let s2 := { s1 with groups := s1.groups.map fun (e : Nat × Group) =>
                    if e.2.blk = blk then (e.1, { e.2 with evicting := true, sleepUntil := none }) else e }
      s2.modCore b.core fun c =>
        { c with bins := c.bins.map fun (e : Nat × Bin) => if e.2.blk = blk then
                   (e.1, { e.2 with closedAt := some ((e.2.closing s.now).getD s.now) }) else e }

/-- The blocks evicted with one: its whole array (R269, R400). -/
def State.evictSet (s : State) (blk : Nat) : List Nat :=
  match s.block? blk with
  | none => []
  | some b =>
    if b.array = 0xFFFFFFFFFFFFFFFF then [blk]
    else (s.blocks.filter fun e => e.2.launch == b.launch && e.2.array == b.array).map (·.1)

/-- Requests the eviction of a list of blocks. -/
def State.requestEvicts (s : State) : List Nat → State
  | [] => s
  | b :: bs => State.requestEvicts (s.requestEvict b) bs

/-- An operation in flight that does not hold up an eviction: a wait (R291), a pending sign or an unfired attached operation
(R222), a request for a tile pass that is not granted (R415). -/
def State.quiet (s : State) (blk : Block) (a : AsyncOp) : Bool :=
  s.ctrWaits.any (fun w => w.op == a.id) ||
    (match blk.tret with
      | some (op, _, _, granted) => op == a.id && !granted
      | none => false) ||
    (s.cores.any fun (e : Nat × Core) => [e.2.ctx0, e.2.ctx1].any fun x =>
      x.ops.any (fun o => o.id == a.id && o.stage == .attached) ||
        x.cvs.any fun (v : Nat × CvReg) => v.2.signOps.contains a.id)

/-- Accesses wait for an array's bytes in the block's reservation or counter slots, or counter additions to come do. -/
def State.reqsAt (s : State) (b : Block) : Bool :=
  let meets (r : Req) : Bool := r.todo.any fun a =>
    (decide (tileAddr b.core b.res ≤ a.addr) && decide (a.addr < tileAddr b.core (b.res + b.tileKiB * 1024))) ||
      (decide (tileAddr b.core (0x7FE00 + 8 * b.ctr0) ≤ a.addr) &&
        decide (a.addr < tileAddr b.core (0x7FE00 + 8 * (b.ctr0 + b.nctr))))
  s.reqs.any meets || s.pubs.any fun p => p.added.any meets

/-- The step-2 conditions of R269 hold for a block. An exit-draining group that only quiet operations keep is saved with it
(R291). -/
def State.evictReady (s : State) (blk : Nat) : Bool :=
  match s.block? blk with
  | none => true
  | some b =>
    b.saved ||
      ((s.blockGroups blk).all (fun e => e.2.clause.isNone && !e.2.halted &&
          (!e.2.draining || s.asyncs.any fun a => a.gid == e.1 && a.tag == e.2.tag) &&
          (s.asyncs.all fun a => a.gid != e.1 || a.tag != e.2.tag || s.quiet b a)) &&
        s.jobsClear b && s.raysQuiet blk && !s.reqsAt b && (s.retires.all fun r => r.blk != blk) &&
        (match b.ctx with
          | none => true
          | some n => ((s.core b.core).ctx n).ops.all fun o => o.stage == .attached))

/-- Puts a bin before the first of a list that closed later. -/
def putClosed (b : Bin) (t : Nat) : List (Nat × Bin) → List (Nat × Bin)
  | [] => [(t, b)]
  | e :: es => if t < e.1 then (t, b) :: e :: es else e :: putClosed b t es

/-- Bins in the order in which they closed, those still open closing now (R152, R156); of two that closed at once the lower
number comes first. -/
def closedInOrder (now : Nat) (bins : NMap Bin) : List Bin :=
  (bins.foldl (fun es (e : Nat × Bin) =>
    let t := (e.2.closing now).getD now
    putClosed { e.2 with closedAt := some t } t es) []).map (·.2)

/-- A block is saved and its reservations are released (R270, R271): a sleep that its last clause started is cancelled (R144,
R269), and its closed bins are unstarted groups (R156). -/
def State.saveBlock (s : State) (blk : Nat) : State :=
  match s.block? blk with
  | none => s
  | some b =>
    if b.saved then s
    else
      let gs := s.blockGroups blk
      let gids := gs.map (·.1)
      let mine (a : AsyncOp) : Bool := gids.contains a.gid
      let b1 : Block :=
        { b with
          saved := true, evicting := false,
          savedGroups := gs.map fun (e : Nat × Group) =>
            { e.2 with dwell := 0, last := 0, lprev := 0, pref := none, hint := none, readySince := none, timers := [],
                       sleepUntil := none, yielded := false },
          unstarted := b.unstarted ++ closedInOrder s.now ((s.core b.core).bins.filter fun (e : Nat × Bin) => e.2.blk == blk),
          savedCtx := b.ctx.map fun n => (s.core b.core).ctx n,
          savedTile := (List.range b.tileSize).map fun i => (i, Memory.read s.mem (tileAddr b.core (b.res + i))),
          savedCtrs := (List.range b.nctr).map fun i => s.load64 (tileAddr b.core (0x7FE00 + 8 * (b.ctr0 + i))),
          savedWaits := (s.ctrWaits.filter fun w => gids.contains w.gid).map fun (w : Wait) =>
            { w with limit := w.limit.map fun t => t - s.now, behind := [] },
          savedOps := s.asyncs.filter mine,
          savedRays := s.rays.filter fun r => r.blk == blk }
      let s1 : State :=
        { s with groups := s.groups.filter fun (e : Nat × Group) => e.2.blk != blk,
                 asyncs := s.asyncs.filter fun a => !mine a,
                 rays := s.rays.filter fun r => r.blk != blk,
                 tileReqs := s.tileReqs.filter fun r => r.blk != blk,
                 ctrWaits := s.ctrWaits.filter fun w => !gids.contains w.gid,
                 blocks := NMap.put s.blocks blk b1 }
      s1.modCore b.core fun c =>
        let c1 : Core := { c with blocks := c.blocks.filter fun x => x != blk,
                                  bins := c.bins.filter fun (e : Nat × Bin) => e.2.blk != blk }
        match b.ctx with
        | some n => c1.setCtx n freeCtx
        | none => c1

/-- Saves several blocks. -/
def State.saveBlocks (s : State) : List Nat → State
  | [] => s
  | b :: bs => State.saveBlocks (s.saveBlock b) bs

/-- A PREEMPT completes when no block of its list is still being evicted: each is saved, has ended, or has resumed (R393,
R400). -/
def State.settlePreempts (s : State) : State :=
  s.queues.foldl (fun (s : State) (e : Nat × Queue) =>
    e.2.cmds.foldl (fun (s : State) (c : Cmd) =>
      if c.begun && (c.words.headD 0).extractLsb' 56 8 == 6 then
        (if c.blocks.all fun b => match s.block? b with
            | none => true
            | some x => !x.evicting
          then s.completeCmd e.1 c.num else s)
      else s) s) s

/-- EVICTION (R269, R415): when the waits of step 2 are over, the block, or its whole array, is saved. -/
def execEviction (blk : Nat) (s : State) : Result :=
  .next (match s.block? blk with
    | none => s
    | some b =>
      let set := s.evictSet blk
      if !b.evicting then s
      else
        let s1 := s.requestEvicts set
        if set.all s1.evictReady then (s1.saveBlocks set).settlePreempts else s1)

-- Resume

/-- The slot a saved group takes on resume. -/
def resumeSlot (slots : List Nat) (g : Group) : Nat := slots.getD g.gix 0

/-- The saved groups enter their slots with new tags and ages (R271). -/
def State.resumeGroups (s : State) (core blk : Nat) (slots : List Nat) : List Group → State
  | [] => s
  | g :: rest =>
    let slot := resumeSlot slots g
    let tag := NMap.get 0 (s.core core).tags slot + 1
    let s1 := (s.modCore core fun c => { c with tags := NMap.set 0 c.tags slot tag }).setGroup (core * 48 + slot)
      { g with core := core, tag := tag, age := s.now }
    State.resumeGroups s1 core blk slots rest

/-- Where a saved group's old identifier went: the new one by its index. -/
def newGid (b : Block) (core : Nat) (slots : List Nat) (oldGid : Nat) : Nat :=
  let gix := ((b.slots.findIdx? fun k => b.core * 48 + k == oldGid).getD 0)
  core * 48 + slots.getD gix 0

/-- The new home of a byte of a core's tile memory that was saved with a block. -/
def movedHome (b : Block) (core a : Nat) : Nat :=
  if tileAddr b.core 0 ≤ a && a < tileAddr (b.core + 1) 0 then tileAddr core (a - tileAddr b.core 0) else a

/-- A record's resolution follows its block (R364). -/
def RecAt.moved (x : RecAt) (blk core : Nat) : RecAt := if x.blk = blk then { x with core := core } else x

/-- An entry's. -/
def RenderEntry.moved (e : RenderEntry) (blk core : Nat) : RenderEntry := { e with at_ := e.at_.moved blk core }

/-- A pass's entries follow a block. -/
def RenderPass.moved (x : RenderPass) (blk core : Nat) : RenderPass :=
  { x with
    chunks := x.chunks.map fun (c : Chunk) => { c with entries := c.entries.map fun e => e.moved blk core },
    tiles := x.tiles.map fun (e : Nat × Tile) =>
      (e.1, { e.2 with out := e.2.out.map fun (o : TilePass) =>
                { o with todo := o.todo.map fun e => e.moved blk core, cur := o.cur.map fun e => e.moved blk core } }) }

/-- The waits of an array name the counters of its blocks where they reside now (R273, R291), and those of the resumed block are
registered where their addresses lead now; one whose translation fails stays at the home it was checked at (log entry 98). -/
def State.rehomeWaits (s : State) (b : Block) (blk : Nat) : State :=
  { s with ctrWaits := s.ctrWaits.map fun (w : Wait) =>
             match s.group? w.gid with
             | none => w
             | some g =>
               match s.block? g.blk with
               | none => w
               | some x =>
                 if x.launch != b.launch || x.array != b.array || (spaceOf w.va == some .dev && g.blk != blk) then w
                 else match s.pieces (s.viewOf w.gid g) 0 w.va 8 .readWhole with
                   | .ok ((t, _) :: _) => { w with addr := t.home.1 }
                   | _ => w }

/-- The groups of an array's blocks issue again once every block of it has resumed (R276). -/
def State.arrayRuns (s : State) (b : Block) (blk : Nat) : State :=
  let set := s.evictSet blk
  if set.any fun n => match s.block? n with
      | some x => x.saved || x.evicting
      | none => false
  then s
  else { s with groups := s.groups.map fun (e : Nat × Group) =>
                  if e.2.launch = b.launch && set.contains e.2.blk then (e.1, { e.2 with evicting := false }) else e }

/-- A block that asked for a tile pass asks again, last in the order (R415). -/
def State.askAgain (s : State) (blk : Nat) (b : Block) : State :=
  match b.tret with
  | some (_, _, _, false) => s.sendTile blk
  | _ => s

/-- A saved block enters a core with a grant (R271). -/
def State.resumeBlock (s : State) (blk core : Nat) (b : Block) (gr : Grant) : State :=
  let b1 : Block := { b with saved := false, core := core, slots := gr.slots, ctx := gr.ctx, savedGroups := [],
                             savedCtx := none, savedTile := [], savedCtrs := [], savedWaits := [], savedOps := [],
                             savedRays := [] }
  let s1 : State := { s with blocks := NMap.put s.blocks blk b1 }
  let s2 := s1.modCore core fun c => { c with blocks := c.blocks ++ [blk] }
  let s3 := (s2.presentRange core (b.res / 64) (b.tileKiB * 16)).storeBytes (tileAddr core b.res)
    (b.savedTile.map (·.2))
  let s4 := s3.storeBytes (tileAddr core (0x7FE00 + 8 * b.ctr0)) (b.savedCtrs.flatMap fun x => natBytes x.toNat 8)
  let s5 := s4.resumeGroups core blk gr.slots b.savedGroups
  let ng (gid : Nat) : Nat := newGid b core gr.slots gid
  let tagOf (gid : Nat) : BitVec 4 := ((s5.group? (ng gid)).map Group.tag).getD 0
  let s6 := s5.modCore core fun c =>
    match gr.ctx, b.savedCtx with
    | some n, some x => c.setCtx n { x with ops := x.ops.map fun (o : MatOp) => { o with tag := tagOf o.gid, gid := ng o.gid } }
    | _, _ => c
  let s7 : State :=
    { s6 with
      asyncs := s6.asyncs ++ b.savedOps.map fun (a : AsyncOp) => { a with gid := ng a.gid, core := core, tag := tagOf a.gid },
      rays := s6.rays ++ b.savedRays.map fun (r : Ray) => { r with gid := ng r.gid, core := core, tag := tagOf r.gid },
      prims := s6.prims.map fun (p : Prim) =>
        if p.launch = b.launch && p.e.at_.blk = blk then
          { p with e := p.e.moved blk core, gid := ng p.gid, tag := tagOf p.gid }
        else p,
      passes := s6.passes.map fun (e : Nat × RenderPass) =>
        (e.1, { e.2.moved blk core with groups := e.2.groups.map fun (g : MeshGroup) =>
                  if g.launch = b.launch && g.blk = blk && !g.exited then { g with gid := ng g.gid, tag := tagOf g.gid }
                  else g }),
      ctrWaits := s6.ctrWaits ++ b.savedWaits.map fun (w : Wait) =>
        { w with gid := ng w.gid, core := core, tag := tagOf w.gid, addr := movedHome b core w.addr,
                 limit := w.limit.map fun t => s.now + t } }
  let s8 := s7.modLaunch b.launch fun x => { x with cores := if x.cores.contains core then x.cores else core :: x.cores }
  ((s8.rehomeWaits b blk).arrayRuns b blk).askAgain blk b

/-- BLOCK_RESUME (R271): on a core of its cluster that grants the reservations at the same tile offset and counter slots. -/
def execBlockResume (blk core : Nat) (s : State) : Result :=
  .next (match s.block? blk with
    | none => s
    | some b =>
      match s.launch? b.launch with
      | none => s
      | some la =>
        if !b.saved || clusterOf core != clusterOf b.core || !s.maskAllows la.queue core then s
        else match s.grantAt core la (b.res / 1024) b.ctr0 with
          | none => s
          | some gr => s.resumeBlock blk core b gr)

end Sys2Proof.Machine
end

