-- ==== Sys2Proof/Machine/Raster.lean ====
section
/-! DEFINITION. The binner's and the rasteriser's geometry (R354, R360, R361) and their reads of attribute records (R364). -/

namespace Sys2Proof.Machine

-- Records (R364)

/-- Byte i of a tile-space record of a block, where the block resides or is saved. -/
def State.recTileByte (s : State) (x : RecAt) (i : Nat) : Byte :=
  let off := x.a.toNat % 2 ^ 19 + i
  match s.block? x.blk with
  | some b =>
    if b.saved && decide (b.res ≤ off) && decide (off < b.res + b.tileSize) then NMap.get unwritten b.savedTile (off - b.res)
    else Memory.read s.mem (tileAddr x.core off)
  | none => Memory.read s.mem (tileAddr x.core off)

/-- A migration holds the walk of a record's address. -/
def State.recHeld (s : State) (r : RecAt) : Bool :=
  spaceOf r.a == some .dev && ((s.die (dieOf r.core)).apertureFor r.a.toNat).isNone && s.rangeHeld r.asn r.a.toNat 48

/-- The first 48 bytes of a record, read at their home or, in 4-byte units, at the die's aperture port (R336, R364), or the
address that fails. -/
def State.recRead (s : State) (x : RecAt) : Except W64 Nat :=
  match spaceOf x.a with
  | some .dev => match s.resolve (engineUnit (dieOf x.core)) x.asn x.root x.a.toNat 4 .read with
    | .ok (.home p) => if s.peerDown p then .error x.a else .ok ((s.beforePort x.core p 48).loadN p 48)
    | .ok (.port m off) =>
      .ok (bytesNat ((List.range 12).flatMap fun i => natBytes (s.portLoad x.core m (off + 4 * i) 4).1 4))
    | .error _ => .error x.a
  | some .vault =>
    if (x.a.toNat % 2 ^ 30) / 2 ^ 24 ≥ 64 - s.l2n then .error x.a
    else .ok (s.loadN (vaultAddr (dieOf x.core) (x.a.toNat % 2 ^ 30)) 48)
  | some .tile => .ok (bytesNat ((List.range 48).map fun i => s.recTileByte x i))
  | _ => .error x.a

/-- A record's read at the slices (R376): the binner's, or the rasteriser's under the same class. -/
def State.recSeen (s : State) (x : RecAt) : State :=
  match spaceOf x.a, s.resolve (engineUnit (dieOf x.core)) x.asn x.root x.a.toNat 4 .read with
  | some .dev, .ok (.home p) => s.l2See p 48 false (10, 0) (dieOf x.core)
  | some .dev, .ok (.port m off) => s.portSeen x.core m off 48 false (10, 0)
  | _, _ => s

-- Triangles (R354, R360)

/-- A triangle as the rasteriser takes it: snapped positions in 2^-8 pixels, depths, and twice the signed area. -/
structure RasterTri where
  p0 : Int × Int
  p1 : Int × Int
  p2 : Int × Int
  z0 : Frac
  z1 : Frac
  z2 : Frac
  area : Int
  /-- every depth has its sign bit set: a zero of the interpolation is then -0 (R14, R15) -/
  negz : Bool
  deriving DecidableEq, Repr

/-- Edge(a, b) at a point, in 2^-16 square pixels (R231). -/
def edgeInt (a b p : Int × Int) : Int := (a.1 - p.1) * (b.2 - p.2) - (b.1 - p.1) * (a.2 - p.2)

/-- The triangle of a record's 48 bytes, none where the binner drops it for its values (R354). -/
def rasterTri (x : Nat) : Option RasterTri :=
  let ws := (List.range 12).map fun i => BitVec.ofNat 32 (x / 2 ^ (32 * i))
  if !allFinite ws then none
  else
    let w (v i : Nat) : Frac := fracOf (ws.getD (4 * v + i) 0)
    let snap (v i : Nat) : Int := ((w v i).mul (Frac.int 256)).round
    let pos (v : Nat) : Int × Int := (snap v 0, snap v 1)
    let far (n : Int) : Bool := decide (n.natAbs ≥ 2 ^ 28)
    let area := edgeInt (pos 1) (pos 2) (pos 0)
    let negz := [2, 6, 10].all fun i => (ws.getD i 0).msb
    if [0, 1, 2].any (fun v => decide ((w v 3).n ≤ 0) || far (snap v 0) || far (snap v 1)) || area = 0 then none
    else some { p0 := pos 0, p1 := pos 1, p2 := pos 2, z0 := w 0 2, z1 := w 1 2, z2 := w 2 2, area := area, negz := negz }

/-- The triangle with vertices 1 and 2 exchanged where its area is negative (R360). -/
def RasterTri.turned (t : RasterTri) : RasterTri :=
  if t.area < 0 then { t with p1 := t.p2, p2 := t.p1, z1 := t.z2, z2 := t.z1, area := -t.area } else t

/-- An edge from a to b is a top or left edge (R360). -/
def topLeft (a b : Int × Int) : Bool := decide (b.2 - a.2 < 0) || (decide (b.2 - a.2 = 0) && decide (0 < b.1 - a.1))

/-- The depth at a point that a turned triangle covers, or none (R360). -/
def RasterTri.depthAt (t : RasterTri) (p : Int × Int) : Option W32 :=
  let e0 := edgeInt t.p1 t.p2 p
  let e1 := edgeInt t.p2 t.p0 p
  let e2 := edgeInt t.p0 t.p1 p
  let inside (e : Int) (a b : Int × Int) : Bool := decide (0 < e) || (decide (e = 0) && topLeft a b)
  if inside e0 t.p1 t.p2 && inside e1 t.p2 t.p0 && inside e2 t.p0 t.p1 then
    let z := (((t.z0.mul (Frac.int e0)).add (t.z1.mul (Frac.int e1))).add (t.z2.mul (Frac.int e2))).div (Frac.int t.area)
    some (if z.n = 0 && t.negz then 0x80000000 else z.fp32)
  else none

/-- The offsets of the samples of a pixel, in 2^-8 pixels (R360). -/
def sampleOffsets (n : Nat) : List (Int × Int) :=
  if n = 1 then [(128, 128)] else if n = 2 then [(64, 64), (192, 192)] else [(96, 32), (224, 96), (32, 160), (160, 224)]

/-- The screen point of sample s of pixel number p of the tile in a column and row. -/
def samplePoint (n col row p s : Nat) : Int × Int :=
  let o := (sampleOffsets n).getD s (0, 0)
  (((32 * col + p % 32) * 256 : Nat) + o.1, ((32 * row + p / 32) * 256 : Nat) + o.2)

/-- The least and greatest of three. -/
def span3 (a b c : Int) : Int × Int := (min a (min b c), max a (max b c))

/-- The pixels of a tile that a triangle's bounding box meets. -/
def RasterTri.pixels (t : RasterTri) (col row : Nat) : List Nat :=
  let xs := span3 t.p0.1 t.p1.1 t.p2.1
  let ys := span3 t.p0.2 t.p1.2 t.p2.2
  let near (s : Int × Int) (k : Nat) : Bool := decide (s.1 ≤ (k + 1) * 256) && decide (k * 256 ≤ s.2)
  ((List.range 32).filter fun y => near ys (32 * row + y)).flatMap fun y =>
    ((List.range 32).filter fun x => near xs (32 * col + x)).map fun x => 32 * y + x

/-- The covered samples of a tile: pixel, sample and depth. -/
def RasterTri.samples (t : RasterTri) (n col row : Nat) : List (Nat × Nat × W32) :=
  let u := t.turned
  (u.pixels col row).flatMap fun p => (List.range n).filterMap fun s =>
    (u.depthAt (samplePoint n col row p s)).map fun d => (p, s, d)

-- Binning (R354)

/-- The first and last tile across that an extent of a bounding box meets, among n tiles; none where it meets none. -/
def tileRange (lo hi : Int) (n : Nat) : List Nat :=
  (List.range n).filter fun k => decide (lo ≤ (k + 1) * 8192) && decide ((k * 8192 : Nat) ≤ hi)

/-- The tiles that list a primitive, none where it is dropped (R354): every tile with a covered sample, and those the binner
adds. -/
def binTiles (p : List W64) (pid : W64) (cull x : Nat) : Option (List Nat) :=
  match rasterTri x with
  | none => none
  | some t =>
    let xs := span3 t.p0.1 t.p1.1 t.p2.1
    let ys := span3 t.p0.2 t.p1.2 t.p2.2
    let cols := tileRange xs.1 xs.2 (passAcross p)
    let rows := tileRange ys.1 ys.2 (passDown p)
    if (cull = 1 && t.area < 0) || (cull = 2 && 0 < t.area) || cols.isEmpty || rows.isEmpty then none
    else
      some ((List.range (passDown p)).flatMap fun r => (List.range (passAcross p)).filterMap fun c =>
        let tile := (pid.toNat % 256 * passDown p + r) * passAcross p + c
        if Config.extraTile pid tile ||
            (rows.contains r && cols.contains c && !(t.samples (passSamples p) c r).isEmpty) then some tile
        else none)

-- The depth test (R361)

/-- A sample of depth d passes against a stored depth. -/
def depthPass (df : Nat) (d stored : W32) : Bool :=
  match df with
  | 0 => (fp32.compare .lt d.toNat stored.toNat).1
  | 1 => (fp32.compare .le d.toNat stored.toNat).1
  | 2 => (fp32.compare .gt d.toNat stored.toNat).1
  | 3 => (fp32.compare .ge d.toNat stored.toNat).1
  | _ => true

/-- The lesser of two depths, and the greater: a NaN gives way to a number. -/
def depthMin (a b : W32) : W32 := BitVec.ofNat 32 (fp32.minmax false true a.toNat b.toNat).1

/-- The greater of two depths. -/
def depthMax (a b : W32) : W32 := BitVec.ofNat 32 (fp32.minmax true true a.toNat b.toNat).1

end Sys2Proof.Machine
end

