-- ==== Sys2Proof/Machine/ListEngine.lean ====
section
/-! DEFINITION. prim, the binner, parameter lists, partial flushes, and the start of mesh groups (R350 to R359). -/

namespace Sys2Proof.Machine

-- The pool (R356, R358)

/-- A number enters an ascending list. -/
def insertNat (x : Nat) : List Nat → List Nat
  | [] => [x]
  | y :: ys => if x < y then x :: y :: ys else y :: insertNat x ys

/-- The k-th number that an ascending list lacks. -/
def kthFree (used : List Nat) (k : Nat) : Nat := used.foldl (fun n u => if u ≤ n then n + 1 else n) k

/-- Free chunks of the pool. -/
def RenderPass.free (x : RenderPass) : Nat := passChunks x.p - x.chunks.length

/-- The chain of a tile and a key, in order. -/
def RenderPass.chain (x : RenderPass) (t key : Nat) : List Chunk := x.chunks.filter fun c => c.tile == t && c.key == key

/-- The heads of a tile: the keys with a chain. -/
def RenderPass.heads (x : RenderPass) (t : Nat) : List Nat :=
  x.chunks.foldl (fun ks c => if c.tile = t && !ks.contains c.key then insertNat c.key ks else ks) []

/-- The group of a key. -/
def RenderPass.groupOf (x : RenderPass) (key : Nat) : Option MeshGroup := x.groups.find? fun g => g.key == key

/-- The group of a key is complete, or is none of the pass's. -/
def State.keyDone (s : State) (slot : Nat) (x : RenderPass) (key : Nat) : Bool :=
  match x.groupOf key with
  | some g => s.meshDone slot g
  | none => true

/-- A new chunk may be handed out to a group (R358). -/
def State.chunkAllowed (s : State) (slot : Nat) (x : RenderPass) (key : Nat) : Bool :=
  decide (x.free > passReserve x.p) ||
    (decide (x.free > 0) && ((s.watermarkGroup slot x).map MeshGroup.key) == some key)

/-- The device-virtual address of a chunk. -/
def chunkVa (x : RenderPass) (idx : Nat) : Nat := passPool x.p + 4096 * idx

/-- The header of a chunk: key, next and counts, tile, zeros (R356). -/
def chunkHeader (c : Chunk) (next : Nat) : List Byte :=
  natBytes c.key 8 ++ natBytes (next + c.entries.length * 2 ^ 32 + c.used * 2 ^ 40) 8 ++ natBytes c.tile 8 ++
    List.replicate 40 0

/-- An entry's 32 bytes (R356). -/
def entryBytes (e : RenderEntry) : List Byte :=
  natBytes e.at_.a.toNat 8 ++ natBytes (if e.cov then e.entry.toNat else 0) 8 ++
    natBytes (e.pid.toNat % 2 ^ 20 + e.df * 2 ^ 20 + (if e.cov then 2 ^ 23 else 0)) 8 ++ List.replicate 8 0

/-- The chunk after one in its chain. -/
def RenderPass.nextOf (x : RenderPass) (c : Chunk) : Nat :=
  match ((x.chain c.tile c.key).dropWhile fun d => d.idx != c.idx).drop 1 with
  | d :: _ => d.idx
  | [] => 0xFFFFFFFF

/-- A pool fault (R356), a translation fault or an uncorrectable error: the contexts with a mesh group of the pass or a tile
pass of it are killed, and it fails. -/
def State.poolFault (s : State) (slot code : Nat) (a : W64) (site : Site) : State :=
  match s.runningPass slot with
  | none => s
  | some x =>
    let owners := (s.blocks.filter fun (e : Nat × Block) => (e.2.pass.map (·.1)) == some slot).map fun e => e.2.launch
    (s.killLaunches code a site (distinct (x.groups.map MeshGroup.launch ++ owners))).failPass slot

/-- The headers of the chunks of some numbers are written, with an entry's bytes in one of them. -/
def State.writeChunks (s : State) (x : RenderPass) : List (Nat × Option (Nat × RenderEntry)) → Except W64 State
  | [] => .ok s
  | (idx, e) :: rest =>
    match x.chunks.find? fun c => c.idx == idx with
    | none => State.writeChunks s x rest
    | some c =>
      match s.tableHome x.root (chunkVa x idx) true with
      | none => .error (BitVec.ofNat 64 (chunkVa x idx))
      | some h =>
        let s1 := ((s.hubWalk x.root (chunkVa x idx)).l2See h 64 true (10, 0) 0).storeBytes h (chunkHeader c (x.nextOf c))
        State.writeChunks (match e with
          | some (k, r) => (s1.l2See (h + 64 + 32 * k) 32 true (10, 0) 0).storeBytes (h + 64 + 32 * k) (entryBytes r)
          | none => s1) x rest

/-- What an append of an entry to a tile's list comes to. -/
inductive Append
  | done (s : State)
  | held
  | bad (a : W64)

/-- An append of an entry to a tile's list (R353, R356, R358). -/
def State.append (s : State) (slot t : Nat) (e : RenderEntry) : Append :=
  match s.runningPass slot with
  | none => .done s
  | some x =>
    let key := idKey e.pid
    let chain := x.chain t key
    let give (y : RenderPass) (ws : List (Nat × Option (Nat × RenderEntry))) (s : State) : Append :=
      match (s.modPass slot fun _ => y).writeChunks y ws with
      | .ok s1 => .done s1
      | .error a => .bad a
    let fresh : Append :=
      if (chain.isEmpty && decide ((x.heads t).length ≥ 256)) || !s.chunkAllowed slot x key then .held
      else
        let p := s.pick x.free
        let idx := kthFree (x.chunks.foldl (fun us c => insertNat c.idx us) []) p.1
        let y := { x with chunks := x.chunks ++ [{ idx := idx, key := key, tile := t, entries := [e], used := 0 }] }
        give y ((chain.getLast?.toList.map fun c => (c.idx, none)) ++ [(idx, some (0, e))]) p.2
    match chain.getLast? with
    | none => fresh
    | some c =>
      match c.entries.getLast? with
      | some last =>
        if e.pid.toNat ≤ last.pid.toNat then .done (s.passCount slot 1 1)
        else if c.entries.length < 126 then
          give { x with chunks := x.chunks.map fun d => if d.idx = c.idx then { d with entries := d.entries ++ [e] } else d }
            [(c.idx, some (c.entries.length, e))] s
        else fresh
      | none =>
        give { x with chunks := x.chunks.map fun d => if d.idx = c.idx then { d with entries := [e] } else d }
          [(c.idx, some (0, e))] s

-- Emission order and held appends (R353, R355, R358)

/-- The primitive is the first of its group that is neither appended nor dropped. -/
def State.primFirst (s : State) (p : Prim) : Bool :=
  s.prims.all fun q => decide (q.id ≥ p.id) || q.slot != p.slot || idKey q.e.pid != idKey p.e.pid

/-- The tile to which a primitive is appended next. -/
def Prim.nextTile (p : Prim) : Option Nat :=
  match p.tiles with
  | some (t :: _) => some t
  | _ => none

/-- The primitive's append is held back (R358). -/
def State.primHeld (s : State) (p : Prim) : Bool :=
  s.primFirst p && (match p.nextTile with
    | none => false
    | some t => match s.append p.slot t p.e with
      | .held => true
      | _ => false)

/-- The append waits for a head of a tile. -/
def State.waitsForHead (s : State) (slot : Nat) (x : RenderPass) (t : Nat) : Bool :=
  decide ((x.heads t).length ≥ 256) && s.prims.any fun p =>
    p.slot == slot && s.primFirst p && p.nextTile == some t && (x.chain t (idKey p.e.pid)).isEmpty

/-- The cycles for which an append of the pass was held back are counted up to now (R349). -/
def State.heldClock (s : State) (slot : Nat) : State :=
  match s.runningPass slot with
  | none => s
  | some _ =>
    let s1 := s.closeHeld slot
    let held := s1.prims.any fun p => p.slot == slot && s1.primHeld p
    s1.modPass slot fun x => { x with heldSince := if held then some s1.now else none }

-- Partial flushes (R359)

/-- The entries of a tile that are not rendered and lie below an ID. -/
def RenderPass.below (x : RenderPass) (t : Nat) (hi : W64) : List RenderEntry :=
  (x.chunks.filter fun c => c.tile == t).flatMap fun c =>
    (c.entries.drop c.used).filter fun e => decide (e.pid.toNat < hi.toNat)

/-- A chunk is freed once its entries below an ID are rendered (R357). -/
def State.chunkFreed (s : State) (slot : Nat) (x : RenderPass) (hi : W64) (c : Chunk) : Bool :=
  c.entries.all (fun e => decide (e.pid.toNat < hi.toNat)) && (decide (c.entries.length = 126) || s.keyDone slot x c.key)

/-- Chunks that forced partial passes not yet rendered will free. -/
def State.pendingChunks (s : State) (slot : Nat) (x : RenderPass) : Nat :=
  x.tiles.foldl (fun (n : Nat) (e : Nat × Tile) => match e.2.out with
    | some o =>
      if o.final || o.started then n
      else n + (x.chunks.filter fun c => c.tile == e.1 && s.chunkFreed slot x o.hi c).length
    | none => n) 0

/-- The tile of the set C with the most chunks, the lowest index on ties. -/
def flushTile (s : State) (slot : Nat) (x : RenderPass) (w : W64) : Option Nat :=
  (List.range (passTiles x.p)).foldl (fun (best : Option Nat) t =>
    let y := x.tile t
    if y.done || y.out.isSome || (x.below t w).isEmpty then best
    else
      let size (t : Nat) : Nat := (x.chunks.filter fun c => c.tile == t).length
      match best with
      | none => some t
      | some b => if size b < size t then some t else best) none

/-- The loop of R359; the fuel bounds the tiles forced. -/
def State.flushLoop (slot : Nat) : Nat → State → State
  | 0, s => s
  | k + 1, s =>
    match s.runningPass slot with
    | none => s
    | some x =>
      let w := s.watermark slot x
      match flushTile s slot x w with
      | none => s
      | some t =>
        let s1 := ((s.modTile slot t fun y => { y with out := some (newTilePass false w) }).modPass slot fun x =>
          { x with forced := x.forced ++ [t] }).passCount slot 0 1
        match s1.runningPass slot with
        | none => s1
        | some y =>
          if decide ((y.free + s1.pendingChunks slot y) * 4 ≥ passChunks y.p) && !s1.waitsForHead slot y t then s1
          else State.flushLoop slot k s1

/-- The list engine flushes when the free chunks run low or an append waits (R359). -/
def State.pump (s : State) (slot : Nat) : State :=
  let s := s.heldClock slot
  match s.runningPass slot with
  | none => s
  | some x =>
    if x.ended then s
    else if decide (x.free * 8 < passChunks x.p) || x.heldSince.isSome then State.flushLoop slot (passTiles x.p) s
    else s

-- prim (R350, R351)

/-- The codes of a depth function and of a culling mode. -/
def DepthFn.code : DepthFn → Nat
  | .lt => 0
  | .le => 1
  | .gt => 2
  | .ge => 3
  | .al => 4

/-- The code of a culling mode. -/
def Cull.code : Cull → Nat
  | .none => 0
  | .back => 1
  | .front => 2

/-- The key of a mesh group (R350). -/
def meshKey (la : Launch) (index gix : Nat) : Nat :=
  ((la.words.getD 9 0).extractLsb' 37 20).toNat * 2 ^ 24 + (index * la.groups + gix) % 2 ^ 24

/-- The ID of a lane's primitive (R350). -/
def primId (key : Nat) (b : W32) : W64 :=
  BitVec.ofNat 64 (key * 2 ^ 20 + (b.extractLsb' 0 12).toNat * 256 + (b.extractLsb' 12 8).toNat)

/-- Emits the primitives of the lanes of a list (R351): with a failed pass they are dropped and counted, with none they are
dropped. -/
def State.emitPrims (s : State) (slot : Nat) (mk : State → Nat → Prim) : List Nat → State
  | [] => s
  | l :: ls =>
    State.emitPrims
      (match s.pass? slot with
        | some x =>
          if x.running then { s with nextId := s.nextId + 1, prims := s.prims ++ [{ mk s l with id := s.nextId }] }
          else if x.failed then s.passCount slot 2 1
          else s
        | none => s) slot mk ls

/-- prim (R351). -/
def execPrim (df : DepthFn) (cov : Option (BitVec 5)) (cull : Cull) (a b : Operand) (tl : Tail) (s : State) : Result :=
  issueAsync (fun _ => true) [.src64 a, .src b] tl (fun c s =>
    let v := s.viewOf c.gid c.g
    let slot := v.la.rpass.getD 0
    let low (l : Nat) : W32 := c.g.read32 c.rank .word b l
    let rec_ (l : Nat) : W64 := c.g.read64 c.rank a l
    let views := match s.runningPass slot with
      | some x => passViews x.p
      | none => 256
    let entry : W64 := match cov with
      | some r => c.g.sget r.toNat
      | none => 0
    let at_ (p : Nat → Bool) : LaneMask := maskFrom p (laneList c.em)
    let bad := at_ fun l => (low l).extractLsb' 20 12 != 0 || decide (((low l).extractLsb' 12 8).toNat ≥ views)
    let mis := at_ fun l => (rec_ l).toNat % 64 != 0
    let far := at_ fun l => !(spaceOf (rec_ l) == some .dev || spaceOf (rec_ l) == some .vault || spaceOf (rec_ l) == some .tile)
    if c.em != 0 && !(v.la.mesh && decide (c.g.gix < v.la.groups)) then c.illegalOperand
    else if bad != 0 then c.fault 0x03 c.word bad
    else
      c.checkTargets (if cov.isSome then c.em else 0) (fun _ => entry)
        (if mis != 0 then c.fault 0x09 (rec_ ((lowestLane mis).getD 0)) mis
        else if far != 0 then c.fault 0x08 (rec_ ((lowestLane far).getD 0)) far
        else
          let key := meshKey v.la v.blk.index c.g.gix
          let site := s.siteOf c.g c.cl.pc
          let mk (_ : State) (l : Nat) : Prim :=
            { id := 0, slot := slot, cull := Cull.code cull, gid := c.gid, tag := c.g.tag, launch := c.g.launch,
              site := site, tiles := none,
              e := { pid := primId key (low l), df := DepthFn.code df, cov := cov.isSome, entry := entry,
                     at_ := { a := rec_ l, core := c.core, blk := c.g.blk, asn := v.la.asn, root := v.la.root } } }
          let s1 := s.emitPrims slot mk (laneList c.em)
          .ok (match tl with
            | none => s1
            | some _ => s1.launchAsync { c.async tl with
                deps := (s1.prims.filter fun p => decide (p.id ≥ s.nextId)).map Prim.id }))) s

-- The binner and the appends

/-- PRIMITIVE_BIN (R351, R354): a failing read of the record is an asynchronous engine fault;
with its launch already complete, the primitive is dropped. -/
def execPrimitiveBin (prim : Nat) (s : State) : Result :=
  .next (match s.prims.find? fun p => p.id == prim && p.tiles.isNone with
    | none => s
    | some p =>
      match s.runningPass p.slot with
      | none => s
      | some x =>
        if s.recHeld p.e.at_ || s.statusHeld x then s
        else match s.recRead p.e.at_ with
        | .error a => if (s.launch? p.launch).isSome then s.killLaunch p.launch 0x30 a p.site else s.primDone p
        | .ok w =>
          let set (ts : List Nat) (s : State) : State :=
            { s with prims := s.prims.map fun q => if q.id = p.id then { q with tiles := some ts } else q }
          match binTiles x.p p.e.pid p.cull w with
          | some ts => set ts (s.recSeen p.e.at_)
          | none => set [] ((s.recSeen p.e.at_).passCount p.slot 2 1))

/-- Appends a primitive to its tiles in turn, as far as the pool allows. -/
def State.appendTiles (s : State) (p : Prim) : List Nat → State
  | [] => s.primDone p
  | t :: ts =>
    match s.append p.slot t p.e with
    | .done s1 => State.appendTiles s1 p ts
    | .held => { s with prims := s.prims.map fun q => if q.id = p.id then { q with tiles := some (t :: ts) } else q }
    | .bad a => s.poolFault p.slot 0x30 a p.site

/-- LIST_APPEND (R353, R358): the groups' primitives are appended in the order of their emission. -/
def execListAppend (slot prim : Nat) (s : State) : Result :=
  .next (match s.prims.find? fun p => p.id == prim && p.slot == slot with
    | none => s
    | some p =>
      match p.tiles with
      | none => s
      | some ts =>
        if !s.primFirst p || ((s.runningPass slot).map s.listHeld).getD false then s else (s.appendTiles p ts).pump slot)

-- Mesh groups (R352)

/-- The key of the next mesh group that a launch starts. -/
def nextKey (la : Launch) : Nat := meshKey la la.placed 0

/-- No other mesh launch of the slot starts a lower key next. -/
def State.lowestKey (s : State) (n : Nat) (la : Launch) : Bool :=
  s.launches.all fun (e : Nat × Launch) => e.1 == n || !e.2.mesh || e.2.rpass != la.rpass || decide (e.2.placed ≥ e.2.nblocks) ||
    decide (nextKey la ≤ nextKey e.2)

/-- Started groups with a key at or above the watermark group's (R352). -/
def State.aboveMark (s : State) (slot : Nat) (x : RenderPass) : Nat :=
  match s.watermarkGroup slot x with
  | none => 0
  | some g => (x.groups.filter fun h => decide (g.key ≤ h.key)).length

/-- The groups of the blocks from one placement order on enter the pass. -/
def State.enterMesh (s : State) (slot n : Nat) (la : Launch) (from_ : Nat) : State :=
  let new := s.blocks.filter fun (e : Nat × Block) => decide (e.1 ≥ from_) && e.2.launch == n
  let groups : List MeshGroup := new.flatMap fun (e : Nat × Block) => (List.range la.groups).map fun gix =>
    let gid := e.2.core * 48 + e.2.slots.getD gix 0
    { key := meshKey la e.2.index gix, gid := gid, tag := ((s.group? gid).map Group.tag).getD 0, launch := n, blk := e.1,
      last := none, exited := false }
  s.modPass slot fun x => { x with groups := x.groups ++ groups }

/-- The next block of a mesh launch starts, in key order and within the limit of 256 (R352); an array starts whole. -/
def State.startMesh (s : State) (n : Nat) (cores : List Nat) : State :=
  match s.launch? n with
  | none => s
  | some la =>
    let slot := la.rpass.getD 0
    match s.runningPass slot with
    | none => s.placeNext n cores
    | some x =>
      if !s.lowestKey n la || decide (s.aboveMark slot x + la.groups * cores.length > 256) then s
      else (s.placeNext n cores).enterMesh slot n la s.blockSeq

/-- The next block of a launch may start, as far as R352 goes. -/
def State.mayStart (s : State) (n : Nat) (la : Launch) : Bool :=
  !la.mesh || (match s.runningPass (la.rpass.getD 0) with
    | none => true
    | some x => s.lowestKey n la &&
        decide (s.aboveMark (la.rpass.getD 0) x + la.groups * Nat.max la.arrayLen 1 ≤ 256))

/-- A core can take a block of a launch now. -/
def State.coreTakes (s : State) (la : Launch) (core : Nat) : Bool :=
  s.placeAllowed la core && s.maskAllows la.queue core && !(s.grants core la).isEmpty

/-- A launch's next block or array could be placed on one of these cores now. -/
def State.wants (s : State) (n : Nat) (la : Launch) (cores : List Nat) : Bool :=
  decide (la.placed < la.nblocks) && s.mayStart n la && cores.any (s.coreTakes la) &&
    (la.arrayLen ≤ 1 ||
      decide (((List.range 256).filter fun k =>
        s.coreTakes la (clusterOf (cores.headD 0) * 256 + k)).length ≥ la.arrayLen))

/-- No launch that launched before wants these cores (R399). -/
def State.servesNow (s : State) (n : Nat) (cores : List Nat) : Bool :=
  s.launches.all fun (e : Nat × Launch) => decide (n ≤ e.1) || !s.wants e.1 e.2 cores

/-- MESH_GROUP_START (R352). -/
def execMeshGroupStart (launch core : Nat) (s : State) : Result :=
  .next (match s.launch? launch with
    | none => s
    | some la => if la.mesh && s.servesNow launch [core] then s.startMesh launch [core] else s)

/-- BLOCK_PLACEMENT (R118, R276, R399): launches are served in the order in which they launched, and a mesh launch's arrays keep R352 too. -/
def execBlockPlacement (launch : Nat) (cores : List Nat) (s : State) : Result :=
  .next (match s.launch? launch with
    | none => s
    | some la =>
      if !s.servesNow launch cores then s
      else if la.mesh then s.startMesh launch cores else s.placeNext launch cores)

end Sys2Proof.Machine
end

