-- ==== Sys2Proof/Machine/Sync.lean ====
section
/-! DEFINITION. Atomics (R184 to R189), counters (R286 to R291), publishing, phases and fences (R280 to R284, R292, R293). -/

namespace Sys2Proof.Machine

-- Contributions to reduction windows (R425, R426)

/-- An atomic's form as a contribution: .sub is sent as .add of the negation (R426). -/
def contribOf (op : AtomOp) (x : W32) : RedOp × W64 :=
  match op with
  | .sub => (.atom .add, (0 - x).setWidth 64)
  | op => (.atom op, x.setWidth 64)

/-- A contribution leaves. -/
def Gather.contribute (g : Gather) (op : RedOp) (x : W64) (pa : Nat) (va : W64) (launch : Nat) : Gather :=
  { g with s := { g.s with nextId := g.s.nextId + 1,
                           contribs := g.s.contribs ++
                             [{ id := g.s.nextId, op := op, addr := pa, value := x,
                                owners := [{ id := g.s.nextId, launch := launch, core := g.async.core, site := g.async.site }],
                                peers := [], unit := none, past := false, lone := false, va := va, site := g.async.site, arrived := none }] } }

/-- One lane's atomic (R184): the L1's sector is written back and leaves first (R189); in a reduction window it is a
contribution, which returns 0. -/
def Gather.atomic (g : Gather) (v : View) (va : W64) (t : Target) (red : Option (RedOp × W64)) (dst : Dst)
    (acc : Nat → Access) : Gather :=
  match t with
  | .arr a own => g.send a own false 0 (acc a)
  | .port _ _ => g
  | .snap pa =>
    let g1 := { g with s := g.s.purgeSector v.core v.launchId pa }
    match red, g.s.window va.toNat with
    | some (op, x), some _ =>
      { g1.contribute op x pa va v.launchId with async := g1.async.deliver dst 0 }
    | _, _ => g1.send pa false true (pa + 1) (acc pa)

/-- The atomics of an instruction's lanes, in ascending order (R185). -/
def atomics (uses : List Use) (tl : Tail) (d : BitVec 6) (addr : Ctx → Nat → W64) (k : AccKind)
    (red : Ctx → Nat → Option (RedOp × W64)) (acc : Ctx → Nat → Nat → Dst → Access) (s : State) : Result :=
  issueAsync (fun _ => true) (uses ++ [.regs d 1 1]) tl (fun c s =>
    let ls := laneList c.em
    let a := addr c
    c.checked ls id a 4 4 k true .atomic (fun _ => 0) s fun v s =>
      (ls.foldl (fun g l =>
          let dst := Dst.v l d.toNat 4 false
          (s.piecesOf v l (a l) 4 k).foldl (fun g p => g.atomic v (a l) p.1 (red c l) dst fun pa => acc c l pa dst) g)
        (c.gather s tl)).finish c v tl true ls a 4
          (fun op => ls.map fun l =>
            if (red c l).isSome && spaceOf (a l) == some .dev && (s.window (a l).toNat).isSome then .datum (v.canonical (a l)) 0
            else .awaits (v.canonical (a l)) op l)) s

/-- atom (R185). -/
def execAtom (op : AtomOp) (d : BitVec 6) (base x : Operand) (off : BitVec 12) (tl : Tail) (s : State) : Result :=
  atomics [.src64 base, .src x] tl d (fun c l => c.g.read64 c.rank base l + off.signExtend 64)
    (if op = .xchg then .exchange else .atomic)
    (fun c l => some (contribOf op (c.g.read32 c.rank .word x l)))
    (fun c l pa dst => .atom pa op (c.g.read32 c.rank .word x l) dst) s

/-- atom.cas (R186). -/
def execAtomCas (d : BitVec 6) (a b cc : Operand) (tl : Tail) (s : State) : Result :=
  atomics [.src64 a, .src b, .src cc] tl d (fun c l => c.g.read64 c.rank a l) .exchange (fun _ _ => none)
    (fun c l pa dst => .cas pa (c.g.read32 c.rank .word b l) (c.g.read32 c.rank .word cc l) dst) s

/-- fatom (R187). -/
def execFatom (op : FatomOp) (d : BitVec 6) (base x : Operand) (off : BitVec 12) (tl : Tail) (s : State) : Result :=
  atomics [.src64 base, .src x] tl d (fun c l => c.g.read64 c.rank base l + off.signExtend 64) .atomic
    (fun c l => some (.fatom op, (c.g.read32 c.rank .word x l).setWidth 64))
    (fun c l pa dst => .fatom pa op (c.g.read32 c.rank .word x l) dst) s

-- Publishing (R282)

/-- A contribution leaves after the publish (R288). -/
def Publish.contributes (p : Publish) : Bool :=
  match p.after with
  | .contribute _ => true
  | _ => false

/-- The contributions of a core that no home has acknowledged, merged ones and those that wait for a publish included (R428). -/
def State.contributions (s : State) (core : Nat) : List Nat :=
  (s.contribs.flatMap fun k => (k.owners.filter fun o => o.core == core).map Contributor.id) ++
    (s.pubs.filter fun p => p.core == core && p.contributes).map Publish.id

/-- A publish of a core begins: every dirty byte leaves, and what it covers is noted. -/
def State.publish (s : State) (core gid launch : Nat) (sc : Scope) (op : Nat) (after : AfterPub) : Nat × State :=
  let s1 := s.cleanLines core launch ((s.core core).l1.map (·.1))
  let covers (r : Req) : Bool := r.core == core && (r.acked || r.todo.any Access.updates)
  (s1.nextId, { s1 with nextId := s1.nextId + 1,
                        pubs := s1.pubs ++ [{ id := s1.nextId, core := core, gid := gid, launch := launch, scope := sc,
                                              reqs := (s1.reqs.filter covers).map Req.id,
                                              wbs := (s1.wbs.filter fun w => w.core == core).map WriteBack.id,
                                              aps := ((s1.die (dieOf core)).apWrites.filter fun w => w.core == core).map ApWrite.id,
                                              contribs := if sc = .sys then s1.contributions core else [],
                                              op := op, after := after }] })

/-- What a scope asks of a write-back: the number of egress queues that accept it, or that it is performed. -/
def wbReached (sc : Scope) (w : WriteBack) : Option Nat :=
  let peer := arrayOf (w.line * 128) ≥ 2 ^ 20
  match sc with
  | .cl => some 1
  | .die => some 2
  | .pkg => if peer then some 3 else none
  | .sys => none

/-- The publish may complete (R282). -/
def State.pubReady (s : State) (p : Publish) : Bool :=
  (p.reqs.all fun r => s.reqs.all fun x => x.id != r) &&
    (p.wbs.all fun w => s.wbs.all fun x => x.id != w || (wbReached p.scope x).isSome) &&
    (p.aps.all fun a => (s.die (dieOf p.core)).apWrites.all fun w => w.id != a) &&
    p.contribs.all fun k => (s.contribs.all fun x => x.owners.all fun o => o.id != k) && s.pubs.all fun x => x.id != k

/-- A write-back is accepted by the first n egress queues on its way, at a moment. -/
def WriteBack.accept (w : WriteBack) (n now : Nat) : WriteBack :=
  { w with stage := Nat.max w.stage n, acc1 := if n ≥ 1 && w.acc1 == 0 then now else w.acc1,
           acc2 := if n ≥ 2 && w.acc2 == 0 then now else w.acc2, acc3 := if n ≥ 3 && w.acc3 == 0 then now else w.acc3 }

/-- The write-backs a publish covers are accepted as far as its scope asks, and with them those ahead of them on the way. -/
def State.acceptWbs (s : State) (p : Publish) : State :=
  let ids := (s.wbsWith s.wbs.length (s.wbs.filter fun w => p.wbs.contains w.id)).map WriteBack.id
  { s with nextId := s.nextId + 1,
           wbs := s.wbs.map fun w => if ids.contains w.id then w.accept ((wbReached p.scope w).getD 0) s.nextId else w }

/-- An operation waits for one more thing. -/
def State.addDep (s : State) (op dep : Nat) : State :=
  { s with asyncs := s.asyncs.map fun a => if a.id = op then { a with deps := a.deps ++ [dep] } else a }

/-- A request leaves under a fresh identifier, and its operation waits for it. -/
def State.sendReq (s : State) (r : Req) : State :=
  ({ s with nextId := s.nextId + 1, reqs := s.reqs ++ [{ r with id := s.nextId }] }).addDep r.op s.nextId

/-- A request takes its place among those on their way, by its number. -/
def State.putReq (s : State) (r : Req) : State :=
  { s with reqs := (s.reqs.filter fun x => decide (x.id < r.id)) ++ r :: s.reqs.filter fun x => !decide (x.id < r.id) }

/-- What follows a publish, under its number: the place of its instruction in the core's order (R279, R288, R293). -/
def State.afterPublish (s : State) (p : Publish) : State :=
  match p.after with
  | .nothing => s
  | .ctrAdd r => s.putReq { r with id := p.id }
  | .ctrAddL1 r line sector => (s.purgeSector p.core r.launch (line * 128 + sector * 32)).putReq { r with id := p.id }
  | .contribute k =>
    let s1 := s.purgeSector p.core k.site.launch k.addr
    { s1 with contribs := s1.contribs ++
                [{ k with id := p.id, owners := [{ id := p.id, launch := k.site.launch, core := p.core, site := k.site }] }] }
  | .lfence => s.modCluster (clusterOf p.core) fun c => { c with recs := [] }

/-- PUBLISH_COMPLETE (R282). -/
def execPublishComplete (pub : Nat) (s : State) : Result :=
  .next (match s.pubs.find? fun p => p.id == pub with
    | none => s
    | some p =>
      if s.pubReady p then
        State.afterPublish { s.acceptWbs p with pubs := s.pubs.filter fun x => x.id != pub } p
      else s)

-- Counters (R286 to R291)

/-- An operation of one issue of a group, put in flight whether or not it has a tail. -/
def State.startOp (s : State) (c : Ctx) (tl : Tail) (ready : Bool) : Nat × State :=
  (s.nextId, s.launchAsync { c.async tl with site := s.siteOf c.g c.cl.pc, ready := ready })

/-- The request of a counter operation at a home. -/
def State.counterReq (s : State) (c : Ctx) (v : View) (op : Nat) (addr : Nat) (own snap : Bool) (a : Access) : Req :=
  { id := 0, core := c.core, gid := c.gid, launch := c.g.launch, arr := arrayOf addr, own := own, snap := snap, pol := .dflt,
    todo := [a], op := op,
    acked := false, site := s.siteOf c.g c.cl.pc, arrived := none, ident := v.ident }

/-- A counter addition leaves at once or after a publish (R288). -/
def State.counterAdd (s : State) (c : Ctx) (v : View) (rel : Option Scope) (t : Target) (va x : W64) (op : Nat) : State :=
  let go_ (a : AfterPub) : State :=
    match rel with
    | some sc => let p := s.publish c.core c.gid c.g.launch sc op a; p.2.addDep op p.1
    | none => (State.afterPublish { s with nextId := s.nextId + 1 }
        { id := s.nextId, core := c.core, gid := c.gid, launch := c.g.launch, scope := .cl, reqs := [], wbs := [], aps := [],
          contribs := [], op := op, after := a }).addDep op s.nextId
  match t with
  | .arr a own => go_ (.ctrAdd (s.counterReq c v op a own false (.ctrAdd a x va)))
  | .port _ _ => s
  | .snap pa =>
    if (s.window va.toNat).isSome then
      go_ (.contribute { id := 0, op := .ctrAdd, addr := pa, value := x, owners := [], peers := [], unit := none, past := false, lone := false, va := va,
                         site := s.siteOf c.g c.cl.pc, arrived := none })
    else go_ (.ctrAddL1 (s.counterReq c v op pa false true (.ctrAdd pa x va)) (pa / 128) (pa % 128 / 32))

/-- A scalar operand of a counter instruction (R288). -/
def Ctx.scalar (c : Ctx) (x : Operand) : W64 := c.g.read64 c.rank x 0

/-- A group's seventeenth own-tile access stalls (R171). -/
def State.ownFull (s : State) (gid : Nat) (t : Target) : Bool :=
  match t with
  | .arr _ true => decide (s.ownWaiting gid ≥ 16)
  | _ => false

/-- ctr.add (R288): once per issue. -/
def execCtrAdd (rel : Option Scope) (base : Option (BitVec 5)) (x : Operand) (off : BitVec 12) (tl : Tail) (s : State) :
    Result :=
  issueAsync (fun _ => true) [] tl (fun c s =>
    let a (_ : Nat) : W64 := c.sbase base + off.signExtend 64
    c.checked c.single (fun _ => c.at_) a 8 8 .atomic true .atomic (fun _ => 0) s fun v s =>
      let t := s.targetOf v 0 (a 0) 8 .atomic
      if s.ownFull c.gid t then .stall
      else
        let o := s.startOp c tl true
        .ok ((o.2.counterAdd c v rel t (a 0) (c.scalar x) o.1).countMem c v c.single a 8 o.1)) s

/-- Cycles of a timeout code (R289). -/
def waitLimit (t : BitVec 3) (now : Nat) : Option Nat := if t = 0 then none else some (now + 2 ^ (8 + 2 * t.toNat))

/-- Requests of the core to the same array, or to the same sector of a snapshot space, that a wait follows (R189, R279), and
counter additions among them that wait for a publish (R288). -/
def State.earlier (s : State) (c : Ctx) (t : Target) : List Nat :=
  let a := t.home.1
  let meets (r : Req) : Bool := r.arr == arrayOf a && r.snap == t.isSnap && (!r.snap || r.todo.any fun y => y.addr / 32 == a / 32)
  (s.reqs.filter fun r => r.core == c.core && meets r).map Req.id ++
    (s.pubs.filter fun p => p.core == c.core && p.added.any meets).map Publish.id

/-- ctr.wait (R289): the wait is registered at the counter's home. -/
def execCtrWait (acq : Bool) (t : BitVec 3) (d : Option (BitVec 5)) (base : Option (BitVec 5)) (x : Operand)
    (off : BitVec 12) (slot : BitVec 3) (s : State) : Result :=
  issueAsync (fun _ => true) [] (some slot) (fun c s =>
    let a (_ : Nat) : W64 := c.sbase base + off.signExtend 64
    c.checked c.single (fun _ => c.at_) a 8 8 .readWhole true .atomic (fun _ => 0) s fun v s =>
      let t0 := s.targetOf v 0 (a 0) 8 .readWhole
      let h := t0.home
      let o := s.startOp c (some slot) false
      let s1 : State :=
        { o.2 with
          nextId := o.2.nextId + 1,
          ctrWaits := o.2.ctrWaits ++
                         [{ id := o.2.nextId, core := c.core, gid := c.gid, tag := c.g.tag, launch := c.g.launch,
                            slot := slot, addr := h.1, va := a 0, target := c.scalar x, acq := acq, dst := d,
                            limit := waitLimit t s.now, met := false, arrived := none, behind := s.earlier c t0, op := o.1,
                            ident := v.ident }] }
      .ok (s1.countMem c v c.single a 8 o.1)) s

/-- ctr.rd (R290). -/
def execCtrRd (d : BitVec 5) (base : Option (BitVec 5)) (off : BitVec 12) (tl : Tail) (s : State) : Result :=
  issueAsync (fun _ => true) [] tl (fun c s =>
    let a (_ : Nat) : W64 := c.sbase base + off.signExtend 64
    c.checked c.single (fun _ => c.at_) a 8 8 .readWhole true .atomic (fun _ => 0) s fun v s =>
      let t := s.targetOf v 0 (a 0) 8 .readWhole
      if s.ownFull c.gid t then .stall
      else
        let o := s.startOp c tl true
        .ok ((o.2.sendReq (o.2.counterReq c v o.1 t.home.1 t.home.2 t.isSnap (.ctrRd t.home.1 (.s d.toNat 8 false)))).countMem
          c v c.single a 8 o.1)) s

/-- The counter lies where the wait names it: its line is present (R274), and its block is in its core (R291). -/
def State.waitAt (s : State) (w : Wait) : Bool :=
  s.present w.addr &&
    (spaceOf w.va != some .cl || (match s.group? w.gid with
      | none => true
      | some g => ((s.rankBlock (s.viewOf w.gid g) (w.va.toNat % 2 ^ 28 / 2 ^ 20)).map fun b => !b.saved).getD true))

/-- No request of the core holds a wait behind it: what waits on an absent line or at the order gate holds its own group's
alone (R171, R279, R383). -/
def State.waitFree (s : State) (w : Wait) : Bool :=
  w.behind.all fun r =>
    (s.reqs.all fun x => x.id != r || x.todo.isEmpty || (x.gid != w.gid && s.aside x)) &&
      s.pubs.all fun p => p.id != r || (p.gid != w.gid && s.pubAside p)

/-- The wait has reached its home and its counter's value meets the target (R289). -/
def State.waitMet (s : State) (w : Wait) : Bool :=
  s.waitFree w && s.waitAt w && decide (w.target.toNat ≤ s.loadN w.addr 8)

/-- The target is met, and was before the limit elapsed or in that cycle (R289). -/
def State.metInTime (s : State) (w : Wait) : Bool :=
  w.met || (s.waitMet w && (match w.limit with
    | none => true
    | some t => decide (s.now ≤ t)))

/-- A wait completes with a status (R289). -/
def State.endWait (s : State) (w : Wait) (status : W64) : State :=
  { s with ctrWaits := s.ctrWaits.filter fun x => x.id != w.id,
           asyncs := s.asyncs.map fun a =>
             if a.id = w.op then
               { a with ready := true, sw := match w.dst with
                   | some r => [(r.toNat, status)]
                   | none => [] }
             else a }

/-- The gate's view of a wait with a timeout (R380, R383); other waits pass. -/
def State.waitGate (s : State) (w : Wait) (la : Launch) : GateView :=
  if w.limit.isNone || la.mode != 2 then .open_ false else s.gate w.launch la (s.homeOf w.addr) w.ident

/-- A wait's outcome is logged, or consumes its entry (R380, R383). -/
def State.waitLog (s : State) (w : Wait) (la : Launch) (to_ : Bool) : State :=
  if w.limit.isNone then s
  else if la.mode = 1 then s.logOp w.launch la (dieOf w.core) (s.homeOf w.addr) w.ident to_
  else if la.mode = 2 then s.consume w.launch la (s.homeOf w.addr)
  else s

/-- A divergence that a wait's turn shows (R383). -/
def State.waitDiverge (s : State) (w : Wait) (n : Nat) : State :=
  s.diverge w.launch (dieOf w.core) (s.homeOf w.addr) w.ident n
    (((s.asyncs.find? fun a => a.id == w.op).map AsyncOp.site).getD (Site.of w.core))

/-- The order gate holds a wait: when it first did is noted (R383). -/
def State.holdWait (s : State) (w : Wait) : State :=
  { s with ctrWaits := s.ctrWaits.map fun (x : Wait) => if x.id = w.id then { x with arrived := some (x.arrived.getD s.now) } else x }

/-- CTR_WAIT_COMPLETE (R289): the target is met before the limit elapses; .acq refreshes (R280). In replay a wait with a
timeout does as its entry says (R383). -/
def execCtrWaitComplete (w : Nat) (s : State) : Result :=
  .next (match s.ctrWaits.find? fun x => x.id == w with
    | none => s
    | some x =>
      let la := (s.launch? x.launch).getD noLaunch
      let ordered := x.limit.isSome && la.mode == 2 && !(s.stream x.launch (s.homeOf x.addr)).free
      match s.waitGate x la with
      | .hold => s.holdWait x
      | .open_ true => s
      | .diverge n => s.waitDiverge x n
      | .open_ false =>
        if !(if ordered then s.waitMet x else s.metInTime x) then s
        else
          let s1 := if x.acq then s.modCore x.core Core.refresh else s
          (s1.waitLog x la false).endWait x 0)

/-- CTR_WAIT_TIMEOUT (R289): the limit has elapsed with the target unmet: the cycle in which it elapses still counts. In replay
the entry decides (R383). -/
def execCtrWaitTimeout (w : Nat) (s : State) : Result :=
  .next (match s.ctrWaits.find? fun x => x.id == w with
    | none => s
    | some x =>
      match x.limit with
      | none => s
      | some t =>
        let la := (s.launch? x.launch).getD noLaunch
        let free := (s.stream x.launch (s.homeOf x.addr)).free
        if la.mode = 2 && !free then
          (match s.waitGate x la with
            | .open_ true => (s.waitLog x la true).endWait x 1
            | .diverge n => s.waitDiverge x n
            | .hold => s.holdWait x
            | _ => s)
        else if s.now ≤ t || s.metInTime x then s
        else (s.waitLog x la true).endWait x 1)

/-- A wait that the order gate has held for more than 2^20 cycles diverges (R383). -/
def State.gateWait (s : State) (id : Nat) : State :=
  match s.ctrWaits.find? fun x => x.id == id with
  | none => s
  | some w =>
    match w.arrived with
    | none => s
    | some t =>
      if s.now ≤ t + 2 ^ 20 || (s.stream w.launch (s.homeOf w.addr)).free then s else s.waitDiverge w 3

/-- GATE_TIMEOUT (R383): an operation that the order gate holds for more than 2^20 cycles is a divergence. -/
def execGateTimeout (req : Nat) (s : State) : Result :=
  .next (match s.req? req with
    | none => s.gateWait req
    | some r =>
      match r.arrived, r.todo with
      | some t, a :: _ =>
        if s.now ≤ t + 2 ^ 20 || !s.reqReady r then s
        else (s.diverge r.launch (dieOf (r.core % 8192)) (s.homeOf a.addr) r.ident 3 r.site).performHead r
      | _, _ => s)

-- Phases and fences (R292, R293)

/-- A publish made by one issue, with the operation that completes with it. -/
def Ctx.publishes (c : Ctx) (s : State) (sc : Scope) (after : AfterPub) (tl : Tail) : State :=
  let o := s.startOp c tl true
  let p := o.2.publish c.core c.gid c.g.launch sc o.1 after
  (p.2.addDep o.1 p.1).countMem c (s.viewOf c.gid c.g) [] (fun _ => 0) 1 o.1

/-- phase (R292): refreshes at issue and publishes. -/
def execPhase (sc : Scope) (tl : Tail) (s : State) : Result :=
  issueAsync (fun _ => true) [] tl (fun c s => .ok (c.publishes (s.modCore c.core Core.refresh) sc .nothing tl)) s

/-- phase.p (R292). -/
def execPhaseP (sc : Scope) (tl : Tail) (s : State) : Result :=
  issueAsync (fun _ => true) [] tl (fun c s => .ok (c.publishes s sc .nothing tl)) s

/-- phase.s (R292). -/
def execPhaseS (tl : Tail) (s : State) : Result :=
  issue [] tl (fun c s =>
    .ok ((s.modCore c.core Core.refresh).countMem c (s.viewOf c.gid c.g) [] (fun _ => 0) 1 0)) s

/-- lfence (R293). -/
def execLfence (sc : Scope) (tl : Tail) (s : State) : Result :=
  issueAsync (fun _ => true) [] tl (fun c s => .ok (c.publishes s sc .lfence tl)) s

/-- CAPACITY_REFRESH_RECORD (R378): every 2^20 cycles a changed count is recorded. -/
def execCapacityRefreshRecord (core : Nat) (s : State) : Result :=
  let c := s.core core
  .next (if s.now < c.refreshesAt + 2 ^ 20 || c.refreshes = c.refreshesSeen then s
    else (s.modCore core fun c => { c with refreshesSeen := c.refreshes, refreshesAt := s.now }).record (dieOf core) 11
      [BitVec.ofNat 64 c.refreshes])

end Sys2Proof.Machine
end

