-- ==== Sys2Proof/Machine/Nodes.lean ====
section
/-! DEFINITION. Launch nodes and their graph (R119, R397, R398): LAUNCH and the completion of nodes. -/

namespace Sys2Proof.Machine

-- A node's words (R397)

/-- A field of a node's word. -/
def nodeField (ws : List W64) (w lo n : Nat) : Nat := ((ws.getD w 0).extractLsb' lo n).toNat

/-- DHA of a queue: QD3 while debug is enabled (R391). -/
def Queue.dha (x : Queue) : W64 := if (x.read 1).getLsbD 2 then x.read 3 else 0

/-- Root of a queue's tables. -/
def Queue.root (x : Queue) : Nat := (x.read 2).toNat / 2 ^ 20 % 2 ^ 28 * 2 ^ 20

/-- Address-space number of a queue. -/
def Queue.asn (x : Queue) : Nat := ((x.read 1).extractLsb' 52 12).toNat

/-- The reserved bits of a node are zero. -/
def nodeReserved (ws : List W64) : Bool :=
  nodeField ws 6 20 2 == 0 && nodeField ws 7 48 16 == 0 && nodeField ws 7 0 18 == 0 && nodeField ws 8 0 55 == 0 &&
    nodeField ws 9 0 37 == 0 && nodeField ws 11 0 48 == 0 && ws.getD 13 0 == 0 && ws.getD 14 0 == 0 && ws.getD 15 0 == 0

/-- The node's fields keep their ranges, and an empty core could grant a block (R119, R397). -/
def nodeOk (ws : List W64) (dha : W64) : Bool :=
  let g := nodeField ws 7 42 6
  let pg := nodeField ws 7 19 6
  let nr := nodeField ws 7 32 4
  let cto := nodeField ws 6 43 5
  let nblk := nodeField ws 2 0 32
  let arr := nodeField ws 8 55 1
  let base := (ws.getD 1 0).toNat
  let inside (a : W64) : Bool := a == 0 || (decide (base ≤ a.toNat) && decide (a.toNat < base + nodeField ws 2 32 32))
  nodeReserved ws && decide (1 ≤ g) && decide (g ≤ 48) && decide (1 ≤ nodeField ws 7 36 6) && decide (nodeField ws 7 36 6 ≤ 32) &&
    decide (1 ≤ nr) && decide (nr ≤ 8) && decide (nodeField ws 7 25 7 ≤ 64) && decide (g + pg ≤ 48) &&
    decide (nodeField ws 6 0 20 ≤ 523264) && decide (nodeField ws 6 22 21 ≤ 2 ^ 20) &&
    (cto == 0 || (decide (10 ≤ cto) && decide (cto ≤ 24))) && decide (nodeField ws 9 60 4 ≤ 1) &&
    nodeField ws 0 0 3 == 0 && nodeField ws 5 0 7 == 0 && nodeField ws 10 0 3 == 0 && inside (ws.getD 3 0) && inside dha &&
    (arr == 0 || nblk % (nodeField ws 8 56 8 + 1) == 0) &&
    (nodeField ws 9 60 4 == 0 || decide (nblk * g ≤ 2 ^ 24)) && decide ((g + pg) * (8 * nr) ≤ 1536)

/-- The launch that a node's words describe (R397). -/
def launchOf (x : Queue) (q num node : Nat) (ws : List W64) (gang : Option Nat) : Launch :=
  let mesh := nodeField ws 9 60 4 == 1
  let cto := nodeField ws 6 43 5
  { queue := q, cmd := num, node := node, asn := x.asn, root := x.root, entry := ws.getD 0 0, args := ws.getD 4 0,
    nblocks := nodeField ws 2 0 32, arrayLen := if nodeField ws 8 55 1 = 1 then nodeField ws 8 56 8 + 1 else 0,
    groups := nodeField ws 7 42 6, lastLanes := nodeField ws 7 36 6, nregs := 8 * nodeField ws 7 32 4,
    tile := nodeField ws 6 0 20, nctr := nodeField ws 7 25 7, spawn := 32 * nodeField ws 7 19 6,
    matrix := nodeField ws 7 18 1 == 1, plim := nodeField ws 6 22 21, pbase := ws.getD 5 0,
    cto := 2 ^ (if cto = 0 then 16 else cto), bint := if nodeField ws 6 48 16 = 0 then 256 else nodeField ws 6 48 16,
    tha := ws.getD 3 0, dha := x.dha, debug := (x.read 1).getLsbD 2, rpass := if mesh then some (nodeField ws 9 57 3) else none,
    mesh := mesh, placed := 0, finished := 0, held := gang.isSome, mode := ((x.read 1).extractLsb' 8 2).toNat,
    trace := (x.read 1).getLsbD 3, logt := x.read 5, member := gang.getD 0, cores := [], pubs := none, words := ws, ranks := [] }

/-- The first key of a mesh node is not above every key started in its pass (R352). -/
def State.keyStarted (s : State) (la : Launch) : Bool :=
  la.mesh && (match s.runningPass (la.rpass.getD 0) with
    | none => false
    | some x => x.groups.any fun (g : MeshGroup) => decide (nodeField la.words 9 37 20 * 2 ^ 24 ≤ g.key))

-- Completion (R398)

/-- An addition to a counter by the front end, through a queue's tables: whether it reached a home, and whether it
overflowed (R393, R398). -/
def State.hubAdd (s : State) (root va : Nat) (x : W64) : Option (Bool × State) :=
  match s.tableHome root va true with
  | none => none
  | some a =>
    if s.peerDown a then none
    else
      let old := (s.load64 a).toNat
      some (if old + x.toNat ≥ 2 ^ 64 then (true, s.store64 a (BitVec.allOnes 64))
            else (false, s.store64 a (BitVec.ofNat 64 (old + x.toNat))))

/-- The successors of a node that lie in the range, each decrement in turn: the command after them, the successors that
reach 0, and those whose counter was 0 already (R398). -/
def Cmd.decrement (c : Cmd) : List Nat → Cmd × List Nat × List Nat
  | [] => (c, [], [])
  | n :: ns =>
    let k := NMap.get 0 c.counters n
    if k = 0 then
      let r := Cmd.decrement c ns
      (r.1, r.2.1, n :: r.2.2)
    else
      let r := Cmd.decrement { c with counters := NMap.put c.counters n (k - 1) } ns
      (r.1, (if k = 1 then n :: r.2.1 else r.2.1), r.2.2)

/-- Type-5 events of reason 5 for successors (R440). -/
def State.postBelow (s : State) (q : Nat) : List Nat → State
  | [] => s
  | n :: ns => State.postBelow (s.postEvent q [ev0 5 5, BitVec.ofNat 64 n]) q ns

/-- A node completes: DONE, the type-2 event, the successors; those that launch now (R398). -/
def State.finishNode (s : State) (n : Nat) (la : Launch) : State × List Nat :=
  let done := nodeField la.words 10 0 64
  let failed := s.postEvent la.queue [ev0 5 10, BitVec.ofNat 64 la.node]
  let s1 := if done = 0 then s
    else if Config.doneError s.tick la.node then failed
    else match s.hubAdd la.root done 1 with
      | some r => r.2
      | none => failed
  let s2 := s1.postEvent la.queue [ev0 2 la.node, BitVec.ofNat 64 n]
  match (s2.queue la.queue).cmds.find? fun (c : Cmd) => c.num == la.cmd with
  | none => (s2, [])
  | some c =>
    let r := (c.setNode la.node .complete).decrement (s2.succs c la.node)
    ((s2.modCmd la.queue la.cmd fun _ => r.1).postBelow la.queue r.2.2, r.2.1)

-- Launching (R398)

/-- Launches one node: the state, and the nodes that an empty node makes ready. -/
def State.launchNode (s : State) (q num node : Nat) : State × List Nat :=
  match (s.queue q).cmds.find? fun (c : Cmd) => c.num == num with
  | none => (s, [])
  | some c =>
    if c.node node != .waiting then (s, [])
    else
      let ws := (List.range 16).map (s.nodeWord node)
      let la := { launchOf (s.queue q) q num node ws (c.gang.map Gang.me) with
                  held := (c.gang.map fun g => !g.issued).getD false }
      if !nodeOk ws (s.queue q).dha || s.keyStarted la then
        ((s.postEvent q [ev0 5 4, BitVec.ofNat 64 node]).failNode q num node, [])
      else
        let n := s.launchSeq
        let s1 : State := { s with launchSeq := n + 1, cores := s.cores.map fun e => (e.1, { e.2 with icache := [] }) }
        let run (s : State) : State := s.modCmd q num fun c =>
          { c.setNode node (.running n) with succWords := NMap.put c.succWords node (ws.getD 12 0) }
        if la.nblocks = 0 && !la.held then (run s1).finishNode n la
        else (run { s1 with launches := NMap.put s1.launches n la }, [])

/-- Launches the nodes of a list and those that empty nodes make ready; the fuel bounds the nodes. -/
def State.launchNodes (s : State) (q num : Nat) : Nat → List Nat → State
  | 0, _ => s
  | _, [] => s
  | k + 1, n :: rest =>
    let r := s.launchNode q num n
    State.launchNodes r.1 q num k (rest ++ r.2)

/-- A command's node range is loaded and its ready nodes launch (R398, R430). -/
def State.startNodes (s : State) (q num first count : Nat) : State :=
  let npred (n : Nat) : Nat := nodeField [s.nodeWord n 11] 0 48 16
  let nodes := (List.range count).map (first + ·)
  let s1 := s.modCmd q num fun c =>
    { c with first := first, count := count, counters := nodes.map fun n => (n, npred n), begun := true }
  (s1.launchNodes q num (2 * count + 2) (nodes.filter fun n => npred n == 0)).settleCmd q num

/-- The command of a queue, if it is in progress. -/
def State.cmd? (s : State) (q num : Nat) : Option Cmd := (s.queue q).cmds.find? fun (c : Cmd) => c.num == num

/-- A migration holds the walk of the DONE counter of a node of a range (R333, R393). -/
def State.doneHeld (s : State) (asn first count : Nat) : Bool :=
  !s.migrating.isEmpty && (List.range count).any fun i =>
    let a := (s.nodeWord (first + i) 10).toNat
    a != 0 && s.rangeHeld asn a 8

/-- Publishes of scope `.sys` on several cores; their identifiers. -/
def State.publishAll (s : State) (launch : Nat) : List Nat → List Nat × State
  | [] => ([], s)
  | core :: cores =>
    let p := s.publish core (8192 * 48) launch .sys 0 .nothing
    let r := State.publishAll p.2 launch cores
    (p.1 :: r.1, r.2)

/-- An engine job of the launch is not complete (R398). -/
def State.jobsOpen (s : State) (n : Nat) : Bool :=
  s.copies.any (fun j => j.launch == n) || s.encodes.any fun j => j.launch == n

/-- A migration holds a DONE counter that a node's completion may add to: its own, or that of a node of its command. -/
def State.nodeHeld (s : State) (la : Launch) : Bool :=
  (nodeField la.words 10 0 64 != 0 && s.rangeHeld la.asn (nodeField la.words 10 0 64) 8) ||
    match s.cmd? la.queue la.cmd with
    | some c => s.doneHeld la.asn c.first c.count
    | none => false

/-- A completed node's event (R396, R398): the node completes, and the nodes that it makes ready launch. -/
def State.nodeCompleted (s : State) (n : Nat) (la : Launch) : State :=
  let r := s.finishNode n la
  let count := ((s.cmd? la.queue la.cmd).map Cmd.count).getD 0
  (r.1.launchNodes la.queue la.cmd (2 * count + 2) r.2).settleCmd la.queue la.cmd

/-- NODE_COMPLETE (R396, R398): once the blocks have ended and the jobs are complete, the cores publish; when they have, the
node is complete and an event for the firmware. -/
def execNodeComplete (launch : Nat) (s : State) : Result :=
  .next (match s.launch? launch with
    | none => s
    | some la =>
      if la.held || la.finished < la.nblocks || s.jobsOpen launch then s
      else match la.pubs with
        | none =>
          let r := s.publishAll launch la.cores
          r.2.modLaunch launch fun x => { x with pubs := some r.1 }
        | some ids =>
          if s.pubs.any fun p => ids.contains p.id then s
          else State.pushFw { s with launches := NMap.erase s.launches launch } (.completed launch la))

end Sys2Proof.Machine
end

