-- ==== Sys2Proof/Machine/Commands.lean ====
section
/-! DEFINITION. Queues and their commands (R391 to R395): the start of a command, its checks, and the commands other than
GANG and DEBUG. -/

namespace Sys2Proof.Machine

-- Hub memory as the hosts and the firmware read it (R388)

/-- The aligned 8-byte word at a hub offset. Words of the core-mask tables are kept complemented, so that unlisted ones read
as all ones (R400). -/
def State.hubRead (s : State) (off : Nat) : W64 :=
  let q (base size : Nat) : Nat := (off - base) / size
  if off < 0x10000 then Config.globalRegister (off / 8) s.verified ((List.range 16).map fun d => (s.die d).steps)
  else if 0x10000 ≤ off && off < 0x10100 then BitVec.ofNat 64 (NMap.get 0 s.sems (q 0x10000 8))
  else if 0x20000 ≤ off && off < 0x30000 then (s.queue (q 0x20000 64)).word (off / 8 % 8)
  else if 0x30000 ≤ off && off < 0x32000 then (s.queue (q 0x30000 8)).tail
  else if 0x32000 ≤ off && off < 0x34000 then (s.queue (q 0x32000 8)).head
  else if 0x34000 ≤ off && off < 0x36000 then (s.queue (q 0x34000 8)).evcnt
  else if 0x36000 ≤ off && off < 0x38000 then (s.queue (q 0x36000 8)).evhead
  else if 0x40000 ≤ off && off < 0x42000 then Config.topology ((off - 0x40000) / 8) ^^^ s.hubWord off
  else if off = 0x61000 then BitVec.ofNat 64 s.ft
  else if 0x62000 ≤ off && off < 0x62200 && off / 8 % 8 = 7 then BitVec.ofNat 64 (NMap.get 0 s.misses (q 0x62000 64))
  else if 0x100000 ≤ off && off < 0x200000 then ~~~(s.hubWord off)
  else s.hubWord off

/-- What reading a hub offset does: a register of access RC is cleared (R5, R391, R436). -/
def State.hubTake (s : State) (off : Nat) : State :=
  if 0x20000 ≤ off && off < 0x30000 && off / 8 % 8 = 6 then
    s.modQueue ((off - 0x20000) / 64) fun x => x.setWord 6 ((x.word 6).extractLsb' 0 32 |>.setWidth 64)
  else if 0x62000 ≤ off && off < 0x62200 && off / 8 % 8 = 7 then
    { s with misses := NMap.set 0 s.misses ((off - 0x62000) / 64) 0 }
  else s

/-- The core-mask table at a hub offset, by cluster (R400). -/
def State.maskTable (s : State) (off : Nat) : NMap (BitVec 256) :=
  (List.range 32).map fun c =>
    (c, s.hubRead (off + 32 * c + 24) ++ s.hubRead (off + 32 * c + 16) ++ s.hubRead (off + 32 * c + 8) ++
          s.hubRead (off + 32 * c))

/-- Hub offset of a queue's core-mask table. -/
def maskBase (q : Nat) : Nat := 0x100000 + 1024 * q

/-- Copies a table of 128 words from a hub offset to a queue's table, each word read once. -/
def State.copyTable (s : State) (off q : Nat) : Nat → State
  | 0 => s
  | n + 1 => ((State.copyTable s off q n).hubTake (off + 8 * n)).setHub (maskBase q + 8 * n) (~~~(s.hubRead (off + 8 * n)))

-- Checks of a command (R393, R395)

/-- Why a command stops its queue. -/
inductive CmdErr
  | malformed | operand | overflow
  deriving DecidableEq, Repr

/-- The reason code of a type-5 event (R440). -/
def CmdErr.reason : CmdErr → Nat
  | .malformed => 1
  | .operand => 3
  | .overflow => 8

/-- Word n of a command. -/
def cmdWord (k : List W64) (n : Nat) : W64 := k.getD n 0

/-- The unused operand bits of K0 and the unused words are zero. -/
def cmdZero (k : List W64) (used : Nat) (words : List Nat) : Bool :=
  let ops := (cmdWord k 0).toNat % 2 ^ 48
  (cmdWord k 0).extractLsb' 48 6 == 0 && Nat.land ops used == ops &&
    (List.range 8).all fun n => n == 0 || words.contains n || cmdWord k n == 0

/-- K1's die, cluster and core name a core (R394). -/
def debugCore (k1 : W64) : Option Nat :=
  let cl := (k1.extractLsb' 55 5).toNat
  if cl < 2 then
    some ((k1.extractLsb' 60 4).toNat * 512 + cl * 256 + (k1.extractLsb' 47 8).toNat)
  else none

/-- The event of a command of a queue with a number, or why it is malformed (R393 to R395). -/
def commandEvent (q c : Nat) (k : List W64) : Except CmdErr Instr :=
  let k0 := cmdWord k 0
  let k1 := cmdWord k 1
  let k2 := cmdWord k 2
  let f (lo n : Nat) : Nat := (k0.extractLsb' lo n).toNat
  let checked (used : Nat) (words : List Nat) (ok : Bool) (i : Instr) : Except CmdErr Instr :=
    if cmdZero k used words && ok then .ok i else .error .malformed
  let node := decide (f 0 16 ≥ 1) && decide (f 16 16 + f 0 16 ≤ 65536)
  let debug (i : Instr) : Except CmdErr Instr :=
    if !cmdZero k 0xFF [1, 2] then .error .malformed
    else if k2.toNat % 8 != 0 then .error .operand
    else .ok i
  let onCore (i : Instr) : Except CmdErr Instr := if (debugCore k1).isSome then debug i else .error .malformed
  match (k0.extractLsb' 56 8).toNat with
  | 0x00 => checked 0 [] true (.nopCommand q c)
  | 0x01 => checked 0xFFFFFFFF [] node (.launch q c (f 16 16) (f 0 16))
  | 0x02 => checked 0 [1, 2] true (.signal q c k1 k2)
  | 0x03 => checked 0 [1, 2] true (.wait q c k1 k2)
  | 0x04 => checked 7 [1] true (.rpass q c (f 0 3) k1)
  | 0x05 => checked 7 [] true (.rpend q c (f 0 3))
  | 0x06 => checked 0x3FF [1] (decide (k1.toNat + 1024 ≤ 2 ^ 24)) (.preempt q c (f 0 10) k1)
  | 0x07 => checked 0 [1, 2] true (.shootdown q c k1 k2)
  | 0x08 => checked 0 [1, 2] true (.migrate q c k1 k2)
  | 0x09 => checked 0 [1, 2] true (.release q c k1 k2)
  | 0x0A => checked 0xFFFFFFFF [1, 2, 3] node (.gang q c (f 16 16) (f 0 16) k1 k2 (cmdWord k 3))
  | 0x0B => checked 0 [1] true (.kill q c k1)
  | 0x0C =>
    (match f 0 8 with
      | 0 => debug (.debugSampling q c k1 k2)
      | 1 => debug (.debugRing q c k1 k2)
      | 2 => onCore (.debugBreakpoints q c k1 k2)
      | 3 => debug (.debugPredicate q c k1 k2)
      | 4 => debug (.debugL2Watch q c k1 k2)
      | 5 => if k2 != 0 then .error .malformed else onCore (.debugResume q c k1 k2)
      | 6 => onCore (.debugReadState q c k1 k2)
      | 7 => onCore (.debugWriteState q c k1 k2)
      | _ => .error .malformed)
  | 0x0D => checked 0xFF [1, 2, 3, 4, 5] true
      (.aperture q c (f 4 4) (f 0 4) k1 k2 (cmdWord k 3) (cmdWord k 4) (cmdWord k 5))
  | 0x0E => checked 0 [1, 2] true (.attest q c k1 k2)
  | _ => .error .malformed

/-- The command stops its queue: HEAD stays at it, and the next enable skips it, unless HEAD has passed it (R392, R395). -/
def State.failCommand (s : State) (q num : Nat) (e : CmdErr) : State :=
  (s.modQueue q fun x => { x with cmds := x.cmds.filter fun (c : Cmd) => c.num != num }).stopQueue q e.reason num
    (decide ((s.queue q).head.toNat = num))

/-- A command has started: HEAD is incremented, but stays at one that has failed (R392, R395). -/
def State.started (s : State) (q num : Nat) : State :=
  s.modQueue q fun x => if x.head.toNat = num && !x.skip then { x with head := x.head + 1 } else x

/-- A WAIT is under way: later commands do not start (R393). -/
def Cmd.waits (c : Cmd) : Bool := (cmdWord c.words 0).extractLsb' 56 8 == 3

/-- The home address of the ring slot of a command (R392). -/
def Queue.slotAddr (x : Queue) (c : Nat) : Nat :=
  (x.read 0).toNat / 2 ^ 12 % 2 ^ 36 * 2 ^ 12 + 64 * (c % 2 ^ ((x.read 0).toNat % 32))

/-- The queue whose ordering lock an event holds (R396). -/
def FwEvent.queue : FwEvent → Option Nat
  | .start q => some q
  | .overflow q => some q
  | .deviceError q => some q
  | .completed _ la => some la.queue
  | .killed _ la _ _ _ => some la.queue
  | _ => none

/-- An RPASS waits until its slot's running pass has ended (R348). -/
def State.passHolds (s : State) (k : List W64) : Bool :=
  (cmdWord k 0).extractLsb' 56 8 == 4 && (s.runningPass ((cmdWord k 0).toNat % 8)).isSome

/-- The command at HEAD starts (R392, R393, R395): its event comes next, which increments HEAD. -/
def State.startCommand (s : State) (q : Nat) : State :=
  let x := s.queue q
  let c := x.head.toNat
  if !x.enabled || x.stopped || x.tail.toNat ≤ c || x.cmds.any (fun y => y.num == c) then s
    else if x.tail.toNat > c + 2 ^ ((x.read 0).toNat % 32) then s.stopQueue q 2 c true
    else if x.cmds.any Cmd.waits then s
    else if x.slotAddr c + 64 > s.capacity then s.stopQueue q 3 c true
    else
      let k := (List.range 8).map fun i => s.load64 (x.slotAddr c + 8 * i)
      if ((cmdWord k 0).getLsbD 55 && !x.cmds.isEmpty) || s.passHolds k then s
      else match commandEvent q c k with
        | .error e => s.stopQueue q e.reason c true
        | .ok i =>
          let cmd : Cmd := { num := c, words := k, first := 0, count := 0, nodes := [], counters := [], succWords := [],
                             blocks := [], gang := none, begun := false }
          let s1 := s.modQueue q fun x => { x with cmds := x.cmds ++ [cmd] }
          { s1 with agenda := .event i :: s1.agenda }

/-- COMMAND_START (R392, R396): where no other event of the queue waits for the firmware. -/
def execCommandStart (q : Nat) (s : State) : Result :=
  .next (if s.fwEvents.any fun e => e.queue == some q && e != .start q then s else s.startCommand q)

/-- Runs a command that is in progress, which starts with its first run. -/
def State.onCmd (s : State) (q c : Nat) (f : Cmd → State) : Result :=
  .next (match s.cmd? q c with
    | none => s
    | some x => (f x).started q c)

/-- NOP_COMMAND (R393). -/
def execNopCommand (q c : Nat) (s : State) : Result := s.onCmd q c fun _ => s.completeCmd q c

/-- LAUNCH (R393, R398). -/
def execLaunch (q c first count : Nat) (s : State) : Result :=
  s.onCmd q c fun x =>
    if x.begun || s.doneHeld (s.queue q).asn first count then s else s.startNodes q c first count

/-- SIGNAL (R393). -/
def execSignal (q c : Nat) (va value : W64) (s : State) : Result :=
  s.onCmd q c fun _ =>
    if va.toNat % 8 != 0 then s.failCommand q c .operand
    else if s.rangeHeld (s.queue q).asn va.toNat 8 then s
    else match s.hubAdd (s.queue q).root va.toNat value with
      | none => s.failCommand q c .operand
      | some (true, s1) => s1.failCommand q c .overflow
      | some (false, s1) => s1.completeCmd q c

/-- WAIT (R393): it ends once the counter is at least the target. -/
def execWait (q c : Nat) (va target : W64) (s : State) : Result :=
  s.onCmd q c fun _ =>
    if va.toNat % 8 != 0 then s.failCommand q c .operand
    else if s.rangeHeld (s.queue q).asn va.toNat 8 then s
    else match s.tableHome (s.queue q).root va.toNat false with
      | none => s.failCommand q c .operand
      | some a =>
        if s.peerDown a then s.failCommand q c .operand
        else if target.toNat ≤ (s.load64 a).toNat then s.completeCmd q c else s

-- Render passes (R348, R393)

/-- The words of a descriptor at a device-virtual address. -/
def State.readPass (s : State) (root va : Nat) : Option (List W64) :=
  (List.range 8).mapM fun i => match s.tableHome root (va + 8 * i) false with
    | none => none
    | some a => if s.peerDown a then none else some (s.load64 a)

/-- RPASS (R348): it completes when the pass's final tile passes have ended. -/
def execRpass (q c slot : Nat) (va : W64) (s : State) : Result :=
  s.onCmd q c fun x =>
    if x.begun || (s.runningPass slot).isSome then s
    else if va.toNat % 8 != 0 then s.failCommand q c .operand
    else if s.rangeHeld (s.queue q).asn va.toNat 64 then s
    else match s.readPass (s.queue q).root va.toNat with
      | none => s.failCommand q c .operand
      | some p =>
        if !passOk p then s.failCommand q c .malformed
        else
          let pass : RenderPass :=
            { queue := q, cmd := c, asn := (s.queue q).asn, root := (s.queue q).root, p := p, running := true, failed := false,
              ended := false, groups := [], chunks := [], tiles := [], forced := [], heldSince := none }
          State.modCmd { s with passes := NMap.put s.passes slot pass } q c fun x => { x with begun := true }

/-- RPEND (R393): the pass's geometry has ended. -/
def execRpend (q c slot : Nat) (s : State) : Result :=
  s.onCmd q c fun _ =>
    (match s.runningPass slot with
      | none => s
      | some _ => s.modPass slot fun x => { x with ended := true }).completeCmd q c

-- Pre-emption (R400)

/-- The blocks of a queue on cores that its mask forbids, with their arrays. -/
def State.forbidden (s : State) (q : Nat) : List Nat :=
  distinct ((s.blocks.filter fun (e : Nat × Block) =>
    !e.2.saved && ((s.launch? e.2.launch).map Launch.queue) == some q && !s.maskAllows q e.2.core).flatMap fun e =>
      s.evictSet e.1)

/-- PREEMPT (R400). -/
def execPreempt (q c victim : Nat) (off : W64) (s : State) : Result :=
  s.onCmd q c fun x =>
    if x.begun then s.settlePreempts
    else if off.toNat % 8 != 0 then s.failCommand q c .operand
    else
      let s0 := s.copyTable off.toNat victim 128
      let s1 := s0.modQueue victim fun y => { y with mask := s0.maskTable (maskBase victim) }
      let bs := s1.forbidden victim
      ((s1.requestEvicts bs).modCmd q c fun y => { y with blocks := bs, begun := true }).settlePreempts

-- Translation (R333, R393)

/-- A TLB entry maps part of a range. -/
def TlbEntry.meets (e : TlbEntry) (asn va len : Nat) : Bool :=
  e.asn == asn && decide (e.vpn * 2 ^ e.bits < va + len) && decide (va < (e.vpn + 1) * 2 ^ e.bits)

/-- Every TLB drops the entries of a range, and the layout-record caches are invalidated (R333, R340). -/
def State.dropRange (s : State) (asn va len : Nat) : State :=
  { s with
    cores := s.cores.map fun (e : Nat × Core) => (e.1, { e.2 with tlb := e.2.tlb.filter fun t => !t.meets asn va len }),
    dies := s.dies.map fun (e : Nat × Die) => (e.1, { e.2 with tlb := e.2.tlb.filter fun t => !t.meets asn va len }),
    clusters := s.clusters.map fun (e : Nat × Cluster) => (e.1, { e.2 with recs := [] }) }

/-- The accesses to device and peer memory that are still on their way: some were translated through a dropped entry. They are
requests, `.byp` stores, contributions to reduction windows, and counter additions that wait for a publish. -/
def State.openAccesses (s : State) : List Nat :=
  (s.reqs.filter fun r => r.snap || (!r.own && (decide (r.arr < 64) || decide (r.arr ≥ 2 ^ 20)))).map Req.id ++
    (s.wbs.filter fun w => w.through.isSome).map WriteBack.id ++ s.contribs.flatMap (fun k => k.owners.map Contributor.id) ++
    (s.pubs.filter fun p => p.after != .nothing && p.after != .lfence).map Publish.id

/-- The accesses that a command waits for have been performed. -/
def State.performed (s : State) (ids : List Nat) : Bool :=
  ids.all fun n => (s.reqs.all fun r => r.id != n) && (s.wbs.all fun w => w.id != n) &&
    (s.contribs.all fun k => k.owners.all fun o => o.id != n) && s.pubs.all fun p => p.id != n

/-- SHOOTDOWN (R333). -/
def execShootdown (q c : Nat) (va len : W64) (s : State) : Result :=
  s.onCmd q c fun x =>
    if x.begun then (if s.performed x.blocks then s.completeCmd q c else s)
    else
      (s.dropRange (s.queue q).asn va.toNat len.toNat).modCmd q c fun y =>
        { y with begun := true, blocks := s.openAccesses }

/-- The home lines of the pages that a range's addresses map to now, by 64 KiB piece. -/
def State.homePages (s : State) (root va len : Nat) : List Nat :=
  (List.range (((va % 2 ^ 16) + len + 65535) / 65536)).filterMap fun i =>
    let v := va / 2 ^ 16 * 2 ^ 16 + i * 65536
    if v ≥ 2 ^ 56 then none
    else match s.walk root v with
      | none => none
      | some (p, bits) => some (leafPlace p bits v / 65536)

/-- Every core's L1 writes back and invalidates the lines of some 64 KiB pages (R181, R333). -/
def State.flushPages (s : State) (pages : List Nat) : List Nat → State
  | [] => s
  | core :: rest =>
    State.flushPages (s.flushLines core 0 (((s.core core).l1.map (·.1)).filter fun l => pages.contains (l / 512))) pages rest

/-- MIGRATE (R333, R393): walks of the range wait from the drop on. -/
def execMigrate (q c : Nat) (va len : W64) (s : State) : Result :=
  s.onCmd q c fun x =>
    if x.begun then (if s.performed x.blocks then s.completeCmd q c else s)
    else
      let asn := (s.queue q).asn
      let s1 := (s.dropRange asn va.toNat len.toNat).flushPages (s.homePages (s.queue q).root va.toNat len.toNat)
        (s.cores.map (·.1))
      State.modCmd { s1 with migrating := s1.migrating ++ [(asn, va.toNat, len.toNat)] } q c fun y =>
        { y with begun := true, blocks := s1.openAccesses ++ s1.wbs.map WriteBack.id }

/-- RELEASE (R393): the range's walks resume. -/
def execRelease (q c : Nat) (va len : W64) (s : State) : Result :=
  s.onCmd q c fun _ =>
    State.completeCmd { s with migrating := s.migrating.filter fun r =>
      r != ((s.queue q).asn, va.toNat, len.toNat) } q c

-- KILL, APERTURE, ATTEST

/-- A LAUNCH or GANG that was killed ends: its nodes that never launched never will (R393, R398). -/
def State.endLaunches (s : State) (q : Nat) : List Nat → State
  | [] => s
  | n :: ns =>
    State.endLaunches (match s.cmd? q n with
      | none => s
      | some x => if x.count != 0 then s.completeCmd q n else s) q ns

/-- The site of a report that the spec gives none (log entry 23). -/
def reportSite (s : State) (n : Nat) : Site :=
  { pc := Config.errorSite n 0, seq := (Config.errorSite n 1).setWidth 32, core := (Config.errorSite n 2).toNat % 8192,
    gix := (Config.errorSite n 3).toNat % 48, queue := ((s.launch? n).map Launch.queue).getD 0,
    block := (Config.errorSite n 4).toNat % 2 ^ 32, launch := n }

/-- Kills the launches of a list for one cause, with reports whose site the spec does not give. -/
def State.killAll (s : State) (code : Nat) (a : W64) : List Nat → State
  | [] => s
  | n :: ns => State.killAll (s.killLaunch n code a (reportSite s n)) code a ns

/-- The firmware kills the launches of a list for one cause. -/
def State.killAllNow (s : State) (code : Nat) (a : W64) : List Nat → State
  | [] => s
  | n :: ns => State.killAllNow (s.killNow n code a (reportSite s n)) code a ns

/-- KILL (R393). -/
def execKill (q c : Nat) (value : W64) (s : State) : Result :=
  s.onCmd q c fun _ =>
    let ns := (s.launches.filter fun (e : Nat × Launch) => e.2.queue == q).map (·.1)
    let s1 := s.killAllNow 0x35 value ns
    (s1.endLaunches q ((s1.queue q).cmds.map Cmd.num)).completeCmd q c

/-- A combination of APCTL with its other registers is legal (R335). -/
def apertureOk (s : State) (a : Aperture) : Bool :=
  let pb := (a.pbase.extractLsb' 0 48).toNat
  let sp := a.pbase.getLsbD 63
  let n := Apert.bytes a
  let elems := n / 4
  let size := match Apert.xf a with
    | 1 => (8 * tilesOf a + 4095) / 4096 * 4096 + 4096 * (tilesOf a + 16)
    | 3 => elems * viewBytes a
    | _ => n
  decide ((a.size.extractLsb' 0 40).toNat ≥ 1) && (Apert.xf a != 1 || sp) && pb % 4096 == 0 && decide (Apert.esz a ≤ 4) &&
    (Apert.xf a != 2 || decide (Apert.rows a * Apert.cols a * 2 ^ Apert.esz a = n)) &&
    (if sp then decide (pb + size ≤ (64 - s.l2n) * 2 ^ 24) else decide (pb + size ≤ s.capacity))

/-- The registers as the write port takes them: reserved bits read zero (R335). -/
def apertureOf (ctl vbase size pbase dim : W64) : Aperture :=
  { ctl := ctl &&& 0x7CF, vbase := vbase &&& 0x00FFFFFFFFFF0000, size := size &&& 0xFFFFFFFFFF,
    pbase := pbase &&& 0x8000FFFFFFFFFFFF, dim := dim &&& 0xFFFFFFFF }

/-- Writes an aperture's registers: the others are ignored while EN = 1, and an illegal combination leaves EN 0 and is reported
to the firmware (R335). -/
def State.writeAperture (s : State) (die m : Nat) (new : Aperture) : State :=
  let old := s.aperture die m
  let a := if Apert.enabled old then { old with ctl := new.ctl } else new
  let bad := Apert.enabled a && !apertureOk s a
  let b : Aperture := if bad then { a with ctl := a.ctl &&& ~~~1 } else a
  let s1 := s.modDie die fun d => { d with apertures := NMap.put d.apertures m b }
  if bad then s1.pushFw (.aperture die m) else s1

/-- An access through an aperture has not completed (R335): a store at its port, or where its transform is the identity an
access to its buffer. -/
def State.throughAperture (s : State) (die m : Nat) : Bool :=
  let a := s.aperture die m
  let base := Apert.phys die a 0
  let inside (x n : Nat) : Bool := decide (x < base + Apert.bytes a) && decide (base < x + n)
  ((s.die die).apWrites.any fun w => w.ap == m) ||
    (Apert.enabled a && Apert.xf a == 0 &&
      ((s.reqs.any fun r => r.todo.any fun y => inside y.addr y.size) || (s.wbs.any fun w => inside (w.line * 128) 128) ||
        (s.contribs.any fun k => inside k.addr 8) ||
        s.pubs.any fun p => match p.after with
          | .contribute k => inside k.addr 8
          | _ => p.added.any fun r => r.todo.any fun y => inside y.addr y.size))

/-- APERTURE (R335, R393). An aperture under write has accesses to complete first: EN goes only then. -/
def execAperture (q c die ap : Nat) (ctl vbase size pbase dim : W64) (s : State) : Result :=
  s.onCmd q c fun _ =>
    if s.throughAperture die ap then s
    else (s.writeAperture die ap (apertureOf ctl vbase size pbase dim)).completeCmd q c

/-- Signatures of the identity key (R405). -/
def leaves : Nat := 2 ^ 20

/-- ATTEST (R405): the report's layout is free (log entry 9); when the leaves are used up it holds status 7 and no signature. -/
def execAttest (q c : Nat) (nonce report : W64) (s : State) : Result :=
  s.onCmd q c fun _ =>
    let bytes := if s.leavesUsed < leaves then Config.attestReport (Memory.reads s.mem nonce.toNat 32) s.leavesUsed
      else Config.attestStatus 7
    if nonce.toNat + 32 > s.capacity || report.toNat + bytes.length > s.capacity then s.failCommand q c .operand
    else
      State.completeCmd { s.storeBytes report.toNat bytes with
        leavesUsed := if s.leavesUsed < leaves then s.leavesUsed + 1 else s.leavesUsed } q c

end Sys2Proof.Machine
end

