-- ==== Sys2Proof/Machine/Caravan.lean ====
section
/-! DEFINITION. Tile passes: requests, grants, start sequences, coverage verdicts, retirement (R357, R361 to R363, R406 to
R416). -/

namespace Sys2Proof.Machine

-- The owner's view of the save area (R363, R409, R413)

/-- Reads n bytes of device space at their homes through the tables of a core, in pieces within 4096 bytes; the fuel bounds
the pieces. -/
def State.areaRead (s : State) (core : Nat) (la : Launch) (va n : Nat) : Nat → Except W64 (List Byte)
  | 0 => .ok []
  | k + 1 =>
    if n = 0 then .ok []
    else
      let m := Nat.min n (4096 - va % 4096)
      if va ≥ 2 ^ 56 then .error (BitVec.ofNat 64 va)
      else match s.resolve core la.asn la.root va m .readWhole with
        | .ok (.home p) =>
          (match State.areaRead s core la (va + m) (n - m) k with
            | .ok bs => if s.peerDown p then .error (BitVec.ofNat 64 va) else .ok (s.homeBytes p m ++ bs)
            | .error a => .error a)
        | _ => .error (BitVec.ofNat 64 va)

/-- Writes bytes of device space at their homes so. -/
def State.areaWrite (s : State) (core : Nat) (la : Launch) (va : Nat) (bs : List Byte) : Nat → Except W64 State
  | 0 => .ok s
  | k + 1 =>
    if bs.isEmpty then .ok s
    else
      let m := Nat.min bs.length (4096 - va % 4096)
      if va ≥ 2 ^ 56 then .error (BitVec.ofNat 64 va)
      else match s.resolve core la.asn la.root va m .writeWhole with
        | .ok (.home p) =>
          if s.peerDown p then .error (BitVec.ofNat 64 va)
          else State.areaWrite (s.storeBytes p (bs.take m)) core la (va + m) (bs.drop m) k
        | _ => .error (BitVec.ofNat 64 va)

/-- Pieces of a saved tile at most. -/
def areaPieces (p : List W64) : Nat := (49152 + 128 + passPlb p) / 4096 + 3

-- Requests (R407, R408, R412, R414)

/-- A block's reservation covers the pass's regions (R407). -/
def tileFits (b : Block) (p : List W64) : Bool :=
  decide (passVbo p + 49216 ≤ b.tileKiB * 1024) && (passPlb p == 0 || decide (passPlo p + passPlb p ≤ b.tileKiB * 1024))

/-- The block retires the pass it owns, or goes on with the retirement under way (R412, R413). -/
def State.retire (s : State) (c : Ctx) (ops : List Nat) : State :=
  if s.retires.any fun r => r.blk == c.g.blk then
    { s with retires := s.retires.map fun r => if r.blk = c.g.blk then { r with ops := r.ops ++ ops } else r }
  else
    { s with retires := s.retires ++ [{ blk := c.g.blk, gid := c.gid, waits := s.tileReqsOf c.gid, pub := none, ops := ops,
                                        site := s.siteOf c.g c.cl.pc }] }

/-- The block owns a pass or retires one. -/
def State.ownsPass (s : State) (blk : Nat) : Bool :=
  ((s.block? blk).bind Block.pass).isSome || s.retires.any fun r => r.blk == blk

/-- tret.next (R412). -/
def execTretNext (d : BitVec 5) (a : Operand) (slot : BitVec 3) (s : State) : Result :=
  issueAsync Ctx.outside [.src64 a] (some slot) (fun c s =>
    let n := (c.g.read64 c.rank a 0).toNat
    match s.block? c.g.blk with
    | none => c.illegalOperand
    | some b =>
      let small := match s.runningPass n with
        | some x => !tileFits b x.p
        | none => false
      if decide (n ≥ 8) || b.tret.isSome || small then c.illegalOperand
      else
        let op := s.nextId
        let s1 := (s.launchAsync { c.async (some slot) with ready := false, site := s.siteOf c.g c.cl.pc }).modBlock c.g.blk
          fun b => { b with tret := some (op, n, d.toNat, false) }
        .ok (if s.ownsPass c.g.blk then s1.retire c [] else s1.sendTile c.g.blk)) s

/-- tret.done (R412). -/
def execTretDone (tl : Tail) (s : State) : Result :=
  issueAsync Ctx.outside [] tl (fun c s =>
    let owns := s.ownsPass c.g.blk
    match tl with
    | none => .ok (if owns then s.retire c [] else s)
    | some _ =>
      let op := s.nextId
      let s1 := s.launchAsync { c.async tl with ready := !owns }
      .ok (if owns then s1.retire c [op] else s1)) s

-- Grants (R407, R408)

/-- A pass of a tile up to an ID renders a `.cov` entry. -/
def RenderPass.hasCov (x : RenderPass) (t : Nat) (hi : W64) : Bool := (x.below t hi).any RenderEntry.cov

/-- A block may be granted a pass of a tile (R407); an eviction withdraws its request (R415). -/
def State.eligible (s : State) (x : RenderPass) (t : Nat) (hi : W64) (blk : Nat) : Bool :=
  match s.block? blk with
  | none => false
  | some b => !b.evicting && tileFits b x.p && (!x.hasCov t hi || decide (b.spawn > 0))

/-- The watermark when the geometry has ended. -/
def lastId : W64 := 0xFFFFFFFFFFFFFFFF

/-- The ready passes of a slot in their order: tile, final, HI (R406, R408). -/
def RenderPass.readyPasses (x : RenderPass) : List (Nat × Bool × W64) :=
  (x.forced.filterMap fun t => match (x.tile t).out with
    | some o => if o.owner.isNone then some (t, false, o.hi) else none
    | none => none) ++
    (if x.ended then
      ((List.range (passTiles x.p)).filter fun t => !(x.tile t).done && (x.tile t).out.isNone).map fun t => (t, true, lastId)
    else [])

/-- The first ready pass with an eligible request, and the oldest such request. -/
def State.nextGrant (s : State) (slot : Nat) (x : RenderPass) : Option ((Nat × Bool × W64) × Nat) :=
  x.readyPasses.findSome? fun r =>
    ((s.tileReqs.find? fun q => q.slot == slot && s.eligible x r.1 r.2.2 q.blk).map fun q => (r, q.blk))

/-- TILE_PASS_GRANT (R408). -/
def execTilePassGrant (slot : Nat) (s : State) : Result :=
  .next (match s.runningPass slot with
    | none => s
    | some x =>
      match s.nextGrant slot x with
      | none => s
      | some ((t, final, hi), blk) =>
        let s1 : State := { s with tileReqs := s.tileReqs.filter fun q => q.blk != blk }
        let s2 := s1.modTile slot t fun y => { y with out := some { newTilePass final hi with owner := some blk } }
        let s3 := s2.modPass slot fun x => { x with forced := x.forced.filter fun k => k != t }
        s3.modBlock blk fun b =>
          { b with pass := some (slot, t), tret := b.tret.map fun r => (r.1, r.2.1, r.2.2.1, true) })

-- The visibility buffer in the owner's tile memory (R228)

/-- Home address of the buffer of a block. -/
def visBase (b : Block) (p : List W64) : Nat := tileAddr b.core (b.res + passVbo p)

/-- The stored depth of a sample. -/
def State.depthOf (s : State) (base pixel sample : Nat) : W32 := s.load32 (base + 32768 + 4 * (1024 * sample + pixel))

/-- Writes a sample. -/
def State.putSample (s : State) (base : Nat) (pid : W64) (w : Nat × Nat × W32) : State :=
  let k := 1024 * w.2.1 + w.1
  (s.storeBytes (base + 8 * k) (natBytes pid.toNat 8)).storeBytes (base + 32768 + 4 * k) (natBytes w.2.2.toNat 4)

/-- Writes several samples. -/
def State.putSamples (s : State) (base : Nat) (pid : W64) : List (Nat × Nat × W32) → State
  | [] => s
  | w :: ws => State.putSamples (s.putSample base pid w) base pid ws

/-- The block of a pixel (R363). -/
def hizBlock (pixel : Nat) : Nat := pixel / 256 * 4 + pixel % 32 / 8

/-- The bounds after samples were written (R363): hmin under 2b, hmax under 2b + 1. -/
def widenHiz (h : NMap W32) : List (Nat × Nat × W32) → NMap W32
  | [] => h
  | w :: ws =>
    let b := hizBlock w.1
    widenHiz (NMap.set 0 (NMap.set 0 h (2 * b) (depthMin (NMap.get 0 h (2 * b)) w.2.2)) (2 * b + 1)
      (depthMax (NMap.get 0 h (2 * b + 1)) w.2.2)) ws

/-- The bounds of a block of the tile from its stored depths (R363). -/
def State.exactHiz (s : State) (base n b : Nat) : W32 × W32 :=
  let ds := (List.range 64).flatMap fun i => (List.range n).map fun k =>
    s.depthOf base ((b / 4 * 8 + i / 8) * 32 + b % 4 * 8 + i % 8) k
  if ds.any fun d => (fp32.dec d.toNat).isNan then (0xFF800000, 0x7F800000)
  else (ds.foldl depthMin (ds.headD 0), ds.foldl depthMax (ds.headD 0))

-- The start sequence (R409)

/-- The first step: the state is restored or initialised. -/
def State.beginTile (s : State) (b : Block) (la : Launch) (x : RenderPass) (t : Nat) : Except W64 (State × NMap W32) :=
  let base := visBase b x.p
  let n := passSamples x.p
  if (x.tile t).n = 0 then
    let s1 := (s.storeBytes base (List.replicate (8 * 1024 * n) 0xFF)).storeBytes (base + 32768)
      ((List.range (1024 * n)).flatMap fun _ => natBytes (passClear x.p).toNat 4)
    .ok (s1, (List.range 32).foldl (fun h i => NMap.set 0 h i (passClear x.p)) [])
  else
    match s.areaRead b.core la (passSave x.p t) (49152 + 128 + passPlb x.p) (areaPieces x.p) with
    | .error a => .error a
    | .ok bs =>
      let hz := (bs.drop 49152).take 128
      .ok ((s.storeBytes base (bs.take 49152)).storeBytes (tileAddr b.core (b.res + passPlo x.p)) (bs.drop 49280),
        (List.range 32).foldl (fun h i => NMap.set 0 h i (BitVec.ofNat 32 (bytesNat ((hz.drop (4 * i)).take 4)))) [])

/-- An entry enters a list in ascending ID. -/
def insertEntry (e : RenderEntry) : List RenderEntry → List RenderEntry
  | [] => [e]
  | f :: fs => if e.pid.toNat < f.pid.toNat then e :: f :: fs else f :: insertEntry e fs

/-- The entries a pass renders, in ascending ID (R357, R406). -/
def RenderPass.work (x : RenderPass) (t : Nat) (lo hi : W64) : List RenderEntry :=
  ((x.below t hi).filter fun e => decide (lo.toNat ≤ e.pid.toNat)).foldl (fun es e => insertEntry e es) []

/-- The samples of an entry that are covered and pass the depth test (R360, R361). -/
def State.passing (s : State) (base : Nat) (p : List W64) (t : Nat) (e : RenderEntry) (x : Nat) : List (Nat × Nat × W32) :=
  match rasterTri x with
  | none => []
  | some tri => (tri.samples (passSamples p) (tileCol p t) (tileRow p t)).filter fun w =>
      depthPass e.df w.2.2 (s.depthOf base w.1 w.2.1)

/-- The pixels of passing samples with their candidate masks: pixel × 16 + mask (R362). -/
def candidates (ws : List (Nat × Nat × W32)) : List Nat :=
  ((ws.foldl (fun (m : NMap Nat) w => NMap.put m w.1 (NMap.get 0 m w.1 + 2 ^ w.2.1)) []).map fun e => e.1 * 16 + e.2)

/-- Renders entries in turn until one runs a coverage program over some pixel (R361, R362). -/
def State.renderAll (s : State) (slot t base : Nat) (p : List W64) : List RenderEntry → Except W64 State
  | [] => .ok (s.modOut slot t fun o => { o with todo := [] })
  | e :: es =>
    match s.recRead e.at_ with
    | .error a => .error a
    | .ok x =>
      let ws := s.passing base p t e x
      if e.cov then
        let s1 := (s.recSeen e.at_).modOut slot t fun o => { o with nent := o.nent + 1, anyCov := true }
        if ws.isEmpty then State.renderAll s1 slot t base p es
        else .ok (s1.modOut slot t fun o => { o with todo := es, cur := some e, covTodo := candidates ws })
      else
        State.renderAll (((s.recSeen e.at_).putSamples base e.pid ws).modOut slot t fun o =>
          { o with nent := o.nent + 1, hiz := widenHiz o.hiz ws }) slot t base p es

/-- The coverage thread of a pixel (R233, R362). -/
def covThread (p : List W64) (t : Nat) (e : RenderEntry) (c : Nat) : SpawnThread :=
  let px := c / 16
  { b := e.pid.extractLsb' 0 32, c := e.pid.extractLsb' 32 32,
    ident := BitVec.ofNat 32 ((32 * tileRow p t + px / 32) * 2 ^ 16 + (32 * tileCol p t + px % 32)),
    cov := some (BitVec.ofNat 32 (c % 16), px) }

/-- Puts coverage threads into the owner's bins while it has spawn slots (R362). -/
def State.spawnCov (s : State) (slot t : Nat) (b : Block) (blk : Nat) (p : List W64) (e : RenderEntry) : List Nat → State
  | [] => s
  | c :: cs =>
    let r := s.spawnOne b.core blk e.entry (covThread p t e c) []
    if r.1 then
      State.spawnCov (r.2.modOut slot t fun o =>
        { o with ncov := o.ncov + 1, covTodo := o.covTodo.drop 1, covWait := o.covWait ++ [c] }) slot t b blk p e cs
    else s

/-- The tile word of a granted pass (R410). -/
def tileWord (p : List W64) (t n : Nat) (o : TilePass) : W64 :=
  BitVec.ofNat 64 (Nat.min n 255 * 2 ^ 56 + t * 2 ^ 32 + tileView p t * 2 ^ 24 + tileRow p t * 2 ^ 16 + tileCol p t * 2 ^ 8 +
    passField p 0 38 2 * 2 ^ 6 + (if o.anyCov then 8 else 0) + (if n > 0 then 4 else 0) + (if o.final then 2 else 0) + 1)

/-- The pass record (R411). -/
def passRecord (p : List W64) (t : Nat) (y : Tile) (o : TilePass) : List Byte :=
  natBytes y.lo.toNat 8 ++ natBytes o.hi.toNat 8 ++ natBytes (tileWord p t y.n o).toNat 8 ++
    natBytes (o.nent * 2 ^ 32 + o.ncov) 8 ++ natBytes (32 * tileRow p t * 2 ^ 16 + 32 * tileCol p t) 8 ++
    natBytes (passSave p t) 8 ++ List.replicate 16 0

/-- The chunks of a tile after a pass has rendered its entries (R357): freed, emptied in place, or with USED advanced. -/
def State.useChunks (s : State) (slot : Nat) (x : RenderPass) (t : Nat) (hi : W64) : List Chunk :=
  x.chunks.filterMap fun c =>
    if c.tile != t then some c
    else
      let used := (c.entries.filter fun e => decide (e.pid.toNat < hi.toNat)).length
      if s.chunkFreed slot x hi c then none
      else if used = c.entries.length then some { c with entries := [], used := 0 }
      else some { c with used := used }

/-- The end of a start sequence: the chunks, the pass record and the tile word. -/
def State.finishTile (s : State) (slot t : Nat) (b : Block) (blk : Nat) (x : RenderPass) (o : TilePass) : Except W64 State :=
  let y := x.tile t
  let x1 := { x with chunks := s.useChunks slot x t o.hi }
  let s1 := (s.modPass slot fun _ => x1).modOut slot t fun o => { o with started := true }
  match s1.writeChunks x1 ((x1.chunks.filter fun c => c.tile == t).map fun c => (c.idx, none)) with
  | .error a => .error a
  | .ok s2 =>
    let s3 := s2.storeBytes (visBase b x.p + 49152) (passRecord x.p t y o)
    match b.tret with
    | none => .ok s3
    | some (op, _, d, _) =>
      .ok (State.modBlock { s3 with
        asyncs := s3.asyncs.map fun a => if a.id = op then { a with ready := true, sw := [(d, tileWord x.p t y.n o)] } else a }
        blk fun b => { b with tret := none })

/-- The site of the tret.next that a block's grant answers. -/
def State.tretSite (s : State) (b : Block) : Site :=
  match b.tret with
  | some (op, _, _, _) => ((s.asyncs.find? fun a => a.id == op).map AsyncOp.site).getD (Site.of b.core)
  | none => Site.of b.core

/-- The tret for which a block's tile pass is at work: the retiring one, else the one that was granted (R409, R413). -/
def State.passSite (s : State) (blk : Nat) (b : Block) : Site :=
  match b.starting, s.retires.find? fun r => r.blk == blk with
  | false, some r => r.site
  | _, _ => s.tretSite b

/-- A start sequence goes on from where it stands. -/
def State.runTile (s : State) (slot t blk : Nat) (b : Block) (x : RenderPass) (o : TilePass) : State :=
  let base := visBase b x.p
  let fault (a : W64) : State := s.killLaunch b.launch 0x30 a (s.tretSite b)
  match o.cur with
  | some e =>
    if !o.covTodo.isEmpty then s.spawnCov slot t b blk x.p e o.covTodo
    else if !o.covWait.isEmpty || !o.covGot.isEmpty then s
    else s.modOut slot t fun o => { o with cur := none }
  | none =>
    if o.todo.isEmpty then
      match s.finishTile slot t b blk x o with
      | .ok s1 => s1.pump slot
      | .error a => s.poolFault slot 0x30 a (s.tretSite b)
    else match s.renderAll slot t base x.p o.todo with
      | .ok s1 => s1
      | .error a => fault a

/-- A migration holds walks of the pass's pool or status, of the tile's save area, or of records that are still to be read
(R333, R393). -/
def State.tileHeld (s : State) (la : Launch) (x : RenderPass) (t : Nat) (es : List RenderEntry) : Bool :=
  s.listHeld x || s.rangeHeld la.asn (passSave x.p t) (49280 + passPlb x.p) || es.any fun e => s.recHeld e.at_

/-- START_SEQUENCE (R409): one part of it. -/
def execStartSequence (slot tile : Nat) (s : State) : Result :=
  .next (match s.runningPass slot with
    | none => s
    | some x =>
      match (x.tile tile).out with
      | none => s
      | some o =>
        match o.owner with
        | none => s
        | some blk =>
          match s.block? blk with
          | none => s
          | some b =>
            match s.launch? b.launch with
            | none => s
            | some la =>
              if o.started || s.tileHeld la x tile o.todo then s
              else if o.began then s.runTile slot tile blk b x o
              else match s.beginTile b la x tile with
                | .error a => s.killLaunch b.launch 0x30 a (s.tretSite b)
                | .ok (s1, h) => s1.modOut slot tile fun o =>
                    { o with began := true, hiz := h, todo := x.work tile (x.tile tile).lo o.hi })

/-- COVERAGE_VERDICT_WRITE (R362): the kept samples of the pixels whose verdicts have arrived are written. -/
def execCoverageVerdictWrite (slot tile : Nat) (s : State) : Result :=
  .next (match s.runningPass slot, s.outOf slot tile with
    | some x, some o =>
      match o.owner.bind s.block?, o.cur with
      | some b, some e =>
        if o.covGot.isEmpty || s.recHeld e.at_ then s
        else match s.recRead e.at_ with
          | .error a => s.killLaunch b.launch 0x30 a (s.tretSite b)
          | .ok w =>
            let kept (p k : Nat) : Bool := o.covGot.any fun g => g / 16 == p && (g % 16).testBit k
            let ws := match rasterTri w with
              | none => []
              | some tri => (tri.samples (passSamples x.p) (tileCol x.p tile) (tileRow x.p tile)).filter fun v =>
                  kept v.1 v.2.1
            ((s.recSeen e.at_).putSamples (visBase b x.p) e.pid ws).modOut slot tile fun o =>
              { o with covGot := [], hiz := widenHiz o.hiz ws }
      | _, _ => s
    | _, _ => s)

-- Retirement (R413, R414)

/-- The bytes of a partial pass that are saved (R363). -/
def State.savedBytes (s : State) (b : Block) (p : List W64) : List Byte :=
  let base := visBase b p
  Memory.reads s.mem base 49152 ++
    ((List.range 16).flatMap fun k =>
      let h := s.exactHiz base (passSamples p) k
      natBytes h.1.toNat 4 ++ natBytes h.2.toNat 4) ++
    Memory.reads s.mem (tileAddr b.core (b.res + passPlo p)) (passPlb p)

/-- The pass of a slot completes when every tile is done (R414). -/
def State.settlePass (s : State) (slot : Nat) : State :=
  match s.runningPass slot with
  | none => s
  | some x =>
    if !(List.range (passTiles x.p)).all fun t => (x.tile t).done then s
    else
      let s1 := (s.closeHeld slot).modPass slot fun x => { x with running := false, chunks := [], forced := [] }
      State.completeCmd { (s1.denyTiles (s1.requesters slot)) with
        prims := s1.prims.filter fun p => p.slot != slot } x.queue x.cmd

/-- A block's pass is retired: a partial one is saved (R413). -/
def State.retireTile (s : State) (blk : Nat) (b : Block) (r : Retire) : Except W64 State :=
  match b.pass with
  | none => .ok s
  | some (slot, t) =>
    match s.runningPass slot, s.outOf slot t, s.launch? b.launch with
    | some x, some o, some la =>
      let free (s : State) : State := s.modBlock blk fun b => { b with pass := none }
      if o.final then
        .ok ((free (s.modTile slot t fun y => { y with done := true, out := none })).settlePass slot)
      else match s.areaWrite b.core la (passSave x.p t) (s.savedBytes b x.p) (areaPieces x.p) with
        | .error a => .error a
        | .ok s1 =>
          .ok ((free (s1.modTile slot t fun y => { y with n := y.n + 1, lo := o.hi, out := none })).pump slot)
    | _, _, _ => .ok (s.modBlock blk fun b => { b with pass := none })

/-- The end of a retirement: its tails, then the block's next request, or the block's own end. -/
def State.endRetirement (s : State) (blk : Nat) (r : Retire) : State :=
  let s1 : State := { s with
    retires := s.retires.filter fun x => x.blk != blk,
    asyncs := s.asyncs.map fun a => if r.ops.contains a.id then { a with ready := true } else a }
  (s1.sendTile blk).tryEndBlock blk

/-- A migration holds walks that the retirement of a block's pass needs (R333, R393). -/
def State.retireHeld (s : State) (b : Block) : Bool :=
  match b.pass, s.launch? b.launch with
  | some (slot, t), some la => ((s.runningPass slot).map fun x => s.tileHeld la x t []).getD false
  | _, _ => false

/-- RETIREMENT_COMPLETE (R413): first its publish starts, then, that done, the pass is retired. A pass whose start sequence
has not ended is not retired yet (R409). -/
def execRetirementComplete (blk : Nat) (s : State) : Result :=
  .next (match s.retires.find? fun r => r.blk == blk with
    | none => s
    | some r =>
      match s.block? blk with
      | none => s
      | some b =>
        if b.starting then s
        else match r.pub with
        | none =>
          if r.waits.any fun w => s.inFlight w then s
          else
            let p := s.publish b.core r.gid b.launch .sys 0 .nothing
            { p.2 with retires := p.2.retires.map fun x => if x.blk = blk then { x with pub := some p.1 } else x }
        | some n =>
          if (s.pubs.any fun q => q.id == n) || s.retireHeld b then s
          else match s.retireTile blk b r with
            | .error a => s.killLaunch b.launch 0x30 a r.site
            | .ok s1 => s1.endRetirement blk r)

end Sys2Proof.Machine
end

