-- ==== Sys2Proof/Machine/Layout.lean ====
section
/-! DEFINITION. Tile-layout records (R295 to R298), the layout-record cache (R340), and plane access (R179). -/

namespace Sys2Proof.Machine

/-- Word n of a record's eight. -/
def recWord (ws : List W64) (n : Nat) : W64 := ws.getD n 0

/-- Extent of a dimension (R295). -/
def layExt (ws : List W64) (d : Nat) : Nat := ((recWord ws 1).extractLsb' (16 * d) 16).toNat + 1

/-- Stride of a dimension, in elements. -/
def layStr (ws : List W64) (d : Nat) : Nat := ((recWord ws (2 + d / 2)).extractLsb' (32 * (d % 2)) 32).toNat

/-- Scale stride of a dimension, in bytes. -/
def laySstr (ws : List W64) (d : Nat) : Nat := ((recWord ws 6).extractLsb' (16 * d) 16).toNat

/-- Element format code. -/
def layCode (ws : List W64) : Nat := ((recWord ws 4).extractLsb' 0 8).toNat

/-- The blocked dimension. -/
def layKdim (ws : List W64) : Nat := ((recWord ws 4).extractLsb' 8 2).toNat

/-- Swizzle. -/
def laySwz (ws : List W64) : Nat := ((recWord ws 4).extractLsb' 10 2).toNat

/-- MX block size. -/
def layMxb (ws : List W64) : Nat := ((recWord ws 4).extractLsb' 16 8).toNat

/-- The format has 4-bit elements. -/
def fourBit (fmt : Nat) : Bool := fmt == 6 || fmt == 12 || fmt == 19

/-- The format is an OCP Microscaling one. -/
def isMx (fmt : Nat) : Bool := fmt == 17 || fmt == 18 || fmt == 19

/-- The format has a scale for each block of 32 (R297). -/
def isScaled (fmt : Nat) : Bool := fmt == 4 || fmt == 5 || fmt == 6

/-- The format is a trellis format. -/
def isTw (fmt : Nat) : Bool := fmt == 9 || fmt == 10

/-- Bytes of an element, 1 for the 4-bit formats. -/
def elemBytes (fmt : Nat) : Nat :=
  match fmt with
  | 0 => 2
  | 1 => 2
  | 11 => 4
  | 13 => 2
  | 14 => 2
  | 15 => 4
  | 16 => 4
  | _ => 1

/-- A record's fields keep the limits of R295 to R298. -/
def layOk (ws : List W64) : Bool :=
  let f := layCode ws
  let base := (recWord ws 0).toNat
  (recWord ws 4).extractLsb' 24 40 == 0 && (recWord ws 4).extractLsb' 12 4 == 0 && recWord ws 7 == 0 &&
    decide (f ≤ 19) && (if isMx f then layMxb ws == 32 else layMxb ws == 0) &&
    base % elemBytes f == 0 && (laySwz ws == 0 || (base % 16 == 0 && !isTw f))

/-- The element index of coordinates (R296). -/
def elemIndex (ws : List W64) (c : List Nat) : Nat :=
  (List.range 4).foldl (fun e d => e + c.getD d 0 * layStr ws d) 0

/-- The swizzle of an offset (R296). -/
def swizzle (s off : Nat) : Nat :=
  if s = 0 then off
  else
    let field := off / 16 % 2 ^ (s + 2)
    let w := s + 2
    let hi := off / 2 ^ (s + 6) % 2 ^ w
    off - field * 16 + Nat.xor field hi * 16

/-- The generic address of the element at coordinates, and its nibble (R296). -/
def elemAddr (ws : List W64) (c : List Nat) : W64 × Bool :=
  let f := layCode ws
  let e := elemIndex ws c
  let off := if fourBit f then e / 2 else e * elemBytes f
  (recWord ws 0 + BitVec.ofNat 64 (swizzle (laySwz ws) off), fourBit f && e % 2 == 1)

/-- The coordinates of an element's block, KDIM divided by the block's size (R297). -/
def blockCoord (ws : List W64) (size : Nat) (c : List Nat) : List Nat :=
  (List.range 4).map fun d => if d = layKdim ws then c.getD d 0 / size else c.getD d 0

/-- The generic address of a block's scale byte (R297). -/
def scaleAddr (ws : List W64) (b : List Nat) : W64 :=
  recWord ws 5 + BitVec.ofNat 64 ((List.range 4).foldl (fun e d => e + b.getD d 0 * laySstr ws d) 0)

/-- The generic address of a trellis block's bitstream (R297). -/
def trellisAddr (ws : List W64) (k : Nat) (b : List Nat) : W64 :=
  recWord ws 0 + BitVec.ofNat 64 (elemIndex ws b * (32 * k))

/-- Coordinates lie within the extents. -/
def inExtent (ws : List W64) (c : List Nat) : Bool := (List.range 4).all fun d => decide (c.getD d 0 < layExt ws d)

-- The layout-record cache (R340)

/-- The tag of a byte of tile memory: its physical core, worn or not, and offset (R322, R340). -/
def State.physTile (s : State) (p : Nat) : Nat :=
  let core := (p - 2 ^ 49) / 2 ^ 19
  let phys := clusterOf core * 272 + NMap.get (core % 256) (s.cluster (clusterOf core)).phys (core % 256) % 272
  phys * 2 ^ 19 + (p - 2 ^ 49) % 2 ^ 19

/-- The tag of a record's location: space, address-space number, address. -/
def State.recTag (s : State) (v : View) (a : W64) : Option (Nat × Nat × Nat) :=
  match spaceOf a with
  | some .dev => some (0, v.la.asn, a.toNat)
  | some .priv => none
  | some .cl => match s.pieces v 0 a 64 .read with
    | .ok ((.arr p _, _) :: _) => some (2, 0, s.physTile p)
    | _ => none
  | some .tile => some (2, 0, s.physTile (tileAddr v.core (a.toNat % 2 ^ 19)))
  | some .vault => some (1, 0, vaultAddr (dieOf v.core) (a.toNat % 2 ^ 30))
  | none => none

/-- The cached record of a location. -/
def State.recHit (s : State) (v : View) (a : W64) : Option (List W64) :=
  match s.recTag v a with
  | none => none
  | some t =>
    ((s.cluster (clusterOf v.core)).recs.find? fun e => e.space == t.1 && e.asn == t.2.1 && e.addr == t.2.2).map
      RecEntry.words

/-- Where a record lies. -/
def State.recHome (s : State) (v : View) (a : W64) : Option Target :=
  match s.pieces v 0 a 64 .read with
  | .ok ((t, _) :: _) => some t
  | _ => none

/-- A record's four 16-byte units as a miss reads them, in order: at its home, or at the die's aperture port (R337, R340). -/
def State.recUnits (s : State) (v : View) (t : Target) : List Nat → List Nat × State
  | [] => ([], s)
  | i :: is =>
    let x : Nat × State := match t with
      | .snap p => let s1 := (s.beforeRead v.core ((p + 16 * i) / 128)).l2See (p + 16 * i) 16 false v.l2 (dieOf v.core); (s1.loadN (p + 16 * i) 16, s1)
      | .arr p _ => (s.loadN (p + 16 * i) 16, s)
      | .port m off => (s.portSeen v.core m (off + 16 * i) 16 false v.l2).portLoad v.core m (off + 16 * i) 16
    let r := State.recUnits x.2 v t is
    (x.1 :: r.1, r.2)

/-- The two words of each unit. -/
def unitWords (us : List Nat) : List W64 := us.flatMap fun u => [BitVec.ofNat 64 u, BitVec.ofNat 64 (u / 2 ^ 64)]

/-- Whether a record can be read now: a miss in tile memory waits for its line (R340). -/
def State.recPresent (s : State) (v : View) (a : W64) : Bool :=
  (s.recHit v a).isSome || (match s.recHome v a with
    | some (.arr p _) => s.present p
    | _ => true)

/-- A record's eight words through the cluster's cache (R340). -/
def State.readRec (s : State) (v : View) (a : W64) : List W64 × State :=
  match s.recHit v a with
  | some ws => (ws, s)
  | none =>
    match s.recHome v a, s.recTag v a with
    | some p, some t =>
      let r := s.recUnits v p (List.range 4)
      let ws := unitWords r.1
      (ws, r.2.modCluster (clusterOf v.core) fun c =>
        { c with recs := ({ space := t.1, asn := t.2.1, addr := t.2.2, words := ws } :: c.recs).take 512 })
    | _, _ => (List.replicate 8 0, s)

-- ldp and stp (R179)

/-- The coordinates of a lane. -/
def Ctx.coords (c : Ctx) (xy : Operand) (c2 c3 : BitVec 6) (l : Nat) : List Nat :=
  let x := c.g.read32 c.rank .word xy l
  [(x.extractLsb' 0 16).toNat, (x.extractLsb' 16 16).toNat, c2.toNat, c3.toNat]

/-- The plane instructions' format check (R179): stp converts into no scaled format. -/
def planeFmtOk (ws : List W64) (store : Bool) : Bool :=
  let f := layCode ws
  layOk ws && !isTw f && !isMx f && !(store && isScaled f)

/-- What a lane of a plane access touches: its element, and its scale in a scaled format (R179). -/
def planeAccs (ws : List W64) (co : List Nat) (l : Nat) : List (Nat × W64 × Nat) :=
  (l, (elemAddr ws co).1, elemBytes (layCode ws)) ::
    if isScaled (layCode ws) then [(l, scaleAddr ws (blockCoord ws 32 co), 1)] else []

/-- The checks of a plane access in the order of R174, its element's before its scale's; the watch follows them all (R372);
then the work, on the record's words. -/
def Ctx.plane (c : Ctx) (base : BitVec 5) (xy : Operand) (c2 c3 : BitVec 6) (k : AccKind) (datum : List W64 → Nat → W32)
    (s : State) (go_ : View → List W64 → List Nat → State → Effect) : Effect :=
  let v := s.viewOf c.gid c.g
  let ls := laneList c.em
  let r := c.g.sget base.toNat
  if ls.isEmpty then go_ v (List.replicate 8 0) [] s
  else if s.heldAddr v 0 r then .stall
  else match s.memCheck v ls (fun _ => r) 64 64 .read true with
    | some (e, m) => c.memFault e m (fun _ => r) false
    | none =>
      if !s.recPresent v r then .stall
      else
        let rd := (s.touchTlb v 0 r).readRec v r
        let ws := rd.1
        if !planeFmtOk ws k.writes then c.fault 0x0C r c.em
        else
          let inside := ls.filter fun l => inExtent ws (c.coords xy c2 c3 l)
          let n := elemBytes (layCode ws)
          let addr (l : Nat) : W64 := (elemAddr ws (c.coords xy c2 c3 l)).1
          let scale (l : Nat) : W64 := scaleAddr ws (blockCoord ws 32 (c.coords xy c2 c3 l))
          let scaled := isScaled (layCode ws)
          let kind : WatchKind := if k.writes then .store else .load
          let accs := inside.flatMap fun l => planeAccs ws (c.coords xy c2 c3 l) l
          let v := rd.2.viewOf c.gid c.g
          let pas := rd.2.snapOf v addr n k inside ++ if scaled then rd.2.snapOf v scale 1 k inside else []
          let open_ : Effect := c.watchedSized kind accs (datum ws) v rd.2
            (c.peerRead k pas rd.2 (go_ v ws inside
              (if scaled then (rd.2.touchTlbs v addr inside).touchTlbs v scale inside else rd.2.touchTlbs v addr inside)))
          c.admitted inside id addr n n k false rd.2
            (if scaled then c.admitted inside id scale 1 1 k false rd.2 open_ else open_)

/-- A lane's element of ldp, at the targets that its address had when the instruction was checked: its own bytes and its scale's
arrive under the lane's keys (R179). -/
def Gather.plane (g : Gather) (v : View) (pol : Policy) (s : State) (ws : List W64) (co : List Nat) (lane : Nat) : Gather :=
  let f := layCode ws
  let n := elemBytes f
  let ea := (elemAddr ws co).1
  let g1 := g.load v pol (s.targetOf v lane ea n .read) n (.raw (planeKey lane false))
  if isScaled f then g1.load v pol (s.targetOf v lane (scaleAddr ws (blockCoord ws 32 co)) 1 .read) 1 (.raw (planeKey lane true))
  else g1

/-- ldp (R179). -/
def execLdp (pol : Policy) (d : BitVec 6) (base : BitVec 5) (xy : Operand) (c2 c3 : BitVec 6) (tl : Tail) (s : State) :
    Result :=
  issueAsync (fun _ => true) [.src xy, .regs d 1 1] tl (fun c s =>
    c.plane base xy c2 c3 .read (fun _ _ => 0) s fun v ws inside s =>
      let zero := (laneList c.em).filter fun l => !inside.contains l
      let g0 := c.gather s tl
      let nib (l : Nat) : Bool := (elemAddr ws (c.coords xy c2 c3 l)).2
      let g1 := { g0 with async := { g0.async with
        vw := zero.map fun l => (d.toNat * 32 + l, 0), fp := !inside.isEmpty,
        gfx := some (.plane d.toNat (layCode ws) (inside.map fun l => (l, nib l))) } }
      (inside.foldl (fun g l => g.plane v pol s ws (c.coords xy c2 c3 l) l) g1).finishAccs c v tl true
        (inside.flatMap fun l => planeAccs ws (c.coords xy c2 c3 l) l) (fun _ => [])) s

/-- The 32-bit value a lane of stp stores. -/
def Group.planeDatum (g : Group) (src : Dest) (l : Nat) : W32 :=
  match src with
  | .v r => g.vget r.toNat l
  | .s r => (g.sget r.toNat).setWidth 32
  | _ => 0

/-- A lane's element of stp, at the target that its address had when the instruction was checked: a nibble alone, or the element's
bytes. -/
def Gather.planeStore (g : Gather) (v : View) (pol : Policy) (s : State) (ws : List W64) (co : List Nat) (lane code : Nat) : Gather :=
  let f := layCode ws
  let ea := elemAddr ws co
  let n := elemBytes f
  let t := s.targetOf v lane ea.1 n .write
  if fourBit f then
    let put (old : Nat) : Nat := if ea.2 then code * 16 + old % 16 else old / 16 * 16 + code
    match t with
    | .arr a own => g.send a own false 0 (.nib a ea.2 (BitVec.ofNat 4 code))
    | .snap pa =>
      if g.s.sectorBusy v.core pa then g.send pa false true (pa + 1) (.nib pa ea.2 (BitVec.ofNat 4 code))
      else
        let r := g.s.l1Load v.core pol pa 1
        { g with s := r.2 }.store v pol t 1 (put r.1)
    | .port m off =>
      let r := (g.s.portSeen v.core m off 1 false v.l2).portLoad v.core m off 1
      { g with s := r.2 }.store v pol t 1 (put r.1)
  else g.store v pol t n code

/-- stp (R179). -/
def execStp (pol : Policy) (src : Dest) (base : BitVec 5) (xy : Operand) (c2 c3 : BitVec 6) (tl : Tail) (s : State) :
    Result :=
  issueAsync (fun _ => true) (.src xy :: storeUse src 1) tl (fun c s =>
    let code (ws : List W64) (l : Nat) : Nat × FpFlags := narrowElem (layCode ws) (c.g.planeDatum src l)
    c.plane base xy c2 c3 .write (fun ws l => BitVec.ofNat 32 (code ws l).1) s fun v ws inside s =>
      let addr (l : Nat) : W64 := (elemAddr ws (c.coords xy c2 c3 l)).1
      let s1 := s.raise c.gid c.g.tag (flagsOver (fun l => (code ws l).2) inside)
      (inside.foldl (fun g l => g.planeStore v pol s ws (c.coords xy c2 c3 l) l (code ws l).1) (c.gather s1 tl)).finish
        c v tl false inside addr (elemBytes (layCode ws))
          (fun _ => inside.flatMap fun l => storeSteps (v.canonical (addr l)) (elemBytes (layCode ws)) (code ws l).1)) s

end Sys2Proof.Machine
end

