-- ==== Sys2Proof/Machine/Engine.lean ====
section
/-! DEFINITION. What the copy engines and the trellis encoder share: the checks of their cards (R303, R343), their accesses
(R285, R314) and their counter additions (R311, R346). -/

namespace Sys2Proof.Machine

/-- What stops an engine's access: a walk that a migration holds, or a fault at an address (R314). -/
inductive EngErr
  | held
  | bad (a : W64)

/-- The view of an engine's job: its addresses are those of the block that pushed it, which may have ended (R273), and its
die's TLB translates (R331). -/
def State.jobView (s : State) (core gid blk launch : Nat) (home : Block) (l2 : Nat × Nat) : View :=
  { core := core, unit := engineUnit (dieOf core), gid := gid, gix := 0, launchId := launch, blkId := blk,
    blk := (s.block? blk).getD home, la := (s.launch? launch).getD noLaunch, l2 := l2 }

/-- Where an engine's access goes. -/
def State.engTarget (s : State) (v : View) (a : W64) (n : Nat) (k : AccKind) : Except EngErr Target :=
  if spaceOf a = some .priv then .error (.bad a)
  else if s.heldAddr v 0 a then .error .held
  else match s.pieces v 0 a n k with
    | .ok [(t, _)] => (match t with
      | .snap p => if s.peerDown p then .error (.bad a) else .ok t
      | _ => .ok t)
    | _ => .error (.bad a)

/-- An engine reads n bytes at their home (R285). -/
def State.engRead (s : State) (v : View) (a : W64) (n : Nat) : Except EngErr (Nat × State) :=
  match s.engTarget v a n .read with
  | .error e => .error e
  | .ok (.snap p) =>
    let s1 := ((s.touchTlb v 0 a).beforeEngine v.core (p / 128)).l2See p n false v.l2 (dieOf v.core)
    .ok (s1.loadN p n, s1)
  | .ok (.port m o) => .ok ((s.portSeen v.core m o n false v.l2).portLoad v.core m o n)
  | .ok (.arr p _) => .ok (s.loadN p n, s)

/-- A store at an aperture's port, performed at once with those that arrived there before it (R285, R337, R339). -/
def State.portStoreNow (s : State) (v : View) (m o n x : Nat) : State :=
  let r := (s.portSeen v.core m o n true v.l2).portStore v.core v.launchId m o n x
  match r.1 with
  | none => r.2
  | some _ => r.2.performApWrites (dieOf v.core) ((r.2.die (dieOf v.core)).apWrites.filter fun w => w.ap == m)

/-- An engine writes n bytes, performed at their home (R285). -/
def State.engWrite (s : State) (v : View) (a : W64) (n x : Nat) : Except EngErr State :=
  match s.engTarget v a n .write with
  | .error e => .error e
  | .ok (.snap p) => .ok (((s.touchTlb v 0 a).l2See p n true v.l2 (dieOf v.core)).storeBytes p (natBytes x n))
  | .ok (.port m o) => .ok (s.portStoreNow v m o n x)
  | .ok (.arr p _) => .ok (s.storeBytes p (natBytes x n))

/-- An engine writes a nibble of a byte (R310). -/
def State.engNibble (s : State) (v : View) (a : W64) (hi : Bool) (x : Nat) : Except EngErr State :=
  match s.engRead v a 1 with
  | .error e => .error e
  | .ok (old, s1) => s1.engWrite v a 1 (if hi then x % 16 * 16 + old % 16 else old / 16 * 16 + x % 16)

/-- The source under which a job's requests arrive: its core's, apart from the core's own (R279). -/
def engineCore (core job : Nat) : Nat := core + 8192 * (job + 1)

/-- A job adds to a counter (R311, R346): the addition leaves, after the bytes it counts were performed. -/
def State.engAdd (s : State) (v : View) (job : Nat) (site : Site) (ident : W64) (a : W64) (x : Nat) :
    Except EngErr (Nat × State) :=
  let send (p : Nat) (snap : Bool) : Except EngErr (Nat × State) :=
    .ok (s.nextId, { s with
      nextId := s.nextId + 1,
      reqs := s.reqs ++ [{ id := s.nextId, core := engineCore v.core job, gid := 0, launch := v.launchId, arr := arrayOf p,
                           own := false, snap := snap, pol := .dflt, todo := [.ctrAdd p (BitVec.ofNat 64 x) a], op := 0, acked := false, site := site,
                           arrived := none, ident := ident }] })
  match s.engTarget v a 8 .atomic with
  | .error e => .error e
  | .ok (.snap p) => send p true
  | .ok (.arr p _) => send p false
  | .ok (.port _ _) => .error (.bad a)

-- Cards (R302, R342)

/-- The word n of a card. -/
def cardWord (card : List W64) (n : Nat) : W64 := card.getD n 0

/-- The four 16-bit fields of a card's word. -/
def cardDims (card : List W64) (n : Nat) : List Nat :=
  (List.range 4).map fun d => ((cardWord card n).extractLsb' (16 * d) 16).toNat

/-- The number of positions of a window. -/
def windowSize (ns : List Nat) : Nat := ns.foldl (· * ·) 1

/-- Position p of a window, dimension 0 fastest (R304). -/
def windowPos (ns : List Nat) (p : Nat) : List Nat :=
  let n (d : Nat) : Nat := ns.getD d 1
  [p % n 0, p / n 0 % n 1, p / (n 0 * n 1) % n 2, p / (n 0 * n 1 * n 2)]

/-- The sum of two coordinates. -/
def addCo (a b : List Nat) : List Nat := (List.range 4).map fun d => a.getD d 0 + b.getD d 0

/-- A counter or error address of a card is misaligned or private (R303, R343). -/
def badPointer (a : W64) (align : Nat) : Bool := a != 0 && (a.toNat % align != 0 || spaceOf a == some .priv)

/-- The first record address that fails, with its cause (R303, order 2). -/
def State.recordErr (s : State) (v : View) (rs : List W64) : Option (Nat × W64) :=
  match rs.find? fun a => a.toNat % 64 != 0 with
  | some a => some (0x09, a)
  | none =>
    match rs.find? fun a => s.spaceErr v a 64 .read true with
    | some a => some (0x08, a)
    | none => (rs.find? fun a => s.transErr v 0 a 64 .read).map fun a => (0x0B, a)

/-- The records of a card, read through the cluster's cache (R295, R303); none while one lies in a line that is absent. -/
def State.readCard (s : State) (v : View) : List W64 → Option (List (List W64) × State)
  | [] => some ([], s)
  | a :: rest =>
    if !s.recPresent v a then none
    else
      let r := (s.touchTlb v 0 a).readRec v a
      match State.readCard r.2 v rest with
      | some (ws, s1) => some (r.1 :: ws, s1)
      | none => none

/-- The first and last byte plus one of accesses of n bytes at some addresses. -/
def boundsOf (as : List W64) (n : Nat) : Option (Nat × Nat) :=
  match as with
  | [] => none
  | a :: rest =>
    let lo := rest.foldl (fun m x => Nat.min m x.toNat) a.toNat
    let hi := rest.foldl (fun m x => Nat.max m x.toNat) a.toNat
    some (lo, hi + n)

/-- The lowest address of a range that fails R159 in tile, cluster or vault space (R303, order 5). -/
def State.rangeErr (s : State) (v : View) (lo hi : Nat) : Option Nat :=
  let n := hi - lo
  match spaceOf (BitVec.ofNat 64 lo) with
  | some .dev => none
  | some .vault =>
    let top := 0xFB00000000000000 + (64 - s.l2n) * 2 ^ 24
    if lo ≥ top then some lo else if hi > top then some top else none
  | some .tile =>
    let off := lo % 2 ^ 19
    if v.tileOk off n then none
    else if !v.tileOk off 1 then some lo
    else if off < v.blk.res + v.blk.tileKiB * 1024 then some (lo - off + v.blk.res + v.blk.tileKiB * 1024)
    else some (lo - off + 0x7FE00 + 8 * (v.blk.ctr0 + v.blk.nctr))
  | some .cl =>
    let off := lo % 2 ^ 20
    (match s.rankBlock v (lo % 2 ^ 28 / 2 ^ 20) with
      | none => some lo
      | some b =>
        if off + n ≤ b.tileSize then none else if off ≥ b.tileSize then some lo else some (lo - off + b.tileSize))
  | _ => some lo

/-- A range as keys: tile bytes by core and offset, vault bytes by die and offset, device bytes by virtual address (R315). -/
def State.rangeKeys (s : State) (v : View) (lo hi : Nat) : Nat × Nat :=
  let key : Nat := match spaceOf (BitVec.ofNat 64 lo) with
    | some .vault => vaultAddr (dieOf v.core) (lo % 2 ^ 30)
    | some .tile => tileAddr v.core (lo % 2 ^ 19)
    | some .cl => (match s.rankBlock v (lo % 2 ^ 28 / 2 ^ 20) with
        | some b => tileAddr b.core (b.res + lo % 2 ^ 20)
        | none => 2 ^ 70 + lo)
    | _ => 2 ^ 70 + lo
  (key, key + (hi - lo))

/-- Two lists of ranges meet. -/
def rangesMeet (a b : List (Nat × Nat)) : Bool := a.any fun x => b.any fun y => decide (x.1 < y.2) && decide (y.1 < x.2)

/-- The tile line of a generic address: core * 8192 + line. -/
def State.tileLine (s : State) (v : View) (a : W64) : Option Nat :=
  let k := (s.rangeKeys v a.toNat (a.toNat + 1)).1
  match spaceOf a with
  | some .tile => some ((k - 2 ^ 49) / 64)
  | some .cl => if k < 2 ^ 60 then some ((k - 2 ^ 49) / 64) else none
  | _ => none

/-- A push of a card: its first register is one of S0, S8, S16 and S24 (R301). -/
def cardRegOk (n : BitVec 5) : Bool := n.toNat % 8 == 0

/-- The card as a group's registers hold it. -/
def Group.card (g : Group) (n : BitVec 5) : List W64 := (List.range 8).map fun i => g.sget (n.toNat + i)

end Sys2Proof.Machine
end

