-- ==== Sys2Proof/Machine/Copy.lean ====
section
/-! DEFINITION. The copy engines (R302 to R316): acceptance of a card, the footprint scheduler, granules, counters and
checksums. -/

namespace Sys2Proof.Machine

-- The card (R302)

/-- Copy or fill. -/
def CopyJob.op (j : CopyJob) : Nat := (cardWord j.card 0).toNat % 16

/-- Fill with zero. -/
def CopyJob.fill (j : CopyJob) : Bool := j.op == 1

/-- Column sums are written. -/
def CopyJob.csumC (j : CopyJob) : Bool := (cardWord j.card 0).getLsbD 24

/-- Row sums are written. -/
def CopyJob.csumR (j : CopyJob) : Bool := (cardWord j.card 0).getLsbD 25

/-- Dimensions 0 and 1 of the destination are exchanged. -/
def CopyJob.transp (j : CopyJob) : Bool := (cardWord j.card 0).getLsbD 26

/-- Float results saturate. -/
def CopyJob.sat (j : CopyJob) : Bool := (cardWord j.card 0).getLsbD 27

/-- The rounding. -/
def CopyJob.rnd (j : CopyJob) : Rnd :=
  match ((cardWord j.card 0).extractLsb' 28 2).toNat with
  | 0 => .rn
  | 1 => .rz
  | 2 => .ru
  | _ => .rd

/-- SMODE. -/
def CopyJob.smode (j : CopyJob) : Nat := ((cardWord j.card 0).extractLsb' 30 2).toNat

/-- TSCALE. -/
def CopyJob.tscale (j : CopyJob) : Nat := ((cardWord j.card 0).extractLsb' 32 8).toNat

/-- MSTR. -/
def CopyJob.mstr (j : CopyJob) : Nat := ((cardWord j.card 0).extractLsb' 40 8).toNat

/-- MCNT. -/
def CopyJob.mcnt (j : CopyJob) : Nat := ((cardWord j.card 0).extractLsb' 48 8).toNat

/-- Window counts. -/
def CopyJob.window (j : CopyJob) : List Nat := cardDims j.card 5

/-- Format of the destination. -/
def CopyJob.dfmt (j : CopyJob) : Nat := layCode j.dst

/-- Dimensions 0 and 1 exchanged, for a transposed job. -/
def CopyJob.turn (j : CopyJob) (c : List Nat) : List Nat :=
  if j.transp then [c.getD 1 0, c.getD 0 0, c.getD 2 0, c.getD 3 0] else c

/-- Source coordinates of a window position (R305). -/
def CopyJob.srcCo (j : CopyJob) (p : List Nat) : List Nat := addCo (cardDims j.card 3) p

/-- Destination coordinates of a window position (R305). -/
def CopyJob.dstCo (j : CopyJob) (p : List Nat) : List Nat := addCo (cardDims j.card 4) (j.turn p)

/-- The window position of destination coordinates, if the window holds one. -/
def CopyJob.posOf (j : CopyJob) (q : List Nat) : Option (List Nat) :=
  let o := cardDims j.card 4
  let r := j.turn ((List.range 4).map fun d => q.getD d 0 - o.getD d 0)
  if ((List.range 4).all fun d => decide (o.getD d 0 ≤ q.getD d 0)) &&
      (List.range 4).all fun d => decide (r.getD d 0 < j.window.getD d 0) then some r
  else none

/-- The number of a window position in visiting order (R304). -/
def CopyJob.posIndex (j : CopyJob) (p : List Nat) : Nat :=
  let n (d : Nat) : Nat := j.window.getD d 1
  p.getD 0 0 + n 0 * (p.getD 1 0 + n 1 * (p.getD 2 0 + n 2 * p.getD 3 0))

/-- Twice the address of a destination element, plus its nibble. -/
def CopyJob.elemKey (j : CopyJob) (q : List Nat) : Nat :=
  let e := elemAddr j.dst q
  2 * e.1.toNat + if e.2 then 1 else 0

/-- The offset of multicast destination i (R313). -/
def CopyJob.castOff (j : CopyJob) (i : Nat) : W64 := BitVec.ofNat 64 (i * j.mstr * 2 ^ 20)

-- Values (R22, R306, R307)

/-- An MX block scale and element in the native format (R22). -/
def mxConvert (f : Fmt) (x code : Nat) : Nat × Nat :=
  let e : Int := (x : Int) - 127
  let moved (k : Int) (sat : Bool) : Nat := match f.dec code with
    | .fin n sg ex => (f.deliver .rn sat (dyadic n sg (ex + k))).1
    | _ => code
  if x = 0xFF then (0xFF, code)
  else if -17 ≤ e ∧ e ≤ 16 then ((e5m3.deliver .rn false (dyadic false 1 e)).1, code)
  else if e > 16 then (0xF8, moved (e - 16) true)
  else (0x01, moved (e + 17) false)

/-- The exact value of an element under its scale (R306). -/
def elemExact (fmt : Nat) (scale : Option Nat) (code : Nat) : Exact :=
  match layInt fmt with
  | some (sg, w) => let n := intOf sg w code; .num (n < 0) n.natAbs 1
  | none =>
    match layFmt fmt, scale with
    | some f, some sc => (scaledVal f sc code).1
    | some f, none => (f.dec code).exact
    | none, _ => .num false 0 1

/-- An exact value converted to an integer type (R18). -/
def exactInt (rnd : Rnd) (sg : Bool) (w : Nat) (x : Exact) : Nat :=
  match x with
  | .nan => 0
  | .inf n => wrapNat w (if n then intMin sg w else intMax sg w)
  | .num n p q =>
    let r := (roundAt rnd n p q 0).1
    wrapNat w (clampInt sg w (if n then -(r : Int) else r))

/-- An exact value converted to an element of an unscaled format, or of a scaled one under TSCALE (R306). -/
def CopyJob.convert (j : CopyJob) (x : Exact) : Nat :=
  let y := if j.smode = 1 then divExact x (e5m3.dec j.tscale).exact else x
  match layInt j.dfmt with
  | some (sg, w) => exactInt j.rnd sg w y
  | none => match layFmt j.dfmt with
    | some f => (f.deliver j.rnd j.sat y).1
    | none => 0

/-- The 16 bytes of a job's source unit (R308), read once and whole, or n bytes where no such unit can be read at the address. -/
def State.copyUnit (s : State) (v : View) (j : CopyJob) (a : W64) (n : Nat) :
    Except EngErr ((Nat × Nat × Nat) × State) :=
  let base := a &&& ~~~15#64
  match s.engRead v base 16 with
  | .ok (x, s1) => .ok ((base.toNat, 16, x), s1)
  | .error .held => .error .held
  | .error (.bad _) =>
    match s.engRead v a n with
    | .ok (x, s1) => .ok ((a.toNat, n, x), s1)
    | .error e => .error e

/-- n bytes of a job's source: from the unit that holds them if it has been read, else by reading it (R308). -/
def State.copyRead (s : State) (v : View) (j : CopyJob) (a : W64) (n : Nat) : Except EngErr (Nat × CopyJob × State) :=
  let cut (u : Nat × Nat × Nat) : Nat := u.2.2 / 2 ^ (8 * (a.toNat - u.1)) % 2 ^ (8 * n)
  match j.units.find? fun u => decide (u.1 ≤ a.toNat) && decide (a.toNat + n ≤ u.1 + u.2.1) with
  | some u => .ok (cut u, j, s)
  | none =>
    match s.copyUnit v j a n with
    | .error e => .error e
    | .ok (u, s1) => .ok (cut u, { j with units := u :: j.units }, s1)

/-- A source element inside the extents and its scale, in the native format (R22, R306). -/
def State.copySource (s : State) (v : View) (j : CopyJob) (c : List Nat) :
    Except EngErr ((Nat × Option Nat) × CopyJob × State) :=
  let f := layCode j.src
  if !inExtent j.src c then .ok ((0, none), j, s)
  else
    let e := elemAddr j.src c
    match s.copyRead v j e.1 (elemBytes f) with
    | .error x => .error x
    | .ok (w, j1, s1) =>
      let code := pickElem f e.2 w
      if isScaled f || isMx f then
        match s1.copyRead v j1 (scaleAddr j.src (blockCoord j.src 32 c)) 1 with
        | .error x => .error x
        | .ok (sc, j2, s2) =>
          if isMx f then
            let r := mxConvert ((layFmt f).getD e4m3) sc code
            .ok ((r.2, some r.1), j2, s2)
          else .ok ((code, some sc), j2, s2)
      else .ok ((code, none), j1, s1)

/-- The exact value v of a source element; +0 beyond the extents (R305, R306). -/
def State.copyExact (s : State) (v : View) (j : CopyJob) (c : List Nat) : Except EngErr (Exact × CopyJob × State) :=
  match s.copySource v j c with
  | .error x => .error x
  | .ok (r, j1, s1) => .ok (if inExtent j.src c then elemExact (layCode j.src) r.2 r.1 else .num false 0 1, j1, s1)

/-- The destination coordinates of a block's elements that the job writes (R307). -/
def CopyJob.members (j : CopyJob) (b : List Nat) : List (List Nat) :=
  ((List.range 32).map fun t => (List.range 4).map fun d =>
    if d = layKdim j.dst then 32 * b.getD d 0 + t else b.getD d 0).filter fun q =>
      inExtent j.dst q && (j.posOf q).isSome

/-- The exact values of the elements of a list of destination coordinates. -/
def State.copyExacts (s : State) (v : View) (j : CopyJob) :
    List (List Nat) → Except EngErr (List Exact × CopyJob × State)
  | [] => .ok ([], j, s)
  | q :: qs =>
    match s.copyExact v j (j.srcCo ((j.posOf q).getD [])) with
    | .error x => .error x
    | .ok (a, j1, s1) =>
      match State.copyExacts s1 v j1 qs with
      | .error x => .error x
      | .ok (as, j2, s2) => .ok (a :: as, j2, s2)

/-- The elements of a scaled format code. -/
def scFmtOf (fmt : Nat) : ScFmt := if fmt = 4 then .sc8 else if fmt = 5 then .sc8w else .sc4

/-- SMODE 2: a block's scale and codes are computed together and kept (R307). -/
def State.copyBlock (s : State) (v : View) (j : CopyJob) (b : List Nat) : Except EngErr (CopyJob × State) :=
  if j.scales.any fun e => e.1 == b then .ok (j, s)
  else
    let qs := j.members b
    match s.copyExacts v j qs with
    | .error x => .error x
    | .ok (xs, j1, s1) =>
      let sc := exactScale (scFmtOf j.dfmt) xs
      .ok ({ j1 with scales := j.scales ++ [(b, sc)],
                     codes := (qs.zip xs).foldl (fun m e =>
                       NMap.put m (j.posIndex ((j.posOf e.1).getD [])) (exactCode (scFmtOf j.dfmt) j.rnd sc e.2).1) j.codes },
        s1)

/-- The code that a window position delivers, converted once (R306, R307). -/
def State.copyCode (s : State) (v : View) (j : CopyJob) (p : List Nat) : Except EngErr (Nat × CopyJob × State) :=
  let q := j.dstCo p
  let k := j.posIndex p
  if j.fill then .ok (0, j, s)
  else if NMap.has j.codes k then .ok (NMap.get 0 j.codes k, j, s)
  else if isScaled j.dfmt && j.smode == 2 then
    match s.copyBlock v j (blockCoord j.dst 32 q) with
    | .error x => .error x
    | .ok (j1, s1) => .ok (NMap.get 0 j1.codes k, j1, s1)
  else if isScaled j.dfmt && j.smode == 0 then
    match s.copySource v j (j.srcCo p) with
    | .error x => .error x
    | .ok (r, j1, s1) => .ok (r.1, { j1 with codes := NMap.put j.codes k r.1 }, s1)
  else
    match s.copyExact v j (j.srcCo p) with
    | .error x => .error x
    | .ok (x, j1, s1) =>
      let c := j.convert x
      .ok (c, { j1 with codes := NMap.put j.codes k c }, s1)

/-- The scale byte of a destination block (R304, R307). -/
def State.copyScale (s : State) (v : View) (j : CopyJob) (b : List Nat) : Except EngErr (Nat × CopyJob × State) :=
  if j.smode = 1 then .ok (j.tscale, j, s)
  else if j.fill then .ok (0x78, j, s)
  else
    match j.scales.find? fun e => e.1 == b with
    | some e => .ok (e.2, j, s)
    | none =>
      if j.smode = 2 then
        match s.copyBlock v j b with
        | .error x => .error x
        | .ok (j1, s1) => .ok (((j1.scales.find? fun e => e.1 == b).map (·.2)).getD 0, j1, s1)
      else
        let q := (j.members b).headD []
        let c := j.srcCo ((j.posOf q).getD [])
        let sb := blockCoord j.src 32 c
        let first := (List.range 4).map fun d => if d = layKdim j.src then 32 * sb.getD d 0 else sb.getD d 0
        let keep (sc : Nat) (j : CopyJob) (s : State) : Except EngErr (Nat × CopyJob × State) :=
          .ok (sc, { j with scales := j.scales ++ [(b, sc)] }, s)
        if !inExtent j.src first then keep 0x78 j s
        else
          match s.copyRead v j (scaleAddr j.src sb) 1 with
          | .error x => .error x
          | .ok (sc, j1, s1) => keep (if isMx (layCode j.src) then (mxConvert e4m3 sc 0).1 else sc) j1 s1

/-- The window positions whose destination element is written, and among those that name one element the last. -/
def CopyJob.winners (j : CopyJob) : NMap Nat :=
  ((List.range (windowSize j.window)).filter fun p => inExtent j.dst (j.dstCo (windowPos j.window p))).foldr
    (fun p m =>
      let k := j.elemKey (j.dstCo (windowPos j.window p))
      if NMap.has m k then m else NMap.put m k p) []

-- Checksums (R312)

/-- The widened value of a written element: what the last position that names it delivered (R305). -/
def State.copyWritten (s : State) (v : View) (j : CopyJob) (q : List Nat) : Except EngErr (Val × CopyJob × State) :=
  let code := NMap.get 0 j.codes (NMap.get 0 j.winners (j.elemKey q))
  if j.fill then .ok (.fin false 0 0, j, s)
  else
    match layInt j.dfmt with
    | some (sg, w) => let n := intOf sg w code; .ok (.fin (n < 0) n.natAbs 0, j, s)
    | none =>
      if isScaled j.dfmt then
        match s.copyScale v j (blockCoord j.dst 32 q) with
        | .error x => .error x
        | .ok (sc, j1, s1) => .ok (fp32.dec (widenElem j.dfmt (some sc) code).1.toNat, j1, s1)
      else .ok (fp32.dec (widenElem j.dfmt none code).1.toNat, j, s)

/-- The written elements that a sum adds up. -/
def CopyJob.summed (j : CopyJob) (cols : Bool) (i : Nat) : List (List Nat) :=
  let o := cardDims j.card 4
  let n := (j.turn j.window)
  ((List.range (n.getD (if cols then 0 else 1) 0)).map fun k =>
    [o.getD 0 0 + (if cols then k else i), o.getD 1 0 + (if cols then i else k), o.getD 2 0, o.getD 3 0]).filter
      (inExtent j.dst)

/-- The values of the written elements of a list. -/
def State.copyVals (s : State) (v : View) : CopyJob → List (List Nat) → Except EngErr (List Val × CopyJob × State)
  | j, [] => .ok ([], j, s)
  | j, q :: qs =>
    match s.copyWritten v j q with
    | .error x => .error x
    | .ok (a, j1, s1) =>
      match State.copyVals s1 v j1 qs with
      | .error x => .error x
      | .ok (as, j2, s2) => .ok (a :: as, j2, s2)

/-- A sum, rounded once. -/
def State.copySum (s : State) (v : View) (j : CopyJob) (cols : Bool) (i : Nat) : Except EngErr (Nat × CopyJob × State) :=
  match s.copyVals v j (j.summed cols i) with
  | .error x => .error x
  | .ok (xs, j1, s1) => .ok ((fp32.deliver .rn false (sumVals .rn xs).1).1, j1, s1)

-- What a job writes (R304, R305, R307, R312)

/-- The destination blocks that the job writes, each once. -/
def CopyJob.blocks (j : CopyJob) (ps : List Nat) : List (List Nat) :=
  if !isScaled j.dfmt || (j.fill && j.smode == 0) then []
  else ps.foldl (fun bs p =>
    let b := blockCoord j.dst 32 (j.dstCo (windowPos j.window p))
    if bs.contains b then bs else bs ++ [b]) []

/-- The record of a sum. -/
def CopyJob.sumRec (j : CopyJob) (cols : Bool) : List W64 := if cols then j.colRec else j.rowRec

/-- The sums that the job writes, with the address of each. -/
def CopyJob.sums (j : CopyJob) : List (W64 × CopyItem) :=
  let one (cols : Bool) : List (W64 × CopyItem) :=
    ((List.range ((j.turn j.window).getD (if cols then 1 else 0) 0)).filter fun i => inExtent (j.sumRec cols) [i, 0, 0, 0]).map
      fun i => ((elemAddr (j.sumRec cols) [i, 0, 0, 0]).1, .sum cols i)
  (if j.csumR then one false else []) ++ if j.csumC then one true else []

/-- Consecutive items of one 32-byte granule together (R310). -/
def granulesOf : List (W64 × CopyItem) → List Granule
  | [] => []
  | (a, x) :: rest =>
    match granulesOf rest with
    | [] => [{ addr := a &&& ~~~31#64, items := [(a, x)] }]
    | g :: gs =>
      if g.addr = a &&& ~~~31#64 then { g with items := (a, x) :: g.items } :: gs
      else { addr := a &&& ~~~31#64, items := [(a, x)] } :: g :: gs

/-- Sorts items by address. -/
def insertItem (x : W64 × CopyItem) : List (W64 × CopyItem) → List (W64 × CopyItem)
  | [] => [x]
  | y :: ys => if x.1.toNat ≤ y.1.toNat then x :: y :: ys else y :: insertItem x ys

/-- The granules of a job (R310, R313). -/
def CopyJob.granules (j : CopyJob) : List Granule :=
  let w := j.winners
  let elems := w.map fun e => (BitVec.ofNat 64 (e.1 / 2), CopyItem.elem e.2)
  let scales := ((j.blocks (w.map (·.2))).map fun b => (scaleAddr j.dst b, CopyItem.scale b)).foldr insertItem []
  ((List.range (j.mcnt + 1)).flatMap fun i => granulesOf (elems.map fun e => (e.1 + j.castOff i, e.2))) ++
    granulesOf scales ++ granulesOf (j.sums.foldr insertItem [])

-- Footprint (R303 order 5, R315)

/-- The source positions inside the extents. -/
def CopyJob.srcPoints (j : CopyJob) : List (List Nat) :=
  if j.fill then []
  else ((List.range (windowSize j.window)).map fun p => j.srcCo (windowPos j.window p)).filter (inExtent j.src)

/-- The bounding ranges that the job reads: elements, then scales. -/
def CopyJob.readBounds (j : CopyJob) : List (Nat × Nat) :=
  let ps := j.srcPoints
  let f := layCode j.src
  (boundsOf (ps.map fun c => (elemAddr j.src c).1) (elemBytes f)).toList ++
    if isScaled f || isMx f then (boundsOf (ps.map fun c => scaleAddr j.src (blockCoord j.src 32 c)) 1).toList else []

/-- The bounding ranges that the job writes: each destination, scales, sums. -/
def CopyJob.writeBounds (j : CopyJob) : List (Nat × Nat) :=
  let w := j.winners
  let elems := boundsOf (w.map fun e => BitVec.ofNat 64 (e.1 / 2)) (elemBytes j.dfmt)
  let sum (cols : Bool) : List (Nat × Nat) :=
    (boundsOf ((j.sums.filter fun e => match e.2 with
      | .sum c _ => c == cols
      | _ => false).map (·.1)) 4).toList
  (match elems with
    | none => []
    | some (lo, hi) => (List.range (j.mcnt + 1)).map fun i => (lo + i * j.mstr * 2 ^ 20, hi + i * j.mstr * 2 ^ 20)) ++
    (boundsOf ((j.blocks (w.map (·.2))).map (scaleAddr j.dst)) 1).toList ++ sum false ++ sum true

/-- The multicast ranks at or beyond the array's size, by the first byte that each would write (R313). -/
def State.rankErrs (s : State) (v : View) (j : CopyJob) : List Nat :=
  if j.mcnt = 0 then []
  else
    let base := recWord j.dst 0
    let r0 := base.toNat % 2 ^ 28 / 2 ^ 20
    let lo := ((j.writeBounds.head?).map (·.1)).getD base.toNat
    ((List.range (j.mcnt + 1)).filter fun i =>
      decide (r0 + i * j.mstr ≥ 256) || (s.rankBlock v (r0 + i * j.mstr)).isNone).map fun i => lo + i * j.mstr * 2 ^ 20

/-- The lowest address that fails order 5. -/
def State.copyRangeErr (s : State) (v : View) (j : CopyJob) : Option Nat :=
  let bad := s.rankErrs v j ++ (j.readBounds ++ j.writeBounds).filterMap fun r => s.rangeErr v r.1 r.2
  match bad with
  | [] => none
  | a :: as => some (as.foldl Nat.min a)

-- The checks of the formats (R303 order 4)

/-- The address of the first record that order 4 fails. -/
def CopyJob.formatErr (j : CopyJob) : Option W64 :=
  let sf := layCode j.src
  let df := j.dfmt
  let so := cardDims j.card 3
  let n := j.window
  let flat := n.getD 2 0 == 1 && n.getD 3 0 == 1
  let native := if sf = 17 then 4 else if sf = 18 then 5 else if sf = 19 then 6 else sf
  let sk := layKdim j.src
  let moved := if j.transp && sk == 0 then 1 else if j.transp && sk == 1 then 0 else sk
  let scaledOk := (cardDims j.card 4).getD (layKdim j.dst) 0 % 32 == 0 &&
    (j.fill || j.smode != 0 || (native == df && so.getD sk 0 % 32 == 0 && moved == layKdim j.dst))
  if !j.fill && (!layOk j.src || isTw sf) then some (cardWord j.card 1)
  else if !layOk j.dst || isTw df || decide (df > 16) then some (cardWord j.card 2)
  else if isScaled df && !scaledOk then some (cardWord j.card 2)
  else if !isScaled df && j.smode == 2 then some (cardWord j.card 2)
  else if j.csumR && (!flat || !layOk j.rowRec || layCode j.rowRec != 11) then some (cardWord j.card 2 + 64)
  else if j.csumC && (!flat || !layOk j.colRec || layCode j.colRec != 11) then some (cardWord j.card 2 + 128)
  else none

/-- The card fails order 1 (R303). -/
def copyCardBad (card : List W64) : Bool :=
  let c0 := cardWord card 0
  let op := c0.toNat % 16
  let smode := (c0.extractLsb' 30 2).toNat
  let ts := (c0.extractLsb' 32 8).toNat
  c0.extractLsb' 56 8 != 0 || c0.extractLsb' 4 20 != 0 || decide (op > 1) || smode == 3 ||
    (smode == 1 && (ts == 0 || ts == 0xFF)) || (op == 1 && (cardWord card 1 != 0 || cardWord card 3 != 0)) ||
    badPointer (cardWord card 6) 8 || badPointer (cardWord card 7) 8

/-- The record addresses of a card: source, destination, row sums, column sums. -/
def copyRecords (card : List W64) : List W64 :=
  let c0 := cardWord card 0
  let c2 := cardWord card 2
  (if c0.toNat % 16 = 1 then [] else [cardWord card 1]) ++ [c2] ++ (if c0.getLsbD 25 then [c2 + 64] else []) ++
    if c0.getLsbD 24 then [c2 + 128] else []

/-- The counters of a card whose window holds no position: they are added to at acceptance (R311). -/
def emptyCounters (card : List W64) : List W64 :=
  if windowSize (cardDims card 5) = 0 then [cardWord card 6, cardWord card 7].filter fun a => a != 0 else []

-- Acceptance (R303)

/-- A job of a card with the records in the order of `copyRecords`. -/
def copyJobOf (c : Ctx) (home : Block) (site : Site) (id : Nat) (ident : W64) (card : List W64) (recs : List (List W64)) : CopyJob :=
  let c0 := cardWord card 0
  let rest := if c0.toNat % 16 = 1 then recs else recs.drop 1
  let sums := rest.drop 1
  { id := id, core := c.core, gid := c.gid, launch := c.g.launch, blk := c.g.blk, site := site, ident := ident,
    card := card, src := if c0.toNat % 16 = 1 then [] else recs.headD [], dst := rest.headD [],
    rowRec := if c0.getLsbD 25 then sums.headD [] else [],
    colRec := if c0.getLsbD 24 then (if c0.getLsbD 25 then sums.drop 1 else sums).headD [] else [],
    cleared := [], reads := [], writes := [], home := home, units := [], scales := [], codes := [], engine := none, todo := [], adds := [] }

/-- Requester identifier of the n-th job that the group pushes to a queue (R381): kind 1 XC, 2 XE. -/
def Ctx.jobIdent (c : Ctx) (v : View) (kind n : Nat) : W64 := requester kind v.la.member v.blk.index c.g.gix n

/-- An accepted job: its footprint, its granules, and the lines whose presence bit it clears (R309, R315). -/
def State.planCopy (s : State) (v : View) (j : CopyJob) : CopyJob :=
  let gs := j.granules
  let lines := (gs.flatMap fun g => g.items.filterMap fun e => s.tileLine v e.1).foldl
    (fun ls k => if ls.contains k then ls else ls ++ [k]) []
  { j with todo := gs, cleared := lines, reads := j.readBounds.map fun r => s.rangeKeys v r.1 r.2,
           writes := j.writeBounds.map fun r => s.rangeKeys v r.1 r.2 }

/-- A counter's addition of a job, if its card names the counter; the identifiers of the requests sent. -/
def State.copyAdd (s : State) (v : View) (j : CopyJob) (word x : Nat) : Except EngErr (List Nat × State) :=
  if cardWord j.card word = 0 then .ok ([], s)
  else match s.engAdd v j.id j.site j.ident (cardWord j.card word) x with
    | .error e => .error e
    | .ok (n, s1) => .ok ([n], s1)

/-- The end of an access that an engine's job could not make: a walk that is held is made again, a fault kills (R314). -/
def State.engineErr (s : State) (v : View) (launch : Nat) (site : Site) (e : EngErr) : State :=
  match e with
  | .held => s
  | .bad a => (s.touchTlb v 0 a).killLaunch launch 0x30 a site

/-- A job of no position completes at acceptance (R311). -/
def State.emptyCopy (s : State) (v : View) (j : CopyJob) : State :=
  match s.copyAdd v j 6 0 with
  | .error e => s.engineErr v j.launch j.site e
  | .ok (_, s1) =>
    match s1.copyAdd v j 7 1 with
    | .error e => s1.engineErr v j.launch j.site e
    | .ok (_, s2) => s2.traceEngine j.launch 8 0 j.site

/-- A job that passed its checks is accepted. -/
def State.acceptCopy (s : State) (c : Ctx) (v : View) (j : CopyJob) (d : Option (BitVec 5)) (tl : Tail) : State :=
  let s1 := (State.modGroup { s with nextId := s.nextId + 1 } c.gid fun g => { g with xcCount := g.xcCount + 1 }).takeSeq c 0 d tl
  if windowSize j.window = 0 then s1.emptyCopy v j
  else
    let j1 := s1.planCopy v j
    State.clearPresent { s1 with copies := s1.copies ++ [j1] } j1.cleared

/-- xpush.xc (R301, R303). -/
def execXpushXc (d : Option (BitVec 5)) (n : BitVec 5) (tl : Tail) (s : State) : Result :=
  issueAsync Ctx.outside [] tl (fun c s =>
    let v := s.viewOf c.gid c.g
    let card := c.g.card n
    let rs := copyRecords card
    if !cardRegOk n then c.illegalOperand
    else if !(s.tileReqsOf c.gid).isEmpty || decide ((s.copies.filter fun j => j.core == c.core).length ≥ 16) then .stall
    else if copyCardBad card then c.illegalOperand
    else if (rs ++ emptyCounters card).any fun a => s.heldAddr v 0 a then .stall
    else match s.recordErr v rs with
      | some (code, a) => c.fault code a c.em
      | none =>
        match s.readCard v rs with
        | none => .stall
        | some (recs, s1) =>
          let j := copyJobOf c v.blk (s1.siteOf c.g c.cl.pc) s1.nextId (c.jobIdent v 1 c.g.xcCount) card recs
          if j.mcnt != 0 && spaceOf (recWord j.dst 0) != some .cl then c.illegalOperand
          else match j.formatErr with
            | some a => c.fault 0x0C a c.em
            | none =>
              match s1.copyRangeErr v j with
              | some a => c.fault 0x08 (BitVec.ofNat 64 a) c.em
              | none => .ok (s1.acceptCopy c v j d tl)) s

-- Running (R308 to R316)

/-- The view of a copy job. -/
def State.copyView (s : State) (j : CopyJob) : View := 
  s.jobView j.core j.gid j.blk j.launch j.home (3, clusterOf j.core % 2 * 8 + j.engine.getD 0)

/-- An accepted job has an edge from an earlier one (R315). -/
def CopyJob.after (j i : CopyJob) : Bool :=
  rangesMeet j.reads i.writes || rangesMeet j.writes i.reads || rangesMeet j.writes i.writes

/-- The jobs of a cluster accepted before one. -/
def State.copiesBefore (s : State) (j : CopyJob) : List CopyJob :=
  (s.copies.takeWhile fun i => i.id != j.id).filter fun i => clusterOf i.core == clusterOf j.core

/-- Replaces a job. -/
def State.putCopy (s : State) (j : CopyJob) : State :=
  { s with copies := s.copies.map fun i => if i.id = j.id then j else i }

/-- Some units of the source are read now: each by a free choice (R308, log entry 2). The list holds addresses in them, with
the bytes read where no whole unit can be. -/
def State.copyAhead (s : State) (v : View) : CopyJob → List (W64 × Nat) → CopyJob × State
  | j, [] => (j, s)
  | j, (a, n) :: as =>
    let k := s.pick 2
    if k.1 = 0 then State.copyAhead k.2 v j as
    else match k.2.copyRead v j a n with
      | .ok (_, j1, s1) => State.copyAhead s1 v j1 as
      | .error _ => State.copyAhead k.2 v j as

/-- The addresses of a job's source elements and scales. -/
def CopyJob.sources (j : CopyJob) : List (W64 × Nat) :=
  let f := layCode j.src
  j.srcPoints.map (fun c => ((elemAddr j.src c).1, elemBytes f)) ++
    if isScaled f || isMx f then j.srcPoints.map fun c => (scaleAddr j.src (blockCoord j.src 32 c), 1) else []

/-- COPY_JOB_START (R315). -/
def execCopyJobStart (job engine : Nat) (s : State) : Result :=
  .next (match s.copies.find? fun j => j.id == job with
    | none => s
    | some j =>
      if j.engine.isSome || decide (engine ≥ 8) ||
          (s.copies.any fun i => clusterOf i.core == clusterOf j.core && i.engine == some engine) ||
          (s.copiesBefore j).any j.after then s
      else
        let r := s.copyAhead (s.copyView { j with engine := some engine }) { j with engine := some engine } j.sources
        r.2.putCopy r.1)

/-- The bytes of an item, with the job's caches and the state after. -/
def State.copyItem (s : State) (v : View) (j : CopyJob) (x : CopyItem) : Except EngErr (Nat × CopyJob × State) :=
  match x with
  | .elem p => s.copyCode v j (windowPos j.window p)
  | .scale b => s.copyScale v j b
  | .sum cols i => s.copySum v j cols i

/-- Writes the items of a granule. -/
def State.landItems (s : State) (v : View) : CopyJob → List (W64 × CopyItem) → Except EngErr (CopyJob × State)
  | j, [] => .ok (j, s)
  | j, (a, x) :: rest =>
    match s.copyItem v j x with
    | .error e => .error e
    | .ok (w, j1, s1) =>
      let put : Except EngErr State := match x with
        | .elem p =>
          if fourBit j.dfmt then s1.engNibble v a (elemAddr j.dst (j.dstCo (windowPos j.window p))).2 w
          else s1.engWrite v a (elemBytes j.dfmt) w
        | .scale _ => s1.engWrite v a 1 w
        | .sum _ _ => s1.engWrite v a 4 w
      match put with
      | .error e => .error e
      | .ok s2 => State.landItems s2 v j1 rest

/-- The distinct data bytes of a granule (R311). -/
def CopyJob.dataBytes (j : CopyJob) (g : Granule) : Nat :=
  (g.items.foldl (fun (as : List W64) e => match e.2 with
    | .elem _ => if as.contains e.1 then as else e.1 :: as
    | _ => as) []).length * elemBytes j.dfmt

/-- A granule of checksums. -/
def Granule.sums (g : Granule) : Bool := g.items.all fun e => match e.2 with
  | .sum _ _ => true
  | _ => false

/-- The lines on which a job's last byte has landed become present once no other job holds them (R309). -/
def State.settleLines (s : State) (v : View) (j : CopyJob) : State :=
  let left := j.todo.flatMap fun g => g.items.filterMap fun e => s.tileLine v e.1
  let done := j.cleared.filter fun k => !left.contains k
  let s1 := s.putCopy { j with cleared := j.cleared.filter left.contains }
  s1.setPresent (done.filter fun k => s1.copies.all fun i => !i.cleared.contains k)

/-- GRANULE_LANDED (R310): one granule, the checksums last; units of the source may be read before it. -/
def execGranuleLanded (job : Nat) (s : State) : Result :=
  .next (match s.copies.find? fun j => j.id == job && j.engine.isSome with
    | none => s
    | some j =>
      let data := j.todo.filter fun g => !g.sums
      let cands := if data.isEmpty then j.todo else data
      let k := s.pick cands.length
      match cands.drop k.1 with
      | [] => s
      | g :: after =>
        let v := s.copyView j
        let r := k.2.copyAhead v j j.sources
        let rest := cands.take k.1 ++ after ++ if data.isEmpty then [] else j.todo.filter Granule.sums
        match r.2.landItems v { r.1 with todo := rest } g.items with
        | .error e => s.engineErr (s.copyView j) j.launch j.site e
        | .ok (j1, s1) =>
          let n := j.dataBytes g
          if n = 0 then s1.settleLines v j1
          else match s1.copyAdd v j1 6 n with
            | .error e => s.engineErr (s.copyView j) j.launch j.site e
            | .ok (ids, s2) => s2.settleLines v { j1 with adds := j1.adds ++ ids })

/-- COPY_JOB_COMPLETE (R311). -/
def execCopyJobComplete (job : Nat) (s : State) : Result :=
  .next (match s.copies.find? fun j => j.id == job && j.engine.isSome with
    | none => s
    | some j =>
      if !j.todo.isEmpty || j.adds.any fun n => s.reqs.any fun r => r.id == n then s
      else match s.copyAdd (s.copyView j) j 7 1 with
        | .error e => s.engineErr (s.copyView j) j.launch j.site e
        | .ok (_, s1) =>
          let s2 : State := State.traceEngine { s1 with copies := s1.copies.filter fun i => i.id != job } j.launch 8 0 j.site
          s2.tryEndBlocks (s2.blocks.map (·.1)))

end Sys2Proof.Machine
end

