-- ==== Sys2Proof/Machine/Cross.lean ====
section
/-! DEFINITION. The member-mask instructions (R104 to R110), trellis decoding (R24, R115, R116), the mask instructions
(R95), and the routing table (R97). -/

namespace Sys2Proof.Machine

/-- An operand's members' values in ascending lane order. -/
def Ctx.memberVals (c : Ctx) (m : MaskOp) (a : Operand) : List W32 :=
  (laneList (c.members m)).map fun l => c.g.read32 c.rank .word a l

/-- The truth value of mtest (R105). -/
def mtestValue (op : MTest) (xs : List W32) : Bool :=
  match op with
  | .any => xs.any (· != 0)
  | .all => xs.all (· != 0)
  | .same => match xs with
    | [] => true
    | x :: rest => rest.all (· == x)

/-- A 64-bit result of a member-mask instruction that is uniform: S takes it whole, CM takes a truth value. -/
def Group.writeUniform (g : Group) (em : LaneMask) (d : Dest) (cleared : Bool) (x : W64) (t : Bool) : Group :=
  let g := g.settleFps cleared 0
  match d with
  | .s r => g.sset r.toNat x
  | .sp .cm => g.setCm em fun _ => t
  | _ => g

/-- mtest (R105). -/
def execMtest (op : MTest) (d : Dest) (a : Operand) (m : MaskOp) (tl : Tail) (s : State) : Result :=
  issueMember m [.src a] tl (fun c s =>
    let t := mtestValue op (c.memberVals m a)
    .ok (s.put c (c.g.writeUniform c.em d (Use.src a).readsFps (if t then 1 else 0) t))) s

/-- mbits (R105): the members whose value is not zero. -/
def execMbits (d : Dest) (a : Operand) (m : MaskOp) (tl : Tail) (s : State) : Result :=
  issueMember m [.src a, .dst d false] tl (fun c s =>
    let x := maskOf fun l => (c.members m).getLsbD l && c.g.read32 c.rank .word a l != 0
    .ok (s.put c (c.g.write32 c.em d false (Use.src a).readsFps fun _ => (x, 0)))) s

/-- The identity of a fold (R106). -/
def foldIdentity (op : FoldOp) (ty : FoldTy) : W32 :=
  match op, ty with
  | .add, _ => 0
  | .min, .i32 => 0x7FFFFFFF
  | .min, .n32 => 0xFFFFFFFF
  | .min, .f32 => 0x7F800000
  | .max, .i32 => 0x80000000
  | .max, .n32 => 0
  | .max, .f32 => 0xFF800000
  | .and, _ => 0xFFFFFFFF
  | .or, _ => 0
  | .xor, _ => 0

/-- One step of a fold, with its flags (R106). -/
def foldStep (op : FoldOp) (ty : FoldTy) (r x : W32) : W32 × FpFlags :=
  match op, ty with
  | .add, .f32 =>
    let v := exactAdd .rn (fp32.dec r.toNat) (fp32.dec x.toNat)
    let y := fp32.deliver .rn false v.1
    (BitVec.ofNat 32 y.1, y.2 ||| v.2)
  | .min, .f32 => let y := fp32.minmax false false r.toNat x.toNat; (BitVec.ofNat 32 y.1, y.2)
  | .max, .f32 => let y := fp32.minmax true false r.toNat x.toNat; (BitVec.ofNat 32 y.1, y.2)
  | .add, _ => (r + x, 0)
  | .min, .i32 => (if r.slt x then r else x, 0)
  | .min, .n32 => (if r.ult x then r else x, 0)
  | .max, .i32 => (if r.slt x then x else r, 0)
  | .max, .n32 => (if r.ult x then x else r, 0)
  | .and, _ => (r &&& x, 0)
  | .or, _ => (r ||| x, 0)
  | .xor, _ => (r ^^^ x, 0)

/-- A NaN result of a float fold is canonical, also that of a single member (R10, R106). -/
def canonicalFold (ty : FoldTy) (x : W32) : W32 :=
  if ty = .f32 && (fp32.dec x.toNat).isNan then 0x7FC00000 else x

/-- A fold of values in ascending lane order (R106). -/
def foldVals (op : FoldOp) (ty : FoldTy) (xs : List W32) : W32 × FpFlags :=
  match xs with
  | [] => (foldIdentity op ty, 0)
  | x :: rest =>
    let r := rest.foldl (fun acc y => let r := foldStep op ty acc.1 y; (r.1, acc.2 ||| r.2)) (x, 0)
    (canonicalFold ty r.1, r.2)

/-- mfold (R106). -/
def execMfold (op : FoldOp) (ty : FoldTy) (d : Dest) (a : Operand) (m : MaskOp) (tl : Tail) (s : State) : Result :=
  issueMember m [.src a, .dst d false] tl (fun c s =>
    let r := foldVals op ty (c.memberVals m a)
    .ok (s.put c ((c.g.write32 c.em d (ty == .i32) (Use.src a).readsFps fun _ => (r.1, 0)).orFlags r.2))) s

/-- scan (R106): the fold of the members up to, or before, each lane. Its pseudocode makes the steps of the inclusive fold
in either form, so their flags are set in either. -/
def execScan (op : FoldOp) (ty : FoldTy) (ex : Bool) (d : Dest) (a : Operand) (m : MaskOp) (tl : Tail) (s : State) :
    Result :=
  issueMember m [.src a, .dst d false] tl (fun c s =>
    let at_ (l : Nat) : W32 × FpFlags :=
      let vals (p : Nat → Bool) : List W32 := ((laneList (c.members m)).filter p).map fun k => c.g.read32 c.rank .word a k
      let r := foldVals op ty (vals fun k => decide (k ≤ l))
      if ex then ((foldVals op ty (vals fun k => decide (k < l))).1, r.2) else r
    .ok (s.put c (c.g.write32 c.em d false (Use.src a).readsFps at_))) s

/-- The source lane of lperm (R107). -/
def lpermLane (mode : LpMode) (l b : Nat) : Nat :=
  match mode with
  | .idx => b % 32
  | .up => if b % 64 ≤ l then l - b % 64 else l
  | .down => if l + b % 64 ≤ 31 then l + b % 64 else l
  | .xor => Nat.xor l (b % 32)

/-- lperm (R107): a source lane outside the members supplies the lane's own value. -/
def execLperm (mode : LpMode) (d : Dest) (a b : Operand) (m : MaskOp) (tl : Tail) (s : State) : Result :=
  issueMember m [.src a, .src b, .dst d false] tl (fun c s =>
    let f (l : Nat) : W32 :=
      let k := lpermLane mode l (c.g.read32 c.rank .word b l).toNat
      c.g.read32 c.rank .word a (if (c.members m).getLsbD k then k else l)
    .ok (s.put c (c.g.write32 c.em d false ([Use.src a, Use.src b].any Use.readsFps) fun l => (f l, 0)))) s

/-- mpeers (R108): the members that hold the same bits. -/
def execMpeers (wide : Bool) (d : Dest) (a : Operand) (m : MaskOp) (tl : Tail) (s : State) : Result :=
  let u : Use := if wide then .src64 a else .src a
  issueMember m [u, .dst d false] tl (fun c s =>
    let x (l : Nat) : W64 := if wide then c.g.read64 c.rank a l else (c.g.read32 c.rank .word a l).setWidth 64
    let f (l : Nat) : W32 := maskOf fun k => (c.members m).getLsbD k && x k == x l
    .ok (s.put c (c.g.write32 c.em d false u.readsFps fun l => (f l, 0)))) s

/-- mlow (R109): the lowest lane of EM. -/
def execMlow (d : Dest) (m : MaskOp) (tl : Tail) (s : State) : Result :=
  issueMember m [] tl (fun c s =>
    let low := lowestLane c.em
    let x : W64 := match low with
      | none => 0xFFFFFFFFFFFFFFFF
      | some l => BitVec.ofNat 64 l
    let g := match d with
      | .sp .cm => c.g.setCm c.em fun l => low == some l
      | .s r => c.g.sset r.toNat x
      | _ => c.g
    .ok (s.put c g)) s

/-- lsync (R110): only the meeting at the header. -/
def execLsync (m : MaskOp) (tl : Tail) (s : State) : Result :=
  issueMember m [] tl (fun _ s => .ok s) s

-- Trellis decoding

/-- The 16-bit window of a weight in a bitstream of 256 k bits (R24). -/
def trellisWindow (bits : Nat) (k i : Nat) : Nat :=
  (List.range 16).foldl (fun v j => v + bits / 2 ^ ((k * i + j) % (256 * k)) % 2 * 2 ^ j) 0

/-- The unscaled weight of a window, in units of 2^-7 (R24). -/
def trellisValue (v : Nat) : Int :=
  let h0 := v * 0x2C9277B5 % 2 ^ 32
  let h := Nat.xor h0 (h0 / 2 ^ 15)
  [0, 1, 2, 3].foldl (fun acc n => acc + intOf true 8 (h / 2 ^ (8 * n))) 0

/-- The bitstream a window register holds: a half for k = 1, all of it for k = 2 (R112). -/
def Group.trellisBits (g : Group) (w : Nat) (k2 hi : Bool) : Nat :=
  let x := (g.wget w).toNat
  if k2 then x else if hi then x / 2 ^ 256 else x % 2 ^ 256

/-- A weight s in units of 2^-7 as an exact value. -/
def weightExact (s : Int) : Exact := .num (s < 0) s.natAbs 128

/-- The result of tdec for a weight and a scale (R115). -/
def tdecValue (fmt : TdecFmt) (s : Int) (sc : Nat) : W32 × FpFlags :=
  match fmt with
  | .f32 _ =>
    if sc = 0xFF then (0x7FC00000, 0)
    else match (e5m3.dec sc).exact with
      | .num _ p q => (BitVec.ofNat 32 (fp32.deliver .rn false (.num (s < 0) (s.natAbs * p) (128 * q))).1, 0)
      | _ => (0x7FC00000, 0)
  | .f16 => (BitVec.ofNat 32 (fp16.deliver .rn false (weightExact s)).1, 0)
  | .e4m3 => let r := e4m3.deliver .rn false (weightExact s); (BitVec.ofNat 32 r.1, r.2 &&& fIX)
  | .s => (BitVec.ofInt 32 s, 0)

/-- The scale operand of tdec. -/
def tdecUses : TdecFmt → List Use
  | .f32 b => [.src b]
  | _ => []

/-- tdec (R115). -/
def execTdec (w : BitVec 2) (k2 hi : Bool) (fmt : TdecFmt) (d : Dest) (a : Operand) (tl : Tail) (s : State) : Result :=
  alu32 (.src a :: tdecUses fmt) d tl false (fun g k l =>
    let i := (g.read32 k .word a l).toNat % 256
    let sc := match fmt with
      | .f32 b => (g.read32 k .word b l).toNat % 256
      | _ => 0
    tdecValue fmt (trellisValue (trellisWindow (g.trellisBits w.toNat k2 hi) (if k2 then 2 else 1) i)) sc) s

/-- The format of tdec2's halves (R116). -/
def tdec2Fmt : Tdec2Fmt → Fmt
  | .f16x2 => fp16
  | .bf16x2 => bf16
  | .e4m3x2 => e4m3

/-- tdec2 (R116): two consecutive weights of a block, packed. -/
def execTdec2 (w : BitVec 2) (k2 hi : Bool) (fmt : Tdec2Fmt) (d : Dest) (a : Operand) (tl : Tail) (s : State) : Result :=
  alu32 [.src a] d tl false (fun g k l =>
    let i := (g.read32 k .word a l).toNat % 256
    let bits := g.trellisBits w.toNat k2 hi
    let n := if k2 then 2 else 1
    let f := tdec2Fmt fmt
    let lo := f.deliver .rn false (weightExact (trellisValue (trellisWindow bits n i)))
    let h := f.deliver .rn false (weightExact (trellisValue (trellisWindow bits n ((i + 1) % 256))))
    (BitVec.ofNat 32 (lo.1 + h.1 * 2 ^ fmtWidth f), (lo.2 ||| h.2) &&& fIX)) s

-- Mask instructions

/-- A mask instruction on EN with an operand read once per issue (R95). -/
def aluEn (a : Operand) (tl : Tail) (f : LaneMask → LaneMask → LaneMask) (s : State) : Result :=
  issue [.src a] tl (fun c s =>
    let x := (c.g.read64 c.rank a 0).setWidth 32
    .ok (s.put c { c.g.settleFps (Use.src a).readsFps 0 with en := f c.g.en x })) s

/-- ensave (R95). -/
def execEnsave (d : BitVec 5) (tl : Tail) (s : State) : Result :=
  issue [] tl (fun c s => .ok (s.put c (c.g.sset d.toNat (c.g.en.setWidth 64)))) s

/-- enrest (R95). -/
def execEnrest (a : Operand) (tl : Tail) (s : State) : Result := aluEn a tl (fun _ x => x) s

/-- enand (R95). -/
def execEnand (a : Operand) (tl : Tail) (s : State) : Result := aluEn a tl (fun e x => e &&& x) s

/-- enor (R95). -/
def execEnor (a : Operand) (tl : Tail) (s : State) : Result := aluEn a tl (fun e x => e ||| x) s

/-- enandn (R95). -/
def execEnandn (a : Operand) (tl : Tail) (s : State) : Result := aluEn a tl (fun e x => e &&& ~~~x) s

/-- cmget (R95): all ones or zero per lane; it pushes nothing. -/
def execCmget (d : BitVec 6) (tl : Tail) (s : State) : Result :=
  issue [.regs d 1 1] tl (fun c s =>
    .ok (s.put c (c.g.vsetLanes d.toNat (fun l => if c.g.cm.getLsbD l then 0xFFFFFFFF else 0) (laneList c.em)))) s

/-- cmset (R95). -/
def execCmset (a : Operand) (tl : Tail) (s : State) : Result :=
  aluCm [.src a] tl (fun g k l => (g.read32 k .word a l != 0, 0)) s

/-- setrt (R97). -/
def execSetrt (n : BitVec 3) (e : BitVec 16) (tl : Tail) (s : State) : Result :=
  issue [] tl (fun c s => .ok (s.put c { c.g with t := NMap.set 0 c.g.t n.toNat e })) s

/-- A matrix instruction of a group that is in flight in its block's context (R96). -/
def MatCtx.busyFor (x : MatCtx) (gid : Nat) : Bool := x.ops.any fun o => o.gid == gid

/-- The group slot of a block that holds the group of a GIX, if it exists: one without a live lane does not (log
entry 85). -/
def State.groupOf (s : State) (blk gix : Nat) : Option Nat :=
  (s.groups.find? fun e => e.2.blk == blk && e.2.gix == gix && e.2.live != 0).map (·.1)

/-- setab (R96): the window of a group of the block, set by the block's first group. -/
def execSetab (a b cc : Operand) (tl : Tail) (s : State) : Result :=
  issue [] tl (fun c s =>
    let x := c.g.read64 c.rank a 0
    let y := c.g.read64 c.rank b 0
    let z := c.g.read64 c.rank cc 0
    match s.block? c.g.blk with
    | none => c.illegalOperand
    | some blk =>
      match blk.ctx with
      | none => c.illegalOperand
      | some n =>
        if c.g.gix != 0 || x.toNat > y.toNat || y.toNat > 256 then c.illegalOperand
        else match s.groupOf c.g.blk z.toNat with
          | none => c.illegalOperand
          | some gid =>
            if ((s.core c.core).ctx n).busyFor gid || s.asyncs.any (fun o => o.gid == gid && o.mrd.isSome) then .stall
            else .ok (s.modGroup gid fun g => { g with ab := x.setWidth 9, al := y.setWidth 9 })) s

end Sys2Proof.Machine
end

