-- ==== Sys2Proof/Machine/MatrixData.lean ====
section
/-! DEFINITION. The matrix engine's data: format words and shapes (R205, R206), operands (R207, R208), block-scaled dot
products (R26 to R28), drains (R211 to R213) and checks (R216). -/

namespace Sys2Proof.Machine

-- Format words (R205, R206)

/-- A element format of a format word. -/
def fmtA (w : W32) : Nat := (w.extractLsb' 12 4).toNat

/-- B element format of a format word. -/
def fmtB (w : W32) : Nat := (w.extractLsb' 8 4).toNat

/-- The integer combination. -/
def intCombo (w : W32) : Bool := fmtA w == 7 || fmtA w == 8

/-- The combinations each instruction accepts (R206). -/
def comboOk (k : MatKind) (w : W32) : Bool :=
  let a := fmtA w
  let b := fmtB w
  match k with
  | .mma => (a == 0 && b == 0) || (a == 1 && b == 1) || ((a == 2 || a == 3) && (b == 2 || b == 3)) ||
      ((a == 7 || a == 8) && (b == 7 || b == 8))
  | .mmas => ((a == 4 || a == 5) && (b == 4 || b == 5)) || (a == 6 && b == 6)
  | .mmt => (a == 0 || a == 1 || a == 2 || a == 4) && (b == 9 || b == 10)
  | _ => true

/-- K per operation by the A format (R206). -/
def shapeK (af : Nat) : Nat := if af = 0 || af = 1 then 32 else if af = 6 then 128 else 64

/-- The instruction multiplies by a format word. -/
def MatKind.multiplies : MatKind → Bool
  | .mma => true
  | .mmas => true
  | .mmt => true
  | _ => false

/-- A tile operation, which the multiply array runs (R133). -/
def MatKind.onArray : MatKind → Bool
  | .mzero => false
  | .mchk => false
  | _ => true

/-- The word's failing check (R219): a reserved bit, the combination, `.sat` with floats; 0 when it passes. -/
def wordReason (k : MatKind) (sat : Bool) (w : W32) : Nat :=
  if !k.multiplies then 0
  else if w.extractLsb' 16 16 != 0 || w.extractLsb' 0 8 != 0 then 1
  else if !comboOk k w then 2
  else if sat && !intCombo w then 3
  else 0

-- Operands

/-- One operand of an operation: its record, its origin, and the tile's counts in dimensions 0 and 1. -/
structure MatOperand where
  ws : List W64
  org : W64
  n0 : Nat
  n1 : Nat
  deriving DecidableEq, Repr

/-- The coordinates of an element of an operand. -/
def MatOperand.co (p : MatOperand) (i j : Nat) : List Nat :=
  [(p.org.extractLsb' 0 16).toNat + i, (p.org.extractLsb' 16 16).toNat + j, (p.org.extractLsb' 32 16).toNat,
    (p.org.extractLsb' 48 16).toNat]

/-- The element lies inside the extents. -/
def MatOperand.inside (p : MatOperand) (i j : Nat) : Bool := inExtent p.ws (p.co i j)

/-- Weights per bitstream bit count: k of a trellis format. -/
def twK (fmt : Nat) : Nat := if fmt = 10 then 2 else 1

/-- The bytes that an element inside the extents needs: its own, or its block's, and its block's scale (R207, R208). -/
def MatOperand.piecesAt (p : MatOperand) (i j : Nat) : List (W64 × Nat) :=
  let f := layCode p.ws
  let c := p.co i j
  if !p.inside i j then []
  else if isTw f then
    [(trellisAddr p.ws (twK f) (blockCoord p.ws 256 c), 32 * twK f), (scaleAddr p.ws (blockCoord p.ws 256 c), 1)]
  else (elemAddr p.ws c).1 |> fun a =>
    if isScaled f then [(a, elemBytes f), (scaleAddr p.ws (blockCoord p.ws 32 c), 1)] else [(a, elemBytes f)]

/-- The bytes that an operand needs, in row-major order. -/
def MatOperand.pieces (p : MatOperand) : List (W64 × Nat) :=
  (List.range p.n0).flatMap fun i => (List.range p.n1).flatMap fun j => p.piecesAt i j

/-- The operands of an operation, b first (R207, R208, R211 to R213, R216). -/
def MatOp.operands (o : MatOp) : List MatOperand :=
  let k := if o.kind = .mchk then shapeK (layCode o.recB) else shapeK (fmtA o.fmt)
  match o.kind with
  | .mzero => []
  | .mld => [⟨o.recB, o.b.org, 32, 64⟩]
  | .mdrain => [⟨o.recB, o.b.org, 32, 64⟩]
  | .mdraint => [⟨o.recB, o.b.org, 32, 64⟩, ⟨o.recC, o.c.org, 64, 32⟩]
  | .mchk => [⟨o.recB, o.b.org, 32, k⟩, ⟨o.recC, o.c.org, k, 1⟩]
  | _ => [⟨o.recB, o.b.org, 32, k⟩, ⟨o.recC, o.c.org, k, 64⟩]

/-- The operation writes its operands. -/
def MatKind.drains : MatKind → Bool
  | .mdrain => true
  | .mdraint => true
  | _ => false

/-- The record of an operand is accepted (R219, check 4): its number is 0 for pair b and 1 for pair c. -/
def recordFmtOk (o : MatOp) (n fmt : Nat) : Bool :=
  match o.kind with
  | .mzero => true
  | .mld => fmt ≤ 8 || (11 ≤ fmt && fmt ≤ 16)
  | .mdrain => fmt ≤ 8 || (11 ≤ fmt && fmt ≤ 16)
  | .mdraint => fmt ≤ 8 || (11 ≤ fmt && fmt ≤ 16)
  | .mchk => if n = 0 then decide (fmt ≤ 6) else fmt == 11
  | _ => if n = 0 then fmt == fmtA o.fmt else fmt == fmtB o.fmt

/-- The base space is allowed for the operand (R219, check 5). -/
def recordBaseOk (o : MatOp) (n fmt : Nat) (base : W64) : Bool :=
  let sp := spaceOf base
  match o.kind with
  | .mzero => true
  | .mld => sp == some .tile || sp == some .vault
  | .mdrain => sp == some .tile || sp == some .vault
  | .mdraint => sp == some .tile || sp == some .vault
  | _ => if n = 0 then sp == some .tile else if isTw fmt then sp == some .dev else sp == some .tile || sp == some .dev

/-- The origin of a scaled or trellis operand is a multiple of 32 (R219, check 6). The origin of mld, for which R211 asks nothing
of the kind and R219 names no operand, is not checked (log entry 97, DEDUCED). -/
def recordOriginOk (o : MatOp) (n fmt : Nat) (org : W64) : Bool :=
  let d0 := (org.extractLsb' 0 16).toNat % 32 == 0
  let d1 := (org.extractLsb' 16 16).toNat % 32 == 0
  match o.kind with
  | .mzero => true
  | .mld => true
  | .mdrain => !isScaled fmt || d1
  | .mdraint => !isScaled fmt || d1
  | .mchk => n != 0 || !isScaled fmt || d1
  | _ => if n = 0 then !isScaled fmt || d1 else !(isScaled fmt || isTw fmt) || d0

/-- The limits of R295 to R298 (R219, check 3): codes 20 to 22 are formats that no operand accepts, and whose elements have no
size that would bound a BASE. -/
def recordLimitsOk (ws : List W64) : Bool :=
  let f := layCode ws
  if 20 ≤ f && f ≤ 22 then
    (recWord ws 4).extractLsb' 24 40 == 0 && (recWord ws 4).extractLsb' 12 4 == 0 && recWord ws 7 == 0 &&
      layMxb ws == 32 && (laySwz ws == 0 || (recWord ws 0).toNat % 16 == 0)
  else layOk ws

/-- The reason of the first failing check of 3 to 6, over both records; 0 when they pass. -/
def recordReason (o : MatOp) : Nat :=
  let ps : List (Nat × List W64 × W64) := match o.kind with
    | .mzero => []
    | .mld => [(0, o.recB, o.b.org)]
    | .mdrain => [(0, o.recB, o.b.org)]
    | _ => [(0, o.recB, o.b.org), (1, o.recC, o.c.org)]
  if ps.any fun p => !recordLimitsOk p.2.1 then 7
  else if ps.any fun p => !recordFmtOk o p.1 (layCode p.2.1) then 4
  else if ps.any fun p => !recordBaseOk o p.1 (layCode p.2.1) (recWord p.2.1 0) then 5
  else if ps.any fun p => !recordOriginOk o p.1 (layCode p.2.1) p.2.2 then 6
  else 0

-- Reading operands (R201)

/-- The access kind of an operand's bytes. -/
def MatKind.access (k : MatKind) : AccKind := if k.drains then .writeWhole else .readWhole

/-- The home address of an operand's bytes, if they translate. -/
def State.matHome (s : State) (v : View) (k : AccKind) (a : W64) (n : Nat) : Option Nat :=
  match s.pieces v 0 a n k with
  | .ok ((.snap p, _) :: _) => some p
  | .ok ((.arr p _, _) :: _) => some p
  | _ => none

/-- n bytes of an operand at a generic address, in the memory that the operation has read (State.asRead). -/
def State.matRead (s : State) (v : View) (a : W64) (n : Nat) : Nat :=
  match s.matHome v .readWhole a n with
  | some p => bytesNat (Memory.reads s.mem p n)
  | none => 0

/-- The code of an element inside the extents. -/
def State.elemCode (s : State) (v : View) (p : MatOperand) (i j : Nat) : Nat :=
  let e := elemAddr p.ws (p.co i j)
  pickElem (layCode p.ws) e.2 (s.matRead v e.1 (elemBytes (layCode p.ws)))

/-- The scale byte of an element's block of a size. -/
def State.scaleCode (s : State) (v : View) (p : MatOperand) (size i j : Nat) : Nat :=
  s.matRead v (scaleAddr p.ws (blockCoord p.ws size (p.co i j))) 1

/-- Positive zero. -/
def zeroVal : Val := .fin false 0 0

/-- The value of an element, +0 beyond an extent (R207). -/
def State.elemVal (s : State) (v : View) (p : MatOperand) (i j : Nat) : Val :=
  if p.inside i j then
    match layFmt (layCode p.ws) with
    | some f => f.dec (s.elemCode v p i j)
    | none => zeroVal
  else zeroVal

/-- The weight of a trellis operand (R24, R208): exact, or rounded to E4M3 for an FP8 A operand. -/
def State.weightVal (s : State) (v : View) (p : MatOperand) (af i j : Nat) : Val :=
  if p.inside i j then
    let k := twK (layCode p.ws)
    let c := p.co i j
    let bits := s.matRead v (trellisAddr p.ws k (blockCoord p.ws 256 c)) (32 * k)
    let w := trellisValue (trellisWindow bits k (c.getD (layKdim p.ws) 0 % 256))
    if af = 0 || af = 1 then .fin (w < 0) w.natAbs (-7)
    else e4m3.dec (e4m3.deliver .rn false (weightExact w)).1
  else zeroVal

/-- The elements of a K block of an operand and its scale, none for a block that has no scale to read (R207, R208). -/
def State.blockOf (s : State) (v : View) (p : MatOperand) (af : Nat) (el : Nat → Nat × Nat) : List Val × Option Nat :=
  let f := layCode p.ws
  let at_ (g : Nat → Nat → Val) : List Val := (List.range 32).map fun t => g (el t).1 (el t).2
  let any := (List.range 32).any fun t => p.inside (el t).1 (el t).2
  let first := el (((List.range 32).find? fun t => p.inside (el t).1 (el t).2).getD 0)
  if isTw f then
    (at_ (s.weightVal v p af), if any then some (s.scaleCode v p 256 first.1 first.2) else none)
  else if isScaled f then
    (at_ (s.elemVal v p), if any then some (s.scaleCode v p 32 first.1 first.2) else none)
  else (at_ (s.elemVal v p), some 0x78)

-- Products (R26 to R28)

/-- p of a K block (R26, R27): the exact sum of products by the exact product of scales, rounded once. -/
def blockProduct (as bs : List Val) (sa sb : Nat) : W32 :=
  let d := (sumVals .rn ((as.zip bs).map fun p => (mulVal p.1 p.2).1)).1
  let c := (mulVal (e5m3.dec sa) (e5m3.dec sb)).1.exact
  let x : Exact := match d, c with
    | .nan, _ => .nan
    | _, .nan => .nan
    | .inf n, .num _ p _ => if p = 0 then .nan else .inf n
    | .num n p q, .num _ a b => if p * a = 0 then .num false 0 1 else .num n (p * a) (q * b)
    | _, .inf _ => .nan
  BitVec.ofNat 32 (fp32.deliver .rn false x).1

/-- A K block's addition to an accumulator: rounding two. -/
def blockAdd (acc : W32) (a b : List Val × Option Nat) : W32 :=
  match a.2, b.2 with
  | some sa, some sb => fp32Add acc (blockProduct a.1 b.1 sa sb)
  | _, _ => fp32Add acc 0

/-- The exact integer sum of an element (R28). -/
def intSum (xs ys : List Int) : Int := (xs.zip ys).foldl (fun n p => n + p.1 * p.2) 0

/-- The integer elements of an operand. -/
def State.intElem (s : State) (v : View) (p : MatOperand) (i j : Nat) : Int :=
  if p.inside i j then intOf (layCode p.ws == 7) 8 (s.elemCode v p i j) else 0

-- The bank (R191, R192)

/-- An element of an accumulator tile. -/
def MatCtx.acc (x : MatCtx) (tile i j : Nat) : W32 := NMap.get 0 x.bank ((32 * tile + i) * 64 + j)

/-- Writes a whole tile. -/
def MatCtx.setTile (x : MatCtx) (tile : Nat) (f : Nat → Nat → W32) : MatCtx :=
  let first := 2048 * tile
  let new : NMap W32 := (List.range 2048).filterMap fun e =>
    let w := f (e / 64) (e % 64)
    if w = 0 then none else some (first + e, w)
  { x with bank := (x.bank.filter fun e => decide (e.1 < first)) ++ new ++
                     x.bank.filter fun e => decide (first + 2048 ≤ e.1) }

/-- The elements of an updated tile as a table, so that each is computed once. -/
def tableOf (f : Nat → Nat → W32) : List (List W32) := (List.range 32).map fun i => (List.range 64).map fun j => f i j

/-- An element of a table. -/
def tableAt (t : List (List W32)) (i j : Nat) : W32 := (t.getD i []).getD j 0

/-- mma, mmas and mmt (R209). -/
def State.multiply (s : State) (v : View) (x : MatCtx) (o : MatOp) : MatCtx :=
  match o.operands with
  | [a, b] =>
    let start (i j : Nat) : W32 := if o.set then 0 else x.acc o.tile i j
    if intCombo o.fmt then
      let rows := (List.range 32).map fun i => (List.range a.n1).map fun k => s.intElem v a i k
      let cols := (List.range 64).map fun j => (List.range b.n0).map fun k => s.intElem v b k j
      x.setTile o.tile fun i j =>
        BitVec.ofNat 32 (fit true o.sat 32 ((start i j).toInt + intSum (rows.getD i []) (cols.getD j [])))
    else
      let nb := a.n1 / 32
      let af := fmtA o.fmt
      let rows := (List.range 32).map fun i => (List.range nb).map fun q => s.blockOf v a af fun t => (i, 32 * q + t)
      let cols := (List.range 64).map fun j => (List.range nb).map fun q => s.blockOf v b af fun t => (32 * q + t, j)
      x.setTile o.tile fun i j =>
        ((rows.getD i []).zip (cols.getD j [])).foldl (fun acc p => blockAdd acc p.1 p.2) (start i j)
  | _ => x

/-- mld (R211): Widen of each element, 0 beyond an extent. -/
def State.matLoad (s : State) (v : View) (x : MatCtx) (o : MatOp) : MatCtx :=
  match o.operands with
  | p :: _ =>
    x.setTile o.tile fun i j =>
      if p.inside i j then
        let f := layCode p.ws
        (widenElem f (if isScaled f then some (s.scaleCode v p 32 i j) else none) (s.elemCode v p i j)).1
      else 0
  | [] => x

-- Drains (R212, R213)

/-- The scaled format of a record code. -/
def scOf (fmt : Nat) : ScFmt := if fmt = 4 then .sc8 else if fmt = 5 then .sc8w else .sc4

/-- The code of an unscaled element of a drain (R212). -/
def drainCode (fmt : Nat) (rnd : Rnd) (x : W32) : Nat :=
  match layInt fmt with
  | some (sg, w) => fit sg true w x.toInt
  | none => if fmt = 11 then x.toNat else match layFmt fmt with
    | some f => (fp32.convert f rnd true x.toNat).1
    | none => 0

/-- Writes an element's code. -/
def State.putElem (s : State) (v : View) (p : MatOperand) (i j code : Nat) : State :=
  let f := layCode p.ws
  let e := elemAddr p.ws (p.co i j)
  match s.matHome v .writeWhole e.1 (elemBytes f) with
  | none => s
  | some a =>
    if fourBit f then
      let old := Memory.read s.mem a
      s.storeBytes a [if e.2 then BitVec.ofNat 4 code ++ old.extractLsb' 0 4 else old.extractLsb' 4 4 ++ BitVec.ofNat 4 code]
    else s.storeBytes a (natBytes code (elemBytes f))

/-- Writes the elements of a list. -/
def State.putElems (s : State) (v : View) (p : MatOperand) : List (Nat × Nat × Nat) → State
  | [] => s
  | (i, j, code) :: rest => State.putElems (s.putElem v p i j code) v p rest

/-- Writes one block of a scaled drain: its members inside the extents, then its scale. -/
def State.putBlock (s : State) (v : View) (p : MatOperand) (rnd : Rnd) (els : List (Nat × Nat × W32)) : State :=
  let ins := els.filter fun e => p.inside e.1 e.2.1
  match ins with
  | [] => s
  | e0 :: _ =>
    let fmt := scOf (layCode p.ws)
    let sc := blockScale fmt (ins.map fun e => e.2.2.toNat)
    let s1 := s.putElems v p (ins.map fun e => (e.1, e.2.1, (blockCode fmt rnd sc e.2.2.toNat).1))
    match s1.matHome v .writeWhole (scaleAddr p.ws (blockCoord p.ws 32 (p.co e0.1 e0.2.1))) 1 with
    | none => s1
    | some a => s1.storeBytes a [BitVec.ofNat 8 sc]

/-- Writes several blocks. -/
def State.putBlocks (s : State) (v : View) (p : MatOperand) (rnd : Rnd) : List (List (Nat × Nat × W32)) → State
  | [] => s
  | b :: bs => State.putBlocks (s.putBlock v p rnd b) v p rnd bs

/-- A drain of values to an operand: value (i, j) stands at dimension 0 = i and dimension 1 = j, and the blocks of a scaled
format run along dimension 1. -/
def State.drainTo (s : State) (v : View) (p : MatOperand) (rnd : Rnd) (f : Nat → Nat → W32) : State :=
  let fmt := layCode p.ws
  if isScaled fmt then
    s.putBlocks v p rnd ((List.range p.n0).flatMap fun i => (List.range (p.n1 / 32)).map fun q =>
      (List.range 32).map fun t => (i, 32 * q + t, f i (32 * q + t)))
  else
    s.putElems v p ((List.range p.n0).flatMap fun i => (List.range p.n1).filterMap fun j =>
      if p.inside i j then some (i, j, drainCode fmt rnd (f i j)) else none)

/-- mdrain and mdraint (R212, R213). -/
def State.drain (s : State) (v : View) (x : MatCtx) (o : MatOp) : State :=
  match o.operands with
  | [p] => s.drainTo v p o.rnd fun i j => x.acc o.tile i j
  | [p, q] => (s.drainTo v p o.rnd fun i j => x.acc o.tile i j).drainTo v q o.rnd fun i j => x.acc o.tile j i
  | _ => s

-- Checks (R216)

/-- An exact value rounded to FP32, as an exact value. -/
def roundExact (x : Exact) : Exact := (fp32.dec (fp32.deliver .rn false x).1).exact

/-- The magnitude of a finite value. -/
def Val.magnitude : Val → Val
  | .fin _ s e => .fin false s e
  | .inf _ => .inf false
  | .nan b => .nan b

/-- abs(lhs − rhs) > 2^-TEXP × den, compared exactly; an infinite den is never exceeded. -/
def checkFails (texp : Nat) (lhs rhs den : Exact) : Bool :=
  match lhs, rhs, den with
  | .num na pa qa, .num nb pb qb, .num _ pd qd =>
    let a : Int := if na then -(pa * qb : Nat) else (pa * qb : Nat)
    let b : Int := if nb then -(pb * qa : Nat) else (pb * qa : Nat)
    decide ((a - b).natAbs * 2 ^ texp * qd > pd * (qa * qb))
  | .num _ _ _, .inf _, .num _ _ _ => true
  | _, _, _ => false

/-- A value is NaN or infinite. -/
def Val.special : Val → Bool
  | .fin _ _ _ => false
  | _ => true

/-- A row of mchk: whether it is skipped, and whether it fails (R216). -/
def State.checkRow (s : State) (v : View) (x : MatCtx) (o : MatOp) (a r : MatOperand) (i : Nat) : Bool × Bool :=
  let cs := (List.range 64).map fun j => fp32.dec (x.acc o.tile i j).toNat
  let blocks := (List.range (a.n1 / 32)).map fun q => (q, s.blockOf v a 0 fun t => (i, 32 * q + t))
  let prods := blocks.flatMap fun e => (List.range 32).map fun t =>
    let av := e.2.1.getD t zeroVal
    let rv := s.elemVal v r (32 * e.1 + t) 0
    match e.2.2 with
    | some sa => (mulVal (e5m3.dec sa) av |>.1, rv)
    | none => (zeroVal, rv)
  if cs.any Val.special || prods.any (fun p => p.1.special || p.2.special) then (true, false)
  else
    let lhs := roundExact (sumVals .rn cs).1
    let rhs := roundExact (sumVals .rn (prods.map fun p => (mulVal p.1 p.2).1)).1
    let den := roundExact (sumVals .rn (cs.map Val.magnitude)).1
    (false, checkFails x.mtolExp.toNat lhs rhs den)

/-- The failing rows and the skipped rows of a mchk. -/
def State.checkRows (s : State) (v : View) (x : MatCtx) (o : MatOp) : LaneMask × LaneMask :=
  match o.operands with
  | [a, r] =>
    let rows := lanes.map fun i => s.checkRow v x o a r i
    (maskOf fun i => (rows.getD i (false, false)).2, maskOf fun i => (rows.getD i (false, false)).1)
  | _ => (0, 0)

end Sys2Proof.Machine
end

