-- ==== Sys2Proof/Machine/Encoder.lean ====
section
/-! DEFINITION. The trellis encoder of a die (R341 to R346). -/

namespace Sys2Proof.Machine

-- The card (R342)

/-- SMODE of an encoder card: GSCALE for every block. -/
def EncJob.global (j : EncJob) : Bool := (cardWord j.card 0).getLsbD 8

/-- GSCALE. -/
def EncJob.gscale (j : EncJob) : Nat := ((cardWord j.card 0).extractLsb' 40 8).toNat

/-- Window counts. -/
def EncJob.window (j : EncJob) : List Nat := cardDims j.card 5

/-- New bits per weight, 1 or 2. -/
def EncJob.k (j : EncJob) : Nat := twK (layCode j.dst)

/-- The window's blocks in the order of their first positions: the positions that start them. -/
def EncJob.starts (j : EncJob) : List (List Nat) :=
  ((List.range (windowSize j.window)).map (windowPos j.window)).filter fun p => p.getD (layKdim j.dst) 0 % 256 == 0

/-- The block's position i. -/
def EncJob.posAt (j : EncJob) (p : List Nat) (i : Nat) : List Nat :=
  (List.range 4).map fun d => if d = layKdim j.dst then p.getD d 0 + i else p.getD d 0

/-- Destination coordinates of a position. -/
def EncJob.dstCo (j : EncJob) (p : List Nat) : List Nat := addCo (cardDims j.card 4) p

/-- Source coordinates of a position. -/
def EncJob.srcCo (j : EncJob) (p : List Nat) : List Nat := addCo (cardDims j.card 3) p

/-- The card fails order 1 (R343). -/
def encCardBad (card : List W64) : Bool :=
  let c0 := cardWord card 0
  c0.extractLsb' 48 16 != 0 || c0.extractLsb' 9 31 != 0 || c0.extractLsb' 4 4 != 0 || c0.toNat % 16 != 0 ||
    (c0.getLsbD 8 && c0.extractLsb' 40 8 == 0xFF) || badPointer (cardWord card 7) 8 || badPointer (cardWord card 6) 4

/-- The address of the record that order 4 fails (R343). -/
def EncJob.formatErr (j : EncJob) : Option W64 :=
  let sf := layCode j.src
  let kd := layKdim j.dst
  if !layOk j.src || !(sf == 0 || sf == 1 || sf == 11) || laySwz j.src != 0 then some (cardWord j.card 1)
  else if !layOk j.dst || !isTw (layCode j.dst) || laySwz j.dst != 0 || (cardDims j.card 4).getD kd 0 % 256 != 0 ||
      j.window.getD kd 0 % 256 != 0 then some (cardWord j.card 2)
  else none

/-- The bounding ranges of the source window, of the bitstreams and of the scales. -/
def EncJob.bounds (j : EncJob) : List (Nat × Nat) × List (Nat × Nat) :=
  let ps := ((List.range (windowSize j.window)).map fun p => j.srcCo (windowPos j.window p)).filter (inExtent j.src)
  let bs := (j.starts.map j.dstCo).filter (inExtent j.dst)
  ((boundsOf (ps.map fun c => (elemAddr j.src c).1) (elemBytes (layCode j.src))).toList,
    (boundsOf (bs.map fun c => trellisAddr j.dst j.k (blockCoord j.dst 256 c)) (32 * j.k)).toList ++
      (boundsOf (bs.map fun c => scaleAddr j.dst (blockCoord j.dst 256 c)) 1).toList)

/-- The lowest address that fails order 5: a range that fails R159, or a destination outside device and vault space
(R342). -/
def State.encRangeErr (s : State) (v : View) (j : EncJob) : Option Nat :=
  let b := j.bounds
  let far (lo : Nat) : Bool :=
    spaceOf (BitVec.ofNat 64 lo) != some .dev && spaceOf (BitVec.ofNat 64 lo) != some .vault
  let bad := (b.1 ++ b.2).filterMap (fun r => s.rangeErr v r.1 r.2) ++ (b.2.filter fun r => far r.1).map (·.1)
  match bad with
  | [] => none
  | a :: as => some (as.foldl Nat.min a)

/-- xpush.xe (R301, R341, R343). -/
def execXpushXe (d : Option (BitVec 5)) (n : BitVec 5) (tl : Tail) (s : State) : Result :=
  issueAsync Ctx.outside [] tl (fun c s =>
    let v := s.viewOf c.gid c.g
    let card := c.g.card n
    let rs := [cardWord card 1, cardWord card 2]
    if !cardRegOk n then c.illegalOperand
    else if decide ((s.encodes.filter fun j => j.core == c.core).length + (s.core c.core).xe.length ≥ 16) then .stall
    else if encCardBad card then c.illegalOperand
    else if rs.any fun a => s.heldAddr v 0 a then .stall
    else match s.recordErr v rs with
      | some (code, a) => c.fault code a c.em
      | none =>
        match s.readCard v rs with
        | none => .stall
        | some (recs, s1) =>
          let j : EncJob :=
            { id := s1.nextId, core := c.core, gid := c.gid, launch := c.g.launch, blk := c.g.blk,
              site := s1.siteOf c.g c.cl.pc, ident := c.jobIdent v 2 c.g.xeCount, card := card, src := recs.headD [],
              dst := (recs.drop 1).headD [], home := v.blk, added := none, out := none }
          match j.formatErr with
          | some a => c.fault 0x0C a c.em
          | none =>
            match s1.encRangeErr v j with
            | some a => c.fault 0x08 (BitVec.ofNat 64 a) c.em
            | none =>
              .ok ((State.modGroup { s1 with nextId := s1.nextId + 1, encodes := s1.encodes ++ [j] } c.gid fun g =>
                { g with xeCount := g.xeCount + 1 }).takeSeq c 2 d tl)) s

-- The search (R344)

/-- Q of a window for a target: the rounded square of the rounded error. -/
def trellisCost (scale : Val) (v : Nat) (t : Val) : W32 :=
  let w := trellisValue v
  let e := (fp32.deliver .rn false
    (sumVals .rn [(mulVal scale (.fin (w < 0) w.natAbs (-7))).1, t.negate]).1).1
  BitVec.ofNat 32 (fp32.deliver .rn false (mulVal (fp32.dec e) (fp32.dec e)).1.exact).1

/-- The best branch into a state: its cost and its b, ties to the lowest b. -/
def bestBranch (k : Nat) (cost : Nat → Option W32) (q : Nat → W32) (st : Nat) : Option (W32 × Nat) :=
  (List.range (2 ^ k)).foldl (fun best b =>
    let p := (st * 2 ^ k + b) % 2 ^ (16 - k)
    match cost p with
    | none => best
    | some c =>
      let m := fp32Add c (q (p + st / 2 ^ (16 - 2 * k) * 2 ^ (16 - k)))
      match best with
      | none => some (m, b)
      | some (m0, b0) => if m.toNat < m0.toNat then some (m, b) else some (m0, b0)) none

/-- A pass over the targets: the costs after each, and the picks of each step, last step first. -/
def trellisPass (k : Nat) (scale : Val) : List Val → Array (Option W32) → List (Array Nat) →
    Array (Option W32) × List (Array Nat)
  | [], cost, picks => (cost, picks)
  | t :: ts, cost, picks =>
    let q (v : Nat) : W32 := trellisCost scale v t
    let new := (Array.range (2 ^ (16 - k))).map (bestBranch k (fun p => cost.getD p none) q)
    trellisPass k scale ts (new.map fun e => e.map (·.1)) ((new.map fun e => (e.map (·.2)).getD 0) :: picks)

/-- The reached state of least cost, the lowest number on ties. -/
def leastState (cost : Array (Option W32)) : Nat :=
  ((List.range cost.size).foldl (fun (best : Option (Nat × Nat)) st =>
    match cost.getD st none, best with
    | none, _ => best
    | some c, none => some (st, c.toNat)
    | some c, some b => if c.toNat < b.2 then some (st, c.toNat) else best) none |>.map (·.1)).getD 0

/-- The trace back from a state: the bitstream as a number. -/
def traceBack (k : Nat) : List (Array Nat) → Nat → Nat → Nat
  | [], _, bits => bits
  | pick :: picks, st, bits =>
    let i := picks.length
    let x := st / 2 ^ (16 - 2 * k)
    let bits1 := (List.range k).foldl (fun n m =>
      n + x / 2 ^ m % 2 * 2 ^ ((k * i + 16 - k + m) % (256 * k))) bits
    traceBack k picks ((st * 2 ^ k + pick.getD st 0) % 2 ^ (16 - k)) bits1

/-- The bitstream and the error of a block (R344). -/
def encodeBlock (k sc : Nat) (ts : List Val) : Nat × W32 :=
  let scale := e5m3.dec sc
  let n := 2 ^ (16 - k)
  let first := trellisPass k scale ts (Array.replicate n (some 0)) []
  let st := leastState first.1
  let second := trellisPass k scale ts ((Array.range n).map fun i => if i = st then some 0 else none) []
  (traceBack k second.2 st 0, (second.1.getD st none).getD 0)

/-- The computed scale of a block of finite targets (R345). -/
def encodeScale (ts : List Val) : Nat :=
  match (sumVals .rn (ts.map fun t => (mulVal t t).1)).1 with
  | .num _ p q =>
    if p = 0 then 0
    else (e5m3.deliver .rn true (sqrtFrac false (p * 1000000) (q * 256 * 1334025))).1
  | _ => 0

/-- A block's scale, bitstream, error, and whether a target is not finite (R345). -/
def EncJob.encode (j : EncJob) (ts : List Val) : Nat × Nat × W32 × Bool :=
  if ts.any Val.special then (0xFF, 0, 0x7FC00000, true)
  else
    let sc := if j.global then j.gscale else encodeScale ts
    let r := encodeBlock j.k sc ts
    (sc, r.1, r.2, false)

-- Running (R341, R346)

/-- The targets at a list of source coordinates. -/
def State.encTargets (s : State) (v : View) (j : EncJob) : List (List Nat) → Except EngErr (List Val × State)
  | [] => .ok ([], s)
  | c :: cs =>
    let got : Except EngErr (Val × State) :=
      if !inExtent j.src c then .ok (.fin false 0 0, s)
      else match s.engRead v (elemAddr j.src c).1 (elemBytes (layCode j.src)) with
        | .error e => .error e
        | .ok (x, s1) => .ok (((layFmt (layCode j.src)).getD fp32).dec x, s1)
    match got with
    | .error e => .error e
    | .ok (x, s1) =>
      match State.encTargets s1 v j cs with
      | .error e => .error e
      | .ok (xs, s2) => .ok (x :: xs, s2)

/-- A bitstream as writes that stay within a page and a compressed tile: BASE need not be aligned (R297, R339). -/
def splitWrite (a : W64) (bs : List Byte) : List (W64 × List Byte) :=
  let m := 4096 - a.toNat % 4096
  if bs.length ≤ m then [(a, bs)] else [(a, bs.take m), (a + BitVec.ofNat 64 m, bs.drop m)]

/-- Encodes the blocks of a list, numbered from b: the writes, and the blocks with non-finite targets. -/
def State.encBlocks (s : State) (v : View) (j : EncJob) :
    Nat → List (List Nat) → Except EngErr ((List (W64 × List Byte) × Nat) × State)
  | _, [] => .ok (([], 0), s)
  | b, p :: ps =>
    match s.encTargets v j ((List.range 256).map fun i => j.srcCo (j.posAt p i)) with
    | .error e => .error e
    | .ok (ts, s1) =>
      match State.encBlocks s1 v j (b + 1) ps with
      | .error e => .error e
      | .ok ((ws, n), s2) =>
        let r := j.encode ts
        let c := blockCoord j.dst 256 (j.dstCo p)
        let own := if inExtent j.dst (j.dstCo p) then
            splitWrite (trellisAddr j.dst j.k c) (natBytes r.2.1 (32 * j.k)) ++ [(scaleAddr j.dst c, natBytes r.1 1)]
          else []
        let err := if cardWord j.card 6 = 0 then []
          else [(cardWord j.card 6 + BitVec.ofNat 64 (4 * b), natBytes r.2.2.1.toNat 4)]
        .ok ((own ++ err ++ ws, n + if r.2.2.2 then 1 else 0), s2)

/-- Performs some of the writes, each by a free choice; the others are left. -/
def State.encSome (s : State) (v : View) : List (W64 × List Byte) → Except EngErr (List (W64 × List Byte) × State)
  | [] => .ok ([], s)
  | w :: ws =>
    let k := s.pick 2
    if k.1 = 0 then
      match State.encSome k.2 v ws with
      | .error e => .error e
      | .ok (left, s1) => .ok (w :: left, s1)
    else
      match k.2.engWrite v w.1 w.2.length (bytesNat w.2) with
      | .error e => .error e
      | .ok s1 => State.encSome s1 v ws

/-- Performs every write. -/
def State.encAll (s : State) (v : View) : List (W64 × List Byte) → Except EngErr State
  | [] => .ok s
  | w :: ws =>
    match s.engWrite v w.1 w.2.length (bytesNat w.2) with
    | .error e => .error e
    | .ok s1 => State.encAll s1 v ws

/-- The view of an encoder job. -/
def State.encView (s : State) (j : EncJob) : View := s.jobView j.core j.gid j.blk j.launch j.home (4, 0)

/-- The oldest job of a die (R341). -/
def State.firstEncode (s : State) (die : Nat) : Option EncJob := s.encodes.find? fun j => dieOf j.core == die

/-- ENCODER_JOB (R344). -/
def execEncoderJob (die : Nat) (s : State) : Result :=
  .next (match s.firstEncode die with
    | none => s
    | some j =>
      if j.out.isSome then s
      else
        let v := s.encView j
        match s.encBlocks v j 0 j.starts with
        | .error e => s.engineErr (s.encView j) j.launch j.site e
        | .ok ((ws, n), s1) =>
          match s1.encSome v ws with
          | .error e => s.engineErr (s.encView j) j.launch j.site e
          | .ok (left, s2) =>
            { s2 with encodes := s2.encodes.map fun i => if i.id = j.id then { i with out := some (left, n) } else i })

/-- A job whose counter addition has been performed, or that names no counter, leaves, and its entry enters the pushing core's
XE queue (R346). -/
def State.endEncode (s : State) (j : EncJob) (n : Nat) : State :=
  let entry : W64 := j.site.seq ++ BitVec.ofNat 16 n ++ 0#16
  (State.traceEngine { s with encodes := s.encodes.filter fun i => i.id != j.id } j.launch 8 2 j.site).modCore j.core
    fun c => { c with xe := c.xe ++ [(j.launch, entry)] }

/-- The writes of a job that are left are performed, then its counter addition is sent (R346). -/
def State.finishEncode (s : State) (j : EncJob) (left : List (W64 × List Byte)) (n : Nat) : Except EngErr State :=
  match s.encAll (s.encView j) left with
  | .error e => .error e
  | .ok s1 =>
    if cardWord j.card 7 = 0 then .ok (s1.endEncode j n)
    else match s1.engAdd (s.encView j) j.id j.site j.ident (cardWord j.card 7) 1 with
      | .error e => .error e
      | .ok (id, s2) =>
        .ok { s2 with encodes := s2.encodes.map fun (i : EncJob) =>
                if i.id = j.id then { i with out := some ([], n), added := some id } else i }

/-- ENCODER_JOB_COMPLETE (R346): the last writes and the counter addition, and once that is performed the XE entry. -/
def execEncoderJobComplete (job : Nat) (s : State) : Result :=
  .next (match s.encodes.find? fun j => j.id == job with
    | none => s
    | some j =>
      match j.out, j.added with
      | none, _ => s
      | some (left, n), none => (match s.finishEncode j left n with
        | .error e => s.engineErr (s.encView j) j.launch j.site e
        | .ok s1 => s1)
      | some (_, n), some id => if s.reqs.any fun r => r.id == id then s else s.endEncode j n)

-- xstat (R301)

/-- The rays of a lane, oldest first, whose record is ready to pop before any that is not. -/
def readyRays : List Ray → Nat
  | [] => 0
  | r :: rs => match r.stage with
    | .ready _ _ => readyRays rs + 1
    | _ => 0

/-- The least of some numbers. -/
def leastOf (d : Nat) : List Nat → Nat
  | [] => d
  | x :: xs => xs.foldl Nat.min x

/-- Pushes that would be accepted, and entries ready to pop. -/
def State.queueCounts (s : State) (c : Ctx) (q : EngineQ) : Nat × Nat :=
  let rays (l : Nat) : List Ray := s.rays.filter fun r => r.gid == c.gid && r.tag == c.g.tag && r.lane == l
  let xe := (s.core c.core).xe.length
  match q with
  | .xc => (16 - (s.copies.filter fun j => j.core == c.core).length, 0)
  | .xt => (leastOf 0 ((laneList c.g.live).map fun l => 4 - (rays l).length),
            leastOf 0 ((laneList c.g.live).map fun l => readyRays (rays l)))
  | .xe => (16 - ((s.encodes.filter fun j => j.core == c.core).length + xe), xe)
  | .xm => (0, match (s.block? c.g.blk).bind Block.ctx with
    | some n => ((s.core c.core).ctx n).xm.length
    | none => 0)

/-- xstat (R301). -/
def execXstat (q : EngineQ) (d : BitVec 5) (s : State) : Result :=
  issue [] none (fun c s =>
    let n := s.queueCounts c q
    .ok (s.put c (c.g.sset d.toNat (BitVec.ofNat 64 (n.2 % 2 ^ 16 * 2 ^ 16 + n.1 % 2 ^ 16))))) s

end Sys2Proof.Machine
end

