-- ==== Sys2Proof/Machine/EngineFault.lean ====
section
/-! DEFINITION. Faults of engine accesses after acceptance (R219, R250, R314, R356, R409, R413) and memory errors (R323,
R327, R401). -/

namespace Sys2Proof.Machine

/-- A device-virtual address fails translation, or names no memory, for a job's view. -/
def State.devFails (s : State) (v : View) (a : W64) : Bool :=
  spaceOf a == some .dev && !s.heldAddr v 0 a && match s.devPiece v a.toNat 1 .read with
    | .error _ => true
    | .ok (.snap p) => s.peerDown p
    | .ok _ => false

/-- The addresses that a copy job may still access (R314). -/
def CopyJob.accesses (j : CopyJob) : List W64 :=
  let f := layCode j.src
  (j.srcPoints.map fun c => (elemAddr j.src c).1) ++
    (if isScaled f || isMx f then j.srcPoints.map fun c => scaleAddr j.src (blockCoord j.src 32 c) else []) ++
    (j.todo.flatMap fun g => g.items.map (·.1)) ++ [cardWord j.card 6, cardWord j.card 7].filter (· != 0)

/-- The addresses that an encoder job may still access. -/
def EncJob.accesses (j : EncJob) : List W64 :=
  (((List.range (windowSize j.window)).map fun p => j.srcCo (windowPos j.window p)).filter (inExtent j.src)).map
      (fun c => (elemAddr j.src c).1) ++
    (((j.starts.map j.dstCo).filter (inExtent j.dst)).flatMap fun c =>
      (splitWrite (trellisAddr j.dst j.k (blockCoord j.dst 256 c)) (List.replicate (32 * j.k) 0)).map (·.1) ++
        [scaleAddr j.dst (blockCoord j.dst 256 c)]) ++
    (if cardWord j.card 6 = 0 then []
     else (List.range j.starts.length).map fun b => cardWord j.card 6 + BitVec.ofNat 64 (4 * b)) ++
    [cardWord j.card 7].filter (· != 0)

/-- The operation of a context of some core. -/
def State.matOp (s : State) (op : Nat) : Option (Nat × MatOp) :=
  s.cores.findSome? fun e => ((e.2.ctx0.ops ++ e.2.ctx1.ops).find? fun o => o.id == op).map fun o => (e.1, o)

/-- The root of a running pass fails at an address. -/
def State.passFails (s : State) (slot : Nat) (a : W64) : Bool :=
  match s.runningPass slot with
  | none => false
  | some x => spaceOf a == some .dev && !s.rangeHeld x.asn a.toNat 1 && (s.tableHome x.root a.toNat true).isNone

/-- The block that accesses an address for its pass of a tile: its start sequence restores the save area or reads a record, its
retirement saves a partial pass (R409, R413). -/
def State.tileAccess (s : State) (slot tile : Nat) (addr : W64) : Option (Nat × Block) :=
  match s.runningPass slot, s.outOf slot tile with
  | some x, some o => o.owner.bind fun blk => (s.block? blk).bind fun b =>
    let save := decide (passSave x.p tile ≤ addr.toNat) && decide (addr.toNat < passSave x.p tile + 49280 + passPlb x.p)
    let starts := b.starting && !o.started &&
      (if o.began then (o.todo ++ o.cur.toList).any fun e => e.at_.a == addr else save && (x.tile tile).n != 0)
    let saves := !o.final && save && s.retires.any fun r => r.blk == blk && r.pub.isSome
    if starts || saves then some (blk, b) else none
  | _, _ => none

/-- The record at an address that a start sequence is still to read fails. -/
def State.recordFails (s : State) (slot tile : Nat) (addr : W64) : Bool :=
  (s.outOf slot tile).any fun o => (o.todo ++ o.cur.toList).any fun e =>
    e.at_.a == addr && !s.recHeld e.at_ && !(s.recRead e.at_).isOk

/-- The work of an engine that may access an address: the launch it is for, and the launch site that its reports name (R219,
R250, R314, R366, R409, R413). The pool of a pass has no one launch. -/
def State.engineWork (s : State) (e : EngineRef) (addr : W64) : Option (Nat × Site) :=
  match e with
  | .copyJob n => (s.copies.find? fun j => j.id == n && j.accesses.contains addr).map fun j => (j.launch, j.site)
  | .encoderJob n => (s.encodes.find? fun j => j.id == n && j.accesses.contains addr).map fun j => (j.launch, j.site)
  | .matrixOp n => match s.matOp n with
    | some (_, o) =>
      if o.stage != .attached && (o.operands.flatMap MatOperand.pieces).any (fun p => p.1 == addr) then
        some (o.site.launch, o.firing)
      else none
    | none => none
  | .ray n =>
    (s.rays.find? fun r => r.id == n && r.todo.any fun x => match x with
      | .node a _ => a == addr
      | .tri a => a == addr).map fun r => (r.launch, r.site)
  | .primitive n => (s.prims.find? fun p => p.id == n && p.e.at_.a == addr).map fun p => (p.launch, p.site)
  | .tilePass slot tile => (s.tileAccess slot tile addr).map fun e => (e.2.launch, s.passSite e.1 e.2)
  | .pool _ => none

/-- The engine's access to an address fails translation, or names no memory. -/
def State.engineFails (s : State) (e : EngineRef) (addr : W64) : Bool :=
  match e with
  | .copyJob n => (s.copies.find? fun j => j.id == n).any fun j => s.devFails (s.copyView j) addr
  | .encoderJob n => (s.encodes.find? fun j => j.id == n).any fun j => s.devFails (s.encView j) addr
  | .matrixOp n => (s.matOp n).any fun x =>
    s.devFails (s.jobView x.1 x.2.gid (((s.group? x.2.gid).map Group.blk).getD 0) x.2.site.launch noBlock (0, 0)) addr
  | .ray n => (s.rays.find? fun r => r.id == n).any fun r => s.devFails (s.jobView r.core r.gid r.blk r.launch noBlock (0, 0)) addr
  | .primitive n => (s.prims.find? fun p => p.id == n).any fun p =>
    spaceOf addr == some .dev && !s.recHeld p.e.at_ && !(s.recRead p.e.at_).isOk
  | .tilePass slot tile => match s.tileAccess slot tile addr with
    | some (blk, b) => (if ((s.outOf slot tile).map TilePass.began).getD false && b.starting then s.recordFails slot tile addr
        else s.devFails (s.jobView b.core 0 blk b.launch b (0, 0)) addr)
    | none => false
  | .pool slot => s.passFails slot addr

/-- ASYNC_ENGINE_FAULT: an engine meets a fault at an address that it accesses, and the launch context that its work is
for is killed at the launch site (R314); a fault on a pool kills every context of its pass (R356). -/
def execAsyncEngineFault (e : EngineRef) (addr : W64) (s : State) : Result :=
  .next (if !s.engineFails e addr then s
    else match e with
      | .pool slot => s.poolFault slot 0x30 addr (Site.of 0)
      | _ => match s.engineWork e addr with
        | some (n, x) => s.killLaunch n 0x30 addr x
        | none => s)

/-- The physical location of an error (R401). -/
def errorPlace (u : MemUnit) (die loc : Nat) : W64 :=
  let kind : Nat := match u with
    | .vault => 0
    | .l2 => 1
    | .lpddr => 2
  BitVec.ofNat 64 (kind * 2 ^ 60 + die % 16 * 2 ^ 56 + loc % 2 ^ 48)

/-- The launch and the site of an asynchronous operation in flight, or of a request on its way. -/
def State.opWork (s : State) (id : Nat) : Option (Nat × Site) :=
  match s.asyncs.find? fun a => a.id == id with
  | some a => some (a.launch, a.site)
  | none => (s.req? id).map fun r => (r.launch, r.site)

/-- The engine runs jobs of the copy engine or of the trellis encoder, whose errors are engine faults (R314). -/
def jobEngine : EngineRef → Bool
  | .copyJob _ => true
  | .encoderJob _ => true
  | _ => false

/-- An access has met an uncorrectable error at a physical location: the launch context that made it is killed at its site (R219,
R250, R323, R409, R413), a job's as by an engine fault (R314), a pool's as R356 says; a command stops its queue (R395). -/
def State.meetError (s : State) (a : W64) : ErrorAccess → State
  | .group gid => match s.group? gid with
    | some g => s.killLaunch g.launch 0x31 a (match g.clause with
        | some c => s.siteOf g c.pc
        | none => s.lastSite g)
    | none => s
  | .op id => match s.opWork id with
    | some (n, x) => s.killLaunch n 0x31 a x
    | none => s
  | .engine (.pool slot) _ => s.poolFault slot 0x31 a (Site.of 0)
  | .engine e addr => match s.engineWork e addr with
    | some (n, x) => if jobEngine e then s.killLaunch n 0x30 addr x else s.killLaunch n 0x31 a x
    | none => s
  | .command q c => match s.cmd? q c with
    | some _ => s.failCommand q c .operand
    | none => s
  | .launch n => s.killLaunch n 0x31 a (reportSite s n)

/-- Several accesses have met it. -/
def State.meetErrors (s : State) (a : W64) : List ErrorAccess → State
  | [] => s
  | x :: xs => State.meetErrors (s.meetError a x) a xs

/-- UNCORRECTABLE_ERROR (R323, R327, R401): the accesses that met it end. -/
def execUncorrectableError (u : MemUnit) (die loc : Nat) (accesses : List ErrorAccess) (s : State) : Result :=
  .next (s.meetErrors (errorPlace u die loc) accesses)

/-- SOFT_ERROR_CORRECTED (R323, R378): counted for the host and recorded. -/
def execSoftErrorCorrected (u : MemUnit) (die loc : Nat) (s : State) : Result :=
  .next ((s.modDie die fun d => { d with corrected := d.corrected + 1 }).record die 10 [errorPlace u die loc])

end Sys2Proof.Machine
end

