-- ==== Sys2Proof/Machine/Matrix.lean ====
section
/-! DEFINITION. The matrix engine (R191 to R223): convergence registers, attaching and firing, the attach order, the
instructions, and the end of a context. -/

namespace Sys2Proof.Machine

-- Contexts and convergence registers

/-- The number of the context that a block owns. -/
def State.ctxNum (s : State) (blk : Nat) : Option Nat := (s.block? blk).bind Block.ctx

/-- A convergence register of a context. -/
def MatCtx.cv (x : MatCtx) (n : Nat) : CvReg := NMap.get idleCv x.cvs n

/-- Writes a convergence register. -/
def MatCtx.setCv (x : MatCtx) (n : Nat) (v : CvReg) : MatCtx := { x with cvs := NMap.set idleCv x.cvs n v }

/-- Changes a context. -/
def State.modCtx (s : State) (core n : Nat) (f : MatCtx → MatCtx) : State :=
  s.modCore core fun c => c.setCtx n (f (c.ctx n))

/-- The state word of a convergence register (R194). -/
def CvReg.word (v : CvReg) : W64 :=
  BitVec.ofNat 64 (v.fires.toNat * 2 ^ 32 + v.st * 2 ^ 29 + v.signed * 2 ^ 16 + (if v.dis then 2 ^ 11 else 0) + v.size.toNat)

/-- A convergence register after a fire (R198): idle, one more fire, its reference word as it was. -/
def CvReg.fired (v : CvReg) : CvReg := { idleCv with fires := v.fires + 1, ref := v.ref }

/-- A convergence register after mrel (R197): idle, FIRES unchanged. -/
def CvReg.released (v : CvReg) : CvReg := { idleCv with fires := v.fires, ref := v.ref }

/-- Operations end at once and their slots are released (R195, R200). -/
def State.endOps (s : State) : List Nat → State
  | [] => s
  | id :: rest =>
    match s.asyncs.find? fun a => a.id == id with
    | none => State.endOps s rest
    | some a =>
      State.endOps (State.releaseSlot { s with asyncs := s.asyncs.filter fun x => x.id != id } a.gid a.tag a.slot) rest

/-- The tile that an accumulator field names (R149, R203). -/
def Group.accTile (g : Group) (a : AccField) : Nat :=
  match a.ring with
  | none => a.base.toNat
  | some (r, n) => a.base.toNat + (g.lcGet n.toNat).toNat % (r.toNat + 1)

/-- The tile lies in the group's window (R192). -/
def Group.tileInWindow (g : Group) (t : Nat) : Bool := decide (g.ab.toNat ≤ 32 * t) && decide (32 * t + 32 ≤ g.al.toNat)

-- Firing (R198, R219)

/-- What the checks of a firing operation come to. -/
inductive FireCheck
  /-- a record or a translation cannot be read yet -/
  | wait
  /-- a precise trap: cause and EADDR -/
  | trap (code : Nat) (addr : W64)
  /-- an asynchronous engine fault at an address -/
  | lost (addr : W64)
  /-- the operation with its records -/
  | ok (o : MatOp) (s : State)
  deriving DecidableEq, Repr

/-- The record addresses of an operation, pair b first. -/
def MatOp.recAddrs (o : MatOp) : List W64 :=
  match o.kind with
  | .mzero => []
  | .mld => [o.b.ra]
  | .mdrain => [o.b.ra]
  | _ => [o.b.ra, o.c.ra]

/-- The first address of a list that a test rejects. -/
def firstBad (p : W64 → Bool) : List W64 → Option W64
  | [] => none
  | a :: as => if p a then some a else firstBad p as

/-- Reads the records of an operation (R198). -/
def State.readRecs (s : State) (v : View) (o : MatOp) : MatOp × State :=
  match o.recAddrs with
  | [] => (o, s)
  | [a] => let r := (s.touchTlb v 0 a).readRec v a; ({ o with recB := r.1 }, r.2)
  | a :: b :: _ =>
    let r := (s.touchTlb v 0 a).readRec v a
    let q := (r.2.touchTlb v 0 b).readRec v b
    ({ o with recB := r.1, recC := q.1 }, q.2)

/-- The first element of an operation outside device space that fails R159 (R219, check 7). -/
def State.badElement (s : State) (v : View) (o : MatOp) : Option W64 :=
  ((o.operands.flatMap MatOperand.pieces).find? fun e =>
    spaceOf e.1 != some .dev && s.spaceErr v e.1 e.2 o.kind.access true).map (·.1)

/-- The checks of R219, in order, of an operation that would fire with its format word. -/
def State.fireCheck (s : State) (v : View) (o : MatOp) : FireCheck :=
  let as := o.recAddrs
  if as.any fun a => s.heldAddr v 0 a then .wait
  else match firstBad (fun a => s.spaceErr v a 64 .read true || a.toNat % 64 != 0) as with
    | some a => .trap (if s.spaceErr v a 64 .read true then 0x08 else 0x09) a
    | none =>
      if wordReason o.kind o.sat o.fmt != 0 then .trap 0x13 (BitVec.ofNat 64 (wordReason o.kind o.sat o.fmt))
      else match firstBad (fun a => s.transErr v 0 a 64 .read) as with
        | some a => .lost a
        | none =>
          if as.any fun a => !s.recPresent v a then .wait
          else
            let r := s.readRecs v o
            if recordReason r.1 != 0 then .trap 0x13 (BitVec.ofNat 64 (recordReason r.1))
            else match r.2.badElement v r.1 with
              | some a => .trap 0x08 a
              | none => .ok { r.1 with stage := .fired } r.2

/-- The effect of a fire by an instruction: what follows when the checks pass. -/
def Ctx.fires (c : Ctx) (mask : LaneMask) (o : MatOp) (s : State) (go_ : MatOp → State → State) : Effect :=
  match s.fireCheck (s.viewOf c.gid c.g) o with
  | .wait => .stall
  | .trap code a => c.fault code a mask
  | .lost a => .ok ((s.touchTlb (s.viewOf c.gid c.g) 0 a).killLaunch c.g.launch 0x30 a (s.siteOf c.g c.cl.pc))
  | .ok o' s' => .ok (go_ o' s')

-- Instructions

/-- The issuing group is in no handler (R220). -/
def Ctx.noHandler (c : Ctx) : Bool := c.g.hkind == 0

/-- The block's context of the issuing group, or the illegal-operand trap (R192). -/
def Ctx.withCtx (c : Ctx) (s : State) (go_ : Nat → MatCtx → Effect) : Effect :=
  match s.ctxNum c.g.blk with
  | none => c.illegalOperand
  | some n => go_ n ((s.core c.core).ctx n)

/-- A sign that counts (R195): its operation waits, the set may complete, and an attached operation may fire. -/
def Ctx.signs (c : Ctx) (n : Nat) (size : Nat) (b : Nat → W32) (slot : BitVec 3) (k : Nat) (x : MatCtx) (s : State) :
    Effect :=
  let v := x.cv n
  let e := laneCount c.em
  let first := v.signed == 0
  let ref := if first then b ((lowestLane c.em).getD 0) else v.ref
  let dis := maskOf fun l => c.em.getLsbD l && b l != ref
  let dgix := if first then none else v.dgix
  let total := v.signed + e
  if total == size + 1 && ((v.dis && !first) || dis != 0) then
    c.fault 0x12 (BitVec.ofNat 64 (dis.toNat + (if v.dis then 2 ^ 32 + dgix.getD 0 * 2 ^ 33 else 0))) c.em
  else
    let id := s.nextId
    let s1 := s.launchAsync { c.async (some slot) with ready := false, site := s.siteOf c.g c.cl.pc }
    let v1 := { v with
      signed := total, size := BitVec.ofNat 11 size, ref := ref, dis := (v.dis && !first) || dis != 0,
      dgix := if dis = 0 then dgix else some (Nat.min (dgix.getD c.g.gix) c.g.gix), signOps := v.signOps ++ [id] }
    if total == size + 1 then
      match v.op with
      | none => .ok (s1.modCtx c.core k fun x => x.setCv n { v1 with st := 2 })
      | some op =>
        match x.ops.find? fun o => o.id == op with
        | none => .ok (s1.modCtx c.core k fun x => x.setCv n { v1 with st := 2 })
        | some o =>
          c.fires c.em { o with fmt := ref, firing := s.siteOf c.g c.cl.pc } s
            fun o' s' =>
              ((s'.launchAsync { c.async (some slot) with ready := false }).modCtx c.core k fun x =>
                { x.setCv n v1.fired with ops := x.ops.map fun y => if y.id = o'.id then o' else y }).endOps
                  (v.signOps ++ [s'.nextId])
    else .ok (s1.modCtx c.core k fun x => x.setCv n { v1 with st := if v.st = 3 then 3 else 1 })

/-- sign (R195, R196). -/
def execSign (n : BitVec 3) (a b : Operand) (slot : BitVec 3) (s : State) : Result :=
  issueAsync Ctx.noHandler [.src b] (some slot) (fun c s =>
    if s.tileWaiting c.gid then .stall
    else if c.em = 0 then .ok (s.launchAsync (c.async (some slot)))
    else c.withCtx s fun k x =>
      let size := ((c.g.read64 c.rank a 0).extractLsb' 0 11).toNat
      let v := x.cv n.toNat
      let e := laneCount c.em
      if size + 1 > 1536 || ((v.st == 1 || v.st == 3) && v.signed != 0 && size != v.size.toNat) || v.st == 2 ||
          v.signed + e > size + 1 then c.illegalOperand
      else c.signs n.toNat size (fun l => c.g.read32 c.rank .word b l) slot k x s) s

/-- The pair at an even S register (R204). -/
def Ctx.pair (c : Ctx) (r : BitVec 5) : MatPair := { ra := c.g.sget r.toNat, org := c.g.sget (r.toNat + 1) }

/-- An S pair of a tile instruction, or none. -/
def Ctx.pair? (c : Ctx) (r : Option (BitVec 5)) : MatPair :=
  match r with
  | some r => c.pair r
  | none => { ra := 0, org := 0 }

/-- The pair's index is odd (R204). -/
def oddPair (r : Option (BitVec 5)) : Bool :=
  match r with
  | some r => r.getLsbD 0
  | none => false

/-- An operation enters its context's attach order, holding its tail slot until it completes (R198, R200). -/
def State.attach (s : State) (c : Ctx) (k : Nat) (tl : Tail) (o : MatOp) : State :=
  let s1 := match tl with
    | none => { s with nextId := s.nextId + 1 }
    | some _ => s.launchAsync { c.async tl with ready := false, site := o.site }
  s1.modCtx c.core k fun x => { x with ops := x.ops ++ [{ o with id := s.nextId }] }

/-- The shared course of the tile instructions (R198). -/
def tileOp (kind : MatKind) (cv : CvAttach) (set sat : Bool) (rnd : Rnd) (acc : AccField) (b cc : Option (BitVec 5))
    (tl : Tail) (s : State) : Result :=
  issueAsync Ctx.noHandler [] tl (fun c s => c.withCtx s fun k x =>
    let t := c.g.accTile acc
    if !c.g.tileInWindow t || oddPair b || oddPair cc then c.illegalOperand
    else
      let o : MatOp :=
        { id := 0, kind := kind, gid := c.gid, tag := c.g.tag, stage := .attached, tile := t, set := set, sat := sat,
          rnd := rnd, b := c.pair? b, c := c.pair? cc, fmt := 0, recB := [], recC := [], site := s.siteOf c.g c.cl.pc,
          firing := s.siteOf c.g c.cl.pc, got := [], wrote := [] }
      match cv with
      | none => c.fires c.at_ o s fun o' s' => s'.attach c k tl o'
      | some n =>
        let v := x.cv n.toNat
        if v.st = 3 then c.illegalOperand
        else if v.st = 2 then
          c.fires c.at_ { o with fmt := v.ref } s fun o' s' =>
            ((s'.attach c k tl o').modCtx c.core k fun x => x.setCv n.toNat v.fired).endOps v.signOps
        else
          .ok ((s.attach c k tl o).modCtx c.core k fun x => x.setCv n.toNat { v with st := 3, op := some s.nextId })) s

/-- mma (R202, R209). -/
def execMma (cv : BitVec 3) (set sat : Bool) (acc : AccField) (b c : BitVec 5) (tl : Tail) (s : State) : Result :=
  tileOp .mma (some cv) set sat .rn acc (some b) (some c) tl s

/-- mmas (R202, R209). -/
def execMmas (cv : BitVec 3) (set sat : Bool) (acc : AccField) (b c : BitVec 5) (tl : Tail) (s : State) : Result :=
  tileOp .mmas (some cv) set sat .rn acc (some b) (some c) tl s

/-- mmt (R202, R209). -/
def execMmt (cv : BitVec 3) (set sat : Bool) (acc : AccField) (b c : BitVec 5) (tl : Tail) (s : State) : Result :=
  tileOp .mmt (some cv) set sat .rn acc (some b) (some c) tl s

/-- mzero (R210). -/
def execMzero (cv : CvAttach) (acc : AccField) (tl : Tail) (s : State) : Result :=
  tileOp .mzero cv false false .rn acc none none tl s

/-- mld (R211). -/
def execMld (cv : CvAttach) (acc : AccField) (b : BitVec 5) (tl : Tail) (s : State) : Result :=
  tileOp .mld cv false false .rn acc (some b) none tl s

/-- mdrain (R212). -/
def execMdrain (cv : CvAttach) (rnd : Rnd) (acc : AccField) (b : BitVec 5) (tl : Tail) (s : State) : Result :=
  tileOp .mdrain cv false false rnd acc (some b) none tl s

/-- mdraint (R213). -/
def execMdraint (cv : CvAttach) (rnd : Rnd) (acc : AccField) (b c : BitVec 5) (tl : Tail) (s : State) : Result :=
  tileOp .mdraint cv false false rnd acc (some b) (some c) tl s

/-- mchk (R216). -/
def execMchk (cv : CvAttach) (acc : AccField) (b c : BitVec 5) (tl : Tail) (s : State) : Result :=
  tileOp .mchk cv false false .rn acc (some b) (some c) tl s

/-- mrd (R214): it reads the bank once every earlier operation of its context has completed. -/
def execMrd (n : BitVec 3) (d : BitVec 6) (acc : AccField) (c0 : Operand) (tl : Tail) (s : State) : Result :=
  let cnt := 2 ^ n.toNat
  issueAsync (fun _ => true) [.regs d cnt 1] tl (fun c s => c.withCtx s fun _ _ =>
    let t := c.g.accTile acc
    let x := ((c.g.read64 c.rank c0 0).extractLsb' 0 6).toNat
    if !c.g.tileInWindow t || x % cnt != 0 || x + cnt > 64 then c.illegalOperand
    else .ok (s.launchAsync
      { c.async tl with site := s.siteOf c.g c.cl.pc, mrd := some (c.g.blk, t, x, cnt, d.toNat, c.em) })) s

/-- mstat (R218). -/
def execMstat (item : MstatItem) (tl : Tail) (s : State) : Result :=
  issue [] tl (fun c s => c.withCtx s fun k x =>
    match item with
    | .state d n => .ok (s.put c (c.g.sset d.toNat (x.cv n.toNat).word))
    | .fmt d n => .ok (s.put c (c.g.sset d.toNat ((x.cv n.toNat).ref.setWidth 64)))
    | .tol d => .ok (s.put c (c.g.sset d.toNat (x.mtolExp.setWidth 64 ||| if x.mtolTrap then 256 else 0)))
    | .mmc d => .ok ((s.put c (c.g.sset d.toNat (x.mmc.setWidth 64))).modCtx c.core k fun x => { x with mmc := 0 })
    | .settol a =>
      let y := c.g.read64 c.rank a 0
      let e := (y.extractLsb' 0 5).toNat
      if e < 4 || e > 23 then c.illegalOperand
      else .ok (s.modCtx c.core k fun x => { x with mtolTrap := y.getLsbD 8, mtolExp := y.extractLsb' 0 5 })) s

/-- A convergence register is cancelled (R197): its unfired operation is discarded, its slots are released. -/
def State.cancelCv (s : State) (core k n : Nat) : State :=
  let v := ((s.core core).ctx k).cv n
  (s.modCtx core k fun x =>
    { x.setCv n v.released with ops := x.ops.filter fun o => some o.id != v.op }).endOps (v.op.toList ++ v.signOps)

/-- mrel (R197). -/
def execMrel (n : BitVec 3) (s : State) : Result :=
  issue [] none (fun c s => c.withCtx s fun k _ => .ok (s.cancelCv c.core k n.toNat)) s

-- The engine (R133, R199 to R201)

/-- The view of a block, for its context's operands. -/
def State.viewOfBlock (s : State) (blk : Nat) : View :=
  let b := (s.block? blk).getD noBlock
  { core := b.core, unit := b.core, gid := 0, gix := 0, launchId := b.launch, blkId := blk, blk := b,
    la := (s.launch? b.launch).getD noLaunch, l2 := coreWho 5 b.core }

/-- Every tile-memory line that an operation reads or writes has its presence bit set (R199). -/
def State.opPresent (s : State) (v : View) (o : MatOp) : Bool :=
  (o.operands.flatMap MatOperand.pieces).all fun e =>
    match s.matHome v o.kind.access e.1 e.2 with
    | some a => s.present a
    | none => true

/-- The first operation of a context, when it may start (R199, R217). -/
def State.opReady (s : State) (x : MatCtx) : Option MatOp :=
  match x.owner, x.ops with
  | some blk, o :: _ =>
    if o.stage == .fired && s.opPresent (s.viewOfBlock blk) o && (o.kind != .mchk || decide (x.xm.length < 16)) then some o
    else none
  | _, _ => none

-- Reads and writes while an operation runs (R201; log entry 63)

/-- The operand bytes of an operation by home address, device memory's alone or all. -/
def State.opBytes (s : State) (v : View) (o : MatOp) (dev : Bool) : List (Nat × Nat) :=
  ((o.operands.flatMap MatOperand.pieces).filter fun e => !dev || spaceOf e.1 == some .dev).filterMap fun e =>
    (s.matHome v o.kind.access e.1 e.2).map fun a => (a, e.2)

/-- The 16-byte units that hold some bytes. -/
def unitsOf (es : List (Nat × Nat)) : List Nat :=
  distinct (es.flatMap fun e => (List.range ((e.1 + e.2 - 1) / 16 + 1 - e.1 / 16)).map fun i => e.1 / 16 + i)

/-- Memory as an operation sees it: the units it has read, as they were. -/
def State.asRead (s : State) (got : List (Nat × Nat)) : State :=
  { s with mem := got.foldl (fun m u => Memory.writes m (16 * u.1) (natBytes u.2 16)) s.mem }

/-- Writes the elements of a list from another memory. -/
def State.copyBytes (s : State) (src : State) : List (Nat × Nat) → State
  | [] => s
  | e :: es => State.copyBytes (s.storeBytes e.1 (Memory.reads src.mem e.1 e.2)) src es

/-- An operation reads some units that it has not read: device memory's once it has fired, the others once it runs. Which
ones is free. -/
def State.matReads (s : State) (core ctx : Nat) (v : View) (o : MatOp) : State :=
  let us := (unitsOf (s.opBytes v o (o.stage != .running))).filter fun u =>
    o.got.all (fun x => x.1 != u) && Config.matMoves s.tick u
  let s1 := (distinct ((us.filter fun u => decide (u < 2 ^ 44)).map fun u => u / 8)).foldl
    (fun s l => (s.beforeRead core l).l2See (l * 128) 128 false v.l2 (dieOf core)) s
  s1.modCtx core ctx fun x => { x with ops := x.ops.map fun (p : MatOp) =>
    if p.id = o.id then { p with got := p.got ++ us.map fun u => (u, s1.loadN (16 * u) 16) } else p }

/-- A running drain writes some elements that it has not written. Which ones is free. -/
def State.matWrites (s : State) (core ctx : Nat) (v : View) (x : MatCtx) (o : MatOp) : State :=
  let es := (s.opBytes v o false).filter fun e => !o.wrote.contains e.1 && Config.matMoves s.tick e.1
  (s.copyBytes (s.drain v x o) es).modCtx core ctx fun x => { x with ops := x.ops.map fun (p : MatOp) =>
    if p.id = o.id then { p with wrote := p.wrote ++ es.map (·.1) } else p }

/-- The fired operations of a context go on. -/
def State.matProgress (s : State) (core ctx : Nat) : List MatOp → State
  | [] => s
  | o :: os =>
    let x := (s.core core).ctx ctx
    match x.owner with
    | none => s
    | some blk =>
      let v := s.viewOfBlock blk
      State.matProgress (if o.stage == .attached then s
        else if !o.kind.drains then s.matReads core ctx v o
        else if o.stage == .running then s.matWrites core ctx v x o
        else s) core ctx os

/-- The context's running operation uses the multiply array. -/
def MatCtx.usesArray (x : MatCtx) : Bool := x.ops.any fun o => o.stage == .running && o.kind.onArray

/-- MATRIX_OP_START (R133, R199): the first operation of a context starts; the two contexts take turns on the array. While
none can start, the operations that have fired go on with their reads and writes (R201). -/
def execMatrixOpStart (core ctx : Nat) (s : State) : Result :=
  let x := (s.core core).ctx ctx
  let y := (s.core core).ctx (1 - ctx)
  .next (if ctx > 1 then s
    else match s.opReady x with
    | none => s.matProgress core ctx x.ops
    | some o =>
      let other := match s.opReady y with
        | some p => p.kind.onArray
        | none => false
      if o.kind.onArray && (y.usesArray || (other && (s.core core).lastCtx == ctx)) then s.matProgress core ctx x.ops
      else
        let s1 := s.modCtx core ctx fun x => { x with ops := x.ops.map fun p => if p.id = o.id then { p with stage := .running } else p }
        if o.kind.onArray then s1.modCore core fun c => { c with lastCtx := ctx } else s1)

/-- The device-memory lines that an operation's operands lie in. -/
def State.opLines (s : State) (v : View) (o : MatOp) : List Nat :=
  distinct (((o.operands.flatMap MatOperand.pieces).filter fun e => spaceOf e.1 == some .dev).filterMap fun e =>
    (s.matHome v o.kind.access e.1 e.2).map fun a => a / 128)

/-- The first operand byte whose device address does not translate (R219). -/
def State.opFault (s : State) (v : View) (o : MatOp) : Option W64 :=
  ((o.operands.flatMap MatOperand.pieces).find? fun e => match s.matHome v o.kind.access e.1 e.2 with
    | none => true
    | some p => s.peerDown p).map (·.1)

/-- A mchk's reports (R216, R378): one record for each failing row. -/
def State.reportRows (s : State) (site : Site) : Nat → State
  | 0 => s
  | n + 1 => State.reportRows (s.recordAt (dieOf site.core) 10 [site.pc, site.seq.setWidth 64] site.words) site n

/-- A mchk completes with its failing and skipped rows (R216, R217): MMC, the XM entry, and the trap that waits for its group's next clause boundary. -/
def State.endCheck (s : State) (core ctx : Nat) (x : MatCtx) (o : MatOp) (r : LaneMask × LaneMask) : State :=
  let n := laneCount r.1
  let s1 := (s.modCtx core ctx fun x =>
    { x with mmc := BitVec.ofNat 32 (Nat.min (x.mmc.toNat + n) (2 ^ 32 - 1)),
             xm := x.xm ++ [BitVec.ofNat 64 (r.1.toNat * 2 ^ 32 + r.2.toNat)] }).reportRows o.site n
  if x.mtolTrap && r.1 != 0 then
    s1.modGroup o.gid fun g => if g.tag = o.tag then { g with checks := g.checks ++ [r.1] } else g
  else s1

/-- The effect of an operation (R209 to R216): on what it has read while it ran and reads now, and on what it has not written. -/
def State.runOp (s : State) (v : View) (core ctx : Nat) (x : MatCtx) (o : MatOp) : State :=
  let us := (unitsOf (s.opBytes v o false)).filter fun u => o.got.all fun x => x.1 != u
  let seen := s.asRead (o.got ++ us.map fun u => (u, s.loadN (16 * u) 16))
  match o.kind with
  | .mzero => s.modCtx core ctx fun x => x.setTile o.tile fun _ _ => 0
  | .mld => s.modCtx core ctx fun _ => seen.matLoad v x o
  | .mdrain => s.copyBytes (s.drain v x o) ((s.opBytes v o false).filter fun e => !o.wrote.contains e.1)
  | .mdraint => s.copyBytes (s.drain v x o) ((s.opBytes v o false).filter fun e => !o.wrote.contains e.1)
  | .mchk => s.endCheck core ctx x o (seen.checkRows v x o)
  | _ => s.modCtx core ctx fun _ => seen.multiply v x o

/-- MATRIX_OP_COMPLETE (R200, R201, R209 to R216): the running operation of a context takes its whole effect; a device address
that does not translate is an asynchronous engine fault of the firing instruction (R219). -/
def execMatrixOpComplete (core ctx : Nat) (s : State) : Result :=
  let x := (s.core core).ctx ctx
  .next (match x.owner, x.ops with
    | some blk, o :: _ =>
      if ctx > 1 || o.stage != .running then s
      else
        let v := s.viewOfBlock blk
        match s.opFault v o with
        | some a => (s.touchTlb v 0 a).killLaunch v.launchId 0x30 a o.firing
        | none =>
          let s0 := (s.opLines v o).foldl
            (fun s l => (s.beforeRead core l).l2See (l * 128) 128 o.kind.drains v.l2 (dieOf core)) s
          ((s0.runOp v core ctx x o).modCtx core ctx fun x => { x with ops := x.ops.filter fun p => p.id != o.id }).endOps
            [o.id]
    | _, _ => s)

/-- MATRIX_CHECK_TRAP (R217, R255): at a clause boundary the issuing group of a failing mchk traps, once it is not halted (R374), under the header of the
clause that its least PC would issue. -/
def execMatrixCheckTrap (gid : Nat) (s : State) : Result :=
  .next (match s.group? gid with
    | none => s
    | some g =>
      match g.checks, leastPc (g.pcs (laneList g.live)) with
      | m :: rest, some pc =>
        if g.clause.isSome || g.halted then s
        else (s.setGroup gid { g with checks := rest }).takeTrap gid pc (g.headerOf pc)
          { code := 0x14, wr := false, addr := m.setWidth 64, mask := g.live, resume := pc }
      | _, _ => s)

/-- Cancels every convergence register of a context. -/
def State.cancelAll (s : State) (core k : Nat) : List Nat → State
  | [] => s
  | n :: ns => State.cancelAll (s.cancelCv core k n) core k ns

/-- MATRIX_CONTEXT_END (R221): a dead block's registers are cancelled; once its fired operations have completed the context
returns to the pool. -/
def execMatrixContextEnd (blk : Nat) (s : State) : Result :=
  .next (match s.block? blk with
    | none => s
    | some b =>
      match b.ctx with
      | none => s
      | some k =>
        if b.saved || !s.blockDead blk then s
        else
          let s1 := s.cancelAll b.core k (List.range 8)
          if !((s1.core b.core).ctx k).ops.isEmpty then s1
          else ((s1.modCore b.core fun c => c.setCtx k freeCtx).modBlock blk fun b => { b with ctx := none }).tryEndBlock blk)

end Sys2Proof.Machine
end

