-- ==== Sys2Proof/Machine/System.lean ====
section
/-! DEFINITION. Control and status registers (R261, R262), system calls (R263), debug registers (R264, R370) and instruction
invalidation (R265). -/

namespace Sys2Proof.Machine

-- Control and status registers

/-- A register of the table other than EPC (R261). -/
def csrValue (v : View) (g : Group) (n : Nat) : W64 :=
  match n with
  | 0x000 => g.ecause
  | 0x001 => g.eaddr
  | 0x002 => g.emask.setWidth 64
  | 0x004 => g.sen.setWidth 64
  | 0x005 => g.scm.setWidth 64
  | 0x006 => g.hkind.setWidth 64
  | 0x007 => g.ehdr
  | 0x008 => NMap.get 0 g.escr 0
  | 0x009 => NMap.get 0 g.escr 1
  | 0x00A => NMap.get 0 g.escr 2
  | 0x00B => NMap.get 0 g.escr 3
  | 0x010 => v.la.tha
  | 0x011 => v.la.dha
  | 0x012 => BitVec.ofNat 64 v.la.plim
  | 0x013 => BitVec.ofNat 64 v.privBase
  | 0x014 => BitVec.ofNat 64 v.la.cto
  | 0x015 => BitVec.ofNat 64 v.la.bint
  | _ => 0

/-- The register is reachable where the group stands: those marked handler only in a handler (R261). -/
def csrReach (csr : BitVec 24) (g : Group) : Bool :=
  match csrRow csr with
  | none => false
  | some (inHandler, _) => !inHandler || g.hkind != 0

/-- csrr (R262). -/
def execCsrr (d : Dest) (csr : BitVec 24) (s : State) : Result :=
  issueIf (fun c => csrReach csr c.g) [.dst d true] none (fun c s =>
    let v := s.viewOf c.gid c.g
    .ok (s.put c (match d with
      | .s r => c.g.sset r.toNat (csrValue v c.g csr.toNat)
      | .v r => c.g.vset64Lanes r.toNat (fun l => NMap.get 0 c.g.epc l) (laneList c.em)
      | _ => c.g))) s

/-- Writes a register of the table other than EPC. -/
def Group.csrSet (g : Group) (n : Nat) (x : W64) : Group :=
  match n with
  | 0x004 => { g with sen := x.setWidth 32 }
  | 0x005 => { g with scm := x.setWidth 32 }
  | 0x008 => { g with escr := NMap.set 0 g.escr 0 x }
  | 0x009 => { g with escr := NMap.set 0 g.escr 1 x }
  | 0x00A => { g with escr := NMap.set 0 g.escr 2 x }
  | 0x00B => { g with escr := NMap.set 0 g.escr 3 x }
  | _ => g

/-- csrw (R262). -/
def execCsrw (csr : BitVec 24) (a : Operand) (s : State) : Result :=
  issueIf (fun c => csrReach csr c.g) [.src64 a] none (fun c s =>
    if csr = 3 then
      .ok (s.put c { c.g with epc := setLanes (NMap.set 0) (fun l => c.g.read64 c.rank a l) c.g.epc (laneList c.em) })
    else .ok (s.put c (c.g.csrSet csr.toNat (c.g.read64 c.rank a 0)))) s

-- System calls

/-- A note is dropped, and counted in NDROP, on a full ring or a queue that is not enabled (R263, R401). -/
def State.note (s : State) (q : Nat) (ws : List W64) : State :=
  let x := s.queue q
  let size := 2 ^ ((x.read 4).extractLsb' 0 5).toNat
  if !x.enabled || decide (x.evcnt.toNat - x.evhead.toNat + x.events.length ≥ size) then
    s.modQueue q fun x => x.setWord 6 (((x.word 6).extractLsb' 32 32 + 1) ++ (x.word 6).extractLsb' 0 32)
  else s.postEvent q ws

/-- sysc.note (R263), which is also a hash point (R385). -/
def execSyscNote (a : Operand) (tl : Tail) (s : State) : Result :=
  issue [.src64 a] tl (fun c s =>
    let x := s.siteOf c.g c.cl.pc
    .ok ((s.note x.queue [ev0 4 0, c.g.read64 c.rank a 0, x.pc, x.seq.setWidth 64, x.word]).addHash c.gid
      [.point x.pc x.seq])) s

/-- sysc.kill (R263): the context is killed with CODE 0x35. -/
def execSyscKill (a : Operand) (tl : Tail) (s : State) : Result :=
  issueAsync (fun _ => true) [.src64 a] tl (fun c s =>
    .ok (s.killLaunch c.g.launch 0x35 (c.g.read64 c.rank a 0) (s.siteOf c.g c.cl.pc))) s

-- Debug registers

/-- The register number of dbgr and dbgw (R264). -/
def Ctx.debugNumber (c : Ctx) (a : Operand) : Nat :=
  match a with
  | .s r => (c.g.sget r.toNat).toNat % 64
  | o => (c.g.read64 c.rank o 0).toNat

/-- dbgr (R264). -/
def execDbgr (d : BitVec 5) (a : Tailed Operand) (s : State) : Result :=
  issueIf (fun c => c.g.hkind == 2) [] a.tail (fun c s =>
    let n := c.debugNumber a.arg
    if n ≥ 32 then c.illegalOperand
    else .ok (s.put c (c.g.sset d.toNat (((c.g.dbgPend.find? fun e => e.1 == n).map (·.2)).getD
      ((s.core c.core).debugReg n))))) s

/-- A value that a debug register takes: reserved bits zero, LEN at most 12 (R370). -/
def debugOk (n : Nat) (x : W64) : Bool :=
  if n < 8 then x.extractLsb' 56 8 == 0 && x.extractLsb' 1 2 == 0
  else if n < 16 then x.extractLsb' 58 5 == 0
  else if n < 24 then true
  else x.extractLsb' 4 16 == 0 && (x.extractLsb' 20 4).toNat ≤ 12

/-- dbgw (R264): in effect after the handler's rtt. -/
def execDbgw (a : Operand) (b : Tailed Operand) (s : State) : Result :=
  issueIf (fun c => c.g.hkind == 2) [] b.tail (fun c s =>
    let n := c.debugNumber a
    let x := c.g.read64 c.rank b.arg 0
    if n ≥ 32 || !debugOk n x then c.illegalOperand
    else .ok (s.put c { c.g with dbgPend := NMap.put c.g.dbgPend n x })) s

-- Instruction invalidation

/-- The home byte of a device-virtual address, where it has one. -/
def State.homeByte (s : State) (v : View) (a : Nat) : Option Nat :=
  match s.devPiece v a 1 .read with
  | .ok (.snap p) => some p
  | _ => none

/-- Writes back the dirty bytes of one aligned 8-byte word of the range and drops its instruction word: lo and hi bound the
range (R265). -/
def State.iinvWord (s : State) (v : View) (lo hi w : Nat) : State :=
  match s.homeByte v (w * 8) with
  | none => s
  | some p =>
    let m := maskFrom (fun i => decide (lo ≤ w * 8 + i) && decide (w * 8 + i < hi)) (List.range 8)
    let s1 := s.cleanLine v.core v.launchId (p / 128) (BitVec.ofNat 128 (m.toNat * 2 ^ (p % 128)))
    let s2 := s1.performFirst (s1.wbs.filter fun x => x.core == v.core && x.line == p / 128)
    s2.modCore v.core fun c => { c with icache := NMap.erase c.icache (p / 8) }

/-- The words of a range, n of them from a first one. -/
def State.iinvWords (s : State) (v : View) (lo hi w : Nat) : Nat → State
  | 0 => s
  | n + 1 => State.iinvWords (s.iinvWord v lo hi w) v lo hi (w + 1) n

/-- iinv (R265). -/
def execIinv (a : BitVec 5) (b : Tailed (BitVec 5)) (s : State) : Result :=
  issueIf (fun c => c.g.hkind == 2) [] b.tail (fun c s =>
    let lo := (c.g.sget a.toNat).toNat
    let len := (c.g.sget b.arg.toNat).toNat
    if len = 0 then .ok s
    else if lo + len > 2 ^ 56 then c.illegalOperand
    else if s.rangeHeld (s.viewOf c.gid c.g).la.asn lo len then .stall
    else .ok (s.iinvWords (s.viewOf c.gid c.g) lo (lo + len) (lo / 8) ((lo + len + 7) / 8 - lo / 8))) s

end Sys2Proof.Machine
end

