-- ==== Sys2Proof/Machine/DebugCmd.lean ====
section
/-! DEFINITION. The die control core (R366 to R376, R394): DEBUG commands, the status and PC samples of groups, the debug
ring and the L2-slice watchpoints. -/

namespace Sys2Proof.Machine

-- Data of a DEBUG command (R394)

/-- A range of physical addresses lies in installed memory. -/
def State.physOk (s : State) (pa : W64) (n : Nat) : Bool := decide (pa.toNat + n ≤ s.capacity)

/-- Words of device memory at a physical address. -/
def State.physWords (s : State) (pa : W64) (n : Nat) : List W64 := (List.range n).map fun i => s.load64 (pa.toNat + 8 * i)

/-- Runs a DEBUG command on the words at K2: one that lies outside installed memory faults (R395). -/
def State.onData (s : State) (q c : Nat) (pa : W64) (n : Nat) (f : List W64 → Except CmdErr State) : Result :=
  s.onCmd q c fun _ =>
    if !s.physOk pa (8 * n) then s.failCommand q c .operand
    else match f (s.physWords pa n) with
      | .error e => s.failCommand q c e
      | .ok s1 => s1.completeCmd q c

/-- Die of K1. -/
def debugDie (k1 : W64) : Nat := (k1.extractLsb' 60 4).toNat

/-- The samplers of a die are set; the first period of 2^n cycles starts now (R368, R377). -/
def State.setSampling (s : State) (die n m : Nat) : State :=
  { s.modDie die fun d => { d with pcRate := some n, pcSince := s.now, memRate := some m } with
    cores := s.cores.map fun e => if dieOf e.1 = die then (e.1, { e.2 with pcTaken := 0 }) else e }

/-- DEBUG_SAMPLING (R368, R377, R394). -/
def execDebugSampling (q c : Nat) (k1 k2 : W64) (s : State) : Result :=
  s.onData q c k2 1 fun ws =>
    let n := ((ws.getD 0 0).extractLsb' 0 5).toNat
    let m := ((ws.getD 0 0).extractLsb' 8 5).toNat
    if 8 ≤ n && n ≤ 24 && 4 ≤ m && m ≤ 20 then
      .ok (s.setSampling (debugDie k1) n m)
    else .error .malformed

/-- Why the words of a debug ring are refused (R369, R394, R395). -/
def State.ringError (s : State) (ws : List W64) : Option CmdErr :=
  let base := ws.getD 0 0
  let n := (ws.getD 1 0).toNat
  let wr := ws.getD 2 0
  let co := ws.getD 3 0
  if ws.getD 4 0 != 0 || n < 6 || n > 20 then some .malformed
  else if base.toNat % 4096 != 0 || wr.toNat % 8 != 0 || co.toNat % 8 != 0 then some .operand
  else if !s.physOk base (64 * 2 ^ n) || !s.physOk wr 16 || !s.physOk co 8 then some .operand
  else none

/-- DEBUG_RING (R369, R394): the ring is set, and its counts become 0. -/
def execDebugRing (q c : Nat) (k1 k2 : W64) (s : State) : Result :=
  s.onData q c k2 5 fun ws =>
    match s.ringError ws with
    | some e => .error e
    | none =>
      let ring : DebugRing :=
        { base := (ws.getD 0 0).toNat, n := (ws.getD 1 0).toNat, written := (ws.getD 2 0).toNat,
          consumed := (ws.getD 3 0).toNat }
      .ok ((((s.store64 ring.written 0).store64 (ring.written + 8) 0).store64 ring.consumed 0).modDie (debugDie k1)
        fun d => { d with ring := some ring })

/-- What the host's write leaves in a debug register: reserved bits read 0 (R370). -/
def debugMask (n : Nat) : W64 :=
  if n < 8 then 0x00FFFFFFFFFFFFF9 else if n < 16 then 0x83FFFFFFFFFFFFFF else if n < 24 then 0xFFFFFFFFFFFFFFFF
  else 0xFFFFFFFFFFF0000F

/-- Writes the debug registers from a number on. -/
def Core.setDebugs (x : Core) (n : Nat) : List W64 → Core
  | [] => x
  | w :: ws => Core.setDebugs (x.setDebug n (w &&& debugMask n)) (n + 1) ws

/-- DEBUG_BREAKPOINTS (R370, R394): LEN above 12 is out of range. -/
def execDebugBreakpoints (q c : Nat) (k1 k2 : W64) (s : State) : Result :=
  s.onData q c k2 32 fun ws =>
    match debugCore k1 with
    | none => .error .malformed
    | some core =>
      if (ws.drop 24).any fun w => decide ((w.extractLsb' 20 4).toNat > 12) then .error .malformed
      else .ok (s.modCore core fun x => x.setDebugs 0 ws)

/-- Writes the words of a predicate or of a slice's comparators into a table. -/
def putWords (m : NMap W64) (base : Nat) : List W64 → NMap W64
  | [] => m
  | w :: ws => putWords (NMap.set 0 m base w) (base + 1) ws

/-- DEBUG_PREDICATE (R373, R394). -/
def execDebugPredicate (q c : Nat) (k1 k2 : W64) (s : State) : Result :=
  s.onData q c k2 8 fun ws =>
    .ok (s.modDie (debugDie k1) fun d => { d with preds := putWords d.preds (k1.toNat % 256 * 8) ws })

/-- DEBUG_L2_WATCH (R375, R394): a slice that the package has not, or an address above device memory, is out of range. -/
def execDebugL2Watch (q c : Nat) (k1 k2 : W64) (s : State) : Result :=
  s.onData q c k2 4 fun ws =>
    if k1.toNat % 256 ≥ s.l2n || ws.any fun w => w.extractLsb' 48 2 != 0 then .error .malformed
    else .ok (s.modDie (debugDie k1) fun d =>
      { d with l2w := putWords d.l2w (k1.toNat % 256 * 4) (ws.map fun w => w &&& 0x0003FFFFFFFFFFFF) })

-- Halted groups (R374, R394)

/-- The halted group that K1 names, by core, GIX and block index. -/
def State.haltedGroup (s : State) (k1 : W64) : Option (Nat × Group) :=
  match debugCore k1 with
  | none => none
  | some core =>
    s.groups.find? fun (e : Nat × Group) =>
      e.2.core == core && e.2.gix == (k1.extractLsb' 41 6).toNat && e.2.halted && e.2.watchHit.isEmpty &&
        ((s.block? e.2.blk).map Block.index) == some (k1.extractLsb' 0 32).toNat

/-- GIX of K1 is in range (R394). -/
def debugGixOk (k1 : W64) : Bool := decide ((k1.extractLsb' 41 6).toNat < 48)

/-- PC of a halted group (R367, R372): the word at which a watch stopped it, else the least of its lanes returned inside a
clause. -/
def Group.haltPc (g : Group) : W64 :=
  match g.watchSave with
  | some w => w.clause.pc
  | none => g.pc ((lowestLane (if g.mid = 0 then g.live else g.mid)).getD 0)

/-- A halted group's entry into the debug handler, with its state as at the stop (R374). The lanes reported are those at its
PC, or where the debugger has moved them all, every lane that the stop holds (log entry 51). -/
def State.debugHalted (s : State) (gid : Nat) (g : Group) : State :=
  let held := if g.mid = 0 then g.live else g.mid
  let here := if held &&& g.lanesAt g.haltPc = 0 then held else held &&& g.lanesAt g.haltPc
  (s.setGroup gid { g with halted := false, watchHit := [], watchSave := none, queue := g.shadow }).enterDebug gid g.haltPc
    (if g.mid = 0 then g.haltPc else g.midHdr)
    { code := 0x21, wr := false, addr := 0, mask := here &&& g.en, resume := g.haltPc }

/-- DEBUG_RESUME (R374): the group resumes, or with debug enabled enters the debug handler; the spec gives no rule for which
(log entry 2). -/
def execDebugResume (q c : Nat) (k1 _k2 : W64) (s : State) : Result :=
  s.onCmd q c fun _ =>
    if !debugGixOk k1 then s.failCommand q c .malformed
    else match s.haltedGroup k1 with
      | none => s.completeCmd q c
      | some (gid, g) =>
        let p := s.pick (if g.hkind = 0 && s.dhaOf g != 0 then 2 else 1)
        (if p.1 = 0 then p.2.setGroup gid g.resumeHalt else p.2.debugHalted gid g).completeCmd q c

-- The image of a halted group's state (R31, R270, R394; log entry 51)

/-- A field of the image: its bytes, its value, and what writing it does. -/
structure ImageField where
  bytes : Nat
  value : Nat
  put : Nat → State → State

/-- A field that only reads. -/
def roField (n value : Nat) : ImageField := { bytes := n, value := value, put := fun _ s => s }

/-- Fields of n bytes that belong to a group. -/
def groupFields (gid n count : Nat) (get : Nat → Nat) (put : Nat → Nat → Group → Group) : List ImageField :=
  (List.range count).map fun i => { bytes := n, value := get i, put := fun x s => s.modGroup gid (put i x) }

/-- A routing-table entry as a write leaves it: its reserved bits zero, bit 5 too but in an indexed one (R45). -/
def routeWord (x : Nat) : BitVec 16 := BitVec.ofNat 16 x &&& if x / 2 ^ 14 % 4 = 3 then 0xC03F else 0xC01F

/-- The registers of R31. -/
def Group.registerFields (g : Group) (gid : Nat) : List ImageField :=
  let many := groupFields gid
  many 8 32 (fun l => (g.pc l).toNat) (fun l x g => g.setPc l (BitVec.ofNat 64 x)) ++
    many 4 (32 * g.nregs) (fun i => (g.vget (i / 32) (i % 32)).toNat) (fun i x g => g.vset (i / 32) (i % 32) (BitVec.ofNat 32 x)) ++
    many 8 32 (fun r => (g.sget r).toNat) (fun r x g => g.sset r (BitVec.ofNat 64 x)) ++
    many 4 1 (fun _ => g.cm.toNat) (fun _ x g => { g with cm := BitVec.ofNat 32 x }) ++
    many 4 1 (fun _ => g.en.toNat) (fun _ x g => { g with en := BitVec.ofNat 32 x }) ++
    many 4 3 (fun n => (g.lcGet n).toNat) (fun n x g => g.lcSet n (BitVec.ofNat 32 x)) ++
    many 1 1 (fun _ => g.fps.toNat) (fun _ x g => { g with fps := BitVec.ofNat 5 x }) ++
    many 64 4 (fun n => (g.wget n).toNat) (fun n x g => { g with w := NMap.set 0 g.w n (BitVec.ofNat 512 x) }) ++
    many 2 7 (fun n => (g.rt n).toNat) (fun n x g => { g with t := NMap.set 0 g.t n (routeWord x) }) ++
    many 2 1 (fun _ => g.ab.toNat) (fun _ x g => { g with ab := BitVec.ofNat 9 x }) ++
    many 2 1 (fun _ => g.al.toNat) (fun _ x g => { g with al := BitVec.ofNat 9 x })

/-- The handler state of R270, 336 bytes, and the queue shadow where the group has one. -/
def Group.handlerFields (g : Group) (gid : Nat) : List ImageField :=
  let many := groupFields gid
  let set (f : W64 → Group → Group) (_ x : Nat) (g : Group) : Group := f (BitVec.ofNat 64 x) g
  many 8 32 (fun l => (NMap.get 0 g.epc l).toNat) (fun l x g => { g with epc := NMap.set 0 g.epc l (BitVec.ofNat 64 x) }) ++
    many 8 1 (fun _ => g.ecause.toNat) (set fun x g => { g with ecause := x &&& 0x1FF }) ++
    many 8 1 (fun _ => g.eaddr.toNat) (set fun x g => { g with eaddr := x }) ++
    many 4 1 (fun _ => g.emask.toNat) (set fun x g => { g with emask := x.setWidth 32 }) ++
    many 4 1 (fun _ => g.hkind.toNat) (set fun x g => if x.toNat < 3 then { g with hkind := x.setWidth 2 } else g) ++
    many 8 1 (fun _ => g.sen.toNat) (set fun x g => { g with sen := x.setWidth 32 }) ++
    many 8 1 (fun _ => g.scm.toNat) (set fun x g => { g with scm := x.setWidth 32 }) ++
    many 8 1 (fun _ => g.ehdr.toNat) (set fun x g => { g with ehdr := x }) ++
    many 8 4 (fun n => (NMap.get 0 g.escr n).toNat) (fun n x g => { g with escr := NMap.set 0 g.escr n (BitVec.ofNat 64 x) }) ++
    if g.hkind = 0 && g.shadow.isEmpty then []
    else many 4 512 (fun i => ((g.shadow.getD (i / 32) []).getD (i % 32) 0).toNat) fun i x g =>
      let q := (List.range 16).map fun e => (List.range 32).map fun l => (g.shadow.getD e []).getD l 0
      { g with shadow := q.set (i / 32) ((q.getD (i / 32) []).set (i % 32) (BitVec.ofNat 32 x)) }

/-- A ray's fields: its eight words, its flags, and the words of a record not yet popped. -/
def Ray.fields (r : Ray) : List ImageField :=
  let mod (f : Ray → Ray) (s : State) : State := { s with rays := s.rays.map fun x => if x.id = r.id then f x else x }
  (List.range 8).map (fun i =>
    { bytes := 4, value := (r.word i).toNat, put := fun x => mod fun y => { y with words := y.words.set i (BitVec.ofNat 32 x) } }) ++
    [{ bytes := 8, value := r.flags.toNat, put := fun x => mod fun y => { y with flags := BitVec.ofNat 64 x } }] ++
    match r.stage with
    | .ready ws _ => (List.range ws.length).map fun i =>
        { bytes := 4, value := (ws.getD i 0).toNat, put := fun x => mod fun y => match y.stage with
            | .ready us c => { y with stage := .ready (us.set i (BitVec.ofNat 32 x)) c }
            | _ => y }
    | _ => []

/-- A pending ctr.wait's fields: address, target, `.acq`, remaining time (all ones without a limit), destination (32 without
one) and slot. A written address that no counter could be waited for at leaves the wait as it is (log entry 51). -/
def State.waitFields (s : State) (w : Wait) : List ImageField :=
  let mod (f : Wait → Wait) (s : State) : State := { s with ctrWaits := s.ctrWaits.map fun x => if x.id = w.id then f x else x }
  let v := ((s.group? w.gid).map (s.viewOf w.gid)).getD (s.viewOf w.gid (newGroup w.core 0 w.launch 0 0 0 w.tag 0 0))
  let home (s : State) (a : W64) : Option Nat :=
    if (s.memCheck v [0] (fun _ => a) 8 8 .readWhole true).isSome then none else some (s.targetOf v 0 a 8 .readWhole).home.1
  [{ bytes := 8, value := w.va.toNat, put := fun x s => match home s (BitVec.ofNat 64 x) with
       | some a => mod (fun y => { y with va := BitVec.ofNat 64 x, addr := a }) s
       | none => s },
   { bytes := 8, value := w.target.toNat, put := fun x => mod fun y => { y with target := BitVec.ofNat 64 x } },
   { bytes := 1, value := if w.acq then 1 else 0, put := fun x => mod fun y => { y with acq := x % 2 == 1 } },
   { bytes := 8, value := ((w.limit.map (· - s.now)).getD (2 ^ 64 - 1)),
     put := fun x s => mod (fun y => { y with limit := if x = 2 ^ 64 - 1 then none else some (s.now + x) }) s },
   { bytes := 1, value := (w.dst.map BitVec.toNat).getD 32,
     put := fun x => mod fun y => { y with dst := if x < 32 then some (BitVec.ofNat 5 x) else none } },
   { bytes := 1, value := w.slot.toNat, put := fun x s =>
       let s1 := mod (fun y => { y with slot := BitVec.ofNat 3 x }) s
       { s1 with asyncs := s1.asyncs.map fun a => if a.id = w.op then { a with slot := some (BitVec.ofNat 3 x) } else a } }]

/-- STATE as a write leaves it: idle, collecting or complete without an attached operation, attached with one (R194). -/
def CvReg.stateOf (c : CvReg) (n : Nat) : Nat := if (n < 3 && c.op.isNone) || (n == 3 && c.op.isSome) then n else c.st

/-- A convergence register's fields: its state word (R194) and its reference word. -/
def MatCtx.cvFields (x : MatCtx) (core k n : Nat) : List ImageField :=
  let mod (f : CvReg → CvReg) (s : State) : State := s.modCtx core k fun y => y.setCv n (f (y.cv n))
  [{ bytes := 8, value := (x.cv n).word.toNat, put := fun z => mod fun c =>
       { c with fires := BitVec.ofNat 8 (z / 2 ^ 32), st := c.stateOf (z / 2 ^ 29 % 8), signed := z / 2 ^ 16 % 2 ^ 11, dis := z.testBit 11, size := BitVec.ofNat 11 z } },
   { bytes := 4, value := (x.cv n).ref.toNat, put := fun z => mod fun c => { c with ref := BitVec.ofNat 32 z } }]

/-- The fields of a group's image: the contents of R270 in their order, then SB0 to SB7 of R31 and the read-only registers of
R261. -/
def State.imageFields (s : State) (gid : Nat) (g : Group) : List ImageField :=
  let v := s.viewOf gid g
  g.registerFields gid ++ g.handlerFields gid ++
    ((s.rays.filter fun r => r.gid == gid && r.tag == g.tag).flatMap Ray.fields) ++
    ((s.ctrWaits.filter fun w => w.gid == gid && w.tag == g.tag).flatMap s.waitFields) ++
    (match s.ctxNum g.blk with
      | none => []
      | some k => (List.range 8).flatMap fun n => ((s.core g.core).ctx k).cvFields g.core k n) ++
    groupFields gid 1 8 (fun n => (g.sbGet n).toNat) (fun n x g => { g with sb := NMap.set 0 g.sb n (BitVec.ofNat 6 x) }) ++
    [(0x010, 8), (0x011, 8), (0x012, 4), (0x013, 8), (0x014, 4), (0x015, 2)].map fun (e : Nat × Nat) =>
      roField e.2 (csrValue v g e.1).toNat

/-- The image of a halted group. -/
def State.image (s : State) (gid : Nat) (g : Group) : List Byte :=
  (s.imageFields gid g).flatMap fun f => natBytes f.value f.bytes

/-- Its bytes. -/
def State.imageSize (s : State) (gid : Nat) (g : Group) : Nat := ((s.imageFields gid g).map ImageField.bytes).sum

/-- Writes fields from an image's bytes. -/
def State.putImage (s : State) : List ImageField → List Byte → State
  | [], _ => s
  | f :: fs, bs => State.putImage (f.put (bytesNat (bs.take f.bytes)) s) fs (bs.drop f.bytes)

/-- A halted group's state is written from an image. A lane that stands inside its clause stays so while its PC lies in that
clause. -/
def State.writeImage (s : State) (gid : Nat) (g : Group) (bs : List Byte) : State :=
  (s.putImage (s.imageFields gid g) bs).modGroup gid fun x =>
    { x with mid := maskOf fun l => x.mid.getLsbD l && insideClause x.midHdr (s.headerAt g g.midHdr) (x.pc l) }

/-- Runs a command on the halted group that K1 names and its data; without one it has no effect. -/
def State.onHalted (s : State) (q c : Nat) (k1 k2 : W64) (f : Nat → Group → State) : Result :=
  s.onCmd q c fun _ =>
    if !debugGixOk k1 then s.failCommand q c .malformed
    else match s.haltedGroup k1 with
      | none => s.completeCmd q c
      | some (gid, g) =>
        if !s.physOk k2 (s.imageSize gid g) then s.failCommand q c .operand else (f gid g).completeCmd q c

/-- DEBUG_READ_STATE (R374, R394). -/
def execDebugReadState (q c : Nat) (k1 k2 : W64) (s : State) : Result :=
  s.onHalted q c k1 k2 fun gid g => s.storeBytes k2.toNat (s.image gid g)

/-- DEBUG_WRITE_STATE (R374, R394). -/
def execDebugWriteState (q c : Nat) (k1 k2 : W64) (s : State) : Result :=
  s.onHalted q c k1 k2 fun gid g => s.writeImage gid g (Memory.reads s.mem k2.toNat (s.imageSize gid g))

-- Status and PC samples (R367, R368)

/-- The header at an issue PC has been fetched, so its WAIT test is known. -/
def State.headerKnown (s : State) (g : Group) (pc : W64) : Bool :=
  s.fetched g (g.headerOf pc)

/-- Codes 3 to 7 of a group between clauses, and the PC (R367): the first row that applies. -/
def State.idleStatus (s : State) (g : Group) : Nat × W64 :=
  match s.choice g with
  | none => (4, ((s.parkedPcs g).head?).getD 0)
  | some c =>
    if s.headerKnown g c.pc && !s.waitPasses g c.pc then (3, c.pc)
    else if !s.clauseFetched g (g.headerOf c.pc) then (5, c.pc)
    else if g.sleepUntil.isSome then (6, c.pc)
    else (7, c.pc)

/-- Status and PC of a group (R367): the first row that applies. -/
def State.status (s : State) (g : Group) : Nat × W64 :=
  if g.live = 0 then (8, g.lastPc)
  else if g.halted then (1, if g.watchSave.isNone && g.mid = 0 then g.lastPc else g.haltPc)
  else match g.clause with
    | some c => (0, c.pc)
    | none => s.idleStatus g

/-- The site that a sample names: SEQ is that of the word's issue, where it has issued (R366). -/
def State.statusSite (s : State) (g : Group) : Site :=
  let x := s.status g
  let y := s.siteOf g x.2
  if x.1 = 8 then s.lastSite g
  else if x.1 = 1 then { y with seq := (g.watchSave.map WatchSave.seq).getD g.lastSeq }
  else y

/-- The code that a sample reports: 2 in a handler (R367). -/
def State.statusCode (s : State) (g : Group) : Nat :=
  let n := (s.status g).1
  if g.hkind != 0 && n != 0 && n != 1 then 2 else n

/-- The core's next sample is due: one falls at the end of each period of 2^n cycles since the sampler was set (R368). -/
def State.sampleDue (s : State) (core : Nat) : Bool :=
  match (s.die (dieOf core)).pcRate with
  | none => false
  | some n => decide ((s.die (dieOf core)).pcSince + ((s.core core).pcTaken + 1) * 2 ^ n ≤ s.now)

/-- The group of the next occupied slot after the one sampled last, and the slot (R368). -/
def State.nextSampled (s : State) (core : Nat) : Option (Nat × Group) :=
  let first := (s.core core).lastSampled + 1
  (List.range 48).findSome? fun i => (s.group? (core * 48 + (first + i) % 48)).map fun g => ((first + i) % 48, g)

/-- PC_SAMPLE (R366, R368): the record of the next occupied slot, once its sample is due; with no slot occupied the sample
records nothing. -/
def execPcSample (core : Nat) (s : State) : Result :=
  .next (if !s.sampleDue core then s
    else
      let s1 := s.modCore core fun y => { y with pcTaken := y.pcTaken + 1 }
      match s.nextSampled core with
      | none => s1
      | some (slot, g) =>
        let x := s.statusSite g
        (s1.modCore core fun y => { y with lastSampled := slot }).recordAt (dieOf core) 1
          [x.pc, x.sample1 (256 * s.statusCode g), BitVec.ofNat 64 (x.block % 2 ^ 32 + x.launch * 2 ^ 32)] x.words)

-- The debug ring (R369)

/-- A record's eight words, from its first ones and the cycle that ends them; the words that no rule lays out for its type
are free, and a function of the site that the record concerns too (R366; log entry 19). -/
def recordWords (type : Nat) (ws loc : List W64) : List W64 :=
  (List.range 7).map (fun i => if i + 1 < ws.length then ws.getD i 0 else Config.recordWord type (ws ++ loc) i) ++
    [BitVec.ofNat 64 (type * 2 ^ 56 + (ws.getLastD 0).toNat % 2 ^ 56)]

/-- Writes words at consecutive addresses. -/
def State.storeWords (s : State) (a : Nat) : List W64 → State
  | [] => s
  | w :: ws => State.storeWords (s.store64 a w) (a + 8) ws

/-- DEBUG_RECORD (R369): the oldest record is written, or dropped while the ring is full. -/
def execDebugRecord (die : Nat) (s : State) : Result :=
  let d := s.die die
  .next (match d.records, d.ring with
    | r :: rest, some ring =>
      let s1 := s.modDie die fun x => { x with records := rest }
      let w := s.load64 ring.written
      let c := s.load64 ring.consumed
      let used := w.toNat - Nat.min c.toNat w.toNat
      if used ≥ 2 ^ ring.n then s1.store64 (ring.written + 8) (s.load64 (ring.written + 8) + 1)
      else (s1.storeWords (ring.base + 64 * (w.toNat % 2 ^ ring.n)) (recordWords r.1 r.2.1 r.2.2)).store64 ring.written (w + 1)
    | _, _ => s)

-- L2-slice watchpoints (R375, R376)

/-- L2_WATCH_HIT (R376): an access at the slice that serves its address, which a comparator matches, posts a record. The
accesses of the model post theirs as they reach the slice (State.l2See). -/
def execL2WatchHit (die slice pa : Nat) (write : Bool) (cls unit reqDie : Nat) (s : State) : Result :=
  .next (if s.homeOf pa == [2, die, slice] then s.l2Post pa write (cls, unit) reqDie else s)

end Sys2Proof.Machine
end

