-- ==== Sys2Proof/Machine/HostPort.lean ====
section
/-! DEFINITION. The host ports, the firmware and the package's physical events (R388 to R392, R396, R400 to R405, R425,
R436). -/

namespace Sys2Proof.Machine

/-- The response that an access gets at a port (R388, R392): an error, or none. -/
def State.respond (s : State) (port : Nat) (err : Bool) : State := { s with portErrs := NMap.set false s.portErrs port err }

/-- What a host access does while the ports expose more than the boot status register (R405). -/
def State.host (s : State) (f : State) : Result := .next (if s.verified then f else s)

-- TAIL, semaphores, EVHEAD (R390, R392, R401)

/-- TAIL_WRITE (R389, R392): a narrow or misaligned write gets an error response. -/
def execTailWrite (q : Nat) (x : W64) (size : Nat) (aligned : Bool) (s : State) : Result :=
  let t := (s.queue q).tail.toNat + x.toNat
  let ok := s.respond 2 false
  s.host (if q ≥ 1024 then s
    else if size != 8 || !aligned then s.respond 2 true
    else if x = 0 then ok
    else if t ≥ 2 ^ 64 then ok.pushFw (.overflow q)
    else (ok.modQueue q fun y => { y with tail := BitVec.ofNat 64 t }).pushFw (.start q))

/-- The word that a register read returns to a port (R390). -/
def State.reply (s : State) (port : Nat) (x : W64) : State := { s with replies := NMap.set 0 s.replies port x }

/-- A port takes a free semaphore; the other lost a tie. -/
def State.takeSem (s : State) (n port : Nat) (tie : Bool) : State :=
  { s with sems := NMap.put s.sems n (port + 1), semLost := if tie then NMap.put s.semLost n (1 - port) else s.semLost }

/-- The word that a read of a semaphore returns to a port: its owner, and GOT for the read that acquired it (R390). -/
def semWord (owner : Nat) (got : Bool) : W64 := BitVec.ofNat 64 (owner + if got then 4 else 0)

/-- The ports that read are answered: the port that acquired the semaphore, if one did, has GOT. -/
def State.replySem (s : State) (n : Nat) (r0 r1 : Bool) (winner : Option Nat) : State :=
  let w (port : Nat) : W64 := semWord (NMap.get 0 s.sems n) (winner == some port)
  let s1 := if r0 then s.reply 0 (w 0) else s
  if r1 then s1.reply 1 (w 1) else s1

/-- SEM_READ (R390): reads of both ports in one cycle are a tie, which goes to the port that lost the one before. -/
def execSemRead (n : Nat) (port0 port1 : Bool) (s : State) : Result :=
  let r0 := port0 && !s.portsDown.contains 0
  let r1 := port1 && !s.portsDown.contains 1
  s.host (if n ≥ 32 then s
    else if NMap.get 0 s.sems n != 0 then s.replySem n r0 r1 none
    else if r0 && r1 then (s.takeSem n (NMap.get 0 s.semLost n) true).replySem n r0 r1 (some (NMap.get 0 s.semLost n))
    else if r0 then (s.takeSem n 0 false).replySem n r0 r1 (some 0)
    else if r1 then (s.takeSem n 1 false).replySem n r0 r1 (some 1)
    else s)

/-- SEM_WRITE (R390). -/
def execSemWrite (n port : Nat) (value : W64) (s : State) : Result :=
  s.host (if n < 32 && port < 2 && value.extractLsb' 0 2 == 0 && NMap.get 0 s.sems n == port + 1 then
      { s with sems := NMap.put s.sems n 0 }
    else s)

/-- EVHEAD_WRITE (R401). -/
def execEvheadWrite (q : Nat) (value : W64) (s : State) : Result :=
  let x := s.queue q
  s.host (if q ≥ 1024 || value.toNat < x.evhead.toNat || x.evcnt.toNat < value.toNat then s
    else s.modQueue q fun y => { y with evhead := value })

-- Descriptors and other registers (R391, R400, R425, R436)

/-- The queue can be enabled: MODE and the ring sizes are legal (R391). -/
def Queue.canEnable (x : Queue) : Bool :=
  let size (n : Nat) : Nat := ((x.word n).extractLsb' 0 5).toNat
  (x.word 1).extractLsb' 8 2 != 3 && decide (4 ≤ size 0) && decide (size 0 ≤ 16) && decide (4 ≤ size 4) &&
    decide (size 4 ≤ 16)

/-- The queue after a successful enable: the front end has read its descriptor and its mask, STOP clears, and a failing command
is skipped (R391, R395). -/
def Queue.enable (x : Queue) (mask : NMap (BitVec 256)) : Queue :=
  { x.setWord 1 ((x.word 1 &&& ~~~2) ||| 1) with
    desc := x.qd, mask := mask, skip := false, head := if x.skip && decide (x.head.toNat < x.tail.toNat) then x.head + 1 else x.head }

/-- Fields of QD1 that a host writes while EN is 0 (R391). -/
def qd1Mask : W64 := 0xFFF000000000030C

/-- QUEUE_ENABLE (R391, R395): a write of QD1. -/
def execQueueEnable (q : Nat) (value : W64) (s : State) : Result :=
  let x := s.queue q
  s.host (if q ≥ 1024 then s
    else if x.enabled then
      (if value.getLsbD 0 then s else s.modQueue q fun y => y.setWord 1 (y.word 1 &&& ~~~1))
    else
      let y := x.setWord 1 ((x.word 1 &&& 2) ||| (value &&& qd1Mask))
      if value.getLsbD 0 && y.canEnable then
        (s.modQueue q fun _ => y.enable (s.maskTable (maskBase q))).pushFw (.start q)
      else s.modQueue q fun _ => y)

/-- A read of a register of access RC: the word goes to the port that reads, and the register is cleared (R5). -/
def State.readRc (s : State) (off : Nat) : State := (s.hubTake off).reply 2 (s.hubRead off)

/-- NDROP_READ (R391): the read clears the count. -/
def execNdropRead (q : Nat) (s : State) : Result := s.host (if q ≥ 1024 then s else s.readRc (0x20030 + 64 * q))

/-- MMISS_READ (R436): the read clears the count. -/
def execMmissRead (surface : Nat) (s : State) : Result :=
  s.host (if surface < 8 then s.readRc (mirageBase surface + 56) else s)

/-- Bits of a descriptor word that a host writes (R391); QD1 has its own event. -/
def qdMask : Nat → W64
  | 0 => 0x0000FFFFFFFFF01F
  | 2 => 0x0000FFFFFFF00000
  | 3 => 0xFFFFFFFFFFFFFFFF
  | 4 => 0x0000FFFFFFFFF01F
  | 5 => 0xFFFFFFFFFFFFFFFF
  | _ => 0

/-- Bits of a window's register (R425). -/
def windowMask : Nat → W64
  | 0 => 0x00FFFFFFFFFF0000
  | 1 => 0x00000000FFFFFFFF
  | 2 => 0x000000000000FFF1
  | _ => 0

/-- The first frame whose deadline is not past (R437). -/
def nextFrame (ft per ph dl : Nat) : Nat := if ft + dl ≤ ph ∨ per = 0 then 0 else (ft + dl - ph + per - 1) / per

/-- A write of a surface's register (R436): MCTL, or while EN is 0 another writable one. Setting EN starts the frames. -/
def State.writeMirage (s : State) (n reg : Nat) (value : W64) : State :=
  let b := mirageBase n
  let w (i : Nat) : Nat := (s.hubWord (b + 8 * i)).toNat
  let on := (s.hubWord b).getLsbD 0
  if reg = 0 then
    let s1 := s.setHub b (value &&& 0x0000000003FF0001)
    if value.getLsbD 0 && !on then
      { s1 with surfaces := NMap.put s1.surfaces n { chosen := none, checked := nextFrame s.ft (w 1) (w 2) (w 3) } }
    else s1
  else if reg ≤ 4 && !on then s.setHub (b + 8 * reg) value
  else s

/-- REGISTER_WRITE (R5, R388, R391, R400, R425, R436): reserved bits keep 0, read-only registers keep their value, and the
registers with an event of their own are not written here. -/
def execRegisterWrite (off : Nat) (value : W64) (s : State) : Result :=
  s.host (if off % 8 != 0 then s
    else if 0x20000 ≤ off && off < 0x30000 then
      let q := (off - 0x20000) / 64
      let w := off / 8 % 8
      if w = 1 || w ≥ 6 || (s.queue q).enabled then s else s.modQueue q fun x => x.setWord w (value &&& qdMask w)
    else if 0x60000 ≤ off && off < 0x60800 then
      let r := off / 8 % 4
      let on := (s.hubWord (off / 32 * 32 + 16)).getLsbD 0
      if r = 3 || (r ≤ 1 && on) then s else s.setHub off (value &&& windowMask r)
    else if 0x62000 ≤ off && off < 0x62200 then s.writeMirage ((off - 0x62000) / 64) (off / 8 % 8) value
    else if 0x100000 ≤ off && off < 0x200000 then s.setHub off (~~~value)
    else if 0x800000 ≤ off && off < 0x1000000 then s.setHub off value
    else s)

/-- HOST_WRITE (R376, R388, R389): at or beyond the capacity it gets an error response. -/
def execHostWrite (port pa : Nat) (bytes : List Byte) (s : State) : Result :=
  s.host (if port ≥ 2 || s.portsDown.contains port then s
    else if pa + bytes.length > s.capacity then s.respond port true
    else ((s.respond port false).l2See pa bytes.length true (9, port) 0).storeBytes pa bytes)

-- Events and the firmware (R396, R401)

/-- EVENT_POST (R401): the oldest waiting record goes to the ring's slot EVCNT, once the queue is enabled and a slot is
free. -/
def execEventPost (q : Nat) (s : State) : Result :=
  let x := s.queue q
  .next (match x.events with
    | [] => s
    | e :: rest =>
      let size := 2 ^ ((x.read 4).extractLsb' 0 5).toNat
      if !x.enabled || x.evcnt.toNat - x.evhead.toNat ≥ size then s
      else
        let a := (x.read 4).toNat / 2 ^ 12 % 2 ^ 36 * 2 ^ 12 + 64 * (x.evcnt.toNat % size)
        (if a + 64 ≤ s.capacity then s.storeWords a (e.take 8) else s).modQueue q fun y =>
          { y with events := rest, evcnt := y.evcnt + 1 })

/-- HOST_PORT_DOWN (R390, R396): its semaphores are free, and the firmware reports it. -/
def execHostPortDown (port : Nat) (s : State) : Result :=
  .next (if port ≥ 2 || s.portsDown.contains port then s
    else
      State.pushFw { s with
        portsDown := port :: s.portsDown, sems := s.sems.map fun e => (e.1, if e.2 = port + 1 then 0 else e.2) }
        (.portDown port))

-- Spares (R322, R403)

/-- Topology entries of some vaults of a die are updated: which cores lie near depends on the part (R403). -/
def State.newTopology (s : State) (die : Nat) : List Nat → State
  | [] => s
  | v :: vs =>
    State.newTopology (s.setHub (0x40000 + 512 * die + 8 * v) (Config.topology (1024 * (s.tick + 1) + 64 * die + v))) die vs

/-- A spare core takes a worn core's number: what the worn core's caches held is written back first (R273, R403). -/
def State.replaceCore (s : State) (die cluster worn spare : Nat) : State :=
  let core := die * 512 + cluster * 256 + worn
  let s1 := (s.flushLines core 0 ((s.core core).l1.map (·.1))).modCore core fun x => { x with icache := [], tlb := [] }
  let s2 := (s1.modCluster (die * 2 + cluster) fun x => { x with phys := NMap.put x.phys worn (256 + spare) }).newTopology
    die ((List.range 32).map (32 * cluster + ·))
  State.postAll { s2 with tick := s2.tick + 1 }
    [ev0 6 0, BitVec.ofNat 64 (die * 2 ^ 60 + cluster * 2 ^ 55 + worn * 2 ^ 47)]

/-- The substitution of a part (R322, R403): a core's blocks are evicted first, and the event runs again until they have
left. -/
def State.substitute (s : State) (p : WornPart) : State :=
  match p with
    | .core die cluster worn spare =>
      let core := die * 512 + cluster * 256 + worn
      if die ≥ 16 || cluster ≥ 2 || worn ≥ 256 || spare ≥ 16 ||
          (s.cluster (die * 2 + cluster)).phys.any (fun e => e.2 == 256 + spare) then s
      else
        let bs := (s.blocks.filter fun (e : Nat × Block) => e.2.core == core && !e.2.saved).map (·.1)
        if bs.isEmpty then s.replaceCore die cluster worn spare
        else ((s.modCluster (die * 2 + cluster) fun x => { x with phys := NMap.put x.phys worn (272 + NMap.get worn x.phys worn % 272) }).requestEvicts
          (distinct (bs.flatMap s.evictSet))).pushFw (.substitute p)
    | .vault die vault spare =>
      if die ≥ 16 || vault ≥ 64 || spare ≥ 2 || (s.die die).vaults.any (fun e => e.2 == 64 + spare) then s
      else
        let s1 := (s.modDie die fun x => { x with vaults := NMap.put x.vaults vault (64 + spare) }).newTopology die [vault]
        State.postAll { s1 with tick := s1.tick + 1 } [ev0 6 1, BitVec.ofNat 64 (die * 2 ^ 60 + vault)]

/-- OASIS_SUBSTITUTION (R322, R396, R403). -/
def execOasisSubstitution (p : WornPart) (s : State) : Result := .next (s.pushFw (.substitute p))

/-- FIRMWARE_CORE_WEAR (R403): events are atomic here, so one in progress needs no second run. -/
def execFirmwareCoreWear (core : Nat) (s : State) : Result :=
  .next (if core ≥ 12 || s.fwWorn.contains core then s
    else
      let s1 := State.pushFw { s with fwWorn := core :: s.fwWorn } (.coreWear core)
      if s1.fwWorn.length > 4 then { s1 with agenda := .event .deviceLevelError :: s1.agenda } else s1)

-- Clocks (R404)

/-- SUPPLY_SAG (R404): the detector stretches the clock, and the firmware will lower the frequency. -/
def execSupplySag (die : Nat) (s : State) : Result :=
  .next (if die ≥ 16 then s else (s.modDie die fun d => { d with sag := true }).pushFw (.clock die false))

/-- A step of a die's clock (R404): down to 1.2 GHz after a sag, and up to the nominal 2.0 GHz. -/
def State.stepClock (s : State) (die : Nat) (up : Bool) : State :=
  let d := s.die die
  let mhz (n : Nat) : W64 := BitVec.ofNat 64 (2000 - 100 * n)
  if die ≥ 16 then s
  else if up then
    (if d.steps = 0 then s
     else (s.modDie die fun d => { d with steps := d.steps - 1, sag := false }).postAll [ev0 7 0, mhz (d.steps - 1)])
  else if !d.sag || d.steps ≥ 8 then s
  else (s.modDie die fun d => { d with steps := d.steps + 1 }).postAll [ev0 7 0, mhz (d.steps + 1)]

/-- CLOCK_STEP (R396, R404). -/
def execClockStep (die : Nat) (up : Bool) (s : State) : Result := .next (s.pushFw (.clock die up))

-- The firmware's events (R396)

/-- An event that runs holds its queue's lock while a migration holds a walk that it needs (R333, R393). -/
def State.fwHeld (s : State) : FwEvent → Bool
  | .completed _ la => s.nodeHeld la
  | _ => false

/-- The oldest event that can run, and the others: one whose queue's lock an earlier event holds cannot (R396). -/
def State.fwNext (s : State) (locked : List Nat) : List FwEvent → Option (FwEvent × List FwEvent)
  | [] => none
  | e :: es =>
    if (e.queue.map locked.contains).getD false || s.fwHeld e then
      (State.fwNext s (locked ++ e.queue.toList) es).map fun r => (r.1, e :: r.2)
    else some (e, es)

/-- The CODE that the kills of a device-level error report: one of those of R260 that end a launch (log entry 23). -/
def deviceCode (n : Nat) : Nat := [0x30, 0x31, 0x33, 0x34, 0x35].getD ((Config.errorSite n 5).toNat % 5) 0x30

/-- Kills the launches of a list by a device-level error, by the firmware itself or to be reported by it (R396, R402). -/
def State.killDevice (s : State) (now : Bool) : List Nat → State
  | [] => s
  | n :: ns =>
    State.killDevice (if now then s.killNow n (deviceCode n) 0 (reportSite s n)
      else s.killLaunch n (deviceCode n) 0 (reportSite s n)) now ns

/-- What the firmware does in an event (R396). A queue's part of a device-level error ends the contexts that an earlier event of
the queue has started since (R402). -/
def State.runFw (s : State) : FwEvent → State
  | .start q => s.startCommand q
  | .overflow q => s.stopQueue q 2 (s.queue q).head.toNat true
  | .deviceError q => (s.killDevice true ((s.launches.filter fun (e : Nat × Launch) => e.2.queue == q).map (·.1))).stopQueue q 6 0 false
  | .coreWear core => s.postAll [ev0 6 2, BitVec.ofNat 64 core]
  | .completed n la => s.nodeCompleted n la
  | .killed n la code addr x => s.reportKill n la code addr x
  | .substitute p => s.substitute p
  | .clock die up => s.stepClock die up
  | .lane port active => s.postAll [ev0 6 3, BitVec.ofNat 64 (port + active * 2 ^ 8)]
  | .portDown port => s.postAll [ev0 8 port]
  | .aperture _ _ => s

/-- FIRMWARE_EVENT (R396): an idle healthy core takes the oldest event and runs it to its end. -/
def execFirmwareEvent (core : Nat) (s : State) : Result :=
  .next (if core ≥ 12 || s.fwWorn.contains core || !s.verified then s
    else match s.fwNext [] s.fwEvents with
      | none => s
      | some (e, rest) => State.runFw { s with fwEvents := rest } e)

-- Device-level error and reset (R402, R405)

/-- DEVICE_LEVEL_ERROR (R396, R402): every context ends, and each queue's stop takes its turn among the queue's events. -/
def execDeviceLevelError (s : State) : Result :=
  let s1 := s.killDevice false (s.launches.map (·.1))
  .next { s1 with fwEvents := s1.fwEvents ++ (List.range 1024).map FwEvent.deviceError }

/-- PACKAGE_RESET (R324, R405): everything takes its reset value but the parts themselves: the memory's contents, installed
memory, worn and substituted parts, and the fuses (log entry 4). -/
def execPackageReset (verified : Bool) (l2Vaults : Nat) (s : State) : Result :=
  .next (if !([0, 8, 16, 32].contains l2Vaults) then s
    else { State.reset with
      tick := s.tick, mem := s.mem, capacity := s.capacity, l2n := l2Vaults, importRoot := s.importRoot, verified := verified,
      fwWorn := s.fwWorn, ports := s.ports, leavesUsed := s.leavesUsed,
      clusters := s.clusters.map (fun e => (e.1, { e.2 with recs := [] })),
      dies := s.dies.map (fun e => (e.1, { freshDie with vaults := e.2.vaults })) })

end Sys2Proof.Machine
end

