-- ==== Sys2Proof/Machine/Fabric.lean ====
section
/-! DEFINITION. The fabric: ports and routes (R420 to R422, R438), peer memory (R423, R424) and reduction windows (R425 to
R428), as one package sees them. -/

namespace Sys2Proof.Machine

-- Ports and routes (R420 to R422, R438)

/-- Lanes that a port runs on after some failures (R421). -/
def activeLanes (failures : Nat) : Nat := if failures ≤ 1 then 4 else if failures = 2 then 2 else 0

/-- LANE_FAILURE (R421): a spare lane, a narrower port, or none; the firmware reports each change (R396). -/
def execLaneFailure (port : Nat) (s : State) : Result :=
  let n := (NMap.get { failures := 0 } s.ports port).failures
  .next (if port ≥ 48 || n ≥ 3 then s
    else State.pushFw { s with ports := NMap.put s.ports port { failures := n + 1 } } (.lane port (activeLanes (n + 1))))

/-- The port of a route. -/
def State.route (s : State) (src dst : Nat) : Option Nat :=
  (s.routes.find? fun e => e.1 == src * 4096 + dst).map (·.2)

/-- A home address lies in a package. -/
def inPackage (dst a : Nat) : Bool := decide (a ≥ 2 ^ 60) && (a - 2 ^ 60) / 2 ^ 56 == dst

/-- The package of a home address. -/
def State.homePackage (s : State) (a : Nat) : Nat := if a ≥ 2 ^ 60 then (a - 2 ^ 60) / 2 ^ 56 else s.pkg

/-- Every packet of this package to another has been delivered (R422). -/
def State.delivered (s : State) (dst : Nat) : Bool :=
  (s.reqs.all fun r => r.arr != 2 ^ 20 + dst) && (s.wbs.all fun w => !inPackage dst (w.line * 128)) &&
    s.contribs.all fun k => !inPackage dst k.addr

/-- GONE is set once a leaving package has no route (R438). -/
def State.settleGone (s : State) : State :=
  if (s.hubWord fctl).getLsbD 0 && s.routes.isEmpty then s.setHub fctl (s.hubWord fctl ||| 2) else s

/-- ROUTE_CHANGE (R422, R438): a route changes after the pair's packets are delivered; a port above 47 takes it away. Of other
packages' packets this package holds the contributions in its units; it keeps no transit packets (log entry 35). -/
def execRouteChange (src dst port : Nat) (s : State) : Result :=
  .next (if src ≥ 4096 || dst ≥ 4096 || (src == s.pkg && !s.delivered dst) ||
      (src != s.pkg && s.contribs.any fun k => k.peers.contains src && s.homePackage k.addr == dst) then s
    else
      let k := src * 4096 + dst
      State.settleGone { s with routes := if port < 48 then NMap.put s.routes k port else NMap.erase s.routes k })

/-- PACKET_DROP (R420): an unknown class or a destination without a route is counted. -/
def execPacketDrop (cls dst : Nat) (s : State) : Result :=
  .next (if cls > 4 || (dst != s.pkg && s.routes.all fun e => e.1 % 4096 != dst) then { s with drops := s.drops + 1 } else s)

/-- The routes of a list whose numbers are in range. -/
def routesOf (rs : List (Nat × Nat)) : NMap Nat :=
  rs.foldl (fun m e => if e.1 < 4096 * 4096 && e.2 < 48 then NMap.put m e.1 e.2 else m) []

/-- PACKAGE_JOIN (R435, R438): the package receives its number and its routes, each by source * 4096 + destination; its
time is not locked yet. -/
def execPackageJoin (number : Nat) (routes : List (Nat × Nat)) (s : State) : Result :=
  .next (if number ≥ 4096 then s
    else State.setHub { s with pkg := number, routes := routesOf routes, ftChanged := s.ft, locked := false } fctl 0)

/-- The gangs of this package break, and their members are told (R432, R438). -/
def State.breakGangs (s : State) : List (Nat × Nat) → State
  | [] => s
  | (q, n) :: rest => State.breakGangs ((s.tellBroken q n).breakGang q n) rest

/-- The commands of a package that run a gang. -/
def State.gangCmds (s : State) : List (Nat × Nat) :=
  s.queues.flatMap fun (e : Nat × Queue) => (e.2.cmds.filter fun (c : Cmd) => c.gang.isSome).map fun (c : Cmd) => (e.1, c.num)

/-- LEAVE (R438): a write of FCTL. -/
def execLeave (value : W64) (s : State) : Result :=
  s.host (if value.getLsbD 0 then
      ((s.breakGangs s.gangCmds).setHub fctl (s.hubWord fctl ||| 1)).settleGone
    else s)

-- Peer memory (R423, R424)

/-- Bytes that a request packet's operation touches, whether it needs W, and its alignment. -/
def peerShape : PeerOp → Nat × AccKind × Nat
  | .read n => (n, .read, 1)
  | .write bs => (bs.length, .write, 1)
  | .atom _ _ => (4, .atomic, 4)
  | .cas _ _ => (4, .atomic, 4)
  | .fatom _ _ => (4, .atomic, 4)
  | .ctrAdd _ => (8, .atomic, 8)
  | .fetch => (8, .fetch, 8)

/-- The home of a fabric address of this package (R423): the import table's leaf has TYPE 0 and allows the access, and a
fetch is refused. -/
def State.importHome (s : State) (fa n align : Nat) (k : AccKind) : Option Nat :=
  if fa + n > 2 ^ 48 || fa % align != 0 || k == .fetch then none
  else match s.walk s.importRoot fa with
    | none => none
    | some (p, bits) =>
      if p.extractLsb' 6 2 == 0 && leafAllows s p bits fa k && decide (fa % 2 ^ bits + n ≤ 2 ^ bits) then
        some (leafPlace p bits fa)
      else none

/-- The contribution that a peer's operation is, in a reduction window (R426, R427). -/
def peerContrib : PeerOp → Option (RedOp × W64)
  | .atom .xchg _ => none
  | .atom .sub x => some (.atom .add, (-x).setWidth 64)
  | .atom o x => some (.atom o, x.setWidth 64)
  | .fatom o x => some (.fatom o, x.setWidth 64)
  | .ctrAdd x => some (.ctrAdd, x)
  | _ => none

/-- The first byte of the lowest-numbered enabled reduction window (R425). -/
def State.someWindow (s : State) : Option W64 :=
  ((List.range 64).find? fun w => (s.hubWord (0x60000 + 32 * w + 16)).getLsbD 0).map fun w => s.hubWord (0x60000 + 32 * w)

/-- A peer's operation at its home here (R184, R423). -/
def State.peerPerform (s : State) (a : Nat) (op : PeerOp) : State :=
  match op with
  | .read _ => s
  | .write bs => s.storeBytes a bs
  | .atom o x => s.store32 a (atomNew o (s.load32 a) x)
  | .cas b c => if s.load32 a = b then s.store32 a c else s
  | .fatom o x => s.store32 a (fatomNew o (s.load32 a) x)
  | .ctrAdd x =>
    let t := (s.load64 a).toNat + x.toNat
    s.store64 a (if t ≥ 2 ^ 64 then BitVec.allOnes 64 else BitVec.ofNat 64 t)
  | .fetch => s

/-- The launch by which operations of peers are logged and gated here: the first of a gang whose queue records or replays, for a
peer's own queue is not known here (R379, R380, log entry 39). -/
def State.peerLaunch (s : State) : Option (Nat × Launch) :=
  s.launches.find? fun e => e.2.mode != 0 && (s.cmdGang e.2.queue e.2.cmd).isSome

/-- A peer's operation is logged at its home (R380). -/
def peerLogged : PeerOp → Bool
  | .read _ => false
  | .write _ => false
  | .fetch => false
  | _ => true

/-- A peer's operation passes the order gate of its home here (R380, R383): one that the gate holds has not arrived yet. -/
def State.peerTurn (s : State) (src a : Nat) (op : PeerOp) (go_ : State → State) : State :=
  match s.peerLaunch with
  | none => go_ s
  | some (n, la) =>
    let q := Config.peerRequester src s.tick
    let home := s.homeOf a
    if !peerLogged op then go_ s
    else if la.mode = 1 then go_ (s.logOp n la 0 home q false)
    else match s.gate n la home q with
      | .open_ _ => go_ (s.consume n la home)
      | .diverge r => go_ (s.diverge n 0 home q r (Site.of 0))
      | .hold => s

/-- A peer's contribution to a home enters this package, on the way to its unit (R427). -/
def State.peerContribution (s : State) (src a : Nat) (o : RedOp) (x va : W64) : State :=
  { s with nextId := s.nextId + 1,
           contribs := s.contribs ++
             [{ id := s.nextId, op := o, addr := a, value := x, owners := [], peers := [src], unit := none, past := false,
                lone := false, va := va, site := Site.of 0, arrived := none }] }

/-- PEER_ACCESS (R184, R423, R427): a peer's request is performed at its home here, after the bytes that an L2 slice sees
(R376); one that the import table refuses has no effect here, and its failure is reported at the peer (R424); none arrives once
the ports are down (R438). A packet does not say which virtual address its sender used, so while a reduction window is enabled
an operation that may contribute meets this package's merge unit by a free choice (log entry 39). An address of 2^48 or more
names a contribution in transit to a home in the package of its number over 2^48, less one, which meets this package's unit on
its way (R427). -/
def execPeerAccess (src fa : Nat) (op : PeerOp) (s : State) : Result :=
  .next (if s.gone then s
    else if fa ≥ 2 ^ 48 then
      (match peerContrib op, s.someWindow with
        | some (o, x), some vb =>
          let dst := fa / 2 ^ 48 - 1
          if dst ≥ 4096 || dst == s.pkg || s.cutOff dst then s
          else s.peerContribution src (peerAddr dst (fa % 2 ^ 48)) o x vb
        | _, _ => s)
    else match s.importHome fa (peerShape op).1 (peerShape op).2.2 (peerShape op).2.1 with
    | none => s
    | some a =>
      let direct (s : State) : State := s.peerTurn src a op fun s =>
        (s.l2See a (peerShape op).1 (peerShape op).2.1.writes (8, ((s.route s.pkg src).getD 0)) 0).peerPerform a op
      match peerContrib op, s.someWindow with
      | some (o, x), some vb =>
        let p := s.pick 2
        if p.1 = 0 then direct p.2 else p.2.peerContribution src a o x vb
      | _, _ => direct s)

/-- The launches that hold a block on a core. -/
def State.launchesOn (s : State) (core : Nat) : List Nat :=
  distinct ((s.blocks.filter fun (e : Nat × Block) => e.2.core == core && !e.2.saved).map fun e => e.2.launch)

/-- PEER_ACCESS_FAIL (R424): the launch of a core's access is killed at its instruction, a `.byp` store's and each merged
contributor's among them; the failure of a write-back that no instruction names kills every launch with a block on the core. -/
def execPeerAccessFail (id : Nat) (s : State) : Result :=
  .next (match s.req? id with
    | some r =>
      if r.arr < 2 ^ 20 || r.todo.isEmpty then s
      else State.killLaunch { s with reqs := s.reqs.filter fun x => x.id != id } r.launch 0x30
        (fabricAddr ((r.todo.head?.map Access.addr).getD 0)) r.site
    | none => match s.wbs.find? fun w => w.id == id with
      | some w =>
        if w.line * 128 < 2 ^ 60 then s
        else
          let s1 : State := { s with wbs := s.wbs.filter fun x => x.id != id }
          match w.through with
          | some x => s1.killLaunch w.launch 0x30 (fabricAddr (w.line * 128 + (maskSpan w.mask).1)) x
          | none => s1.killAll 0x30 (fabricAddr (w.line * 128)) (s.launchesOn w.core)
      | none => match s.ctrWaits.find? fun w => w.id == id with
        | some w =>
          if w.addr < 2 ^ 60 then s
          else s.killLaunch w.launch 0x30 (fabricAddr w.addr)
            (((s.asyncs.find? fun a => a.id == w.op).map AsyncOp.site).getD (Site.of w.core))
        | none => match s.contribs.find? fun k => k.id == id with
          | some k =>
            if k.addr < 2 ^ 60 then s
            else State.killOwners { s with contribs := s.contribs.filter fun x => x.id != id } 0x30 (fabricAddr k.addr) k.owners
          | none => s)

-- Reduction windows (R427, R428)

/-- Combine (R427). -/
def combine (op : RedOp) (a b : W64) : W64 :=
  match op with
  | .atom o => (atomNew o (a.setWidth 32) (b.setWidth 32)).setWidth 64
  | .fatom o => (fatomNew o (a.setWidth 32) (b.setWidth 32)).setWidth 64
  | .ctrAdd => if a.toNat + b.toNat ≥ 2 ^ 64 then BitVec.allOnes 64 else a + b

/-- The edge die at which a contribution meets this package's units: that of the port on its route, or for a home here
that of the address's channel (R325, R419, R427). -/
def State.edgeDie (s : State) (a : Nat) : Nat :=
  if a ≥ 2 ^ 60 then ((s.route s.pkg ((a - 2 ^ 60) / 2 ^ 56)).getD 0) / 12 else a / 4096 % 64 / 16

/-- Ticks that an entry is held (R425): HOLD in units of 16 ns, 256 ns when it is 0. -/
def State.holdTicks (s : State) (va : W64) : Nat :=
  match s.window va.toNat with
  | none => 0
  | some w =>
    let h := ((s.hubWord (0x60000 + 32 * w + 16)).extractLsb' 4 12).toNat
    if h = 0 then 1024 else 64 * h

/-- Changes a contribution in place. -/
def State.modContrib (s : State) (id : Nat) (f : Contrib → Contrib) : State :=
  { s with contribs := s.contribs.map fun k => if k.id = id then f k else k }

/-- The entry of a unit that has a contribution's key (R427). -/
def State.entryFor (s : State) (die : Nat) (k : Contrib) : Option Contrib :=
  s.contribs.find? fun (e : Contrib) => e.id != k.id && (e.unit.map (·.1)) == some die && e.addr == k.addr && e.op == k.op

/-- The entries of a unit. -/
def State.unitEntries (s : State) (die : Nat) : List Contrib := s.contribs.filter fun e => (e.unit.map (·.1)) == some die

/-- A contribution that arrives at a unit merges or takes an entry there; otherwise it passes unmerged (R427). -/
def State.enters (s : State) (die : Nat) (k : Contrib) : Bool :=
  (s.entryFor die k).isSome || decide ((s.unitEntries die).length < 4096)

/-- A contribution leaves for its home, behind what left before it (R422), unmerged or not. -/
def State.leaveUnit (s : State) (id : Nat) (alone : Bool) : State :=
  { s with contribs := (s.contribs.filter fun k => k.id != id) ++
      (s.contribs.filter fun k => k.id == id).map fun k => { k with unit := none, past := true, lone := alone, arrived := none } }

/-- A contribution passes on unmerged (R427). -/
def State.passUnit (s : State) (k : Contrib) : State := s.leaveUnit k.id true

/-- A contribution arrives at its unit: it merges with the entry of its key, takes a free entry, or passes on (R427). An entry
that a peer's contribution founded goes by the first of this package's that joins it. -/
def State.mergeAt (s : State) (die : Nat) (k : Contrib) : State :=
  match s.entryFor die k with
  | some e =>
    State.modContrib { s with contribs := s.contribs.filter fun x => x.id != k.id } e.id fun x =>
      { x with value := combine x.op x.value k.value, owners := x.owners ++ k.owners, peers := x.peers ++ k.peers,
               site := if x.owners.isEmpty then k.site else x.site }
  | none =>
    if (s.unitEntries die).length < 4096 then
      s.modContrib k.id fun x => { x with unit := some (die, s.ft + s.holdTicks k.va), arrived := none }
    else s.passUnit k

/-- Requester identifier of the group that made a contribution (R381). -/
def Contrib.ident (k : Contrib) (la : Launch) : W64 :=
  if k.owners.isEmpty then Config.peerRequester (k.peers.headD 0) k.id else requester 0 la.member k.site.block k.site.gix 0

/-- The launch that a contribution goes by: that of its first contributor here, or for peers' alone the one that stands for
theirs. -/
def State.contribLaunch (s : State) (k : Contrib) : Option (Nat × Launch) :=
  match k.owners with
  | o :: _ => (s.launch? o.launch).map fun la => (o.launch, la)
  | [] => s.peerLaunch

/-- The order gate holds a contribution: after 2^20 cycles it diverges and goes on (R383). -/
def State.holdContrib (s : State) (k : Contrib) (n die : Nat) (home : List Nat) (q : W64) (go_ : State → State) : State :=
  match k.arrived with
  | none => s.modContrib k.id fun x => { x with arrived := some s.now }
  | some t => if s.now ≤ t + 2 ^ 20 then s else go_ (s.diverge n die home q 3 k.site)

/-- A contribution's turn at its unit (R380, R383, R428): a recorded launch logs whether each was merged or passes unmerged,
the latter by the TO bit of its entry; a replay does as the entry says (log entry 39). -/
def State.unitTurn (s : State) (k : Contrib) (die : Nat) : State :=
  match s.contribLaunch k with
  | none => s.mergeAt die k
  | some (n, la) =>
    let q := k.ident la
    let home := [3, s.pkg, die, (s.window k.va.toNat).getD 0]
    if la.mode = 0 then s.mergeAt die k
    else if la.mode = 1 then (s.logOp n la die home q (!s.enters die k)).mergeAt die k
    else match s.gate n la home q with
      | .open_ unmerged =>
        if (s.stream n home).free then s.mergeAt die k
        else if unmerged then (s.consume n la home).passUnit k
        else if s.enters die k then (s.consume n la home).mergeAt die k
        else s.holdContrib k n die home q fun t => t.mergeAt die k
      | .diverge r => (s.diverge n die home q r k.site).mergeAt die k
      | .hold => s.holdContrib k n die home q fun t => t.mergeAt die k

/-- A contribution's turn at its home (R380, R383): logged in a recorded launch, gated in a replay. -/
def State.homeTurn (s : State) (k : Contrib) (go_ : State → State) : State :=
  match s.contribLaunch k with
  | none => go_ s
  | some (n, la) =>
    let q := k.ident la
    let die := dieOf k.site.core
    let home := s.homeOf k.addr
    if la.mode = 0 then go_ s
    else if la.mode = 1 then go_ (s.logOp n la die home q false)
    else match s.gate n la home q with
      | .open_ _ => go_ (s.consume n la home)
      | .diverge r => go_ (s.diverge n die home q r k.site)
      | .hold => s.holdContrib k n die home q go_

/-- Two contributions are of one group. -/
def Contrib.sameGroup (x k : Contrib) : Bool :=
  x.site.launch == k.site.launch && x.site.block == k.site.block && x.site.gix == k.site.gix

/-- An earlier contribution on the way to the units keeps its place before another: one core's to one word (R188), and one
package's (R422). One that the order gate holds keeps it before its own group's alone (R383). -/
def Contrib.leads (x k : Contrib) : Bool :=
  x.unit.isNone && !x.past && (x.arrived.isNone || x.sameGroup k) &&
    (if x.owners.isEmpty then x.peers == k.peers else x.addr == k.addr && x.owners.any fun o => k.owners.any fun p => p.core == o.core)

/-- A contribution that has left the units reaches its home before another that left later: at a home here to one word, and at a
peer where it passes the units there (R422, R427). -/
def Contrib.precedes (x k : Contrib) : Bool :=
  x.past && x.arrived.isNone &&
    (if k.addr < 2 ^ 60 then x.addr == k.addr else x.lone && arrayOf x.addr == arrayOf k.addr)

/-- The contributions that came before one. -/
def State.contribsBefore (s : State) (k : Contrib) : List Contrib := s.contribs.takeWhile fun x => x.id != k.id

/-- CONTRIBUTION_ARRIVAL (R427). -/
def execContributionArrival (die contrib : Nat) (s : State) : Result :=
  .next (match s.contribs.find? fun k => k.id == contrib with
    | none => s
    | some k =>
      if k.unit.isSome || k.past || die != s.edgeDie k.addr || (s.contribsBefore k).any fun x => x.leads k then s
      else s.unitTurn k die)

/-- An entry leaves its unit for the home (R427). -/
def State.forward (s : State) (id : Nat) : State := s.leaveUnit id false

/-- Several entries leave. -/
def State.forwards (s : State) : List Nat → State
  | [] => s
  | n :: ns => State.forwards (s.forward n) ns

/-- MERGE_HOLD_EXPIRY (R427). -/
def execMergeHoldExpiry (die entry : Nat) (s : State) : Result :=
  .next (match s.contribs.find? fun k => k.id == entry with
    | none => s
    | some k => match k.unit with
      | some (d, t) => if d == die && decide (t ≤ s.ft) then s.forward entry else s
      | none => s)

/-- The contribution is one of a publish's (R428). -/
def Contrib.ownedBy (k : Contrib) (p : Publish) : Bool := k.owners.any fun o => p.contribs.contains o.id

/-- A flush may need a slot of a full unit, and which entry leaves for it is free (R427). -/
def State.flushSlots (s : State) : List Nat → State
  | [] => s
  | d :: ds =>
    let es := s.unitEntries d
    if es.length < 4096 then State.flushSlots s ds
    else
      let p := s.pick (es.length + 1)
      State.flushSlots (match es[p.1]? with
        | some e => p.2.forward e.id
        | none => p.2) ds

/-- REDUCTION_FLUSH (R427, R428): behind the publisher's contributions, every entry that holds one of them is forwarded. -/
def execReductionFlush (pub : Nat) (s : State) : Result :=
  .next (match s.pubs.find? fun p => p.id == pub with
    | none => s
    | some p =>
      if (s.contribs.any fun k => k.ownedBy p && k.unit.isNone && !k.past) || s.pubs.any fun x => p.contribs.contains x.id then s
      else
        (s.forwards ((s.contribs.filter fun k => k.ownedBy p && k.unit.isSome).map Contrib.id)).flushSlots (List.range 4))

/-- A contribution is performed at its home as one atomic (R184, R288, R427). -/
def State.performContrib (s : State) (k : Contrib) : State :=
  let who : Nat × Nat := if k.owners.isEmpty then (8, 12 * s.edgeDie k.addr) else coreWho 2 k.site.core
  let s0 : State := { s with contribs := s.contribs.filter fun x => x.id != k.id }
  let size := if k.op = .ctrAdd then 8 else 4
  let s1 := s0.l2See k.addr size true who (dieOf k.site.core)
  match k.op with
  | .atom o => s1.store32 k.addr (atomNew o (s.load32 k.addr) (k.value.setWidth 32))
  | .fatom o => s1.store32 k.addr (fatomNew o (s.load32 k.addr) (k.value.setWidth 32))
  | .ctrAdd =>
    let t := (s.load64 k.addr).toNat + k.value.toNat
    if t ≥ 2 ^ 64 then
      (s1.store64 k.addr (BitVec.allOnes 64)).killOwners 0x33 k.va k.owners
    else s1.store64 k.addr (BitVec.ofNat 64 t)

/-- A contribution comes after its cores' earlier write-backs of the line (R189) and the contributions ahead of it (R422). -/
def State.contribFirst (s : State) (k : Contrib) : Bool :=
  (s.wbs.all fun w => w.line != k.addr / 128 || k.owners.all fun o => w.core != o.core || decide (o.id < w.id)) &&
    (s.contribsBefore k).all fun x => !x.precedes k

/-- REDUCTION_ACK (R427, R428): a contribution that has passed the units is performed at its home, and each contributor's is
acknowledged. -/
def execReductionAck (contrib : Nat) (s : State) : Result :=
  .next (match s.contribs.find? fun k => k.id == contrib with
    | none => s
    | some k =>
      if !k.past || s.peerDown k.addr || !s.contribFirst k then s
      else if k.addr ≥ 2 ^ 60 then s.performContrib k
      else s.homeTurn k fun t => t.performContrib k)

end Sys2Proof.Machine
end

