-- ==== Sys2Proof/Machine/Gang.lean ====
section
/-! DEFINITION. Gangs (R429 to R434), fabric time (R435) and Mirage (R436, R437). -/

namespace Sys2Proof.Machine

-- The GANG command (R429, R430)

/-- Ticks of fabric time in a number of microseconds and nanoseconds (R435). -/
def usTicks (n : Nat) : Nat := 4000 * n
/-- Ticks in nanoseconds. -/
def nsTicks (n : Nat) : Nat := 4 * n

/-- The member list at a physical address. -/
def State.memberList (s : State) (pa m : Nat) : List (BitVec 16) :=
  (List.range m).map fun i => BitVec.ofNat 16 (s.loadN (pa + 2 * i) 2)

/-- Every element occurs once. -/
def noRepeats : List (BitVec 16) → Bool
  | [] => true
  | x :: xs => !xs.contains x && noRepeats xs

/-- Why a GANG command is refused, or its gang (R429, R395). -/
def State.gangOf (s : State) (k1 k2 k3 : W64) : Except CmdErr Gang :=
  let m := (k1.extractLsb' 40 12).toNat + 1
  let leader := (k1.extractLsb' 52 12).toNat
  let list := s.memberList k2.toNat m
  let arm := (k3.extractLsb' 32 32).toNat
  let lead := (k3.extractLsb' 0 32).toNat
  if k2.extractLsb' 48 16 != 0 || m = 1 || arm < 1 || arm > 1000000 || lead < 1000 || lead > 10 ^ 8 then .error .malformed
  else if k2.toNat % 2 != 0 || k2.toNat + 2 * m > s.capacity then .error .operand
  else if list.any (fun x => x.extractLsb' 12 4 != 0) || !list.contains (BitVec.ofNat 16 s.pkg) ||
      !list.contains (BitVec.ofNat 16 leader) || !noRepeats list then .error .malformed
  else .ok { leader := leader, members := list.map BitVec.toNat, tag := (k1.extractLsb' 0 40).toNat,
             me := list.findIdx (· == BitVec.ofNat 16 s.pkg), armTimeout := arm, goLead := lead,
             hash := Config.listHash (list.map fun x => x.setWidth 12), start := s.ft, armedAt := none, arms := [], go := none,
             issued := false, started := [] }

/-- Changes a command's gang. -/
def State.modGang (s : State) (q num : Nat) (f : Gang → Gang) : State :=
  s.modCmd q num fun c => { c with gang := c.gang.map f }

/-- The placed blocks of a gang's launches are released, none of which has issued (R431). -/
def State.releaseLaunches (s : State) : List Nat → State
  | [] => s
  | n :: ns =>
    let s1 := s.dropLaunch n
    State.releaseLaunches { s1 with launches := NMap.erase s1.launches n } ns

/-- The GANG command completes with reason 9 (R431, R440). -/
def State.releaseGang (s : State) (q num : Nat) : State :=
  ((s.releaseLaunches (s.launchesOf q num)).postEvent q [ev0 5 9, BitVec.ofNat 64 num]).completeCmd q num

/-- ABORT takes effect on this member, which remembers the tag (R431). -/
def State.abortGang (s : State) (q num tag : Nat) : State :=
  State.releaseGang { s with aborted := tag :: s.aborted.filter (· != tag) } q num

/-- The leader aborts the gang: ABORT goes to every member (R431). -/
def State.leaderAbort (s : State) (q num : Nat) (g : Gang) : State :=
  (s.sendCtl g.tag .abort g.members).abortGang q num g.tag

/-- The arm timeout of a gang has expired at its leader (R430, R431). -/
def State.armExpired (s : State) (g : Gang) : Bool := decide (g.start + usTicks g.armTimeout < s.ft)

/-- The arm timeout of a gang ends a member that has not armed, and with the leader's the gang (R430, R431). -/
def State.giveUp (s : State) (q num : Nat) (g : Gang) : State :=
  if g.leader = s.pkg then s.leaderAbort q num g else s.releaseGang q num

/-- The leader holds ARM from every member: GO goes to them, with the start time (R430). One whose timeout has expired aborts
the gang (R431), and one whose time is not locked sends no GO (R435). -/
def State.tryGo (s : State) (q num : Nat) (g : Gang) : State :=
  let armed := (List.range g.members.length).all fun i => g.arms.any fun e => e.1 == i
  if g.leader != s.pkg || g.go.isSome then s
  else if s.armExpired g then s.leaderAbort q num g
  else if armed && s.locked then
    let t := s.ft + nsTicks g.goLead
    (s.modGang q num fun x => { x with go := some t }).sendCtl g.tag (.go t) g.members
  else s

/-- Every held block of the command is placed (R430). -/
def State.gangPlaced (s : State) (q num : Nat) : Bool :=
  (s.launchesOf q num).all fun n => match s.launch? n with
    | some la => la.placed == la.nblocks
    | none => true

/-- The member arms: its ARM goes to the leader, which is itself on the leader (R430). -/
def State.armMember (s : State) (q num : Nat) (g : Gang) : State :=
  let g1 := { g with armedAt := some s.ft, arms := if g.leader = s.pkg then (g.me, true) :: g.arms else g.arms }
  let k := ((s.cmd? q num).map Cmd.words).getD []
  (((s.modGang q num fun _ => g1).sendCtl g.tag (.arm (cmdWord k 1) (cmdWord k 2) (cmdWord k 3) g.hash) [g.leader])).tryGo
    q num g1

/-- GANG (R429 to R431): the nodes are loaded and their blocks placed; once they all are and fabric time is locked, the member
arms. -/
def execGang (q c first count : Nat) (k1 k2 k3 : W64) (s : State) : Result :=
  s.onCmd q c fun x =>
    if x.begun then
      (match x.gang with
        | some g =>
          if g.armedAt.isSome then s.tryGo q c g
          else if s.armExpired g then s.giveUp q c g
          else if s.locked && s.gangPlaced q c then s.armMember q c g else s
        | none => s)
    else match s.gangOf k1 k2 k3 with
      | .error e => s.failCommand q c e
      | .ok g =>
        if s.aborted.contains g.tag then s.releaseGang q c
        else (s.modCmd q c fun y => { y with gang := some g }).startNodes q c first count

-- Control packets (R430 to R433)

/-- The command in progress for a tag. -/
def State.gangFor (s : State) (tag : Nat) : Option (Nat × Cmd × Gang) :=
  s.queues.findSome? fun (e : Nat × Queue) => e.2.cmds.findSome? fun (c : Cmd) =>
    match c.gang with
    | some g => if g.tag = tag then some (e.1, c, g) else none
    | none => none

/-- A control packet: one whose command has ended is discarded and counted (R433). -/
def State.onGang (s : State) (tag : Nat) (f : Nat → Cmd → Gang → State) : Result :=
  .next (match s.gangFor tag with
    | none => { s with drops := s.drops + 1 }
    | some (q, c, g) => f q c g)

/-- A time that a gang's member watches: nothing happens without its command. -/
def State.gangTimer (s : State) (tag : Nat) (f : Nat → Cmd → Gang → State) : Result :=
  .next (match s.gangFor tag with
    | none => s
    | some (q, c, g) => f q c g)

/-- ARM (R430, R431): a member's words that differ, or an ARM after the leader's timeout, abort the gang. -/
def execArm (member : Nat) (k1 k2 k3 hash : W64) (s : State) : Result :=
  s.onGang (k1.extractLsb' 0 40).toNat fun q c g =>
    if g.leader != s.pkg || g.go.isSome || member ≥ g.members.length then s
    else if cmdWord c.words 1 != k1 || cmdWord c.words 2 != k2 || cmdWord c.words 3 != k3 || g.hash != hash then
      s.leaderAbort q c.num g
    else
      let g1 := { g with arms := (member, true) :: g.arms.filter fun e => e.1 != member }
      (s.modGang q c.num fun _ => g1).tryGo q c.num g1

/-- The gang breaks here, and this member tells the others (R432). -/
def State.missGang (s : State) (q num : Nat) : State := (s.tellBroken q num).breakGang q num

/-- GO (R430, R432): one that comes later than its time, or to a member whose time is not locked (R435), breaks the gang. -/
def execGo (tag time : Nat) (s : State) : Result :=
  s.onGang tag fun q c g =>
    if g.armedAt.isNone || g.go.isSome then s
    else if s.ft > time || !s.locked then s.missGang q c.num
    else s.modGang q c.num fun x => { x with go := some time }

/-- The placed blocks of a launch can issue: none is evicted. -/
def State.canIssue (s : State) (n : Nat) : Bool :=
  s.blocks.all fun (e : Nat × Block) => e.2.launch != n || (!e.2.saved && !e.2.evicting)

/-- The launches of a list are no longer held. -/
def State.unhold (s : State) : List Nat → State
  | [] => s
  | n :: ns => State.unhold (s.modLaunch n fun la => { la with held := false }) ns

/-- GO_TIME (R430, R432): at T the held blocks may issue, and STARTED goes to the leader; blocks that cannot issue by then, or a
time that is no longer locked (R435), are a miss. -/
def execGoTime (tag : Nat) (s : State) : Result :=
  s.gangTimer tag fun q c g =>
    match g.go with
    | none => s
    | some t =>
      let ns := s.launchesOf q c.num
      if g.issued || s.ft < t then s
      else if s.ft > t || !s.locked || !s.gangPlaced q c.num || !ns.all s.canIssue then s.missGang q c.num
      else ((s.unhold ns).modGang q c.num fun x =>
        { x with issued := true, started := if x.leader = s.pkg then x.me :: x.started else x.started }).sendCtl tag .started
          [g.leader]

/-- STARTED (R432): one that comes no earlier than T + 2 microseconds finds the gang broken. -/
def execStarted (tag member : Nat) (s : State) : Result :=
  s.onGang tag fun q c g =>
    match g.go with
    | none => s
    | some t =>
      if g.leader != s.pkg || g.started.contains member || member ≥ g.members.length then s
      else if t + usTicks 2 ≤ s.ft then s.missGang q c.num
      else (s.modGang q c.num fun x => { x with started := member :: x.started }).settleCmd q c.num

/-- ABORT (R431): a tag with no command here is remembered for the one that may still come. -/
def execAbort (tag : Nat) (s : State) : Result :=
  .next (match s.gangFor tag with
    | none => { s with drops := s.drops + 1, aborted := tag :: s.aborted.filter (· != tag) }
    | some (q, c, g) => if g.issued then s else s.abortGang q c.num tag)

/-- MISS (R432): as BROKEN. -/
def execMiss (tag : Nat) (s : State) : Result := s.onGang tag fun q c _ => s.breakGang q c.num

/-- BROKEN (R432). -/
def execBroken (tag : Nat) (s : State) : Result := s.onGang tag fun q c _ => s.breakGang q c.num

/-- ARM_TIMEOUT (R430, R431): the leader's timeout expires without every ARM, or that of a member that has not armed. -/
def execArmTimeout (tag : Nat) (s : State) : Result :=
  s.gangTimer tag fun q c g =>
    if (g.leader = s.pkg && g.go.isNone || g.armedAt.isNone) && g.start + usTicks g.armTimeout ≤ s.ft then s.giveUp q c.num g
    else s

/-- STARTED_DEADLINE (R432): at T + 2 microseconds the leader breaks a gang of which some STARTED is missing. -/
def execStartedDeadline (tag : Nat) (s : State) : Result :=
  s.gangTimer tag fun q c g =>
    match g.go with
    | none => s
    | some t =>
      if g.leader = s.pkg && t + usTicks 2 ≤ s.ft && g.started.length < g.members.length then s.missGang q c.num else s

/-- GANG_RELEASE_TIMEOUT (R431): an armed member that has seen neither GO nor ABORT. -/
def execGangReleaseTimeout (tag : Nat) (s : State) : Result :=
  s.gangTimer tag fun q c g =>
    match g.armedAt with
    | none => s
    | some t =>
      if g.go.isNone && t + usTicks g.armTimeout + nsTicks g.goLead + usTicks 2 ≤ s.ft then s.releaseGang q c.num else s

-- Fabric time (R435)

/-- TIME_PACKET (R435): fabric time is corrected; a changed path unlocks it. -/
def execTimePacket (delta : Int) (pathChanged : Bool) (s : State) : Result :=
  let t := ((s.ft : Int) + delta).toNat
  .next { s with ft := t, ftChanged := if pathChanged then t else s.ftChanged, locked := s.locked && !pathChanged }

/-- TIME_LOCK (R435): 1 ms after the change. -/
def execTimeLock (s : State) : Result :=
  .next (if s.ftChanged + usTicks 1000 ≤ s.ft then { s with locked := true } else s)

-- Mirage (R436, R437)

/-- A surface's record. -/
def State.surface (s : State) (n : Nat) : Surface := NMap.get { chosen := none, checked := 0 } s.surfaces n

/-- A surface's register. -/
def State.mirage (s : State) (n reg : Nat) : W64 := s.hubWord (mirageBase n + 8 * reg)

/-- MIRAGE_DEADLINE (R437): READY decides between the producer's frame and the fallback. -/
def execMirageDeadline (surface : Nat) (s : State) : Result :=
  let x := s.surface surface
  let n := x.checked
  let pb := (s.mirage surface 4).toNat
  .next (if surface ≥ 8 || !(s.mirage surface 0).getLsbD 0 || x.chosen.isSome || s.mirage surface 1 == 0 ||
      s.ft + (s.mirage surface 3).toNat < (s.mirage surface 2).toNat + n * (s.mirage surface 1).toNat then s
    else
      let ready := s.load64 (pb + 16)
      let put (s : State) (p : W64) : State :=
        { s with surfaces := NMap.put s.surfaces surface { chosen := some (n, p), checked := n + 1 } }
      if n ≤ ready.toNat then put s (s.load64 pb)
      else
        let p := s.load64 (pb + 8)
        let s1 : State := { put s p with misses := NMap.set 0 s.misses surface (NMap.get 0 s.misses surface + 1) }
        if s.locked then
          s1.postEvent ((s.mirage surface 0).extractLsb' 16 10).toNat [ev0 9 surface, BitVec.ofNat 64 n, p, ready]
        else s1)

/-- VSYNC (R437): CUR and N are written indivisibly. -/
def execVsync (surface : Nat) (s : State) : Result :=
  let x := s.surface surface
  .next (match x.chosen with
    | none => s
    | some (n, p) =>
      if !(s.mirage surface 0).getLsbD 0 || s.ft < (s.mirage surface 2).toNat + n * (s.mirage surface 1).toNat then s
      else
        let s1 := (s.setHub (mirageBase surface + 40) p).setHub (mirageBase surface + 48) (BitVec.ofNat 64 n)
        { s1 with surfaces := NMap.put s1.surfaces surface { x with chosen := none } })

end Sys2Proof.Machine
end

