-- ==== Sys2Proof/Machine/Choose.lean ====
section
/-! DEFINITION. Who moves next where no rule orders the moves (log entry 2): a list of the words and events that may come
next inside the package. One that its rule does not allow yet changes nothing. -/

namespace Sys2Proof.Machine

/-- Events of a group. -/
def groupMoves (gid : Nat) (g : Group) : List Move :=
  (if g.clause.isSome then [.word gid] else []) ++ [.event (.sleepEnd gid), .event (.dwellBreak gid),
    .event (.exitDrainingEnd gid), .event (.tileAccessPerformed gid), .event (.predicateResult gid),
    .event (.matrixCheckTrap gid)] ++ g.timers.map fun e => .event (.convergenceTimeout gid (BitVec.ofNat 64 e.1))

/-- Events of a core. -/
def coreMoves (n : Nat) (c : Core) : List Move :=
  [.event (.clauseStart n), .event (.matrixOpStart n 0), .event (.matrixOpStart n 1),
    .event (.matrixOpComplete n 0), .event (.matrixOpComplete n 1), .event (.pcSample n), .event (.memorySample n),
    .event (.capacityRefreshRecord n)] ++
    c.bins.flatMap fun e => [.event (.binTimeExpiry n e.1), .event (.spawnedGroupStart n e.1)]

/-- Events of a request on its way. -/
def State.reqMoves (s : State) (r : Req) : List Move :=
  [.event (.atomicAtHome r.id), .event (.remoteAccess r.id), .event (.storeAck r.id), .event (.counterAdditionAtHome r.id),
    .event (.orderGate r.id), .event (.gateTimeout r.id)] ++
    if r.todo.any fun a => s.peerDown a.addr then [.event (.peerAccessFail r.id)] else []

/-- Events of write-backs, waits and contributions. -/
def State.flightMoves (s : State) : List Move :=
  let fail (id a : Nat) : List Move := if s.peerDown a then [.event (.peerAccessFail id)] else []
  s.asyncs.map (fun a => .event (.asyncComplete a.id)) ++
    s.pubs.flatMap (fun p => [.event (.publishComplete p.id), .event (.reductionFlush p.id)]) ++
    s.wbs.flatMap (fun w => .event (.writeBackAtHome w.id) :: fail w.id (w.line * 128)) ++
    s.ctrWaits.flatMap (fun w => [.event (.ctrWaitComplete w.id), .event (.ctrWaitTimeout w.id), .event (.gateTimeout w.id)] ++ fail w.id w.addr) ++
    s.contribs.flatMap fun k =>
      [.event (.contributionArrival (s.edgeDie k.addr) k.id), .event (.mergeHoldExpiry (s.edgeDie k.addr) k.id),
        .event (.reductionAck k.id)] ++ fail k.id k.addr

/-- Cores for a launch's next block or array: a free choice (log entry 2). -/
def State.someCores (s : State) (n : Nat) : List Nat :=
  (List.range n).map fun i => Config.placeAt s.tick 0 % 32 * 256 + Config.placeAt s.tick (i + 1) % 256

/-- Events of a launch and of a block. -/
def State.blockMoves (s : State) : List Move :=
  s.launches.flatMap (fun e =>
    [.event (.blockPlacement e.1 (s.someCores (Nat.max e.2.arrayLen 1))),
      .event (.meshGroupStart e.1 ((s.someCores 1).headD 0)), .event (.nodeComplete e.1)]) ++
    s.blocks.flatMap fun e =>
      (if e.2.unstarted.isEmpty then [] else [.event (.spawnedGroupStart e.2.core (16 + e.1))]) ++
      [.event (.matrixContextEnd e.1), .event (.eviction e.1), .event (.retirementComplete e.1),
        .event (.blockResume e.1 (clusterOf e.2.core * 256 + Config.placeAt s.tick 1 % 256))]

/-- Events of the engines. -/
def State.engineMoves (s : State) : List Move :=
  s.rays.map (fun r => .event (.rayRecordReady r.id)) ++
    s.copies.flatMap (fun j => [.event (.copyJobStart j.id (Config.placeAt s.tick 0 % 8)), .event (.granuleLanded j.id),
      .event (.copyJobComplete j.id)]) ++
    s.encodes.flatMap (fun j => [.event (.encoderJob (dieOf j.core)), .event (.encoderJobComplete j.id)]) ++
    s.dies.flatMap (fun e => e.2.apWrites.map fun w => .event (.tileWrite e.1 w.ap)) ++
    s.prims.flatMap (fun p => [.event (.primitiveBin p.id), .event (.listAppend p.slot p.id)]) ++
    s.passes.flatMap fun e => .event (.tilePassGrant e.1) ::
      e.2.tiles.flatMap fun t => [.event (.startSequence e.1 t.1), .event (.coverageVerdictWrite e.1 t.1)]

/-- Events of the front end and the die control cores. -/
def State.hubMoves (s : State) : List Move :=
  s.queues.flatMap (fun (e : Nat × Queue) =>
    [.event (.commandStart e.1), .event (.eventPost e.1)] ++
      e.2.cmds.flatMap fun (c : Cmd) =>
        (match commandEvent e.1 c.num c.words with
          | .ok i => [.event i]
          | .error _ => []) ++
        match c.gang with
        | some g => [.event (.goTime g.tag), .event (.armTimeout g.tag), .event (.startedDeadline g.tag),
            .event (.gangReleaseTimeout g.tag)]
        | none => []) ++
    (if s.fwEvents.isEmpty then [] else (List.range 12).map fun n => .event (.firmwareEvent n)) ++
    s.dies.map (fun e => .event (.debugRecord e.1)) ++ [.event .timeLock] ++
    s.surfaces.flatMap fun e => [.event (.mirageDeadline e.1), .event (.vsync e.1)]

/-- The moves that may come next. -/
def State.moves (s : State) : List Move :=
  s.groups.flatMap (fun e => groupMoves e.1 e.2) ++ s.cores.flatMap (fun e => coreMoves e.1 e.2) ++
    s.reqs.flatMap s.reqMoves ++ s.flightMoves ++ s.blockMoves ++ s.engineMoves ++ s.hubMoves

/-- A gang whose leader is here lacks some STARTED at T + 2 microseconds (R432): its tag. -/
def State.startedDue (s : State) : Option Nat :=
  s.queues.findSome? fun (e : Nat × Queue) => e.2.cmds.findSome? fun (c : Cmd) =>
    match c.gang with
    | some g => g.go.bind fun t => if decide (t + usTicks 2 ≤ s.ft) && !c.allStarted s.pkg then some g.tag else none
    | none => none

/-- The next move and the state that has taken it from the agenda: the agenda's first, else a deadline that has come (R432),
else a free choice. -/
def State.nextMove (s : State) (n : Nat) : Option Move × State :=
  match s.agenda, s.startedDue with
  | m :: ms, _ => (some m, { s with agenda := ms })
  | [], some tag => (some (.event (.startedDeadline tag)), s)
  | [], none => (s.moves[n % Nat.max s.moves.length 1]?, s)

end Sys2Proof.Machine
end

