-- ==== Sys2Proof/Machine/Graphics.lean ====
section
/-! DEFINITION. Attributes, the visibility buffer, textures and coverage verdicts (R225 to R242). -/

namespace Sys2Proof.Machine

-- Loads of several words per lane (R227)

/-- The lanes of the accesses of a list that fail a test. -/
def accLanes (p : Nat × W64 → Bool) (es : List (Nat × W64)) : LaneMask :=
  maskOf fun l => es.any fun e => e.1 == l && p e

/-- A cause, the lanes that raise it, and the first address of the lowest of them. -/
def accFault (e : MemErr) (p : Nat × W64 → Bool) (es : List (Nat × W64)) : Option (MemErr × LaneMask × W64) :=
  let m := accLanes p es
  if m = 0 then none
  else some (e, m, ((es.find? fun x => some x.1 == lowestLane m && p x).map (·.2)).getD 0)

/-- The first cause that some access of n bytes raises (R174, R227); mis lists the addresses whose alignment is at fault. -/
def State.multiErr (s : State) (v : View) (es : List (Nat × W64)) (n : Nat) (mis : List (Nat × W64)) :
    Option (MemErr × LaneMask × W64) :=
  (accFault .space (fun e => s.spaceErr v e.2 n .read true) es).or
    ((accFault .misaligned (fun _ => true) mis).or
      (accFault .translation (fun e => s.transErr v e.1 e.2 n .read) es))

/-- A fault of such an access. -/
def Ctx.accTrap (c : Ctx) (x : MemErr × LaneMask × W64) : Effect := c.fault x.1.code x.2.2 x.2.1

/-- The addresses of a list that are not a multiple of n. -/
def misaligned (n : Nat) (es : List (Nat × W64)) : List (Nat × W64) := es.filter fun e => e.2.toNat % n != 0

/-- A lane's access needs a walk that a migration holds (R333). -/
def State.accHeld (s : State) (v : View) (es : List (Nat × W64)) : Bool := es.any fun e => s.heldAddr v e.1 e.2

/-- The accesses leave their translations in the TLBs. -/
def State.accSettle (s : State) (v : View) (es : List (Nat × W64)) : State := es.foldl (fun s e => s.touchTlb v e.1 e.2) s

/-- The home addresses in the L1's spaces that accesses of n bytes touch. -/
def State.accSnap (s : State) (v : View) (n : Nat) (es : List (Nat × W64)) : List (Nat × Nat) :=
  es.flatMap fun e => s.snapOf v (fun _ => e.2) n .read [e.1]

/-- A value that an instruction's checks need, read at issue; none while its line is absent or earlier accesses to its array or
sector wait (R171, R189, R231). -/
def State.readNow (s : State) (v : View) (l : Nat) (a : W64) (n : Nat) : Option (Nat × State) :=
  match s.targetOf v l a n .read with
  | .snap pa => if s.sectorBusy v.core pa || s.peerBusy v.core pa then none else some ((s.accSettle v [(l, a)]).l1Load v.core .dflt pa n)
  | .port m off => some ((s.portSeen v.core m off n false v.l2).portLoad v.core m off n)
  | .arr p _ =>
    if s.present p && !s.arrayBusy v.core v.gid s.nextId p then some (s.loadN p n, s) else none

/-- Reads a value at issue for each lane of a list; none when one must wait. -/
def State.readsNow (s : State) (v : View) (n : Nat) : List (Nat × W64) → Option (NMap Nat × State)
  | [] => some ([], s)
  | e :: es =>
    match s.readNow v e.1 e.2 n with
    | none => none
    | some (x, s1) =>
      match State.readsNow s1 v n es with
      | none => none
      | some (m, s2) => some (NMap.put m e.1 x, s2)

/-- The accesses leave, and the operation is in flight (R227). -/
def Gather.depart (g : Gather) (c : Ctx) (v : View) (tl : Tail) : Effect :=
  if g.full c.gid c.core then .stall
  else
    let op := g.s.nextId
    let g1 := { g with s := { g.s with nextId := op + 1 }, async := { g.async with id := op } }
    let g2 := g1.sendAll c v g1.buckets
    let s2 : State := { g2.s with asyncs := g2.s.asyncs ++ [{ g2.async with deps := g2.deps }] }
    .ok (match tl with
      | none => s2
      | some k => s2.modGroup c.gid fun x => x.sbInc k.toNat)

/-- The loads of a graphics instruction: each lane and address with its destination, n bytes each, after their checks. -/
def Ctx.gfxLoads (c : Ctx) (v : View) (n : Nat) (es : List (Nat × W64 × Dst)) (mis : List (Nat × W64)) (extra : List (Nat × W64))
    (tl : Tail) (g : Option Gfx) (s : State) : Effect :=
  let accs := es.map fun e => (e.1, e.2.1)
  if s.accHeld v accs then .stall
  else match s.multiErr v accs n mis with
    | some x => c.accTrap x
    | none =>
      c.watchedAll .load (accs ++ extra) n (fun _ => 0) v s
        (c.peerRead .read (s.accSnap v n accs) s
          (let g0 := c.gather (s.accSettle v accs) tl
           (es.foldl (fun (g : Gather) e => g.loads v .dflt (fun _ _ => e.2.2) 0 (g.s.piecesOf v e.1 e.2.1 n .read))
             { g0 with async := { g0.async with gfx := g } }).depart c v tl))

-- The visibility buffer (R228, R229)

/-- vbld (R229). -/
def execVbld (n : BitVec 2) (d : BitVec 6) (a : BitVec 5) (b : Operand) (tl : Tail) (s : State) : Result :=
  issueAsync (fun _ => true) [.src b, .regs d 3 4] tl (fun c s =>
    let v := s.viewOf c.gid c.g
    let base := c.g.sget a.toNat
    let ls := laneList c.em
    if c.em != 0 && !(spaceOf base == some .tile && v.tileOk (base.toNat % 2 ^ 19) 49152) then c.fault 0x08 base c.em
    else if c.em != 0 && base.toNat % 1024 != 0 then c.fault 0x09 base c.em
    else
      let es := ls.flatMap fun l =>
        let p := c.g.read32 c.rank .word b l
        let k := n.toNat * 1024 + (p.extractLsb' 5 5).toNat * 32 + (p.extractLsb' 0 5).toNat
        let dst (i : Nat) : Dst := .v l (d.toNat + i) 4 false
        [(l, base + BitVec.ofNat 64 (8 * k), dst 0), (l, base + BitVec.ofNat 64 (8 * k + 4), dst 1),
         (l, base + BitVec.ofNat 64 (32768 + 4 * k), dst 2)]
      c.gfxLoads v 4 es [] [] tl none s) s

-- attr (R230 to R232)

/-- The mode's code. -/
def AttrMode.code : AttrMode → Nat
  | .vg _ => 0
  | .v _ => 1
  | .b => 2

/-- The destination registers a mode writes. -/
def AttrMode.use (d : BitVec 6) : AttrMode → Use
  | .vg _ => .regs d 3 1
  | .v _ => .regs d 1 1
  | .b => .regs d 2 2

/-- The attribute index of a lane. -/
def Ctx.attrIndex (c : Ctx) (m : AttrMode) (l : Nat) : Nat :=
  match m with
  | .vg j => (c.g.read32 c.rank .word j l).toNat % 32
  | .v j => (c.g.read32 c.rank .word j l).toNat % 32
  | .b => 0

/-- The words that a lane reads of a record: offsets and keys. -/
def attrWords (mode na j : Nat) : List (Nat × Nat) :=
  if na < 1 || na > 32 || j ≥ na then []
  else
    ((List.range 3).flatMap fun v => [(16 * v, 3 * v), (16 * v + 4, 3 * v + 1), (16 * v + 12, 3 * v + 2)]) ++
      (if mode = 2 then [] else (List.range 3).map fun v => (64 + 4 * (v * na + j), 9 + v))

/-- attr (R231). The number of attributes is read with the checks; an aligned record's first 64 bytes pass or fail them
together, the count's with them, and EADDR names the record where both fail. -/
def execAttr (mode : AttrMode) (d : BitVec 6) (a b : Operand) (tl : Tail) (s : State) : Result :=
  issueAsync (fun _ => true) [.src64 a, .src b, AttrMode.use d mode] tl (fun c s =>
    let v := s.viewOf c.gid c.g
    let ls := laneList c.em
    let ra (l : Nat) : W64 := c.g.read64 c.rank a l
    let recs := ls.map fun l => (l, ra l)
    let heads := ls.map fun l => (l, ra l + 48)
    if s.accHeld v (recs ++ heads) then .stall
    else match s.multiErr v (recs ++ heads) 4 (misaligned 64 recs) with
      | some x => c.accTrap x
      | none =>
        c.peerRead .read (s.accSnap v 4 heads) s <| match s.readsNow v 4 heads with
        | none => .stall
        | some (nas, s1) =>
          let na (l : Nat) : Nat := NMap.get 0 nas l
          let j := c.attrIndex mode
          let es := ls.flatMap fun l => (attrWords (AttrMode.code mode) (na l) (j l)).map fun w =>
            (l, ra l + BitVec.ofNat 64 w.1, Dst.raw (l * 16 + w.2))
          c.gfxLoads v 4 es [] heads tl
            (some (.attr (AttrMode.code mode) d.toNat (ls.map fun l => (l, c.g.read32 c.rank .word b l, na l, j l)))) s1) s

-- Textures (R235 to R242)

/-- The texels of a lane, read in a list of distinct blocks: the block's place in the list is its key. One at the border is not
read. -/
def tapsOf (t : TexDesc) (lane : Nat) (xs : List Texel) : List W64 × List Tap :=
  let blocks := (distinct (xs.filterMap fun x => x.at_.map fun e => e.1.toNat)).map fun a => BitVec.ofNat 64 a
  (blocks, xs.map fun x => match x.at_ with
    | some e =>
      { key := lane * 4096 + blocks.findIdx fun a => a == e.1, fmt := t.fmt, sub := e.2, wn := x.weight.n.toNat, wd := x.weight.d }
    | none => { key := 0, fmt := borderFmt, sub := 0, wn := x.weight.n.toNat, wd := x.weight.d })

/-- The body of a texture instruction (R227, R241, R242): the descriptor is read with the checks, then the texels of each lane;
a format fault comes after the causes of the texels, but where no texel is named: a code that is no format, and a sampler word
that `named` refuses (log entry 64). A BASE that is not a multiple of 256 has no cause in R242: the texels are read from it, and a
block that is not aligned to its size misaligns (log entry 92). -/
def Ctx.texture (c : Ctx) (d : BitVec 6) (b : BitVec 5) (useSampler : Bool) (named : W64 → Bool) (tl : Tail) (s : State)
    (taps : TexDesc → W64 → Nat → List Texel) : Effect :=
  if b.toNat % 2 != 0 then c.illegalOperand
  else
    let v := s.viewOf c.gid c.g
    let desc := c.g.sget b.toNat
    let smp := c.g.sget (b.toNat + 1)
    let ls := laneList c.em
    if ls.isEmpty then c.gfxLoads v 1 [] [] [] tl none s
    else
      let heads := ls.map fun l => (l, desc)
      if s.accHeld v [(0, desc)] then .stall
      else match s.multiErr v heads 32 (misaligned 32 heads) with
        | some x => c.accTrap x
        | none =>
          c.peerRead .read (s.accSnap v 32 [(0, desc)]) s <| match s.readNow v 0 desc 32 with
          | none => .stall
          | some (x, s1) =>
            match texFields x with
            | none => c.fault 0x0C desc c.em
            | some t =>
              if !named smp then c.fault 0x0C desc c.em
              else
                let n := (texBlock t.fmt).2
                let work := ls.map fun l => (l, tapsOf t l (taps t smp l))
                let es := work.flatMap fun w => (List.range w.2.1.length).map fun i =>
                  (w.1, w.2.1.getD i 0, Dst.raw (w.1 * 4096 + i))
                let accs := es.map fun e => (e.1, e.2.1)
                if (texDesc x).isNone || (useSampler && !samplerOk smp) then
                  if s1.accHeld v accs then .stall
                  else match s1.multiErr v accs n (misaligned n accs) with
                    | some y => c.accTrap y
                    | none => c.fault 0x0C desc c.em
                else
                  c.gfxLoads v n es (misaligned n accs) heads tl (some (.tex d.toNat (work.map fun w => (w.1, w.2.2)))) s1

/-- The sampler word of sample: filter 3 acts as filter 2 (R239). -/
def plainFilter (w : W64) : W64 := if w.extractLsb' 0 2 = 3 then w &&& ~~~1#64 else w

/-- sample (R239 to R241). -/
def execSample (d : BitVec 6) (a : Operand) (b : BitVec 5) (cc : Operand) (tl : Tail) (s : State) : Result :=
  issueAsync (fun _ => true) [.src64 a, .src cc, .regs d 4 4] tl (fun c s =>
    c.texture d b true (fun _ => true) tl s fun t w l =>
      let uv := c.g.read64 c.rank a l
      texTaps t (plainFilter w) (uv.extractLsb' 0 32) (uv.extractLsb' 32 32) (lodOf (c.g.read32 c.rank .word cc l) w) 1 none) s

/-- sampleg (R239 to R241): the gradients are a quad, routed as a unit. -/
def execSampleg (d : BitVec 6) (a : Operand) (b : BitVec 5) (g : BitVec 6) (rt : BitVec 4) (tl : Tail) (s : State) : Result :=
  issueAsync (fun _ => true) [.src64 a, .src (.v g rt), .regs g 4 4, .regs d 4 4] tl (fun c s =>
    c.texture d b true samplerFilters tl s fun t w l =>
      let uv := c.g.read64 c.rank a l
      let m := c.g.route rt l
      let gl := gradientLod t w ((List.range 4).map fun i => c.g.supply (g.toNat + i) m)
      texTaps t w (uv.extractLsb' 0 32) (uv.extractLsb' 32 32) gl.1 gl.2.1 gl.2.2) s

/-- texld (R241): one texel, unfiltered, with no address mode. -/
def execTexld (d : BitVec 6) (a : Operand) (b : BitVec 5) (cc : Operand) (tl : Tail) (s : State) : Result :=
  issueAsync (fun _ => true) [.src64 a, .src cc, .regs d 4 4] tl (fun c s =>
    c.texture d b false (fun _ => true) tl s fun t _ l =>
      let ik := c.g.read64 c.rank a l
      let i := (ik.extractLsb' 0 32).toInt
      let k := (ik.extractLsb' 32 32).toInt
      let m := (c.g.read32 c.rank .word cc l).toInt
      if m < 0 || m > t.lm1 || i < 0 || k < 0 || i ≥ levelDim t.w m.toNat || k ≥ levelDim t.h m.toNat then []
      else [{ at_ := some (t.texel m.toNat i.toNat k.toNat), weight := Frac.int 1 }]) s

-- Coverage (R233, R234)

/-- covw (R234). -/
def execCovw (a : Operand) (s : State) : Result :=
  issue [.src a] none (fun c s =>
    let bad := c.em &&& (~~~c.g.covLanes ||| c.g.covDone)
    if bad != 0 then c.fault 0x03 c.word bad
    else
      .ok (((s.settle c [.src a]).verdicts c.g (fun l =>
        (c.g.read32 c.rank .word a l).toNat % 16 &&& NMap.get 0 c.g.covCand l % 16) (laneList c.em)).modGroup c.gid fun g =>
          { g with covDone := g.covDone ||| c.em })) s

end Sys2Proof.Machine
end

