-- ==== Sys2Proof/Machine/Integer.lean ====
section
/-! DEFINITION. Integer arithmetic (R75 to R78). -/

namespace Sys2Proof.Machine

/-- iadd (R75): the sum, wrapped. -/
def execIadd (t : IType) (d : Dest) (a b : Operand) (tl : Tail) (s : State) : Result :=
  aluInt2 t d a b tl (fun x y => fit t.signed false t.width (x + y)) s

/-- isub (R75): the difference, wrapped. -/
def execIsub (t : IType) (d : Dest) (a b : Operand) (tl : Tail) (s : State) : Result :=
  aluInt2 t d a b tl (fun x y => fit t.signed false t.width (x - y)) s

/-- imul (R75): the product, wrapped or clamped. -/
def execImul (t : IType) (sat : Bool) (d : Dest) (a b : Operand) (tl : Tail) (s : State) : Result :=
  aluInt2 t d a b tl (fun x y => fit t.signed sat t.width (x * y)) s

/-- imulhi (R75): the upper half of the exact product. -/
def execImulhi (t : IType) (d : Dest) (a b : Operand) (tl : Tail) (s : State) : Result :=
  aluInt2 t d a b tl (fun x y => wrapNat t.width ((x * y) / (2 ^ t.width : Int))) s

/-- imad (R75): product plus addend, wrapped or clamped. -/
def execImad (t : IType) (sat : Bool) (d : Dest) (a b c : Operand) (tl : Tail) (s : State) : Result :=
  aluInt3 t d a b c tl (fun x y z => fit t.signed sat t.width (x * y + z)) s

/-- The quotient of R76, rounded toward zero. -/
def divResult (t : IType) (sat : Bool) (x y : Int) : Nat :=
  if y = 0 then 2 ^ t.width - 1 else fit t.signed sat t.width (x.tdiv y)

/-- The remainder of R76, with the dividend's sign. -/
def remResult (t : IType) (x y : Int) : Nat :=
  if y = 0 then wrapNat t.width x else wrapNat t.width (x.tmod y)

/-- idiv (R76). -/
def execIdiv (t : IType) (sat : Bool) (d : Dest) (a b : Operand) (tl : Tail) (s : State) : Result :=
  aluInt2 t d a b tl (divResult t sat) s

/-- irem (R76). -/
def execIrem (t : IType) (d : Dest) (a b : Operand) (tl : Tail) (s : State) : Result :=
  aluInt2 t d a b tl (remResult t) s

/-- ineg (R75). -/
def execIneg (t : IType) (sat : Bool) (d : Dest) (a : Operand) (tl : Tail) (s : State) : Result :=
  aluInt1 t d a tl (fun x => fit t.signed sat t.width (-x)) s

/-- iabs (R75). -/
def execIabs (t : IType) (sat : Bool) (d : Dest) (a : Operand) (tl : Tail) (s : State) : Result :=
  aluInt1 t d a tl (fun x => fit t.signed sat t.width x.natAbs) s

/-- imin (R75). -/
def execImin (t : IType) (d : Dest) (a b : Operand) (tl : Tail) (s : State) : Result :=
  aluInt2 t d a b tl (fun x y => wrapNat t.width (min x y)) s

/-- imax (R75). -/
def execImax (t : IType) (d : Dest) (a b : Operand) (tl : Tail) (s : State) : Result :=
  aluInt2 t d a b tl (fun x y => wrapNat t.width (max x y)) s

/-- iaddsat (R75): the sum, clamped. -/
def execIaddsat (t : IType) (d : Dest) (a b : Operand) (tl : Tail) (s : State) : Result :=
  aluInt2 t d a b tl (fun x y => fit t.signed true t.width (x + y)) s

/-- isubsat (R75): the difference, clamped. -/
def execIsubsat (t : IType) (d : Dest) (a b : Operand) (tl : Tail) (s : State) : Result :=
  aluInt2 t d a b tl (fun x y => fit t.signed true t.width (x - y)) s

/-- iclamp (R75): min (max (x, y), z), and z when y > z. -/
def execIclamp (t : IType) (d : Dest) (a b c : Operand) (tl : Tail) (s : State) : Result :=
  aluInt3 t d a b c tl (fun x y z => wrapNat t.width (min (max x y) z)) s

/-- A 32-bit extension to 64 bits by the type of R77. -/
def extend64 (t : IType) (x : W32) : W64 := if t.signed then x.signExtend 64 else x.setWidth 64

/-- add64 (R77). -/
def execAdd64 (t : IType) (d : Dest) (a b : Operand) (tl : Tail) (s : State) : Result :=
  alu64 [.src64 a, .src b] d tl (fun g k l => (g.read64 k a l + extend64 t (g.read32 k .word b l), 0)) s

/-- lea (R77): the index is scaled by a power of two. -/
def execLea (t : IType) (d : Dest) (a b : Operand) (sh : BitVec 3) (tl : Tail) (s : State) : Result :=
  alu64 [.src64 a, .src b] d tl
    (fun g k l => (g.read64 k a l + extend64 t (g.read32 k .word b l) * BitVec.ofNat 64 (2 ^ sh.toNat), 0)) s

/-- The sum of the four byte products of dot4 (R75). -/
def dot4Sum (t : IType) (a b : W32) : Int :=
  [0, 1, 2, 3].foldl (fun acc n =>
    acc + intOf t.signed 8 (a.toNat / 2 ^ (8 * n)) * intOf t.signed 8 (b.toNat / 2 ^ (8 * n))) 0

/-- dot4 (R75): the accumulator and the result are of the 32-bit type of the same sign. -/
def execDot4 (t : IType) (sat : Bool) (d : Dest) (a b c : Operand) (tl : Tail) (s : State) : Result :=
  alu32 [.src a, .src b, .src c] d tl t.signed (fun g k l =>
    (BitVec.ofNat 32 (fit t.signed sat 32
      (intOf t.signed 32 (g.read32 k .word c l).toNat + dot4Sum t (g.read32 k .word a l) (g.read32 k .word b l))), 0)) s

/-- A condition of icmp on two codes of an integer type (R78). -/
def condHolds (c : ICond) (t : IType) (x y : Nat) : Bool :=
  let i := intOf t.signed t.width x
  let j := intOf t.signed t.width y
  match c with
  | .eq => i == j
  | .ne => i != j
  | .lt => decide (i < j)
  | .le => decide (i ≤ j)
  | .gt => decide (j < i)
  | .ge => decide (j ≤ i)
  | .tst => Nat.land x y != 0
  | .ntst => Nat.land x y == 0

/-- icmp (R78). -/
def execIcmp (t : IType) (cond : ICond) (a b : Operand) (tl : Tail) (s : State) : Result :=
  aluCm [useOf t a, useOf t b] tl (fun g k l => (condHolds cond t (g.readType k t a l) (g.readType k t b l), 0)) s

end Sys2Proof.Machine
end

