-- ==== Sys2Proof/Machine/Logic.lean ====
section
/-! DEFINITION. Logic, shifts, bit fields, moves and constants (R79 to R83). -/

namespace Sys2Proof.Machine

/-- A logic instruction on the bits of two operands of the type's width. -/
def aluBits2 (t : IType) (d : Dest) (a b : Operand) (tl : Tail) (f : Nat → Nat → Nat) (s : State) : Result :=
  aluInt t [a, b] d tl (fun g k l => f (g.readType k t a l) (g.readType k t b l)) s

/-- and (R79). -/
def execAnd (t : IType) (d : Dest) (a b : Operand) (tl : Tail) (s : State) : Result := aluBits2 t d a b tl Nat.land s

/-- or (R79). -/
def execOr (t : IType) (d : Dest) (a b : Operand) (tl : Tail) (s : State) : Result := aluBits2 t d a b tl Nat.lor s

/-- xor (R79). -/
def execXor (t : IType) (d : Dest) (a b : Operand) (tl : Tail) (s : State) : Result := aluBits2 t d a b tl Nat.xor s

/-- not (R79). -/
def execNot (t : IType) (d : Dest) (a : Operand) (tl : Tail) (s : State) : Result :=
  aluInt t [a] d tl (fun g k l => 2 ^ t.width - 1 - g.readType k t a l) s

/-- andn (R79): a and not b. -/
def execAndn (t : IType) (d : Dest) (a b : Operand) (tl : Tail) (s : State) : Result :=
  aluBits2 t d a b tl (fun x y => Nat.land x (2 ^ t.width - 1 - y)) s

/-- A shift: the amount is read as 32 bits of b, whatever the type (R79). -/
def aluShift (t : IType) (d : Dest) (a b : Operand) (tl : Tail) (f : Nat → Nat → Nat) (s : State) : Result :=
  let g (gr : Group) (k l : Nat) : Nat := f (gr.readType k t a l) (gr.read32 k .word b l).toNat
  if t.wide then alu64 [.src64 a, .src b] d tl (fun gr k l => (BitVec.ofNat 64 (g gr k l), 0)) s
  else alu32 [.src a, .src b] d tl (t == .i32) (fun gr k l => (BitVec.ofNat 32 (g gr k l), 0)) s

/-- shl (R79): zero when the amount reaches the width. -/
def execShl (t : IType) (d : Dest) (a b : Operand) (tl : Tail) (s : State) : Result :=
  aluShift t d a b tl (fun x n => x * 2 ^ (n % 128) % 2 ^ t.width) s

/-- shr (R79). -/
def execShr (t : IType) (d : Dest) (a b : Operand) (tl : Tail) (s : State) : Result :=
  aluShift t d a b tl (fun x n => x / 2 ^ (n % 128)) s

/-- sar (R79). -/
def execSar (t : IType) (d : Dest) (a b : Operand) (tl : Tail) (s : State) : Result :=
  aluShift t d a b tl (fun x n => wrapNat t.width (intOf true t.width x / (2 ^ (n % 128) : Int))) s

/-- rot (R79): toward the most significant bit. -/
def execRot (t : IType) (d : Dest) (a b : Operand) (tl : Tail) (s : State) : Result :=
  aluShift t d a b tl (fun x n =>
    let m := n % t.width
    (x * 2 ^ m % 2 ^ t.width) + x / 2 ^ (t.width - m)) s

/-- A bit count: a 32-bit result in one register, whatever the type (R79). -/
def aluCount (t : IType) (d : Dest) (a : Operand) (tl : Tail) (f : Nat → Nat) (s : State) : Result :=
  alu32 [useOf t a] d tl (t == .i32) (fun g k l => (BitVec.ofNat 32 (f (g.readType k t a l)), 0)) s

/-- The number of one bits among the low ones. -/
def popCount (x : Nat) : Nat → Nat
  | 0 => 0
  | n + 1 => x / 2 ^ n % 2 + popCount x n

/-- The zero bits at the low end, at most the given number. -/
def trailingZeros (x : Nat) : Nat → Nat
  | 0 => 0
  | n + 1 => if x % 2 = 1 then 0 else 1 + trailingZeros (x / 2) n

/-- The low w bits in reverse order. -/
def reverseBits (x : Nat) : Nat → Nat
  | 0 => 0
  | n + 1 => (x % 2) * 2 ^ n + reverseBits (x / 2) n

/-- popc (R79). -/
def execPopc (t : IType) (d : Dest) (a : Operand) (tl : Tail) (s : State) : Result :=
  aluCount t d a tl (fun x => popCount x t.width) s

/-- clz (R79). -/
def execClz (t : IType) (d : Dest) (a : Operand) (tl : Tail) (s : State) : Result :=
  aluCount t d a tl (fun x => trailingZeros (reverseBits x t.width) t.width) s

/-- ctz (R79). -/
def execCtz (t : IType) (d : Dest) (a : Operand) (tl : Tail) (s : State) : Result :=
  aluCount t d a tl (fun x => trailingZeros x t.width) s

/-- brev (R79). -/
def execBrev (t : IType) (d : Dest) (a : Operand) (tl : Tail) (s : State) : Result :=
  aluInt t [a] d tl (fun g k l => reverseBits (g.readType k t a l) t.width) s

/-- The field of bfx (R80): positions above 31 read as the sign or as zero. -/
def extractField (signed : Bool) (a : W32) (pos len : Nat) : W32 :=
  let wide : W64 := if signed then a.signExtend 64 else a.setWidth 64
  let fld := wide.toNat / 2 ^ pos % 2 ^ len
  if len = 0 then 0 else BitVec.ofNat 32 (wrapNat 32 (intOf signed len fld))

/-- bfx (R80). -/
def execBfx (t : IType) (d : Dest) (a b c : Operand) (tl : Tail) (s : State) : Result :=
  alu32 [.src a, .src b, .src c] d tl (t == .i32) (fun g k l =>
    (extractField t.signed (g.read32 k .word a l) ((g.read32 k .word b l).toNat % 32)
      (min ((g.read32 k .word c l).toNat % 64) 32), 0)) s

/-- The insertion of bfi (R80). -/
def insertField (a b : W32) (pos len : Nat) : W32 :=
  let m : W32 := BitVec.ofNat 32 ((2 ^ len - 1) * 2 ^ pos)
  (b &&& ~~~m) ||| (BitVec.ofNat 32 (a.toNat * 2 ^ pos) &&& m)

/-- bfi (R80). -/
def execBfi (d : Dest) (a b c : Operand) (tl : Tail) (s : State) : Result :=
  alu32 [.src a, .src b, .src c] d tl true (fun g k l =>
    let z := (g.read32 k .word c l).toNat
    (insertField (g.read32 k .word a l) (g.read32 k .word b l) (z % 32) (min (z / 256 % 64) 32), 0)) s

/-- One byte of perm8 (R81): a source byte, or eight copies of its top bit. -/
def permByte (a b : W32) (nib : Nat) : Nat :=
  let k := nib % 8
  let byte := (if k < 4 then a.toNat / 2 ^ (8 * k) else b.toNat / 2 ^ (8 * (k - 4))) % 256
  if nib / 8 % 2 = 1 then (if byte ≥ 128 then 255 else 0) else byte

/-- perm8 (R81). -/
def execPerm8 (d : Dest) (a b c : Operand) (tl : Tail) (s : State) : Result :=
  alu32 [.src a, .src b, .src c] d tl true (fun g k l =>
    let x := g.read32 k .word a l
    let y := g.read32 k .word b l
    let z := (g.read32 k .word c l).toNat
    (BitVec.ofNat 32 ([0, 1, 2, 3].foldl (fun acc n => acc + permByte x y (z / 16 ^ n % 16) * 256 ^ n) 0), 0)) s

/-- sel (R82): CM chooses per lane; the scalar form reads bit 0. -/
def execSel (t : IType) (d : Dest) (a b : Operand) (tl : Tail) (s : State) : Result :=
  aluInt t [a, b] d tl (fun g k l => if g.cm.getLsbD l then g.readType k t a l else g.readType k t b l) s

/-- mov (R82). -/
def execMov (t : IType) (d : Dest) (a : Operand) (tl : Tail) (s : State) : Result :=
  aluInt t [a] d tl (fun g k l => g.readType k t a l) s

/-- movi (R83). -/
def execMovi (t : IType) (d : Dest) (imm : BitVec 24) (tl : Tail) (s : State) : Result :=
  aluInt t [] d tl (fun _ _ _ => wrapNat t.width (intOf t.signed 24 imm.toNat)) s

/-- lit (R83): shifts a up by 24 and appends the immediate. -/
def execLit (t : IType) (d : Dest) (a : Operand) (imm : BitVec 24) (tl : Tail) (s : State) : Result :=
  aluInt t [a] d tl (fun g k l => (g.readType k t a l * 2 ^ 24 + imm.toNat) % 2 ^ t.width) s

end Sys2Proof.Machine
end

