-- ==== Sys2Proof/Machine/Dispatch.lean ====
section
/-! DEFINITION. The dispatch: one arm per instruction, each one call of its meaning. -/

namespace Sys2Proof.Machine

/-- The effect of an instruction or event on the state. -/
def exec (i : Instr) (s : State) : Host.Outcome State Fault Refusal :=
  match i with
  | .iadd t d a b tl => Sys2Proof.Machine.execIadd t d a b tl s
  | .isub t d a b tl => Sys2Proof.Machine.execIsub t d a b tl s
  | .imul t sat d a b tl => Sys2Proof.Machine.execImul t sat d a b tl s
  | .imulhi t d a b tl => Sys2Proof.Machine.execImulhi t d a b tl s
  | .imad t sat d a b c tl => Sys2Proof.Machine.execImad t sat d a b c tl s
  | .idiv t sat d a b tl => Sys2Proof.Machine.execIdiv t sat d a b tl s
  | .irem t d a b tl => Sys2Proof.Machine.execIrem t d a b tl s
  | .ineg t sat d a tl => Sys2Proof.Machine.execIneg t sat d a tl s
  | .iabs t sat d a tl => Sys2Proof.Machine.execIabs t sat d a tl s
  | .imin t d a b tl => Sys2Proof.Machine.execImin t d a b tl s
  | .imax t d a b tl => Sys2Proof.Machine.execImax t d a b tl s
  | .iaddsat t d a b tl => Sys2Proof.Machine.execIaddsat t d a b tl s
  | .isubsat t d a b tl => Sys2Proof.Machine.execIsubsat t d a b tl s
  | .iclamp t d a b c tl => Sys2Proof.Machine.execIclamp t d a b c tl s
  | .add64 t d a b tl => Sys2Proof.Machine.execAdd64 t d a b tl s
  | .lea t d a b sh tl => Sys2Proof.Machine.execLea t d a b sh tl s
  | .dot4 t sat d a b c tl => Sys2Proof.Machine.execDot4 t sat d a b c tl s
  | .icmp t cond a b tl => Sys2Proof.Machine.execIcmp t cond a b tl s
  | .and t d a b tl => Sys2Proof.Machine.execAnd t d a b tl s
  | .or t d a b tl => Sys2Proof.Machine.execOr t d a b tl s
  | .xor t d a b tl => Sys2Proof.Machine.execXor t d a b tl s
  | .not t d a tl => Sys2Proof.Machine.execNot t d a tl s
  | .andn t d a b tl => Sys2Proof.Machine.execAndn t d a b tl s
  | .shl t d a b tl => Sys2Proof.Machine.execShl t d a b tl s
  | .shr t d a b tl => Sys2Proof.Machine.execShr t d a b tl s
  | .sar t d a b tl => Sys2Proof.Machine.execSar t d a b tl s
  | .rot t d a b tl => Sys2Proof.Machine.execRot t d a b tl s
  | .popc t d a tl => Sys2Proof.Machine.execPopc t d a tl s
  | .clz t d a tl => Sys2Proof.Machine.execClz t d a tl s
  | .ctz t d a tl => Sys2Proof.Machine.execCtz t d a tl s
  | .brev t d a tl => Sys2Proof.Machine.execBrev t d a tl s
  | .bfx t d a b c tl => Sys2Proof.Machine.execBfx t d a b c tl s
  | .bfi d a b c tl => Sys2Proof.Machine.execBfi d a b c tl s
  | .perm8 d a b c tl => Sys2Proof.Machine.execPerm8 d a b c tl s
  | .sel t d a b tl => Sys2Proof.Machine.execSel t d a b tl s
  | .mov t d a tl => Sys2Proof.Machine.execMov t d a tl s
  | .movi t d imm tl => Sys2Proof.Machine.execMovi t d imm tl s
  | .lit t d a imm tl => Sys2Proof.Machine.execLit t d a imm tl s
  | .fadd t sat rnd d a b tl => Sys2Proof.Machine.execFadd t sat rnd d a b tl s
  | .fsub t sat rnd d a b tl => Sys2Proof.Machine.execFsub t sat rnd d a b tl s
  | .fmul t sat rnd d a b tl => Sys2Proof.Machine.execFmul t sat rnd d a b tl s
  | .ffma t sat rnd d a b c tl => Sys2Proof.Machine.execFfma t sat rnd d a b c tl s
  | .fmin t num d a b tl => Sys2Proof.Machine.execFmin t num d a b tl s
  | .fmax t num d a b tl => Sys2Proof.Machine.execFmax t num d a b tl s
  | .fcmp t cond a b tl => Sys2Proof.Machine.execFcmp t cond a b tl s
  | .fclass t d a tl => Sys2Proof.Machine.execFclass t d a tl s
  | .frcp t sat rnd d a tl => Sys2Proof.Machine.execFrcp t sat rnd d a tl s
  | .frsq t sat rnd d a tl => Sys2Proof.Machine.execFrsq t sat rnd d a tl s
  | .fsqrt t sat rnd d a tl => Sys2Proof.Machine.execFsqrt t sat rnd d a tl s
  | .fdiv t sat rnd d a b tl => Sys2Proof.Machine.execFdiv t sat rnd d a b tl s
  | .fexp2 t d a tl => Sys2Proof.Machine.execFexp2 t d a tl s
  | .flog2 t d a tl => Sys2Proof.Machine.execFlog2 t d a tl s
  | .fsinpi t d a tl => Sys2Proof.Machine.execFsinpi t d a tl s
  | .fcospi t d a tl => Sys2Proof.Machine.execFcospi t d a tl s
  | .ftanh t d a tl => Sys2Proof.Machine.execFtanh t d a tl s
  | .frnd t rnd d a tl => Sys2Proof.Machine.execFrnd t rnd d a tl s
  | .ffrac t d a tl => Sys2Proof.Machine.execFfrac t d a tl s
  | .fldexp t sat rnd d a b tl => Sys2Proof.Machine.execFldexp t sat rnd d a b tl s
  | .fgetexp t d a tl => Sys2Proof.Machine.execFgetexp t d a tl s
  | .fgetmant t d a tl => Sys2Proof.Machine.execFgetmant t d a tl s
  | .hadd2 t sat rnd d a b tl => Sys2Proof.Machine.execHadd2 t sat rnd d a b tl s
  | .hmul2 t sat rnd d a b tl => Sys2Proof.Machine.execHmul2 t sat rnd d a b tl s
  | .hfma2 t sat rnd d a b c tl => Sys2Proof.Machine.execHfma2 t sat rnd d a b c tl s
  | .fdot2 t sat rnd d a b c tl => Sys2Proof.Machine.execFdot2 t sat rnd d a b c tl s
  | .fabs t d a tl => Sys2Proof.Machine.execFabs t d a tl s
  | .fneg t d a tl => Sys2Proof.Machine.execFneg t d a tl s
  | .fclamp t d a b c tl => Sys2Proof.Machine.execFclamp t d a b c tl s
  | .cvtToInteger src t sat rnd d a tl => Sys2Proof.Machine.execCvtToInteger src t sat rnd d a tl s
  | .cvtToFloat src t sat rnd d a tl => Sys2Proof.Machine.execCvtToFloat src t sat rnd d a tl s
  | .pk fmt sat rnd d a b c tl => Sys2Proof.Machine.execPk fmt sat rnd d a b c tl s
  | .unpk fmt d a c tl => Sys2Proof.Machine.execUnpk fmt d a c tl s
  | .scaleq fmt rnd d a m tl => Sys2Proof.Machine.execScaleq fmt rnd d a m tl s
  | .mtest op d a m tl => Sys2Proof.Machine.execMtest op d a m tl s
  | .mbits d a m tl => Sys2Proof.Machine.execMbits d a m tl s
  | .mfold op ty d a m tl => Sys2Proof.Machine.execMfold op ty d a m tl s
  | .scan op ty ex d a m tl => Sys2Proof.Machine.execScan op ty ex d a m tl s
  | .lperm mode d a b m tl => Sys2Proof.Machine.execLperm mode d a b m tl s
  | .mpeers wide d a m tl => Sys2Proof.Machine.execMpeers wide d a m tl s
  | .mlow d m tl => Sys2Proof.Machine.execMlow d m tl s
  | .lsync m tl => Sys2Proof.Machine.execLsync m tl s
  | .twld pol w base off tl => Sys2Proof.Machine.execTwld pol w base off tl s
  | .twst pol w base off tl => Sys2Proof.Machine.execTwst pol w base off tl s
  | .tdec w k2 hi fmt d a tl => Sys2Proof.Machine.execTdec w k2 hi fmt d a tl s
  | .tdec2 w k2 hi fmt d a tl => Sys2Proof.Machine.execTdec2 w k2 hi fmt d a tl s
  | .ensave d tl => Sys2Proof.Machine.execEnsave d tl s
  | .enrest a tl => Sys2Proof.Machine.execEnrest a tl s
  | .enand a tl => Sys2Proof.Machine.execEnand a tl s
  | .enor a tl => Sys2Proof.Machine.execEnor a tl s
  | .enandn a tl => Sys2Proof.Machine.execEnandn a tl s
  | .cmget d tl => Sys2Proof.Machine.execCmget d tl s
  | .cmset a tl => Sys2Proof.Machine.execCmset a tl s
  | .setab a b c tl => Sys2Proof.Machine.execSetab a b c tl s
  | .setrt n e tl => Sys2Proof.Machine.execSetrt n e tl s
  | .bra h off => Sys2Proof.Machine.execBra h off s
  | .brc c h off => Sys2Proof.Machine.execBrc c h off s
  | .bru c h off => Sys2Proof.Machine.execBru c h off s
  | .call link h off => Sys2Proof.Machine.execCall link h off s
  | .ret a => Sys2Proof.Machine.execRet a s
  | .jmpi a => Sys2Proof.Machine.execJmpi a s
  | .calli d a => Sys2Proof.Machine.execCalli d a s
  | .loop n off => Sys2Proof.Machine.execLoop n off s
  | .spawn d a b c => Sys2Proof.Machine.execSpawn d a b c s
  | .trap imm => Sys2Proof.Machine.execTrap imm s
  | .brk code => Sys2Proof.Machine.execBrk code s
  | .sleep n => Sys2Proof.Machine.execSleep n s
  | .illegalOpcode word => Sys2Proof.Machine.execIllegalOpcode word s
  | .ld wd sx pol d base index off tl => Sys2Proof.Machine.execLd wd sx pol d base index off tl s
  | .st wd pol src base index off tl => Sys2Proof.Machine.execSt wd pol src base index off tl s
  | .ldsc wd sx pol d base index off tl => Sys2Proof.Machine.execLdsc wd sx pol d base index off tl s
  | .ldp pol d base xy c2 c3 tl => Sys2Proof.Machine.execLdp pol d base xy c2 c3 tl s
  | .stp pol src base xy c2 c3 tl => Sys2Proof.Machine.execStp pol src base xy c2 c3 tl s
  | .prefetch pol base index off => Sys2Proof.Machine.execPrefetch pol base index off s
  | .cwb sel tl => Sys2Proof.Machine.execCwb sel tl s
  | .cinv sel tl => Sys2Proof.Machine.execCinv sel tl s
  | .aconv tgt d a => Sys2Proof.Machine.execAconv tgt d a s
  | .aclass sp a => Sys2Proof.Machine.execAclass sp a s
  | .atom op d base x off tl => Sys2Proof.Machine.execAtom op d base x off tl s
  | .atomCas d a b c tl => Sys2Proof.Machine.execAtomCas d a b c tl s
  | .fatom op d base x off tl => Sys2Proof.Machine.execFatom op d base x off tl s
  | .ctrAdd rel base x off tl => Sys2Proof.Machine.execCtrAdd rel base x off tl s
  | .ctrWait acq t d base x off slot => Sys2Proof.Machine.execCtrWait acq t d base x off slot s
  | .ctrRd d base off tl => Sys2Proof.Machine.execCtrRd d base off tl s
  | .phase sc tl => Sys2Proof.Machine.execPhase sc tl s
  | .phaseP sc tl => Sys2Proof.Machine.execPhaseP sc tl s
  | .phaseS tl => Sys2Proof.Machine.execPhaseS tl s
  | .lfence sc tl => Sys2Proof.Machine.execLfence sc tl s
  | .sign n a b slot => Sys2Proof.Machine.execSign n a b slot s
  | .mma cv x_set sat acc b c tl => Sys2Proof.Machine.execMma cv x_set sat acc b c tl s
  | .mmas cv x_set sat acc b c tl => Sys2Proof.Machine.execMmas cv x_set sat acc b c tl s
  | .mmt cv x_set sat acc b c tl => Sys2Proof.Machine.execMmt cv x_set sat acc b c tl s
  | .mzero cv acc tl => Sys2Proof.Machine.execMzero cv acc tl s
  | .mld cv acc b tl => Sys2Proof.Machine.execMld cv acc b tl s
  | .mrd n d acc c0 tl => Sys2Proof.Machine.execMrd n d acc c0 tl s
  | .mdrain cv rnd acc b tl => Sys2Proof.Machine.execMdrain cv rnd acc b tl s
  | .mdraint cv rnd acc b c tl => Sys2Proof.Machine.execMdraint cv rnd acc b c tl s
  | .mchk cv acc b c tl => Sys2Proof.Machine.execMchk cv acc b c tl s
  | .mstat item tl => Sys2Proof.Machine.execMstat item tl s
  | .mrel n => Sys2Proof.Machine.execMrel n s
  | .attr mode d a b tl => Sys2Proof.Machine.execAttr mode d a b tl s
  | .vbld n d a b tl => Sys2Proof.Machine.execVbld n d a b tl s
  | .prim df cov cull a b tl => Sys2Proof.Machine.execPrim df cov cull a b tl s
  | .sample d a b c tl => Sys2Proof.Machine.execSample d a b c tl s
  | .sampleg d a b g rt tl => Sys2Proof.Machine.execSampleg d a b g rt tl s
  | .texld d a b c tl => Sys2Proof.Machine.execTexld d a b c tl s
  | .hit a b => Sys2Proof.Machine.execHit a b s
  | .tretNext d a slot => Sys2Proof.Machine.execTretNext d a slot s
  | .tretDone tl => Sys2Proof.Machine.execTretDone tl s
  | .covw a => Sys2Proof.Machine.execCovw a s
  | .xpushXc d n tl => Sys2Proof.Machine.execXpushXc d n tl s
  | .xpushXe d n tl => Sys2Proof.Machine.execXpushXe d n tl s
  | .xpushXt d k sp tl => Sys2Proof.Machine.execXpushXt d k sp tl s
  | .xpopXt d slot => Sys2Proof.Machine.execXpopXt d slot s
  | .xpopXe d slot => Sys2Proof.Machine.execXpopXe d slot s
  | .xpopXm d slot => Sys2Proof.Machine.execXpopXm d slot s
  | .xstat q d => Sys2Proof.Machine.execXstat q d s
  | .csrr d csr => Sys2Proof.Machine.execCsrr d csr s
  | .csrw csr a => Sys2Proof.Machine.execCsrw csr a s
  | .syscNote a tl => Sys2Proof.Machine.execSyscNote a tl s
  | .syscKill a tl => Sys2Proof.Machine.execSyscKill a tl s
  | .dbgr d a => Sys2Proof.Machine.execDbgr d a s
  | .dbgw a b => Sys2Proof.Machine.execDbgw a b s
  | .iinv a b => Sys2Proof.Machine.execIinv a b s
  | .clauseStart core => Sys2Proof.Machine.execClauseStart core s
  | .dwellBreak gid => Sys2Proof.Machine.execDwellBreak gid s
  | .convergenceTimeout gid hdr => Sys2Proof.Machine.execConvergenceTimeout gid hdr s
  | .sleepEnd gid => Sys2Proof.Machine.execSleepEnd gid s
  | .asyncComplete op => Sys2Proof.Machine.execAsyncComplete op s
  | .exitDrainingEnd gid => Sys2Proof.Machine.execExitDrainingEnd gid s
  | .binTimeExpiry core bin => Sys2Proof.Machine.execBinTimeExpiry core bin s
  | .spawnedGroupStart core bin => Sys2Proof.Machine.execSpawnedGroupStart core bin s
  | .blockPlacement launch cores => Sys2Proof.Machine.execBlockPlacement launch cores s
  | .tileAccessPerformed gid => Sys2Proof.Machine.execTileAccessPerformed gid s
  | .atomicAtHome req => Sys2Proof.Machine.execAtomicAtHome req s
  | .remoteAccess req => Sys2Proof.Machine.execRemoteAccess req s
  | .storeAck req => Sys2Proof.Machine.execStoreAck req s
  | .publishComplete pub => Sys2Proof.Machine.execPublishComplete pub s
  | .counterAdditionAtHome req => Sys2Proof.Machine.execCounterAdditionAtHome req s
  | .ctrWaitComplete w => Sys2Proof.Machine.execCtrWaitComplete w s
  | .ctrWaitTimeout w => Sys2Proof.Machine.execCtrWaitTimeout w s
  | .matrixOpStart core ctx => Sys2Proof.Machine.execMatrixOpStart core ctx s
  | .matrixOpComplete core ctx => Sys2Proof.Machine.execMatrixOpComplete core ctx s
  | .matrixCheckTrap gid => Sys2Proof.Machine.execMatrixCheckTrap gid s
  | .matrixContextEnd blk => Sys2Proof.Machine.execMatrixContextEnd blk s
  | .rayRecordReady ray => Sys2Proof.Machine.execRayRecordReady ray s
  | .eviction blk => Sys2Proof.Machine.execEviction blk s
  | .blockResume blk core => Sys2Proof.Machine.execBlockResume blk core s
  | .copyJobStart job engine => Sys2Proof.Machine.execCopyJobStart job engine s
  | .granuleLanded job => Sys2Proof.Machine.execGranuleLanded job s
  | .copyJobComplete job => Sys2Proof.Machine.execCopyJobComplete job s
  | .encoderJob die => Sys2Proof.Machine.execEncoderJob die s
  | .encoderJobComplete job => Sys2Proof.Machine.execEncoderJobComplete job s
  | .tileWrite die ap => Sys2Proof.Machine.execTileWrite die ap s
  | .meshGroupStart launch core => Sys2Proof.Machine.execMeshGroupStart launch core s
  | .primitiveBin prim => Sys2Proof.Machine.execPrimitiveBin prim s
  | .listAppend slot prim => Sys2Proof.Machine.execListAppend slot prim s
  | .tilePassGrant slot => Sys2Proof.Machine.execTilePassGrant slot s
  | .startSequence slot tile => Sys2Proof.Machine.execStartSequence slot tile s
  | .coverageVerdictWrite slot tile => Sys2Proof.Machine.execCoverageVerdictWrite slot tile s
  | .retirementComplete blk => Sys2Proof.Machine.execRetirementComplete blk s
  | .nodeComplete launch => Sys2Proof.Machine.execNodeComplete launch s
  | .commandStart q => Sys2Proof.Machine.execCommandStart q s
  | .nopCommand q c => Sys2Proof.Machine.execNopCommand q c s
  | .launch q c first count => Sys2Proof.Machine.execLaunch q c first count s
  | .signal q c va value => Sys2Proof.Machine.execSignal q c va value s
  | .wait q c va target => Sys2Proof.Machine.execWait q c va target s
  | .rpass q c slot va => Sys2Proof.Machine.execRpass q c slot va s
  | .rpend q c slot => Sys2Proof.Machine.execRpend q c slot s
  | .preempt q c victim off => Sys2Proof.Machine.execPreempt q c victim off s
  | .shootdown q c va len => Sys2Proof.Machine.execShootdown q c va len s
  | .migrate q c va len => Sys2Proof.Machine.execMigrate q c va len s
  | .release q c va len => Sys2Proof.Machine.execRelease q c va len s
  | .gang q c first count k1 k2 k3 => Sys2Proof.Machine.execGang q c first count k1 k2 k3 s
  | .kill q c value => Sys2Proof.Machine.execKill q c value s
  | .debugSampling q c k1 k2 => Sys2Proof.Machine.execDebugSampling q c k1 k2 s
  | .debugRing q c k1 k2 => Sys2Proof.Machine.execDebugRing q c k1 k2 s
  | .debugBreakpoints q c k1 k2 => Sys2Proof.Machine.execDebugBreakpoints q c k1 k2 s
  | .debugPredicate q c k1 k2 => Sys2Proof.Machine.execDebugPredicate q c k1 k2 s
  | .debugL2Watch q c k1 k2 => Sys2Proof.Machine.execDebugL2Watch q c k1 k2 s
  | .debugResume q c k1 k2 => Sys2Proof.Machine.execDebugResume q c k1 k2 s
  | .debugReadState q c k1 k2 => Sys2Proof.Machine.execDebugReadState q c k1 k2 s
  | .debugWriteState q c k1 k2 => Sys2Proof.Machine.execDebugWriteState q c k1 k2 s
  | .aperture q c die ap ctl vbase size pbase dim => Sys2Proof.Machine.execAperture q c die ap ctl vbase size pbase dim s
  | .attest q c nonce report => Sys2Proof.Machine.execAttest q c nonce report s
  | .eventPost q => Sys2Proof.Machine.execEventPost q s
  | .firmwareEvent core => Sys2Proof.Machine.execFirmwareEvent core s
  | .pcSample core => Sys2Proof.Machine.execPcSample core s
  | .memorySample core => Sys2Proof.Machine.execMemorySample core s
  | .predicateResult gid => Sys2Proof.Machine.execPredicateResult gid s
  | .capacityRefreshRecord core => Sys2Proof.Machine.execCapacityRefreshRecord core s
  | .debugRecord die => Sys2Proof.Machine.execDebugRecord die s
  | .orderGate req => Sys2Proof.Machine.execOrderGate req s
  | .gateTimeout req => Sys2Proof.Machine.execGateTimeout req s
  | .peerAccessFail req => Sys2Proof.Machine.execPeerAccessFail req s
  | .contributionArrival die contrib => Sys2Proof.Machine.execContributionArrival die contrib s
  | .mergeHoldExpiry die entry => Sys2Proof.Machine.execMergeHoldExpiry die entry s
  | .reductionFlush pub => Sys2Proof.Machine.execReductionFlush pub s
  | .reductionAck contrib => Sys2Proof.Machine.execReductionAck contrib s
  | .goTime tag => Sys2Proof.Machine.execGoTime tag s
  | .armTimeout tag => Sys2Proof.Machine.execArmTimeout tag s
  | .startedDeadline tag => Sys2Proof.Machine.execStartedDeadline tag s
  | .gangReleaseTimeout tag => Sys2Proof.Machine.execGangReleaseTimeout tag s
  | .mirageDeadline surface => Sys2Proof.Machine.execMirageDeadline surface s
  | .vsync surface => Sys2Proof.Machine.execVsync surface s
  | .writeBackAtHome wb => Sys2Proof.Machine.execWriteBackAtHome wb s
  | .exit => Sys2Proof.Machine.execExit s
  | .rtt => Sys2Proof.Machine.execRtt s
  | .halt => Sys2Proof.Machine.execHalt s
  | .yield => Sys2Proof.Machine.execYield s
  | .nop => Sys2Proof.Machine.execNop s
  | .deviceLevelError => Sys2Proof.Machine.execDeviceLevelError s
  | .timeLock => Sys2Proof.Machine.execTimeLock s
  | .tailWrite q x size aligned => Sys2Proof.Machine.execTailWrite q x size aligned s
  | .semRead n port0 port1 => Sys2Proof.Machine.execSemRead n port0 port1 s
  | .semWrite n port value => Sys2Proof.Machine.execSemWrite n port value s
  | .evheadWrite q value => Sys2Proof.Machine.execEvheadWrite q value s
  | .queueEnable q value => Sys2Proof.Machine.execQueueEnable q value s
  | .ndropRead q => Sys2Proof.Machine.execNdropRead q s
  | .mmissRead surface => Sys2Proof.Machine.execMmissRead surface s
  | .leave value => Sys2Proof.Machine.execLeave value s
  | .registerWrite off value => Sys2Proof.Machine.execRegisterWrite off value s
  | .hostWrite port pa bytes => Sys2Proof.Machine.execHostWrite port pa bytes s
  | .hostPortDown port => Sys2Proof.Machine.execHostPortDown port s
  | .oasisSubstitution p => Sys2Proof.Machine.execOasisSubstitution p s
  | .firmwareCoreWear core => Sys2Proof.Machine.execFirmwareCoreWear core s
  | .supplySag die => Sys2Proof.Machine.execSupplySag die s
  | .clockStep die up => Sys2Proof.Machine.execClockStep die up s
  | .packageReset verified l2Vaults => Sys2Proof.Machine.execPackageReset verified l2Vaults s
  | .asyncEngineFault e addr => Sys2Proof.Machine.execAsyncEngineFault e addr s
  | .uncorrectableError u die loc accesses => Sys2Proof.Machine.execUncorrectableError u die loc accesses s
  | .softErrorCorrected u die loc => Sys2Proof.Machine.execSoftErrorCorrected u die loc s
  | .l2WatchHit die slice pa write cls unit reqDie => Sys2Proof.Machine.execL2WatchHit die slice pa write cls unit reqDie s
  | .laneFailure port => Sys2Proof.Machine.execLaneFailure port s
  | .peerAccess src fa op => Sys2Proof.Machine.execPeerAccess src fa op s
  | .timePacket delta pathChanged => Sys2Proof.Machine.execTimePacket delta pathChanged s
  | .routeChange src dst port => Sys2Proof.Machine.execRouteChange src dst port s
  | .packetDrop cls dst => Sys2Proof.Machine.execPacketDrop cls dst s
  | .packageJoin number routes => Sys2Proof.Machine.execPackageJoin number routes s
  | .arm member k1 k2 k3 hash => Sys2Proof.Machine.execArm member k1 k2 k3 hash s
  | .started tag member => Sys2Proof.Machine.execStarted tag member s
  | .go tag time => Sys2Proof.Machine.execGo tag time s
  | .abort tag => Sys2Proof.Machine.execAbort tag s
  | .miss tag => Sys2Proof.Machine.execMiss tag s
  | .broken tag => Sys2Proof.Machine.execBroken tag s
  | .starved core => Sys2Proof.Machine.execStarved core s

end Sys2Proof.Machine
end

