-- ==== Sys2Proof/Machine/WordIssue.lean ====
section
/-! DEFINITION. The next word of a clause (R35, R47 to R50, R64, R266): its fetch, the breakpoint comparators, and the checks
that come before its own meaning. -/

namespace Sys2Proof.Machine

/-- The classes of R62: the six of a header, terminal instructions, and nop, which may stand anywhere. -/
inductive WordClass
  | cls (n : Nat)
  | terminal
  | any
  deriving DecidableEq, Repr

/-- The class of an opcode (R62). -/
def opcodeClass (op : Nat) : WordClass :=
  if op = 0x220 ∨ op = 0x221 then .cls 1
  else if op < 0x280 then .cls 0
  else if op < 0x290 then .terminal
  else if op = 0x295 then .any
  else if op < 0x2C0 then .cls 5
  else if op < 0x340 then .cls 1
  else if op < 0x380 then .cls 2
  else if op < 0x3C0 then .cls 3
  else .cls 4

/-- The word may stand where it is in its clause (R50). -/
def Clause.admits (c : Clause) (w : W64) : Bool :=
  match opcodeClass (w.extractLsb' 54 10).toNat with
  | .any => true
  | .terminal => c.pc == c.lastWord
  | .cls n => n == 0 || n == c.cls

/-- The instruction that a word of a clause is: one that no rule admits is illegal (R50, R62, R63). -/
def Clause.instruction (c : Clause) (w : W64) : Instr :=
  match decode w with
  | .ok i => if c.admits w then i else .illegalOpcode w
  | .error _ => .illegalOpcode w

/-- What comes of a group's turn: the machine moves on without an instruction, or the instruction issues. -/
inductive Turn
  | done (s : State)
  | issue (i : Instr) (s : State)

/-- The word of a clause as it was fetched before the clause started (R122); nothing is known of a clause that holds no words. -/
def Clause.held (c : Clause) : Option (Option W64) := c.words[(c.pc - c.hdr).toNat / 8 - 1]?

/-- A group's turn (R64, R135, R266): a breakpoint comparator first, then the word, then the instruction. A clause that was
fetched waits for no fetch (R123); the words of a placed one are fetched as it goes (log entry 5). -/
def State.turn (s : State) (gid : Nat) : Turn :=
  match s.group? gid with
  | none => .done s
  | some g =>
    match g.clause with
    | none => .done s
    | some c =>
      let at_ := g.lanesAt c.pc &&& c.lanes
      match s.breakpoint g c.pc with
      | some n =>
        .done (s.enterDebug gid c.pc c.hdr
          { code := 0x20, wr := false, addr := BitVec.ofNat 64 n, mask := at_, resume := c.pc })
      | none =>
        let refused : Turn := .done (s.takeTrap gid c.pc c.hdr
          { code := s.fetchCode g.core g.launch c.pc, wr := false, addr := c.pc, mask := at_, resume := c.pc })
        match c.held with
        | some (some w) => .issue (c.instruction w) { s with cur := some gid, word := w }
        | some none => refused
        | none =>
          if s.fetchHeld g c.pc then .done s
          else match s.peekWord g.core g.launch c.pc with
            | none => refused
            | some w => .issue (c.instruction w) { s.afterFetch g.core g.launch c.pc with cur := some gid, word := w }

-- Time (R103, R127)

/-- A group as time finds it before a move: its timers at parked headers run, and so does its wait in the ready set. A hint's
clause has been fetched. -/
def State.tendGroup (s : State) (g : Group) : Group :=
  let here : LaneMask := match g.clause with
    | some c => g.lanesAt c.pc
    | none => 0
  let free := g.live &&& ~~~g.mid &&& ~~~here
  let ps := if free = 0 then [] else (g.pcs (laneList free)).filter fun p => s.membersAt g p &&& ~~~g.lanesAt p != 0
  { g with
    timers := ps.foldl (fun m p => NMap.put m p.toNat (NMap.get s.now g.timers p.toNat)) [],
    hint := none,
    readySince := if s.ready g then some (g.readySince.getD s.now) else none }

/-- The clauses that the fetch unit fetches for a group now: the one of a branch's hint (R130), and the one it is to issue,
when its fetch ends (R122, log entry 3). -/
def State.fetchDue (s : State) (gid : Nat) (g : Group) : List W64 :=
  g.hint.toList ++
    if g.clause.isSome || g.live = 0 then []
    else match s.choice g with
      | none => []
      | some c => if Config.fetches s.tick gid then [g.headerOf c.pc] else []

/-- The fetch units' work of one step. -/
def State.fetchUnits (s : State) : State :=
  s.groups.foldl (fun s (e : Nat × Group) => (s.fetchDue e.1 e.2).foldl (fun s a => s.fetchClause e.2 a) s) s

/-- Time passes: as long as it does, which the spec does not say (log entry 3). A group waits in the ready set from the cycle
that the last move left it in (R127), a counter's wait notes that its target is met (R289), and values in flight may reach
their registers (R66). -/
def State.tend (s : State) : State :=
  let s0 := s.fetchUnits.landEarlies s.asyncs
  let s1 : State := { s0 with groups := s0.groups.map fun (e : Nat × Group) => (e.1, s0.tendGroup e.2),
                              ctrWaits := s0.ctrWaits.map fun (w : Wait) => { w with met := s0.metInTime w } }
  { s1 with tick := s.tick + 1, now := s.now + Config.elapsed s.tick, ft := s.ft + Config.elapsedTicks s.tick }

end Sys2Proof.Machine
end

