-- ==== Sys2Proof/Machine/Place.lean ====
section
/-! DEFINITION. Placing a word where the machine fetches its next instruction (log entry 5): this hardware loads its programs
through queues and launches, so the placement stands for such a load. -/

namespace Sys2Proof.Machine

/-- Address of the header that a placed word's clause has, in device memory. -/
def placedHeader : W64 := 0x200000

/-- The header of a clause of one word of a class. -/
def headerFor (cls : Nat) : W64 := BitVec.ofNat 64 (16 * cls)

/-- The class of the clause that may hold a word (R50). -/
def classFor (w : W64) : Nat :=
  match opcodeClass (w.extractLsb' 54 10).toNat with
  | .cls n => n
  | _ => 0

/-- The clause a placed word stands in: its last word, of the class that may hold it. -/
def placedClause (hdr pc : W64) (w : W64) : Clause :=
  { hdr := hdr, cls := classFor w, cnt := (pc - hdr).toNat / 8 - 1, pc := pc, atMin := true, alone := true, lanes := 0xFFFFFFFF,
    sAt := [], words := [], yld := false, sleep := none }

/-- A launch of one block of one group whose code and data stand where they are in device memory. -/
def placedLaunch : Launch :=
  { noLaunch with entry := placedHeader, nblocks := 1, groups := 1, lastLanes := 32, nregs := 64, placed := 1 }

/-- The block of the placed group: all it may hold. -/
def placedBlock : Block :=
  { noBlock with launch := 0, core := 0, array := 0xFFFFFFFFFFFFFFFF, slots := [0], ngroups := 1, nregs := 64 }

/-- The group of a placed word. -/
def placedGroup (w : W64) : Group :=
  { newGroup 0 0 0 0 64 0 1 0xFFFFFFFF (placedHeader + 8) with clause := some (placedClause placedHeader (placedHeader + 8) w) }

/-- An aperture that shows device memory at its own addresses to a die (R335, R336). -/
def identityAperture : Aperture := { ctl := 3, vbase := 0, size := 0x100, pbase := 0, dim := 0 }

/-- A machine whose only group stands at a word of its own clause: what a host, a node and a launch lead to. -/
def State.withGroup (s : State) (w : W64) : State :=
  { s with
    dies := NMap.put s.dies 0 { s.die 0 with apertures := [(0, identityAperture)] },
    launches := NMap.put s.launches 0 placedLaunch, blocks := NMap.put s.blocks 0 placedBlock,
    launchSeq := Nat.max s.launchSeq 1, blockSeq := Nat.max s.blockSeq 1,
    groups := NMap.put s.groups 0 (placedGroup w), cores := NMap.put s.cores 0 { s.core 0 with blocks := [0], tags := [(0, 1)] } }

/-- The home address of the word that a group's turn fetches. -/
def State.fetchAddr (s : State) (gid : Nat) : Option Nat :=
  match s.group? gid with
  | none => none
  | some g =>
    match g.clause with
    | none => none
    | some c => s.codeAddr g.core g.launch c.pc

/-- Stores a word where a group fetches, and gives that group the turn. -/
def State.placeWord (s : State) (gid : Nat) (w : W64) : State :=
  match s.fetchAddr gid, s.group? gid with
  | some a, some g =>
    let s1 := (s.storeBytes (a / 8 * 8) (wordBytes w)).modCore g.core fun c => { c with icache := NMap.erase c.icache (a / 8) }
    let s2 := s1.modGroup gid fun g =>
      { g with clause := g.clause.map fun c => { c with cls := classFor w, cnt := (c.pc - c.hdr).toNat / 8 - 1, words := [] } }
    { s2 with agenda := [.word gid] }
  | _, _ => s

/-- The group whose turn is next, if there is one with a word to fetch. -/
def State.turnOf (s : State) : Option Nat :=
  match s.agenda with
  | .word gid :: _ => if (s.fetchAddr gid).isSome then some gid else none
  | _ => none

end Sys2Proof.Machine
end

