-- ==== Sys2Proof/Machine/Step.lean ====
section
/-! DEFINITION. One step of the package: time passes, the next move is taken, and the instruction or event that it names is
executed. -/

namespace Sys2Proof.Machine

/-- Executes a move. -/
def State.runMove (m : Move) (s : State) : Result :=
  match m with
  | .event i => exec i s
  | .word gid =>
    match s.turn gid with
    | .done s1 => .next s1
    | .issue i s1 => exec i s1

/-- One step. -/
def step (s : State) : Host.Outcome State Fault Refusal :=
  match s.tend.nextMove (Config.choice s.tick) with
  | (none, s1) => .next s1
  | (some m, s1) => s1.runMove m

/-- The state with an instruction of nbits bits, the bits above them zero, stored where the machine fetches its next
instruction, so that the next step runs it: the group whose turn is next, or one that stands for a loaded program. -/
def State.withFetchWord (s : State) (_nbits w : Nat) : State :=
  let x : W64 := BitVec.ofNat 64 w
  match s.turnOf with
  | some gid => s.placeWord gid x
  | none => (s.withGroup x).placeWord 0 x

end Sys2Proof.Machine
end

