-- ==== Sys2Proof/Safety.lean ====
section
/-! DEFINITION. What a safe run is, and the words in which the statements speak of one instruction: when a word issues, how
it completes, and what stays as it was. -/

namespace Sys2Proof

/-- The slot that an instruction's tail names, as its word has it (R55). -/
def Instr.tailSlot (i : Instr) : Tail :=
  (encodeFields i).bind fun f => if f.tail.getLsbD 3 then some (f.tail.extractLsb' 0 3) else none

end Sys2Proof

namespace Sys2Proof.Machine

/-- A step answers a next state: neither a fault nor a refusal. -/
def Answers (r : Result) : Prop := ∃ t, r = .next t

/-- A state from which k steps all answer. -/
def Safe : Nat → State → Prop
  | 0, _ => True
  | k + 1, s => ∃ t, step s = .next t ∧ Safe k t

/-- The word at hand issues with its operands (R38, R64): a group has a clause in progress, the slot that its tail would
count is below its limit, no operation in flight may still raise flags that an operand reads (R37), and every register
that it names is there (R33, R41, R45). -/
abbrev Issues (s : State) (c : Ctx) (uses : List Use) (tl : Tail) : Prop :=
  s.ctx? = some c ∧ c.slotFull tl = false ∧
    (uses.any Use.readsFps && s.asyncs.any fun a => a.gid == c.gid && a.tag == c.g.tag && a.fp) = false ∧
    uses.all c.g.useOk = true

/-- A state after a word has taken effect in it: its tail's slot is held until it completes (R55), and the lanes at the
word pass it (R35). -/
def State.retired (s : State) (c : Ctx) (tl : Tail) : State := (s.holdTail c tl).passWord c

/-- A state after a terminal instruction has moved the lanes in it: the clause ends (R134). -/
def State.leftClause (s : State) (c : Ctx) : State :=
  s.modGroup c.gid fun g => Group.endClause
    { g with mid := if g.hkind = c.g.hkind then g.mid &&& ~~~c.at_ else g.mid, lastPc := c.cl.pc, lastSeq := c.seq,
             bpExempt := if g.hkind = c.g.hkind then false else g.bpExempt } s.now

/-- Nothing more is asked of the state. -/
abbrev Always : Ctx → State → Prop := fun _ _ => True

/-- In every state in which the word issues and the condition holds, the instruction has its effect and retires. -/
def Completes (i : Instr) (uses : List Use) (tl : Tail) (cond : Ctx → State → Prop) (eff : Ctx → State → State) : Prop :=
  ∀ s c, Issues s c uses tl → cond c s → exec i s = .next ((eff c s).retired c tl)

/-- The same, of an instruction that puts its own asynchronous operation in flight with its tail (R66): flags that an operand
read are cleared first (R37). -/
def CompletesAsync (i : Instr) (uses : List Use) (tl : Tail) (cond : Ctx → State → Prop) (eff : Ctx → State → State) : Prop :=
  ∀ s c, Issues s c uses tl → cond c (s.settle c uses) → exec i s = .next ((eff c (s.settle c uses)).passWord c)

/-- The same, of a terminal instruction (R134). -/
def CompletesTerminal (i : Instr) (uses : List Use) (cond : Ctx → State → Prop) (eff : Ctx → State → State) : Prop :=
  ∀ s c, Issues s c uses none → cond c s → exec i s = .next ((eff c s).leftClause c)

/-- In every state in which the word issues and the condition holds, the instruction takes the precise trap (R252, R255). -/
def Traps (i : Instr) (uses : List Use) (tl : Tail) (cond : Ctx → State → Prop) (t : Ctx → State → Trap) : Prop :=
  ∀ s c, Issues s c uses tl → cond c s → exec i s = .next (s.takeTrap c.gid c.cl.pc c.cl.hdr (t c s))

/-- A precise trap of the lanes of EM at the word itself (R252, R260). -/
def Ctx.trapAt (c : Ctx) (code : Nat) (addr : W64) : Trap :=
  { code := code, wr := false, addr := addr, mask := c.em, resume := c.cl.pc }

/-- The targets of the lanes of a mask are valid (R135). -/
abbrev TargetsOk (to_ : LaneMask) (t : Nat → W64) : Prop := ∀ l < 32, to_.getLsbD l = true → targetOk (t l) = true

-- Results of the register instructions

/-- A source as the integer, or the code, that an integer type gives it in a lane. -/
def Ctx.int (c : Ctx) (t : IType) (o : Operand) (l : Nat) : Int := c.g.readInt c.rank t o l

/-- A source as the code of an integer type. -/
def Ctx.code (c : Ctx) (t : IType) (o : Operand) (l : Nat) : Nat := c.g.readType c.rank t o l

/-- A source as 32 bits, a constant in the form the type gives it (R54). -/
def Ctx.word32 (c : Ctx) (t : FType) (o : Operand) (l : Nat) : W32 := c.g.read32 c.rank (constKindOf t) o l

/-- A source as 32 bits. -/
def Ctx.bits32 (c : Ctx) (o : Operand) (l : Nat) : W32 := c.g.read32 c.rank .word o l

/-- A source as 64 bits. -/
def Ctx.bits64 (c : Ctx) (o : Operand) (l : Nat) : W64 := c.g.read64 c.rank o l

/-- The group with a 32-bit result delivered. -/
def Ctx.gives32 (c : Ctx) (s : State) (uses : List Use) (d : Dest) (sx : Bool) (f : Nat → W32 × FpFlags) : State :=
  s.put c (c.g.write32 c.em d sx (uses.any Use.readsFps) f)

/-- The group with a 64-bit result delivered. -/
def Ctx.gives64 (c : Ctx) (s : State) (uses : List Use) (d : Dest) (f : Nat → W64 × FpFlags) : State :=
  s.put c (c.g.write64 c.em d (uses.any Use.readsFps) f)

/-- An instruction of 32-bit result completes with it in every lane. -/
def Gives32 (i : Instr) (uses : List Use) (d : Dest) (tl : Tail) (sx : Bool) (f : Ctx → Nat → W32 × FpFlags) : Prop :=
  Completes i (uses ++ [.dst d false]) tl Always fun c s => c.gives32 s uses d sx (f c)

/-- An instruction of 64-bit result completes with it in every lane. -/
def Gives64 (i : Instr) (uses : List Use) (d : Dest) (tl : Tail) (f : Ctx → Nat → W64 × FpFlags) : Prop :=
  Completes i (uses ++ [.dst d true]) tl Always fun c s => c.gives64 s uses d (f c)

/-- An integer instruction completes with the code of its type in every lane, whatever the type's width (R71, R72). -/
def GivesInt (i : Instr) (t : IType) (srcs : List Operand) (d : Dest) (tl : Tail) (f : Ctx → Nat → Nat) : Prop :=
  if t.wide then Gives64 i (srcs.map (useOf t)) d tl fun c l => (BitVec.ofNat 64 (f c l), 0)
  else Gives32 i (srcs.map (useOf t)) d tl (t == .i32) fun c l => (extend32 t (f c l), 0)

/-- A floating-point instruction completes with the value and flags of a function of its sources' bits (R71, R74). -/
def GivesFloat (i : Instr) (t : FType) (srcs : List Operand) (d : Dest) (tl : Tail) (f : List Nat → Nat × FpFlags) : Prop :=
  Gives32 i (srcs.map .src) d tl false fun c l => onFloats t f (srcs.map fun o => c.word32 t o l)

/-- The least and the greatest integer of a type, and an integer brought between them (R75). -/
def leastInt (t : IType) : Int := if t.signed then -(2 ^ (t.width - 1)) else 0
def greatestInt (t : IType) : Int := if t.signed then 2 ^ (t.width - 1) - 1 else 2 ^ t.width - 1
def boundInt (t : IType) (x : Int) : Int := max (leastInt t) (min (greatestInt t) x)

/-- The code of an integer modulo the type's width (R75). -/
def wrappedInt (t : IType) (x : Int) : Nat := (x % 2 ^ t.width).toNat

/-- The code of an integer, clamped under `.sat` and wrapped otherwise (R75). -/
def resultInt (t : IType) (sat : Bool) (x : Int) : Nat := wrappedInt t (if sat then boundInt t x else x)

-- Accesses to memory

/-- No check, watch or wait keeps an instruction's accesses (R174, R333, R372, R424). -/
abbrev Ctx.accessible (c : Ctx) (ls : List Nat) (addr : Nat → W64) (n align : Nat) (k : AccKind) (single : Bool)
    (snap : Bool) (s : State) : Prop :=
  (∀ l ∈ ls, s.heldAddr (s.viewOf c.gid c.g) l (addr l) = false) ∧
    s.memCheck (s.viewOf c.gid c.g) ls addr n align k single = none ∧
    (s.core c.core).dwc = [] ∧
    (k.writes = true ∨ s.peerMiss c.core (if snap then s.snapOf (s.viewOf c.gid c.g) addr n k ls else []) = none)

/-- The state in which the accesses are made: their translations are in the TLBs (R331). -/
def Ctx.settledFor (c : Ctx) (ls : List Nat) (addr : Nat → W64) (s : State) : State :=
  s.touchTlbs (s.viewOf c.gid c.g) addr ls

/-- The state after gathered accesses, each a lane, an address and its bytes, have left and their operation is in flight (R66,
R171). -/
def Gather.launchedAccs (g : Gather) (c : Ctx) (v : View) (tl : Tail) (isLoad : Bool) (accs : List (Nat × W64 × Nat))
    (hash : Nat → List HashStep) : State :=
  let op := g.s.nextId
  let g1 : Gather := { g with s := { g.s with nextId := op + 1 }, async := { g.async with id := op } }
  let g2 := g1.sendAll c v g1.buckets
  let s1 := (g2.s.addHash c.gid (hash op)).countAccs c v accs op
  if tl.isNone && !isLoad && g2.deps.isEmpty then s1
  else
    let s2 := { s1 with asyncs := s1.asyncs ++ [{ g2.async with deps := g2.deps }] }
    match tl with
    | none => s2
    | some k => s2.modGroup c.gid fun x => x.sbInc k.toNat

/-- The same of some lanes' accesses of n bytes. -/
def Gather.launched (g : Gather) (c : Ctx) (v : View) (tl : Tail) (isLoad : Bool) (ls : List Nat) (addr : Nat → W64) (n : Nat)
    (hash : Nat → List HashStep) : State :=
  g.launchedAccs c v tl isLoad (ls.map fun l => (l, addr l, n)) hash

/-- The group's own tile port and its core's L1 have room for the gathered accesses (R171, R190). -/
abbrev Gather.hasRoom (g : Gather) (gid core : Nat) : Prop := g.full gid core = false

/-- An instruction whose lanes ls make accesses of n bytes each completes where nothing keeps them and its port has room: they
leave, and its operation is in flight until they are performed (R171, R175). -/
def CompletesAccess (i : Instr) (uses : List Use) (tl : Tail) (isLoad : Bool) (k : AccKind) (single snap : Bool) (n align : Nat)
    (ls : Ctx → List Nat) (addr : Ctx → Nat → W64) (gather : Ctx → View → State → Gather)
    (hash : Ctx → View → State → Nat → List HashStep) : Prop :=
  let gathered (c : Ctx) (s : State) : Gather := gather c (s.viewOf c.gid c.g) (c.settledFor (ls c) (addr c) s)
  CompletesAsync i uses tl
    (fun c s => c.accessible (ls c) (addr c) n align k single snap s ∧ (gathered c s).hasRoom c.gid c.core)
    (fun c s => (gathered c s).launched c (s.viewOf c.gid c.g) tl isLoad (ls c) (addr c) n
      (hash c (s.viewOf c.gid c.g) (c.settledFor (ls c) (addr c) s)))

/-- The home bytes that an access changes. -/
def Access.writes (b : Nat) : Access → Prop
  | .ld _ _ _ => False
  | .st a data => a ≤ b ∧ b < a + data.length
  | .nib a _ _ => b = a
  | .atom a _ _ _ => a ≤ b ∧ b < a + 4
  | .cas a _ _ _ => a ≤ b ∧ b < a + 4
  | .fatom a _ _ _ => a ≤ b ∧ b < a + 4
  | .ctrAdd a _ _ => a ≤ b ∧ b < a + 8
  | .ctrRd _ _ => False

/-- The home bytes that a store to a target of an access changes (R274, R336, R339): a compressed tile's are its entry's and those of
the slots. -/
def State.storesTo (s : State) (core : Nat) (p : Target × Nat) (b : Nat) : Prop :=
  match p.1 with
  | .snap a => a ≤ b ∧ b < a + p.2
  | .arr a _ => a ≤ b ∧ b < a + p.2
  | .port m o =>
    let die := dieOf core
    let a := s.aperture die m
    match Apert.xf a with
    | 1 => entryAddr die a (o / 4096) ≤ b ∧ b < entryAddr die a (o / 4096) + 8 ∨
      ∃ k, slotAddr die a k ≤ b ∧ b < slotAddr die a k + 4096
    | 2 => ∃ i < p.2, b = transposed die a (o + i)
    | _ => ∃ i < viewBytes a, b = Apert.phys die a (o / 4 * viewBytes a + i)

/-- No store, atomic or contribution is on its way from the core's L1, or from anywhere past the cores, to a byte of memory. -/
def State.idleAt (s : State) (core b : Nat) : Prop :=
  (∀ e ∈ (s.core core).l1, e.1 = b / 128 → e.2.dirty.getLsbD (b % 128) = false) ∧
    (∀ w ∈ s.wbs, w.line = b / 128 → w.mask.getLsbD (b % 128) = false) ∧ (∀ r ∈ s.reqs, ∀ x ∈ r.todo, ¬ Access.writes b x) ∧
    ∀ k ∈ s.contribs, ¬ (k.addr ≤ b ∧ b < k.addr + if k.op = .ctrAdd then 8 else 4)

/-- The frame of memory (R161, R171): where the instruction's accesses pass their checks, whatever state it leaves, every byte outside
those that it stores to, with nothing on its way to it, reads as before, and nothing is on its way to it after. -/
def KeepsMemory (i : Instr) (uses : List Use) (tl : Tail) (cond : Ctx → State → Prop) (stored : Ctx → State → Nat → Prop) : Prop :=
  ∀ s c t b, Memory.wf s.mem = true → Issues s c uses tl → cond c (s.settle c uses) → (s.die (dieOf c.core)).apWrites = [] → s.idleAt c.core b →
    ¬ stored c (s.settle c uses) b → exec i s = .next t → Memory.read t.mem b = Memory.read s.mem b ∧ t.idleAt c.core b

/-- The bytes of some lanes' accesses of n bytes. -/
def Ctx.touched (c : Ctx) (ls : List Nat) (addr : Nat → W64) (n : Nat) (k : AccKind) (s : State) (b : Nat) : Prop :=
  ∃ l ∈ ls, ∃ p ∈ (c.settledFor ls addr s).piecesOf (s.viewOf c.gid c.g) l (addr l) n k, s.storesTo c.core p b

/-- The state after a graphics instruction's loads have left (R227). -/
def Gather.departed (g : Gather) (c : Ctx) (v : View) (tl : Tail) : State :=
  let op := g.s.nextId
  let g1 : Gather := { g with s := { g.s with nextId := op + 1 }, async := { g.async with id := op } }
  let g2 := g1.sendAll c v g1.buckets
  let s2 : State := { g2.s with asyncs := g2.s.asyncs ++ [{ g2.async with deps := g2.deps }] }
  match tl with
  | none => s2
  | some k => s2.modGroup c.gid fun x => x.sbInc k.toNat

/-- The gathered loads of a graphics instruction: each lane, address and destination, n bytes each. -/
def Ctx.gfxGather (c : Ctx) (v : View) (n : Nat) (es : List (Nat × W64 × Dst)) (tl : Tail) (g : Option Gfx) (s : State) : Gather :=
  let g0 := c.gather (s.accSettle v (es.map fun e => (e.1, e.2.1))) tl
  es.foldl (fun (g : Gather) e => g.loads v .dflt (fun _ _ => e.2.2) 0 (g.s.piecesOf v e.1 e.2.1 n .read))
    { g0 with async := { g0.async with gfx := g } }

/-- No check, watch or wait keeps a graphics instruction's loads (R171, R190, R227, R333, R372, R424). -/
abbrev Ctx.gfxOpen (c : Ctx) (v : View) (n : Nat) (es : List (Nat × W64 × Dst)) (mis : List (Nat × W64)) (tl : Tail) (g : Option Gfx)
    (s : State) : Prop :=
  s.accHeld v (es.map fun e => (e.1, e.2.1)) = false ∧
    s.multiErr v (es.map fun e => (e.1, e.2.1)) n mis = none ∧
    (s.core c.core).dwc = [] ∧ s.peerMiss c.core (s.accSnap v n (es.map fun e => (e.1, e.2.1))) = none ∧
    (c.gfxGather v n es tl g s).hasRoom c.gid c.core

-- The matrix engine

/-- The operation that a tile instruction makes, with the format word it fires with (R198). -/
def Ctx.matOp (c : Ctx) (s : State) (kind : MatKind) (set sat : Bool) (rnd : Rnd) (acc : AccField) (b x : Option (BitVec 5))
    (fmt : W32) : MatOp :=
  { id := 0, kind := kind, gid := c.gid, tag := c.g.tag, stage := .attached, tile := c.g.accTile acc, set := set, sat := sat,
    rnd := rnd, b := c.pair? b, c := c.pair? x, fmt := fmt, recB := [], recC := [], site := s.siteOf c.g c.cl.pc,
    firing := s.siteOf c.g c.cl.pc, got := [], wrote := [] }

/-- A tile instruction is legal (R192, R204, R220): outside handlers, in a block with a context, its tile in the group's window and
its pairs at even registers. -/
abbrev Ctx.tileLegal (c : Ctx) (s : State) (k : Nat) (acc : AccField) (b x : Option (BitVec 5)) : Prop :=
  c.g.hkind = 0 ∧ s.ctxNum c.g.blk = some k ∧ c.g.tileInWindow (c.g.accTile acc) = true ∧ oddPair b = false ∧ oddPair x = false

/-- How a tile instruction completes (R198): with a convergence register that is neither complete nor attached it attaches; with
a complete one it fires with the reference word, the waiting signs end and the register is released; with none it fires at once. -/
def CompletesTile (i : Instr) (kind : MatKind) (cv : CvAttach) (set sat : Bool) (rnd : Rnd) (acc : AccField)
    (b x : Option (BitVec 5)) (tl : Tail) : Prop :=
  ∀ k : Nat,
    let reg (c : Ctx) (s : State) (n : BitVec 3) : CvReg := ((s.core c.core).ctx k).cv n.toNat
    let op (c : Ctx) (s : State) (fmt : W32) : MatOp := c.matOp s kind set sat rnd acc b x fmt
    let check (c : Ctx) (s : State) (fmt : W32) : FireCheck := s.fireCheck (s.viewOf c.gid c.g) (op c s fmt)
    (cv = none →
      CompletesAsync i [] tl (fun c s => c.tileLegal s k acc b x ∧ ∃ o s', check c s 0 = .ok o s') (fun c s =>
        match check c s 0 with
        | .ok o s' => s'.attach c k tl o
        | _ => s)) ∧
    ∀ n, cv = some n →
      CompletesAsync i [] tl (fun c s => c.tileLegal s k acc b x ∧ (reg c s n).st ≠ 3 ∧ (reg c s n).st ≠ 2) (fun c s =>
        (s.attach c k tl (op c s 0)).modCtx c.core k fun y =>
          y.setCv n.toNat { reg c s n with st := 3, op := some s.nextId }) ∧
      CompletesAsync i [] tl
        (fun c s => c.tileLegal s k acc b x ∧ (reg c s n).st = 2 ∧ ∃ o s', check c s (reg c s n).ref = .ok o s') (fun c s =>
          match check c s (reg c s n).ref with
          | .ok o s' => ((s'.attach c k tl o).modCtx c.core k fun y => y.setCv n.toNat (reg c s n).fired).endOps (reg c s n).signOps
          | _ => s)

-- Frames

/-- Two states agree on everything but the record of one group and the operations in flight that it alone gained, which write
nothing: they hold its tail's slot (R38, R55). -/
def OnlyGroup (gid : Nat) (tl : Tail) (s t : State) : Prop :=
  { t with groups := [], asyncs := [], nextId := 0 } = { s with groups := [], asyncs := [], nextId := 0 } ∧
    (∀ n, n ≠ gid → t.group? n = s.group? n) ∧ (tl = none → t.asyncs = s.asyncs ∧ t.nextId = s.nextId) ∧
    ∃ held, t.asyncs = s.asyncs ++ held ∧ ∀ a ∈ held, a.gid = gid ∧ a.vw = [] ∧ a.sw = [] ∧ a.ww = [] ∧ a.slot = tl

/-- What no instruction that computes on registers touches in its own group: its lanes, allocation, windows, routing table,
accumulator window, and everything that a handler saves or reads (R31 to R45, R255, R261); and what it does to its slots. -/
def KeepsSpecials (tl : Tail) (g h : Group) : Prop :=
  (h.live = g.live ∧ h.nregs = g.nregs ∧ h.w = g.w ∧ h.t = g.t ∧ h.ab = g.ab ∧ h.al = g.al ∧ h.hkind = g.hkind) ∧
    (h.epc = g.epc ∧ h.ecause = g.ecause ∧ h.eaddr = g.eaddr ∧ h.emask = g.emask ∧ h.ehdr = g.ehdr ∧ h.sen = g.sen ∧
      h.scm = g.scm ∧ h.escr = g.escr ∧ h.shadow = g.shadow ∧ h.dbgPend = g.dbgPend) ∧
    ∀ n : BitVec 3, h.sbGet n.toNat = if tl = some n then g.sbGet n.toNat + 1 else g.sbGet n.toNat

/-- Every byte of memory reads as before. -/
def SameMemory (s t : State) : Prop := ∀ a, Memory.read t.mem a = Memory.read s.mem a

end Sys2Proof.Machine
end

