-- ==== Sys2Proof/Certificates/Slice0/Obligations.lean ====
section
/-! DEFINITION. The statements for the provers. A statement of several parts is the conjunction of parts that stand under Claims;
each part's text says what it states and the rules that it rests on. -/

set_option linter.unusedVariables false

namespace Sys2Proof.Claims

open Sys2Proof.Machine

/-- Integer arithmetic (R75): every form and type delivers the exact result of its entry, wrapped to the type's width or
clamped under `.sat`; imulhi the upper half of the product. -/
def IntegerArithmetic : Prop :=
  ∀ (t : IType) (sat : Bool) (d : Dest) (a b x : Operand) (tl : Tail),
    GivesInt (.iadd t d a b tl) t [a, b] d tl (fun c l => wrappedInt t (c.int t a l + c.int t b l)) ∧
    GivesInt (.isub t d a b tl) t [a, b] d tl (fun c l => wrappedInt t (c.int t a l - c.int t b l)) ∧
    GivesInt (.imul t sat d a b tl) t [a, b] d tl (fun c l => resultInt t sat (c.int t a l * c.int t b l)) ∧
    GivesInt (.imulhi t d a b tl) t [a, b] d tl (fun c l => wrappedInt t (c.int t a l * c.int t b l / 2 ^ t.width)) ∧
    GivesInt (.imad t sat d a b x tl) t [a, b, x] d tl
      (fun c l => resultInt t sat (c.int t a l * c.int t b l + c.int t x l))

/-- Integer division (R76): the quotient rounds toward zero and the remainder has the dividend's sign; a zero divisor gives a
quotient of all ones and the dividend as the remainder. -/
def IntegerDivision : Prop :=
  ∀ (t : IType) (sat : Bool) (d : Dest) (a b : Operand) (tl : Tail),
    GivesInt (.idiv t sat d a b tl) t [a, b] d tl (fun c l =>
      if c.int t b l = 0 then 2 ^ t.width - 1 else resultInt t sat ((c.int t a l).tdiv (c.int t b l))) ∧
    GivesInt (.irem t d a b tl) t [a, b] d tl (fun c l =>
      if c.int t b l = 0 then wrappedInt t (c.int t a l) else wrappedInt t ((c.int t a l).tmod (c.int t b l)))

/-- Integer negation, absolute value, selection and saturating sums (R75). -/
def IntegerSelection : Prop :=
  ∀ (t : IType) (sat : Bool) (d : Dest) (a b x : Operand) (tl : Tail),
    GivesInt (.ineg t sat d a tl) t [a] d tl (fun c l => resultInt t sat (-(c.int t a l))) ∧
    GivesInt (.iabs t sat d a tl) t [a] d tl (fun c l => resultInt t sat |c.int t a l|) ∧
    GivesInt (.imin t d a b tl) t [a, b] d tl (fun c l => wrappedInt t (min (c.int t a l) (c.int t b l))) ∧
    GivesInt (.imax t d a b tl) t [a, b] d tl (fun c l => wrappedInt t (max (c.int t a l) (c.int t b l))) ∧
    GivesInt (.iaddsat t d a b tl) t [a, b] d tl (fun c l => resultInt t true (c.int t a l + c.int t b l)) ∧
    GivesInt (.isubsat t d a b tl) t [a, b] d tl (fun c l => resultInt t true (c.int t a l - c.int t b l)) ∧
    GivesInt (.iclamp t d a b x tl) t [a, b, x] d tl
      (fun c l => wrappedInt t (min (max (c.int t a l) (c.int t b l)) (c.int t x l)))

/-- Wide sums (R77): add64 and lea add a 32-bit index, extended by the type and scaled by lea, to a 64-bit base; dot4 (R75)
adds four byte products to a 32-bit accumulator. -/
def WideSums : Prop :=
  ∀ (t : IType) (sat : Bool) (d : Dest) (a b x : Operand) (sh : BitVec 3) (tl : Tail),
    Gives64 (.add64 t d a b tl) [.src64 a, .src b] d tl (fun c l =>
      (c.bits64 a l + if t.signed then (c.bits32 b l).signExtend 64 else (c.bits32 b l).setWidth 64, 0)) ∧
    Gives64 (.lea t d a b sh tl) [.src64 a, .src b] d tl (fun c l =>
      (c.bits64 a l + ((if t.signed then (c.bits32 b l).signExtend 64 else (c.bits32 b l).setWidth 64) <<< sh.toNat), 0)) ∧
    Gives32 (.dot4 t sat d a b x tl) [.src a, .src b, .src x] d tl t.signed (fun c l =>
      (BitVec.ofNat 32 (resultInt (if t.signed then .i32 else .n32) sat
        (intOf t.signed 32 (c.bits32 x l).toNat + dot4Sum t (c.bits32 a l) (c.bits32 b l))), 0))

/-- icmp (R78): CM of the lanes of EM becomes the truth of the condition, and CM of the others stays. -/
def IntegerCompare : Prop :=
  ∀ (t : IType) (cond : ICond) (a b : Operand) (tl : Tail),
    Completes (.icmp t cond a b tl) [useOf t a, useOf t b] tl Always (fun c s =>
      s.put c ((c.g.settleFps ([useOf t a, useOf t b].any Use.readsFps) 0).setCm c.em fun l =>
        match cond with
        | .eq => decide (c.int t a l = c.int t b l)
        | .ne => !decide (c.int t a l = c.int t b l)
        | .lt => decide (c.int t a l < c.int t b l)
        | .le => decide (c.int t a l ≤ c.int t b l)
        | .gt => decide (c.int t a l > c.int t b l)
        | .ge => decide (c.int t a l ≥ c.int t b l)
        | .tst => !decide (c.code t a l &&& c.code t b l = 0)
        | .ntst => decide (c.code t a l &&& c.code t b l = 0)))

/-- Logic (R79): bit by bit on the codes of the type. -/
def Logic : Prop :=
  ∀ (t : IType) (d : Dest) (a b : Operand) (tl : Tail),
    GivesInt (.and t d a b tl) t [a, b] d tl (fun c l => c.code t a l &&& c.code t b l) ∧
    GivesInt (.or t d a b tl) t [a, b] d tl (fun c l => c.code t a l ||| c.code t b l) ∧
    GivesInt (.xor t d a b tl) t [a, b] d tl (fun c l => c.code t a l ^^^ c.code t b l) ∧
    GivesInt (.not t d a tl) t [a] d tl (fun c l => 2 ^ t.width - 1 - c.code t a l) ∧
    GivesInt (.andn t d a b tl) t [a, b] d tl (fun c l => c.code t a l &&& (2 ^ t.width - 1 - c.code t b l))

/-- Shifts and rotates (R79), at both widths: the amount is the low seven bits of b, and a shift of the full width or more
leaves zero or the sign; a rotate takes the amount modulo the width. -/
def Shifts : Prop :=
  ∀ (d : Dest) (a b : Operand) (tl : Tail),
    Gives32 (.shl .i32 d a b tl) [.src a, .src b] d tl true (fun c l => (c.bits32 a l <<< ((c.bits32 b l).toNat % 128), 0)) ∧
    Gives64 (.shl .i64 d a b tl) [.src64 a, .src b] d tl (fun c l => (c.bits64 a l <<< ((c.bits32 b l).toNat % 128), 0)) ∧
    Gives32 (.shr .i32 d a b tl) [.src a, .src b] d tl true (fun c l => (c.bits32 a l >>> ((c.bits32 b l).toNat % 128), 0)) ∧
    Gives64 (.shr .i64 d a b tl) [.src64 a, .src b] d tl (fun c l => (c.bits64 a l >>> ((c.bits32 b l).toNat % 128), 0)) ∧
    Gives32 (.sar .i32 d a b tl) [.src a, .src b] d tl true
      (fun c l => ((c.bits32 a l).sshiftRight ((c.bits32 b l).toNat % 128), 0)) ∧
    Gives64 (.sar .i64 d a b tl) [.src64 a, .src b] d tl
      (fun c l => ((c.bits64 a l).sshiftRight ((c.bits32 b l).toNat % 128), 0)) ∧
    Gives32 (.rot .i32 d a b tl) [.src a, .src b] d tl true (fun c l => ((c.bits32 a l).rotateLeft (c.bits32 b l).toNat, 0)) ∧
    Gives64 (.rot .i64 d a b tl) [.src64 a, .src b] d tl (fun c l => ((c.bits64 a l).rotateLeft (c.bits32 b l).toNat, 0))

/-- Bit counts and reversal (R79) and the field instructions (R80, R81). -/
def BitFields : Prop :=
  ∀ (t : IType) (d : Dest) (a b x : Operand) (tl : Tail),
    Gives32 (.popc t d a tl) [useOf t a] d tl (t == .i32) (fun c l => (BitVec.ofNat 32 (popCount (c.code t a l) t.width), 0)) ∧
    Gives32 (.clz t d a tl) [useOf t a] d tl (t == .i32) (fun c l =>
      (BitVec.ofNat 32 (trailingZeros (reverseBits (c.code t a l) t.width) t.width), 0)) ∧
    Gives32 (.ctz t d a tl) [useOf t a] d tl (t == .i32) (fun c l =>
      (BitVec.ofNat 32 (trailingZeros (c.code t a l) t.width), 0)) ∧
    GivesInt (.brev t d a tl) t [a] d tl (fun c l => reverseBits (c.code t a l) t.width) ∧
    Gives32 (.bfx t d a b x tl) [.src a, .src b, .src x] d tl (t == .i32) (fun c l =>
      (extractField t.signed (c.bits32 a l) ((c.bits32 b l).toNat % 32) (min ((c.bits32 x l).toNat % 64) 32), 0)) ∧
    Gives32 (.bfi d a b x tl) [.src a, .src b, .src x] d tl true (fun c l =>
      (insertField (c.bits32 a l) (c.bits32 b l) ((c.bits32 x l).toNat % 32) (min ((c.bits32 x l).toNat / 256 % 64) 32), 0)) ∧
    Gives32 (.perm8 d a b x tl) [.src a, .src b, .src x] d tl true (fun c l =>
      (BitVec.ofNat 32 ([0, 1, 2, 3].foldl (fun acc n =>
        acc + permByte (c.bits32 a l) (c.bits32 b l) ((c.bits32 x l).toNat / 16 ^ n % 16) * 256 ^ n) 0), 0))

/-- Moves and constants (R82, R83). -/
def Moves : Prop :=
  ∀ (t : IType) (d : Dest) (a b : Operand) (imm : BitVec 24) (tl : Tail),
    GivesInt (.sel t d a b tl) t [a, b] d tl (fun c l => if c.g.cm.getLsbD l then c.code t a l else c.code t b l) ∧
    GivesInt (.mov t d a tl) t [a] d tl (fun c l => c.code t a l) ∧
    GivesInt (.movi t d imm tl) t [] d tl (fun _ _ => wrappedInt t (if t.signed then imm.toInt else imm.toNat)) ∧
    GivesInt (.lit t d a imm tl) t [a] d tl (fun c l => (c.code t a l * 2 ^ 24 + imm.toNat) % 2 ^ t.width)

/-- Floating-point arithmetic (R84): each result is the exact one of its entry delivered in the type and rounding, each half
of a packed type on its own. -/
def FloatArithmetic : Prop :=
  ∀ (t : FType) (sat : Bool) (r : Rnd) (d : Dest) (a b x : Operand) (tl : Tail),
    GivesFloat (.fadd t sat r d a b tl) t [a, b] d tl
      (fun ks => deliverTo t r sat (exactAdd r ((fmtOf t).dec (ks.getD 0 0)) ((fmtOf t).dec (ks.getD 1 0)))) ∧
    GivesFloat (.fsub t sat r d a b tl) t [a, b] d tl
      (fun ks => deliverTo t r sat (exactSub r ((fmtOf t).dec (ks.getD 0 0)) ((fmtOf t).dec (ks.getD 1 0)))) ∧
    GivesFloat (.fmul t sat r d a b tl) t [a, b] d tl
      (fun ks => deliverTo t r sat (exactMul ((fmtOf t).dec (ks.getD 0 0)) ((fmtOf t).dec (ks.getD 1 0)))) ∧
    GivesFloat (.fdiv t sat r d a b tl) t [a, b] d tl
      (fun ks => deliverTo t r sat (exactDiv ((fmtOf t).dec (ks.getD 0 0)) ((fmtOf t).dec (ks.getD 1 0)))) ∧
    GivesFloat (.ffma t sat r d a b x tl) t [a, b, x] d tl (fun ks => deliverTo t r sat
      (exactFma r ((fmtOf t).dec (ks.getD 0 0)) ((fmtOf t).dec (ks.getD 1 0)) ((fmtOf t).dec (ks.getD 2 0)))) ∧
    GivesFloat (.hadd2 t sat r d a b tl) t [a, b] d tl
      (fun ks => deliverTo t r sat (exactAdd r ((fmtOf t).dec (ks.getD 0 0)) ((fmtOf t).dec (ks.getD 1 0)))) ∧
    GivesFloat (.hmul2 t sat r d a b tl) t [a, b] d tl
      (fun ks => deliverTo t r sat (exactMul ((fmtOf t).dec (ks.getD 0 0)) ((fmtOf t).dec (ks.getD 1 0)))) ∧
    GivesFloat (.hfma2 t sat r d a b x tl) t [a, b, x] d tl (fun ks => deliverTo t r sat
      (exactFma r ((fmtOf t).dec (ks.getD 0 0)) ((fmtOf t).dec (ks.getD 1 0)) ((fmtOf t).dec (ks.getD 2 0)))) ∧
    GivesFloat (.frcp t sat r d a tl) t [a] d tl (fun ks => deliverTo t r sat (exactRcp ((fmtOf t).dec (ks.getD 0 0)))) ∧
    GivesFloat (.frsq t sat r d a tl) t [a] d tl (fun ks => deliverTo t r sat (exactRsq ((fmtOf t).dec (ks.getD 0 0)))) ∧
    GivesFloat (.fsqrt t sat r d a tl) t [a] d tl (fun ks => deliverTo t r sat (exactSqrt ((fmtOf t).dec (ks.getD 0 0))))

/-- fdot2 and fldexp (R84), whose sources are of two types. That the c of fdot2 and the b of fldexp take an inline constant as
its 32-bit pattern is the model's choice (log entry 84). -/
def FloatMixed : Prop :=
  ∀ (t : FType) (sat : Bool) (r : Rnd) (d : Dest) (a b x : Operand) (tl : Tail),
    Gives32 (.fdot2 t sat r d a b x tl) [.src a, .src b, .src x] d tl false (fun c l =>
      let p := c.word32 t a l
      let q := c.word32 t b l
      let z := deliverTo .f32 r sat (exactDot2 r ((fmtOf t).dec (p.toNat % 2 ^ 16)) ((fmtOf t).dec (q.toNat % 2 ^ 16))
        ((fmtOf t).dec (p.toNat / 2 ^ 16)) ((fmtOf t).dec (q.toNat / 2 ^ 16)) (fp32.dec (c.bits32 x l).toNat))
      (BitVec.ofNat 32 z.1, z.2)) ∧
    Gives32 (.fldexp t sat r d a b tl) [.src a, .src b] d tl false (fun c l =>
      let z := deliverTo t r sat (exactLdexp ((fmtOf t).dec ((c.word32 t a l).toNat % 2 ^ fmtWidth (fmtOf t)))
        (c.bits32 b l).toInt)
      (BitVec.ofNat 32 z.1, z.2))

/-- Floating-point selection and signs (R17, R85), and rounding, fraction and mantissa (R90). -/
def FloatSelection : Prop :=
  ∀ (t : FType) (num : Bool) (r : Rnd) (d : Dest) (a b x : Operand) (tl : Tail),
    GivesFloat (.fmin t num d a b tl) t [a, b] d tl (fun ks => (fmtOf t).minmax false num (ks.getD 0 0) (ks.getD 1 0)) ∧
    GivesFloat (.fmax t num d a b tl) t [a, b] d tl (fun ks => (fmtOf t).minmax true num (ks.getD 0 0) (ks.getD 1 0)) ∧
    GivesFloat (.fclamp t d a b x tl) t [a, b, x] d tl (fun ks =>
      let lo := (fmtOf t).minmax true true (ks.getD 0 0) (ks.getD 1 0)
      let hi := (fmtOf t).minmax false true lo.1 (ks.getD 2 0)
      (hi.1, lo.2 ||| hi.2)) ∧
    GivesFloat (.frnd t r d a tl) t [a] d tl (fun ks => (fmtOf t).rnd r (ks.getD 0 0)) ∧
    GivesFloat (.ffrac t d a tl) t [a] d tl (fun ks => (fmtOf t).frac (ks.getD 0 0)) ∧
    GivesFloat (.fgetmant t d a tl) t [a] d tl (fun ks => (fmtOf t).getmant (ks.getD 0 0)) ∧
    GivesFloat (.fabs t d a tl) t [a] d tl (fun ks => (fmtOf t).signOp false (ks.getD 0 0)) ∧
    GivesFloat (.fneg t d a tl) t [a] d tl (fun ks => (fmtOf t).signOp true (ks.getD 0 0))

/-- fclass (R87), fgetexp (R90) and fcmp (R86): one bit for the class, the exponent as a signed integer, and CM of the lanes
of EM. -/
def FloatTests : Prop :=
  ∀ (t : FType) (cond : FCond) (d : Dest) (a b : Operand) (tl : Tail),
    Gives32 (.fclass t d a tl) [.src a] d tl false (fun c l =>
      (BitVec.ofNat 32 (2 ^ (fmtOf t).classOf ((c.word32 t a l).toNat % 2 ^ fmtWidth (fmtOf t))), 0)) ∧
    Gives32 (.fgetexp t d a tl) [.src a] d tl true (fun c l =>
      (BitVec.ofInt 32 ((fmtOf t).getexp ((c.word32 t a l).toNat % 2 ^ fmtWidth (fmtOf t))), 0)) ∧
    Completes (.fcmp t cond a b tl) [.src a, .src b] tl Always (fun c s =>
      let f (l : Nat) := (fmtOf t).compare cond ((c.word32 t a l).toNat % 2 ^ fmtWidth (fmtOf t))
        ((c.word32 t b l).toNat % 2 ^ fmtWidth (fmtOf t))
      s.put c ((c.g.settleFps ([Use.src a, .src b].any Use.readsFps) (flagsOver (fun l => (f l).2) (laneList c.em))).setCm
        c.em fun l => (f l).1))

/-- The five functions of R88 complete: each lane's result is funcAt of its operand (the values of FloatFunctions). -/
def Transcendentals : Prop :=
  ∀ (t : FType) (d : Dest) (a : Operand) (tl : Tail),
    GivesFloat (.fexp2 t d a tl) t [a] d tl (fun ks => funcAt .exp2 (fmtOf t) (ks.getD 0 0)) ∧
    GivesFloat (.flog2 t d a tl) t [a] d tl (fun ks => funcAt .log2 (fmtOf t) (ks.getD 0 0)) ∧
    GivesFloat (.fsinpi t d a tl) t [a] d tl (fun ks => funcAt .sinpi (fmtOf t) (ks.getD 0 0)) ∧
    GivesFloat (.fcospi t d a tl) t [a] d tl (fun ks => funcAt .cospi (fmtOf t) (ks.getD 0 0)) ∧
    GivesFloat (.ftanh t d a tl) t [a] d tl (fun ks => funcAt .tanh (fmtOf t) (ks.getD 0 0))

/-- Conversions (R18, R91): from an integer source by value, from a float source by its code. The format in which a conversion
takes an inline constant is the model's choice (log entry 16), and so is that `.sat` clamps from integer to integer (log entry
84). -/
def Conversions : Prop :=
  ∀ (st t : IType) (ft : FType) (sat : Bool) (r : Rnd) (d : Dest) (a : Operand) (tl : Tail),
    (t.wide = false → Gives32 (.cvtToInteger (.int st) t sat r d a tl) [useOf st a] d tl (t == .i32)
      (fun c l => (extend32 t (resultInt t sat (c.int st a l)), 0))) ∧
    (t.wide = true → Gives64 (.cvtToInteger (.int st) t sat r d a tl) [useOf st a] d tl
      (fun c l => (BitVec.ofNat 64 (resultInt t sat (c.int st a l)), 0))) ∧
    Gives32 (.cvtToFloat (.int st) ft sat r d a tl) [useOf st a] d tl false (fun c l =>
      let z := (fmtOf ft).ofInt r sat (c.int st a l)
      (BitVec.ofNat 32 z.1, z.2)) ∧
    (∀ src ∈ [CvtSrc.f32, .f16, .bf16, .e4m3, .e5m2, .e2m1],
      (t.wide = false → Gives32 (.cvtToInteger src t sat r d a tl) [.src a] d tl (t == .i32) (fun c l =>
        let z := (cvtFmt src).toInt r t.signed t.width (c.g.readFloat c.rank src a l)
        (extend32 t z.1, z.2))) ∧
      (t.wide = true → Gives64 (.cvtToInteger src t sat r d a tl) [.src a] d tl (fun c l =>
        let z := (cvtFmt src).toInt r t.signed t.width (c.g.readFloat c.rank src a l)
        (BitVec.ofNat 64 z.1, z.2))) ∧
      Gives32 (.cvtToFloat src ft sat r d a tl) [.src a] d tl false (fun c l =>
        let z := (cvtFmt src).convert (fmtOf ft) r sat (c.g.readFloat c.rank src a l)
        (BitVec.ofNat 32 z.1, z.2)))

/-- pk (R92), unpk (R93) and scaleq (R94): pk puts two converted values at an element pair and keeps the destination's other
bits. The constant that unpk takes and what pk leaves in an S register are the model's choice (log entry 84). -/
def Packing : Prop :=
  ∀ (fmt : PkFmt) (sf : ScFmt) (sat : Bool) (r : Rnd) (d : Dest) (a b : Operand) (k : BitVec 2) (e : BitVec 3) (m : MaskOp)
    (tl : Tail),
    Gives32 (.pk fmt sat r d a b k tl) [.src a, .src b] d tl false (fun c l =>
      let w := pkBits fmt
      let x := fp32.convert (pkFmt fmt) r sat (c.bits32 a l).toNat
      let y := fp32.convert (pkFmt fmt) r sat (c.bits32 b l).toNat
      let at_ := if w = 16 then 0 else 2 * w * k.toNat
      let field : W32 := BitVec.ofNat 32 ((2 ^ (2 * w) - 1) * 2 ^ at_)
      ((c.g.prior c.rank d l &&& ~~~field) ||| BitVec.ofNat 32 ((x.1 + y.1 * 2 ^ w) * 2 ^ at_), x.2 ||| y.2)) ∧
    Gives32 (.unpk fmt d a e tl) [.src a] d tl false (fun c l =>
      let z := (pkFmt fmt).convert fp32 .rn false ((c.bits32 a l).toNat / 2 ^ (pkBits fmt * e.toNat) % 2 ^ pkBits fmt)
      (BitVec.ofNat 32 z.1, z.2)) ∧
    Completes (.scaleq sf r d a m tl) [.src a, .dst d false] tl (fun c s => s.maskFresh c m = true ∧ c.em &&& ~~~c.mask m = 0)
      (fun c s =>
        let sc := blockScale sf ((laneList (c.members m)).map fun l => (c.bits32 a l).toNat)
        let g := c.g.write32 c.em d false (Use.src a).readsFps (fun l =>
          let z := blockCode sf r sc (c.bits32 a l).toNat
          (BitVec.ofNat 32 (sc * 256 + z.1), z.2))
        s.put c (g.orFlags (if sc = 0xFF then fIV else 0)))

/-- The member-mask instructions (R101, R102, R105 to R109): with a fresh mask that covers EM, each computes on the members,
which are the mask's live lanes, whatever their EN. That an exclusive scan sets the flags of the inclusive one is the model's
choice (log entry 32). -/
def MemberMasks : Prop :=
  ∀ (mt : MTest) (op : FoldOp) (ty : FoldTy) (ex wide : Bool) (mode : LpMode) (d : Dest) (a b : Operand) (m : MaskOp) (tl : Tail),
    let legal : Ctx → State → Prop := fun c s => s.maskFresh c m = true ∧ c.em &&& ~~~c.mask m = 0
    let members (c : Ctx) : List Nat := laneList (c.mask m &&& c.g.liveView)
    Completes (.mtest mt d a m tl) [.src a] tl legal (fun c s =>
      let t := mtestValue mt ((members c).map fun l => c.bits32 a l)
      s.put c (c.g.writeUniform c.em d (Use.src a).readsFps (if t then 1 else 0) t)) ∧
    Completes (.mbits d a m tl) [.src a, .dst d false] tl legal (fun c s =>
      s.put c (c.g.write32 c.em d false (Use.src a).readsFps fun _ =>
        (maskOf fun l => (c.mask m &&& c.g.liveView).getLsbD l && c.bits32 a l != 0, 0))) ∧
    Completes (.mfold op ty d a m tl) [.src a, .dst d false] tl legal (fun c s =>
      let r := foldVals op ty ((members c).map fun l => c.bits32 a l)
      s.put c ((c.g.write32 c.em d (ty == .i32) (Use.src a).readsFps fun _ => (r.1, 0)).orFlags r.2)) ∧
    Completes (.scan op ty ex d a m tl) [.src a, .dst d false] tl legal (fun c s =>
      let upTo (p : Nat → Bool) := foldVals op ty (((members c).filter p).map fun l => c.bits32 a l)
      s.put c (c.g.write32 c.em d false (Use.src a).readsFps fun l =>
        let r := upTo fun k => decide (k ≤ l)
        if ex then ((upTo fun k => decide (k < l)).1, r.2) else r)) ∧
    Completes (.lperm mode d a b m tl) [.src a, .src b, .dst d false] tl legal (fun c s =>
      s.put c (c.g.write32 c.em d false ([Use.src a, .src b].any Use.readsFps) fun l =>
        let k := lpermLane mode l (c.bits32 b l).toNat
        (c.bits32 a (if (c.mask m &&& c.g.liveView).getLsbD k then k else l), 0))) ∧
    Completes (.mpeers wide d a m tl) [if wide then .src64 a else .src a, .dst d false] tl legal (fun c s =>
      let x (l : Nat) : W64 := if wide then c.bits64 a l else (c.bits32 a l).setWidth 64
      s.put c (c.g.write32 c.em d false (Use.readsFps (if wide then .src64 a else .src a)) fun l =>
        (maskOf fun k => (c.mask m &&& c.g.liveView).getLsbD k && x k == x l, 0))) ∧
    Completes (.mlow d m tl) [] tl legal (fun c s =>
      let low := lowestLane c.em
      let x : W64 := match low with
        | none => 0xFFFFFFFFFFFFFFFF
        | some l => BitVec.ofNat 64 l
      s.put c (match d with
        | .sp .cm => c.g.setCm c.em fun l => low == some l
        | .s r => c.g.sset r.toNat x
        | _ => c.g)) ∧
    Completes (.lsync m tl) [] tl legal (fun _ s => s)

/-- A lane of EM outside the mask is an illegal operand of each of the nine member-mask instructions, and a mask register that
the clause has written is an illegal instruction (R101). That EMASK of the second trap is EM is the model's choice (log entry
26). -/
def MemberMaskTraps : Prop :=
  ∀ (mt : MTest) (op : FoldOp) (ty : FoldTy) (ex wide : Bool) (mode : LpMode) (sf : ScFmt) (r : Rnd) (d : Dest) (a b : Operand)
    (m : MaskOp) (tl : Tail),
    ∀ p ∈ [(Instr.mtest mt d a m tl, [Use.src a]), (.mbits d a m tl, [.src a, .dst d false]),
        (.mfold op ty d a m tl, [.src a, .dst d false]), (.scan op ty ex d a m tl, [.src a, .dst d false]),
        (.lperm mode d a b m tl, [.src a, .src b, .dst d false]),
        (.mpeers wide d a m tl, [if wide then .src64 a else .src a, .dst d false]), (.mlow d m tl, []), (.lsync m tl, []),
        (.scaleq sf r d a m tl, [.src a, .dst d false])],
      Traps p.1 p.2 tl (fun c s => s.maskFresh c m = true ∧ c.em &&& ~~~c.mask m ≠ 0) (fun c _ =>
        { code := 0x03, wr := false, addr := c.word, mask := c.em &&& ~~~c.mask m, resume := c.cl.pc }) ∧
      Traps p.1 p.2 tl (fun c s => s.maskFresh c m = false) (fun c _ => c.trapAt 0x02 c.word)

/-- Trellis decoding (R115, R116): weights of the window's codes, delivered in the entry's format. -/
def Trellis : Prop :=
  ∀ (w : BitVec 2) (k2 hi : Bool) (d : Dest) (a b : Operand) (fmt : TdecFmt) (f2 : Tdec2Fmt) (tl : Tail),
    let weight (c : Ctx) (i : Nat) := trellisValue (trellisWindow (c.g.trellisBits w.toNat k2 hi) (if k2 then 2 else 1) i)
    Gives32 (.tdec w k2 hi (.f32 b) d a tl) [.src a, .src b] d tl false (fun c l =>
      tdecValue (.f32 b) (weight c ((c.bits32 a l).toNat % 256)) ((c.bits32 b l).toNat % 256)) ∧
    (∀ f ∈ [TdecFmt.f16, .e4m3, .s], Gives32 (.tdec w k2 hi f d a tl) [.src a] d tl false (fun c l =>
      tdecValue f (weight c ((c.bits32 a l).toNat % 256)) 0)) ∧
    Gives32 (.tdec2 w k2 hi f2 d a tl) [.src a] d tl false (fun c l =>
      let i := (c.bits32 a l).toNat % 256
      let lo := (tdec2Fmt f2).deliver .rn false (weightExact (weight c i))
      let up := (tdec2Fmt f2).deliver .rn false (weightExact (weight c ((i + 1) % 256)))
      (BitVec.ofNat 32 (lo.1 + up.1 * 2 ^ fmtWidth (tdec2Fmt f2)), (lo.2 ||| up.2) &&& fIX))

/-- EN, CM and the routing table (R95, R97): ensave and cmget read a mask, the en instructions combine EN with the low 32 bits
of an operand, cmset tests a value in each lane of EM, setrt writes an entry. -/
def MaskMoves : Prop :=
  ∀ (r : BitVec 5) (v : BitVec 6) (n : BitVec 3) (e : BitVec 16) (a : Operand) (tl : Tail),
    let en (c : Ctx) (s : State) (x : LaneMask) : State := s.put c { c.g.settleFps (Use.src a).readsFps 0 with en := x }
    Completes (.ensave r tl) [] tl Always (fun c s => s.put c (c.g.sset r.toNat (c.g.en.setWidth 64))) ∧
    Completes (.enrest a tl) [.src a] tl Always (fun c s => en c s ((c.bits64 a 0).setWidth 32)) ∧
    Completes (.enand a tl) [.src a] tl Always (fun c s => en c s (c.g.en &&& (c.bits64 a 0).setWidth 32)) ∧
    Completes (.enor a tl) [.src a] tl Always (fun c s => en c s (c.g.en ||| (c.bits64 a 0).setWidth 32)) ∧
    Completes (.enandn a tl) [.src a] tl Always (fun c s => en c s (c.g.en &&& ~~~(c.bits64 a 0).setWidth 32)) ∧
    Completes (.cmget v tl) [.regs v 1 1] tl Always (fun c s =>
      s.put c (c.g.vsetLanes v.toNat (fun l => if c.g.cm.getLsbD l then 0xFFFFFFFF else 0) (laneList c.em))) ∧
    Completes (.cmset a tl) [.src a] tl Always (fun c s =>
      s.put c ((c.g.settleFps (Use.src a).readsFps 0).setCm c.em fun l => c.bits32 a l != 0)) ∧
    Completes (.setrt n e tl) [] tl Always (fun c s => s.put c { c.g with t := NMap.set 0 c.g.t n.toNat e })

/-- setab (R96): group 0 of a block with a matrix context sets the accumulator window of the group of a GIX, which has no
matrix instruction in flight. -/
def AccumulatorWindow : Prop :=
  ∀ (a b x : Operand) (tl : Tail) (blk : Block) (n gid : Nat),
    Completes (.setab a b x tl) [] tl
      (fun c s => s.block? c.g.blk = some blk ∧ blk.ctx = some n ∧ c.g.gix = 0 ∧
        (c.bits64 a 0).toNat ≤ (c.bits64 b 0).toNat ∧ (c.bits64 b 0).toNat ≤ 256 ∧
        s.groupOf c.g.blk (c.bits64 x 0).toNat = some gid ∧ ((s.core c.core).ctx n).busyFor gid = false ∧
        (s.asyncs.any fun o => o.gid == gid && o.mrd.isSome) = false)
      (fun c s => s.modGroup gid fun g => { g with ab := (c.bits64 a 0).setWidth 9, al := (c.bits64 b 0).setWidth 9 })

/-- Direct branches and calls (R57, R130, R134, R137): the lanes of EM that the condition selects go to the header plus the
offset, the other lanes at the word to the address after the clause; the hint names the side to fetch. -/
def Branches : Prop :=
  ∀ (cond : BrcCond) (ucond : BruCond) (h : Hint) (off : BitVec 24) (link : BitVec 5),
    let go (c : Ctx) (s : State) (clears : Bool) (sel : LaneMask) : State :=
      s.put c { (c.g.settleFps clears 0).transfer c.cl c.at_ (sel &&& c.em) (fun _ => c.cl.target off) with
        pref := branchPref h c (sel &&& c.em) (c.cl.target off) c.g.pref, hint := some (hinted h c.cl (c.cl.target off)) }
    let fits (sel : Ctx → LaneMask) : Ctx → State → Prop := fun c _ => TargetsOk (sel c &&& c.em) (fun _ => c.cl.target off)
    CompletesTerminal (.bra h off) [] (fits Ctx.em) (fun c s => go c s false c.em) ∧
    CompletesTerminal (.brc cond h off) (brcUses cond) (fits (brcLanes cond))
      (fun c s => go c s ((brcUses cond).any Use.readsFps) (brcLanes cond c)) ∧
    CompletesTerminal (.bru ucond h off) (bruUses ucond) (fits fun c => if bruTaken ucond c then c.em else 0)
      (fun c s => go c s ((bruUses ucond).any Use.readsFps) (if bruTaken ucond c then c.em else 0)) ∧
    CompletesTerminal (.call link h off) [] (fits Ctx.em) (fun c s =>
      s.put c { (c.g.sset link.toNat c.cl.fall).transfer c.cl c.at_ c.em (fun _ => c.cl.target off) with
        hint := some (hinted h c.cl (c.cl.target off)) })

/-- Indirect transfers (R138): each lane of EM goes to its own target; calli reads the targets before it writes the link. -/
def IndirectTransfers : Prop :=
  ∀ (a : Operand) (r : BitVec 5) (v : BitVec 6),
    let fits : Ctx → State → Prop := fun c _ => TargetsOk c.em (c.bits64 a)
    CompletesTerminal (.ret a) [.src64 a] fits (fun c s => s.put c (c.g.transfer c.cl c.at_ c.em (c.bits64 a))) ∧
    CompletesTerminal (.jmpi a) [.src64 a] fits (fun c s => s.put c (c.g.transfer c.cl c.at_ c.em (c.bits64 a))) ∧
    CompletesTerminal (.calli (.s r) a) [.src64 a, .dst (.s r) true] fits (fun c s =>
      s.put c ((c.g.sset r.toNat c.cl.fall).transfer c.cl c.at_ c.em (c.bits64 a))) ∧
    CompletesTerminal (.calli (.v v) a) [.src64 a, .dst (.v v) true] fits (fun c s =>
      s.put c ((c.g.vset64Lanes v.toNat (fun _ => c.cl.fall) (laneList c.em)).transfer c.cl c.at_ c.em (c.bits64 a)))

/-- loop (R145): a hardware loop whose EM is all the live lanes falls through when its counter is zero, and otherwise counts
down and goes back. -/
def HardwareLoop : Prop :=
  ∀ (n : BitVec 2) (off : BitVec 24),
    CompletesTerminal (.loop n off) [] (fun c _ => c.cl.pc = c.cl.lastWord ∧ c.em = c.g.liveView ∧ c.g.lcGet n.toNat = 0)
      (fun c s => s.put c (c.g.transfer c.cl c.at_ 0 (fun _ => 0))) ∧
    CompletesTerminal (.loop n off) []
      (fun c _ => c.cl.pc = c.cl.lastWord ∧ c.em = c.g.liveView ∧ c.g.lcGet n.toNat ≠ 0 ∧
        TargetsOk c.em fun _ => c.cl.target off)
      (fun c s => s.put c ((c.g.lcSet n.toNat (c.g.lcGet n.toNat - 1)).transfer c.cl c.at_ c.em fun _ => c.cl.target off)) ∧
    Traps (.loop n off) [] none (fun c _ => c.cl.pc = c.cl.lastWord ∧ c.em ≠ c.g.liveView) (fun c _ =>
      c.trapAt 0x11 ((c.g.liveView &&& ~~~c.em).setWidth 64))

/-- exit, halt, nop, yield and sleep (R127, R139, R140, R144): with the last lane a group starts to drain; halt stops the
group for the host where its queue has debug enabled, and traps otherwise. That halt goes by the queue's DBG bit, whatever DHA
holds, is the model's choice (log entry 80). -/
def Pauses : Prop :=
  ∀ (n : BitVec 24),
    CompletesTerminal .exit [] (fun c _ => c.g.hkind = 0) (fun c s =>
      let left := c.g.live &&& ~~~c.em
      let s1 := (s.put c (Group.transfer { c.g with live := left, draining := left == 0 } c.cl c.at_ 0 (fun _ => 0))).verdicts
        c.g (fun _ => 0) (laneList (c.em &&& c.g.covLanes &&& ~~~c.g.covDone))
      if left = 0 then s1.addHash c.gid [.point c.cl.pc (s.core c.core).engineSeq] else s1) ∧
    CompletesTerminal .halt [] (fun c s => s.debugOn c.g = true) (fun c s =>
      (s.put c { c.g.transfer c.cl c.at_ 0 (fun _ => 0) with halted := true }).recordFree (dieOf c.core) 6
        (s.siteOf c.g c.cl.pc).words) ∧
    Traps .halt [] none (fun c s => s.debugOn c.g = false) (fun c _ =>
      { code := 0x19, wr := false, addr := 0, mask := c.at_, resume := c.cl.fall }) ∧
    Completes .nop [] none Always (fun _ s => s) ∧
    Completes .yield [] none Always (fun c s => s.put c { c.g with clause := some { c.cl with yld := true } }) ∧
    Completes (.sleep n) [] none Always (fun c s => s.put c { c.g with clause := some { c.cl with sleep := some n.toNat } })

/-- trap, brk and a word that is no legal instruction (R141, R142, R256, R260): where EM has lanes, trap enters the trap
handler with its immediate in EADDR and resumes after itself; brk enters an enabled debug handler, and is a nop without one or
in a handler; an illegal word traps at itself. That brk goes by DHA being other than zero is the model's choice (log entry
80), and so is that EMASK of an illegal word is EM (log entry 26). -/
def SoftwareTraps : Prop :=
  ∀ (imm : BitVec 24) (code : BitVec 6) (w : W64),
    Traps (.trap imm) [] none (fun c _ => c.em ≠ 0) (fun c _ =>
      { code := 0x18, wr := false, addr := imm.setWidth 64, mask := c.em, resume := c.cl.pc + 8 }) ∧
    Completes (.trap imm) [] none (fun c _ => c.em = 0) (fun _ s => s) ∧
    (∀ s c, s.ctx? = some c → c.em ≠ 0 → s.dhaOf c.g ≠ 0 → c.g.hkind = 0 →
      exec (.brk code) s = .next (s.enterDebug c.gid c.cl.pc c.cl.hdr
        { code := 0x21, wr := false, addr := code.setWidth 64, mask := c.em, resume := c.cl.pc + 8 })) ∧
    Completes (.brk code) [] none (fun c s => c.em = 0 ∨ s.dhaOf c.g = 0 ∨ c.g.hkind ≠ 0) (fun _ s => s) ∧
    Traps (.illegalOpcode w) [] none Always (fun c _ => c.trapAt 0x02 w)

/-- rtt (R143, R258): in a handler, every live lane goes to its EPC element, EN, CM and the queue's shadow come back, and the
debug registers that the handler wrote take effect; outside a handler it is an illegal instruction. -/
def HandlerReturn : Prop :=
    CompletesTerminal .rtt [] (fun c _ => c.g.hkind ≠ 0 ∧ TargetsOk c.g.live fun l => NMap.get 0 c.g.epc l) (fun c s =>
      (s.put c { c.g.leaveHandler (s.headerAt c.g c.g.ehdr) with dbgPend := [] }).applyDebug c.core c.g.dbgPend) ∧
    Traps .rtt [] none (fun c _ => c.g.hkind = 0) (fun c _ => c.trapAt 0x02 c.word) ∧
    Traps .exit [] none (fun c _ => c.g.hkind ≠ 0) (fun c _ => c.trapAt 0x02 c.word)

/-- Loads and stores (R59, R175, R176): each lane of EM accesses its own address, base plus index plus offset, at the width's
alignment; a load delivers to the lane's registers from d on, a store takes the datum of its source. A load changes no byte of
memory, a store none outside those of its lanes' accesses. -/
def LoadsAndStores : Prop :=
  ∀ (wd : Width) (sx : Bool) (pol : Policy) (d : BitVec 6) (src : Dest) (base index : Operand) (off : BitVec 12) (tl : Tail),
    let n := Width.bytes wd
    let em (c : Ctx) : List Nat := laneList c.em
    let addr (c : Ctx) (l : Nat) : W64 := c.bits64 base l + c.g.readIndex c.rank index l + off.signExtend 64
    CompletesAccess (.ld wd sx pol d base index off tl) [.src64 base, .src index, .regs d (Width.regs wd) (Width.regs wd)] tl true .read false
      true n n em addr
      (fun c v s => (em c).foldl (fun g l =>
        g.loads v pol (fun i k => .v l (d.toNat + i / 4) k sx) 0 (s.piecesOf v l (addr c l) n .read)) (c.gather s tl))
      (fun _ _ _ _ => []) ∧
    CompletesAccess (.st wd pol src base index off tl) ([.src64 base, .src index] ++ storeUse src (Width.regs wd)) tl false .write false
      true n n em addr
      (fun c v s => (em c).foldl (fun g l =>
        g.stores v pol (c.g.storeDatum src n l) 0 (s.piecesOf v l (addr c l) n .write)) (c.gather s tl))
      (fun c v _ _ => (em c).flatMap fun l => storeSteps (v.canonical (addr c l)) n (c.g.storeDatum src n l)) ∧
    KeepsMemory (.ld wd sx pol d base index off tl) [.src64 base, .src index, .regs d (Width.regs wd) (Width.regs wd)] tl
      (fun c s => c.accessible (em c) (addr c) n n .read false true s) (fun _ _ _ => False) ∧
    KeepsMemory (.st wd pol src base index off tl) ([.src64 base, .src index] ++ storeUse src (Width.regs wd)) tl
      (fun c s => c.accessible (em c) (addr c) n n .write false true s) (fun c => c.touched (em c) (addr c) n .write)

/-- ldsc, twld and twst (R113, R114, R177): one access per issue, made whether or not EM has lanes; a window is two halves of
32 bytes, the lower first (the model's choice, log entry 87). The loads change no byte of memory, twst none outside its 64. -/
def ScalarAccesses : Prop :=
  ∀ (wd : Width) (sx : Bool) (pol : Policy) (d : BitVec 5) (w : BitVec 2) (base : Option (BitVec 5)) (index : Option Operand)
    (off : BitVec 12) (tl : Tail),
    let n := Width.bytes wd
    let scalarAddr (c : Ctx) (_ : Nat) : W64 :=
      c.sbase base + (match index with | some o => c.g.readIndex c.rank o 0 | none => 0) + off.signExtend 64
    let start (c : Ctx) : W64 := c.sbase base + off.signExtend 64
    let half (c : Ctx) (h : Nat) : W64 := start c + BitVec.ofNat 64 (32 * h)
    let open_ (k : AccKind) : Ctx → State → Prop := fun c s => c.accessible [0, 1] (half c) 32 32 k true true s
    let ready (k : AccKind) (c : Ctx) (s : State) : State := c.settledFor [0, 1] (half c) s
    let windowIn (c : Ctx) (s : State) : Gather := (List.range 2).foldl (fun g h =>
      g.loads (s.viewOf c.gid c.g) pol (fun _ _ => .w w.toNat h) 0
        ((ready .readWhole c s).piecesOf (s.viewOf c.gid c.g) 0 (half c h) 32 .readWhole)) (c.gather (ready .readWhole c s) tl)
    let window (c : Ctx) : Nat := (c.g.wget w.toNat).toNat
    let windowOut (c : Ctx) (s : State) : Gather := (List.range 2).foldl (fun g h =>
      g.stores (s.viewOf c.gid c.g) pol (window c / 2 ^ (256 * h) % 2 ^ 256) 0
        ((ready .writeWhole c s).piecesOf (s.viewOf c.gid c.g) 0 (half c h) 32 .writeWhole))
      (c.gather (ready .writeWhole c s) tl)
    CompletesAccess (.ldsc wd sx pol d base index off tl) [] tl true .read true true n n Ctx.single scalarAddr
      (fun c v s => (c.gather s tl).loads v pol (fun _ k => .s d.toNat k sx) 0 (s.piecesOf v 0 (scalarAddr c 0) n .read))
      (fun _ _ _ _ => []) ∧
    CompletesAsync (.twld pol w base off tl) [] tl
      (fun c s => open_ .readWhole c s ∧ (windowIn c s).hasRoom c.gid c.core)
      (fun c s => (windowIn c s).launched c (s.viewOf c.gid c.g) tl true c.single (fun _ => start c) 64 fun _ => []) ∧
    CompletesAsync (.twst pol w base off tl) [] tl
      (fun c s => open_ .writeWhole c s ∧ (windowOut c s).hasRoom c.gid c.core)
      (fun c s => (windowOut c s).launched c (s.viewOf c.gid c.g) tl false c.single (fun _ => start c) 64
        fun _ => storeSteps ((s.viewOf c.gid c.g).canonical (start c)) 64 (window c)) ∧
    KeepsMemory (.ldsc wd sx pol d base index off tl) [] tl
      (fun c s => c.accessible c.single (scalarAddr c) n n .read true true s) (fun _ _ _ => False) ∧
    KeepsMemory (.twld pol w base off tl) [] tl (open_ .readWhole) (fun _ _ _ => False) ∧
    KeepsMemory (.twst pol w base off tl) [] tl (open_ .writeWhole) (fun c s b =>
      ∃ h < 2, ∃ p ∈ (ready .writeWhole c s).piecesOf (s.viewOf c.gid c.g) 0 (half c h) 32 .writeWhole, s.storesTo c.core p b)

/-- Plane accesses (R179): the record at the base is read, coordinates outside the extent make no access, and a load of them
gives zero; with no lane in EM nothing is read. A load changes no byte of memory, a store none outside its lanes' elements. -/
def PlaneAccesses : Prop :=
  ∀ (pol : Policy) (d : BitVec 6) (src : Dest) (base : BitVec 5) (xy : Operand) (c2 c3 : BitVec 6) (tl : Tail),
    let rec_ (c : Ctx) : W64 := c.g.sget base.toNat
    let read (c : Ctx) (s : State) : List W64 × State :=
      if c.em = 0 then (List.replicate 8 0, s) else (s.touchTlb (s.viewOf c.gid c.g) 0 (rec_ c)).readRec (s.viewOf c.gid c.g) (rec_ c)
    let inside (c : Ctx) (s : State) : List Nat :=
      (laneList c.em).filter fun l => inExtent (read c s).1 (c.coords xy c2 c3 l)
    let addr (c : Ctx) (s : State) (l : Nat) : W64 := (elemAddr (read c s).1 (c.coords xy c2 c3 l)).1
    let size (c : Ctx) (s : State) : Nat := elemBytes (layCode (read c s).1)
    let scaled (c : Ctx) (s : State) : Bool := isScaled (layCode (read c s).1)
    let scale (c : Ctx) (s : State) (l : Nat) : W64 := scaleAddr (read c s).1 (blockCoord (read c s).1 32 (c.coords xy c2 c3 l))
    let open_ (k : AccKind) : Ctx → State → Prop := fun c s =>
      c.em ≠ 0 → s.heldAddr (s.viewOf c.gid c.g) 0 (rec_ c) = false ∧
        s.memCheck (s.viewOf c.gid c.g) (laneList c.em) (fun _ => rec_ c) 64 64 .read true = none ∧
        s.recPresent (s.viewOf c.gid c.g) (rec_ c) = true ∧ planeFmtOk (read c s).1 k.writes = true ∧
        c.accessible (inside c s) (addr c s) (size c s) (size c s) k false true (read c s).2 ∧
        (scaled c s = true → c.accessible (inside c s) (scale c s) 1 1 k false true (read c s).2)
    let view (c : Ctx) (s : State) : View := (read c s).2.viewOf c.gid c.g
    let ready (c : Ctx) (s : State) : State :=
      let s1 := (read c s).2.touchTlbs (view c s) (addr c s) (inside c s)
      if scaled c s then s1.touchTlbs (view c s) (scale c s) (inside c s) else s1
    let nib (c : Ctx) (s : State) (l : Nat) : Bool := (elemAddr (read c s).1 (c.coords xy c2 c3 l)).2
    let loaded (c : Ctx) (s : State) : Gather :=
      let g := c.gather (ready c s) tl
      let outside := (laneList c.em).filter fun l => !(inside c s).contains l
      let fmt := layCode (read c s).1
      (inside c s).foldl (fun g l => g.plane (view c s) pol (ready c s) (read c s).1 (c.coords xy c2 c3 l) l)
        { g with async := { g.async with
            vw := outside.map fun l => (d.toNat * 32 + l, 0), fp := !(inside c s).isEmpty,
            gfx := some (.plane d.toNat fmt ((inside c s).map fun l => (l, nib c s l))) } }
    let code (c : Ctx) (s : State) (l : Nat) : Nat × FpFlags := narrowElem (layCode (read c s).1) (c.g.planeDatum src l)
    let stored (c : Ctx) (s : State) : Gather :=
      (inside c s).foldl (fun g l => g.planeStore (view c s) pol (ready c s) (read c s).1 (c.coords xy c2 c3 l) l (code c s l).1)
        (c.gather ((ready c s).raise c.gid c.g.tag (flagsOver (fun l => (code c s l).2) (inside c s))) tl)
    CompletesAsync (.ldp pol d base xy c2 c3 tl) [.src xy, .regs d 1 1] tl
      (fun c s => open_ .read c s ∧ (loaded c s).hasRoom c.gid c.core)
      (fun c s => (loaded c s).launchedAccs c (view c s) tl true
        ((inside c s).flatMap fun l => planeAccs (read c s).1 (c.coords xy c2 c3 l) l) fun _ => []) ∧
    CompletesAsync (.stp pol src base xy c2 c3 tl) (.src xy :: storeUse src 1) tl
      (fun c s => open_ .write c s ∧ (stored c s).hasRoom c.gid c.core)
      (fun c s => (stored c s).launched c (view c s) tl false (inside c s) (addr c s) (size c s) fun _ =>
        (inside c s).flatMap fun l => storeSteps ((view c s).canonical (addr c s l)) (size c s) (code c s l).1) ∧
    KeepsMemory (.ldp pol d base xy c2 c3 tl) [.src xy, .regs d 1 1] tl (open_ .read) (fun _ _ _ => False) ∧
    KeepsMemory (.stp pol src base xy c2 c3 tl) (.src xy :: storeUse src 1) tl (open_ .write) (fun c s b =>
      ∃ l ∈ inside c s, s.storesTo c.core ((ready c s).targetOf (view c s) l (addr c s l) (size c s) .write, size c s) b)

/-- Phases and fences (R280, R292, R293): phase refreshes the core's cache and publishes, phase.p only publishes, phase.s only
refreshes, lfence publishes; a publish is in flight under the tail until it completes. -/
def PhasesAndFences : Prop :=
  ∀ (sc : Scope) (tl : Tail),
    CompletesAsync (.phase sc tl) [] tl Always (fun c s => c.publishes (s.modCore c.core Core.refresh) sc .nothing tl) ∧
    CompletesAsync (.phaseP sc tl) [] tl Always (fun c s => c.publishes s sc .nothing tl) ∧
    Completes (.phaseS tl) [] tl Always (fun c s =>
      (s.modCore c.core Core.refresh).countMem c (s.viewOf c.gid c.g) [] (fun _ => 0) 1 0) ∧
    CompletesAsync (.lfence sc tl) [] tl Always (fun c s => c.publishes s sc .lfence tl)

/-- prefetch, cwb, cinv, aconv and aclass (R180 to R183): prefetch of any address completes; cwb and cinv of checked addresses
write back their lines, which stay or leave; aconv and aclass look at the address alone. -/
def CacheAndAddresses : Prop :=
  ∀ (pol : Policy) (base index a : Operand) (off : BitVec 12) (tgt : ConvTarget) (sp : Space) (r : BitVec 5) (v : BitVec 6)
    (tl : Tail),
    let addr (c : Ctx) (l : Nat) : W64 := c.bits64 base l + c.g.readIndex c.rank index l + off.signExtend 64
    let checked : Ctx → State → Prop := fun c s =>
      (∀ l ∈ laneList c.em, s.heldAddr (s.viewOf c.gid c.g) l (addr c l) = false) ∧
        s.memCheck (s.viewOf c.gid c.g) (laneList c.em) (addr c) 1 1 .read false = none
    let lines (c : Ctx) (s : State) : List Nat :=
      distinct ((laneList c.em).filterMap fun l => s.lineOf (s.viewOf c.gid c.g) l (addr c l))
    let touched (c : Ctx) (s : State) : State := s.touchTlbs (s.viewOf c.gid c.g) (addr c) (laneList c.em)
    let counted (c : Ctx) (old s : State) (ls : List Nat) (a : Nat → W64) (op : Nat) : State :=
      s.countMem c (old.viewOf c.gid c.g) ls a 1 op
    let after (c : Ctx) (s0 old s : State) (ls : List Nat) (a : Nat → W64) : State := match tl with
      | none => counted c s0 s ls a 0
      | some _ => counted c s0 (s.launchAsync { c.async tl with
          deps := (s.wbs.filter fun w => old.wbs.all fun x => x.id != w.id).map WriteBack.id }) ls a s.nextId
    let every (c : Ctx) (s : State) : List Nat := (s.core c.core).l1.map (·.1)
    Completes (.prefetch pol base index off) [.src64 base, .src index] none Always (fun c s =>
      let ls := (laneList c.em).filter fun l => (s.lineOf (s.viewOf c.gid c.g) l (addr c l)).isSome
      (ls.foldl (fun s' l => match s'.lineOf (s.viewOf c.gid c.g) l (addr c l) with
        | some line => s'.prefetchLine c.core pol line
        | none => s') s).countMem c (s.viewOf c.gid c.g) ls (addr c) 1 0) ∧
    CompletesAsync (.cwb (.line base index off) tl) [.src64 base, .src index] tl checked (fun c s =>
      after c s (touched c s) ((touched c s).cleanLines c.core (s.viewOf c.gid c.g).launchId (lines c s)) (laneList c.em) (addr c)) ∧
    CompletesAsync (.cwb .all tl) [] tl Always (fun c s => after c s s (s.cleanLines c.core (s.viewOf c.gid c.g).launchId (every c s)) [] fun _ => 0) ∧
    CompletesAsync (.cinv (.line base index off) tl) [.src64 base, .src index] tl checked (fun c s =>
      after c s (touched c s) ((touched c s).flushLines c.core (s.viewOf c.gid c.g).launchId (lines c s)) (laneList c.em) (addr c)) ∧
    CompletesAsync (.cinv .all tl) [] tl Always (fun c s => after c s s (s.flushLines c.core (s.viewOf c.gid c.g).launchId (every c s)) [] fun _ => 0) ∧
    Completes (.aconv tgt (.s r) a) [.src64 a, .dst (.s r) true] none Always (fun c s =>
      counted c s (s.put c (c.g.sset r.toNat ((s.viewOf c.gid c.g).convert tgt none (c.bits64 a 0)))) [] (fun _ => 0) 0) ∧
    Completes (.aconv tgt (.v v) a) [.src64 a, .dst (.v v) true] none Always (fun c s =>
      counted c s
        (s.put c (c.g.vset64Lanes v.toNat (fun l => (s.viewOf c.gid c.g).convert tgt (some l) (c.bits64 a l)) (laneList c.em)))
        [] (fun _ => 0) 0) ∧
    Completes (.aclass sp a) [.src64 a] none Always (fun c s =>
      counted c s (s.put c (c.g.setCm c.em fun l => spaceOf (c.bits64 a l) == some sp)) [] (fun _ => 0) 0)

/-- mrd, mstat and mrel (R197, R214, R218). -/
def MatrixReads : Prop :=
  ∀ (n : BitVec 3) (e d : BitVec 5) (v : BitVec 6) (acc : AccField) (a : Operand) (tl : Tail) (k : Nat),
    let owns : Ctx → State → Prop := fun c s => s.ctxNum c.g.blk = some k
    let ctx (c : Ctx) (s : State) : MatCtx := (s.core c.core).ctx k
    let column (c : Ctx) : Nat := (c.bits64 a 0).toNat % 64
    CompletesAsync (.mrd n v acc a tl) [.regs v (2 ^ n.toNat) 1] tl
      (fun c s => owns c s ∧ c.g.tileInWindow (c.g.accTile acc) = true ∧ column c % 2 ^ n.toNat = 0 ∧ column c + 2 ^ n.toNat ≤ 64)
      (fun c s => s.launchAsync { c.async tl with
        site := s.siteOf c.g c.cl.pc, mrd := some (c.g.blk, c.g.accTile acc, column c, 2 ^ n.toNat, v.toNat, c.em) }) ∧
    Completes (.mstat (.state d n) tl) [] tl owns (fun c s => s.put c (c.g.sset d.toNat ((ctx c s).cv n.toNat).word)) ∧
    Completes (.mstat (.fmt d n) tl) [] tl owns
      (fun c s => s.put c (c.g.sset d.toNat (((ctx c s).cv n.toNat).ref.setWidth 64))) ∧
    Completes (.mstat (.tol d) tl) [] tl owns (fun c s => s.put c (c.g.sset d.toNat
      ((ctx c s).mtolExp.setWidth 64 ||| if (ctx c s).mtolTrap then 256 else 0))) ∧
    Completes (.mstat (.mmc d) tl) [] tl owns (fun c s =>
      (s.put c (c.g.sset d.toNat ((ctx c s).mmc.setWidth 64))).modCtx c.core k fun x => { x with mmc := 0 }) ∧
    Completes (.mstat (.settol a) tl) [] tl
      (fun c s => owns c s ∧ 4 ≤ (c.bits64 a 0).toNat % 32 ∧ (c.bits64 a 0).toNat % 32 ≤ 23)
      (fun c s => s.modCtx c.core k fun x =>
        { x with mtolTrap := (c.bits64 a 0).getLsbD 8, mtolExp := (c.bits64 a 0).setWidth 5 }) ∧
    Completes (.mrel n) [] none owns (fun c s => s.cancelCv c.core k n.toNat)

/-- Where the matrix instructions do not run (R192, R198, R204, R220): in a handler sign and the tile instructions, in every
form, are illegal instructions; in a block with no context, on a tile outside the group's window, with a pair at an odd
register, or attached to a register that has an operation, they are illegal operands. -/
def MatrixTraps : Prop :=
  ∀ (v n : BitVec 3) (cv : CvAttach) (set sat : Bool) (rnd : Rnd) (acc : AccField) (a o : Operand) (b x : BitVec 5) (slot : BitVec 3)
    (e : BitVec 3) (r : BitVec 6) (q : MstatItem) (tl : Tail) (k : Nat),
    let operand : Ctx → State → Trap := fun c _ => c.trapAt 0x03 c.word
    let illegal : Ctx → State → Trap := fun c _ => c.trapAt 0x02 c.word
    let bare : Ctx → State → Prop := fun c s => s.ctxNum c.g.blk = none
    (∀ p ∈ [(Instr.mma v set sat acc b x tl, some v, some b, some x), (.mmas v set sat acc b x tl, some v, some b, some x),
        (.mmt v set sat acc b x tl, some v, some b, some x), (.mzero cv acc tl, cv, none, none), (.mld cv acc b tl, cv, some b, none),
        (.mdrain cv rnd acc b tl, cv, some b, none), (.mdraint cv rnd acc b x tl, cv, some b, some x),
        (.mchk cv acc b x tl, cv, some b, some x)],
      Traps p.1 [] tl (fun c _ => c.g.hkind ≠ 0) illegal ∧
      Traps p.1 [] tl (fun c s => c.g.hkind = 0 ∧ bare c s) operand ∧
      Traps p.1 [] tl (fun c s => c.g.hkind = 0 ∧ (c.g.tileInWindow (c.g.accTile acc) = false ∨
        oddPair p.2.2.1 = true ∨ oddPair p.2.2.2 = true)) operand ∧
      ∀ m, p.2.1 = some m → Traps p.1 [] tl
        (fun c s => c.tileLegal s k acc p.2.2.1 p.2.2.2 ∧ (((s.core c.core).ctx k).cv m.toNat).st = 3) operand) ∧
    Traps (.sign n a o slot) [.src o] (some slot) (fun c _ => c.g.hkind ≠ 0) illegal ∧
    Traps (.mrd e r acc a tl) [.regs r (2 ^ e.toNat) 1] tl (fun c s => bare c s ∨ c.g.tileInWindow (c.g.accTile acc) = false) operand ∧
    Traps (.mstat q tl) [] tl bare operand ∧
    Traps (.mrel n) [] none bare operand

/-- prim, covw and hit (R234, R249, R351): a mesh group's lanes emit their primitives; coverage lanes give their verdicts
once; a verdict goes to the ray that a lane's handle names. -/
def GraphicsVerdicts : Prop :=
  ∀ (df : DepthFn) (cov : Option (BitVec 5)) (cull : Cull) (a b : Operand) (tl : Tail),
    let view (c : Ctx) (s : State) : View := s.viewOf c.gid c.g
    let slot (c : Ctx) (s : State) : Nat := (view c s).la.rpass.getD 0
    let entry (c : Ctx) : W64 := match cov with
      | some r => c.g.sget r.toNat
      | none => 0
    let emitted (c : Ctx) (s : State) : State :=
      let la := (view c s).la
      s.emitPrims (slot c s) (fun _ l =>
        { id := 0, slot := slot c s, cull := Machine.Cull.code cull, gid := c.gid, tag := c.g.tag, launch := c.g.launch,
          site := s.siteOf c.g c.cl.pc, tiles := none,
          e := { pid := primId (meshKey la (view c s).blk.index c.g.gix) (c.bits32 b l), df := Machine.DepthFn.code df, cov := cov.isSome,
                 entry := entry c,
                 at_ := { a := c.bits64 a l, core := c.core, blk := c.g.blk, asn := la.asn, root := la.root } } })
        (laneList c.em)
    let held (c : Ctx) (s s1 : State) : State := match tl with
      | none => s1
      | some _ => s1.launchAsync { c.async tl with deps := (s1.prims.filter fun p => decide (p.id ≥ s.nextId)).map Prim.id }
    CompletesAsync (.prim df cov cull a b tl) [.src64 a, .src b] tl
      (fun c s => (c.em = 0 ∨ ((view c s).la.mesh = true ∧ c.g.gix < (view c s).la.groups)) ∧
        (cov.isSome = true → c.em ≠ 0 → targetOk (entry c) = true) ∧
        ∀ l ∈ laneList c.em, (c.bits32 b l).toNat / 2 ^ 20 = 0 ∧
          (c.bits32 b l).toNat / 2 ^ 12 % 256 < ((s.runningPass (slot c s)).map fun x => passViews x.p).getD 256 ∧
          (c.bits64 a l).toNat % 64 = 0 ∧ spaceOf (c.bits64 a l) ∈ [some Space.dev, some Space.vault, some Space.tile])
      (fun c s => held c s (emitted c s)) ∧
    Completes (.covw a) [.src a] none (fun c _ => c.em &&& (~~~c.g.covLanes ||| c.g.covDone) = 0) (fun c s =>
      ((s.settle c [.src a]).verdicts c.g (fun l => (c.bits32 a l).toNat % 16 &&& NMap.get 0 c.g.covCand l % 16)
        (laneList c.em)).modGroup c.gid fun g => { g with covDone := g.covDone ||| c.em }) ∧
    Completes (.hit a b) [.src a, .src b] none
      (fun c s => ∀ l ∈ laneList c.em, (c.bits32 b l).toNat % 4 ≠ 3 ∧ (s.askedRay c l (c.bits32 a l)).isSome = true)
      (fun c s => (laneList c.em).foldl (fun s l => match s.askedRay c l (c.bits32 a l) with
        | some (r, x) => s.putRay (r.judged x ((c.bits32 b l).toNat % 4))
        | none => s) (s.settle c [.src a, .src b])) ∧
    Traps (.covw a) [.src a] none (fun c _ => c.em &&& (~~~c.g.covLanes ||| c.g.covDone) ≠ 0) (fun c _ =>
      { code := 0x03, wr := false, addr := c.word, mask := c.em &&& (~~~c.g.covLanes ||| c.g.covDone), resume := c.cl.pc })

/-- tret.next and tret.done (R412): a block without a request waits for a tile, giving back the pass it owns; tret.done gives
it back alone. -/
def TileReturns : Prop :=
  ∀ (d : BitVec 5) (a : Operand) (slot : BitVec 3) (tl : Tail) (b : Block),
    let pass (c : Ctx) : Nat := (c.bits64 a 0).toNat
    let asked (c : Ctx) (s : State) : State :=
      (s.launchAsync { c.async (some slot) with ready := false, site := s.siteOf c.g c.cl.pc }).modBlock c.g.blk
        fun b => { b with tret := some (s.nextId, pass c, d.toNat, false) }
    CompletesAsync (.tretNext d a slot) [.src64 a] (some slot)
      (fun c s => c.g.hkind = 0 ∧ s.block? c.g.blk = some b ∧ b.tret = none ∧ pass c < 8 ∧
        ∀ x, s.runningPass (pass c) = some x → tileFits b x.p = true)
      (fun c s => if s.ownsPass c.g.blk then (asked c s).retire c [] else (asked c s).sendTile c.g.blk) ∧
    CompletesAsync (.tretDone none) [] none (fun c _ => c.g.hkind = 0)
      (fun c s => if s.ownsPass c.g.blk then s.retire c [] else s) ∧
    CompletesAsync (.tretDone (some slot)) [] (some slot) (fun c _ => c.g.hkind = 0) (fun c s =>
      let held := s.launchAsync { c.async (some slot) with ready := !s.ownsPass c.g.blk }
      if s.ownsPass c.g.blk then held.retire c [s.nextId] else held)

/-- The pushes to the engines (R243, R301 to R303, R345): a card whose records are readable and legal is accepted, takes the
core's next sequence number, and delivers it to the S register that asks for it. -/
def EnginePushes : Prop :=
  ∀ (d : Option (BitVec 5)) (n : BitVec 5) (k : BitVec 6) (tl : Tail) (recs : List (List W64)) (s1 : State),
    let view (c : Ctx) (s : State) : View := s.viewOf c.gid c.g
    let card (c : Ctx) : List W64 := c.g.card n
    let readable (rs walked : Ctx → List W64) : Ctx → State → Prop := fun c s =>
      c.g.hkind = 0 ∧ n.toNat % 8 = 0 ∧ (∀ a ∈ walked c, s.heldAddr (view c s) 0 a = false) ∧
        s.recordErr (view c s) (rs c) = none ∧ s.readCard (view c s) (rs c) = some (recs, s1)
    let copyRecs (c : Ctx) : List W64 := copyRecords (card c)
    let copy (c : Ctx) (s : State) : CopyJob :=
      copyJobOf c (view c s).blk (s1.siteOf c.g c.cl.pc) s1.nextId (c.jobIdent (view c s) 1 c.g.xcCount) (card c) recs
    let encRecs (c : Ctx) : List W64 := [cardWord (card c) 1, cardWord (card c) 2]
    let encode_ (c : Ctx) (s : State) : EncJob :=
      { id := s1.nextId, core := c.core, gid := c.gid, launch := c.g.launch, blk := c.g.blk, site := s1.siteOf c.g c.cl.pc,
        ident := c.jobIdent (view c s) 2 c.g.xeCount, card := card c, src := recs.headD [], dst := (recs.drop 1).headD [],
        home := (view c s).blk, added := none, out := none }
    CompletesAsync (.xpushXc d n tl) [] tl
      (fun c s => readable copyRecs (fun c => copyRecs c ++ emptyCounters (card c)) c s ∧ s.tileReqsOf c.gid = [] ∧ (s.copies.filter fun j => j.core == c.core).length < 16 ∧
        copyCardBad (card c) = false ∧ ((copy c s).mcnt ≠ 0 → spaceOf (recWord (copy c s).dst 0) = some .cl) ∧
        (copy c s).formatErr = none ∧ s1.copyRangeErr (view c s) (copy c s) = none)
      (fun c s => s1.acceptCopy c (view c s) (copy c s) d tl) ∧
    CompletesAsync (.xpushXe d n tl) [] tl
      (fun c s => readable encRecs encRecs c s ∧
        (s.encodes.filter fun j => j.core == c.core).length + (s.core c.core).xe.length < 16 ∧ encCardBad (card c) = false ∧
        (encode_ c s).formatErr = none ∧ s1.encRangeErr (view c s) (encode_ c s) = none)
      (fun c s => (State.modGroup { s1 with nextId := s1.nextId + 1, encodes := s1.encodes ++ [encode_ c s] } c.gid fun g =>
        { g with xeCount := g.xeCount + 1 }).takeSeq c 2 d tl) ∧
    CompletesAsync (.xpushXt d k n tl) [.regs k 8 8] tl
      (fun c s => c.g.hkind = 0 ∧ n.toNat % 2 = 0 ∧ ∀ l ∈ laneList c.em, s.lanesRays c.gid c.g.tag l < 4)
      (fun c s => (s.pushRays c (s.siteOf c.g c.cl.pc) k.toNat (c.g.sget n.toNat) (c.g.sget (n.toNat + 1))
        (laneList c.em)).takeSeq c 1 d tl)

/-- The pops of the engines and xstat (R301): a pop outside handlers is an operation that completes with its queue's next
record; xstat gives the free entries and the waiting records. -/
def EnginePops : Prop :=
  ∀ (v : BitVec 6) (d : BitVec 5) (slot : BitVec 3) (q : EngineQ),
    let outside : Ctx → State → Prop := fun c _ => c.g.hkind = 0
    let inside : Ctx → State → Prop := fun c _ => c.g.hkind ≠ 0
    let illegal : Ctx → State → Trap := fun c _ => c.trapAt 0x02 c.word
    let popped (p : Ctx → PopKind) (c : Ctx) (s : State) : State := s.launchAsync { c.async (some slot) with pop := some (p c) }
    CompletesAsync (.xpopXt v slot) [.regs v 8 8] (some slot) outside (popped fun c => .xt v.toNat c.em) ∧
    CompletesAsync (.xpopXe d slot) [] (some slot) outside (popped fun _ => .xe d.toNat) ∧
    CompletesAsync (.xpopXm d slot) [] (some slot) outside (popped fun _ => .xm d.toNat) ∧
    Completes (.xstat q d) [] none Always (fun c s => s.put c (c.g.sset d.toNat
      (BitVec.ofNat 64 ((s.queueCounts c q).2 % 2 ^ 16 * 2 ^ 16 + (s.queueCounts c q).1 % 2 ^ 16)))) ∧
    Traps (.xpopXt v slot) [.regs v 8 8] (some slot) inside illegal ∧ Traps (.xpopXe d slot) [] (some slot) inside illegal ∧
    Traps (.xpopXm d slot) [] (some slot) inside illegal

/-- csrr and csrw (R261, R262): a register of the table is read and written where it is reachable, EPC one element in each
lane of EM; where it is not, the instruction is illegal. -/
def ControlRegisters : Prop :=
  ∀ (csr : BitVec 24) (r : BitVec 5) (v : BitVec 6) (a : Operand),
    let reach : Ctx → State → Prop := fun c _ => csrReach csr c.g = true
    let hidden : Ctx → State → Prop := fun c _ => csrReach csr c.g = false
    let illegal : Ctx → State → Trap := fun c _ => c.trapAt 0x02 c.word
    Completes (.csrr (.s r) csr) [.dst (.s r) true] none reach (fun c s =>
      s.put c (c.g.sset r.toNat (csrValue (s.viewOf c.gid c.g) c.g csr.toNat))) ∧
    Completes (.csrr (.v v) csr) [.dst (.v v) true] none reach (fun c s =>
      s.put c (c.g.vset64Lanes v.toNat (fun l => NMap.get 0 c.g.epc l) (laneList c.em))) ∧
    Completes (.csrw csr a) [.src64 a] none (fun c _ => csrReach csr c.g = true ∧ csr ≠ 3) (fun c s =>
      s.put c (c.g.csrSet csr.toNat (c.bits64 a 0))) ∧
    Completes (.csrw csr a) [.src64 a] none (fun c _ => csrReach csr c.g = true ∧ csr = 3) (fun c s =>
      s.put c { c.g with epc := setLanes (NMap.set 0) (c.bits64 a) c.g.epc (laneList c.em) }) ∧
    Traps (.csrr (.s r) csr) [.dst (.s r) true] none hidden illegal ∧ Traps (.csrw csr a) [.src64 a] none hidden illegal

/-- The handler-only registers (R261): outside a handler none of ECAUSE to ESCR3 is reachable; in one every row of the table
is. -/
def HandlerRegisters : Prop :=
  ∀ (g : Group) (n : Nat), n < 24 →
    (g.hkind = 0 → n < 12 → n ≠ 6 → csrReach (BitVec.ofNat 24 n) g = false) ∧
    (g.hkind ≠ 0 → n < 12 ∨ 16 ≤ n ∧ n < 22 → csrReach (BitVec.ofNat 24 n) g = true) ∧
    (csrReach (BitVec.ofNat 24 n) g = true → n < 12 ∨ 16 ≤ n ∧ n < 22)

/-- The ends of asynchronous operations and of groups (R66, R131, R139, R151, R152, R155): an operation whose parts are done
delivers those of its values that have not landed before (which land early is free, log entry 28) and releases its slot; a
drained group leaves; an old bin closes; the oldest closed bin becomes a group, in a slot that is the model's choice (log
entry 91); under 16 and above stand a block's saved bins (log entry 88). -/
def Completions : Prop :=
  ∀ (s : State) (op gid core bin k : Nat) (a : AsyncOp) (g : Group) (b : Bin) (x : Block) (la : Launch),
    ((s.asyncs.find? fun y => y.id == op) = some a → s.asyncReady a = true →
      exec (.asyncComplete op) s = .next
        (let s0 := s.takePop a
         let s1 : State := { s0 with asyncs := s0.asyncs.filter fun y => y.id != op }
         (s1.modGroup a.gid fun g =>
            if g.tag = a.tag then
              (((g.landV ((s.asyncElems a).filter fun e => !a.landed.contains e.1)).landS
                ((a.sw ++ s.popScalar a).filter fun e => !a.landed.contains (sKey e.1))).landW
                (a.ww.filter fun e => !a.landed.contains (wKey e.1 e.2.1))).orFlags ((a.gfx.map fun x => gfxFlags x a.raw).getD 0)
            else g).releaseSlot a.gid a.tag a.slot)) ∧
    (s.group? gid = some g → g.draining = true → g.sbz = 0xFF →
      (s.asyncs.any fun y => y.gid == gid && y.tag == g.tag && y.mrd.isSome) = false →
      exec (.exitDrainingEnd gid) s = .next
        (let s1 := State.meshExit { s with
           groups := NMap.erase s.groups gid, rays := s.rays.filter fun r => r.gid != gid || r.tag != g.tag } gid g.tag g.blk
         let s2 := s1.modBlock g.blk fun b => { b with spawnTaken := b.spawnTaken - g.spawnHeld }
         let s3 := if ((s.launch? g.launch).map Launch.trace).getD false then
             s2.recordFree (dieOf g.core) 4 ((s.lastSite g).words ++ [g.lastPc, g.hash])
           else s2
         ((s3.leaveHash (s.hashOf gid g)).endRetire g).tryEndBlock g.blk)) ∧
    (((s.core core).bins.find? fun e => e.1 == bin) = some (bin, b) → b.closedAt = none → b.expires ≤ s.now →
      exec (.binTimeExpiry core bin) s = .next (s.modCore core fun c =>
        { c with bins := NMap.put c.bins bin { b with closedAt := some b.expires } })) ∧
    (s.block? b.blk = some x → (x.evicting = false ∨ x.starting = true) → x.saved = false → s.freeSpawnSlot x = some k →
      s.launch? x.launch = some la →
      (bin < 16 ∧ ((s.core core).bins.find? fun e => e.1 == bin) = some (bin, b) ∧ x.unstarted = [] ∧
          firstClosed s.now (s.core core).bins b.blk = some bin ∨
        16 ≤ bin ∧ b.blk = bin - 16 ∧ x.core = core ∧ x.unstarted.head? = some b) →
      ∃ t g', exec (.spawnedGroupStart core bin) s = .next t ∧
        t.group? (x.core * 48 + x.slots.getD (x.ngroups + k) 0) = some g' ∧
        g'.blk = b.blk ∧ g'.gix = x.ngroups + k ∧ g'.live = (maskOf fun l => decide (l < b.threads.length)) ∧
        g'.spawnHeld = b.threads.length)

/-- Requests in flight (R171, R184, R279, R380, R383, R385; what a gate counts as a missing entry is log entry 39): each is
performed at its array when nothing earlier holds it back, and its acknowledgement then ends it; a request at a replay gate
for more than 2^20 cycles is performed as a divergence, and a wait there diverges. -/
def RequestsInFlight : Prop :=
  ∀ (s : State) (gid req wb t : Nat) (r : Req) (w : WriteBack) (a : Access) (x : Wait),
    let remote (r : Req) : Prop := 64 ≤ r.arr ∧ r.arr < 2 ^ 20
    ((s.reqs.find? fun r => r.own && r.gid == gid && !r.todo.isEmpty) = some r → s.reqReady r = true →
      exec (.tileAccessPerformed gid) s = .next (s.gated r)) ∧
    (s.req? req = some r → r.own = false → ¬ remote r → r.counterFirst = false → s.reqReady r = true →
      exec (.atomicAtHome req) s = .next (s.gated r)) ∧
    (s.req? req = some r → r.own = false → remote r → r.counterFirst = false → s.reqReady r = true →
      exec (.remoteAccess req) s = .next (s.gated r)) ∧
    (s.req? req = some r → r.counterFirst = true → s.reqReady r = true →
      exec (.counterAdditionAtHome req) s = .next (s.gated r)) ∧
    (s.req? req = some r → r.arrived.isSome = true → s.reqReady r = true → exec (.orderGate req) s = .next (s.gated r)) ∧
    (s.req? req = some r → r.arrived = some t → r.todo.head? = some a → t + 2 ^ 20 < s.now → s.reqReady r = true →
      exec (.gateTimeout req) s = .next
        ((s.diverge r.launch (dieOf (r.core % 8192)) (s.homeOf a.addr) r.ident 3 r.site).performHead r)) ∧
    (s.req? req = none → (s.ctrWaits.find? fun y => y.id == req) = some x → x.arrived = some t → t + 2 ^ 20 < s.now →
      (s.stream x.launch (s.homeOf x.addr)).free = false → exec (.gateTimeout req) s = .next (s.waitDiverge x 3)) ∧
    exec (.storeAck req) s = .next
      { s with reqs := s.reqs.filter fun r => r.id != req || !r.todo.isEmpty || !r.acked } ∧
    ((s.wbs.find? fun w => w.id == wb) = some w → s.peerDown (w.line * 128) = false →
      (∀ y ∈ s.wbs, y.id = w.id ∨ s.wbAhead y w = false) →
      (arrayOf (w.line * 128) < 2 ^ 20 ∨ ∀ r ∈ s.reqs, r.core ≠ w.core ∨ r.arr ≠ arrayOf (w.line * 128) ∨ r.todo = [] ∨
        r.arrived ≠ none ∨ w.id < r.id) →
      exec (.writeBackAtHome wb) s = .next (s.performWb w))

/-- Copy and encoder jobs (R304 to R318, R345, R346): a job starts on a free engine of its cluster when no earlier job holds
it back; its granules land one by one; it leaves when all have landed and its additions are performed. An encoder job fills
its blocks, sends its counter addition, and leaves a record once that is performed. When a copy job reads (log entry 69) and
when the encoder reads and writes (log entry 71) are the model's choice. -/
def EngineJobs : Prop :=
  ∀ (s s1 s2 s3 : State) (job engine die n m : Nat) (j j1 : CopyJob) (e : EncJob) (g : Granule) (rest : List Granule)
    (ids : List Nat) (ws left : List (W64 × List Byte)),
    let cands := if (j.todo.filter fun g => !g.sums).isEmpty then j.todo else j.todo.filter fun g => !g.sums
    let v := s.copyView j
    ((s.copies.find? fun j => j.id == job) = some j → j.engine = none → engine < 8 →
      (s.copies.any fun i => clusterOf i.core == clusterOf j.core && i.engine == some engine) = false →
      (s.copiesBefore j).any j.after = false →
      exec (.copyJobStart job engine) s = .next
        (let started : CopyJob := { j with engine := some engine }
         let r := s.copyAhead (s.copyView started) started j.sources
         r.2.putCopy r.1)) ∧
    ((s.copies.find? fun j => j.id == job && j.engine.isSome) = some j →
      cands.drop (s.pick cands.length).1 = g :: rest →
      let read := (s.pick cands.length).2.copyAhead v j j.sources
      let others := cands.take (s.pick cands.length).1 ++ rest ++
        if (j.todo.filter fun g => !g.sums).isEmpty then [] else j.todo.filter Granule.sums
      read.2.landItems v { read.1 with todo := others } g.items = .ok (j1, s1) →
      (j.dataBytes g = 0 → exec (.granuleLanded job) s = .next (s1.settleLines v j1)) ∧
      (j.dataBytes g ≠ 0 → s1.copyAdd v j1 6 (j.dataBytes g) = .ok (ids, s2) →
        exec (.granuleLanded job) s = .next (s2.settleLines v { j1 with adds := j1.adds ++ ids }))) ∧
    ((s.copies.find? fun j => j.id == job && j.engine.isSome) = some j → j.todo = [] →
      (j.adds.any fun n => s.reqs.any fun r => r.id == n) = false → s.copyAdd v j 7 1 = .ok (ids, s1) →
      ∃ t, exec (.copyJobComplete job) s = .next t ∧
        t = (let s2 : State := State.traceEngine { s1 with copies := s1.copies.filter fun i => i.id != job } j.launch 8 0 j.site
             s2.tryEndBlocks (s2.blocks.map (·.1)))) ∧
    (s.firstEncode die = some e → e.out = none → s.encBlocks (s.encView e) e 0 e.starts = .ok ((ws, n), s1) →
      s1.encSome (s.encView e) ws = .ok (left, s2) →
      exec (.encoderJob die) s = .next
        { s2 with encodes := s2.encodes.map fun i => if i.id = e.id then { i with out := some (left, n) } else i }) ∧
    ((s.encodes.find? fun j => j.id == job) = some e → e.out = some (left, n) →
      let ended (t : State) : State :=
        (State.traceEngine { t with encodes := t.encodes.filter fun i => i.id != job } e.launch 8 2 e.site).modCore e.core
          fun c => { c with xe := c.xe ++ [(e.launch, e.site.seq ++ BitVec.ofNat 16 n ++ 0#16)] }
      (e.added = none → s.encAll (s.encView e) left = .ok s1 → cardWord e.card 7 = 0 →
        exec (.encoderJobComplete job) s = .next (ended s1)) ∧
      (e.added = none → s.encAll (s.encView e) left = .ok s1 → cardWord e.card 7 ≠ 0 →
        s1.engAdd (s.encView e) e.id e.site e.ident (cardWord e.card 7) 1 = .ok (m, s2) →
        exec (.encoderJobComplete job) s = .next
          { s2 with encodes := s2.encodes.map fun (i : EncJob) => if i.id = e.id then { i with out := some ([], n), added := some m } else i }) ∧
      (e.added = some m → (s.reqs.any fun r => r.id == m) = false → exec (.encoderJobComplete job) s = .next (ended s)))

/-- Rendering's own steps (R352 to R358, R405 to R413): a primitive is binned and appended, a ready pass is granted to a
waiting block, its sequence runs, verdicts are written, the tile retires. -/
def Rendering : Prop :=
  ∀ (s s1 : State) (prim slot tile blk die ap core launch : Nat) (cores : List Nat) (p : Prim) (x : RenderPass) (w : Nat)
    (ts : List Nat) (t : Nat) (final : Bool) (hi : W64) (o : TilePass) (b : Block) (la : Launch) (r : Retire) (h : NMap W32) (n : Nat),
    ((s.prims.find? fun p => p.id == prim && p.tiles.isNone) = some p → s.runningPass p.slot = some x →
      s.recHeld p.e.at_ = false → s.statusHeld x = false → s.recRead p.e.at_ = .ok w →
      exec (.primitiveBin prim) s = .next (match binTiles x.p p.e.pid p.cull w with
        | some ts =>
          let s' := s.recSeen p.e.at_
          { s' with prims := s'.prims.map fun q => if q.id = p.id then { q with tiles := some ts } else q }
        | none =>
          let s' := (s.recSeen p.e.at_).passCount p.slot 2 1
          { s' with prims := s'.prims.map fun q => if q.id = p.id then { q with tiles := some [] } else q })) ∧
    ((s.prims.find? fun p => p.id == prim && p.slot == slot) = some p → p.tiles = some ts → s.primFirst p = true →
      (∀ y, s.runningPass slot = some y → s.listHeld y = false) →
      exec (.listAppend slot prim) s = .next ((s.appendTiles p ts).pump slot)) ∧
    (s.launch? launch = some la → la.mesh = true → s.servesNow launch [core] = true →
      exec (.meshGroupStart launch core) s = .next (s.startMesh launch [core])) ∧
    (s.launch? launch = some la → la.mesh = false → s.servesNow launch cores = true →
      exec (.blockPlacement launch cores) s = .next (s.placeNext launch cores)) ∧
    (s.runningPass slot = some x → s.nextGrant slot x = some ((t, final, hi), blk) →
      exec (.tilePassGrant slot) s = .next
        (let s1 : State := { s with tileReqs := s.tileReqs.filter fun q => q.blk != blk }
         ((s1.modTile slot t fun y => { y with out := some { newTilePass final hi with owner := some blk } }).modPass slot fun x =>
            { x with forced := x.forced.filter fun k => k != t }).modBlock blk fun b =>
          { b with pass := some (slot, t), tret := b.tret.map fun r => (r.1, r.2.1, r.2.2.1, true) })) ∧
    (s.runningPass slot = some x → (x.tile tile).out = some o → o.owner = some blk → s.block? blk = some b →
      s.launch? b.launch = some la → o.started = false → s.tileHeld la x tile o.todo = false →
      (o.began = true → exec (.startSequence slot tile) s = .next (s.runTile slot tile blk b x o)) ∧
      (o.began = false → s.beginTile b la x tile = .ok (s1, h) → exec (.startSequence slot tile) s = .next
        (s1.modOut slot tile fun o => { o with began := true, hiz := h, todo := x.work tile (x.tile tile).lo o.hi }))) ∧
    (s.runningPass slot = some x → s.outOf slot tile = some o → o.owner.bind s.block? = some b → o.covGot ≠ [] →
      ∀ e, o.cur = some e → s.recHeld e.at_ = false → s.recRead e.at_ = .ok w → exec (.coverageVerdictWrite slot tile) s = .next
        (let ws := match rasterTri w with
           | none => []
           | some tri => (tri.samples (passSamples x.p) (tileCol x.p tile) (tileRow x.p tile)).filter fun v =>
               o.covGot.any fun g => g / 16 == v.1 && (g % 16).testBit v.2.1
         ((s.recSeen e.at_).putSamples (visBase b x.p) e.pid ws).modOut slot tile fun o =>
           { o with covGot := [], hiz := widenHiz o.hiz ws })) ∧
    ((s.retires.find? fun r => r.blk == blk) = some r → s.block? blk = some b → b.starting = false →
      (r.pub = none → (r.waits.any fun w => s.inFlight w) = false → exec (.retirementComplete blk) s = .next
        (let p := s.publish b.core r.gid b.launch .sys 0 .nothing
         { p.2 with retires := p.2.retires.map fun x => if x.blk = blk then { x with pub := some p.1 } else x })) ∧
      (r.pub = some n → (s.pubs.any fun q => q.id == n) = false → s.retireHeld b = false → s.retireTile blk b r = .ok s1 →
        exec (.retirementComplete blk) s = .next (s1.endRetirement blk r))) ∧
    (∀ y, ((s.die die).apWrites.find? fun w => w.ap == ap) = some y →
      exec (.tileWrite die ap) s = .next (s.performApWrites die [y]))

/-- The start of a command (R391 to R396): the command at HEAD of an enabled queue starts, and its event comes next; one that
is not legal stops the queue with its reason, and so does a TAIL too far ahead of HEAD, also while a WAIT is in progress.
Nothing starts while another event of the queue waits for the firmware. When HEAD is incremented and why a command is at fault
are the model's readings (log entries 53 and 54). -/
def CommandStart : Prop :=
  ∀ (s : State) (q : Nat) (i : Instr) (e : CmdErr),
    let x := s.queue q
    let c := x.head.toNat
    let k := (List.range 8).map fun n => s.load64 (x.slotAddr c + 8 * n)
    let free : Prop := ∀ e ∈ s.fwEvents, e.queue = some q → e = .start q
    let due : Prop := free ∧ x.enabled = true ∧ x.stopped = false ∧ c < x.tail.toNat ∧ ∀ y ∈ x.cmds, y.num ≠ c
    let starts : Prop := due ∧ ∀ y ∈ x.cmds, y.waits = false
    let held : Prop := ((cmdWord k 0).getLsbD 55 = true ∧ x.cmds ≠ []) ∨ s.passHolds k = true
    let size := 2 ^ ((x.read 0).toNat % 32)
    (starts → x.tail.toNat ≤ c + size → x.slotAddr c + 64 ≤ s.capacity → ¬ held → commandEvent q c k = .ok i →
      exec (.commandStart q) s = .next
        (let s1 := s.modQueue q fun y =>
           { y with cmds := y.cmds ++
               [{ num := c, words := k, first := 0, count := 0, nodes := [], counters := [], succWords := [], blocks := [],
                  gang := none, begun := false }] }
         { s1 with agenda := .event i :: s1.agenda })) ∧
    (starts → x.tail.toNat ≤ c + size → x.slotAddr c + 64 ≤ s.capacity → ¬ held → commandEvent q c k = .error e →
      exec (.commandStart q) s = .next (s.stopQueue q e.reason c true)) ∧
    (due → c + size < x.tail.toNat → exec (.commandStart q) s = .next (s.stopQueue q 2 c true)) ∧
    (¬ free → exec (.commandStart q) s = .next s)

/-- The commands other than DEBUG (R393, R398, R405): each, found in progress, has its effect and completes; HEAD passes it
with its first step. The reasons of operands (log entry 54), the held walks of MIGRATE (55) and the remembered ABORT of GANG
(61) are the model's readings; that HEAD is incremented at the first step is log entry 53. -/
def Commands : Prop :=
  ∀ (s s1 : State) (q c first count slot victim die ap a : Nat) (va x k1 k2 k3 ctl vbase size pbase dim : W64) (cmd : Cmd)
    (p : List W64) (g : Gang),
    let root := (s.queue q).root
    let asn := (s.queue q).asn
    let did (t : State) : State := t.started q c
    s.cmd? q c = some cmd →
    exec (.nopCommand q c) s = .next (did (s.completeCmd q c)) ∧
    (cmd.begun = false → s.doneHeld asn first count = false → exec (.launch q c first count) s = .next (did (s.startNodes q c first count))) ∧
    (va.toNat % 8 = 0 → s.rangeHeld asn va.toNat 8 = true →
      exec (.signal q c va x) s = .next (did s) ∧ exec (.wait q c va x) s = .next (did s)) ∧
    (va.toNat % 8 = 0 → s.rangeHeld asn va.toNat 8 = false → s.hubAdd root va.toNat x = some (false, s1) →
      exec (.signal q c va x) s = .next (did (s1.completeCmd q c))) ∧
    (va.toNat % 8 = 0 → s.rangeHeld asn va.toNat 8 = false → s.hubAdd root va.toNat x = some (true, s1) →
      exec (.signal q c va x) s = .next (did (s1.failCommand q c .overflow))) ∧
    (va.toNat % 8 = 0 → s.rangeHeld asn va.toNat 8 = false → s.tableHome root va.toNat false = some a → s.peerDown a = false → x.toNat ≤ (s.load64 a).toNat →
      exec (.wait q c va x) s = .next (did (s.completeCmd q c))) ∧
    (va.toNat % 8 = 0 → s.rangeHeld asn va.toNat 8 = false → s.tableHome root va.toNat false = some a → s.peerDown a = false → (s.load64 a).toNat < x.toNat →
      exec (.wait q c va x) s = .next (did s)) ∧
    (cmd.begun = false → s.runningPass slot = none → va.toNat % 8 = 0 → s.rangeHeld asn va.toNat 64 = false → s.readPass root va.toNat = some p → passOk p = true →
      exec (.rpass q c slot va) s = .next
        (let pass : RenderPass :=
           { queue := q, cmd := c, asn := asn, root := root, p := p, running := true, failed := false, ended := false,
             groups := [], chunks := [], tiles := [], forced := [], heldSince := none }
         did (State.modCmd { s with passes := NMap.put s.passes slot pass } q c fun y => { y with begun := true }))) ∧
    ((s.runningPass slot).isSome = true →
      exec (.rpend q c slot) s = .next (did ((s.modPass slot fun y => { y with ended := true }).completeCmd q c))) ∧
    (cmd.begun = false → va.toNat % 8 = 0 → exec (.preempt q c victim va) s = .next
      (let s0 := s.copyTable va.toNat victim 128
       let s1 := s0.modQueue victim fun y => { y with mask := s0.maskTable (maskBase victim) }
       did (((s1.requestEvicts (s1.forbidden victim)).modCmd q c fun y =>
         { y with blocks := s1.forbidden victim, begun := true }).settlePreempts))) ∧
    (cmd.begun = false → exec (.shootdown q c va x) s = .next
      (did ((s.dropRange asn va.toNat x.toNat).modCmd q c fun y => { y with begun := true, blocks := s.openAccesses }))) ∧
    (cmd.begun = true → s.performed cmd.blocks = true → exec (.shootdown q c va x) s = .next (did (s.completeCmd q c)) ∧
      exec (.migrate q c va x) s = .next (did (s.completeCmd q c))) ∧
    (cmd.begun = false → exec (.migrate q c va x) s = .next
      (let s1 := (s.dropRange asn va.toNat x.toNat).flushPages (s.homePages root va.toNat x.toNat) (s.cores.map (·.1))
       did (State.modCmd { s1 with migrating := s1.migrating ++ [(asn, va.toNat, x.toNat)] } q c fun y =>
         { y with begun := true, blocks := s1.openAccesses ++ s1.wbs.map WriteBack.id }))) ∧
    exec (.release q c va x) s = .next (did (State.completeCmd
      { s with migrating := s.migrating.filter fun r => r != (asn, va.toNat, x.toNat) } q c)) ∧
    (cmd.begun = false → s.gangOf k1 k2 k3 = .ok g → s.aborted.contains g.tag = false →
      exec (.gang q c first count k1 k2 k3) s = .next
        (did ((s.modCmd q c fun y => { y with gang := some g }).startNodes q c first count))) ∧
    (∃ s1, s1 = s.killAllNow 0x35 x ((s.launches.filter fun (e : Nat × Launch) => e.2.queue == q).map (·.1)) ∧
      exec (.kill q c x) s = .next (did ((s1.endLaunches q ((s1.queue q).cmds.map Cmd.num)).completeCmd q c))) ∧
    (s.throughAperture die ap = false → exec (.aperture q c die ap ctl vbase size pbase dim) s = .next
      (did ((s.writeAperture die ap (apertureOf ctl vbase size pbase dim)).completeCmd q c))) ∧
    (let report := if s.leavesUsed < leaves then Config.attestReport (Memory.reads s.mem va.toNat 32) s.leavesUsed
       else Config.attestStatus 7
     (va.toNat + 32 ≤ s.capacity → x.toNat + report.length ≤ s.capacity →
       (s.leavesUsed < leaves → exec (.attest q c va x) s = .next (did (State.completeCmd
         { s.storeBytes x.toNat report with leavesUsed := s.leavesUsed + 1 } q c))) ∧
       (leaves ≤ s.leavesUsed → exec (.attest q c va x) s = .next (did ((s.storeBytes x.toNat report).completeCmd q c)))) ∧
     (s.capacity < va.toNat + 32 ∨ s.capacity < x.toNat + report.length →
       exec (.attest q c va x) s = .next (did (s.failCommand q c .operand))))

/-- The end of a node (R398): once its blocks have ended and its jobs are done it publishes, then completes; in its event the
firmware starts the nodes that depend on it (R396). -/
def NodeEnds : Prop :=
  ∀ (s : State) (launch core : Nat) (la : Launch) (ids : List Nat) (rest : List FwEvent),
    let count := ((s.cmd? la.queue la.cmd).map Cmd.count).getD 0
    let fw : State := { s with fwEvents := rest }
    let ended := fw.finishNode launch la
    (s.launch? launch = some la → la.held = false → la.nblocks ≤ la.finished → s.jobsOpen launch = false →
      (la.pubs = none → exec (.nodeComplete launch) s = .next
        (let r := s.publishAll launch la.cores
         r.2.modLaunch launch fun x => { x with pubs := some r.1 })) ∧
      (la.pubs = some ids → (s.pubs.any fun p => ids.contains p.id) = false → exec (.nodeComplete launch) s = .next
        (State.pushFw { s with launches := NMap.erase s.launches launch } (.completed launch la)))) ∧
    (core < 12 → s.fwWorn.contains core = false → s.verified = true →
      s.fwNext [] s.fwEvents = some (.completed launch la, rest) → exec (.firmwareEvent core) s = .next
        ((ended.1.launchNodes la.queue la.cmd (2 * count + 2) ended.2).settleCmd la.queue la.cmd))

/-- The DEBUG commands and their records (R368 to R378, R394). Which way a resumed group goes is free (log entry 50), what the
image of a group's state holds is the model's reading (51), so are the reasons of the commands and that one which finds no
halted group completes without effect (52); words of a record that no rule lays out are free (19). -/
def DebugCommands : Prop :=
  ∀ (s : State) (q c die core gid slice pa cls unit reqDie : Nat) (k1 k2 : W64) (cmd : Cmd) (g : Group) (write : Bool)
    (r : Nat × List W64 × List W64) (rest : List (Nat × List W64 × List W64)) (ring : DebugRing),
    let did (t : State) : State := (t.completeCmd q c).started q c
    let words (n : Nat) : List W64 := s.physWords k2 n
    let field (lo : Nat) : Nat := (((words 1).getD 0 0).extractLsb' lo 5).toNat
    (s.cmd? q c = some cmd →
      (s.physOk k2 8 = true → 8 ≤ field 0 → field 0 ≤ 24 → 4 ≤ field 8 → field 8 ≤ 20 →
        exec (.debugSampling q c k1 k2) s = .next
          (did (s.setSampling (debugDie k1) (field 0) (field 8)))) ∧
      (s.physOk k2 40 = true → s.ringError (words 5) = none → exec (.debugRing q c k1 k2) s = .next
        (let ring : DebugRing :=
           { base := ((words 5).getD 0 0).toNat, n := ((words 5).getD 1 0).toNat, written := ((words 5).getD 2 0).toNat,
             consumed := ((words 5).getD 3 0).toNat }
         did ((((s.store64 ring.written 0).store64 (ring.written + 8) 0).store64 ring.consumed 0).modDie (debugDie k1) fun d =>
           { d with ring := some ring }))) ∧
      (s.physOk k2 256 = true → debugCore k1 = some core →
        (∀ w ∈ (words 32).drop 24, (w.extractLsb' 20 4).toNat ≤ 12) →
        exec (.debugBreakpoints q c k1 k2) s = .next
          (did (s.modCore core fun x => x.setDebugs 0 (words 32)))) ∧
      (s.physOk k2 64 = true → exec (.debugPredicate q c k1 k2) s = .next
        (did (s.modDie (debugDie k1) fun d => { d with preds := putWords d.preds (k1.toNat % 256 * 8) (words 8) }))) ∧
      (s.physOk k2 32 = true → k1.toNat % 256 < s.l2n → (∀ w ∈ words 4, w.extractLsb' 48 2 = 0) →
        exec (.debugL2Watch q c k1 k2) s = .next (did (s.modDie (debugDie k1) fun d =>
          { d with l2w := putWords d.l2w (k1.toNat % 256 * 4) ((words 4).map fun w => w &&& 0x0003FFFFFFFFFFFF) }))) ∧
      (debugGixOk k1 = true → s.haltedGroup k1 = some (gid, g) →
        (∃ n t, (t = (s.pick n).2.setGroup gid g.resumeHalt ∨ t = (s.pick n).2.debugHalted gid g) ∧
          exec (.debugResume q c k1 0) s = .next (did t)) ∧
        (s.physOk k2 (s.imageSize gid g) = true →
          exec (.debugReadState q c k1 k2) s = .next (did (s.storeBytes k2.toNat (s.image gid g))) ∧
          exec (.debugWriteState q c k1 k2) s = .next
            (did (s.writeImage gid g (Memory.reads s.mem k2.toNat (s.imageSize gid g)))))) ∧
      (debugGixOk k1 = true → s.haltedGroup k1 = none →
        ∀ i ∈ [Instr.debugResume q c k1 k2, .debugReadState q c k1 k2, .debugWriteState q c k1 k2], exec i s = .next (did s))) ∧
    ((s.die die).records = r :: rest → (s.die die).ring = some ring →
      (s.load64 ring.written).toNat - Nat.min (s.load64 ring.consumed).toNat (s.load64 ring.written).toNat < 2 ^ ring.n →
      exec (.debugRecord die) s = .next
        (((s.modDie die fun x => { x with records := rest }).storeWords
          (ring.base + 64 * ((s.load64 ring.written).toNat % 2 ^ ring.n)) (recordWords r.1 r.2.1 r.2.2)).store64 ring.written
          (s.load64 ring.written + 1))) ∧
    ((s.die die).records = r :: rest → (s.die die).ring = some ring →
      2 ^ ring.n ≤ (s.load64 ring.written).toNat - Nat.min (s.load64 ring.consumed).toNat (s.load64 ring.written).toNat →
      exec (.debugRecord die) s = .next ((s.modDie die fun x => { x with records := rest }).store64 (ring.written + 8)
        (s.load64 (ring.written + 8) + 1))) ∧
    (s.homeOf pa = [2, die, slice] → s.l2n ≠ 0 → pa < 2 ^ 48 → unit < l2Units cls → s.l2Sees pa (write || cls == 1) = true →
      exec (.l2WatchHit die slice pa write cls unit reqDie) s = .next (s.record (pa / 4096 % 16) 9 [BitVec.ofNat 64 pa,
        BitVec.ofNat 64 (reqDie % 256 * 2 ^ 56 + cls % 256 * 2 ^ 48 + unit % 2 ^ 16 * 2 ^ 32 +
          if write || cls == 1 then 1 else 0)])) ∧
    (∀ slot n, (s.die (dieOf core)).pcRate = some n →
      (s.die (dieOf core)).pcSince + ((s.core core).pcTaken + 1) * 2 ^ n ≤ s.now →
      ((List.range 48).findSome? fun i => (s.group? (core * 48 + ((s.core core).lastSampled + 1 + i) % 48)).map fun g =>
        (((s.core core).lastSampled + 1 + i) % 48, g)) = some (slot, g) →
      exec (.pcSample core) s = .next
        (let x := s.statusSite g
         let s1 := s.modCore core fun y => { y with pcTaken := y.pcTaken + 1 }
         (s1.modCore core fun y => { y with lastSampled := slot }).recordAt (dieOf core) 1
           [x.pc, x.sample1 (256 * s.statusCode g), BitVec.ofNat 64 (x.block % 2 ^ 32 + x.launch * 2 ^ 32)] x.words))

/-- What the hosts do at their ports (R388 to R392, R400, R401): with the firmware verified, writes to TAIL, the semaphores,
EVHEAD, QD1, the registers and memory have their effects, a TAIL write that is narrow or misaligned and an access beyond the
capacity get an error response, and the reads that change the machine change it and are answered. -/
def HostPorts : Prop :=
  ∀ (s : State) (q n port surface off pa size : Nat) (x value : W64) (bytes : List Byte) (aligned : Bool),
    let y := s.queue q
    s.verified = true →
    (q < 1024 → x ≠ 0 → y.tail.toNat + x.toNat < 2 ^ 64 → exec (.tailWrite q x 8 true) s = .next
      (((s.respond 2 false).modQueue q fun y => { y with tail := BitVec.ofNat 64 ((s.queue q).tail.toNat + x.toNat) }).pushFw (.start q))) ∧
    (q < 1024 → x ≠ 0 → 2 ^ 64 ≤ y.tail.toNat + x.toNat →
      exec (.tailWrite q x 8 true) s = .next ((s.respond 2 false).pushFw (.overflow q))) ∧
    (q < 1024 → size ≠ 8 ∨ aligned = false → exec (.tailWrite q x size aligned) s = .next (s.respond 2 true)) ∧
    (n < 32 → NMap.get 0 s.sems n = 0 → s.portsDown = [] →
      exec (.semRead n true false) s = .next ((s.takeSem n 0 false).reply 0 (semWord 1 true)) ∧
      exec (.semRead n false true) s = .next ((s.takeSem n 1 false).reply 1 (semWord 2 true)) ∧
      ∀ w, NMap.get 0 s.semLost n = w → w < 2 → exec (.semRead n true true) s = .next
        (((s.takeSem n w true).reply 0 (semWord (w + 1) (w == 0))).reply 1 (semWord (w + 1) (w == 1)))) ∧
    (n < 32 → NMap.get 0 s.sems n ≠ 0 → s.portsDown = [] → exec (.semRead n true true) s = .next
      ((s.reply 0 (semWord (NMap.get 0 s.sems n) false)).reply 1 (semWord (NMap.get 0 s.sems n) false))) ∧
    (n < 32 → port < 2 → value.extractLsb' 0 2 = 0 → NMap.get 0 s.sems n = port + 1 →
      exec (.semWrite n port value) s = .next { s with sems := NMap.put s.sems n 0 }) ∧
    (q < 1024 → y.evhead.toNat ≤ value.toNat → value.toNat ≤ y.evcnt.toNat →
      exec (.evheadWrite q value) s = .next (s.modQueue q fun y => { y with evhead := value })) ∧
    (q < 1024 → y.enabled = true → value.getLsbD 0 = false →
      exec (.queueEnable q value) s = .next (s.modQueue q fun y => y.setWord 1 (y.word 1 &&& ~~~1))) ∧
    (q < 1024 → y.enabled = false → value.getLsbD 0 = true →
      (y.setWord 1 ((y.word 1 &&& 2) ||| (value &&& qd1Mask))).canEnable = true →
      exec (.queueEnable q value) s = .next ((s.modQueue q fun _ =>
        (y.setWord 1 ((y.word 1 &&& 2) ||| (value &&& qd1Mask))).enable (s.maskTable (maskBase q))).pushFw (.start q))) ∧
    (q < 1024 → exec (.ndropRead q) s = .next
      ((s.modQueue q fun y => y.setWord 6 (((y.word 6).extractLsb' 0 32).setWidth 64)).reply 2 (y.word 6))) ∧
    (surface < 8 → exec (.mmissRead surface) s = .next (State.reply
      { s with misses := NMap.set 0 s.misses surface 0 } 2 (BitVec.ofNat 64 (NMap.get 0 s.misses surface)))) ∧
    (off % 8 = 0 → 0x20000 ≤ off → off < 0x30000 → off / 8 % 8 ≠ 1 → off / 8 % 8 < 6 →
      (s.queue ((off - 0x20000) / 64)).enabled = false → exec (.registerWrite off value) s = .next
        (s.modQueue ((off - 0x20000) / 64) fun y => y.setWord (off / 8 % 8) (value &&& qdMask (off / 8 % 8)))) ∧
    (off % 8 = 0 → 0x800000 ≤ off → off < 0x1000000 → exec (.registerWrite off value) s = .next (s.setHub off value)) ∧
    (port < 2 → s.portsDown.contains port = false →
      (pa + bytes.length ≤ s.capacity → exec (.hostWrite port pa bytes) s = .next
        (((s.respond port false).l2See pa bytes.length true (9, port) 0).storeBytes pa bytes)) ∧
      (s.capacity < pa + bytes.length → exec (.hostWrite port pa bytes) s = .next (s.respond port true)))

/-- A package whose firmware is not verified exposes only the boot status register (R405): it ignores its hosts (log entry
56). -/
def UnverifiedHosts : Prop :=
  ∀ (s : State) (q n port surface off pa size : Nat) (x value : W64) (bytes : List Byte) (a b : Bool), s.verified = false →
    ∀ i ∈ [Instr.tailWrite q x size a, .semRead n a b, .semWrite n port value, .evheadWrite q value, .queueEnable q value,
        .ndropRead q, .mmissRead surface, .leave value, .registerWrite off value, .hostWrite port pa bytes],
      exec i s = .next s

end Sys2Proof.Claims

open Sys2Proof Sys2Proof.Machine

/-- Integer arithmetic, division, selection and wide sums give their exact results, wrapped or clamped: each part says what it
states. -/
def Obligations.IntegerResults : Prop :=
  Claims.IntegerArithmetic ∧ Claims.IntegerDivision ∧ Claims.IntegerSelection ∧ Claims.WideSums

/-- Compares, logic, shifts, bit fields and moves give the bits of their entries: each part says what it states. -/
def Obligations.LogicResults : Prop :=
  Claims.IntegerCompare ∧ Claims.Logic ∧ Claims.Shifts ∧ Claims.BitFields ∧ Claims.Moves

/-- Floating-point arithmetic, selection, tests and functions complete; each arithmetic result is rounded in its type, half by
half for packed types: each part says what it states. -/
def Obligations.FloatResults : Prop :=
  Claims.FloatArithmetic ∧ Claims.FloatMixed ∧ Claims.FloatSelection ∧ Claims.FloatTests ∧ Claims.Transcendentals

/-- What the functions of R88 deliver: the exact cases, the bounds and the flags of its table. The values of the five
functions (R88): each exact case of the table with its flags; the canonical NaN of a NaN; and elsewhere a value within the
bound of the table, with IX. The bound is measured at the model's fixed-point value of the function, and which value within it
is given is free (log entry 6). The f16 and bf16 forms round the FP32 result. -/
def Obligations.FloatFunctions : Prop :=
  ∀ (a : W32) (n quietless : Bool) (m : Nat) (e k : Int) (f : Func) (fmt : Fmt) (code : Nat),
    let p := m * 2 ^ e.toNat
    let q := 2 ^ (-e).toNat
    let one (neg : Bool) : Nat := if neg then 0xBF800000 else 0x3F800000
    let zero (neg : Bool) : Nat := if neg then 0x80000000 else 0
    let power (k : Int) : Nat := if -126 ≤ k then (k + 127).toNat * 2 ^ 23 else 2 ^ (k + 149).toNat
    let integer (k : Int) : Nat := (fp32.ofInt .rn false k).1
    -- a is the finite number ±p/q, not zero
    let finite : Prop := fp32.dec a.toNat = .fin n m e ∧ m ≠ 0
    let whole : Prop := p % q = 0
    let half : Prop := 2 * p % q = 0 ∧ ¬ whole
    let near (ulps : Nat) (x : Exact) : Prop :=
      withinUlps ulps (offGrid x) (funcFp32 f a).1 = true ∧ (funcFp32 f a).2 &&& fIX = fIX
    let opposite (x : Exact) : Exact := match x with
      | .num g u v => .num (n != g) u v
      | x => x
    (fp32.dec a.toNat = .nan quietless → funcFp32 f a = (0x7FC00000, if quietless then fIV else 0)) ∧
    -- the exact cases
    funcFp32 .exp2 0 = (one false, 0) ∧ funcFp32 .exp2 0x80000000 = (one false, 0) ∧
    (-149 ≤ k → k ≤ 127 → funcFp32 .exp2 (BitVec.ofNat 32 (integer k)) = (power k, 0)) ∧
    funcFp32 .exp2 0xFF800000 = (0, 0) ∧ funcFp32 .exp2 0x7F800000 = (0x7F800000, 0) ∧
    (finite → n = false → 128 * q ≤ p → funcFp32 .exp2 a = (0x7F800000, fOF ||| fIX)) ∧
    (finite → n = true → 150 * q ≤ p → whole → funcFp32 .exp2 a = (0, fUF ||| fIX)) ∧
    (-149 ≤ k → k ≤ 127 → funcFp32 .log2 (BitVec.ofNat 32 (power k)) = (integer k, 0)) ∧
    funcFp32 .log2 0 = (0xFF800000, fDZ) ∧ funcFp32 .log2 0x80000000 = (0xFF800000, fDZ) ∧
    funcFp32 .log2 0x7F800000 = (0x7F800000, 0) ∧ funcFp32 .log2 0xFF800000 = (0x7FC00000, fIV) ∧
    (finite → n = true → funcFp32 .log2 a = (0x7FC00000, fIV)) ∧
    funcFp32 .sinpi 0 = (0, 0) ∧ funcFp32 .sinpi 0x80000000 = (0x80000000, 0) ∧
    (finite → whole → funcFp32 .sinpi a = (zero n, 0)) ∧
    (finite → half → funcFp32 .sinpi a = (one (n != (p / q % 2 == 1)), 0)) ∧
    funcFp32 .cospi 0 = (one false, 0) ∧ funcFp32 .cospi 0x80000000 = (one false, 0) ∧
    (finite → whole → funcFp32 .cospi a = (one (p / q % 2 == 1), 0)) ∧ (finite → half → funcFp32 .cospi a = (0, 0)) ∧
    (∀ g ∈ [Func.sinpi, .cospi], funcFp32 g 0x7F800000 = (0x7FC00000, fIV) ∧ funcFp32 g 0xFF800000 = (0x7FC00000, fIV)) ∧
    funcFp32 .tanh 0 = (0, 0) ∧ funcFp32 .tanh 0x80000000 = (0x80000000, 0) ∧
    funcFp32 .tanh 0x7F800000 = (one false, 0) ∧ funcFp32 .tanh 0xFF800000 = (one true, 0) ∧
    (finite → 73 * q ≤ 8 * p → funcFp32 .tanh a = (one n, 0)) ∧
    -- the bounds elsewhere
    (finite → ¬ whole → (n = false → p < 128 * q) → (n = true → p < 1000 * q) → f = .exp2 →
      near 1 (approxExp2 n p q) ∨
        (fp32.deliver .rn false (approxExp2 n p q)).2.getLsbD 2 = true ∧ funcFp32 f a = (0x7F800000, fOF ||| fIX)) ∧
    (finite → n = false → m ≠ 2 ^ Nat.log2 m → f = .log2 →
      (withinUlps 1 (offGrid (approxLog2 p q)) (funcFp32 f a).1 = true ∨
        0x3F000000 ≤ a.toNat ∧ a.toNat ≤ 0x40000000 ∧ within (2 ^ 127) (offGrid (approxLog2 p q)) (funcFp32 f a).1 = true) ∧
      (funcFp32 f a).2 &&& fIX = fIX) ∧
    (finite → ¬ whole → ¬ half → f = .sinpi → near 1 (opposite (approxSinPi (p % (2 * q)) q))) ∧
    (finite → ¬ whole → ¬ half → f = .cospi → near 1 (approxSinPi ((2 * p + q) % (4 * q)) (2 * q))) ∧
    (finite → 8 * p < 73 * q → f = .tanh → near 2 (opposite (approxTanh p q))) ∧
    -- the types
    (code < 2 ^ 32 → funcAt f fp32 code = funcFp32 f (BitVec.ofNat 32 code)) ∧
    (let w := fmt.convert fp32 .rn false code
     let z := funcFp32 f (BitVec.ofNat 32 w.1)
     let x := fp32.convert fmt .rn false z.1
     funcAt f fmt code = (x.1, w.2 ||| z.2 ||| x.2))

/-- Conversions, packing and block scales: each part says what it states. -/
def Obligations.ConversionResults : Prop :=
  Claims.Conversions ∧ Claims.Packing

/-- Member-mask instructions compute on their members, or trap on a lane outside the mask or a stale mask; trellis decoding
gives the weights: each part says what it states. -/
def Obligations.CrossLaneResults : Prop :=
  Claims.MemberMasks ∧ Claims.MemberMaskTraps ∧ Claims.Trellis

/-- mpeers gives each lane of EM the members that hold its own bits. mpeers (R108): each lane of EM receives the mask of the
members whose operand has the same bits as its own, its own bit set where it is a member; the result is pushed, and lands in
the register that is named, if one is. -/
def Obligations.PeerMasks : Prop :=
  ∀ (wide : Bool) (d : Dest) (r : BitVec 6) (a : Operand) (m : MaskOp) (tl : Tail) (s : State) (c : Ctx),
    let member (k : Nat) : Bool := (c.mask m &&& c.g.liveView).getLsbD k
    let same (k l : Nat) : Prop := if wide then c.bits64 a k = c.bits64 a l else c.bits32 a k = c.bits32 a l
    d = .v r ∨ d = .keep →
    Issues s c [if wide then .src64 a else .src a, .dst d false] tl → s.maskFresh c m = true → c.em &&& ~~~c.mask m = 0 →
    ∃ t g, ∃ peers : Nat → W32, exec (.mpeers wide d a m tl) s = .next t ∧ t.group? c.gid = some g ∧
      (∀ l < 32, c.em.getLsbD l = true →
        (∀ k < 32, (peers l).getLsbD k = true ↔ member k = true ∧ same k l) ∧ ((peers l).getLsbD l = true ↔ member l = true)) ∧
      (c.cl.pc ≠ c.cl.lastWord → g.queue = ((lanes.map fun l => if c.em.getLsbD l then peers l else 0) :: c.g.queue).take 16) ∧
      (d = .v r → ∀ l < 32, g.vget r.toNat l = if c.em.getLsbD l then peers l else c.g.vget r.toNat l) ∧
      (∀ n, d = .keep ∨ n ≠ r.toNat → ∀ l < 32, g.vget n l = c.g.vget n l) ∧ KeepsSpecials tl c.g g ∧ OnlyGroup c.gid tl s t

/-- mlow chooses the lowest-numbered lane of EM. mlow (R109): the lowest-numbered lane of EM alone has its CM bit set among
the lanes of EM, or the S register holds its number; with an empty EM, CM stays and the S register is all ones. -/
def Obligations.LowestLane : Prop :=
  ∀ (r : BitVec 5) (m : MaskOp) (tl : Tail) (s : State) (c : Ctx) (low : Nat),
    let lowest : Prop := low < 32 ∧ c.em.getLsbD low = true ∧ ∀ k < low, c.em.getLsbD k = false
    Issues s c [] tl → s.maskFresh c m = true → c.em &&& ~~~c.mask m = 0 →
    (∃ t g, exec (.mlow (.sp .cm) m tl) s = .next t ∧ t.group? c.gid = some g ∧ g.v = c.g.v ∧ g.s = c.g.s ∧ KeepsSpecials tl c.g g ∧
      OnlyGroup c.gid tl s t ∧ (c.em = 0 → g.cm = c.g.cm) ∧
      (lowest → ∀ k < 32, g.cm.getLsbD k = if c.em.getLsbD k then decide (k = low) else c.g.cm.getLsbD k)) ∧
    ∃ t g, exec (.mlow (.s r) m tl) s = .next t ∧ t.group? c.gid = some g ∧ g.v = c.g.v ∧ g.cm = c.g.cm ∧ KeepsSpecials tl c.g g ∧
      OnlyGroup c.gid tl s t ∧ (∀ n, n ≠ r.toNat → g.sget n = c.g.sget n) ∧
      (c.em = 0 → g.sget r.toNat = 0xFFFFFFFFFFFFFFFF) ∧ (lowest → g.sget r.toNat = BitVec.ofNat 64 low)

/-- EN, CM, the routing table and the accumulator window are read and written as their entries say: each part says what it
states. -/
def Obligations.MaskAndWindowMoves : Prop :=
  Claims.MaskMoves ∧ Claims.AccumulatorWindow

/-- Direct and indirect transfers and calls send the lanes of EM to their targets: each part says what it states. -/
def Obligations.ControlTransfers : Prop :=
  Claims.Branches ∧ Claims.IndirectTransfers

/-- Hardware loops, exit, halt, nop, yield and sleep: each part says what it states. -/
def Obligations.LoopsAndPauses : Prop :=
  Claims.HardwareLoop ∧ Claims.Pauses

/-- trap, brk, an illegal word, and the return from a handler: each part says what it states. -/
def Obligations.TrapsAndReturns : Prop :=
  Claims.SoftwareTraps ∧ Claims.HandlerReturn

/-- spawn puts the threads of EM in bins, and traps in a handler or in a block without spawn slots. spawn (R150, R151, R153,
R154): in a block with spawn slots, the lanes of EM put their threads in bins; with a destination, each lane learns whether
its thread was taken. In a handler it is an illegal instruction, in a block without spawn slots an illegal operand. -/
def Obligations.ThreadSpawning : Prop :=
  ∀ (d : BitVec 6) (a b x : Operand) (blk : Block),
    let taken (c : Ctx) (s : State) : LaneMask × State :=
      s.spawnLanes c.core c.g.blk (c.bits64 a)
        (fun l => { b := c.bits32 b l, c := c.bits32 x l, ident := BitVec.ofNat 32 (c.g.gix * 32 + l), cov := none })
        (s.ownUpdates c.gid) (laneList c.em)
    let may : Ctx → State → Prop := fun c s =>
      c.g.hkind = 0 ∧ s.block? c.g.blk = some blk ∧ blk.spawn ≠ 0 ∧ TargetsOk c.em (c.bits64 a)
    let clears := [Use.src b, .src x].any Use.readsFps
    (d = 0 → Completes (.spawn d a b x) [.src64 a, .src b, .src x] none may (fun c s =>
      (taken c s).2.modGroup c.gid fun g => g.settleFps clears 0)) ∧
    (d ≠ 0 → Completes (.spawn d a b x) [.src64 a, .src b, .src x, .regs d 1 1] none may (fun c s =>
      (taken c s).2.modGroup c.gid fun g =>
        (g.settleFps clears 0).vsetLanes d.toNat (fun l => if (taken c s).1.getLsbD l then 1 else 0) (laneList c.em))) ∧
    Traps (.spawn d a b x) ([.src64 a, .src b, .src x] ++ if d = 0 then [] else [.regs d 1 1]) none (fun c _ => c.g.hkind ≠ 0)
      (fun c _ => c.trapAt 0x02 c.word) ∧
    Traps (.spawn d a b x) ([.src64 a, .src b, .src x] ++ if d = 0 then [] else [.regs d 1 1]) none
      (fun c s => c.g.hkind = 0 ∧ s.block? c.g.blk = some blk ∧ blk.spawn = 0) (fun c _ => c.trapAt 0x03 c.word)

/-- Loads, stores, scalar loads, windows and plane elements make the accesses of their entries: each part says what it states.
-/
def Obligations.MemoryInstructions : Prop :=
  Claims.LoadsAndStores ∧ Claims.ScalarAccesses ∧ Claims.PlaneAccesses

/-- Atomics act on the words of the lanes of EM and deliver the old values. Atomics (R184 to R187): each lane of EM acts on
the word at its address, 4 bytes aligned to 4, and its operation delivers the old value to the lane; one into a reduction
window is a contribution and delivers 0 (R427). No byte of memory outside the words changes. -/
def Obligations.AtomicInstructions : Prop :=
  ∀ (op : AtomOp) (fop : FatomOp) (d : BitVec 6) (a b x : Operand) (off : BitVec 12) (tl : Tail),
    let em (c : Ctx) : List Nat := laneList c.em
    let addr (c : Ctx) (l : Nat) : W64 := c.bits64 a l + off.signExtend 64
    let gathered (addr : Ctx → Nat → W64) (k : AccKind) (red : Ctx → Nat → Option (RedOp × W64))
        (acc : Ctx → Nat → Nat → Dst → Access) (c : Ctx) (v : View) (s : State) : Gather :=
      (em c).foldl (fun g l => (s.piecesOf v l (addr c l) 4 k).foldl (fun g p =>
        g.atomic v (addr c l) p.1 (red c l) (.v l d.toNat 4 false) fun pa => acc c l pa (.v l d.toNat 4 false)) g) (c.gather s tl)
    let waits (addr : Ctx → Nat → W64) (reduces : Bool) (c : Ctx) (v : View) (s : State) (op : Nat) : List HashStep :=
      (em c).map fun l =>
        if reduces && spaceOf (addr c l) == some .dev && (s.window (addr c l).toNat).isSome then .datum (v.canonical (addr c l)) 0
        else .awaits (v.canonical (addr c l)) op l
    let kind : AccKind := if op = .xchg then .exchange else .atomic
    CompletesAccess (.atom op d a x off tl) [.src64 a, .src x, .regs d 1 1] tl true kind true false 4 4 em addr
      (gathered addr kind (fun c l => some (contribOf op (c.bits32 x l))) fun c l pa dst => .atom pa op (c.bits32 x l) dst)
      (waits addr true) ∧
    CompletesAccess (.atomCas d a b x tl) [.src64 a, .src b, .src x, .regs d 1 1] tl true .exchange true false 4 4 em
      (fun c => c.bits64 a)
      (gathered (fun c => c.bits64 a) .exchange (fun _ _ => none) fun c l pa dst => .cas pa (c.bits32 b l) (c.bits32 x l) dst)
      (waits (fun c => c.bits64 a) false) ∧
    CompletesAccess (.fatom fop d a x off tl) [.src64 a, .src x, .regs d 1 1] tl true .atomic true false 4 4 em addr
      (gathered addr .atomic (fun c l => some (.fatom fop, (c.bits32 x l).setWidth 64))
        fun c l pa dst => .fatom pa fop (c.bits32 x l) dst)
      (waits addr true) ∧
    KeepsMemory (.atom op d a x off tl) [.src64 a, .src x, .regs d 1 1] tl
      (fun c s => c.accessible (em c) (addr c) 4 4 kind true false s) (fun c => c.touched (em c) (addr c) 4 kind) ∧
    KeepsMemory (.atomCas d a b x tl) [.src64 a, .src b, .src x, .regs d 1 1] tl
      (fun c s => c.accessible (em c) (fun l => c.bits64 a l) 4 4 .exchange true false s)
      (fun c => c.touched (em c) (fun l => c.bits64 a l) 4 .exchange) ∧
    KeepsMemory (.fatom fop d a x off tl) [.src64 a, .src x, .regs d 1 1] tl
      (fun c s => c.accessible (em c) (addr c) 4 4 .atomic true false s) (fun c => c.touched (em c) (addr c) 4 .atomic)

/-- ctr.add, ctr.wait and ctr.rd act once per issue on a counter. Counters (R286 to R290): ctr.add, ctr.wait and ctr.rd act
once per issue on an 8-byte counter; a wait is registered with its target and its limit, and completes later. -/
def Obligations.CounterInstructions : Prop :=
  ∀ (rel : Option Scope) (acq : Bool) (t : BitVec 3) (dw base : Option (BitVec 5)) (d : BitVec 5) (x : Operand)
    (off : BitVec 12) (slot : BitVec 3) (tl : Tail),
    let addr (c : Ctx) (_ : Nat) : W64 := c.sbase base + off.signExtend 64
    let free_ (k : AccKind) : Ctx → State → Prop := fun c s => c.accessible c.single (addr c) 8 8 k true false s
    let ready (k : AccKind) (c : Ctx) (s : State) : State := c.settledFor c.single (addr c) s
    let target (k : AccKind) (c : Ctx) (s : State) : Target := (ready k c s).targetOf (s.viewOf c.gid c.g) 0 (addr c 0) 8 k
    let room (k : AccKind) (c : Ctx) (s : State) : Prop := (ready k c s).ownFull c.gid (target k c s) = false
    CompletesAsync (.ctrAdd rel base x off tl) [] tl (fun c s => free_ .atomic c s ∧ room .atomic c s) (fun c s =>
      let o := (ready .atomic c s).startOp c tl true
      (o.2.counterAdd c (s.viewOf c.gid c.g) rel (target .atomic c s) (addr c 0) (c.bits64 x 0) o.1).countMem c
        (s.viewOf c.gid c.g) c.single (addr c) 8 o.1) ∧
    CompletesAsync (.ctrWait acq t dw base x off slot) [] (some slot) (free_ .readWhole) (fun c s =>
      let s0 := ready .readWhole c s
      let h := (target .readWhole c s).home
      let o := s0.startOp c (some slot) false
      let w : Wait := { id := o.2.nextId, core := c.core, gid := c.gid, tag := c.g.tag, launch := c.g.launch, slot := slot,
                        addr := h.1, va := addr c 0, target := c.bits64 x 0, acq := acq, dst := dw,
                        limit := if t = 0 then none else some (s0.now + 2 ^ (8 + 2 * t.toNat)),
                        met := false, arrived := none, behind := s0.earlier c (target .readWhole c s), op := o.1, ident := (s.viewOf c.gid c.g).ident }
      ({ o.2 with nextId := o.2.nextId + 1, ctrWaits := o.2.ctrWaits ++ [w] } : State).countMem c (s.viewOf c.gid c.g)
        c.single (addr c) 8 o.1) ∧
    CompletesAsync (.ctrRd d base off tl) [] tl (fun c s => free_ .readWhole c s ∧ room .readWhole c s) (fun c s =>
      let h := (target .readWhole c s).home
      let o := (ready .readWhole c s).startOp c tl true
      (o.2.sendReq (o.2.counterReq c (s.viewOf c.gid c.g) o.1 h.1 h.2 (target .readWhole c s).isSnap (.ctrRd h.1 (.s d.toNat 8 false)))).countMem c
        (s.viewOf c.gid c.g) c.single (addr c) 8 o.1)

/-- Phases and fences refresh and publish; the cache and address instructions have their effects: each part says what it
states. -/
def Obligations.PhaseAndCacheInstructions : Prop :=
  Claims.PhasesAndFences ∧ Claims.CacheAndAddresses

/-- A tile instruction attaches to its convergence register, fires with a complete one, or fires at once. The tile
instructions (R198, R202, R209 to R216): each attaches to its convergence register or fires. -/
def Obligations.TileInstructions : Prop :=
  ∀ (v : BitVec 3) (cv : CvAttach) (set sat : Bool) (rnd : Rnd) (acc : AccField) (b x : BitVec 5) (tl : Tail),
    CompletesTile (.mma v set sat acc b x tl) .mma (some v) set sat .rn acc (some b) (some x) tl ∧
    CompletesTile (.mmas v set sat acc b x tl) .mmas (some v) set sat .rn acc (some b) (some x) tl ∧
    CompletesTile (.mmt v set sat acc b x tl) .mmt (some v) set sat .rn acc (some b) (some x) tl ∧
    CompletesTile (.mzero cv acc tl) .mzero cv false false .rn acc none none tl ∧
    CompletesTile (.mld cv acc b tl) .mld cv false false .rn acc (some b) none tl ∧
    CompletesTile (.mdrain cv rnd acc b tl) .mdrain cv false false rnd acc (some b) none tl ∧
    CompletesTile (.mdraint cv rnd acc b x tl) .mdraint cv false false rnd acc (some b) (some x) tl ∧
    CompletesTile (.mchk cv acc b x tl) .mchk cv false false .rn acc (some b) (some x) tl

/-- sign counts its lanes, keeps collecting, completes a set, fires the attached operation, holds its slot, or traps. sign
(R195, R196, R198): lanes add to their register's count; a set that is not yet complete keeps collecting; one that is complete
and agrees waits for its operation where nothing is attached, and fires the attached operation where its checks pass: the
register is released and the signers' slots with it. A group with no lane of EM only holds its slot. A set that would complete
with a dissenting lane, in this sign or counted before, is a format divergence; a set of another size, a complete one, a count
beyond the set, no context, or more than 1536 lanes is an illegal operand; a failing check of the operation traps at the sign.
-/
def Obligations.SignInstruction : Prop :=
  ∀ (n : BitVec 3) (a b : Operand) (slot : BitVec 3) (k : Nat),
    let reg (c : Ctx) (s : State) : CvReg := ((s.core c.core).ctx k).cv n.toNat
    let size (c : Ctx) : Nat := (c.bits64 a 0).toNat % 2048
    let total (c : Ctx) (s : State) : Nat := (reg c s).signed + laneCount c.em
    let first (c : Ctx) (s : State) : Bool := (reg c s).signed == 0
    let ref (c : Ctx) (s : State) : W32 :=
      if first c s then c.bits32 b ((lowestLane c.em).getD 0) else (reg c s).ref
    let differ (c : Ctx) (s : State) : LaneMask := maskOf fun l => c.em.getLsbD l && c.bits32 b l != ref c s
    let agrees (c : Ctx) (s : State) : Prop := ((reg c s).dis = false ∨ first c s = true) ∧ differ c s = 0
    let fires (c : Ctx) (s : State) : Option FireCheck := match (reg c s).op with
      | none => none
      | some id => (((s.core c.core).ctx k).ops.find? fun o => o.id == id).map fun o =>
          s.fireCheck (s.viewOf c.gid c.g) { o with fmt := ref c s, firing := s.siteOf c.g c.cl.pc }
    let traps (cond : Ctx → State → Prop) (t : Ctx → State → Trap) : Prop :=
      ∀ s c, Issues s c [.src b] (some slot) → cond c (s.settle c [.src b]) →
        exec (.sign n a b slot) s = .next (s.takeTrap c.gid c.cl.pc c.cl.hdr (t c (s.settle c [.src b])))
    let next (c : Ctx) (s : State) (st : Nat) : State :=
      let v := reg c s
      let dgix := if first c s then none else v.dgix
      (s.launchAsync { c.async (some slot) with ready := false, site := s.siteOf c.g c.cl.pc }).modCtx c.core k fun x =>
        x.setCv n.toNat { v with
          st := st, signed := total c s, size := BitVec.ofNat 11 (size c), ref := ref c s,
          dis := (v.dis && !first c s) || differ c s != 0,
          dgix := if differ c s = 0 then dgix else some (Nat.min (dgix.getD c.g.gix) c.g.gix), signOps := v.signOps ++ [s.nextId] }
    let legal : Ctx → State → Prop := fun c s =>
      c.g.hkind = 0 ∧ s.tileWaiting c.gid = false ∧ c.em ≠ 0 ∧ s.ctxNum c.g.blk = some k ∧ size c + 1 ≤ 1536 ∧
        (reg c s).st ≠ 2 ∧ ((reg c s).signed = 0 ∨ ((reg c s).st ≠ 1 ∧ (reg c s).st ≠ 3) ∨ size c = (reg c s).size.toNat)
    CompletesAsync (.sign n a b slot) [.src b] (some slot) (fun c s => legal c s ∧ total c s < size c + 1)
      (fun c s => next c s (if (reg c s).st = 3 then 3 else 1)) ∧
    CompletesAsync (.sign n a b slot) [.src b] (some slot)
      (fun c s => legal c s ∧ total c s = size c + 1 ∧ agrees c s ∧ (reg c s).op = none)
      (fun c s => next c s 2) ∧
    CompletesAsync (.sign n a b slot) [.src b] (some slot)
      (fun c s => c.g.hkind = 0 ∧ s.tileWaiting c.gid = false ∧ c.em = 0) (fun c s => s.launchAsync (c.async (some slot))) ∧
    CompletesAsync (.sign n a b slot) [.src b] (some slot)
      (fun c s => legal c s ∧ total c s = size c + 1 ∧ agrees c s ∧ ∃ o s', fires c s = some (.ok o s')) (fun c s =>
        match fires c s with
        | some (.ok o s') =>
          ((s'.launchAsync { c.async (some slot) with ready := false }).modCtx c.core k fun x =>
            { x.setCv n.toNat { idleCv with fires := (reg c s).fires + 1, ref := ref c s } with
              ops := x.ops.map fun y => if y.id = o.id then o else y }).endOps ((reg c s).signOps ++ [s'.nextId])
        | _ => s) ∧
    (∀ code addr, traps
      (fun c s => legal c s ∧ total c s = size c + 1 ∧ agrees c s ∧ fires c s = some (.trap code addr))
      (fun c _ => { code := code, wr := false, addr := addr, mask := c.em, resume := c.cl.pc })) ∧
    traps (fun c s => legal c s ∧ total c s = size c + 1 ∧ ¬ agrees c s) (fun c s =>
      { code := 0x12, wr := false, mask := c.em, resume := c.cl.pc,
        addr := BitVec.ofNat 64 ((differ c s).toNat +
          if (reg c s).dis then 2 ^ 32 + ((if first c s then none else (reg c s).dgix).getD 0) * 2 ^ 33 else 0) }) ∧
    traps
      (fun c s => c.g.hkind = 0 ∧ s.tileWaiting c.gid = false ∧ c.em ≠ 0 ∧ (s.ctxNum c.g.blk = none ∨ s.ctxNum c.g.blk = some k ∧
        (size c + 1 > 1536 ∨ (((reg c s).st = 1 ∨ (reg c s).st = 3) ∧ (reg c s).signed ≠ 0 ∧ size c ≠ (reg c s).size.toNat) ∨
          (reg c s).st = 2 ∨ total c s > size c + 1)))
      (fun c _ => c.trapAt 0x03 c.word)

/-- mrd, mstat and mrel, and where the tile instructions and sign do not run: each part says what it states. -/
def Obligations.MatrixReadsAndTraps : Prop :=
  Claims.MatrixReads ∧ Claims.MatrixTraps

/-- attr, vbld and the texture instructions load the words that their results need. attr, vbld and the texture instructions
(R227, R229 to R231, R239 to R242): with their records and descriptors readable and legal, each lane of EM loads the words
that it needs, and the operation delivers what it computes from them; with no lane in EM nothing is read. -/
def Obligations.GraphicsLoads : Prop :=
  ∀ (n : BitVec 2) (mode : AttrMode) (d g : BitVec 6) (rt : BitVec 4) (r : BitVec 5) (a b x : Operand) (tl : Tail)
    (t : TexDesc),
    let view (c : Ctx) (s : State) : View := s.viewOf c.gid c.g
    let em (c : Ctx) : List Nat := laneList c.em
    let pixel (c : Ctx) (l : Nat) : Nat :=
      n.toNat * 1024 + (c.bits32 b l).toNat / 32 % 32 * 32 + (c.bits32 b l).toNat % 32
    let visible (c : Ctx) : List (Nat × W64 × Dst) := (em c).flatMap fun l =>
      let base := c.g.sget r.toNat
      [(l, base + BitVec.ofNat 64 (8 * pixel c l), .v l (d.toNat + 0) 4 false),
       (l, base + BitVec.ofNat 64 (8 * pixel c l + 4), .v l (d.toNat + 1) 4 false),
       (l, base + BitVec.ofNat 64 (32768 + 4 * pixel c l), .v l (d.toNat + 2) 4 false)]
    let recs (c : Ctx) : List (Nat × W64) := (em c).map fun l => (l, c.bits64 a l)
    let heads (c : Ctx) : List (Nat × W64) := (em c).map fun l => (l, c.bits64 a l + 48)
    let counts (c : Ctx) (s : State) : NMap Nat × State := (s.readsNow (s.viewOf c.gid c.g) 4 (heads c)).getD ([], s)
    let na (c : Ctx) (s : State) (l : Nat) : Nat := NMap.get 0 (counts c s).1 l
    let words (c : Ctx) (s : State) : List (Nat × W64 × Dst) := (em c).flatMap fun l =>
      (attrWords (Machine.AttrMode.code mode) (na c s l) (c.attrIndex mode l)).map fun w => (l, c.bits64 a l + BitVec.ofNat 64 w.1, .raw (l * 16 + w.2))
    let weights (c : Ctx) (s : State) : Option Gfx :=
      some (.attr (Machine.AttrMode.code mode) d.toNat ((em c).map fun l => (l, c.bits32 b l, na c s l, c.attrIndex mode l)))
    let desc (c : Ctx) : W64 := c.g.sget r.toNat
    let sampler (c : Ctx) : W64 := c.g.sget (r.toNat + 1)
    let descs (c : Ctx) : List (Nat × W64) := (em c).map fun l => (l, desc c)
    let afterDesc (c : Ctx) (s : State) : State := ((s.readNow (s.viewOf c.gid c.g) 0 (desc c) 32).getD (0, s)).2
    let described (useSampler : Bool) : Ctx → State → Prop := fun c s =>
      r.toNat % 2 = 0 ∧ c.em ≠ 0 ∧ s.accHeld (s.viewOf c.gid c.g) [(0, desc c)] = false ∧
        s.multiErr (s.viewOf c.gid c.g) (descs c) 32 (misaligned 32 (descs c)) = none ∧
        s.peerMiss c.core (s.accSnap (s.viewOf c.gid c.g) 32 [(0, desc c)]) = none ∧
        (∃ y s', s.readNow (s.viewOf c.gid c.g) 0 (desc c) 32 = some (y, s') ∧ texDesc y = some t) ∧
        (useSampler = false ∨ samplerOk (sampler c) = true)
    let work (taps : Ctx → Nat → List Texel) (c : Ctx) : List (Nat × List W64 × List Tap) :=
      (em c).map fun l => (l, tapsOf t l (taps c l))
    let texels (taps : Ctx → Nat → List Texel) (c : Ctx) : List (Nat × W64 × Dst) :=
      (work taps c).flatMap fun w => (List.range w.2.1.length).map fun i => (w.1, w.2.1.getD i 0, .raw (w.1 * 4096 + i))
    let size : Nat := (texBlock t.fmt).2
    let filter (taps : Ctx → Nat → List Texel) (c : Ctx) : Option Gfx :=
      some (.tex d.toNat ((work taps c).map fun w => (w.1, w.2.2)))
    let mis (taps : Ctx → Nat → List Texel) (c : Ctx) : List (Nat × W64) :=
      misaligned size ((texels taps c).map fun e => (e.1, e.2.1))
    let textured (i : Instr) (uses : List Use) (useSampler : Bool) (taps : Ctx → Nat → List Texel) : Prop :=
      CompletesAsync i uses tl
        (fun c s => described useSampler c s ∧ c.gfxOpen (view c s) size (texels taps c) (mis taps c) tl (filter taps c) (afterDesc c s))
        (fun c s => (c.gfxGather (view c s) size (texels taps c) tl (filter taps c) (afterDesc c s)).departed c (s.viewOf c.gid c.g) tl) ∧
      CompletesAsync i uses tl (fun c s => r.toNat % 2 = 0 ∧ c.em = 0 ∧ c.gfxOpen (view c s) 1 [] [] tl none s)
        (fun c s => (c.gfxGather (view c s) 1 [] tl none s).departed c (s.viewOf c.gid c.g) tl)
    let uv (c : Ctx) (l : Nat) : W32 × W32 := ((c.bits64 a l).extractLsb' 0 32, (c.bits64 a l).extractLsb' 32 32)
    CompletesAsync (.vbld n d r b tl) [.src b, .regs d 3 4] tl
      (fun c s => (c.em ≠ 0 → spaceOf (desc c) = some .tile ∧
          (s.viewOf c.gid c.g).tileOk ((desc c).toNat % 2 ^ 19) 49152 = true ∧ (desc c).toNat % 1024 = 0) ∧
        c.gfxOpen (view c s) 4 (visible c) [] tl none s)
      (fun c s => (c.gfxGather (view c s) 4 (visible c) tl none s).departed c (s.viewOf c.gid c.g) tl) ∧
    CompletesAsync (.attr mode d a b tl) [.src64 a, .src b, Machine.AttrMode.use d mode] tl
      (fun c s => s.accHeld (s.viewOf c.gid c.g) (recs c ++ heads c) = false ∧
        s.multiErr (s.viewOf c.gid c.g) (recs c ++ heads c) 4 (misaligned 64 (recs c)) = none ∧
        s.peerMiss c.core (s.accSnap (s.viewOf c.gid c.g) 4 (heads c)) = none ∧
        (s.readsNow (s.viewOf c.gid c.g) 4 (heads c)).isSome = true ∧
        c.gfxOpen (view c s) 4 (words c s) [] tl (weights c s) (counts c s).2)
      (fun c s => (c.gfxGather (view c s) 4 (words c s) tl (weights c s) (counts c s).2).departed c (s.viewOf c.gid c.g) tl) ∧
    textured (.sample d a r x tl) [.src64 a, .src x, .regs d 4 4] true (fun c l =>
      texTaps t (plainFilter (sampler c)) (uv c l).1 (uv c l).2 (lodOf (c.bits32 x l) (sampler c)) 1 none) ∧
    textured (.sampleg d a r g rt tl) [.src64 a, .src (.v g rt), .regs g 4 4, .regs d 4 4] true (fun c l =>
      let q := gradientLod t (sampler c) ((List.range 4).map fun i => c.g.supply (g.toNat + i) (c.g.route rt l))
      texTaps t (sampler c) (uv c l).1 (uv c l).2 q.1 q.2.1 q.2.2) ∧
    textured (.texld d a r x tl) [.src64 a, .src x, .regs d 4 4] false (fun c l =>
      let i := (uv c l).1.toInt
      let k := (uv c l).2.toInt
      let m := (c.bits32 x l).toInt
      if m < 0 || m > t.lm1 || i < 0 || k < 0 || i ≥ levelDim t.w m.toNat || k ≥ levelDim t.h m.toNat then []
      else [{ at_ := some (t.texel m.toNat i.toNat k.toNat), weight := Frac.int 1 }])

/-- prim, covw, hit, tret.next and tret.done: each part says what it states. -/
def Obligations.VerdictsAndTileReturns : Prop :=
  Claims.GraphicsVerdicts ∧ Claims.TileReturns

/-- Pushes to and pops from the engines, and xstat: each part says what it states. -/
def Obligations.EngineQueues : Prop :=
  Claims.EnginePushes ∧ Claims.EnginePops

/-- csrr and csrw reach the registers of the table, the handler-only ones in a handler alone: each part says what it states.
-/
def Obligations.ControlRegisterAccess : Prop :=
  Claims.ControlRegisters ∧ Claims.HandlerRegisters

/-- System calls, debug registers and iinv run in their modes and trap in the others and on operands out of range. System
calls, debug registers and iinv (R263 to R265): dbgr, dbgw and iinv run in the debug handler alone, a debug register takes
effect at its rtt; a register number of 32 or more, a value with a reserved bit set and a range that leaves device space trap;
sysc.note posts an event, sysc.kill kills its launch. -/
def Obligations.SystemCalls : Prop :=
  ∀ (a b : Operand) (x y d : BitVec 5) (tl : Tail),
    let debug (ok : Ctx → State → Prop) : Ctx → State → Prop := fun c s => c.g.hkind = 2 ∧ ok c s
    let outside : Ctx → State → Prop := fun c _ => c.g.hkind ≠ 2
    let illegal : Ctx → State → Trap := fun c _ => c.trapAt 0x02 c.word
    let badOperand : Ctx → State → Trap := fun c _ => c.trapAt 0x03 c.word
    let site (c : Ctx) (s : State) : Site := s.siteOf c.g c.cl.pc
    let lo (c : Ctx) : Nat := (c.g.sget x.toNat).toNat
    let len (c : Ctx) : Nat := (c.g.sget y.toNat).toNat
    Completes (.syscNote a tl) [.src64 a] tl Always (fun c s =>
      (s.note (site c s).queue [ev0 4 0, c.bits64 a 0, (site c s).pc, (site c s).seq.setWidth 64, (site c s).word]).addHash
        c.gid [.point (site c s).pc (site c s).seq]) ∧
    CompletesAsync (.syscKill a tl) [.src64 a] tl Always (fun c s =>
      s.killLaunch c.g.launch 0x35 (c.bits64 a 0) (site c s)) ∧
    Completes (.dbgr d ⟨a, tl⟩) [] tl (debug fun c _ => c.debugNumber a < 32) (fun c s =>
      s.put c (c.g.sset d.toNat (((c.g.dbgPend.find? fun e => e.1 == c.debugNumber a).map (·.2)).getD
        ((s.core c.core).debugReg (c.debugNumber a))))) ∧
    Completes (.dbgw a ⟨b, tl⟩) [] tl
      (debug fun c _ => c.debugNumber a < 32 ∧ debugOk (c.debugNumber a) (c.bits64 b 0) = true) (fun c s =>
      s.put c { c.g with dbgPend := NMap.put c.g.dbgPend (c.debugNumber a) (c.bits64 b 0) }) ∧
    Completes (.iinv x ⟨y, tl⟩) [] tl (debug fun c _ => len c = 0) (fun _ s => s) ∧
    Completes (.iinv x ⟨y, tl⟩) [] tl (debug fun c s => len c ≠ 0 ∧ lo c + len c ≤ 2 ^ 56 ∧ s.rangeHeld (s.viewOf c.gid c.g).la.asn (lo c) (len c) = false) (fun c s =>
      s.iinvWords (s.viewOf c.gid c.g) (lo c) (lo c + len c) (lo c / 8) ((lo c + len c + 7) / 8 - lo c / 8)) ∧
    Traps (.dbgr d ⟨a, tl⟩) [] tl outside illegal ∧ Traps (.dbgw a ⟨b, tl⟩) [] tl outside illegal ∧
    Traps (.iinv x ⟨y, tl⟩) [] tl outside illegal ∧
    Traps (.dbgr d ⟨a, tl⟩) [] tl (debug fun c _ => 32 ≤ c.debugNumber a) badOperand ∧
    Traps (.dbgw a ⟨b, tl⟩) [] tl
      (debug fun c _ => 32 ≤ c.debugNumber a ∨ debugOk (c.debugNumber a) (c.bits64 b 0) = false) badOperand ∧
    Traps (.iinv x ⟨y, tl⟩) [] tl (debug fun c _ => len c ≠ 0 ∧ 2 ^ 56 < lo c + len c) badOperand

/-- Clauses start by the scheduling rules, dwells break, convergence times out, a sleep ends. Scheduling (R103, R123 to R125,
R127, R144): the core's next group starts its clause; a starved group starts after 512 cycles; a clause that breaks a dwell
starts; lanes that wait longer than CTO for missing ones trap; a sleep ends in its time. -/
def Obligations.SchedulingEvents : Prop :=
  ∀ (s : State) (core gid t tr : Nat) (hdr : W64) (g : Group) (x : Choice) (la : Launch),
    (s.nextGroup core = some (gid, g) → s.choice g = some x → exec (.clauseStart core) s = .next (s.startClause gid x)) ∧
    (s.nextGroup core = some (gid, g) → 512 ≤ g.waited s.now → s.choice g = some x →
      exec (.starved core) s = .next (s.startClause gid x)) ∧
    (s.group? gid = some g → s.nextGroup g.core = some (gid, g) → s.choice g = some x → x.brk = true →
      exec (.dwellBreak gid) s = .next (s.startClause gid x)) ∧
    (s.group? gid = some g → s.launch? g.launch = some la → (g.timers.find? fun e => e.1 == hdr.toNat) = some (tr, t) →
      g.clause = none → g.halted = false → t + la.cto ≤ s.now → g.lanesAt hdr &&& ~~~g.mid ≠ 0 → s.membersAt g hdr &&& ~~~g.lanesAt hdr ≠ 0 →
      exec (.convergenceTimeout gid hdr) s = .next (s.takeTrap gid hdr hdr
        { code := 0x10, wr := false, addr := (s.membersAt g hdr &&& ~~~g.lanesAt hdr).setWidth 64,
          mask := g.lanesAt hdr &&& ~~~g.mid, resume := hdr })) ∧
    (s.group? gid = some g → g.sleepUntil = some t → t ≤ s.now →
      exec (.sleepEnd gid) s = .next (s.setGroup gid { g with sleepUntil := none }))

/-- Asynchronous operations complete, groups leave, bins become groups, requests are performed: each part says what it states.
-/
def Obligations.CompletionEvents : Prop :=
  Claims.Completions ∧ Claims.RequestsInFlight

/-- A publish completes when its bytes have arrived; a wait ends with its target or its limit. Publishing and waiting (R282,
R288 to R293, R378, R380): a publish whose bytes have reached its scope completes; a wait completes with status 0 when its
counter meets the target and with status 1 when its limit elapses first. -/
def Obligations.PublishAndWaitEvents : Prop :=
  ∀ (s : State) (pub w t core : Nat) (p : Publish) (x : Wait),
    ((s.pubs.find? fun p => p.id == pub) = some p → s.pubReady p = true →
      exec (.publishComplete pub) s = .next
        (State.afterPublish { s.acceptWbs p with pubs := s.pubs.filter fun y => y.id != pub } p)) ∧
    ((s.ctrWaits.find? fun y => y.id == w) = some x → s.waitMet x = true → x.limit = none →
      exec (.ctrWaitComplete w) s = .next ((if x.acq then s.modCore x.core Core.refresh else s).endWait x 0)) ∧
    ((s.ctrWaits.find? fun y => y.id == w) = some x → x.limit = some t → (x.met = true ∨ s.waitMet x = true ∧ s.now ≤ t) →
      ((s.launch? x.launch).getD noLaunch).mode ≠ 2 →
      exec (.ctrWaitComplete w) s = .next
        (((if x.acq then s.modCore x.core Core.refresh else s).waitLog x ((s.launch? x.launch).getD noLaunch) false).endWait x 0)) ∧
    ((s.ctrWaits.find? fun y => y.id == w) = some x → x.limit = some t → x.met = false →
      t < s.now →
      (((s.launch? x.launch).getD noLaunch).mode ≠ 2 ∨ (s.stream x.launch (s.homeOf x.addr)).free = true) →
      exec (.ctrWaitTimeout w) s = .next ((s.waitLog x ((s.launch? x.launch).getD noLaunch) true).endWait x 1)) ∧
    ((s.core core).refreshesAt + 2 ^ 20 ≤ s.now → (s.core core).refreshes ≠ (s.core core).refreshesSeen →
      exec (.capacityRefreshRecord core) s = .next
        ((s.modCore core fun c => { c with refreshesSeen := c.refreshes, refreshesAt := s.now }).record (dieOf core) 11
          [BitVec.ofNat 64 (s.core core).refreshes]))

/-- Matrix operations start in order, read and write while they run, and end; checks trap; contexts return. The matrix
engine's own steps (R133, R199 to R201, R217, R221): the first operation of a context starts when it may, the fired ones go on
reading and writing while none can, and what is left of an operation's effect happens when it completes (these moments are the
model's reading, log entry 63); a failed check traps its group between clauses; a dead block's context returns to the pool. -/
def Obligations.MatrixEngineEvents : Prop :=
  ∀ (s : State) (core ctx gid blk k : Nat) (o : MatOp) (g : Group) (m : LaneMask) (rest : List LaneMask) (pc : W64) (b : Block),
    let x := (s.core core).ctx ctx
    let other := (s.core core).ctx (1 - ctx)
    let v := s.viewOfBlock blk
    let started := s.modCtx core ctx fun x =>
      { x with ops := x.ops.map fun p => if p.id = o.id then { p with stage := .running } else p }
    (ctx ≤ 1 → s.opReady x = some o → o.kind.onArray = false → exec (.matrixOpStart core ctx) s = .next started) ∧
    (ctx ≤ 1 → s.opReady x = some o → o.kind.onArray = true → other.usesArray = false →
      (s.opReady other = none ∨ (s.core core).lastCtx ≠ ctx) →
      exec (.matrixOpStart core ctx) s = .next (started.modCore core fun c => { c with lastCtx := ctx })) ∧
    (ctx ≤ 1 → (s.opReady x = none ∨ s.opReady x = some o ∧ o.kind.onArray = true ∧ other.usesArray = true) →
      exec (.matrixOpStart core ctx) s = .next (s.matProgress core ctx x.ops)) ∧
    (ctx ≤ 1 → x.owner = some blk → x.ops.head? = some o → o.stage = .running → s.opFault v o = none →
      exec (.matrixOpComplete core ctx) s = .next
        (((((s.opLines v o).foldl (fun s l => (s.beforeRead core l).l2See (l * 128) 128 o.kind.drains v.l2 (dieOf core)) s).runOp
          v core ctx x o).modCtx core ctx fun x =>
          { x with ops := x.ops.filter fun p => p.id != o.id }).endOps [o.id])) ∧
    (s.group? gid = some g → g.clause = none → g.halted = false → g.checks = m :: rest → leastPc (g.pcs (laneList g.live)) = some pc →
      exec (.matrixCheckTrap gid) s = .next ((s.setGroup gid { g with checks := rest }).takeTrap gid pc (g.headerOf pc)
        { code := 0x14, wr := false, addr := m.setWidth 64, mask := g.live, resume := pc })) ∧
    (s.block? blk = some b → b.ctx = some k → b.saved = false → s.blockDead blk = true →
      ((((s.cancelAll b.core k (List.range 8)).core b.core).ctx k).ops = []) →
      exec (.matrixContextEnd blk) s = .next
        ((((s.cancelAll b.core k (List.range 8)).modCore b.core fun c => c.setCtx k freeCtx).modBlock blk fun b =>
          { b with ctx := none }).tryEndBlock blk))

/-- Rays run to their records; quiet blocks are saved and resume. Rays, eviction and samples (R243, R248, R250, R268 to R271,
R373, R377): a ray runs to its next record; a block whose set is quiet is saved, and a saved block resumes on a core of its
cluster with room; a watched group reports or goes on. -/
def Obligations.RayAndEvictionEvents : Prop :=
  ∀ (s : State) (ray blk core gid : Nat) (r : Ray) (la : Launch) (b : Block) (gr : Grant) (g : Group) (w : WatchSave),
    ((s.rays.find? fun r => r.id == ray) = some r → s.launch? r.launch = some la →
      exec (.rayRecordReady ray) s = .next (State.rayRun la 4096 s r)) ∧
    (s.block? blk = some b → b.evicting = true →
      let asked := s.requestEvicts (s.evictSet blk)
      ((s.evictSet blk).all asked.evictReady = true →
        exec (.eviction blk) s = .next ((asked.saveBlocks (s.evictSet blk)).settlePreempts)) ∧
      ((s.evictSet blk).all asked.evictReady = false → exec (.eviction blk) s = .next asked)) ∧
    (s.block? blk = some b → s.launch? b.launch = some la → b.saved = true → clusterOf core = clusterOf b.core →
      s.maskAllows la.queue core = true →
      s.grantAt core la (b.res / 1024) b.ctr0 = some gr →
      exec (.blockResume blk core) s = .next (s.resumeBlock blk core b gr)) ∧
    (s.group? gid = some g → g.watchHit ≠ [] → g.watchSave = some w →
      (∀ h ∈ g.watchHit, (NMap.get 0 (s.core g.core).dwc h.1).getLsbD 1 = true ∧ s.predTrue g h = false) →
      exec (.predicateResult gid) s = .next (s.setGroup gid (g.unwatch w))) ∧
    (s.group? gid = some g → (∃ h ∈ g.watchHit, (NMap.get 0 (s.core g.core).dwc h.1).getLsbD 1 = false) →
      ∃ t ws, exec (.predicateResult gid) s = .next t ∧
        t = (s.setGroup gid { g with watchHit := [] }).recordFree (dieOf g.core) 6 ws) ∧
    (∀ e, ((s.core core).samples.find? fun e => s.asyncs.all fun a => a.id != e.1) = some e →
      ∃ t ws, exec (.memorySample core) s = .next t ∧
        t = (s.modCore core fun x => { x with samples := x.samples.erase e }).recordAt (dieOf core) 2 (e.2.1 ++ ws) e.2.2)

/-- Copy, encoder and list-engine jobs advance as their engines say: each part says what it states. -/
def Obligations.EngineAndRenderEvents : Prop :=
  Claims.EngineJobs ∧ Claims.Rendering

/-- A queue starts the command at HEAD, which has its effect; one that is not legal stops the queue: each part says what it
states. -/
def Obligations.CommandMoves : Prop :=
  Claims.CommandStart ∧ Claims.Commands

/-- A node publishes and completes; the DEBUG commands have their effects: each part says what it states. -/
def Obligations.NodeAndDebugMoves : Prop :=
  Claims.NodeEnds ∧ Claims.DebugCommands

/-- The hosts change what their registers say, and nothing while the firmware is unverified: each part says what it states. -/
def Obligations.HostPortMoves : Prop :=
  Claims.HostPorts ∧ Claims.UnverifiedHosts

/-- Events of the package: posting, ports, firmware, wear, sags, clock steps, errors, reset. The package's own events (R396,
R400 to R404, R440): posted events, a port that goes down, firmware events, wear, a sag, a clock step, a device-level error, a
reset. The CODE and the site of a device-level error's kills are free (log entry 23); which events go through the firmware,
and in what order, are the model's readings (log entries 56 and 59). -/
def Obligations.PackageEvents : Prop :=
  ∀ (s : State) (q port core die v : Nat) (p : WornPart) (up : Bool) (e : List W64) (rest : List (List W64)) (f : FwEvent)
    (fs : List FwEvent),
    let x := s.queue q
    let size := 2 ^ ((x.read 4).extractLsb' 0 5).toNat
    let a := (x.read 4).toNat / 2 ^ 12 % 2 ^ 36 * 2 ^ 12 + 64 * (x.evcnt.toNat % size)
    (x.events = e :: rest → x.enabled = true → x.evcnt.toNat - x.evhead.toNat < size → a + 64 ≤ s.capacity →
      exec (.eventPost q) s = .next ((s.storeWords a (e.take 8)).modQueue q fun y =>
        { y with events := rest, evcnt := y.evcnt + 1 })) ∧
    (port < 2 → s.portsDown.contains port = false → exec (.hostPortDown port) s = .next (State.pushFw
      { s with portsDown := port :: s.portsDown,
               sems := s.sems.map fun e => (e.1, if e.2 = port + 1 then 0 else e.2) } (.portDown port))) ∧
    exec (.oasisSubstitution p) s = .next (s.pushFw (.substitute p)) ∧
    (core < 12 → s.fwWorn.contains core = false → s.fwWorn.length < 4 →
      exec (.firmwareCoreWear core) s = .next (State.pushFw { s with fwWorn := core :: s.fwWorn } (.coreWear core))) ∧
    (core < 12 → s.fwWorn.contains core = false → 4 ≤ s.fwWorn.length → ∃ t, exec (.firmwareCoreWear core) s = .next t ∧
      t.agenda = .event .deviceLevelError :: s.agenda ∧ t.fwEvents = s.fwEvents ++ [.coreWear core]) ∧
    (die < 16 → exec (.supplySag die) s = .next ((s.modDie die fun d => { d with sag := true }).pushFw (.clock die false))) ∧
    exec (.clockStep die up) s = .next (s.pushFw (.clock die up)) ∧
    (core < 12 → s.fwWorn.contains core = false → s.verified = true → s.fwNext [] s.fwEvents = some (f, fs) →
      exec (.firmwareEvent core) s = .next
        (let s1 : State := { s with fwEvents := fs }
         match f with
         | .start q => s1.startCommand q
         | .overflow q => s1.stopQueue q 2 (s1.queue q).head.toNat true
         | .deviceError q =>
           (s1.killDevice true ((s1.launches.filter fun (e : Nat × Launch) => e.2.queue == q).map (·.1))).stopQueue q 6 0 false
         | .coreWear core => s1.postAll [ev0 6 2, BitVec.ofNat 64 core]
         | .completed n la => s1.nodeCompleted n la
         | .killed n la code addr x => s1.reportKill n la code addr x
         | .substitute p => s1.substitute p
         | .clock die up => s1.stepClock die up
         | .lane port active => s1.postAll [ev0 6 3, BitVec.ofNat 64 (port + active * 2 ^ 8)]
         | .portDown port => s1.postAll [ev0 8 port]
         | .aperture _ _ => s1)) ∧
    (∃ t, exec .deviceLevelError s = .next t ∧ t = (let k := s.killDevice false (s.launches.map (·.1))
      { k with fwEvents := k.fwEvents ++ (List.range 1024).map FwEvent.deviceError })) ∧
    (v ∈ [0, 8, 16, 32] → ∃ t, exec (.packageReset up v) s = .next t ∧ t.l2n = v ∧ t.verified = up ∧ t.groups = [] ∧
      t.launches = [] ∧ t.blocks = [] ∧ t.queues = [])

/-- Lanes, routes, drops, joins, peer accesses and contributions of the fabric. The fabric (R420 to R428, R438): failed lanes,
routes, drops, joining and leaving, peers' accesses, lost peers, and the contributions of reduction windows on their way.
LEAVE by bit 0 and when GONE is set are the model's readings (log entry 57), and so are which unit a contribution meets (60),
when a peer refuses and which packets of others a route waits for (35), and that a peer's operation while a window is enabled
may or may not contribute (39). -/
def Obligations.FabricEvents : Prop :=
  ∀ (s : State) (port src dst cls number id die entry pub fa a t d : Nat) (value x vb : W64) (routes : List (Nat × Nat)) (op : PeerOp)
    (r : Req) (k : Contrib) (w : WriteBack) (site : Site) (p : Publish) (bs : List Byte) (o : RedOp),
    let seen (t : State) : State := t.l2See a (peerShape op).1 (peerShape op).2.1.writes (8, (t.route t.pkg src).getD 0) 0
    let direct (t : State) : State := t.peerTurn src a op fun u => (seen u).peerPerform a op
    let n := (NMap.get { failures := 0 } s.ports port).failures
    (port < 48 → n < 3 → ∃ t, exec (.laneFailure port) s = .next t ∧
      t = State.pushFw { s with ports := NMap.put s.ports port { failures := n + 1 } } (.lane port (activeLanes (n + 1)))) ∧
    (src < 4096 → dst < 4096 → (src = s.pkg → s.delivered dst = true) →
      (src ≠ s.pkg → ∀ k ∈ s.contribs, src ∈ k.peers → s.homePackage k.addr ≠ dst) → port < 48 → exec (.routeChange src dst port) s = .next
      (State.settleGone { s with routes := NMap.put s.routes (src * 4096 + dst) port })) ∧
    (4 < cls → exec (.packetDrop cls dst) s = .next { s with drops := s.drops + 1 }) ∧
    (number < 4096 → ∃ t, exec (.packageJoin number routes) s = .next t ∧
      t = State.setHub { s with pkg := number, routes := routesOf routes, ftChanged := s.ft, locked := false } fctl 0) ∧
    (s.verified = true → value.getLsbD 0 = true → exec (.leave value) s = .next
      (((s.breakGangs s.gangCmds).setHub fctl (s.hubWord fctl ||| 1)).settleGone)) ∧
    (s.gone = false → fa < 2 ^ 48 →
      s.importHome fa (peerShape (.write bs)).1 (peerShape (.write bs)).2.2 (peerShape (.write bs)).2.1 = some a →
      exec (.peerAccess src fa (.write bs)) s = .next
        ((s.l2See a bs.length true (8, (s.route s.pkg src).getD 0) 0).storeBytes a bs)) ∧
    (s.gone = false → fa < 2 ^ 48 → s.importHome fa (peerShape op).1 (peerShape op).2.2 (peerShape op).2.1 = some a →
      (s.someWindow = none ∨ peerContrib op = none → exec (.peerAccess src fa op) s = .next (direct s) ∧
        (s.peerLaunch = none → exec (.peerAccess src fa op) s = .next ((seen s).peerPerform a op))) ∧
      (s.someWindow = some vb → peerContrib op = some (o, x) → ∃ t, exec (.peerAccess src fa op) s = .next t ∧
        (t = direct (s.pick 2).2 ∨ t = (s.pick 2).2.peerContribution src a o x vb))) ∧
    (s.gone = false → s.someWindow = some vb → peerContrib op = some (o, x) → dst < 4096 → dst ≠ s.pkg → s.cutOff dst = false →
      fa < 2 ^ 48 → exec (.peerAccess src ((dst + 1) * 2 ^ 48 + fa) op) s = .next
        (s.peerContribution src (peerAddr dst fa) o x vb)) ∧
    (s.gone = true ∨ fa < 2 ^ 48 ∧ s.importHome fa (peerShape op).1 (peerShape op).2.2 (peerShape op).2.1 = none →
      exec (.peerAccess src fa op) s = .next s) ∧
    (s.req? id = some r → 2 ^ 20 ≤ r.arr → r.todo ≠ [] → exec (.peerAccessFail id) s = .next
      (State.killLaunch { s with reqs := s.reqs.filter fun x => x.id != id } r.launch 0x30
        (fabricAddr ((r.todo.head?.map Access.addr).getD 0)) r.site)) ∧
    (s.req? id = none → (s.wbs.find? fun w => w.id == id) = some w → 2 ^ 60 ≤ w.line * 128 →
      let rest : State := { s with wbs := s.wbs.filter fun x => x.id != id }
      (w.through = some site → exec (.peerAccessFail id) s = .next
        (rest.killLaunch w.launch 0x30 (fabricAddr (w.line * 128 + (maskSpan w.mask).1)) site)) ∧
      (w.through = none → exec (.peerAccessFail id) s = .next
        (rest.killAll 0x30 (fabricAddr (w.line * 128)) (s.launchesOn w.core)))) ∧
    ((s.contribs.find? fun k => k.id == id) = some k → k.unit = none → k.past = false → die = s.edgeDie k.addr →
      ((s.contribsBefore k).any fun x => x.leads k) = false → exec (.contributionArrival die id) s = .next
        (s.unitTurn k die)) ∧
    ((s.contribs.find? fun k => k.id == entry) = some k → k.unit = some (die, t) → t ≤ s.ft →
      exec (.mergeHoldExpiry die entry) s = .next (s.forward entry)) ∧
    ((s.pubs.find? fun p => p.id == pub) = some p → (s.contribs.any fun k => k.ownedBy p && k.unit.isNone && !k.past) = false →
      (s.pubs.any fun x => p.contribs.contains x.id) = false → exec (.reductionFlush pub) s = .next
        ((s.forwards ((s.contribs.filter fun k => k.ownedBy p && k.unit.isSome).map Contrib.id)).flushSlots (List.range 4))) ∧
    ((s.contribs.find? fun k => k.id == id) = some k → k.past = true → s.peerDown k.addr = false → s.contribFirst k = true → 2 ^ 60 ≤ k.addr →
      exec (.reductionAck id) s = .next (s.performContrib k)) ∧
    ((s.contribs.find? fun k => k.id == id) = some k → k.past = true → s.peerDown k.addr = false → s.contribFirst k = true → k.addr < 2 ^ 60 →
      exec (.reductionAck id) s = .next
        (s.homeTurn k fun t => t.performContrib k))

/-- What each packet and each time does to the member of a gang that is here. Gangs (R429 to R433): what each packet and each
time does to the member of a gang that is here; a packet of a gang that is not here is counted as a drop. That a gang is known
by its tag, the remembered ABORT, the abort on an ARM of other words, the miss while time is not locked and the step GO_TIME
are the model's readings (log entry 61). -/
def Obligations.GangEvents : Prop :=
  ∀ (s : State) (q tag member time t : Nat) (k1 k2 k3 hash : W64) (c : Cmd) (g : Gang),
    (s.gangFor tag = none → (∀ i ∈ [Instr.go tag time, .started tag member, .miss tag, .broken tag],
      exec i s = .next { s with drops := s.drops + 1 }) ∧
      exec (.abort tag) s = .next { s with drops := s.drops + 1, aborted := tag :: s.aborted.filter (· != tag) }) ∧
    (s.gangFor (k1.extractLsb' 0 40).toNat = some (q, c, g) → g.leader = s.pkg → g.go = none → member < g.members.length →
      (cmdWord c.words 1 = k1 → cmdWord c.words 2 = k2 → cmdWord c.words 3 = k3 → g.hash = hash →
        exec (.arm member k1 k2 k3 hash) s = .next
          (let g1 : Gang := { g with arms := (member, true) :: g.arms.filter fun e => e.1 != member }
           (s.modGang q c.num fun _ => g1).tryGo q c.num g1)) ∧
      (g.hash ≠ hash → exec (.arm member k1 k2 k3 hash) s = .next
        (State.abortGang (s.sendCtl g.tag .abort g.members) q c.num g.tag))) ∧
    (s.cmd? q t = some c → c.begun = true → c.gang = some g → g.armedAt = none → s.ft ≤ g.start + usTicks g.armTimeout →
      s.locked = true → s.gangPlaced q t = true → exec (.gang q t tag member k1 k2 k3) s = .next
        ((s.armMember q t g).started q t)) ∧
    (s.gangFor tag = some (q, c, g) →
      let missed : State := (s.tellBroken q c.num).breakGang q c.num
      (g.armedAt.isSome = true → g.go = none → s.ft ≤ time → s.locked = true →
        exec (.go tag time) s = .next (s.modGang q c.num fun x => { x with go := some time })) ∧
      (g.armedAt.isSome = true → g.go = none → (time < s.ft ∨ s.locked = false) → exec (.go tag time) s = .next missed) ∧
      (g.go = some t → g.issued = false → t = s.ft → s.locked = true → s.gangPlaced q c.num = true →
        (s.launchesOf q c.num).all s.canIssue = true →
        exec (.goTime tag) s = .next (((s.unhold (s.launchesOf q c.num)).modGang q c.num fun x =>
          { x with issued := true, started := if x.leader = s.pkg then x.me :: x.started else x.started }).sendCtl tag .started
            [g.leader])) ∧
      (g.go = some t → g.issued = false → t ≤ s.ft → (t < s.ft ∨ s.locked = false ∨ s.gangPlaced q c.num = false ∨
        (s.launchesOf q c.num).all s.canIssue = false) → exec (.goTime tag) s = .next missed) ∧
      (g.go = some t → g.leader = s.pkg → g.started.contains member = false → member < g.members.length →
        t + usTicks 2 ≤ s.ft → exec (.started tag member) s = .next missed) ∧
      (g.go = some t → g.leader = s.pkg → g.started.contains member = false → member < g.members.length →
        s.ft < t + usTicks 2 → exec (.started tag member) s = .next
          ((s.modGang q c.num fun x => { x with started := member :: x.started }).settleCmd q c.num)) ∧
      (g.issued = false → exec (.abort tag) s = .next (s.abortGang q c.num tag)) ∧
      exec (.miss tag) s = .next (s.breakGang q c.num) ∧ exec (.broken tag) s = .next (s.breakGang q c.num) ∧
      (g.leader = s.pkg → g.go = none → g.start + usTicks g.armTimeout ≤ s.ft →
        exec (.armTimeout tag) s = .next (State.abortGang (s.sendCtl g.tag .abort g.members) q c.num g.tag)) ∧
      (g.leader ≠ s.pkg → g.armedAt = none → g.start + usTicks g.armTimeout ≤ s.ft →
        exec (.armTimeout tag) s = .next (s.releaseGang q c.num)) ∧
      (g.leader = s.pkg → g.go = some t → t + usTicks 2 ≤ s.ft → g.started.length < g.members.length →
        exec (.startedDeadline tag) s = .next missed) ∧
      (g.armedAt = some t → g.go = none → t + usTicks g.armTimeout + nsTicks g.goLead + usTicks 2 ≤ s.ft →
        exec (.gangReleaseTimeout tag) s = .next (s.releaseGang q c.num)))

/-- Packets set the fabric time, an unchanged path locks it, surfaces show their frames. Time and the output surfaces (R433 to
R437): packets set the time, an unchanged path locks it, a surface's frame is chosen before its edge and delivered at it. -/
def Obligations.TimeAndSurfaces : Prop :=
  ∀ (s : State) (surface n : Nat) (p : W64) (delta : Int),
    let x := s.surface surface
    let m (w : Nat) : W64 := s.mirage surface w
    let pb := (m 4).toNat
    let chosen (s : State) (p : W64) : State :=
      { s with surfaces := NMap.put s.surfaces surface { chosen := some (x.checked, p), checked := x.checked + 1 } }
    let due : Prop := surface < 8 ∧ (m 0).getLsbD 0 = true ∧ x.chosen = none ∧ m 1 ≠ 0 ∧
      (m 2).toNat + x.checked * (m 1).toNat ≤ s.ft + (m 3).toNat
    exec (.timePacket delta false) s = .next { s with ft := ((s.ft : Int) + delta).toNat } ∧
    (∃ t, exec (.timePacket delta true) s = .next t ∧ t.ftChanged = t.ft ∧ t.locked = false) ∧
    (s.ftChanged + usTicks 1000 ≤ s.ft → exec .timeLock s = .next { s with locked := true }) ∧
    (due → x.checked ≤ (s.load64 (pb + 16)).toNat →
      exec (.mirageDeadline surface) s = .next (chosen s (s.load64 pb))) ∧
    (due → (s.load64 (pb + 16)).toNat < x.checked → exec (.mirageDeadline surface) s = .next
      (let s1 : State :=
         { chosen s (s.load64 (pb + 8)) with misses := NMap.set 0 s.misses surface (NMap.get 0 s.misses surface + 1) }
       if s.locked then
         s1.postEvent ((m 0).extractLsb' 16 10).toNat
           [ev0 9 surface, BitVec.ofNat 64 x.checked, s.load64 (pb + 8), s.load64 (pb + 16)]
       else s1)) ∧
    (x.chosen = some (n, p) → (m 0).getLsbD 0 = true → (m 2).toNat + n * (m 1).toNat ≤ s.ft →
      exec (.vsync surface) s = .next
        (let s1 := (s.setHub (mirageBase surface + 40) p).setHub (mirageBase surface + 48) (BitVec.ofNat 64 n)
         { s1 with surfaces := NMap.put s1.surfaces surface { x with chosen := none } }))

/-- Faults of engines and memory kill the launches that they hit; corrected errors are counted. Faults of the engines and of
memory (R219, R250, R314, R323, R356, R375): a job's device access that does not translate kills its launch with CODE 0x30 at
the instruction that started it, and a pool's kills every launch of its pass; an uncorrectable error kills the launches of the
accesses that met it, those of a copy or encoder job with CODE 0x30 and the others with 0x31 (the model's choice between R314
and R323, log entry 23), at the launch site; a corrected one is counted and recorded. -/
def Obligations.MemoryFaultEvents : Prop :=
  ∀ (s : State) (n m die loc slot : Nat) (addr : W64) (u : MemUnit) (e : EngineRef) (x : Site) (g : Group) (cmd : Cmd),
    let place := errorPlace u die loc
    let met (x : ErrorAccess) : Result := exec (.uncorrectableError u die loc [x]) s
    (s.engineFails e addr = true → s.engineWork e addr = some (n, x) →
      exec (.asyncEngineFault e addr) s = .next (s.killLaunch n 0x30 addr x)) ∧
    (s.engineFails (.pool slot) addr = true →
      exec (.asyncEngineFault (.pool slot) addr) s = .next (s.poolFault slot 0x30 addr (Site.of 0))) ∧
    (s.group? n = some g →
      met (.group n) = .next (s.killLaunch g.launch 0x31 place (match g.clause with
        | some c => s.siteOf g c.pc
        | none => s.lastSite g))) ∧
    (s.opWork m = some (n, x) → met (.op m) = .next (s.killLaunch n 0x31 place x)) ∧
    (s.engineWork (.copyJob m) addr = some (n, x) → met (.engine (.copyJob m) addr) = .next (s.killLaunch n 0x30 addr x)) ∧
    (s.engineWork (.encoderJob m) addr = some (n, x) → met (.engine (.encoderJob m) addr) = .next (s.killLaunch n 0x30 addr x)) ∧
    (∀ e ∈ [EngineRef.matrixOp m, .ray m, .primitive m, .tilePass slot m],
      s.engineWork e addr = some (n, x) → met (.engine e addr) = .next (s.killLaunch n 0x31 place x)) ∧
    met (.engine (.pool slot) addr) = .next (s.poolFault slot 0x31 place (Site.of 0)) ∧
    (s.cmd? n m = some cmd → met (.command n m) = .next (s.failCommand n m .operand)) ∧
    exec (.softErrorCorrected u die loc) s = .next
      ((s.modDie die fun d => { d with corrected := d.corrected + 1 }).record die 10 [place])

/-- An instruction that writes its own group changes nothing else. The frame of an instruction that writes its own group (R6,
R35, R38, R55): nothing but the group changes, memory reads as before, the specials and the handler's registers are those that
its effect leaves, its tail's slot counts one more. -/
def Obligations.RegisterFrames : Prop :=
  ∀ (i : Instr) (uses : List Use) (tl : Tail) (cond : Ctx → State → Prop) (eff : Ctx → State → Group) (s : State) (c : Ctx),
    Completes i uses tl cond (fun c s => s.put c (eff c s)) → Issues s c uses tl → cond c s →
    ((eff c s).clause.map fun cl => (cl.pc, cl.lastWord)) = some (c.cl.pc, c.cl.lastWord) → KeepsSpecials none c.g (eff c s) →
    ∃ t g, exec i s = .next t ∧ t.group? c.gid = some g ∧ OnlyGroup c.gid tl s t ∧ SameMemory s t ∧ KeepsSpecials tl c.g g ∧
      g.v = (eff c s).v ∧ g.s = (eff c s).s ∧ g.cm = (eff c s).cm ∧ g.en = (eff c s).en ∧ g.lc = (eff c s).lc ∧ g.fps = (eff c s).fps ∧
      (∀ l < 32, g.pc l = if c.at_.getLsbD l = true ∧ (eff c s).live.getLsbD l = true then (eff c s).pc l + 8 else (eff c s).pc l)

/-- A result in a V register reaches the lanes of EM and the queue, and nothing else. What a result in a V register does (R6,
R35, R37, R39, R40, R72), for every instruction that completes with one: the lanes of EM take their values, the others and
every other register keep theirs, flags are ored in, a 32-bit result is pushed onto the queue, which the clause's last word
empties, and nothing else changes. -/
def Obligations.VectorResults : Prop :=
  ∀ (i : Instr) (uses : List Use) (r : BitVec 6) (tl : Tail) (sx : Bool) (f : Ctx → Nat → W32 × FpFlags)
    (h : Ctx → Nat → W64 × FpFlags) (s : State) (c : Ctx),
    let last (c : Ctx) : Prop := c.cl.pc = c.cl.lastWord
    let flags (fl : Nat → FpFlags) : FpFlags := (if uses.any Use.readsFps then 0 else c.g.fps) ||| flagsOver fl (laneList c.em)
    let kept (t : State) (g : Group) : Prop :=
      t.group? c.gid = some g ∧ g.s = c.g.s ∧ g.cm = c.g.cm ∧ g.en = c.g.en ∧ g.lc = c.g.lc ∧ KeepsSpecials tl c.g g ∧
        OnlyGroup c.gid tl s t ∧ SameMemory s t
    (Gives32 i uses (.v r) tl sx f → Issues s c (uses ++ [.dst (.v r) false]) tl →
      ∃ t g, exec i s = .next t ∧ kept t g ∧
        (∀ l < 32, g.vget r.toNat l = if c.em.getLsbD l then (f c l).1 else c.g.vget r.toNat l) ∧
        (∀ n, n ≠ r.toNat → ∀ l < 32, g.vget n l = c.g.vget n l) ∧
        g.fps = flags (fun l => (f c l).2) ∧
        (¬ last c → g.queue = ((lanes.map fun l => if c.em.getLsbD l then (f c l).1 else 0) :: c.g.queue).take 16) ∧
        (last c → g.queue = [] ∧ g.clause = none)) ∧
    (Gives64 i uses (.v r) tl h → Issues s c (uses ++ [.dst (.v r) true]) tl →
      ∃ t g, exec i s = .next t ∧ kept t g ∧
        (∀ l < 32, g.vget64 r.toNat l = if c.em.getLsbD l then (h c l).1 else c.g.vget64 r.toNat l) ∧
        (∀ n, n ≠ r.toNat → n ≠ r.toNat + 1 → ∀ l < 32, g.vget n l = c.g.vget n l) ∧
        g.fps = flags (fun l => (h c l).2) ∧ (¬ last c → g.queue = c.g.queue) ∧ (last c → g.queue = [] ∧ g.clause = none))

/-- A result in an S register or a special is written once and pushes nothing; one for the queue alone is pushed. What a
result in an S register, a special or the queue alone does (R35, R37, R39, R40, R70, R72): a scalar one is written once, zero-
or sign-extended, and pushes nothing; one for the queue alone is pushed and written nowhere. -/
def Obligations.ScalarResults : Prop :=
  ∀ (i : Instr) (uses : List Use) (r : BitVec 5) (k : Special) (tl : Tail) (sx : Bool) (f : Ctx → Nat → W32 × FpFlags)
    (h : Ctx → Nat → W64 × FpFlags) (s : State) (c : Ctx),
    let last (c : Ctx) : Prop := c.cl.pc = c.cl.lastWord
    let clears : Bool := uses.any Use.readsFps
    let kept (t : State) (g : Group) : Prop :=
      t.group? c.gid = some g ∧ g.v = c.g.v ∧ KeepsSpecials tl c.g g ∧ OnlyGroup c.gid tl s t ∧ SameMemory s t ∧
        (last c → g.queue = [] ∧ g.clause = none)
    let masks (g : Group) : Prop := g.cm = c.g.cm ∧ g.en = c.g.en ∧ g.lc = c.g.lc
    (Gives32 i uses (.s r) tl sx f → Issues s c (uses ++ [.dst (.s r) false]) tl →
      ∃ t g, exec i s = .next t ∧ kept t g ∧ masks g ∧
        g.sget r.toNat = (if sx then (f c 0).1.signExtend 64 else (f c 0).1.setWidth 64) ∧
        (∀ n, n ≠ r.toNat → g.sget n = c.g.sget n) ∧ g.fps = (if clears then 0 else c.g.fps) ||| (f c 0).2 ∧
        (¬ last c → g.queue = c.g.queue)) ∧
    (Gives64 i uses (.s r) tl h → Issues s c (uses ++ [.dst (.s r) true]) tl →
      ∃ t g, exec i s = .next t ∧ kept t g ∧ masks g ∧ g.sget r.toNat = (h c 0).1 ∧
        (∀ n, n ≠ r.toNat → g.sget n = c.g.sget n) ∧ (¬ last c → g.queue = c.g.queue)) ∧
    (Gives32 i uses .keep tl sx f → Issues s c (uses ++ [.dst .keep false]) tl →
      ∃ t g, exec i s = .next t ∧ kept t g ∧ masks g ∧ g.s = c.g.s ∧
        g.fps = (if clears then 0 else c.g.fps) ||| flagsOver (fun l => (f c l).2) (laneList c.em) ∧
        (¬ last c → g.queue = ((lanes.map fun l => if c.em.getLsbD l then (f c l).1 else 0) :: c.g.queue).take 16)) ∧
    (Gives32 i uses (.sp k) tl sx f → Issues s c (uses ++ [.dst (.sp k) false]) tl →
      ∃ t g, exec i s = .next t ∧ kept t g ∧ g.s = c.g.s ∧ (¬ last c → g.queue = c.g.queue) ∧
        g.cm = (if k = .cm then (f c 0).1 else c.g.cm) ∧ g.en = (if k = .en then (f c 0).1 else c.g.en) ∧
        g.lcGet 0 = (if k = .lc0 then (f c 0).1 else c.g.lcGet 0) ∧ g.lcGet 1 = (if k = .lc1 then (f c 0).1 else c.g.lcGet 1) ∧
        g.lcGet 2 = (if k = .lc2 then (f c 0).1 else c.g.lcGet 2) ∧
        g.fps = if k = .fps then (f c 0).1.setWidth 5 else (if clears then 0 else c.g.fps) ||| (f c 0).2)

/-- Wrapped sums and products are those of bit vectors; bit counts and reversal are what they say. What the results of the
integer instructions are as bit patterns (R75, R79): sums, differences and products wrap at 32 bits; popc counts the bits that
are 1, clz and ctz give the place of the nearest one, brev turns the bits round. -/
def Obligations.BitPatterns : Prop :=
  ∀ (c : Ctx) (a b : Operand) (l x k w : Nat),
    (∀ t ∈ [IType.i32, .n32],
      BitVec.ofNat 32 (wrappedInt t (c.int t a l + c.int t b l)) = c.bits32 a l + c.bits32 b l ∧
      BitVec.ofNat 32 (wrappedInt t (c.int t a l - c.int t b l)) = c.bits32 a l - c.bits32 b l ∧
      BitVec.ofNat 32 (wrappedInt t (c.int t a l * c.int t b l)) = c.bits32 a l * c.bits32 b l) ∧
    (∀ t ∈ [IType.i64, .n64],
      BitVec.ofNat 64 (wrappedInt t (c.int t a l + c.int t b l)) = c.bits64 a l + c.bits64 b l ∧
      BitVec.ofNat 64 (wrappedInt t (c.int t a l - c.int t b l)) = c.bits64 a l - c.bits64 b l) ∧
    popCount x w = ((List.range w).filter fun i => x.testBit i).length ∧
    (k < w → x.testBit k = true → (∀ i < k, x.testBit i = false) → trailingZeros x w = k) ∧
    ((∀ i < w, x.testBit i = false) → trailingZeros x w = w) ∧
    (∀ i < w, (reverseBits x w).testBit i = x.testBit (w - 1 - i)) ∧ reverseBits x w < 2 ^ w

/-- The source lane of each routing code, for V and Q operands and pairs. Lane routing (R43): the source lane of each routing
code; a V or Q operand, and a pair as a unit, is read in that lane. -/
def Obligations.LaneRouting : Prop :=
  ∀ (c : Ctx) (code : BitVec 4) (l : Nat) (r : BitVec 6) (q : BitVec 4), l < 32 →
    let g := c.g
    (c.bits32 (.v r code) l = g.supply r.toNat (g.route code l) ∧ c.bits32 (.q q code) l = g.qget q.toNat (g.route code l) ∧
      c.bits64 (.v r code) l = g.supply (r.toNat + 1) (g.route code l) ++ g.supply r.toNat (g.route code l)) ∧
    let e := g.rt (code.toNat - 9)
    let n := (e.extractLsb' 0 6).toNat
    let kind := (e.extractLsb' 14 2).toNat
    (code.toNat = 0 → g.route code l = l) ∧
    (1 ≤ code.toNat → code.toNat ≤ 5 → g.route code l = l ^^^ 2 ^ (code.toNat - 1)) ∧
    (code.toNat = 6 → g.route code l = 0) ∧
    (code.toNat = 7 → g.route code l = (l + 1) % 32) ∧
    (code.toNat = 8 → g.route code l = (l + 31) % 32) ∧
    (9 ≤ code.toNat → kind = 0 → g.route code l = (l + n) % 32) ∧
    (9 ≤ code.toNat → kind = 1 → n < 32 → g.route code l = n) ∧
    (9 ≤ code.toNat → kind = 2 → n < 32 → g.route code l = l ^^^ n) ∧
    (9 ≤ code.toNat → kind = 3 → g.route code l = (g.vget n l).toNat % 32) ∧
    g.route code l < 32

/-- What a source lane supplies, and the table of constants. What a source lane supplies (R44, R54): a V operand's register
where the lane was launched and zero elsewhere, a Q operand its entry's element, a constant its table value. -/
def Obligations.OperandValues : Prop :=
  ∀ (c : Ctx) (r : BitVec 6) (q rt : BitVec 4) (i : BitVec 6) (l : Nat),
    let m := c.g.route rt l
    c.bits32 (.v r rt) l = (if c.g.launched.getLsbD m then c.g.vget r.toNat m else 0) ∧
    c.bits64 (.v r rt) l = (if c.g.launched.getLsbD m then c.g.vget (r.toNat + 1) m else 0) ++
      (if c.g.launched.getLsbD m then c.g.vget r.toNat m else 0) ∧
    c.bits32 (.q q rt) l = ((c.g.queue.getD q.toNat []).getD m 0) ∧
    (i.toNat < 32 → c.bits32 (.const i) l = BitVec.ofNat 32 i.toNat) ∧
    ((List.range 15).map fun n => c.bits32 (.const (BitVec.ofNat 6 (32 + n))) l) =
      [0xFFFFFFFF, 0x80000000, 0x7FFFFFFF, 0x3F000000, 0x3F800000, 0x40000000, 0x40800000, 0xBF000000, 0xBF800000, 0xC0000000,
       0xC0800000, 0x3E800000, 0x41000000, 0x7F800000, 0x7FC00000] ∧
    c.bits64 (.const i) l = (c.bits32 (.const i) l).signExtend 64 ∧
    c.word32 .f16 (.const 45) l = 0x7C00 ∧ c.word32 .bf16 (.const 45) l = 0x7F80 ∧ c.word32 .f16 (.const 46) l = 0x7E00 ∧
    c.word32 .bf16 (.const 46) l = 0x7FC0 ∧ c.word32 .f16x2 (.const 36) l = 0x3C003C00 ∧ c.word32 .f16x2 (.const 32) l = 0xFFFFFFFF

/-- Taking a precise trap saves the group and sends every live lane to the handler. Taking a precise trap (R252, R255):
outside handlers, with a trap handler, every live lane goes to it; EPC, SEN, SCM, the queue's shadow, ECAUSE, EADDR, EMASK and
EHDR are saved, EN becomes the fault mask, HKIND 1; no register, window, flag or slot of the group and nothing in memory
changes. That the queue saved at a boundary is that of lanes which would have resumed inside a clause is the model's reading
(log entry 27). -/
def Obligations.TrapEntry : Prop :=
  ∀ (s : State) (gid : Nat) (g : Group) (la : Launch) (pc hdr : W64) (t : Trap),
    let inside : Prop := g.clause = none ∧ g.mid ≠ 0
    s.group? gid = some g → s.launch? g.launch = some la → g.hkind = 0 → la.tha ≠ 0 →
    ∃ h, (s.takeTrap gid pc hdr t).group? gid = some h ∧
      (∀ l < 32, g.live.getLsbD l = true →
        NMap.get 0 h.epc l = (if g.pc l = pc then t.resume else g.pc l) ∧ h.pc l = la.tha) ∧
      (∀ l < 32, g.live.getLsbD l = false → NMap.get 0 h.epc l = NMap.get 0 g.epc l ∧ h.pc l = g.pc l) ∧
      h.ehdr = hdr ∧ h.sen = g.en ∧ h.scm = g.cm ∧ (inside → h.shadow = g.midQueue) ∧ (¬ inside → h.shadow = g.queue) ∧ h.queue = [] ∧
      h.ecause = t.cause ∧ h.eaddr = t.addr ∧ h.emask = t.mask ∧ h.hkind = 1 ∧ h.en = t.mask ∧ h.clause = none ∧
      h.v = g.v ∧ h.s = g.s ∧ h.cm = g.cm ∧ h.fps = g.fps ∧ h.lc = g.lc ∧ h.w = g.w ∧ h.t = g.t ∧ h.sb = g.sb ∧
      h.live = g.live ∧ h.escr = g.escr ∧
      (∀ n, n ≠ gid → (s.takeTrap gid pc hdr t).group? n = s.group? n) ∧ SameMemory s (s.takeTrap gid pc hdr t)

/-- A double or unhandled trap kills the launch, and a killed launch leaves nothing behind. A trap in a handler, or with no
trap handler (R257), kills the launch context, and a killed context leaves no group, block, operation or job of its own
behind, and its report to the firmware (R267). -/
def Obligations.KilledContexts : Prop :=
  ∀ (s : State) (gid n code : Nat) (g : Group) (la : Launch) (pc hdr addr : W64) (t : Trap) (x : Site),
    (s.group? gid = some g → s.launch? g.launch = some la → (g.hkind ≠ 0 ∨ la.tha = 0) →
      s.takeTrap gid pc hdr t = (s.trapWalk gid g t).killLaunch g.launch t.code t.addr (s.siteOf g pc)) ∧
    (s.launch? n = some la →
      let k := s.discard n
      s.killLaunch n code addr x = k.pushFw (.killed n la code addr x) ∧ k.launch? n = none ∧ (∀ e ∈ k.groups, e.2.launch ≠ n) ∧ (∀ e ∈ k.blocks, e.2.launch ≠ n) ∧ (∀ a ∈ k.asyncs, a.launch ≠ n) ∧
        (∀ w ∈ k.ctrWaits, w.launch ≠ n) ∧ (∀ e ∈ k.dies, ∀ w ∈ e.2.apWrites, w.launch ≠ n) ∧ (∀ j ∈ k.copies, j.launch ≠ n) ∧ (∀ j ∈ k.encodes, j.launch ≠ n) ∧
        (∀ r ∈ k.rays, r.launch ≠ n) ∧ (∀ p ∈ k.prims, p.launch ≠ n))

/-- A handler that returns undoes its entry. A handler's return undoes its entry (R255, R258): after the entry and the return
EN, CM and the live lanes are as before, the lanes that stood at the trapping word go to the resume address and the others to
where they stood. That the saved queue and header are kept for lanes that resume inside a clause is the model's reading (log
entry 27). -/
def Obligations.HandlerRoundTrip : Prop :=
  ∀ (g : Group) (kind : BitVec 2) (target pc hdr header : W64) (t : Trap),
    let h := (g.enterHandler kind target pc hdr t).leaveHandler header
    let inside : Prop := g.clause = none ∧ g.mid ≠ 0
    h.en = g.en ∧ h.cm = g.cm ∧ h.live = g.live ∧ h.hkind = 0 ∧ (inside → h.midQueue = g.midQueue) ∧ (¬ inside → h.midQueue = g.queue) ∧ h.midHdr = hdr ∧
      (∀ l < 32, h.pc l = if g.live.getLsbD l then (if g.pc l = pc then t.resume else g.pc l) else g.pc l) ∧
      h.v = g.v ∧ h.s = g.s ∧ h.fps = g.fps ∧ h.lc = g.lc ∧ h.sb = g.sb

/-- An instruction with a full slot does not issue; completions release slots of their own grant alone. The scoreboard (R38,
R55): an instruction whose tail names a slot that holds 63 does not issue, whatever it is: nothing changes. An asynchronous
operation that completes under its group's own tag takes one from its slot alone; one of an earlier grant changes nothing in
the group (R132). -/
def Obligations.ScoreboardCounts : Prop :=
  ∀ (i : Instr) (s : State) (c : Ctx) (n : BitVec 3) (op : Nat) (a : AsyncOp) (g : Group),
    (s.ctx? = some c → i.tailSlot = some n → c.g.sbGet n.toNat = 63 → exec i s = .next s) ∧
    ((s.asyncs.find? fun x => x.id == op) = some a → s.asyncReady a = true → a.slot = some n → s.group? a.gid = some g →
      ∃ t h, exec (.asyncComplete op) s = .next t ∧ t.group? a.gid = some h ∧
        (a.tag = g.tag → h.sbGet n.toNat = g.sbGet n.toNat - 1 ∧ ∀ k : BitVec 3, k ≠ n → h.sbGet k.toNat = g.sbGet k.toNat) ∧
        (a.tag ≠ g.tag → h = g))

/-- An access that fails its checks traps with the first cause in the order of R174. Faults of loads and stores (R159, R160,
R166, R174): an access that fails its checks traps precisely with the first cause that any lane raises, in the order address-
space, misalignment, stack limit, translation, the mask of the lanes that raise it and the lowest one's address. -/
def Obligations.AccessFaults : Prop :=
  ∀ (wd : Width) (sx : Bool) (pol : Policy) (d : BitVec 6) (src : Dest) (base index : Operand) (off : BitVec 12) (tl : Tail)
    (e : MemErr) (m : LaneMask) (s0 : State) (v : View) (ls : List Nat) (a : Nat → W64) (n al : Nat) (k : AccKind) (single : Bool),
    let addr (c : Ctx) (l : Nat) : W64 := c.bits64 base l + c.g.readIndex c.rank index l + off.signExtend 64
    let fails (k : AccKind) : Ctx → State → Prop := fun c s =>
      (∀ l ∈ laneList c.em, s.heldAddr (s.viewOf c.gid c.g) l (addr c l) = false) ∧
        s.memCheck (s.viewOf c.gid c.g) (laneList c.em) (addr c) (Width.bytes wd) (Width.bytes wd) k false = some (e, m)
    let trap (wr : Bool) (c : Ctx) : Trap :=
      { code := e.code, wr := wr, addr := addr c ((lowestLane m).getD 0), mask := m, resume := c.cl.pc }
    let lanesOf (p : Nat → Bool) : LaneMask := maskFrom p ls
    let space := lanesOf fun l => s0.spaceErr v (a l) n k single
    let misaligned := lanesOf fun l => (a l).toNat % al != 0
    let stack := lanesOf fun l => v.stackErr (a l) n
    let trans := lanesOf fun l => s0.transErr v l (a l) n k
    (∀ s c, Issues s c [.src64 base, .src index, .regs d (Width.regs wd) (Width.regs wd)] tl → fails .read c (s.settle c [.src64 base, .src index, .regs d (Width.regs wd) (Width.regs wd)]) →
      exec (.ld wd sx pol d base index off tl) s = .next (s.takeTrap c.gid c.cl.pc c.cl.hdr (trap false c))) ∧
    (∀ s c, Issues s c ([.src64 base, .src index] ++ storeUse src (Width.regs wd)) tl → fails .write c (s.settle c ([.src64 base, .src index] ++ storeUse src (Width.regs wd))) →
      exec (.st wd pol src base index off tl) s = .next (s.takeTrap c.gid c.cl.pc c.cl.hdr (trap true c))) ∧
    MemErr.space.code = 0x08 ∧ MemErr.misaligned.code = 0x09 ∧ MemErr.stack.code = 0x0A ∧ MemErr.translation.code = 0x0B ∧
    s0.memCheck v ls a n al k single =
      (if space ≠ 0 then some (.space, space) else if misaligned ≠ 0 then some (.misaligned, misaligned)
       else if stack ≠ 0 then some (.stack, stack) else if trans ≠ 0 then some (.translation, trans) else none)

/-- A private access at or beyond the stack limit raises the stack-limit fault. The stack limit (R165, R166): a private access
with a byte at or beyond four times the launch's limit raises the stack-limit fault of the lanes that make one, after the
address-space and alignment checks; with a limit of zero every private access does. -/
def Obligations.StackLimit : Prop :=
  ∀ (wd : Width) (sx : Bool) (pol : Policy) (d : BitVec 6) (base index : Operand) (off : BitVec 12) (tl : Tail) (s : State) (c : Ctx),
    let addr (l : Nat) : W64 := c.bits64 base l + c.g.readIndex c.rank index l + off.signExtend 64
    let n := Width.bytes wd
    let uses : List Use := [.src64 base, .src index, .regs d (Width.regs wd) (Width.regs wd)]
    let s1 := s.settle c uses
    let v := s1.viewOf c.gid c.g
    let priv (l : Nat) : Prop := 0xFE00000000000000 ≤ (addr l).toNat ∧ (addr l).toNat < 0xFF00000000000000
    let beyond (l : Nat) : Prop := priv l ∧ ∃ i < n, 4 * v.la.plim ≤ (addr l).toNat - 0xFE00000000000000 + i
    let bad (l : Nat) : Prop := c.em.getLsbD l = true ∧ beyond l
    Issues s c uses tl →
    (∀ l < 32, c.em.getLsbD l = true → s1.heldAddr v l (addr l) = false ∧ s1.spaceErr v (addr l) n .read false = false ∧
      (addr l).toNat % n = 0) →
    (v.la.plim = 0 → ∀ l, priv l → beyond l) ∧
    ((∃ l < 32, bad l) → ∃ m low, low < 32 ∧ bad low ∧ (∀ l < low, ¬ bad l) ∧ (∀ l < 32, m.getLsbD l = true ↔ bad l) ∧
      exec (.ld wd sx pol d base index off tl) s =
        .next (s.takeTrap c.gid c.cl.pc c.cl.hdr
          { code := 0x0A, wr := false, addr := addr low, mask := m, resume := c.cl.pc }))

/-- Memory reads back what was written, little-endian, and every other byte is as before. Memory (R161, R173), in its
canonical form (log entry 1): what is written at an address reads back, little-endian, every other byte reads as before, and
the form is kept. -/
def Obligations.MemoryBytes : Prop :=
  ∀ (s : State) (a b n : Nat) (bs : List Byte) (v : W64), Memory.wf s.mem = true →
    (n < bs.length → Memory.read (s.storeBytes a bs).mem (a + n) = bs.getD n 0) ∧
    (b < a ∨ a + bs.length ≤ b → Memory.read (s.storeBytes a bs).mem b = Memory.read s.mem b) ∧
    (s.store64 a v).load64 a = v ∧ (s.store32 a (v.setWidth 32)).load32 a = v.setWidth 32 ∧
    (∀ i < 8, Memory.read (s.store64 a v).mem (a + i) = v.extractLsb' (8 * i) 8) ∧
    (∀ i < 4, Memory.read (s.store32 a (v.setWidth 32)).mem (a + i) = v.extractLsb' (8 * i) 8) ∧
    Memory.wf (s.storeBytes a bs).mem = true

/-- A core reads back what it stored through its L1. What a core has stored it reads back (R161, R162): a load of the bytes of
a core's own store through its L1 gives their value, whatever the policies but a bypassing store. -/
def Obligations.OwnStoresReadBack : Prop :=
  ∀ (s : State) (core launch pa k x : Nat) (site : Site) (pol pol' : Policy), let n := 2 ^ k
    k ≤ 5 → pa % n = 0 → pol ≠ .byp →
    ((s.l1Store core launch site pol pa n x).l1Load core pol' pa n).1 = x % 2 ^ (8 * n)

/-- A direct transfer sends its lanes to its target, the others at the word past the clause, and changes no register but a
link. Where a direct transfer sends the lanes (R35, R134, R137): those that bra, brc, bru or call sends go to the target, the
others at the word to the address after the clause, and the lanes elsewhere stay; the clause ends and its queue is lost; no
register changes but the link of call, which holds the address after the clause. A bru that is taken sends every lane of EM,
one that is not sends none. -/
def Obligations.BranchedLanes : Prop :=
  ∀ (cond : BrcCond) (ucond : BruCond) (h : Hint) (off : BitVec 24) (link : BitVec 5) (s : State) (c : Ctx),
    let moved (sel : LaneMask) (t : State) (g : Group) : Prop := t.group? c.gid = some g ∧
      (∀ l < 32, g.pc l = if c.at_.getLsbD l then (if (sel &&& c.em).getLsbD l then c.cl.target off else c.cl.fall) else c.g.pc l) ∧
      g.clause = none ∧ g.queue = [] ∧ g.v = c.g.v ∧ g.cm = c.g.cm ∧ g.en = c.g.en ∧ g.lc = c.g.lc ∧ g.live = c.g.live ∧
      (∀ n, n ≠ c.gid → t.group? n = s.group? n) ∧ SameMemory s t
    targetOk (c.cl.target off) = true →
    (Issues s c [] none → ∃ t g, exec (.bra h off) s = .next t ∧ moved c.em t g ∧ g.s = c.g.s) ∧
    (Issues s c (brcUses cond) none → ∃ t g, exec (.brc cond h off) s = .next t ∧ moved (brcLanes cond c) t g ∧ g.s = c.g.s) ∧
    (Issues s c (bruUses ucond) none → ∃ t g, exec (.bru ucond h off) s = .next t ∧ g.s = c.g.s ∧
      (bruTaken ucond c = true → moved c.em t g) ∧ (bruTaken ucond c = false → moved 0 t g)) ∧
    (Issues s c [] none → ∃ t g, exec (.call link h off) s = .next t ∧ moved c.em t g ∧ g.sget link.toNat = c.cl.fall ∧
      ∀ n, n ≠ link.toNat → g.sget n = c.g.sget n)

/-- A step runs the instruction that the word at the group's turn decodes to. A step runs the decoded instruction (R35, R50,
R122): with a group's turn on the agenda and no breakpoint at its word, the step, once time has passed, is the execution of
what the word decodes to, with that group and word as the ones at hand: the word that the clause's own fetch brought, or,
where none did and no migration holds its page, the one that stands there. A word that is no instruction, or may not stand
there, is executed as an illegal one; where no word can be fetched, the lanes at it take the fetch's trap. -/
def Obligations.StepRunsDecoded : Prop :=
  ∀ (s : State) (gid : Nat) (rest : List Move) (g : Group) (cl : Clause) (w : W64) (i : Instr),
    let s1 : State := { s.tend with agenda := rest }
    let runs (r : State) : Prop :=
      let ready : State := { r with cur := some gid, word := w }
      (decode w = .ok i → cl.admits w = true → step s = exec i ready) ∧
      (decode w = .ok i → cl.admits w = false → step s = exec (.illegalOpcode w) ready) ∧
      (∀ e, decode w = .error e → step s = exec (.illegalOpcode w) ready)
    s.agenda = .word gid :: rest → s1.group? gid = some g → g.clause = some cl → s1.breakpoint g cl.pc = none →
    (cl.held = some (some w) → runs s1) ∧
    (cl.held = none → s1.fetchHeld g cl.pc = false → s1.peekWord g.core g.launch cl.pc = some w →
      runs (s1.afterFetch g.core g.launch cl.pc)) ∧
    (cl.held = some none ∨ cl.held = none ∧ s1.fetchHeld g cl.pc = false ∧ s1.peekWord g.core g.launch cl.pc = none →
      step s = .next (s1.takeTrap gid cl.pc cl.hdr
        { code := s1.fetchCode g.core g.launch cl.pc, wr := false, addr := cl.pc, mask := g.lanesAt cl.pc &&& cl.lanes,
          resume := cl.pc })) ∧
    (cl.held = none → s1.fetchHeld g cl.pc = true → step s = .next s1)

/-- exec never refuses, and a group's turn always answers a next state. Nothing that can be executed is refused (R63, R252):
exec never refuses, and its only fault is that of a program word with no group at hand; a group's turn always answers a next
state. -/
def Obligations.EveryInstructionAnswers : Prop :=
  (∀ (i : Instr) (s : State), (∃ t, exec i s = .next t) ∨ (exec i s = .fault .noIssuingGroup ∧ s.ctx? = none)) ∧
    ∀ (s : State) (gid : Nat), ∃ t, s.runMove (.word gid) = .next t

/-- Words that the spec writes out decode to their instructions. Words that the spec writes out from its encodings decode to
their instructions (R51 to R62): one or two of every family of program words, and a constant with a routing code to no
instruction. -/
def Obligations.DecodedWords : Prop :=
  decode 0xBC0600840C100080 = .ok (.ctrAdd (some .pkg) (some 4) (.const 1) 8 none) ∧
  decode 0xB010018400000008 = .ok (.ld .w false .dflt 1 (.s 4) (.v 0 0) 0 (some 0)) ∧
  decode 0xB050028600000000 = .ok (.st .w .dflt (.v 2) (.s 6) (.v 0 0) 0 none) ∧
  decode 0x40C1040134008200 = .ok (.ffma .f32 false .rz (.v 4) (.v 1 3) (.q 0 0) (.s 2) none) ∧
  decode 0x40C104013C138200 = .error .operandField ∧
  decode 0x048A60030CA00000 = .ok (.icmp .n32 .lt (.v 3 0) (.const 10) none) ∧
  decode 0x0CC0010103456780 = .ok (.lit .i32 (.v 1) (.v 1 0) 0x345678 none) ∧
  decode 0x8082030208900000 = .ok (.mfold .add .n32 (.v 3) (.v 2 0) (.s 9) none) ∧
  decode 0x8800008600000409 = .ok (.twld .dflt 0 (some 6) 64 (some 1)) ∧
  decode 0xA04100000FFFFF00 = .ok (.brc .cm .likely 0xFFFFF0) ∧
  decode 0xD05400E8C8A08C00 = .ok (.mma 2 false false { base := 5, ring := none } 10 12 none) ∧
  decode 0xE042088300100008 = .ok (.vbld 2 8 3 (.v 1 0) (some 0)) ∧
  decode 0xE088000400100009 = .ok (.prim .le none .none (.v 4 0) (.v 1 0) (some 1)) ∧
  decode 0xF000589000000009 = .ok (.xpushXc (some 24) 16 (some 1)) ∧
  decode 0xF0C0550000000010 = .ok (.csrr (.s 21) 1)

/-- Decoding undoes encoding for every well-formed instruction. Decoding undoes encoding (R51 to R62): the word of every well-
formed instruction decodes to that instruction, with every operand, type, modifier and tail. -/
def Obligations.EncodingRoundTrip : Prop :=
  ∀ (i : Instr) (w : W64), i.wfError = none → encode i = some w → decode w = .ok i

/-- The package after reset; its memory (log entry 1) and what the spec leaves open of its records (log entry 4) are the
model's choice. The package after reset (R118, R170, R388 to R391, R401): no group, block, launch, request or job; the queues
are disabled and at their start. That memory lists nothing and so reads as 0 (log entry 1), that the fabric time is not locked
and what the records of a fresh core and die hold where the spec gives no reset value (log entry 4) are the model's choice. -/
def Obligations.ResetState : Prop :=
  State.reset.agenda = [] ∧ State.reset.groups = [] ∧ State.reset.blocks = [] ∧ State.reset.launches = [] ∧
    State.reset.reqs = [] ∧ State.reset.asyncs = [] ∧ State.reset.mem = [] ∧ Memory.wf State.reset.mem = true ∧
    (∀ q, (State.reset.queue q).enabled = false ∧ (State.reset.queue q).tail = 0 ∧ (State.reset.queue q).head = 0 ∧
      (State.reset.queue q).evcnt = 0 ∧ (State.reset.queue q).evhead = 0) ∧
    (∀ n, State.reset.core n = freshCore ∧ State.reset.die n = freshDie) ∧ (∀ n, NMap.get 0 State.reset.sems n = 0) ∧
    State.reset.locked = false

/-- Every step keeps the canonical form of memory. Every step keeps memory's canonical form, whatever the state: addresses
rise strictly and no entry equals what an unlisted address reads as, so that equal memories are equal data (the form is the
model's own, log entry 1). -/
def Obligations.CanonicalMemory : Prop :=
  ∀ s t : State, Memory.wf s.mem = true → step s = .next t → Memory.wf t.mem = true
end

