-- ==== Sys2Proof/Laws/Issue.lean ====
section
/-! SUPPORT. What the shared frame of an instruction can do: one lemma for each way it ends, and what they give a meaning
that is written over it. -/

namespace Sys2Proof.Machine

/-- Everything that the frame can answer. -/
theorem issueWith_cases (pre : Ctx → Bool) (uses : List Use) (tl : Tail) (body : Ctx → State → Effect)
    (finish : Ctx → State → State) (s : State) :
    (s.ctx? = none ∧ issueWith pre uses tl body finish s = .fault .noIssuingGroup) ∨
    ∃ c, s.ctx? = some c ∧
      (issueWith pre uses tl body finish s = .next s ∨
        (∃ t, issueWith pre uses tl body finish s = .next (s.takeTrap c.gid c.cl.pc c.cl.hdr t)) ∨
        ∃ s', (body c s = .stop s' ∧ issueWith pre uses tl body finish s = .next s') ∨
          (body c s = .ok s' ∧ issueWith pre uses tl body finish s = .next (finish c s'))) := by
  unfold issueWith
  cases hc : s.ctx? with
  | none => exact .inl ⟨rfl, rfl⟩
  | some c =>
    refine .inr ⟨c, rfl, ?_⟩
    simp only []
    split
    · exact .inl rfl
    · by_cases hp : pre c = true
      · by_cases hu : uses.all c.g.useOk = true
        · cases body c s <;> simp [hp, hu]
        · right; left; simp [hp, hu, Ctx.illegalOperand, Ctx.fault]
      · right; left; simp [hp, Ctx.illegal, Ctx.fault]

/-- A word that issues, with a body that takes effect. -/
theorem issueWith_ok {pre : Ctx → Bool} {uses : List Use} {tl : Tail} {body : Ctx → State → Effect}
    {finish : Ctx → State → State} {s s' : State} {c : Ctx} (h : Issues s c uses tl) (hp : pre c = true)
    (hb : body c s = .ok s') : issueWith pre uses tl body finish s = .next (finish c s') := by
  obtain ⟨h1, h2, h3, h4⟩ := h
  simp only [issueWith, h1, h2, h3, hp, h4, hb, Bool.or_self, Bool.false_eq_true, if_false, Bool.not_true]

/-- A word that issues, with a body that traps. -/
theorem issueWith_trap {pre : Ctx → Bool} {uses : List Use} {tl : Tail} {body : Ctx → State → Effect}
    {finish : Ctx → State → State} {s : State} {c : Ctx} {t : Trap} (h : Issues s c uses tl) (hp : pre c = true)
    (hb : body c s = .trap t) :
    issueWith pre uses tl body finish s = .next (s.takeTrap c.gid c.cl.pc c.cl.hdr t) := by
  obtain ⟨h1, h2, h3, h4⟩ := h
  simp only [issueWith, h1, h2, h3, hp, h4, hb, Bool.or_self, Bool.false_eq_true, if_false, Bool.not_true]

/-- A word that issues, with a body that waits. -/
theorem issueWith_stall {pre : Ctx → Bool} {uses : List Use} {tl : Tail} {body : Ctx → State → Effect}
    {finish : Ctx → State → State} {s : State} {c : Ctx} (h : Issues s c uses tl) (hp : pre c = true)
    (hb : body c s = .stall) : issueWith pre uses tl body finish s = .next s := by
  obtain ⟨h1, h2, h3, h4⟩ := h
  simp only [issueWith, h1, h2, h3, hp, h4, hb, Bool.or_self, Bool.false_eq_true, if_false, Bool.not_true]

/-- A word that may not stand where it stands traps (R260). -/
theorem issueWith_illegal {pre : Ctx → Bool} {uses : List Use} {tl : Tail} {body : Ctx → State → Effect}
    {finish : Ctx → State → State} {s : State} {c : Ctx} (h : Issues s c uses tl) (hp : pre c = false) :
    issueWith pre uses tl body finish s = .next (s.takeTrap c.gid c.cl.pc c.cl.hdr (c.trapAt 0x02 c.word)) := by
  obtain ⟨h1, h2, h3, h4⟩ := h
  simp only [issueWith, h1, h2, h3, hp, Ctx.illegal, Ctx.fault, Ctx.trapAt, Bool.or_self, Bool.false_eq_true, if_false,
    Bool.not_false, if_true]

/-- A synchronous instruction completes where its body takes effect. -/
theorem completes_of_body {i : Instr} {uses : List Use} {tl : Tail} {cond : Ctx → State → Prop} {eff : Ctx → State → State}
    {pre : Ctx → Bool} {body : Ctx → State → Effect} (he : ∀ s, exec i s = issueIf pre uses tl body s)
    (hp : ∀ c s, cond c s → pre c = true) (hb : ∀ c s, cond c s → body c s = .ok (eff c s)) : Completes i uses tl cond eff := by
  intro s c h hc
  rw [he s]
  exact issueWith_ok h (hp c s hc) (hb c s hc)

/-- An asynchronous instruction completes where its body takes effect. -/
theorem completesAsync_of_body {i : Instr} {uses : List Use} {tl : Tail} {cond : Ctx → State → Prop}
    {eff : Ctx → State → State} {pre : Ctx → Bool} {body : Ctx → State → Effect}
    (he : ∀ s, exec i s = issueAsync pre uses tl body s) (hp : ∀ c s, cond c s → pre c = true)
    (hb : ∀ c s, cond c s → body c s = .ok (eff c s)) : CompletesAsync i uses tl cond eff := by
  intro s c h hc
  rw [he s]
  exact issueWith_ok (body := fun c s => body c (s.settle c uses)) h (hp c _ hc) (hb c _ hc)

/-- A terminal instruction completes where its body takes effect. -/
theorem completesTerminal_of_body {i : Instr} {uses : List Use} {cond : Ctx → State → Prop}
    {eff : Ctx → State → State} {pre : Ctx → Bool} {body : Ctx → State → Effect}
    (he : ∀ s, exec i s = issueTerminal pre uses body s) (hp : ∀ c s, cond c s → pre c = true)
    (hb : ∀ c s, cond c s → body c s = .ok (eff c s)) : CompletesTerminal i uses cond eff := by
  intro s c h hc
  rw [he s]
  exact issueWith_ok h (hp c s hc) (hb c s hc)

/-- An instruction traps where its body does. -/
theorem traps_of_body {i : Instr} {uses : List Use} {tl : Tail} {cond : Ctx → State → Prop} {t : Ctx → State → Trap}
    {pre : Ctx → Bool} {body : Ctx → State → Effect} {finish : Ctx → State → State}
    (he : ∀ s, exec i s = issueWith pre uses tl body finish s) (hp : ∀ c s, cond c s → pre c = true)
    (hb : ∀ c s, cond c s → body c s = .trap (t c s)) : Traps i uses tl cond t := by
  intro s c h hc
  rw [he s]
  exact issueWith_trap h (hp c s hc) (hb c s hc)

/-- A word that may not stand where it stands takes the illegal-instruction trap. -/
theorem traps_of_pre {i : Instr} {uses : List Use} {tl : Tail} {cond : Ctx → State → Prop}
    {pre : Ctx → Bool} {body : Ctx → State → Effect} {finish : Ctx → State → State}
    (he : ∀ s, exec i s = issueWith pre uses tl body finish s) (hp : ∀ c s, cond c s → pre c = false) :
    Traps i uses tl cond fun c _ => c.trapAt 0x02 c.word := by
  intro s c h hc
  rw [he s]
  exact issueWith_illegal h (hp c s hc)

/-- A member-mask instruction completes where its mask register is unwritten in the clause and every lane of EM is a member
(R101). -/
theorem completes_of_member {i : Instr} {m : MaskOp} {uses : List Use} {tl : Tail} {cond : Ctx → State → Prop}
    {eff : Ctx → State → State} {body : Ctx → State → Effect} (he : ∀ s, exec i s = issueMember m uses tl body s)
    (hp : ∀ c s, cond c s → s.maskFresh c m = true ∧ c.em &&& ~~~c.mask m = 0)
    (hb : ∀ c s, cond c s → body c s = .ok (eff c s)) : Completes i uses tl cond eff := by
  intro s c h hc
  rw [he s]
  show issueWith (fun c => s.maskFresh c m) _ _ (fun c s => if c.em &&& ~~~c.mask m = 0 then body c s
    else c.fault 0x03 c.word (c.em &&& ~~~c.mask m)) _ s = _
  exact issueWith_ok h (hp c s hc).1 ((if_pos (hp c s hc).2).trans (hb c s hc))

/-- A member-mask instruction traps where a lane of EM is no member (R101). -/
theorem traps_of_member {i : Instr} {m : MaskOp} {uses : List Use} {tl : Tail} {cond : Ctx → State → Prop}
    {body : Ctx → State → Effect} (he : ∀ s, exec i s = issueMember m uses tl body s)
    (hp : ∀ c s, cond c s → s.maskFresh c m = true ∧ c.em &&& ~~~c.mask m ≠ 0) :
    Traps i uses tl cond fun c _ =>
      { code := 0x03, wr := false, addr := c.word, mask := c.em &&& ~~~c.mask m, resume := c.cl.pc } := by
  intro s c h hc
  rw [he s]
  show issueWith (fun c => s.maskFresh c m) _ _ (fun c s => if c.em &&& ~~~c.mask m = 0 then body c s
    else c.fault 0x03 c.word (c.em &&& ~~~c.mask m)) _ s = _
  exact issueWith_trap h (hp c s hc).1 (if_neg (hp c s hc).2)

/-- A member-mask instruction is illegal where its clause has written the mask's register (R101). -/
theorem illegal_of_member {i : Instr} {m : MaskOp} {uses : List Use} {tl : Tail} {cond : Ctx → State → Prop}
    {body : Ctx → State → Effect} (he : ∀ s, exec i s = issueMember m uses tl body s)
    (hp : ∀ c s, cond c s → s.maskFresh c m = false) : Traps i uses tl cond fun c _ => c.trapAt 0x02 c.word := by
  intro s c h hc
  rw [he s]
  show issueWith (fun c => s.maskFresh c m) _ _ (fun c s => if c.em &&& ~~~c.mask m = 0 then body c s
    else c.fault 0x03 c.word (c.em &&& ~~~c.mask m)) _ s = _
  exact issueWith_illegal h (hp c s hc)

/-- A 32-bit result. -/
theorem gives32_of_alu32 {i : Instr} {uses : List Use} {d : Dest} {tl : Tail} {sx : Bool} {f : Ctx → Nat → W32 × FpFlags}
    {h : Group → Nat → Nat → W32 × FpFlags} (he : ∀ s, exec i s = alu32 uses d tl sx h s)
    (hf : ∀ (c : Ctx) l, h c.g c.rank l = f c l) : Gives32 i uses d tl sx f := by
  refine completes_of_body (pre := fun _ => true)
    (body := fun c s => .ok (s.put c (c.g.write32 c.em d sx (uses.any Use.readsFps) (h c.g c.rank)))) he (fun _ _ _ => rfl) ?_
  intro c s _
  rw [funext (hf c)]
  rfl

/-- A 64-bit result. -/
theorem gives64_of_alu64 {i : Instr} {uses : List Use} {d : Dest} {tl : Tail} {f : Ctx → Nat → W64 × FpFlags}
    {h : Group → Nat → Nat → W64 × FpFlags} (he : ∀ s, exec i s = alu64 uses d tl h s)
    (hf : ∀ (c : Ctx) l, h c.g c.rank l = f c l) : Gives64 i uses d tl f := by
  refine completes_of_body (pre := fun _ => true)
    (body := fun c s => .ok (s.put c (c.g.write64 c.em d (uses.any Use.readsFps) (h c.g c.rank)))) he (fun _ _ _ => rfl) ?_
  intro c s _
  rw [funext (hf c)]
  rfl

/-- An integer result at either width. -/
theorem givesInt_of_aluInt {i : Instr} {t : IType} {srcs : List Operand} {d : Dest} {tl : Tail} {f : Ctx → Nat → Nat}
    {h : Group → Nat → Nat → Nat} (he : ∀ s, exec i s = aluInt t srcs d tl h s)
    (hf : ∀ (c : Ctx) l, h c.g c.rank l = f c l) : GivesInt i t srcs d tl f := by
  unfold GivesInt
  split
  · next hw => exact gives64_of_alu64 (fun s => by rw [he s, aluInt, if_pos hw]) fun c l => by rw [hf c l]
  · next hw => exact gives32_of_alu32 (fun s => by rw [he s, aluInt, if_neg hw]) fun c l => by rw [hf c l]

/-- A floating-point result. -/
theorem givesFloat_of_aluFloat {i : Instr} {t : FType} {srcs : List Operand} {d : Dest} {tl : Tail}
    {f h : List Nat → Nat × FpFlags} (he : ∀ s, exec i s = aluFloat t srcs d tl h s)
    (hf : ∀ xs, xs.length = srcs.length → h xs = f xs) : GivesFloat i t srcs d tl f := by
  refine gives32_of_alu32 he fun c l => ?_
  simp only [onFloats, Ctx.word32]
  split <;> simp [hf]

end Sys2Proof.Machine
end

