-- ==== Sys2Proof/Laws/NMap.lean ====
section
/-! SUPPORT. Finite maps: what a read gives after each way of writing. -/

namespace Sys2Proof

theorem NMap.get_erase {α : Type} (d : α) (m : NMap α) (k j : Nat) :
    NMap.get d (NMap.erase m k) j = if j = k then d else NMap.get d m j := by
  induction m with
  | nil => simp [NMap.erase, NMap.get]
  | cons e rest ih =>
    obtain ⟨k', v⟩ := e
    by_cases hk : k' = k
    · subst hk
      by_cases hj : j = k'
      · simpa [NMap.erase, NMap.get, hj] using ih
      · simp [NMap.erase, NMap.get, ih, hj, Ne.symm hj]
    · by_cases hj : k' = j
      · subst hj; simp [NMap.erase, NMap.get, hk]
      · simp [NMap.erase, NMap.get, hk, hj, ih]

theorem NMap.get_insert {α : Type} (d : α) (m : NMap α) (k j : Nat) (v : α) (h : ∀ e ∈ m, e.1 ≠ k) :
    NMap.get d (NMap.insert m k v) j = if j = k then v else NMap.get d m j := by
  induction m with
  | nil => by_cases hj : k = j <;> simp [NMap.insert, NMap.get, hj, eq_comm]
  | cons e rest ih =>
    obtain ⟨k', v'⟩ := e
    have hk : k' ≠ k := h (k', v') (by simp)
    have ih := ih fun e he => h e (by simp [he])
    by_cases hlt : k < k'
    · by_cases hj : k = j
      · subst hj; simp [NMap.insert, NMap.get, hlt]
      · simp [NMap.insert, NMap.get, hlt, hj, Ne.symm hj]
    · by_cases hj : k' = j
      · subst hj; simp [NMap.insert, NMap.get, hlt, hk]
      · simp [NMap.insert, NMap.get, hlt, hj, ih]

theorem NMap.erase_keys {α : Type} (m : NMap α) (k : Nat) : ∀ e ∈ NMap.erase m k, e.1 ≠ k := by
  induction m with
  | nil => simp [NMap.erase]
  | cons e rest ih =>
    obtain ⟨k', v⟩ := e
    by_cases hk : k' = k
    · simpa [NMap.erase, hk] using ih
    · simp only [NMap.erase, if_neg hk, List.mem_cons, forall_eq_or_imp]
      exact ⟨hk, ih⟩

@[simp] theorem NMap.get_nil {α : Type} (d : α) (k : Nat) : NMap.get d ([] : NMap α) k = d := rfl

/-- A put is read back, and every other key is as before. -/
theorem NMap.get_put {α : Type} (d : α) (m : NMap α) (k j : Nat) (v : α) :
    NMap.get d (NMap.put m k v) j = if j = k then v else NMap.get d m j := by
  rw [NMap.put, NMap.get_insert d _ k j v (NMap.erase_keys m k), NMap.get_erase]
  split <;> simp_all

/-- A set is read back, and every other key is as before. -/
theorem NMap.get_set {α : Type} [DecidableEq α] (d : α) (m : NMap α) (k j : Nat) (v : α) :
    NMap.get d (NMap.set d m k v) j = if j = k then v else NMap.get d m j := by
  rw [NMap.set]
  split
  · next hv => rw [NMap.get_erase, hv]
  · rw [NMap.get_insert d _ k j v (NMap.erase_keys m k), NMap.get_erase]
    split <;> simp_all

/-- A map over the values is a map over what is read. -/
theorem NMap.get_map {α β : Type} (f : α → β) (d : α) (m : NMap α) (k : Nat) :
    NMap.get (f d) (m.map fun e => (e.1, f e.2)) k = f (NMap.get d m k) := by
  induction m with
  | nil => rfl
  | cons e rest ih =>
    obtain ⟨k', v⟩ := e
    by_cases hk : k' = k <;> simp [NMap.get, hk, ih]

theorem NMap.map_erase {α β : Type} (f : α → β) (m : NMap α) (k : Nat) :
    (NMap.erase m k).map (fun e => (e.1, f e.2)) = NMap.erase (m.map fun e => (e.1, f e.2)) k := by
  induction m with
  | nil => rfl
  | cons e rest ih =>
    obtain ⟨k', v⟩ := e
    by_cases hk : k' = k <;> simp [NMap.erase, hk, ih]

theorem NMap.map_insert {α β : Type} (f : α → β) (m : NMap α) (k : Nat) (v : α) :
    (NMap.insert m k v).map (fun e => (e.1, f e.2)) = NMap.insert (m.map fun e => (e.1, f e.2)) k (f v) := by
  induction m with
  | nil => rfl
  | cons e rest ih =>
    obtain ⟨k', v'⟩ := e
    by_cases hk : k < k' <;> simp [NMap.insert, hk, ih]

theorem NMap.map_put {α β : Type} (f : α → β) (m : NMap α) (k : Nat) (v : α) :
    (NMap.put m k v).map (fun e => (e.1, f e.2)) = NMap.put (m.map fun e => (e.1, f e.2)) k (f v) := by
  rw [NMap.put, NMap.map_insert, NMap.map_erase, NMap.put]

end Sys2Proof
end

