-- ==== Sys2Proof/Laws/State.lean ====
section
/-! SUPPORT. What each update of the state and of a group leaves unchanged: one lemma per field per update. -/

namespace Sys2Proof.Machine

-- State.setGroup

@[simp] theorem State.setGroup_agenda (s : State) (k : Nat) (x : Group) : (s.setGroup k x).agenda = s.agenda := rfl
@[simp] theorem State.setGroup_tick (s : State) (k : Nat) (x : Group) : (s.setGroup k x).tick = s.tick := rfl
@[simp] theorem State.setGroup_now (s : State) (k : Nat) (x : Group) : (s.setGroup k x).now = s.now := rfl
@[simp] theorem State.setGroup_cur (s : State) (k : Nat) (x : Group) : (s.setGroup k x).cur = s.cur := rfl
@[simp] theorem State.setGroup_word (s : State) (k : Nat) (x : Group) : (s.setGroup k x).word = s.word := rfl
@[simp] theorem State.setGroup_nextId (s : State) (k : Nat) (x : Group) : (s.setGroup k x).nextId = s.nextId := rfl
@[simp] theorem State.setGroup_mem (s : State) (k : Nat) (x : Group) : (s.setGroup k x).mem = s.mem := rfl
@[simp] theorem State.setGroup_capacity (s : State) (k : Nat) (x : Group) : (s.setGroup k x).capacity = s.capacity := rfl
@[simp] theorem State.setGroup_l2n (s : State) (k : Nat) (x : Group) : (s.setGroup k x).l2n = s.l2n := rfl
@[simp] theorem State.setGroup_blocks (s : State) (k : Nat) (x : Group) : (s.setGroup k x).blocks = s.blocks := rfl
@[simp] theorem State.setGroup_launches (s : State) (k : Nat) (x : Group) : (s.setGroup k x).launches = s.launches := rfl
@[simp] theorem State.setGroup_cores (s : State) (k : Nat) (x : Group) : (s.setGroup k x).cores = s.cores := rfl
@[simp] theorem State.setGroup_clusters (s : State) (k : Nat) (x : Group) : (s.setGroup k x).clusters = s.clusters := rfl
@[simp] theorem State.setGroup_dies (s : State) (k : Nat) (x : Group) : (s.setGroup k x).dies = s.dies := rfl
@[simp] theorem State.setGroup_asyncs (s : State) (k : Nat) (x : Group) : (s.setGroup k x).asyncs = s.asyncs := rfl
@[simp] theorem State.setGroup_reqs (s : State) (k : Nat) (x : Group) : (s.setGroup k x).reqs = s.reqs := rfl
@[simp] theorem State.setGroup_wbs (s : State) (k : Nat) (x : Group) : (s.setGroup k x).wbs = s.wbs := rfl
@[simp] theorem State.setGroup_pubs (s : State) (k : Nat) (x : Group) : (s.setGroup k x).pubs = s.pubs := rfl
@[simp] theorem State.setGroup_ctrWaits (s : State) (k : Nat) (x : Group) : (s.setGroup k x).ctrWaits = s.ctrWaits := rfl
@[simp] theorem State.setGroup_contribs (s : State) (k : Nat) (x : Group) : (s.setGroup k x).contribs = s.contribs := rfl
@[simp] theorem State.setGroup_copies (s : State) (k : Nat) (x : Group) : (s.setGroup k x).copies = s.copies := rfl
@[simp] theorem State.setGroup_encodes (s : State) (k : Nat) (x : Group) : (s.setGroup k x).encodes = s.encodes := rfl
@[simp] theorem State.setGroup_rays (s : State) (k : Nat) (x : Group) : (s.setGroup k x).rays = s.rays := rfl
@[simp] theorem State.setGroup_prims (s : State) (k : Nat) (x : Group) : (s.setGroup k x).prims = s.prims := rfl
@[simp] theorem State.setGroup_passes (s : State) (k : Nat) (x : Group) : (s.setGroup k x).passes = s.passes := rfl
@[simp] theorem State.setGroup_tileReqs (s : State) (k : Nat) (x : Group) : (s.setGroup k x).tileReqs = s.tileReqs := rfl
@[simp] theorem State.setGroup_retires (s : State) (k : Nat) (x : Group) : (s.setGroup k x).retires = s.retires := rfl
@[simp] theorem State.setGroup_queues (s : State) (k : Nat) (x : Group) : (s.setGroup k x).queues = s.queues := rfl
@[simp] theorem State.setGroup_hub (s : State) (k : Nat) (x : Group) : (s.setGroup k x).hub = s.hub := rfl
@[simp] theorem State.setGroup_sems (s : State) (k : Nat) (x : Group) : (s.setGroup k x).sems = s.sems := rfl
@[simp] theorem State.setGroup_semLost (s : State) (k : Nat) (x : Group) : (s.setGroup k x).semLost = s.semLost := rfl
@[simp] theorem State.setGroup_portsDown (s : State) (k : Nat) (x : Group) : (s.setGroup k x).portsDown = s.portsDown := rfl
@[simp] theorem State.setGroup_replies (s : State) (k : Nat) (x : Group) : (s.setGroup k x).replies = s.replies := rfl
@[simp] theorem State.setGroup_portErrs (s : State) (k : Nat) (x : Group) : (s.setGroup k x).portErrs = s.portErrs := rfl
@[simp] theorem State.setGroup_fwEvents (s : State) (k : Nat) (x : Group) : (s.setGroup k x).fwEvents = s.fwEvents := rfl
@[simp] theorem State.setGroup_fwWorn (s : State) (k : Nat) (x : Group) : (s.setGroup k x).fwWorn = s.fwWorn := rfl
@[simp] theorem State.setGroup_verified (s : State) (k : Nat) (x : Group) : (s.setGroup k x).verified = s.verified := rfl
@[simp] theorem State.setGroup_migrating (s : State) (k : Nat) (x : Group) : (s.setGroup k x).migrating = s.migrating := rfl
@[simp] theorem State.setGroup_launchSeq (s : State) (k : Nat) (x : Group) : (s.setGroup k x).launchSeq = s.launchSeq := rfl
@[simp] theorem State.setGroup_blockSeq (s : State) (k : Nat) (x : Group) : (s.setGroup k x).blockSeq = s.blockSeq := rfl
@[simp] theorem State.setGroup_streams (s : State) (k : Nat) (x : Group) : (s.setGroup k x).streams = s.streams := rfl
@[simp] theorem State.setGroup_hashLog (s : State) (k : Nat) (x : Group) : (s.setGroup k x).hashLog = s.hashLog := rfl
@[simp] theorem State.setGroup_hashLeft (s : State) (k : Nat) (x : Group) : (s.setGroup k x).hashLeft = s.hashLeft := rfl
@[simp] theorem State.setGroup_placeLog (s : State) (k : Nat) (x : Group) : (s.setGroup k x).placeLog = s.placeLog := rfl
@[simp] theorem State.setGroup_logFull (s : State) (k : Nat) (x : Group) : (s.setGroup k x).logFull = s.logFull := rfl
@[simp] theorem State.setGroup_pkg (s : State) (k : Nat) (x : Group) : (s.setGroup k x).pkg = s.pkg := rfl
@[simp] theorem State.setGroup_importRoot (s : State) (k : Nat) (x : Group) : (s.setGroup k x).importRoot = s.importRoot := rfl
@[simp] theorem State.setGroup_routes (s : State) (k : Nat) (x : Group) : (s.setGroup k x).routes = s.routes := rfl
@[simp] theorem State.setGroup_ports (s : State) (k : Nat) (x : Group) : (s.setGroup k x).ports = s.ports := rfl
@[simp] theorem State.setGroup_aborted (s : State) (k : Nat) (x : Group) : (s.setGroup k x).aborted = s.aborted := rfl
@[simp] theorem State.setGroup_sent (s : State) (k : Nat) (x : Group) : (s.setGroup k x).sent = s.sent := rfl
@[simp] theorem State.setGroup_drops (s : State) (k : Nat) (x : Group) : (s.setGroup k x).drops = s.drops := rfl
@[simp] theorem State.setGroup_ft (s : State) (k : Nat) (x : Group) : (s.setGroup k x).ft = s.ft := rfl
@[simp] theorem State.setGroup_ftChanged (s : State) (k : Nat) (x : Group) : (s.setGroup k x).ftChanged = s.ftChanged := rfl
@[simp] theorem State.setGroup_locked (s : State) (k : Nat) (x : Group) : (s.setGroup k x).locked = s.locked := rfl
@[simp] theorem State.setGroup_surfaces (s : State) (k : Nat) (x : Group) : (s.setGroup k x).surfaces = s.surfaces := rfl
@[simp] theorem State.setGroup_misses (s : State) (k : Nat) (x : Group) : (s.setGroup k x).misses = s.misses := rfl
@[simp] theorem State.setGroup_leavesUsed (s : State) (k : Nat) (x : Group) : (s.setGroup k x).leavesUsed = s.leavesUsed := rfl

-- State.modCore

@[simp] theorem State.modCore_agenda (s : State) (k : Nat) (x : Core → Core) : (s.modCore k x).agenda = s.agenda := rfl
@[simp] theorem State.modCore_tick (s : State) (k : Nat) (x : Core → Core) : (s.modCore k x).tick = s.tick := rfl
@[simp] theorem State.modCore_now (s : State) (k : Nat) (x : Core → Core) : (s.modCore k x).now = s.now := rfl
@[simp] theorem State.modCore_cur (s : State) (k : Nat) (x : Core → Core) : (s.modCore k x).cur = s.cur := rfl
@[simp] theorem State.modCore_word (s : State) (k : Nat) (x : Core → Core) : (s.modCore k x).word = s.word := rfl
@[simp] theorem State.modCore_nextId (s : State) (k : Nat) (x : Core → Core) : (s.modCore k x).nextId = s.nextId := rfl
@[simp] theorem State.modCore_mem (s : State) (k : Nat) (x : Core → Core) : (s.modCore k x).mem = s.mem := rfl
@[simp] theorem State.modCore_capacity (s : State) (k : Nat) (x : Core → Core) : (s.modCore k x).capacity = s.capacity := rfl
@[simp] theorem State.modCore_l2n (s : State) (k : Nat) (x : Core → Core) : (s.modCore k x).l2n = s.l2n := rfl
@[simp] theorem State.modCore_groups (s : State) (k : Nat) (x : Core → Core) : (s.modCore k x).groups = s.groups := rfl
@[simp] theorem State.modCore_blocks (s : State) (k : Nat) (x : Core → Core) : (s.modCore k x).blocks = s.blocks := rfl
@[simp] theorem State.modCore_launches (s : State) (k : Nat) (x : Core → Core) : (s.modCore k x).launches = s.launches := rfl
@[simp] theorem State.modCore_clusters (s : State) (k : Nat) (x : Core → Core) : (s.modCore k x).clusters = s.clusters := rfl
@[simp] theorem State.modCore_dies (s : State) (k : Nat) (x : Core → Core) : (s.modCore k x).dies = s.dies := rfl
@[simp] theorem State.modCore_asyncs (s : State) (k : Nat) (x : Core → Core) : (s.modCore k x).asyncs = s.asyncs := rfl
@[simp] theorem State.modCore_reqs (s : State) (k : Nat) (x : Core → Core) : (s.modCore k x).reqs = s.reqs := rfl
@[simp] theorem State.modCore_wbs (s : State) (k : Nat) (x : Core → Core) : (s.modCore k x).wbs = s.wbs := rfl
@[simp] theorem State.modCore_pubs (s : State) (k : Nat) (x : Core → Core) : (s.modCore k x).pubs = s.pubs := rfl
@[simp] theorem State.modCore_ctrWaits (s : State) (k : Nat) (x : Core → Core) : (s.modCore k x).ctrWaits = s.ctrWaits := rfl
@[simp] theorem State.modCore_contribs (s : State) (k : Nat) (x : Core → Core) : (s.modCore k x).contribs = s.contribs := rfl
@[simp] theorem State.modCore_copies (s : State) (k : Nat) (x : Core → Core) : (s.modCore k x).copies = s.copies := rfl
@[simp] theorem State.modCore_encodes (s : State) (k : Nat) (x : Core → Core) : (s.modCore k x).encodes = s.encodes := rfl
@[simp] theorem State.modCore_rays (s : State) (k : Nat) (x : Core → Core) : (s.modCore k x).rays = s.rays := rfl
@[simp] theorem State.modCore_prims (s : State) (k : Nat) (x : Core → Core) : (s.modCore k x).prims = s.prims := rfl
@[simp] theorem State.modCore_passes (s : State) (k : Nat) (x : Core → Core) : (s.modCore k x).passes = s.passes := rfl
@[simp] theorem State.modCore_tileReqs (s : State) (k : Nat) (x : Core → Core) : (s.modCore k x).tileReqs = s.tileReqs := rfl
@[simp] theorem State.modCore_retires (s : State) (k : Nat) (x : Core → Core) : (s.modCore k x).retires = s.retires := rfl
@[simp] theorem State.modCore_queues (s : State) (k : Nat) (x : Core → Core) : (s.modCore k x).queues = s.queues := rfl
@[simp] theorem State.modCore_hub (s : State) (k : Nat) (x : Core → Core) : (s.modCore k x).hub = s.hub := rfl
@[simp] theorem State.modCore_sems (s : State) (k : Nat) (x : Core → Core) : (s.modCore k x).sems = s.sems := rfl
@[simp] theorem State.modCore_semLost (s : State) (k : Nat) (x : Core → Core) : (s.modCore k x).semLost = s.semLost := rfl
@[simp] theorem State.modCore_portsDown (s : State) (k : Nat) (x : Core → Core) : (s.modCore k x).portsDown = s.portsDown := rfl
@[simp] theorem State.modCore_replies (s : State) (k : Nat) (x : Core → Core) : (s.modCore k x).replies = s.replies := rfl
@[simp] theorem State.modCore_portErrs (s : State) (k : Nat) (x : Core → Core) : (s.modCore k x).portErrs = s.portErrs := rfl
@[simp] theorem State.modCore_fwEvents (s : State) (k : Nat) (x : Core → Core) : (s.modCore k x).fwEvents = s.fwEvents := rfl
@[simp] theorem State.modCore_fwWorn (s : State) (k : Nat) (x : Core → Core) : (s.modCore k x).fwWorn = s.fwWorn := rfl
@[simp] theorem State.modCore_verified (s : State) (k : Nat) (x : Core → Core) : (s.modCore k x).verified = s.verified := rfl
@[simp] theorem State.modCore_migrating (s : State) (k : Nat) (x : Core → Core) : (s.modCore k x).migrating = s.migrating := rfl
@[simp] theorem State.modCore_launchSeq (s : State) (k : Nat) (x : Core → Core) : (s.modCore k x).launchSeq = s.launchSeq := rfl
@[simp] theorem State.modCore_blockSeq (s : State) (k : Nat) (x : Core → Core) : (s.modCore k x).blockSeq = s.blockSeq := rfl
@[simp] theorem State.modCore_streams (s : State) (k : Nat) (x : Core → Core) : (s.modCore k x).streams = s.streams := rfl
@[simp] theorem State.modCore_hashLog (s : State) (k : Nat) (x : Core → Core) : (s.modCore k x).hashLog = s.hashLog := rfl
@[simp] theorem State.modCore_hashLeft (s : State) (k : Nat) (x : Core → Core) : (s.modCore k x).hashLeft = s.hashLeft := rfl
@[simp] theorem State.modCore_placeLog (s : State) (k : Nat) (x : Core → Core) : (s.modCore k x).placeLog = s.placeLog := rfl
@[simp] theorem State.modCore_logFull (s : State) (k : Nat) (x : Core → Core) : (s.modCore k x).logFull = s.logFull := rfl
@[simp] theorem State.modCore_pkg (s : State) (k : Nat) (x : Core → Core) : (s.modCore k x).pkg = s.pkg := rfl
@[simp] theorem State.modCore_importRoot (s : State) (k : Nat) (x : Core → Core) : (s.modCore k x).importRoot = s.importRoot := rfl
@[simp] theorem State.modCore_routes (s : State) (k : Nat) (x : Core → Core) : (s.modCore k x).routes = s.routes := rfl
@[simp] theorem State.modCore_ports (s : State) (k : Nat) (x : Core → Core) : (s.modCore k x).ports = s.ports := rfl
@[simp] theorem State.modCore_aborted (s : State) (k : Nat) (x : Core → Core) : (s.modCore k x).aborted = s.aborted := rfl
@[simp] theorem State.modCore_sent (s : State) (k : Nat) (x : Core → Core) : (s.modCore k x).sent = s.sent := rfl
@[simp] theorem State.modCore_drops (s : State) (k : Nat) (x : Core → Core) : (s.modCore k x).drops = s.drops := rfl
@[simp] theorem State.modCore_ft (s : State) (k : Nat) (x : Core → Core) : (s.modCore k x).ft = s.ft := rfl
@[simp] theorem State.modCore_ftChanged (s : State) (k : Nat) (x : Core → Core) : (s.modCore k x).ftChanged = s.ftChanged := rfl
@[simp] theorem State.modCore_locked (s : State) (k : Nat) (x : Core → Core) : (s.modCore k x).locked = s.locked := rfl
@[simp] theorem State.modCore_surfaces (s : State) (k : Nat) (x : Core → Core) : (s.modCore k x).surfaces = s.surfaces := rfl
@[simp] theorem State.modCore_misses (s : State) (k : Nat) (x : Core → Core) : (s.modCore k x).misses = s.misses := rfl
@[simp] theorem State.modCore_leavesUsed (s : State) (k : Nat) (x : Core → Core) : (s.modCore k x).leavesUsed = s.leavesUsed := rfl

-- State.modCluster

@[simp] theorem State.modCluster_agenda (s : State) (k : Nat) (x : Cluster → Cluster) : (s.modCluster k x).agenda = s.agenda := rfl
@[simp] theorem State.modCluster_tick (s : State) (k : Nat) (x : Cluster → Cluster) : (s.modCluster k x).tick = s.tick := rfl
@[simp] theorem State.modCluster_now (s : State) (k : Nat) (x : Cluster → Cluster) : (s.modCluster k x).now = s.now := rfl
@[simp] theorem State.modCluster_cur (s : State) (k : Nat) (x : Cluster → Cluster) : (s.modCluster k x).cur = s.cur := rfl
@[simp] theorem State.modCluster_word (s : State) (k : Nat) (x : Cluster → Cluster) : (s.modCluster k x).word = s.word := rfl
@[simp] theorem State.modCluster_nextId (s : State) (k : Nat) (x : Cluster → Cluster) : (s.modCluster k x).nextId = s.nextId := rfl
@[simp] theorem State.modCluster_mem (s : State) (k : Nat) (x : Cluster → Cluster) : (s.modCluster k x).mem = s.mem := rfl
@[simp] theorem State.modCluster_capacity (s : State) (k : Nat) (x : Cluster → Cluster) : (s.modCluster k x).capacity = s.capacity := rfl
@[simp] theorem State.modCluster_l2n (s : State) (k : Nat) (x : Cluster → Cluster) : (s.modCluster k x).l2n = s.l2n := rfl
@[simp] theorem State.modCluster_groups (s : State) (k : Nat) (x : Cluster → Cluster) : (s.modCluster k x).groups = s.groups := rfl
@[simp] theorem State.modCluster_blocks (s : State) (k : Nat) (x : Cluster → Cluster) : (s.modCluster k x).blocks = s.blocks := rfl
@[simp] theorem State.modCluster_launches (s : State) (k : Nat) (x : Cluster → Cluster) : (s.modCluster k x).launches = s.launches := rfl
@[simp] theorem State.modCluster_cores (s : State) (k : Nat) (x : Cluster → Cluster) : (s.modCluster k x).cores = s.cores := rfl
@[simp] theorem State.modCluster_dies (s : State) (k : Nat) (x : Cluster → Cluster) : (s.modCluster k x).dies = s.dies := rfl
@[simp] theorem State.modCluster_asyncs (s : State) (k : Nat) (x : Cluster → Cluster) : (s.modCluster k x).asyncs = s.asyncs := rfl
@[simp] theorem State.modCluster_reqs (s : State) (k : Nat) (x : Cluster → Cluster) : (s.modCluster k x).reqs = s.reqs := rfl
@[simp] theorem State.modCluster_wbs (s : State) (k : Nat) (x : Cluster → Cluster) : (s.modCluster k x).wbs = s.wbs := rfl
@[simp] theorem State.modCluster_pubs (s : State) (k : Nat) (x : Cluster → Cluster) : (s.modCluster k x).pubs = s.pubs := rfl
@[simp] theorem State.modCluster_ctrWaits (s : State) (k : Nat) (x : Cluster → Cluster) : (s.modCluster k x).ctrWaits = s.ctrWaits := rfl
@[simp] theorem State.modCluster_contribs (s : State) (k : Nat) (x : Cluster → Cluster) : (s.modCluster k x).contribs = s.contribs := rfl
@[simp] theorem State.modCluster_copies (s : State) (k : Nat) (x : Cluster → Cluster) : (s.modCluster k x).copies = s.copies := rfl
@[simp] theorem State.modCluster_encodes (s : State) (k : Nat) (x : Cluster → Cluster) : (s.modCluster k x).encodes = s.encodes := rfl
@[simp] theorem State.modCluster_rays (s : State) (k : Nat) (x : Cluster → Cluster) : (s.modCluster k x).rays = s.rays := rfl
@[simp] theorem State.modCluster_prims (s : State) (k : Nat) (x : Cluster → Cluster) : (s.modCluster k x).prims = s.prims := rfl
@[simp] theorem State.modCluster_passes (s : State) (k : Nat) (x : Cluster → Cluster) : (s.modCluster k x).passes = s.passes := rfl
@[simp] theorem State.modCluster_tileReqs (s : State) (k : Nat) (x : Cluster → Cluster) : (s.modCluster k x).tileReqs = s.tileReqs := rfl
@[simp] theorem State.modCluster_retires (s : State) (k : Nat) (x : Cluster → Cluster) : (s.modCluster k x).retires = s.retires := rfl
@[simp] theorem State.modCluster_queues (s : State) (k : Nat) (x : Cluster → Cluster) : (s.modCluster k x).queues = s.queues := rfl
@[simp] theorem State.modCluster_hub (s : State) (k : Nat) (x : Cluster → Cluster) : (s.modCluster k x).hub = s.hub := rfl
@[simp] theorem State.modCluster_sems (s : State) (k : Nat) (x : Cluster → Cluster) : (s.modCluster k x).sems = s.sems := rfl
@[simp] theorem State.modCluster_semLost (s : State) (k : Nat) (x : Cluster → Cluster) : (s.modCluster k x).semLost = s.semLost := rfl
@[simp] theorem State.modCluster_portsDown (s : State) (k : Nat) (x : Cluster → Cluster) : (s.modCluster k x).portsDown = s.portsDown := rfl
@[simp] theorem State.modCluster_replies (s : State) (k : Nat) (x : Cluster → Cluster) : (s.modCluster k x).replies = s.replies := rfl
@[simp] theorem State.modCluster_portErrs (s : State) (k : Nat) (x : Cluster → Cluster) : (s.modCluster k x).portErrs = s.portErrs := rfl
@[simp] theorem State.modCluster_fwEvents (s : State) (k : Nat) (x : Cluster → Cluster) : (s.modCluster k x).fwEvents = s.fwEvents := rfl
@[simp] theorem State.modCluster_fwWorn (s : State) (k : Nat) (x : Cluster → Cluster) : (s.modCluster k x).fwWorn = s.fwWorn := rfl
@[simp] theorem State.modCluster_verified (s : State) (k : Nat) (x : Cluster → Cluster) : (s.modCluster k x).verified = s.verified := rfl
@[simp] theorem State.modCluster_migrating (s : State) (k : Nat) (x : Cluster → Cluster) : (s.modCluster k x).migrating = s.migrating := rfl
@[simp] theorem State.modCluster_launchSeq (s : State) (k : Nat) (x : Cluster → Cluster) : (s.modCluster k x).launchSeq = s.launchSeq := rfl
@[simp] theorem State.modCluster_blockSeq (s : State) (k : Nat) (x : Cluster → Cluster) : (s.modCluster k x).blockSeq = s.blockSeq := rfl
@[simp] theorem State.modCluster_streams (s : State) (k : Nat) (x : Cluster → Cluster) : (s.modCluster k x).streams = s.streams := rfl
@[simp] theorem State.modCluster_hashLog (s : State) (k : Nat) (x : Cluster → Cluster) : (s.modCluster k x).hashLog = s.hashLog := rfl
@[simp] theorem State.modCluster_hashLeft (s : State) (k : Nat) (x : Cluster → Cluster) : (s.modCluster k x).hashLeft = s.hashLeft := rfl
@[simp] theorem State.modCluster_placeLog (s : State) (k : Nat) (x : Cluster → Cluster) : (s.modCluster k x).placeLog = s.placeLog := rfl
@[simp] theorem State.modCluster_logFull (s : State) (k : Nat) (x : Cluster → Cluster) : (s.modCluster k x).logFull = s.logFull := rfl
@[simp] theorem State.modCluster_pkg (s : State) (k : Nat) (x : Cluster → Cluster) : (s.modCluster k x).pkg = s.pkg := rfl
@[simp] theorem State.modCluster_importRoot (s : State) (k : Nat) (x : Cluster → Cluster) : (s.modCluster k x).importRoot = s.importRoot := rfl
@[simp] theorem State.modCluster_routes (s : State) (k : Nat) (x : Cluster → Cluster) : (s.modCluster k x).routes = s.routes := rfl
@[simp] theorem State.modCluster_ports (s : State) (k : Nat) (x : Cluster → Cluster) : (s.modCluster k x).ports = s.ports := rfl
@[simp] theorem State.modCluster_aborted (s : State) (k : Nat) (x : Cluster → Cluster) : (s.modCluster k x).aborted = s.aborted := rfl
@[simp] theorem State.modCluster_sent (s : State) (k : Nat) (x : Cluster → Cluster) : (s.modCluster k x).sent = s.sent := rfl
@[simp] theorem State.modCluster_drops (s : State) (k : Nat) (x : Cluster → Cluster) : (s.modCluster k x).drops = s.drops := rfl
@[simp] theorem State.modCluster_ft (s : State) (k : Nat) (x : Cluster → Cluster) : (s.modCluster k x).ft = s.ft := rfl
@[simp] theorem State.modCluster_ftChanged (s : State) (k : Nat) (x : Cluster → Cluster) : (s.modCluster k x).ftChanged = s.ftChanged := rfl
@[simp] theorem State.modCluster_locked (s : State) (k : Nat) (x : Cluster → Cluster) : (s.modCluster k x).locked = s.locked := rfl
@[simp] theorem State.modCluster_surfaces (s : State) (k : Nat) (x : Cluster → Cluster) : (s.modCluster k x).surfaces = s.surfaces := rfl
@[simp] theorem State.modCluster_misses (s : State) (k : Nat) (x : Cluster → Cluster) : (s.modCluster k x).misses = s.misses := rfl
@[simp] theorem State.modCluster_leavesUsed (s : State) (k : Nat) (x : Cluster → Cluster) : (s.modCluster k x).leavesUsed = s.leavesUsed := rfl

-- State.modDie

@[simp] theorem State.modDie_agenda (s : State) (k : Nat) (x : Die → Die) : (s.modDie k x).agenda = s.agenda := rfl
@[simp] theorem State.modDie_tick (s : State) (k : Nat) (x : Die → Die) : (s.modDie k x).tick = s.tick := rfl
@[simp] theorem State.modDie_now (s : State) (k : Nat) (x : Die → Die) : (s.modDie k x).now = s.now := rfl
@[simp] theorem State.modDie_cur (s : State) (k : Nat) (x : Die → Die) : (s.modDie k x).cur = s.cur := rfl
@[simp] theorem State.modDie_word (s : State) (k : Nat) (x : Die → Die) : (s.modDie k x).word = s.word := rfl
@[simp] theorem State.modDie_nextId (s : State) (k : Nat) (x : Die → Die) : (s.modDie k x).nextId = s.nextId := rfl
@[simp] theorem State.modDie_mem (s : State) (k : Nat) (x : Die → Die) : (s.modDie k x).mem = s.mem := rfl
@[simp] theorem State.modDie_capacity (s : State) (k : Nat) (x : Die → Die) : (s.modDie k x).capacity = s.capacity := rfl
@[simp] theorem State.modDie_l2n (s : State) (k : Nat) (x : Die → Die) : (s.modDie k x).l2n = s.l2n := rfl
@[simp] theorem State.modDie_groups (s : State) (k : Nat) (x : Die → Die) : (s.modDie k x).groups = s.groups := rfl
@[simp] theorem State.modDie_blocks (s : State) (k : Nat) (x : Die → Die) : (s.modDie k x).blocks = s.blocks := rfl
@[simp] theorem State.modDie_launches (s : State) (k : Nat) (x : Die → Die) : (s.modDie k x).launches = s.launches := rfl
@[simp] theorem State.modDie_cores (s : State) (k : Nat) (x : Die → Die) : (s.modDie k x).cores = s.cores := rfl
@[simp] theorem State.modDie_clusters (s : State) (k : Nat) (x : Die → Die) : (s.modDie k x).clusters = s.clusters := rfl
@[simp] theorem State.modDie_asyncs (s : State) (k : Nat) (x : Die → Die) : (s.modDie k x).asyncs = s.asyncs := rfl
@[simp] theorem State.modDie_reqs (s : State) (k : Nat) (x : Die → Die) : (s.modDie k x).reqs = s.reqs := rfl
@[simp] theorem State.modDie_wbs (s : State) (k : Nat) (x : Die → Die) : (s.modDie k x).wbs = s.wbs := rfl
@[simp] theorem State.modDie_pubs (s : State) (k : Nat) (x : Die → Die) : (s.modDie k x).pubs = s.pubs := rfl
@[simp] theorem State.modDie_ctrWaits (s : State) (k : Nat) (x : Die → Die) : (s.modDie k x).ctrWaits = s.ctrWaits := rfl
@[simp] theorem State.modDie_contribs (s : State) (k : Nat) (x : Die → Die) : (s.modDie k x).contribs = s.contribs := rfl
@[simp] theorem State.modDie_copies (s : State) (k : Nat) (x : Die → Die) : (s.modDie k x).copies = s.copies := rfl
@[simp] theorem State.modDie_encodes (s : State) (k : Nat) (x : Die → Die) : (s.modDie k x).encodes = s.encodes := rfl
@[simp] theorem State.modDie_rays (s : State) (k : Nat) (x : Die → Die) : (s.modDie k x).rays = s.rays := rfl
@[simp] theorem State.modDie_prims (s : State) (k : Nat) (x : Die → Die) : (s.modDie k x).prims = s.prims := rfl
@[simp] theorem State.modDie_passes (s : State) (k : Nat) (x : Die → Die) : (s.modDie k x).passes = s.passes := rfl
@[simp] theorem State.modDie_tileReqs (s : State) (k : Nat) (x : Die → Die) : (s.modDie k x).tileReqs = s.tileReqs := rfl
@[simp] theorem State.modDie_retires (s : State) (k : Nat) (x : Die → Die) : (s.modDie k x).retires = s.retires := rfl
@[simp] theorem State.modDie_queues (s : State) (k : Nat) (x : Die → Die) : (s.modDie k x).queues = s.queues := rfl
@[simp] theorem State.modDie_hub (s : State) (k : Nat) (x : Die → Die) : (s.modDie k x).hub = s.hub := rfl
@[simp] theorem State.modDie_sems (s : State) (k : Nat) (x : Die → Die) : (s.modDie k x).sems = s.sems := rfl
@[simp] theorem State.modDie_semLost (s : State) (k : Nat) (x : Die → Die) : (s.modDie k x).semLost = s.semLost := rfl
@[simp] theorem State.modDie_portsDown (s : State) (k : Nat) (x : Die → Die) : (s.modDie k x).portsDown = s.portsDown := rfl
@[simp] theorem State.modDie_replies (s : State) (k : Nat) (x : Die → Die) : (s.modDie k x).replies = s.replies := rfl
@[simp] theorem State.modDie_portErrs (s : State) (k : Nat) (x : Die → Die) : (s.modDie k x).portErrs = s.portErrs := rfl
@[simp] theorem State.modDie_fwEvents (s : State) (k : Nat) (x : Die → Die) : (s.modDie k x).fwEvents = s.fwEvents := rfl
@[simp] theorem State.modDie_fwWorn (s : State) (k : Nat) (x : Die → Die) : (s.modDie k x).fwWorn = s.fwWorn := rfl
@[simp] theorem State.modDie_verified (s : State) (k : Nat) (x : Die → Die) : (s.modDie k x).verified = s.verified := rfl
@[simp] theorem State.modDie_migrating (s : State) (k : Nat) (x : Die → Die) : (s.modDie k x).migrating = s.migrating := rfl
@[simp] theorem State.modDie_launchSeq (s : State) (k : Nat) (x : Die → Die) : (s.modDie k x).launchSeq = s.launchSeq := rfl
@[simp] theorem State.modDie_blockSeq (s : State) (k : Nat) (x : Die → Die) : (s.modDie k x).blockSeq = s.blockSeq := rfl
@[simp] theorem State.modDie_streams (s : State) (k : Nat) (x : Die → Die) : (s.modDie k x).streams = s.streams := rfl
@[simp] theorem State.modDie_hashLog (s : State) (k : Nat) (x : Die → Die) : (s.modDie k x).hashLog = s.hashLog := rfl
@[simp] theorem State.modDie_hashLeft (s : State) (k : Nat) (x : Die → Die) : (s.modDie k x).hashLeft = s.hashLeft := rfl
@[simp] theorem State.modDie_placeLog (s : State) (k : Nat) (x : Die → Die) : (s.modDie k x).placeLog = s.placeLog := rfl
@[simp] theorem State.modDie_logFull (s : State) (k : Nat) (x : Die → Die) : (s.modDie k x).logFull = s.logFull := rfl
@[simp] theorem State.modDie_pkg (s : State) (k : Nat) (x : Die → Die) : (s.modDie k x).pkg = s.pkg := rfl
@[simp] theorem State.modDie_importRoot (s : State) (k : Nat) (x : Die → Die) : (s.modDie k x).importRoot = s.importRoot := rfl
@[simp] theorem State.modDie_routes (s : State) (k : Nat) (x : Die → Die) : (s.modDie k x).routes = s.routes := rfl
@[simp] theorem State.modDie_ports (s : State) (k : Nat) (x : Die → Die) : (s.modDie k x).ports = s.ports := rfl
@[simp] theorem State.modDie_aborted (s : State) (k : Nat) (x : Die → Die) : (s.modDie k x).aborted = s.aborted := rfl
@[simp] theorem State.modDie_sent (s : State) (k : Nat) (x : Die → Die) : (s.modDie k x).sent = s.sent := rfl
@[simp] theorem State.modDie_drops (s : State) (k : Nat) (x : Die → Die) : (s.modDie k x).drops = s.drops := rfl
@[simp] theorem State.modDie_ft (s : State) (k : Nat) (x : Die → Die) : (s.modDie k x).ft = s.ft := rfl
@[simp] theorem State.modDie_ftChanged (s : State) (k : Nat) (x : Die → Die) : (s.modDie k x).ftChanged = s.ftChanged := rfl
@[simp] theorem State.modDie_locked (s : State) (k : Nat) (x : Die → Die) : (s.modDie k x).locked = s.locked := rfl
@[simp] theorem State.modDie_surfaces (s : State) (k : Nat) (x : Die → Die) : (s.modDie k x).surfaces = s.surfaces := rfl
@[simp] theorem State.modDie_misses (s : State) (k : Nat) (x : Die → Die) : (s.modDie k x).misses = s.misses := rfl
@[simp] theorem State.modDie_leavesUsed (s : State) (k : Nat) (x : Die → Die) : (s.modDie k x).leavesUsed = s.leavesUsed := rfl

-- State.storeBytes

@[simp] theorem State.storeBytes_agenda (s : State) (k : Nat) (x : List Byte) : (s.storeBytes k x).agenda = s.agenda := rfl
@[simp] theorem State.storeBytes_tick (s : State) (k : Nat) (x : List Byte) : (s.storeBytes k x).tick = s.tick := rfl
@[simp] theorem State.storeBytes_now (s : State) (k : Nat) (x : List Byte) : (s.storeBytes k x).now = s.now := rfl
@[simp] theorem State.storeBytes_cur (s : State) (k : Nat) (x : List Byte) : (s.storeBytes k x).cur = s.cur := rfl
@[simp] theorem State.storeBytes_word (s : State) (k : Nat) (x : List Byte) : (s.storeBytes k x).word = s.word := rfl
@[simp] theorem State.storeBytes_nextId (s : State) (k : Nat) (x : List Byte) : (s.storeBytes k x).nextId = s.nextId := rfl
@[simp] theorem State.storeBytes_capacity (s : State) (k : Nat) (x : List Byte) : (s.storeBytes k x).capacity = s.capacity := rfl
@[simp] theorem State.storeBytes_l2n (s : State) (k : Nat) (x : List Byte) : (s.storeBytes k x).l2n = s.l2n := rfl
@[simp] theorem State.storeBytes_groups (s : State) (k : Nat) (x : List Byte) : (s.storeBytes k x).groups = s.groups := rfl
@[simp] theorem State.storeBytes_blocks (s : State) (k : Nat) (x : List Byte) : (s.storeBytes k x).blocks = s.blocks := rfl
@[simp] theorem State.storeBytes_launches (s : State) (k : Nat) (x : List Byte) : (s.storeBytes k x).launches = s.launches := rfl
@[simp] theorem State.storeBytes_cores (s : State) (k : Nat) (x : List Byte) : (s.storeBytes k x).cores = s.cores := rfl
@[simp] theorem State.storeBytes_clusters (s : State) (k : Nat) (x : List Byte) : (s.storeBytes k x).clusters = s.clusters := rfl
@[simp] theorem State.storeBytes_dies (s : State) (k : Nat) (x : List Byte) : (s.storeBytes k x).dies = s.dies := rfl
@[simp] theorem State.storeBytes_asyncs (s : State) (k : Nat) (x : List Byte) : (s.storeBytes k x).asyncs = s.asyncs := rfl
@[simp] theorem State.storeBytes_reqs (s : State) (k : Nat) (x : List Byte) : (s.storeBytes k x).reqs = s.reqs := rfl
@[simp] theorem State.storeBytes_wbs (s : State) (k : Nat) (x : List Byte) : (s.storeBytes k x).wbs = s.wbs := rfl
@[simp] theorem State.storeBytes_pubs (s : State) (k : Nat) (x : List Byte) : (s.storeBytes k x).pubs = s.pubs := rfl
@[simp] theorem State.storeBytes_ctrWaits (s : State) (k : Nat) (x : List Byte) : (s.storeBytes k x).ctrWaits = s.ctrWaits := rfl
@[simp] theorem State.storeBytes_contribs (s : State) (k : Nat) (x : List Byte) : (s.storeBytes k x).contribs = s.contribs := rfl
@[simp] theorem State.storeBytes_copies (s : State) (k : Nat) (x : List Byte) : (s.storeBytes k x).copies = s.copies := rfl
@[simp] theorem State.storeBytes_encodes (s : State) (k : Nat) (x : List Byte) : (s.storeBytes k x).encodes = s.encodes := rfl
@[simp] theorem State.storeBytes_rays (s : State) (k : Nat) (x : List Byte) : (s.storeBytes k x).rays = s.rays := rfl
@[simp] theorem State.storeBytes_prims (s : State) (k : Nat) (x : List Byte) : (s.storeBytes k x).prims = s.prims := rfl
@[simp] theorem State.storeBytes_passes (s : State) (k : Nat) (x : List Byte) : (s.storeBytes k x).passes = s.passes := rfl
@[simp] theorem State.storeBytes_tileReqs (s : State) (k : Nat) (x : List Byte) : (s.storeBytes k x).tileReqs = s.tileReqs := rfl
@[simp] theorem State.storeBytes_retires (s : State) (k : Nat) (x : List Byte) : (s.storeBytes k x).retires = s.retires := rfl
@[simp] theorem State.storeBytes_queues (s : State) (k : Nat) (x : List Byte) : (s.storeBytes k x).queues = s.queues := rfl
@[simp] theorem State.storeBytes_hub (s : State) (k : Nat) (x : List Byte) : (s.storeBytes k x).hub = s.hub := rfl
@[simp] theorem State.storeBytes_sems (s : State) (k : Nat) (x : List Byte) : (s.storeBytes k x).sems = s.sems := rfl
@[simp] theorem State.storeBytes_semLost (s : State) (k : Nat) (x : List Byte) : (s.storeBytes k x).semLost = s.semLost := rfl
@[simp] theorem State.storeBytes_portsDown (s : State) (k : Nat) (x : List Byte) : (s.storeBytes k x).portsDown = s.portsDown := rfl
@[simp] theorem State.storeBytes_replies (s : State) (k : Nat) (x : List Byte) : (s.storeBytes k x).replies = s.replies := rfl
@[simp] theorem State.storeBytes_portErrs (s : State) (k : Nat) (x : List Byte) : (s.storeBytes k x).portErrs = s.portErrs := rfl
@[simp] theorem State.storeBytes_fwEvents (s : State) (k : Nat) (x : List Byte) : (s.storeBytes k x).fwEvents = s.fwEvents := rfl
@[simp] theorem State.storeBytes_fwWorn (s : State) (k : Nat) (x : List Byte) : (s.storeBytes k x).fwWorn = s.fwWorn := rfl
@[simp] theorem State.storeBytes_verified (s : State) (k : Nat) (x : List Byte) : (s.storeBytes k x).verified = s.verified := rfl
@[simp] theorem State.storeBytes_migrating (s : State) (k : Nat) (x : List Byte) : (s.storeBytes k x).migrating = s.migrating := rfl
@[simp] theorem State.storeBytes_launchSeq (s : State) (k : Nat) (x : List Byte) : (s.storeBytes k x).launchSeq = s.launchSeq := rfl
@[simp] theorem State.storeBytes_blockSeq (s : State) (k : Nat) (x : List Byte) : (s.storeBytes k x).blockSeq = s.blockSeq := rfl
@[simp] theorem State.storeBytes_streams (s : State) (k : Nat) (x : List Byte) : (s.storeBytes k x).streams = s.streams := rfl
@[simp] theorem State.storeBytes_hashLog (s : State) (k : Nat) (x : List Byte) : (s.storeBytes k x).hashLog = s.hashLog := rfl
@[simp] theorem State.storeBytes_hashLeft (s : State) (k : Nat) (x : List Byte) : (s.storeBytes k x).hashLeft = s.hashLeft := rfl
@[simp] theorem State.storeBytes_placeLog (s : State) (k : Nat) (x : List Byte) : (s.storeBytes k x).placeLog = s.placeLog := rfl
@[simp] theorem State.storeBytes_logFull (s : State) (k : Nat) (x : List Byte) : (s.storeBytes k x).logFull = s.logFull := rfl
@[simp] theorem State.storeBytes_pkg (s : State) (k : Nat) (x : List Byte) : (s.storeBytes k x).pkg = s.pkg := rfl
@[simp] theorem State.storeBytes_importRoot (s : State) (k : Nat) (x : List Byte) : (s.storeBytes k x).importRoot = s.importRoot := rfl
@[simp] theorem State.storeBytes_routes (s : State) (k : Nat) (x : List Byte) : (s.storeBytes k x).routes = s.routes := rfl
@[simp] theorem State.storeBytes_ports (s : State) (k : Nat) (x : List Byte) : (s.storeBytes k x).ports = s.ports := rfl
@[simp] theorem State.storeBytes_aborted (s : State) (k : Nat) (x : List Byte) : (s.storeBytes k x).aborted = s.aborted := rfl
@[simp] theorem State.storeBytes_sent (s : State) (k : Nat) (x : List Byte) : (s.storeBytes k x).sent = s.sent := rfl
@[simp] theorem State.storeBytes_drops (s : State) (k : Nat) (x : List Byte) : (s.storeBytes k x).drops = s.drops := rfl
@[simp] theorem State.storeBytes_ft (s : State) (k : Nat) (x : List Byte) : (s.storeBytes k x).ft = s.ft := rfl
@[simp] theorem State.storeBytes_ftChanged (s : State) (k : Nat) (x : List Byte) : (s.storeBytes k x).ftChanged = s.ftChanged := rfl
@[simp] theorem State.storeBytes_locked (s : State) (k : Nat) (x : List Byte) : (s.storeBytes k x).locked = s.locked := rfl
@[simp] theorem State.storeBytes_surfaces (s : State) (k : Nat) (x : List Byte) : (s.storeBytes k x).surfaces = s.surfaces := rfl
@[simp] theorem State.storeBytes_misses (s : State) (k : Nat) (x : List Byte) : (s.storeBytes k x).misses = s.misses := rfl
@[simp] theorem State.storeBytes_leavesUsed (s : State) (k : Nat) (x : List Byte) : (s.storeBytes k x).leavesUsed = s.leavesUsed := rfl

-- State.store32

@[simp] theorem State.store32_agenda (s : State) (k : Nat) (x : W32) : (s.store32 k x).agenda = s.agenda := rfl
@[simp] theorem State.store32_tick (s : State) (k : Nat) (x : W32) : (s.store32 k x).tick = s.tick := rfl
@[simp] theorem State.store32_now (s : State) (k : Nat) (x : W32) : (s.store32 k x).now = s.now := rfl
@[simp] theorem State.store32_cur (s : State) (k : Nat) (x : W32) : (s.store32 k x).cur = s.cur := rfl
@[simp] theorem State.store32_word (s : State) (k : Nat) (x : W32) : (s.store32 k x).word = s.word := rfl
@[simp] theorem State.store32_nextId (s : State) (k : Nat) (x : W32) : (s.store32 k x).nextId = s.nextId := rfl
@[simp] theorem State.store32_capacity (s : State) (k : Nat) (x : W32) : (s.store32 k x).capacity = s.capacity := rfl
@[simp] theorem State.store32_l2n (s : State) (k : Nat) (x : W32) : (s.store32 k x).l2n = s.l2n := rfl
@[simp] theorem State.store32_groups (s : State) (k : Nat) (x : W32) : (s.store32 k x).groups = s.groups := rfl
@[simp] theorem State.store32_blocks (s : State) (k : Nat) (x : W32) : (s.store32 k x).blocks = s.blocks := rfl
@[simp] theorem State.store32_launches (s : State) (k : Nat) (x : W32) : (s.store32 k x).launches = s.launches := rfl
@[simp] theorem State.store32_cores (s : State) (k : Nat) (x : W32) : (s.store32 k x).cores = s.cores := rfl
@[simp] theorem State.store32_clusters (s : State) (k : Nat) (x : W32) : (s.store32 k x).clusters = s.clusters := rfl
@[simp] theorem State.store32_dies (s : State) (k : Nat) (x : W32) : (s.store32 k x).dies = s.dies := rfl
@[simp] theorem State.store32_asyncs (s : State) (k : Nat) (x : W32) : (s.store32 k x).asyncs = s.asyncs := rfl
@[simp] theorem State.store32_reqs (s : State) (k : Nat) (x : W32) : (s.store32 k x).reqs = s.reqs := rfl
@[simp] theorem State.store32_wbs (s : State) (k : Nat) (x : W32) : (s.store32 k x).wbs = s.wbs := rfl
@[simp] theorem State.store32_pubs (s : State) (k : Nat) (x : W32) : (s.store32 k x).pubs = s.pubs := rfl
@[simp] theorem State.store32_ctrWaits (s : State) (k : Nat) (x : W32) : (s.store32 k x).ctrWaits = s.ctrWaits := rfl
@[simp] theorem State.store32_contribs (s : State) (k : Nat) (x : W32) : (s.store32 k x).contribs = s.contribs := rfl
@[simp] theorem State.store32_copies (s : State) (k : Nat) (x : W32) : (s.store32 k x).copies = s.copies := rfl
@[simp] theorem State.store32_encodes (s : State) (k : Nat) (x : W32) : (s.store32 k x).encodes = s.encodes := rfl
@[simp] theorem State.store32_rays (s : State) (k : Nat) (x : W32) : (s.store32 k x).rays = s.rays := rfl
@[simp] theorem State.store32_prims (s : State) (k : Nat) (x : W32) : (s.store32 k x).prims = s.prims := rfl
@[simp] theorem State.store32_passes (s : State) (k : Nat) (x : W32) : (s.store32 k x).passes = s.passes := rfl
@[simp] theorem State.store32_tileReqs (s : State) (k : Nat) (x : W32) : (s.store32 k x).tileReqs = s.tileReqs := rfl
@[simp] theorem State.store32_retires (s : State) (k : Nat) (x : W32) : (s.store32 k x).retires = s.retires := rfl
@[simp] theorem State.store32_queues (s : State) (k : Nat) (x : W32) : (s.store32 k x).queues = s.queues := rfl
@[simp] theorem State.store32_hub (s : State) (k : Nat) (x : W32) : (s.store32 k x).hub = s.hub := rfl
@[simp] theorem State.store32_sems (s : State) (k : Nat) (x : W32) : (s.store32 k x).sems = s.sems := rfl
@[simp] theorem State.store32_semLost (s : State) (k : Nat) (x : W32) : (s.store32 k x).semLost = s.semLost := rfl
@[simp] theorem State.store32_portsDown (s : State) (k : Nat) (x : W32) : (s.store32 k x).portsDown = s.portsDown := rfl
@[simp] theorem State.store32_replies (s : State) (k : Nat) (x : W32) : (s.store32 k x).replies = s.replies := rfl
@[simp] theorem State.store32_portErrs (s : State) (k : Nat) (x : W32) : (s.store32 k x).portErrs = s.portErrs := rfl
@[simp] theorem State.store32_fwEvents (s : State) (k : Nat) (x : W32) : (s.store32 k x).fwEvents = s.fwEvents := rfl
@[simp] theorem State.store32_fwWorn (s : State) (k : Nat) (x : W32) : (s.store32 k x).fwWorn = s.fwWorn := rfl
@[simp] theorem State.store32_verified (s : State) (k : Nat) (x : W32) : (s.store32 k x).verified = s.verified := rfl
@[simp] theorem State.store32_migrating (s : State) (k : Nat) (x : W32) : (s.store32 k x).migrating = s.migrating := rfl
@[simp] theorem State.store32_launchSeq (s : State) (k : Nat) (x : W32) : (s.store32 k x).launchSeq = s.launchSeq := rfl
@[simp] theorem State.store32_blockSeq (s : State) (k : Nat) (x : W32) : (s.store32 k x).blockSeq = s.blockSeq := rfl
@[simp] theorem State.store32_streams (s : State) (k : Nat) (x : W32) : (s.store32 k x).streams = s.streams := rfl
@[simp] theorem State.store32_hashLog (s : State) (k : Nat) (x : W32) : (s.store32 k x).hashLog = s.hashLog := rfl
@[simp] theorem State.store32_hashLeft (s : State) (k : Nat) (x : W32) : (s.store32 k x).hashLeft = s.hashLeft := rfl
@[simp] theorem State.store32_placeLog (s : State) (k : Nat) (x : W32) : (s.store32 k x).placeLog = s.placeLog := rfl
@[simp] theorem State.store32_logFull (s : State) (k : Nat) (x : W32) : (s.store32 k x).logFull = s.logFull := rfl
@[simp] theorem State.store32_pkg (s : State) (k : Nat) (x : W32) : (s.store32 k x).pkg = s.pkg := rfl
@[simp] theorem State.store32_importRoot (s : State) (k : Nat) (x : W32) : (s.store32 k x).importRoot = s.importRoot := rfl
@[simp] theorem State.store32_routes (s : State) (k : Nat) (x : W32) : (s.store32 k x).routes = s.routes := rfl
@[simp] theorem State.store32_ports (s : State) (k : Nat) (x : W32) : (s.store32 k x).ports = s.ports := rfl
@[simp] theorem State.store32_aborted (s : State) (k : Nat) (x : W32) : (s.store32 k x).aborted = s.aborted := rfl
@[simp] theorem State.store32_sent (s : State) (k : Nat) (x : W32) : (s.store32 k x).sent = s.sent := rfl
@[simp] theorem State.store32_drops (s : State) (k : Nat) (x : W32) : (s.store32 k x).drops = s.drops := rfl
@[simp] theorem State.store32_ft (s : State) (k : Nat) (x : W32) : (s.store32 k x).ft = s.ft := rfl
@[simp] theorem State.store32_ftChanged (s : State) (k : Nat) (x : W32) : (s.store32 k x).ftChanged = s.ftChanged := rfl
@[simp] theorem State.store32_locked (s : State) (k : Nat) (x : W32) : (s.store32 k x).locked = s.locked := rfl
@[simp] theorem State.store32_surfaces (s : State) (k : Nat) (x : W32) : (s.store32 k x).surfaces = s.surfaces := rfl
@[simp] theorem State.store32_misses (s : State) (k : Nat) (x : W32) : (s.store32 k x).misses = s.misses := rfl
@[simp] theorem State.store32_leavesUsed (s : State) (k : Nat) (x : W32) : (s.store32 k x).leavesUsed = s.leavesUsed := rfl

-- State.store64

@[simp] theorem State.store64_agenda (s : State) (k : Nat) (x : W64) : (s.store64 k x).agenda = s.agenda := rfl
@[simp] theorem State.store64_tick (s : State) (k : Nat) (x : W64) : (s.store64 k x).tick = s.tick := rfl
@[simp] theorem State.store64_now (s : State) (k : Nat) (x : W64) : (s.store64 k x).now = s.now := rfl
@[simp] theorem State.store64_cur (s : State) (k : Nat) (x : W64) : (s.store64 k x).cur = s.cur := rfl
@[simp] theorem State.store64_word (s : State) (k : Nat) (x : W64) : (s.store64 k x).word = s.word := rfl
@[simp] theorem State.store64_nextId (s : State) (k : Nat) (x : W64) : (s.store64 k x).nextId = s.nextId := rfl
@[simp] theorem State.store64_capacity (s : State) (k : Nat) (x : W64) : (s.store64 k x).capacity = s.capacity := rfl
@[simp] theorem State.store64_l2n (s : State) (k : Nat) (x : W64) : (s.store64 k x).l2n = s.l2n := rfl
@[simp] theorem State.store64_groups (s : State) (k : Nat) (x : W64) : (s.store64 k x).groups = s.groups := rfl
@[simp] theorem State.store64_blocks (s : State) (k : Nat) (x : W64) : (s.store64 k x).blocks = s.blocks := rfl
@[simp] theorem State.store64_launches (s : State) (k : Nat) (x : W64) : (s.store64 k x).launches = s.launches := rfl
@[simp] theorem State.store64_cores (s : State) (k : Nat) (x : W64) : (s.store64 k x).cores = s.cores := rfl
@[simp] theorem State.store64_clusters (s : State) (k : Nat) (x : W64) : (s.store64 k x).clusters = s.clusters := rfl
@[simp] theorem State.store64_dies (s : State) (k : Nat) (x : W64) : (s.store64 k x).dies = s.dies := rfl
@[simp] theorem State.store64_asyncs (s : State) (k : Nat) (x : W64) : (s.store64 k x).asyncs = s.asyncs := rfl
@[simp] theorem State.store64_reqs (s : State) (k : Nat) (x : W64) : (s.store64 k x).reqs = s.reqs := rfl
@[simp] theorem State.store64_wbs (s : State) (k : Nat) (x : W64) : (s.store64 k x).wbs = s.wbs := rfl
@[simp] theorem State.store64_pubs (s : State) (k : Nat) (x : W64) : (s.store64 k x).pubs = s.pubs := rfl
@[simp] theorem State.store64_ctrWaits (s : State) (k : Nat) (x : W64) : (s.store64 k x).ctrWaits = s.ctrWaits := rfl
@[simp] theorem State.store64_contribs (s : State) (k : Nat) (x : W64) : (s.store64 k x).contribs = s.contribs := rfl
@[simp] theorem State.store64_copies (s : State) (k : Nat) (x : W64) : (s.store64 k x).copies = s.copies := rfl
@[simp] theorem State.store64_encodes (s : State) (k : Nat) (x : W64) : (s.store64 k x).encodes = s.encodes := rfl
@[simp] theorem State.store64_rays (s : State) (k : Nat) (x : W64) : (s.store64 k x).rays = s.rays := rfl
@[simp] theorem State.store64_prims (s : State) (k : Nat) (x : W64) : (s.store64 k x).prims = s.prims := rfl
@[simp] theorem State.store64_passes (s : State) (k : Nat) (x : W64) : (s.store64 k x).passes = s.passes := rfl
@[simp] theorem State.store64_tileReqs (s : State) (k : Nat) (x : W64) : (s.store64 k x).tileReqs = s.tileReqs := rfl
@[simp] theorem State.store64_retires (s : State) (k : Nat) (x : W64) : (s.store64 k x).retires = s.retires := rfl
@[simp] theorem State.store64_queues (s : State) (k : Nat) (x : W64) : (s.store64 k x).queues = s.queues := rfl
@[simp] theorem State.store64_hub (s : State) (k : Nat) (x : W64) : (s.store64 k x).hub = s.hub := rfl
@[simp] theorem State.store64_sems (s : State) (k : Nat) (x : W64) : (s.store64 k x).sems = s.sems := rfl
@[simp] theorem State.store64_semLost (s : State) (k : Nat) (x : W64) : (s.store64 k x).semLost = s.semLost := rfl
@[simp] theorem State.store64_portsDown (s : State) (k : Nat) (x : W64) : (s.store64 k x).portsDown = s.portsDown := rfl
@[simp] theorem State.store64_replies (s : State) (k : Nat) (x : W64) : (s.store64 k x).replies = s.replies := rfl
@[simp] theorem State.store64_portErrs (s : State) (k : Nat) (x : W64) : (s.store64 k x).portErrs = s.portErrs := rfl
@[simp] theorem State.store64_fwEvents (s : State) (k : Nat) (x : W64) : (s.store64 k x).fwEvents = s.fwEvents := rfl
@[simp] theorem State.store64_fwWorn (s : State) (k : Nat) (x : W64) : (s.store64 k x).fwWorn = s.fwWorn := rfl
@[simp] theorem State.store64_verified (s : State) (k : Nat) (x : W64) : (s.store64 k x).verified = s.verified := rfl
@[simp] theorem State.store64_migrating (s : State) (k : Nat) (x : W64) : (s.store64 k x).migrating = s.migrating := rfl
@[simp] theorem State.store64_launchSeq (s : State) (k : Nat) (x : W64) : (s.store64 k x).launchSeq = s.launchSeq := rfl
@[simp] theorem State.store64_blockSeq (s : State) (k : Nat) (x : W64) : (s.store64 k x).blockSeq = s.blockSeq := rfl
@[simp] theorem State.store64_streams (s : State) (k : Nat) (x : W64) : (s.store64 k x).streams = s.streams := rfl
@[simp] theorem State.store64_hashLog (s : State) (k : Nat) (x : W64) : (s.store64 k x).hashLog = s.hashLog := rfl
@[simp] theorem State.store64_hashLeft (s : State) (k : Nat) (x : W64) : (s.store64 k x).hashLeft = s.hashLeft := rfl
@[simp] theorem State.store64_placeLog (s : State) (k : Nat) (x : W64) : (s.store64 k x).placeLog = s.placeLog := rfl
@[simp] theorem State.store64_logFull (s : State) (k : Nat) (x : W64) : (s.store64 k x).logFull = s.logFull := rfl
@[simp] theorem State.store64_pkg (s : State) (k : Nat) (x : W64) : (s.store64 k x).pkg = s.pkg := rfl
@[simp] theorem State.store64_importRoot (s : State) (k : Nat) (x : W64) : (s.store64 k x).importRoot = s.importRoot := rfl
@[simp] theorem State.store64_routes (s : State) (k : Nat) (x : W64) : (s.store64 k x).routes = s.routes := rfl
@[simp] theorem State.store64_ports (s : State) (k : Nat) (x : W64) : (s.store64 k x).ports = s.ports := rfl
@[simp] theorem State.store64_aborted (s : State) (k : Nat) (x : W64) : (s.store64 k x).aborted = s.aborted := rfl
@[simp] theorem State.store64_sent (s : State) (k : Nat) (x : W64) : (s.store64 k x).sent = s.sent := rfl
@[simp] theorem State.store64_drops (s : State) (k : Nat) (x : W64) : (s.store64 k x).drops = s.drops := rfl
@[simp] theorem State.store64_ft (s : State) (k : Nat) (x : W64) : (s.store64 k x).ft = s.ft := rfl
@[simp] theorem State.store64_ftChanged (s : State) (k : Nat) (x : W64) : (s.store64 k x).ftChanged = s.ftChanged := rfl
@[simp] theorem State.store64_locked (s : State) (k : Nat) (x : W64) : (s.store64 k x).locked = s.locked := rfl
@[simp] theorem State.store64_surfaces (s : State) (k : Nat) (x : W64) : (s.store64 k x).surfaces = s.surfaces := rfl
@[simp] theorem State.store64_misses (s : State) (k : Nat) (x : W64) : (s.store64 k x).misses = s.misses := rfl
@[simp] theorem State.store64_leavesUsed (s : State) (k : Nat) (x : W64) : (s.store64 k x).leavesUsed = s.leavesUsed := rfl

-- State.modGroup

@[simp] theorem State.modGroup_agenda (s : State) (k : Nat) (x : Group → Group) : (s.modGroup k x).agenda = s.agenda := by
  unfold State.modGroup; split <;> rfl
@[simp] theorem State.modGroup_tick (s : State) (k : Nat) (x : Group → Group) : (s.modGroup k x).tick = s.tick := by
  unfold State.modGroup; split <;> rfl
@[simp] theorem State.modGroup_now (s : State) (k : Nat) (x : Group → Group) : (s.modGroup k x).now = s.now := by
  unfold State.modGroup; split <;> rfl
@[simp] theorem State.modGroup_cur (s : State) (k : Nat) (x : Group → Group) : (s.modGroup k x).cur = s.cur := by
  unfold State.modGroup; split <;> rfl
@[simp] theorem State.modGroup_word (s : State) (k : Nat) (x : Group → Group) : (s.modGroup k x).word = s.word := by
  unfold State.modGroup; split <;> rfl
@[simp] theorem State.modGroup_nextId (s : State) (k : Nat) (x : Group → Group) : (s.modGroup k x).nextId = s.nextId := by
  unfold State.modGroup; split <;> rfl
@[simp] theorem State.modGroup_mem (s : State) (k : Nat) (x : Group → Group) : (s.modGroup k x).mem = s.mem := by
  unfold State.modGroup; split <;> rfl
@[simp] theorem State.modGroup_capacity (s : State) (k : Nat) (x : Group → Group) : (s.modGroup k x).capacity = s.capacity := by
  unfold State.modGroup; split <;> rfl
@[simp] theorem State.modGroup_l2n (s : State) (k : Nat) (x : Group → Group) : (s.modGroup k x).l2n = s.l2n := by
  unfold State.modGroup; split <;> rfl
@[simp] theorem State.modGroup_blocks (s : State) (k : Nat) (x : Group → Group) : (s.modGroup k x).blocks = s.blocks := by
  unfold State.modGroup; split <;> rfl
@[simp] theorem State.modGroup_launches (s : State) (k : Nat) (x : Group → Group) : (s.modGroup k x).launches = s.launches := by
  unfold State.modGroup; split <;> rfl
@[simp] theorem State.modGroup_cores (s : State) (k : Nat) (x : Group → Group) : (s.modGroup k x).cores = s.cores := by
  unfold State.modGroup; split <;> rfl
@[simp] theorem State.modGroup_clusters (s : State) (k : Nat) (x : Group → Group) : (s.modGroup k x).clusters = s.clusters := by
  unfold State.modGroup; split <;> rfl
@[simp] theorem State.modGroup_dies (s : State) (k : Nat) (x : Group → Group) : (s.modGroup k x).dies = s.dies := by
  unfold State.modGroup; split <;> rfl
@[simp] theorem State.modGroup_asyncs (s : State) (k : Nat) (x : Group → Group) : (s.modGroup k x).asyncs = s.asyncs := by
  unfold State.modGroup; split <;> rfl
@[simp] theorem State.modGroup_reqs (s : State) (k : Nat) (x : Group → Group) : (s.modGroup k x).reqs = s.reqs := by
  unfold State.modGroup; split <;> rfl
@[simp] theorem State.modGroup_wbs (s : State) (k : Nat) (x : Group → Group) : (s.modGroup k x).wbs = s.wbs := by
  unfold State.modGroup; split <;> rfl
@[simp] theorem State.modGroup_pubs (s : State) (k : Nat) (x : Group → Group) : (s.modGroup k x).pubs = s.pubs := by
  unfold State.modGroup; split <;> rfl
@[simp] theorem State.modGroup_ctrWaits (s : State) (k : Nat) (x : Group → Group) : (s.modGroup k x).ctrWaits = s.ctrWaits := by
  unfold State.modGroup; split <;> rfl
@[simp] theorem State.modGroup_contribs (s : State) (k : Nat) (x : Group → Group) : (s.modGroup k x).contribs = s.contribs := by
  unfold State.modGroup; split <;> rfl
@[simp] theorem State.modGroup_copies (s : State) (k : Nat) (x : Group → Group) : (s.modGroup k x).copies = s.copies := by
  unfold State.modGroup; split <;> rfl
@[simp] theorem State.modGroup_encodes (s : State) (k : Nat) (x : Group → Group) : (s.modGroup k x).encodes = s.encodes := by
  unfold State.modGroup; split <;> rfl
@[simp] theorem State.modGroup_rays (s : State) (k : Nat) (x : Group → Group) : (s.modGroup k x).rays = s.rays := by
  unfold State.modGroup; split <;> rfl
@[simp] theorem State.modGroup_prims (s : State) (k : Nat) (x : Group → Group) : (s.modGroup k x).prims = s.prims := by
  unfold State.modGroup; split <;> rfl
@[simp] theorem State.modGroup_passes (s : State) (k : Nat) (x : Group → Group) : (s.modGroup k x).passes = s.passes := by
  unfold State.modGroup; split <;> rfl
@[simp] theorem State.modGroup_tileReqs (s : State) (k : Nat) (x : Group → Group) : (s.modGroup k x).tileReqs = s.tileReqs := by
  unfold State.modGroup; split <;> rfl
@[simp] theorem State.modGroup_retires (s : State) (k : Nat) (x : Group → Group) : (s.modGroup k x).retires = s.retires := by
  unfold State.modGroup; split <;> rfl
@[simp] theorem State.modGroup_queues (s : State) (k : Nat) (x : Group → Group) : (s.modGroup k x).queues = s.queues := by
  unfold State.modGroup; split <;> rfl
@[simp] theorem State.modGroup_hub (s : State) (k : Nat) (x : Group → Group) : (s.modGroup k x).hub = s.hub := by
  unfold State.modGroup; split <;> rfl
@[simp] theorem State.modGroup_sems (s : State) (k : Nat) (x : Group → Group) : (s.modGroup k x).sems = s.sems := by
  unfold State.modGroup; split <;> rfl
@[simp] theorem State.modGroup_semLost (s : State) (k : Nat) (x : Group → Group) : (s.modGroup k x).semLost = s.semLost := by
  unfold State.modGroup; split <;> rfl
@[simp] theorem State.modGroup_portsDown (s : State) (k : Nat) (x : Group → Group) : (s.modGroup k x).portsDown = s.portsDown := by
  unfold State.modGroup; split <;> rfl
@[simp] theorem State.modGroup_replies (s : State) (k : Nat) (x : Group → Group) : (s.modGroup k x).replies = s.replies := by
  unfold State.modGroup; split <;> rfl
@[simp] theorem State.modGroup_portErrs (s : State) (k : Nat) (x : Group → Group) : (s.modGroup k x).portErrs = s.portErrs := by
  unfold State.modGroup; split <;> rfl
@[simp] theorem State.modGroup_fwEvents (s : State) (k : Nat) (x : Group → Group) : (s.modGroup k x).fwEvents = s.fwEvents := by
  unfold State.modGroup; split <;> rfl
@[simp] theorem State.modGroup_fwWorn (s : State) (k : Nat) (x : Group → Group) : (s.modGroup k x).fwWorn = s.fwWorn := by
  unfold State.modGroup; split <;> rfl
@[simp] theorem State.modGroup_verified (s : State) (k : Nat) (x : Group → Group) : (s.modGroup k x).verified = s.verified := by
  unfold State.modGroup; split <;> rfl
@[simp] theorem State.modGroup_migrating (s : State) (k : Nat) (x : Group → Group) : (s.modGroup k x).migrating = s.migrating := by
  unfold State.modGroup; split <;> rfl
@[simp] theorem State.modGroup_launchSeq (s : State) (k : Nat) (x : Group → Group) : (s.modGroup k x).launchSeq = s.launchSeq := by
  unfold State.modGroup; split <;> rfl
@[simp] theorem State.modGroup_blockSeq (s : State) (k : Nat) (x : Group → Group) : (s.modGroup k x).blockSeq = s.blockSeq := by
  unfold State.modGroup; split <;> rfl
@[simp] theorem State.modGroup_streams (s : State) (k : Nat) (x : Group → Group) : (s.modGroup k x).streams = s.streams := by
  unfold State.modGroup; split <;> rfl
@[simp] theorem State.modGroup_hashLog (s : State) (k : Nat) (x : Group → Group) : (s.modGroup k x).hashLog = s.hashLog := by
  unfold State.modGroup; split <;> rfl
@[simp] theorem State.modGroup_hashLeft (s : State) (k : Nat) (x : Group → Group) : (s.modGroup k x).hashLeft = s.hashLeft := by
  unfold State.modGroup; split <;> rfl
@[simp] theorem State.modGroup_placeLog (s : State) (k : Nat) (x : Group → Group) : (s.modGroup k x).placeLog = s.placeLog := by
  unfold State.modGroup; split <;> rfl
@[simp] theorem State.modGroup_logFull (s : State) (k : Nat) (x : Group → Group) : (s.modGroup k x).logFull = s.logFull := by
  unfold State.modGroup; split <;> rfl
@[simp] theorem State.modGroup_pkg (s : State) (k : Nat) (x : Group → Group) : (s.modGroup k x).pkg = s.pkg := by
  unfold State.modGroup; split <;> rfl
@[simp] theorem State.modGroup_importRoot (s : State) (k : Nat) (x : Group → Group) : (s.modGroup k x).importRoot = s.importRoot := by
  unfold State.modGroup; split <;> rfl
@[simp] theorem State.modGroup_routes (s : State) (k : Nat) (x : Group → Group) : (s.modGroup k x).routes = s.routes := by
  unfold State.modGroup; split <;> rfl
@[simp] theorem State.modGroup_ports (s : State) (k : Nat) (x : Group → Group) : (s.modGroup k x).ports = s.ports := by
  unfold State.modGroup; split <;> rfl
@[simp] theorem State.modGroup_aborted (s : State) (k : Nat) (x : Group → Group) : (s.modGroup k x).aborted = s.aborted := by
  unfold State.modGroup; split <;> rfl
@[simp] theorem State.modGroup_sent (s : State) (k : Nat) (x : Group → Group) : (s.modGroup k x).sent = s.sent := by
  unfold State.modGroup; split <;> rfl
@[simp] theorem State.modGroup_drops (s : State) (k : Nat) (x : Group → Group) : (s.modGroup k x).drops = s.drops := by
  unfold State.modGroup; split <;> rfl
@[simp] theorem State.modGroup_ft (s : State) (k : Nat) (x : Group → Group) : (s.modGroup k x).ft = s.ft := by
  unfold State.modGroup; split <;> rfl
@[simp] theorem State.modGroup_ftChanged (s : State) (k : Nat) (x : Group → Group) : (s.modGroup k x).ftChanged = s.ftChanged := by
  unfold State.modGroup; split <;> rfl
@[simp] theorem State.modGroup_locked (s : State) (k : Nat) (x : Group → Group) : (s.modGroup k x).locked = s.locked := by
  unfold State.modGroup; split <;> rfl
@[simp] theorem State.modGroup_surfaces (s : State) (k : Nat) (x : Group → Group) : (s.modGroup k x).surfaces = s.surfaces := by
  unfold State.modGroup; split <;> rfl
@[simp] theorem State.modGroup_misses (s : State) (k : Nat) (x : Group → Group) : (s.modGroup k x).misses = s.misses := by
  unfold State.modGroup; split <;> rfl
@[simp] theorem State.modGroup_leavesUsed (s : State) (k : Nat) (x : Group → Group) : (s.modGroup k x).leavesUsed = s.leavesUsed := by
  unfold State.modGroup; split <;> rfl

-- State.modBlock

@[simp] theorem State.modBlock_agenda (s : State) (k : Nat) (x : Block → Block) : (s.modBlock k x).agenda = s.agenda := by
  unfold State.modBlock; split <;> rfl
@[simp] theorem State.modBlock_tick (s : State) (k : Nat) (x : Block → Block) : (s.modBlock k x).tick = s.tick := by
  unfold State.modBlock; split <;> rfl
@[simp] theorem State.modBlock_now (s : State) (k : Nat) (x : Block → Block) : (s.modBlock k x).now = s.now := by
  unfold State.modBlock; split <;> rfl
@[simp] theorem State.modBlock_cur (s : State) (k : Nat) (x : Block → Block) : (s.modBlock k x).cur = s.cur := by
  unfold State.modBlock; split <;> rfl
@[simp] theorem State.modBlock_word (s : State) (k : Nat) (x : Block → Block) : (s.modBlock k x).word = s.word := by
  unfold State.modBlock; split <;> rfl
@[simp] theorem State.modBlock_nextId (s : State) (k : Nat) (x : Block → Block) : (s.modBlock k x).nextId = s.nextId := by
  unfold State.modBlock; split <;> rfl
@[simp] theorem State.modBlock_mem (s : State) (k : Nat) (x : Block → Block) : (s.modBlock k x).mem = s.mem := by
  unfold State.modBlock; split <;> rfl
@[simp] theorem State.modBlock_capacity (s : State) (k : Nat) (x : Block → Block) : (s.modBlock k x).capacity = s.capacity := by
  unfold State.modBlock; split <;> rfl
@[simp] theorem State.modBlock_l2n (s : State) (k : Nat) (x : Block → Block) : (s.modBlock k x).l2n = s.l2n := by
  unfold State.modBlock; split <;> rfl
@[simp] theorem State.modBlock_groups (s : State) (k : Nat) (x : Block → Block) : (s.modBlock k x).groups = s.groups := by
  unfold State.modBlock; split <;> rfl
@[simp] theorem State.modBlock_launches (s : State) (k : Nat) (x : Block → Block) : (s.modBlock k x).launches = s.launches := by
  unfold State.modBlock; split <;> rfl
@[simp] theorem State.modBlock_cores (s : State) (k : Nat) (x : Block → Block) : (s.modBlock k x).cores = s.cores := by
  unfold State.modBlock; split <;> rfl
@[simp] theorem State.modBlock_clusters (s : State) (k : Nat) (x : Block → Block) : (s.modBlock k x).clusters = s.clusters := by
  unfold State.modBlock; split <;> rfl
@[simp] theorem State.modBlock_dies (s : State) (k : Nat) (x : Block → Block) : (s.modBlock k x).dies = s.dies := by
  unfold State.modBlock; split <;> rfl
@[simp] theorem State.modBlock_asyncs (s : State) (k : Nat) (x : Block → Block) : (s.modBlock k x).asyncs = s.asyncs := by
  unfold State.modBlock; split <;> rfl
@[simp] theorem State.modBlock_reqs (s : State) (k : Nat) (x : Block → Block) : (s.modBlock k x).reqs = s.reqs := by
  unfold State.modBlock; split <;> rfl
@[simp] theorem State.modBlock_wbs (s : State) (k : Nat) (x : Block → Block) : (s.modBlock k x).wbs = s.wbs := by
  unfold State.modBlock; split <;> rfl
@[simp] theorem State.modBlock_pubs (s : State) (k : Nat) (x : Block → Block) : (s.modBlock k x).pubs = s.pubs := by
  unfold State.modBlock; split <;> rfl
@[simp] theorem State.modBlock_ctrWaits (s : State) (k : Nat) (x : Block → Block) : (s.modBlock k x).ctrWaits = s.ctrWaits := by
  unfold State.modBlock; split <;> rfl
@[simp] theorem State.modBlock_contribs (s : State) (k : Nat) (x : Block → Block) : (s.modBlock k x).contribs = s.contribs := by
  unfold State.modBlock; split <;> rfl
@[simp] theorem State.modBlock_copies (s : State) (k : Nat) (x : Block → Block) : (s.modBlock k x).copies = s.copies := by
  unfold State.modBlock; split <;> rfl
@[simp] theorem State.modBlock_encodes (s : State) (k : Nat) (x : Block → Block) : (s.modBlock k x).encodes = s.encodes := by
  unfold State.modBlock; split <;> rfl
@[simp] theorem State.modBlock_rays (s : State) (k : Nat) (x : Block → Block) : (s.modBlock k x).rays = s.rays := by
  unfold State.modBlock; split <;> rfl
@[simp] theorem State.modBlock_prims (s : State) (k : Nat) (x : Block → Block) : (s.modBlock k x).prims = s.prims := by
  unfold State.modBlock; split <;> rfl
@[simp] theorem State.modBlock_passes (s : State) (k : Nat) (x : Block → Block) : (s.modBlock k x).passes = s.passes := by
  unfold State.modBlock; split <;> rfl
@[simp] theorem State.modBlock_tileReqs (s : State) (k : Nat) (x : Block → Block) : (s.modBlock k x).tileReqs = s.tileReqs := by
  unfold State.modBlock; split <;> rfl
@[simp] theorem State.modBlock_retires (s : State) (k : Nat) (x : Block → Block) : (s.modBlock k x).retires = s.retires := by
  unfold State.modBlock; split <;> rfl
@[simp] theorem State.modBlock_queues (s : State) (k : Nat) (x : Block → Block) : (s.modBlock k x).queues = s.queues := by
  unfold State.modBlock; split <;> rfl
@[simp] theorem State.modBlock_hub (s : State) (k : Nat) (x : Block → Block) : (s.modBlock k x).hub = s.hub := by
  unfold State.modBlock; split <;> rfl
@[simp] theorem State.modBlock_sems (s : State) (k : Nat) (x : Block → Block) : (s.modBlock k x).sems = s.sems := by
  unfold State.modBlock; split <;> rfl
@[simp] theorem State.modBlock_semLost (s : State) (k : Nat) (x : Block → Block) : (s.modBlock k x).semLost = s.semLost := by
  unfold State.modBlock; split <;> rfl
@[simp] theorem State.modBlock_portsDown (s : State) (k : Nat) (x : Block → Block) : (s.modBlock k x).portsDown = s.portsDown := by
  unfold State.modBlock; split <;> rfl
@[simp] theorem State.modBlock_replies (s : State) (k : Nat) (x : Block → Block) : (s.modBlock k x).replies = s.replies := by
  unfold State.modBlock; split <;> rfl
@[simp] theorem State.modBlock_portErrs (s : State) (k : Nat) (x : Block → Block) : (s.modBlock k x).portErrs = s.portErrs := by
  unfold State.modBlock; split <;> rfl
@[simp] theorem State.modBlock_fwEvents (s : State) (k : Nat) (x : Block → Block) : (s.modBlock k x).fwEvents = s.fwEvents := by
  unfold State.modBlock; split <;> rfl
@[simp] theorem State.modBlock_fwWorn (s : State) (k : Nat) (x : Block → Block) : (s.modBlock k x).fwWorn = s.fwWorn := by
  unfold State.modBlock; split <;> rfl
@[simp] theorem State.modBlock_verified (s : State) (k : Nat) (x : Block → Block) : (s.modBlock k x).verified = s.verified := by
  unfold State.modBlock; split <;> rfl
@[simp] theorem State.modBlock_migrating (s : State) (k : Nat) (x : Block → Block) : (s.modBlock k x).migrating = s.migrating := by
  unfold State.modBlock; split <;> rfl
@[simp] theorem State.modBlock_launchSeq (s : State) (k : Nat) (x : Block → Block) : (s.modBlock k x).launchSeq = s.launchSeq := by
  unfold State.modBlock; split <;> rfl
@[simp] theorem State.modBlock_blockSeq (s : State) (k : Nat) (x : Block → Block) : (s.modBlock k x).blockSeq = s.blockSeq := by
  unfold State.modBlock; split <;> rfl
@[simp] theorem State.modBlock_streams (s : State) (k : Nat) (x : Block → Block) : (s.modBlock k x).streams = s.streams := by
  unfold State.modBlock; split <;> rfl
@[simp] theorem State.modBlock_hashLog (s : State) (k : Nat) (x : Block → Block) : (s.modBlock k x).hashLog = s.hashLog := by
  unfold State.modBlock; split <;> rfl
@[simp] theorem State.modBlock_hashLeft (s : State) (k : Nat) (x : Block → Block) : (s.modBlock k x).hashLeft = s.hashLeft := by
  unfold State.modBlock; split <;> rfl
@[simp] theorem State.modBlock_placeLog (s : State) (k : Nat) (x : Block → Block) : (s.modBlock k x).placeLog = s.placeLog := by
  unfold State.modBlock; split <;> rfl
@[simp] theorem State.modBlock_logFull (s : State) (k : Nat) (x : Block → Block) : (s.modBlock k x).logFull = s.logFull := by
  unfold State.modBlock; split <;> rfl
@[simp] theorem State.modBlock_pkg (s : State) (k : Nat) (x : Block → Block) : (s.modBlock k x).pkg = s.pkg := by
  unfold State.modBlock; split <;> rfl
@[simp] theorem State.modBlock_importRoot (s : State) (k : Nat) (x : Block → Block) : (s.modBlock k x).importRoot = s.importRoot := by
  unfold State.modBlock; split <;> rfl
@[simp] theorem State.modBlock_routes (s : State) (k : Nat) (x : Block → Block) : (s.modBlock k x).routes = s.routes := by
  unfold State.modBlock; split <;> rfl
@[simp] theorem State.modBlock_ports (s : State) (k : Nat) (x : Block → Block) : (s.modBlock k x).ports = s.ports := by
  unfold State.modBlock; split <;> rfl
@[simp] theorem State.modBlock_aborted (s : State) (k : Nat) (x : Block → Block) : (s.modBlock k x).aborted = s.aborted := by
  unfold State.modBlock; split <;> rfl
@[simp] theorem State.modBlock_sent (s : State) (k : Nat) (x : Block → Block) : (s.modBlock k x).sent = s.sent := by
  unfold State.modBlock; split <;> rfl
@[simp] theorem State.modBlock_drops (s : State) (k : Nat) (x : Block → Block) : (s.modBlock k x).drops = s.drops := by
  unfold State.modBlock; split <;> rfl
@[simp] theorem State.modBlock_ft (s : State) (k : Nat) (x : Block → Block) : (s.modBlock k x).ft = s.ft := by
  unfold State.modBlock; split <;> rfl
@[simp] theorem State.modBlock_ftChanged (s : State) (k : Nat) (x : Block → Block) : (s.modBlock k x).ftChanged = s.ftChanged := by
  unfold State.modBlock; split <;> rfl
@[simp] theorem State.modBlock_locked (s : State) (k : Nat) (x : Block → Block) : (s.modBlock k x).locked = s.locked := by
  unfold State.modBlock; split <;> rfl
@[simp] theorem State.modBlock_surfaces (s : State) (k : Nat) (x : Block → Block) : (s.modBlock k x).surfaces = s.surfaces := by
  unfold State.modBlock; split <;> rfl
@[simp] theorem State.modBlock_misses (s : State) (k : Nat) (x : Block → Block) : (s.modBlock k x).misses = s.misses := by
  unfold State.modBlock; split <;> rfl
@[simp] theorem State.modBlock_leavesUsed (s : State) (k : Nat) (x : Block → Block) : (s.modBlock k x).leavesUsed = s.leavesUsed := by
  unfold State.modBlock; split <;> rfl

-- State.modLaunch

@[simp] theorem State.modLaunch_agenda (s : State) (k : Nat) (x : Launch → Launch) : (s.modLaunch k x).agenda = s.agenda := by
  unfold State.modLaunch; split <;> rfl
@[simp] theorem State.modLaunch_tick (s : State) (k : Nat) (x : Launch → Launch) : (s.modLaunch k x).tick = s.tick := by
  unfold State.modLaunch; split <;> rfl
@[simp] theorem State.modLaunch_now (s : State) (k : Nat) (x : Launch → Launch) : (s.modLaunch k x).now = s.now := by
  unfold State.modLaunch; split <;> rfl
@[simp] theorem State.modLaunch_cur (s : State) (k : Nat) (x : Launch → Launch) : (s.modLaunch k x).cur = s.cur := by
  unfold State.modLaunch; split <;> rfl
@[simp] theorem State.modLaunch_word (s : State) (k : Nat) (x : Launch → Launch) : (s.modLaunch k x).word = s.word := by
  unfold State.modLaunch; split <;> rfl
@[simp] theorem State.modLaunch_nextId (s : State) (k : Nat) (x : Launch → Launch) : (s.modLaunch k x).nextId = s.nextId := by
  unfold State.modLaunch; split <;> rfl
@[simp] theorem State.modLaunch_mem (s : State) (k : Nat) (x : Launch → Launch) : (s.modLaunch k x).mem = s.mem := by
  unfold State.modLaunch; split <;> rfl
@[simp] theorem State.modLaunch_capacity (s : State) (k : Nat) (x : Launch → Launch) : (s.modLaunch k x).capacity = s.capacity := by
  unfold State.modLaunch; split <;> rfl
@[simp] theorem State.modLaunch_l2n (s : State) (k : Nat) (x : Launch → Launch) : (s.modLaunch k x).l2n = s.l2n := by
  unfold State.modLaunch; split <;> rfl
@[simp] theorem State.modLaunch_groups (s : State) (k : Nat) (x : Launch → Launch) : (s.modLaunch k x).groups = s.groups := by
  unfold State.modLaunch; split <;> rfl
@[simp] theorem State.modLaunch_blocks (s : State) (k : Nat) (x : Launch → Launch) : (s.modLaunch k x).blocks = s.blocks := by
  unfold State.modLaunch; split <;> rfl
@[simp] theorem State.modLaunch_cores (s : State) (k : Nat) (x : Launch → Launch) : (s.modLaunch k x).cores = s.cores := by
  unfold State.modLaunch; split <;> rfl
@[simp] theorem State.modLaunch_clusters (s : State) (k : Nat) (x : Launch → Launch) : (s.modLaunch k x).clusters = s.clusters := by
  unfold State.modLaunch; split <;> rfl
@[simp] theorem State.modLaunch_dies (s : State) (k : Nat) (x : Launch → Launch) : (s.modLaunch k x).dies = s.dies := by
  unfold State.modLaunch; split <;> rfl
@[simp] theorem State.modLaunch_asyncs (s : State) (k : Nat) (x : Launch → Launch) : (s.modLaunch k x).asyncs = s.asyncs := by
  unfold State.modLaunch; split <;> rfl
@[simp] theorem State.modLaunch_reqs (s : State) (k : Nat) (x : Launch → Launch) : (s.modLaunch k x).reqs = s.reqs := by
  unfold State.modLaunch; split <;> rfl
@[simp] theorem State.modLaunch_wbs (s : State) (k : Nat) (x : Launch → Launch) : (s.modLaunch k x).wbs = s.wbs := by
  unfold State.modLaunch; split <;> rfl
@[simp] theorem State.modLaunch_pubs (s : State) (k : Nat) (x : Launch → Launch) : (s.modLaunch k x).pubs = s.pubs := by
  unfold State.modLaunch; split <;> rfl
@[simp] theorem State.modLaunch_ctrWaits (s : State) (k : Nat) (x : Launch → Launch) : (s.modLaunch k x).ctrWaits = s.ctrWaits := by
  unfold State.modLaunch; split <;> rfl
@[simp] theorem State.modLaunch_contribs (s : State) (k : Nat) (x : Launch → Launch) : (s.modLaunch k x).contribs = s.contribs := by
  unfold State.modLaunch; split <;> rfl
@[simp] theorem State.modLaunch_copies (s : State) (k : Nat) (x : Launch → Launch) : (s.modLaunch k x).copies = s.copies := by
  unfold State.modLaunch; split <;> rfl
@[simp] theorem State.modLaunch_encodes (s : State) (k : Nat) (x : Launch → Launch) : (s.modLaunch k x).encodes = s.encodes := by
  unfold State.modLaunch; split <;> rfl
@[simp] theorem State.modLaunch_rays (s : State) (k : Nat) (x : Launch → Launch) : (s.modLaunch k x).rays = s.rays := by
  unfold State.modLaunch; split <;> rfl
@[simp] theorem State.modLaunch_prims (s : State) (k : Nat) (x : Launch → Launch) : (s.modLaunch k x).prims = s.prims := by
  unfold State.modLaunch; split <;> rfl
@[simp] theorem State.modLaunch_passes (s : State) (k : Nat) (x : Launch → Launch) : (s.modLaunch k x).passes = s.passes := by
  unfold State.modLaunch; split <;> rfl
@[simp] theorem State.modLaunch_tileReqs (s : State) (k : Nat) (x : Launch → Launch) : (s.modLaunch k x).tileReqs = s.tileReqs := by
  unfold State.modLaunch; split <;> rfl
@[simp] theorem State.modLaunch_retires (s : State) (k : Nat) (x : Launch → Launch) : (s.modLaunch k x).retires = s.retires := by
  unfold State.modLaunch; split <;> rfl
@[simp] theorem State.modLaunch_queues (s : State) (k : Nat) (x : Launch → Launch) : (s.modLaunch k x).queues = s.queues := by
  unfold State.modLaunch; split <;> rfl
@[simp] theorem State.modLaunch_hub (s : State) (k : Nat) (x : Launch → Launch) : (s.modLaunch k x).hub = s.hub := by
  unfold State.modLaunch; split <;> rfl
@[simp] theorem State.modLaunch_sems (s : State) (k : Nat) (x : Launch → Launch) : (s.modLaunch k x).sems = s.sems := by
  unfold State.modLaunch; split <;> rfl
@[simp] theorem State.modLaunch_semLost (s : State) (k : Nat) (x : Launch → Launch) : (s.modLaunch k x).semLost = s.semLost := by
  unfold State.modLaunch; split <;> rfl
@[simp] theorem State.modLaunch_portsDown (s : State) (k : Nat) (x : Launch → Launch) : (s.modLaunch k x).portsDown = s.portsDown := by
  unfold State.modLaunch; split <;> rfl
@[simp] theorem State.modLaunch_replies (s : State) (k : Nat) (x : Launch → Launch) : (s.modLaunch k x).replies = s.replies := by
  unfold State.modLaunch; split <;> rfl
@[simp] theorem State.modLaunch_portErrs (s : State) (k : Nat) (x : Launch → Launch) : (s.modLaunch k x).portErrs = s.portErrs := by
  unfold State.modLaunch; split <;> rfl
@[simp] theorem State.modLaunch_fwEvents (s : State) (k : Nat) (x : Launch → Launch) : (s.modLaunch k x).fwEvents = s.fwEvents := by
  unfold State.modLaunch; split <;> rfl
@[simp] theorem State.modLaunch_fwWorn (s : State) (k : Nat) (x : Launch → Launch) : (s.modLaunch k x).fwWorn = s.fwWorn := by
  unfold State.modLaunch; split <;> rfl
@[simp] theorem State.modLaunch_verified (s : State) (k : Nat) (x : Launch → Launch) : (s.modLaunch k x).verified = s.verified := by
  unfold State.modLaunch; split <;> rfl
@[simp] theorem State.modLaunch_migrating (s : State) (k : Nat) (x : Launch → Launch) : (s.modLaunch k x).migrating = s.migrating := by
  unfold State.modLaunch; split <;> rfl
@[simp] theorem State.modLaunch_launchSeq (s : State) (k : Nat) (x : Launch → Launch) : (s.modLaunch k x).launchSeq = s.launchSeq := by
  unfold State.modLaunch; split <;> rfl
@[simp] theorem State.modLaunch_blockSeq (s : State) (k : Nat) (x : Launch → Launch) : (s.modLaunch k x).blockSeq = s.blockSeq := by
  unfold State.modLaunch; split <;> rfl
@[simp] theorem State.modLaunch_streams (s : State) (k : Nat) (x : Launch → Launch) : (s.modLaunch k x).streams = s.streams := by
  unfold State.modLaunch; split <;> rfl
@[simp] theorem State.modLaunch_hashLog (s : State) (k : Nat) (x : Launch → Launch) : (s.modLaunch k x).hashLog = s.hashLog := by
  unfold State.modLaunch; split <;> rfl
@[simp] theorem State.modLaunch_hashLeft (s : State) (k : Nat) (x : Launch → Launch) : (s.modLaunch k x).hashLeft = s.hashLeft := by
  unfold State.modLaunch; split <;> rfl
@[simp] theorem State.modLaunch_placeLog (s : State) (k : Nat) (x : Launch → Launch) : (s.modLaunch k x).placeLog = s.placeLog := by
  unfold State.modLaunch; split <;> rfl
@[simp] theorem State.modLaunch_logFull (s : State) (k : Nat) (x : Launch → Launch) : (s.modLaunch k x).logFull = s.logFull := by
  unfold State.modLaunch; split <;> rfl
@[simp] theorem State.modLaunch_pkg (s : State) (k : Nat) (x : Launch → Launch) : (s.modLaunch k x).pkg = s.pkg := by
  unfold State.modLaunch; split <;> rfl
@[simp] theorem State.modLaunch_importRoot (s : State) (k : Nat) (x : Launch → Launch) : (s.modLaunch k x).importRoot = s.importRoot := by
  unfold State.modLaunch; split <;> rfl
@[simp] theorem State.modLaunch_routes (s : State) (k : Nat) (x : Launch → Launch) : (s.modLaunch k x).routes = s.routes := by
  unfold State.modLaunch; split <;> rfl
@[simp] theorem State.modLaunch_ports (s : State) (k : Nat) (x : Launch → Launch) : (s.modLaunch k x).ports = s.ports := by
  unfold State.modLaunch; split <;> rfl
@[simp] theorem State.modLaunch_aborted (s : State) (k : Nat) (x : Launch → Launch) : (s.modLaunch k x).aborted = s.aborted := by
  unfold State.modLaunch; split <;> rfl
@[simp] theorem State.modLaunch_sent (s : State) (k : Nat) (x : Launch → Launch) : (s.modLaunch k x).sent = s.sent := by
  unfold State.modLaunch; split <;> rfl
@[simp] theorem State.modLaunch_drops (s : State) (k : Nat) (x : Launch → Launch) : (s.modLaunch k x).drops = s.drops := by
  unfold State.modLaunch; split <;> rfl
@[simp] theorem State.modLaunch_ft (s : State) (k : Nat) (x : Launch → Launch) : (s.modLaunch k x).ft = s.ft := by
  unfold State.modLaunch; split <;> rfl
@[simp] theorem State.modLaunch_ftChanged (s : State) (k : Nat) (x : Launch → Launch) : (s.modLaunch k x).ftChanged = s.ftChanged := by
  unfold State.modLaunch; split <;> rfl
@[simp] theorem State.modLaunch_locked (s : State) (k : Nat) (x : Launch → Launch) : (s.modLaunch k x).locked = s.locked := by
  unfold State.modLaunch; split <;> rfl
@[simp] theorem State.modLaunch_surfaces (s : State) (k : Nat) (x : Launch → Launch) : (s.modLaunch k x).surfaces = s.surfaces := by
  unfold State.modLaunch; split <;> rfl
@[simp] theorem State.modLaunch_misses (s : State) (k : Nat) (x : Launch → Launch) : (s.modLaunch k x).misses = s.misses := by
  unfold State.modLaunch; split <;> rfl
@[simp] theorem State.modLaunch_leavesUsed (s : State) (k : Nat) (x : Launch → Launch) : (s.modLaunch k x).leavesUsed = s.leavesUsed := by
  unfold State.modLaunch; split <;> rfl

-- Group.vset

@[simp] theorem Group.vset_core (g : Group) (r l : Nat) (x : W32) : (g.vset r l x).core = g.core := rfl
@[simp] theorem Group.vset_blk (g : Group) (r l : Nat) (x : W32) : (g.vset r l x).blk = g.blk := rfl
@[simp] theorem Group.vset_launch (g : Group) (r l : Nat) (x : W32) : (g.vset r l x).launch = g.launch := rfl
@[simp] theorem Group.vset_gix (g : Group) (r l : Nat) (x : W32) : (g.vset r l x).gix = g.gix := rfl
@[simp] theorem Group.vset_launched (g : Group) (r l : Nat) (x : W32) : (g.vset r l x).launched = g.launched := rfl
@[simp] theorem Group.vset_live (g : Group) (r l : Nat) (x : W32) : (g.vset r l x).live = g.live := rfl
@[simp] theorem Group.vset_nregs (g : Group) (r l : Nat) (x : W32) : (g.vset r l x).nregs = g.nregs := rfl
@[simp] theorem Group.vset_tag (g : Group) (r l : Nat) (x : W32) : (g.vset r l x).tag = g.tag := rfl
@[simp] theorem Group.vset_pcv (g : Group) (r l : Nat) (x : W32) : (g.vset r l x).pcv = g.pcv := rfl
@[simp] theorem Group.vset_s (g : Group) (r l : Nat) (x : W32) : (g.vset r l x).s = g.s := rfl
@[simp] theorem Group.vset_cm (g : Group) (r l : Nat) (x : W32) : (g.vset r l x).cm = g.cm := rfl
@[simp] theorem Group.vset_en (g : Group) (r l : Nat) (x : W32) : (g.vset r l x).en = g.en := rfl
@[simp] theorem Group.vset_lc (g : Group) (r l : Nat) (x : W32) : (g.vset r l x).lc = g.lc := rfl
@[simp] theorem Group.vset_w (g : Group) (r l : Nat) (x : W32) : (g.vset r l x).w = g.w := rfl
@[simp] theorem Group.vset_t (g : Group) (r l : Nat) (x : W32) : (g.vset r l x).t = g.t := rfl
@[simp] theorem Group.vset_ab (g : Group) (r l : Nat) (x : W32) : (g.vset r l x).ab = g.ab := rfl
@[simp] theorem Group.vset_al (g : Group) (r l : Nat) (x : W32) : (g.vset r l x).al = g.al := rfl
@[simp] theorem Group.vset_sb (g : Group) (r l : Nat) (x : W32) : (g.vset r l x).sb = g.sb := rfl
@[simp] theorem Group.vset_fps (g : Group) (r l : Nat) (x : W32) : (g.vset r l x).fps = g.fps := rfl
@[simp] theorem Group.vset_queue (g : Group) (r l : Nat) (x : W32) : (g.vset r l x).queue = g.queue := rfl
@[simp] theorem Group.vset_shadow (g : Group) (r l : Nat) (x : W32) : (g.vset r l x).shadow = g.shadow := rfl
@[simp] theorem Group.vset_epc (g : Group) (r l : Nat) (x : W32) : (g.vset r l x).epc = g.epc := rfl
@[simp] theorem Group.vset_ecause (g : Group) (r l : Nat) (x : W32) : (g.vset r l x).ecause = g.ecause := rfl
@[simp] theorem Group.vset_eaddr (g : Group) (r l : Nat) (x : W32) : (g.vset r l x).eaddr = g.eaddr := rfl
@[simp] theorem Group.vset_emask (g : Group) (r l : Nat) (x : W32) : (g.vset r l x).emask = g.emask := rfl
@[simp] theorem Group.vset_ehdr (g : Group) (r l : Nat) (x : W32) : (g.vset r l x).ehdr = g.ehdr := rfl
@[simp] theorem Group.vset_sen (g : Group) (r l : Nat) (x : W32) : (g.vset r l x).sen = g.sen := rfl
@[simp] theorem Group.vset_scm (g : Group) (r l : Nat) (x : W32) : (g.vset r l x).scm = g.scm := rfl
@[simp] theorem Group.vset_hkind (g : Group) (r l : Nat) (x : W32) : (g.vset r l x).hkind = g.hkind := rfl
@[simp] theorem Group.vset_escr (g : Group) (r l : Nat) (x : W32) : (g.vset r l x).escr = g.escr := rfl
@[simp] theorem Group.vset_dbgPend (g : Group) (r l : Nat) (x : W32) : (g.vset r l x).dbgPend = g.dbgPend := rfl
@[simp] theorem Group.vset_clause (g : Group) (r l : Nat) (x : W32) : (g.vset r l x).clause = g.clause := rfl
@[simp] theorem Group.vset_dwell (g : Group) (r l : Nat) (x : W32) : (g.vset r l x).dwell = g.dwell := rfl
@[simp] theorem Group.vset_last (g : Group) (r l : Nat) (x : W32) : (g.vset r l x).last = g.last := rfl
@[simp] theorem Group.vset_lprev (g : Group) (r l : Nat) (x : W32) : (g.vset r l x).lprev = g.lprev := rfl
@[simp] theorem Group.vset_pref (g : Group) (r l : Nat) (x : W32) : (g.vset r l x).pref = g.pref := rfl
@[simp] theorem Group.vset_age (g : Group) (r l : Nat) (x : W32) : (g.vset r l x).age = g.age := rfl
@[simp] theorem Group.vset_readySince (g : Group) (r l : Nat) (x : W32) : (g.vset r l x).readySince = g.readySince := rfl
@[simp] theorem Group.vset_yielded (g : Group) (r l : Nat) (x : W32) : (g.vset r l x).yielded = g.yielded := rfl
@[simp] theorem Group.vset_sleepUntil (g : Group) (r l : Nat) (x : W32) : (g.vset r l x).sleepUntil = g.sleepUntil := rfl
@[simp] theorem Group.vset_halted (g : Group) (r l : Nat) (x : W32) : (g.vset r l x).halted = g.halted := rfl
@[simp] theorem Group.vset_draining (g : Group) (r l : Nat) (x : W32) : (g.vset r l x).draining = g.draining := rfl
@[simp] theorem Group.vset_evicting (g : Group) (r l : Nat) (x : W32) : (g.vset r l x).evicting = g.evicting := rfl
@[simp] theorem Group.vset_timers (g : Group) (r l : Nat) (x : W32) : (g.vset r l x).timers = g.timers := rfl
@[simp] theorem Group.vset_mid (g : Group) (r l : Nat) (x : W32) : (g.vset r l x).mid = g.mid := rfl
@[simp] theorem Group.vset_midHdr (g : Group) (r l : Nat) (x : W32) : (g.vset r l x).midHdr = g.midHdr := rfl
@[simp] theorem Group.vset_midQueue (g : Group) (r l : Nat) (x : W32) : (g.vset r l x).midQueue = g.midQueue := rfl
@[simp] theorem Group.vset_shadowEnd (g : Group) (r l : Nat) (x : W32) : (g.vset r l x).shadowEnd = g.shadowEnd := rfl
@[simp] theorem Group.vset_midEnd (g : Group) (r l : Nat) (x : W32) : (g.vset r l x).midEnd = g.midEnd := rfl
@[simp] theorem Group.vset_hint (g : Group) (r l : Nat) (x : W32) : (g.vset r l x).hint = g.hint := rfl
@[simp] theorem Group.vset_bpExempt (g : Group) (r l : Nat) (x : W32) : (g.vset r l x).bpExempt = g.bpExempt := rfl
@[simp] theorem Group.vset_watchExempt (g : Group) (r l : Nat) (x : W32) : (g.vset r l x).watchExempt = g.watchExempt := rfl
@[simp] theorem Group.vset_watchHit (g : Group) (r l : Nat) (x : W32) : (g.vset r l x).watchHit = g.watchHit := rfl
@[simp] theorem Group.vset_watchSave (g : Group) (r l : Nat) (x : W32) : (g.vset r l x).watchSave = g.watchSave := rfl
@[simp] theorem Group.vset_lastPc (g : Group) (r l : Nat) (x : W32) : (g.vset r l x).lastPc = g.lastPc := rfl
@[simp] theorem Group.vset_lastSeq (g : Group) (r l : Nat) (x : W32) : (g.vset r l x).lastSeq = g.lastSeq := rfl
@[simp] theorem Group.vset_covCand (g : Group) (r l : Nat) (x : W32) : (g.vset r l x).covCand = g.covCand := rfl
@[simp] theorem Group.vset_covDone (g : Group) (r l : Nat) (x : W32) : (g.vset r l x).covDone = g.covDone := rfl
@[simp] theorem Group.vset_hash (g : Group) (r l : Nat) (x : W32) : (g.vset r l x).hash = g.hash := rfl
@[simp] theorem Group.vset_hashQ (g : Group) (r l : Nat) (x : W32) : (g.vset r l x).hashQ = g.hashQ := rfl
@[simp] theorem Group.vset_ordinal (g : Group) (r l : Nat) (x : W32) : (g.vset r l x).ordinal = g.ordinal := rfl
@[simp] theorem Group.vset_spawnHeld (g : Group) (r l : Nat) (x : W32) : (g.vset r l x).spawnHeld = g.spawnHeld := rfl
@[simp] theorem Group.vset_waitReqs (g : Group) (r l : Nat) (x : W32) : (g.vset r l x).waitReqs = g.waitReqs := rfl
@[simp] theorem Group.vset_checks (g : Group) (r l : Nat) (x : W32) : (g.vset r l x).checks = g.checks := rfl
@[simp] theorem Group.vset_xcCount (g : Group) (r l : Nat) (x : W32) : (g.vset r l x).xcCount = g.xcCount := rfl
@[simp] theorem Group.vset_xeCount (g : Group) (r l : Nat) (x : W32) : (g.vset r l x).xeCount = g.xeCount := rfl

-- Group.sset

@[simp] theorem Group.sset_core (g : Group) (r : Nat) (x : W64) : (g.sset r x).core = g.core := rfl
@[simp] theorem Group.sset_blk (g : Group) (r : Nat) (x : W64) : (g.sset r x).blk = g.blk := rfl
@[simp] theorem Group.sset_launch (g : Group) (r : Nat) (x : W64) : (g.sset r x).launch = g.launch := rfl
@[simp] theorem Group.sset_gix (g : Group) (r : Nat) (x : W64) : (g.sset r x).gix = g.gix := rfl
@[simp] theorem Group.sset_launched (g : Group) (r : Nat) (x : W64) : (g.sset r x).launched = g.launched := rfl
@[simp] theorem Group.sset_live (g : Group) (r : Nat) (x : W64) : (g.sset r x).live = g.live := rfl
@[simp] theorem Group.sset_nregs (g : Group) (r : Nat) (x : W64) : (g.sset r x).nregs = g.nregs := rfl
@[simp] theorem Group.sset_tag (g : Group) (r : Nat) (x : W64) : (g.sset r x).tag = g.tag := rfl
@[simp] theorem Group.sset_pcv (g : Group) (r : Nat) (x : W64) : (g.sset r x).pcv = g.pcv := rfl
@[simp] theorem Group.sset_v (g : Group) (r : Nat) (x : W64) : (g.sset r x).v = g.v := rfl
@[simp] theorem Group.sset_cm (g : Group) (r : Nat) (x : W64) : (g.sset r x).cm = g.cm := rfl
@[simp] theorem Group.sset_en (g : Group) (r : Nat) (x : W64) : (g.sset r x).en = g.en := rfl
@[simp] theorem Group.sset_lc (g : Group) (r : Nat) (x : W64) : (g.sset r x).lc = g.lc := rfl
@[simp] theorem Group.sset_w (g : Group) (r : Nat) (x : W64) : (g.sset r x).w = g.w := rfl
@[simp] theorem Group.sset_t (g : Group) (r : Nat) (x : W64) : (g.sset r x).t = g.t := rfl
@[simp] theorem Group.sset_ab (g : Group) (r : Nat) (x : W64) : (g.sset r x).ab = g.ab := rfl
@[simp] theorem Group.sset_al (g : Group) (r : Nat) (x : W64) : (g.sset r x).al = g.al := rfl
@[simp] theorem Group.sset_sb (g : Group) (r : Nat) (x : W64) : (g.sset r x).sb = g.sb := rfl
@[simp] theorem Group.sset_fps (g : Group) (r : Nat) (x : W64) : (g.sset r x).fps = g.fps := rfl
@[simp] theorem Group.sset_queue (g : Group) (r : Nat) (x : W64) : (g.sset r x).queue = g.queue := rfl
@[simp] theorem Group.sset_shadow (g : Group) (r : Nat) (x : W64) : (g.sset r x).shadow = g.shadow := rfl
@[simp] theorem Group.sset_epc (g : Group) (r : Nat) (x : W64) : (g.sset r x).epc = g.epc := rfl
@[simp] theorem Group.sset_ecause (g : Group) (r : Nat) (x : W64) : (g.sset r x).ecause = g.ecause := rfl
@[simp] theorem Group.sset_eaddr (g : Group) (r : Nat) (x : W64) : (g.sset r x).eaddr = g.eaddr := rfl
@[simp] theorem Group.sset_emask (g : Group) (r : Nat) (x : W64) : (g.sset r x).emask = g.emask := rfl
@[simp] theorem Group.sset_ehdr (g : Group) (r : Nat) (x : W64) : (g.sset r x).ehdr = g.ehdr := rfl
@[simp] theorem Group.sset_sen (g : Group) (r : Nat) (x : W64) : (g.sset r x).sen = g.sen := rfl
@[simp] theorem Group.sset_scm (g : Group) (r : Nat) (x : W64) : (g.sset r x).scm = g.scm := rfl
@[simp] theorem Group.sset_hkind (g : Group) (r : Nat) (x : W64) : (g.sset r x).hkind = g.hkind := rfl
@[simp] theorem Group.sset_escr (g : Group) (r : Nat) (x : W64) : (g.sset r x).escr = g.escr := rfl
@[simp] theorem Group.sset_dbgPend (g : Group) (r : Nat) (x : W64) : (g.sset r x).dbgPend = g.dbgPend := rfl
@[simp] theorem Group.sset_dwell (g : Group) (r : Nat) (x : W64) : (g.sset r x).dwell = g.dwell := rfl
@[simp] theorem Group.sset_last (g : Group) (r : Nat) (x : W64) : (g.sset r x).last = g.last := rfl
@[simp] theorem Group.sset_lprev (g : Group) (r : Nat) (x : W64) : (g.sset r x).lprev = g.lprev := rfl
@[simp] theorem Group.sset_pref (g : Group) (r : Nat) (x : W64) : (g.sset r x).pref = g.pref := rfl
@[simp] theorem Group.sset_age (g : Group) (r : Nat) (x : W64) : (g.sset r x).age = g.age := rfl
@[simp] theorem Group.sset_readySince (g : Group) (r : Nat) (x : W64) : (g.sset r x).readySince = g.readySince := rfl
@[simp] theorem Group.sset_yielded (g : Group) (r : Nat) (x : W64) : (g.sset r x).yielded = g.yielded := rfl
@[simp] theorem Group.sset_sleepUntil (g : Group) (r : Nat) (x : W64) : (g.sset r x).sleepUntil = g.sleepUntil := rfl
@[simp] theorem Group.sset_halted (g : Group) (r : Nat) (x : W64) : (g.sset r x).halted = g.halted := rfl
@[simp] theorem Group.sset_draining (g : Group) (r : Nat) (x : W64) : (g.sset r x).draining = g.draining := rfl
@[simp] theorem Group.sset_evicting (g : Group) (r : Nat) (x : W64) : (g.sset r x).evicting = g.evicting := rfl
@[simp] theorem Group.sset_timers (g : Group) (r : Nat) (x : W64) : (g.sset r x).timers = g.timers := rfl
@[simp] theorem Group.sset_mid (g : Group) (r : Nat) (x : W64) : (g.sset r x).mid = g.mid := rfl
@[simp] theorem Group.sset_midHdr (g : Group) (r : Nat) (x : W64) : (g.sset r x).midHdr = g.midHdr := rfl
@[simp] theorem Group.sset_midQueue (g : Group) (r : Nat) (x : W64) : (g.sset r x).midQueue = g.midQueue := rfl
@[simp] theorem Group.sset_shadowEnd (g : Group) (r : Nat) (x : W64) : (g.sset r x).shadowEnd = g.shadowEnd := rfl
@[simp] theorem Group.sset_midEnd (g : Group) (r : Nat) (x : W64) : (g.sset r x).midEnd = g.midEnd := rfl
@[simp] theorem Group.sset_hint (g : Group) (r : Nat) (x : W64) : (g.sset r x).hint = g.hint := rfl
@[simp] theorem Group.sset_bpExempt (g : Group) (r : Nat) (x : W64) : (g.sset r x).bpExempt = g.bpExempt := rfl
@[simp] theorem Group.sset_watchExempt (g : Group) (r : Nat) (x : W64) : (g.sset r x).watchExempt = g.watchExempt := rfl
@[simp] theorem Group.sset_watchHit (g : Group) (r : Nat) (x : W64) : (g.sset r x).watchHit = g.watchHit := rfl
@[simp] theorem Group.sset_watchSave (g : Group) (r : Nat) (x : W64) : (g.sset r x).watchSave = g.watchSave := rfl
@[simp] theorem Group.sset_lastPc (g : Group) (r : Nat) (x : W64) : (g.sset r x).lastPc = g.lastPc := rfl
@[simp] theorem Group.sset_lastSeq (g : Group) (r : Nat) (x : W64) : (g.sset r x).lastSeq = g.lastSeq := rfl
@[simp] theorem Group.sset_covCand (g : Group) (r : Nat) (x : W64) : (g.sset r x).covCand = g.covCand := rfl
@[simp] theorem Group.sset_covDone (g : Group) (r : Nat) (x : W64) : (g.sset r x).covDone = g.covDone := rfl
@[simp] theorem Group.sset_hash (g : Group) (r : Nat) (x : W64) : (g.sset r x).hash = g.hash := rfl
@[simp] theorem Group.sset_hashQ (g : Group) (r : Nat) (x : W64) : (g.sset r x).hashQ = g.hashQ := rfl
@[simp] theorem Group.sset_ordinal (g : Group) (r : Nat) (x : W64) : (g.sset r x).ordinal = g.ordinal := rfl
@[simp] theorem Group.sset_spawnHeld (g : Group) (r : Nat) (x : W64) : (g.sset r x).spawnHeld = g.spawnHeld := rfl
@[simp] theorem Group.sset_waitReqs (g : Group) (r : Nat) (x : W64) : (g.sset r x).waitReqs = g.waitReqs := rfl
@[simp] theorem Group.sset_checks (g : Group) (r : Nat) (x : W64) : (g.sset r x).checks = g.checks := rfl
@[simp] theorem Group.sset_xcCount (g : Group) (r : Nat) (x : W64) : (g.sset r x).xcCount = g.xcCount := rfl
@[simp] theorem Group.sset_xeCount (g : Group) (r : Nat) (x : W64) : (g.sset r x).xeCount = g.xeCount := rfl

-- Group.setPc

@[simp] theorem Group.setPc_core (g : Group) (l : Nat) (x : W64) : (g.setPc l x).core = g.core := rfl
@[simp] theorem Group.setPc_blk (g : Group) (l : Nat) (x : W64) : (g.setPc l x).blk = g.blk := rfl
@[simp] theorem Group.setPc_launch (g : Group) (l : Nat) (x : W64) : (g.setPc l x).launch = g.launch := rfl
@[simp] theorem Group.setPc_gix (g : Group) (l : Nat) (x : W64) : (g.setPc l x).gix = g.gix := rfl
@[simp] theorem Group.setPc_launched (g : Group) (l : Nat) (x : W64) : (g.setPc l x).launched = g.launched := rfl
@[simp] theorem Group.setPc_live (g : Group) (l : Nat) (x : W64) : (g.setPc l x).live = g.live := rfl
@[simp] theorem Group.setPc_nregs (g : Group) (l : Nat) (x : W64) : (g.setPc l x).nregs = g.nregs := rfl
@[simp] theorem Group.setPc_tag (g : Group) (l : Nat) (x : W64) : (g.setPc l x).tag = g.tag := rfl
@[simp] theorem Group.setPc_v (g : Group) (l : Nat) (x : W64) : (g.setPc l x).v = g.v := rfl
@[simp] theorem Group.setPc_s (g : Group) (l : Nat) (x : W64) : (g.setPc l x).s = g.s := rfl
@[simp] theorem Group.setPc_cm (g : Group) (l : Nat) (x : W64) : (g.setPc l x).cm = g.cm := rfl
@[simp] theorem Group.setPc_en (g : Group) (l : Nat) (x : W64) : (g.setPc l x).en = g.en := rfl
@[simp] theorem Group.setPc_lc (g : Group) (l : Nat) (x : W64) : (g.setPc l x).lc = g.lc := rfl
@[simp] theorem Group.setPc_w (g : Group) (l : Nat) (x : W64) : (g.setPc l x).w = g.w := rfl
@[simp] theorem Group.setPc_t (g : Group) (l : Nat) (x : W64) : (g.setPc l x).t = g.t := rfl
@[simp] theorem Group.setPc_ab (g : Group) (l : Nat) (x : W64) : (g.setPc l x).ab = g.ab := rfl
@[simp] theorem Group.setPc_al (g : Group) (l : Nat) (x : W64) : (g.setPc l x).al = g.al := rfl
@[simp] theorem Group.setPc_sb (g : Group) (l : Nat) (x : W64) : (g.setPc l x).sb = g.sb := rfl
@[simp] theorem Group.setPc_fps (g : Group) (l : Nat) (x : W64) : (g.setPc l x).fps = g.fps := rfl
@[simp] theorem Group.setPc_queue (g : Group) (l : Nat) (x : W64) : (g.setPc l x).queue = g.queue := rfl
@[simp] theorem Group.setPc_shadow (g : Group) (l : Nat) (x : W64) : (g.setPc l x).shadow = g.shadow := rfl
@[simp] theorem Group.setPc_epc (g : Group) (l : Nat) (x : W64) : (g.setPc l x).epc = g.epc := rfl
@[simp] theorem Group.setPc_ecause (g : Group) (l : Nat) (x : W64) : (g.setPc l x).ecause = g.ecause := rfl
@[simp] theorem Group.setPc_eaddr (g : Group) (l : Nat) (x : W64) : (g.setPc l x).eaddr = g.eaddr := rfl
@[simp] theorem Group.setPc_emask (g : Group) (l : Nat) (x : W64) : (g.setPc l x).emask = g.emask := rfl
@[simp] theorem Group.setPc_ehdr (g : Group) (l : Nat) (x : W64) : (g.setPc l x).ehdr = g.ehdr := rfl
@[simp] theorem Group.setPc_sen (g : Group) (l : Nat) (x : W64) : (g.setPc l x).sen = g.sen := rfl
@[simp] theorem Group.setPc_scm (g : Group) (l : Nat) (x : W64) : (g.setPc l x).scm = g.scm := rfl
@[simp] theorem Group.setPc_hkind (g : Group) (l : Nat) (x : W64) : (g.setPc l x).hkind = g.hkind := rfl
@[simp] theorem Group.setPc_escr (g : Group) (l : Nat) (x : W64) : (g.setPc l x).escr = g.escr := rfl
@[simp] theorem Group.setPc_dbgPend (g : Group) (l : Nat) (x : W64) : (g.setPc l x).dbgPend = g.dbgPend := rfl
@[simp] theorem Group.setPc_clause (g : Group) (l : Nat) (x : W64) : (g.setPc l x).clause = g.clause := rfl
@[simp] theorem Group.setPc_dwell (g : Group) (l : Nat) (x : W64) : (g.setPc l x).dwell = g.dwell := rfl
@[simp] theorem Group.setPc_last (g : Group) (l : Nat) (x : W64) : (g.setPc l x).last = g.last := rfl
@[simp] theorem Group.setPc_lprev (g : Group) (l : Nat) (x : W64) : (g.setPc l x).lprev = g.lprev := rfl
@[simp] theorem Group.setPc_pref (g : Group) (l : Nat) (x : W64) : (g.setPc l x).pref = g.pref := rfl
@[simp] theorem Group.setPc_age (g : Group) (l : Nat) (x : W64) : (g.setPc l x).age = g.age := rfl
@[simp] theorem Group.setPc_readySince (g : Group) (l : Nat) (x : W64) : (g.setPc l x).readySince = g.readySince := rfl
@[simp] theorem Group.setPc_yielded (g : Group) (l : Nat) (x : W64) : (g.setPc l x).yielded = g.yielded := rfl
@[simp] theorem Group.setPc_sleepUntil (g : Group) (l : Nat) (x : W64) : (g.setPc l x).sleepUntil = g.sleepUntil := rfl
@[simp] theorem Group.setPc_halted (g : Group) (l : Nat) (x : W64) : (g.setPc l x).halted = g.halted := rfl
@[simp] theorem Group.setPc_draining (g : Group) (l : Nat) (x : W64) : (g.setPc l x).draining = g.draining := rfl
@[simp] theorem Group.setPc_evicting (g : Group) (l : Nat) (x : W64) : (g.setPc l x).evicting = g.evicting := rfl
@[simp] theorem Group.setPc_timers (g : Group) (l : Nat) (x : W64) : (g.setPc l x).timers = g.timers := rfl
@[simp] theorem Group.setPc_mid (g : Group) (l : Nat) (x : W64) : (g.setPc l x).mid = g.mid := rfl
@[simp] theorem Group.setPc_midHdr (g : Group) (l : Nat) (x : W64) : (g.setPc l x).midHdr = g.midHdr := rfl
@[simp] theorem Group.setPc_midQueue (g : Group) (l : Nat) (x : W64) : (g.setPc l x).midQueue = g.midQueue := rfl
@[simp] theorem Group.setPc_shadowEnd (g : Group) (l : Nat) (x : W64) : (g.setPc l x).shadowEnd = g.shadowEnd := rfl
@[simp] theorem Group.setPc_midEnd (g : Group) (l : Nat) (x : W64) : (g.setPc l x).midEnd = g.midEnd := rfl
@[simp] theorem Group.setPc_hint (g : Group) (l : Nat) (x : W64) : (g.setPc l x).hint = g.hint := rfl
@[simp] theorem Group.setPc_bpExempt (g : Group) (l : Nat) (x : W64) : (g.setPc l x).bpExempt = g.bpExempt := rfl
@[simp] theorem Group.setPc_watchExempt (g : Group) (l : Nat) (x : W64) : (g.setPc l x).watchExempt = g.watchExempt := rfl
@[simp] theorem Group.setPc_watchHit (g : Group) (l : Nat) (x : W64) : (g.setPc l x).watchHit = g.watchHit := rfl
@[simp] theorem Group.setPc_watchSave (g : Group) (l : Nat) (x : W64) : (g.setPc l x).watchSave = g.watchSave := rfl
@[simp] theorem Group.setPc_lastPc (g : Group) (l : Nat) (x : W64) : (g.setPc l x).lastPc = g.lastPc := rfl
@[simp] theorem Group.setPc_lastSeq (g : Group) (l : Nat) (x : W64) : (g.setPc l x).lastSeq = g.lastSeq := rfl
@[simp] theorem Group.setPc_covCand (g : Group) (l : Nat) (x : W64) : (g.setPc l x).covCand = g.covCand := rfl
@[simp] theorem Group.setPc_covDone (g : Group) (l : Nat) (x : W64) : (g.setPc l x).covDone = g.covDone := rfl
@[simp] theorem Group.setPc_hash (g : Group) (l : Nat) (x : W64) : (g.setPc l x).hash = g.hash := rfl
@[simp] theorem Group.setPc_hashQ (g : Group) (l : Nat) (x : W64) : (g.setPc l x).hashQ = g.hashQ := rfl
@[simp] theorem Group.setPc_ordinal (g : Group) (l : Nat) (x : W64) : (g.setPc l x).ordinal = g.ordinal := rfl
@[simp] theorem Group.setPc_spawnHeld (g : Group) (l : Nat) (x : W64) : (g.setPc l x).spawnHeld = g.spawnHeld := rfl
@[simp] theorem Group.setPc_waitReqs (g : Group) (l : Nat) (x : W64) : (g.setPc l x).waitReqs = g.waitReqs := rfl
@[simp] theorem Group.setPc_checks (g : Group) (l : Nat) (x : W64) : (g.setPc l x).checks = g.checks := rfl
@[simp] theorem Group.setPc_xcCount (g : Group) (l : Nat) (x : W64) : (g.setPc l x).xcCount = g.xcCount := rfl
@[simp] theorem Group.setPc_xeCount (g : Group) (l : Nat) (x : W64) : (g.setPc l x).xeCount = g.xeCount := rfl

-- Group.lcSet

@[simp] theorem Group.lcSet_core (g : Group) (n : Nat) (x : W32) : (g.lcSet n x).core = g.core := rfl
@[simp] theorem Group.lcSet_blk (g : Group) (n : Nat) (x : W32) : (g.lcSet n x).blk = g.blk := rfl
@[simp] theorem Group.lcSet_launch (g : Group) (n : Nat) (x : W32) : (g.lcSet n x).launch = g.launch := rfl
@[simp] theorem Group.lcSet_gix (g : Group) (n : Nat) (x : W32) : (g.lcSet n x).gix = g.gix := rfl
@[simp] theorem Group.lcSet_launched (g : Group) (n : Nat) (x : W32) : (g.lcSet n x).launched = g.launched := rfl
@[simp] theorem Group.lcSet_live (g : Group) (n : Nat) (x : W32) : (g.lcSet n x).live = g.live := rfl
@[simp] theorem Group.lcSet_nregs (g : Group) (n : Nat) (x : W32) : (g.lcSet n x).nregs = g.nregs := rfl
@[simp] theorem Group.lcSet_tag (g : Group) (n : Nat) (x : W32) : (g.lcSet n x).tag = g.tag := rfl
@[simp] theorem Group.lcSet_pcv (g : Group) (n : Nat) (x : W32) : (g.lcSet n x).pcv = g.pcv := rfl
@[simp] theorem Group.lcSet_v (g : Group) (n : Nat) (x : W32) : (g.lcSet n x).v = g.v := rfl
@[simp] theorem Group.lcSet_s (g : Group) (n : Nat) (x : W32) : (g.lcSet n x).s = g.s := rfl
@[simp] theorem Group.lcSet_cm (g : Group) (n : Nat) (x : W32) : (g.lcSet n x).cm = g.cm := rfl
@[simp] theorem Group.lcSet_en (g : Group) (n : Nat) (x : W32) : (g.lcSet n x).en = g.en := rfl
@[simp] theorem Group.lcSet_w (g : Group) (n : Nat) (x : W32) : (g.lcSet n x).w = g.w := rfl
@[simp] theorem Group.lcSet_t (g : Group) (n : Nat) (x : W32) : (g.lcSet n x).t = g.t := rfl
@[simp] theorem Group.lcSet_ab (g : Group) (n : Nat) (x : W32) : (g.lcSet n x).ab = g.ab := rfl
@[simp] theorem Group.lcSet_al (g : Group) (n : Nat) (x : W32) : (g.lcSet n x).al = g.al := rfl
@[simp] theorem Group.lcSet_sb (g : Group) (n : Nat) (x : W32) : (g.lcSet n x).sb = g.sb := rfl
@[simp] theorem Group.lcSet_fps (g : Group) (n : Nat) (x : W32) : (g.lcSet n x).fps = g.fps := rfl
@[simp] theorem Group.lcSet_queue (g : Group) (n : Nat) (x : W32) : (g.lcSet n x).queue = g.queue := rfl
@[simp] theorem Group.lcSet_shadow (g : Group) (n : Nat) (x : W32) : (g.lcSet n x).shadow = g.shadow := rfl
@[simp] theorem Group.lcSet_epc (g : Group) (n : Nat) (x : W32) : (g.lcSet n x).epc = g.epc := rfl
@[simp] theorem Group.lcSet_ecause (g : Group) (n : Nat) (x : W32) : (g.lcSet n x).ecause = g.ecause := rfl
@[simp] theorem Group.lcSet_eaddr (g : Group) (n : Nat) (x : W32) : (g.lcSet n x).eaddr = g.eaddr := rfl
@[simp] theorem Group.lcSet_emask (g : Group) (n : Nat) (x : W32) : (g.lcSet n x).emask = g.emask := rfl
@[simp] theorem Group.lcSet_ehdr (g : Group) (n : Nat) (x : W32) : (g.lcSet n x).ehdr = g.ehdr := rfl
@[simp] theorem Group.lcSet_sen (g : Group) (n : Nat) (x : W32) : (g.lcSet n x).sen = g.sen := rfl
@[simp] theorem Group.lcSet_scm (g : Group) (n : Nat) (x : W32) : (g.lcSet n x).scm = g.scm := rfl
@[simp] theorem Group.lcSet_hkind (g : Group) (n : Nat) (x : W32) : (g.lcSet n x).hkind = g.hkind := rfl
@[simp] theorem Group.lcSet_escr (g : Group) (n : Nat) (x : W32) : (g.lcSet n x).escr = g.escr := rfl
@[simp] theorem Group.lcSet_dbgPend (g : Group) (n : Nat) (x : W32) : (g.lcSet n x).dbgPend = g.dbgPend := rfl
@[simp] theorem Group.lcSet_clause (g : Group) (n : Nat) (x : W32) : (g.lcSet n x).clause = g.clause := rfl
@[simp] theorem Group.lcSet_dwell (g : Group) (n : Nat) (x : W32) : (g.lcSet n x).dwell = g.dwell := rfl
@[simp] theorem Group.lcSet_last (g : Group) (n : Nat) (x : W32) : (g.lcSet n x).last = g.last := rfl
@[simp] theorem Group.lcSet_lprev (g : Group) (n : Nat) (x : W32) : (g.lcSet n x).lprev = g.lprev := rfl
@[simp] theorem Group.lcSet_pref (g : Group) (n : Nat) (x : W32) : (g.lcSet n x).pref = g.pref := rfl
@[simp] theorem Group.lcSet_age (g : Group) (n : Nat) (x : W32) : (g.lcSet n x).age = g.age := rfl
@[simp] theorem Group.lcSet_readySince (g : Group) (n : Nat) (x : W32) : (g.lcSet n x).readySince = g.readySince := rfl
@[simp] theorem Group.lcSet_yielded (g : Group) (n : Nat) (x : W32) : (g.lcSet n x).yielded = g.yielded := rfl
@[simp] theorem Group.lcSet_sleepUntil (g : Group) (n : Nat) (x : W32) : (g.lcSet n x).sleepUntil = g.sleepUntil := rfl
@[simp] theorem Group.lcSet_halted (g : Group) (n : Nat) (x : W32) : (g.lcSet n x).halted = g.halted := rfl
@[simp] theorem Group.lcSet_draining (g : Group) (n : Nat) (x : W32) : (g.lcSet n x).draining = g.draining := rfl
@[simp] theorem Group.lcSet_evicting (g : Group) (n : Nat) (x : W32) : (g.lcSet n x).evicting = g.evicting := rfl
@[simp] theorem Group.lcSet_timers (g : Group) (n : Nat) (x : W32) : (g.lcSet n x).timers = g.timers := rfl
@[simp] theorem Group.lcSet_mid (g : Group) (n : Nat) (x : W32) : (g.lcSet n x).mid = g.mid := rfl
@[simp] theorem Group.lcSet_midHdr (g : Group) (n : Nat) (x : W32) : (g.lcSet n x).midHdr = g.midHdr := rfl
@[simp] theorem Group.lcSet_midQueue (g : Group) (n : Nat) (x : W32) : (g.lcSet n x).midQueue = g.midQueue := rfl
@[simp] theorem Group.lcSet_shadowEnd (g : Group) (n : Nat) (x : W32) : (g.lcSet n x).shadowEnd = g.shadowEnd := rfl
@[simp] theorem Group.lcSet_midEnd (g : Group) (n : Nat) (x : W32) : (g.lcSet n x).midEnd = g.midEnd := rfl
@[simp] theorem Group.lcSet_hint (g : Group) (n : Nat) (x : W32) : (g.lcSet n x).hint = g.hint := rfl
@[simp] theorem Group.lcSet_bpExempt (g : Group) (n : Nat) (x : W32) : (g.lcSet n x).bpExempt = g.bpExempt := rfl
@[simp] theorem Group.lcSet_watchExempt (g : Group) (n : Nat) (x : W32) : (g.lcSet n x).watchExempt = g.watchExempt := rfl
@[simp] theorem Group.lcSet_watchHit (g : Group) (n : Nat) (x : W32) : (g.lcSet n x).watchHit = g.watchHit := rfl
@[simp] theorem Group.lcSet_watchSave (g : Group) (n : Nat) (x : W32) : (g.lcSet n x).watchSave = g.watchSave := rfl
@[simp] theorem Group.lcSet_lastPc (g : Group) (n : Nat) (x : W32) : (g.lcSet n x).lastPc = g.lastPc := rfl
@[simp] theorem Group.lcSet_lastSeq (g : Group) (n : Nat) (x : W32) : (g.lcSet n x).lastSeq = g.lastSeq := rfl
@[simp] theorem Group.lcSet_covCand (g : Group) (n : Nat) (x : W32) : (g.lcSet n x).covCand = g.covCand := rfl
@[simp] theorem Group.lcSet_covDone (g : Group) (n : Nat) (x : W32) : (g.lcSet n x).covDone = g.covDone := rfl
@[simp] theorem Group.lcSet_hash (g : Group) (n : Nat) (x : W32) : (g.lcSet n x).hash = g.hash := rfl
@[simp] theorem Group.lcSet_hashQ (g : Group) (n : Nat) (x : W32) : (g.lcSet n x).hashQ = g.hashQ := rfl
@[simp] theorem Group.lcSet_ordinal (g : Group) (n : Nat) (x : W32) : (g.lcSet n x).ordinal = g.ordinal := rfl
@[simp] theorem Group.lcSet_spawnHeld (g : Group) (n : Nat) (x : W32) : (g.lcSet n x).spawnHeld = g.spawnHeld := rfl
@[simp] theorem Group.lcSet_waitReqs (g : Group) (n : Nat) (x : W32) : (g.lcSet n x).waitReqs = g.waitReqs := rfl
@[simp] theorem Group.lcSet_checks (g : Group) (n : Nat) (x : W32) : (g.lcSet n x).checks = g.checks := rfl
@[simp] theorem Group.lcSet_xcCount (g : Group) (n : Nat) (x : W32) : (g.lcSet n x).xcCount = g.xcCount := rfl
@[simp] theorem Group.lcSet_xeCount (g : Group) (n : Nat) (x : W32) : (g.lcSet n x).xeCount = g.xeCount := rfl

-- Group.wsetHalf

@[simp] theorem Group.wsetHalf_core (g : Group) (n h : Nat) (x : BitVec 256) : (g.wsetHalf n h x).core = g.core := rfl
@[simp] theorem Group.wsetHalf_blk (g : Group) (n h : Nat) (x : BitVec 256) : (g.wsetHalf n h x).blk = g.blk := rfl
@[simp] theorem Group.wsetHalf_launch (g : Group) (n h : Nat) (x : BitVec 256) : (g.wsetHalf n h x).launch = g.launch := rfl
@[simp] theorem Group.wsetHalf_gix (g : Group) (n h : Nat) (x : BitVec 256) : (g.wsetHalf n h x).gix = g.gix := rfl
@[simp] theorem Group.wsetHalf_launched (g : Group) (n h : Nat) (x : BitVec 256) : (g.wsetHalf n h x).launched = g.launched := rfl
@[simp] theorem Group.wsetHalf_live (g : Group) (n h : Nat) (x : BitVec 256) : (g.wsetHalf n h x).live = g.live := rfl
@[simp] theorem Group.wsetHalf_nregs (g : Group) (n h : Nat) (x : BitVec 256) : (g.wsetHalf n h x).nregs = g.nregs := rfl
@[simp] theorem Group.wsetHalf_tag (g : Group) (n h : Nat) (x : BitVec 256) : (g.wsetHalf n h x).tag = g.tag := rfl
@[simp] theorem Group.wsetHalf_pcv (g : Group) (n h : Nat) (x : BitVec 256) : (g.wsetHalf n h x).pcv = g.pcv := rfl
@[simp] theorem Group.wsetHalf_v (g : Group) (n h : Nat) (x : BitVec 256) : (g.wsetHalf n h x).v = g.v := rfl
@[simp] theorem Group.wsetHalf_s (g : Group) (n h : Nat) (x : BitVec 256) : (g.wsetHalf n h x).s = g.s := rfl
@[simp] theorem Group.wsetHalf_cm (g : Group) (n h : Nat) (x : BitVec 256) : (g.wsetHalf n h x).cm = g.cm := rfl
@[simp] theorem Group.wsetHalf_en (g : Group) (n h : Nat) (x : BitVec 256) : (g.wsetHalf n h x).en = g.en := rfl
@[simp] theorem Group.wsetHalf_lc (g : Group) (n h : Nat) (x : BitVec 256) : (g.wsetHalf n h x).lc = g.lc := rfl
@[simp] theorem Group.wsetHalf_t (g : Group) (n h : Nat) (x : BitVec 256) : (g.wsetHalf n h x).t = g.t := rfl
@[simp] theorem Group.wsetHalf_ab (g : Group) (n h : Nat) (x : BitVec 256) : (g.wsetHalf n h x).ab = g.ab := rfl
@[simp] theorem Group.wsetHalf_al (g : Group) (n h : Nat) (x : BitVec 256) : (g.wsetHalf n h x).al = g.al := rfl
@[simp] theorem Group.wsetHalf_sb (g : Group) (n h : Nat) (x : BitVec 256) : (g.wsetHalf n h x).sb = g.sb := rfl
@[simp] theorem Group.wsetHalf_fps (g : Group) (n h : Nat) (x : BitVec 256) : (g.wsetHalf n h x).fps = g.fps := rfl
@[simp] theorem Group.wsetHalf_queue (g : Group) (n h : Nat) (x : BitVec 256) : (g.wsetHalf n h x).queue = g.queue := rfl
@[simp] theorem Group.wsetHalf_shadow (g : Group) (n h : Nat) (x : BitVec 256) : (g.wsetHalf n h x).shadow = g.shadow := rfl
@[simp] theorem Group.wsetHalf_epc (g : Group) (n h : Nat) (x : BitVec 256) : (g.wsetHalf n h x).epc = g.epc := rfl
@[simp] theorem Group.wsetHalf_ecause (g : Group) (n h : Nat) (x : BitVec 256) : (g.wsetHalf n h x).ecause = g.ecause := rfl
@[simp] theorem Group.wsetHalf_eaddr (g : Group) (n h : Nat) (x : BitVec 256) : (g.wsetHalf n h x).eaddr = g.eaddr := rfl
@[simp] theorem Group.wsetHalf_emask (g : Group) (n h : Nat) (x : BitVec 256) : (g.wsetHalf n h x).emask = g.emask := rfl
@[simp] theorem Group.wsetHalf_ehdr (g : Group) (n h : Nat) (x : BitVec 256) : (g.wsetHalf n h x).ehdr = g.ehdr := rfl
@[simp] theorem Group.wsetHalf_sen (g : Group) (n h : Nat) (x : BitVec 256) : (g.wsetHalf n h x).sen = g.sen := rfl
@[simp] theorem Group.wsetHalf_scm (g : Group) (n h : Nat) (x : BitVec 256) : (g.wsetHalf n h x).scm = g.scm := rfl
@[simp] theorem Group.wsetHalf_hkind (g : Group) (n h : Nat) (x : BitVec 256) : (g.wsetHalf n h x).hkind = g.hkind := rfl
@[simp] theorem Group.wsetHalf_escr (g : Group) (n h : Nat) (x : BitVec 256) : (g.wsetHalf n h x).escr = g.escr := rfl
@[simp] theorem Group.wsetHalf_dbgPend (g : Group) (n h : Nat) (x : BitVec 256) : (g.wsetHalf n h x).dbgPend = g.dbgPend := rfl
@[simp] theorem Group.wsetHalf_clause (g : Group) (n h : Nat) (x : BitVec 256) : (g.wsetHalf n h x).clause = g.clause := rfl
@[simp] theorem Group.wsetHalf_dwell (g : Group) (n h : Nat) (x : BitVec 256) : (g.wsetHalf n h x).dwell = g.dwell := rfl
@[simp] theorem Group.wsetHalf_last (g : Group) (n h : Nat) (x : BitVec 256) : (g.wsetHalf n h x).last = g.last := rfl
@[simp] theorem Group.wsetHalf_lprev (g : Group) (n h : Nat) (x : BitVec 256) : (g.wsetHalf n h x).lprev = g.lprev := rfl
@[simp] theorem Group.wsetHalf_pref (g : Group) (n h : Nat) (x : BitVec 256) : (g.wsetHalf n h x).pref = g.pref := rfl
@[simp] theorem Group.wsetHalf_age (g : Group) (n h : Nat) (x : BitVec 256) : (g.wsetHalf n h x).age = g.age := rfl
@[simp] theorem Group.wsetHalf_readySince (g : Group) (n h : Nat) (x : BitVec 256) : (g.wsetHalf n h x).readySince = g.readySince := rfl
@[simp] theorem Group.wsetHalf_yielded (g : Group) (n h : Nat) (x : BitVec 256) : (g.wsetHalf n h x).yielded = g.yielded := rfl
@[simp] theorem Group.wsetHalf_sleepUntil (g : Group) (n h : Nat) (x : BitVec 256) : (g.wsetHalf n h x).sleepUntil = g.sleepUntil := rfl
@[simp] theorem Group.wsetHalf_halted (g : Group) (n h : Nat) (x : BitVec 256) : (g.wsetHalf n h x).halted = g.halted := rfl
@[simp] theorem Group.wsetHalf_draining (g : Group) (n h : Nat) (x : BitVec 256) : (g.wsetHalf n h x).draining = g.draining := rfl
@[simp] theorem Group.wsetHalf_evicting (g : Group) (n h : Nat) (x : BitVec 256) : (g.wsetHalf n h x).evicting = g.evicting := rfl
@[simp] theorem Group.wsetHalf_timers (g : Group) (n h : Nat) (x : BitVec 256) : (g.wsetHalf n h x).timers = g.timers := rfl
@[simp] theorem Group.wsetHalf_mid (g : Group) (n h : Nat) (x : BitVec 256) : (g.wsetHalf n h x).mid = g.mid := rfl
@[simp] theorem Group.wsetHalf_midHdr (g : Group) (n h : Nat) (x : BitVec 256) : (g.wsetHalf n h x).midHdr = g.midHdr := rfl
@[simp] theorem Group.wsetHalf_midQueue (g : Group) (n h : Nat) (x : BitVec 256) : (g.wsetHalf n h x).midQueue = g.midQueue := rfl
@[simp] theorem Group.wsetHalf_shadowEnd (g : Group) (n h : Nat) (x : BitVec 256) : (g.wsetHalf n h x).shadowEnd = g.shadowEnd := rfl
@[simp] theorem Group.wsetHalf_midEnd (g : Group) (n h : Nat) (x : BitVec 256) : (g.wsetHalf n h x).midEnd = g.midEnd := rfl
@[simp] theorem Group.wsetHalf_hint (g : Group) (n h : Nat) (x : BitVec 256) : (g.wsetHalf n h x).hint = g.hint := rfl
@[simp] theorem Group.wsetHalf_bpExempt (g : Group) (n h : Nat) (x : BitVec 256) : (g.wsetHalf n h x).bpExempt = g.bpExempt := rfl
@[simp] theorem Group.wsetHalf_watchExempt (g : Group) (n h : Nat) (x : BitVec 256) : (g.wsetHalf n h x).watchExempt = g.watchExempt := rfl
@[simp] theorem Group.wsetHalf_watchHit (g : Group) (n h : Nat) (x : BitVec 256) : (g.wsetHalf n h x).watchHit = g.watchHit := rfl
@[simp] theorem Group.wsetHalf_watchSave (g : Group) (n h : Nat) (x : BitVec 256) : (g.wsetHalf n h x).watchSave = g.watchSave := rfl
@[simp] theorem Group.wsetHalf_lastPc (g : Group) (n h : Nat) (x : BitVec 256) : (g.wsetHalf n h x).lastPc = g.lastPc := rfl
@[simp] theorem Group.wsetHalf_lastSeq (g : Group) (n h : Nat) (x : BitVec 256) : (g.wsetHalf n h x).lastSeq = g.lastSeq := rfl
@[simp] theorem Group.wsetHalf_covCand (g : Group) (n h : Nat) (x : BitVec 256) : (g.wsetHalf n h x).covCand = g.covCand := rfl
@[simp] theorem Group.wsetHalf_covDone (g : Group) (n h : Nat) (x : BitVec 256) : (g.wsetHalf n h x).covDone = g.covDone := rfl
@[simp] theorem Group.wsetHalf_hash (g : Group) (n h : Nat) (x : BitVec 256) : (g.wsetHalf n h x).hash = g.hash := rfl
@[simp] theorem Group.wsetHalf_hashQ (g : Group) (n h : Nat) (x : BitVec 256) : (g.wsetHalf n h x).hashQ = g.hashQ := rfl
@[simp] theorem Group.wsetHalf_ordinal (g : Group) (n h : Nat) (x : BitVec 256) : (g.wsetHalf n h x).ordinal = g.ordinal := rfl
@[simp] theorem Group.wsetHalf_spawnHeld (g : Group) (n h : Nat) (x : BitVec 256) : (g.wsetHalf n h x).spawnHeld = g.spawnHeld := rfl
@[simp] theorem Group.wsetHalf_waitReqs (g : Group) (n h : Nat) (x : BitVec 256) : (g.wsetHalf n h x).waitReqs = g.waitReqs := rfl
@[simp] theorem Group.wsetHalf_checks (g : Group) (n h : Nat) (x : BitVec 256) : (g.wsetHalf n h x).checks = g.checks := rfl
@[simp] theorem Group.wsetHalf_xcCount (g : Group) (n h : Nat) (x : BitVec 256) : (g.wsetHalf n h x).xcCount = g.xcCount := rfl
@[simp] theorem Group.wsetHalf_xeCount (g : Group) (n h : Nat) (x : BitVec 256) : (g.wsetHalf n h x).xeCount = g.xeCount := rfl

-- Group.sbInc

@[simp] theorem Group.sbInc_core (g : Group) (n : Nat) : (g.sbInc n).core = g.core := rfl
@[simp] theorem Group.sbInc_blk (g : Group) (n : Nat) : (g.sbInc n).blk = g.blk := rfl
@[simp] theorem Group.sbInc_launch (g : Group) (n : Nat) : (g.sbInc n).launch = g.launch := rfl
@[simp] theorem Group.sbInc_gix (g : Group) (n : Nat) : (g.sbInc n).gix = g.gix := rfl
@[simp] theorem Group.sbInc_launched (g : Group) (n : Nat) : (g.sbInc n).launched = g.launched := rfl
@[simp] theorem Group.sbInc_live (g : Group) (n : Nat) : (g.sbInc n).live = g.live := rfl
@[simp] theorem Group.sbInc_nregs (g : Group) (n : Nat) : (g.sbInc n).nregs = g.nregs := rfl
@[simp] theorem Group.sbInc_tag (g : Group) (n : Nat) : (g.sbInc n).tag = g.tag := rfl
@[simp] theorem Group.sbInc_pcv (g : Group) (n : Nat) : (g.sbInc n).pcv = g.pcv := rfl
@[simp] theorem Group.sbInc_v (g : Group) (n : Nat) : (g.sbInc n).v = g.v := rfl
@[simp] theorem Group.sbInc_s (g : Group) (n : Nat) : (g.sbInc n).s = g.s := rfl
@[simp] theorem Group.sbInc_cm (g : Group) (n : Nat) : (g.sbInc n).cm = g.cm := rfl
@[simp] theorem Group.sbInc_en (g : Group) (n : Nat) : (g.sbInc n).en = g.en := rfl
@[simp] theorem Group.sbInc_lc (g : Group) (n : Nat) : (g.sbInc n).lc = g.lc := rfl
@[simp] theorem Group.sbInc_w (g : Group) (n : Nat) : (g.sbInc n).w = g.w := rfl
@[simp] theorem Group.sbInc_t (g : Group) (n : Nat) : (g.sbInc n).t = g.t := rfl
@[simp] theorem Group.sbInc_ab (g : Group) (n : Nat) : (g.sbInc n).ab = g.ab := rfl
@[simp] theorem Group.sbInc_al (g : Group) (n : Nat) : (g.sbInc n).al = g.al := rfl
@[simp] theorem Group.sbInc_fps (g : Group) (n : Nat) : (g.sbInc n).fps = g.fps := rfl
@[simp] theorem Group.sbInc_queue (g : Group) (n : Nat) : (g.sbInc n).queue = g.queue := rfl
@[simp] theorem Group.sbInc_shadow (g : Group) (n : Nat) : (g.sbInc n).shadow = g.shadow := rfl
@[simp] theorem Group.sbInc_epc (g : Group) (n : Nat) : (g.sbInc n).epc = g.epc := rfl
@[simp] theorem Group.sbInc_ecause (g : Group) (n : Nat) : (g.sbInc n).ecause = g.ecause := rfl
@[simp] theorem Group.sbInc_eaddr (g : Group) (n : Nat) : (g.sbInc n).eaddr = g.eaddr := rfl
@[simp] theorem Group.sbInc_emask (g : Group) (n : Nat) : (g.sbInc n).emask = g.emask := rfl
@[simp] theorem Group.sbInc_ehdr (g : Group) (n : Nat) : (g.sbInc n).ehdr = g.ehdr := rfl
@[simp] theorem Group.sbInc_sen (g : Group) (n : Nat) : (g.sbInc n).sen = g.sen := rfl
@[simp] theorem Group.sbInc_scm (g : Group) (n : Nat) : (g.sbInc n).scm = g.scm := rfl
@[simp] theorem Group.sbInc_hkind (g : Group) (n : Nat) : (g.sbInc n).hkind = g.hkind := rfl
@[simp] theorem Group.sbInc_escr (g : Group) (n : Nat) : (g.sbInc n).escr = g.escr := rfl
@[simp] theorem Group.sbInc_dbgPend (g : Group) (n : Nat) : (g.sbInc n).dbgPend = g.dbgPend := rfl
@[simp] theorem Group.sbInc_clause (g : Group) (n : Nat) : (g.sbInc n).clause = g.clause := rfl
@[simp] theorem Group.sbInc_dwell (g : Group) (n : Nat) : (g.sbInc n).dwell = g.dwell := rfl
@[simp] theorem Group.sbInc_last (g : Group) (n : Nat) : (g.sbInc n).last = g.last := rfl
@[simp] theorem Group.sbInc_lprev (g : Group) (n : Nat) : (g.sbInc n).lprev = g.lprev := rfl
@[simp] theorem Group.sbInc_pref (g : Group) (n : Nat) : (g.sbInc n).pref = g.pref := rfl
@[simp] theorem Group.sbInc_age (g : Group) (n : Nat) : (g.sbInc n).age = g.age := rfl
@[simp] theorem Group.sbInc_readySince (g : Group) (n : Nat) : (g.sbInc n).readySince = g.readySince := rfl
@[simp] theorem Group.sbInc_yielded (g : Group) (n : Nat) : (g.sbInc n).yielded = g.yielded := rfl
@[simp] theorem Group.sbInc_sleepUntil (g : Group) (n : Nat) : (g.sbInc n).sleepUntil = g.sleepUntil := rfl
@[simp] theorem Group.sbInc_halted (g : Group) (n : Nat) : (g.sbInc n).halted = g.halted := rfl
@[simp] theorem Group.sbInc_draining (g : Group) (n : Nat) : (g.sbInc n).draining = g.draining := rfl
@[simp] theorem Group.sbInc_evicting (g : Group) (n : Nat) : (g.sbInc n).evicting = g.evicting := rfl
@[simp] theorem Group.sbInc_timers (g : Group) (n : Nat) : (g.sbInc n).timers = g.timers := rfl
@[simp] theorem Group.sbInc_mid (g : Group) (n : Nat) : (g.sbInc n).mid = g.mid := rfl
@[simp] theorem Group.sbInc_midHdr (g : Group) (n : Nat) : (g.sbInc n).midHdr = g.midHdr := rfl
@[simp] theorem Group.sbInc_midQueue (g : Group) (n : Nat) : (g.sbInc n).midQueue = g.midQueue := rfl
@[simp] theorem Group.sbInc_shadowEnd (g : Group) (n : Nat) : (g.sbInc n).shadowEnd = g.shadowEnd := rfl
@[simp] theorem Group.sbInc_midEnd (g : Group) (n : Nat) : (g.sbInc n).midEnd = g.midEnd := rfl
@[simp] theorem Group.sbInc_hint (g : Group) (n : Nat) : (g.sbInc n).hint = g.hint := rfl
@[simp] theorem Group.sbInc_bpExempt (g : Group) (n : Nat) : (g.sbInc n).bpExempt = g.bpExempt := rfl
@[simp] theorem Group.sbInc_watchExempt (g : Group) (n : Nat) : (g.sbInc n).watchExempt = g.watchExempt := rfl
@[simp] theorem Group.sbInc_watchHit (g : Group) (n : Nat) : (g.sbInc n).watchHit = g.watchHit := rfl
@[simp] theorem Group.sbInc_watchSave (g : Group) (n : Nat) : (g.sbInc n).watchSave = g.watchSave := rfl
@[simp] theorem Group.sbInc_lastPc (g : Group) (n : Nat) : (g.sbInc n).lastPc = g.lastPc := rfl
@[simp] theorem Group.sbInc_lastSeq (g : Group) (n : Nat) : (g.sbInc n).lastSeq = g.lastSeq := rfl
@[simp] theorem Group.sbInc_covCand (g : Group) (n : Nat) : (g.sbInc n).covCand = g.covCand := rfl
@[simp] theorem Group.sbInc_covDone (g : Group) (n : Nat) : (g.sbInc n).covDone = g.covDone := rfl
@[simp] theorem Group.sbInc_hash (g : Group) (n : Nat) : (g.sbInc n).hash = g.hash := rfl
@[simp] theorem Group.sbInc_hashQ (g : Group) (n : Nat) : (g.sbInc n).hashQ = g.hashQ := rfl
@[simp] theorem Group.sbInc_ordinal (g : Group) (n : Nat) : (g.sbInc n).ordinal = g.ordinal := rfl
@[simp] theorem Group.sbInc_spawnHeld (g : Group) (n : Nat) : (g.sbInc n).spawnHeld = g.spawnHeld := rfl
@[simp] theorem Group.sbInc_waitReqs (g : Group) (n : Nat) : (g.sbInc n).waitReqs = g.waitReqs := rfl
@[simp] theorem Group.sbInc_checks (g : Group) (n : Nat) : (g.sbInc n).checks = g.checks := rfl
@[simp] theorem Group.sbInc_xcCount (g : Group) (n : Nat) : (g.sbInc n).xcCount = g.xcCount := rfl
@[simp] theorem Group.sbInc_xeCount (g : Group) (n : Nat) : (g.sbInc n).xeCount = g.xeCount := rfl

-- Group.sbDec

@[simp] theorem Group.sbDec_core (g : Group) (n : Nat) : (g.sbDec n).core = g.core := rfl
@[simp] theorem Group.sbDec_blk (g : Group) (n : Nat) : (g.sbDec n).blk = g.blk := rfl
@[simp] theorem Group.sbDec_launch (g : Group) (n : Nat) : (g.sbDec n).launch = g.launch := rfl
@[simp] theorem Group.sbDec_gix (g : Group) (n : Nat) : (g.sbDec n).gix = g.gix := rfl
@[simp] theorem Group.sbDec_launched (g : Group) (n : Nat) : (g.sbDec n).launched = g.launched := rfl
@[simp] theorem Group.sbDec_live (g : Group) (n : Nat) : (g.sbDec n).live = g.live := rfl
@[simp] theorem Group.sbDec_nregs (g : Group) (n : Nat) : (g.sbDec n).nregs = g.nregs := rfl
@[simp] theorem Group.sbDec_tag (g : Group) (n : Nat) : (g.sbDec n).tag = g.tag := rfl
@[simp] theorem Group.sbDec_pcv (g : Group) (n : Nat) : (g.sbDec n).pcv = g.pcv := rfl
@[simp] theorem Group.sbDec_v (g : Group) (n : Nat) : (g.sbDec n).v = g.v := rfl
@[simp] theorem Group.sbDec_s (g : Group) (n : Nat) : (g.sbDec n).s = g.s := rfl
@[simp] theorem Group.sbDec_cm (g : Group) (n : Nat) : (g.sbDec n).cm = g.cm := rfl
@[simp] theorem Group.sbDec_en (g : Group) (n : Nat) : (g.sbDec n).en = g.en := rfl
@[simp] theorem Group.sbDec_lc (g : Group) (n : Nat) : (g.sbDec n).lc = g.lc := rfl
@[simp] theorem Group.sbDec_w (g : Group) (n : Nat) : (g.sbDec n).w = g.w := rfl
@[simp] theorem Group.sbDec_t (g : Group) (n : Nat) : (g.sbDec n).t = g.t := rfl
@[simp] theorem Group.sbDec_ab (g : Group) (n : Nat) : (g.sbDec n).ab = g.ab := rfl
@[simp] theorem Group.sbDec_al (g : Group) (n : Nat) : (g.sbDec n).al = g.al := rfl
@[simp] theorem Group.sbDec_fps (g : Group) (n : Nat) : (g.sbDec n).fps = g.fps := rfl
@[simp] theorem Group.sbDec_queue (g : Group) (n : Nat) : (g.sbDec n).queue = g.queue := rfl
@[simp] theorem Group.sbDec_shadow (g : Group) (n : Nat) : (g.sbDec n).shadow = g.shadow := rfl
@[simp] theorem Group.sbDec_epc (g : Group) (n : Nat) : (g.sbDec n).epc = g.epc := rfl
@[simp] theorem Group.sbDec_ecause (g : Group) (n : Nat) : (g.sbDec n).ecause = g.ecause := rfl
@[simp] theorem Group.sbDec_eaddr (g : Group) (n : Nat) : (g.sbDec n).eaddr = g.eaddr := rfl
@[simp] theorem Group.sbDec_emask (g : Group) (n : Nat) : (g.sbDec n).emask = g.emask := rfl
@[simp] theorem Group.sbDec_ehdr (g : Group) (n : Nat) : (g.sbDec n).ehdr = g.ehdr := rfl
@[simp] theorem Group.sbDec_sen (g : Group) (n : Nat) : (g.sbDec n).sen = g.sen := rfl
@[simp] theorem Group.sbDec_scm (g : Group) (n : Nat) : (g.sbDec n).scm = g.scm := rfl
@[simp] theorem Group.sbDec_hkind (g : Group) (n : Nat) : (g.sbDec n).hkind = g.hkind := rfl
@[simp] theorem Group.sbDec_escr (g : Group) (n : Nat) : (g.sbDec n).escr = g.escr := rfl
@[simp] theorem Group.sbDec_dbgPend (g : Group) (n : Nat) : (g.sbDec n).dbgPend = g.dbgPend := rfl
@[simp] theorem Group.sbDec_clause (g : Group) (n : Nat) : (g.sbDec n).clause = g.clause := rfl
@[simp] theorem Group.sbDec_dwell (g : Group) (n : Nat) : (g.sbDec n).dwell = g.dwell := rfl
@[simp] theorem Group.sbDec_last (g : Group) (n : Nat) : (g.sbDec n).last = g.last := rfl
@[simp] theorem Group.sbDec_lprev (g : Group) (n : Nat) : (g.sbDec n).lprev = g.lprev := rfl
@[simp] theorem Group.sbDec_pref (g : Group) (n : Nat) : (g.sbDec n).pref = g.pref := rfl
@[simp] theorem Group.sbDec_age (g : Group) (n : Nat) : (g.sbDec n).age = g.age := rfl
@[simp] theorem Group.sbDec_readySince (g : Group) (n : Nat) : (g.sbDec n).readySince = g.readySince := rfl
@[simp] theorem Group.sbDec_yielded (g : Group) (n : Nat) : (g.sbDec n).yielded = g.yielded := rfl
@[simp] theorem Group.sbDec_sleepUntil (g : Group) (n : Nat) : (g.sbDec n).sleepUntil = g.sleepUntil := rfl
@[simp] theorem Group.sbDec_halted (g : Group) (n : Nat) : (g.sbDec n).halted = g.halted := rfl
@[simp] theorem Group.sbDec_draining (g : Group) (n : Nat) : (g.sbDec n).draining = g.draining := rfl
@[simp] theorem Group.sbDec_evicting (g : Group) (n : Nat) : (g.sbDec n).evicting = g.evicting := rfl
@[simp] theorem Group.sbDec_timers (g : Group) (n : Nat) : (g.sbDec n).timers = g.timers := rfl
@[simp] theorem Group.sbDec_mid (g : Group) (n : Nat) : (g.sbDec n).mid = g.mid := rfl
@[simp] theorem Group.sbDec_midHdr (g : Group) (n : Nat) : (g.sbDec n).midHdr = g.midHdr := rfl
@[simp] theorem Group.sbDec_midQueue (g : Group) (n : Nat) : (g.sbDec n).midQueue = g.midQueue := rfl
@[simp] theorem Group.sbDec_shadowEnd (g : Group) (n : Nat) : (g.sbDec n).shadowEnd = g.shadowEnd := rfl
@[simp] theorem Group.sbDec_midEnd (g : Group) (n : Nat) : (g.sbDec n).midEnd = g.midEnd := rfl
@[simp] theorem Group.sbDec_hint (g : Group) (n : Nat) : (g.sbDec n).hint = g.hint := rfl
@[simp] theorem Group.sbDec_bpExempt (g : Group) (n : Nat) : (g.sbDec n).bpExempt = g.bpExempt := rfl
@[simp] theorem Group.sbDec_watchExempt (g : Group) (n : Nat) : (g.sbDec n).watchExempt = g.watchExempt := rfl
@[simp] theorem Group.sbDec_watchHit (g : Group) (n : Nat) : (g.sbDec n).watchHit = g.watchHit := rfl
@[simp] theorem Group.sbDec_watchSave (g : Group) (n : Nat) : (g.sbDec n).watchSave = g.watchSave := rfl
@[simp] theorem Group.sbDec_lastPc (g : Group) (n : Nat) : (g.sbDec n).lastPc = g.lastPc := rfl
@[simp] theorem Group.sbDec_lastSeq (g : Group) (n : Nat) : (g.sbDec n).lastSeq = g.lastSeq := rfl
@[simp] theorem Group.sbDec_covCand (g : Group) (n : Nat) : (g.sbDec n).covCand = g.covCand := rfl
@[simp] theorem Group.sbDec_covDone (g : Group) (n : Nat) : (g.sbDec n).covDone = g.covDone := rfl
@[simp] theorem Group.sbDec_hash (g : Group) (n : Nat) : (g.sbDec n).hash = g.hash := rfl
@[simp] theorem Group.sbDec_hashQ (g : Group) (n : Nat) : (g.sbDec n).hashQ = g.hashQ := rfl
@[simp] theorem Group.sbDec_ordinal (g : Group) (n : Nat) : (g.sbDec n).ordinal = g.ordinal := rfl
@[simp] theorem Group.sbDec_spawnHeld (g : Group) (n : Nat) : (g.sbDec n).spawnHeld = g.spawnHeld := rfl
@[simp] theorem Group.sbDec_waitReqs (g : Group) (n : Nat) : (g.sbDec n).waitReqs = g.waitReqs := rfl
@[simp] theorem Group.sbDec_checks (g : Group) (n : Nat) : (g.sbDec n).checks = g.checks := rfl
@[simp] theorem Group.sbDec_xcCount (g : Group) (n : Nat) : (g.sbDec n).xcCount = g.xcCount := rfl
@[simp] theorem Group.sbDec_xeCount (g : Group) (n : Nat) : (g.sbDec n).xeCount = g.xeCount := rfl

-- Group.push

@[simp] theorem Group.push_core (g : Group) (em : LaneMask) (f : Nat → W32) : (g.push em f).core = g.core := rfl
@[simp] theorem Group.push_blk (g : Group) (em : LaneMask) (f : Nat → W32) : (g.push em f).blk = g.blk := rfl
@[simp] theorem Group.push_launch (g : Group) (em : LaneMask) (f : Nat → W32) : (g.push em f).launch = g.launch := rfl
@[simp] theorem Group.push_gix (g : Group) (em : LaneMask) (f : Nat → W32) : (g.push em f).gix = g.gix := rfl
@[simp] theorem Group.push_launched (g : Group) (em : LaneMask) (f : Nat → W32) : (g.push em f).launched = g.launched := rfl
@[simp] theorem Group.push_live (g : Group) (em : LaneMask) (f : Nat → W32) : (g.push em f).live = g.live := rfl
@[simp] theorem Group.push_nregs (g : Group) (em : LaneMask) (f : Nat → W32) : (g.push em f).nregs = g.nregs := rfl
@[simp] theorem Group.push_tag (g : Group) (em : LaneMask) (f : Nat → W32) : (g.push em f).tag = g.tag := rfl
@[simp] theorem Group.push_pcv (g : Group) (em : LaneMask) (f : Nat → W32) : (g.push em f).pcv = g.pcv := rfl
@[simp] theorem Group.push_v (g : Group) (em : LaneMask) (f : Nat → W32) : (g.push em f).v = g.v := rfl
@[simp] theorem Group.push_s (g : Group) (em : LaneMask) (f : Nat → W32) : (g.push em f).s = g.s := rfl
@[simp] theorem Group.push_cm (g : Group) (em : LaneMask) (f : Nat → W32) : (g.push em f).cm = g.cm := rfl
@[simp] theorem Group.push_en (g : Group) (em : LaneMask) (f : Nat → W32) : (g.push em f).en = g.en := rfl
@[simp] theorem Group.push_lc (g : Group) (em : LaneMask) (f : Nat → W32) : (g.push em f).lc = g.lc := rfl
@[simp] theorem Group.push_w (g : Group) (em : LaneMask) (f : Nat → W32) : (g.push em f).w = g.w := rfl
@[simp] theorem Group.push_t (g : Group) (em : LaneMask) (f : Nat → W32) : (g.push em f).t = g.t := rfl
@[simp] theorem Group.push_ab (g : Group) (em : LaneMask) (f : Nat → W32) : (g.push em f).ab = g.ab := rfl
@[simp] theorem Group.push_al (g : Group) (em : LaneMask) (f : Nat → W32) : (g.push em f).al = g.al := rfl
@[simp] theorem Group.push_sb (g : Group) (em : LaneMask) (f : Nat → W32) : (g.push em f).sb = g.sb := rfl
@[simp] theorem Group.push_fps (g : Group) (em : LaneMask) (f : Nat → W32) : (g.push em f).fps = g.fps := rfl
@[simp] theorem Group.push_shadow (g : Group) (em : LaneMask) (f : Nat → W32) : (g.push em f).shadow = g.shadow := rfl
@[simp] theorem Group.push_epc (g : Group) (em : LaneMask) (f : Nat → W32) : (g.push em f).epc = g.epc := rfl
@[simp] theorem Group.push_ecause (g : Group) (em : LaneMask) (f : Nat → W32) : (g.push em f).ecause = g.ecause := rfl
@[simp] theorem Group.push_eaddr (g : Group) (em : LaneMask) (f : Nat → W32) : (g.push em f).eaddr = g.eaddr := rfl
@[simp] theorem Group.push_emask (g : Group) (em : LaneMask) (f : Nat → W32) : (g.push em f).emask = g.emask := rfl
@[simp] theorem Group.push_ehdr (g : Group) (em : LaneMask) (f : Nat → W32) : (g.push em f).ehdr = g.ehdr := rfl
@[simp] theorem Group.push_sen (g : Group) (em : LaneMask) (f : Nat → W32) : (g.push em f).sen = g.sen := rfl
@[simp] theorem Group.push_scm (g : Group) (em : LaneMask) (f : Nat → W32) : (g.push em f).scm = g.scm := rfl
@[simp] theorem Group.push_hkind (g : Group) (em : LaneMask) (f : Nat → W32) : (g.push em f).hkind = g.hkind := rfl
@[simp] theorem Group.push_escr (g : Group) (em : LaneMask) (f : Nat → W32) : (g.push em f).escr = g.escr := rfl
@[simp] theorem Group.push_dbgPend (g : Group) (em : LaneMask) (f : Nat → W32) : (g.push em f).dbgPend = g.dbgPend := rfl
@[simp] theorem Group.push_clause (g : Group) (em : LaneMask) (f : Nat → W32) : (g.push em f).clause = g.clause := rfl
@[simp] theorem Group.push_dwell (g : Group) (em : LaneMask) (f : Nat → W32) : (g.push em f).dwell = g.dwell := rfl
@[simp] theorem Group.push_last (g : Group) (em : LaneMask) (f : Nat → W32) : (g.push em f).last = g.last := rfl
@[simp] theorem Group.push_lprev (g : Group) (em : LaneMask) (f : Nat → W32) : (g.push em f).lprev = g.lprev := rfl
@[simp] theorem Group.push_pref (g : Group) (em : LaneMask) (f : Nat → W32) : (g.push em f).pref = g.pref := rfl
@[simp] theorem Group.push_age (g : Group) (em : LaneMask) (f : Nat → W32) : (g.push em f).age = g.age := rfl
@[simp] theorem Group.push_readySince (g : Group) (em : LaneMask) (f : Nat → W32) : (g.push em f).readySince = g.readySince := rfl
@[simp] theorem Group.push_yielded (g : Group) (em : LaneMask) (f : Nat → W32) : (g.push em f).yielded = g.yielded := rfl
@[simp] theorem Group.push_sleepUntil (g : Group) (em : LaneMask) (f : Nat → W32) : (g.push em f).sleepUntil = g.sleepUntil := rfl
@[simp] theorem Group.push_halted (g : Group) (em : LaneMask) (f : Nat → W32) : (g.push em f).halted = g.halted := rfl
@[simp] theorem Group.push_draining (g : Group) (em : LaneMask) (f : Nat → W32) : (g.push em f).draining = g.draining := rfl
@[simp] theorem Group.push_evicting (g : Group) (em : LaneMask) (f : Nat → W32) : (g.push em f).evicting = g.evicting := rfl
@[simp] theorem Group.push_timers (g : Group) (em : LaneMask) (f : Nat → W32) : (g.push em f).timers = g.timers := rfl
@[simp] theorem Group.push_mid (g : Group) (em : LaneMask) (f : Nat → W32) : (g.push em f).mid = g.mid := rfl
@[simp] theorem Group.push_midHdr (g : Group) (em : LaneMask) (f : Nat → W32) : (g.push em f).midHdr = g.midHdr := rfl
@[simp] theorem Group.push_midQueue (g : Group) (em : LaneMask) (f : Nat → W32) : (g.push em f).midQueue = g.midQueue := rfl
@[simp] theorem Group.push_shadowEnd (g : Group) (em : LaneMask) (f : Nat → W32) : (g.push em f).shadowEnd = g.shadowEnd := rfl
@[simp] theorem Group.push_midEnd (g : Group) (em : LaneMask) (f : Nat → W32) : (g.push em f).midEnd = g.midEnd := rfl
@[simp] theorem Group.push_hint (g : Group) (em : LaneMask) (f : Nat → W32) : (g.push em f).hint = g.hint := rfl
@[simp] theorem Group.push_bpExempt (g : Group) (em : LaneMask) (f : Nat → W32) : (g.push em f).bpExempt = g.bpExempt := rfl
@[simp] theorem Group.push_watchExempt (g : Group) (em : LaneMask) (f : Nat → W32) : (g.push em f).watchExempt = g.watchExempt := rfl
@[simp] theorem Group.push_watchHit (g : Group) (em : LaneMask) (f : Nat → W32) : (g.push em f).watchHit = g.watchHit := rfl
@[simp] theorem Group.push_watchSave (g : Group) (em : LaneMask) (f : Nat → W32) : (g.push em f).watchSave = g.watchSave := rfl
@[simp] theorem Group.push_lastPc (g : Group) (em : LaneMask) (f : Nat → W32) : (g.push em f).lastPc = g.lastPc := rfl
@[simp] theorem Group.push_lastSeq (g : Group) (em : LaneMask) (f : Nat → W32) : (g.push em f).lastSeq = g.lastSeq := rfl
@[simp] theorem Group.push_covCand (g : Group) (em : LaneMask) (f : Nat → W32) : (g.push em f).covCand = g.covCand := rfl
@[simp] theorem Group.push_covDone (g : Group) (em : LaneMask) (f : Nat → W32) : (g.push em f).covDone = g.covDone := rfl
@[simp] theorem Group.push_hash (g : Group) (em : LaneMask) (f : Nat → W32) : (g.push em f).hash = g.hash := rfl
@[simp] theorem Group.push_hashQ (g : Group) (em : LaneMask) (f : Nat → W32) : (g.push em f).hashQ = g.hashQ := rfl
@[simp] theorem Group.push_ordinal (g : Group) (em : LaneMask) (f : Nat → W32) : (g.push em f).ordinal = g.ordinal := rfl
@[simp] theorem Group.push_spawnHeld (g : Group) (em : LaneMask) (f : Nat → W32) : (g.push em f).spawnHeld = g.spawnHeld := rfl
@[simp] theorem Group.push_waitReqs (g : Group) (em : LaneMask) (f : Nat → W32) : (g.push em f).waitReqs = g.waitReqs := rfl
@[simp] theorem Group.push_checks (g : Group) (em : LaneMask) (f : Nat → W32) : (g.push em f).checks = g.checks := rfl
@[simp] theorem Group.push_xcCount (g : Group) (em : LaneMask) (f : Nat → W32) : (g.push em f).xcCount = g.xcCount := rfl
@[simp] theorem Group.push_xeCount (g : Group) (em : LaneMask) (f : Nat → W32) : (g.push em f).xeCount = g.xeCount := rfl

-- Group.settleFps

@[simp] theorem Group.settleFps_core (g : Group) (b : Bool) (x : FpFlags) : (g.settleFps b x).core = g.core := rfl
@[simp] theorem Group.settleFps_blk (g : Group) (b : Bool) (x : FpFlags) : (g.settleFps b x).blk = g.blk := rfl
@[simp] theorem Group.settleFps_launch (g : Group) (b : Bool) (x : FpFlags) : (g.settleFps b x).launch = g.launch := rfl
@[simp] theorem Group.settleFps_gix (g : Group) (b : Bool) (x : FpFlags) : (g.settleFps b x).gix = g.gix := rfl
@[simp] theorem Group.settleFps_launched (g : Group) (b : Bool) (x : FpFlags) : (g.settleFps b x).launched = g.launched := rfl
@[simp] theorem Group.settleFps_live (g : Group) (b : Bool) (x : FpFlags) : (g.settleFps b x).live = g.live := rfl
@[simp] theorem Group.settleFps_nregs (g : Group) (b : Bool) (x : FpFlags) : (g.settleFps b x).nregs = g.nregs := rfl
@[simp] theorem Group.settleFps_tag (g : Group) (b : Bool) (x : FpFlags) : (g.settleFps b x).tag = g.tag := rfl
@[simp] theorem Group.settleFps_pcv (g : Group) (b : Bool) (x : FpFlags) : (g.settleFps b x).pcv = g.pcv := rfl
@[simp] theorem Group.settleFps_v (g : Group) (b : Bool) (x : FpFlags) : (g.settleFps b x).v = g.v := rfl
@[simp] theorem Group.settleFps_s (g : Group) (b : Bool) (x : FpFlags) : (g.settleFps b x).s = g.s := rfl
@[simp] theorem Group.settleFps_cm (g : Group) (b : Bool) (x : FpFlags) : (g.settleFps b x).cm = g.cm := rfl
@[simp] theorem Group.settleFps_en (g : Group) (b : Bool) (x : FpFlags) : (g.settleFps b x).en = g.en := rfl
@[simp] theorem Group.settleFps_lc (g : Group) (b : Bool) (x : FpFlags) : (g.settleFps b x).lc = g.lc := rfl
@[simp] theorem Group.settleFps_w (g : Group) (b : Bool) (x : FpFlags) : (g.settleFps b x).w = g.w := rfl
@[simp] theorem Group.settleFps_t (g : Group) (b : Bool) (x : FpFlags) : (g.settleFps b x).t = g.t := rfl
@[simp] theorem Group.settleFps_ab (g : Group) (b : Bool) (x : FpFlags) : (g.settleFps b x).ab = g.ab := rfl
@[simp] theorem Group.settleFps_al (g : Group) (b : Bool) (x : FpFlags) : (g.settleFps b x).al = g.al := rfl
@[simp] theorem Group.settleFps_sb (g : Group) (b : Bool) (x : FpFlags) : (g.settleFps b x).sb = g.sb := rfl
@[simp] theorem Group.settleFps_queue (g : Group) (b : Bool) (x : FpFlags) : (g.settleFps b x).queue = g.queue := rfl
@[simp] theorem Group.settleFps_shadow (g : Group) (b : Bool) (x : FpFlags) : (g.settleFps b x).shadow = g.shadow := rfl
@[simp] theorem Group.settleFps_epc (g : Group) (b : Bool) (x : FpFlags) : (g.settleFps b x).epc = g.epc := rfl
@[simp] theorem Group.settleFps_ecause (g : Group) (b : Bool) (x : FpFlags) : (g.settleFps b x).ecause = g.ecause := rfl
@[simp] theorem Group.settleFps_eaddr (g : Group) (b : Bool) (x : FpFlags) : (g.settleFps b x).eaddr = g.eaddr := rfl
@[simp] theorem Group.settleFps_emask (g : Group) (b : Bool) (x : FpFlags) : (g.settleFps b x).emask = g.emask := rfl
@[simp] theorem Group.settleFps_ehdr (g : Group) (b : Bool) (x : FpFlags) : (g.settleFps b x).ehdr = g.ehdr := rfl
@[simp] theorem Group.settleFps_sen (g : Group) (b : Bool) (x : FpFlags) : (g.settleFps b x).sen = g.sen := rfl
@[simp] theorem Group.settleFps_scm (g : Group) (b : Bool) (x : FpFlags) : (g.settleFps b x).scm = g.scm := rfl
@[simp] theorem Group.settleFps_hkind (g : Group) (b : Bool) (x : FpFlags) : (g.settleFps b x).hkind = g.hkind := rfl
@[simp] theorem Group.settleFps_escr (g : Group) (b : Bool) (x : FpFlags) : (g.settleFps b x).escr = g.escr := rfl
@[simp] theorem Group.settleFps_dbgPend (g : Group) (b : Bool) (x : FpFlags) : (g.settleFps b x).dbgPend = g.dbgPend := rfl
@[simp] theorem Group.settleFps_clause (g : Group) (b : Bool) (x : FpFlags) : (g.settleFps b x).clause = g.clause := rfl
@[simp] theorem Group.settleFps_dwell (g : Group) (b : Bool) (x : FpFlags) : (g.settleFps b x).dwell = g.dwell := rfl
@[simp] theorem Group.settleFps_last (g : Group) (b : Bool) (x : FpFlags) : (g.settleFps b x).last = g.last := rfl
@[simp] theorem Group.settleFps_lprev (g : Group) (b : Bool) (x : FpFlags) : (g.settleFps b x).lprev = g.lprev := rfl
@[simp] theorem Group.settleFps_pref (g : Group) (b : Bool) (x : FpFlags) : (g.settleFps b x).pref = g.pref := rfl
@[simp] theorem Group.settleFps_age (g : Group) (b : Bool) (x : FpFlags) : (g.settleFps b x).age = g.age := rfl
@[simp] theorem Group.settleFps_readySince (g : Group) (b : Bool) (x : FpFlags) : (g.settleFps b x).readySince = g.readySince := rfl
@[simp] theorem Group.settleFps_yielded (g : Group) (b : Bool) (x : FpFlags) : (g.settleFps b x).yielded = g.yielded := rfl
@[simp] theorem Group.settleFps_sleepUntil (g : Group) (b : Bool) (x : FpFlags) : (g.settleFps b x).sleepUntil = g.sleepUntil := rfl
@[simp] theorem Group.settleFps_halted (g : Group) (b : Bool) (x : FpFlags) : (g.settleFps b x).halted = g.halted := rfl
@[simp] theorem Group.settleFps_draining (g : Group) (b : Bool) (x : FpFlags) : (g.settleFps b x).draining = g.draining := rfl
@[simp] theorem Group.settleFps_evicting (g : Group) (b : Bool) (x : FpFlags) : (g.settleFps b x).evicting = g.evicting := rfl
@[simp] theorem Group.settleFps_timers (g : Group) (b : Bool) (x : FpFlags) : (g.settleFps b x).timers = g.timers := rfl
@[simp] theorem Group.settleFps_mid (g : Group) (b : Bool) (x : FpFlags) : (g.settleFps b x).mid = g.mid := rfl
@[simp] theorem Group.settleFps_midHdr (g : Group) (b : Bool) (x : FpFlags) : (g.settleFps b x).midHdr = g.midHdr := rfl
@[simp] theorem Group.settleFps_midQueue (g : Group) (b : Bool) (x : FpFlags) : (g.settleFps b x).midQueue = g.midQueue := rfl
@[simp] theorem Group.settleFps_shadowEnd (g : Group) (b : Bool) (x : FpFlags) : (g.settleFps b x).shadowEnd = g.shadowEnd := rfl
@[simp] theorem Group.settleFps_midEnd (g : Group) (b : Bool) (x : FpFlags) : (g.settleFps b x).midEnd = g.midEnd := rfl
@[simp] theorem Group.settleFps_hint (g : Group) (b : Bool) (x : FpFlags) : (g.settleFps b x).hint = g.hint := rfl
@[simp] theorem Group.settleFps_bpExempt (g : Group) (b : Bool) (x : FpFlags) : (g.settleFps b x).bpExempt = g.bpExempt := rfl
@[simp] theorem Group.settleFps_watchExempt (g : Group) (b : Bool) (x : FpFlags) : (g.settleFps b x).watchExempt = g.watchExempt := rfl
@[simp] theorem Group.settleFps_watchHit (g : Group) (b : Bool) (x : FpFlags) : (g.settleFps b x).watchHit = g.watchHit := rfl
@[simp] theorem Group.settleFps_watchSave (g : Group) (b : Bool) (x : FpFlags) : (g.settleFps b x).watchSave = g.watchSave := rfl
@[simp] theorem Group.settleFps_lastPc (g : Group) (b : Bool) (x : FpFlags) : (g.settleFps b x).lastPc = g.lastPc := rfl
@[simp] theorem Group.settleFps_lastSeq (g : Group) (b : Bool) (x : FpFlags) : (g.settleFps b x).lastSeq = g.lastSeq := rfl
@[simp] theorem Group.settleFps_covCand (g : Group) (b : Bool) (x : FpFlags) : (g.settleFps b x).covCand = g.covCand := rfl
@[simp] theorem Group.settleFps_covDone (g : Group) (b : Bool) (x : FpFlags) : (g.settleFps b x).covDone = g.covDone := rfl
@[simp] theorem Group.settleFps_hash (g : Group) (b : Bool) (x : FpFlags) : (g.settleFps b x).hash = g.hash := rfl
@[simp] theorem Group.settleFps_hashQ (g : Group) (b : Bool) (x : FpFlags) : (g.settleFps b x).hashQ = g.hashQ := rfl
@[simp] theorem Group.settleFps_ordinal (g : Group) (b : Bool) (x : FpFlags) : (g.settleFps b x).ordinal = g.ordinal := rfl
@[simp] theorem Group.settleFps_spawnHeld (g : Group) (b : Bool) (x : FpFlags) : (g.settleFps b x).spawnHeld = g.spawnHeld := rfl
@[simp] theorem Group.settleFps_waitReqs (g : Group) (b : Bool) (x : FpFlags) : (g.settleFps b x).waitReqs = g.waitReqs := rfl
@[simp] theorem Group.settleFps_checks (g : Group) (b : Bool) (x : FpFlags) : (g.settleFps b x).checks = g.checks := rfl
@[simp] theorem Group.settleFps_xcCount (g : Group) (b : Bool) (x : FpFlags) : (g.settleFps b x).xcCount = g.xcCount := rfl
@[simp] theorem Group.settleFps_xeCount (g : Group) (b : Bool) (x : FpFlags) : (g.settleFps b x).xeCount = g.xeCount := rfl

-- Group.setCm

@[simp] theorem Group.setCm_core (g : Group) (em : LaneMask) (f : Nat → Bool) : (g.setCm em f).core = g.core := rfl
@[simp] theorem Group.setCm_blk (g : Group) (em : LaneMask) (f : Nat → Bool) : (g.setCm em f).blk = g.blk := rfl
@[simp] theorem Group.setCm_launch (g : Group) (em : LaneMask) (f : Nat → Bool) : (g.setCm em f).launch = g.launch := rfl
@[simp] theorem Group.setCm_gix (g : Group) (em : LaneMask) (f : Nat → Bool) : (g.setCm em f).gix = g.gix := rfl
@[simp] theorem Group.setCm_launched (g : Group) (em : LaneMask) (f : Nat → Bool) : (g.setCm em f).launched = g.launched := rfl
@[simp] theorem Group.setCm_live (g : Group) (em : LaneMask) (f : Nat → Bool) : (g.setCm em f).live = g.live := rfl
@[simp] theorem Group.setCm_nregs (g : Group) (em : LaneMask) (f : Nat → Bool) : (g.setCm em f).nregs = g.nregs := rfl
@[simp] theorem Group.setCm_tag (g : Group) (em : LaneMask) (f : Nat → Bool) : (g.setCm em f).tag = g.tag := rfl
@[simp] theorem Group.setCm_pcv (g : Group) (em : LaneMask) (f : Nat → Bool) : (g.setCm em f).pcv = g.pcv := rfl
@[simp] theorem Group.setCm_v (g : Group) (em : LaneMask) (f : Nat → Bool) : (g.setCm em f).v = g.v := rfl
@[simp] theorem Group.setCm_s (g : Group) (em : LaneMask) (f : Nat → Bool) : (g.setCm em f).s = g.s := rfl
@[simp] theorem Group.setCm_en (g : Group) (em : LaneMask) (f : Nat → Bool) : (g.setCm em f).en = g.en := rfl
@[simp] theorem Group.setCm_lc (g : Group) (em : LaneMask) (f : Nat → Bool) : (g.setCm em f).lc = g.lc := rfl
@[simp] theorem Group.setCm_w (g : Group) (em : LaneMask) (f : Nat → Bool) : (g.setCm em f).w = g.w := rfl
@[simp] theorem Group.setCm_t (g : Group) (em : LaneMask) (f : Nat → Bool) : (g.setCm em f).t = g.t := rfl
@[simp] theorem Group.setCm_ab (g : Group) (em : LaneMask) (f : Nat → Bool) : (g.setCm em f).ab = g.ab := rfl
@[simp] theorem Group.setCm_al (g : Group) (em : LaneMask) (f : Nat → Bool) : (g.setCm em f).al = g.al := rfl
@[simp] theorem Group.setCm_sb (g : Group) (em : LaneMask) (f : Nat → Bool) : (g.setCm em f).sb = g.sb := rfl
@[simp] theorem Group.setCm_fps (g : Group) (em : LaneMask) (f : Nat → Bool) : (g.setCm em f).fps = g.fps := rfl
@[simp] theorem Group.setCm_queue (g : Group) (em : LaneMask) (f : Nat → Bool) : (g.setCm em f).queue = g.queue := rfl
@[simp] theorem Group.setCm_shadow (g : Group) (em : LaneMask) (f : Nat → Bool) : (g.setCm em f).shadow = g.shadow := rfl
@[simp] theorem Group.setCm_epc (g : Group) (em : LaneMask) (f : Nat → Bool) : (g.setCm em f).epc = g.epc := rfl
@[simp] theorem Group.setCm_ecause (g : Group) (em : LaneMask) (f : Nat → Bool) : (g.setCm em f).ecause = g.ecause := rfl
@[simp] theorem Group.setCm_eaddr (g : Group) (em : LaneMask) (f : Nat → Bool) : (g.setCm em f).eaddr = g.eaddr := rfl
@[simp] theorem Group.setCm_emask (g : Group) (em : LaneMask) (f : Nat → Bool) : (g.setCm em f).emask = g.emask := rfl
@[simp] theorem Group.setCm_ehdr (g : Group) (em : LaneMask) (f : Nat → Bool) : (g.setCm em f).ehdr = g.ehdr := rfl
@[simp] theorem Group.setCm_sen (g : Group) (em : LaneMask) (f : Nat → Bool) : (g.setCm em f).sen = g.sen := rfl
@[simp] theorem Group.setCm_scm (g : Group) (em : LaneMask) (f : Nat → Bool) : (g.setCm em f).scm = g.scm := rfl
@[simp] theorem Group.setCm_hkind (g : Group) (em : LaneMask) (f : Nat → Bool) : (g.setCm em f).hkind = g.hkind := rfl
@[simp] theorem Group.setCm_escr (g : Group) (em : LaneMask) (f : Nat → Bool) : (g.setCm em f).escr = g.escr := rfl
@[simp] theorem Group.setCm_dbgPend (g : Group) (em : LaneMask) (f : Nat → Bool) : (g.setCm em f).dbgPend = g.dbgPend := rfl
@[simp] theorem Group.setCm_clause (g : Group) (em : LaneMask) (f : Nat → Bool) : (g.setCm em f).clause = g.clause := rfl
@[simp] theorem Group.setCm_dwell (g : Group) (em : LaneMask) (f : Nat → Bool) : (g.setCm em f).dwell = g.dwell := rfl
@[simp] theorem Group.setCm_last (g : Group) (em : LaneMask) (f : Nat → Bool) : (g.setCm em f).last = g.last := rfl
@[simp] theorem Group.setCm_lprev (g : Group) (em : LaneMask) (f : Nat → Bool) : (g.setCm em f).lprev = g.lprev := rfl
@[simp] theorem Group.setCm_pref (g : Group) (em : LaneMask) (f : Nat → Bool) : (g.setCm em f).pref = g.pref := rfl
@[simp] theorem Group.setCm_age (g : Group) (em : LaneMask) (f : Nat → Bool) : (g.setCm em f).age = g.age := rfl
@[simp] theorem Group.setCm_readySince (g : Group) (em : LaneMask) (f : Nat → Bool) : (g.setCm em f).readySince = g.readySince := rfl
@[simp] theorem Group.setCm_yielded (g : Group) (em : LaneMask) (f : Nat → Bool) : (g.setCm em f).yielded = g.yielded := rfl
@[simp] theorem Group.setCm_sleepUntil (g : Group) (em : LaneMask) (f : Nat → Bool) : (g.setCm em f).sleepUntil = g.sleepUntil := rfl
@[simp] theorem Group.setCm_halted (g : Group) (em : LaneMask) (f : Nat → Bool) : (g.setCm em f).halted = g.halted := rfl
@[simp] theorem Group.setCm_draining (g : Group) (em : LaneMask) (f : Nat → Bool) : (g.setCm em f).draining = g.draining := rfl
@[simp] theorem Group.setCm_evicting (g : Group) (em : LaneMask) (f : Nat → Bool) : (g.setCm em f).evicting = g.evicting := rfl
@[simp] theorem Group.setCm_timers (g : Group) (em : LaneMask) (f : Nat → Bool) : (g.setCm em f).timers = g.timers := rfl
@[simp] theorem Group.setCm_mid (g : Group) (em : LaneMask) (f : Nat → Bool) : (g.setCm em f).mid = g.mid := rfl
@[simp] theorem Group.setCm_midHdr (g : Group) (em : LaneMask) (f : Nat → Bool) : (g.setCm em f).midHdr = g.midHdr := rfl
@[simp] theorem Group.setCm_midQueue (g : Group) (em : LaneMask) (f : Nat → Bool) : (g.setCm em f).midQueue = g.midQueue := rfl
@[simp] theorem Group.setCm_shadowEnd (g : Group) (em : LaneMask) (f : Nat → Bool) : (g.setCm em f).shadowEnd = g.shadowEnd := rfl
@[simp] theorem Group.setCm_midEnd (g : Group) (em : LaneMask) (f : Nat → Bool) : (g.setCm em f).midEnd = g.midEnd := rfl
@[simp] theorem Group.setCm_hint (g : Group) (em : LaneMask) (f : Nat → Bool) : (g.setCm em f).hint = g.hint := rfl
@[simp] theorem Group.setCm_bpExempt (g : Group) (em : LaneMask) (f : Nat → Bool) : (g.setCm em f).bpExempt = g.bpExempt := rfl
@[simp] theorem Group.setCm_watchExempt (g : Group) (em : LaneMask) (f : Nat → Bool) : (g.setCm em f).watchExempt = g.watchExempt := rfl
@[simp] theorem Group.setCm_watchHit (g : Group) (em : LaneMask) (f : Nat → Bool) : (g.setCm em f).watchHit = g.watchHit := rfl
@[simp] theorem Group.setCm_watchSave (g : Group) (em : LaneMask) (f : Nat → Bool) : (g.setCm em f).watchSave = g.watchSave := rfl
@[simp] theorem Group.setCm_lastPc (g : Group) (em : LaneMask) (f : Nat → Bool) : (g.setCm em f).lastPc = g.lastPc := rfl
@[simp] theorem Group.setCm_lastSeq (g : Group) (em : LaneMask) (f : Nat → Bool) : (g.setCm em f).lastSeq = g.lastSeq := rfl
@[simp] theorem Group.setCm_covCand (g : Group) (em : LaneMask) (f : Nat → Bool) : (g.setCm em f).covCand = g.covCand := rfl
@[simp] theorem Group.setCm_covDone (g : Group) (em : LaneMask) (f : Nat → Bool) : (g.setCm em f).covDone = g.covDone := rfl
@[simp] theorem Group.setCm_hash (g : Group) (em : LaneMask) (f : Nat → Bool) : (g.setCm em f).hash = g.hash := rfl
@[simp] theorem Group.setCm_hashQ (g : Group) (em : LaneMask) (f : Nat → Bool) : (g.setCm em f).hashQ = g.hashQ := rfl
@[simp] theorem Group.setCm_ordinal (g : Group) (em : LaneMask) (f : Nat → Bool) : (g.setCm em f).ordinal = g.ordinal := rfl
@[simp] theorem Group.setCm_spawnHeld (g : Group) (em : LaneMask) (f : Nat → Bool) : (g.setCm em f).spawnHeld = g.spawnHeld := rfl
@[simp] theorem Group.setCm_waitReqs (g : Group) (em : LaneMask) (f : Nat → Bool) : (g.setCm em f).waitReqs = g.waitReqs := rfl
@[simp] theorem Group.setCm_checks (g : Group) (em : LaneMask) (f : Nat → Bool) : (g.setCm em f).checks = g.checks := rfl
@[simp] theorem Group.setCm_xcCount (g : Group) (em : LaneMask) (f : Nat → Bool) : (g.setCm em f).xcCount = g.xcCount := rfl
@[simp] theorem Group.setCm_xeCount (g : Group) (em : LaneMask) (f : Nat → Bool) : (g.setCm em f).xeCount = g.xeCount := rfl

-- Group.vsetLanes

@[simp] theorem Group.vsetLanes_core (g : Group) (r : Nat) (f : Nat → W32) (ls : List Nat) : (g.vsetLanes r f ls).core = g.core := by
  induction ls generalizing g with
  | nil => rfl
  | cons l ls ih => exact ih _
@[simp] theorem Group.vsetLanes_blk (g : Group) (r : Nat) (f : Nat → W32) (ls : List Nat) : (g.vsetLanes r f ls).blk = g.blk := by
  induction ls generalizing g with
  | nil => rfl
  | cons l ls ih => exact ih _
@[simp] theorem Group.vsetLanes_launch (g : Group) (r : Nat) (f : Nat → W32) (ls : List Nat) : (g.vsetLanes r f ls).launch = g.launch := by
  induction ls generalizing g with
  | nil => rfl
  | cons l ls ih => exact ih _
@[simp] theorem Group.vsetLanes_gix (g : Group) (r : Nat) (f : Nat → W32) (ls : List Nat) : (g.vsetLanes r f ls).gix = g.gix := by
  induction ls generalizing g with
  | nil => rfl
  | cons l ls ih => exact ih _
@[simp] theorem Group.vsetLanes_launched (g : Group) (r : Nat) (f : Nat → W32) (ls : List Nat) : (g.vsetLanes r f ls).launched = g.launched := by
  induction ls generalizing g with
  | nil => rfl
  | cons l ls ih => exact ih _
@[simp] theorem Group.vsetLanes_live (g : Group) (r : Nat) (f : Nat → W32) (ls : List Nat) : (g.vsetLanes r f ls).live = g.live := by
  induction ls generalizing g with
  | nil => rfl
  | cons l ls ih => exact ih _
@[simp] theorem Group.vsetLanes_nregs (g : Group) (r : Nat) (f : Nat → W32) (ls : List Nat) : (g.vsetLanes r f ls).nregs = g.nregs := by
  induction ls generalizing g with
  | nil => rfl
  | cons l ls ih => exact ih _
@[simp] theorem Group.vsetLanes_tag (g : Group) (r : Nat) (f : Nat → W32) (ls : List Nat) : (g.vsetLanes r f ls).tag = g.tag := by
  induction ls generalizing g with
  | nil => rfl
  | cons l ls ih => exact ih _
@[simp] theorem Group.vsetLanes_pcv (g : Group) (r : Nat) (f : Nat → W32) (ls : List Nat) : (g.vsetLanes r f ls).pcv = g.pcv := by
  induction ls generalizing g with
  | nil => rfl
  | cons l ls ih => exact ih _
@[simp] theorem Group.vsetLanes_s (g : Group) (r : Nat) (f : Nat → W32) (ls : List Nat) : (g.vsetLanes r f ls).s = g.s := by
  induction ls generalizing g with
  | nil => rfl
  | cons l ls ih => exact ih _
@[simp] theorem Group.vsetLanes_cm (g : Group) (r : Nat) (f : Nat → W32) (ls : List Nat) : (g.vsetLanes r f ls).cm = g.cm := by
  induction ls generalizing g with
  | nil => rfl
  | cons l ls ih => exact ih _
@[simp] theorem Group.vsetLanes_en (g : Group) (r : Nat) (f : Nat → W32) (ls : List Nat) : (g.vsetLanes r f ls).en = g.en := by
  induction ls generalizing g with
  | nil => rfl
  | cons l ls ih => exact ih _
@[simp] theorem Group.vsetLanes_lc (g : Group) (r : Nat) (f : Nat → W32) (ls : List Nat) : (g.vsetLanes r f ls).lc = g.lc := by
  induction ls generalizing g with
  | nil => rfl
  | cons l ls ih => exact ih _
@[simp] theorem Group.vsetLanes_w (g : Group) (r : Nat) (f : Nat → W32) (ls : List Nat) : (g.vsetLanes r f ls).w = g.w := by
  induction ls generalizing g with
  | nil => rfl
  | cons l ls ih => exact ih _
@[simp] theorem Group.vsetLanes_t (g : Group) (r : Nat) (f : Nat → W32) (ls : List Nat) : (g.vsetLanes r f ls).t = g.t := by
  induction ls generalizing g with
  | nil => rfl
  | cons l ls ih => exact ih _
@[simp] theorem Group.vsetLanes_ab (g : Group) (r : Nat) (f : Nat → W32) (ls : List Nat) : (g.vsetLanes r f ls).ab = g.ab := by
  induction ls generalizing g with
  | nil => rfl
  | cons l ls ih => exact ih _
@[simp] theorem Group.vsetLanes_al (g : Group) (r : Nat) (f : Nat → W32) (ls : List Nat) : (g.vsetLanes r f ls).al = g.al := by
  induction ls generalizing g with
  | nil => rfl
  | cons l ls ih => exact ih _
@[simp] theorem Group.vsetLanes_sb (g : Group) (r : Nat) (f : Nat → W32) (ls : List Nat) : (g.vsetLanes r f ls).sb = g.sb := by
  induction ls generalizing g with
  | nil => rfl
  | cons l ls ih => exact ih _
@[simp] theorem Group.vsetLanes_fps (g : Group) (r : Nat) (f : Nat → W32) (ls : List Nat) : (g.vsetLanes r f ls).fps = g.fps := by
  induction ls generalizing g with
  | nil => rfl
  | cons l ls ih => exact ih _
@[simp] theorem Group.vsetLanes_queue (g : Group) (r : Nat) (f : Nat → W32) (ls : List Nat) : (g.vsetLanes r f ls).queue = g.queue := by
  induction ls generalizing g with
  | nil => rfl
  | cons l ls ih => exact ih _
@[simp] theorem Group.vsetLanes_shadow (g : Group) (r : Nat) (f : Nat → W32) (ls : List Nat) : (g.vsetLanes r f ls).shadow = g.shadow := by
  induction ls generalizing g with
  | nil => rfl
  | cons l ls ih => exact ih _
@[simp] theorem Group.vsetLanes_epc (g : Group) (r : Nat) (f : Nat → W32) (ls : List Nat) : (g.vsetLanes r f ls).epc = g.epc := by
  induction ls generalizing g with
  | nil => rfl
  | cons l ls ih => exact ih _
@[simp] theorem Group.vsetLanes_ecause (g : Group) (r : Nat) (f : Nat → W32) (ls : List Nat) : (g.vsetLanes r f ls).ecause = g.ecause := by
  induction ls generalizing g with
  | nil => rfl
  | cons l ls ih => exact ih _
@[simp] theorem Group.vsetLanes_eaddr (g : Group) (r : Nat) (f : Nat → W32) (ls : List Nat) : (g.vsetLanes r f ls).eaddr = g.eaddr := by
  induction ls generalizing g with
  | nil => rfl
  | cons l ls ih => exact ih _
@[simp] theorem Group.vsetLanes_emask (g : Group) (r : Nat) (f : Nat → W32) (ls : List Nat) : (g.vsetLanes r f ls).emask = g.emask := by
  induction ls generalizing g with
  | nil => rfl
  | cons l ls ih => exact ih _
@[simp] theorem Group.vsetLanes_ehdr (g : Group) (r : Nat) (f : Nat → W32) (ls : List Nat) : (g.vsetLanes r f ls).ehdr = g.ehdr := by
  induction ls generalizing g with
  | nil => rfl
  | cons l ls ih => exact ih _
@[simp] theorem Group.vsetLanes_sen (g : Group) (r : Nat) (f : Nat → W32) (ls : List Nat) : (g.vsetLanes r f ls).sen = g.sen := by
  induction ls generalizing g with
  | nil => rfl
  | cons l ls ih => exact ih _
@[simp] theorem Group.vsetLanes_scm (g : Group) (r : Nat) (f : Nat → W32) (ls : List Nat) : (g.vsetLanes r f ls).scm = g.scm := by
  induction ls generalizing g with
  | nil => rfl
  | cons l ls ih => exact ih _
@[simp] theorem Group.vsetLanes_hkind (g : Group) (r : Nat) (f : Nat → W32) (ls : List Nat) : (g.vsetLanes r f ls).hkind = g.hkind := by
  induction ls generalizing g with
  | nil => rfl
  | cons l ls ih => exact ih _
@[simp] theorem Group.vsetLanes_escr (g : Group) (r : Nat) (f : Nat → W32) (ls : List Nat) : (g.vsetLanes r f ls).escr = g.escr := by
  induction ls generalizing g with
  | nil => rfl
  | cons l ls ih => exact ih _
@[simp] theorem Group.vsetLanes_dbgPend (g : Group) (r : Nat) (f : Nat → W32) (ls : List Nat) : (g.vsetLanes r f ls).dbgPend = g.dbgPend := by
  induction ls generalizing g with
  | nil => rfl
  | cons l ls ih => exact ih _
@[simp] theorem Group.vsetLanes_clause (g : Group) (r : Nat) (f : Nat → W32) (ls : List Nat) : (g.vsetLanes r f ls).clause = g.clause := by
  induction ls generalizing g with
  | nil => rfl
  | cons l ls ih => exact ih _
@[simp] theorem Group.vsetLanes_dwell (g : Group) (r : Nat) (f : Nat → W32) (ls : List Nat) : (g.vsetLanes r f ls).dwell = g.dwell := by
  induction ls generalizing g with
  | nil => rfl
  | cons l ls ih => exact ih _
@[simp] theorem Group.vsetLanes_last (g : Group) (r : Nat) (f : Nat → W32) (ls : List Nat) : (g.vsetLanes r f ls).last = g.last := by
  induction ls generalizing g with
  | nil => rfl
  | cons l ls ih => exact ih _
@[simp] theorem Group.vsetLanes_lprev (g : Group) (r : Nat) (f : Nat → W32) (ls : List Nat) : (g.vsetLanes r f ls).lprev = g.lprev := by
  induction ls generalizing g with
  | nil => rfl
  | cons l ls ih => exact ih _
@[simp] theorem Group.vsetLanes_pref (g : Group) (r : Nat) (f : Nat → W32) (ls : List Nat) : (g.vsetLanes r f ls).pref = g.pref := by
  induction ls generalizing g with
  | nil => rfl
  | cons l ls ih => exact ih _
@[simp] theorem Group.vsetLanes_age (g : Group) (r : Nat) (f : Nat → W32) (ls : List Nat) : (g.vsetLanes r f ls).age = g.age := by
  induction ls generalizing g with
  | nil => rfl
  | cons l ls ih => exact ih _
@[simp] theorem Group.vsetLanes_readySince (g : Group) (r : Nat) (f : Nat → W32) (ls : List Nat) : (g.vsetLanes r f ls).readySince = g.readySince := by
  induction ls generalizing g with
  | nil => rfl
  | cons l ls ih => exact ih _
@[simp] theorem Group.vsetLanes_yielded (g : Group) (r : Nat) (f : Nat → W32) (ls : List Nat) : (g.vsetLanes r f ls).yielded = g.yielded := by
  induction ls generalizing g with
  | nil => rfl
  | cons l ls ih => exact ih _
@[simp] theorem Group.vsetLanes_sleepUntil (g : Group) (r : Nat) (f : Nat → W32) (ls : List Nat) : (g.vsetLanes r f ls).sleepUntil = g.sleepUntil := by
  induction ls generalizing g with
  | nil => rfl
  | cons l ls ih => exact ih _
@[simp] theorem Group.vsetLanes_halted (g : Group) (r : Nat) (f : Nat → W32) (ls : List Nat) : (g.vsetLanes r f ls).halted = g.halted := by
  induction ls generalizing g with
  | nil => rfl
  | cons l ls ih => exact ih _
@[simp] theorem Group.vsetLanes_draining (g : Group) (r : Nat) (f : Nat → W32) (ls : List Nat) : (g.vsetLanes r f ls).draining = g.draining := by
  induction ls generalizing g with
  | nil => rfl
  | cons l ls ih => exact ih _
@[simp] theorem Group.vsetLanes_evicting (g : Group) (r : Nat) (f : Nat → W32) (ls : List Nat) : (g.vsetLanes r f ls).evicting = g.evicting := by
  induction ls generalizing g with
  | nil => rfl
  | cons l ls ih => exact ih _
@[simp] theorem Group.vsetLanes_timers (g : Group) (r : Nat) (f : Nat → W32) (ls : List Nat) : (g.vsetLanes r f ls).timers = g.timers := by
  induction ls generalizing g with
  | nil => rfl
  | cons l ls ih => exact ih _
@[simp] theorem Group.vsetLanes_mid (g : Group) (r : Nat) (f : Nat → W32) (ls : List Nat) : (g.vsetLanes r f ls).mid = g.mid := by
  induction ls generalizing g with
  | nil => rfl
  | cons l ls ih => exact ih _
@[simp] theorem Group.vsetLanes_midHdr (g : Group) (r : Nat) (f : Nat → W32) (ls : List Nat) : (g.vsetLanes r f ls).midHdr = g.midHdr := by
  induction ls generalizing g with
  | nil => rfl
  | cons l ls ih => exact ih _
@[simp] theorem Group.vsetLanes_midQueue (g : Group) (r : Nat) (f : Nat → W32) (ls : List Nat) : (g.vsetLanes r f ls).midQueue = g.midQueue := by
  induction ls generalizing g with
  | nil => rfl
  | cons l ls ih => exact ih _
@[simp] theorem Group.vsetLanes_shadowEnd (g : Group) (r : Nat) (f : Nat → W32) (ls : List Nat) : (g.vsetLanes r f ls).shadowEnd = g.shadowEnd := by
  induction ls generalizing g with
  | nil => rfl
  | cons l ls ih => exact ih _
@[simp] theorem Group.vsetLanes_midEnd (g : Group) (r : Nat) (f : Nat → W32) (ls : List Nat) : (g.vsetLanes r f ls).midEnd = g.midEnd := by
  induction ls generalizing g with
  | nil => rfl
  | cons l ls ih => exact ih _
@[simp] theorem Group.vsetLanes_hint (g : Group) (r : Nat) (f : Nat → W32) (ls : List Nat) : (g.vsetLanes r f ls).hint = g.hint := by
  induction ls generalizing g with
  | nil => rfl
  | cons l ls ih => exact ih _
@[simp] theorem Group.vsetLanes_bpExempt (g : Group) (r : Nat) (f : Nat → W32) (ls : List Nat) : (g.vsetLanes r f ls).bpExempt = g.bpExempt := by
  induction ls generalizing g with
  | nil => rfl
  | cons l ls ih => exact ih _
@[simp] theorem Group.vsetLanes_watchExempt (g : Group) (r : Nat) (f : Nat → W32) (ls : List Nat) : (g.vsetLanes r f ls).watchExempt = g.watchExempt := by
  induction ls generalizing g with
  | nil => rfl
  | cons l ls ih => exact ih _
@[simp] theorem Group.vsetLanes_watchHit (g : Group) (r : Nat) (f : Nat → W32) (ls : List Nat) : (g.vsetLanes r f ls).watchHit = g.watchHit := by
  induction ls generalizing g with
  | nil => rfl
  | cons l ls ih => exact ih _
@[simp] theorem Group.vsetLanes_watchSave (g : Group) (r : Nat) (f : Nat → W32) (ls : List Nat) : (g.vsetLanes r f ls).watchSave = g.watchSave := by
  induction ls generalizing g with
  | nil => rfl
  | cons l ls ih => exact ih _
@[simp] theorem Group.vsetLanes_lastPc (g : Group) (r : Nat) (f : Nat → W32) (ls : List Nat) : (g.vsetLanes r f ls).lastPc = g.lastPc := by
  induction ls generalizing g with
  | nil => rfl
  | cons l ls ih => exact ih _
@[simp] theorem Group.vsetLanes_lastSeq (g : Group) (r : Nat) (f : Nat → W32) (ls : List Nat) : (g.vsetLanes r f ls).lastSeq = g.lastSeq := by
  induction ls generalizing g with
  | nil => rfl
  | cons l ls ih => exact ih _
@[simp] theorem Group.vsetLanes_covCand (g : Group) (r : Nat) (f : Nat → W32) (ls : List Nat) : (g.vsetLanes r f ls).covCand = g.covCand := by
  induction ls generalizing g with
  | nil => rfl
  | cons l ls ih => exact ih _
@[simp] theorem Group.vsetLanes_covDone (g : Group) (r : Nat) (f : Nat → W32) (ls : List Nat) : (g.vsetLanes r f ls).covDone = g.covDone := by
  induction ls generalizing g with
  | nil => rfl
  | cons l ls ih => exact ih _
@[simp] theorem Group.vsetLanes_hash (g : Group) (r : Nat) (f : Nat → W32) (ls : List Nat) : (g.vsetLanes r f ls).hash = g.hash := by
  induction ls generalizing g with
  | nil => rfl
  | cons l ls ih => exact ih _
@[simp] theorem Group.vsetLanes_hashQ (g : Group) (r : Nat) (f : Nat → W32) (ls : List Nat) : (g.vsetLanes r f ls).hashQ = g.hashQ := by
  induction ls generalizing g with
  | nil => rfl
  | cons l ls ih => exact ih _
@[simp] theorem Group.vsetLanes_ordinal (g : Group) (r : Nat) (f : Nat → W32) (ls : List Nat) : (g.vsetLanes r f ls).ordinal = g.ordinal := by
  induction ls generalizing g with
  | nil => rfl
  | cons l ls ih => exact ih _
@[simp] theorem Group.vsetLanes_spawnHeld (g : Group) (r : Nat) (f : Nat → W32) (ls : List Nat) : (g.vsetLanes r f ls).spawnHeld = g.spawnHeld := by
  induction ls generalizing g with
  | nil => rfl
  | cons l ls ih => exact ih _
@[simp] theorem Group.vsetLanes_waitReqs (g : Group) (r : Nat) (f : Nat → W32) (ls : List Nat) : (g.vsetLanes r f ls).waitReqs = g.waitReqs := by
  induction ls generalizing g with
  | nil => rfl
  | cons l ls ih => exact ih _
@[simp] theorem Group.vsetLanes_checks (g : Group) (r : Nat) (f : Nat → W32) (ls : List Nat) : (g.vsetLanes r f ls).checks = g.checks := by
  induction ls generalizing g with
  | nil => rfl
  | cons l ls ih => exact ih _
@[simp] theorem Group.vsetLanes_xcCount (g : Group) (r : Nat) (f : Nat → W32) (ls : List Nat) : (g.vsetLanes r f ls).xcCount = g.xcCount := by
  induction ls generalizing g with
  | nil => rfl
  | cons l ls ih => exact ih _
@[simp] theorem Group.vsetLanes_xeCount (g : Group) (r : Nat) (f : Nat → W32) (ls : List Nat) : (g.vsetLanes r f ls).xeCount = g.xeCount := by
  induction ls generalizing g with
  | nil => rfl
  | cons l ls ih => exact ih _

-- Group.setPcs

@[simp] theorem Group.setPcs_core (g : Group) (f : Nat → W64) (ls : List Nat) : (g.setPcs f ls).core = g.core := by
  induction ls generalizing g with
  | nil => rfl
  | cons l ls ih => exact ih _
@[simp] theorem Group.setPcs_blk (g : Group) (f : Nat → W64) (ls : List Nat) : (g.setPcs f ls).blk = g.blk := by
  induction ls generalizing g with
  | nil => rfl
  | cons l ls ih => exact ih _
@[simp] theorem Group.setPcs_launch (g : Group) (f : Nat → W64) (ls : List Nat) : (g.setPcs f ls).launch = g.launch := by
  induction ls generalizing g with
  | nil => rfl
  | cons l ls ih => exact ih _
@[simp] theorem Group.setPcs_gix (g : Group) (f : Nat → W64) (ls : List Nat) : (g.setPcs f ls).gix = g.gix := by
  induction ls generalizing g with
  | nil => rfl
  | cons l ls ih => exact ih _
@[simp] theorem Group.setPcs_launched (g : Group) (f : Nat → W64) (ls : List Nat) : (g.setPcs f ls).launched = g.launched := by
  induction ls generalizing g with
  | nil => rfl
  | cons l ls ih => exact ih _
@[simp] theorem Group.setPcs_live (g : Group) (f : Nat → W64) (ls : List Nat) : (g.setPcs f ls).live = g.live := by
  induction ls generalizing g with
  | nil => rfl
  | cons l ls ih => exact ih _
@[simp] theorem Group.setPcs_nregs (g : Group) (f : Nat → W64) (ls : List Nat) : (g.setPcs f ls).nregs = g.nregs := by
  induction ls generalizing g with
  | nil => rfl
  | cons l ls ih => exact ih _
@[simp] theorem Group.setPcs_tag (g : Group) (f : Nat → W64) (ls : List Nat) : (g.setPcs f ls).tag = g.tag := by
  induction ls generalizing g with
  | nil => rfl
  | cons l ls ih => exact ih _
@[simp] theorem Group.setPcs_v (g : Group) (f : Nat → W64) (ls : List Nat) : (g.setPcs f ls).v = g.v := by
  induction ls generalizing g with
  | nil => rfl
  | cons l ls ih => exact ih _
@[simp] theorem Group.setPcs_s (g : Group) (f : Nat → W64) (ls : List Nat) : (g.setPcs f ls).s = g.s := by
  induction ls generalizing g with
  | nil => rfl
  | cons l ls ih => exact ih _
@[simp] theorem Group.setPcs_cm (g : Group) (f : Nat → W64) (ls : List Nat) : (g.setPcs f ls).cm = g.cm := by
  induction ls generalizing g with
  | nil => rfl
  | cons l ls ih => exact ih _
@[simp] theorem Group.setPcs_en (g : Group) (f : Nat → W64) (ls : List Nat) : (g.setPcs f ls).en = g.en := by
  induction ls generalizing g with
  | nil => rfl
  | cons l ls ih => exact ih _
@[simp] theorem Group.setPcs_lc (g : Group) (f : Nat → W64) (ls : List Nat) : (g.setPcs f ls).lc = g.lc := by
  induction ls generalizing g with
  | nil => rfl
  | cons l ls ih => exact ih _
@[simp] theorem Group.setPcs_w (g : Group) (f : Nat → W64) (ls : List Nat) : (g.setPcs f ls).w = g.w := by
  induction ls generalizing g with
  | nil => rfl
  | cons l ls ih => exact ih _
@[simp] theorem Group.setPcs_t (g : Group) (f : Nat → W64) (ls : List Nat) : (g.setPcs f ls).t = g.t := by
  induction ls generalizing g with
  | nil => rfl
  | cons l ls ih => exact ih _
@[simp] theorem Group.setPcs_ab (g : Group) (f : Nat → W64) (ls : List Nat) : (g.setPcs f ls).ab = g.ab := by
  induction ls generalizing g with
  | nil => rfl
  | cons l ls ih => exact ih _
@[simp] theorem Group.setPcs_al (g : Group) (f : Nat → W64) (ls : List Nat) : (g.setPcs f ls).al = g.al := by
  induction ls generalizing g with
  | nil => rfl
  | cons l ls ih => exact ih _
@[simp] theorem Group.setPcs_sb (g : Group) (f : Nat → W64) (ls : List Nat) : (g.setPcs f ls).sb = g.sb := by
  induction ls generalizing g with
  | nil => rfl
  | cons l ls ih => exact ih _
@[simp] theorem Group.setPcs_fps (g : Group) (f : Nat → W64) (ls : List Nat) : (g.setPcs f ls).fps = g.fps := by
  induction ls generalizing g with
  | nil => rfl
  | cons l ls ih => exact ih _
@[simp] theorem Group.setPcs_queue (g : Group) (f : Nat → W64) (ls : List Nat) : (g.setPcs f ls).queue = g.queue := by
  induction ls generalizing g with
  | nil => rfl
  | cons l ls ih => exact ih _
@[simp] theorem Group.setPcs_shadow (g : Group) (f : Nat → W64) (ls : List Nat) : (g.setPcs f ls).shadow = g.shadow := by
  induction ls generalizing g with
  | nil => rfl
  | cons l ls ih => exact ih _
@[simp] theorem Group.setPcs_epc (g : Group) (f : Nat → W64) (ls : List Nat) : (g.setPcs f ls).epc = g.epc := by
  induction ls generalizing g with
  | nil => rfl
  | cons l ls ih => exact ih _
@[simp] theorem Group.setPcs_ecause (g : Group) (f : Nat → W64) (ls : List Nat) : (g.setPcs f ls).ecause = g.ecause := by
  induction ls generalizing g with
  | nil => rfl
  | cons l ls ih => exact ih _
@[simp] theorem Group.setPcs_eaddr (g : Group) (f : Nat → W64) (ls : List Nat) : (g.setPcs f ls).eaddr = g.eaddr := by
  induction ls generalizing g with
  | nil => rfl
  | cons l ls ih => exact ih _
@[simp] theorem Group.setPcs_emask (g : Group) (f : Nat → W64) (ls : List Nat) : (g.setPcs f ls).emask = g.emask := by
  induction ls generalizing g with
  | nil => rfl
  | cons l ls ih => exact ih _
@[simp] theorem Group.setPcs_ehdr (g : Group) (f : Nat → W64) (ls : List Nat) : (g.setPcs f ls).ehdr = g.ehdr := by
  induction ls generalizing g with
  | nil => rfl
  | cons l ls ih => exact ih _
@[simp] theorem Group.setPcs_sen (g : Group) (f : Nat → W64) (ls : List Nat) : (g.setPcs f ls).sen = g.sen := by
  induction ls generalizing g with
  | nil => rfl
  | cons l ls ih => exact ih _
@[simp] theorem Group.setPcs_scm (g : Group) (f : Nat → W64) (ls : List Nat) : (g.setPcs f ls).scm = g.scm := by
  induction ls generalizing g with
  | nil => rfl
  | cons l ls ih => exact ih _
@[simp] theorem Group.setPcs_hkind (g : Group) (f : Nat → W64) (ls : List Nat) : (g.setPcs f ls).hkind = g.hkind := by
  induction ls generalizing g with
  | nil => rfl
  | cons l ls ih => exact ih _
@[simp] theorem Group.setPcs_escr (g : Group) (f : Nat → W64) (ls : List Nat) : (g.setPcs f ls).escr = g.escr := by
  induction ls generalizing g with
  | nil => rfl
  | cons l ls ih => exact ih _
@[simp] theorem Group.setPcs_dbgPend (g : Group) (f : Nat → W64) (ls : List Nat) : (g.setPcs f ls).dbgPend = g.dbgPend := by
  induction ls generalizing g with
  | nil => rfl
  | cons l ls ih => exact ih _
@[simp] theorem Group.setPcs_clause (g : Group) (f : Nat → W64) (ls : List Nat) : (g.setPcs f ls).clause = g.clause := by
  induction ls generalizing g with
  | nil => rfl
  | cons l ls ih => exact ih _
@[simp] theorem Group.setPcs_dwell (g : Group) (f : Nat → W64) (ls : List Nat) : (g.setPcs f ls).dwell = g.dwell := by
  induction ls generalizing g with
  | nil => rfl
  | cons l ls ih => exact ih _
@[simp] theorem Group.setPcs_last (g : Group) (f : Nat → W64) (ls : List Nat) : (g.setPcs f ls).last = g.last := by
  induction ls generalizing g with
  | nil => rfl
  | cons l ls ih => exact ih _
@[simp] theorem Group.setPcs_lprev (g : Group) (f : Nat → W64) (ls : List Nat) : (g.setPcs f ls).lprev = g.lprev := by
  induction ls generalizing g with
  | nil => rfl
  | cons l ls ih => exact ih _
@[simp] theorem Group.setPcs_pref (g : Group) (f : Nat → W64) (ls : List Nat) : (g.setPcs f ls).pref = g.pref := by
  induction ls generalizing g with
  | nil => rfl
  | cons l ls ih => exact ih _
@[simp] theorem Group.setPcs_age (g : Group) (f : Nat → W64) (ls : List Nat) : (g.setPcs f ls).age = g.age := by
  induction ls generalizing g with
  | nil => rfl
  | cons l ls ih => exact ih _
@[simp] theorem Group.setPcs_readySince (g : Group) (f : Nat → W64) (ls : List Nat) : (g.setPcs f ls).readySince = g.readySince := by
  induction ls generalizing g with
  | nil => rfl
  | cons l ls ih => exact ih _
@[simp] theorem Group.setPcs_yielded (g : Group) (f : Nat → W64) (ls : List Nat) : (g.setPcs f ls).yielded = g.yielded := by
  induction ls generalizing g with
  | nil => rfl
  | cons l ls ih => exact ih _
@[simp] theorem Group.setPcs_sleepUntil (g : Group) (f : Nat → W64) (ls : List Nat) : (g.setPcs f ls).sleepUntil = g.sleepUntil := by
  induction ls generalizing g with
  | nil => rfl
  | cons l ls ih => exact ih _
@[simp] theorem Group.setPcs_halted (g : Group) (f : Nat → W64) (ls : List Nat) : (g.setPcs f ls).halted = g.halted := by
  induction ls generalizing g with
  | nil => rfl
  | cons l ls ih => exact ih _
@[simp] theorem Group.setPcs_draining (g : Group) (f : Nat → W64) (ls : List Nat) : (g.setPcs f ls).draining = g.draining := by
  induction ls generalizing g with
  | nil => rfl
  | cons l ls ih => exact ih _
@[simp] theorem Group.setPcs_evicting (g : Group) (f : Nat → W64) (ls : List Nat) : (g.setPcs f ls).evicting = g.evicting := by
  induction ls generalizing g with
  | nil => rfl
  | cons l ls ih => exact ih _
@[simp] theorem Group.setPcs_timers (g : Group) (f : Nat → W64) (ls : List Nat) : (g.setPcs f ls).timers = g.timers := by
  induction ls generalizing g with
  | nil => rfl
  | cons l ls ih => exact ih _
@[simp] theorem Group.setPcs_mid (g : Group) (f : Nat → W64) (ls : List Nat) : (g.setPcs f ls).mid = g.mid := by
  induction ls generalizing g with
  | nil => rfl
  | cons l ls ih => exact ih _
@[simp] theorem Group.setPcs_midHdr (g : Group) (f : Nat → W64) (ls : List Nat) : (g.setPcs f ls).midHdr = g.midHdr := by
  induction ls generalizing g with
  | nil => rfl
  | cons l ls ih => exact ih _
@[simp] theorem Group.setPcs_midQueue (g : Group) (f : Nat → W64) (ls : List Nat) : (g.setPcs f ls).midQueue = g.midQueue := by
  induction ls generalizing g with
  | nil => rfl
  | cons l ls ih => exact ih _
@[simp] theorem Group.setPcs_shadowEnd (g : Group) (f : Nat → W64) (ls : List Nat) : (g.setPcs f ls).shadowEnd = g.shadowEnd := by
  induction ls generalizing g with
  | nil => rfl
  | cons l ls ih => exact ih _
@[simp] theorem Group.setPcs_midEnd (g : Group) (f : Nat → W64) (ls : List Nat) : (g.setPcs f ls).midEnd = g.midEnd := by
  induction ls generalizing g with
  | nil => rfl
  | cons l ls ih => exact ih _
@[simp] theorem Group.setPcs_hint (g : Group) (f : Nat → W64) (ls : List Nat) : (g.setPcs f ls).hint = g.hint := by
  induction ls generalizing g with
  | nil => rfl
  | cons l ls ih => exact ih _
@[simp] theorem Group.setPcs_bpExempt (g : Group) (f : Nat → W64) (ls : List Nat) : (g.setPcs f ls).bpExempt = g.bpExempt := by
  induction ls generalizing g with
  | nil => rfl
  | cons l ls ih => exact ih _
@[simp] theorem Group.setPcs_watchExempt (g : Group) (f : Nat → W64) (ls : List Nat) : (g.setPcs f ls).watchExempt = g.watchExempt := by
  induction ls generalizing g with
  | nil => rfl
  | cons l ls ih => exact ih _
@[simp] theorem Group.setPcs_watchHit (g : Group) (f : Nat → W64) (ls : List Nat) : (g.setPcs f ls).watchHit = g.watchHit := by
  induction ls generalizing g with
  | nil => rfl
  | cons l ls ih => exact ih _
@[simp] theorem Group.setPcs_watchSave (g : Group) (f : Nat → W64) (ls : List Nat) : (g.setPcs f ls).watchSave = g.watchSave := by
  induction ls generalizing g with
  | nil => rfl
  | cons l ls ih => exact ih _
@[simp] theorem Group.setPcs_lastPc (g : Group) (f : Nat → W64) (ls : List Nat) : (g.setPcs f ls).lastPc = g.lastPc := by
  induction ls generalizing g with
  | nil => rfl
  | cons l ls ih => exact ih _
@[simp] theorem Group.setPcs_lastSeq (g : Group) (f : Nat → W64) (ls : List Nat) : (g.setPcs f ls).lastSeq = g.lastSeq := by
  induction ls generalizing g with
  | nil => rfl
  | cons l ls ih => exact ih _
@[simp] theorem Group.setPcs_covCand (g : Group) (f : Nat → W64) (ls : List Nat) : (g.setPcs f ls).covCand = g.covCand := by
  induction ls generalizing g with
  | nil => rfl
  | cons l ls ih => exact ih _
@[simp] theorem Group.setPcs_covDone (g : Group) (f : Nat → W64) (ls : List Nat) : (g.setPcs f ls).covDone = g.covDone := by
  induction ls generalizing g with
  | nil => rfl
  | cons l ls ih => exact ih _
@[simp] theorem Group.setPcs_hash (g : Group) (f : Nat → W64) (ls : List Nat) : (g.setPcs f ls).hash = g.hash := by
  induction ls generalizing g with
  | nil => rfl
  | cons l ls ih => exact ih _
@[simp] theorem Group.setPcs_hashQ (g : Group) (f : Nat → W64) (ls : List Nat) : (g.setPcs f ls).hashQ = g.hashQ := by
  induction ls generalizing g with
  | nil => rfl
  | cons l ls ih => exact ih _
@[simp] theorem Group.setPcs_ordinal (g : Group) (f : Nat → W64) (ls : List Nat) : (g.setPcs f ls).ordinal = g.ordinal := by
  induction ls generalizing g with
  | nil => rfl
  | cons l ls ih => exact ih _
@[simp] theorem Group.setPcs_spawnHeld (g : Group) (f : Nat → W64) (ls : List Nat) : (g.setPcs f ls).spawnHeld = g.spawnHeld := by
  induction ls generalizing g with
  | nil => rfl
  | cons l ls ih => exact ih _
@[simp] theorem Group.setPcs_waitReqs (g : Group) (f : Nat → W64) (ls : List Nat) : (g.setPcs f ls).waitReqs = g.waitReqs := by
  induction ls generalizing g with
  | nil => rfl
  | cons l ls ih => exact ih _
@[simp] theorem Group.setPcs_checks (g : Group) (f : Nat → W64) (ls : List Nat) : (g.setPcs f ls).checks = g.checks := by
  induction ls generalizing g with
  | nil => rfl
  | cons l ls ih => exact ih _
@[simp] theorem Group.setPcs_xcCount (g : Group) (f : Nat → W64) (ls : List Nat) : (g.setPcs f ls).xcCount = g.xcCount := by
  induction ls generalizing g with
  | nil => rfl
  | cons l ls ih => exact ih _
@[simp] theorem Group.setPcs_xeCount (g : Group) (f : Nat → W64) (ls : List Nat) : (g.setPcs f ls).xeCount = g.xeCount := by
  induction ls generalizing g with
  | nil => rfl
  | cons l ls ih => exact ih _

-- Group.vset64Lanes

@[simp] theorem Group.vset64Lanes_core (g : Group) (r : Nat) (f : Nat → W64) (ls : List Nat) : (g.vset64Lanes r f ls).core = g.core := by
  simp [Group.vset64Lanes]
@[simp] theorem Group.vset64Lanes_blk (g : Group) (r : Nat) (f : Nat → W64) (ls : List Nat) : (g.vset64Lanes r f ls).blk = g.blk := by
  simp [Group.vset64Lanes]
@[simp] theorem Group.vset64Lanes_launch (g : Group) (r : Nat) (f : Nat → W64) (ls : List Nat) : (g.vset64Lanes r f ls).launch = g.launch := by
  simp [Group.vset64Lanes]
@[simp] theorem Group.vset64Lanes_gix (g : Group) (r : Nat) (f : Nat → W64) (ls : List Nat) : (g.vset64Lanes r f ls).gix = g.gix := by
  simp [Group.vset64Lanes]
@[simp] theorem Group.vset64Lanes_launched (g : Group) (r : Nat) (f : Nat → W64) (ls : List Nat) : (g.vset64Lanes r f ls).launched = g.launched := by
  simp [Group.vset64Lanes]
@[simp] theorem Group.vset64Lanes_live (g : Group) (r : Nat) (f : Nat → W64) (ls : List Nat) : (g.vset64Lanes r f ls).live = g.live := by
  simp [Group.vset64Lanes]
@[simp] theorem Group.vset64Lanes_nregs (g : Group) (r : Nat) (f : Nat → W64) (ls : List Nat) : (g.vset64Lanes r f ls).nregs = g.nregs := by
  simp [Group.vset64Lanes]
@[simp] theorem Group.vset64Lanes_tag (g : Group) (r : Nat) (f : Nat → W64) (ls : List Nat) : (g.vset64Lanes r f ls).tag = g.tag := by
  simp [Group.vset64Lanes]
@[simp] theorem Group.vset64Lanes_pcv (g : Group) (r : Nat) (f : Nat → W64) (ls : List Nat) : (g.vset64Lanes r f ls).pcv = g.pcv := by
  simp [Group.vset64Lanes]
@[simp] theorem Group.vset64Lanes_s (g : Group) (r : Nat) (f : Nat → W64) (ls : List Nat) : (g.vset64Lanes r f ls).s = g.s := by
  simp [Group.vset64Lanes]
@[simp] theorem Group.vset64Lanes_cm (g : Group) (r : Nat) (f : Nat → W64) (ls : List Nat) : (g.vset64Lanes r f ls).cm = g.cm := by
  simp [Group.vset64Lanes]
@[simp] theorem Group.vset64Lanes_en (g : Group) (r : Nat) (f : Nat → W64) (ls : List Nat) : (g.vset64Lanes r f ls).en = g.en := by
  simp [Group.vset64Lanes]
@[simp] theorem Group.vset64Lanes_lc (g : Group) (r : Nat) (f : Nat → W64) (ls : List Nat) : (g.vset64Lanes r f ls).lc = g.lc := by
  simp [Group.vset64Lanes]
@[simp] theorem Group.vset64Lanes_w (g : Group) (r : Nat) (f : Nat → W64) (ls : List Nat) : (g.vset64Lanes r f ls).w = g.w := by
  simp [Group.vset64Lanes]
@[simp] theorem Group.vset64Lanes_t (g : Group) (r : Nat) (f : Nat → W64) (ls : List Nat) : (g.vset64Lanes r f ls).t = g.t := by
  simp [Group.vset64Lanes]
@[simp] theorem Group.vset64Lanes_ab (g : Group) (r : Nat) (f : Nat → W64) (ls : List Nat) : (g.vset64Lanes r f ls).ab = g.ab := by
  simp [Group.vset64Lanes]
@[simp] theorem Group.vset64Lanes_al (g : Group) (r : Nat) (f : Nat → W64) (ls : List Nat) : (g.vset64Lanes r f ls).al = g.al := by
  simp [Group.vset64Lanes]
@[simp] theorem Group.vset64Lanes_sb (g : Group) (r : Nat) (f : Nat → W64) (ls : List Nat) : (g.vset64Lanes r f ls).sb = g.sb := by
  simp [Group.vset64Lanes]
@[simp] theorem Group.vset64Lanes_fps (g : Group) (r : Nat) (f : Nat → W64) (ls : List Nat) : (g.vset64Lanes r f ls).fps = g.fps := by
  simp [Group.vset64Lanes]
@[simp] theorem Group.vset64Lanes_queue (g : Group) (r : Nat) (f : Nat → W64) (ls : List Nat) : (g.vset64Lanes r f ls).queue = g.queue := by
  simp [Group.vset64Lanes]
@[simp] theorem Group.vset64Lanes_shadow (g : Group) (r : Nat) (f : Nat → W64) (ls : List Nat) : (g.vset64Lanes r f ls).shadow = g.shadow := by
  simp [Group.vset64Lanes]
@[simp] theorem Group.vset64Lanes_epc (g : Group) (r : Nat) (f : Nat → W64) (ls : List Nat) : (g.vset64Lanes r f ls).epc = g.epc := by
  simp [Group.vset64Lanes]
@[simp] theorem Group.vset64Lanes_ecause (g : Group) (r : Nat) (f : Nat → W64) (ls : List Nat) : (g.vset64Lanes r f ls).ecause = g.ecause := by
  simp [Group.vset64Lanes]
@[simp] theorem Group.vset64Lanes_eaddr (g : Group) (r : Nat) (f : Nat → W64) (ls : List Nat) : (g.vset64Lanes r f ls).eaddr = g.eaddr := by
  simp [Group.vset64Lanes]
@[simp] theorem Group.vset64Lanes_emask (g : Group) (r : Nat) (f : Nat → W64) (ls : List Nat) : (g.vset64Lanes r f ls).emask = g.emask := by
  simp [Group.vset64Lanes]
@[simp] theorem Group.vset64Lanes_ehdr (g : Group) (r : Nat) (f : Nat → W64) (ls : List Nat) : (g.vset64Lanes r f ls).ehdr = g.ehdr := by
  simp [Group.vset64Lanes]
@[simp] theorem Group.vset64Lanes_sen (g : Group) (r : Nat) (f : Nat → W64) (ls : List Nat) : (g.vset64Lanes r f ls).sen = g.sen := by
  simp [Group.vset64Lanes]
@[simp] theorem Group.vset64Lanes_scm (g : Group) (r : Nat) (f : Nat → W64) (ls : List Nat) : (g.vset64Lanes r f ls).scm = g.scm := by
  simp [Group.vset64Lanes]
@[simp] theorem Group.vset64Lanes_hkind (g : Group) (r : Nat) (f : Nat → W64) (ls : List Nat) : (g.vset64Lanes r f ls).hkind = g.hkind := by
  simp [Group.vset64Lanes]
@[simp] theorem Group.vset64Lanes_escr (g : Group) (r : Nat) (f : Nat → W64) (ls : List Nat) : (g.vset64Lanes r f ls).escr = g.escr := by
  simp [Group.vset64Lanes]
@[simp] theorem Group.vset64Lanes_dbgPend (g : Group) (r : Nat) (f : Nat → W64) (ls : List Nat) : (g.vset64Lanes r f ls).dbgPend = g.dbgPend := by
  simp [Group.vset64Lanes]
@[simp] theorem Group.vset64Lanes_clause (g : Group) (r : Nat) (f : Nat → W64) (ls : List Nat) : (g.vset64Lanes r f ls).clause = g.clause := by
  simp [Group.vset64Lanes]
@[simp] theorem Group.vset64Lanes_dwell (g : Group) (r : Nat) (f : Nat → W64) (ls : List Nat) : (g.vset64Lanes r f ls).dwell = g.dwell := by
  simp [Group.vset64Lanes]
@[simp] theorem Group.vset64Lanes_last (g : Group) (r : Nat) (f : Nat → W64) (ls : List Nat) : (g.vset64Lanes r f ls).last = g.last := by
  simp [Group.vset64Lanes]
@[simp] theorem Group.vset64Lanes_lprev (g : Group) (r : Nat) (f : Nat → W64) (ls : List Nat) : (g.vset64Lanes r f ls).lprev = g.lprev := by
  simp [Group.vset64Lanes]
@[simp] theorem Group.vset64Lanes_pref (g : Group) (r : Nat) (f : Nat → W64) (ls : List Nat) : (g.vset64Lanes r f ls).pref = g.pref := by
  simp [Group.vset64Lanes]
@[simp] theorem Group.vset64Lanes_age (g : Group) (r : Nat) (f : Nat → W64) (ls : List Nat) : (g.vset64Lanes r f ls).age = g.age := by
  simp [Group.vset64Lanes]
@[simp] theorem Group.vset64Lanes_readySince (g : Group) (r : Nat) (f : Nat → W64) (ls : List Nat) : (g.vset64Lanes r f ls).readySince = g.readySince := by
  simp [Group.vset64Lanes]
@[simp] theorem Group.vset64Lanes_yielded (g : Group) (r : Nat) (f : Nat → W64) (ls : List Nat) : (g.vset64Lanes r f ls).yielded = g.yielded := by
  simp [Group.vset64Lanes]
@[simp] theorem Group.vset64Lanes_sleepUntil (g : Group) (r : Nat) (f : Nat → W64) (ls : List Nat) : (g.vset64Lanes r f ls).sleepUntil = g.sleepUntil := by
  simp [Group.vset64Lanes]
@[simp] theorem Group.vset64Lanes_halted (g : Group) (r : Nat) (f : Nat → W64) (ls : List Nat) : (g.vset64Lanes r f ls).halted = g.halted := by
  simp [Group.vset64Lanes]
@[simp] theorem Group.vset64Lanes_draining (g : Group) (r : Nat) (f : Nat → W64) (ls : List Nat) : (g.vset64Lanes r f ls).draining = g.draining := by
  simp [Group.vset64Lanes]
@[simp] theorem Group.vset64Lanes_evicting (g : Group) (r : Nat) (f : Nat → W64) (ls : List Nat) : (g.vset64Lanes r f ls).evicting = g.evicting := by
  simp [Group.vset64Lanes]
@[simp] theorem Group.vset64Lanes_timers (g : Group) (r : Nat) (f : Nat → W64) (ls : List Nat) : (g.vset64Lanes r f ls).timers = g.timers := by
  simp [Group.vset64Lanes]
@[simp] theorem Group.vset64Lanes_mid (g : Group) (r : Nat) (f : Nat → W64) (ls : List Nat) : (g.vset64Lanes r f ls).mid = g.mid := by
  simp [Group.vset64Lanes]
@[simp] theorem Group.vset64Lanes_midHdr (g : Group) (r : Nat) (f : Nat → W64) (ls : List Nat) : (g.vset64Lanes r f ls).midHdr = g.midHdr := by
  simp [Group.vset64Lanes]
@[simp] theorem Group.vset64Lanes_midQueue (g : Group) (r : Nat) (f : Nat → W64) (ls : List Nat) : (g.vset64Lanes r f ls).midQueue = g.midQueue := by
  simp [Group.vset64Lanes]
@[simp] theorem Group.vset64Lanes_shadowEnd (g : Group) (r : Nat) (f : Nat → W64) (ls : List Nat) : (g.vset64Lanes r f ls).shadowEnd = g.shadowEnd := by
  simp [Group.vset64Lanes]
@[simp] theorem Group.vset64Lanes_midEnd (g : Group) (r : Nat) (f : Nat → W64) (ls : List Nat) : (g.vset64Lanes r f ls).midEnd = g.midEnd := by
  simp [Group.vset64Lanes]
@[simp] theorem Group.vset64Lanes_hint (g : Group) (r : Nat) (f : Nat → W64) (ls : List Nat) : (g.vset64Lanes r f ls).hint = g.hint := by
  simp [Group.vset64Lanes]
@[simp] theorem Group.vset64Lanes_bpExempt (g : Group) (r : Nat) (f : Nat → W64) (ls : List Nat) : (g.vset64Lanes r f ls).bpExempt = g.bpExempt := by
  simp [Group.vset64Lanes]
@[simp] theorem Group.vset64Lanes_watchExempt (g : Group) (r : Nat) (f : Nat → W64) (ls : List Nat) : (g.vset64Lanes r f ls).watchExempt = g.watchExempt := by
  simp [Group.vset64Lanes]
@[simp] theorem Group.vset64Lanes_watchHit (g : Group) (r : Nat) (f : Nat → W64) (ls : List Nat) : (g.vset64Lanes r f ls).watchHit = g.watchHit := by
  simp [Group.vset64Lanes]
@[simp] theorem Group.vset64Lanes_watchSave (g : Group) (r : Nat) (f : Nat → W64) (ls : List Nat) : (g.vset64Lanes r f ls).watchSave = g.watchSave := by
  simp [Group.vset64Lanes]
@[simp] theorem Group.vset64Lanes_lastPc (g : Group) (r : Nat) (f : Nat → W64) (ls : List Nat) : (g.vset64Lanes r f ls).lastPc = g.lastPc := by
  simp [Group.vset64Lanes]
@[simp] theorem Group.vset64Lanes_lastSeq (g : Group) (r : Nat) (f : Nat → W64) (ls : List Nat) : (g.vset64Lanes r f ls).lastSeq = g.lastSeq := by
  simp [Group.vset64Lanes]
@[simp] theorem Group.vset64Lanes_covCand (g : Group) (r : Nat) (f : Nat → W64) (ls : List Nat) : (g.vset64Lanes r f ls).covCand = g.covCand := by
  simp [Group.vset64Lanes]
@[simp] theorem Group.vset64Lanes_covDone (g : Group) (r : Nat) (f : Nat → W64) (ls : List Nat) : (g.vset64Lanes r f ls).covDone = g.covDone := by
  simp [Group.vset64Lanes]
@[simp] theorem Group.vset64Lanes_hash (g : Group) (r : Nat) (f : Nat → W64) (ls : List Nat) : (g.vset64Lanes r f ls).hash = g.hash := by
  simp [Group.vset64Lanes]
@[simp] theorem Group.vset64Lanes_hashQ (g : Group) (r : Nat) (f : Nat → W64) (ls : List Nat) : (g.vset64Lanes r f ls).hashQ = g.hashQ := by
  simp [Group.vset64Lanes]
@[simp] theorem Group.vset64Lanes_ordinal (g : Group) (r : Nat) (f : Nat → W64) (ls : List Nat) : (g.vset64Lanes r f ls).ordinal = g.ordinal := by
  simp [Group.vset64Lanes]
@[simp] theorem Group.vset64Lanes_spawnHeld (g : Group) (r : Nat) (f : Nat → W64) (ls : List Nat) : (g.vset64Lanes r f ls).spawnHeld = g.spawnHeld := by
  simp [Group.vset64Lanes]
@[simp] theorem Group.vset64Lanes_waitReqs (g : Group) (r : Nat) (f : Nat → W64) (ls : List Nat) : (g.vset64Lanes r f ls).waitReqs = g.waitReqs := by
  simp [Group.vset64Lanes]
@[simp] theorem Group.vset64Lanes_checks (g : Group) (r : Nat) (f : Nat → W64) (ls : List Nat) : (g.vset64Lanes r f ls).checks = g.checks := by
  simp [Group.vset64Lanes]
@[simp] theorem Group.vset64Lanes_xcCount (g : Group) (r : Nat) (f : Nat → W64) (ls : List Nat) : (g.vset64Lanes r f ls).xcCount = g.xcCount := by
  simp [Group.vset64Lanes]
@[simp] theorem Group.vset64Lanes_xeCount (g : Group) (r : Nat) (f : Nat → W64) (ls : List Nat) : (g.vset64Lanes r f ls).xeCount = g.xeCount := by
  simp [Group.vset64Lanes]

end Sys2Proof.Machine
end

