-- ==== Sys2Proof/Laws/Lanes.lean ====
section
/-! SUPPORT. Lane masks, and what the registers of a group read as after writes to the lanes of a mask. -/

namespace Sys2Proof.Machine

theorem maskFrom_getLsbD (p : Nat → Bool) : ∀ (ls : List Nat) (i : Nat), i < 32 → (∀ l ∈ ls, l < 32) →
    (maskFrom p ls).getLsbD i = (decide (i ∈ ls) && p i)
  | [], i, _, _ => by simp [maskFrom]
  | l :: ls, i, hi, h => by
    rw [maskFrom, BitVec.getLsbD_or, maskFrom_getLsbD p ls i hi fun x hx => h x (List.mem_cons_of_mem _ hx)]
    have hl := h l (List.mem_cons_self ..)
    by_cases hil : i = l
    · subst hil; cases hp : p i <;> simp [hi]
    · have : ¬ (l ≤ i ∧ i - l = 0) := by omega
      split
      · simp [hil, List.mem_cons]; omega
      · simp [hil, List.mem_cons]

/-- Bit l of the mask of a test is the test of l. -/
theorem maskOf_getLsbD (p : Nat → Bool) (l : Nat) (h : l < 32) : (maskOf p).getLsbD l = p l := by
  rw [maskOf, maskFrom_getLsbD p lanes l h (by simp [lanes])]
  simp [lanes, h]

/-- Masks that agree on the 32 lanes are equal. -/
theorem laneMask_ext {a b : LaneMask} (h : ∀ l < 32, a.getLsbD l = b.getLsbD l) : a = b :=
  BitVec.eq_of_getLsbD_eq fun l hl => h l hl

theorem mem_lanes (l : Nat) : l ∈ lanes ↔ l < 32 := by simp [lanes]

/-- The lanes of a mask. -/
theorem mem_laneList (m : LaneMask) (l : Nat) : l ∈ laneList m ↔ l < 32 ∧ m.getLsbD l = true := by
  simp [laneList, lanes]

theorem Group.vget_vset (g : Group) (r l r' l' : Nat) (x : W32) :
    (g.vset r l x).vget r' l' = if r' * 32 + l' = r * 32 + l then x else g.vget r' l' := by
  simp [Group.vset, Group.vget, NMap.get_set]

/-- A V register after a write in the lanes of a list. -/
theorem Group.vget_vsetLanes (r : Nat) (f : Nat → W32) : ∀ (ls : List Nat) (g : Group) (r' l' : Nat), (∀ l ∈ ls, l < 32) →
    l' < 32 → (g.vsetLanes r f ls).vget r' l' = if r' = r ∧ l' ∈ ls then f l' else g.vget r' l'
  | [], g, r', l', _, _ => by simp [Group.vsetLanes]
  | l :: ls, g, r', l', h, hl' => by
    rw [Group.vsetLanes, Group.vget_vsetLanes r f ls _ r' l' (fun x hx => h x (List.mem_cons_of_mem _ hx)) hl',
      Group.vget_vset]
    have hl := h l (List.mem_cons_self ..)
    by_cases hm : r' = r ∧ l' ∈ ls
    · rw [if_pos hm, if_pos ⟨hm.1, List.mem_cons_of_mem _ hm.2⟩]
    · rw [if_neg hm]
      by_cases he : r' * 32 + l' = r * 32 + l
      · have h1 : r' = r := by omega
        have h2 : l' = l := by omega
        rw [if_pos he, if_pos ⟨h1, h2 ▸ List.mem_cons_self ..⟩, h2]
      · rw [if_neg he, if_neg]
        rintro ⟨h1, h2⟩
        rcases List.mem_cons.1 h2 with h3 | h3
        · exact he (by rw [h1, h3])
        · exact hm ⟨h1, h3⟩

theorem Group.vget_vsetMask (g : Group) (r : Nat) (f : Nat → W32) (m : LaneMask) (r' l : Nat) (hl : l < 32) :
    (g.vsetLanes r f (laneList m)).vget r' l = if r' = r ∧ m.getLsbD l = true then f l else g.vget r' l := by
  rw [Group.vget_vsetLanes r f _ g r' l (fun x hx => ((mem_laneList m x).1 hx).1) hl]
  simp [mem_laneList, hl]

theorem Group.pc_setPc (g : Group) (l l' : Nat) (x : W64) : (g.setPc l x).pc l' = if l' = l then x else g.pc l' := by
  simp [Group.setPc, Group.pc, NMap.get_set]

/-- A lane's program counter after a write in the lanes of a list. -/
theorem Group.pc_setPcs (f : Nat → W64) : ∀ (ls : List Nat) (g : Group) (l' : Nat),
    (g.setPcs f ls).pc l' = if l' ∈ ls then f l' else g.pc l'
  | [], g, l' => by simp [Group.setPcs]
  | l :: ls, g, l' => by
    rw [Group.setPcs, Group.pc_setPcs f ls, Group.pc_setPc]
    by_cases hm : l' ∈ ls
    · simp [hm]
    · by_cases he : l' = l <;> simp [hm, he]

theorem Group.pc_setMask (g : Group) (f : Nat → W64) (m : LaneMask) (l : Nat) (hl : l < 32) :
    (g.setPcs f (laneList m)).pc l = if m.getLsbD l = true then f l else g.pc l := by
  rw [Group.pc_setPcs]; simp [mem_laneList, hl]

/-- An element of a lane table after a write in the lanes of a list. -/
theorem get_setLanes {α : Type} [DecidableEq α] (d : α) (f : Nat → α) : ∀ (ls : List Nat) (m : NMap α) (l' : Nat),
    NMap.get d (setLanes (NMap.set d) f m ls) l' = if l' ∈ ls then f l' else NMap.get d m l'
  | [], m, l' => by simp [setLanes]
  | l :: ls, m, l' => by
    rw [setLanes, get_setLanes d f ls, NMap.get_set]
    by_cases hm : l' ∈ ls
    · simp [hm]
    · by_cases he : l' = l <;> simp [hm, he]

theorem Group.sget_sset (g : Group) (r r' : Nat) (x : W64) : (g.sset r x).sget r' = if r' = r then x else g.sget r' := by
  simp [Group.sset, Group.sget, NMap.get_set]

theorem Group.lcGet_lcSet (g : Group) (n n' : Nat) (x : W32) : (g.lcSet n x).lcGet n' = if n' = n then x else g.lcGet n' := by
  simp [Group.lcSet, Group.lcGet, NMap.get_set]

theorem Group.sbGet_sbInc (g : Group) (n n' : Nat) : (g.sbInc n).sbGet n' = if n' = n then g.sbGet n + 1 else g.sbGet n' := by
  simp only [Group.sbInc, Group.sbGet, NMap.get_set]

theorem Group.sbGet_sbDec (g : Group) (n n' : Nat) : (g.sbDec n).sbGet n' = if n' = n then g.sbGet n - 1 else g.sbGet n' := by
  simp only [Group.sbDec, Group.sbGet, NMap.get_set]

/-- The group in a slot after a write to a slot. -/
theorem State.group?_setGroup (s : State) (gid n : Nat) (g : Group) :
    (s.setGroup gid g).group? n = if n = gid then some g else s.group? n := by
  unfold State.group? State.setGroup
  dsimp only
  rw [NMap.map_put, NMap.get_put]

/-- The group in a slot after a change to a slot. -/
theorem State.group?_modGroup (s : State) (gid n : Nat) (f : Group → Group) :
    (s.modGroup gid f).group? n = if n = gid then (s.group? n).map f else s.group? n := by
  unfold State.modGroup
  by_cases hn : n = gid
  · subst hn
    cases h : s.group? n <;> simp [h, State.group?_setGroup]
  · cases h : s.group? gid <;> simp [hn, State.group?_setGroup]

/-- Targets that are valid raise no trap (R135). -/
theorem checkTargets_ok {c : Ctx} {m : LaneMask} {t : Nat → W64} {k : Effect}
    (h : ∀ l < 32, m.getLsbD l = true → targetOk (t l) = true) : c.checkTargets m t k = k := by
  have : (maskOf fun l => m.getLsbD l && !targetOk (t l)) = 0 := by
    refine laneMask_ext fun l hl => ?_
    rw [maskOf_getLsbD _ _ hl]
    cases hm : m.getLsbD l
    · simp
    · simp [h l hl hm]
  simp only [Ctx.checkTargets]
  rw [if_pos this]

/-- No lane raises a flag. -/
theorem flagsOver_zero : ∀ ls : List Nat, flagsOver (fun _ => (0 : FpFlags)) ls = 0
  | [] => rfl
  | _ :: ls => by rw [flagsOver, flagsOver_zero ls]; rfl

end Sys2Proof.Machine
end

