-- ==== Sys2Proof/Laws/Access.lean ====
section
/-! SUPPORT. What the shared operations of the memory, graphics and matrix instructions do where nothing keeps them. -/

namespace Sys2Proof.Machine

/-- Gathered accesses leave where the group's port has room (R171). -/
theorem finishAccs_launched {g : Gather} {c : Ctx} {v : View} {tl : Tail} {isLoad : Bool} {accs : List (Nat × W64 × Nat)}
    {hash : Nat → List HashStep} (h : g.hasRoom c.gid c.core) :
    g.finishAccs c v tl isLoad accs hash = .ok (g.launchedAccs c v tl isLoad accs hash) := by
  simp only [Gather.finishAccs, Gather.launchedAccs]
  rw [if_neg (by rw [show g.full c.gid c.core = false from h]; simp)]
  split <;> rfl

/-- The same of some lanes' accesses of n bytes. -/
theorem finish_launched {g : Gather} {c : Ctx} {v : View} {tl : Tail} {isLoad : Bool} {ls : List Nat} {addr : Nat → W64} {n : Nat}
    {hash : Nat → List HashStep} (h : g.hasRoom c.gid c.core) :
    g.finish c v tl isLoad ls addr n hash = .ok (g.launched c v tl isLoad ls addr n hash) := by
  exact finishAccs_launched h

/-- With no data watch set, no access is watched (R372). -/
theorem watchedAll_nil {c : Ctx} {kind accs n datum v s e} (h : (s.core c.core).dwc = []) :
    c.watchedAll kind accs n datum v s e = e := by
  have hf : ∀ k a m, (s.core c.core).watchHits k kind a m = false := by
    intro k a m
    simp [Core.watchHits, h]
  simp only [Ctx.watchedAll, Ctx.watchedSized]
  split
  · rfl
  · rw [if_pos]
    simp [hf]
/-- An access that nothing keeps is made (R174). -/
theorem checked_open {c : Ctx} {ls mask addr n align k single kind datum s f snap} (hs : (if kind = WatchKind.atomic then false else true) = snap)
    (h : c.accessible ls addr n align k single snap s) :
    c.checked ls mask addr n align k single kind datum s f =
      f (s.viewOf c.gid c.g) (c.settledFor ls addr s) := by
  obtain ⟨h1, h2, h3, h4⟩ := h
  subst hs
  simp only [Ctx.checked, Ctx.admitted]
  rw [if_neg (c := (List.any _ _ = true)) (by simpa using h1), h2]
  simp only [Ctx.watched]
  rw [watchedAll_nil h3]
  have e : ∀ A B : List (Nat × Nat), (if kind = .atomic then A else B) = if (if kind = WatchKind.atomic then false else true) = true then B else A := by
    intro A B; by_cases kind = .atomic <;> simp [*]
  simp only [Ctx.peerRead, Ctx.settledFor]
  rcases h4 with h4 | h4
  · simp [h4]
  · rw [e [], h4]; simp
/-- A window's access that nothing keeps is made (R113). -/
theorem window_open {c : Ctx} {a k kind datum s f} 
    (h : c.accessible [0,1] (fun h => a + BitVec.ofNat 64 (32 * h)) 32 32 k true true s) :
    c.checkedWindow a k kind datum s f =
      f (s.viewOf c.gid c.g) (c.settledFor [0,1] (fun h => a + BitVec.ofNat 64 (32 * h)) s) := by
  obtain ⟨h1, h2, h3, h4⟩ := h
  simp only [Ctx.checkedWindow]
  rw [if_neg (by simpa using h1), h2]
  simp only [Ctx.watched]
  rw [watchedAll_nil h3]
  simp only [Ctx.peerRead, Ctx.settledFor]
  rcases h4 with h4 | h4
  · simp [h4]
  · simp only [if_true] at h4; rw [h4]; simp
/-- An instruction of the shared form of accesses completes as it does. -/
theorem completesAccess_of {i uses tl isLoad k single snap n align ls addr gather hash} (mask : Ctx → LaneMask → LaneMask) (kind : WatchKind) (datum : Ctx → Nat → W32)
    (hs : (if kind = WatchKind.atomic then false else true) = snap)
    (he : ∀ s, exec i s = issueAsync (fun _ => true) uses tl (fun c s => c.checked (ls c) (mask c) (addr c) n align k single kind (datum c) s fun v s =>
       (gather c v s).finish c v tl isLoad (ls c) (addr c) n (hash c v s)) s) :
    CompletesAccess i uses tl isLoad k single snap n align ls addr gather hash := by
  unfold CompletesAccess
  refine completesAsync_of_body (pre := fun _ => true) he (fun _ _ _ => rfl) fun c s h => ?_
  exact (checked_open hs h.1).trans (finish_launched h.2)
/-- A tile instruction of the shared form completes as it does (R198). -/
theorem tile_of {i kind cv set sat rnd acc b x tl} (he : ∀ s, exec i s = tileOp kind cv set sat rnd acc b x tl s) : CompletesTile i kind cv set sat rnd acc b x tl := by
  intro k reg op check
  refine ⟨?_, ?_⟩
  · rintro rfl
    refine completesAsync_of_body (pre := Ctx.noHandler) (fun s => by rw [he, tileOp]) (fun c s h => by simp [Ctx.noHandler, h.1.1]) fun c s h => ?_
    obtain ⟨⟨h1, h2, h3, h4, h5⟩, o, s', h6⟩ := h
    simp only [check, op, Ctx.matOp] at h6
    simp only [Ctx.withCtx, h2, h3, h4, h5, Ctx.fires, check, op, Ctx.matOp, h6, Bool.not_true, Bool.or_self, Bool.false_eq_true,
      if_false]
  · rintro n rfl
    refine ⟨?_, ?_⟩
    · refine completesAsync_of_body (pre := Ctx.noHandler) (fun s => by rw [he, tileOp]) (fun c s h => by simp [Ctx.noHandler, h.1.1]) fun c s h => ?_
      obtain ⟨⟨h1, h2, h3, h4, h5⟩, h6, h7⟩ := h
      simp only [Ctx.withCtx, h2, h3, h4, h5, Ctx.fires]
      simp only [reg] at h6 h7
      simp [h6, h7, op, reg, Ctx.matOp]
    · refine completesAsync_of_body (pre := Ctx.noHandler) (fun s => by rw [he, tileOp]) (fun c s h => by simp [Ctx.noHandler, h.1.1]) fun c s h => ?_
      obtain ⟨⟨h1, h2, h3, h4, h5⟩, h6, o, s', h7⟩ := h
      simp only [Ctx.withCtx, h2, h3, h4, h5, Ctx.fires]
      simp only [reg] at h6 
      simp only [check, op, Ctx.matOp, reg] at h7
      simp [h6, h7, check, op, reg, Ctx.matOp]
/-- Gathered loads leave where the group's port has room (R171). -/
theorem depart_room {g : Gather} {c : Ctx} {v : View} {tl : Tail} (h : g.hasRoom c.gid c.core) : g.depart c v tl = .ok (g.departed c v tl) := by
  exact if_neg (by rw [show g.full c.gid c.core = false from h]; simp)
/-- A graphics instruction's loads leave where nothing keeps them (R227). -/
theorem gfxLoads_open {c : Ctx} {v n es mis extra tl g s} (h : c.gfxOpen v n es mis tl g s) :
    c.gfxLoads v n es mis extra tl g s = .ok ((c.gfxGather v n es tl g s).departed c v tl) := by
  obtain ⟨h1, h2, h3, h4, h5⟩ := h
  simp only [Ctx.gfxLoads]
  rw [if_neg (by simpa using h1), h2]
  simp only []
  rw [watchedAll_nil h3]
  simp only [Ctx.peerRead, AccKind.writes, h4, Bool.false_eq_true, if_false]
  exact depart_room h5
/-- A texture instruction's loads, once its descriptor and sampler are in order (R235 to R241). -/
theorem texture_open {c : Ctx} {d r useSampler named tl s taps t} {y : Nat} {s1 : State} (h1 : r.toNat % 2 = 0) (h2 : c.em ≠ 0) (hl : (laneList c.em).isEmpty = false)
    (h3 : s.accHeld (s.viewOf c.gid c.g) [(0, c.g.sget r.toNat)] = false)
    (h4 : s.multiErr (s.viewOf c.gid c.g) ((laneList c.em).map fun l => (l, c.g.sget r.toNat)) 32 (misaligned 32 ((laneList c.em).map fun l => (l, c.g.sget r.toNat))) = none)
    (hp : s.peerMiss c.core (s.accSnap (s.viewOf c.gid c.g) 32 [(0, c.g.sget r.toNat)]) = none)
    (h5 : s.readNow (s.viewOf c.gid c.g) 0 (c.g.sget r.toNat) 32 = some (y, s1)) (h6 : texDesc y = some t)
    (hn : named (c.g.sget (r.toNat + 1)) = true) (h7 : useSampler = false ∨ samplerOk (c.g.sget (r.toNat + 1)) = true) :
    c.texture d r useSampler named tl s taps =
      (let n := (texBlock t.fmt).2
       let work := (laneList c.em).map fun l => (l, tapsOf t l (taps t (c.g.sget (r.toNat + 1)) l))
       let es := work.flatMap fun w => (List.range w.2.1.length).map fun i => (w.1, w.2.1.getD i 0, Dst.raw (w.1 * 4096 + i))
       c.gfxLoads (s.viewOf c.gid c.g) n es (misaligned n (es.map fun e => (e.1, e.2.1))) ((laneList c.em).map fun l => (l, c.g.sget r.toNat)) tl
                  (some (.tex d.toNat (work.map fun w => (w.1, w.2.2)))) s1) := by
  simp only [Ctx.texture]
  rw [if_neg (by simp [h1]), if_neg (by simp [hl]), if_neg (by simp [h3]), h4]
  have hf : texFields y = some t := by
    unfold texDesc at h6
    split at h6
    · cases h6
    · exact (Option.filter_eq_some_iff.1 h6).1
  have ho : ((texDesc y).isNone || (useSampler && !samplerOk (c.g.sget (r.toNat + 1)))) = false := by
    rcases h7 with h | h <;> simp [h, h6]
  simp only [Ctx.peerRead, AccKind.writes, hp, h5, hf, hn, Bool.not_true, ho, Bool.false_eq_true, if_false]

end Sys2Proof.Machine
end

