-- ==== Sys2Proof/Laws/Decode.lean ====
section
/-! SUPPORT. Every field's decoding undoes its encoding (R51 to R62). -/

namespace Sys2Proof

@[simp] theorem IType.ofCode_code (t : IType) : IType.ofCode t.code = t := by cases t <;> rfl
@[simp] theorem FType.ofCode_code (t : FType) : FType.ofCode t.code = t := by cases t <;> rfl
@[simp] theorem Rnd.ofCode_code (t : Rnd) : Rnd.ofCode t.code = t := by cases t <;> rfl
@[simp] theorem ICond.ofCode_code (t : ICond) : ICond.ofCode t.code = t := by cases t <;> rfl
@[simp] theorem FCond.ofCode_code (t : FCond) : FCond.ofCode t.code = t := by cases t <;> rfl
@[simp] theorem PkFmt.ofCode_code (t : PkFmt) : PkFmt.ofCode t.code = .ok t := by cases t <;> rfl
@[simp] theorem ScFmt.ofCode_code (t : ScFmt) : ScFmt.ofCode t.code = .ok t := by cases t <;> rfl
@[simp] theorem MTest.ofCode_code (t : MTest) : MTest.ofCode t.code = .ok t := by cases t <;> rfl
@[simp] theorem FoldOp.ofCode_code (t : FoldOp) : FoldOp.ofCode t.code = .ok t := by cases t <;> rfl
@[simp] theorem FoldTy.ofCode_code (t : FoldTy) : FoldTy.ofCode t.code = .ok t := by cases t <;> rfl
@[simp] theorem LpMode.ofCode_code (t : LpMode) : LpMode.ofCode t.code = .ok t := by cases t <;> rfl
@[simp] theorem Policy.ofCode_code (t : Policy) : Policy.ofCode t.code = .ok t := by cases t <;> rfl
@[simp] theorem Width.ofCode_code (t : Width) : Width.ofCode t.code = .ok t := by cases t <;> rfl
@[simp] theorem Scope.ofCode_code (t : Scope) : Scope.ofCode t.code = t := by cases t <;> rfl
@[simp] theorem Hint.ofCode_code (t : Hint) : Hint.ofCode t.code = t := by cases t <;> rfl
@[simp] theorem AtomOp.ofCode_code (t : AtomOp) : AtomOp.ofCode t.code = t := by cases t <;> rfl
@[simp] theorem FatomOp.ofCode_code (t : FatomOp) : FatomOp.ofCode t.code = .ok t := by cases t <;> rfl
@[simp] theorem ConvTarget.ofCode_code (t : ConvTarget) : ConvTarget.ofCode t.code = .ok t := by cases t <;> rfl
@[simp] theorem Space.ofCode_code (t : Space) : Space.ofCode t.code = .ok t := by cases t <;> rfl
@[simp] theorem DepthFn.ofCode_code (t : DepthFn) : DepthFn.ofCode t.code = .ok t := by cases t <;> rfl
@[simp] theorem Cull.ofCode_code (t : Cull) : Cull.ofCode t.code = .ok t := by cases t <;> rfl
@[simp] theorem EngineQ.ofCode_code (t : EngineQ) : EngineQ.ofCode t.code = .ok t := by cases t <;> rfl
@[simp] theorem Special.ofNum_num (k : Special) : Special.ofNum k.num = some k := by cases k <;> rfl

@[simp] theorem CvtSrc.ofCode_code (t : CvtSrc) : CvtSrc.ofCode t.code = .ok t := by
  cases t with
  | int t => cases t <;> rfl
  | _ => rfl

theorem Special.num_ne_lid (k : Special) : k.num ≠ 10#5 := by cases k <;> decide

@[simp] theorem Operand.ofField_field (o : Operand) : Operand.ofField o.field = .ok o := by
  cases o with
  | v r rt => revert r rt; decide
  | q k rt => revert k rt; decide
  | s r => revert r; decide
  | sp k => cases k <;> decide
  | lid rt => revert rt; decide
  | const i => revert i; decide

@[simp] theorem Dest.ofField_field (d : Dest) : Dest.ofField d.field = .ok d := by
  cases d with
  | v r => revert r; decide
  | keep => rfl
  | s r => revert r; decide
  | sp k => cases k <;> rfl

@[simp] theorem tailOf_field (t : Tail) : tailOf (tailField t) = .ok t := by
  cases t with
  | none => rfl
  | some n => revert n; decide

@[simp] theorem slotOf_field (n : BitVec 3) : slotOf (1#1 ++ n) = .ok n := by revert n; decide

@[simp] theorem destS_field (r : BitVec 5) : destS (Dest.s r).field = .ok r := by revert r; decide
@[simp] theorem destV_field (r : BitVec 6) : destV (Dest.v r).field = .ok r := by revert r; decide

@[simp] theorem destSOrNone_field (d : Option (BitVec 5)) : destSOrNone (destSOrNoneField d) = .ok d := by
  cases d with
  | none => rfl
  | some r => revert r; decide

@[simp] theorem opS_field (r : BitVec 5) : opS (opSField r) = .ok r := by revert r; decide
@[simp] theorem opS_sfield (r : BitVec 5) : opS (Operand.s r).field = .ok r := by revert r; decide

@[simp] theorem opSOrZero_field (b : Option (BitVec 5)) : opSOrZero (opSOrZeroField b) = .ok b := by
  cases b with
  | none => rfl
  | some r => revert r; decide

@[simp] theorem MaskOp.ofField_field (m : MaskOp) : MaskOp.ofField m.field = .ok m := by
  cases m with
  | s r => revert r; decide
  | all => rfl

/-- A ring's counter is 0 to 2. -/
theorem AccField.ofField_field (x : AccField) (h : x.ok = true) : AccField.ofField x.field = .ok x := by
  obtain ⟨b, r⟩ := x
  cases r with
  | none => revert b; decide
  | some p =>
    obtain ⟨r, lc⟩ := p
    revert b r lc
    decide

theorem constField_parts (i : BitVec 6) : (constField i).extractLsb' 10 2 = 3#2 ∧ (constField i).extractLsb' 0 4 = 0#4 ∧
    (constField i).extractLsb' 4 6 = i := by revert i; decide

theorem constLe_field (n : Nat) (i : BitVec 6) (h : i.toNat ≤ n) : constLe n (constField i) = .ok i := by
  obtain ⟨h1, h2, h3⟩ := constField_parts i
  simp [constLe, h1, h2, h3, h]

/-- A word's fields are those it was made of. -/
theorem Fields.ofWord_word (f : Fields) : Fields.ofWord f.word = f := by
  obtain ⟨op, md, dst, a, b, c, tail⟩ := f
  simp only [Fields.ofWord, Fields.word, Fields.mk.injEq]
  refine ⟨?_, ?_, ?_, ?_, ?_, ?_, ?_⟩ <;>
    (apply BitVec.eq_of_getLsbD_eq
     intro i hi
     simp only [BitVec.getLsbD_extractLsb', BitVec.getLsbD_append, hi, decide_true, Bool.true_and]
     split_ifs <;> first | omega | rfl | (congr 1; omega))

@[simp] theorem modBits_hi (hi : BitVec 3) (mid : Bool) (lo : BitVec 2) : (modBits hi mid lo).extractLsb' 3 3 = hi := by
  revert hi mid lo; decide
@[simp] theorem modBits_mid (hi : BitVec 3) (mid : Bool) (lo : BitVec 2) : (modBits hi mid lo).getLsbD 2 = mid := by
  revert hi mid lo; decide
@[simp] theorem modBits_lo (hi : BitVec 3) (mid : Bool) (lo : BitVec 2) : (modBits hi mid lo).extractLsb' 0 2 = lo := by
  revert hi mid lo; decide
@[simp] theorem modBits_low3 (hi : BitVec 3) : (modBits hi false 0#2).extractLsb' 0 3 = 0#3 := by revert hi; decide
@[simp] theorem imm_parts (x : BitVec 24) : x.extractLsb' 12 12 ++ x.extractLsb' 0 12 = x := by
  apply BitVec.eq_of_getLsbD_eq
  intro i hi
  simp only [BitVec.getLsbD_append, BitVec.getLsbD_extractLsb']
  split_ifs with h
  · simp [h]
  · have : i - 12 < 12 := by omega
    simp [this]; congr 1; omega

@[simp] theorem ok_bind {α β : Type} (x : α) (k : α → Dec β) : (Except.ok x >>= k) = k x := rfl

@[simp] theorem modBits_mid' (hi : BitVec 3) (mid : Bool) (lo : BitVec 2) : (modBits hi mid lo)[2] = mid := by
  revert hi mid lo; decide

@[simp] theorem tailField_none : tailField none = 0#4 := rfl
@[simp] theorem hint_hi (x : BitVec 2) (k : BitVec 4) : (k ++ x).extractLsb' 2 4 = k := by revert x k; decide
@[simp] theorem hint_lo (x : BitVec 2) (k : BitVec 4) : (k ++ x).extractLsb' 0 2 = x := by revert x k; decide
@[simp] theorem codes_hi (x y : BitVec 3) : (x ++ y).extractLsb' 3 3 = x := by revert x y; decide
@[simp] theorem codes_lo (x y : BitVec 3) : (x ++ y).extractLsb' 0 3 = y := by revert x y; decide
@[simp] theorem planes_hi (x y : BitVec 6) : (x ++ y).extractLsb' 6 6 = x := by revert x y; decide
@[simp] theorem planes_lo (x y : BitVec 6) : (x ++ y).extractLsb' 0 6 = y := by revert x y; decide
@[simp] theorem window_lo (w : BitVec 2) : (0#6 ++ w).extractLsb' 0 2 = w := by revert w; decide
theorem window_small (w : BitVec 2) : (0#6 ++ w).toNat < 4 := by revert w; decide
theorem index3_small (x : BitVec 3) : (0#3 ++ x).toNat ≤ 7 := by revert x; decide
theorem index2_small (x : BitVec 2) : (0#4 ++ x).toNat ≤ 3 := by revert x; decide
theorem fold_parts (x : BitVec 3) (y : BitVec 2) (z : Bool) :
    (x ++ y ++ BitVec.ofBool z).extractLsb' 3 3 = x ∧ (x ++ y ++ BitVec.ofBool z).extractLsb' 1 2 = y ∧
      (x ++ y ++ BitVec.ofBool z)[0] = z := by revert x y z; decide
theorem sat_set (x y : Bool) :
    (BitVec.ofBool x ++ BitVec.ofBool y)[0] = y ∧ (BitVec.ofBool x ++ BitVec.ofBool y)[1] = x := by revert x y; decide
theorem routed_parts (g : BitVec 6) (rt : BitVec 4) :
    (Operand.v g rt).field.extractLsb' 10 2 = 0#2 ∧ (Operand.v g rt).field.extractLsb' 4 6 = g ∧
      (Operand.v g rt).field.extractLsb' 0 4 = rt := by revert g rt; decide
@[simp] theorem cvBits_lo (cv : CvAttach) (lo : BitVec 2) : (cvBits cv lo).extractLsb' 0 2 = lo := by
  cases cv with
  | none => revert lo; decide
  | some n => revert n lo; decide

/-- The attachment of a tile instruction's word. -/
theorem cvOf_cvBits (cv : CvAttach) (lo : BitVec 2) (f : Fields) (h : f.md = cvBits cv lo) : cvOf f = .ok cv := by
  cases cv with
  | none => simp [cvOf, Fields.m50, Fields.m3, h, cvBits]
  | some n => simp [cvOf, Fields.m50, Fields.m3, h, cvBits]

@[simp] theorem tailOf_zero : tailOf 0#4 = .ok none := rfl
@[simp] theorem constLe_index3 (x : BitVec 3) : constLe 7 (constField (0#3 ++ x)) = .ok (0#3 ++ x) :=
  constLe_field 7 _ (index3_small x)
@[simp] theorem index3_lo (x : BitVec 3) : (0#3 ++ x).extractLsb' 0 3 = x := by revert x; decide
@[simp] theorem constLe_index2 (x : BitVec 2) : constLe 3 (constField (0#4 ++ x)) = .ok (0#4 ++ x) :=
  constLe_field 3 _ (index2_small x)
@[simp] theorem index2_lo (x : BitVec 2) : (0#4 ++ x).extractLsb' 0 2 = x := by revert x; decide
@[simp] theorem routing_hi (n : BitVec 3) : (0#3 ++ n).extractLsb' 3 3 = 0#3 := by revert n; decide
@[simp] theorem entry_hi (e : BitVec 16) : (0#8 ++ e).extractLsb' 16 8 = 0#8 := by
  rw [BitVec.extractLsb'_append_eq_left]
@[simp] theorem entry_lo (e : BitVec 16) : (0#8 ++ e).extractLsb' 0 16 = e := by
  rw [BitVec.extractLsb'_append_eq_right]
@[simp] theorem mstat_hi (n k : BitVec 3) : (n ++ k).extractLsb' 3 3 = n := codes_hi n k

/-- A check that finds nothing wrong has its condition. -/
theorem chk_none {b : Bool} {e : WfError} (h : chk b e = none) : b = true := by
  cases b
  · simp [chk, firstErr] at h
  · rfl

/-- The parts of a trellis modifier. -/
theorem trellis_parts (w : BitVec 2) (k2 hi : Bool) (lo : BitVec 2) :
    (w ++ BitVec.ofBool k2 ++ BitVec.ofBool hi ++ lo).extractLsb' 4 2 = w ∧
      (w ++ BitVec.ofBool k2 ++ BitVec.ofBool hi ++ lo)[3] = k2 ∧
      (w ++ BitVec.ofBool k2 ++ BitVec.ofBool hi ++ lo)[2] = hi ∧
      (w ++ BitVec.ofBool k2 ++ BitVec.ofBool hi ++ lo).extractLsb' 0 2 = lo := by revert w k2 hi lo; decide

theorem Dest.s_field_nonzero (r : BitVec 5) : (Dest.s r).field ≠ 0#8 := by revert r; decide

/-- A source code's low bits name it in both conversion opcodes. -/
theorem cvt_source (src : CvtSrc) (k : BitVec 6) : CvtSrc.ofCode ((k ++ src.code).extractLsb' 0 4) = .ok src := by
  rw [BitVec.extractLsb'_append_eq_right]
  exact CvtSrc.ofCode_code src

/-- The low modifier bit of mfold is clear. -/
theorem mfold_parts (x : BitVec 3) (y : BitVec 2) :
    (x ++ y ++ 0#1).extractLsb' 3 3 = x ∧ (x ++ y ++ 0#1).extractLsb' 1 2 = y ∧ (x ++ y ++ 0#1)[0] = false := by
  revert x y; decide

/-- The field of an S register or a constant is not zero. -/
theorem sOrConst_field {o : Operand} (h : sOrConst o = true) : o.field ≠ 0#12 := by
  cases o with
  | s r => revert r; decide
  | const i => revert i; decide
  | _ => simp [sOrConst] at h

end Sys2Proof
end

