-- ==== Sys2Proof/Laws/Exec.lean ====
section
/-! SUPPORT. Executing an instruction is its meaning: one lemma per constructor, so that no proof unfolds the dispatch. -/

namespace Sys2Proof.Machine

@[simp] theorem exec_iadd (t : IType) (d : Dest) (a b : Operand) (tl : Tail) (s : State) : exec (.iadd t d a b tl) s = execIadd t d a b tl s := rfl
@[simp] theorem exec_isub (t : IType) (d : Dest) (a b : Operand) (tl : Tail) (s : State) : exec (.isub t d a b tl) s = execIsub t d a b tl s := rfl
@[simp] theorem exec_imul (t : IType) (sat : Bool) (d : Dest) (a b : Operand) (tl : Tail) (s : State) : exec (.imul t sat d a b tl) s = execImul t sat d a b tl s := rfl
@[simp] theorem exec_imulhi (t : IType) (d : Dest) (a b : Operand) (tl : Tail) (s : State) : exec (.imulhi t d a b tl) s = execImulhi t d a b tl s := rfl
@[simp] theorem exec_imad (t : IType) (sat : Bool) (d : Dest) (a b c : Operand) (tl : Tail) (s : State) : exec (.imad t sat d a b c tl) s = execImad t sat d a b c tl s := rfl
@[simp] theorem exec_idiv (t : IType) (sat : Bool) (d : Dest) (a b : Operand) (tl : Tail) (s : State) : exec (.idiv t sat d a b tl) s = execIdiv t sat d a b tl s := rfl
@[simp] theorem exec_irem (t : IType) (d : Dest) (a b : Operand) (tl : Tail) (s : State) : exec (.irem t d a b tl) s = execIrem t d a b tl s := rfl
@[simp] theorem exec_ineg (t : IType) (sat : Bool) (d : Dest) (a : Operand) (tl : Tail) (s : State) : exec (.ineg t sat d a tl) s = execIneg t sat d a tl s := rfl
@[simp] theorem exec_iabs (t : IType) (sat : Bool) (d : Dest) (a : Operand) (tl : Tail) (s : State) : exec (.iabs t sat d a tl) s = execIabs t sat d a tl s := rfl
@[simp] theorem exec_imin (t : IType) (d : Dest) (a b : Operand) (tl : Tail) (s : State) : exec (.imin t d a b tl) s = execImin t d a b tl s := rfl
@[simp] theorem exec_imax (t : IType) (d : Dest) (a b : Operand) (tl : Tail) (s : State) : exec (.imax t d a b tl) s = execImax t d a b tl s := rfl
@[simp] theorem exec_iaddsat (t : IType) (d : Dest) (a b : Operand) (tl : Tail) (s : State) : exec (.iaddsat t d a b tl) s = execIaddsat t d a b tl s := rfl
@[simp] theorem exec_isubsat (t : IType) (d : Dest) (a b : Operand) (tl : Tail) (s : State) : exec (.isubsat t d a b tl) s = execIsubsat t d a b tl s := rfl
@[simp] theorem exec_iclamp (t : IType) (d : Dest) (a b c : Operand) (tl : Tail) (s : State) : exec (.iclamp t d a b c tl) s = execIclamp t d a b c tl s := rfl
@[simp] theorem exec_add64 (t : IType) (d : Dest) (a b : Operand) (tl : Tail) (s : State) : exec (.add64 t d a b tl) s = execAdd64 t d a b tl s := rfl
@[simp] theorem exec_lea (t : IType) (d : Dest) (a b : Operand) (sh : BitVec 3) (tl : Tail) (s : State) : exec (.lea t d a b sh tl) s = execLea t d a b sh tl s := rfl
@[simp] theorem exec_dot4 (t : IType) (sat : Bool) (d : Dest) (a b c : Operand) (tl : Tail) (s : State) : exec (.dot4 t sat d a b c tl) s = execDot4 t sat d a b c tl s := rfl
@[simp] theorem exec_icmp (t : IType) (cond : ICond) (a b : Operand) (tl : Tail) (s : State) : exec (.icmp t cond a b tl) s = execIcmp t cond a b tl s := rfl
@[simp] theorem exec_and (t : IType) (d : Dest) (a b : Operand) (tl : Tail) (s : State) : exec (.and t d a b tl) s = execAnd t d a b tl s := rfl
@[simp] theorem exec_or (t : IType) (d : Dest) (a b : Operand) (tl : Tail) (s : State) : exec (.or t d a b tl) s = execOr t d a b tl s := rfl
@[simp] theorem exec_xor (t : IType) (d : Dest) (a b : Operand) (tl : Tail) (s : State) : exec (.xor t d a b tl) s = execXor t d a b tl s := rfl
@[simp] theorem exec_not (t : IType) (d : Dest) (a : Operand) (tl : Tail) (s : State) : exec (.not t d a tl) s = execNot t d a tl s := rfl
@[simp] theorem exec_andn (t : IType) (d : Dest) (a b : Operand) (tl : Tail) (s : State) : exec (.andn t d a b tl) s = execAndn t d a b tl s := rfl
@[simp] theorem exec_shl (t : IType) (d : Dest) (a b : Operand) (tl : Tail) (s : State) : exec (.shl t d a b tl) s = execShl t d a b tl s := rfl
@[simp] theorem exec_shr (t : IType) (d : Dest) (a b : Operand) (tl : Tail) (s : State) : exec (.shr t d a b tl) s = execShr t d a b tl s := rfl
@[simp] theorem exec_sar (t : IType) (d : Dest) (a b : Operand) (tl : Tail) (s : State) : exec (.sar t d a b tl) s = execSar t d a b tl s := rfl
@[simp] theorem exec_rot (t : IType) (d : Dest) (a b : Operand) (tl : Tail) (s : State) : exec (.rot t d a b tl) s = execRot t d a b tl s := rfl
@[simp] theorem exec_popc (t : IType) (d : Dest) (a : Operand) (tl : Tail) (s : State) : exec (.popc t d a tl) s = execPopc t d a tl s := rfl
@[simp] theorem exec_clz (t : IType) (d : Dest) (a : Operand) (tl : Tail) (s : State) : exec (.clz t d a tl) s = execClz t d a tl s := rfl
@[simp] theorem exec_ctz (t : IType) (d : Dest) (a : Operand) (tl : Tail) (s : State) : exec (.ctz t d a tl) s = execCtz t d a tl s := rfl
@[simp] theorem exec_brev (t : IType) (d : Dest) (a : Operand) (tl : Tail) (s : State) : exec (.brev t d a tl) s = execBrev t d a tl s := rfl
@[simp] theorem exec_bfx (t : IType) (d : Dest) (a b c : Operand) (tl : Tail) (s : State) : exec (.bfx t d a b c tl) s = execBfx t d a b c tl s := rfl
@[simp] theorem exec_bfi (d : Dest) (a b c : Operand) (tl : Tail) (s : State) : exec (.bfi d a b c tl) s = execBfi d a b c tl s := rfl
@[simp] theorem exec_perm8 (d : Dest) (a b c : Operand) (tl : Tail) (s : State) : exec (.perm8 d a b c tl) s = execPerm8 d a b c tl s := rfl
@[simp] theorem exec_sel (t : IType) (d : Dest) (a b : Operand) (tl : Tail) (s : State) : exec (.sel t d a b tl) s = execSel t d a b tl s := rfl
@[simp] theorem exec_mov (t : IType) (d : Dest) (a : Operand) (tl : Tail) (s : State) : exec (.mov t d a tl) s = execMov t d a tl s := rfl
@[simp] theorem exec_movi (t : IType) (d : Dest) (imm : BitVec 24) (tl : Tail) (s : State) : exec (.movi t d imm tl) s = execMovi t d imm tl s := rfl
@[simp] theorem exec_lit (t : IType) (d : Dest) (a : Operand) (imm : BitVec 24) (tl : Tail) (s : State) : exec (.lit t d a imm tl) s = execLit t d a imm tl s := rfl
@[simp] theorem exec_fadd (t : FType) (sat : Bool) (rnd : Rnd) (d : Dest) (a b : Operand) (tl : Tail) (s : State) : exec (.fadd t sat rnd d a b tl) s = execFadd t sat rnd d a b tl s := rfl
@[simp] theorem exec_fsub (t : FType) (sat : Bool) (rnd : Rnd) (d : Dest) (a b : Operand) (tl : Tail) (s : State) : exec (.fsub t sat rnd d a b tl) s = execFsub t sat rnd d a b tl s := rfl
@[simp] theorem exec_fmul (t : FType) (sat : Bool) (rnd : Rnd) (d : Dest) (a b : Operand) (tl : Tail) (s : State) : exec (.fmul t sat rnd d a b tl) s = execFmul t sat rnd d a b tl s := rfl
@[simp] theorem exec_ffma (t : FType) (sat : Bool) (rnd : Rnd) (d : Dest) (a b c : Operand) (tl : Tail) (s : State) : exec (.ffma t sat rnd d a b c tl) s = execFfma t sat rnd d a b c tl s := rfl
@[simp] theorem exec_fmin (t : FType) (num : Bool) (d : Dest) (a b : Operand) (tl : Tail) (s : State) : exec (.fmin t num d a b tl) s = execFmin t num d a b tl s := rfl
@[simp] theorem exec_fmax (t : FType) (num : Bool) (d : Dest) (a b : Operand) (tl : Tail) (s : State) : exec (.fmax t num d a b tl) s = execFmax t num d a b tl s := rfl
@[simp] theorem exec_fcmp (t : FType) (cond : FCond) (a b : Operand) (tl : Tail) (s : State) : exec (.fcmp t cond a b tl) s = execFcmp t cond a b tl s := rfl
@[simp] theorem exec_fclass (t : FType) (d : Dest) (a : Operand) (tl : Tail) (s : State) : exec (.fclass t d a tl) s = execFclass t d a tl s := rfl
@[simp] theorem exec_frcp (t : FType) (sat : Bool) (rnd : Rnd) (d : Dest) (a : Operand) (tl : Tail) (s : State) : exec (.frcp t sat rnd d a tl) s = execFrcp t sat rnd d a tl s := rfl
@[simp] theorem exec_frsq (t : FType) (sat : Bool) (rnd : Rnd) (d : Dest) (a : Operand) (tl : Tail) (s : State) : exec (.frsq t sat rnd d a tl) s = execFrsq t sat rnd d a tl s := rfl
@[simp] theorem exec_fsqrt (t : FType) (sat : Bool) (rnd : Rnd) (d : Dest) (a : Operand) (tl : Tail) (s : State) : exec (.fsqrt t sat rnd d a tl) s = execFsqrt t sat rnd d a tl s := rfl
@[simp] theorem exec_fdiv (t : FType) (sat : Bool) (rnd : Rnd) (d : Dest) (a b : Operand) (tl : Tail) (s : State) : exec (.fdiv t sat rnd d a b tl) s = execFdiv t sat rnd d a b tl s := rfl
@[simp] theorem exec_fexp2 (t : FType) (d : Dest) (a : Operand) (tl : Tail) (s : State) : exec (.fexp2 t d a tl) s = execFexp2 t d a tl s := rfl
@[simp] theorem exec_flog2 (t : FType) (d : Dest) (a : Operand) (tl : Tail) (s : State) : exec (.flog2 t d a tl) s = execFlog2 t d a tl s := rfl
@[simp] theorem exec_fsinpi (t : FType) (d : Dest) (a : Operand) (tl : Tail) (s : State) : exec (.fsinpi t d a tl) s = execFsinpi t d a tl s := rfl
@[simp] theorem exec_fcospi (t : FType) (d : Dest) (a : Operand) (tl : Tail) (s : State) : exec (.fcospi t d a tl) s = execFcospi t d a tl s := rfl
@[simp] theorem exec_ftanh (t : FType) (d : Dest) (a : Operand) (tl : Tail) (s : State) : exec (.ftanh t d a tl) s = execFtanh t d a tl s := rfl
@[simp] theorem exec_frnd (t : FType) (rnd : Rnd) (d : Dest) (a : Operand) (tl : Tail) (s : State) : exec (.frnd t rnd d a tl) s = execFrnd t rnd d a tl s := rfl
@[simp] theorem exec_ffrac (t : FType) (d : Dest) (a : Operand) (tl : Tail) (s : State) : exec (.ffrac t d a tl) s = execFfrac t d a tl s := rfl
@[simp] theorem exec_fldexp (t : FType) (sat : Bool) (rnd : Rnd) (d : Dest) (a b : Operand) (tl : Tail) (s : State) : exec (.fldexp t sat rnd d a b tl) s = execFldexp t sat rnd d a b tl s := rfl
@[simp] theorem exec_fgetexp (t : FType) (d : Dest) (a : Operand) (tl : Tail) (s : State) : exec (.fgetexp t d a tl) s = execFgetexp t d a tl s := rfl
@[simp] theorem exec_fgetmant (t : FType) (d : Dest) (a : Operand) (tl : Tail) (s : State) : exec (.fgetmant t d a tl) s = execFgetmant t d a tl s := rfl
@[simp] theorem exec_hadd2 (t : FType) (sat : Bool) (rnd : Rnd) (d : Dest) (a b : Operand) (tl : Tail) (s : State) : exec (.hadd2 t sat rnd d a b tl) s = execHadd2 t sat rnd d a b tl s := rfl
@[simp] theorem exec_hmul2 (t : FType) (sat : Bool) (rnd : Rnd) (d : Dest) (a b : Operand) (tl : Tail) (s : State) : exec (.hmul2 t sat rnd d a b tl) s = execHmul2 t sat rnd d a b tl s := rfl
@[simp] theorem exec_hfma2 (t : FType) (sat : Bool) (rnd : Rnd) (d : Dest) (a b c : Operand) (tl : Tail) (s : State) : exec (.hfma2 t sat rnd d a b c tl) s = execHfma2 t sat rnd d a b c tl s := rfl
@[simp] theorem exec_fdot2 (t : FType) (sat : Bool) (rnd : Rnd) (d : Dest) (a b c : Operand) (tl : Tail) (s : State) : exec (.fdot2 t sat rnd d a b c tl) s = execFdot2 t sat rnd d a b c tl s := rfl
@[simp] theorem exec_fabs (t : FType) (d : Dest) (a : Operand) (tl : Tail) (s : State) : exec (.fabs t d a tl) s = execFabs t d a tl s := rfl
@[simp] theorem exec_fneg (t : FType) (d : Dest) (a : Operand) (tl : Tail) (s : State) : exec (.fneg t d a tl) s = execFneg t d a tl s := rfl
@[simp] theorem exec_fclamp (t : FType) (d : Dest) (a b c : Operand) (tl : Tail) (s : State) : exec (.fclamp t d a b c tl) s = execFclamp t d a b c tl s := rfl
@[simp] theorem exec_cvtToInteger (src : CvtSrc) (t : IType) (sat : Bool) (rnd : Rnd) (d : Dest) (a : Operand) (tl : Tail) (s : State) : exec (.cvtToInteger src t sat rnd d a tl) s = execCvtToInteger src t sat rnd d a tl s := rfl
@[simp] theorem exec_cvtToFloat (src : CvtSrc) (t : FType) (sat : Bool) (rnd : Rnd) (d : Dest) (a : Operand) (tl : Tail) (s : State) : exec (.cvtToFloat src t sat rnd d a tl) s = execCvtToFloat src t sat rnd d a tl s := rfl
@[simp] theorem exec_pk (fmt : PkFmt) (sat : Bool) (rnd : Rnd) (d : Dest) (a b : Operand) (c : BitVec 2) (tl : Tail) (s : State) : exec (.pk fmt sat rnd d a b c tl) s = execPk fmt sat rnd d a b c tl s := rfl
@[simp] theorem exec_unpk (fmt : PkFmt) (d : Dest) (a : Operand) (c : BitVec 3) (tl : Tail) (s : State) : exec (.unpk fmt d a c tl) s = execUnpk fmt d a c tl s := rfl
@[simp] theorem exec_scaleq (fmt : ScFmt) (rnd : Rnd) (d : Dest) (a : Operand) (m : MaskOp) (tl : Tail) (s : State) : exec (.scaleq fmt rnd d a m tl) s = execScaleq fmt rnd d a m tl s := rfl
@[simp] theorem exec_mtest (op : MTest) (d : Dest) (a : Operand) (m : MaskOp) (tl : Tail) (s : State) : exec (.mtest op d a m tl) s = execMtest op d a m tl s := rfl
@[simp] theorem exec_mbits (d : Dest) (a : Operand) (m : MaskOp) (tl : Tail) (s : State) : exec (.mbits d a m tl) s = execMbits d a m tl s := rfl
@[simp] theorem exec_mfold (op : FoldOp) (ty : FoldTy) (d : Dest) (a : Operand) (m : MaskOp) (tl : Tail) (s : State) : exec (.mfold op ty d a m tl) s = execMfold op ty d a m tl s := rfl
@[simp] theorem exec_scan (op : FoldOp) (ty : FoldTy) (ex : Bool) (d : Dest) (a : Operand) (m : MaskOp) (tl : Tail) (s : State) : exec (.scan op ty ex d a m tl) s = execScan op ty ex d a m tl s := rfl
@[simp] theorem exec_lperm (mode : LpMode) (d : Dest) (a b : Operand) (m : MaskOp) (tl : Tail) (s : State) : exec (.lperm mode d a b m tl) s = execLperm mode d a b m tl s := rfl
@[simp] theorem exec_mpeers (wide : Bool) (d : Dest) (a : Operand) (m : MaskOp) (tl : Tail) (s : State) : exec (.mpeers wide d a m tl) s = execMpeers wide d a m tl s := rfl
@[simp] theorem exec_mlow (d : Dest) (m : MaskOp) (tl : Tail) (s : State) : exec (.mlow d m tl) s = execMlow d m tl s := rfl
@[simp] theorem exec_lsync (m : MaskOp) (tl : Tail) (s : State) : exec (.lsync m tl) s = execLsync m tl s := rfl
@[simp] theorem exec_twld (pol : Policy) (w : BitVec 2) (base : Option (BitVec 5)) (off : BitVec 12) (tl : Tail) (s : State) : exec (.twld pol w base off tl) s = execTwld pol w base off tl s := rfl
@[simp] theorem exec_twst (pol : Policy) (w : BitVec 2) (base : Option (BitVec 5)) (off : BitVec 12) (tl : Tail) (s : State) : exec (.twst pol w base off tl) s = execTwst pol w base off tl s := rfl
@[simp] theorem exec_tdec (w : BitVec 2) (k2 hi : Bool) (fmt : TdecFmt) (d : Dest) (a : Operand) (tl : Tail) (s : State) : exec (.tdec w k2 hi fmt d a tl) s = execTdec w k2 hi fmt d a tl s := rfl
@[simp] theorem exec_tdec2 (w : BitVec 2) (k2 hi : Bool) (fmt : Tdec2Fmt) (d : Dest) (a : Operand) (tl : Tail) (s : State) : exec (.tdec2 w k2 hi fmt d a tl) s = execTdec2 w k2 hi fmt d a tl s := rfl
@[simp] theorem exec_ensave (d : BitVec 5) (tl : Tail) (s : State) : exec (.ensave d tl) s = execEnsave d tl s := rfl
@[simp] theorem exec_enrest (a : Operand) (tl : Tail) (s : State) : exec (.enrest a tl) s = execEnrest a tl s := rfl
@[simp] theorem exec_enand (a : Operand) (tl : Tail) (s : State) : exec (.enand a tl) s = execEnand a tl s := rfl
@[simp] theorem exec_enor (a : Operand) (tl : Tail) (s : State) : exec (.enor a tl) s = execEnor a tl s := rfl
@[simp] theorem exec_enandn (a : Operand) (tl : Tail) (s : State) : exec (.enandn a tl) s = execEnandn a tl s := rfl
@[simp] theorem exec_cmget (d : BitVec 6) (tl : Tail) (s : State) : exec (.cmget d tl) s = execCmget d tl s := rfl
@[simp] theorem exec_cmset (a : Operand) (tl : Tail) (s : State) : exec (.cmset a tl) s = execCmset a tl s := rfl
@[simp] theorem exec_setab (a b c : Operand) (tl : Tail) (s : State) : exec (.setab a b c tl) s = execSetab a b c tl s := rfl
@[simp] theorem exec_setrt (n : BitVec 3) (e : BitVec 16) (tl : Tail) (s : State) : exec (.setrt n e tl) s = execSetrt n e tl s := rfl
@[simp] theorem exec_bra (h : Hint) (off : BitVec 24) (s : State) : exec (.bra h off) s = execBra h off s := rfl
@[simp] theorem exec_brc (c : BrcCond) (h : Hint) (off : BitVec 24) (s : State) : exec (.brc c h off) s = execBrc c h off s := rfl
@[simp] theorem exec_bru (c : BruCond) (h : Hint) (off : BitVec 24) (s : State) : exec (.bru c h off) s = execBru c h off s := rfl
@[simp] theorem exec_call (link : BitVec 5) (h : Hint) (off : BitVec 24) (s : State) : exec (.call link h off) s = execCall link h off s := rfl
@[simp] theorem exec_ret (a : Operand) (s : State) : exec (.ret a) s = execRet a s := rfl
@[simp] theorem exec_jmpi (a : Operand) (s : State) : exec (.jmpi a) s = execJmpi a s := rfl
@[simp] theorem exec_calli (d : Dest) (a : Operand) (s : State) : exec (.calli d a) s = execCalli d a s := rfl
@[simp] theorem exec_loop (n : BitVec 2) (off : BitVec 24) (s : State) : exec (.loop n off) s = execLoop n off s := rfl
@[simp] theorem exec_spawn (d : BitVec 6) (a b c : Operand) (s : State) : exec (.spawn d a b c) s = execSpawn d a b c s := rfl
@[simp] theorem exec_trap (imm : BitVec 24) (s : State) : exec (.trap imm) s = execTrap imm s := rfl
@[simp] theorem exec_brk (code : BitVec 6) (s : State) : exec (.brk code) s = execBrk code s := rfl
@[simp] theorem exec_sleep (n : BitVec 24) (s : State) : exec (.sleep n) s = execSleep n s := rfl
@[simp] theorem exec_illegalOpcode (word : W64) (s : State) : exec (.illegalOpcode word) s = execIllegalOpcode word s := rfl
@[simp] theorem exec_ld (wd : Width) (sx : Bool) (pol : Policy) (d : BitVec 6) (base index : Operand) (off : BitVec 12) (tl : Tail) (s : State) : exec (.ld wd sx pol d base index off tl) s = execLd wd sx pol d base index off tl s := rfl
@[simp] theorem exec_st (wd : Width) (pol : Policy) (src : Dest) (base index : Operand) (off : BitVec 12) (tl : Tail) (s : State) : exec (.st wd pol src base index off tl) s = execSt wd pol src base index off tl s := rfl
@[simp] theorem exec_ldsc (wd : Width) (sx : Bool) (pol : Policy) (d : BitVec 5) (base : Option (BitVec 5)) (index : Option Operand) (off : BitVec 12) (tl : Tail) (s : State) : exec (.ldsc wd sx pol d base index off tl) s = execLdsc wd sx pol d base index off tl s := rfl
@[simp] theorem exec_ldp (pol : Policy) (d : BitVec 6) (base : BitVec 5) (xy : Operand) (c2 c3 : BitVec 6) (tl : Tail) (s : State) : exec (.ldp pol d base xy c2 c3 tl) s = execLdp pol d base xy c2 c3 tl s := rfl
@[simp] theorem exec_stp (pol : Policy) (src : Dest) (base : BitVec 5) (xy : Operand) (c2 c3 : BitVec 6) (tl : Tail) (s : State) : exec (.stp pol src base xy c2 c3 tl) s = execStp pol src base xy c2 c3 tl s := rfl
@[simp] theorem exec_prefetch (pol : Policy) (base index : Operand) (off : BitVec 12) (s : State) : exec (.prefetch pol base index off) s = execPrefetch pol base index off s := rfl
@[simp] theorem exec_cwb (sel : LineSel) (tl : Tail) (s : State) : exec (.cwb sel tl) s = execCwb sel tl s := rfl
@[simp] theorem exec_cinv (sel : LineSel) (tl : Tail) (s : State) : exec (.cinv sel tl) s = execCinv sel tl s := rfl
@[simp] theorem exec_aconv (tgt : ConvTarget) (d : Dest) (a : Operand) (s : State) : exec (.aconv tgt d a) s = execAconv tgt d a s := rfl
@[simp] theorem exec_aclass (sp : Space) (a : Operand) (s : State) : exec (.aclass sp a) s = execAclass sp a s := rfl
@[simp] theorem exec_atom (op : AtomOp) (d : BitVec 6) (base x : Operand) (off : BitVec 12) (tl : Tail) (s : State) : exec (.atom op d base x off tl) s = execAtom op d base x off tl s := rfl
@[simp] theorem exec_atomCas (d : BitVec 6) (a b c : Operand) (tl : Tail) (s : State) : exec (.atomCas d a b c tl) s = execAtomCas d a b c tl s := rfl
@[simp] theorem exec_fatom (op : FatomOp) (d : BitVec 6) (base x : Operand) (off : BitVec 12) (tl : Tail) (s : State) : exec (.fatom op d base x off tl) s = execFatom op d base x off tl s := rfl
@[simp] theorem exec_ctrAdd (rel : Option Scope) (base : Option (BitVec 5)) (x : Operand) (off : BitVec 12) (tl : Tail) (s : State) : exec (.ctrAdd rel base x off tl) s = execCtrAdd rel base x off tl s := rfl
@[simp] theorem exec_ctrWait (acq : Bool) (t : BitVec 3) (d : Option (BitVec 5)) (base : Option (BitVec 5)) (x : Operand) (off : BitVec 12) (slot : BitVec 3) (s : State) : exec (.ctrWait acq t d base x off slot) s = execCtrWait acq t d base x off slot s := rfl
@[simp] theorem exec_ctrRd (d : BitVec 5) (base : Option (BitVec 5)) (off : BitVec 12) (tl : Tail) (s : State) : exec (.ctrRd d base off tl) s = execCtrRd d base off tl s := rfl
@[simp] theorem exec_phase (sc : Scope) (tl : Tail) (s : State) : exec (.phase sc tl) s = execPhase sc tl s := rfl
@[simp] theorem exec_phaseP (sc : Scope) (tl : Tail) (s : State) : exec (.phaseP sc tl) s = execPhaseP sc tl s := rfl
@[simp] theorem exec_phaseS (tl : Tail) (s : State) : exec (.phaseS tl) s = execPhaseS tl s := rfl
@[simp] theorem exec_lfence (sc : Scope) (tl : Tail) (s : State) : exec (.lfence sc tl) s = execLfence sc tl s := rfl
@[simp] theorem exec_sign (n : BitVec 3) (a b : Operand) (slot : BitVec 3) (s : State) : exec (.sign n a b slot) s = execSign n a b slot s := rfl
@[simp] theorem exec_mma (cv : BitVec 3) (set sat : Bool) (acc : AccField) (b c : BitVec 5) (tl : Tail) (s : State) : exec (.mma cv set sat acc b c tl) s = execMma cv set sat acc b c tl s := rfl
@[simp] theorem exec_mmas (cv : BitVec 3) (set sat : Bool) (acc : AccField) (b c : BitVec 5) (tl : Tail) (s : State) : exec (.mmas cv set sat acc b c tl) s = execMmas cv set sat acc b c tl s := rfl
@[simp] theorem exec_mmt (cv : BitVec 3) (set sat : Bool) (acc : AccField) (b c : BitVec 5) (tl : Tail) (s : State) : exec (.mmt cv set sat acc b c tl) s = execMmt cv set sat acc b c tl s := rfl
@[simp] theorem exec_mzero (cv : CvAttach) (acc : AccField) (tl : Tail) (s : State) : exec (.mzero cv acc tl) s = execMzero cv acc tl s := rfl
@[simp] theorem exec_mld (cv : CvAttach) (acc : AccField) (b : BitVec 5) (tl : Tail) (s : State) : exec (.mld cv acc b tl) s = execMld cv acc b tl s := rfl
@[simp] theorem exec_mrd (n : BitVec 3) (d : BitVec 6) (acc : AccField) (c0 : Operand) (tl : Tail) (s : State) : exec (.mrd n d acc c0 tl) s = execMrd n d acc c0 tl s := rfl
@[simp] theorem exec_mdrain (cv : CvAttach) (rnd : Rnd) (acc : AccField) (b : BitVec 5) (tl : Tail) (s : State) : exec (.mdrain cv rnd acc b tl) s = execMdrain cv rnd acc b tl s := rfl
@[simp] theorem exec_mdraint (cv : CvAttach) (rnd : Rnd) (acc : AccField) (b c : BitVec 5) (tl : Tail) (s : State) : exec (.mdraint cv rnd acc b c tl) s = execMdraint cv rnd acc b c tl s := rfl
@[simp] theorem exec_mchk (cv : CvAttach) (acc : AccField) (b c : BitVec 5) (tl : Tail) (s : State) : exec (.mchk cv acc b c tl) s = execMchk cv acc b c tl s := rfl
@[simp] theorem exec_mstat (item : MstatItem) (tl : Tail) (s : State) : exec (.mstat item tl) s = execMstat item tl s := rfl
@[simp] theorem exec_mrel (n : BitVec 3) (s : State) : exec (.mrel n) s = execMrel n s := rfl
@[simp] theorem exec_attr (mode : AttrMode) (d : BitVec 6) (a b : Operand) (tl : Tail) (s : State) : exec (.attr mode d a b tl) s = execAttr mode d a b tl s := rfl
@[simp] theorem exec_vbld (n : BitVec 2) (d : BitVec 6) (a : BitVec 5) (b : Operand) (tl : Tail) (s : State) : exec (.vbld n d a b tl) s = execVbld n d a b tl s := rfl
@[simp] theorem exec_prim (df : DepthFn) (cov : Option (BitVec 5)) (cull : Cull) (a b : Operand) (tl : Tail) (s : State) : exec (.prim df cov cull a b tl) s = execPrim df cov cull a b tl s := rfl
@[simp] theorem exec_sample (d : BitVec 6) (a : Operand) (b : BitVec 5) (c : Operand) (tl : Tail) (s : State) : exec (.sample d a b c tl) s = execSample d a b c tl s := rfl
@[simp] theorem exec_sampleg (d : BitVec 6) (a : Operand) (b : BitVec 5) (g : BitVec 6) (rt : BitVec 4) (tl : Tail) (s : State) : exec (.sampleg d a b g rt tl) s = execSampleg d a b g rt tl s := rfl
@[simp] theorem exec_texld (d : BitVec 6) (a : Operand) (b : BitVec 5) (c : Operand) (tl : Tail) (s : State) : exec (.texld d a b c tl) s = execTexld d a b c tl s := rfl
@[simp] theorem exec_hit (a b : Operand) (s : State) : exec (.hit a b) s = execHit a b s := rfl
@[simp] theorem exec_tretNext (d : BitVec 5) (a : Operand) (slot : BitVec 3) (s : State) : exec (.tretNext d a slot) s = execTretNext d a slot s := rfl
@[simp] theorem exec_tretDone (tl : Tail) (s : State) : exec (.tretDone tl) s = execTretDone tl s := rfl
@[simp] theorem exec_covw (a : Operand) (s : State) : exec (.covw a) s = execCovw a s := rfl
@[simp] theorem exec_xpushXc (d : Option (BitVec 5)) (n : BitVec 5) (tl : Tail) (s : State) : exec (.xpushXc d n tl) s = execXpushXc d n tl s := rfl
@[simp] theorem exec_xpushXe (d : Option (BitVec 5)) (n : BitVec 5) (tl : Tail) (s : State) : exec (.xpushXe d n tl) s = execXpushXe d n tl s := rfl
@[simp] theorem exec_xpushXt (d : Option (BitVec 5)) (k : BitVec 6) (sp : BitVec 5) (tl : Tail) (s : State) : exec (.xpushXt d k sp tl) s = execXpushXt d k sp tl s := rfl
@[simp] theorem exec_xpopXt (d : BitVec 6) (slot : BitVec 3) (s : State) : exec (.xpopXt d slot) s = execXpopXt d slot s := rfl
@[simp] theorem exec_xpopXe (d : BitVec 5) (slot : BitVec 3) (s : State) : exec (.xpopXe d slot) s = execXpopXe d slot s := rfl
@[simp] theorem exec_xpopXm (d : BitVec 5) (slot : BitVec 3) (s : State) : exec (.xpopXm d slot) s = execXpopXm d slot s := rfl
@[simp] theorem exec_xstat (q : EngineQ) (d : BitVec 5) (s : State) : exec (.xstat q d) s = execXstat q d s := rfl
@[simp] theorem exec_csrr (d : Dest) (csr : BitVec 24) (s : State) : exec (.csrr d csr) s = execCsrr d csr s := rfl
@[simp] theorem exec_csrw (csr : BitVec 24) (a : Operand) (s : State) : exec (.csrw csr a) s = execCsrw csr a s := rfl
@[simp] theorem exec_syscNote (a : Operand) (tl : Tail) (s : State) : exec (.syscNote a tl) s = execSyscNote a tl s := rfl
@[simp] theorem exec_syscKill (a : Operand) (tl : Tail) (s : State) : exec (.syscKill a tl) s = execSyscKill a tl s := rfl
@[simp] theorem exec_dbgr (d : BitVec 5) (a : Tailed Operand) (s : State) : exec (.dbgr d a) s = execDbgr d a s := rfl
@[simp] theorem exec_dbgw (a : Operand) (b : Tailed Operand) (s : State) : exec (.dbgw a b) s = execDbgw a b s := rfl
@[simp] theorem exec_iinv (a : BitVec 5) (b : Tailed (BitVec 5)) (s : State) : exec (.iinv a b) s = execIinv a b s := rfl
@[simp] theorem exec_clauseStart (core : Nat) (s : State) : exec (.clauseStart core) s = execClauseStart core s := rfl
@[simp] theorem exec_dwellBreak (gid : Nat) (s : State) : exec (.dwellBreak gid) s = execDwellBreak gid s := rfl
@[simp] theorem exec_convergenceTimeout (gid : Nat) (hdr : W64) (s : State) : exec (.convergenceTimeout gid hdr) s = execConvergenceTimeout gid hdr s := rfl
@[simp] theorem exec_sleepEnd (gid : Nat) (s : State) : exec (.sleepEnd gid) s = execSleepEnd gid s := rfl
@[simp] theorem exec_asyncComplete (op : Nat) (s : State) : exec (.asyncComplete op) s = execAsyncComplete op s := rfl
@[simp] theorem exec_exitDrainingEnd (gid : Nat) (s : State) : exec (.exitDrainingEnd gid) s = execExitDrainingEnd gid s := rfl
@[simp] theorem exec_binTimeExpiry (core bin : Nat) (s : State) : exec (.binTimeExpiry core bin) s = execBinTimeExpiry core bin s := rfl
@[simp] theorem exec_spawnedGroupStart (core bin : Nat) (s : State) : exec (.spawnedGroupStart core bin) s = execSpawnedGroupStart core bin s := rfl
@[simp] theorem exec_blockPlacement (launch : Nat) (cores : List Nat) (s : State) : exec (.blockPlacement launch cores) s = execBlockPlacement launch cores s := rfl
@[simp] theorem exec_tileAccessPerformed (gid : Nat) (s : State) : exec (.tileAccessPerformed gid) s = execTileAccessPerformed gid s := rfl
@[simp] theorem exec_atomicAtHome (req : Nat) (s : State) : exec (.atomicAtHome req) s = execAtomicAtHome req s := rfl
@[simp] theorem exec_remoteAccess (req : Nat) (s : State) : exec (.remoteAccess req) s = execRemoteAccess req s := rfl
@[simp] theorem exec_storeAck (req : Nat) (s : State) : exec (.storeAck req) s = execStoreAck req s := rfl
@[simp] theorem exec_publishComplete (pub : Nat) (s : State) : exec (.publishComplete pub) s = execPublishComplete pub s := rfl
@[simp] theorem exec_counterAdditionAtHome (req : Nat) (s : State) : exec (.counterAdditionAtHome req) s = execCounterAdditionAtHome req s := rfl
@[simp] theorem exec_ctrWaitComplete (w : Nat) (s : State) : exec (.ctrWaitComplete w) s = execCtrWaitComplete w s := rfl
@[simp] theorem exec_ctrWaitTimeout (w : Nat) (s : State) : exec (.ctrWaitTimeout w) s = execCtrWaitTimeout w s := rfl
@[simp] theorem exec_matrixOpStart (core : Nat) (ctx : Nat) (s : State) : exec (.matrixOpStart core ctx) s = execMatrixOpStart core ctx s := rfl
@[simp] theorem exec_matrixOpComplete (core : Nat) (ctx : Nat) (s : State) : exec (.matrixOpComplete core ctx) s = execMatrixOpComplete core ctx s := rfl
@[simp] theorem exec_matrixCheckTrap (gid : Nat) (s : State) : exec (.matrixCheckTrap gid) s = execMatrixCheckTrap gid s := rfl
@[simp] theorem exec_matrixContextEnd (blk : Nat) (s : State) : exec (.matrixContextEnd blk) s = execMatrixContextEnd blk s := rfl
@[simp] theorem exec_rayRecordReady (ray : Nat) (s : State) : exec (.rayRecordReady ray) s = execRayRecordReady ray s := rfl
@[simp] theorem exec_eviction (blk : Nat) (s : State) : exec (.eviction blk) s = execEviction blk s := rfl
@[simp] theorem exec_blockResume (blk core : Nat) (s : State) : exec (.blockResume blk core) s = execBlockResume blk core s := rfl
@[simp] theorem exec_copyJobStart (job engine : Nat) (s : State) : exec (.copyJobStart job engine) s = execCopyJobStart job engine s := rfl
@[simp] theorem exec_granuleLanded (job : Nat) (s : State) : exec (.granuleLanded job) s = execGranuleLanded job s := rfl
@[simp] theorem exec_copyJobComplete (job : Nat) (s : State) : exec (.copyJobComplete job) s = execCopyJobComplete job s := rfl
@[simp] theorem exec_encoderJob (die : Nat) (s : State) : exec (.encoderJob die) s = execEncoderJob die s := rfl
@[simp] theorem exec_encoderJobComplete (job : Nat) (s : State) : exec (.encoderJobComplete job) s = execEncoderJobComplete job s := rfl
@[simp] theorem exec_tileWrite (die ap : Nat) (s : State) : exec (.tileWrite die ap) s = execTileWrite die ap s := rfl
@[simp] theorem exec_meshGroupStart (launch : Nat) (core : Nat) (s : State) : exec (.meshGroupStart launch core) s = execMeshGroupStart launch core s := rfl
@[simp] theorem exec_primitiveBin (prim : Nat) (s : State) : exec (.primitiveBin prim) s = execPrimitiveBin prim s := rfl
@[simp] theorem exec_listAppend (slot prim : Nat) (s : State) : exec (.listAppend slot prim) s = execListAppend slot prim s := rfl
@[simp] theorem exec_tilePassGrant (slot : Nat) (s : State) : exec (.tilePassGrant slot) s = execTilePassGrant slot s := rfl
@[simp] theorem exec_startSequence (slot tile : Nat) (s : State) : exec (.startSequence slot tile) s = execStartSequence slot tile s := rfl
@[simp] theorem exec_coverageVerdictWrite (slot tile : Nat) (s : State) : exec (.coverageVerdictWrite slot tile) s = execCoverageVerdictWrite slot tile s := rfl
@[simp] theorem exec_retirementComplete (blk : Nat) (s : State) : exec (.retirementComplete blk) s = execRetirementComplete blk s := rfl
@[simp] theorem exec_nodeComplete (launch : Nat) (s : State) : exec (.nodeComplete launch) s = execNodeComplete launch s := rfl
@[simp] theorem exec_commandStart (q : Nat) (s : State) : exec (.commandStart q) s = execCommandStart q s := rfl
@[simp] theorem exec_nopCommand (q c : Nat) (s : State) : exec (.nopCommand q c) s = execNopCommand q c s := rfl
@[simp] theorem exec_launch (q c : Nat) (first count : Nat) (s : State) : exec (.launch q c first count) s = execLaunch q c first count s := rfl
@[simp] theorem exec_signal (q c : Nat) (va value : W64) (s : State) : exec (.signal q c va value) s = execSignal q c va value s := rfl
@[simp] theorem exec_wait (q c : Nat) (va target : W64) (s : State) : exec (.wait q c va target) s = execWait q c va target s := rfl
@[simp] theorem exec_rpass (q c : Nat) (slot : Nat) (va : W64) (s : State) : exec (.rpass q c slot va) s = execRpass q c slot va s := rfl
@[simp] theorem exec_rpend (q c : Nat) (slot : Nat) (s : State) : exec (.rpend q c slot) s = execRpend q c slot s := rfl
@[simp] theorem exec_preempt (q c : Nat) (victim : Nat) (off : W64) (s : State) : exec (.preempt q c victim off) s = execPreempt q c victim off s := rfl
@[simp] theorem exec_shootdown (q c : Nat) (va len : W64) (s : State) : exec (.shootdown q c va len) s = execShootdown q c va len s := rfl
@[simp] theorem exec_migrate (q c : Nat) (va len : W64) (s : State) : exec (.migrate q c va len) s = execMigrate q c va len s := rfl
@[simp] theorem exec_release (q c : Nat) (va len : W64) (s : State) : exec (.release q c va len) s = execRelease q c va len s := rfl
@[simp] theorem exec_gang (q c : Nat) (first count : Nat) (k1 k2 k3 : W64) (s : State) : exec (.gang q c first count k1 k2 k3) s = execGang q c first count k1 k2 k3 s := rfl
@[simp] theorem exec_kill (q c : Nat) (value : W64) (s : State) : exec (.kill q c value) s = execKill q c value s := rfl
@[simp] theorem exec_debugSampling (q c : Nat) (k1 k2 : W64) (s : State) : exec (.debugSampling q c k1 k2) s = execDebugSampling q c k1 k2 s := rfl
@[simp] theorem exec_debugRing (q c : Nat) (k1 k2 : W64) (s : State) : exec (.debugRing q c k1 k2) s = execDebugRing q c k1 k2 s := rfl
@[simp] theorem exec_debugBreakpoints (q c : Nat) (k1 k2 : W64) (s : State) : exec (.debugBreakpoints q c k1 k2) s = execDebugBreakpoints q c k1 k2 s := rfl
@[simp] theorem exec_debugPredicate (q c : Nat) (k1 k2 : W64) (s : State) : exec (.debugPredicate q c k1 k2) s = execDebugPredicate q c k1 k2 s := rfl
@[simp] theorem exec_debugL2Watch (q c : Nat) (k1 k2 : W64) (s : State) : exec (.debugL2Watch q c k1 k2) s = execDebugL2Watch q c k1 k2 s := rfl
@[simp] theorem exec_debugResume (q c : Nat) (k1 k2 : W64) (s : State) : exec (.debugResume q c k1 k2) s = execDebugResume q c k1 k2 s := rfl
@[simp] theorem exec_debugReadState (q c : Nat) (k1 k2 : W64) (s : State) : exec (.debugReadState q c k1 k2) s = execDebugReadState q c k1 k2 s := rfl
@[simp] theorem exec_debugWriteState (q c : Nat) (k1 k2 : W64) (s : State) : exec (.debugWriteState q c k1 k2) s = execDebugWriteState q c k1 k2 s := rfl
@[simp] theorem exec_aperture (q c : Nat) (die ap : Nat) (ctl vbase size pbase dim : W64) (s : State) : exec (.aperture q c die ap ctl vbase size pbase dim) s = execAperture q c die ap ctl vbase size pbase dim s := rfl
@[simp] theorem exec_attest (q c : Nat) (nonce report : W64) (s : State) : exec (.attest q c nonce report) s = execAttest q c nonce report s := rfl
@[simp] theorem exec_eventPost (q : Nat) (s : State) : exec (.eventPost q) s = execEventPost q s := rfl
@[simp] theorem exec_firmwareEvent (core : Nat) (s : State) : exec (.firmwareEvent core) s = execFirmwareEvent core s := rfl
@[simp] theorem exec_pcSample (core : Nat) (s : State) : exec (.pcSample core) s = execPcSample core s := rfl
@[simp] theorem exec_memorySample (core : Nat) (s : State) : exec (.memorySample core) s = execMemorySample core s := rfl
@[simp] theorem exec_predicateResult (gid : Nat) (s : State) : exec (.predicateResult gid) s = execPredicateResult gid s := rfl
@[simp] theorem exec_capacityRefreshRecord (core : Nat) (s : State) : exec (.capacityRefreshRecord core) s = execCapacityRefreshRecord core s := rfl
@[simp] theorem exec_debugRecord (die : Nat) (s : State) : exec (.debugRecord die) s = execDebugRecord die s := rfl
@[simp] theorem exec_orderGate (req : Nat) (s : State) : exec (.orderGate req) s = execOrderGate req s := rfl
@[simp] theorem exec_gateTimeout (req : Nat) (s : State) : exec (.gateTimeout req) s = execGateTimeout req s := rfl
@[simp] theorem exec_peerAccessFail (req : Nat) (s : State) : exec (.peerAccessFail req) s = execPeerAccessFail req s := rfl
@[simp] theorem exec_contributionArrival (die : Nat) (contrib : Nat) (s : State) : exec (.contributionArrival die contrib) s = execContributionArrival die contrib s := rfl
@[simp] theorem exec_mergeHoldExpiry (die : Nat) (entry : Nat) (s : State) : exec (.mergeHoldExpiry die entry) s = execMergeHoldExpiry die entry s := rfl
@[simp] theorem exec_reductionFlush (pub : Nat) (s : State) : exec (.reductionFlush pub) s = execReductionFlush pub s := rfl
@[simp] theorem exec_reductionAck (contrib : Nat) (s : State) : exec (.reductionAck contrib) s = execReductionAck contrib s := rfl
@[simp] theorem exec_goTime (tag : Nat) (s : State) : exec (.goTime tag) s = execGoTime tag s := rfl
@[simp] theorem exec_armTimeout (tag : Nat) (s : State) : exec (.armTimeout tag) s = execArmTimeout tag s := rfl
@[simp] theorem exec_startedDeadline (tag : Nat) (s : State) : exec (.startedDeadline tag) s = execStartedDeadline tag s := rfl
@[simp] theorem exec_gangReleaseTimeout (tag : Nat) (s : State) : exec (.gangReleaseTimeout tag) s = execGangReleaseTimeout tag s := rfl
@[simp] theorem exec_mirageDeadline (surface : Nat) (s : State) : exec (.mirageDeadline surface) s = execMirageDeadline surface s := rfl
@[simp] theorem exec_vsync (surface : Nat) (s : State) : exec (.vsync surface) s = execVsync surface s := rfl
@[simp] theorem exec_writeBackAtHome (wb : Nat) (s : State) : exec (.writeBackAtHome wb) s = execWriteBackAtHome wb s := rfl
@[simp] theorem exec_exit (s : State) : exec .exit s = execExit s := rfl
@[simp] theorem exec_rtt (s : State) : exec .rtt s = execRtt s := rfl
@[simp] theorem exec_halt (s : State) : exec .halt s = execHalt s := rfl
@[simp] theorem exec_yield (s : State) : exec .yield s = execYield s := rfl
@[simp] theorem exec_nop (s : State) : exec .nop s = execNop s := rfl
@[simp] theorem exec_deviceLevelError (s : State) : exec .deviceLevelError s = execDeviceLevelError s := rfl
@[simp] theorem exec_timeLock (s : State) : exec .timeLock s = execTimeLock s := rfl
@[simp] theorem exec_tailWrite (q : Nat) (x : W64) (size : Nat) (aligned : Bool) (s : State) : exec (.tailWrite q x size aligned) s = execTailWrite q x size aligned s := rfl
@[simp] theorem exec_semRead (n : Nat) (port0 port1 : Bool) (s : State) : exec (.semRead n port0 port1) s = execSemRead n port0 port1 s := rfl
@[simp] theorem exec_semWrite (n : Nat) (port : Nat) (value : W64) (s : State) : exec (.semWrite n port value) s = execSemWrite n port value s := rfl
@[simp] theorem exec_evheadWrite (q : Nat) (value : W64) (s : State) : exec (.evheadWrite q value) s = execEvheadWrite q value s := rfl
@[simp] theorem exec_queueEnable (q : Nat) (value : W64) (s : State) : exec (.queueEnable q value) s = execQueueEnable q value s := rfl
@[simp] theorem exec_ndropRead (q : Nat) (s : State) : exec (.ndropRead q) s = execNdropRead q s := rfl
@[simp] theorem exec_mmissRead (surface : Nat) (s : State) : exec (.mmissRead surface) s = execMmissRead surface s := rfl
@[simp] theorem exec_leave (value : W64) (s : State) : exec (.leave value) s = execLeave value s := rfl
@[simp] theorem exec_registerWrite (off : Nat) (value : W64) (s : State) : exec (.registerWrite off value) s = execRegisterWrite off value s := rfl
@[simp] theorem exec_hostWrite (port : Nat) (pa : Nat) (bytes : List Byte) (s : State) : exec (.hostWrite port pa bytes) s = execHostWrite port pa bytes s := rfl
@[simp] theorem exec_hostPortDown (port : Nat) (s : State) : exec (.hostPortDown port) s = execHostPortDown port s := rfl
@[simp] theorem exec_oasisSubstitution (p : WornPart) (s : State) : exec (.oasisSubstitution p) s = execOasisSubstitution p s := rfl
@[simp] theorem exec_firmwareCoreWear (core : Nat) (s : State) : exec (.firmwareCoreWear core) s = execFirmwareCoreWear core s := rfl
@[simp] theorem exec_supplySag (die : Nat) (s : State) : exec (.supplySag die) s = execSupplySag die s := rfl
@[simp] theorem exec_clockStep (die : Nat) (up : Bool) (s : State) : exec (.clockStep die up) s = execClockStep die up s := rfl
@[simp] theorem exec_packageReset (verified : Bool) (l2Vaults : Nat) (s : State) : exec (.packageReset verified l2Vaults) s = execPackageReset verified l2Vaults s := rfl
@[simp] theorem exec_asyncEngineFault (e : EngineRef) (addr : W64) (s : State) : exec (.asyncEngineFault e addr) s = execAsyncEngineFault e addr s := rfl
@[simp] theorem exec_uncorrectableError (u : MemUnit) (die loc : Nat) (accesses : List ErrorAccess) (s : State) : exec (.uncorrectableError u die loc accesses) s = execUncorrectableError u die loc accesses s := rfl
@[simp] theorem exec_softErrorCorrected (u : MemUnit) (die loc : Nat) (s : State) : exec (.softErrorCorrected u die loc) s = execSoftErrorCorrected u die loc s := rfl
@[simp] theorem exec_l2WatchHit (die slice : Nat) (pa : Nat) (write : Bool) (cls unit reqDie : Nat) (s : State) : exec (.l2WatchHit die slice pa write cls unit reqDie) s = execL2WatchHit die slice pa write cls unit reqDie s := rfl
@[simp] theorem exec_laneFailure (port : Nat) (s : State) : exec (.laneFailure port) s = execLaneFailure port s := rfl
@[simp] theorem exec_peerAccess (src : Nat) (fa : Nat) (op : PeerOp) (s : State) : exec (.peerAccess src fa op) s = execPeerAccess src fa op s := rfl
@[simp] theorem exec_timePacket (delta : Int) (pathChanged : Bool) (s : State) : exec (.timePacket delta pathChanged) s = execTimePacket delta pathChanged s := rfl
@[simp] theorem exec_routeChange (src dst port : Nat) (s : State) : exec (.routeChange src dst port) s = execRouteChange src dst port s := rfl
@[simp] theorem exec_packetDrop (cls dst : Nat) (s : State) : exec (.packetDrop cls dst) s = execPacketDrop cls dst s := rfl
@[simp] theorem exec_packageJoin (number : Nat) (routes : List (Nat × Nat)) (s : State) : exec (.packageJoin number routes) s = execPackageJoin number routes s := rfl
@[simp] theorem exec_arm (member : Nat) (k1 k2 k3 hash : W64) (s : State) : exec (.arm member k1 k2 k3 hash) s = execArm member k1 k2 k3 hash s := rfl
@[simp] theorem exec_started (tag : Nat) (member : Nat) (s : State) : exec (.started tag member) s = execStarted tag member s := rfl
@[simp] theorem exec_go (tag : Nat) (time : Nat) (s : State) : exec (.go tag time) s = execGo tag time s := rfl
@[simp] theorem exec_abort (tag : Nat) (s : State) : exec (.abort tag) s = execAbort tag s := rfl
@[simp] theorem exec_miss (tag : Nat) (s : State) : exec (.miss tag) s = execMiss tag s := rfl
@[simp] theorem exec_broken (tag : Nat) (s : State) : exec (.broken tag) s = execBroken tag s := rfl
@[simp] theorem exec_starved (core : Nat) (s : State) : exec (.starved core) s = execStarved core s := rfl

end Sys2Proof.Machine
end

