-- ==== Sys2Proof/Laws/Memory.lean ====
section
/-! SUPPORT. Memory's canonical form: what a byte reads as after a write, and that every operation over memory keeps the form. -/

namespace Sys2Proof.Machine

/-- The form, entry by entry. -/
theorem Memory.wf_cons (a : Nat) (b : Byte) (m : List Host.Cell) :
    Memory.wf ((a, b) :: m) = true ↔ b ≠ unwritten ∧ (∀ e ∈ m.head?, a < e.1) ∧ Memory.wf m = true := by
  cases m with
  | nil => simp [Memory.wf]
  | cons e m =>
    obtain ⟨a', b'⟩ := e
    simp [Memory.wf, Bool.and_eq_true, and_assoc, and_left_comm]

/-- The first entry after a write is the first entry before it, or the written one. -/
theorem Memory.write_head (m : List Host.Cell) (a : Nat) (b : Byte) (k : Nat) (hk : k < a) (h : ∀ e ∈ m.head?, k < e.1)
    (hw : Memory.wf m = true) : ∀ e ∈ (Memory.write m a b).head?, k < e.1 := by
  cases m with
  | nil =>
    intro e he
    unfold Memory.write at he
    split at he
    · simp at he
    · simp at he; subst he; exact hk
  | cons e' rest =>
    obtain ⟨k', x⟩ := e'
    have hk' : k < k' := h (k', x) (by simp)
    rw [Memory.wf_cons] at hw
    intro e he
    unfold Memory.write at he
    split at he
    · split at he
      · exact hk'.trans (hw.2.1 e he)
      · simp at he; subst he; exact hk
    · split at he
      · split at he
        · simp at he; subst he; exact hk'
        · simp at he; subst he; exact hk
      · simp at he; subst he; exact hk'

/-- A write keeps the form. -/
theorem Memory.wf_write (m : List Host.Cell) (a : Nat) (b : Byte) (h : Memory.wf m = true) :
    Memory.wf (Memory.write m a b) = true := by
  induction m with
  | nil =>
    unfold Memory.write
    split
    · rfl
    · next hb => simpa [Memory.wf] using hb
  | cons e rest ih =>
    obtain ⟨k, x⟩ := e
    have hw := (Memory.wf_cons k x rest).1 h
    unfold Memory.write
    split
    · next hk =>
      split
      · exact hw.2.2
      · next hb => exact (Memory.wf_cons ..).2 ⟨hb, hk ▸ hw.2.1, hw.2.2⟩
    · split
      · next hk hlt =>
        split
        · exact h
        · next hb => exact (Memory.wf_cons ..).2 ⟨hb, by simpa using hlt, h⟩
      · next hk hlt =>
        exact (Memory.wf_cons ..).2 ⟨hw.1, Memory.write_head rest a b k (by omega) hw.2.1 hw.2.2, ih hw.2.2⟩

/-- Below the first entry nothing is listed. -/
theorem Memory.read_below (m : List Host.Cell) (a : Nat) (h : ∀ e ∈ m.head?, a < e.1) : Memory.read m a = unwritten := by
  cases m with
  | nil => rfl
  | cons e rest =>
    obtain ⟨k, x⟩ := e
    have : a < k := h (k, x) (by simp)
    unfold Memory.read
    rw [if_neg (by omega), if_pos this]

/-- A byte reads as what was written last. -/
theorem Memory.read_write (m : List Host.Cell) (a b : Nat) (x : Byte) (h : Memory.wf m = true) :
    Memory.read (Memory.write m a x) b = if b = a then x else Memory.read m b := by
  induction m with
  | nil =>
    unfold Memory.write
    by_cases hx : x = unwritten
    · simp [hx, Memory.read]
    · by_cases hb : b = a
      · simp [hx, Memory.read, hb]
      · simp [hx, Memory.read, hb, Ne.symm hb]
  | cons e rest ih =>
    obtain ⟨k, y⟩ := e
    have hw := (Memory.wf_cons k y rest).1 h
    unfold Memory.write
    by_cases hk : k = a
    · subst hk
      rw [if_pos rfl]
      by_cases hb : b = k
      · subst hb
        by_cases hx : x = unwritten
        · rw [if_pos hx, if_pos rfl, Memory.read_below rest b hw.2.1, hx]
        · rw [if_neg hx, if_pos rfl]; simp [Memory.read]
      · rw [if_neg hb]
        by_cases hx : x = unwritten
        · rw [if_pos hx]
          by_cases hlt : b < k
          · rw [Memory.read_below rest b fun e he => hlt.trans (hw.2.1 e he)]
            simp [Memory.read, Ne.symm hb, hlt]
          · simp [Memory.read, Ne.symm hb, hlt]
        · rw [if_neg hx]; simp [Memory.read, Ne.symm hb]
    · rw [if_neg hk]
      by_cases hlt : a < k
      · rw [if_pos hlt]
        by_cases hx : x = unwritten
        · rw [if_pos hx]
          by_cases hb : b = a
          · subst hb; simp [Memory.read, hk, hlt, hx]
          · rw [if_neg hb]
        · rw [if_neg hx]
          by_cases hb : b = a
          · subst hb; simp [Memory.read]
          · rw [if_neg hb]
            by_cases hba : b < a
            · have : k ≠ b := by omega
              have : b < k := by omega
              simp [Memory.read, Ne.symm hb, *]
            · conv_lhs => unfold Memory.read
              rw [if_neg (Ne.symm hb), if_neg hba]
      · rw [if_neg hlt]
        conv_lhs => unfold Memory.read
        by_cases hkb : k = b
        · subst hkb
          rw [if_pos rfl, if_neg hk]; simp [Memory.read]
        · rw [if_neg hkb]
          by_cases hbk : b < k
          · rw [if_pos hbk, if_neg (by omega)]; simp [Memory.read, hkb, hbk]
          · rw [if_neg hbk, ih hw.2.2]; simp [Memory.read, hkb, hbk]

/-- Consecutive writes keep the form. -/
theorem Memory.wf_writes (m : List Host.Cell) (a : Nat) (bs : List Byte) (h : Memory.wf m = true) :
    Memory.wf (Memory.writes m a bs) = true := by
  induction bs generalizing a with
  | nil => exact h
  | cons b bs ih => exact Memory.wf_write _ a b (ih (a + 1))

/-- A write-back keeps the form. -/
theorem wf_writeMasked (m : List Host.Cell) (a : Nat) (mask : BitVec 128) (data : BitVec 1024) (n : Nat)
    (h : Memory.wf m = true) : Memory.wf (writeMasked m a mask data n) = true := by
  induction n with
  | zero => exact h
  | succ n ih =>
    unfold writeMasked
    dsimp only
    split
    · exact Memory.wf_write _ _ _ ih
    · exact ih

/-- A store keeps the form. -/
theorem State.wf_storeBytes (s : State) (a : Nat) (bs : List Byte) (h : Memory.wf s.mem = true) :
    Memory.wf (s.storeBytes a bs).mem = true := Memory.wf_writes _ _ _ h

/-- The memory after reset has the form. -/
theorem State.wf_reset : Memory.wf State.reset.mem = true := rfl

end Sys2Proof.Machine
end

