-- ==== Sys2Proof/Laws/Report.lean ====
section
/-! SUPPORT. What a report changes: the dies' debug rings alone (R369, R376). -/

namespace Sys2Proof.Machine

/-- A record adds to the records of a die, and to nothing else. -/
theorem State.recordAt_cases (s : State) (die type : Nat) (ws loc : List W64) :
    s.recordAt die type ws loc = s ∨ ∃ f, s.recordAt die type ws loc = s.modDie die f := by
  unfold State.recordAt
  split
  · exact .inl rfl
  · exact .inr ⟨_, rfl⟩

/-- An access that reaches a slice changes nothing but the records of its home die. -/
theorem State.l2See_cases (s : State) (a n : Nat) (write : Bool) (who : Nat × Nat) (die : Nat) :
    s.l2See a n write who die = s ∨ ∃ d f, s.l2See a n write who die = s.modDie d f := by
  unfold State.l2See
  split
  · exact .inl rfl
  · split
    · exact .inl rfl
    · unfold State.l2Post State.record
      dsimp only
      split
      · exact .inl rfl
      · obtain h | ⟨f, h⟩ := s.recordAt_cases _ 9 _ [] <;> rw [h]
        · exact .inl rfl
        · exact .inr ⟨_, _, rfl⟩

/-- Memory is as it was. -/
@[simp] theorem State.l2See_mem (s : State) (a n : Nat) (write : Bool) (who : Nat × Nat) (die : Nat) :
    (s.l2See a n write who die).mem = s.mem := by
  obtain h | ⟨d, f, h⟩ := s.l2See_cases a n write who die <;> simp [h]

/-- Groups are as they were. -/
@[simp] theorem State.l2See_groups (s : State) (a n : Nat) (write : Bool) (who : Nat × Nat) (die : Nat) :
    (s.l2See a n write who die).groups = s.groups := by
  obtain h | ⟨d, f, h⟩ := s.l2See_cases a n write who die <;> simp [h]

/-- Cores, with their L1s, are as they were. -/
@[simp] theorem State.l2See_cores (s : State) (a n : Nat) (write : Bool) (who : Nat × Nat) (die : Nat) :
    (s.l2See a n write who die).cores = s.cores := by
  obtain h | ⟨d, f, h⟩ := s.l2See_cases a n write who die <;> simp [h]

/-- Requests on their way are as they were. -/
@[simp] theorem State.l2See_reqs (s : State) (a n : Nat) (write : Bool) (who : Nat × Nat) (die : Nat) :
    (s.l2See a n write who die).reqs = s.reqs := by
  obtain h | ⟨d, f, h⟩ := s.l2See_cases a n write who die <;> simp [h]

/-- The agenda is as it was. -/
@[simp] theorem State.l2See_agenda (s : State) (a n : Nat) (write : Bool) (who : Nat × Nat) (die : Nat) :
    (s.l2See a n write who die).agenda = s.agenda := by
  obtain h | ⟨d, f, h⟩ := s.l2See_cases a n write who die <;> simp [h]

end Sys2Proof.Machine
end

