-- ==== Sys2Proof/Laws/Frame.lean ====
section
/-! SUPPORT. What the operations of an access do to a byte of memory that nothing is on its way to (R161, R171): a load leaves it
as it reads, a store too where the byte is none of its own. -/

namespace Sys2Proof.Machine

/-- A byte of memory reads as x, and nothing from a core's L1 or past the cores is on its way to it; the apertures of the core's die
are A, and P holds of the writes that wait at them. -/
structure Quiet (core b : Nat) (x : Byte) (A : NMap Aperture) (P : ApWrite → Prop) (s : State) : Prop where
  wf : Memory.wf s.mem = true
  idle : s.idleAt core b
  read : Memory.read s.mem b = x
  aps : (s.die (dieOf core)).apertures = A
  apw : ∀ w ∈ (s.die (dieOf core)).apWrites, P w

variable {ws : List W64} {core b : Nat} {x : Byte} {A : NMap Aperture} {P : ApWrite → Prop} {s : State}

/-- What keeps memory, the core's L1 and what is on its way keeps the byte quiet. -/
theorem Quiet.of {t : State} (h : Quiet core b x A P s) (hm : t.mem = s.mem) (hc : (t.core core).l1 = (s.core core).l1)
    (hw : t.wbs = s.wbs) (hr : t.reqs = s.reqs) (hk : t.contribs = s.contribs) (hd : t.dies = s.dies) : Quiet core b x A P t := by
  have he : t.die (dieOf core) = s.die (dieOf core) := by unfold State.die; rw [hd]
  refine ⟨by rw [hm]; exact h.wf, ?_, by rw [hm]; exact h.read, by rw [he]; exact h.aps, by rw [he]; exact h.apw⟩
  obtain ⟨h1, h2, h3, h4⟩ := h.idle
  refine ⟨by rw [hc]; exact h1, by rw [hw]; exact h2, by rw [hr]; exact h3, by rw [hk]; exact h4⟩

theorem State.core_modCore (s : State) (k n : Nat) (f : Core → Core) :
    (s.modCore k f).core n = if n = k then f (s.core k) else s.core n := by
  unfold State.modCore State.core
  exact NMap.get_put ..

theorem State.die_modDie (s : State) (k n : Nat) (f : Die → Die) :
    (s.modDie k f).die n = if n = k then f (s.die k) else s.die n := by
  unfold State.modDie State.die
  exact NMap.get_put ..

/-- A change of a core that leaves no new dirty byte there. -/
theorem Quiet.modCore (h : Quiet core b x A P s) (k : Nat) (f : Core → Core)
    (hf : ∀ c : Core, (∀ e ∈ c.l1, e.1 = b / 128 → e.2.dirty.getLsbD (b % 128) = false) →
      ∀ e ∈ (f c).l1, e.1 = b / 128 → e.2.dirty.getLsbD (b % 128) = false) : Quiet core b x A P (s.modCore k f) := by
  refine ⟨h.wf, ⟨?_, h.idle.2⟩, h.read, h.aps, h.apw⟩
  rw [State.core_modCore]
  split
  · next hk => subst hk; exact hf _ h.idle.1
  · exact h.idle.1

/-- A change of a die that keeps its apertures, and leaves only writes of P at them. -/
theorem Quiet.modDie (h : Quiet core b x A P s) (k : Nat) (f : Die → Die) (ha : ∀ d : Die, (f d).apertures = d.apertures)
    (hp : ∀ d : Die, (∀ w ∈ d.apWrites, P w) → ∀ w ∈ (f d).apWrites, P w) : Quiet core b x A P (s.modDie k f) := by
  refine ⟨h.wf, h.idle, h.read, ?_, ?_⟩ <;> rw [State.die_modDie]
  · split
    · next hk => rw [ha, ← hk]; exact h.aps
    · exact h.aps
  · split
    · next hk => exact hp _ (by rw [← hk]; exact h.apw)
    · exact h.apw
theorem Quiet.modCluster (h : Quiet core b x A P s) (k : Nat) (f : Cluster → Cluster) : Quiet core b x A P (s.modCluster k f) :=
  h.of rfl rfl rfl rfl rfl rfl
theorem Quiet.setGroup (h : Quiet core b x A P s) (k : Nat) (g : Group) : Quiet core b x A P (s.setGroup k g) := h.of rfl rfl rfl rfl rfl rfl
theorem Quiet.modGroup (h : Quiet core b x A P s) (k : Nat) (f : Group → Group) : Quiet core b x A P (s.modGroup k f) := by
  unfold State.modGroup
  split
  · exact h.setGroup _ _
  · exact h
theorem Quiet.pick (h : Quiet core b x A P s) (n : Nat) : Quiet core b x A P (s.pick n).2 := by
  unfold State.pick
  split
  · exact h
  · exact h.of rfl rfl rfl rfl rfl rfl
theorem Quiet.recordAt (h : Quiet core b x A P s) (die type : Nat) (ws loc : List W64) : Quiet core b x A P (s.recordAt die type ws loc) := by
  unfold State.recordAt
  split
  · exact h
  · exact h.modDie _ _ (fun _ => rfl) fun _ hp => hp
theorem Quiet.l2See (h : Quiet core b x A P s) (a n : Nat) (w : Bool) (who : Nat × Nat) (die : Nat) :
    Quiet core b x A P (s.l2See a n w who die) := by
  unfold State.l2See
  split
  · exact h
  · split
    · exact h
    · unfold State.l2Post State.record
      dsimp only
      split
      · exact h
      · exact h.recordAt _ _ _ _
theorem Quiet.settle (h : Quiet core b x A P s) (c : Ctx) (uses : List Use) : Quiet core b x A P (s.settle c uses) := by
  unfold State.settle
  split
  · exact h.modGroup _ _
  · exact h

-- Memory

/-- A write elsewhere. -/
theorem Quiet.mem (h : Quiet core b x A P s) {m : List Host.Cell} (hw : Memory.wf m = true) (hr : Memory.read m b = Memory.read s.mem b) :
    Quiet core b x A P { s with mem := m } := ⟨hw, h.idle, hr.trans h.read, h.aps, h.apw⟩

theorem read_writes (bs : List Byte) : ∀ (a : Nat) (m : List Host.Cell), Memory.wf m = true → ¬ (a ≤ b ∧ b < a + bs.length) →
    Memory.read (Memory.writes m a bs) b = Memory.read m b := by
  induction bs with
  | nil => intros; rfl
  | cons y bs ih =>
    intro a m hw hb
    simp only [List.length_cons] at hb
    show Memory.read (Memory.write (Memory.writes m (a + 1) bs) a y) b = _
    rw [Memory.read_write _ _ _ _ (Memory.wf_writes _ _ _ hw), if_neg (by omega)]
    exact ih _ _ hw (by omega)

theorem Quiet.storeBytes (h : Quiet core b x A P s) (a : Nat) (bs : List Byte) (hb : ¬ (a ≤ b ∧ b < a + bs.length)) :
    Quiet core b x A P (s.storeBytes a bs) := h.mem (Memory.wf_writes _ _ _ h.wf) (read_writes _ _ _ h.wf hb)

theorem natBytes_length (v n : Nat) : (natBytes v n).length = n := by
  induction n generalizing v with
  | zero => rfl
  | succ n ih => simp [natBytes, ih]

theorem read_writeMasked (a : Nat) (mask : BitVec 128) (data : BitVec 1024) (m : List Host.Cell) (hw : Memory.wf m = true) :
    ∀ n, (∀ i < n, mask.getLsbD i = true → b ≠ a + i) → Memory.read (writeMasked m a mask data n) b = Memory.read m b := by
  intro n
  induction n with
  | zero => intros; rfl
  | succ n ih =>
    intro hb
    unfold writeMasked
    dsimp only
    have hi := ih fun i hi => hb i (by omega)
    split
    · next hm =>
      rw [Memory.read_write _ _ _ _ (wf_writeMasked _ _ _ _ _ hw), if_neg (hb n (by omega) hm)]
      exact hi
    · exact hi

-- Write-backs

/-- Write-backs that leave the byte alone are performed one after another. -/
theorem Quiet.performWbs : ∀ (ws : List WriteBack) {s : State}, Quiet core b x A P s → (∀ w ∈ ws, w.line = b / 128 → w.mask.getLsbD (b % 128) = false) →
    Quiet core b x A P (s.performWbs ws) := by
  intro ws
  induction ws with
  | nil => intro s h _; exact h
  | cons w ws ih =>
    intro s h hw
    refine ih ?_ fun y hy => hw y (List.mem_cons_of_mem _ hy)
    have hq : Quiet core b x A P (s.wbSeen w) := by unfold State.wbSeen; exact h.l2See _ _ _ _ _
    refine ⟨wf_writeMasked _ _ _ _ _ h.wf, ⟨hq.idle.1, ?_, hq.idle.2.2⟩, ?_, hq.aps, hq.apw⟩
    · intro y hy; exact h.idle.2.1 y (List.mem_filter.1 hy).1
    · refine (read_writeMasked _ _ _ _ h.wf _ fun i hi hb he => ?_).trans h.read
      have := hw w (List.mem_cons_self ..) (by omega)
      rw [show b % 128 = i by omega, hb] at this
      cases this

theorem Quiet.performOrdered : ∀ (n : Nat) (ws : List WriteBack) {s : State}, Quiet core b x A P s →
    (∀ w ∈ ws, w.line = b / 128 → w.mask.getLsbD (b % 128) = false) → Quiet core b x A P (s.performOrdered n ws) := by
  intro n
  induction n with
  | zero => intro ws s h hw; exact h.performWbs ws hw
  | succ n ih =>
    intro ws s h hw
    unfold State.performOrdered
    split
    · exact h.performWbs ws hw
    · next w hf =>
      refine ih _ ?_ fun y hy => hw y (List.mem_filter.1 hy).1
      exact h.performWbs [w] fun y hy => by
        rw [List.mem_singleton.1 hy]; exact hw w (List.mem_of_find?_eq_some hf)

theorem wbsWith_sub (s : State) : ∀ (n : Nat) (ws : List WriteBack), (∀ w ∈ ws, w ∈ s.wbs) → ∀ w ∈ s.wbsWith n ws, w ∈ s.wbs := by
  intro n
  induction n with
  | zero => intro ws h; exact h
  | succ n ih => intro ws h; exact ih _ fun w hw => (List.mem_filter.1 hw).1

theorem Quiet.performFirst (h : Quiet core b x A P s) (ws : List WriteBack) (hs : ∀ w ∈ ws, w ∈ s.wbs) : Quiet core b x A P (s.performFirst ws) :=
  h.performOrdered _ _ fun w hw => h.idle.2.1 w (wbsWith_sub s _ _ hs w hw)

theorem Quiet.beforeRead (h : Quiet core b x A P s) (k line : Nat) : Quiet core b x A P (s.beforeRead k line) :=
  h.performFirst _ fun _ hw => (List.mem_filter.1 hw).1
theorem Quiet.beforeHit (h : Quiet core b x A P s) (k line : Nat) : Quiet core b x A P (s.beforeHit k line) :=
  h.performFirst _ fun _ hw => (List.mem_filter.1 hw).1
theorem Quiet.beforePort (h : Quiet core b x A P s) (k a n : Nat) : Quiet core b x A P (s.beforePort k a n) := by
  unfold State.beforePort
  split
  · exact h.beforeRead _ _
  · exact (h.beforeRead _ _).beforeRead _ _

theorem Quiet.sendWb (h : Quiet core b x A P s) (k launch line : Nat) (mask : BitVec 128) (data : BitVec 1024) (th : Option Site)
    (hm : line = b / 128 → mask.getLsbD (b % 128) = false) : Quiet core b x A P (s.sendWb k launch line mask data th) := by
  unfold State.sendWb
  split
  · exact h
  · refine ⟨h.wf, ⟨h.idle.1, ?_, h.idle.2.2⟩, h.read, h.aps, h.apw⟩
    intro w hw
    rcases List.mem_append.1 hw with hw | hw
    · exact h.idle.2.1 w hw
    · rw [List.mem_singleton.1 hw]; exact hm

-- The L1

theorem mem_put {α : Type} {m : NMap α} {k : Nat} {v : α} {e : Nat × α} (h : e ∈ NMap.put m k v) : e = (k, v) ∨ e ∈ m := by
  have hi : ∀ m : NMap α, e ∈ NMap.insert m k v → e = (k, v) ∨ e ∈ m := by
    intro m
    induction m with
    | nil => intro h; simpa [NMap.insert] using h
    | cons y ys ih =>
      intro h
      obtain ⟨k', z⟩ := y
      unfold NMap.insert at h
      split at h
      · simpa using h
      · rcases List.mem_cons.1 h with h | h
        · exact .inr (by rw [h]; exact List.mem_cons_self ..)
        · rcases ih h with h | h
          · exact .inl h
          · exact .inr (List.mem_cons_of_mem _ h)
  rcases hi _ h with h | h
  · exact .inl h
  · exact .inr (mem_erase h)
where
  mem_erase {α : Type} {m : NMap α} {k : Nat} {e : Nat × α} (h : e ∈ NMap.erase m k) : e ∈ m := by
    induction m with
    | nil => exact h
    | cons y ys ih =>
      obtain ⟨k', z⟩ := y
      unfold NMap.erase at h
      split at h
      · exact List.mem_cons_of_mem _ (ih h)
      · rcases List.mem_cons.1 h with h | h
        · rw [h]; exact List.mem_cons_self ..
        · exact List.mem_cons_of_mem _ (ih h)

/-- No dirty byte at b in a line list. -/
def Clean (b : Nat) (l1 : NMap L1Line) : Prop := ∀ e ∈ l1, e.1 = b / 128 → e.2.dirty.getLsbD (b % 128) = false

theorem mem_erase {α : Type} {m : NMap α} {k : Nat} {e : Nat × α} (h : e ∈ NMap.erase m k) : e ∈ m := mem_put.mem_erase h

theorem Clean.erase {l1 : NMap L1Line} (h : Clean b l1) (k : Nat) : Clean b (NMap.erase l1 k) := fun e he => h e (mem_erase he)
theorem Clean.filter {l1 : NMap L1Line} (h : Clean b l1) (p : Nat × L1Line → Bool) : Clean b (l1.filter p) :=
  fun e he => h e (List.mem_filter.1 he).1
theorem Clean.put {l1 : NMap L1Line} (h : Clean b l1) (k : Nat) (l : L1Line) (hl : k = b / 128 → l.dirty.getLsbD (b % 128) = false) :
    Clean b (NMap.put l1 k l) := by
  intro e he
  rcases mem_put he with rfl | he
  · exact hl
  · exact h e he
theorem get_cases {α : Type} (d : α) (m : NMap α) (k : Nat) : NMap.get d m k = d ∨ (k, NMap.get d m k) ∈ m := by
  induction m with
  | nil => exact .inl rfl
  | cons y ys ih =>
    obtain ⟨k', z⟩ := y
    unfold NMap.get
    split
    · next hk => subst hk; exact .inr (List.mem_cons_self ..)
    · exact ih.imp id fun h => List.mem_cons_of_mem _ h

/-- The dirty bytes of a line that an L1 names. -/
theorem Clean.line {c : Core} (h : Clean b c.l1) (k : Nat) (hk : k = b / 128) : (c.line k).dirty.getLsbD (b % 128) = false := by
  unfold Core.line
  rcases get_cases freshLine c.l1 k with e | e
  · rw [e]; simp [freshLine]
  · exact h _ e hk

theorem Clean.refresh {c : Core} (h : Clean b c.l1) : Clean b c.refresh.l1 := by
  intro e he hb
  obtain ⟨y, hy, hf⟩ := List.mem_filterMap.1 he
  split at hf
  · cases hf
  · cases hf; exact h y hy hb

theorem Quiet.clean (h : Quiet core b x A P s) : Clean b (s.core core).l1 := h.idle.1

theorem Quiet.modL1 (h : Quiet core b x A P s) (k : Nat) (f : Core → Core) (hf : ∀ c : Core, Clean b c.l1 → Clean b (f c).l1) :
    Quiet core b x A P (s.modCore k f) := h.modCore k f hf

theorem Quiet.evictLine (h : Quiet core b x A P s) (line : Nat) : Quiet core b x A P (s.evictLine core line) := by
  unfold State.evictLine
  split
  · exact h
  · next e he =>
    refine (h.modL1 _ _ fun c hc => hc.erase _).sendWb _ _ _ _ _ _ fun hb => ?_
    refine h.clean e (List.mem_of_find?_eq_some he) ?_
    have := List.find?_some he
    rw [← hb]; simpa using this

theorem Quiet.makeRoom (h : Quiet core b x A P s) (line : Nat) : Quiet core b x A P (s.makeRoom core line) := by
  have h1 : Quiet core b x A P (s.modCore core fun c => { c.refresh with refreshes := c.refreshes + 1 }) :=
    h.modL1 _ _ fun c hc => hc.refresh
  unfold State.makeRoom
  dsimp only
  split
  · exact h
  · split
    · split
      · exact h1
      · exact (h1.pick _).evictLine _
    · exact (h.pick _).evictLine _

theorem Quiet.allocLine (h : Quiet core b x A P s) (line : Nat) : Quiet core b x A P (s.allocLine core line) := by
  unfold State.allocLine
  split
  · exact h
  · exact (h.makeRoom line).modL1 _ _ fun c hc => hc.put _ _ fun _ => by simp [freshLine]

/-- A change of a line that leaves no new dirty byte at b. -/
theorem Quiet.modLine (h : Quiet core b x A P s) (line : Nat) (f : L1Line → L1Line)
    (hf : ∀ l : L1Line, line = b / 128 → l.dirty.getLsbD (b % 128) = false → (f l).dirty.getLsbD (b % 128) = false) :
    Quiet core b x A P (s.modLine core line f) :=
  h.modL1 _ _ fun _ hc => hc.put _ _ fun hb => hf _ hb (hc.line _ hb)

theorem Quiet.l1LoadBy (h : Quiet core b x A P s) (who : Nat × Nat) (pol : Policy) (pa n : Nat) :
    Quiet core b x A P (s.l1LoadBy who core pol pa n).2 := by
  unfold State.l1LoadBy
  dsimp only
  split
  · split
    · dsimp only
      exact (h.beforeHit core (pa / 128)).modLine _ _ fun l hb hl => hl
    · exact h.beforeHit _ _
  · split
    · exact (h.beforeRead _ _).l2See _ _ _ _ _
    · dsimp only
      refine (((h.beforeRead _ _).l2See _ _ _ _ _).allocLine _).modLine _ _ fun l hb hl => ?_
      dsimp only [L1Line.fill]
      split <;> split <;> exact hl

theorem byteMask_clear (pa n : Nat) (hb : ¬ (pa ≤ b ∧ b < pa + n)) (hl : pa / 128 = b / 128) :
    (byteMask (pa % 128) n).getLsbD (b % 128) = false := by
  unfold byteMask
  rw [BitVec.getLsbD_ofNat]
  rw [Nat.mul_comm, Nat.testBit_two_pow_mul]
  by_cases h : pa % 128 ≤ b % 128
  · have : ¬ (b % 128 - pa % 128 < n) := by omega
    rw [Nat.testBit_two_pow_sub_one]; simp [this]
  · simp [h]

theorem Quiet.l1Store (h : Quiet core b x A P s) (launch : Nat) (site : Site) (pol : Policy) (pa n v : Nat)
    (hb : ¬ (pa ≤ b ∧ b < pa + n)) : Quiet core b x A P (s.l1Store core launch site pol pa n v) := by
  unfold State.l1Store
  dsimp only
  split
  · have h1 := h.beforeHit core (pa / 128)
    split
    · exact (h1.modLine _ _ fun l _ hl => by simp [hl]).sendWb _ _ _ _ _ _ (byteMask_clear pa n hb)
    · exact h1.sendWb _ _ _ _ _ _ (byteMask_clear pa n hb)
  · exact ((h.beforeHit core (pa / 128)).allocLine _).modLine _ _ fun l he hl => by
      simp [hl, byteMask_clear pa n hb he]

theorem Quiet.purgeSector (h : Quiet core b x A P s) (launch pa : Nat) : Quiet core b x A P (s.purgeSector core launch pa) := by
  have h1 : Quiet core b x A P (s.cleanLine core launch (pa / 128) (byteMask (pa % 128 / 32 * 32) 32)) := by
    unfold State.cleanLine
    dsimp only
    split
    · exact (h.modLine _ _ fun l _ hl => by simp [hl]).sendWb _ _ _ _ _ _ fun hb => by simp [h.clean.line _ hb]
    · exact h
  unfold State.purgeSector State.dropBytes
  dsimp only
  split
  · refine h1.modL1 _ _ fun c hc => ?_
    dsimp only
    split
    · exact hc.erase _
    · exact hc.put _ _ fun hb => by simp [hc.line _ hb]
  · exact h1

-- Aperture ports

theorem Quiet.portSeen (h : Quiet core b x A P s) (k m off n : Nat) (w : Bool) (who : Nat × Nat) :
    Quiet core b x A P (s.portSeen k m off n w who) := by
  unfold State.portSeen
  split
  · exact h
  · exact h.l2See _ _ _ _ _

theorem Quiet.gatherBytes (k : Nat) : ∀ (as : List Nat) {s : State}, Quiet core b x A P s → Quiet core b x A P (s.gatherBytes k as).2 := by
  intro as
  induction as with
  | nil => intro s h; exact h
  | cons a as ih => intro s h; exact ih (h.beforePort _ _ _)

theorem Quiet.scatterBytes (k : Nat) : ∀ (es : List (Nat × Byte)) {s : State}, Quiet core b x A P s → (∀ e ∈ es, e.1 ≠ b) →
    Quiet core b x A P (s.scatterBytes k es) := by
  intro es
  induction es with
  | nil => intro s h _; exact h
  | cons e es ih =>
    intro s h hb
    refine ih ((h.beforePort _ _ _).storeBytes _ _ ?_) fun y hy => hb y (List.mem_cons_of_mem _ hy)
    have := hb e (List.mem_cons_self ..)
    simp only [List.length_singleton]
    omega

theorem Quiet.fillUnit (h : Quiet core b x A P s) (u : Nat) (e : TlbEntry) : Quiet core b x A P (s.fillUnit u e) := by
  unfold State.fillUnit
  split
  · exact h.modL1 _ _ fun _ hc => hc
  · exact h
theorem Quiet.leaf (h : Quiet core b x A P s) (u asn root va : Nat) : Quiet core b x A P (s.leaf u asn root va).2 := by
  have hw : ∀ (as : List Nat) (s : State), Quiet core b x A P s →
      Quiet core b x A P (as.foldl (fun s a => s.l2See a 8 false (7, if u < 8192 then u % 512 else 0) (unitDie u)) s) := by
    intro as
    induction as with
    | nil => intro s h; exact h
    | cons a as ih => intro s h; exact ih _ (h.l2See _ _ _ _ _)
  unfold State.leaf
  split
  · exact h
  · split
    · exact h.fillUnit _ _
    · dsimp only
      split
      · exact hw _ _ h
      · dsimp only
        exact ((hw _ _ h).fillUnit _ _).modDie _ _ (fun _ => rfl) fun _ hp => hp
theorem Quiet.touchTlb (h : Quiet core b x A P s) (v : View) (l : Nat) (a : W64) : Quiet core b x A P (s.touchTlb v l a) := by
  unfold State.touchTlb State.fillTlb
  split
  · split
    · exact h
    · exact h.leaf _ _ _ _
  · split
    · exact h
    · exact h.leaf _ _ _ _
  · exact h
theorem Quiet.touchTlbs (v : View) (a : Nat → W64) : ∀ (ls : List Nat) {s : State}, Quiet core b x A P s → Quiet core b x A P (s.touchTlbs v a ls) := by
  intro ls
  induction ls with
  | nil => intro s h; exact h
  | cons l ls ih => intro s h; exact ih (h.touchTlb _ _ _)

-- Hashes and samples

theorem Quiet.hashPoint (h : Quiet core b x A P s) (g : Group) (i n : Nat) (pc : W64) (seq : W32) : Quiet core b x A P (s.hashPoint g i n pc seq) := by
  unfold State.hashPoint
  split
  · exact h
  · dsimp only
    repeat' split
    all_goals first
      | exact h
      | exact h.recordAt _ _ _ _
      | exact h.of rfl rfl rfl rfl rfl rfl

theorem Quiet.hashSteps (i k : Nat) : ∀ (n : Nat) {s : State} (g : Group), Quiet core b x A P s → Quiet core b x A P (s.hashSteps i k g n).1 := by
  intro n
  induction n with
  | zero => intro s g h; exact h
  | succ n ih =>
    intro s g h
    unfold State.hashSteps
    split
    · exact h
    · exact ih _ h
    · exact ih _ (h.hashPoint _ _ _ _ _)
    · exact h

theorem Quiet.addHash (h : Quiet core b x A P s) (gid : Nat) (xs : List HashStep) : Quiet core b x A P (s.addHash gid xs) := by
  unfold State.addHash
  split
  · exact h
  · split
    · exact h
    · exact (Quiet.hashSteps _ _ _ _ h).setGroup _ _

theorem Quiet.countAccs (h : Quiet core b x A P s) (c : Ctx) (v : View) (accs : List (Nat × W64 × Nat)) (op : Nat) :
    Quiet core b x A P (s.countAccs c v accs op) := by
  unfold State.countAccs
  split
  · exact h
  · dsimp only
    split <;> exact h.modL1 _ _ fun _ hc => hc

-- Compressed tiles

theorem reads_length (m : List Host.Cell) (a n : Nat) : (Memory.reads m a n).length = n := by
  induction n generalizing a with
  | zero => rfl
  | succ n ih => simp [Memory.reads, ih]

theorem homeBytes_length (s : State) (a n : Nat) : (s.homeBytes a n).length = n := by
  unfold State.homeBytes
  split
  · exact reads_length ..
  · rw [List.length_map, List.length_range]

theorem flatMap_length {α β : Type} (f : α → List β) (n : Nat) (h : ∀ y, (f y).length = n) (l : List α) :
    (l.flatMap f).length = l.length * n := by
  induction l with
  | nil => simp
  | cons y l ih => rw [List.flatMap_cons, List.length_append, ih, h, List.length_cons, Nat.add_mul]; omega

theorem expandTile_length (s : State) (die : Nat) (a : Aperture) (t : Nat) : (s.expandTile die a t).length = 4096 := by
  unfold State.expandTile
  dsimp only
  split
  · exact List.length_replicate ..
  · split
    · exact homeBytes_length ..
    · refine (flatMap_length _ 32 (fun q => ?_) _).trans (by rw [List.length_range])
      split
      · exact homeBytes_length ..
      · exact List.length_replicate ..

theorem compressTile_length (y : List Byte) (h : y.length ≤ 4096) : (compressTile y).2.length ≤ 4096 := by
  have hf : ∀ qs : List Nat, (qs.flatMap fun q => y.drop (32 * q) |>.take 32).length ≤ 32 * qs.length := by
    intro qs
    induction qs with
    | nil => simp
    | cons q qs ih =>
      have : (List.take 32 (List.drop (32 * q) y)).length ≤ 32 := List.length_take_le _ _
      simp only [List.flatMap_cons, List.length_append, List.length_cons]
      omega
  unfold compressTile
  dsimp only
  split
  · simp
  · split
    · exact h
    · have := hf (liveSectors y)
      rw [List.length_append, List.length_append, natBytes_length, List.length_replicate]
      omega

/-- The writes that wait at a compressed tile are performed: its entry and the slots alone change. -/
theorem Quiet.performApWrites (a : Aperture) (t : Nat) (he : ¬ (entryAddr (dieOf core) a t ≤ b ∧ b < entryAddr (dieOf core) a t + 8))
    (hs : ∀ k, ¬ (slotAddr (dieOf core) a k ≤ b ∧ b < slotAddr (dieOf core) a k + 4096)) :
    ∀ (ws : List ApWrite) {s : State}, Quiet core b x A P s →
      (∀ w ∈ ws, NMap.get freshAperture A w.ap = a ∧ w.off / 4096 = t ∧ w.off % 4096 + w.data.length ≤ 4096) →
      Quiet core b x A P (s.performApWrites (dieOf core) ws) := by
  intro ws
  induction ws with
  | nil => intro s h _; exact h
  | cons w ws ih =>
    intro s h hw
    obtain ⟨h1, h2, h3⟩ := hw w (List.mem_cons_self ..)
    have ha : s.aperture (dieOf core) w.ap = a := by unfold State.aperture; rw [h.aps]; exact h1
    refine ih (Quiet.modDie (?_ : Quiet core b x A P _) _ _ (fun _ => rfl) fun d hp y hy => hp y (List.mem_filter.1 hy).1) fun y hy =>
      hw y (List.mem_cons_of_mem _ hy)
    rw [ha]
    unfold State.tileWriteAt State.store64
    dsimp only
    refine ((h.pick _).storeBytes _ _ fun hb => hs _ ⟨hb.1, lt_of_lt_of_le hb.2 (Nat.add_le_add_left ?_ _)⟩).storeBytes _ _
      (by rw [natBytes_length, h2]; exact he)
    refine compressTile_length _ ?_
    unfold mergeBytes
    simp only [List.length_append, List.length_take, List.length_drop, expandTile_length]
    omega

-- Accesses of an instruction

theorem storesTo_congr {t : State} (h : (t.die (dieOf core)).apertures = (s.die (dieOf core)).apertures) (p : Target × Nat) :
    t.storesTo core p b = s.storesTo core p b := by
  unfold State.storesTo State.aperture
  dsimp only
  rw [h]

/-- A load at the port performs the writes that wait there alone. -/
theorem Quiet.portLoad (h : Quiet core b x A P s) (m off n : Nat)
    (hp : ∀ w, P w → w.ap = m → w.off / 4096 = off / 4096 → w.off % 4096 + w.data.length ≤ 4096 ∧
      (Apert.xf (NMap.get freshAperture A m) = 1 →
        ¬ (entryAddr (dieOf core) (NMap.get freshAperture A m) (off / 4096) ≤ b ∧
          b < entryAddr (dieOf core) (NMap.get freshAperture A m) (off / 4096) + 8) ∧
        ∀ k, ¬ (slotAddr (dieOf core) (NMap.get freshAperture A m) k ≤ b ∧
          b < slotAddr (dieOf core) (NMap.get freshAperture A m) k + 4096))) :
    Quiet core b x A P (s.portLoad core m off n).2 := by
  have ha : s.aperture (dieOf core) m = NMap.get freshAperture A m := by unfold State.aperture; rw [h.aps]
  unfold State.portLoad
  dsimp only
  rw [ha]
  split
  · next hx =>
    dsimp only
    generalize hf : (s.die (dieOf core)).apWrites.filter (fun w => w.ap == m && w.core == core && w.off / 4096 == off / 4096) = l
    cases l with
    | nil => exact h
    | cons w ws =>
      have hin : ∀ y ∈ w :: ws, P y ∧ y.ap = m ∧ y.off / 4096 = off / 4096 := by
        intro y hy
        rw [← hf, List.mem_filter] at hy
        have := hy.2
        simp only [Bool.and_eq_true, beq_iff_eq] at this
        exact ⟨h.apw y hy.1, this.1.1, this.2⟩
      have h0 := hin w (List.mem_cons_self ..)
      have hc := (hp w h0.1 h0.2.1 h0.2.2).2 hx
      refine Quiet.performApWrites (NMap.get freshAperture A m) (off / 4096) hc.1 hc.2 _ h fun y hy => ?_
      have hy := hin y hy
      exact ⟨by rw [hy.2.1], hy.2.2, (hp y hy.1 hy.2.1 hy.2.2).1⟩
  · exact h.gatherBytes _ _
  · exact h.gatherBytes _ _

theorem zip_fst {α β : Type} : ∀ (l : List α) (m : List β), ∀ e ∈ l.zip m, e.1 ∈ l := by
  intro l m e he
  exact (List.of_mem_zip (a := e.1) (b := e.2) he).1

/-- A store at the port changes the bytes of its own (R336, R339). -/
theorem Quiet.portStore (h : Quiet core b x A P s) (launch m off n v : Nat) (hb : ¬ s.storesTo core (.port m off, n) b)
    (hp : ∀ w : ApWrite, w.off = off → w.data.length = n → P w) : Quiet core b x A P (s.portStore core launch m off n v).2 := by
  unfold State.portStore
  dsimp only
  unfold State.storesTo at hb
  dsimp only at hb
  split
  · dsimp only
    refine Quiet.modDie (h.of (t := s.fresh.2) rfl rfl rfl rfl rfl rfl) _ _ (fun _ => rfl) fun d hd w hw => ?_
    rcases List.mem_append.1 hw with hw | hw
    · exact hd w hw
    · rw [List.mem_singleton.1 hw]; exact hp _ rfl (natBytes_length ..)
  · next hx =>
    rw [hx] at hb
    refine h.scatterBytes _ _ fun e he hE => hb ?_
    obtain ⟨i, hi, hie⟩ := List.mem_map.1 (zip_fst _ _ e he)
    exact ⟨i, List.mem_range.1 hi, by rw [← hE, ← hie]⟩
  · next hx1 hx2 =>
    split at hb
    · next hy => exact (hx1 hy).elim
    · next hy => exact (hx2 hy).elim
    · refine h.scatterBytes _ _ fun e he hE => hb ?_
      obtain ⟨i, hi, hie⟩ := List.mem_map.1 (zip_fst _ _ e he)
      exact ⟨i, List.mem_range.1 hi, by rw [← hE, ← hie]⟩

/-- Nothing that has been gathered changes the byte. -/
def Gather.quiet (core b : Nat) (x : Byte) (A : NMap Aperture) (P : ApWrite → Prop) (g : Gather) : Prop :=
  Quiet core b x A P g.s ∧ ∀ e ∈ g.buckets, ∀ y ∈ e.2, ¬ Access.writes b y

theorem putBucket_mem (k : Nat × Bool × Bool × Nat) (a : Access) : ∀ (l : List ((Nat × Bool × Bool × Nat) × List Access)),
    (∀ e ∈ l, ∀ y ∈ e.2, ¬ Access.writes b y) → ¬ Access.writes b a → ∀ e ∈ putBucket k a l, ∀ y ∈ e.2, ¬ Access.writes b y := by
  intro l hl ha
  induction l with
  | nil =>
    intro e he y hy
    rw [putBucket, List.mem_singleton] at he
    subst he
    rw [List.mem_singleton.1 hy]; exact ha
  | cons z l ih =>
    intro e he y hy
    unfold putBucket at he
    split at he
    · rcases List.mem_cons.1 he with rfl | he
      · rcases List.mem_append.1 hy with hy | hy
        · exact hl z (List.mem_cons_self ..) y hy
        · rw [List.mem_singleton.1 hy]; exact ha
      · exact hl e (List.mem_cons_of_mem _ he) y hy
    · rcases List.mem_cons.1 he with rfl | he
      · exact hl e (List.mem_cons_self ..) y hy
      · exact ih (fun e he => hl e (List.mem_cons_of_mem _ he)) e he y hy

theorem Gather.quiet.send {g : Gather} (h : g.quiet core b x A P) (addr : Nat) (own snap : Bool) (sub : Nat) (a : Access)
    (ha : ¬ Access.writes b a) : (g.send addr own snap sub a).quiet core b x A P :=
  ⟨h.1, putBucket_mem _ _ _ h.2 ha⟩

/-- A load's piece, where what waits at the port it reads leaves the byte alone. -/
theorem Gather.quiet.load {g : Gather} (h : g.quiet core b x A P) (v : View) (hv : v.core = core) (pol : Policy) (t : Target) (n : Nat)
    (dst : Dst) (hp : ∀ w, ¬ P w) : (g.load v pol t n dst).quiet core b x A P := by
  subst hv
  unfold Gather.load
  split
  · dsimp only
    split
    · exact Gather.quiet.send (g := { g with async := _, pol := pol }) h _ _ _ _ _ id
    · exact ⟨h.1.l1LoadBy _ _ _ _, h.2⟩
  · exact ⟨(h.1.portSeen _ _ _ _ _ _).portLoad _ _ _ fun w hw => (hp w hw).elim, h.2⟩
  · exact h.send _ _ _ _ _ id

/-- A store's piece that does not hold the byte. -/
theorem Gather.quiet.store {g : Gather} (h : g.quiet core b x A P) (v : View) (hv : v.core = core) (pol : Policy) (t : Target) (n y : Nat)
    (hb : ¬ s.storesTo core (t, n) b) (hs : (s.die (dieOf core)).apertures = A)
    (hp : ∀ w : ApWrite, (∃ m, t = .port m w.off) → w.data.length = n → P w) : (g.store v pol t n y).quiet core b x A P := by
  subst hv
  unfold Gather.store
  split
  · next pa =>
    split
    · exact h.send _ _ _ _ _ (by simpa [Access.writes, natBytes_length, State.storesTo] using hb)
    · exact ⟨h.1.l1Store _ _ _ _ _ _ hb, h.2⟩
  · next m off =>
    have h1 := h.1.portSeen v.core m off n true (coreWho 1 v.core)
    exact ⟨h1.portStore _ _ _ _ _ (by rw [storesTo_congr (s := s) (by rw [h1.aps, hs])]; exact hb)
      fun w hw hl => hp w ⟨m, by rw [hw]⟩ hl, h.2⟩
  · exact h.send _ _ _ _ _ (by simpa [Access.writes, natBytes_length, State.storesTo] using hb)

theorem Gather.quiet.loads (v : View) (hv : v.core = core) (pol : Policy) (dst : Nat → Nat → Dst) (hp : ∀ w, ¬ P w) :
    ∀ (ps : List (Target × Nat)) (i : Nat) {g : Gather}, g.quiet core b x A P → (g.loads v pol dst i ps).quiet core b x A P := by
  intro ps
  induction ps with
  | nil => intro i g h; exact h
  | cons p ps ih => intro i g h; exact ih _ (h.load v hv pol _ _ _ hp)

theorem Gather.quiet.stores (v : View) (hv : v.core = core) (pol : Policy) (y : Nat) (hs : (s.die (dieOf core)).apertures = A)
    (hp : ∀ w, P w) : ∀ (ps : List (Target × Nat)) (i : Nat) {g : Gather}, g.quiet core b x A P → (∀ p ∈ ps, ¬ s.storesTo core p b) →
    (g.stores v pol y i ps).quiet core b x A P := by
  intro ps
  induction ps with
  | nil => intro i g h _; exact h
  | cons p ps ih =>
    intro i g h hb
    exact ih _ (h.store v hv pol _ _ _ (hb p (List.mem_cons_self ..)) hs fun w _ _ => hp w) fun q hq => hb q (List.mem_cons_of_mem _ hq)

/-- An atomic on a word that does not hold the byte. -/
theorem Gather.quiet.atomic {g : Gather} (h : g.quiet core b x A P) (v : View) (hv : v.core = core) (va : W64) (t : Target)
    (red : Option (RedOp × W64)) (dst : Dst) (acc : Nat → Access) (hb : ¬ s.storesTo core (t, 4) b)
    (hk : ∀ o, red = some o → o.1 ≠ .ctrAdd)
    (ha : ∀ a, Access.writes b (acc a) → a ≤ b ∧ b < a + 4) : (g.atomic v va t red dst acc).quiet core b x A P := by
  subst hv
  unfold Gather.atomic
  split
  · exact h.send _ _ _ _ _ fun hw => hb (ha _ hw)
  · exact h
  · next pa =>
    have h1 : ({ g with s := g.s.purgeSector v.core v.launchId pa } : Gather).quiet v.core b x A P := ⟨h.1.purgeSector _ _, h.2⟩
    dsimp only
    split
    · next o y hr =>
      refine ⟨⟨h1.1.wf, ⟨h1.1.idle.1, h1.1.idle.2.1, h1.1.idle.2.2.1, ?_⟩, h1.1.read, h1.1.aps, h1.1.apw⟩, h1.2⟩
      intro k hk'
      rcases List.mem_append.1 hk' with hk' | hk'
      · exact h1.1.idle.2.2.2 k hk'
      · rw [List.mem_singleton.1 hk']
        dsimp only
        rw [if_neg (hk _ rfl)]
        exact hb
    · exact h1.send _ _ _ _ _ fun hw => hb (ha _ hw)

theorem Gather.quiet.sendAll (c : Ctx) (v : View) : ∀ (l : List ((Nat × Bool × Bool × Nat) × List Access)) {g : Gather},
    Quiet core b x A P g.s → (∀ e ∈ l, ∀ y ∈ e.2, ¬ Access.writes b y) → Quiet core b x A P (g.sendAll c v l).s := by
  intro l
  induction l with
  | nil => intro g h _; exact h
  | cons e l ih =>
    intro g h hl
    obtain ⟨k, as⟩ := e
    refine ih ?_ fun e he => hl e (List.mem_cons_of_mem _ he)
    refine ⟨h.wf, ⟨h.idle.1, h.idle.2.1, ?_, h.idle.2.2.2⟩, h.read, h.aps, h.apw⟩
    intro r hr
    rcases List.mem_append.1 hr with hr | hr
    · exact h.idle.2.2.1 r hr
    · rw [List.mem_singleton.1 hr]; exact hl (k, as) (List.mem_cons_self ..)

/-- What has been gathered leaves, and the byte stays as it reads. -/
theorem Gather.quiet.finishAccs {g : Gather} (h : g.quiet core b x A P) (c : Ctx) (v : View) (tl : Tail) (isLoad : Bool)
    (accs : List (Nat × W64 × Nat)) (hash : Nat → List HashStep) :
    g.finishAccs c v tl isLoad accs hash = .stall ∨
      ∃ t, g.finishAccs c v tl isLoad accs hash = .ok t ∧ Quiet core b x A P t := by
  by_cases hf : g.full c.gid c.core = true
  · exact .inl (if_pos hf)
  · refine .inr ⟨_, finishAccs_launched (by simpa using hf), ?_⟩
    unfold Gather.launchedAccs
    dsimp only
    have h1 := Gather.quiet.sendAll c v g.buckets
      (g := { g with s := { g.s with nextId := g.s.nextId + 1 }, async := { g.async with id := g.s.nextId } })
      (h.1.of rfl rfl rfl rfl rfl rfl) h.2
    have h2 := (h1.addHash c.gid (hash g.s.nextId)).countAccs c v accs g.s.nextId
    split
    · exact h2
    · split
      · exact h2.of rfl rfl rfl rfl rfl rfl
      · refine Quiet.modGroup ?_ _ _
        exact h2.of rfl rfl rfl rfl rfl rfl

theorem ctx_core {s : State} {c : Ctx} (h : s.ctx? = some c) : c.g.core = c.core := by
  unfold State.ctx? at h
  split at h
  · cases h
  · split at h
    · cases h
    · split at h
      · cases h
      · cases h; rfl

/-- An instruction whose body stalls, or leaves the byte as it reads, keeps it so. -/
theorem keepsMemory_of {i : Instr} {uses : List Use} {tl : Tail} {cond : Ctx → State → Prop} {stored : Ctx → State → Nat → Prop}
    {body : Ctx → State → Effect} (Q : ApWrite → Prop) (he : ∀ s, exec i s = issueAsync (fun _ => true) uses tl body s)
    (hb : ∀ c s b x A, c.g.core = c.core → cond c s → ¬ stored c s b → Quiet c.core b x A Q s →
      body c s = .stall ∨ ∃ t, body c s = .ok t ∧ ∃ P, Quiet c.core b x A P t) : KeepsMemory i uses tl cond stored := by
  intro s c t b hw hi hc ha hd hs ht
  have hq : Quiet c.core b (Memory.read s.mem b) (s.die (dieOf c.core)).apertures Q s :=
    ⟨hw, hd, rfl, rfl, by rw [ha]; simp⟩
  have hq1 := hq.settle c uses
  rw [he] at ht
  rcases hb c (s.settle c uses) b _ _ (ctx_core hi.1) hc hs hq1 with h | ⟨t', h, P, h'⟩
  · rw [issueAsync, issueWith_stall hi rfl h] at ht
    cases ht
    exact ⟨rfl, hd⟩
  · rw [issueAsync, issueWith_ok hi rfl h] at ht
    cases ht
    have h2 : Quiet c.core b (Memory.read s.mem b) (s.die (dieOf c.core)).apertures P (t'.passWord c) := h'.modGroup _ _
    exact ⟨h2.read, h2.idle⟩

/-- A record is read through the cluster's cache (R340). -/
theorem Quiet.readRec (h : Quiet core b x A P s) (v : View) (hv : v.core = core) (hp : ∀ w, ¬ P w) (a : W64) :
    Quiet core b x A P (s.readRec v a).2 := by
  have hu : ∀ (t : Target) (is : List Nat) (s : State), Quiet core b x A P s → Quiet core b x A P (s.recUnits v t is).2 := by
    intro t is
    induction is with
    | nil => intro s h; exact h
    | cons i is ih =>
      intro s h
      unfold State.recUnits
      refine ih _ ?_
      split
      · exact (h.beforeRead _ _).l2See _ _ _ _ _
      · exact h
      · subst hv
        exact (h.portSeen _ _ _ _ _ _).portLoad _ _ _ fun w hw => (hp w hw).elim
  unfold State.readRec
  split
  · exact h
  · split
    · dsimp only
      exact (hu _ _ _ h).modCluster _ _
    · exact h

/-- What is true of fewer writes that wait at the ports. -/
theorem Quiet.mono {Q : ApWrite → Prop} (h : Quiet core b x A P s) (hq : ∀ w, P w → Q w) : Quiet core b x A Q s :=
  ⟨h.wf, h.idle, h.read, h.aps, fun w hw => hq w (h.apw w hw)⟩

/-- An element of stp that does not hold the byte (R179). -/
theorem Gather.quiet.planeStore {g : Gather} (h : g.quiet core b x A (fun w => w.data.length = elemBytes (layCode ws))) (v : View)
    (hv : v.core = core) (pol : Policy) (s : State) (co : List Nat) (lane code : Nat) (hs : (s.die (dieOf core)).apertures = A)
    (hb : ¬ s.storesTo core (s.targetOf v lane (elemAddr ws co).1 (elemBytes (layCode ws)) .write, elemBytes (layCode ws)) b) :
    (g.planeStore v pol s ws co lane code).quiet core b x A (fun w => w.data.length = elemBytes (layCode ws)) := by
  unfold Gather.planeStore
  dsimp only
  split
  · next hf =>
    have h1 : elemBytes (layCode ws) = 1 := by
      unfold fourBit at hf
      simp only [Bool.or_eq_true, beq_iff_eq] at hf
      rcases hf with (hf | hf) | hf <;> rw [hf] <;> rfl
    rw [h1] at hb h ⊢
    generalize s.targetOf v lane (elemAddr ws co).1 1 .write = t at hb ⊢
    cases t with
    | arr a own =>
      exact h.send _ _ _ _ _ fun hw => hb ⟨le_of_eq hw.symm, by rw [show b = a from hw]; exact Nat.lt_succ_self _⟩
    | snap pa =>
      dsimp only
      split
      · exact h.send _ _ _ _ _ fun hw => hb ⟨le_of_eq hw.symm, by rw [show b = pa from hw]; exact Nat.lt_succ_self _⟩
      · refine Gather.quiet.store (s := s) (g := { g with s := (g.s.l1Load v.core pol pa 1).2 }) ?_ v hv pol _ _ _ hb hs fun w _ hl => hl
        subst hv
        exact ⟨h.1.l1LoadBy _ _ _ _, h.2⟩
    | port m off =>
      refine Gather.quiet.store (s := s)
        (g := { g with s := ((g.s.portSeen v.core m off 1 false v.l2).portLoad v.core m off 1).2 }) ?_ v hv pol _ _ _ hb hs fun w _ hl => hl
      subst hv
      refine ⟨?_, h.2⟩
      refine (h.1.portSeen _ _ _ _ _ _).portLoad _ _ _ fun w hw _ hoff => ⟨by rw [hw]; omega, fun hx => ?_⟩
      unfold State.storesTo State.aperture at hb
      dsimp only at hb
      rw [hs, hx] at hb
      exact ⟨fun hE => hb (.inl hE), fun k hK => hb (.inr ⟨k, hK⟩)⟩
  · exact h.store (s := s) v hv pol _ _ _ hb hs fun w _ hl => hl

/-- The gathering of an instruction starts quiet. -/
theorem Quiet.gather (h : Quiet core b x A P s) (c : Ctx) (tl : Tail) : (c.gather s tl).quiet core b x A P :=
  ⟨h, fun _ he => by cases he⟩

/-- A fold of quiet steps. -/
theorem foldl_quiet {α : Type} (f : Gather → α → Gather) : ∀ (l : List α) {g : Gather}, g.quiet core b x A P →
    (∀ y ∈ l, ∀ g : Gather, g.quiet core b x A P → (f g y).quiet core b x A P) → (l.foldl f g).quiet core b x A P := by
  intro l
  induction l with
  | nil => intro g h _; exact h
  | cons y l ih => intro g h hf; exact ih (hf y (List.mem_cons_self ..) g h) fun z hz => hf z (List.mem_cons_of_mem _ hz)

/-- The same of an instruction of the shared form of accesses, whose gathering leaves the byte as it reads. -/
theorem keepsMemory_of_checked {i : Instr} {uses : List Use} {tl : Tail} {isLoad : Bool} {k : AccKind} {single : Bool} {n al : Nat}
    {ls : Ctx → List Nat} {addr : Ctx → Nat → W64} {datum : Ctx → Nat → W32} {kind : WatchKind} {mask : Ctx → LaneMask → LaneMask}
    {snap : Bool} {stored : Ctx → State → Nat → Prop} {gather : Ctx → View → State → Gather}
    {hash : Ctx → View → State → Nat → List HashStep} (Q P : ApWrite → Prop)
    (hs : (if kind = WatchKind.atomic then false else true) = snap)
    (he : ∀ s, exec i s = issueAsync (fun _ => true) uses tl (fun c s =>
      c.checked (ls c) (mask c) (addr c) n al k single kind (datum c) s fun v s =>
        (gather c v s).finish c v tl isLoad (ls c) (addr c) n (hash c v s)) s)
    (hg : ∀ c s b x A, c.g.core = c.core → ¬ stored c s b → Quiet c.core b x A Q s →
      Quiet c.core b x A Q (c.settledFor (ls c) (addr c) s) →
      (gather c (s.viewOf c.gid c.g) (c.settledFor (ls c) (addr c) s)).quiet c.core b x A P) :
    KeepsMemory i uses tl (fun c s => c.accessible (ls c) (addr c) n al k single snap s) stored := by
  refine keepsMemory_of Q he fun c s b x A hv hc hs' hq => ?_
  rw [checked_open hs hc]
  rcases (hg c s b x A hv hs' hq (Quiet.touchTlbs _ _ _ hq)).finishAccs c (s.viewOf c.gid c.g) tl isLoad
    ((ls c).map fun l => (l, addr c l, n)) (hash c (s.viewOf c.gid c.g) (c.settledFor (ls c) (addr c) s)) with h | ⟨t, h, h'⟩
  · exact .inl h
  · exact .inr ⟨t, h, P, h'⟩

/-- The one piece of an access of four bytes has four. -/
theorem State.piecesOf_word {s : State} {v : View} {l : Nat} {a : W64} {k : AccKind} {p : Target × Nat} (h : p ∈ s.piecesOf v l a 4 k) : p.2 = 4 := by
  unfold State.piecesOf at h
  split at h
  · next ps he =>
    unfold State.pieces at he
    split at he
    · cases hd : s.devPiece v a.toNat 4 k <;> rw [hd] at he <;> cases he
      rw [List.mem_singleton.1 h]
    · cases he; rw [List.mem_singleton.1 h]
    · cases he; rw [List.mem_singleton.1 h]
    · split at he
      · cases he
      · cases he; rw [List.mem_singleton.1 h]
    · simp only [if_pos (show 4 ≤ 4 by omega)] at he
      cases hd : s.devPiece v (v.backing l (a.toNat % 2 ^ 56)) 4 k <;> rw [hd] at he <;> cases he
      rw [List.mem_singleton.1 h]
    · cases he
  · cases h

end Sys2Proof.Machine
end

