-- ==== Sys2Proof/Laws/PerInstr.lean ====
section
/-! SUPPORT. For every instruction: the decoder undoes the encoder on its word (R51 to R62). -/

set_option linter.unusedSimpArgs false
set_option linter.unusedVariables false

namespace Sys2Proof.Laws.RoundTrip

/-- Decoding the word of a well-formed instruction gives it back (R51 to R62). -/
def Statement (i : Instr) : Prop := i.wfError = none → ∀ w, encode i = some w → decode w = .ok i

/-- What decodes to a well-formed instruction is its word. -/
theorem of_fields {i : Instr} {f : Fields} (he : encodeFields i = some f)
    (hd : i.wfError = none → decodeFields f = .ok i) : Statement i := by
  intro h w hw
  simp only [encode, he, Option.map_some, Option.some.injEq] at hw
  subst hw
  simp [decode, Fields.ofWord_word, hd h, h]

/-- A row that is an event has no word. -/
theorem of_event {i : Instr} (he : encodeFields i = none) : Statement i := by
  intro _ w hw
  simp [encode, he] at hw

/-- The last of three checks, where all hold. -/
theorem last_check {a b c : Bool} {x y z : WfError} (h : firstErr [(a, x), (b, y), (c, z)] = none) : c = true := by
  cases a <;> cases b <;> cases c <;> simp_all [firstErr]

/-- The second of three checks, where all hold. -/
theorem middle_check {a b c : Bool} {x y z : WfError} (h : firstErr [(a, x), (b, y), (c, z)] = none) : b = true := by
  cases a <;> cases b <;> cases c <;> simp_all [firstErr]

/-- The first check holds where nothing is wrong. -/
theorem or_none_chk {b : Bool} {e : WfError} {o : Option WfError} (h : (chk b e).or o = none) : b = true := by
  cases b
  · simp [chk, firstErr] at h
  · rfl

theorem iadd (t : IType) (d : Dest) (a b : Operand) (tl : Tail) : Statement (.iadd t d a b tl) :=
  of_fields rfl fun _ => by simp [decodeFields, decodeInt, Fields.m3, Fields.m50, Fields.l2, Fields.l3, Fields.imm, modReq, unused, noDest, noTail, dec1, dec2, dec3, decCmp, decM, decA, decNone, enc1, enc2, enc3, encCmp, encM, encA, encI, encNone]
theorem isub (t : IType) (d : Dest) (a b : Operand) (tl : Tail) : Statement (.isub t d a b tl) :=
  of_fields rfl fun _ => by simp [decodeFields, decodeInt, Fields.m3, Fields.m50, Fields.l2, Fields.l3, Fields.imm, modReq, unused, noDest, noTail, dec1, dec2, dec3, decCmp, decM, decA, decNone, enc1, enc2, enc3, encCmp, encM, encA, encI, encNone]
theorem imul (t : IType) (sat : Bool) (d : Dest) (a b : Operand) (tl : Tail) : Statement (.imul t sat d a b tl) :=
  of_fields rfl fun _ => by simp [decodeFields, decodeInt, Fields.m3, Fields.m50, Fields.l2, Fields.l3, Fields.imm, modReq, unused, noDest, noTail, dec1, dec2, dec3, decCmp, decM, decA, decNone, enc1, enc2, enc3, encCmp, encM, encA, encI, encNone]
theorem imulhi (t : IType) (d : Dest) (a b : Operand) (tl : Tail) : Statement (.imulhi t d a b tl) :=
  of_fields rfl fun _ => by simp [decodeFields, decodeInt, Fields.m3, Fields.m50, Fields.l2, Fields.l3, Fields.imm, modReq, unused, noDest, noTail, dec1, dec2, dec3, decCmp, decM, decA, decNone, enc1, enc2, enc3, encCmp, encM, encA, encI, encNone]
theorem imad (t : IType) (sat : Bool) (d : Dest) (a b c : Operand) (tl : Tail) : Statement (.imad t sat d a b c tl) :=
  of_fields rfl fun _ => by simp [decodeFields, decodeInt, Fields.m3, Fields.m50, Fields.l2, Fields.l3, Fields.imm, modReq, unused, noDest, noTail, dec1, dec2, dec3, decCmp, decM, decA, decNone, enc1, enc2, enc3, encCmp, encM, encA, encI, encNone]
theorem idiv (t : IType) (sat : Bool) (d : Dest) (a b : Operand) (tl : Tail) : Statement (.idiv t sat d a b tl) :=
  of_fields rfl fun _ => by simp [decodeFields, decodeInt, Fields.m3, Fields.m50, Fields.l2, Fields.l3, Fields.imm, modReq, unused, noDest, noTail, dec1, dec2, dec3, decCmp, decM, decA, decNone, enc1, enc2, enc3, encCmp, encM, encA, encI, encNone]
theorem irem (t : IType) (d : Dest) (a b : Operand) (tl : Tail) : Statement (.irem t d a b tl) :=
  of_fields rfl fun _ => by simp [decodeFields, decodeInt, Fields.m3, Fields.m50, Fields.l2, Fields.l3, Fields.imm, modReq, unused, noDest, noTail, dec1, dec2, dec3, decCmp, decM, decA, decNone, enc1, enc2, enc3, encCmp, encM, encA, encI, encNone]
theorem ineg (t : IType) (sat : Bool) (d : Dest) (a : Operand) (tl : Tail) : Statement (.ineg t sat d a tl) :=
  of_fields rfl fun _ => by simp [decodeFields, decodeInt, Fields.m3, Fields.m50, Fields.l2, Fields.l3, Fields.imm, modReq, unused, noDest, noTail, dec1, dec2, dec3, decCmp, decM, decA, decNone, enc1, enc2, enc3, encCmp, encM, encA, encI, encNone]
theorem iabs (t : IType) (sat : Bool) (d : Dest) (a : Operand) (tl : Tail) : Statement (.iabs t sat d a tl) :=
  of_fields rfl fun _ => by simp [decodeFields, decodeInt, Fields.m3, Fields.m50, Fields.l2, Fields.l3, Fields.imm, modReq, unused, noDest, noTail, dec1, dec2, dec3, decCmp, decM, decA, decNone, enc1, enc2, enc3, encCmp, encM, encA, encI, encNone]
theorem imin (t : IType) (d : Dest) (a b : Operand) (tl : Tail) : Statement (.imin t d a b tl) :=
  of_fields rfl fun _ => by simp [decodeFields, decodeInt, Fields.m3, Fields.m50, Fields.l2, Fields.l3, Fields.imm, modReq, unused, noDest, noTail, dec1, dec2, dec3, decCmp, decM, decA, decNone, enc1, enc2, enc3, encCmp, encM, encA, encI, encNone]
theorem imax (t : IType) (d : Dest) (a b : Operand) (tl : Tail) : Statement (.imax t d a b tl) :=
  of_fields rfl fun _ => by simp [decodeFields, decodeInt, Fields.m3, Fields.m50, Fields.l2, Fields.l3, Fields.imm, modReq, unused, noDest, noTail, dec1, dec2, dec3, decCmp, decM, decA, decNone, enc1, enc2, enc3, encCmp, encM, encA, encI, encNone]
theorem iaddsat (t : IType) (d : Dest) (a b : Operand) (tl : Tail) : Statement (.iaddsat t d a b tl) :=
  of_fields rfl fun _ => by simp [decodeFields, decodeInt, Fields.m3, Fields.m50, Fields.l2, Fields.l3, Fields.imm, modReq, unused, noDest, noTail, dec1, dec2, dec3, decCmp, decM, decA, decNone, enc1, enc2, enc3, encCmp, encM, encA, encI, encNone]
theorem isubsat (t : IType) (d : Dest) (a b : Operand) (tl : Tail) : Statement (.isubsat t d a b tl) :=
  of_fields rfl fun _ => by simp [decodeFields, decodeInt, Fields.m3, Fields.m50, Fields.l2, Fields.l3, Fields.imm, modReq, unused, noDest, noTail, dec1, dec2, dec3, decCmp, decM, decA, decNone, enc1, enc2, enc3, encCmp, encM, encA, encI, encNone]
theorem iclamp (t : IType) (d : Dest) (a b c : Operand) (tl : Tail) : Statement (.iclamp t d a b c tl) :=
  of_fields rfl fun _ => by simp [decodeFields, decodeInt, Fields.m3, Fields.m50, Fields.l2, Fields.l3, Fields.imm, modReq, unused, noDest, noTail, dec1, dec2, dec3, decCmp, decM, decA, decNone, enc1, enc2, enc3, encCmp, encM, encA, encI, encNone]
theorem add64 (t : IType) (d : Dest) (a b : Operand) (tl : Tail) : Statement (.add64 t d a b tl) :=
  of_fields rfl fun _ => by simp [decodeFields, decodeInt, Fields.m3, Fields.m50, Fields.l2, Fields.l3, Fields.imm, modReq, unused, noDest, noTail, dec1, dec2, dec3, decCmp, decM, decA, decNone, enc1, enc2, enc3, encCmp, encM, encA, encI, encNone]
theorem lea (t : IType) (d : Dest) (a b : Operand) (sh : BitVec 3) (tl : Tail) : Statement (.lea t d a b sh tl) :=
  of_fields rfl fun _ => by simp [decodeFields, decodeInt, Fields.m3, Fields.m50, Fields.l2, Fields.l3, Fields.imm, modReq, unused, noDest, noTail, dec1, dec2, dec3, decCmp, decM, decA, decNone, enc1, enc2, enc3, encCmp, encM, encA, encI, encNone]
theorem dot4 (t : IType) (sat : Bool) (d : Dest) (a b c : Operand) (tl : Tail) : Statement (.dot4 t sat d a b c tl) :=
  of_fields rfl fun _ => by simp [decodeFields, decodeInt, Fields.m3, Fields.m50, Fields.l2, Fields.l3, Fields.imm, modReq, unused, noDest, noTail, dec1, dec2, dec3, decCmp, decM, decA, decNone, enc1, enc2, enc3, encCmp, encM, encA, encI, encNone]
theorem icmp (t : IType) (cond : ICond) (a b : Operand) (tl : Tail) : Statement (.icmp t cond a b tl) :=
  of_fields rfl fun _ => by simp [decodeFields, decodeInt, Fields.m3, Fields.m50, Fields.l2, Fields.l3, Fields.imm, modReq, unused, noDest, noTail, dec1, dec2, dec3, decCmp, decM, decA, decNone, enc1, enc2, enc3, encCmp, encM, encA, encI, encNone]
theorem and (t : IType) (d : Dest) (a b : Operand) (tl : Tail) : Statement (.and t d a b tl) :=
  of_fields rfl fun _ => by simp [decodeFields, decodeLogic, Fields.m3, Fields.m50, Fields.l2, Fields.l3, Fields.imm, modReq, unused, noDest, noTail, dec1, dec2, dec3, decCmp, decM, decA, decNone, enc1, enc2, enc3, encCmp, encM, encA, encI, encNone]
theorem or (t : IType) (d : Dest) (a b : Operand) (tl : Tail) : Statement (.or t d a b tl) :=
  of_fields rfl fun _ => by simp [decodeFields, decodeLogic, Fields.m3, Fields.m50, Fields.l2, Fields.l3, Fields.imm, modReq, unused, noDest, noTail, dec1, dec2, dec3, decCmp, decM, decA, decNone, enc1, enc2, enc3, encCmp, encM, encA, encI, encNone]
theorem xor (t : IType) (d : Dest) (a b : Operand) (tl : Tail) : Statement (.xor t d a b tl) :=
  of_fields rfl fun _ => by simp [decodeFields, decodeLogic, Fields.m3, Fields.m50, Fields.l2, Fields.l3, Fields.imm, modReq, unused, noDest, noTail, dec1, dec2, dec3, decCmp, decM, decA, decNone, enc1, enc2, enc3, encCmp, encM, encA, encI, encNone]
theorem not (t : IType) (d : Dest) (a : Operand) (tl : Tail) : Statement (.not t d a tl) :=
  of_fields rfl fun _ => by simp [decodeFields, decodeLogic, Fields.m3, Fields.m50, Fields.l2, Fields.l3, Fields.imm, modReq, unused, noDest, noTail, dec1, dec2, dec3, decCmp, decM, decA, decNone, enc1, enc2, enc3, encCmp, encM, encA, encI, encNone]
theorem andn (t : IType) (d : Dest) (a b : Operand) (tl : Tail) : Statement (.andn t d a b tl) :=
  of_fields rfl fun _ => by simp [decodeFields, decodeLogic, Fields.m3, Fields.m50, Fields.l2, Fields.l3, Fields.imm, modReq, unused, noDest, noTail, dec1, dec2, dec3, decCmp, decM, decA, decNone, enc1, enc2, enc3, encCmp, encM, encA, encI, encNone]
theorem shl (t : IType) (d : Dest) (a b : Operand) (tl : Tail) : Statement (.shl t d a b tl) :=
  of_fields rfl fun _ => by simp [decodeFields, decodeLogic, Fields.m3, Fields.m50, Fields.l2, Fields.l3, Fields.imm, modReq, unused, noDest, noTail, dec1, dec2, dec3, decCmp, decM, decA, decNone, enc1, enc2, enc3, encCmp, encM, encA, encI, encNone]
theorem shr (t : IType) (d : Dest) (a b : Operand) (tl : Tail) : Statement (.shr t d a b tl) :=
  of_fields rfl fun _ => by simp [decodeFields, decodeLogic, Fields.m3, Fields.m50, Fields.l2, Fields.l3, Fields.imm, modReq, unused, noDest, noTail, dec1, dec2, dec3, decCmp, decM, decA, decNone, enc1, enc2, enc3, encCmp, encM, encA, encI, encNone]
theorem sar (t : IType) (d : Dest) (a b : Operand) (tl : Tail) : Statement (.sar t d a b tl) :=
  of_fields rfl fun _ => by simp [decodeFields, decodeLogic, Fields.m3, Fields.m50, Fields.l2, Fields.l3, Fields.imm, modReq, unused, noDest, noTail, dec1, dec2, dec3, decCmp, decM, decA, decNone, enc1, enc2, enc3, encCmp, encM, encA, encI, encNone]
theorem rot (t : IType) (d : Dest) (a b : Operand) (tl : Tail) : Statement (.rot t d a b tl) :=
  of_fields rfl fun _ => by simp [decodeFields, decodeLogic, Fields.m3, Fields.m50, Fields.l2, Fields.l3, Fields.imm, modReq, unused, noDest, noTail, dec1, dec2, dec3, decCmp, decM, decA, decNone, enc1, enc2, enc3, encCmp, encM, encA, encI, encNone]
theorem popc (t : IType) (d : Dest) (a : Operand) (tl : Tail) : Statement (.popc t d a tl) :=
  of_fields rfl fun _ => by simp [decodeFields, decodeLogic, Fields.m3, Fields.m50, Fields.l2, Fields.l3, Fields.imm, modReq, unused, noDest, noTail, dec1, dec2, dec3, decCmp, decM, decA, decNone, enc1, enc2, enc3, encCmp, encM, encA, encI, encNone]
theorem clz (t : IType) (d : Dest) (a : Operand) (tl : Tail) : Statement (.clz t d a tl) :=
  of_fields rfl fun _ => by simp [decodeFields, decodeLogic, Fields.m3, Fields.m50, Fields.l2, Fields.l3, Fields.imm, modReq, unused, noDest, noTail, dec1, dec2, dec3, decCmp, decM, decA, decNone, enc1, enc2, enc3, encCmp, encM, encA, encI, encNone]
theorem ctz (t : IType) (d : Dest) (a : Operand) (tl : Tail) : Statement (.ctz t d a tl) :=
  of_fields rfl fun _ => by simp [decodeFields, decodeLogic, Fields.m3, Fields.m50, Fields.l2, Fields.l3, Fields.imm, modReq, unused, noDest, noTail, dec1, dec2, dec3, decCmp, decM, decA, decNone, enc1, enc2, enc3, encCmp, encM, encA, encI, encNone]
theorem brev (t : IType) (d : Dest) (a : Operand) (tl : Tail) : Statement (.brev t d a tl) :=
  of_fields rfl fun _ => by simp [decodeFields, decodeLogic, Fields.m3, Fields.m50, Fields.l2, Fields.l3, Fields.imm, modReq, unused, noDest, noTail, dec1, dec2, dec3, decCmp, decM, decA, decNone, enc1, enc2, enc3, encCmp, encM, encA, encI, encNone]
theorem bfx (t : IType) (d : Dest) (a b c : Operand) (tl : Tail) : Statement (.bfx t d a b c tl) :=
  of_fields rfl fun _ => by simp [decodeFields, decodeLogic, Fields.m3, Fields.m50, Fields.l2, Fields.l3, Fields.imm, modReq, unused, noDest, noTail, dec1, dec2, dec3, decCmp, decM, decA, decNone, enc1, enc2, enc3, encCmp, encM, encA, encI, encNone]
theorem bfi (d : Dest) (a b c : Operand) (tl : Tail) : Statement (.bfi d a b c tl) :=
  of_fields rfl fun _ => by simp [decodeFields, decodeLogic, Fields.m3, Fields.m50, Fields.l2, Fields.l3, Fields.imm, modReq, unused, noDest, noTail, dec1, dec2, dec3, decCmp, decM, decA, decNone, enc1, enc2, enc3, encCmp, encM, encA, encI, encNone]
theorem perm8 (d : Dest) (a b c : Operand) (tl : Tail) : Statement (.perm8 d a b c tl) :=
  of_fields rfl fun _ => by simp [decodeFields, decodeLogic, Fields.m3, Fields.m50, Fields.l2, Fields.l3, Fields.imm, modReq, unused, noDest, noTail, dec1, dec2, dec3, decCmp, decM, decA, decNone, enc1, enc2, enc3, encCmp, encM, encA, encI, encNone]
theorem sel (t : IType) (d : Dest) (a b : Operand) (tl : Tail) : Statement (.sel t d a b tl) :=
  of_fields rfl fun _ => by simp [decodeFields, decodeLogic, Fields.m3, Fields.m50, Fields.l2, Fields.l3, Fields.imm, modReq, unused, noDest, noTail, dec1, dec2, dec3, decCmp, decM, decA, decNone, enc1, enc2, enc3, encCmp, encM, encA, encI, encNone]
theorem mov (t : IType) (d : Dest) (a : Operand) (tl : Tail) : Statement (.mov t d a tl) :=
  of_fields rfl fun _ => by simp [decodeFields, decodeLogic, Fields.m3, Fields.m50, Fields.l2, Fields.l3, Fields.imm, modReq, unused, noDest, noTail, dec1, dec2, dec3, decCmp, decM, decA, decNone, enc1, enc2, enc3, encCmp, encM, encA, encI, encNone]
theorem movi (t : IType) (d : Dest) (imm : BitVec 24) (tl : Tail) : Statement (.movi t d imm tl) :=
  of_fields rfl fun _ => by simp [decodeFields, decodeLogic, Fields.m3, Fields.m50, Fields.l2, Fields.l3, Fields.imm, modReq, unused, noDest, noTail, dec1, dec2, dec3, decCmp, decM, decA, decNone, enc1, enc2, enc3, encCmp, encM, encA, encI, encNone]
theorem lit (t : IType) (d : Dest) (a : Operand) (imm : BitVec 24) (tl : Tail) : Statement (.lit t d a imm tl) :=
  of_fields rfl fun _ => by simp [decodeFields, decodeLogic, Fields.m3, Fields.m50, Fields.l2, Fields.l3, Fields.imm, modReq, unused, noDest, noTail, dec1, dec2, dec3, decCmp, decM, decA, decNone, enc1, enc2, enc3, encCmp, encM, encA, encI, encNone]
theorem fadd (t : FType) (sat : Bool) (rnd : Rnd) (d : Dest) (a b : Operand) (tl : Tail) : Statement (.fadd t sat rnd d a b tl) :=
  of_fields rfl fun _ => by simp [decodeFields, decodeFloat, Fields.m3, Fields.m50, Fields.l2, Fields.l3, Fields.imm, modReq, unused, noDest, noTail, dec1, dec2, dec3, decCmp, decM, decA, decNone, enc1, enc2, enc3, encCmp, encM, encA, encI, encNone]
theorem fsub (t : FType) (sat : Bool) (rnd : Rnd) (d : Dest) (a b : Operand) (tl : Tail) : Statement (.fsub t sat rnd d a b tl) :=
  of_fields rfl fun _ => by simp [decodeFields, decodeFloat, Fields.m3, Fields.m50, Fields.l2, Fields.l3, Fields.imm, modReq, unused, noDest, noTail, dec1, dec2, dec3, decCmp, decM, decA, decNone, enc1, enc2, enc3, encCmp, encM, encA, encI, encNone]
theorem fmul (t : FType) (sat : Bool) (rnd : Rnd) (d : Dest) (a b : Operand) (tl : Tail) : Statement (.fmul t sat rnd d a b tl) :=
  of_fields rfl fun _ => by simp [decodeFields, decodeFloat, Fields.m3, Fields.m50, Fields.l2, Fields.l3, Fields.imm, modReq, unused, noDest, noTail, dec1, dec2, dec3, decCmp, decM, decA, decNone, enc1, enc2, enc3, encCmp, encM, encA, encI, encNone]
theorem ffma (t : FType) (sat : Bool) (rnd : Rnd) (d : Dest) (a b c : Operand) (tl : Tail) : Statement (.ffma t sat rnd d a b c tl) :=
  of_fields rfl fun _ => by simp [decodeFields, decodeFloat, Fields.m3, Fields.m50, Fields.l2, Fields.l3, Fields.imm, modReq, unused, noDest, noTail, dec1, dec2, dec3, decCmp, decM, decA, decNone, enc1, enc2, enc3, encCmp, encM, encA, encI, encNone]
theorem fmin (t : FType) (num : Bool) (d : Dest) (a b : Operand) (tl : Tail) : Statement (.fmin t num d a b tl) :=
  of_fields rfl fun _ => by simp [decodeFields, decodeFloat, Fields.m3, Fields.m50, Fields.l2, Fields.l3, Fields.imm, modReq, unused, noDest, noTail, dec1, dec2, dec3, decCmp, decM, decA, decNone, enc1, enc2, enc3, encCmp, encM, encA, encI, encNone]
theorem fmax (t : FType) (num : Bool) (d : Dest) (a b : Operand) (tl : Tail) : Statement (.fmax t num d a b tl) :=
  of_fields rfl fun _ => by simp [decodeFields, decodeFloat, Fields.m3, Fields.m50, Fields.l2, Fields.l3, Fields.imm, modReq, unused, noDest, noTail, dec1, dec2, dec3, decCmp, decM, decA, decNone, enc1, enc2, enc3, encCmp, encM, encA, encI, encNone]
theorem fcmp (t : FType) (cond : FCond) (a b : Operand) (tl : Tail) : Statement (.fcmp t cond a b tl) :=
  of_fields rfl fun _ => by simp [decodeFields, decodeFloat, Fields.m3, Fields.m50, Fields.l2, Fields.l3, Fields.imm, modReq, unused, noDest, noTail, dec1, dec2, dec3, decCmp, decM, decA, decNone, enc1, enc2, enc3, encCmp, encM, encA, encI, encNone]
theorem fclass (t : FType) (d : Dest) (a : Operand) (tl : Tail) : Statement (.fclass t d a tl) :=
  of_fields rfl fun _ => by simp [decodeFields, decodeFloat, Fields.m3, Fields.m50, Fields.l2, Fields.l3, Fields.imm, modReq, unused, noDest, noTail, dec1, dec2, dec3, decCmp, decM, decA, decNone, enc1, enc2, enc3, encCmp, encM, encA, encI, encNone]
theorem frcp (t : FType) (sat : Bool) (rnd : Rnd) (d : Dest) (a : Operand) (tl : Tail) : Statement (.frcp t sat rnd d a tl) :=
  of_fields rfl fun _ => by simp [decodeFields, decodeFloat, Fields.m3, Fields.m50, Fields.l2, Fields.l3, Fields.imm, modReq, unused, noDest, noTail, dec1, dec2, dec3, decCmp, decM, decA, decNone, enc1, enc2, enc3, encCmp, encM, encA, encI, encNone]
theorem frsq (t : FType) (sat : Bool) (rnd : Rnd) (d : Dest) (a : Operand) (tl : Tail) : Statement (.frsq t sat rnd d a tl) :=
  of_fields rfl fun _ => by simp [decodeFields, decodeFloat, Fields.m3, Fields.m50, Fields.l2, Fields.l3, Fields.imm, modReq, unused, noDest, noTail, dec1, dec2, dec3, decCmp, decM, decA, decNone, enc1, enc2, enc3, encCmp, encM, encA, encI, encNone]
theorem fsqrt (t : FType) (sat : Bool) (rnd : Rnd) (d : Dest) (a : Operand) (tl : Tail) : Statement (.fsqrt t sat rnd d a tl) :=
  of_fields rfl fun _ => by simp [decodeFields, decodeFloat, Fields.m3, Fields.m50, Fields.l2, Fields.l3, Fields.imm, modReq, unused, noDest, noTail, dec1, dec2, dec3, decCmp, decM, decA, decNone, enc1, enc2, enc3, encCmp, encM, encA, encI, encNone]
theorem fdiv (t : FType) (sat : Bool) (rnd : Rnd) (d : Dest) (a b : Operand) (tl : Tail) : Statement (.fdiv t sat rnd d a b tl) :=
  of_fields rfl fun _ => by simp [decodeFields, decodeFloat, Fields.m3, Fields.m50, Fields.l2, Fields.l3, Fields.imm, modReq, unused, noDest, noTail, dec1, dec2, dec3, decCmp, decM, decA, decNone, enc1, enc2, enc3, encCmp, encM, encA, encI, encNone]
theorem fexp2 (t : FType) (d : Dest) (a : Operand) (tl : Tail) : Statement (.fexp2 t d a tl) :=
  of_fields rfl fun _ => by simp [decodeFields, decodeFloat, Fields.m3, Fields.m50, Fields.l2, Fields.l3, Fields.imm, modReq, unused, noDest, noTail, dec1, dec2, dec3, decCmp, decM, decA, decNone, enc1, enc2, enc3, encCmp, encM, encA, encI, encNone]
theorem flog2 (t : FType) (d : Dest) (a : Operand) (tl : Tail) : Statement (.flog2 t d a tl) :=
  of_fields rfl fun _ => by simp [decodeFields, decodeFloat, Fields.m3, Fields.m50, Fields.l2, Fields.l3, Fields.imm, modReq, unused, noDest, noTail, dec1, dec2, dec3, decCmp, decM, decA, decNone, enc1, enc2, enc3, encCmp, encM, encA, encI, encNone]
theorem fsinpi (t : FType) (d : Dest) (a : Operand) (tl : Tail) : Statement (.fsinpi t d a tl) :=
  of_fields rfl fun _ => by simp [decodeFields, decodeFloat, Fields.m3, Fields.m50, Fields.l2, Fields.l3, Fields.imm, modReq, unused, noDest, noTail, dec1, dec2, dec3, decCmp, decM, decA, decNone, enc1, enc2, enc3, encCmp, encM, encA, encI, encNone]
theorem fcospi (t : FType) (d : Dest) (a : Operand) (tl : Tail) : Statement (.fcospi t d a tl) :=
  of_fields rfl fun _ => by simp [decodeFields, decodeFloat, Fields.m3, Fields.m50, Fields.l2, Fields.l3, Fields.imm, modReq, unused, noDest, noTail, dec1, dec2, dec3, decCmp, decM, decA, decNone, enc1, enc2, enc3, encCmp, encM, encA, encI, encNone]
theorem ftanh (t : FType) (d : Dest) (a : Operand) (tl : Tail) : Statement (.ftanh t d a tl) :=
  of_fields rfl fun _ => by simp [decodeFields, decodeFloat, Fields.m3, Fields.m50, Fields.l2, Fields.l3, Fields.imm, modReq, unused, noDest, noTail, dec1, dec2, dec3, decCmp, decM, decA, decNone, enc1, enc2, enc3, encCmp, encM, encA, encI, encNone]
theorem frnd (t : FType) (rnd : Rnd) (d : Dest) (a : Operand) (tl : Tail) : Statement (.frnd t rnd d a tl) :=
  of_fields rfl fun _ => by simp [decodeFields, decodeFloat, Fields.m3, Fields.m50, Fields.l2, Fields.l3, Fields.imm, modReq, unused, noDest, noTail, dec1, dec2, dec3, decCmp, decM, decA, decNone, enc1, enc2, enc3, encCmp, encM, encA, encI, encNone]
theorem ffrac (t : FType) (d : Dest) (a : Operand) (tl : Tail) : Statement (.ffrac t d a tl) :=
  of_fields rfl fun _ => by simp [decodeFields, decodeFloat, Fields.m3, Fields.m50, Fields.l2, Fields.l3, Fields.imm, modReq, unused, noDest, noTail, dec1, dec2, dec3, decCmp, decM, decA, decNone, enc1, enc2, enc3, encCmp, encM, encA, encI, encNone]
theorem fldexp (t : FType) (sat : Bool) (rnd : Rnd) (d : Dest) (a b : Operand) (tl : Tail) : Statement (.fldexp t sat rnd d a b tl) :=
  of_fields rfl fun _ => by simp [decodeFields, decodeFloat, Fields.m3, Fields.m50, Fields.l2, Fields.l3, Fields.imm, modReq, unused, noDest, noTail, dec1, dec2, dec3, decCmp, decM, decA, decNone, enc1, enc2, enc3, encCmp, encM, encA, encI, encNone]
theorem fgetexp (t : FType) (d : Dest) (a : Operand) (tl : Tail) : Statement (.fgetexp t d a tl) :=
  of_fields rfl fun _ => by simp [decodeFields, decodeFloat, Fields.m3, Fields.m50, Fields.l2, Fields.l3, Fields.imm, modReq, unused, noDest, noTail, dec1, dec2, dec3, decCmp, decM, decA, decNone, enc1, enc2, enc3, encCmp, encM, encA, encI, encNone]
theorem fgetmant (t : FType) (d : Dest) (a : Operand) (tl : Tail) : Statement (.fgetmant t d a tl) :=
  of_fields rfl fun _ => by simp [decodeFields, decodeFloat, Fields.m3, Fields.m50, Fields.l2, Fields.l3, Fields.imm, modReq, unused, noDest, noTail, dec1, dec2, dec3, decCmp, decM, decA, decNone, enc1, enc2, enc3, encCmp, encM, encA, encI, encNone]
theorem hadd2 (t : FType) (sat : Bool) (rnd : Rnd) (d : Dest) (a b : Operand) (tl : Tail) : Statement (.hadd2 t sat rnd d a b tl) :=
  of_fields rfl fun _ => by simp [decodeFields, decodeFloat, Fields.m3, Fields.m50, Fields.l2, Fields.l3, Fields.imm, modReq, unused, noDest, noTail, dec1, dec2, dec3, decCmp, decM, decA, decNone, enc1, enc2, enc3, encCmp, encM, encA, encI, encNone]
theorem hmul2 (t : FType) (sat : Bool) (rnd : Rnd) (d : Dest) (a b : Operand) (tl : Tail) : Statement (.hmul2 t sat rnd d a b tl) :=
  of_fields rfl fun _ => by simp [decodeFields, decodeFloat, Fields.m3, Fields.m50, Fields.l2, Fields.l3, Fields.imm, modReq, unused, noDest, noTail, dec1, dec2, dec3, decCmp, decM, decA, decNone, enc1, enc2, enc3, encCmp, encM, encA, encI, encNone]
theorem hfma2 (t : FType) (sat : Bool) (rnd : Rnd) (d : Dest) (a b c : Operand) (tl : Tail) : Statement (.hfma2 t sat rnd d a b c tl) :=
  of_fields rfl fun _ => by simp [decodeFields, decodeFloat, Fields.m3, Fields.m50, Fields.l2, Fields.l3, Fields.imm, modReq, unused, noDest, noTail, dec1, dec2, dec3, decCmp, decM, decA, decNone, enc1, enc2, enc3, encCmp, encM, encA, encI, encNone]
theorem fdot2 (t : FType) (sat : Bool) (rnd : Rnd) (d : Dest) (a b c : Operand) (tl : Tail) : Statement (.fdot2 t sat rnd d a b c tl) :=
  of_fields rfl fun _ => by simp [decodeFields, decodeFloat, Fields.m3, Fields.m50, Fields.l2, Fields.l3, Fields.imm, modReq, unused, noDest, noTail, dec1, dec2, dec3, decCmp, decM, decA, decNone, enc1, enc2, enc3, encCmp, encM, encA, encI, encNone]
theorem fabs (t : FType) (d : Dest) (a : Operand) (tl : Tail) : Statement (.fabs t d a tl) :=
  of_fields rfl fun _ => by simp [decodeFields, decodeFloat, Fields.m3, Fields.m50, Fields.l2, Fields.l3, Fields.imm, modReq, unused, noDest, noTail, dec1, dec2, dec3, decCmp, decM, decA, decNone, enc1, enc2, enc3, encCmp, encM, encA, encI, encNone]
theorem fneg (t : FType) (d : Dest) (a : Operand) (tl : Tail) : Statement (.fneg t d a tl) :=
  of_fields rfl fun _ => by simp [decodeFields, decodeFloat, Fields.m3, Fields.m50, Fields.l2, Fields.l3, Fields.imm, modReq, unused, noDest, noTail, dec1, dec2, dec3, decCmp, decM, decA, decNone, enc1, enc2, enc3, encCmp, encM, encA, encI, encNone]
theorem fclamp (t : FType) (d : Dest) (a b c : Operand) (tl : Tail) : Statement (.fclamp t d a b c tl) :=
  of_fields rfl fun _ => by simp [decodeFields, decodeFloat, Fields.m3, Fields.m50, Fields.l2, Fields.l3, Fields.imm, modReq, unused, noDest, noTail, dec1, dec2, dec3, decCmp, decM, decA, decNone, enc1, enc2, enc3, encCmp, encM, encA, encI, encNone]
theorem cvtToInteger (src : CvtSrc) (t : IType) (sat : Bool) (rnd : Rnd) (d : Dest) (a : Operand) (tl : Tail) : Statement (.cvtToInteger src t sat rnd d a tl) :=
  of_fields rfl fun _ => by
    have hs := cvt_source src 0x1C#6
    have hn : ¬ (0x1C#6 ++ src.code).toNat < 0x20 ∧ ¬ (0x1C#6 ++ src.code).toNat < 0x100 ∧
        ¬ (0x1C#6 ++ src.code).toNat < 0x1C0 ∧ (0x1C#6 ++ src.code).toNat < 0x1E0 ∧ (0x1C#6 ++ src.code)[4] = false := by
      rcases src with t' | _ | _ | _ | _ | _ | _
      · cases t' <;> decide
      all_goals decide
    obtain ⟨h1, h2, h3, h4, h5⟩ := hn
    simp [decodeFields, decodeCvt, hs, h1, h2, h3, h4, h5, Fields.m3, Fields.m50, Fields.l2, Fields.l3, Fields.imm, modReq, unused, noDest, noTail, dec1, dec2, dec3, decCmp, decM, decA, decNone, enc1, enc2, enc3, encCmp, encM, encA, encI, encNone]
theorem cvtToFloat (src : CvtSrc) (t : FType) (sat : Bool) (rnd : Rnd) (d : Dest) (a : Operand) (tl : Tail) : Statement (.cvtToFloat src t sat rnd d a tl) :=
  of_fields rfl fun _ => by
    have hs := cvt_source src 0x1D#6
    have hn : ¬ (0x1D#6 ++ src.code).toNat < 0x20 ∧ ¬ (0x1D#6 ++ src.code).toNat < 0x100 ∧
        ¬ (0x1D#6 ++ src.code).toNat < 0x1C0 ∧ (0x1D#6 ++ src.code).toNat < 0x1E0 ∧ (0x1D#6 ++ src.code)[4] = true := by
      rcases src with t' | _ | _ | _ | _ | _ | _
      · cases t' <;> decide
      all_goals decide
    obtain ⟨h1, h2, h3, h4, h5⟩ := hn
    simp [decodeFields, decodeCvt, hs, h1, h2, h3, h4, h5, Fields.m3, Fields.m50, Fields.l2, Fields.l3, Fields.imm, modReq, unused, noDest, noTail, dec1, dec2, dec3, decCmp, decM, decA, decNone, enc1, enc2, enc3, encCmp, encM, encA, encI, encNone]
theorem pk (fmt : PkFmt) (sat : Bool) (rnd : Rnd) (d : Dest) (a b : Operand) (c : BitVec 2) (tl : Tail) : Statement (.pk fmt sat rnd d a b c tl) :=
  of_fields rfl fun h => by
    rcases fmt with _ | _ | _ | _ | _ | _
    case f16 =>
      have hc : c = 0#2 := of_decide_eq_true (or_none_chk h)
      simp [decodeFields, decodeConv, hc, Fields.m3, Fields.m50, Fields.l2, Fields.l3, Fields.imm, modReq, unused, noDest, noTail, dec1, dec2, dec3, decCmp, decM, decA, decNone, enc1, enc2, enc3, encCmp, encM, encA, encI, encNone]
    case bf16 =>
      have hc : c = 0#2 := of_decide_eq_true (or_none_chk h)
      simp [decodeFields, decodeConv, hc, Fields.m3, Fields.m50, Fields.l2, Fields.l3, Fields.imm, modReq, unused, noDest, noTail, dec1, dec2, dec3, decCmp, decM, decA, decNone, enc1, enc2, enc3, encCmp, encM, encA, encI, encNone]
    all_goals simp [decodeFields, decodeConv, Fields.m3, Fields.m50, Fields.l2, Fields.l3, Fields.imm, modReq, unused, noDest, noTail, dec1, dec2, dec3, decCmp, decM, decA, decNone, enc1, enc2, enc3, encCmp, encM, encA, encI, encNone]
theorem unpk (fmt : PkFmt) (d : Dest) (a : Operand) (c : BitVec 3) (tl : Tail) : Statement (.unpk fmt d a c tl) :=
  of_fields rfl fun _ => by simp [decodeFields, decodeConv, Fields.m3, Fields.m50, Fields.l2, Fields.l3, Fields.imm, modReq, unused, noDest, noTail, dec1, dec2, dec3, decCmp, decM, decA, decNone, enc1, enc2, enc3, encCmp, encM, encA, encI, encNone]
theorem scaleq (fmt : ScFmt) (rnd : Rnd) (d : Dest) (a : Operand) (m : MaskOp) (tl : Tail) : Statement (.scaleq fmt rnd d a m tl) :=
  of_fields rfl fun _ => by simp [decodeFields, decodeConv, Fields.m3, Fields.m50, Fields.l2, Fields.l3, Fields.imm, modReq, unused, noDest, noTail, dec1, dec2, dec3, decCmp, decM, decA, decNone, enc1, enc2, enc3, encCmp, encM, encA, encI, encNone]
theorem mtest (op : MTest) (d : Dest) (a : Operand) (m : MaskOp) (tl : Tail) : Statement (.mtest op d a m tl) :=
  of_fields rfl fun _ => by simp [decodeFields, decodeCross, Fields.m3, Fields.m50, Fields.l2, Fields.l3, Fields.imm, modReq, unused, noDest, noTail, dec1, dec2, dec3, decCmp, decM, decA, decNone, enc1, enc2, enc3, encCmp, encM, encA, encI, encNone]
theorem mbits (d : Dest) (a : Operand) (m : MaskOp) (tl : Tail) : Statement (.mbits d a m tl) :=
  of_fields rfl fun _ => by simp [decodeFields, decodeCross, Fields.m3, Fields.m50, Fields.l2, Fields.l3, Fields.imm, modReq, unused, noDest, noTail, dec1, dec2, dec3, decCmp, decM, decA, decNone, enc1, enc2, enc3, encCmp, encM, encA, encI, encNone]
theorem mfold (op : FoldOp) (ty : FoldTy) (d : Dest) (a : Operand) (m : MaskOp) (tl : Tail) : Statement (.mfold op ty d a m tl) :=
  of_fields rfl fun _ => by
    obtain ⟨h1, h2, h3⟩ := mfold_parts op.code ty.code
    simp [decodeFields, decodeCross, h1, h2, h3, Fields.m3, Fields.m50, Fields.l2, Fields.l3, Fields.imm, modReq, unused, noDest, noTail, dec1, dec2, dec3, decCmp, decM, decA, decNone, enc1, enc2, enc3, encCmp, encM, encA, encI, encNone]
theorem scan (op : FoldOp) (ty : FoldTy) (ex : Bool) (d : Dest) (a : Operand) (m : MaskOp) (tl : Tail) : Statement (.scan op ty ex d a m tl) :=
  of_fields rfl fun _ => by
    obtain ⟨h1, h2, h3⟩ := fold_parts op.code ty.code ex
    simp [decodeFields, decodeCross, h1, h2, h3, Fields.m3, Fields.m50, Fields.l2, Fields.l3, Fields.imm, modReq, unused, noDest, noTail, dec1, dec2, dec3, decCmp, decM, decA, decNone, enc1, enc2, enc3, encCmp, encM, encA, encI, encNone]
theorem lperm (mode : LpMode) (d : Dest) (a b : Operand) (m : MaskOp) (tl : Tail) : Statement (.lperm mode d a b m tl) :=
  of_fields rfl fun _ => by simp [decodeFields, decodeCross, Fields.m3, Fields.m50, Fields.l2, Fields.l3, Fields.imm, modReq, unused, noDest, noTail, dec1, dec2, dec3, decCmp, decM, decA, decNone, enc1, enc2, enc3, encCmp, encM, encA, encI, encNone]
theorem mpeers (wide : Bool) (d : Dest) (a : Operand) (m : MaskOp) (tl : Tail) : Statement (.mpeers wide d a m tl) :=
  of_fields rfl fun _ => by cases wide <;> simp [decodeFields, decodeCross, Fields.m3, Fields.m50, Fields.l2, Fields.l3, Fields.imm, modReq, unused, noDest, noTail, dec1, dec2, dec3, decCmp, decM, decA, decNone, enc1, enc2, enc3, encCmp, encM, encA, encI, encNone]
theorem mlow (d : Dest) (m : MaskOp) (tl : Tail) : Statement (.mlow d m tl) :=
  of_fields rfl fun _ => by simp [decodeFields, decodeCross, Fields.m3, Fields.m50, Fields.l2, Fields.l3, Fields.imm, modReq, unused, noDest, noTail, dec1, dec2, dec3, decCmp, decM, decA, decNone, enc1, enc2, enc3, encCmp, encM, encA, encI, encNone]
theorem lsync (m : MaskOp) (tl : Tail) : Statement (.lsync m tl) :=
  of_fields rfl fun _ => by simp [decodeFields, decodeCross, Fields.m3, Fields.m50, Fields.l2, Fields.l3, Fields.imm, modReq, unused, noDest, noTail, dec1, dec2, dec3, decCmp, decM, decA, decNone, enc1, enc2, enc3, encCmp, encM, encA, encI, encNone]
theorem twld (pol : Policy) (w : BitVec 2) (base : Option (BitVec 5)) (off : BitVec 12) (tl : Tail) : Statement (.twld pol w base off tl) :=
  of_fields rfl fun _ => by
    have hw := window_small w
    simp [decodeFields, decodeCross, hw, Fields.m3, Fields.m50, Fields.l2, Fields.l3, Fields.imm, modReq, unused, noDest, noTail, dec1, dec2, dec3, decCmp, decM, decA, decNone, enc1, enc2, enc3, encCmp, encM, encA, encI, encNone]
theorem twst (pol : Policy) (w : BitVec 2) (base : Option (BitVec 5)) (off : BitVec 12) (tl : Tail) : Statement (.twst pol w base off tl) :=
  of_fields rfl fun _ => by
    have hw := window_small w
    simp [decodeFields, decodeCross, hw, Fields.m3, Fields.m50, Fields.l2, Fields.l3, Fields.imm, modReq, unused, noDest, noTail, dec1, dec2, dec3, decCmp, decM, decA, decNone, enc1, enc2, enc3, encCmp, encM, encA, encI, encNone]
theorem tdec (w : BitVec 2) (k2 hi : Bool) (fmt : TdecFmt) (d : Dest) (a : Operand) (tl : Tail) : Statement (.tdec w k2 hi fmt d a tl) :=
  of_fields rfl fun _ => by
    have hp := trellis_parts w k2 hi
    cases fmt <;> simp [decodeFields, decodeCross, hp, Fields.m3, Fields.m50, Fields.l2, Fields.l3, Fields.imm, modReq, unused, noDest, noTail, dec1, dec2, dec3, decCmp, decM, decA, decNone, enc1, enc2, enc3, encCmp, encM, encA, encI, encNone]
theorem tdec2 (w : BitVec 2) (k2 hi : Bool) (fmt : Tdec2Fmt) (d : Dest) (a : Operand) (tl : Tail) : Statement (.tdec2 w k2 hi fmt d a tl) :=
  of_fields rfl fun _ => by
    have hp := trellis_parts w k2 hi
    cases fmt <;> simp [decodeFields, decodeCross, hp, Fields.m3, Fields.m50, Fields.l2, Fields.l3, Fields.imm, modReq, unused, noDest, noTail, dec1, dec2, dec3, decCmp, decM, decA, decNone, enc1, enc2, enc3, encCmp, encM, encA, encI, encNone]
theorem ensave (d : BitVec 5) (tl : Tail) : Statement (.ensave d tl) :=
  of_fields rfl fun _ => by simp [decodeFields, decodeMask, Fields.m3, Fields.m50, Fields.l2, Fields.l3, Fields.imm, modReq, unused, noDest, noTail, dec1, dec2, dec3, decCmp, decM, decA, decNone, enc1, enc2, enc3, encCmp, encM, encA, encI, encNone]
theorem enrest (a : Operand) (tl : Tail) : Statement (.enrest a tl) :=
  of_fields rfl fun _ => by simp [decodeFields, decodeMask, Fields.m3, Fields.m50, Fields.l2, Fields.l3, Fields.imm, modReq, unused, noDest, noTail, dec1, dec2, dec3, decCmp, decM, decA, decNone, enc1, enc2, enc3, encCmp, encM, encA, encI, encNone]
theorem enand (a : Operand) (tl : Tail) : Statement (.enand a tl) :=
  of_fields rfl fun _ => by simp [decodeFields, decodeMask, Fields.m3, Fields.m50, Fields.l2, Fields.l3, Fields.imm, modReq, unused, noDest, noTail, dec1, dec2, dec3, decCmp, decM, decA, decNone, enc1, enc2, enc3, encCmp, encM, encA, encI, encNone]
theorem enor (a : Operand) (tl : Tail) : Statement (.enor a tl) :=
  of_fields rfl fun _ => by simp [decodeFields, decodeMask, Fields.m3, Fields.m50, Fields.l2, Fields.l3, Fields.imm, modReq, unused, noDest, noTail, dec1, dec2, dec3, decCmp, decM, decA, decNone, enc1, enc2, enc3, encCmp, encM, encA, encI, encNone]
theorem enandn (a : Operand) (tl : Tail) : Statement (.enandn a tl) :=
  of_fields rfl fun _ => by simp [decodeFields, decodeMask, Fields.m3, Fields.m50, Fields.l2, Fields.l3, Fields.imm, modReq, unused, noDest, noTail, dec1, dec2, dec3, decCmp, decM, decA, decNone, enc1, enc2, enc3, encCmp, encM, encA, encI, encNone]
theorem cmget (d : BitVec 6) (tl : Tail) : Statement (.cmget d tl) :=
  of_fields rfl fun _ => by simp [decodeFields, decodeMask, Fields.m3, Fields.m50, Fields.l2, Fields.l3, Fields.imm, modReq, unused, noDest, noTail, dec1, dec2, dec3, decCmp, decM, decA, decNone, enc1, enc2, enc3, encCmp, encM, encA, encI, encNone]
theorem cmset (a : Operand) (tl : Tail) : Statement (.cmset a tl) :=
  of_fields rfl fun _ => by simp [decodeFields, decodeMask, Fields.m3, Fields.m50, Fields.l2, Fields.l3, Fields.imm, modReq, unused, noDest, noTail, dec1, dec2, dec3, decCmp, decM, decA, decNone, enc1, enc2, enc3, encCmp, encM, encA, encI, encNone]
theorem setab (a b c : Operand) (tl : Tail) : Statement (.setab a b c tl) :=
  of_fields rfl fun _ => by simp [decodeFields, decodeMask, Fields.m3, Fields.m50, Fields.l2, Fields.l3, Fields.imm, modReq, unused, noDest, noTail, dec1, dec2, dec3, decCmp, decM, decA, decNone, enc1, enc2, enc3, encCmp, encM, encA, encI, encNone]
theorem setrt (n : BitVec 3) (e : BitVec 16) (tl : Tail) : Statement (.setrt n e tl) :=
  of_fields rfl fun _ => by simp [decodeFields, decodeMask, Fields.m3, Fields.m50, Fields.l2, Fields.l3, Fields.imm, modReq, unused, noDest, noTail, dec1, dec2, dec3, decCmp, decM, decA, decNone, enc1, enc2, enc3, encCmp, encM, encA, encI, encNone]
theorem bra (h : Hint) (off : BitVec 24) : Statement (.bra h off) :=
  of_fields rfl fun _ => by simp [decodeFields, decodeControl, Fields.m3, Fields.m50, Fields.l2, Fields.l3, Fields.imm, modReq, unused, noDest, noTail, dec1, dec2, dec3, decCmp, decM, decA, decNone, enc1, enc2, enc3, encCmp, encM, encA, encI, encNone]
theorem brc (c : BrcCond) (h : Hint) (off : BitVec 24) : Statement (.brc c h off) :=
  by cases c <;> exact of_fields rfl fun _ => by simp [decodeFields, decodeControl, Fields.m3, Fields.m50, Fields.l2, Fields.l3, Fields.imm, modReq, unused, noDest, noTail, dec1, dec2, dec3, decCmp, decM, decA, decNone, enc1, enc2, enc3, encCmp, encM, encA, encI, encNone]
theorem bru (c : BruCond) (h : Hint) (off : BitVec 24) : Statement (.bru c h off) :=
  by cases c <;> exact of_fields rfl fun _ => by simp [decodeFields, decodeControl, Fields.m3, Fields.m50, Fields.l2, Fields.l3, Fields.imm, modReq, unused, noDest, noTail, dec1, dec2, dec3, decCmp, decM, decA, decNone, enc1, enc2, enc3, encCmp, encM, encA, encI, encNone]
theorem call (link : BitVec 5) (h : Hint) (off : BitVec 24) : Statement (.call link h off) :=
  of_fields rfl fun _ => by simp [decodeFields, decodeControl, Fields.m3, Fields.m50, Fields.l2, Fields.l3, Fields.imm, modReq, unused, noDest, noTail, dec1, dec2, dec3, decCmp, decM, decA, decNone, enc1, enc2, enc3, encCmp, encM, encA, encI, encNone]
theorem ret (a : Operand) : Statement (.ret a) :=
  of_fields rfl fun _ => by simp [decodeFields, decodeControl, Fields.m3, Fields.m50, Fields.l2, Fields.l3, Fields.imm, modReq, unused, noDest, noTail, dec1, dec2, dec3, decCmp, decM, decA, decNone, enc1, enc2, enc3, encCmp, encM, encA, encI, encNone]
theorem jmpi (a : Operand) : Statement (.jmpi a) :=
  of_fields rfl fun _ => by simp [decodeFields, decodeControl, Fields.m3, Fields.m50, Fields.l2, Fields.l3, Fields.imm, modReq, unused, noDest, noTail, dec1, dec2, dec3, decCmp, decM, decA, decNone, enc1, enc2, enc3, encCmp, encM, encA, encI, encNone]
theorem calli (d : Dest) (a : Operand) : Statement (.calli d a) :=
  of_fields rfl fun _ => by simp [decodeFields, decodeControl, Fields.m3, Fields.m50, Fields.l2, Fields.l3, Fields.imm, modReq, unused, noDest, noTail, dec1, dec2, dec3, decCmp, decM, decA, decNone, enc1, enc2, enc3, encCmp, encM, encA, encI, encNone]
theorem loop (n : BitVec 2) (off : BitVec 24) : Statement (.loop n off) :=
  of_fields rfl fun _ => by simp [decodeFields, decodeControl, Fields.m3, Fields.m50, Fields.l2, Fields.l3, Fields.imm, modReq, unused, noDest, noTail, dec1, dec2, dec3, decCmp, decM, decA, decNone, enc1, enc2, enc3, encCmp, encM, encA, encI, encNone]
theorem spawn (d : BitVec 6) (a b c : Operand) : Statement (.spawn d a b c) :=
  of_fields rfl fun _ => by simp [decodeFields, decodeControl, Fields.m3, Fields.m50, Fields.l2, Fields.l3, Fields.imm, modReq, unused, noDest, noTail, dec1, dec2, dec3, decCmp, decM, decA, decNone, enc1, enc2, enc3, encCmp, encM, encA, encI, encNone]
theorem trap (imm : BitVec 24) : Statement (.trap imm) :=
  of_fields rfl fun _ => by simp [decodeFields, decodeControl, Fields.m3, Fields.m50, Fields.l2, Fields.l3, Fields.imm, modReq, unused, noDest, noTail, dec1, dec2, dec3, decCmp, decM, decA, decNone, enc1, enc2, enc3, encCmp, encM, encA, encI, encNone]
theorem brk (code : BitVec 6) : Statement (.brk code) :=
  of_fields rfl fun _ => by simp [decodeFields, decodeControl, Fields.m3, Fields.m50, Fields.l2, Fields.l3, Fields.imm, modReq, unused, noDest, noTail, dec1, dec2, dec3, decCmp, decM, decA, decNone, enc1, enc2, enc3, encCmp, encM, encA, encI, encNone]
theorem sleep (n : BitVec 24) : Statement (.sleep n) :=
  of_fields rfl fun _ => by simp [decodeFields, decodeControl, Fields.m3, Fields.m50, Fields.l2, Fields.l3, Fields.imm, modReq, unused, noDest, noTail, dec1, dec2, dec3, decCmp, decM, decA, decNone, enc1, enc2, enc3, encCmp, encM, encA, encI, encNone]
theorem illegalOpcode (word : W64) : Statement (.illegalOpcode word) := of_event rfl
theorem ld (wd : Width) (sx : Bool) (pol : Policy) (d : BitVec 6) (base index : Operand) (off : BitVec 12) (tl : Tail) : Statement (.ld wd sx pol d base index off tl) :=
  of_fields rfl fun _ => by simp [decodeFields, decodeMem, Fields.m3, Fields.m50, Fields.l2, Fields.l3, Fields.imm, modReq, unused, noDest, noTail, dec1, dec2, dec3, decCmp, decM, decA, decNone, enc1, enc2, enc3, encCmp, encM, encA, encI, encNone]
theorem st (wd : Width) (pol : Policy) (src : Dest) (base index : Operand) (off : BitVec 12) (tl : Tail) : Statement (.st wd pol src base index off tl) :=
  of_fields rfl fun _ => by simp [decodeFields, decodeMem, Fields.m3, Fields.m50, Fields.l2, Fields.l3, Fields.imm, modReq, unused, noDest, noTail, dec1, dec2, dec3, decCmp, decM, decA, decNone, enc1, enc2, enc3, encCmp, encM, encA, encI, encNone]
theorem ldsc (wd : Width) (sx : Bool) (pol : Policy) (d : BitVec 5) (base : Option (BitVec 5)) (index : Option Operand) (off : BitVec 12) (tl : Tail) : Statement (.ldsc wd sx pol d base index off tl) :=
  of_fields rfl fun h => by
    cases index with
    | none => simp [decodeFields, decodeMem, Except.map, Fields.m3, Fields.m50, Fields.l2, Fields.l3, Fields.imm, modReq, unused, noDest, noTail, dec1, dec2, dec3, decCmp, decM, decA, decNone, enc1, enc2, enc3, encCmp, encM, encA, encI, encNone]
    | some o =>
      have hx := sOrConst_field (last_check h)
      simp [decodeFields, decodeMem, Except.map, hx, Fields.m3, Fields.m50, Fields.l2, Fields.l3, Fields.imm, modReq, unused, noDest, noTail, dec1, dec2, dec3, decCmp, decM, decA, decNone, enc1, enc2, enc3, encCmp, encM, encA, encI, encNone]
theorem ldp (pol : Policy) (d : BitVec 6) (base : BitVec 5) (xy : Operand) (c2 c3 : BitVec 6) (tl : Tail) : Statement (.ldp pol d base xy c2 c3 tl) :=
  of_fields rfl fun _ => by simp [decodeFields, decodeMem, Fields.m3, Fields.m50, Fields.l2, Fields.l3, Fields.imm, modReq, unused, noDest, noTail, dec1, dec2, dec3, decCmp, decM, decA, decNone, enc1, enc2, enc3, encCmp, encM, encA, encI, encNone]
theorem stp (pol : Policy) (src : Dest) (base : BitVec 5) (xy : Operand) (c2 c3 : BitVec 6) (tl : Tail) : Statement (.stp pol src base xy c2 c3 tl) :=
  of_fields rfl fun _ => by simp [decodeFields, decodeMem, Fields.m3, Fields.m50, Fields.l2, Fields.l3, Fields.imm, modReq, unused, noDest, noTail, dec1, dec2, dec3, decCmp, decM, decA, decNone, enc1, enc2, enc3, encCmp, encM, encA, encI, encNone]
theorem prefetch (pol : Policy) (base index : Operand) (off : BitVec 12) : Statement (.prefetch pol base index off) :=
  of_fields rfl fun _ => by simp [decodeFields, decodeMem, Fields.m3, Fields.m50, Fields.l2, Fields.l3, Fields.imm, modReq, unused, noDest, noTail, dec1, dec2, dec3, decCmp, decM, decA, decNone, enc1, enc2, enc3, encCmp, encM, encA, encI, encNone]
theorem cwb (sel : LineSel) (tl : Tail) : Statement (.cwb sel tl) :=
  by cases sel <;> exact of_fields rfl fun _ => by simp [decodeFields, decodeMem, Fields.m3, Fields.m50, Fields.l2, Fields.l3, Fields.imm, modReq, unused, noDest, noTail, dec1, dec2, dec3, decCmp, decM, decA, decNone, enc1, enc2, enc3, encCmp, encM, encA, encI, encNone]
theorem cinv (sel : LineSel) (tl : Tail) : Statement (.cinv sel tl) :=
  by cases sel <;> exact of_fields rfl fun _ => by simp [decodeFields, decodeMem, Fields.m3, Fields.m50, Fields.l2, Fields.l3, Fields.imm, modReq, unused, noDest, noTail, dec1, dec2, dec3, decCmp, decM, decA, decNone, enc1, enc2, enc3, encCmp, encM, encA, encI, encNone]
theorem aconv (tgt : ConvTarget) (d : Dest) (a : Operand) : Statement (.aconv tgt d a) :=
  of_fields rfl fun _ => by simp [decodeFields, decodeMem, Fields.m3, Fields.m50, Fields.l2, Fields.l3, Fields.imm, modReq, unused, noDest, noTail, dec1, dec2, dec3, decCmp, decM, decA, decNone, enc1, enc2, enc3, encCmp, encM, encA, encI, encNone]
theorem aclass (sp : Space) (a : Operand) : Statement (.aclass sp a) :=
  of_fields rfl fun _ => by simp [decodeFields, decodeMem, Fields.m3, Fields.m50, Fields.l2, Fields.l3, Fields.imm, modReq, unused, noDest, noTail, dec1, dec2, dec3, decCmp, decM, decA, decNone, enc1, enc2, enc3, encCmp, encM, encA, encI, encNone]
theorem atom (op : AtomOp) (d : BitVec 6) (base x : Operand) (off : BitVec 12) (tl : Tail) : Statement (.atom op d base x off tl) :=
  of_fields rfl fun _ => by simp [decodeFields, decodeMem, Fields.m3, Fields.m50, Fields.l2, Fields.l3, Fields.imm, modReq, unused, noDest, noTail, dec1, dec2, dec3, decCmp, decM, decA, decNone, enc1, enc2, enc3, encCmp, encM, encA, encI, encNone]
theorem atomCas (d : BitVec 6) (a b c : Operand) (tl : Tail) : Statement (.atomCas d a b c tl) :=
  of_fields rfl fun _ => by simp [decodeFields, decodeMem, Fields.m3, Fields.m50, Fields.l2, Fields.l3, Fields.imm, modReq, unused, noDest, noTail, dec1, dec2, dec3, decCmp, decM, decA, decNone, enc1, enc2, enc3, encCmp, encM, encA, encI, encNone]
theorem fatom (op : FatomOp) (d : BitVec 6) (base x : Operand) (off : BitVec 12) (tl : Tail) : Statement (.fatom op d base x off tl) :=
  of_fields rfl fun _ => by simp [decodeFields, decodeMem, Fields.m3, Fields.m50, Fields.l2, Fields.l3, Fields.imm, modReq, unused, noDest, noTail, dec1, dec2, dec3, decCmp, decM, decA, decNone, enc1, enc2, enc3, encCmp, encM, encA, encI, encNone]
theorem ctrAdd (rel : Option Scope) (base : Option (BitVec 5)) (x : Operand) (off : BitVec 12) (tl : Tail) : Statement (.ctrAdd rel base x off tl) :=
  of_fields rfl fun _ => by cases rel <;> simp [decodeFields, decodeMem, Fields.m3, Fields.m50, Fields.l2, Fields.l3, Fields.imm, modReq, unused, noDest, noTail, dec1, dec2, dec3, decCmp, decM, decA, decNone, enc1, enc2, enc3, encCmp, encM, encA, encI, encNone]
theorem ctrWait (acq : Bool) (t : BitVec 3) (d : Option (BitVec 5)) (base : Option (BitVec 5)) (x : Operand) (off : BitVec 12) (slot : BitVec 3) : Statement (.ctrWait acq t d base x off slot) :=
  of_fields rfl fun _ => by simp [decodeFields, decodeMem, Fields.m3, Fields.m50, Fields.l2, Fields.l3, Fields.imm, modReq, unused, noDest, noTail, dec1, dec2, dec3, decCmp, decM, decA, decNone, enc1, enc2, enc3, encCmp, encM, encA, encI, encNone]
theorem ctrRd (d : BitVec 5) (base : Option (BitVec 5)) (off : BitVec 12) (tl : Tail) : Statement (.ctrRd d base off tl) :=
  of_fields rfl fun _ => by simp [decodeFields, decodeMem, Fields.m3, Fields.m50, Fields.l2, Fields.l3, Fields.imm, modReq, unused, noDest, noTail, dec1, dec2, dec3, decCmp, decM, decA, decNone, enc1, enc2, enc3, encCmp, encM, encA, encI, encNone]
theorem phase (sc : Scope) (tl : Tail) : Statement (.phase sc tl) :=
  of_fields rfl fun _ => by simp [decodeFields, decodeMem, Fields.m3, Fields.m50, Fields.l2, Fields.l3, Fields.imm, modReq, unused, noDest, noTail, dec1, dec2, dec3, decCmp, decM, decA, decNone, enc1, enc2, enc3, encCmp, encM, encA, encI, encNone]
theorem phaseP (sc : Scope) (tl : Tail) : Statement (.phaseP sc tl) :=
  of_fields rfl fun _ => by simp [decodeFields, decodeMem, Fields.m3, Fields.m50, Fields.l2, Fields.l3, Fields.imm, modReq, unused, noDest, noTail, dec1, dec2, dec3, decCmp, decM, decA, decNone, enc1, enc2, enc3, encCmp, encM, encA, encI, encNone]
theorem phaseS (tl : Tail) : Statement (.phaseS tl) :=
  of_fields rfl fun _ => by simp [decodeFields, decodeMem, Fields.m3, Fields.m50, Fields.l2, Fields.l3, Fields.imm, modReq, unused, noDest, noTail, dec1, dec2, dec3, decCmp, decM, decA, decNone, enc1, enc2, enc3, encCmp, encM, encA, encI, encNone]
theorem lfence (sc : Scope) (tl : Tail) : Statement (.lfence sc tl) :=
  of_fields rfl fun _ => by simp [decodeFields, decodeMem, Fields.m3, Fields.m50, Fields.l2, Fields.l3, Fields.imm, modReq, unused, noDest, noTail, dec1, dec2, dec3, decCmp, decM, decA, decNone, enc1, enc2, enc3, encCmp, encM, encA, encI, encNone]
theorem sign (n : BitVec 3) (a b : Operand) (slot : BitVec 3) : Statement (.sign n a b slot) :=
  of_fields rfl fun _ => by simp [decodeFields, decodeMatrix, Fields.m3, Fields.m50, Fields.l2, Fields.l3, Fields.imm, modReq, unused, noDest, noTail, dec1, dec2, dec3, decCmp, decM, decA, decNone, enc1, enc2, enc3, encCmp, encM, encA, encI, encNone]
theorem mma (cv : BitVec 3) (set sat : Bool) (acc : AccField) (b c : BitVec 5) (tl : Tail) : Statement (.mma cv set sat acc b c tl) :=
  of_fields rfl fun h => by
    have ha := AccField.ofField_field acc (chk_none h)
    obtain ⟨h1, h2⟩ := sat_set sat set
    simp [decodeFields, decodeMatrix, ha, h1, h2, Fields.m3, Fields.m50, Fields.l2, Fields.l3, Fields.imm, modReq, unused, noDest, noTail, dec1, dec2, dec3, decCmp, decM, decA, decNone, enc1, enc2, enc3, encCmp, encM, encA, encI, encNone]
theorem mmas (cv : BitVec 3) (set sat : Bool) (acc : AccField) (b c : BitVec 5) (tl : Tail) : Statement (.mmas cv set sat acc b c tl) :=
  of_fields rfl fun h => by
    have ha := AccField.ofField_field acc (chk_none h)
    obtain ⟨h1, h2⟩ := sat_set sat set
    simp [decodeFields, decodeMatrix, ha, h1, h2, Fields.m3, Fields.m50, Fields.l2, Fields.l3, Fields.imm, modReq, unused, noDest, noTail, dec1, dec2, dec3, decCmp, decM, decA, decNone, enc1, enc2, enc3, encCmp, encM, encA, encI, encNone]
theorem mmt (cv : BitVec 3) (set sat : Bool) (acc : AccField) (b c : BitVec 5) (tl : Tail) : Statement (.mmt cv set sat acc b c tl) :=
  of_fields rfl fun h => by
    have ha := AccField.ofField_field acc (chk_none h)
    obtain ⟨h1, h2⟩ := sat_set sat set
    simp [decodeFields, decodeMatrix, ha, h1, h2, Fields.m3, Fields.m50, Fields.l2, Fields.l3, Fields.imm, modReq, unused, noDest, noTail, dec1, dec2, dec3, decCmp, decM, decA, decNone, enc1, enc2, enc3, encCmp, encM, encA, encI, encNone]
theorem mzero (cv : CvAttach) (acc : AccField) (tl : Tail) : Statement (.mzero cv acc tl) :=
  of_fields rfl fun h => by
    have ha := AccField.ofField_field acc (chk_none h)
    have hc (f : Fields) (hf : f.md = cvBits cv 0#2) := cvOf_cvBits cv 0#2 f hf
    simp [decodeFields, decodeMatrix, ha, hc, Fields.m3, Fields.m50, Fields.l2, Fields.l3, Fields.imm, modReq, unused, noDest, noTail, dec1, dec2, dec3, decCmp, decM, decA, decNone, enc1, enc2, enc3, encCmp, encM, encA, encI, encNone]
theorem mld (cv : CvAttach) (acc : AccField) (b : BitVec 5) (tl : Tail) : Statement (.mld cv acc b tl) :=
  of_fields rfl fun h => by
    have ha := AccField.ofField_field acc (chk_none h)
    have hc (f : Fields) (hf : f.md = cvBits cv 0#2) := cvOf_cvBits cv 0#2 f hf
    simp [decodeFields, decodeMatrix, ha, hc, Fields.m3, Fields.m50, Fields.l2, Fields.l3, Fields.imm, modReq, unused, noDest, noTail, dec1, dec2, dec3, decCmp, decM, decA, decNone, enc1, enc2, enc3, encCmp, encM, encA, encI, encNone]
theorem mrd (n : BitVec 3) (d : BitVec 6) (acc : AccField) (c0 : Operand) (tl : Tail) : Statement (.mrd n d acc c0 tl) :=
  of_fields rfl fun h => by
    have ha := AccField.ofField_field acc (middle_check h)
    simp [decodeFields, decodeMatrix, ha, Fields.m3, Fields.m50, Fields.l2, Fields.l3, Fields.imm, modReq, unused, noDest, noTail, dec1, dec2, dec3, decCmp, decM, decA, decNone, enc1, enc2, enc3, encCmp, encM, encA, encI, encNone]
theorem mdrain (cv : CvAttach) (rnd : Rnd) (acc : AccField) (b : BitVec 5) (tl : Tail) : Statement (.mdrain cv rnd acc b tl) :=
  of_fields rfl fun h => by
    have ha := AccField.ofField_field acc (chk_none h)
    have hc (f : Fields) (hf : f.md = cvBits cv rnd.code) := cvOf_cvBits cv rnd.code f hf
    simp [decodeFields, decodeMatrix, ha, hc, Fields.m3, Fields.m50, Fields.l2, Fields.l3, Fields.imm, modReq, unused, noDest, noTail, dec1, dec2, dec3, decCmp, decM, decA, decNone, enc1, enc2, enc3, encCmp, encM, encA, encI, encNone]
theorem mdraint (cv : CvAttach) (rnd : Rnd) (acc : AccField) (b c : BitVec 5) (tl : Tail) : Statement (.mdraint cv rnd acc b c tl) :=
  of_fields rfl fun h => by
    have ha := AccField.ofField_field acc (chk_none h)
    have hc (f : Fields) (hf : f.md = cvBits cv rnd.code) := cvOf_cvBits cv rnd.code f hf
    simp [decodeFields, decodeMatrix, ha, hc, Fields.m3, Fields.m50, Fields.l2, Fields.l3, Fields.imm, modReq, unused, noDest, noTail, dec1, dec2, dec3, decCmp, decM, decA, decNone, enc1, enc2, enc3, encCmp, encM, encA, encI, encNone]
theorem mchk (cv : CvAttach) (acc : AccField) (b c : BitVec 5) (tl : Tail) : Statement (.mchk cv acc b c tl) :=
  of_fields rfl fun h => by
    have ha := AccField.ofField_field acc (chk_none h)
    have hc (f : Fields) (hf : f.md = cvBits cv 0#2) := cvOf_cvBits cv 0#2 f hf
    simp [decodeFields, decodeMatrix, ha, hc, Fields.m3, Fields.m50, Fields.l2, Fields.l3, Fields.imm, modReq, unused, noDest, noTail, dec1, dec2, dec3, decCmp, decM, decA, decNone, enc1, enc2, enc3, encCmp, encM, encA, encI, encNone]
theorem mstat (item : MstatItem) (tl : Tail) : Statement (.mstat item tl) :=
  by cases item <;> exact of_fields rfl fun _ => by simp [decodeFields, decodeMatrix, Dest.s_field_nonzero, Fields.m3, Fields.m50, Fields.l2, Fields.l3, Fields.imm, modReq, unused, noDest, noTail, dec1, dec2, dec3, decCmp, decM, decA, decNone, enc1, enc2, enc3, encCmp, encM, encA, encI, encNone]
theorem mrel (n : BitVec 3) : Statement (.mrel n) :=
  of_fields rfl fun _ => by simp [decodeFields, decodeMatrix, Fields.m3, Fields.m50, Fields.l2, Fields.l3, Fields.imm, modReq, unused, noDest, noTail, dec1, dec2, dec3, decCmp, decM, decA, decNone, enc1, enc2, enc3, encCmp, encM, encA, encI, encNone]
theorem attr (mode : AttrMode) (d : BitVec 6) (a b : Operand) (tl : Tail) : Statement (.attr mode d a b tl) :=
  by cases mode <;> exact of_fields rfl fun _ => by simp [decodeFields, decodeGfx, Fields.m3, Fields.m50, Fields.l2, Fields.l3, Fields.imm, modReq, unused, noDest, noTail, dec1, dec2, dec3, decCmp, decM, decA, decNone, enc1, enc2, enc3, encCmp, encM, encA, encI, encNone]
theorem vbld (n : BitVec 2) (d : BitVec 6) (a : BitVec 5) (b : Operand) (tl : Tail) : Statement (.vbld n d a b tl) :=
  of_fields rfl fun _ => by simp [decodeFields, decodeGfx, Fields.m3, Fields.m50, Fields.l2, Fields.l3, Fields.imm, modReq, unused, noDest, noTail, dec1, dec2, dec3, decCmp, decM, decA, decNone, enc1, enc2, enc3, encCmp, encM, encA, encI, encNone]
theorem prim (df : DepthFn) (cov : Option (BitVec 5)) (cull : Cull) (a b : Operand) (tl : Tail) : Statement (.prim df cov cull a b tl) :=
  by cases cov <;> exact of_fields rfl fun _ => by simp [decodeFields, decodeGfx, Fields.m3, Fields.m50, Fields.l2, Fields.l3, Fields.imm, modReq, unused, noDest, noTail, dec1, dec2, dec3, decCmp, decM, decA, decNone, enc1, enc2, enc3, encCmp, encM, encA, encI, encNone]
theorem sample (d : BitVec 6) (a : Operand) (b : BitVec 5) (c : Operand) (tl : Tail) : Statement (.sample d a b c tl) :=
  of_fields rfl fun _ => by simp [decodeFields, decodeGfx, Fields.m3, Fields.m50, Fields.l2, Fields.l3, Fields.imm, modReq, unused, noDest, noTail, dec1, dec2, dec3, decCmp, decM, decA, decNone, enc1, enc2, enc3, encCmp, encM, encA, encI, encNone]
theorem sampleg (d : BitVec 6) (a : Operand) (b : BitVec 5) (g : BitVec 6) (rt : BitVec 4) (tl : Tail) : Statement (.sampleg d a b g rt tl) :=
  of_fields rfl fun _ => by
    obtain ⟨h1, h2, h3⟩ := routed_parts g rt
    simp [decodeFields, decodeGfx, h1, h2, h3, Fields.m3, Fields.m50, Fields.l2, Fields.l3, Fields.imm, modReq, unused, noDest, noTail, dec1, dec2, dec3, decCmp, decM, decA, decNone, enc1, enc2, enc3, encCmp, encM, encA, encI, encNone]
theorem texld (d : BitVec 6) (a : Operand) (b : BitVec 5) (c : Operand) (tl : Tail) : Statement (.texld d a b c tl) :=
  of_fields rfl fun _ => by simp [decodeFields, decodeGfx, Fields.m3, Fields.m50, Fields.l2, Fields.l3, Fields.imm, modReq, unused, noDest, noTail, dec1, dec2, dec3, decCmp, decM, decA, decNone, enc1, enc2, enc3, encCmp, encM, encA, encI, encNone]
theorem hit (a b : Operand) : Statement (.hit a b) :=
  of_fields rfl fun _ => by simp [decodeFields, decodeGfx, Fields.m3, Fields.m50, Fields.l2, Fields.l3, Fields.imm, modReq, unused, noDest, noTail, dec1, dec2, dec3, decCmp, decM, decA, decNone, enc1, enc2, enc3, encCmp, encM, encA, encI, encNone]
theorem tretNext (d : BitVec 5) (a : Operand) (slot : BitVec 3) : Statement (.tretNext d a slot) :=
  of_fields rfl fun _ => by simp [decodeFields, decodeGfx, Fields.m3, Fields.m50, Fields.l2, Fields.l3, Fields.imm, modReq, unused, noDest, noTail, dec1, dec2, dec3, decCmp, decM, decA, decNone, enc1, enc2, enc3, encCmp, encM, encA, encI, encNone]
theorem tretDone (tl : Tail) : Statement (.tretDone tl) :=
  of_fields rfl fun _ => by simp [decodeFields, decodeGfx, Fields.m3, Fields.m50, Fields.l2, Fields.l3, Fields.imm, modReq, unused, noDest, noTail, dec1, dec2, dec3, decCmp, decM, decA, decNone, enc1, enc2, enc3, encCmp, encM, encA, encI, encNone]
theorem covw (a : Operand) : Statement (.covw a) :=
  of_fields rfl fun _ => by simp [decodeFields, decodeGfx, Fields.m3, Fields.m50, Fields.l2, Fields.l3, Fields.imm, modReq, unused, noDest, noTail, dec1, dec2, dec3, decCmp, decM, decA, decNone, enc1, enc2, enc3, encCmp, encM, encA, encI, encNone]
theorem xpushXc (d : Option (BitVec 5)) (n : BitVec 5) (tl : Tail) : Statement (.xpushXc d n tl) :=
  of_fields rfl fun _ => by simp [decodeFields, decodeEngine, Fields.m3, Fields.m50, Fields.l2, Fields.l3, Fields.imm, modReq, unused, noDest, noTail, dec1, dec2, dec3, decCmp, decM, decA, decNone, enc1, enc2, enc3, encCmp, encM, encA, encI, encNone]
theorem xpushXe (d : Option (BitVec 5)) (n : BitVec 5) (tl : Tail) : Statement (.xpushXe d n tl) :=
  of_fields rfl fun _ => by simp [decodeFields, decodeEngine, Fields.m3, Fields.m50, Fields.l2, Fields.l3, Fields.imm, modReq, unused, noDest, noTail, dec1, dec2, dec3, decCmp, decM, decA, decNone, enc1, enc2, enc3, encCmp, encM, encA, encI, encNone]
theorem xpushXt (d : Option (BitVec 5)) (k : BitVec 6) (sp : BitVec 5) (tl : Tail) : Statement (.xpushXt d k sp tl) :=
  of_fields rfl fun _ => by
    obtain ⟨h1, h2, h3⟩ := routed_parts k 0#4
    have hk := destV_field k
    simp only [Dest.field] at hk
    simp [decodeFields, decodeEngine, h1, h2, h3, hk, Fields.m3, Fields.m50, Fields.l2, Fields.l3, Fields.imm, modReq, unused, noDest, noTail, dec1, dec2, dec3, decCmp, decM, decA, decNone, enc1, enc2, enc3, encCmp, encM, encA, encI, encNone]
theorem xpopXt (d : BitVec 6) (slot : BitVec 3) : Statement (.xpopXt d slot) :=
  of_fields rfl fun _ => by simp [decodeFields, decodeEngine, Fields.m3, Fields.m50, Fields.l2, Fields.l3, Fields.imm, modReq, unused, noDest, noTail, dec1, dec2, dec3, decCmp, decM, decA, decNone, enc1, enc2, enc3, encCmp, encM, encA, encI, encNone]
theorem xpopXe (d : BitVec 5) (slot : BitVec 3) : Statement (.xpopXe d slot) :=
  of_fields rfl fun _ => by simp [decodeFields, decodeEngine, Fields.m3, Fields.m50, Fields.l2, Fields.l3, Fields.imm, modReq, unused, noDest, noTail, dec1, dec2, dec3, decCmp, decM, decA, decNone, enc1, enc2, enc3, encCmp, encM, encA, encI, encNone]
theorem xpopXm (d : BitVec 5) (slot : BitVec 3) : Statement (.xpopXm d slot) :=
  of_fields rfl fun _ => by simp [decodeFields, decodeEngine, Fields.m3, Fields.m50, Fields.l2, Fields.l3, Fields.imm, modReq, unused, noDest, noTail, dec1, dec2, dec3, decCmp, decM, decA, decNone, enc1, enc2, enc3, encCmp, encM, encA, encI, encNone]
theorem xstat (q : EngineQ) (d : BitVec 5) : Statement (.xstat q d) :=
  of_fields rfl fun _ => by simp [decodeFields, decodeEngine, Fields.m3, Fields.m50, Fields.l2, Fields.l3, Fields.imm, modReq, unused, noDest, noTail, dec1, dec2, dec3, decCmp, decM, decA, decNone, enc1, enc2, enc3, encCmp, encM, encA, encI, encNone]
theorem csrr (d : Dest) (csr : BitVec 24) : Statement (.csrr d csr) :=
  of_fields rfl fun _ => by simp [decodeFields, decodeEngine, Fields.m3, Fields.m50, Fields.l2, Fields.l3, Fields.imm, modReq, unused, noDest, noTail, dec1, dec2, dec3, decCmp, decM, decA, decNone, enc1, enc2, enc3, encCmp, encM, encA, encI, encNone]
theorem csrw (csr : BitVec 24) (a : Operand) : Statement (.csrw csr a) :=
  of_fields rfl fun _ => by simp [decodeFields, decodeEngine, Fields.m3, Fields.m50, Fields.l2, Fields.l3, Fields.imm, modReq, unused, noDest, noTail, dec1, dec2, dec3, decCmp, decM, decA, decNone, enc1, enc2, enc3, encCmp, encM, encA, encI, encNone]
theorem syscNote (a : Operand) (tl : Tail) : Statement (.syscNote a tl) :=
  of_fields rfl fun _ => by simp [decodeFields, decodeEngine, Fields.m3, Fields.m50, Fields.l2, Fields.l3, Fields.imm, modReq, unused, noDest, noTail, dec1, dec2, dec3, decCmp, decM, decA, decNone, enc1, enc2, enc3, encCmp, encM, encA, encI, encNone]
theorem syscKill (a : Operand) (tl : Tail) : Statement (.syscKill a tl) :=
  of_fields rfl fun _ => by simp [decodeFields, decodeEngine, Fields.m3, Fields.m50, Fields.l2, Fields.l3, Fields.imm, modReq, unused, noDest, noTail, dec1, dec2, dec3, decCmp, decM, decA, decNone, enc1, enc2, enc3, encCmp, encM, encA, encI, encNone]
theorem dbgr (d : BitVec 5) (a : Tailed Operand) : Statement (.dbgr d a) :=
  of_fields rfl fun _ => by simp [decodeFields, decodeEngine, Fields.m3, Fields.m50, Fields.l2, Fields.l3, Fields.imm, modReq, unused, noDest, noTail, dec1, dec2, dec3, decCmp, decM, decA, decNone, enc1, enc2, enc3, encCmp, encM, encA, encI, encNone]
theorem dbgw (a : Operand) (b : Tailed Operand) : Statement (.dbgw a b) :=
  of_fields rfl fun _ => by simp [decodeFields, decodeEngine, Fields.m3, Fields.m50, Fields.l2, Fields.l3, Fields.imm, modReq, unused, noDest, noTail, dec1, dec2, dec3, decCmp, decM, decA, decNone, enc1, enc2, enc3, encCmp, encM, encA, encI, encNone]
theorem iinv (a : BitVec 5) (b : Tailed (BitVec 5)) : Statement (.iinv a b) :=
  of_fields rfl fun _ => by simp [decodeFields, decodeEngine, Fields.m3, Fields.m50, Fields.l2, Fields.l3, Fields.imm, modReq, unused, noDest, noTail, dec1, dec2, dec3, decCmp, decM, decA, decNone, enc1, enc2, enc3, encCmp, encM, encA, encI, encNone]
theorem clauseStart (core : Nat) : Statement (.clauseStart core) := of_event rfl
theorem dwellBreak (gid : Nat) : Statement (.dwellBreak gid) := of_event rfl
theorem convergenceTimeout (gid : Nat) (hdr : W64) : Statement (.convergenceTimeout gid hdr) := of_event rfl
theorem sleepEnd (gid : Nat) : Statement (.sleepEnd gid) := of_event rfl
theorem asyncComplete (op : Nat) : Statement (.asyncComplete op) := of_event rfl
theorem exitDrainingEnd (gid : Nat) : Statement (.exitDrainingEnd gid) := of_event rfl
theorem binTimeExpiry (core bin : Nat) : Statement (.binTimeExpiry core bin) := of_event rfl
theorem spawnedGroupStart (core bin : Nat) : Statement (.spawnedGroupStart core bin) := of_event rfl
theorem blockPlacement (launch : Nat) (cores : List Nat) : Statement (.blockPlacement launch cores) := of_event rfl
theorem tileAccessPerformed (gid : Nat) : Statement (.tileAccessPerformed gid) := of_event rfl
theorem atomicAtHome (req : Nat) : Statement (.atomicAtHome req) := of_event rfl
theorem remoteAccess (req : Nat) : Statement (.remoteAccess req) := of_event rfl
theorem storeAck (req : Nat) : Statement (.storeAck req) := of_event rfl
theorem publishComplete (pub : Nat) : Statement (.publishComplete pub) := of_event rfl
theorem counterAdditionAtHome (req : Nat) : Statement (.counterAdditionAtHome req) := of_event rfl
theorem ctrWaitComplete (w : Nat) : Statement (.ctrWaitComplete w) := of_event rfl
theorem ctrWaitTimeout (w : Nat) : Statement (.ctrWaitTimeout w) := of_event rfl
theorem matrixOpStart (core : Nat) (ctx : Nat) : Statement (.matrixOpStart core ctx) := of_event rfl
theorem matrixOpComplete (core : Nat) (ctx : Nat) : Statement (.matrixOpComplete core ctx) := of_event rfl
theorem matrixCheckTrap (gid : Nat) : Statement (.matrixCheckTrap gid) := of_event rfl
theorem matrixContextEnd (blk : Nat) : Statement (.matrixContextEnd blk) := of_event rfl
theorem rayRecordReady (ray : Nat) : Statement (.rayRecordReady ray) := of_event rfl
theorem eviction (blk : Nat) : Statement (.eviction blk) := of_event rfl
theorem blockResume (blk core : Nat) : Statement (.blockResume blk core) := of_event rfl
theorem copyJobStart (job engine : Nat) : Statement (.copyJobStart job engine) := of_event rfl
theorem granuleLanded (job : Nat) : Statement (.granuleLanded job) := of_event rfl
theorem copyJobComplete (job : Nat) : Statement (.copyJobComplete job) := of_event rfl
theorem encoderJob (die : Nat) : Statement (.encoderJob die) := of_event rfl
theorem encoderJobComplete (job : Nat) : Statement (.encoderJobComplete job) := of_event rfl
theorem tileWrite (die ap : Nat) : Statement (.tileWrite die ap) := of_event rfl
theorem meshGroupStart (launch : Nat) (core : Nat) : Statement (.meshGroupStart launch core) := of_event rfl
theorem primitiveBin (prim : Nat) : Statement (.primitiveBin prim) := of_event rfl
theorem listAppend (slot prim : Nat) : Statement (.listAppend slot prim) := of_event rfl
theorem tilePassGrant (slot : Nat) : Statement (.tilePassGrant slot) := of_event rfl
theorem startSequence (slot tile : Nat) : Statement (.startSequence slot tile) := of_event rfl
theorem coverageVerdictWrite (slot tile : Nat) : Statement (.coverageVerdictWrite slot tile) := of_event rfl
theorem retirementComplete (blk : Nat) : Statement (.retirementComplete blk) := of_event rfl
theorem nodeComplete (launch : Nat) : Statement (.nodeComplete launch) := of_event rfl
theorem commandStart (q : Nat) : Statement (.commandStart q) := of_event rfl
theorem nopCommand (q c : Nat) : Statement (.nopCommand q c) := of_event rfl
theorem launch (q c : Nat) (first count : Nat) : Statement (.launch q c first count) := of_event rfl
theorem signal (q c : Nat) (va value : W64) : Statement (.signal q c va value) := of_event rfl
theorem wait (q c : Nat) (va target : W64) : Statement (.wait q c va target) := of_event rfl
theorem rpass (q c : Nat) (slot : Nat) (va : W64) : Statement (.rpass q c slot va) := of_event rfl
theorem rpend (q c : Nat) (slot : Nat) : Statement (.rpend q c slot) := of_event rfl
theorem preempt (q c : Nat) (victim : Nat) (off : W64) : Statement (.preempt q c victim off) := of_event rfl
theorem shootdown (q c : Nat) (va len : W64) : Statement (.shootdown q c va len) := of_event rfl
theorem migrate (q c : Nat) (va len : W64) : Statement (.migrate q c va len) := of_event rfl
theorem release (q c : Nat) (va len : W64) : Statement (.release q c va len) := of_event rfl
theorem gang (q c : Nat) (first count : Nat) (k1 k2 k3 : W64) : Statement (.gang q c first count k1 k2 k3) := of_event rfl
theorem kill (q c : Nat) (value : W64) : Statement (.kill q c value) := of_event rfl
theorem debugSampling (q c : Nat) (k1 k2 : W64) : Statement (.debugSampling q c k1 k2) := of_event rfl
theorem debugRing (q c : Nat) (k1 k2 : W64) : Statement (.debugRing q c k1 k2) := of_event rfl
theorem debugBreakpoints (q c : Nat) (k1 k2 : W64) : Statement (.debugBreakpoints q c k1 k2) := of_event rfl
theorem debugPredicate (q c : Nat) (k1 k2 : W64) : Statement (.debugPredicate q c k1 k2) := of_event rfl
theorem debugL2Watch (q c : Nat) (k1 k2 : W64) : Statement (.debugL2Watch q c k1 k2) := of_event rfl
theorem debugResume (q c : Nat) (k1 k2 : W64) : Statement (.debugResume q c k1 k2) := of_event rfl
theorem debugReadState (q c : Nat) (k1 k2 : W64) : Statement (.debugReadState q c k1 k2) := of_event rfl
theorem debugWriteState (q c : Nat) (k1 k2 : W64) : Statement (.debugWriteState q c k1 k2) := of_event rfl
theorem aperture (q c : Nat) (die ap : Nat) (ctl vbase size pbase dim : W64) : Statement (.aperture q c die ap ctl vbase size pbase dim) := of_event rfl
theorem attest (q c : Nat) (nonce report : W64) : Statement (.attest q c nonce report) := of_event rfl
theorem eventPost (q : Nat) : Statement (.eventPost q) := of_event rfl
theorem firmwareEvent (core : Nat) : Statement (.firmwareEvent core) := of_event rfl
theorem pcSample (core : Nat) : Statement (.pcSample core) := of_event rfl
theorem memorySample (core : Nat) : Statement (.memorySample core) := of_event rfl
theorem predicateResult (gid : Nat) : Statement (.predicateResult gid) := of_event rfl
theorem capacityRefreshRecord (core : Nat) : Statement (.capacityRefreshRecord core) := of_event rfl
theorem debugRecord (die : Nat) : Statement (.debugRecord die) := of_event rfl
theorem orderGate (req : Nat) : Statement (.orderGate req) := of_event rfl
theorem gateTimeout (req : Nat) : Statement (.gateTimeout req) := of_event rfl
theorem peerAccessFail (req : Nat) : Statement (.peerAccessFail req) := of_event rfl
theorem contributionArrival (die : Nat) (contrib : Nat) : Statement (.contributionArrival die contrib) := of_event rfl
theorem mergeHoldExpiry (die : Nat) (entry : Nat) : Statement (.mergeHoldExpiry die entry) := of_event rfl
theorem reductionFlush (pub : Nat) : Statement (.reductionFlush pub) := of_event rfl
theorem reductionAck (contrib : Nat) : Statement (.reductionAck contrib) := of_event rfl
theorem goTime (tag : Nat) : Statement (.goTime tag) := of_event rfl
theorem armTimeout (tag : Nat) : Statement (.armTimeout tag) := of_event rfl
theorem startedDeadline (tag : Nat) : Statement (.startedDeadline tag) := of_event rfl
theorem gangReleaseTimeout (tag : Nat) : Statement (.gangReleaseTimeout tag) := of_event rfl
theorem mirageDeadline (surface : Nat) : Statement (.mirageDeadline surface) := of_event rfl
theorem vsync (surface : Nat) : Statement (.vsync surface) := of_event rfl
theorem writeBackAtHome (wb : Nat) : Statement (.writeBackAtHome wb) := of_event rfl
theorem exit : Statement .exit :=
  of_fields rfl fun _ => by simp [decodeFields, decodeControl, Fields.m3, Fields.m50, Fields.l2, Fields.l3, Fields.imm, modReq, unused, noDest, noTail, dec1, dec2, dec3, decCmp, decM, decA, decNone, enc1, enc2, enc3, encCmp, encM, encA, encI, encNone]
theorem rtt : Statement .rtt :=
  of_fields rfl fun _ => by simp [decodeFields, decodeControl, Fields.m3, Fields.m50, Fields.l2, Fields.l3, Fields.imm, modReq, unused, noDest, noTail, dec1, dec2, dec3, decCmp, decM, decA, decNone, enc1, enc2, enc3, encCmp, encM, encA, encI, encNone]
theorem halt : Statement .halt :=
  of_fields rfl fun _ => by simp [decodeFields, decodeControl, Fields.m3, Fields.m50, Fields.l2, Fields.l3, Fields.imm, modReq, unused, noDest, noTail, dec1, dec2, dec3, decCmp, decM, decA, decNone, enc1, enc2, enc3, encCmp, encM, encA, encI, encNone]
theorem yield : Statement .yield :=
  of_fields rfl fun _ => by simp [decodeFields, decodeControl, Fields.m3, Fields.m50, Fields.l2, Fields.l3, Fields.imm, modReq, unused, noDest, noTail, dec1, dec2, dec3, decCmp, decM, decA, decNone, enc1, enc2, enc3, encCmp, encM, encA, encI, encNone]
theorem nop : Statement .nop :=
  of_fields rfl fun _ => by simp [decodeFields, decodeControl, Fields.m3, Fields.m50, Fields.l2, Fields.l3, Fields.imm, modReq, unused, noDest, noTail, dec1, dec2, dec3, decCmp, decM, decA, decNone, enc1, enc2, enc3, encCmp, encM, encA, encI, encNone]
theorem deviceLevelError : Statement .deviceLevelError := of_event rfl
theorem timeLock : Statement .timeLock := of_event rfl
theorem tailWrite (q : Nat) (x : W64) (size : Nat) (aligned : Bool) : Statement (.tailWrite q x size aligned) := of_event rfl
theorem semRead (n : Nat) (port0 port1 : Bool) : Statement (.semRead n port0 port1) := of_event rfl
theorem semWrite (n : Nat) (port : Nat) (value : W64) : Statement (.semWrite n port value) := of_event rfl
theorem evheadWrite (q : Nat) (value : W64) : Statement (.evheadWrite q value) := of_event rfl
theorem queueEnable (q : Nat) (value : W64) : Statement (.queueEnable q value) := of_event rfl
theorem ndropRead (q : Nat) : Statement (.ndropRead q) := of_event rfl
theorem mmissRead (surface : Nat) : Statement (.mmissRead surface) := of_event rfl
theorem leave (value : W64) : Statement (.leave value) := of_event rfl
theorem registerWrite (off : Nat) (value : W64) : Statement (.registerWrite off value) := of_event rfl
theorem hostWrite (port : Nat) (pa : Nat) (bytes : List Byte) : Statement (.hostWrite port pa bytes) := of_event rfl
theorem hostPortDown (port : Nat) : Statement (.hostPortDown port) := of_event rfl
theorem oasisSubstitution (p : WornPart) : Statement (.oasisSubstitution p) := of_event rfl
theorem firmwareCoreWear (core : Nat) : Statement (.firmwareCoreWear core) := of_event rfl
theorem supplySag (die : Nat) : Statement (.supplySag die) := of_event rfl
theorem clockStep (die : Nat) (up : Bool) : Statement (.clockStep die up) := of_event rfl
theorem packageReset (verified : Bool) (l2Vaults : Nat) : Statement (.packageReset verified l2Vaults) := of_event rfl
theorem asyncEngineFault (e : EngineRef) (addr : W64) : Statement (.asyncEngineFault e addr) := of_event rfl
theorem uncorrectableError (u : MemUnit) (die loc : Nat) (accesses : List ErrorAccess) : Statement (.uncorrectableError u die loc accesses) := of_event rfl
theorem softErrorCorrected (u : MemUnit) (die loc : Nat) : Statement (.softErrorCorrected u die loc) := of_event rfl
theorem l2WatchHit (die slice : Nat) (pa : Nat) (write : Bool) (cls unit reqDie : Nat) : Statement (.l2WatchHit die slice pa write cls unit reqDie) := of_event rfl
theorem laneFailure (port : Nat) : Statement (.laneFailure port) := of_event rfl
theorem peerAccess (src : Nat) (fa : Nat) (op : PeerOp) : Statement (.peerAccess src fa op) := of_event rfl
theorem timePacket (delta : Int) (pathChanged : Bool) : Statement (.timePacket delta pathChanged) := of_event rfl
theorem routeChange (src dst port : Nat) : Statement (.routeChange src dst port) := of_event rfl
theorem packetDrop (cls dst : Nat) : Statement (.packetDrop cls dst) := of_event rfl
theorem packageJoin (number : Nat) (routes : List (Nat × Nat)) : Statement (.packageJoin number routes) := of_event rfl
theorem arm (member : Nat) (k1 k2 k3 hash : W64) : Statement (.arm member k1 k2 k3 hash) := of_event rfl
theorem started (tag : Nat) (member : Nat) : Statement (.started tag member) := of_event rfl
theorem go (tag : Nat) (time : Nat) : Statement (.go tag time) := of_event rfl
theorem abort (tag : Nat) : Statement (.abort tag) := of_event rfl
theorem miss (tag : Nat) : Statement (.miss tag) := of_event rfl
theorem broken (tag : Nat) : Statement (.broken tag) := of_event rfl
theorem starved (core : Nat) : Statement (.starved core) := of_event rfl

end Sys2Proof.Laws.RoundTrip
end

