-- ==== Sys2Proof/Laws/Retire.lean ====
section
/-! SUPPORT. What the end of an instruction does: an operation put in flight, the tail's slot, the lanes that pass the word, and
the end of the clause. -/

namespace Sys2Proof.Machine

/-- The groups alone say which group is in a slot. -/
theorem State.group?_of_groups {s t : State} (h : t.groups = s.groups) (n : Nat) : t.group? n = s.group? n := by
  unfold State.group?; rw [h]

/-- What launching an operation does to the groups. -/
theorem State.group?_launchAsync (s : State) (a : AsyncOp) (n : Nat) :
    (s.launchAsync a).group? n =
      match a.slot with
      | none => s.group? n
      | some k => if n = a.gid then (s.group? n).map fun g => g.sbInc k.toNat else s.group? n := by
  unfold State.launchAsync
  cases a.slot with
  | none => exact State.group?_of_groups rfl n
  | some k =>
    dsimp only
    rw [State.group?_modGroup]
    split
    · exact congrArg _ (State.group?_of_groups rfl n)
    · exact State.group?_of_groups rfl n

/-- The group after a tail's slot is counted. -/
def Group.heldTail (g : Group) (tl : Tail) : Group :=
  match tl with
  | none => g
  | some n => g.sbInc n.toNat

theorem State.group?_holdTail (s : State) (c : Ctx) (tl : Tail) (n : Nat) :
    (s.holdTail c tl).group? n = if n = c.gid then (s.group? n).map fun g => g.heldTail tl else s.group? n := by
  cases tl with
  | none =>
    show s.group? n = _
    split
    · cases s.group? n <;> rfl
    · rfl
  | some k => exact State.group?_launchAsync s _ n

/-- The group of an instruction that has retired, and every other group (R35, R38, R55). -/
theorem State.group?_retired (s : State) (c : Ctx) (tl : Tail) (x : Group) (n : Nat) :
    ((s.put c x).retired c tl).group? n = if n = c.gid then some ((x.heldTail tl).advance c.at_ s.now c.seq) else s.group? n := by
  have hn : ((s.put c x).holdTail c tl).now = s.now := by
    cases tl with
    | none => rfl
    | some k =>
      show State.now (State.modGroup _ _ _) = _
      rw [State.modGroup_now]
      rfl
  unfold State.retired State.passWord
  rw [State.group?_modGroup, State.group?_holdTail, hn]
  unfold State.put
  rw [State.group?_setGroup]
  split
  · rfl
  · rfl

/-- A change of a group leaves everything else. -/
theorem State.modGroup_rest (s : State) (gid : Nat) (f : Group → Group) (a : List AsyncOp) (k : Nat) :
    { s.modGroup gid f with groups := [], asyncs := a, nextId := k } = { s with groups := [], asyncs := a, nextId := k } := by
  unfold State.modGroup; split <;> rfl

/-- An instruction that computes on registers changes its own group, and puts in flight at most its tail's operation. -/
theorem onlyGroup_retired (s : State) (c : Ctx) (tl : Tail) (x : Group) : OnlyGroup c.gid tl s ((s.put c x).retired c tl) := by
  refine ⟨?_, ?_, ?_, ?_⟩
  · unfold State.retired State.passWord
    rw [State.modGroup_rest]
    cases tl with
    | none => rfl
    | some k =>
      show ({ State.modGroup _ _ _ with groups := [], asyncs := [], nextId := 0 } : State) = _
      rw [State.modGroup_rest]
      rfl
  · intro n hn
    rw [State.group?_retired, if_neg hn]
  · rintro rfl
    unfold State.retired State.passWord
    rw [State.modGroup_asyncs, State.modGroup_nextId]
    exact ⟨rfl, rfl⟩
  · cases tl with
    | none =>
      refine ⟨[], ?_, by simp⟩
      unfold State.retired State.passWord
      rw [State.modGroup_asyncs, List.append_nil]
      rfl
    | some k =>
      refine ⟨[{ c.async (some k) with id := s.nextId }], ?_, ?_⟩
      · unfold State.retired State.passWord
        rw [State.modGroup_asyncs]
        show State.asyncs (State.modGroup _ _ _) = _
        rw [State.modGroup_asyncs]
        rfl
      · intro a ha
        rw [List.mem_singleton] at ha
        subst ha
        exact ⟨rfl, rfl, rfl, rfl, rfl⟩

/-- It leaves memory alone. -/
theorem sameMemory_retired (s : State) (c : Ctx) (tl : Tail) (x : Group) : SameMemory s ((s.put c x).retired c tl) := by
  intro a
  have h := congrArg State.mem (onlyGroup_retired s c tl x).1
  exact congrArg (Memory.read · a) h

/-- The registers of two groups are the same, and everything else that the issue of words leaves alone. -/
structure SameRegisters (g h : Group) : Prop where
  v : h.v = g.v
  s : h.s = g.s
  cm : h.cm = g.cm
  en : h.en = g.en
  lc : h.lc = g.lc
  fps : h.fps = g.fps
  sb : h.sb = g.sb
  specials : (h.live = g.live ∧ h.nregs = g.nregs ∧ h.w = g.w ∧ h.t = g.t ∧ h.ab = g.ab ∧ h.al = g.al ∧ h.hkind = g.hkind) ∧
    (h.epc = g.epc ∧ h.ecause = g.ecause ∧ h.eaddr = g.eaddr ∧ h.emask = g.emask ∧ h.ehdr = g.ehdr ∧ h.sen = g.sen ∧
      h.scm = g.scm ∧ h.escr = g.escr ∧ h.shadow = g.shadow ∧ h.dbgPend = g.dbgPend)

theorem SameRegisters.trans {a b c : Group} (h : SameRegisters a b) (k : SameRegisters b c) : SameRegisters a c := by
  obtain ⟨h1, h2, h3, h4, h5, h6, h7, ⟨h8, h9, h10, h11, h12, h13, h14⟩, h15, h16, h17, h18, h19, h20, h21, h22, h23, h24⟩ := h
  obtain ⟨k1, k2, k3, k4, k5, k6, k7, ⟨k8, k9, k10, k11, k12, k13, k14⟩, k15, k16, k17, k18, k19, k20, k21, k22, k23, k24⟩ := k
  exact ⟨k1.trans h1, k2.trans h2, k3.trans h3, k4.trans h4, k5.trans h5, k6.trans h6, k7.trans h7,
    ⟨k8.trans h8, k9.trans h9, k10.trans h10, k11.trans h11, k12.trans h12, k13.trans h13, k14.trans h14⟩,
    k15.trans h15, k16.trans h16, k17.trans h17, k18.trans h18, k19.trans h19, k20.trans h20, k21.trans h21,
    k22.trans h22, k23.trans h23, k24.trans h24⟩

/-- The end of a clause changes only what belongs to the issue of words (R40, R124, R127, R144). -/
theorem Group.endClause_frame (g : Group) (now : Nat) :
    SameRegisters g (g.endClause now) ∧ (g.endClause now).pcv = g.pcv ∧
      (g.clause.isSome = true → (g.endClause now).clause = none ∧ (g.endClause now).queue = []) := by
  cases hc : g.clause with
  | none => refine ⟨⟨?_, ?_, ?_, ?_, ?_, ?_, ?_, ?_⟩, ?_, ?_⟩ <;> simp [Group.endClause, hc]
  | some c =>
    by_cases h1 : c.atMin = true
    · by_cases h2 : c.alone = true
      · refine ⟨⟨?_, ?_, ?_, ?_, ?_, ?_, ?_, ?_⟩, ?_, ?_⟩ <;> simp [Group.endClause, hc, h1, h2]
      · by_cases h3 : c.lanes = g.lprev <;> refine ⟨⟨?_, ?_, ?_, ?_, ?_, ?_, ?_, ?_⟩, ?_, ?_⟩ <;>
          simp [Group.endClause, hc, h1, h2, h3]
    · refine ⟨⟨?_, ?_, ?_, ?_, ?_, ?_, ?_, ?_⟩, ?_, ?_⟩ <;> simp [Group.endClause, hc, h1]

/-- Passing a word changes only the program counters and what belongs to the issue of words (R35). -/
theorem Group.advance_frame (g : Group) (m : LaneMask) (now : Nat) (seq : W32) :
    SameRegisters g (g.advance m now seq) ∧
      ∀ c, g.clause = some c → (c.pc = c.lastWord → (g.advance m now seq).clause = none ∧ (g.advance m now seq).queue = []) ∧
        (c.pc ≠ c.lastWord → (g.advance m now seq).queue = g.queue) := by
  cases hc : g.clause with
  | none => refine ⟨⟨?_, ?_, ?_, ?_, ?_, ?_, ?_, ?_⟩, ?_⟩ <;> simp [Group.advance, hc]
  | some c =>
    have key : ∀ (x : Group), SameRegisters g x → x.clause.isSome = true → x.queue = g.queue → ∀ y : Group,
        y = (if c.pc = c.lastWord then x.endClause now else x) →
        SameRegisters g y ∧ ∀ d, some c = some d → (d.pc = d.lastWord → y.clause = none ∧ y.queue = []) ∧
          (d.pc ≠ d.lastWord → y.queue = g.queue) := by
      rintro x hx h1 h2 y rfl
      split
      · next hl =>
        obtain ⟨e1, -, e3⟩ := Group.endClause_frame x now
        refine ⟨hx.trans e1, ?_⟩
        rintro d ⟨rfl⟩
        exact ⟨fun _ => e3 h1, fun h => absurd hl h⟩
      · next hl =>
        refine ⟨hx, ?_⟩
        rintro d ⟨rfl⟩
        exact ⟨fun h => absurd h hl, fun _ => h2⟩
    unfold Group.advance
    rw [hc]
    refine key _ ?_ ?_ ?_ _ rfl
    · refine ⟨?_, ?_, ?_, ?_, ?_, ?_, ?_, ?_⟩ <;> simp
    · rfl
    · simp

/-- The context's group has the context's clause in progress. -/
theorem ctx_clause {s : State} {c : Ctx} (h : s.ctx? = some c) : c.g.clause = some c.cl := by
  unfold State.ctx? at h
  split at h
  · cases h
  · split at h
    · cases h
    · split at h
      · cases h
      · next hx => cases h; exact hx
/-- A tail's slot is all that a held tail changes. -/
theorem Group.heldTail_frame (x : Group) (tl : Tail) : let h := x.heldTail tl
   h.v = x.v ∧ h.s = x.s ∧ h.cm = x.cm ∧ h.en = x.en ∧ h.lc = x.lc ∧ h.fps = x.fps ∧ h.queue = x.queue ∧ h.clause = x.clause ∧ KeepsSpecials tl x h := by
  cases tl with
  | none => simp [Group.heldTail, KeepsSpecials]
  | some k =>
    simp [Group.heldTail, KeepsSpecials, Group.sbGet_sbInc]
    intro n
    by_cases h : n = k
    · simp [h]
    · have : n.toNat ≠ k.toNat := fun h' => h (BitVec.eq_of_toNat_eq h')
      simp [this, Ne.symm h]
/-- Everything that the end of an instruction does that computes on registers. -/
theorem retired_spec (s : State) (c : Ctx) (tl : Tail) (hc : s.ctx? = some c) (x : Group)
   (hs : ∃ cl, x.clause = some cl ∧ cl.pc = c.cl.pc ∧ cl.lastWord = c.cl.lastWord) (hk : KeepsSpecials none c.g x) :
   ∃ g, ((s.put c x).retired c tl).group? c.gid = some g ∧ KeepsSpecials tl c.g g ∧ OnlyGroup c.gid tl s ((s.put c x).retired c tl) ∧ SameMemory s ((s.put c x).retired c tl) ∧
     (g.v = x.v ∧ g.s = x.s ∧ g.cm = x.cm ∧ g.en = x.en ∧ g.lc = x.lc ∧ g.fps = x.fps) ∧
     (c.cl.pc ≠ c.cl.lastWord → g.queue = x.queue) ∧ (c.cl.pc = c.cl.lastWord → g.queue = [] ∧ g.clause = none) := by
  refine ⟨_, by rw [State.group?_retired, if_pos rfl], ?_, onlyGroup_retired .., sameMemory_retired s c tl x, ?_⟩
  · obtain ⟨f1, -⟩ := Group.advance_frame (x.heldTail tl) c.at_ s.now c.seq
    obtain ⟨-, -, -, -, -, -, -, -, k1, k2, k3⟩ := Group.heldTail_frame x tl
    obtain ⟨a1, a2, a3, a4, a5, a6, a7⟩ := k1
    obtain ⟨b1, b2, b3, b4, b5, b6, b7, b8, b9, b10⟩ := k2
    obtain ⟨⟨x1, x2, x3, x4, x5, x6, x7⟩, ⟨y1, y2, y3, y4, y5, y6, y7, y8, y9, y10⟩, hk3⟩ := hk
    obtain ⟨⟨p1, p2, p3, p4, p5, p6, p7⟩, q1, q2, q3, q4, q5, q6, q7, q8, q9, q10⟩ := f1.specials
    refine ⟨⟨p1.trans (a1.trans x1), p2.trans (a2.trans x2), p3.trans (a3.trans x3), p4.trans (a4.trans x4), p5.trans (a5.trans x5), p6.trans (a6.trans x6), p7.trans (a7.trans x7)⟩, ⟨q1.trans (b1.trans y1), q2.trans (b2.trans y2), q3.trans (b3.trans y3), q4.trans (b4.trans y4), q5.trans (b5.trans y5), q6.trans (b6.trans y6), q7.trans (b7.trans y7), q8.trans (b8.trans y8), q9.trans (b9.trans y9), q10.trans (b10.trans y10)⟩, ?_⟩
    intro n
    have e : ((x.heldTail tl).advance c.at_ s.now c.seq).sbGet n.toNat = (x.heldTail tl).sbGet n.toNat := by
      show NMap.get 0 _ _ = NMap.get 0 _ _; rw [f1.sb]
    rw [e, k3 n]
    have := hk3 n
    simp at this
    rw [this]
  · obtain ⟨f1, f2⟩ := Group.advance_frame (x.heldTail tl) c.at_ s.now c.seq
    obtain ⟨h1, h2, h3, h4, h5, h6, h7, h8, -⟩ := Group.heldTail_frame x tl
    obtain ⟨cl, g1, g2, g3⟩ := hs
    obtain ⟨e1, e2⟩ := f2 cl (h8.trans g1)
    rw [g2, g3] at e1 e2
    exact ⟨⟨f1.v.trans h1, f1.s.trans h2, f1.cm.trans h3, f1.en.trans h4, f1.lc.trans h5, f1.fps.trans h6⟩, fun h => (e2 h).trans h7, fun h => ⟨(e1 h).2, (e1 h).1⟩⟩

end Sys2Proof.Machine
end

