-- ==== Sys2Proof/Laws/Time.lean ====
section
/-! SUPPORT. What the passing of time keeps (log entries 3 and 28): the fetch units' work and values that reach their registers change neither
the agenda nor memory. -/

namespace Sys2Proof.Machine

/-- The agenda and memory of two states are the same. -/
abbrev SamePlan (s t : State) : Prop := t.agenda = s.agenda ∧ t.mem = s.mem

theorem SamePlan.trans {s t u : State} (h : SamePlan s t) (k : SamePlan t u) : SamePlan s u :=
  ⟨k.1.trans h.1, k.2.trans h.2⟩

theorem ite_samePlan {s t u : State} {p : Prop} [Decidable p] (h : SamePlan s t) (k : SamePlan s u) :
    SamePlan s (if p then t else u) := by
  split
  · exact h
  · exact k

/-- A fold whose steps keep them keeps them. -/
theorem foldl_samePlan {α : Type} {f : State → α → State} (h : ∀ s a, SamePlan s (f s a)) :
    ∀ (as : List α) (s : State), SamePlan s (as.foldl f s)
  | [], _ => ⟨rfl, rfl⟩
  | a :: as, s => (h s a).trans (foldl_samePlan h as (f s a))

theorem State.fillUnit_samePlan (s : State) (u : Nat) (e : TlbEntry) : SamePlan s (s.fillUnit u e) := by
  unfold State.fillUnit
  split <;> exact ⟨rfl, rfl⟩

theorem State.fillTlb_samePlan (s : State) (core asn root va : Nat) : SamePlan s (s.fillTlb core asn root va) := by
  unfold State.fillTlb State.leaf
  split
  · exact ⟨rfl, rfl⟩
  · split
    · exact ⟨rfl, rfl⟩
    · split
      · exact s.fillUnit_samePlan _ _
      · dsimp only
        have h (as : List Nat) := foldl_samePlan
          (fun (s : State) a => ⟨s.l2See_agenda a 8 false (7, if core < 8192 then core % 512 else 0) (unitDie core), s.l2See_mem ..⟩) as s
        split
        · exact h _
        · exact (h _).trans (State.fillUnit_samePlan ..)

theorem State.afterFetch_samePlan (s : State) (core n : Nat) (va : W64) : SamePlan s (s.afterFetch core n va) := by
  unfold State.afterFetch
  split
  · split
    · exact ⟨rfl, rfl⟩
    · have h := s.fillTlb_samePlan core
      refine ⟨?_, ?_⟩ <;> simp [(h _ _ _).1, (h _ _ _).2]
  · exact ⟨rfl, rfl⟩

theorem State.fetchUnits_samePlan (s : State) : SamePlan s s.fetchUnits := by
  refine foldl_samePlan (fun s e => foldl_samePlan (fun s a => ?_) _ _) _ _
  refine foldl_samePlan (fun s a => ?_) _ _
  split
  · exact ⟨rfl, rfl⟩
  · exact s.afterFetch_samePlan ..

theorem State.landEarlies_samePlan : ∀ (as : List AsyncOp) (s : State), SamePlan s (s.landEarlies as)
  | [], _ => ⟨rfl, rfl⟩
  | a :: as, s => by
    refine SamePlan.trans ?_ (State.landEarlies_samePlan as (s.landEarly a))
    unfold State.landEarly State.landSome
    exact ite_samePlan ⟨rfl, rfl⟩ ⟨by simp, by simp⟩

/-- Time passes without a change of the agenda. -/
@[simp] theorem State.tend_agenda (s : State) : s.tend.agenda = s.agenda :=
  (s.fetchUnits_samePlan.trans (State.landEarlies_samePlan ..)).1

/-- Time passes without a change of memory. -/
@[simp] theorem State.tend_mem (s : State) : s.tend.mem = s.mem :=
  (s.fetchUnits_samePlan.trans (State.landEarlies_samePlan ..)).2

end Sys2Proof.Machine
end

