-- ==== Sys2Proof/Tests/Slice0.lean ====
section
/-! SUPPORT. Tests of the model, and witnesses of the statements. Expected results come from the spec's encodings and worked
examples or are computed by hand from its rules. A witness shows that the hypotheses of a statement, or of one of its clauses,
are met together in a concrete state. -/

namespace Sys2Proof.Tests

set_option Elab.async false

open Sys2Proof.Machine

-- The state that the tests and witnesses start from

/-- A machine whose one group stands at the last word of its clause, which it is about to execute: 32 lanes, 64 registers. -/
def base : State := { State.reset.withGroup 0x1234 with cur := some 0, word := 0x1234 }

/-- The same with the group changed. -/
def having (f : Group → Group) : State := base.modGroup 0 f

/-- The context of a state's issuing word. -/
def at_ (s : State) : Ctx :=
  s.ctx?.getD { gid := 0, core := 0, g := placedGroup 0, cl := placedClause 0 0 0, at_ := 0, em := 0, rank := 0, word := 0, seq := 0 }

/-- The group with one value in every lane of a vector register. -/
def Vec (r : Nat) (x : W32) (g : Group) : Group := g.vsetLanes r (fun _ => x) lanes

/-- The group with a value in a scalar register, put there before its clause. -/
def Sca (r : Nat) (x : W64) (g : Group) : Group :=
  { g with s := NMap.set 0 g.s r x, clause := g.clause.map fun c => { c with sAt := NMap.set 0 g.s r x } }

/-- What is seen of the state after an instruction. -/
def after {α : Type} (i : Instr) (s : State) (f : State → α) : Option α :=
  match exec i s with
  | .next t => some (f t)
  | _ => none

/-- What is seen of the group after an instruction. -/
def groupAfter {α : Type} (i : Instr) (s : State) (f : Group → α) : Option α := (after i s fun t => (t.group? 0).map f).getD none

/-- A lane's vector register after an instruction. -/
def lane (i : Instr) (s : State) (r : Nat) (l : Nat := 5) : Option W32 := groupAfter i s fun g => g.vget r l

/-- A scalar register after an instruction. -/
def scalar (i : Instr) (s : State) (r : Nat) : Option W64 := groupAfter i s fun g => g.sget r

-- Well-formedness: an ill-formed term for each check

theorem test_wf_const_index : Instr.wfError (.iadd .i32 (.v 0) (.const 47) (.v 1 0) none) = some .constIndex := by decide
theorem test_wf_type_code : Instr.wfError (.shl .i8 (.v 0) (.v 1 0) (.v 2 0) none) = some .typeCode := by decide
theorem test_wf_destination : Instr.wfError (.mov .i32 (.sp .gix) (.s 1) none) = some .destination := by decide
theorem test_wf_operand_class : Instr.wfError (.ret (.q 0 0)) = some .operandClass := by decide
theorem test_wf_scalar_form : Instr.wfError (.iadd .i32 (.s 0) (.v 1 0) (.s 2) none) = some .scalarForm := by decide
theorem test_wf_queue_wide : Instr.wfError (.iadd .i64 (.v 0) (.q 0 0) (.v 2 0) none) = some .queueWide := by decide
theorem test_wf_modifier : Instr.wfError (.loop 0 1) = some .modifier := by decide
theorem test_wf_register : Instr.wfError (.csrr (.s 0) 12) = some .register := by decide

-- Decoding: a word of every instruction, written out from its encoding (R51 to R62 and its entry)

/-- A word of formats A and M: opcode [63:54], modifier, destination, operands or base, index and offset, tail (R51, R58). -/
def word (op : BitVec 10) (m : BitVec 6) (d : BitVec 8) (a b c : BitVec 12) (tl : BitVec 4 := 0) : W64 :=
  op ++ m ++ d ++ a ++ b ++ c ++ tl

/-- A word of formats I and B: the 24-bit immediate or offset stands in [27:4]. -/
def wordI (op : BitVec 10) (m : BitVec 6) (d : BitVec 8) (a : BitVec 12) (imm : BitVec 24) (tl : BitVec 4 := 0) : W64 :=
  op ++ m ++ d ++ a ++ imm ++ tl

/-- Every word of a list decodes to the instruction beside it. -/
abbrev Decodes (l : List (W64 × Instr)) : Prop := ∀ e ∈ l, decode e.1 = .ok e.2

theorem test_decode_integer : Decodes [
    (word 0x001 0b001000 0x03 0x010 0xC20 0, .iadd .n32 (.v 3) (.v 1 0) (.const 2) none),
    (word 0x002 0b000000 0x45 0x860 0xC20 0 0b1001, .isub .i32 (.s 5) (.s 6) (.const 2) (some 1)),
    (word 0x003 0b000100 0x03 0x012 0x020 0, .imul .i32 true (.v 3) (.v 1 2) (.v 2 0) none),
    (word 0x004 0b111000 0x04 0x060 0x080 0, .imulhi .n64 (.v 4) (.v 6 0) (.v 8 0) none),
    (word 0x005 0b000000 0x80 0x010 0x400 0x030, .imad .i32 false .keep (.v 1 0) (.q 0 0) (.v 3 0) none),
    (word 0x006 0b010000 0x03 0x010 0x020 0, .idiv .i16 false (.v 3) (.v 1 0) (.v 2 0) none),
    (word 0x007 0b101000 0x03 0x010 0x020 0, .irem .n8 (.v 3) (.v 1 0) (.v 2 0) none),
    (word 0x008 0b100100 0x03 0x010 0 0, .ineg .i8 true (.v 3) (.v 1 0) none),
    (word 0x009 0b110000 0x04 0x020 0 0, .iabs .i64 false (.v 4) (.v 2 0) none),
    (word 0x00A 0b011000 0x03 0x010 0x020 0, .imin .n16 (.v 3) (.v 1 0) (.v 2 0) none),
    (word 0x00B 0b000000 0x03 0x010 0x020 0, .imax .i32 (.v 3) (.v 1 0) (.v 2 0) none),
    (word 0x00C 0b100000 0x03 0x010 0x020 0, .iaddsat .i8 (.v 3) (.v 1 0) (.v 2 0) none),
    (word 0x00D 0b101000 0x03 0x010 0x020 0, .isubsat .n8 (.v 3) (.v 1 0) (.v 2 0) none),
    (word 0x00E 0b000000 0x03 0x010 0x020 0x030, .iclamp .i32 (.v 3) (.v 1 0) (.v 2 0) (.v 3 0) none),
    (word 0x00F 0b001000 0x04 0x020 0x010 0, .add64 .n32 (.v 4) (.v 2 0) (.v 1 0) none),
    (word 0x010 0b000000 0x04 0x860 0x010 0xC70, .lea .i32 (.v 4) (.s 6) (.v 1 0) 7 none),
    (word 0x011 0b101100 0x03 0x010 0x020 0x030, .dot4 .n8 true (.v 3) (.v 1 0) (.v 2 0) (.v 3 0) none),
    (0x048A60030CA00000, .icmp .n32 .lt (.v 3 0) (.const 10) none),
    (0x048260030CA00000, .icmp .i32 .lt (.v 3 0) (.const 10) none)] := by decide +kernel

theorem test_decode_logic : Decodes [
    (word 0x020 0 0x03 0x010 0x020 0, .and .i32 (.v 3) (.v 1 0) (.v 2 0) none),
    (word 0x021 0b110000 0x04 0x020 0x060 0, .or .i64 (.v 4) (.v 2 0) (.v 6 0) none),
    (word 0x022 0 0x43 0x820 0xC10 0, .xor .i32 (.s 3) (.s 2) (.const 1) none),
    (word 0x023 0 0x03 0x010 0 0, .not .i32 (.v 3) (.v 1 0) none),
    (word 0x024 0 0x03 0x010 0x020 0, .andn .i32 (.v 3) (.v 1 0) (.v 2 0) none),
    (word 0x025 0 0x03 0x010 0xC40 0, .shl .i32 (.v 3) (.v 1 0) (.const 4) none),
    (word 0x026 0 0x03 0x010 0xC40 0, .shr .i32 (.v 3) (.v 1 0) (.const 4) none),
    (word 0x027 0 0x03 0x010 0xC40 0, .sar .i32 (.v 3) (.v 1 0) (.const 4) none),
    (word 0x028 0b110000 0x04 0x020 0xC40 0, .rot .i64 (.v 4) (.v 2 0) (.const 4) none),
    (word 0x029 0 0x03 0x010 0 0, .popc .i32 (.v 3) (.v 1 0) none),
    (word 0x02A 0 0x03 0x010 0 0, .clz .i32 (.v 3) (.v 1 0) none),
    (word 0x02B 0 0x03 0x010 0 0, .ctz .i32 (.v 3) (.v 1 0) none),
    (word 0x02C 0 0x03 0x010 0 0, .brev .i32 (.v 3) (.v 1 0) none),
    (word 0x02D 0b001000 0x03 0x010 0x020 0x030, .bfx .n32 (.v 3) (.v 1 0) (.v 2 0) (.v 3 0) none),
    (word 0x02E 0 0x03 0x010 0x020 0x030, .bfi (.v 3) (.v 1 0) (.v 2 0) (.v 3 0) none),
    (word 0x02F 0 0x03 0x010 0x020 0x030, .perm8 (.v 3) (.v 1 0) (.v 2 0) (.v 3 0) none),
    (word 0x030 0 0x03 0x010 0x020 0, .sel .i32 (.v 3) (.v 1 0) (.v 2 0) none),
    (word 0x031 0 0x03 0x860 0 0, .mov .i32 (.v 3) (.s 6) none),
    (0x0C80010000000120, .movi .i32 (.v 1) 0x12 none),
    (0x0CC0010103456780, .lit .i32 (.v 1) (.v 1 0) 0x345678 none)] := by decide +kernel

theorem test_decode_float : Decodes [
    (word 0x100 0b001110 0x03 0x010 0x020 0, .fadd .f16 true .ru (.v 3) (.v 1 0) (.v 2 0) none),
    (word 0x101 0 0x03 0x010 0x020 0, .fsub .f32 false .rn (.v 3) (.v 1 0) (.v 2 0) none),
    (word 0x102 0b010011 0x03 0x010 0x020 0, .fmul .bf16 false .rd (.v 3) (.v 1 0) (.v 2 0) none),
    (0x40C1040134008200, .ffma .f32 false .rz (.v 4) (.v 1 3) (.q 0 0) (.s 2) none),
    (0x40C1040154008200, .ffma .f32 false .rz (.v 4) (.v 1 5) (.q 0 0) (.s 2) none),
    (0x40C1800134008200, .ffma .f32 false .rz .keep (.v 1 3) (.q 0 0) (.s 2) none),
    (word 0x104 0b000100 0x03 0x010 0x020 0, .fmin .f32 true (.v 3) (.v 1 0) (.v 2 0) none),
    (word 0x105 0 0x03 0x010 0x020 0, .fmax .f32 false (.v 3) (.v 1 0) (.v 2 0) none),
    (word 0x106 0b000111 0x60 0x010 0x020 0, .fcmp .f32 .uno (.v 1 0) (.v 2 0) none),
    (word 0x107 0 0x03 0x010 0 0, .fclass .f32 (.v 3) (.v 1 0) none),
    (word 0x108 0 0x03 0x010 0 0, .frcp .f32 false .rn (.v 3) (.v 1 0) none),
    (word 0x109 0 0x03 0x010 0 0, .frsq .f32 false .rn (.v 3) (.v 1 0) none),
    (word 0x10A 0 0x03 0x010 0 0, .fsqrt .f32 false .rn (.v 3) (.v 1 0) none),
    (word 0x10B 0 0x03 0x010 0x020 0, .fdiv .f32 false .rn (.v 3) (.v 1 0) (.v 2 0) none),
    (word 0x10C 0 0x03 0x010 0 0, .fexp2 .f32 (.v 3) (.v 1 0) none),
    (word 0x10D 0 0x03 0x010 0 0, .flog2 .f32 (.v 3) (.v 1 0) none),
    (word 0x10E 0 0x03 0x010 0 0, .fsinpi .f32 (.v 3) (.v 1 0) none),
    (word 0x10F 0 0x03 0x010 0 0, .fcospi .f32 (.v 3) (.v 1 0) none),
    (word 0x110 0 0x03 0x010 0 0, .ftanh .f32 (.v 3) (.v 1 0) none),
    (word 0x111 0b000001 0x03 0x010 0 0, .frnd .f32 .rz (.v 3) (.v 1 0) none),
    (word 0x112 0 0x03 0x010 0 0, .ffrac .f32 (.v 3) (.v 1 0) none),
    (word 0x113 0 0x03 0x010 0x020 0, .fldexp .f32 false .rn (.v 3) (.v 1 0) (.v 2 0) none),
    (word 0x114 0 0x03 0x010 0 0, .fgetexp .f32 (.v 3) (.v 1 0) none),
    (word 0x115 0 0x03 0x010 0 0, .fgetmant .f32 (.v 3) (.v 1 0) none),
    (word 0x116 0b110000 0x03 0x010 0x020 0, .hadd2 .f16x2 false .rn (.v 3) (.v 1 0) (.v 2 0) none),
    (word 0x117 0b111000 0x03 0x010 0x020 0, .hmul2 .bf16x2 false .rn (.v 3) (.v 1 0) (.v 2 0) none),
    (word 0x118 0b110000 0x03 0x010 0x020 0x030, .hfma2 .f16x2 false .rn (.v 3) (.v 1 0) (.v 2 0) (.v 3 0) none),
    (word 0x119 0b110000 0x03 0x010 0x020 0x030, .fdot2 .f16x2 false .rn (.v 3) (.v 1 0) (.v 2 0) (.v 3 0) none),
    (word 0x11A 0 0x03 0x010 0 0, .fabs .f32 (.v 3) (.v 1 0) none),
    (word 0x11B 0 0x03 0x010 0 0, .fneg .f32 (.v 3) (.v 1 0) none),
    (word 0x11C 0 0x03 0x010 0x020 0x030, .fclamp .f32 (.v 3) (.v 1 0) (.v 2 0) (.v 3 0) none),
    (word 0x1C8 0b010001 0x03 0x010 0 0, .cvtToInteger .f32 .i16 false .rz (.v 3) (.v 1 0) none),
    (word 0x1DA 0b011100 0x03 0x010 0 0, .cvtToFloat .bf16 .e4m3 true .rn (.v 3) (.v 1 0) none),
    (word 0x1E0 0b010000 0x03 0x010 0x020 0xC10, .pk .e4m3 false .rn (.v 3) (.v 1 0) (.v 2 0) 1 none),
    (word 0x1E1 0b100000 0x03 0x010 0 0xC70, .unpk .e2m1 (.v 3) (.v 1 0) 7 none)] := by decide +kernel

/-- A constant with a routing code names no operand (the example under R53). -/
theorem test_decode_routed_constant : decode 0x40C104013C138200 = .error .operandField := by decide +kernel

theorem test_decode_cross_lane : Decodes [
    (word 0x200 0b001000 0x60 0x010 0x890 0, .mtest .all (.sp .cm) (.v 1 0) (.s 9) none),
    (word 0x201 0 0x44 0x010 0x890 0, .mbits (.s 4) (.v 1 0) (.s 9) none),
    (0x8082030208900000, .mfold .add .n32 (.v 3) (.v 2 0) (.s 9) none),
    (word 0x203 0b000011 0x03 0x010 0x890 0, .scan .add .n32 true (.v 3) (.v 1 0) (.s 9) none),
    (word 0x204 0b011000 0x03 0x010 0x020 0x890, .lperm .xor (.v 3) (.v 1 0) (.v 2 0) (.s 9) none),
    (word 0x205 0b001000 0x03 0x020 0x890 0, .mpeers true (.v 3) (.v 2 0) (.s 9) none),
    (word 0x206 0 0x60 0x890 0 0, .mlow (.sp .cm) (.s 9) none),
    (word 0x207 0 0 0x890 0 0, .lsync (.s 9) none),
    (word 0x1E2 0b010010 0x03 0x010 0x890 0, .scaleq .sc4 .ru (.v 3) (.v 1 0) (.s 9) none),
    (0x8800008600000409, .twld .dflt 0 (some 6) 0x40 (some 1)),
    (word 0x221 0 0x03 0x860 0 0xFE0 0b1001, .twst .dflt 3 (some 6) 0xFE0 (some 1)),
    (0x8880050408700000, .tdec 0 false false (.f32 (.s 7)) (.v 5) (.v 4 0) none),
    (word 0x223 0b101000 0x05 0x040 0 0, .tdec2 2 true false .f16x2 (.v 5) (.v 4 0) none),
    (word 0x240 0 0x44 0 0 0, .ensave 4 none), (word 0x241 0 0 0x840 0 0, .enrest (.s 4) none),
    (word 0x242 0 0 0xC70 0 0, .enand (.const 7) none), (word 0x243 0 0 0x840 0 0, .enor (.s 4) none),
    (word 0x244 0 0 0x840 0 0, .enandn (.s 4) none), (word 0x245 0 0x05 0 0 0, .cmget 5 none),
    (word 0x246 0 0 0x051 0 0, .cmset (.v 5 1) none), (word 0x247 0 0 0x840 0x850 0xC10, .setab (.s 4) (.s 5) (.const 1) none),
    (0x9242000000080030, .setrt 2 0x8003 none)] := by decide +kernel

theorem test_decode_control : Decodes [
    (wordI 0x280 0b000011 0 0 0xFFFFFE, .bra .uni 0xFFFFFE), (0xA04100000FFFFF00, .brc .cm .likely 0xFFFFF0),
    (wordI 0x281 0b001110 0 0x013 0x10, .brc (.z (.v 1 3)) .unlikely 0x10),
    (wordI 0x282 0b010100 0 0x840 0x10, .bru (.sz (.s 4)) .none 0x10), (wordI 0x283 0 0x44 0 0x10, .call 4 .none 0x10),
    (word 0x284 0 0 0x840 0 0, .ret (.s 4)), (word 0x285 0 0 0x021 0 0, .jmpi (.v 2 1)),
    (word 0x286 0 0x44 0x840 0 0, .calli (.s 4) (.s 4)), (word 0x287 0 0 0 0 0, .exit), (word 0x288 0 0 0 0 0, .rtt),
    (word 0x289 0 0 0 0 0, .halt), (0xA400000000000000, .loop 0 0), (word 0x291 0 0 0 0 0, .yield),
    (0xA480098A00300400, .spawn 9 (.s 10) (.v 3 0) (.v 4 0)), (wordI 0x293 0 0 0 0xABCDEF, .trap 0xABCDEF),
    (word 0x294 0b111111 0 0 0 0, .brk 63), (0xA540000000000000, .nop), (wordI 0x296 0 0 0 1000, .sleep 1000)] := by
  decide +kernel

theorem test_decode_memory : Decodes [
    (0xB010018400000008, .ld .w false .dflt 1 (.s 4) (.v 0 0) 0 (some 0)),
    (0xB050028600000000, .st .w .dflt (.v 2) (.s 6) (.v 0 0) 0 none),
    (0xB0984C800000010B, .ldsc .d false .dflt 12 (some 0) none 0x10 (some 3)),
    (word 0x2C3 0b010001 0x05 0x840 0x010 0x0C3, .ldp .strm 5 4 (.v 1 0) 3 3 none),
    (word 0x2C4 0b010000 0x05 0x840 0x010 0x0C3, .stp .dflt (.v 5) 4 (.v 1 0) 3 3 none),
    (word 0x2C5 0b000010 0 0x860 0x010 0xFFF, .prefetch .byp (.s 6) (.v 1 0) 0xFFF),
    (word 0x2C6 0 0 0x860 0x010 0x008, .cwb (.line (.s 6) (.v 1 0) 8) none), (word 0x2C7 0b001000 0 0 0 0 0b1001, .cinv .all (some 1)),
    (word 0x2C8 0b010000 0x04 0x020 0 0, .aconv .tile (.v 4) (.v 2 0)), (word 0x2C9 0b100000 0x60 0x020 0 0, .aclass .priv (.v 2 0)),
    (0xB80005840030008A, .atom .add 5 (.s 4) (.v 3 0) 8 (some 2)), (word 0x2E1 0 0x05 0x840 0x010 0x020, .atomCas 5 (.s 4) (.v 1 0) (.v 2 0) none),
    (0xB890078400600000, .fatom .max 7 (.s 4) (.v 6 0) 0 none), (0xBC0600840C100080, .ctrAdd (some .pkg) (some 4) (.const 1) 8 none),
    (0xBC405F8409B00008, .ctrWait false 0 (some 31) (some 4) (.s 27) 0 0), (0xBC6454840890008B, .ctrWait true 4 (some 20) (some 4) (.s 9) 8 3),
    (word 0x2F2 0 0x45 0x840 0 0x008, .ctrRd 5 (some 4) 8 none), (word 0x2F3 0b000010 0 0 0 0, .phase .pkg none),
    (0xBCC900000000000A, .phaseP .die (some 2)), (word 0x2F3 0b010000 0 0 0 0, .phaseS none),
    (word 0x2F4 0b000011 0 0 0 0 0b1001, .lfence .sys (some 1))] := by decide +kernel

theorem test_decode_matrix : Decodes [
    (0xD000008600500009, .sign 0 (.s 6) (.v 5 0) 1), (0xD05400E8C8A08C00, .mma 2 false false ⟨5, none⟩ 10 12 none),
    (word 0x342 0b000101 0 0xE10 0x8A0 0x8C0, .mmas 0 true false ⟨4, some (1, 0)⟩ 10 12 none),
    (word 0x343 0b001110 0 0xC0C 0x8A0 0x8C0, .mmt 1 false true ⟨0, none⟩ 10 12 none), (word 0x344 0 0 0xC8C 0 0, .mzero none ⟨1, none⟩ none),
    (word 0x345 0b011100 0 0xC0C 0x8A0 0, .mld (some 3) ⟨0, none⟩ 10 none), (0xD1900CC0CC00000C, .mrd 2 12 ⟨0, none⟩ (.const 0) (some 4)),
    (0xD1C000C0C8E0000B, .mdrain none .rn ⟨0, none⟩ 14 (some 3)), (word 0x348 0b000001 0 0xC0C 0x8E0 0x900, .mdraint none .rz ⟨0, none⟩ 14 16 none),
    (word 0x349 0 0 0xC0C 0x8A0 0x8C0, .mchk none ⟨0, none⟩ 10 12 none), (0xD282440000000000, .mstat (.tol 4) none),
    (word 0x34A 0b101000 0x44 0 0 0, .mstat (.state 4 5) none), (0xD2D0000000000000, .mrel 2)] := by decide +kernel

theorem test_decode_graphics : Decodes [
    (0xE00004020010C009, .attr (.vg (.const 0)) 4 (.v 2 0) (.v 1 0) (some 1)), (0xE042088300100008, .vbld 2 8 3 (.v 1 0) (some 0)),
    (0xE088000400100009, .prim .le none .none (.v 4 0) (.v 1 0) (some 1)),
    (word 0x382 0b100110 0 0x840 0x010 0x8A0, .prim .al (some 10) .front (.s 4) (.v 1 0) none),
    (word 0x383 0 0x08 0x020 0x940 0xC00, .sample 8 (.v 2 0) 20 (.const 0) none), (0xE100080209400C0A, .sampleg 8 (.v 2 0) 20 12 0 (some 2)),
    (word 0x385 0 0x08 0x020 0x940 0x030, .texld 8 (.v 2 0) 20 (.v 3 0) none), (word 0x386 0 0 0x040 0xC10 0, .hit (.v 4 0) (.const 1)),
    (0xE1C054C00000000B, .tretNext 20 (.const 0) 3), (0xE1C8000000000000, .tretDone none), (word 0x388 0 0 0x040 0 0, .covw (.v 4 0))] := by
  decide +kernel

theorem test_decode_system : Decodes [
    (0xF000589000000009, .xpushXc (some 24) 16 (some 1)), (0xF010589000000009, .xpushXe (some 24) 16 (some 1)),
    (word 0x3C0 0b001000 0 0x080 0x840 0, .xpushXt none 8 4 none), (word 0x3C1 0b001000 0x08 0 0 0 0b1001, .xpopXt 8 1),
    (0xF05049000000000A, .xpopXe 9 2), (word 0x3C1 0b011000 0x45 0 0 0 0b1000, .xpopXm 5 0), (word 0x3C2 0b010000 0x45 0 0 0, .xstat .xe 5),
    (0xF0C0550000000010, .csrr (.s 21) 1), (wordI 0x3C4 0 0 0x840 0x008, .csrw 8 (.s 4)), (word 0x3C5 0 0 0x840 0 0, .syscNote (.s 4) none),
    (word 0x3C5 0b001000 0 0xC10 0 0, .syscKill (.const 1) none), (word 0x3C6 0 0x44 0xC90 0 0, .dbgr 4 ⟨.const 9, none⟩),
    (word 0x3C7 0 0 0xC90 0x840 0, .dbgw (.const 9) ⟨.s 4, none⟩), (word 0x3C8 0 0 0x840 0x850 0, .iinv 4 ⟨5, none⟩),
    (word 0x3C6 0 0x44 0xC90 0 0 0b1011, .dbgr 4 ⟨.const 9, some 3⟩), (word 0x3C8 0 0 0x840 0x850 0 0b1111, .iinv 4 ⟨5, some 7⟩)] := by decide +kernel

/-- Words that no instruction has: all zeros, all ones, an opcode that no row assigns, a tail slot without its flag (R55, R62). -/
theorem test_decode_illegal : decode 0 = .error .unassigned ∧ decode 0xFFFFFFFFFFFFFFFF = .error .unassigned ∧
    decode (word 0x013 0 0 0 0 0) = .error .unassigned ∧ decode (word 0x001 0 0x03 0x010 0x020 0 0b0001) = .error .tailField := by
  decide +kernel

-- Integers, logic, moves

/-- Every lane has two values in V1 and V2. -/
def two (a b : W32) : State := having fun g => Vec 2 b (Vec 1 a g)

/-- Each lane holds its number plus an offset in V2. -/
def numbered (n : Nat) : State := having fun g => g.vsetLanes 2 (fun l => BitVec.ofNat 32 (n + l)) lanes

theorem test_iadd_wraps : lane (.iadd .i8 (.v 3) (.v 1 0) (.v 2 0) none) (two 127 1) 3 = some 0xFFFFFF80 := by decide +kernel
theorem test_imulhi : lane (.imulhi .n32 (.v 3) (.v 1 0) (.v 1 0) none) (two 0xFFFFFFFF 0) 3 = some 0xFFFFFFFE := by decide +kernel
theorem test_idiv_truncates : lane (.idiv .i32 false (.v 3) (.v 1 0) (.v 2 0) none) (two 0xFFFFFFF9 2) 3 = some 0xFFFFFFFD := by
  decide +kernel
theorem test_idiv_by_zero : lane (.idiv .n16 false (.v 3) (.v 1 0) (.v 2 0) none) (two 7 0) 3 = some 0xFFFF := by decide +kernel
theorem test_irem_sign : lane (.irem .i32 (.v 3) (.v 1 0) (.v 2 0) none) (two 0xFFFFFFF9 2) 3 = some 0xFFFFFFFF := by decide +kernel
theorem test_imul_clamps : lane (.imul .i16 true (.v 3) (.v 1 0) (.v 2 0) none) (two 300 300) 3 = some 32767 := by decide +kernel
/-- The bounds cross: the upper one wins (R75). -/
theorem test_iclamp : lane (.iclamp .i32 (.v 3) (.v 1 0) (.const 10) (.const 3) none) (two 300 0) 3 = some 3 := by decide +kernel
theorem test_ineg_wraps : lane (.ineg .i32 false (.v 3) (.v 1 0) none) (two 0x80000000 0) 3 = some 0x80000000 := by decide +kernel
theorem test_lea : groupAfter (.lea .i32 (.v 4) (.s 6) (.v 1 0) 3 none)
    (having fun g => Vec 1 0xFFFFFFFF (Sca 6 0x100000000 g)) (fun g => (g.vget 4 9, g.vget 5 9)) = some (0xFFFFFFF8, 0) := by
  decide +kernel
/-- The example under R78: 0xFFFF_FFFF against 10, unsigned and signed. -/
theorem test_icmp : groupAfter (.icmp .n32 .lt (.v 1 0) (.const 10) none) (two 0xFFFFFFFF 0) Group.cm = some 0 ∧
    groupAfter (.icmp .i32 .lt (.v 1 0) (.const 10) none) (two 0xFFFFFFFF 0) Group.cm = some 0xFFFFFFFF := by decide +kernel
theorem test_shl_full_width : lane (.shl .i32 (.v 3) (.v 1 0) (.v 2 0) none) (two 0xFFFFFFFF 32) 3 = some 0 := by decide +kernel
theorem test_sar_full_width : lane (.sar .i32 (.v 3) (.v 1 0) (.v 2 0) none) (two 0x80000000 40) 3 = some 0xFFFFFFFF := by
  decide +kernel
theorem test_rot : lane (.rot .i32 (.v 3) (.v 1 0) (.v 2 0) none) (two 0x80000001 36) 3 = some 0x18 := by decide +kernel
theorem test_clz_zero : lane (.clz .i64 (.v 3) (.v 4 0) none) base 3 = some 64 := by decide +kernel
theorem test_bfx_sign : lane (.bfx .i32 (.v 3) (.v 1 0) (.v 2 0) (.const 4) none) (two 0xF0 4) 3 = some 0xFFFFFFFF := by decide +kernel
theorem test_bfi : lane (.bfi (.v 3) (.v 1 0) (.v 2 0) (.s 1) none)
    (having fun g => Vec 2 0xFFFFFFFF (Vec 1 0x12 (Sca 1 0x0804 g))) 3 = some 0xFFFFF12F := by decide +kernel
/-- The example under R81. -/
theorem test_perm8 : lane (.perm8 (.v 2) (.v 0 0) (.v 1 0) (.s 3) none)
    (having fun g => Vec 0 0x88776655 (Sca 3 0x8123 g)) 2 = some 0x00667788 := by decide +kernel
/-- The example under R83. -/
theorem test_movi : lane (.movi .i32 (.v 1) 0x12 none) base 1 = some 0x12 := by decide +kernel
theorem test_lit : lane (.lit .i32 (.v 1) (.v 1 0) 0x345678 none) (two 0x12 0) 1 = some 0x12345678 := by decide +kernel
/-- Every source is read before any result is written (R44): the example under R45 of `mov v1, v1<d1>`. -/
theorem test_mov_routed : lane (.mov .i32 (.v 2) (.v 2 7) none) (numbered 0) 2 4 = some 5 ∧
    lane (.mov .i32 (.v 2) (.v 2 7) none) (numbered 0) 2 31 = some 0 := by decide +kernel
theorem test_scalar_form : scalar (.iadd .i32 (.s 5) (.s 6) (.const 2) none) (having fun g => Sca 6 0x7FFFFFFF g) 5 =
    some 0xFFFFFFFF80000001 := by decide +kernel
/-- A lane with EN clear keeps its register (R35). -/
theorem test_disabled_lane : lane (.movi .i32 (.v 1) 7 none) (having fun g => { g with en := 0xFFFFFFDF }) 1 5 = some 0 ∧
    lane (.movi .i32 (.v 1) 7 none) (having fun g => { g with en := 0xFFFFFFDF }) 1 6 = some 7 := by decide +kernel

-- Floating point and conversions

theorem test_fadd : lane (.fadd .f32 false .rn (.v 3) (.v 1 0) (.v 2 0) none) (two 0x3F800000 0x33800000) 3 = some 0x3F800000 := by
  decide +kernel
theorem test_fadd_up : lane (.fadd .f32 false .ru (.v 3) (.v 1 0) (.v 2 0) none) (two 0x3F800000 0x33800000) 3 = some 0x3F800001 := by
  decide +kernel
theorem test_fdiv_by_zero : lane (.fdiv .f32 false .rn (.v 3) (.v 1 0) (.v 2 0) none) (two 0x3F800000 0x80000000) 3 =
    some 0xFF800000 := by decide +kernel
theorem test_fsqrt_negative : lane (.fsqrt .f32 false .rn (.v 3) (.v 1 0) none) (two 0xBF800000 0) 3 = some 0x7FC00000 := by
  decide +kernel
theorem test_ffma_once : lane (.ffma .f32 false .rn (.v 3) (.v 1 0) (.v 1 0) (.v 2 0) none) (two 0x3F800001 0xBF800002) 3 =
    some 0x28800000 := by decide +kernel
/-- The example under R90: a NaN through fmax, fmax.num and fclamp. -/
theorem test_fmax_nan : lane (.fmax .f32 false (.v 3) (.v 1 0) (.const 0) none) (two 0x7FC00001 0) 3 = some 0x7FC00000 ∧
    lane (.fmax .f32 true (.v 3) (.v 1 0) (.const 0) none) (two 0x7FC00001 0) 3 = some 0 := by decide +kernel
theorem test_fclamp_nan : lane (.fclamp .f32 (.v 3) (.v 1 0) (.v 4 0) (.v 2 0) none) (two 0x7FC00001 0x3F800000) 3 = some 0 := by
  decide +kernel
theorem test_fgetexp : lane (.fgetexp .f32 (.v 3) (.v 1 0) none) (two 1 0) 3 = some 0xFFFFFF6B := by decide +kernel
theorem test_ffrac_below_one : lane (.ffrac .f32 (.v 3) (.v 1 0) none) (two 0x80000001 0) 3 = some 0x3F7FFFFF := by decide +kernel
theorem test_frnd_floor : lane (.frnd .f32 .rd (.v 3) (.v 1 0) none) (two 0xBF000000 0) 3 = some 0xBF800000 := by decide +kernel
theorem test_hadd2 : lane (.hadd2 .f16x2 false .rn (.v 3) (.v 1 0) (.v 2 0) none) (two 0x3C004000 0x3C003C00) 3 =
    some 0x40004200 := by decide +kernel
theorem test_fdot2 : lane (.fdot2 .f16x2 false .rn (.v 3) (.v 1 0) (.v 2 0) (.v 4 0) none) (two 0x3C004000 0x3C003C00) 3 =
    some 0x40400000 := by decide +kernel
theorem test_fcmp_unordered : groupAfter (.fcmp .f32 .uno (.v 1 0) (.v 2 0) none) (two 0x7FC00000 0) Group.cm = some 0xFFFFFFFF := by
  decide +kernel
/-- The example under R18: 500 overflows, 0.0010 rounds to the smallest subnormal, −0.375 is exact. -/
theorem test_cvt_overflow : lane (.cvtToFloat .bf16 .e4m3 false .rn (.v 3) (.v 1 0) none) (two 0x43FA 0) 3 = some 0x7F ∧
    lane (.cvtToFloat .bf16 .e4m3 true .rn (.v 3) (.v 1 0) none) (two 0x43FA 0) 3 = some 0x7E := by decide +kernel
theorem test_cvt_subnormal : lane (.cvtToFloat .bf16 .e4m3 false .rn (.v 3) (.v 1 0) none) (two 0x3A83 0) 3 = some 0x01 ∧
    lane (.cvtToFloat .bf16 .e4m3 false .rn (.v 3) (.v 1 0) none) (two 0xBEC0 0) 3 = some 0xAC := by decide +kernel
theorem test_cvt_to_integer : lane (.cvtToInteger .f32 .i8 false .rz (.v 3) (.v 1 0) none) (two 0xC3960000 0) 3 = some 0xFFFFFF80 := by
  decide +kernel
theorem test_pk : lane (.pk .e4m3 false .rn (.v 3) (.v 1 0) (.v 2 0) 1 none)
    (having fun g => Vec 3 0x11112222 (Vec 2 0xC0000000 (Vec 1 0x3F800000 g))) 3 = some 0xC0382222 := by decide +kernel
theorem test_unpk : lane (.unpk .e2m1 (.v 3) (.v 1 0) 7 none) (two 0xF0000000 0) 3 = some 0xC0C00000 := by decide +kernel
/-- The example under R94: four members. -/
def scales : State := having fun g =>
  Sca 2 0xF { g.vsetLanes 5 (fun l => [0x3F800000, 0xC0600000, 0x42C80000, 0x3C800000].getD l 0) lanes with en := 0xF }
theorem test_scaleq : groupAfter (.scaleq .sc8 .rn (.v 6) (.v 5 0) (.s 2) none) scales (fun g => (lanes.take 4).map fun l => g.vget 6 l) =
    some [0x6749, 0x67D7, 0x677D, 0x6719] := by decide +kernel

-- Member masks, trellis, masks

/-- The example under R106: the order of a float fold. -/
def folded : State := having fun g =>
  Sca 9 7 { g.vsetLanes 2 (fun l => [0x3F800000, 0x33800000, 0x33800000].getD l 0) lanes with en := 7 }
theorem test_mfold_order : lane (.mfold .add .f32 (.v 3) (.v 2 0) (.s 9) none) folded 3 1 = some 0x3F800000 := by decide +kernel
theorem test_scan_exclusive : groupAfter (.scan .add .f32 true (.v 3) (.v 2 0) (.s 9) none) folded
    (fun g => (lanes.take 3).map fun l => g.vget 3 l) = some [0, 0x3F800000, 0x3F800000] := by decide +kernel
theorem test_mpeers : lane (.mpeers false (.v 3) (.v 2 0) (.s 9) none) folded 3 1 = some 6 := by decide +kernel
theorem test_lperm_xor : lane (.lperm .xor (.v 3) (.v 2 0) (.const 1) .all none) (numbered 0) 3 6 = some 7 := by decide +kernel
theorem test_mtest_all : groupAfter (.mtest .all (.sp .cm) (.v 2 0) .all none) (numbered 0) Group.cm = some 0 ∧
    groupAfter (.mtest .all (.sp .cm) (.v 2 0) .all none) (numbered 1) Group.cm = some 0xFFFFFFFF := by decide +kernel
theorem test_mlow : scalar (.mlow (.s 4) .all none) (having fun g => { g with en := 0xFFFFFF00 }) 4 = some 8 := by decide +kernel
/-- The example under R117: three weights of a block whose only one bit is bit 3. -/
def window : State := having fun g =>
  Sca 7 0x78 { g.vsetLanes 4 (fun l => BitVec.ofNat 32 (2 + l)) lanes with w := NMap.set 0 g.w 0 8 }
theorem test_tdec : groupAfter (.tdec 0 false false (.f32 (.s 7)) (.v 5) (.v 4 0) none) window
    (fun g => (lanes.take 3).map fun l => g.vget 5 l) = some [0x3FFD0000, 0xBF830000, 0] := by decide +kernel
theorem test_tdec2 : groupAfter (.tdec2 0 false false .f16x2 (.v 6) (.v 4 0) none) window
    (fun g => (lanes.take 3).map fun l => g.vget 6 l) = some [0xBC183FE8, 0x0000BC18, 0] := by decide +kernel
theorem test_enand : groupAfter (.enand (.s 4) none) (having fun g => Sca 4 0xFFFFFFFF0000F00F { g with en := 0xFF }) Group.en =
    some 0x0F := by decide +kernel
theorem test_ensave : scalar (.ensave 8 none) base 8 = some 0xFFFFFFFF := by decide +kernel
/-- The example under R97: after setrt of `xor 3` a routed operand reads lane l xor 3. -/
theorem test_setrt : (groupAfter (.setrt 2 0x8003 none) base fun g => g.route 11 5) = some 6 := by decide +kernel

-- Witnesses: the hypotheses of the statements hold together in concrete states

/-- The hypotheses of a completion: the word issues and the condition holds. -/
abbrev Meets (uses : List Use) (tl : Tail) (cond : Ctx → State → Prop) (s : State) : Prop := Issues s (at_ s) uses tl ∧ cond (at_ s) s

/-- The same, of a condition on the state after the flags that the operands read are cleared. -/
abbrev MeetsAsync (uses : List Use) (tl : Tail) (cond : Ctx → State → Prop) (s : State) : Prop :=
  Issues s (at_ s) uses tl ∧ cond (at_ s) (s.settle (at_ s) uses)

/-- A group with a tail's slot one below its limit, flags set and a full queue, for the boundaries of R38 and R39. -/
def nearlyFull : State := having fun g => { g with
  sb := NMap.set 0 g.sb 7 62, fps := 3, queue := List.replicate 16 (List.replicate 32 1) }

/-- Operands of every class at the ends of their ranges, for the statements on the register instructions: vector and scalar
forms, pairs, the queue, specials, routed operands, the empty destination. -/
theorem witness_register_forms : ∀ u ∈ ([[.src (.v 0 0), .src (.v 63 8), .dst (.v 63) false], [.src64 (.v 62 6), .src (.q 15 5), .dst (.v 62) true],
    [.src (.s 31), .src (.const 46), .dst (.s 31) false], [.src64 (.s 0), .src64 (.const 0), .dst (.s 0) true],
    [.src (.lid 15), .src (.sp .fps), .dst .keep false], [.src (.sp .rank), .dst (.sp .fps) false], [.src (.q 0 0), .dst (.v 0) false], []] :
      List (List Use)), Issues nearlyFull (at_ nearlyFull) u (some 7) := by decide +kernel

/-- A launch with both handlers. -/
def handled (f : Group → Group) : State := (having f).modLaunch 0 fun la => { la with tha := 0x300000, dha := 0x400000 }

/-- The member-mask instructions: a mask that covers EM, one that does not, one that the clause has written. -/
theorem witness_member_mask : Meets [.src (.v 2 0), .src (.v 1 0), .dst (.v 63) false] (some 7)
    (fun c s => s.maskFresh c (.s 9) = true ∧ c.em &&& ~~~c.mask (.s 9) = 0) folded := by decide +kernel
theorem witness_member_mask_wide : Meets [.src64 (.v 2 0), .dst .keep false] none
    (fun c s => s.maskFresh c .all = true ∧ c.em &&& ~~~c.mask .all = 0) (numbered 0) := by decide +kernel
theorem witness_mask_outside : Meets [.src (.v 2 0), .dst (.v 3) false] none
    (fun c s => s.maskFresh c (.s 9) = true ∧ c.em &&& ~~~c.mask (.s 9) ≠ 0) (having fun g => Sca 9 7 { g with en := 15 }) := by
  decide +kernel
/-- The group at the second word of a clause whose first word is movi s9, 0. -/
def secondWord : State :=
  (having fun g => { g.setPcs (fun _ => 0x200010) lanes with
    clause := g.clause.map fun c => { c with pc := 0x200010, cnt := 1 } }).storeBytes 0x200008 (wordBytes 0x0C80490000000000)
theorem witness_mask_stale : Meets [.src (.v 2 0), .dst (.v 3) false] none
    (fun c s => s.maskFresh c (.s 9) = false) secondWord := by decide +kernel
theorem witness_lowest_lane : Meets [] none (fun c s => s.maskFresh c .all = true ∧ c.em &&& ~~~c.mask .all = 0 ∧
    c.em.getLsbD 31 = true ∧ ∀ k < 31, c.em.getLsbD k = false) (having fun g => { g with en := 0x80000000 }) := by decide +kernel
theorem witness_no_lane : Meets [] none (fun c s => s.maskFresh c .all = true ∧ c.em = 0) (having fun g => { g with en := 0 }) := by
  decide +kernel
theorem test_mask_outside_traps : groupAfter (.mbits (.v 3) (.v 2 0) (.s 9) none)
    (handled fun g => Sca 9 7 { g with en := 15 })
    (fun g => (g.ecause.toNat % 64, g.emask, g.pc 5)) = some (3, 8, 0x300000) := by decide +kernel

/-- Routing codes of each case, at the ends of their ranges, and table entries of each kind (O44). -/
def routed : State := having fun g =>
  { g with t := NMap.set 0 (NMap.set 0 (NMap.set 0 (NMap.set 0 g.t 0 31) 1 0x401F) 2 0x801F) 6 0xC03F }
theorem witness_routing : [9, 10, 11, 15].map (fun code => (((at_ routed).g.rt (code - 9)).extractLsb' 14 2).toNat) = [0, 1, 2, 3] ∧
    [0, 1, 5, 6, 7, 8, 9, 10, 11, 15].map (fun code => (at_ routed).g.route (BitVec.ofNat 4 code) 31) =
      [31, 30, 15, 0, 0, 30, 30, 31, 0, 0] := by decide +kernel

/-- setab in a block with a context (O9): the largest bounds, for the group itself. -/
def owner : State := ((having fun g => Sca 1 256 { g with ab := 0, al := 256 }).modBlock 0 fun b => { b with ctx := some 1 }).modCore 0 fun c =>
  { c with ctx1 := { c.ctx1 with owner := some 0 } }
theorem witness_setab : ∃ blk, Meets [] none (fun c s => s.block? c.g.blk = some blk ∧ blk.ctx = some 1 ∧ c.g.gix = 0 ∧
    (c.bits64 (.s 1) 0).toNat ≤ (c.bits64 (.s 1) 0).toNat ∧ (c.bits64 (.s 1) 0).toNat ≤ 256 ∧
    s.groupOf c.g.blk (c.bits64 (.const 0) 0).toNat = some 0 ∧ ((s.core c.core).ctx 1).busyFor 0 = false ∧
    (s.asyncs.any fun o => o.gid == 0 && o.mrd.isSome) = false) owner :=
  ⟨(owner.block? 0).getD noBlock, by decide +kernel⟩
theorem test_setab : groupAfter (.setab (.s 1) (.s 1) (.const 0) none) owner (fun g => (g.ab, g.al)) = some (256, 256) := by
  decide +kernel

-- Control flow

/-- A terminal word whose clause's lanes go back eight words. -/
theorem witness_branch : Meets [.src (.v 1 0)] none (fun c _ => TargetsOk c.em (fun _ => c.cl.target 0xFFFFF8)) base := by decide +kernel
theorem witness_branch_least_target : Meets [] none
    (fun c _ => TargetsOk c.em (fun _ => c.cl.target 0xFC0000) ∧ c.cl.target 0xFC0000 = 0) base := by decide +kernel
theorem witness_branch_not_taken : Meets [.src (.s 0)] none
    (fun c _ => TargetsOk (if bruTaken (.snz (.s 0)) c then c.em else 0) (fun _ => c.cl.target 0x7FFFFF)) base := by decide +kernel
theorem witness_indirect : Meets [.src64 (.v 2 0), .dst (.v 62) true] none (fun c _ => TargetsOk c.em (c.bits64 (.v 2 0))) base := by
  decide +kernel
theorem witness_indirect_scalar : Meets [.src64 (.s 4), .dst (.s 31) true] none (fun c _ => TargetsOk c.em (c.bits64 (.s 4)))
    (having (Sca 4 0xFFFFFFFFFFFFF8)) := by decide +kernel
theorem test_brc : groupAfter (.brc .cm .none 2) (having fun g => { g with cm := 1 }) (fun g => (g.pc 0, g.pc 1, g.clause)) =
    some (0x200010, 0x200010, none) ∧ groupAfter (.brc .cm .none 0xFFFFFE) (having fun g => { g with cm := 1 }) (fun g => (g.pc 0, g.pc 1)) =
    some (0x1FFFF0, 0x200010) := by decide +kernel
/-- The target is read before the link is written: `calli s4, s4` jumps to the old s4 (R138). -/
theorem test_calli : groupAfter (.calli (.s 4) (.s 4)) (having (Sca 4 0x300000)) (fun g => (g.pc 31, g.sget 4)) =
    some (0x300000, 0x200010) := by decide +kernel
theorem witness_loop_ends : Meets [] none (fun c _ => c.cl.pc = c.cl.lastWord ∧ c.em = c.g.liveView ∧ c.g.lcGet 2 = 0) base := by
  decide +kernel
theorem witness_loop_back : Meets [] none (fun c _ => c.cl.pc = c.cl.lastWord ∧ c.em = c.g.liveView ∧ c.g.lcGet 2 ≠ 0 ∧
    TargetsOk c.em fun _ => c.cl.target 0) (having fun g => g.lcSet 2 0xFFFFFFFF) := by decide +kernel
theorem witness_loop_diverges : Meets [] none (fun c _ => c.cl.pc = c.cl.lastWord ∧ c.em ≠ c.g.liveView)
    (having fun g => { g with en := 0x7FFFFFFF }) := by decide +kernel
theorem test_loop : groupAfter (.loop 0 0) (having fun g => g.lcSet 0 1) (fun g => (g.lcGet 0, g.pc 3)) = some (0, 0x200000) ∧
    groupAfter (.loop 0 0) base (fun g => (g.lcGet 0, g.pc 3)) = some (0, 0x200010) := by decide +kernel
theorem witness_exit : Meets [] none (fun c _ => c.g.hkind = 0) base := by decide +kernel
theorem test_exit : groupAfter .exit (having fun g => { g with en := 0xFFFF }) (fun g => (g.live, g.draining)) = some (0xFFFF0000, false) ∧
    groupAfter .exit base (fun g => (g.live, g.draining)) = some (0, true) := by decide +kernel
/-- A launch whose queue has debugging on, with no debug handler (R391). -/
def debugged (f : Group → Group) : State := (having f).modLaunch 0 fun la => { la with tha := 0x300000, debug := true }
theorem witness_halt : Meets [] none (fun c s => s.debugOn c.g = true ∧ c.em = 0) (debugged fun g => { g with en := 0 }) ∧
    Meets [] none (fun c s => s.debugOn c.g = false) base := by decide +kernel
theorem test_halt : groupAfter .halt (debugged id) (fun g => (g.halted, g.pc 0)) = some (true, 0x200010) ∧
    groupAfter .halt (having id |>.modLaunch 0 fun la => { la with tha := 0x300000 }) (fun g => (g.halted, g.ecause.toNat % 64, g.pc 0)) =
      some (false, 0x19, 0x300000) := by decide +kernel
/-- brk enters the debug handler, and is a nop in a handler or without one (R142). -/
theorem test_brk : groupAfter (.brk 5) (handled id) (fun g => (g.hkind, g.pc 0, NMap.get 0 g.epc 0)) = some (2, 0x400000, 0x200010) ∧
    groupAfter (.brk 5) base (fun g => (g.hkind, g.pc 0)) = some (0, 0x200010) := by decide +kernel
theorem test_sleep : groupAfter (.sleep 100) base (fun g => g.sleepUntil) = some (some 100) := by decide +kernel
theorem test_trap : groupAfter (.trap 0xABCDEF) (handled id) (fun g => (g.ecause.toNat % 64, g.eaddr, g.pc 7, NMap.get 0 g.epc 7)) = some (0x18, 0xABCDEF, 0x300000, 0x200010) := by
  decide +kernel

/-- Operands of the functions of R88: a NaN of each kind, whole numbers of both signs, halves, and values of no exact case at the ends
of the ranges (O4). -/
theorem witness_functions : (fp32.dec 0x7F800001, fp32.dec 0x7FC00000) = (.nan true, .nan false) ∧
    ([0x43000000, 0xC3160000, 0x3F000000, 0xBFC00000, 0x3F000001, 0x40000000, 0x3DCCCCCD, 0x41120000].map fun a => match fp32.dec a with
      | .fin n m e =>
        let p := m * 2 ^ e.toNat
        let q := 2 ^ (-e).toNat
        [n, decide (m = 2 ^ Nat.log2 m), decide (p % q = 0), decide (2 * p % q = 0), decide (128 * q ≤ p), decide (150 * q ≤ p), decide (73 * q ≤ 8 * p)]
      | _ => []) =
    [[false, true, true, true, true, false, true], [true, false, true, true, true, true, true], [false, true, false, true, false, false, false],
     [true, false, false, true, false, false, false], [false, false, false, false, false, false, false],
     [false, true, true, true, false, false, false], [false, false, false, false, false, false, false],
     [false, false, false, false, false, false, true]] := by decide +kernel
theorem test_functions : funcFp32 .exp2 0xC0400000 = (0x3E000000, 0) ∧ funcFp32 .log2 0x41000000 = (0x40400000, 0) ∧
    funcFp32 .sinpi 0xBFC00000 = (0x3F800000, 0) ∧ funcFp32 .cospi 0x40400000 = (0xBF800000, 0) := by decide +kernel

-- Memory

/-- The hypotheses of an access. -/
abbrev MeetsAccess (uses : List Use) (tl : Tail) (k : AccKind) (single snap : Bool) (n align : Nat) (ls : Ctx → List Nat)
    (addr : Ctx → Nat → W64) (gather : Ctx → View → State → Gather) (s : State) : Prop :=
  MeetsAsync uses tl (fun c s => c.accessible (ls c) (addr c) n align k single snap s ∧
    (gather c (s.viewOf c.gid c.g) (c.settledFor (ls c) (addr c) s)).hasRoom c.gid c.core) s

/-- Each lane's index in V2 is 16 times its number, and S6 holds an address. -/
def addressed (a : W64) : State := handled fun g => (Sca 6 a g).vsetLanes 2 (fun l => BitVec.ofNat 32 (16 * l)) lanes

/-- The lanes' addresses: S6 plus V2. -/
def addrs (c : Ctx) (l : Nat) : W64 := c.bits64 (.s 6) l + c.g.readIndex c.rank (.v 2 0) l + (0 : BitVec 12).signExtend 64

/-- The lanes of EM. -/
def ems (c : Ctx) : List Nat := laneList c.em

theorem witness_load : MeetsAccess [.src64 (.s 6), .src (.v 2 0), .regs 60 4 4] (some 0) .read false true 16 16 ems addrs
    (fun c v s => (ems c).foldl (fun g l =>
      g.loads v .dflt (fun i k => .v l (60 + i / 4) k false) 0 (s.piecesOf v l (addrs c l) 16 .read)) (c.gather s (some 0)))
    (addressed 0x300000) := by decide +kernel
theorem witness_store : MeetsAccess ([.src64 (.s 6), .src (.v 2 0)] ++ storeUse (.v 63) 1) none .write false true 1 1 ems addrs
    (fun c v s => (ems c).foldl (fun g l => g.stores v .byp (c.g.storeDatum (.v 63) 1 l) 0 (s.piecesOf v l (addrs c l) 1 .write))
      (c.gather s none)) (addressed 0x300001) := by decide +kernel
theorem witness_scalar_load : MeetsAccess [] none .read true true 8 8 Ctx.single (fun c _ => c.sbase (some 6) + (0 : BitVec 12).signExtend 64)
    (fun c v s => (c.gather s none).loads v .strm (fun _ k => .s 31 k false) 0
      (s.piecesOf v 0 (c.sbase (some 6) + (0 : BitVec 12).signExtend 64) 8 .read)) (addressed 0x3FFFF8) := by decide +kernel
/-- A window's halves. -/
def halves (c : Ctx) (h : Nat) : W64 := c.sbase (some 6) + (0 : BitVec 12).signExtend 64 + BitVec.ofNat 64 (32 * h)
theorem witness_window_in : MeetsAsync [] (some 1) (fun c s => c.accessible [0, 1] (halves c) 32 32 .readWhole true true s ∧
    ((List.range 2).foldl (fun g h => g.loads (s.viewOf c.gid c.g) .dflt (fun _ _ => .w 3 h) 0
      ((c.settledFor [0, 1] (halves c) s).piecesOf (s.viewOf c.gid c.g) 0 (halves c h) 32 .readWhole))
      (c.gather (c.settledFor [0, 1] (halves c) s) (some 1))).hasRoom c.gid c.core) (addressed 0x300020) := by
  decide +kernel
theorem witness_window_out : MeetsAsync [] none (fun c s => c.accessible [0, 1] (halves c) 32 32 .writeWhole true true s ∧
    ((List.range 2).foldl (fun g h => g.stores (s.viewOf c.gid c.g) .dflt ((c.g.wget 3).toNat / 2 ^ (256 * h) % 2 ^ 256) 0
      ((c.settledFor [0, 1] (halves c) s).piecesOf (s.viewOf c.gid c.g) 0 (halves c h) 32 .writeWhole))
      (c.gather (c.settledFor [0, 1] (halves c) s) none)).hasRoom c.gid c.core) (addressed 0x300020) := by
  decide +kernel
/-- The hypotheses of a plane access by the record at S6 with coordinates in V2: lane 0 alone is inside its extent. -/
abbrev MeetsPlane (uses : List Use) (k : AccKind) (scaled : Bool) (s : State) : Prop := MeetsAsync uses none (fun c s =>
    let v := s.viewOf c.gid c.g
    let a := c.g.sget 6
    let r := (s.touchTlb v 0 a).readRec v a
    let co (l : Nat) := c.coords (.v 2 0) 0 0 l
    let inside := (laneList c.em).filter fun l => inExtent r.1 (co l)
    let addr (l : Nat) : W64 := (elemAddr r.1 (co l)).1
    let scale (l : Nat) : W64 := scaleAddr r.1 (blockCoord r.1 32 (co l))
    let fmt := layCode r.1
    let code (l : Nat) := narrowElem fmt (c.g.planeDatum (.s 31) l)
    let v1 := r.2.viewOf c.gid c.g
    let s1 := r.2.touchTlbs v1 addr inside
    let ready := if scaled then s1.touchTlbs v1 scale inside else s1
    inside = [0] ∧ isScaled fmt = scaled ∧ c.em ≠ 0 ∧ s.heldAddr v 0 a = false ∧
      s.memCheck v (laneList c.em) (fun _ => a) 64 64 .read true = none ∧ s.recPresent v a = true ∧ planeFmtOk r.1 k.writes = true ∧
      c.accessible inside addr (elemBytes fmt) (elemBytes fmt) k false true r.2 ∧
      (scaled = true → c.accessible inside scale 1 1 k false true r.2) ∧
      (if k.writes then
        inside.foldl (fun (g : Gather) l => g.planeStore v1 .dflt ready r.1 (co l) l (code l).1)
          (c.gather (ready.raise c.gid c.g.tag (flagsOver (fun l => (code l).2) inside)) none)
      else
        let g := c.gather ready none
        inside.foldl (fun (g : Gather) l => g.plane v1 .dflt ready r.1 (co l) l)
          { g with async := { g.async with
              vw := ((laneList c.em).filter fun l => !inside.contains l).map fun l => (63 * 32 + l, 0), fp := !inside.isEmpty,
              gfx := some (.plane 63 fmt (inside.map fun l => (l, (elemAddr r.1 (co l)).2))) } }).hasRoom c.gid c.core) s
/-- A record of zeros: one BF16 element at address 0. -/
theorem witness_plane_load : MeetsPlane [.src (.v 2 0), .regs 63 1 1] .read false (addressed 0x300000) := by decide +kernel
/-- The same record with format SC8: its one block has its scale at address 0. -/
theorem witness_plane_scaled : MeetsPlane [.src (.v 2 0), .regs 63 1 1] .read true ((addressed 0x300000).storeBytes 0x300020 [4]) := by
  decide +kernel
theorem witness_plane_store : MeetsPlane (.src (.v 2 0) :: storeUse (.s 31) 1) .write false (addressed 0x300000) := by decide +kernel
theorem witness_checked : MeetsAsync [.src64 (.s 6), .src (.v 2 0)] (some 2) (fun c s =>
    (∀ l ∈ laneList c.em, s.heldAddr (s.viewOf c.gid c.g) l (addrs c l) = false) ∧
      s.memCheck (s.viewOf c.gid c.g) (laneList c.em) (addrs c) 1 1 .read false = none) (addressed 0xFFFE0F) := by decide +kernel
theorem witness_aconv : Issues base (at_ base) [.src64 (.v 2 0), .dst (.v 62) true] none ∧
    Issues base (at_ base) [.src64 (.s 2), .dst (.s 31) true] none := by decide +kernel

/-- The lanes' operands of an atomic: 4 bytes at S6 plus 16 times the lane's number, which is in V2 and V3. -/
def atomics : State := having fun g =>
  ((Sca 6 0x300000 g).vsetLanes 2 (fun l => BitVec.ofNat 32 (0x300000 + 16 * l)) lanes).vsetLanes 4 (fun l => BitVec.ofNat 32 l) lanes
theorem witness_atomic : MeetsAccess [.src64 (.v 2 0), .src (.v 4 0), .regs 63 1 1] none .atomic true false 4 4 ems
    (fun c l => c.bits64 (.v 2 0) l + (0 : BitVec 12).signExtend 64)
    (fun c v s => (ems c).foldl (fun g l => (s.piecesOf v l (c.bits64 (.v 2 0) l) 4 .atomic).foldl (fun g p =>
      g.atomic v (c.bits64 (.v 2 0) l) p.1 (some (contribOf .sub (c.bits32 (.v 4 0) l))) (.v l 63 4 false) fun pa =>
        .atom pa .sub (c.bits32 (.v 4 0) l) (.v l 63 4 false)) g) (c.gather s none)) atomics := by decide +kernel
theorem witness_exchange : MeetsAccess [.src64 (.v 2 0), .src (.v 4 0), .src (.v 4 0), .regs 63 1 1] (some 0) .exchange true false 4 4 ems
    (fun c => c.bits64 (.v 2 0))
    (fun c v s => (ems c).foldl (fun g l => (s.piecesOf v l (c.bits64 (.v 2 0) l) 4 .exchange).foldl (fun g p =>
      g.atomic v (c.bits64 (.v 2 0) l) p.1 none (.v l 63 4 false) fun pa =>
        .cas pa (c.bits32 (.v 4 0) l) (c.bits32 (.v 4 0) l) (.v l 63 4 false)) g) (c.gather s (some 0))) atomics := by decide +kernel
theorem witness_fatomic : MeetsAccess [.src64 (.v 2 0), .src (.v 4 0), .regs 63 1 1] none .atomic true false 4 4 ems
    (fun c l => c.bits64 (.v 2 0) l + (0 : BitVec 12).signExtend 64)
    (fun c v s => (ems c).foldl (fun g l => (s.piecesOf v l (c.bits64 (.v 2 0) l) 4 .atomic).foldl (fun g p =>
      g.atomic v (c.bits64 (.v 2 0) l) p.1 (some (.fatom .max, (c.bits32 (.v 4 0) l).setWidth 64)) (.v l 63 4 false) fun pa =>
        .fatom pa .max (c.bits32 (.v 4 0) l) (.v l 63 4 false)) g) (c.gather s none)) atomics := by decide +kernel
/-- A counter at S6 (O16). -/
theorem witness_counter : ∀ k ∈ [AccKind.atomic, .readWhole], MeetsAsync [] none (fun c s =>
    let addr (c : Ctx) (_ : Nat) : W64 := c.sbase (some 6) + (8 : BitVec 12).signExtend 64
    c.accessible c.single (addr c) 8 8 k true false s ∧
      (c.settledFor c.single (addr c) s).ownFull c.gid
        ((c.settledFor c.single (addr c) s).targetOf (s.viewOf c.gid c.g) 0 (addr c 0) 8 k) = false) atomics := by
  decide +kernel
theorem witness_counter_wait : MeetsAsync [] (some 7) (fun c s =>
    c.accessible c.single (fun _ => c.sbase (some 6) + (8 : BitVec 12).signExtend 64) 8 8 .readWhole true false s) atomics := by
  decide +kernel
theorem witness_publish : Issues nearlyFull (at_ nearlyFull) [] (some 7) := by decide +kernel

/-- The faults of R174, each lane's own and the first cause of them (O50): a hole in the map, an odd address, a private access
beyond the limit of 4 bytes, an address without a translation. -/
def failsWith (a : W64) : Option MemErr :=
  ((addressed a).memCheck ((addressed a).viewOf 0 (at_ (addressed a)).g) lanes (addrs (at_ (addressed a))) 4 4 .write false).map Prod.fst
theorem witness_access_faults : [0x0100000000000000, 0x300001, 0xFE00000000000000, 0x1FFFFFF00, 0xFA00000000000001].map failsWith =
    [some .space, some .misaligned, some .stack, some .translation, some .space] := by decide +kernel
theorem witness_access_fault_issues : Issues (addressed 0x300001) (at_ (addressed 0x300001)) [.src64 (.s 6), .src (.v 2 0), .regs 63 1 1] none ∧
    (∀ l ∈ lanes, (addressed 0x300001).heldAddr ((addressed 0x300001).viewOf 0 (at_ (addressed 0x300001)).g) l
      (addrs (at_ (addressed 0x300001)) l) = false) := by decide +kernel
/-- A private access of every lane, with a limit of zero and with one that only lane 0 keeps (O51). -/
theorem witness_stack_limit : ∀ lim ∈ [0, 4], let s := (addressed 0xFE00000000000000).modLaunch 0 fun la => { la with plim := lim }
    let v := s.viewOf 0 (at_ s).g
    v.la.plim = lim ∧ Issues s (at_ s) [.src64 (.s 6), .src (.v 2 0), .regs 63 1 1] none ∧
      (∀ l < 32, s.heldAddr v l (addrs (at_ s) l) = false ∧ s.spaceErr v (addrs (at_ s) l) 4 .read false = false ∧
        (addrs (at_ s) l).toNat % 4 = 0) ∧
      4 * lim ≤ (addrs (at_ s) 1).toNat - 0xFE00000000000000 + 3 := by decide +kernel

theorem test_ld_misaligned : groupAfter (.ld .w false .dflt 9 (.s 6) (.v 2 0) 0 none) (addressed 0x300001)
    (fun g => (g.ecause.toNat % 64, g.eaddr, g.emask, g.pc 4)) = some (0x09, 0x300001, 0xFFFFFFFF, 0x300000) := by decide +kernel
/-- What a group has stored it loads (R161): the two instructions, each with its operation's completion. -/
def storedWord : State := match exec (.st .w .dflt (.v 2) (.s 6) (.v 2 0) 0 none) (addressed 0x300000) with
  | .next t => t.modGroup 0 fun g => { g with clause := (placedGroup 0).clause, pcv := (placedGroup 0).pcv }
  | _ => base
theorem test_st_ld : (after (.ld .h false .dflt 9 (.s 6) (.v 2 0) 0 none) storedWord fun t =>
    (t.asyncs.map fun a => a.vw.map (·.2)) ) = some [lanes.map fun l => BitVec.ofNat 32 (16 * l)] := by decide +kernel
theorem test_atom_leaves : (after (.atom .sub 9 (.s 6) (.v 4 0) 0 none) (atomics) fun t =>
    t.reqs.map fun r => r.todo.length) = some [32] := by decide +kernel
/-- Two fatom.add of 2^-24 and 2^-23, in both orders (the example under R30). -/
theorem test_fatom_orders : fatomNew .add (fatomNew .add 0x3F800000 0x33800000) 0x34000000 = 0x3F800001 ∧
    fatomNew .add (fatomNew .add 0x3F800000 0x34000000) 0x33800000 = 0x3F800002 := by decide +kernel
theorem test_aclass : groupAfter (.aclass .tile (.s 6)) (addressed 0xFD00000000000000) Group.cm = some 0xFFFFFFFF := by decide +kernel
theorem test_phase : (after (.phase .pkg none) base fun t => t.pubs.length) = some 1 := by decide +kernel
theorem test_ctr_wait : (after (.ctrWait true 4 (some 20) (some 6) (.const 9) 8 3) atomics fun t =>
    (t.ctrWaits.map fun w => (w.va, w.target, w.limit), (t.group? 0).map fun g => g.sbGet 3)) =
      some ([(0x300008, 9, some 65536)], some 1) := by decide +kernel

-- The matrix engine

/-- The owner of a context, with 48 KiB of tile memory and registers of CV 0 in a state. The pairs at S10, S12 and S14 name records of
one element at the base of the block's tile memory (BF16), at device address 0 (BF16) and at device address 0 (FP32). -/
def tiles (cv : CvReg → CvReg) : State :=
  ((((owner.modGroup 0 fun g => Sca 10 0x300000 (Sca 12 0x300040 (Sca 14 0x300080 g))).modCore 0 fun c =>
    { c with ctx1 := c.ctx1.setCv 0 (cv (c.ctx1.cv 0)) }).modBlock 0 fun b => { b with tileKiB := 48, tileSize := 49152 }).storeBytes
      0x300007 [0xFD]).storeBytes 0x3000A0 [11]

/-- The checks of a fire pass. -/
def passes (x : FireCheck) : Bool := match x with
  | .ok _ _ => true
  | _ => false
theorem passes_ok {x : FireCheck} (h : passes x = true) : ∃ o s', x = .ok o s' := by
  cases x <;> simp_all [passes]

/-- The tile instructions at the last tile of the window: with no register, with one that is idle, with one that is complete. -/
abbrev TileReady (kind : MatKind) (b x : Option (BitVec 5)) (cond : CvReg → MatOp → Prop) (s : State) : Prop :=
  MeetsAsync [] (some 1) (fun c s => c.tileLegal s 1 ⟨7, none⟩ b x ∧
    cond (((s.core c.core).ctx 1).cv 0) (c.matOp s kind false false .rn ⟨7, none⟩ b x (((s.core c.core).ctx 1).cv 0).ref)) s
def fireOk (s : State) (o : MatOp) : Bool := passes (s.fireCheck (s.viewOf 0 (at_ s).g) o)
def complete : State := tiles fun r => { r with st := 2 }
def collecting : State := tiles fun r => { r with st := 1, signed := 3, size := 63 }
theorem witness_tile_waits : ∀ k ∈ [MatKind.mma, .mmas, .mmt, .mdraint, .mchk], TileReady k (some 10) (some 12) (fun r _ => r.st ≠ 3 ∧ r.st ≠ 2)
    collecting := by decide +kernel
theorem witness_tile_fires : ∀ k ∈ [(MatKind.mma, some 10, some 12), (.mzero, none, none), (.mld, some 10, none), (.mdrain, some 10, none),
    (.mdraint, some 10, some 10), (.mchk, some 10, some 14)], TileReady k.1 k.2.1 k.2.2
      (fun r o => r.st = 2 ∧ fireOk complete o = true) complete := by decide +kernel
/-- With no register. -/
theorem witness_tile_alone : ∀ k ∈ [(MatKind.mzero, none, none), (.mld, some 10, none), (.mdrain, some 10, none),
    (.mdraint, some 10, some 10), (.mchk, some 10, some 14)], TileReady k.1 k.2.1 k.2.2
      (fun _ o => fireOk (tiles id) { o with fmt := 0 } = true) (tiles id) := by decide +kernel
theorem witness_mrd : MeetsAsync [.regs 60 4 1] none (fun c s => s.ctxNum c.g.blk = some 1 ∧
    c.g.tileInWindow (c.g.accTile ⟨0, none⟩) = true ∧ (c.bits64 (.s 7) 0).toNat % 64 % 4 = 0 ∧ (c.bits64 (.s 7) 0).toNat % 64 + 4 ≤ 64)
    (owner.modGroup 0 (Sca 7 60)) := by decide +kernel
theorem witness_mstat : Meets [] none (fun c s => s.ctxNum c.g.blk = some 1 ∧ 4 ≤ (c.bits64 (.const 4) 0).toNat % 32 ∧
    (c.bits64 (.const 4) 0).toNat % 32 ≤ 23) owner ∧ 4 ≤ ((at_ owner).bits64 (.const 23) 0).toNat % 32 := by decide +kernel
/-- sign: lanes of a set of 64 keep collecting, and the last 32 complete it (O19). -/
def signing (n : Nat) : State := (tiles fun r => { r with st := 1, signed := n, size := 63, ref := 0x10 }).modGroup 0 fun g =>
  Vec 5 0x10 (Sca 6 63 g)
theorem witness_sign : ∀ n ∈ [0, 31, 32], MeetsAsync [.src (.v 5 0)] (some 1) (fun c s =>
    let r := ((s.core c.core).ctx 1).cv 0
    let size := (c.bits64 (.s 6) 0).toNat % 2048
    c.g.hkind = 0 ∧ s.tileWaiting c.gid = false ∧ c.em ≠ 0 ∧ s.ctxNum c.g.blk = some 1 ∧ size + 1 ≤ 1536 ∧ r.st ≠ 2 ∧
      (r.signed = 0 ∨ (r.st ≠ 1 ∧ r.st ≠ 3) ∨ size = r.size.toNat) ∧
      (if n = 32 then r.signed + laneCount c.em = size + 1 ∧ r.dis = false ∧ r.op = none else r.signed + laneCount c.em < size + 1) ∧
      ((maskOf fun l => c.em.getLsbD l && c.bits32 (.v 5 0) l != (if r.signed == 0 then c.bits32 (.v 5 0) 0 else r.ref)) = 0))
    (signing n) := by decide +kernel
theorem witness_sign_empty : MeetsAsync [.src (.v 5 0)] (some 1) (fun c s => c.g.hkind = 0 ∧ s.tileWaiting c.gid = false ∧ c.em = 0)
    ((signing 0).modGroup 0 fun g => { g with en := 0 }) := by decide +kernel
theorem witness_sign_disagrees : (maskOf fun l => (at_ (signing 32)).em.getLsbD l &&
    (at_ ((signing 32).modGroup 0 (Vec 5 0x11))).bits32 (.v 5 0) l != 0x10) ≠ 0 ∧
    groupAfter (.sign 0 (.s 6) (.v 5 0) 1) (((signing 32).modGroup 0 (Vec 5 0x11)).modLaunch 0 fun la => { la with tha := 0x300000 })
      (fun g => (g.ecause.toNat % 64, g.emask)) = some (0x12, 0xFFFFFFFF) := by decide +kernel
/-- Where the tile instructions do not run (O20). -/
theorem witness_tile_traps : Meets [] none (fun c _ => c.g.hkind ≠ 0) (having fun g => { g with hkind := 2 }) ∧
    Meets [] none (fun c s => c.g.hkind = 0 ∧ s.ctxNum c.g.blk = none) base ∧
    Meets [] none (fun c _ => c.g.hkind = 0 ∧ c.g.tileInWindow (c.g.accTile ⟨7, none⟩) = false)
      (owner.modGroup 0 fun g => { g with al := 255 }) := by decide +kernel
theorem test_sign_completes : (after (.sign 0 (.s 6) (.v 5 0) 1) (signing 32) fun t => (((t.core 0).ctx1.cv 0).st, ((t.core 0).ctx1.cv 0).signed)) =
    some (2, 64) := by decide +kernel
/-- `mstat.tol` reads MTOL: TEXP in [4:0], the trap bit in [8] (R215, R218). -/
theorem test_mstat : (after (.mstat (.settol (.s 7)) none) (owner.modGroup 0 (Sca 7 0x10C)) fun t =>
    ((t.core 0).ctx1.mtolExp, (t.core 0).ctx1.mtolTrap)) = some (12, true) := by decide +kernel
theorem test_mma_in_handler : groupAfter (.mma 0 false false ⟨0, none⟩ 10 12 none) (((tiles id).modLaunch 0 fun la => { la with tha := 0x300000 }).modGroup 0
    fun g => { g with al := 0 }) (fun g => g.ecause.toNat % 64) = some 3 := by decide +kernel

-- Graphics, rays, engines

/-- A descriptor of a 4 by 4 RGBA8 texture at address 0 is in memory at 0x300000, a sampler word of zeros beside it in S21. -/
def textured : State := ((addressed 0x300000).storeBytes 0x300008 [3, 0, 3, 0, 1]).modGroup 0 (Sca 20 0x300000)
/-- The texels of a lane at coordinates 0, and what keeps their loads. -/
def texelsOpen (s : State) (t : TexDesc) : Bool :=
  let c := at_ s
  let work := (laneList c.em).map fun l => (l, tapsOf t l (texTaps t (plainFilter (c.g.sget 21)) 0 0 (lodOf 0 (c.g.sget 21)) 1 none))
  let es : List (Nat × W64 × Dst) := work.flatMap fun w =>
    (List.range w.2.1.length).map fun i => (w.1, w.2.1.getD i 0, .raw (w.1 * 4096 + i))
  !es.isEmpty && decide (c.gfxOpen (s.viewOf c.gid c.g) (texBlock t.fmt).2 es
    (misaligned (texBlock t.fmt).2 (es.map fun e => (e.1, e.2.1))) (some 2) (some (.tex 60 (work.map fun w => (w.1, w.2.2)))) s)
theorem witness_texture : MeetsAsync [.src64 (.v 4 0), .src (.const 0), .regs 60 4 4] (some 2) (fun c s =>
    let descs := (laneList c.em).map fun l => (l, c.g.sget 20)
    c.em ≠ 0 ∧ s.accHeld (s.viewOf c.gid c.g) [(0, c.g.sget 20)] = false ∧
      s.multiErr (s.viewOf c.gid c.g) descs 32 (misaligned 32 descs) = none ∧ samplerOk (c.g.sget 21) = true ∧
      (match s.readNow (s.viewOf c.gid c.g) 0 (c.g.sget 20) 32 with
        | none => false
        | some (y, s') => ((texDesc y).map (texelsOpen s')).getD false) = true) textured := by decide +kernel
theorem witness_texture_gradient : MeetsAsync [.src64 (.v 4 0), .src (.v 8 0), .regs 8 4 4, .regs 60 4 4] (some 2) (fun c _ =>
    (gradientLod { base := 0, w := 4, h := 4, fmt := 1, lm1 := 0 } (c.g.sget 21) ((List.range 4).map fun i => c.g.supply (8 + i) (c.g.route 0 3))).2.1 = 1)
    textured := by decide +kernel
/-- vbld in a reservation of 49152 bytes, and attr on a record of zeros with NA 0. -/
def visible : State := ((having fun g => Sca 3 0xFD00000000000000 (Sca 4 0x300000 g)).modBlock 0 fun b =>
  { b with tileKiB := 48, tileSize := 49152 }).modLaunch 0 fun la => { la with tile := 48 }
theorem witness_vbld : MeetsAsync [.src (.v 1 0), .regs 60 3 4] (some 0) (fun c s =>
    let v := s.viewOf c.gid c.g
    let es : List (Nat × W64 × Dst) := (laneList c.em).flatMap fun l =>
      [(l, c.g.sget 3 + 0, .v l 60 4 false), (l, c.g.sget 3 + 4, .v l 61 4 false), (l, c.g.sget 3 + 32768, .v l 62 4 false)]
    (spaceOf (c.g.sget 3) = some .tile ∧ v.tileOk ((c.g.sget 3).toNat % 2 ^ 19) 49152 = true ∧ (c.g.sget 3).toNat % 1024 = 0) ∧
      c.gfxOpen v 4 es [] (some 0) none s) visible := by decide +kernel
theorem witness_attr : MeetsAsync [.src64 (.s 4), .src (.v 1 0), Machine.AttrMode.use 60 .b] none (fun c s =>
    let v := s.viewOf c.gid c.g
    let recs := (laneList c.em).map fun l => (l, c.bits64 (.s 4) l)
    let heads := (laneList c.em).map fun l => (l, c.bits64 (.s 4) l + 48)
    s.accHeld v (recs ++ heads) = false ∧ s.multiErr v (recs ++ heads) 4 (misaligned 64 recs) = none ∧ (s.readsNow v 4 heads).isSome = true ∧
      (let counts := (s.readsNow v 4 heads).getD ([], s)
       let na (l : Nat) : Nat := NMap.get 0 counts.1 l
       let es : List (Nat × W64 × Dst) := (laneList c.em).flatMap fun l => (attrWords (Machine.AttrMode.code .b) (na l) (c.attrIndex .b l)).map fun w =>
         (l, c.bits64 (.s 4) l + BitVec.ofNat 64 w.1, .raw (l * 16 + w.2))
       c.gfxOpen v 4 es [] none (some (.attr (Machine.AttrMode.code .b) 60
         ((laneList c.em).map fun l => (l, c.bits32 (.v 1 0) l, na l, c.attrIndex .b l)))) counts.2)) visible := by decide +kernel
/-- A coverage group: candidate masks in every lane; lane 31 has given its verdict. -/
def coverage : State := having fun g => { g with covCand := lanes.map fun l => (l, 15), covDone := 0x80000000, en := 0x7FFFFFFF }
theorem witness_covw : Meets [.src (.v 1 0)] none (fun c _ => c.em &&& (~~~c.g.covLanes ||| c.g.covDone) = 0) coverage ∧
    Meets [.src (.v 1 0)] none (fun c _ => c.em &&& (~~~c.g.covLanes ||| c.g.covDone) ≠ 0) (coverage.modGroup 0 fun g => { g with en := 0xFFFFFFFF }) := by
  decide +kernel
/-- A mesh launch of a running pass of one tile (the descriptor of the example under R416), whose lanes hold a record's address. -/
def passWords : List W64 := [0x3F800000, 0, 0x0000000100000010, 0, 0xD000, 0x0000C04000000000, 0, 0]
def runningPass : RenderPass :=
  { queue := 0, cmd := 0, asn := 0, root := 0, p := passWords, running := true, failed := false, ended := false, groups := [],
    chunks := [], tiles := [], forced := [], heldSince := none }
def mesh : State := { (handled fun g => Sca 4 0x300000 (Sca 10 0x300000 g)) with passes := [(3, runningPass)] }.modLaunch 0 fun la =>
  { la with mesh := true, rpass := some 3 }
theorem witness_pass : passOk passWords = true := by decide +kernel
theorem witness_prim : MeetsAsync [.src64 (.s 4), .src (.v 1 0)] (some 1) (fun c s =>
    (s.viewOf c.gid c.g).la.mesh = true ∧ c.g.gix < (s.viewOf c.gid c.g).la.groups ∧ c.em ≠ 0 ∧ targetOk (c.g.sget 10) = true ∧
      ∀ l ∈ laneList c.em, (c.bits32 (.v 1 0) l).toNat / 2 ^ 20 = 0 ∧
        (c.bits32 (.v 1 0) l).toNat / 2 ^ 12 % 256 < ((s.runningPass ((s.viewOf c.gid c.g).la.rpass.getD 0)).map fun x => passViews x.p).getD 256 ∧
        (c.bits64 (.s 4) l).toNat % 64 = 0 ∧ spaceOf (c.bits64 (.s 4) l) ∈ [some Space.dev, some Space.vault, some Space.tile])
    (mesh.modGroup 0 (Vec 1 0xFFF)) := by decide +kernel
theorem test_prim : (after (.prim .le none .none (.s 4) (.v 1 0) (some 1)) mesh fun t => (t.prims.length, (t.group? 0).map fun g => g.sbGet 1)) =
    some (32, some 1) := by decide +kernel

/-- A block that asks for a tile of a running pass, or of none. -/
def tileBlock : State := mesh.modBlock 0 fun b => { b with tileKiB := 130, tileSize := 133120 }
theorem witness_tret : ∃ b, MeetsAsync [.src64 (.const 3)] (some 3) (fun c s => c.g.hkind = 0 ∧ s.block? c.g.blk = some b ∧ b.tret = none ∧
    (c.bits64 (.const 3) 0).toNat < 8 ∧ ((s.runningPass (c.bits64 (.const 3) 0).toNat).all fun x => tileFits b x.p) = true) tileBlock :=
  ⟨(tileBlock.block? 0).getD noBlock, by decide +kernel⟩
theorem witness_tret_last_slot : MeetsAsync [.src64 (.const 7)] (some 3) (fun c s => c.g.hkind = 0 ∧ (c.bits64 (.const 7) 0).toNat < 8 ∧
    s.runningPass (c.bits64 (.const 7) 0).toNat = none) tileBlock := by decide +kernel
theorem test_tret_waits : (after (.tretNext 20 (.const 3) 3) tileBlock fun t => (t.tileReqs.length, (t.group? 0).map fun g => g.sbGet 3)) =
    some (1, some 1) := by decide +kernel

/-- A ray of lane 0 that asks for a verdict, its handle in V1 (O22). -/
def askedRay (h : W32) : State := { (having fun g => Vec 1 h { g with en := 1 }) with rays := [{
  id := 7, gid := 0, core := 0, launch := 0, blk := 0, tag := 1, lane := 0, words := [], flags := 0, todo := [], closest := none,
  stage := .asked { tn := 0, td := 1, t := 0, u := 0, v := 0, pid := 0, front := true }, site := base.siteOf (placedGroup 0) 0 }] }
theorem witness_hit_issues : Issues (askedRay 5) (at_ (askedRay 5)) [.src (.v 1 0), .src (.const 2)] none ∧
    laneList (at_ (askedRay 5)).em = [0] ∧ (at_ (askedRay 5)).bits32 (.v 1 0) 0 = 5 ∧ ((at_ (askedRay 5)).bits32 (.const 2) 0).toNat % 4 ≠ 3 := by
  decide +kernel
theorem witness_hit_named (h : W32) (hh : h = Config.rayHandle 7) :
    ((askedRay 5).askedRay { at_ (askedRay 5) with word := 0 } 0 h).isSome = true := by
  have hg : (at_ (askedRay 5)).gid = 0 ∧ (at_ (askedRay 5)).g.tag = 1 := by decide +kernel
  simp [State.askedRay, askedRay, hh] at hg ⊢
  simp [hg]

-- The engines. A card at S24 copies one BF16 element from address 0 to address 0, by records of zeros there; the encoder's records are
-- at 0x300000 (BF16) and 0x300040 (TW1), and its window is empty.

def carded : State := (handled (Sca 29 0x0001000100010001)).storeBytes 0x300060 [9]
def encCarded : State := (carded.modGroup 0 fun g => Sca 17 0x300000 (Sca 18 0x300040 g))
theorem witness_copy_push : MeetsAsync [] (some 1) (fun c s =>
    let card := c.g.card 24
    let v := s.viewOf c.gid c.g
    c.g.hkind = 0 ∧ ((copyRecords card ++ emptyCounters card).all fun a => !s.heldAddr v 0 a) = true ∧
      s.recordErr v (copyRecords card) = none ∧
      s.tileReqsOf c.gid = [] ∧ (s.copies.filter fun j => j.core == c.core).length < 16 ∧ copyCardBad card = false ∧
      (match s.readCard v (copyRecords card) with
        | none => false
        | some (recs, s1) =>
          let j := copyJobOf c v.blk (s1.siteOf c.g c.cl.pc) s1.nextId (c.jobIdent v 1 c.g.xcCount) card recs
          j.mcnt == 0 && j.formatErr.isNone && (s1.copyRangeErr v j).isNone) = true) carded := by decide +kernel
theorem witness_encoder_push : MeetsAsync [] (some 1) (fun c s =>
    let card := c.g.card 16
    let v := s.viewOf c.gid c.g
    let rs := [cardWord card 1, cardWord card 2]
    c.g.hkind = 0 ∧ (rs.all fun a => !s.heldAddr v 0 a) = true ∧ s.recordErr v rs = none ∧
      (s.encodes.filter fun j => j.core == c.core).length + (s.core c.core).xe.length < 16 ∧ encCardBad card = false ∧
      (match s.readCard v rs with
        | none => false
        | some (recs, s1) =>
          let j : EncJob :=
            { id := s1.nextId, core := c.core, gid := c.gid, launch := c.g.launch, blk := c.g.blk, site := s1.siteOf c.g c.cl.pc,
              ident := c.jobIdent v 2 c.g.xeCount, card := card, src := recs.headD [], dst := (recs.drop 1).headD [],
              home := v.blk, added := none, out := none }
          j.formatErr.isNone && (s1.encRangeErr v j).isNone) = true) encCarded := by decide +kernel
theorem witness_ray_push : MeetsAsync [.regs 56 8 8] none (fun c s => c.g.hkind = 0 ∧ ∀ l ∈ laneList c.em, s.lanesRays c.gid c.g.tag l < 4)
    base := by decide +kernel
theorem witness_pops : MeetsAsync [.regs 56 8 8] (some 7) (fun c _ => c.g.hkind = 0) base ∧
    MeetsAsync [.regs 56 8 8] (some 7) (fun c _ => c.g.hkind ≠ 0) (having fun g => { g with hkind := 1 }) := by decide +kernel
/-- The state after a push of each engine. -/
def pushedCopy : State := match exec (.xpushXc (some 5) 24 (some 1)) carded with
  | .next t => t
  | _ => base
def pushedEncode : State := match exec (.xpushXe none 16 none) encCarded with
  | .next t => t
  | _ => base
theorem test_xpush_copy : pushedCopy.copies.length = 1 ∧ (pushedCopy.core 0).engineSeq = 1 := by decide +kernel
theorem test_xstat : scalar (.xstat .xc 5) base 5 = some 16 ∧ (pushedEncode.encodes.length = 1) := by decide +kernel

-- Control registers, system calls, debug registers

theorem witness_csr : (∀ n ∈ [0, 11], Meets [.dst (.v 62) true] none (fun c _ => csrReach (BitVec.ofNat 24 n) c.g = true)
      (having fun g => { g with hkind := 1 })) ∧
    (∀ n ∈ [6, 16, 21], Meets [.src64 (.s 31)] none (fun c _ => csrReach (BitVec.ofNat 24 n) c.g = true) base) ∧
    ∀ n ∈ [0, 5, 7, 11], Meets [.src64 (.s 31)] none (fun c _ => csrReach (BitVec.ofNat 24 n) c.g = false) base := by decide +kernel
theorem test_csrr_eaddr : scalar (.csrr (.s 21) 1) (having fun g => { g with hkind := 1, eaddr := 0xABC }) 21 = some 0xABC := by decide +kernel
theorem test_csrw_epc : groupAfter (.csrw 3 (.s 4)) (having fun g => Sca 4 0x300008 { g with hkind := 1 }) (fun g => NMap.get 0 g.epc 31) =
    some 0x300008 := by decide +kernel
theorem witness_debug_registers : (∀ n ∈ [0, 31], Meets [] none (fun c _ => c.g.hkind = 2 ∧ c.debugNumber (.const (BitVec.ofNat 6 n)) < 32 ∧
      debugOk (c.debugNumber (.const (BitVec.ofNat 6 n))) 0 = true) (having fun g => { g with hkind := 2 })) ∧
    Meets [] none (fun c _ => c.g.hkind ≠ 2) (having fun g => { g with hkind := 1 }) := by decide +kernel
theorem witness_iinv : Meets [] none (fun c s => c.g.hkind = 2 ∧ (c.g.sget 5).toNat ≠ 0 ∧ (c.g.sget 4).toNat + (c.g.sget 5).toNat ≤ 2 ^ 56 ∧
      s.rangeHeld (s.viewOf c.gid c.g).la.asn (c.g.sget 4).toNat (c.g.sget 5).toNat = false)
    (having fun g => Sca 4 0xFFFFFFFFFFFFF0 (Sca 5 16 { g with hkind := 2 })) := by decide +kernel
theorem test_dbgw_waits : groupAfter (.dbgw (.const 0) ⟨.s 4, none⟩) (having fun g => Sca 4 0x300008 { g with hkind := 2 }) (fun g => g.dbgPend) =
    some [(0, 0x300008)] := by decide +kernel
theorem test_note : (after (.syscNote (.const 9) none) (base.modQueue 0 fun q => q.setWord 1 1) fun t => (t.queue 0).events.map fun e => e.getD 1 0) = some [9] := by decide +kernel
theorem test_kill : (after (.syscKill (.const 9) none) base fun t => (t.launches.length, t.groups.length, t.blocks.length)) = some (0, 0, 0) := by
  decide +kernel

-- Traps and handlers

theorem witness_trap_entry : ∃ g la, (handled id).group? 0 = some g ∧ (handled id).launch? g.launch = some la ∧ g.hkind = 0 ∧ la.tha ≠ 0 :=
  ⟨((handled id).group? 0).getD (placedGroup 0), ((handled id).launch? 0).getD noLaunch, by decide +kernel⟩
/-- Lanes that would resume inside a clause when the trap is taken (R255, R258). -/
theorem witness_trap_inside : ((handled fun g => { g with clause := none, mid := 1, pcv := lanes.map fun l => (l, 0x200008) }).group? 0).map
    (fun g => (g.clause.isNone, g.lanesAt 0x200008 &&& g.mid)) = some (true, 1) := by decide +kernel
theorem witness_double_trap : ∃ g la, (handled fun g => { g with hkind := 1 }).group? 0 = some g ∧
    (handled fun g => { g with hkind := 1 }).launch? g.launch = some la ∧ (g.hkind ≠ 0 ∨ la.tha = 0) :=
  ⟨((handled fun g => { g with hkind := 1 }).group? 0).getD (placedGroup 0),
    ((handled fun g => { g with hkind := 1 }).launch? 0).getD noLaunch, by decide +kernel⟩
theorem witness_unhandled_trap : ∃ g la, base.group? 0 = some g ∧ base.launch? g.launch = some la ∧ (g.hkind ≠ 0 ∨ la.tha = 0) :=
  ⟨(base.group? 0).getD (placedGroup 0), (base.launch? 0).getD noLaunch, by decide +kernel⟩
theorem witness_return : Meets [] none (fun c _ => c.g.hkind ≠ 0 ∧ TargetsOk c.g.live fun l => NMap.get 0 c.g.epc l)
    (having fun g => { g with hkind := 1 }) := by decide +kernel
/-- rtt gives EN, CM and the lanes back (R258). -/
theorem test_rtt : groupAfter .rtt (having fun g => { g with hkind := 1, sen := 0xF0, scm := 3, epc := lanes.map fun l => (l, 0x300000) })
    (fun g => (g.hkind, g.en, g.cm, g.pc 9)) = some (0, 0xF0, 3, 0x300000) := by decide +kernel
/-- spawn in a block with spawn slots: the last register, and none (O13). -/
theorem witness_spawn : ∃ blk, Meets [.src64 (.s 10), .src (.v 3 0), .src (.v 4 0), .regs 63 1 1] none
    (fun c s => c.g.hkind = 0 ∧ s.block? c.g.blk = some blk ∧ blk.spawn ≠ 0 ∧ TargetsOk c.em (c.bits64 (.s 10)))
    ((having (Sca 10 0x300000)).modBlock 0 fun b => { b with spawn := 1, slots := [0, 1] }) :=
  ⟨(((having (Sca 10 0x300000)).modBlock 0 fun b => { b with spawn := 1, slots := [0, 1] }).block? 0).getD noBlock, by decide +kernel⟩
/-- 32 threads of one key fill and close a bin (R151). -/
def spawned : State := match exec (.spawn 0 (.s 10) (.v 3 0) (.v 4 0)) ((having (Sca 10 0x300000)).modBlock 0 fun b =>
    { b with spawn := 32, slots := [0, 1] }) with
  | .next t => t
  | _ => base
theorem test_spawn : (spawned.core 0).bins.map (fun e => (e.2.threads.length, e.2.closedAt.isSome)) = [(32, true)] := by decide +kernel

-- Scheduling, completions, requests

/-- The state after an instruction or event. -/
def ran (i : Instr) (s : State) : State := match exec i s with
  | .next t => t
  | _ => base

/-- Every lane at a header of zeros, an ALU clause of one word, with the clause's words in a list, which the core has fetched. -/
def idle (ws : List W64) (f : Group → Group) : State :=
  let s := (having fun g => f { g with clause := none, pcv := lanes.map fun l => (l, 0x200000) }).storeBytes 0x200008 (ws.flatMap wordBytes)
  s.modCore 0 fun c => { c with icache := (List.range 2).map fun i => (0x40000 + i, s.load64 (0x200000 + 8 * i)) }
/-- The group that is next, and whether it may choose a PC. -/
def nextOf (s : State) : Option (Nat × Option Bool) := (s.nextGroup 0).map fun e => (e.1, (s.choice e.2).map Choice.brk)
theorem witness_clause_start : nextOf (idle [] id) = some (0, some false) := by decide +kernel
theorem witness_starved : nextOf { idle [] fun g => { g with readySince := some 0 } with now := 512 } = some (0, some false) ∧
    (((idle [] fun g => { g with readySince := some 0 }).group? 0).map fun g => g.waited 512) = some 512 := by decide +kernel
theorem witness_dwell_break : nextOf ((idle [] fun g => { g with dwell := 64, pcv := NMap.put g.pcv 31 0x200100 }).modCore 0 fun c =>
    { c with icache := c.icache ++ [(0x40020, 0), (0x40021, 0)] }) = some (0, some true) := by decide +kernel
/-- A group whose clause is not fetched is passed over (R122). -/
theorem test_unfetched : nextOf ((idle [] id).modCore 0 fun c => { c with icache := [] }) = none := by decide +kernel
/-- Lane 0 waits at the header of `mfold.add.n32 v3, v2, s9`, whose members are all; the others are elsewhere. -/
def parked : State := { idle [0x8082030208900000] fun g => Sca 9 0xFFFFFFFF { g with
  pcv := lanes.map fun l => (l, if l = 0 then 0x200000 else 0x300000), timers := [(0x200000, 0)] } with now := 65536 }
theorem witness_convergence : (parked.launch? 0).map Launch.cto = some 65536 ∧ (parked.group? 0).map (fun g =>
    (g.timers.find? (fun e => e.1 == 0x200000), g.clause.isNone, g.lanesAt 0x200000 &&& ~~~g.mid, parked.membersAt g 0x200000 &&& ~~~g.lanesAt 0x200000)) =
      some (some (0x200000, 0), true, 1, 0xFFFFFFFE) := by decide +kernel
theorem witness_sleep_end : ((having fun g => { g with sleepUntil := some 0 }).group? 0).map Group.sleepUntil = some (some 0) ∧
    (0 : Nat) ≤ (having id).now := by decide +kernel
theorem test_clause_start : groupAfter (.clauseStart 0) (idle [] id) (fun g => g.clause.map fun c => (c.hdr, c.pc, c.cls, c.cnt)) =
    some (some (0x200000, 0x200008, 0, 0)) := by decide +kernel
theorem test_convergence : groupAfter (.convergenceTimeout 0 0x200000) (parked.modLaunch 0 fun la => { la with tha := 0x500000 })
    (fun g => (g.ecause.toNat % 64, g.eaddr, g.emask)) = some (0x10, 0xFFFFFFFE, 1) := by decide +kernel

/-- An operation that waits for nothing; a drained group; an old open bin; a closed bin. -/
def heldOnly : State := ran (.iadd .i32 (.v 3) (.v 1 0) (.v 2 0) (some 5)) base
theorem witness_async : (heldOnly.asyncs.map fun a => (a.id, heldOnly.asyncReady a, a.slot)) = [(1, true, some 5)] := by decide +kernel
theorem test_async_complete : groupAfter (.asyncComplete 1) heldOnly (fun g => g.sbGet 5) = some 0 := by decide +kernel
def drained : State := having fun g => { g with live := 0, draining := true, clause := none }
theorem witness_drained : (drained.group? 0).map (fun g => (g.draining, g.sbz, g.hashQ.isEmpty, drained.asyncs.isEmpty)) =
    some (true, 0xFF, true, true) := by decide +kernel
theorem test_group_leaves : (after (.exitDrainingEnd 0) drained fun t => t.groups.length) = some 0 := by decide +kernel
def openBin : State := { spawned.modCore 0 fun c => { c with bins := c.bins.map fun e => (e.1, { e.2 with closedAt := none }) } with now := 1024 }
theorem witness_bins : openBin.now = 1024 ∧
    ((openBin.core 0).bins.map fun e => (e.1, e.2.blk, e.2.expires, e.2.closedAt)) = [(0, 0, 256, none)] := by decide +kernel
/-- A thread whose bin closed before its block was evicted starts from the block's own list (R156). -/
def unstarted : State := { spawned with blocks := spawned.blocks.map fun e =>
  (e.1, { e.2 with unstarted := (spawned.core 0).bins.map fun x => x.2 }) }
theorem witness_unstarted : (unstarted.block? 0).map (fun b => (b.evicting, b.saved, b.core, unstarted.freeSpawnSlot b,
    b.unstarted.head?.map Bin.blk)) = some (false, false, 0, some 0, some 0) ∧ (unstarted.launch? 0).isSome = true := by decide +kernel
theorem test_unstarted_group : (after (.spawnedGroupStart 0 16) unstarted fun t => (t.groups.length, (t.block? 0).map fun b => b.unstarted.length)) =
    some (2, some 0) := by decide +kernel
theorem witness_spawned : firstClosed 0 (spawned.core 0).bins 0 = some 0 ∧ (spawned.block? 0).map (fun b => (b.evicting, spawned.freeSpawnSlot b)) =
    some (false, some 0) := by decide +kernel
theorem test_spawned_group : (after (.spawnedGroupStart 0 0) spawned fun t => (t.group? 1).map fun g => (g.gix, g.live, g.pc 31)) =
    some (some (1, 0xFFFFFFFF, 0x300000)) := by decide +kernel

/-- Requests on their way: of an atomic to device memory, of a load from the own tile memory, of a load from a vault, of a counter. -/
def atomSent : State := ran (.atom .sub 9 (.s 6) (.v 4 0) 0 none) atomics
def ownSent : State := ran (.ld .w false .dflt 9 (.s 3) (.v 1 0) 0 none) visible
def vaultSent : State := ran (.ld .w false .dflt 9 (.s 6) (.v 2 0) 0 none) (addressed 0xFB00000000000000)
def counterSent : State := ran (.ctrAdd none (some 6) (.const 1) 8 none) atomics
def reqShape (s : State) : List (Nat × Bool × Bool × Bool × Bool) :=
  s.reqs.map fun r => (r.id, r.own, decide (64 ≤ r.arr ∧ r.arr < 2 ^ 20), r.counterFirst, s.reqReady r)
theorem witness_requests : (reqShape atomSent).map Prod.snd = [(false, false, false, true)] ∧
    ((reqShape ownSent).map Prod.snd).head? = some (true, true, false, true) ∧
    ((reqShape vaultSent).map Prod.snd).head? = some (false, true, false, true) ∧
    (reqShape counterSent).map Prod.snd = [(false, false, true, true)] := by decide +kernel
theorem witness_gate : (({ atomSent with reqs := atomSent.reqs.map fun r => { r with arrived := some 0 }, now := 2 ^ 20 + 1 } : State).reqs.map
    fun r => (r.arrived, r.todo.isEmpty)) = [(some 0, false)] := by decide +kernel
/-- A counter wait whose turn replay's order gate has not given it. -/
def gatedWait : State := { ran (.ctrWait true 1 (some 20) (some 6) (.const 9) 0 3) atomics with now := 2 ^ 20 + 1 }
theorem witness_gated_wait : (({ gatedWait with ctrWaits := gatedWait.ctrWaits.map fun w => { w with arrived := some 0 } } : State).ctrWaits.map
    fun w => (w.arrived, (gatedWait.req? w.id).isNone, (gatedWait.stream w.launch (gatedWait.homeOf w.addr)).free)) =
      [(some 0, true, false)] := by decide +kernel
/-- A stored line on its way home. -/
def writtenBack : State := ran (.cwb .all none) storedWord
theorem witness_write_back : (writtenBack.wbs.map fun w => (w.core, writtenBack.peerDown (w.line * 128))).head? = some (0, false) := by
  decide +kernel
theorem test_counter_home : (after (.counterAdditionAtHome ((counterSent.reqs.map Req.id).headD 0)) counterSent fun t => t.load64 0x300008) =
    some 1 := by decide +kernel
/-- Lane l subtracts l from its own word (R185). -/
theorem test_atomic_home : (after (.atomicAtHome ((atomSent.reqs.map Req.id).headD 0)) (({ atomSent with
    reqs := atomSent.reqs.map fun r => { r with todo := r.todo.drop 3 } } : State)) fun t => t.load32 0x300000) = some 0xFFFFFFFD := by
  decide +kernel

/-- A publish with nothing to wait for; a wait that is met, and one that is not when its limit elapses. -/
def published : State := ran (.phaseP .sys (some 0)) base
theorem witness_publish_done : published.pubs.map published.pubReady = [true] := by decide +kernel
def waiting (target : BitVec 6) (t : BitVec 3) : State := ran (.ctrWait true t (some 20) (some 6) (.const target) 0 3) atomics
theorem witness_wait_met : ((waiting 0 0).ctrWaits.map fun w => (w.limit, (waiting 0 0).waitMet w)) = [(none, true)] := by decide +kernel
theorem witness_wait_elapses : ((waiting 1 1).ctrWaits.map fun w => (w.limit, (waiting 1 1).waitMet w,
    (((waiting 1 1).launch? w.launch).getD noLaunch).mode)) = [(some 1024, false, 0)] := by decide +kernel
/-- A wait with a limit that is met in time, one that was met, and one whose target comes after its limit. -/
theorem witness_wait_limited : ((waiting 0 1).ctrWaits.map fun w => (w.limit, w.met, (waiting 0 1).waitMet w, decide ((waiting 0 1).now ≤ 1024),
    (((waiting 0 1).launch? w.launch).getD noLaunch).mode)) = [(some 1024, false, true, true, 0)] ∧
    (({ waiting 1 1 with ctrWaits := (waiting 1 1).ctrWaits.map fun w => { w with met := true } } : State).ctrWaits.map fun w => (w.met, w.limit)) =
      [(true, some 1024)] ∧
    (({ waiting 0 1 with now := 1025 } : State).ctrWaits.map fun w => (w.met, w.limit)) = [(false, some 1024)] := by decide +kernel
theorem witness_refresh_record : ((({ base with now := 2 ^ 20 } : State).modCore 0 fun c => { c with refreshes := 1 }).core 0).refreshesAt + 2 ^ 20 ≤ 2 ^ 20 ∧
    (((base.modCore 0 fun c => { c with refreshes := 1 }).core 0).refreshes ≠ ((base.modCore 0 fun c => { c with refreshes := 1 }).core 0).refreshesSeen) := by
  decide +kernel
theorem test_wait_timeout : (after (.ctrWaitTimeout ((waiting 1 1).ctrWaits.map Wait.id).head!) { waiting 1 1 with now := 1025 } fun t =>
    t.asyncs.map fun a => a.sw) = some [[(20, 1)]] := by decide +kernel

-- The matrix engine's events

/-- An mzero fired on tile 7; a running one; an mma on the array. -/
def zeroFired : State := ran (.mzero none ⟨7, none⟩ (some 1)) (tiles id)
def zeroRunning : State := ran (.matrixOpStart 0 1) zeroFired
def mmaFired : State := ran (.mma 0 true false ⟨7, none⟩ 10 12 none) complete
theorem witness_op_start : ((zeroFired.opReady (zeroFired.core 0).ctx1).map fun o => o.kind.onArray) = some false ∧
    ((mmaFired.opReady (mmaFired.core 0).ctx1).map fun o => o.kind.onArray) = some true ∧ (mmaFired.core 0).ctx0.usesArray = false ∧
    (mmaFired.opReady (mmaFired.core 0).ctx0).isNone = true := by decide +kernel
theorem witness_op_progress : ((zeroRunning.core 0).ctx1.ops.length, (zeroRunning.opReady (zeroRunning.core 0).ctx1).isNone) = (1, true) ∧
    ((mmaFired.opReady (mmaFired.core 0).ctx1).map fun o => o.kind.onArray) = some true ∧
    ((mmaFired.modCtx 0 0 fun _ => { (mmaFired.core 0).ctx1 with
      ops := (mmaFired.core 0).ctx1.ops.map fun o => { o with stage := .running } }).core 0).ctx0.usesArray = true := by decide +kernel
theorem witness_op_complete : (zeroRunning.core 0).ctx1.owner = some 0 ∧ (zeroRunning.core 0).ctx1.ops.head?.map (fun o =>
    (o.stage, (zeroRunning.opFault (zeroRunning.viewOfBlock 0) o).isNone)) = some (.running, true) := by decide +kernel
theorem witness_check_trap : ((having fun g => { g with clause := none, checks := [5] }).group? 0).map (fun g =>
    (g.clause.isNone, g.checks, (leastPc (g.pcs (laneList g.live))).isSome)) = some (true, [5], true) := by decide +kernel
/-- A block whose last group has left still owns its context. -/
def deadOwner : State := { owner with groups := [] }
theorem witness_context_end : (deadOwner.block? 0).map (fun b => (b.ctx, b.saved, deadOwner.blockDead 0,
    ((((deadOwner.cancelAll b.core 1 (List.range 8)).core b.core).ctx 1).ops).isEmpty)) = some (some 1, false, true, true) := by decide +kernel
theorem test_context_end : (after (.matrixContextEnd 0) deadOwner fun t => ((t.core 0).ctx1.owner, t.blocks.length)) = some (none, 0) := by
  decide +kernel

-- Rays, eviction, watches, samples

theorem witness_ray : ((askedRay 5).rays.map fun r => (r.id, ((askedRay 5).launch? r.launch).isSome)) = [(7, true)] := by decide +kernel
def evicting : State := (idle [] fun g => { g with evicting := true }).modBlock 0 fun b => { b with evicting := true }
theorem witness_eviction : (evicting.block? 0).map (fun b => (b.evicting, (evicting.evictSet 0).all evicting.evictReady)) = some (true, true) := by
  decide +kernel
def saved : State := ran (.eviction 0) evicting
theorem witness_resume : (saved.block? 0).map (fun b => (b.saved, clusterOf 0 == clusterOf b.core, saved.maskAllows 0 0,
    (saved.grantAt 0 ((saved.launch? 0).getD noLaunch) (b.res / 1024) b.ctr0).isSome)) = some (true, true, true, true) ∧
    (saved.launch? 0).isSome = true := by decide +kernel
/-- A group in the middle of its clause keeps its block from being saved. -/
theorem witness_not_quiet : (let s := (having fun g => { g with evicting := true }).modBlock 0 fun b => { b with evicting := true }
    (s.block? 0).map fun b => (b.evicting, (s.evictSet 0).all (s.requestEvicts (s.evictSet 0)).evictReady)) = some (true, false) := by
  decide +kernel
theorem test_evict_resume : saved.groups.length = 0 ∧ (after (.blockResume 0 0) saved fun t => t.groups.length) = some 1 := by decide +kernel
/-- A watch that only reports, and one with a predicate that is false. -/
def watched (dwc : W64) : State := (having fun g => { g with
    halted := true, watchHit := [(0, 0, 5, 0x300000)],
    watchSave := g.clause.map fun c => { seq := 0, clause := c, queue := g.queue, shadow := g.shadow, mid := 0, midHdr := 0, midQueue := [], midEnd := g.midEnd } }).modCore
  0 fun c => { c with dwc := [(0, dwc)] }
theorem witness_watch : ((watched 1).group? 0).map Group.watchHit = some [(0, 0, 5, 0x300000)] ∧
    ((watched 3).group? 0).map (fun g => g.watchSave.isSome) = some true ∧
    (NMap.get 0 ((watched 1).core 0).dwc 0).getLsbD 1 = false ∧ (NMap.get 0 ((watched 3).core 0).dwc 0).getLsbD 1 = true ∧
    ((watched 3).group? 0).map (fun g => ((watched 3).modDie 0 fun d => { d with preds := [(1, 0x90)] }).predTrue g (0, 0, 5, 0x300000)) = some false := by decide +kernel
theorem witness_memory_sample : ((base.modCore 0 fun c => { c with samples := [(9, [1, 2, 3], [])] }).core 0).samples.find?
    (fun e => base.asyncs.all fun a => a.id != e.1) = some (9, [1, 2, 3], []) := by decide +kernel

-- Engines and rendering

/-- A copy job on its way, started on engine 0; one that only fills, started and landed; an encoder's job with its error and codes. -/
def copyStarted : State := { pushedCopy with copies := pushedCopy.copies.map fun j => { j with engine := some 0 } }
def fillStarted : State := let s := ran (.xpushXc (some 5) 24 (some 1)) (carded.modGroup 0 (Sca 24 1))
  { s with copies := s.copies.map fun j => { j with engine := some 0 } }
def copyLanded : State := ran (.granuleLanded 1) fillStarted
def encoded : State := ran (.encoderJob 0) pushedEncode
theorem witness_copy_start : (pushedCopy.copies.map fun j => (j.id, j.engine, (pushedCopy.copiesBefore j).any j.after)) = [(1, none, false)] := by
  decide +kernel
theorem witness_copy_lands : (fillStarted.copies.map fun j => (j.engine, (fillStarted.pick j.todo.length).1, j.todo.map fun g => (g.sums, j.dataBytes g),
    match j.todo with
    | g :: _ =>
      let read := (fillStarted.pick 1).2.copyAhead (fillStarted.copyView j) j j.sources
      (match read.2.landItems (fillStarted.copyView j) { read.1 with todo := [] } g.items with
      | .ok r => (match r.2.copyAdd (fillStarted.copyView j) r.1 6 (j.dataBytes g) with
        | .ok _ => true
        | .error _ => false)
      | .error _ => false)
    | [] => false)) = [(some 0, 0, [(false, 2)], true)] := by decide +kernel
theorem witness_copy_completes : (copyLanded.copies.map fun j => (j.engine.isSome, j.todo.isEmpty, j.adds,
    match copyLanded.copyAdd (copyLanded.copyView j) j 7 1 with
    | .ok _ => true
    | .error _ => false)) = [(true, true, [], true)] := by decide +kernel
/-- An encoder's job that has sent its counter addition, and one that will. -/
def counting : State := { encoded with encodes := encoded.encodes.map fun e => { e with card := e.card.set 7 0x300000 } }
theorem witness_encoder_counts : (counting.encodes.map fun e => (cardWord e.card 7 == 0, e.added, e.out.map fun o =>
    (match counting.encAll (counting.encView e) o.1 with
      | .ok s1 => (match s1.engAdd (counting.encView e) e.id e.site e.ident (cardWord e.card 7) 1 with
        | .ok _ => true
        | .error _ => false)
      | .error _ => false))) = [(false, none, some true)] ∧
    ((ran (.encoderJobComplete 1) counting).encodes.map fun e => (e.added.isSome, e.out.isSome)) = [(true, true)] ∧
    (({ counting with encodes := counting.encodes.map fun e => { e with added := some 77 } } : State).reqs.any fun r => r.id == 77) = false := by
  decide +kernel
theorem witness_encoder : (pushedEncode.firstEncode 0).map (fun e => (e.out.isNone, match pushedEncode.encBlocks (pushedEncode.encView e) e 0 e.starts with
    | .ok r => (match r.2.encSome (pushedEncode.encView e) r.1.1 with
      | .ok _ => true
      | .error _ => false)
    | .error _ => false)) = some (true, true) ∧
    (encoded.encodes.map fun e => (cardWord e.card 7, e.out.map fun o => (match encoded.encAll (encoded.encView e) o.1 with
      | .ok _ => true
      | .error _ => false))) = [(0, some true)] := by decide +kernel
theorem test_copy_job : (ran (.copyJobComplete 1) copyLanded).copies.length = 0 ∧ (ran (.encoderJobComplete 1) encoded).encodes.length = 0 := by
  decide +kernel

/-- Primitives whose record lies in the vault, the first binned to tile 0. -/
def primmed : State := ran (.prim .le none .none (.s 4) (.v 1 0) (some 1)) (mesh.modGroup 0 (Sca 4 0xFB00000000000000))
def binned : State := { primmed with prims := primmed.prims.map fun p => if p.id = 1 then { p with tiles := some [0] } else p }
theorem witness_primitive : (primmed.prims.head?.map fun p => (p.id, p.tiles, primmed.recHeld p.e.at_,
      (primmed.runningPass p.slot).map primmed.statusHeld, match primmed.recRead p.e.at_ with
    | .ok _ => true
    | .error _ => false)) = some (1, none, false, some false, true) ∧
    (binned.prims.head?.map fun p => (p.slot, p.tiles, binned.primFirst p)) = some (3, some [0], true) ∧
    (binned.runningPass 3).map binned.listHeld = some false := by decide +kernel
/-- A launch whose next block waits, and one of a mesh. -/
def oneMore (m : Bool) : State := base.modLaunch 0 fun la => { la with nblocks := 2, mesh := m, rpass := if m then some 3 else none }
theorem witness_placement : ((oneMore true).launch? 0).map Launch.mesh = some true ∧ (oneMore true).servesNow 0 [0] = true ∧
    ((oneMore false).launch? 0).map Launch.mesh = some false ∧ (oneMore false).servesNow 0 [0] = true := by decide +kernel
theorem test_placement : (ran (.blockPlacement 0 [0]) (oneMore false)).blocks.length = 2 := by decide +kernel
/-- A block's request for a tile of a pass whose geometry has ended, granted, then begun, then rendered. -/
def asking : State := (ran (.tretNext 20 (.const 3) 3) tileBlock).modPass 3 fun x => { x with ended := true }
def granted : State := ran (.tilePassGrant 3) asking
def begunTile : State := ran (.startSequence 3 0) granted
theorem witness_grant : (asking.runningPass 3).map (fun x => asking.nextGrant 3 x) = some (some ((0, true, lastId), 0)) := by decide +kernel
theorem witness_start_sequence : (granted.runningPass 3).map (fun x => ((x.tile 0).out.map fun o => (o.owner, o.began, o.started),
    match granted.block? 0 with
    | some b => (match granted.beginTile b ((granted.launch? 0).getD noLaunch) x 0 with
      | .ok _ => true
      | .error _ => false)
    | none => false)) = some (some (some 0, false, false), true) ∧
    ([granted, begunTile].map fun s => (s.launch? 0).bind fun la => (s.runningPass 3).bind fun x => (x.tile 0).out.map fun o =>
      s.tileHeld la x 0 o.todo) = [some false, some false] ∧
    (begunTile.outOf 3 0).map (fun o => (o.owner, o.began, o.started)) = some (some 0, true, false) := by decide +kernel
def verdict : State := granted.modOut 3 0 fun o => { o with covGot := [1], cur := (primmed.prims.head?.map Prim.e) }
theorem witness_verdict : (verdict.outOf 3 0).map (fun o => (o.owner, o.covGot, o.cur.map fun e => (verdict.recHeld e.at_, match verdict.recRead e.at_ with
    | .ok _ => true
    | .error _ => false))) = some (some 0, [1], some (false, true)) := by decide +kernel
def retiring (pub : Option Nat) : State :=
  let r : Retire := { blk := 0, gid := 0, waits := [], pub := pub, ops := [], site := base.siteOf (placedGroup 0) 0 }
  { ran (.startSequence 3 0) begunTile with retires := [r] }
theorem witness_not_starting : ((retiring none).block? 0).map Block.starting = some false := by decide +kernel
theorem witness_retirement : ((retiring none).retires.find? fun r => r.blk == 0).map (fun r => (r.pub, r.waits)) = some (none, []) ∧
    ((retiring (some 9)).retires.find? fun r => r.blk == 0).map (fun r => (r.pub, (retiring (some 9)).pubs.any (fun q => q.id == 9),
      match (retiring (some 9)).block? 0 with
      | some b => (match (retiring (some 9)).retireTile 0 b r with
        | .ok _ => true
        | .error _ => false)
      | none => false)) = some (some 9, false, true) ∧
    ((retiring (some 9)).block? 0).map (retiring (some 9)).retireHeld = some false := by decide +kernel
theorem witness_tile_write : ((base.modDie 0 fun d => { d with apWrites := [{ ap := 3, core := 0, launch := 0, off := 8, data := [1], id := 4 }] }).die 0).apWrites.find?
    (fun w => w.ap == 3) = some { ap := 3, core := 0, launch := 0, off := 8, data := [1], id := 4 } := by decide +kernel

-- Queues and commands

/-- Queue 0 is enabled, its root and the import table at address 0 map the first 2^30 bytes to themselves, and its ring holds `k`. -/
def queued (k : List W64) : State :=
  (((base.storeWords 0 [0x1001]).storeWords 0x1000 [0x13]).storeWords 0x10000 k).modQueue 0 fun x =>
    { x with qd := [(0, 0x10004), (1, 1), (4, 0x20004)], desc := [(0, 0x10004), (1, 1), (4, 0x20004)], tail := 1 }
/-- The same with the command started. -/
def started (k : List W64) (begun : Bool := false) : State := (queued k).modQueue 0 fun x =>
  { x with head := 1, cmds := [{ num := 0, words := k, first := 0, count := 1, nodes := [], counters := [], succWords := [], blocks := [], gang := none, begun := begun }] }
theorem witness_command_start : (let s := queued [0x0200000000000000, 0x300000, 5]
    ((s.queue 0).enabled, (s.queue 0).stopped, (s.queue 0).head, (s.queue 0).tail, (s.queue 0).slotAddr 0, (s.queue 0).cmds.isEmpty,
      s.passHolds ((List.range 8).map fun n => s.load64 (0x10000 + 8 * n)))) = (true, false, 0, 1, 0x10000, true, false) ∧
    (commandEvent 0 0 [0x0200000000000000, 0x300000, 5]).toOption = some (.signal 0 0 0x300000 5) ∧
    (commandEvent 0 0 [0xFF00000000000000]).toOption.isNone = true := by decide +kernel
theorem witness_command_beyond : (((queued []).modQueue 0 fun x => { x with tail := 17 }).queue 0).tail = 17 := by decide +kernel
theorem test_signal_starts : (after (.commandStart 0) (queued [0x0200000000000000, 0x300000, 5]) fun t => (t.agenda, (t.queue 0).head)) =
    some ([.event (.signal 0 0 0x300000 5)], 0) := by decide +kernel
theorem test_malformed : (after (.commandStart 0) (queued [0xFF00000000000000]) fun t => ((t.queue 0).stopped, (t.queue 0).enabled)) =
    some (true, true) := by decide +kernel
/-- A migration of the 65,536 bytes at 0x300000. -/
def moving : State := { started [] with migrating := [(0, 0x300000, 0x10000)] }
/-- The conditions of the commands: memory reached, an addition that overflows, a descriptor, a running pass, a preemption, a shootdown. -/
theorem witness_commands : ((started []).queue 0).asn = 0 ∧ (started []).rangeHeld 0 0x300000 8 = false ∧
    (started []).rangeHeld 0 0x300000 64 = false ∧ ((started []).store64 0x300000 0xFFFFFFFFFFFFFFFF).rangeHeld 0 0x300000 8 = false ∧
    ((started []).storeWords 0x300000 passWords).rangeHeld 0 0x300000 64 = false ∧ (started []).doneHeld 0 0 1 = false ∧
    (moving.queue 0).asn = 0 ∧ (moving.cmd? 0 0).isSome = true ∧ moving.rangeHeld 0 0x300000 8 = true ∧ moving.rangeHeld 0 0x310000 8 = false ∧
    moving.rangeHeld 0 0x2FFFF8 8 = false ∧
    (((started []).cmd? 0 0).map Cmd.begun, (started [] true).cmd? 0 0 |>.map Cmd.begun) = (some false, some true) ∧
    ((started []).hubAdd 0 0x300000 5).map (·.1) = some false ∧
    (((started []).store64 0x300000 0xFFFFFFFFFFFFFFFF).hubAdd 0 0x300000 5).map (·.1) = some true ∧
    (started []).tableHome 0 0x300000 false = some 0x300000 ∧ (started []).peerDown 0x300000 = false ∧
    ((started []).load64 0x300000).toNat = 0 ∧ (started []).performed [] = true ∧ ((started []).die 0).apWrites.length = 0 ∧
    (started []).runningPass 3 = none ∧ ((started []).storeWords 0x300000 passWords).readPass 0 0x300000 = some passWords := by
  decide +kernel
theorem test_signal : (after (.signal 0 0 0x300000 5) (started []) fun t => (t.load64 0x300000, (t.queue 0).cmds.isEmpty, (t.queue 0).head)) =
    some (5, true, 1) := by decide +kernel
theorem test_wait : (after (.wait 0 0 0x300000 1) (started []) fun t => (t.queue 0).cmds.length) = some 1 ∧
    (after (.wait 0 0 0x300000 0) (started []) fun t => (t.queue 0).cmds.length) = some 0 := by decide +kernel
/-- A gang of packages 0 and 1, led by this one, with its members' list at 0x300000 (R429). -/
def ganging : State := { (started []).storeBytes 0x300000 [0, 0, 1, 0] with capacity := 2 ^ 30 }
theorem witness_gang_of : (match ganging.gangOf 0x0000010000000007 0x300000 0x000003E8000003E8 with
    | .ok g => (g.leader, g.members, g.tag, g.me, ganging.aborted.contains g.tag) == (0, [0, 1], 7, 0, false)
    | .error _ => false) = true := by decide +kernel
def ganged (f : Gang → Gang) : State := ganging.modQueue 0 fun x =>
  let g : Option Gang := match ganging.gangOf 0x0000010000000007 0x300000 0x000003E8000003E8 with
    | .ok g => some (f { g with hash := 0 })
    | .error _ => none
  { x with cmds := x.cmds.map fun c => { c with gang := g, words := [0, 0x0000010000000007, 0x300000, 0x000003E8000003E8] } }
theorem witness_no_gang : base.gangFor 7 = none := by decide +kernel
theorem witness_gang_leader : ((ganged id).gangFor 7).map (fun e => (e.1, e.2.2.leader, e.2.2.go)) = some (0, 0, none) ∧ (ganged id).pkg = 0 ∧
    ((ganged id).gangFor 7).map (fun e => (e.2.2.members.length, e.2.2.hash)) = some (2, 0) ∧
    ((ganged id).gangFor 7).map (fun e => e.2.1.words.drop 1) = some [0x0000010000000007, 0x300000, 0x000003E8000003E8] := by decide +kernel
theorem witness_gang_armed : ((ganged fun g => { g with armedAt := some 0 }).gangFor 7).map (fun e =>
    (e.2.2.armedAt.isSome, e.2.2.go, decide ((ganged id).ft ≤ 1), e.2.2.issued)) = some (true, none, true, false) ∧
    (({ ganged fun g => { g with armedAt := some 0 } with ft := 2 } : State).ft) = 2 := by decide +kernel
theorem witness_gang_going : ((ganged fun g => { g with armedAt := some 0, go := some 0 }).gangFor 7).map (fun e => (e.2.2.go, e.2.2.issued,
    e.2.2.started, (ganged id).gangPlaced 0 0, ((ganged id).launchesOf 0 0).all (ganged id).canIssue)) = some (some 0, false, [], true, true) := by
  decide +kernel
/-- With the fabric time locked, at GO's time and later (R431, R432). -/
theorem witness_gang_locked : (let s : State := { ganged fun g => { g with armedAt := some 0, go := some 0 } with locked := true }
    (s.gangFor 7).map fun e => (e.2.2.go, e.2.2.issued, s.ft, s.locked)) = some (some 0, false, 0, true) ∧
    (let s : State := { ganged fun g => { g with armedAt := some 0 } with locked := true }
    (s.gangFor 7).map fun e => (e.2.2.armedAt, e.2.2.go, s.locked)) = some (some 0, none, true) := by decide +kernel
theorem witness_gang_times : ((ganged id).gangFor 7).map (fun e => (e.2.2.armTimeout, e.2.2.goLead, e.2.2.start)) = some (1000, 1000, 0) ∧
    usTicks 1000 + nsTicks 1000 + usTicks 2 ≤ 2 ^ 40 := by decide +kernel
theorem test_miss : (after (.miss 7) (ganged id) fun t => (t.queue 0).cmds.length) = some 0 := by decide +kernel

/-- A launch all of whose blocks have ended, before and after its publishes. -/
def ending (pubs : Option (List Nat)) : State := { base.modLaunch 0 fun la => { la with finished := la.nblocks, pubs := pubs } with groups := [], blocks := [] }
theorem witness_node_ends : ((ending none).launch? 0).map (fun la => (la.held, decide (la.nblocks ≤ la.finished), (ending none).jobsOpen 0, la.pubs)) =
      some (false, true, false, none) ∧
    ((ending (some [])).launch? 0).map (fun la => (la.pubs, (ending (some [])).pubs.any fun p => [].contains p.id, (ending (some [])).nodeHeld la)) =
      some (some [], false, false) := by
  decide +kernel
theorem test_node_ends : (ran (.nodeComplete 0) (ending (some []))).launches.length = 0 := by decide +kernel

-- The debug commands

/-- Queue 0 has a DEBUG command; its operands are at 0x300000; the group of core 0 in slot 0 is halted. -/
def debugging (ws : List W64) : State := ({ started [] with l2n := 8 }.modGroup 0 fun g => { g with halted := true }).storeWords 0x300000 ws
theorem witness_debug_operands : (debugging []).physOk 0x300000 256 = true ∧
    (let f := ((debugging [0x0808]).physWords 0x300000 1).getD 0 0; ((f.extractLsb' 0 5).toNat, (f.extractLsb' 8 5).toNat)) = (8, 8) ∧
    (let f := ((debugging [0x1418]).physWords 0x300000 1).getD 0 0; ((f.extractLsb' 0 5).toNat, (f.extractLsb' 8 5).toNat)) = (24, 20) ∧
    debugCore 0 = some 0 ∧ (((debugging []).physWords 0x300000 32).drop 24).all (fun w => decide ((w.extractLsb' 20 4).toNat ≤ 12)) = true ∧
    (((debugging []).physWords 0x300000 4).all fun w => w.extractLsb' 48 2 == 0) = true ∧ (debugging []).l2n = 8 ∧
    debugGixOk 0 = true ∧ ((debugging []).haltedGroup 0).map (·.1) = some 0 ∧ (started []).haltedGroup 0 = none ∧
    ((debugging []).group? 0).map (fun g => (debugging []).physOk 0x300000 ((debugging []).imageSize 0 g)) = some true := by decide +kernel
theorem witness_debug_ring : (debugging [0x400000, 6, 0x500000, 0x500040, 0]).physOk 0x300000 40 = true ∧
    (debugging []).ringError ((debugging [0x400000, 6, 0x500000, 0x500040, 0]).physWords 0x300000 5) = none := by decide +kernel
/-- A record waits, and the ring has room, or none. -/
def recorded : State := (debugging []).modDie 0 fun d => { d with
  ring := some { base := 0x400000, n := 6, written := 0x500000, consumed := 0x500040 }, records := [(9, [1, 2, 3, 4, 5, 6, 7, 8], [])] }
theorem witness_debug_record : ((recorded.die 0).records, ((recorded.die 0).ring.map DebugRing.n), recorded.load64 0x500000, recorded.load64 0x500040) =
    ([(9, [1, 2, 3, 4, 5, 6, 7, 8], [])], some 6, 0, 0) ∧ (recorded.store64 0x500000 64).load64 0x500000 = 64 := by decide +kernel
theorem test_debug_record : (after (.debugRecord 0) recorded fun t =>
    (t.load64 0x500000, t.load64 0x400030, t.load64 0x400038, (t.die 0).records.length)) = some (1, 7, 0x0900000000000008, 0) := by
  decide +kernel
/-- An L2 watch over the word at the home of an address, and a sampled core. -/
def l2Watched : State := { (debugging []).modDie 0 fun d => { d with pcRate := some 8 } with now := 256 }
theorem witness_pc_sample : (l2Watched.die 0).pcRate = some 8 ∧ (l2Watched.die 0).pcSince + ((l2Watched.core 0).pcTaken + 1) * 2 ^ 8 ≤ l2Watched.now ∧ ((List.range 48).findSome? fun i =>
    (l2Watched.group? (0 * 48 + ((l2Watched.core 0).lastSampled + 1 + i) % 48)).map fun _ => ((l2Watched.core 0).lastSampled + 1 + i) % 48) = some 0 := by
  decide +kernel

/-- A slice's comparator over one word, which an access of a core meets (R376). -/
def l2Compared : State := { base with l2n := 8 }.modDie 0 fun d => { d with l2w := [(0, 1)] }
theorem witness_l2_watch : l2Compared.homeOf 0 = [2, 0, 0] ∧ l2Compared.l2n ≠ 0 ∧ 5 < l2Units 0 ∧ l2Compared.l2Sees 0 false = true := by
  decide +kernel

-- Host ports, the package, the fabric, time

/-- A package whose firmware is verified, with one semaphore held by port 0 and the queues as they are after reset. -/
def hosted : State := { base with verified := true, sems := [(3, 1)] }
theorem witness_host_ports : hosted.verified = true ∧ (hosted.queue 5).tail = 0 ∧ ((hosted.modQueue 5 fun x => { x with tail := 0xFFFFFFFFFFFFFFFF }).queue 5).tail.toNat +
      1 = 2 ^ 64 ∧ NMap.get 0 hosted.sems 31 = 0 ∧ hosted.portsDown = [] ∧ NMap.get 0 hosted.sems 3 = 0 + 1 ∧
    (hosted.queue 1023).enabled = false ∧ ((hosted.modQueue 5 fun x => { x with qd := [(1, 1)], evcnt := 3 }).queue 5).enabled = true ∧
    (((hosted.modQueue 5 fun x => { x with qd := [(0, 4), (4, 16)] }).queue 5).setWord 1 1).canEnable = true ∧
    (0x7FFF8 : Nat) / 8 % 8 = 7 ∧ (0x2FFE8 : Nat) / 8 % 8 = 5 ∧ (0x2FFE8 - 0x20000) / 64 = 1023 := by decide +kernel
theorem witness_unverified : ({ hosted with verified := false } : State).verified = false := by decide +kernel
theorem test_tail : (after (.tailWrite 5 3 8 true) hosted fun t => (t.queue 5).tail) = some 3 ∧
    (after (.tailWrite 5 3 8 true) { hosted with verified := false } fun t => (t.queue 5).tail) = some 0 := by decide +kernel
theorem test_semaphore : (after (.semRead 31 true false) hosted fun t => NMap.get 0 t.sems 31) = some 1 ∧
    (after (.semWrite 3 0 0) hosted fun t => NMap.get 0 t.sems 3) = some 0 := by decide +kernel
theorem test_enable : (after (.queueEnable 5 1) (hosted.modQueue 5 fun x => { x with qd := [(0, 4), (4, 16)] }) fun t => (t.queue 5).enabled) =
    some true := by decide +kernel
/-- A queue with a waiting event and room for it; the hub's event queue holds an event of each kind. -/
def posting : State := { (hosted.modQueue 0 fun x => { x with qd := [(1, 1), (4, 0x20004)], desc := [(1, 1), (4, 0x20004)], events := [[5, 6]] }) with
  fwEvents := [.start 0, .clock 3 false, .substitute (.vault 0 0 60)] }
theorem witness_package_events : ((posting.queue 0).events, (posting.queue 0).enabled, (posting.queue 0).evcnt, (posting.queue 0).evhead) = ([[5, 6]], true, 0, 0) ∧
    (0x20000 + 64 ≤ posting.capacity) ∧ posting.portsDown.contains 1 = false ∧ posting.fwWorn.contains 11 = false ∧ posting.fwWorn.length < 4 ∧
    posting.fwEvents.length = 3 := by decide +kernel
/-- The firmware takes the oldest event whose queue is free (R396): the first; the second, while the first's queue is busy with a node. -/
theorem witness_firmware : (posting.fwNext [] posting.fwEvents).map (fun r => r.1) = some (.start 0) ∧
    (let s : State := { ending (some []) with verified := true, fwEvents := [.completed 0 (((ending none).launch? 0).getD noLaunch)] }
     (s.verified, s.fwWorn, (s.fwNext [] s.fwEvents).map fun r => (r.1 == .completed 0 (((ending none).launch? 0).getD noLaunch), r.2))) =
      (true, [], some (true, [])) := by decide +kernel
theorem test_event_post : (after (.eventPost 0) posting fun t => (t.load64 0x20000, t.load64 0x20008, (t.queue 0).evcnt)) = some (5, 6, 1) := by
  decide +kernel
theorem test_package_reset : (after (.packageReset true 8) posting fun t => (t.groups.length, t.queues.length, t.l2n)) = some (0, 0, 8) := by
  decide +kernel

/-- Contributions: one that has not met its unit, one held there, one past the units for a local home and for a peer's. -/
def contrib (unit : Option (Nat × Nat)) (past : Bool) (addr : Nat) : Contrib :=
  { id := 4, op := .ctrAdd, addr := addr, value := 7, owners := [{ id := 4, launch := 0, core := 0, site := base.siteOf (placedGroup 0) 0 }], peers := [], lone := false, unit := unit, past := past, va := 0x300000,
    site := base.siteOf (placedGroup 0) 0, arrived := none }
def contributing (unit : Option (Nat × Nat)) (past : Bool) (addr : Nat) : State :=
  { base with contribs := [contrib unit past addr], routes := [(0 * 4096 + 2, 13)] }
theorem witness_contributions : (contributing none false 0x11000).edgeDie 0x11000 = 1 ∧ (contributing none false 0).edgeDie (peerAddr 2 0) = 1 ∧
    (contributing none true 0x300000).peerDown 0x300000 = false ∧ 2 ^ 60 ≤ peerAddr 2 0 := by decide +kernel
/-- A peer that a route leads to answers when it does not refuse, which is a free choice (log entry 35). -/
theorem witness_peer_answers (h : Config.peerRefuses base.tick (peerAddr 2 0) = false) :
    (contributing none true (peerAddr 2 0)).peerDown (peerAddr 2 0) = false := by
  have hc : (contributing none true (peerAddr 2 0)).cutOff ((peerAddr 2 0 - 2 ^ 60) / 2 ^ 56) = false := by decide +kernel
  have ht : (contributing none true (peerAddr 2 0)).tick = base.tick := rfl
  simp only [State.peerDown, hc, ht, h, Bool.or_self, Bool.and_false]
theorem witness_contribution_found : ((contributing (some (1, 0)) false 0).contribs.find? fun k => k.id == 4).map (fun k => (k.unit, k.past)) =
      some (some (1, 0), false) ∧
    (({ contributing none true 0x300000 with pubs := [] } : State).contribs.find? fun k => k.id == 4).map (fun k => (k.unit, k.past)) = some (none, true) := by
  decide +kernel
/-- A publish waits for a contribution that a unit holds. -/
theorem witness_reduction_flush : (let s : State := { contributing (some (1, 5)) false 0 with pubs := published.pubs.map fun p => { p with contribs := [4] } }
    (s.pubs.map fun p => s.contribs.any fun k => k.ownedBy p && k.unit.isNone && !k.past)) = [false] := by decide +kernel
theorem test_reduction_ack : (after (.reductionAck 4) (contributing none true 0x300000) fun t => (t.load64 0x300000, t.contribs.length)) = some (7, 0) := by
  decide +kernel
/-- The fabric: a lane that still works, a route, a request of ours that a peer does not answer, a peer's address in the import table. -/
def peered : State := { atomSent with reqs := atomSent.reqs.map fun r => { r with arr := 2 ^ 20 + 2 }, routes := [(2, 13)] }
theorem witness_fabric : (NMap.get { failures := 0 } base.ports 47).failures < 3 ∧ base.delivered 4095 = true ∧
    (peered.reqs.all fun r => decide (2 ^ 20 ≤ r.arr) && !r.todo.isEmpty) = true ∧ peered.reqs.length = 1 ∧
    (queued []).importHome 0x300000 1 1 .write = some 0x300000 ∧ base.importHome 0x300000 1 1 .write = none := by decide +kernel
theorem test_peer_write : (after (.peerAccess 2 0x300000 (.write [9])) (queued []) fun t => Memory.read t.mem 0x300000) = some 9 := by decide +kernel
theorem test_join : (after (.packageJoin 5 [(5 * 4096 + 2, 13)]) base fun t => (t.pkg, t.route 5 2, t.locked)) = some (5, some 13, false) := by decide +kernel

/-- Mirage's surface 7: enabled, a period of 100 ticks, the present block at 0x300000. Frame 0 is ready; frame 1 is not. -/
def surfaced (n : Nat) (chosen : Option (Nat × W64)) : State :=
  { (((base.setHub (mirageBase 7) 1).setHub (mirageBase 7 + 8) 100).setHub (mirageBase 7 + 32) 0x300000).storeWords 0x300000
      [0x111000, 0x222000, 0] with ft := 100, surfaces := [(7, { chosen := chosen, checked := n })] }
theorem witness_surfaces : ((surfaced 1 none).mirage 7 0).getLsbD 0 = true ∧ ((surfaced 1 none).surface 7).chosen = none ∧ (surfaced 1 none).mirage 7 1 ≠ 0 ∧
    ((surfaced 1 none).mirage 7 2).toNat + 1 * ((surfaced 1 none).mirage 7 1).toNat ≤ (surfaced 1 none).ft + ((surfaced 1 none).mirage 7 3).toNat ∧
    0 ≤ ((surfaced 1 none).load64 0x300010).toNat ∧ ((surfaced 1 none).load64 0x300010).toNat < 1 ∧
    ((surfaced 1 (some (0, 5))).surface 7).chosen = some (0, 5) ∧ base.ftChanged + usTicks 1000 ≤ ({ base with ft := 4000000 } : State).ft := by decide +kernel
theorem test_deadline_ready : (after (.mirageDeadline 7) (surfaced 0 none) fun t => (t.surface 7).chosen) = some (some (0, 0x111000)) := by decide +kernel
theorem test_deadline_missed : (after (.mirageDeadline 7) (surfaced 1 none) fun t => ((t.surface 7).chosen, NMap.get 0 t.misses 7)) =
    some (some (1, 0x222000), 1) := by decide +kernel

/-- No address is translated: the accesses of jobs and operations in progress fault. -/
def untranslated (s : State) : State := s.modDie 0 fun d => { d with apertures := [] }
def encSource : State := { pushedEncode with encodes := pushedEncode.encodes.map fun e => { e with card := e.card.set 7 0x300000 } }
theorem witness_engine_faults : ((untranslated copyStarted).copies.map fun j => j.accesses.any fun a => (untranslated copyStarted).devFails
      ((untranslated copyStarted).copyView j) a) = [true] ∧
    ((untranslated encSource).encodes.map fun e => e.accesses.any fun a => (untranslated encSource).devFails ((untranslated encSource).encView e) a) = [true] ∧
    ((untranslated mmaFired).core 0).ctx1.ops.map (fun o => (o.operands.flatMap MatOperand.pieces).any fun p =>
      (untranslated mmaFired).engineFails (.matrixOp o.id) p.1 && ((untranslated mmaFired).engineWork (.matrixOp o.id) p.1).isSome) = [true] := by decide +kernel
/-- Work that an uncorrectable error meets: an operation in flight, a job, a command, a pass. -/
theorem witness_errors : (heldOnly.opWork 1).isSome = true ∧ (copyStarted.engineWork (.copyJob 1) 0).isSome = true ∧
    (encSource.engineWork (.encoderJob 1) 0x300000).isSome = true ∧ (primmed.engineWork (.primitive 1) 0xFB00000000000000).isSome = true ∧
    ((begunTile.modOut 3 0 fun o => { o with todo := primmed.prims.map Prim.e }).engineWork (.tilePass 3 0) 0xFB00000000000000).isSome = true ∧ ((started []).cmd? 0 0).isSome = true ∧ (base.group? 0).isSome = true ∧
    ((untranslated mesh).engineFails (.pool 3) 0xF000000000) = true := by decide +kernel
theorem witness_ray_error : (({ askedRay 5 with rays := (askedRay 5).rays.map fun r => { r with todo := [.tri 64] } } : State).engineWork
    (.ray 7) 64).isSome = true ∧
    (mmaFired.core 0).ctx1.ops.map (fun o => (o.operands.flatMap MatOperand.pieces).any fun p => (mmaFired.engineWork (.matrixOp o.id) p.1).isSome) =
      [true] := by decide +kernel
theorem test_corrected : (after (.softErrorCorrected .lpddr 0 5) base fun t => (t.die 0).corrected) = some 1 := by decide +kernel

-- The laws of the machine

theorem witness_killed : (base.launch? 0).isSome = true := by decide +kernel
theorem witness_memory : Memory.wf (base.storeBytes 5 [1, 2]).mem = true ∧ 1 < [(1 : Byte), 2].length := by decide +kernel
theorem witness_own_stores : (5 : Nat) ≤ 5 ∧ 32 % 2 ^ 5 = 0 ∧ Policy.dflt ≠ .byp := by decide +kernel
/-- A group's turn stands on the agenda, and the word of its clause is `icmp.n32.lt v3, 10` (R51); or one that is no instruction. -/
def turn (w : Nat) : State := State.reset.withFetchWord 64 w
theorem witness_step : (∀ w ∈ [0x048A60030CA00000, 0xFFFFFFFFFFFFFFFF], (turn w).agenda.length = 1) ∧
    (∀ w ∈ [0x048A60030CA00000, 0xFFFFFFFFFFFFFFFF], (match (turn w).agenda with
      | [.word gid] => (match (turn w).group? gid with
        | some g => (match g.clause with
          | some cl => (turn w).breakpoint g cl.pc == none && (turn w).fetchHeld g cl.pc == false && (turn w).peekWord g.core g.launch cl.pc == some (BitVec.ofNat 64 w) &&
              (match decode (BitVec.ofNat 64 w) with
                | .ok _ => cl.admits (BitVec.ofNat 64 w) && w == 0x048A60030CA00000
                | .error _ => w == 0xFFFFFFFFFFFFFFFF)
          | none => false)
        | none => false)
      | _ => false) = true) := by decide +kernel
theorem witness_round_trip : (Instr.iadd .i32 (.v 3) (.v 1 0) (.v 2 0) (some 5)).wfError = none ∧
    (encode (.iadd .i32 (.v 3) (.v 1 0) (.v 2 0) (some 5))).isSome = true := by decide +kernel
theorem witness_canonical : Memory.wf State.reset.mem = true := by decide +kernel

/-- The results of `iadd` in either width, to every destination (O40, O41). -/
theorem iadd_gives32 (d : Dest) (tl : Tail) : Gives32 (.iadd .i32 d (.v 1 0) (.v 2 0) tl) [.src (.v 1 0), .src (.v 2 0)] d tl true
    (fun c l => (extend32 .i32 (fit true false 32 (c.int .i32 (.v 1 0) l + c.int .i32 (.v 2 0) l)), 0)) :=
  gives32_of_alu32 (fun s => (exec_iadd _ _ _ _ _ s).trans (by rw [execIadd, aluInt2, aluInt, if_neg (by decide)]; rfl)) fun _ _ => rfl
theorem iadd_gives64 (d : Dest) (tl : Tail) : Gives64 (.iadd .i64 d (.v 4 0) (.v 2 0) tl) [.src64 (.v 4 0), .src64 (.v 2 0)] d tl
    (fun c l => (BitVec.ofNat 64 (fit true false 64 (c.int .i64 (.v 4 0) l + c.int .i64 (.v 2 0) l)), 0)) :=
  gives64_of_alu64 (fun s => (exec_iadd _ _ _ _ _ s).trans (by rw [execIadd, aluInt2, aluInt, if_pos (by decide)]; rfl)) fun _ _ => rfl
/-- A word that is the last of its clause, and one that is not. -/
theorem witness_results : ∀ s ∈ [base, having fun g => { g with clause := g.clause.map fun cl => { cl with cnt := cl.cnt + 1 } }],
    (∀ d ∈ [Dest.v 0, .v 63, .s 31, .keep, .sp .cm, .sp .en, .sp .lc2, .sp .fps],
      Issues s (at_ s) ([.src (.v 1 0), .src (.v 2 0)] ++ [.dst d false]) (some 7)) ∧
    ∀ d ∈ [Dest.v 62, .s 0], Issues s (at_ s) ([.src64 (.v 4 0), .src64 (.v 2 0)] ++ [.dst d true]) none := by decide +kernel
theorem witness_last_word : (at_ base).cl.pc = (at_ base).cl.lastWord ∧
    (at_ (having fun g => { g with clause := g.clause.map fun cl => { cl with cnt := cl.cnt + 1 } })).cl.pc ≠
      (at_ (having fun g => { g with clause := g.clause.map fun cl => { cl with cnt := cl.cnt + 1 } })).cl.lastWord := by decide +kernel
/-- The premises of O39 hold of `iadd` to a vector register. -/
theorem witness_frame : ∃ eff : Ctx → State → Group, Completes (.iadd .i32 (.v 3) (.v 1 0) (.v 2 0) none)
    [.src (.v 1 0), .src (.v 2 0), .dst (.v 3) false] none Always (fun c s => s.put c (eff c s)) ∧
    ((eff (at_ base) base).clause.map fun cl => (cl.pc, cl.lastWord)) = some ((at_ base).cl.pc, (at_ base).cl.lastWord) ∧
    KeepsSpecials none (at_ base).g (eff (at_ base) base) := by
  refine ⟨_, iadd_gives32 (.v 3) none, by decide +kernel, by decide +kernel, by decide +kernel, by decide +kernel⟩

-- Further clauses: the memory frames, the traps, the moves of queues and of the fabric

/-- A byte that no lane of a store writes: S6 plus V2 names every fourth word (O14, O15). -/
def storing : State := addressed 0x300000
theorem witness_memory_frame : Memory.wf storing.mem = true ∧ (storing.die 0).apWrites = [] ∧
    (after (.st .w .dflt (.v 2) (.s 6) (.v 2 0) 0 none) storing fun _ => ()) = some () ∧
    (after (.ld .w false .dflt 9 (.s 6) (.v 2 0) 0 none) storing fun _ => ()) = some () ∧ storing.reqs = [] ∧ storing.wbs = [] ∧
    storing.contribs = [] ∧ (storing.core 0).l1 = [] := by decide +kernel
theorem witness_idle (b : Nat) : storing.idleAt 0 b := by
  obtain ⟨-, -, -, -, hr, hw, hc, hl⟩ := witness_memory_frame
  simp [State.idleAt, hr, hw, hc, hl]
theorem witness_untouched : ¬ (at_ storing).touched (ems (at_ storing)) (addrs (at_ storing)) 4 .write storing 0x3001F4 := by
  have h : ((ems (at_ storing)).all fun l => (((at_ storing).settledFor (ems (at_ storing)) (addrs (at_ storing)) storing).piecesOf
      (storing.viewOf (at_ storing).gid (at_ storing).g) l (addrs (at_ storing) l) 4 .write).all fun p => match p.1 with
        | .snap a => decide (a + p.2 ≤ 0x3001F4 ∨ 0x3001F4 < a)
        | _ => false) = true := by decide +kernel
  rintro ⟨l, hl, p, hp, hs⟩
  have hx := List.all_eq_true.mp (List.all_eq_true.mp h l hl) p hp
  obtain ⟨x, n⟩ := p
  cases x <;> simp [State.storesTo] at hx hs
  omega

/-- Where the matrix instructions trap: a pair at an odd register, a register that has an operation; mrd, mstat and mrel with no
context (O20). -/
theorem witness_matrix_traps : Meets [] none (fun c _ => c.g.hkind = 0 ∧ oddPair (some 11) = true) owner ∧
    Meets [] none (fun c s => c.tileLegal s 1 ⟨7, none⟩ (some 10) none ∧ (((s.core c.core).ctx 1).cv 0).st = 3) (tiles fun r => { r with st := 3 }) ∧
    Meets [.regs 60 4 1] none (fun c s => s.ctxNum c.g.blk = none ∨ c.g.tileInWindow (c.g.accTile ⟨0, none⟩) = false) base := by
  decide +kernel
/-- Where sign traps (O19): the last lanes of a set that has a dissenter, a count beyond its set, a set of another size, one of
1537 lanes, a complete register. -/
def signs (f : CvReg → CvReg) : State := (tiles fun r => f { r with st := 1, signed := 32, size := 63, ref := 0x10 }).modGroup 0 fun g =>
  Vec 5 0x10 (Sca 6 63 g)
theorem witness_sign_traps :
    Meets [.src (.v 5 0)] (some 1) (fun c s => c.g.hkind = 0 ∧ s.tileWaiting c.gid = false ∧ s.ctxNum c.g.blk = some 1 ∧
      (((s.core c.core).ctx 1).cv 0).dis = true ∧ (((s.core c.core).ctx 1).cv 0).signed + laneCount c.em = 64) (signs fun r => { r with dis := true }) ∧
    (∀ f ∈ [fun r : CvReg => { r with signed := 33 }, fun r => { r with size := 64 }, fun r => { r with st := 2, signed := 64 }],
      Meets [.src (.v 5 0)] (some 1) (fun c s => c.g.hkind = 0 ∧ s.tileWaiting c.gid = false ∧ c.em ≠ 0 ∧ s.ctxNum c.g.blk = some 1 ∧
        let r := ((s.core c.core).ctx 1).cv 0
        (r.st = 1 ∧ r.signed ≠ 0 ∧ r.size ≠ 63 ∨ r.st = 2 ∨ 64 < r.signed + laneCount c.em)) (signs f)) ∧
    (((at_ ((signs id).modGroup 0 (Sca 6 1536))).bits64 (.s 6) 0).toNat % 2048 + 1 : Nat) = 1537 := by decide +kernel
theorem test_sign_dissent : groupAfter (.sign 0 (.s 6) (.v 5 0) 1) (((signs fun r => { r with dis := true, dgix := some 0 })).modLaunch 0 fun la =>
    { la with tha := 0x300000 }) (fun g => (g.ecause.toNat % 64, g.eaddr)) = some (0x12, 0x100000000) := by decide +kernel
/-- An mchk waits for a set whose last lanes fire it (O19). -/
def attachedCheck : State := (ran (.mchk (some 0) ⟨7, none⟩ 10 14 (some 1)) (signs id)).modGroup 0 fun g =>
  { g with clause := (placedGroup 0).clause, pcv := (placedGroup 0).pcv }
theorem witness_sign_fires : (((attachedCheck.core 0).ctx 1).cv 0).op.isSome = true ∧
    (((attachedCheck.core 0).ctx1.ops.map fun o => fireOk attachedCheck { o with fmt := 0x10 })) = [true] := by decide +kernel

/-- spawn in a handler, and in a block without spawn slots (O13). -/
theorem witness_spawn_traps : ∃ blk, Meets [.src64 (.s 10), .src (.v 3 0), .src (.v 4 0), .regs 63 1 1] none
      (fun c s => c.g.hkind = 0 ∧ s.block? c.g.blk = some blk ∧ blk.spawn = 0) base ∧
    Meets [.src64 (.s 10), .src (.v 3 0), .src (.v 4 0)] none (fun c _ => c.g.hkind ≠ 0) (having fun g => { g with hkind := 1 }) :=
  ⟨(base.block? 0).getD noBlock, by decide +kernel⟩
theorem test_spawn_without_slots : groupAfter (.spawn 0 (.s 10) (.v 3 0) (.v 4 0)) (handled id) (fun g => g.ecause.toNat % 64) = some 3 := by
  decide +kernel

/-- The scoreboard (O49): a full slot that the tail names; the operation of the group's own grant and of an earlier one. -/
def slotFull : State := having fun g => { g with sb := NMap.set 0 g.sb 7 63 }
theorem witness_full_tail : (slotFull.ctx?).map (fun c => c.g.sbGet 7) = some 63 ∧
    (Instr.ld .w false .dflt 9 (.s 6) (.v 2 0) 0 (some 7)).tailSlot = some 7 ∧ (Instr.iadd .i32 (.v 3) (.v 1 0) (.v 2 0) (some 7)).tailSlot = some 7 ∧
    (Instr.sign 0 (.s 6) (.v 5 0) 7).tailSlot = some 7 := by decide +kernel
theorem test_full_tail : (after (.ld .w false .dflt 9 (.s 6) (.v 2 0) 0 (some 7)) slotFull fun t => decide (t = slotFull)) = some true := by decide +kernel
theorem witness_completes_slot : ∀ t ∈ [1, 3], (({ heldOnly with asyncs := heldOnly.asyncs.map fun a => { a with tag := t } } : State).asyncs.map
    fun a => (a.id, a.slot, a.tag)) = [(1, some 5, t)] ∧ (heldOnly.group? 0).map (fun g => (g.tag, g.sbGet 5)) = some (1, 1) := by
  decide +kernel

/-- bru, taken and not, and call at the ends of their ranges (O54). -/
theorem witness_transfers : Issues base (at_ base) [] none ∧ targetOk ((at_ base).cl.target 0x7FFFFF) = true ∧
    Issues base (at_ base) (bruUses (.sz (.s 31))) none ∧ bruTaken (.sz (.s 31)) (at_ base) = true ∧
    Issues base (at_ base) (bruUses (.snz (.s 0))) none ∧ bruTaken (.snz (.s 0)) (at_ base) = false := by decide +kernel
theorem test_call : groupAfter (.call 31 .none 8) base (fun g => (g.pc 0, g.sget 31)) = some (0x200040, 0x200010) := by decide +kernel

/-- dbgr, dbgw and iinv with operands out of range (O25). -/
def inDebug (f : Group → Group) : State := having fun g => f { g with hkind := 2 }
theorem witness_debug_operand_traps : Meets [] none (fun c _ => c.g.hkind = 2 ∧ 32 ≤ c.debugNumber (.const 32)) (inDebug id) ∧
    Meets [] none (fun c _ => c.g.hkind = 2 ∧ c.debugNumber (.const 0) < 32 ∧ debugOk (c.debugNumber (.const 0)) (c.bits64 (.s 4) 0) = false)
      (inDebug (Sca 4 2)) ∧
    Meets [] none (fun c _ => c.g.hkind = 2 ∧ (c.g.sget 5).toNat ≠ 0 ∧ 2 ^ 56 < (c.g.sget 4).toNat + (c.g.sget 5).toNat)
      (inDebug fun g => Sca 4 0xFFFFFFFFFFFFF0 (Sca 5 17 g)) := by decide +kernel

/-- HEAD's command while an earlier event of the queue waits for the firmware, and a TAIL too far ahead while a WAIT runs (O32). -/
def waitingAhead : State := (started [0x0300000000000000, 0x300000, 1] true).modQueue 0 fun x => { x with tail := 18 }
theorem witness_queue_waits : ((FwEvent.overflow 0).queue, waitingAhead.fwEvents.length) = (some 0, 0) ∧
    (((waitingAhead.queue 0).cmds.map Cmd.waits, (waitingAhead.queue 0).enabled, (waitingAhead.queue 0).stopped) = ([true], true, false)) ∧
    ((waitingAhead.queue 0).head.toNat, (waitingAhead.queue 0).tail.toNat, 2 ^ (((waitingAhead.queue 0).read 0).toNat % 32)) = (1, 18, 16) ∧
    (waitingAhead.queue 0).cmds.map Cmd.num = [0] := by decide +kernel
theorem test_overflow_while_waiting : (after (.commandStart 0) waitingAhead fun t => (t.queue 0).stopped) = some true := by decide +kernel
/-- A narrow TAIL write gets an error response and adds nothing (R392). -/
theorem test_narrow_tail : (after (.tailWrite 5 3 4 true) hosted fun t => ((t.queue 5).tail, NMap.get false t.portErrs 2)) = some (0, true) := by
  decide +kernel
/-- What a command began with stays while its descriptor is rewritten (R391). -/
theorem test_descriptor_latched : (after (.registerWrite 0x20010 0x500000) (started [] |>.modQueue 0 fun x => { x with qd := [] }) fun t =>
    ((t.queue 0).word 2, (t.queue 0).read 0)) = some (0x500000, 0x10004) := by decide +kernel
/-- A report whose place lies beyond the capacity fails (R395). -/
theorem witness_attest_beyond : (started []).capacity < (started []).capacity - 31 + 32 := by decide +kernel

/-- A fifth worn core makes its package's device-level error (O35). -/
theorem witness_fifth_worn : ({ hosted with fwWorn := [0, 1, 2, 3] } : State).fwWorn.contains 4 = false ∧
    4 ≤ ({ hosted with fwWorn := [0, 1, 2, 3] } : State).fwWorn.length := by decide +kernel

/-- Peers' operations (O36): to a home here with no window enabled and with one; on their way to a third package. -/
def windowed : State := (peered.setHub (0x60000 + 16) 1).setHub 0x60000 0x300000
theorem witness_peer_operations : peered.gone = false ∧ peered.someWindow = none ∧ peered.peerLaunch = none ∧ windowed.someWindow = some 0x300000 ∧
    windowed.gone = false ∧ (peerContrib (.ctrAdd 5)).isSome = true ∧ (peerContrib (.atom .xchg 5)).isNone = true ∧ (2 : Nat) ≠ windowed.pkg ∧
    windowed.cutOff 2 = false ∧ (base.setHub fctl 2).gone = true := by decide +kernel
/-- Write-backs to a peer: a dirty line's, and that of a `.byp` store. -/
def peerWb (through : Option Site) : State := { base with wbs := [
  { id := 5, core := 0, launch := 0, line := 2 ^ 53, mask := 1, data := 0, stage := 0, acc1 := 0, acc2 := 0, acc3 := 0, through := through }] }
theorem witness_peer_write_backs : ∀ x ∈ [none, some (base.siteOf (placedGroup 0) 0)], (peerWb x).req? 5 = none ∧
    ((peerWb x).wbs.find? fun w => w.id == 5).map (fun w => (w.through, decide (2 ^ 60 ≤ w.line * 128))) = some (x, true) := by decide +kernel
/-- A contribution that nothing leads, at its first unit, and one past the units that is first at its home. -/
theorem witness_contribution_turns : ((contributing none false 0x11000).contribs.map fun k => ((contributing none false 0x11000).contribsBefore k).any
      fun x => x.leads k) = [false] ∧
    ((contributing none true 0x300000).contribs.map (contributing none true 0x300000).contribFirst) = [true] ∧
    ((contributing (some (1, 5)) false 0).pubs.map Publish.contribs) = [] := by decide +kernel

/-- Gangs (O37): the command's later steps place its blocks in time; a member that does not lead gives up at the arm timeout. -/
def arming : State := let s := ganged id
  { s with locked := true, queues := s.queues.map fun e => (e.1, { e.2 with cmds := e.2.cmds.map fun c => { c with begun := true } }) }
theorem witness_arming : (arming.cmd? 0 0).map (fun c => (c.begun, c.gang.map fun g => (g.armedAt, decide (arming.ft ≤ g.start + usTicks g.armTimeout)))) =
    some (true, some (none, true)) ∧ arming.locked = true ∧ arming.gangPlaced 0 0 = true := by decide +kernel
theorem witness_member_gives_up : (({ ganged fun g => { g with leader := 1 } with ft := 2 ^ 40 } : State).gangFor 7).map (fun e =>
    (decide (e.2.2.leader = (ganged id).pkg), e.2.2.armedAt, decide (e.2.2.start + usTicks e.2.2.armTimeout ≤ 2 ^ 40))) = some (false, none, true) := by
  decide +kernel

/-- The turns of O55: a word that the clause's own fetch brought, a fetch that failed then, one that fails now, and one whose page's
walk a migration holds. -/
def turnWith (ws : List (Option W64)) : State := (turn 0x048A60030CA00000).modGroup 0 fun g =>
  { g with clause := g.clause.map fun c => { c with words := ws } }
def heldOf (s : State) : Option (Option (Option Nat) × Bool × Bool × Bool) :=
  (({ s.tend with agenda := [] } : State).group? 0).bind fun g => g.clause.map fun cl =>
    (cl.held.map (Option.map BitVec.toNat), ({ s.tend with agenda := [] } : State).fetchHeld g cl.pc, (({ s.tend with agenda := [] } : State).peekWord g.core g.launch cl.pc).isSome,
      (({ s.tend with agenda := [] } : State).breakpoint g cl.pc).isNone)
theorem witness_turns : [turnWith [some 0], turnWith [none], turnWith [], untranslated (turnWith []),
      untranslated { turnWith [] with migrating := [(0, 0x200000, 0x10000)] }].map heldOf =
    [some (some (some 0), false, true, true), some (some none, false, true, true), some (none, false, true, true),
      some (none, false, false, true), some (none, true, false, true)] := by decide +kernel

end Sys2Proof.Tests
end

/-! Control registers (O24), and the frame of an instruction that computes on registers (O40, O41). -/

namespace Sys2Proof.Machine

-- Control registers

/-- A register is reachable where the table lists it, the handler-only ones in a handler alone (R261). -/
theorem csrReach_iff (csr : BitVec 24) (g : Group) :
    csrReach csr g = true ↔ ∃ row, csrRow csr = some row ∧ (row.1 = true → g.hkind ≠ 0) := by
  unfold csrReach
  cases csrRow csr with
  | none => simp
  | some row => obtain ⟨only, wr⟩ := row; cases only <;> simp

/-- The numbers that the table lists (R261). -/
theorem csrRow_isSome_iff : ∀ n < 24, (csrRow (BitVec.ofNat 24 n)).isSome = true ↔ n < 12 ∨ 16 ≤ n ∧ n < 22 := by
  decide

/-- ECAUSE to ESCR3 are handler-only, HKIND excepted (R261). -/
theorem csrRow_handlerOnly : ∀ n < 12, n ≠ 6 → (csrRow (BitVec.ofNat 24 n)).map Prod.fst = some true := by
  decide

/-- Outside a handler the handler-only rows are out of reach; in one every row is in reach, and no other number ever. -/
theorem handlerRegisters : Claims.HandlerRegisters := by
  intro g n hn
  refine ⟨fun hout hlt hne => ?_, fun hin hlisted => ?_, fun hreach => ?_⟩
  · rw [Bool.eq_false_iff, Ne, csrReach_iff]
    rintro ⟨row, hrow, himp⟩
    have honly := csrRow_handlerOnly n hlt hne
    rw [hrow] at honly
    exact himp (Option.some.inj honly) hout
  · obtain ⟨row, hrow⟩ := Option.isSome_iff_exists.1 ((csrRow_isSome_iff n hn).2 hlisted)
    exact (csrReach_iff _ g).2 ⟨row, hrow, fun _ => hin⟩
  · obtain ⟨row, hrow, -⟩ := (csrReach_iff _ g).1 hreach
    exact (csrRow_isSome_iff n hn).1 (Option.isSome_iff_exists.2 ⟨row, hrow⟩)

/-- csrr and csrw are illegal exactly where their register is out of reach; EPC goes by lanes, the others once (R262). -/
theorem controlRegisters : Claims.ControlRegisters := by
  intro csr r v a
  refine ⟨?_, ?_, ?_, ?_, ?_, ?_⟩
  · exact completes_of_body (fun _ => rfl) (fun _ _ hreach => hreach) fun _ _ _ => rfl
  · exact completes_of_body (fun _ => rfl) (fun _ _ hreach => hreach) fun _ _ _ => rfl
  · exact completes_of_body (fun _ => rfl) (fun _ _ hc => hc.1) fun _ _ hc => if_neg hc.2
  · exact completes_of_body (fun _ => rfl) (fun _ _ hc => hc.1) fun _ _ hc => if_pos hc.2
  · exact traps_of_pre (fun _ => rfl) fun _ _ hhidden => hhidden
  · exact traps_of_pre (fun _ => rfl) fun _ _ hhidden => hhidden

/-- Settles O24: reachability by the table's rows, and one completion or trap per form of csrr and csrw. -/
theorem controlRegisterAccess : Obligations.ControlRegisterAccess :=
  ⟨controlRegisters, handlerRegisters⟩

-- Lanes that pass a word

/-- A held tail moves no lane (R55). -/
theorem Group.heldTail_pcv (x : Group) (tl : Tail) : (x.heldTail tl).pcv = x.pcv := by
  cases tl <;> rfl

/-- The live lanes at a word pass it, and no other lane moves (R35). -/
theorem Group.pc_advance {g : Group} {cl : Clause} (hcl : g.clause = some cl) (m : LaneMask) (now : Nat) (seq : W32) {l : Nat}
    (hl : l < 32) : (g.advance m now seq).pc l =
      if m.getLsbD l = true ∧ g.live.getLsbD l = true then g.pc l + 8 else g.pc l := by
  have hend (x : Group) : (if cl.pc = cl.lastWord then x.endClause now else x).pc l = x.pc l := by
    split
    · exact congrArg (NMap.get 0 · l) (Group.endClause_frame x now).2.1
    · rfl
  have hmoved := Group.pc_setMask g (fun l => g.pc l + 8) (m &&& g.live) l hl
  simp only [BitVec.getLsbD_and, Bool.and_eq_true] at hmoved
  unfold Group.advance
  rw [hcl]
  exact (hend _).trans hmoved

/-- The program counters after an instruction that wrote its group has retired (R35). -/
theorem pc_retired {s : State} {c : Ctx} {tl : Tail} {x g : Group} {cl : Clause} (hcl : x.clause = some cl)
    (hg : ((s.put c x).retired c tl).group? c.gid = some g) {l : Nat} (hl : l < 32) :
    g.pc l = if c.at_.getLsbD l = true ∧ x.live.getLsbD l = true then x.pc l + 8 else x.pc l := by
  rw [State.group?_retired, if_pos rfl] at hg
  obtain rfl := Option.some.inj hg
  obtain ⟨-, -, -, -, -, -, -, hclause, ⟨hlive, -⟩, -⟩ := x.heldTail_frame tl
  have hheld : (x.heldTail tl).pc l = x.pc l := congrArg (NMap.get 0 · l) (x.heldTail_pcv tl)
  rw [Group.pc_advance (hclause.trans hcl) _ _ _ hl, hheld, hlive]

/-- Settles O40: the retirement of a written group (`retired_spec`) keeps what the effect left, and moves the lanes at the
word. -/
theorem registerFrames : Obligations.RegisterFrames := by
  intro i uses tl cond eff s c hi hissues hcond hclause hkeeps
  obtain ⟨cl, hcl, hplace⟩ := Option.map_eq_some_iff.1 hclause
  obtain ⟨hpc, hlast⟩ := Prod.mk.inj hplace
  obtain ⟨g, hg, hspecials, honly, hmem, ⟨hv, hs, hcm, hen, hlc, hfps⟩, -⟩ :=
    retired_spec s c tl hissues.1 (eff c s) ⟨cl, hcl, hpc, hlast⟩ hkeeps
  exact ⟨_, g, hi s c hissues hcond, hg, honly, hmem, hspecials, hv, hs, hcm, hen, hlc, hfps,
    fun l hl => pc_retired hcl hg hl⟩

-- Results delivered to their destinations

/-- Delivering a 32-bit result touches no special that a handler saves, no slot, and not the clause (R39, R72). -/
theorem Group.write32_keeps (g : Group) (em : LaneMask) (d : Dest) (sx cleared : Bool) (f : Nat → W32 × FpFlags) :
    KeepsSpecials none g (g.write32 em d sx cleared f) ∧ (g.write32 em d sx cleared f).clause = g.clause := by
  cases d with
  | v r => simp [Group.write32, KeepsSpecials, Group.sbGet]
  | keep => simp [Group.write32, KeepsSpecials, Group.sbGet]
  | s r => exact ⟨by simp [Group.write32, KeepsSpecials, Group.sbGet], rfl⟩
  | sp k => cases k <;> simp [Group.write32, Group.setSpecial, KeepsSpecials, Group.sbGet]

/-- The same of a 64-bit result. -/
theorem Group.write64_keeps (g : Group) (em : LaneMask) (d : Dest) (cleared : Bool) (f : Nat → W64 × FpFlags) :
    KeepsSpecials none g (g.write64 em d cleared f) ∧ (g.write64 em d cleared f).clause = g.clause := by
  cases d with
  | v r => simp [Group.write64, KeepsSpecials, Group.sbGet]
  | keep => simp [Group.write64, KeepsSpecials]
  | s r => exact ⟨by simp [Group.write64, KeepsSpecials, Group.sbGet], rfl⟩
  | sp k => cases k <;> simp [Group.write64, Group.setSpecial, KeepsSpecials, Group.sbGet]

/-- The V registers after a 32-bit result in one of them: the lanes of EM take it (R35, R72). -/
theorem Group.vget_write32_v (g : Group) (em : LaneMask) (r : BitVec 6) (sx cleared : Bool) (f : Nat → W32 × FpFlags) (n : Nat)
    {l : Nat} (hl : l < 32) : (g.write32 em (.v r) sx cleared f).vget n l =
      if n = r.toNat ∧ em.getLsbD l = true then (f l).1 else g.vget n l :=
  Group.vget_vsetMask g r.toNat (fun l => (f l).1) em n l hl

/-- The V registers after a 64-bit result in a pair: its halves go to the two registers (R8, R72). -/
theorem Group.vget_write64_v (g : Group) (em : LaneMask) (r : BitVec 6) (cleared : Bool) (f : Nat → W64 × FpFlags) (n : Nat)
    {l : Nat} (hl : l < 32) : (g.write64 em (.v r) cleared f).vget n l =
      if n = r.toNat + 1 ∧ em.getLsbD l = true then (f l).1.extractLsb' 32 32
      else if n = r.toNat ∧ em.getLsbD l = true then (f l).1.setWidth 32 else g.vget n l :=
  (Group.vget_vsetMask _ (r.toNat + 1) (fun l => (f l).1.extractLsb' 32 32) em n l hl).trans
    (congrArg _ (Group.vget_vsetMask g r.toNat (fun l => (f l).1.setWidth 32) em n l hl))

/-- The halves of a word joined again. -/
theorem append_halves (x : W64) : x.extractLsb' 32 32 ++ x.setWidth 32 = x := by
  rw [BitVec.setWidth_eq_extractLsb' (by omega)]
  exact BitVec.extractLsb'_append_extractLsb' (w := 32) (len := 32)

/-- The pair after a 64-bit result in it. -/
theorem Group.vget64_write64_v (g : Group) (em : LaneMask) (r : BitVec 6) (cleared : Bool) (f : Nat → W64 × FpFlags)
    {l : Nat} (hl : l < 32) : (g.write64 em (.v r) cleared f).vget64 r.toNat l =
      if em.getLsbD l = true then (f l).1 else g.vget64 r.toNat l := by
  unfold Group.vget64
  rw [Group.vget_write64_v g em r cleared f _ hl, Group.vget_write64_v g em r cleared f _ hl]
  by_cases hem : em.getLsbD l = true
  · simp [hem, append_halves]
  · simp [hem]

/-- What else a 32-bit result in a V register leaves: the other files as they were, the flags ored in, a queue entry (R37, R39). -/
theorem Group.write32_v_rest (g : Group) (em : LaneMask) (r : BitVec 6) (sx cleared : Bool) (f : Nat → W32 × FpFlags) :
    let x := g.write32 em (.v r) sx cleared f
    (x.s = g.s ∧ x.cm = g.cm ∧ x.en = g.en ∧ x.lc = g.lc) ∧
      x.fps = (if cleared then 0 else g.fps) ||| flagsOver (fun l => (f l).2) (laneList em) ∧
      x.queue = ((lanes.map fun l => if em.getLsbD l then (f l).1 else 0) :: g.queue).take 16 := by
  simp [Group.write32, Group.settleFps, Group.push]

/-- The same of a 64-bit result, which pushes nothing (R72). -/
theorem Group.write64_v_rest (g : Group) (em : LaneMask) (r : BitVec 6) (cleared : Bool) (f : Nat → W64 × FpFlags) :
    let x := g.write64 em (.v r) cleared f
    (x.s = g.s ∧ x.cm = g.cm ∧ x.en = g.en ∧ x.lc = g.lc) ∧
      x.fps = (if cleared then 0 else g.fps) ||| flagsOver (fun l => (f l).2) (laneList em) ∧ x.queue = g.queue := by
  simp [Group.write64, Group.settleFps]

/-- The retirement of a group of which at most the V file, the flags and the queue were written (R6, R35, R40). -/
theorem retired_vector {s : State} {c : Ctx} (tl : Tail) (hctx : s.ctx? = some c) {x : Group}
    (hkeeps : KeepsSpecials none c.g x ∧ x.clause = c.g.clause)
    (hfiles : x.s = c.g.s ∧ x.cm = c.g.cm ∧ x.en = c.g.en ∧ x.lc = c.g.lc) :
    let t := (s.put c x).retired c tl
    ∃ g, (t.group? c.gid = some g ∧ g.s = c.g.s ∧ g.cm = c.g.cm ∧ g.en = c.g.en ∧ g.lc = c.g.lc ∧ KeepsSpecials tl c.g g ∧
        OnlyGroup c.gid tl s t ∧ SameMemory s t) ∧
      (∀ n l, g.vget n l = x.vget n l) ∧ g.fps = x.fps ∧ (c.cl.pc ≠ c.cl.lastWord → g.queue = x.queue) ∧
      (c.cl.pc = c.cl.lastWord → g.queue = [] ∧ g.clause = none) := by
  obtain ⟨hspecials, hclause⟩ := hkeeps
  obtain ⟨xs, xcm, xen, xlc⟩ := hfiles
  obtain ⟨g, hg, hspecials, honly, hmem, ⟨hv, hs, hcm, hen, hlc, hfps⟩, hqueue, hend⟩ :=
    retired_spec s c tl hctx x ⟨c.cl, hclause.trans (ctx_clause hctx), rfl, rfl⟩ hspecials
  exact ⟨g, ⟨hg, hs.trans xs, hcm.trans xcm, hen.trans xen, hlc.trans xlc, hspecials, honly, hmem⟩,
    fun n l => congrArg (NMap.get 0 · (n * 32 + l)) hv, hfps, hqueue, hend⟩

/-- Settles O41: the written group by the rules of `write32` and `write64`, its retirement by `retired_vector`. -/
theorem vectorResults : Obligations.VectorResults := by
  intro i uses r tl sx f h s c
  refine ⟨fun hgives hissues => ?_, fun hgives hissues => ?_⟩
  · obtain ⟨hfiles, xfps, xqueue⟩ := c.g.write32_v_rest c.em r sx (uses.any Use.readsFps) (f c)
    obtain ⟨g, hkept, hvget, hfps, hqueue, hend⟩ := retired_vector tl hissues.1 (c.g.write32_keeps ..) hfiles
    refine ⟨_, g, hgives s c hissues trivial, hkept, fun l hl => ?_, fun n hn l hl => ?_, hfps.trans xfps,
      fun hl => (hqueue hl).trans xqueue, hend⟩
    · simp [hvget, Group.vget_write32_v _ _ _ _ _ _ _ hl]
    · simp [hvget, Group.vget_write32_v _ _ _ _ _ _ _ hl, hn]
  · obtain ⟨hfiles, xfps, xqueue⟩ := c.g.write64_v_rest c.em r (uses.any Use.readsFps) (h c)
    obtain ⟨g, hkept, hvget, hfps, hqueue, hend⟩ := retired_vector tl hissues.1 (c.g.write64_keeps ..) hfiles
    refine ⟨_, g, hgives s c hissues trivial, hkept, fun l hl => ?_, fun n hn hn' l hl => ?_, hfps.trans xfps,
      fun hl => (hqueue hl).trans xqueue, hend⟩
    · rw [Group.vget64, hvget, hvget]
      exact c.g.vget64_write64_v c.em r (uses.any Use.readsFps) (h c) hl
    · simp [hvget, Group.vget_write64_v _ _ _ _ _ _ hl, hn, hn']

end Sys2Proof.Machine

/-! Floating point (O3), and conversions and packing (O5). -/

namespace Sys2Proof.Machine

-- Rounded operations and functions of codes

/-- A rounded operation of one operand delivers its exact result in the type (R84). -/
theorem givesFloat_of_aluF1 {i : Instr} {t : FType} {sat : Bool} {r : Rnd} {d : Dest} {a : Operand} {tl : Tail}
    (f : Val → Exact × FpFlags) (he : ∀ s, exec i s = aluF1 t sat r d a tl f s) :
    GivesFloat i t [a] d tl fun ks => deliverTo t r sat (f ((fmtOf t).dec (ks.getD 0 0))) :=
  givesFloat_of_aluFloat he fun
    | [_], _ => rfl

/-- A rounded operation of two operands delivers its exact result in the type (R84). -/
theorem givesFloat_of_aluF2 {i : Instr} {t : FType} {sat : Bool} {r : Rnd} {d : Dest} {a b : Operand} {tl : Tail}
    (f : Val → Val → Exact × FpFlags) (he : ∀ s, exec i s = aluF2 t sat r d a b tl f s) :
    GivesFloat i t [a, b] d tl fun ks =>
      deliverTo t r sat (f ((fmtOf t).dec (ks.getD 0 0)) ((fmtOf t).dec (ks.getD 1 0))) :=
  givesFloat_of_aluFloat he fun
    | [_, _], _ => rfl

/-- A rounded operation of three operands delivers its exact result in the type (R84). -/
theorem givesFloat_of_aluF3 {i : Instr} {t : FType} {sat : Bool} {r : Rnd} {d : Dest} {a b x : Operand} {tl : Tail}
    (f : Val → Val → Val → Exact × FpFlags) (he : ∀ s, exec i s = aluF3 t sat r d a b x tl f s) :
    GivesFloat i t [a, b, x] d tl fun ks => deliverTo t r sat
      (f ((fmtOf t).dec (ks.getD 0 0)) ((fmtOf t).dec (ks.getD 1 0)) ((fmtOf t).dec (ks.getD 2 0))) :=
  givesFloat_of_aluFloat he fun
    | [_, _, _], _ => rfl

/-- A function of one code is applied to the operand's. -/
theorem givesFloat_of_aluCode1 {i : Instr} {t : FType} {d : Dest} {a : Operand} {tl : Tail} (f : Nat → Nat × FpFlags)
    (he : ∀ s, exec i s = aluCode1 t d a tl f s) : GivesFloat i t [a] d tl fun ks => f (ks.getD 0 0) :=
  givesFloat_of_aluFloat he fun
    | [_], _ => rfl

/-- A function of two codes is applied to the operands'. -/
theorem givesFloat_of_aluCode2 {i : Instr} {t : FType} {d : Dest} {a b : Operand} {tl : Tail} (f : Nat → Nat → Nat × FpFlags)
    (he : ∀ s, exec i s = aluCode2 t d a b tl f s) : GivesFloat i t [a, b] d tl fun ks => f (ks.getD 0 0) (ks.getD 1 0) :=
  givesFloat_of_aluFloat he fun
    | [_, _], _ => rfl

/-- A compare completes with CM of the lanes of EM (R36, R86). -/
theorem completes_of_aluCm {i : Instr} {uses : List Use} {tl : Tail} {f : Ctx → Nat → Bool × FpFlags}
    {h : Group → Nat → Nat → Bool × FpFlags} (he : ∀ s, exec i s = aluCm uses tl h s)
    (hf : ∀ (c : Ctx) l, h c.g c.rank l = f c l) : Completes i uses tl Always fun c s =>
      s.put c ((c.g.settleFps (uses.any Use.readsFps) (flagsOver (fun l => (f c l).2) (laneList c.em))).setCm c.em
        fun l => (f c l).1) := by
  refine completes_of_body (pre := fun _ => true) he (fun _ _ _ => rfl) ?_
  intro c s _
  rw [funext (hf c)]

/-- The model's reading of a signed word is the library's (R71). -/
theorem intOf_toNat {w : Nat} (x : BitVec w) : intOf true w x.toNat = x.toInt := by
  rw [BitVec.toInt_eq_msb_cond, BitVec.msb_eq_decide]
  simp [intOf, Nat.mod_eq_of_lt x.isLt]

/-- The arithmetic of one type (R84): each entry's exact result, delivered. -/
theorem floatArithmetic : Claims.FloatArithmetic := by
  intro t sat r d a b x tl
  exact ⟨givesFloat_of_aluF2 (exactAdd r) fun _ => rfl, givesFloat_of_aluF2 (exactSub r) fun _ => rfl,
    givesFloat_of_aluF2 exactMul fun _ => rfl, givesFloat_of_aluF2 exactDiv fun _ => rfl,
    givesFloat_of_aluF3 (exactFma r) fun _ => rfl, givesFloat_of_aluF2 (exactAdd r) fun _ => rfl,
    givesFloat_of_aluF2 exactMul fun _ => rfl, givesFloat_of_aluF3 (exactFma r) fun _ => rfl,
    givesFloat_of_aluF1 exactRcp fun _ => rfl, givesFloat_of_aluF1 exactRsq fun _ => rfl,
    givesFloat_of_aluF1 exactSqrt fun _ => rfl⟩

/-- fdot2 reads its addend as FP32, fldexp its power as a signed integer (R84). -/
theorem floatMixed : Claims.FloatMixed := by
  intro t sat r d a b x tl
  refine ⟨gives32_of_alu32 (fun s => by rw [exec_fdot2, execFdot2]) fun _ _ => rfl,
    gives32_of_alu32 (exec_fldexp t sat r d a b tl) fun c l => ?_⟩
  rw [← intOf_toNat]
  rfl

/-- Selection, signs, rounding, fraction and mantissa (R17, R85, R90): functions of the operands' codes. -/
theorem floatSelection : Claims.FloatSelection := by
  intro t num r d a b x tl
  exact ⟨givesFloat_of_aluCode2 _ fun _ => rfl, givesFloat_of_aluCode2 _ fun _ => rfl,
    givesFloat_of_aluFloat (exec_fclamp t d a b x tl) fun | [_, _, _], _ => rfl,
    givesFloat_of_aluCode1 _ fun _ => rfl, givesFloat_of_aluCode1 _ fun _ => rfl, givesFloat_of_aluCode1 _ fun _ => rfl,
    givesFloat_of_aluCode1 _ fun _ => rfl, givesFloat_of_aluCode1 _ fun _ => rfl⟩

/-- The class bit, the exponent and the compare (R86, R87, R90). -/
theorem floatTests : Claims.FloatTests := by
  intro t cond d a b tl
  exact ⟨gives32_of_alu32 (exec_fclass t d a tl) fun _ _ => rfl, gives32_of_alu32 (exec_fgetexp t d a tl) fun _ _ => rfl,
    completes_of_aluCm (fun s => by rw [exec_fcmp, execFcmp]) fun _ _ => rfl⟩

/-- The five functions are functions of the operand's code (R88). -/
theorem transcendentals : Claims.Transcendentals := by
  intro t d a tl
  exact ⟨givesFloat_of_aluCode1 _ fun _ => rfl, givesFloat_of_aluCode1 _ fun _ => rfl, givesFloat_of_aluCode1 _ fun _ => rfl,
    givesFloat_of_aluCode1 _ fun _ => rfl, givesFloat_of_aluCode1 _ fun _ => rfl⟩

/-- Settles O3: each instruction is one of the shared float forms, and each form gives its function of the operands' codes. -/
theorem floatResults : Obligations.FloatResults :=
  ⟨floatArithmetic, floatMixed, floatSelection, floatTests, transcendentals⟩

-- Conversions

/-- A conversion to an integer type of at most 32 bits delivers its extended code (R72, R91). -/
theorem cvtToInteger_gives32 {src : CvtSrc} {t : IType} {sat : Bool} {r : Rnd} {d : Dest} {a : Operand} {tl : Tail}
    {f : Ctx → Nat → Nat × FpFlags} (hnarrow : t.wide = false)
    (hf : ∀ (c : Ctx) l, cvtIntCode src t sat r a c.g c.rank l = f c l) :
    Gives32 (.cvtToInteger src t sat r d a tl) [cvtUse src a] d tl (t == .i32) fun c l =>
      (extend32 t (f c l).1, (f c l).2) :=
  gives32_of_alu32 (fun _ => (exec_cvtToInteger ..).trans (if_neg (by simp [hnarrow]))) fun c l => by rw [hf c l]

/-- A conversion to a 64-bit integer type delivers its code (R91). -/
theorem cvtToInteger_gives64 {src : CvtSrc} {t : IType} {sat : Bool} {r : Rnd} {d : Dest} {a : Operand} {tl : Tail}
    {f : Ctx → Nat → Nat × FpFlags} (hwide : t.wide = true)
    (hf : ∀ (c : Ctx) l, cvtIntCode src t sat r a c.g c.rank l = f c l) :
    Gives64 (.cvtToInteger src t sat r d a tl) [cvtUse src a] d tl fun c l => (BitVec.ofNat 64 (f c l).1, (f c l).2) :=
  gives64_of_alu64 (fun _ => (exec_cvtToInteger ..).trans (if_pos hwide)) fun c l => by rw [hf c l]

/-- A float source is read at 32 bits (R71). -/
theorem cvtUse_of_float {src : CvtSrc} (hsrc : ∀ st, src ≠ .int st) (a : Operand) : cvtUse src a = .src a := by
  cases src with
  | int st => exact absurd rfl (hsrc st)
  | _ => rfl

/-- An integer source is wrapped, or clamped under `.sat` (R18, R75). -/
theorem cvtIntCode_of_int (st t : IType) (sat : Bool) (r : Rnd) (a : Operand) (g : Group) (k l : Nat) :
    cvtIntCode (.int st) t sat r a g k l = (resultInt t sat (g.readInt k st a l), 0) := rfl

/-- A float source is rounded to the integer type and clamped (R18). -/
theorem cvtIntCode_of_float {src : CvtSrc} (hsrc : ∀ st, src ≠ .int st) (t : IType) (sat : Bool) (r : Rnd) (a : Operand)
    (g : Group) (k l : Nat) :
    cvtIntCode src t sat r a g k l = (cvtFmt src).toInt r t.signed t.width (g.readFloat k src a l) := by
  cases src with
  | int st => exact absurd rfl (hsrc st)
  | _ => rfl

/-- A float source is converted by its code (R18). -/
theorem cvtToFloat_of_float {src : CvtSrc} (hsrc : ∀ st, src ≠ .int st) (t : FType) (sat : Bool) (r : Rnd) (d : Dest)
    (a : Operand) (tl : Tail) : Gives32 (.cvtToFloat src t sat r d a tl) [.src a] d tl false fun c l =>
      let z := (cvtFmt src).convert (fmtOf t) r sat (c.g.readFloat c.rank src a l)
      (BitVec.ofNat 32 z.1, z.2) := by
  cases src with
  | int st => exact absurd rfl (hsrc st)
  | _ => exact gives32_of_alu32 (exec_cvtToFloat _ t sat r d a tl) fun _ _ => rfl

/-- Conversions (R91), from an integer source and from each float source. -/
theorem conversions : Claims.Conversions := by
  intro st t ft sat r d a tl
  have hint (c : Ctx) (l : Nat) := cvtIntCode_of_int st t sat r a c.g c.rank l
  refine ⟨fun hnarrow => (cvtToInteger_gives32 hnarrow hint :), fun hwide => (cvtToInteger_gives64 hwide hint :),
    gives32_of_alu32 (exec_cvtToFloat (.int st) ft sat r d a tl) fun _ _ => rfl, fun src hmem => ?_⟩
  have hsrc : ∀ st, src ≠ .int st := by
    rintro st rfl
    simp at hmem
  have hcode (c : Ctx) (l : Nat) := cvtIntCode_of_float hsrc t sat r a c.g c.rank l
  have huse : cvtUse src a = .src a := cvtUse_of_float hsrc a
  exact ⟨fun hnarrow => huse ▸ cvtToInteger_gives32 hnarrow hcode, fun hwide => huse ▸ cvtToInteger_gives64 hwide hcode,
    cvtToFloat_of_float hsrc ft sat r d a tl⟩

/-- Packing, unpacking and the block scale (R92 to R94); scaleq is a member-mask instruction (R101). -/
theorem packing : Claims.Packing := by
  intro fmt sf sat r d a b k e m tl
  exact ⟨gives32_of_alu32 (exec_pk fmt sat r d a b k tl) fun _ _ => rfl,
    gives32_of_alu32 (exec_unpk fmt d a e tl) fun _ _ => rfl,
    completes_of_member (fun s => by rw [exec_scaleq]; rfl) (fun _ _ hmask => hmask) fun _ _ _ => rfl⟩

/-- Settles O5: a conversion's result is settled by whether its source is an integer or a float, and by its width. -/
theorem conversionResults : Obligations.ConversionResults :=
  ⟨conversions, packing⟩

end Sys2Proof.Machine

/-! The scoreboard (O49). -/

namespace Sys2Proof.Machine

/-- The slot that a word's tail bits name (R55). -/
theorem tailSlot_of_fields {i : Instr} {f : Fields} {tl : Tail} (hfields : encodeFields i = some f)
    (htail : f.tail = tailField tl) : i.tailSlot = tl := by
  rw [Instr.tailSlot, hfields, Option.bind_some, htail]
  cases tl with
  | none => rfl
  | some n =>
    clear htail
    revert n
    decide

/-- The slot of an instruction is full where that of its tail is. -/
theorem Ctx.slotFull_of_fields {c : Ctx} {i : Instr} {f : Fields} {tl : Tail} (hfull : c.slotFull i.tailSlot = true)
    (hfields : encodeFields i = some f) (htail : f.tail = tailField tl) : c.slotFull tl = true := by
  rwa [tailSlot_of_fields hfields htail] at hfull

-- A full slot

section
variable {s : State} {c : Ctx} {uses : List Use} {tl : Tail} (hctx : s.ctx? = some c) (hfull : c.slotFull tl = true)
include hctx hfull

/-- A word whose slot is full does not issue: nothing changes (R38). -/
theorem issueWith_of_slotFull {pre : Ctx → Bool} {body : Ctx → State → Effect} {finish : Ctx → State → State} :
    issueWith pre uses tl body finish s = .next s := by
  simp [issueWith, hctx, hfull]

/-! The same of each shared form of an instruction. -/

theorem issue_of_slotFull {body : Ctx → State → Effect} : issue uses tl body s = .next s := issueWith_of_slotFull hctx hfull
theorem issueIf_of_slotFull {pre : Ctx → Bool} {body : Ctx → State → Effect} : issueIf pre uses tl body s = .next s :=
  issueWith_of_slotFull hctx hfull
theorem issueAsync_of_slotFull {pre : Ctx → Bool} {body : Ctx → State → Effect} : issueAsync pre uses tl body s = .next s :=
  issueWith_of_slotFull hctx hfull
theorem issueMember_of_slotFull {m : MaskOp} {body : Ctx → State → Effect} : issueMember m uses tl body s = .next s :=
  issueIf_of_slotFull hctx hfull
theorem alu32_of_slotFull {d : Dest} {sx : Bool} {f : Group → Nat → Nat → W32 × FpFlags} : alu32 uses d tl sx f s = .next s :=
  issue_of_slotFull hctx hfull
theorem alu64_of_slotFull {d : Dest} {f : Group → Nat → Nat → W64 × FpFlags} : alu64 uses d tl f s = .next s :=
  issue_of_slotFull hctx hfull
theorem aluCm_of_slotFull {f : Group → Nat → Nat → Bool × FpFlags} : aluCm uses tl f s = .next s :=
  issue_of_slotFull hctx hfull
theorem aluInt_of_slotFull {t : IType} {srcs : List Operand} {d : Dest} {f : Group → Nat → Nat → Nat} :
    aluInt t srcs d tl f s = .next s := by
  unfold aluInt
  split
  · exact alu64_of_slotFull hctx hfull
  · exact alu32_of_slotFull hctx hfull
theorem aluShift_of_slotFull {t : IType} {d : Dest} {a b : Operand} {f : Nat → Nat → Nat} :
    aluShift t d a b tl f s = .next s := by
  unfold aluShift
  dsimp only
  split
  · exact alu64_of_slotFull hctx hfull
  · exact alu32_of_slotFull hctx hfull
theorem cvtToInteger_of_slotFull {src : CvtSrc} {t : IType} {sat : Bool} {r : Rnd} {d : Dest} {a : Operand} :
    execCvtToInteger src t sat r d a tl s = .next s := by
  unfold execCvtToInteger
  dsimp only
  split
  · exact alu64_of_slotFull hctx hfull
  · exact alu32_of_slotFull hctx hfull
theorem aluFloat_of_slotFull {t : FType} {srcs : List Operand} {d : Dest} {f : List Nat → Nat × FpFlags} :
    aluFloat t srcs d tl f s = .next s := alu32_of_slotFull hctx hfull
theorem aluCount_of_slotFull {t : IType} {d : Dest} {a : Operand} {f : Nat → Nat} : aluCount t d a tl f s = .next s :=
  alu32_of_slotFull hctx hfull
theorem aluEn_of_slotFull {a : Operand} {f : LaneMask → LaneMask → LaneMask} : aluEn a tl f s = .next s :=
  issue_of_slotFull hctx hfull
theorem atomics_of_slotFull {d : BitVec 6} {addr : Ctx → Nat → W64} {k : AccKind} {red : Ctx → Nat → Option (RedOp × W64)}
    {acc : Ctx → Nat → Nat → Dst → Access} : atomics uses tl d addr k red acc s = .next s := issueAsync_of_slotFull hctx hfull
theorem tileOp_of_slotFull {kind : MatKind} {cv : CvAttach} {set sat : Bool} {r : Rnd} {acc : AccField}
    {b x : Option (BitVec 5)} : tileOp kind cv set sat r acc b x tl s = .next s := issueAsync_of_slotFull hctx hfull

end

/-- An instruction whose tail names a full slot does not issue (R38): each is one of the shared forms with its own tail; terminal
instructions and some others have none, and events have no word at all. -/
theorem exec_of_slotFull {s : State} {c : Ctx} (i : Instr) (hctx : s.ctx? = some c) (hfull : c.slotFull i.tailSlot = true) :
    exec i s = .next s := by
  cases i with
  | iadd | isub | imul | imulhi | imad | idiv | irem | ineg | iabs | imin | imax | iaddsat | isubsat | iclamp | and | or | xor
  | not | andn | brev | sel | mov | movi | lit =>
    unfold exec
    exact aluInt_of_slotFull hctx (c.slotFull_of_fields hfull rfl rfl)
  | shl | shr | sar | rot =>
    unfold exec
    exact aluShift_of_slotFull hctx (c.slotFull_of_fields hfull rfl rfl)
  | add64 | lea =>
    unfold exec
    exact alu64_of_slotFull hctx (c.slotFull_of_fields hfull rfl rfl)
  | popc | clz | ctz =>
    unfold exec
    exact aluCount_of_slotFull hctx (c.slotFull_of_fields hfull rfl rfl)
  | dot4 | bfx | bfi | perm8 | fclass | fldexp | fgetexp | pk | unpk | tdec | tdec2 | cvtToFloat =>
    unfold exec
    exact alu32_of_slotFull hctx (c.slotFull_of_fields hfull rfl rfl)
  | fadd | fsub | fmul | fdiv | hadd2 | hmul2 | ffma | hfma2 | fmin | fmax | frcp | frsq | fsqrt | fexp2 | flog2 | fsinpi
  | fcospi | ftanh | frnd | ffrac | fgetmant | fabs | fneg | fclamp =>
    unfold exec
    exact aluFloat_of_slotFull hctx (c.slotFull_of_fields hfull rfl rfl)
  | cvtToInteger =>
    unfold exec
    exact cvtToInteger_of_slotFull hctx (c.slotFull_of_fields hfull rfl rfl)
  | fdot2 =>
    unfold exec execFdot2
    exact alu32_of_slotFull hctx (c.slotFull_of_fields hfull rfl rfl)
  | fcmp =>
    unfold exec execFcmp
    exact aluCm_of_slotFull hctx (c.slotFull_of_fields hfull rfl rfl)
  | icmp | cmset =>
    unfold exec
    exact aluCm_of_slotFull hctx (c.slotFull_of_fields hfull rfl rfl)
  | scaleq | mtest | mbits | mfold | scan | lperm | mpeers | mlow | lsync =>
    unfold exec
    exact issueMember_of_slotFull hctx (c.slotFull_of_fields hfull rfl rfl)
  | enrest | enand | enor | enandn =>
    unfold exec
    exact aluEn_of_slotFull hctx (c.slotFull_of_fields hfull rfl rfl)
  | ensave | cmget | setab | setrt | phaseS | syscNote =>
    unfold exec
    exact issue_of_slotFull hctx (c.slotFull_of_fields hfull rfl rfl)
  | atom | atomCas | fatom =>
    unfold exec
    exact atomics_of_slotFull hctx (c.slotFull_of_fields hfull rfl rfl)
  | mma | mmas | mmt | mzero | mld | mdrain | mdraint | mchk =>
    unfold exec
    exact tileOp_of_slotFull hctx (c.slotFull_of_fields hfull rfl rfl)
  | ld | st | ldsc | mrd =>
    simp only [exec_ld, exec_st, exec_ldsc, exec_mrd, execLd, execSt, execLdsc, execMrd]
    exact issueAsync_of_slotFull hctx (c.slotFull_of_fields hfull rfl rfl)
  | twld | twst | ldp | stp | ctrAdd | ctrRd | phase | phaseP | lfence | vbld | sample | sampleg | texld | tretDone | xpushXc
  | xpushXe | xpushXt | syscKill =>
    unfold exec
    exact issueAsync_of_slotFull hctx (c.slotFull_of_fields hfull rfl rfl)
  | ctrWait | sign | tretNext | xpopXt | xpopXe | xpopXm =>
    unfold exec
    exact issueAsync_of_slotFull hctx (c.slotFull_of_fields (tl := some _) hfull rfl rfl)
  | cwb lines | cinv lines =>
    unfold exec
    cases lines <;> exact issueAsync_of_slotFull hctx (c.slotFull_of_fields hfull rfl rfl)
  | attr mode =>
    unfold exec
    cases mode <;> exact issueAsync_of_slotFull hctx (c.slotFull_of_fields hfull rfl rfl)
  | prim _ cov =>
    unfold exec
    cases cov <;> exact issueAsync_of_slotFull hctx (c.slotFull_of_fields hfull rfl rfl)
  | mstat item =>
    unfold exec
    cases item <;> exact issue_of_slotFull hctx (c.slotFull_of_fields hfull rfl rfl)
  | dbgr | dbgw | iinv =>
    unfold exec
    exact issueIf_of_slotFull hctx (c.slotFull_of_fields hfull rfl rfl)
  | brc cond | bru cond => cases cond <;> exact nomatch c.slotFull_of_fields (tl := none) hfull rfl rfl
  | bra | call | ret | jmpi | calli | exit | rtt | halt | yield | nop | loop | spawn | trap | sleep | brk | prefetch | aconv
  | aclass | mrel | hit | covw | xstat | csrr | csrw => exact nomatch c.slotFull_of_fields (tl := none) hfull rfl rfl
  | _ => exact nomatch hfull

-- A completion releases its slot

/-- Taking what a pop delivers changes no group (R243, R301). -/
theorem State.takePop_groups (s : State) (a : AsyncOp) : (s.takePop a).groups = s.groups := by
  unfold State.takePop
  split
  · rfl
  · rfl
  · exact State.modCore_groups ..
  · split
    · rfl
    · exact State.modCore_groups ..

/-- Vector elements that arrive touch neither the slots nor the tag (R131). -/
theorem Group.landV_slots : ∀ (ws : List (Nat × W32)) (g : Group), (g.landV ws).sb = g.sb ∧ (g.landV ws).tag = g.tag
  | [], _ => ⟨rfl, rfl⟩
  | w :: ws, g => by
    obtain ⟨hsb, htag⟩ := Group.landV_slots ws (if g.live.getLsbD (w.1 % 32) then { g with v := NMap.set 0 g.v w.1 w.2 } else g)
    exact ⟨hsb.trans (by split <;> rfl), htag.trans (by split <;> rfl)⟩

/-- The same of scalar results. -/
theorem Group.landS_slots : ∀ (ws : List (Nat × W64)) (g : Group), (g.landS ws).sb = g.sb ∧ (g.landS ws).tag = g.tag
  | [], _ => ⟨rfl, rfl⟩
  | w :: ws, g => Group.landS_slots ws { g with s := NMap.set 0 g.s w.1 w.2 }

/-- The same of window halves. -/
theorem Group.landW_slots : ∀ (ws : List (Nat × Nat × BitVec 256)) (g : Group),
    (g.landW ws).sb = g.sb ∧ (g.landW ws).tag = g.tag
  | [], _ => ⟨rfl, rfl⟩
  | w :: ws, g => Group.landW_slots ws (g.wsetHalf w.1 w.2.1 w.2.2)

/-- The group after an operation's values have landed: one of an earlier grant is not touched (R132), and neither slots nor tag
of another are. -/
theorem State.group?_landSome {s : State} {a : AsyncOp} {g : Group} (hg : s.group? a.gid = some g) (p : Nat → Bool)
    (vw : List (Nat × W32)) (sw : List (Nat × W64)) (fl : FpFlags) :
    ∃ h, (s.landSome a p vw sw fl).group? a.gid = some h ∧ h.sb = g.sb ∧ h.tag = g.tag ∧ (a.tag ≠ g.tag → h = g) := by
  unfold State.landSome
  rw [State.group?_modGroup, if_pos rfl, hg, Option.map_some]
  refine ⟨_, rfl, ?_⟩
  by_cases htag : g.tag = a.tag
  · simp [htag, Group.orFlags, Group.landV_slots, Group.landS_slots, Group.landW_slots]
  · simp [htag]

/-- The group after a slot is released under a tag (R132). -/
theorem State.group?_releaseSlot {s : State} {gid : Nat} {g : Group} (hg : s.group? gid = some g) (tag : BitVec 4)
    (n : BitVec 3) : (s.releaseSlot gid tag (some n)).group? gid = some (if g.tag = tag then g.sbDec n.toNat else g) := by
  unfold State.releaseSlot
  rw [State.group?_modGroup, if_pos rfl, hg, Option.map_some]

/-- An operation that completes takes one from its slot under its own grant, and nothing under a later one (R38, R132). -/
theorem asyncComplete_slot {s : State} {op : Nat} {a : AsyncOp} {n : BitVec 3} {g : Group}
    (hfind : (s.asyncs.find? fun x => x.id == op) = some a) (hready : s.asyncReady a = true) (hslot : a.slot = some n)
    (hg : s.group? a.gid = some g) :
    ∃ t h, exec (.asyncComplete op) s = .next t ∧ t.group? a.gid = some h ∧
      (a.tag = g.tag → h.sbGet n.toNat = g.sbGet n.toNat - 1 ∧ ∀ k : BitVec 3, k ≠ n → h.sbGet k.toNat = g.sbGet k.toNat) ∧
      (a.tag ≠ g.tag → h = g) := by
  have hpop : State.group? { s.takePop a with asyncs := (s.takePop a).asyncs.filter fun x => x.id != op } a.gid = some g :=
    (State.group?_of_groups (s.takePop_groups a) _).trans hg
  obtain ⟨x, hx, hsb, htag, hold⟩ := State.group?_landSome hpop (fun k => !a.landed.contains k) (s.asyncElems a)
    (a.sw ++ s.popScalar a) ((a.gfx.map fun x => gfxFlags x a.raw).getD 0)
  refine ⟨_, _, ?_, State.group?_releaseSlot hx a.tag n, fun hown => ?_, fun hother => ?_⟩
  · rw [exec_asyncComplete, execAsyncComplete, hfind]
    simp only [hready, hslot, Bool.not_true, Bool.false_eq_true, if_false]
  · have hget (k : Nat) : x.sbGet k = g.sbGet k := congrArg (NMap.get 0 · k) hsb
    rw [if_pos (htag.trans hown.symm)]
    refine ⟨by rw [Group.sbGet_sbDec, if_pos rfl, hget], fun k hk => ?_⟩
    rw [Group.sbGet_sbDec, if_neg fun h => hk (BitVec.eq_of_toNat_eq h), hget]
  · rw [if_neg fun h => hother (h.symm.trans htag), hold hother]

/-- Settles O49: an issue by the shared frame's first check (`exec_of_slotFull`), a completion by `asyncComplete_slot`. -/
theorem scoreboardCounts : Obligations.ScoreboardCounts := by
  intro i s c n op a g
  refine ⟨fun hctx htail hlimit => exec_of_slotFull i hctx ?_, asyncComplete_slot⟩
  rw [htail]
  exact beq_iff_eq.2 hlimit

end Sys2Proof.Machine

/-! Lane routing and operand values (O44, O45), and the round trip of a handler (O48). -/

namespace Sys2Proof.Machine

-- Operands

/-- The routed lane of every code is one of the 32 (R43). -/
theorem Group.route_lt (g : Group) (code : BitVec 4) {l : Nat} (hl : l < 32) : g.route code l < 32 := by
  have hxor (n : Nat) (hn : n < 32) : Nat.xor l n < 32 := Nat.xor_lt_two_pow (n := 5) hl hn
  unfold Group.route
  dsimp only
  split_ifs
  · exact hl
  · exact hxor _ (Nat.pow_lt_pow_right (n := 5) Nat.one_lt_two (by omega))
  · omega
  · omega
  · omega
  · split
    · omega
    · omega
    · exact hxor _ (Nat.mod_lt _ (by omega))
    · omega

/-- The routed lane of a code that names an entry of the routing table, by the entry's kind (R43, R45). -/
theorem Group.route_indexed (g : Group) {code : BitVec 4} (hcode : 9 ≤ code.toNat) (l : Nat) :
    let e := g.rt (code.toNat - 9)
    let n := (e.extractLsb' 0 6).toNat
    let kind := (e.extractLsb' 14 2).toNat
    (kind = 0 → g.route code l = (l + n) % 32) ∧ (kind = 1 → g.route code l = n % 32) ∧
      (kind = 2 → g.route code l = l ^^^ (n % 32)) ∧ (kind = 3 → g.route code l = (g.vget n l).toNat % 32) := by
  unfold Group.route
  dsimp only
  rw [if_neg (by omega), if_neg (by omega), if_neg (by omega), if_neg (by omega), if_neg (by omega)]
  refine ⟨fun hkind => ?_, fun hkind => ?_, fun hkind => ?_, fun hkind => ?_⟩ <;> rw [hkind] <;> rfl

/-- Settles O44: the fixed codes by the definition, the indexed ones by `Group.route_indexed`. -/
theorem laneRouting : Obligations.LaneRouting := by
  intro c code l r q hl
  have hindexed (hcode : 9 ≤ code.toNat) := c.g.route_indexed hcode l
  refine ⟨⟨rfl, rfl, rfl⟩, fun hcode => ?_, fun hlow hhigh => ?_, fun hcode => ?_, fun hcode => ?_, fun hcode => ?_,
    fun hcode => ?_, fun hcode hkind hn => ?_, fun hcode hkind hn => ?_, fun hcode => ?_, c.g.route_lt code hl⟩
  · simp [Group.route, hcode]
  · unfold Group.route
    dsimp only
    rw [if_neg (by omega), if_pos hhigh]
    rfl
  · simp [Group.route, hcode]
  · simp [Group.route, hcode]
  · simp [Group.route, hcode]
  · obtain ⟨hrelative, -⟩ := hindexed hcode
    exact hrelative
  · obtain ⟨-, hfixed, -⟩ := hindexed hcode
    rw [hfixed hkind, Nat.mod_eq_of_lt hn]
  · obtain ⟨-, -, hxor, -⟩ := hindexed hcode
    rw [hxor hkind, Nat.mod_eq_of_lt hn]
  · obtain ⟨-, -, -, hregister⟩ := hindexed hcode
    exact hregister

/-- The constants that have a pattern of their own in the 16-bit formats (R54): the infinity, the NaN, and halves of both. -/
theorem constValue_halves :
    constValue .f16 45 = 0x7C00 ∧ constValue .bf16 45 = 0x7F80 ∧ constValue .f16 46 = 0x7E00 ∧
      constValue .bf16 46 = 0x7FC0 ∧ constValue .f16x2 36 = 0x3C003C00 ∧ constValue .f16x2 32 = 0xFFFFFFFF := by
  decide

/-- Settles O45: each operand by the definition of its read, the constants by their table. -/
theorem operandValues : Obligations.OperandValues := by
  intro c r q rt i l
  exact ⟨rfl, rfl, rfl, fun hi => if_pos hi, rfl, rfl, constValue_halves⟩

-- Handlers

/-- The resume address of each lane that a handler's entry saves (R255). -/
theorem Group.epc_enterHandler (g : Group) (kind : BitVec 2) (target pc hdr : W64) (t : Trap) {l : Nat}
    (hlive : l ∈ laneList g.live) :
    NMap.get 0 (g.enterHandler kind target pc hdr t).epc l = if g.pc l = pc then t.resume else g.pc l := by
  simp [Group.enterHandler, get_setLanes, hlive]

/-- Where the lanes stand after a handler's entry (R255). -/
theorem Group.pc_enterHandler (g : Group) (kind : BitVec 2) (target pc hdr : W64) (t : Trap) (l : Nat) :
    (g.enterHandler kind target pc hdr t).pc l = if l ∈ laneList g.live then target else g.pc l :=
  Group.pc_setPcs (fun _ => target) (laneList g.live) _ l

/-- Where the lanes stand after a handler's return (R258). -/
theorem Group.pc_leaveHandler (g : Group) (header : W64) (l : Nat) :
    (g.leaveHandler header).pc l = if l ∈ laneList g.live then NMap.get 0 g.epc l else g.pc l :=
  Group.pc_setPcs (fun l => NMap.get 0 g.epc l) (laneList g.live) g l

/-- What a handler's entry leaves, and what it saves of EN, CM, the header and the queue (R255, log entry 27). -/
theorem Group.enterHandler_saves (g : Group) (kind : BitVec 2) (target pc hdr : W64) (t : Trap) :
    let h := g.enterHandler kind target pc hdr t
    (h.live = g.live ∧ h.v = g.v ∧ h.s = g.s ∧ h.fps = g.fps ∧ h.lc = g.lc ∧ h.sb = g.sb) ∧
      h.sen = g.en ∧ h.scm = g.cm ∧ h.ehdr = hdr ∧
      h.shadow = if g.clause = none ∧ g.mid ≠ 0 then g.midQueue else g.queue := by
  simp [Group.enterHandler]

/-- What a handler's return leaves, and what it takes back (R258, log entry 27). -/
theorem Group.leaveHandler_restores (g : Group) (header : W64) :
    let h := g.leaveHandler header
    (h.live = g.live ∧ h.v = g.v ∧ h.s = g.s ∧ h.fps = g.fps ∧ h.lc = g.lc ∧ h.sb = g.sb) ∧
      h.en = g.sen ∧ h.cm = g.scm ∧ h.midHdr = g.ehdr ∧ h.midQueue = g.shadow ∧ h.hkind = 0 := by
  simp [Group.leaveHandler]

/-- Settles O48: what the entry saves is what the return takes back. -/
theorem handlerRoundTrip : Obligations.HandlerRoundTrip := by
  intro g kind target pc hdr header t
  obtain ⟨⟨hlive, hv, hs, hfps, hlc, hsb⟩, hsen, hscm, hehdr, hshadow⟩ := g.enterHandler_saves kind target pc hdr t
  obtain ⟨⟨rlive, rv, rs, rfps, rlc, rsb⟩, ren, rcm, rhdr, rqueue, rkind⟩ :=
    (g.enterHandler kind target pc hdr t).leaveHandler_restores header
  refine ⟨ren.trans hsen, rcm.trans hscm, rlive.trans hlive, rkind, fun hin => ?_, fun hout => ?_, rhdr.trans hehdr,
    fun l hl => ?_, rv.trans hv, rs.trans hs, rfps.trans hfps, rlc.trans hlc, rsb.trans hsb⟩
  · exact (rqueue.trans hshadow).trans (if_pos hin)
  · exact (rqueue.trans hshadow).trans (if_neg hout)
  · rw [Group.pc_leaveHandler, hlive, Group.pc_enterHandler]
    by_cases hlane : l ∈ laneList g.live
    · rw [if_pos hlane, Group.epc_enterHandler _ _ _ _ _ _ hlane, if_pos ((mem_laneList ..).1 hlane).2]
    · rw [if_neg hlane, if_neg hlane, if_neg fun hbit => hlane ((mem_laneList ..).2 ⟨hl, hbit⟩)]

end Sys2Proof.Machine

/-! Results in S registers, specials and the queue alone (O42). -/

namespace Sys2Proof.Machine

/-- The retirement of a group whose V file and what a handler saves were left as they were (R6, R35, R40). -/
theorem retired_scalar {s : State} {c : Ctx} (tl : Tail) (hctx : s.ctx? = some c) {x : Group}
    (hkeeps : KeepsSpecials none c.g x ∧ x.clause = c.g.clause) (hv : x.v = c.g.v) :
    let t := (s.put c x).retired c tl
    ∃ g, (t.group? c.gid = some g ∧ g.v = c.g.v ∧ KeepsSpecials tl c.g g ∧ OnlyGroup c.gid tl s t ∧ SameMemory s t ∧
        (c.cl.pc = c.cl.lastWord → g.queue = [] ∧ g.clause = none)) ∧
      (g.s = x.s ∧ g.cm = x.cm ∧ g.en = x.en ∧ g.lc = x.lc ∧ g.fps = x.fps) ∧
      (c.cl.pc ≠ c.cl.lastWord → g.queue = x.queue) := by
  obtain ⟨hspecials, hclause⟩ := hkeeps
  obtain ⟨g, hg, hspecials, honly, hmem, ⟨gv, gs, gcm, gen, glc, gfps⟩, hqueue, hend⟩ :=
    retired_spec s c tl hctx x ⟨c.cl, hclause.trans (ctx_clause hctx), rfl, rfl⟩ hspecials
  exact ⟨g, ⟨hg, gv.trans hv, hspecials, honly, hmem, hend⟩, ⟨gs, gcm, gen, glc, gfps⟩, hqueue⟩

/-- What a 32-bit result in an S register writes, and what it leaves (R37, R70, R72). -/
theorem Group.write32_s (g : Group) (em : LaneMask) (r : BitVec 5) (sx cleared : Bool) (f : Nat → W32 × FpFlags) :
    let x := g.write32 em (.s r) sx cleared f
    (x.v = g.v ∧ x.cm = g.cm ∧ x.en = g.en ∧ x.lc = g.lc ∧ x.queue = g.queue) ∧
      x.fps = (if cleared then 0 else g.fps) ||| (f 0).2 ∧
      ∀ n, x.sget n = if n = r.toNat then (if sx then (f 0).1.signExtend 64 else (f 0).1.setWidth 64) else g.sget n :=
  ⟨⟨rfl, rfl, rfl, rfl, rfl⟩, rfl, fun _ => Group.sget_sset ..⟩

/-- The same of a 64-bit result. -/
theorem Group.write64_s (g : Group) (em : LaneMask) (r : BitVec 5) (cleared : Bool) (f : Nat → W64 × FpFlags) :
    let x := g.write64 em (.s r) cleared f
    (x.v = g.v ∧ x.cm = g.cm ∧ x.en = g.en ∧ x.lc = g.lc ∧ x.queue = g.queue) ∧
      ∀ n, x.sget n = if n = r.toNat then (f 0).1 else g.sget n :=
  ⟨⟨rfl, rfl, rfl, rfl, rfl⟩, fun _ => Group.sget_sset ..⟩

/-- A result for the queue alone is pushed and written nowhere (R39, R40). -/
theorem Group.write32_keep (g : Group) (em : LaneMask) (sx cleared : Bool) (f : Nat → W32 × FpFlags) :
    let x := g.write32 em .keep sx cleared f
    (x.v = g.v ∧ x.s = g.s ∧ x.cm = g.cm ∧ x.en = g.en ∧ x.lc = g.lc) ∧
      x.fps = (if cleared then 0 else g.fps) ||| flagsOver (fun l => (f l).2) (laneList em) ∧
      x.queue = ((lanes.map fun l => if em.getLsbD l then (f l).1 else 0) :: g.queue).take 16 :=
  ⟨⟨rfl, rfl, rfl, rfl, rfl⟩, rfl, rfl⟩

/-- A write of a special changes that special alone, if it is a writable one (R37, R70). -/
theorem Group.setSpecial_spec (g : Group) (k : Special) (x : W32) :
    let h := g.setSpecial k x
    (h.v = g.v ∧ h.s = g.s ∧ h.queue = g.queue) ∧
      h.cm = (if k = .cm then x else g.cm) ∧ h.en = (if k = .en then x else g.en) ∧
      h.lcGet 0 = (if k = .lc0 then x else g.lcGet 0) ∧ h.lcGet 1 = (if k = .lc1 then x else g.lcGet 1) ∧
      h.lcGet 2 = (if k = .lc2 then x else g.lcGet 2) ∧ h.fps = if k = .fps then x.setWidth 5 else g.fps := by
  cases k <;> simp [Group.setSpecial, Group.lcGet, Group.lcSet, NMap.get_set]

/-- Where a 32-bit result in a special goes (R37, R70). -/
theorem Group.write32_sp (g : Group) (em : LaneMask) (k : Special) (sx cleared : Bool) (f : Nat → W32 × FpFlags) :
    let x := g.write32 em (.sp k) sx cleared f
    (x.v = g.v ∧ x.s = g.s ∧ x.queue = g.queue) ∧
      x.cm = (if k = .cm then (f 0).1 else g.cm) ∧ x.en = (if k = .en then (f 0).1 else g.en) ∧
      x.lcGet 0 = (if k = .lc0 then (f 0).1 else g.lcGet 0) ∧ x.lcGet 1 = (if k = .lc1 then (f 0).1 else g.lcGet 1) ∧
      x.lcGet 2 = (if k = .lc2 then (f 0).1 else g.lcGet 2) ∧
      x.fps = if k = .fps then (f 0).1.setWidth 5 else (if cleared then 0 else g.fps) ||| (f 0).2 :=
  (g.settleFps cleared (f 0).2).setSpecial_spec k (f 0).1

/-- Settles O42: the written group by the rule of its destination, its retirement by `retired_scalar`. -/
theorem scalarResults : Obligations.ScalarResults := by
  intro i uses r k tl sx f h s c
  refine ⟨fun hgives hissues => ?_, fun hgives hissues => ?_, fun hgives hissues => ?_, fun hgives hissues => ?_⟩
  · obtain ⟨⟨xv, xcm, xen, xlc, xqueue⟩, xfps, xs⟩ := c.g.write32_s c.em r sx (uses.any Use.readsFps) (f c)
    obtain ⟨g, hkept, ⟨gs, gcm, gen, glc, gfps⟩, hqueue⟩ := retired_scalar tl hissues.1 (c.g.write32_keeps ..) xv
    have hsget (n : Nat) := (congrArg (NMap.get 0 · n) gs).trans (xs n)
    exact ⟨_, g, hgives s c hissues trivial, hkept, ⟨gcm.trans xcm, gen.trans xen, glc.trans xlc⟩,
      (hsget _).trans (if_pos rfl), fun n hn => (hsget n).trans (if_neg hn), gfps.trans xfps,
      fun hl => (hqueue hl).trans xqueue⟩
  · obtain ⟨⟨xv, xcm, xen, xlc, xqueue⟩, xs⟩ := c.g.write64_s c.em r (uses.any Use.readsFps) (h c)
    obtain ⟨g, hkept, ⟨gs, gcm, gen, glc, -⟩, hqueue⟩ := retired_scalar tl hissues.1 (c.g.write64_keeps ..) xv
    have hsget (n : Nat) := (congrArg (NMap.get 0 · n) gs).trans (xs n)
    exact ⟨_, g, hgives s c hissues trivial, hkept, ⟨gcm.trans xcm, gen.trans xen, glc.trans xlc⟩,
      (hsget _).trans (if_pos rfl), fun n hn => (hsget n).trans (if_neg hn), fun hl => (hqueue hl).trans xqueue⟩
  · obtain ⟨⟨xv, xs, xcm, xen, xlc⟩, xfps, xqueue⟩ := c.g.write32_keep c.em sx (uses.any Use.readsFps) (f c)
    obtain ⟨g, hkept, ⟨gs, gcm, gen, glc, gfps⟩, hqueue⟩ := retired_scalar tl hissues.1 (c.g.write32_keeps ..) xv
    exact ⟨_, g, hgives s c hissues trivial, hkept, ⟨gcm.trans xcm, gen.trans xen, glc.trans xlc⟩, gs.trans xs,
      gfps.trans xfps, fun hl => (hqueue hl).trans xqueue⟩
  · obtain ⟨⟨xv, xs, xqueue⟩, xcm, xen, xlc0, xlc1, xlc2, xfps⟩ :=
      c.g.write32_sp c.em k sx (uses.any Use.readsFps) (f c)
    obtain ⟨g, hkept, ⟨gs, gcm, gen, glc, gfps⟩, hqueue⟩ := retired_scalar tl hissues.1 (c.g.write32_keeps ..) xv
    have hlc (n : Nat) := congrArg (NMap.get 0 · n) glc
    exact ⟨_, g, hgives s c hissues trivial, hkept, gs.trans xs, fun hl => (hqueue hl).trans xqueue, gcm.trans xcm,
      gen.trans xen, (hlc 0).trans xlc0, (hlc 1).trans xlc1, (hlc 2).trans xlc2, gfps.trans xfps⟩

end Sys2Proof.Machine

/-! A step runs the instruction of the word at its group's turn (O55). -/

namespace Sys2Proof.Machine

/-- With a group's turn on the agenda, the step is that turn once time has passed. -/
theorem step_of_turn {s : State} {gid : Nat} {rest : List Move} (hagenda : s.agenda = .word gid :: rest) :
    step s = State.runMove (.word gid) { s.tend with agenda := rest } := by
  have hnext : s.tend.nextMove (Config.choice s.tick) = (some (.word gid), { s.tend with agenda := rest }) := by
    unfold State.nextMove
    rw [State.tend_agenda, hagenda]
  unfold step
  rw [hnext]

theorem State.runMove_done {s t : State} {gid : Nat} (hturn : s.turn gid = .done t) : s.runMove (.word gid) = .next t := by
  rw [State.runMove, hturn]

theorem State.runMove_issue {s t : State} {gid : Nat} {i : Instr} (hturn : s.turn gid = .issue i t) :
    s.runMove (.word gid) = exec i t := by
  rw [State.runMove, hturn]

section
variable {s : State} {gid : Nat} {g : Group} {cl : Clause} (hg : s.group? gid = some g) (hcl : g.clause = some cl)
  (hbp : s.breakpoint g cl.pc = none)
include hg hcl hbp

/-- A word that its clause's fetch brought issues (R122). -/
theorem State.turn_of_held {w : W64} (hheld : cl.held = some (some w)) :
    s.turn gid = .issue (cl.instruction w) { s with cur := some gid, word := w } := by
  simp only [State.turn, hg, hcl, hbp, hheld]

/-- A word that no fetch brought issues as it stands there, unless a migration holds its page (log entry 5, R393). -/
theorem State.turn_of_peeked {w : W64} (hheld : cl.held = none) (hfree : s.fetchHeld g cl.pc = false)
    (hpeek : s.peekWord g.core g.launch cl.pc = some w) :
    s.turn gid = .issue (cl.instruction w) { s.afterFetch g.core g.launch cl.pc with cur := some gid, word := w } := by
  simp only [State.turn, hg, hcl, hbp, hheld, hfree, hpeek, Bool.false_eq_true, if_false]

/-- Where no word can be fetched the lanes at it take the fetch's trap (log entries 25 and 75). -/
theorem State.turn_of_refused (hrefused : cl.held = some none ∨
      cl.held = none ∧ s.fetchHeld g cl.pc = false ∧ s.peekWord g.core g.launch cl.pc = none) :
    s.turn gid = .done (s.takeTrap gid cl.pc cl.hdr
      { code := s.fetchCode g.core g.launch cl.pc, wr := false, addr := cl.pc, mask := g.lanesAt cl.pc &&& cl.lanes,
        resume := cl.pc }) := by
  obtain hheld | ⟨hheld, hfree, hpeek⟩ := hrefused
  · simp only [State.turn, hg, hcl, hbp, hheld]
  · simp only [State.turn, hg, hcl, hbp, hheld, hfree, hpeek, Bool.false_eq_true, if_false]

/-- A word whose walk a migration holds is waited for (R393). -/
theorem State.turn_of_waiting (hheld : cl.held = none) (hwait : s.fetchHeld g cl.pc = true) : s.turn gid = .done s := by
  simp only [State.turn, hg, hcl, hbp, hheld, hwait, if_true]

end

/-- A word that decodes and may stand where it is, is its instruction (R50). -/
theorem Clause.instruction_admitted {cl : Clause} {w : W64} {i : Instr} (hdec : decode w = .ok i)
    (hadmits : cl.admits w = true) : cl.instruction w = i := by
  simp only [Clause.instruction, hdec, hadmits, if_true]

/-- A word that may not stand where it is, is illegal (R50). -/
theorem Clause.instruction_misplaced {cl : Clause} {w : W64} {i : Instr} (hdec : decode w = .ok i)
    (hadmits : cl.admits w = false) : cl.instruction w = .illegalOpcode w := by
  simp only [Clause.instruction, hdec, hadmits, Bool.false_eq_true, if_false]

/-- A word that is no instruction is illegal (R63). -/
theorem Clause.instruction_undecoded {cl : Clause} {w : W64} {e : DecodeError} (hdec : decode w = .error e) :
    cl.instruction w = .illegalOpcode w := by
  simp only [Clause.instruction, hdec]

/-- Settles O55: the step is the group's turn (`step_of_turn`), and each way of a turn has its rule. -/
theorem stepRunsDecoded : Obligations.StepRunsDecoded := by
  intro s gid rest g cl w i s1 runs hagenda hg hcl hbp
  have hstep : step s = s1.runMove (.word gid) := step_of_turn hagenda
  have hruns {r : State} (hturn : s1.turn gid = .issue (cl.instruction w) { r with cur := some gid, word := w }) : runs r := by
    have hexec := hstep.trans (State.runMove_issue hturn)
    refine ⟨fun hdec hadmits => ?_, fun hdec hadmits => ?_, fun e hdec => ?_⟩
    · rwa [Clause.instruction_admitted hdec hadmits] at hexec
    · rwa [Clause.instruction_misplaced hdec hadmits] at hexec
    · rwa [Clause.instruction_undecoded hdec] at hexec
  exact ⟨fun hheld => hruns (State.turn_of_held hg hcl hbp hheld),
    fun hheld hfree hpeek => hruns (State.turn_of_peeked hg hcl hbp hheld hfree hpeek),
    fun hrefused => hstep.trans (State.runMove_done (State.turn_of_refused hg hcl hbp hrefused)),
    fun hheld hwait => hstep.trans (State.runMove_done (State.turn_of_waiting hg hcl hbp hheld hwait))⟩

end Sys2Proof.Machine

/-! Direct transfers (O54): the group after a terminal instruction, and where its lanes stand. -/

namespace Sys2Proof.Machine

-- The end of a terminal instruction

/-- The group of a terminal instruction as its clause ends: what belongs to the issue of words has moved on (R134). -/
def Group.leftWord (x : Group) (c : Ctx) : Group :=
  { x with mid := if x.hkind = c.g.hkind then x.mid &&& ~~~c.at_ else x.mid, lastPc := c.cl.pc, lastSeq := c.seq,
           bpExempt := if x.hkind = c.g.hkind then false else x.bpExempt }

/-- The group of a terminal instruction that has written it, and every other group (R134). -/
theorem State.group?_leftClause (s : State) (c : Ctx) (x : Group) (n : Nat) :
    ((s.put c x).leftClause c).group? n = if n = c.gid then some ((x.leftWord c).endClause s.now) else s.group? n := by
  unfold State.leftClause State.put
  rw [State.group?_modGroup, State.group?_setGroup]
  split <;> rfl

/-- It leaves memory alone. -/
theorem sameMemory_leftClause (s : State) (c : Ctx) (x : Group) : SameMemory s ((s.put c x).leftClause c) := by
  intro a
  unfold State.leftClause
  rw [State.modGroup_mem]
  rfl

/-- The end of a terminal instruction keeps the registers and program counters, ends the clause and empties the queue (R40). -/
theorem Group.leftWord_endClause {x : Group} (c : Ctx) (now : Nat) (hclause : x.clause.isSome = true) :
    let g := (x.leftWord c).endClause now
    SameRegisters x g ∧ g.pcv = x.pcv ∧ g.clause = none ∧ g.queue = [] := by
  obtain ⟨hregs, hpcv, hends⟩ := (x.leftWord c).endClause_frame now
  obtain ⟨hnone, hqueue⟩ := hends hclause
  have hleft : SameRegisters x (x.leftWord c) := by constructor <;> simp [Group.leftWord]
  exact ⟨hleft.trans hregs, hpcv, hnone, hqueue⟩

-- Transfers

/-- The lanes at the word are live (R35, R48). -/
theorem ctx_at_live {s : State} {c : Ctx} (hctx : s.ctx? = some c) {l : Nat} (hl : l < 32) (hat : c.at_.getLsbD l = true) :
    c.g.live.getLsbD l = true := by
  unfold State.ctx? at hctx
  split at hctx
  · cases hctx
  · split at hctx
    · cases hctx
    · split at hctx
      · cases hctx
      · cases hctx
        simp only [Group.lanesAt, BitVec.getLsbD_and, maskOf_getLsbD _ _ hl, Bool.and_eq_true] at hat
        exact hat.1.1

/-- A direct transfer has sent the lanes of a mask to its target, the others at the word past the clause, and changed no register
but an S register (R35, R134, R137). -/
def Transferred (s : State) (c : Ctx) (off : BitVec 24) (sel : LaneMask) (t : State) (g : Group) : Prop :=
  t.group? c.gid = some g ∧
    (∀ l < 32, g.pc l = if c.at_.getLsbD l then (if (sel &&& c.em).getLsbD l then c.cl.target off else c.cl.fall) else c.g.pc l) ∧
    g.clause = none ∧ g.queue = [] ∧ g.v = c.g.v ∧ g.cm = c.g.cm ∧ g.en = c.g.en ∧ g.lc = c.g.lc ∧ g.live = c.g.live ∧
    (∀ n, n ≠ c.gid → t.group? n = s.group? n) ∧ SameMemory s t

/-- The program counters after a transfer of the lanes at a word (R134). -/
theorem Group.pc_transfer {x : Group} {cl : Clause} {at_ to_ : LaneMask} {t : Nat → W64} {l : Nat} (hl : l < 32)
    (hlive : at_.getLsbD l = true → x.live.getLsbD l = true) :
    (x.transfer cl at_ to_ t).pc l = if at_.getLsbD l then (if to_.getLsbD l then t l else cl.fall) else x.pc l := by
  unfold Group.transfer
  rw [Group.pc_setMask _ _ _ _ hl, BitVec.getLsbD_and]
  cases hat : at_.getLsbD l with
  | false => simp
  | true => simp [hlive hat]

/-- The group that a direct transfer writes: S registers and flags, then the program counters and the branch's hints. -/
def Ctx.transferring (c : Ctx) (off : BitVec 24) (to_ : LaneMask) (sregs : NMap W64) (flags : FpFlags) (pref hint : Option W64) :
    Group :=
  { Group.transfer { c.g with s := sregs, fps := flags } c.cl c.at_ to_ (fun _ => c.cl.target off) with
    pref := pref, hint := hint }

/-- A terminal instruction that writes such a group is a direct transfer. -/
theorem transferred_of_put {s : State} {c : Ctx} (hctx : s.ctx? = some c) (off : BitVec 24)
    {to_ sel : LaneMask} (hto : to_ = sel &&& c.em) (sregs : NMap W64) (flags : FpFlags) (pref hint : Option W64) :
    ∃ g, Transferred s c off sel ((s.put c (c.transferring off to_ sregs flags pref hint)).leftClause c) g ∧ g.s = sregs := by
  subst hto
  have hclause : (c.transferring off (sel &&& c.em) sregs flags pref hint).clause.isSome = true := by
    simp [Ctx.transferring, Group.transfer, ctx_clause hctx]
  obtain ⟨hregs, hpcv, hnone, hqueue⟩ := Group.leftWord_endClause c s.now hclause
  obtain ⟨⟨hlive, -⟩, -⟩ := hregs.specials
  refine ⟨_, ⟨by rw [State.group?_leftClause, if_pos rfl], fun l hl => ?_, hnone, hqueue, hregs.v.trans ?_, hregs.cm.trans ?_,
    hregs.en.trans ?_, hregs.lc.trans ?_, hlive.trans ?_, fun n hn => by rw [State.group?_leftClause, if_neg hn],
    sameMemory_leftClause s c _⟩, hregs.s.trans ?_⟩
  · exact (congrArg (NMap.get 0 · l) hpcv).trans (Group.pc_transfer hl (ctx_at_live hctx hl))
  all_goals simp [Ctx.transferring, Group.transfer]

/-- A branch sends the lanes of EM that its condition picks (R137). -/
theorem branch_transfers {s : State} {c : Ctx} {h : Hint} {off : BitVec 24} {uses : List Use} {sel : Ctx → LaneMask}
    (htarget : targetOk (c.cl.target off) = true) (hissues : Issues s c uses none) :
    ∃ t g, branch h off uses sel s = .next t ∧ Transferred s c off (sel c) t g ∧ g.s = c.g.s := by
  obtain ⟨g, hmoved, hs⟩ := transferred_of_put hissues.1 off (sel := sel c) rfl c.g.s (c.g.settleFps (uses.any Use.readsFps) 0).fps
    (branchPref h c (sel c &&& c.em) (c.cl.target off) c.g.pref) (some (hinted h c.cl (c.cl.target off)))
  refine ⟨_, g, ?_, hmoved, hs⟩
  unfold branch issueTerminal
  refine issueWith_ok hissues rfl ?_
  exact checkTargets_ok fun _ _ _ => htarget

/-- call sends the lanes of EM and links the address after the clause (R137). -/
theorem call_transfers {s : State} {c : Ctx} (link : BitVec 5) (h : Hint) {off : BitVec 24}
    (htarget : targetOk (c.cl.target off) = true) (hissues : Issues s c [] none) :
    ∃ t g, exec (.call link h off) s = .next t ∧ Transferred s c off c.em t g ∧ g.sget link.toNat = c.cl.fall ∧
      ∀ n, n ≠ link.toNat → g.sget n = c.g.sget n := by
  obtain ⟨g, hmoved, hs⟩ := transferred_of_put hissues.1 off (BitVec.and_self (x := c.em)).symm
    (c.g.sset link.toNat c.cl.fall).s c.g.fps ((c.g.sset link.toNat c.cl.fall).transfer c.cl c.at_ c.em fun _ => c.cl.target off).pref
    (some (hinted h c.cl (c.cl.target off)))
  have hsget (n : Nat) : g.sget n = if n = link.toNat then c.cl.fall else c.g.sget n :=
    (congrArg (NMap.get 0 · n) hs).trans (Group.sget_sset ..)
  refine ⟨_, g, ?_, hmoved, (hsget _).trans (if_pos rfl), fun n hn => (hsget n).trans (if_neg hn)⟩
  rw [exec_call, execCall, issueTerminal]
  refine issueWith_ok hissues rfl ?_
  exact checkTargets_ok fun _ _ _ => htarget

/-- Settles O54: bra, brc and bru are branches with a mask each (`branch_transfers`), call is `call_transfers`. -/
theorem branchedLanes : Obligations.BranchedLanes := by
  intro cond ucond h off link s c moved htarget
  refine ⟨fun hissues => ?_, fun hissues => ?_, fun hissues => ?_, call_transfers link h htarget⟩
  · exact branch_transfers (sel := Ctx.em) htarget hissues
  · exact branch_transfers (sel := brcLanes cond) htarget hissues
  · obtain ⟨t, g, hexec, hmoved, hs⟩ := branch_transfers (h := h)
      (sel := fun c => if bruTaken ucond c then c.em else 0) htarget hissues
    refine ⟨t, g, hexec, hs, fun htaken => ?_, fun hnot => ?_⟩
    · rwa [if_pos htaken] at hmoved
    · rwa [if_neg (by simp [hnot])] at hmoved

end Sys2Proof.Machine

/-! Compares, logic, shifts, bit fields and moves (O2). -/

namespace Sys2Proof.Machine

-- Compares

/-- A condition of icmp on two sources of a type, as its table states it (R78). -/
def Ctx.icond (c : Ctx) (t : IType) (cond : ICond) (a b : Operand) (l : Nat) : Bool :=
  match cond with
  | .eq => decide (c.int t a l = c.int t b l)
  | .ne => !decide (c.int t a l = c.int t b l)
  | .lt => decide (c.int t a l < c.int t b l)
  | .le => decide (c.int t a l ≤ c.int t b l)
  | .gt => decide (c.int t a l > c.int t b l)
  | .ge => decide (c.int t a l ≥ c.int t b l)
  | .tst => !decide (c.code t a l &&& c.code t b l = 0)
  | .ntst => decide (c.code t a l &&& c.code t b l = 0)

/-- The model's condition on the sources' codes is the one on their integers. -/
theorem condHolds_eq_icond (c : Ctx) (t : IType) (cond : ICond) (a b : Operand) (l : Nat) :
    condHolds cond t (c.g.readType c.rank t a l) (c.g.readType c.rank t b l) = c.icond t cond a b l := by
  cases cond <;> rfl

/-- icmp (R78): the conditions raise no flag. -/
theorem integerCompare : Claims.IntegerCompare := by
  intro t cond a b tl
  have hcompletes := completes_of_aluCm (f := fun c l => (c.icond t cond a b l, 0)) (exec_icmp t cond a b tl)
    fun c l => congrArg (·, 0) (condHolds_eq_icond c t cond a b l)
  simp only [flagsOver_zero] at hcompletes
  exact hcompletes

-- Logic

/-- Logic (R79): each result is a function of the codes. -/
theorem logic : Claims.Logic := by
  intro t d a b tl
  exact ⟨givesInt_of_aluInt (exec_and t d a b tl) fun _ _ => rfl, givesInt_of_aluInt (exec_or t d a b tl) fun _ _ => rfl,
    givesInt_of_aluInt (exec_xor t d a b tl) fun _ _ => rfl, givesInt_of_aluInt (exec_not t d a tl) fun _ _ => rfl,
    givesInt_of_aluInt (exec_andn t d a b tl) fun _ _ => rfl⟩

-- Shifts

section
variable {w : Nat} (x : BitVec w) (n : Nat)

/-- A product by a power of two, wrapped, is a left shift. -/
theorem ofNat_mul_two_pow : BitVec.ofNat w (x.toNat * 2 ^ n % 2 ^ w) = x <<< n := by
  apply BitVec.eq_of_toNat_eq
  simp [Nat.shiftLeft_eq]

/-- A quotient by a power of two is a right shift. -/
theorem ofNat_div_two_pow : BitVec.ofNat w (x.toNat / 2 ^ n) = x >>> n := by
  apply BitVec.eq_of_toNat_eq
  rw [BitVec.toNat_ofNat, BitVec.toNat_ushiftRight, Nat.shiftRight_eq_div_pow]
  exact Nat.mod_eq_of_lt (Nat.lt_of_le_of_lt (Nat.div_le_self ..) x.isLt)

/-- The wrapped code of an integer is its bit vector. -/
theorem ofNat_wrapNat (v : Int) : BitVec.ofNat w (wrapNat w v) = BitVec.ofInt w v := by
  apply BitVec.eq_of_toNat_eq
  rw [BitVec.toNat_ofNat, BitVec.toNat_ofInt, wrapNat, Nat.cast_pow, Nat.cast_ofNat]
  have hpos : (0 : Int) < 2 ^ w := by positivity
  exact Nat.mod_eq_of_lt ((Int.toNat_lt (Int.emod_nonneg v hpos.ne')).2 (mod_cast Int.emod_lt_of_pos v hpos))

/-- A quotient of the signed value, rounded down, is an arithmetic right shift. -/
theorem ofNat_wrapNat_div : BitVec.ofNat w (wrapNat w (intOf true w x.toNat / 2 ^ n)) = x.sshiftRight n := by
  rw [ofNat_wrapNat, intOf_toNat, BitVec.sshiftRight, Int.shiftRight_eq_div_pow, Nat.cast_pow, Nat.cast_ofNat]

/-- The bits shifted out at the top, added below those that stay, are a rotation. -/
theorem ofNat_rotated (hw : 0 < w) :
    BitVec.ofNat w (x.toNat * 2 ^ (n % w) % 2 ^ w + x.toNat / 2 ^ (w - n % w)) = x.rotateLeft n := by
  have hm : n % w < w := Nat.mod_lt n hw
  generalize hdef : n % w = m at hm
  have hsplit : 2 ^ w = 2 ^ m * 2 ^ (w - m) := by rw [← pow_add, Nat.add_sub_cancel' hm.le]
  have hkept : x.toNat * 2 ^ m % 2 ^ w = 2 ^ m * (x.toNat % 2 ^ (w - m)) := by
    rw [hsplit, Nat.mul_comm x.toNat, Nat.mul_mod_mul_left]
  have hout : x.toNat / 2 ^ (w - m) < 2 ^ m := by
    apply Nat.div_lt_of_lt_mul
    rw [Nat.mul_comm, ← hsplit]
    exact x.isLt
  have hor : x.toNat * 2 ^ m % 2 ^ w + x.toNat / 2 ^ (w - m) = x.toNat * 2 ^ m % 2 ^ w ||| x.toNat / 2 ^ (w - m) := by
    rw [hkept, Nat.two_pow_add_eq_or_of_lt hout]
  have hsmall : x.toNat / 2 ^ (w - m) < 2 ^ w := hout.trans (Nat.pow_lt_pow_right Nat.one_lt_two hm)
  apply BitVec.eq_of_toNat_eq
  rw [BitVec.toNat_rotateLeft, BitVec.toNat_ofNat, hdef, Nat.shiftLeft_eq, Nat.shiftRight_eq_div_pow, hor]
  exact Nat.mod_eq_of_lt (Nat.or_lt_two_pow (Nat.mod_lt _ (by positivity)) hsmall)

end

section
variable {i : Instr} {d : Dest} {a b : Operand} {tl : Tail} {f : Nat → Nat → Nat}

/-- A 32-bit shift gives a function of its sources' bits (R79). -/
theorem gives32_of_aluShift (h : W32 → Nat → W32) (he : ∀ s, exec i s = aluShift .i32 d a b tl f s)
    (hf : ∀ (x : W32) n, BitVec.ofNat 32 (f x.toNat n) = h x n) :
    Gives32 i [.src a, .src b] d tl true fun c l => (h (c.bits32 a l) (c.bits32 b l).toNat, 0) := by
  refine gives32_of_alu32 (h := fun g k l =>
    (BitVec.ofNat 32 (f (g.readType k .i32 a l) (g.read32 k .word b l).toNat), 0)) he fun c l => ?_
  have hcode : c.g.readType c.rank .i32 a l = (c.bits32 a l).toNat := Nat.mod_eq_of_lt (c.bits32 a l).isLt
  rw [hcode, hf]
  rfl

/-- The same at 64 bits. -/
theorem gives64_of_aluShift (h : W64 → Nat → W64) (he : ∀ s, exec i s = aluShift .i64 d a b tl f s)
    (hf : ∀ (x : W64) n, BitVec.ofNat 64 (f x.toNat n) = h x n) :
    Gives64 i [.src64 a, .src b] d tl fun c l => (h (c.bits64 a l) (c.bits32 b l).toNat, 0) :=
  gives64_of_alu64 (h := fun g k l =>
    (BitVec.ofNat 64 (f (g.readType k .i64 a l) (g.read32 k .word b l).toNat), 0)) he
    fun c l => congrArg (·, 0) (hf (c.bits64 a l) (c.bits32 b l).toNat)

end

/-- Shifts and rotates (R79): each is the library's, at either width. -/
theorem shifts : Claims.Shifts := by
  intro d a b tl
  exact ⟨gives32_of_aluShift (fun x n => x <<< (n % 128)) (exec_shl .i32 d a b tl) fun x n => ofNat_mul_two_pow x (n % 128),
    gives64_of_aluShift (fun x n => x <<< (n % 128)) (exec_shl .i64 d a b tl) fun x n => ofNat_mul_two_pow x (n % 128),
    gives32_of_aluShift (fun x n => x >>> (n % 128)) (exec_shr .i32 d a b tl) fun x n => ofNat_div_two_pow x (n % 128),
    gives64_of_aluShift (fun x n => x >>> (n % 128)) (exec_shr .i64 d a b tl) fun x n => ofNat_div_two_pow x (n % 128),
    gives32_of_aluShift (fun x n => x.sshiftRight (n % 128)) (exec_sar .i32 d a b tl) fun x n => ofNat_wrapNat_div x (n % 128),
    gives64_of_aluShift (fun x n => x.sshiftRight (n % 128)) (exec_sar .i64 d a b tl) fun x n => ofNat_wrapNat_div x (n % 128),
    gives32_of_aluShift (fun x n => x.rotateLeft n) (exec_rot .i32 d a b tl) fun x n => ofNat_rotated x n (by decide),
    gives64_of_aluShift (fun x n => x.rotateLeft n) (exec_rot .i64 d a b tl) fun x n => ofNat_rotated x n (by decide)⟩

-- Bit fields and moves

/-- A bit count gives a 32-bit function of its source's code (R79). -/
theorem gives32_of_aluCount {i : Instr} {t : IType} {d : Dest} {a : Operand} {tl : Tail} (f : Nat → Nat)
    (he : ∀ s, exec i s = aluCount t d a tl f s) :
    Gives32 i [useOf t a] d tl (t == .i32) fun c l => (BitVec.ofNat 32 (f (c.code t a l)), 0) :=
  gives32_of_alu32 he fun _ _ => rfl

/-- Bit counts, reversal and the field instructions (R79 to R81): functions of the sources' bits. -/
theorem bitFields : Claims.BitFields := by
  intro t d a b x tl
  exact ⟨gives32_of_aluCount (fun x => popCount x t.width) (exec_popc t d a tl),
    gives32_of_aluCount (fun x => trailingZeros (reverseBits x t.width) t.width) (exec_clz t d a tl),
    gives32_of_aluCount (fun x => trailingZeros x t.width) (exec_ctz t d a tl),
    givesInt_of_aluInt (exec_brev t d a tl) fun _ _ => rfl, gives32_of_alu32 (exec_bfx t d a b x tl) fun _ _ => rfl,
    gives32_of_alu32 (exec_bfi d a b x tl) fun _ _ => rfl, gives32_of_alu32 (exec_perm8 d a b x tl) fun _ _ => rfl⟩

/-- The model's reading of a signed or an unsigned word is the library's (R71). -/
theorem intOf_eq {w : Nat} (signed : Bool) (x : BitVec w) : intOf signed w x.toNat = if signed then x.toInt else x.toNat := by
  cases signed with
  | true => exact intOf_toNat x
  | false => exact congrArg Nat.cast (Nat.mod_eq_of_lt x.isLt)

/-- Moves and constants (R82, R83). -/
theorem moves : Claims.Moves := by
  intro t d a b imm tl
  exact ⟨givesInt_of_aluInt (exec_sel t d a b tl) fun _ _ => rfl, givesInt_of_aluInt (exec_mov t d a tl) fun _ _ => rfl,
    givesInt_of_aluInt (exec_movi t d imm tl) fun _ _ => congrArg (wrapNat t.width) (intOf_eq t.signed imm),
    givesInt_of_aluInt (exec_lit t d a imm tl) fun _ _ => rfl⟩

/-- Settles O2: each instruction is one of the shared integer forms, and each form gives its function of the operands. -/
theorem logicResults : Obligations.LogicResults :=
  ⟨integerCompare, logic, shifts, bitFields, moves⟩

end Sys2Proof.Machine

/-! Decoding undoes encoding (O58). -/

namespace Sys2Proof.Laws.RoundTrip

/-- The decoder undoes the encoder on every word: each program word by its own lemma; the rows of events have no word. -/
theorem statement_all (i : Instr) : Statement i := by
  cases i with
  | iadd => apply iadd | isub => apply isub | imul => apply imul | imulhi => apply imulhi | imad => apply imad
  | idiv => apply idiv | irem => apply irem | ineg => apply ineg | iabs => apply iabs | imin => apply imin
  | imax => apply imax | iaddsat => apply iaddsat | isubsat => apply isubsat | iclamp => apply iclamp | add64 => apply add64
  | lea => apply lea | dot4 => apply dot4 | icmp => apply icmp | and => apply and | or => apply or | xor => apply xor
  | not => apply not | andn => apply andn | shl => apply shl | shr => apply shr | sar => apply sar | rot => apply rot
  | popc => apply popc | clz => apply clz | ctz => apply ctz | brev => apply brev | bfx => apply bfx | bfi => apply bfi
  | perm8 => apply perm8 | sel => apply sel | mov => apply mov | movi => apply movi | lit => apply lit | fadd => apply fadd
  | fsub => apply fsub | fmul => apply fmul | ffma => apply ffma | fmin => apply fmin | fmax => apply fmax
  | fcmp => apply fcmp | fclass => apply fclass | frcp => apply frcp | frsq => apply frsq | fsqrt => apply fsqrt
  | fdiv => apply fdiv | fexp2 => apply fexp2 | flog2 => apply flog2 | fsinpi => apply fsinpi | fcospi => apply fcospi
  | ftanh => apply ftanh | frnd => apply frnd | ffrac => apply ffrac | fldexp => apply fldexp | fgetexp => apply fgetexp
  | fgetmant => apply fgetmant | hadd2 => apply hadd2 | hmul2 => apply hmul2 | hfma2 => apply hfma2 | fdot2 => apply fdot2
  | fabs => apply fabs | fneg => apply fneg | fclamp => apply fclamp | cvtToInteger => apply cvtToInteger
  | cvtToFloat => apply cvtToFloat | pk => apply pk | unpk => apply unpk | scaleq => apply scaleq | mtest => apply mtest
  | mbits => apply mbits | mfold => apply mfold | scan => apply scan | lperm => apply lperm | mpeers => apply mpeers
  | mlow => apply mlow | lsync => apply lsync | twld => apply twld | twst => apply twst | tdec => apply tdec
  | tdec2 => apply tdec2 | ensave => apply ensave | enrest => apply enrest | enand => apply enand | enor => apply enor
  | enandn => apply enandn | cmget => apply cmget | cmset => apply cmset | setab => apply setab | setrt => apply setrt
  | bra => apply bra | brc => apply brc | bru => apply bru | call => apply call | ret => apply ret | jmpi => apply jmpi
  | calli => apply calli | loop => apply loop | spawn => apply spawn | trap => apply trap | brk => apply brk
  | sleep => apply sleep | ld => apply ld | st => apply st | ldsc => apply ldsc | ldp => apply ldp | stp => apply stp
  | prefetch => apply prefetch | cwb => apply cwb | cinv => apply cinv | aconv => apply aconv | aclass => apply aclass
  | atom => apply atom | atomCas => apply atomCas | fatom => apply fatom | ctrAdd => apply ctrAdd | ctrWait => apply ctrWait
  | ctrRd => apply ctrRd | phase => apply phase | phaseP => apply phaseP | phaseS => apply phaseS | lfence => apply lfence
  | sign => apply sign | mma => apply mma | mmas => apply mmas | mmt => apply mmt | mzero => apply mzero | mld => apply mld
  | mrd => apply mrd | mdrain => apply mdrain | mdraint => apply mdraint | mchk => apply mchk | mstat => apply mstat
  | mrel => apply mrel | attr => apply attr | vbld => apply vbld | prim => apply prim | sample => apply sample
  | sampleg => apply sampleg | texld => apply texld | hit => apply hit | tretNext => apply tretNext
  | tretDone => apply tretDone | covw => apply covw | xpushXc => apply xpushXc | xpushXe => apply xpushXe
  | xpushXt => apply xpushXt | xpopXt => apply xpopXt | xpopXe => apply xpopXe | xpopXm => apply xpopXm
  | xstat => apply xstat | csrr => apply csrr | csrw => apply csrw | syscNote => apply syscNote | syscKill => apply syscKill
  | dbgr => apply dbgr | dbgw => apply dbgw | iinv => apply iinv | exit => apply exit | rtt => apply rtt
  | halt => apply halt | yield => apply yield | nop => apply nop
  | _ => exact of_event rfl

/-- Settles O58: each program word's own lemma, gathered over the constructors. -/
theorem encodingRoundTrip : Obligations.EncodingRoundTrip :=
  fun i w hwf hw => statement_all i hwf w hw

end Sys2Proof.Laws.RoundTrip

/-! Words that the spec writes out (O57). -/

namespace Sys2Proof

/-- Settles O57: each word and its instruction are closed terms, and the decoder computes one from the other. -/
theorem decodedWords : Obligations.DecodedWords := by
  unfold Obligations.DecodedWords
  decide

end Sys2Proof

/-! Every instruction answers (O56). -/

namespace Sys2Proof.Machine

/-- From a state, either a next state, or the fault of a program word that has no group at hand. -/
def Answered (s : State) (r : Result) : Prop :=
  (∃ t, r = .next t) ∨ (r = .fault .noIssuingGroup ∧ s.ctx? = none)

/-- Either of two answers is an answer. -/
theorem Answered.ite {p : Prop} [Decidable p] {s : State} {r q : Result} (hr : Answered s r) (hq : Answered s q) :
    Answered s (if p then r else q) := by
  split
  · exact hr
  · exact hq

/-- The frame of an instruction answers, whatever the body does: a trap, a stall and a stop are next states too. -/
theorem answered_issueWith (pre : Ctx → Bool) (uses : List Use) (tl : Tail) (body : Ctx → State → Effect)
    (finish : Ctx → State → State) (s : State) : Answered s (issueWith pre uses tl body finish s) := by
  obtain ⟨hctx, hfault⟩ | ⟨c, -, hstall | ⟨t, htrap⟩ | ⟨s', ⟨-, hstop⟩ | ⟨-, hok⟩⟩⟩ :=
    issueWith_cases pre uses tl body finish s
  · exact .inr ⟨hfault, hctx⟩
  · exact .inl ⟨_, hstall⟩
  · exact .inl ⟨_, htrap⟩
  · exact .inl ⟨_, hstop⟩
  · exact .inl ⟨_, hok⟩

theorem answered_issue (uses : List Use) (tl : Tail) (body : Ctx → State → Effect) (s : State) :
    Answered s (issue uses tl body s) :=
  answered_issueWith _ _ _ _ _ s

theorem answered_issueAsync (pre : Ctx → Bool) (uses : List Use) (tl : Tail) (body : Ctx → State → Effect) (s : State) :
    Answered s (issueAsync pre uses tl body s) :=
  answered_issueWith _ _ _ _ _ s

theorem answered_issueMember (m : MaskOp) (uses : List Use) (tl : Tail) (body : Ctx → State → Effect) (s : State) :
    Answered s (issueMember m uses tl body s) := by
  unfold issueMember issueIf
  apply answered_issueWith

/-- An integer instruction answers at either width of its type. -/
theorem answered_aluInt (t : IType) (srcs : List Operand) (d : Dest) (tl : Tail) (f : Group → Nat → Nat → Nat) (s : State) :
    Answered s (aluInt t srcs d tl f s) := by
  apply Answered.ite <;> apply answered_issueWith

/-- A shift answers at either width of its type. -/
theorem answered_aluShift (t : IType) (d : Dest) (a b : Operand) (tl : Tail) (f : Nat → Nat → Nat) (s : State) :
    Answered s (aluShift t d a b tl f s) := by
  apply Answered.ite <;> apply answered_issueWith

/-- brk enters the debug handler where there is one, and is a word without effect elsewhere (R142). -/
theorem answered_brk (code : BitVec 6) (s : State) : Answered s (execBrk code s) := by
  unfold execBrk
  cases hctx : s.ctx? with
  | none => exact .inr ⟨rfl, hctx⟩
  | some c => exact .ite (.inl ⟨_, rfl⟩) (answered_issueWith ..)

/-- Every instruction answers: the words through the shared frame, and the events, which are next states as they are
written. -/
theorem answered_exec (i : Instr) (s : State) : Answered s (exec i s) := by
  cases i with
  | iadd | isub | imul | imulhi | imad | idiv | irem | ineg | iabs | imin | imax | iaddsat | isubsat | iclamp | and | or |
  xor | not | andn | brev | sel | mov | movi | lit =>
    apply answered_aluInt
  | shl | shr | sar | rot =>
    simp only [exec_shl, exec_shr, exec_sar, exec_rot]
    apply answered_aluShift
  | cvtToInteger => apply Answered.ite <;> apply answered_issueWith
  | brk code => exact answered_brk code s
  | add64 | lea | dot4 | icmp | popc | clz | ctz | bfx | bfi | perm8 | fadd | fsub | fmul | ffma | fmin | fmax | fcmp |
  fclass | frcp | frsq | fsqrt | fdiv | fexp2 | flog2 | fsinpi | fcospi | ftanh | frnd | ffrac | fldexp | fgetexp |
  fgetmant | hadd2 | hmul2 | hfma2 | fdot2 | fabs | fneg | fclamp | cvtToFloat | pk | unpk | twld | twst | tdec | tdec2 |
  enrest | enand | enor | enandn | cmget | cmset | setab | bra | brc | bru | call | ret | jmpi | calli | loop | spawn |
  trap | ld | st | ldsc | ldp | stp | prefetch | cwb | cinv | aconv | aclass | atom | atomCas | fatom | ctrAdd | ctrWait |
  ctrRd | sign | mma | mmas | mmt | mzero | mld | mrd | mdrain | mdraint | mchk | mstat | mrel | attr | vbld | prim |
  sample | sampleg | texld | hit | tretNext | tretDone | covw | xpushXc | xpushXe | xpushXt | xpopXt | xpopXe | xpopXm |
  csrr | csrw | syscNote | syscKill | dbgr | dbgw | iinv | exit | rtt | halt =>
    apply answered_issueWith
  | ensave | setrt | sleep | xstat | yield | nop | illegalOpcode | phaseS =>
    simp only [exec_ensave, exec_setrt, exec_sleep, exec_xstat, exec_yield, exec_nop, exec_illegalOpcode, exec_phaseS]
    apply answered_issue
  | phase | phaseP | lfence =>
    simp only [exec_phase, exec_phaseP, exec_lfence]
    apply answered_issueAsync
  | scaleq | mtest | mbits | mfold | scan | lperm | mpeers | mlow | lsync =>
    simp only [exec_scaleq, exec_mtest, exec_mbits, exec_mfold, exec_scan, exec_lperm, exec_mpeers, exec_mlow, exec_lsync]
    apply answered_issueMember
  | _ => exact .inl ⟨_, rfl⟩

/-- A fold whose steps keep the groups keeps them. -/
theorem foldl_groups {α : Type} {f : State → α → State} (h : ∀ s a, (f s a).groups = s.groups) (as : List α) :
    ∀ s : State, (as.foldl f s).groups = s.groups := by
  induction as with
  | nil => exact fun _ => rfl
  | cons a as ih => exact fun s => (ih (f s a)).trans (h s a)

theorem State.fillUnit_groups (s : State) (u : Nat) (e : TlbEntry) : (s.fillUnit u e).groups = s.groups := by
  unfold State.fillUnit
  split
  · exact s.modCore_groups ..
  · rfl

/-- Filling a TLB leaves the groups as they are. -/
theorem State.fillTlb_groups (s : State) (core asn root va : Nat) : (s.fillTlb core asn root va).groups = s.groups := by
  have hwalk (as : List Nat) (s : State) :=
    foldl_groups (fun s a => State.l2See_groups s a 8 false (7, if core < 8192 then core % 512 else 0) (unitDie core)) as s
  unfold State.fillTlb
  split
  · rfl
  · unfold State.leaf
    split
    · rfl
    · split
      · exact s.fillUnit_groups ..
      · dsimp only
        split
        · exact hwalk ..
        · rw [State.modDie_groups, State.fillUnit_groups, hwalk]

/-- Fetching a word leaves the groups as they are. -/
theorem State.afterFetch_groups (s : State) (core n : Nat) (va : W64) : (s.afterFetch core n va).groups = s.groups := by
  unfold State.afterFetch
  split
  · split
    · rfl
    · simp [State.fillTlb_groups]
  · rfl

/-- A state in which a group with a clause in progress has the turn has an issuing group. -/
theorem State.ctx?_ne_none {s : State} {gid : Nat} {g : Group} {cl : Clause} (hcur : s.cur = some gid)
    (hg : s.group? gid = some g) (hcl : g.clause = some cl) : s.ctx? ≠ none := by
  simp [State.ctx?, hcur, hg, hcl]

/-- A turn issues only for a group with a clause in progress, and leaves it at hand. -/
theorem State.ctx?_of_turn {s s1 : State} {gid : Nat} {i : Instr} (h : s.turn gid = .issue i s1) : s1.ctx? ≠ none := by
  unfold State.turn at h
  split at h
  · cases h
  · next g hg =>
    split at h
    · cases h
    · next cl hcl =>
      dsimp only at h
      split at h
      · cases h
      · split at h
        · cases h
          exact State.ctx?_ne_none rfl hg hcl
        · cases h
        · split at h
          · cases h
          · split at h
            · cases h
            · cases h
              exact State.ctx?_ne_none rfl (by simpa only [State.group?, State.afterFetch_groups] using hg) hcl

/-- Settles O56: `answered_exec`, and a turn that issues has a group at hand, so that the fault is ruled out. -/
theorem everyInstructionAnswers : Obligations.EveryInstructionAnswers := by
  refine ⟨fun i s => answered_exec i s, fun s gid => ?_⟩
  cases hturn : s.turn gid with
  | done s1 => exact ⟨s1, State.runMove_done hturn⟩
  | issue i s1 =>
    rw [State.runMove_issue hturn]
    exact (answered_exec i s1).resolve_right fun hfault => State.ctx?_of_turn hturn hfault.2

end Sys2Proof.Machine

/-! Direct and indirect transfers (O10). -/

namespace Sys2Proof.Machine

/-- A direct branch completes where the target of the lanes that it sends is valid (R134, R135, R137). -/
theorem completesTerminal_branch {i : Instr} {h : Hint} {off : BitVec 24} {uses : List Use} {sel : Ctx → LaneMask}
    (he : ∀ s, exec i s = branch h off uses sel s) :
    CompletesTerminal i uses (fun c _ => TargetsOk (sel c &&& c.em) fun _ => c.cl.target off) fun c s =>
      s.put c { (c.g.settleFps (uses.any Use.readsFps) 0).transfer c.cl c.at_ (sel c &&& c.em) (fun _ => c.cl.target off) with
        pref := branchPref h c (sel c &&& c.em) (c.cl.target off) c.g.pref,
        hint := some (hinted h c.cl (c.cl.target off)) } :=
  completesTerminal_of_body he (fun _ _ _ => rfl) fun _ _ => checkTargets_ok

/-- bra, brc and bru are branches with a mask each; call checks and sends the lanes of EM itself. -/
theorem branches : Claims.Branches := by
  intro cond ucond h off link
  refine ⟨?_, ?_, ?_, ?_⟩
  · exact completesTerminal_branch (sel := Ctx.em) (exec_bra h off)
  · exact completesTerminal_branch (sel := brcLanes cond) (exec_brc cond h off)
  · exact completesTerminal_branch (sel := fun c => if bruTaken ucond c then c.em else 0) (exec_bru ucond h off)
  · exact completesTerminal_of_body (exec_call link h off) (fun _ _ _ => rfl) fun _ _ hfits =>
      checkTargets_ok fun l hl hem => hfits l hl (by rwa [BitVec.and_self])

/-- ret and jmpi are one transfer; calli sends its lanes to what it read before it linked (R138). -/
theorem indirectTransfers : Claims.IndirectTransfers := by
  intro a r v
  refine ⟨?_, ?_, ?_, ?_⟩
  · exact completesTerminal_of_body (exec_ret a) (fun _ _ _ => rfl) fun _ _ => checkTargets_ok
  · exact completesTerminal_of_body (exec_jmpi a) (fun _ _ _ => rfl) fun _ _ => checkTargets_ok
  · exact completesTerminal_of_body (exec_calli (.s r) a) (fun _ _ _ => rfl) fun _ _ => checkTargets_ok
  · exact completesTerminal_of_body (exec_calli (.v v) a) (fun _ _ _ => rfl) fun _ _ => checkTargets_ok

/-- Settles O10: each transfer's body takes effect once its targets pass the check (`checkTargets_ok`). -/
theorem controlTransfers : Obligations.ControlTransfers :=
  ⟨branches, indirectTransfers⟩

end Sys2Proof.Machine

/-! Completions, groups that leave and start, requests in flight (O27). -/

namespace Sys2Proof.Machine

-- Spawned groups

/-- Coverage threads change a group's V registers and candidates alone (R233). -/
theorem Group.coverage_identity (cov : Nat → Option (W32 × Nat)) (ls : List Nat) :
    ∀ g : Group, (g.coverage cov ls).blk = g.blk ∧ (g.coverage cov ls).gix = g.gix ∧ (g.coverage cov ls).live = g.live := by
  induction ls with
  | nil => exact fun g => ⟨rfl, rfl, rfl⟩
  | cons l ls ih =>
    intro g
    unfold Group.coverage
    cases cov l with
    | none => exact ih g
    | some e => exact ih _

/-- A report leaves the groups as they are. -/
theorem State.recordFree_groups (s : State) (die type : Nat) (ws : List W64) : (s.recordFree die type ws).groups = s.groups := by
  unfold State.recordFree State.record
  obtain h | ⟨f, h⟩ := s.recordAt_cases die type ((List.range 7).map fun i => Config.recordWord type ws i) [] <;> simp [h]

/-- A bin that starts is the group of its slot: its block's, numbered by the slot, with a live lane for each thread (R152, R153). -/
theorem State.group?_startSpawned (s : State) (b : Bin) (x : Block) (la : Launch) (k : Nat) :
    ∃ g', (s.startSpawned b x la k).group? (x.core * 48 + x.slots.getD (x.ngroups + k) 0) = some g' ∧
      g'.blk = b.blk ∧ g'.gix = x.ngroups + k ∧ g'.live = (maskOf fun l => decide (l < b.threads.length)) ∧
      g'.spawnHeld = b.threads.length := by
  unfold State.startSpawned
  extract_lets slot tag cnt th g0 ls g1 g2 g3 s1
  have hgroup : (s1.group? (x.core * 48 + slot)) = some g3 := by
    rw [State.group?_setGroup, if_pos rfl]
  obtain ⟨hblk, hgix, hlive⟩ := g1.coverage_identity (fun l => (th l).cov) ls
  refine ⟨g3, ?_, hblk.trans ?_, hgix.trans ?_, hlive.trans ?_, rfl⟩
  · split
    · simpa only [State.group?, State.recordFree_groups] using hgroup
    · exact hgroup
  all_goals simp [g1, g0, newGroup, cnt]

/-- A bin of a block that takes it, with a free slot, starts (R152, R156). -/
theorem State.trySpawned_starts {s : State} {b : Bin} {x : Block} {la : Launch} {k : Nat} (drop : State → State)
    (hblock : s.block? b.blk = some x) (hkept : x.evicting = false ∨ x.starting = true) (hsaved : x.saved = false)
    (hslot : s.freeSpawnSlot x = some k) (hlaunch : s.launch? x.launch = some la) :
    s.trySpawned b drop = (drop s).startSpawned b x la k := by
  have htakes : (x.evicting && !x.starting) = false := by
    obtain h | h := hkept <;> simp [h]
  simp [State.trySpawned, hblock, htakes, hsaved, hslot, hlaunch]

/-- The oldest closed bin of its block, or the first that the block's eviction saved, is the one that starts (R152, R156). -/
theorem spawnedGroupStart_tries {s : State} {core bin : Nat} {b : Bin} {x : Block} (hblock : s.block? b.blk = some x)
    (hnext : bin < 16 ∧ ((s.core core).bins.find? fun e => e.1 == bin) = some (bin, b) ∧ x.unstarted = [] ∧
          firstClosed s.now (s.core core).bins b.blk = some bin ∨
        16 ≤ bin ∧ b.blk = bin - 16 ∧ x.core = core ∧ x.unstarted.head? = some b) :
    ∃ drop, exec (.spawnedGroupStart core bin) s = .next (s.trySpawned b drop) := by
  rw [exec_spawnedGroupStart, execSpawnedGroupStart]
  obtain ⟨hbin, hfind, hnone, hfirst⟩ | ⟨hbin, hblk, hcore, hhead⟩ := hnext
  · exact ⟨_, by simp [hbin, hfind, hfirst, hblock, hnone]; rfl⟩
  · obtain ⟨rest, hrest⟩ := List.head?_eq_some_iff.1 hhead
    rw [hblk] at hblock
    exact ⟨_, by simp [show ¬ bin < 16 by omega, hblock, hcore, hrest]; rfl⟩

/-- The ends of operations and groups, and what starts in their place (R66, R131, R151, R152). -/
theorem completions : Claims.Completions := by
  intro s op gid core bin k a g b x la
  refine ⟨fun hfind hready => ?_, fun hgroup hdrains hslots hreads => ?_, fun hfind hopen hold => ?_,
    fun hblock hkept hsaved hslot hlaunch hnext => ?_⟩
  · simp [execAsyncComplete, hfind, hready, State.landSome]
  · simp [execExitDrainingEnd, hgroup, hdrains, hslots, hreads]
  · simp [execBinTimeExpiry, hfind, hopen, hold]
  · obtain ⟨drop, hexec⟩ := spawnedGroupStart_tries hblock hnext
    obtain ⟨g', hg'⟩ := State.group?_startSpawned (drop s) b x la k
    exact ⟨_, g', by rw [hexec, State.trySpawned_starts drop hblock hkept hsaved hslot hlaunch], hg'⟩

-- Requests in flight

/-- Each request is performed by the event of its kind and of its array, and no other holds it (R171, R184, R279, R380, R383). -/
theorem requestsInFlight : Claims.RequestsInFlight := by
  intro s gid req wb t r w a x
  refine ⟨fun hfind hready => ?_, fun hreq hown hnear hcounter hready => ?_, fun hreq hown hfar hcounter hready => ?_,
    fun hreq hcounter hready => ?_, fun hreq harrived hready => ?_, fun hreq harrived hhead hlate hready => ?_,
    fun hreq hfind harrived hlate hheld => ?_, rfl, fun hfind hup hahead hroute => ?_⟩
  · simp [execTileAccessPerformed, hfind, hready]
  · have hhere : (decide (64 ≤ r.arr) && decide (r.arr < 2 ^ 20)) = false := by
      rwa [← Bool.decide_and, decide_eq_false_iff_not]
    simp only [exec_atomicAtHome, execAtomicAtHome, hreq, hown, hhere, hcounter, hready, Bool.not_false, Bool.and_self, if_true]
  · obtain ⟨hlow, hhigh⟩ := hfar
    simp only [exec_remoteAccess, execRemoteAccess, hreq, hown, hlow, hhigh, hcounter, hready, decide_true, Bool.not_false,
      Bool.and_self, if_true]
  · simp [execCounterAdditionAtHome, hreq, hcounter, hready]
  · simp [execOrderGate, hreq, harrived, hready]
  · obtain ⟨rest, hrest⟩ := List.head?_eq_some_iff.1 hhead
    simp only [exec_gateTimeout, execGateTimeout, hreq, harrived, hrest, hready, Nat.not_le.2 hlate, decide_false, Bool.not_true,
      Bool.or_self, Bool.false_eq_true, if_false]
  · simp only [exec_gateTimeout, execGateTimeout, State.gateWait, hreq, hfind, harrived, hheld, Nat.not_le.2 hlate, decide_false,
      Bool.or_self, Bool.false_eq_true, if_false]
  · have hready : s.wbReady w = true := by
      simp only [State.wbReady, hup, Bool.not_false, Bool.true_and, Bool.and_eq_true, Bool.or_eq_true, List.all_eq_true, beq_iff_eq,
        Bool.not_eq_true', bne_iff_ne, decide_eq_true_eq, List.isEmpty_iff, Option.isSome_iff_ne_none]
      refine ⟨hahead, hroute.imp_right fun hfree y hy => ?_⟩
      simpa only [or_assoc] using hfree y hy
    simp only [exec_writeBackAtHome, execWriteBackAtHome, hfind, hready, if_true]

/-- Settles O27: each event is its arm under the conditions that the arm tests; a bin that starts by
`State.group?_startSpawned`. -/
theorem completionEvents : Obligations.CompletionEvents :=
  ⟨completions, requestsInFlight⟩

end Sys2Proof.Machine

/-! Loads, stores, scalar accesses and plane elements (O14). -/

namespace Sys2Proof.Machine

-- The end of an access

/-- Gathered accesses that leave a byte stall, or leave it as they end (R171). -/
theorem finishAccs_quiet {core b : Nat} {x : Byte} {A : NMap Aperture} {P : ApWrite → Prop} {g : Gather} (h : g.quiet core b x A P)
    (c : Ctx) (v : View) (tl : Tail) (isLoad : Bool) (accs : List (Nat × W64 × Nat)) (hash : Nat → List HashStep) :
    g.finishAccs c v tl isLoad accs hash = .stall ∨
      ∃ t, g.finishAccs c v tl isLoad accs hash = .ok t ∧ ∃ P, Quiet core b x A P t :=
  (h.finishAccs c v tl isLoad accs hash).imp_right fun ⟨t, hok, ht⟩ => ⟨t, hok, P, ht⟩

-- Loads and stores

/-- A load's gathering leaves every byte as it reads (R161, R171). -/
theorem quiet_loads_lanes {core b : Nat} {x : Byte} {A : NMap Aperture} {s : State} (h : Quiet core b x A (fun _ => False) s)
    (c : Ctx) (tl : Tail) (v : View) (hv : v.core = core) (pol : Policy) (dst : Nat → Nat → Nat → Dst)
    (ps : Nat → List (Target × Nat)) (ls : List Nat) :
    (ls.foldl (fun g l => g.loads v pol (dst l) 0 (ps l)) (c.gather s tl)).quiet core b x A fun _ => False :=
  foldl_quiet _ ls (h.gather c tl) fun l _ _ hg => hg.loads v hv pol (dst l) (fun _ => id) (ps l) 0

/-- A store's gathering leaves the bytes that none of its pieces store to. -/
theorem quiet_stores_lanes {core b : Nat} {x : Byte} {A : NMap Aperture} {s s1 : State} (h : Quiet core b x A (fun _ => True) s1)
    (haps : (s.die (dieOf core)).apertures = A) (c : Ctx) (tl : Tail) (v : View) (hv : v.core = core) (pol : Policy)
    (datum : Nat → Nat) (ps : Nat → List (Target × Nat)) (ls : List Nat) (hb : ∀ l ∈ ls, ∀ p ∈ ps l, ¬ s.storesTo core p b) :
    (ls.foldl (fun g l => g.stores v pol (datum l) 0 (ps l)) (c.gather s1 tl)).quiet core b x A fun _ => True :=
  foldl_quiet _ ls (h.gather c tl) fun l hl _ hg => hg.stores v hv pol (datum l) haps (fun _ => trivial) (ps l) 0 (hb l hl)

/-- Loads and stores are of the shared form of accesses (R175, R176). -/
theorem loadsAndStores : Claims.LoadsAndStores := by
  intro wd sx pol d src base index off tl n em addr
  refine ⟨?_, ?_, ?_, ?_⟩
  · exact completesAccess_of (fun _ => id) .load (fun _ _ => 0) rfl (exec_ld wd sx pol d base index off tl)
  · exact completesAccess_of (fun _ => id) .store (fun c l => BitVec.ofNat 32 (c.g.storeDatum src n l)) rfl
      (exec_st wd pol src base index off tl)
  · refine keepsMemory_of_checked (fun _ => False) (fun _ => False) rfl (exec_ld wd sx pol d base index off tl) ?_
    intro c s b x A hcore _ _ hq
    exact quiet_loads_lanes hq c tl _ hcore pol _ _ _
  · refine keepsMemory_of_checked (fun _ => True) (fun _ => True) rfl (exec_st wd pol src base index off tl) ?_
    intro c s b x A hcore hs hq hq1
    exact quiet_stores_lanes hq1 hq.aps c tl _ hcore pol _ _ _ fun l hl p hp hst => hs ⟨l, hl, p, hp, hst⟩

-- Scalar loads and windows

/-- An access of a window that nothing keeps stalls, or leaves a byte as its gathering does (R113). -/
theorem checkedWindow_quiet {c : Ctx} {a : W64} {k : AccKind} {kind : WatchKind} {datum : W32} {s : State}
    {gather : View → State → Gather} {tl : Tail} {isLoad : Bool} {ls : List Nat} {addr : Nat → W64} {n : Nat}
    {hash : View → Nat → List HashStep} {b : Nat} {x : Byte} {A : NMap Aperture} {P : ApWrite → Prop}
    (hopen : c.accessible [0, 1] (fun h => a + BitVec.ofNat 64 (32 * h)) 32 32 k true true s)
    (hquiet : (gather (s.viewOf c.gid c.g) (c.settledFor [0, 1] (fun h => a + BitVec.ofNat 64 (32 * h)) s)).quiet c.core b x A P) :
    (c.checkedWindow a k kind datum s fun v s => (gather v s).finish c v tl isLoad ls addr n (hash v)) = .stall ∨
      ∃ t, (c.checkedWindow a k kind datum s fun v s => (gather v s).finish c v tl isLoad ls addr n (hash v)) = .ok t ∧
        ∃ P, Quiet c.core b x A P t := by
  rw [window_open hopen]
  exact finishAccs_quiet hquiet ..

/-- ldsc is of the shared form of accesses; a window is gathered in its two halves (R113, R114, R177). -/
theorem scalarAccesses : Claims.ScalarAccesses := by
  intro wd sx pol d w base index off tl n scalarAddr start half open_ ready windowIn window windowOut
  refine ⟨?_, ?_, ?_, ?_, ?_, ?_⟩
  · exact completesAccess_of (fun c _ => c.at_) .load (fun _ _ => 0) rfl (exec_ldsc wd sx pol d base index off tl)
  · exact completesAsync_of_body (exec_twld pol w base off tl) (fun _ _ _ => rfl) fun c s h =>
      (window_open h.1).trans (finish_launched h.2)
  · exact completesAsync_of_body (exec_twst pol w base off tl) (fun _ _ _ => rfl) fun c s h =>
      (window_open h.1).trans (finish_launched h.2)
  · refine keepsMemory_of_checked (fun _ => False) (fun _ => False) rfl (exec_ldsc wd sx pol d base index off tl) ?_
    intro c s b x A hcore _ _ hq
    exact (hq.gather c tl).loads _ hcore pol _ (fun _ => id) _ 0
  · refine keepsMemory_of (fun _ => False) (exec_twld pol w base off tl) fun c s b x A hcore hopen _ hq => ?_
    exact checkedWindow_quiet hopen (quiet_loads_lanes (Quiet.touchTlbs _ _ _ hq) c tl _ hcore pol _ _ _)
  · refine keepsMemory_of (fun _ => True) (exec_twst pol w base off tl) fun c s b x A hcore hopen hs hq => ?_
    refine checkedWindow_quiet hopen (quiet_stores_lanes (Quiet.touchTlbs _ _ _ hq) hq.aps c tl _ hcore pol _ _ _ ?_)
    exact fun h hh p hp hst => hs ⟨h, List.mem_range.1 hh, p, hp, hst⟩

-- Plane elements

/-- The record at the base of a plane access, and the state that read it; with no lane in EM nothing is read (R179). -/
def Ctx.planeRead (c : Ctx) (base : BitVec 5) (s : State) : List W64 × State :=
  if c.em = 0 then (List.replicate 8 0, s)
  else (s.touchTlb (s.viewOf c.gid c.g) 0 (c.g.sget base.toNat)).readRec (s.viewOf c.gid c.g) (c.g.sget base.toNat)

/-- The lanes whose coordinates lie within a record's extents. -/
def Ctx.planeInside (c : Ctx) (xy : Operand) (c2 c3 : BitVec 6) (ws : List W64) : List Nat :=
  (laneList c.em).filter fun l => inExtent ws (c.coords xy c2 c3 l)

/-- The address of a lane's element. -/
def Ctx.planeElem (c : Ctx) (xy : Operand) (c2 c3 : BitVec 6) (ws : List W64) (l : Nat) : W64 :=
  (elemAddr ws (c.coords xy c2 c3 l)).1

/-- The address of the scale of a lane's element. -/
def Ctx.planeScale (c : Ctx) (xy : Operand) (c2 c3 : BitVec 6) (ws : List W64) (l : Nat) : W64 :=
  scaleAddr ws (blockCoord ws 32 (c.coords xy c2 c3 l))

/-- The state in which a plane access is made: the translations of its elements, and of their scales, are in the TLBs (R331). -/
def Ctx.planeReady (c : Ctx) (xy : Operand) (c2 c3 : BitVec 6) (rd : List W64 × State) : State :=
  let v := rd.2.viewOf c.gid c.g
  let s1 := rd.2.touchTlbs v (c.planeElem xy c2 c3 rd.1) (c.planeInside xy c2 c3 rd.1)
  if isScaled (layCode rd.1) then s1.touchTlbs v (c.planeScale xy c2 c3 rd.1) (c.planeInside xy c2 c3 rd.1) else s1

/-- No check, watch or wait keeps the accesses of lanes to their elements, and to their scales in a scaled format (R174, R179). -/
def Ctx.planeLanesOpen (c : Ctx) (xy : Operand) (c2 c3 : BitVec 6) (k : AccKind) (rd : List W64 × State) : Prop :=
  let n := elemBytes (layCode rd.1)
  let inside := c.planeInside xy c2 c3 rd.1
  c.accessible inside (c.planeElem xy c2 c3 rd.1) n n k false true rd.2 ∧
    (isScaled (layCode rd.1) = true → c.accessible inside (c.planeScale xy c2 c3 rd.1) 1 1 k false true rd.2)

/-- No check, watch or wait keeps a plane access (R174, R179). -/
def Ctx.planeOpen (c : Ctx) (base : BitVec 5) (xy : Operand) (c2 c3 : BitVec 6) (k : AccKind) (s : State) : Prop :=
  c.em ≠ 0 → s.heldAddr (s.viewOf c.gid c.g) 0 (c.g.sget base.toNat) = false ∧
    s.memCheck (s.viewOf c.gid c.g) (laneList c.em) (fun _ => c.g.sget base.toNat) 64 64 .read true = none ∧
    s.recPresent (s.viewOf c.gid c.g) (c.g.sget base.toNat) = true ∧ planeFmtOk (c.planeRead base s).1 k.writes = true ∧
    c.planeLanesOpen xy c2 c3 k (c.planeRead base s)

/-- With no data watch set, accesses of any sizes are unwatched (R372). -/
theorem watchedSized_nil {c : Ctx} {kind : WatchKind} {accs : List (Nat × W64 × Nat)} {datum : Nat → W32} {v : View} {s : State}
    {e : Effect} (h : (s.core c.core).dwc = []) : c.watchedSized kind accs datum v s e = e := by
  have hnone (k a m : Nat) : (s.core c.core).watchHits k kind a m = false := by
    simp [Core.watchHits, h]
  unfold Ctx.watchedSized
  split
  · rfl
  · exact if_pos (by simp [hnone])

/-- The checks of accesses that nothing keeps pass (R174). -/
theorem admitted_open {c : Ctx} {ls : List Nat} {mask : LaneMask → LaneMask} {addr : Nat → W64} {n align : Nat} {k : AccKind}
    {single snap : Bool} {s : State} {e : Effect} (h : c.accessible ls addr n align k single snap s) :
    c.admitted ls mask addr n align k single s e = e := by
  obtain ⟨hheld, hcheck, -⟩ := h
  unfold Ctx.admitted
  rw [if_neg (by simpa using hheld), hcheck]

/-- No byte of two lists of accesses misses in a peer where none of either does. -/
theorem State.peerMiss_append {s : State} {core : Nat} {ps qs : List (Nat × Nat)} (hp : s.peerMiss core ps = none)
    (hq : s.peerMiss core qs = none) : s.peerMiss core (ps ++ qs) = none := by
  simp only [State.peerMiss, Option.map_eq_none_iff, List.find?_append, Option.or_eq_none_iff] at hp hq ⊢
  exact ⟨hp, hq⟩

/-- A read that misses in no peer that is down goes on, and so does a write (R424). -/
theorem peerRead_open {c : Ctx} {k : AccKind} {ps : List (Nat × Nat)} {s : State} {e : Effect}
    (h : k.writes = true ∨ s.peerMiss c.core ps = none) : c.peerRead k ps s e = e := by
  unfold Ctx.peerRead
  obtain h | h := h
  · exact if_pos h
  · rw [h]
    exact ite_self e

/-- The lanes of a mask are none where it is empty. -/
theorem laneList_isEmpty_iff (m : LaneMask) : (laneList m).isEmpty = true ↔ m = 0 := by
  rw [List.isEmpty_iff, List.eq_nil_iff_forall_not_mem]
  constructor
  · intro h
    refine laneMask_ext fun l hl => ?_
    simpa [mem_laneList, hl] using h l
  · rintro rfl l
    simp [mem_laneList]

/-- With no lane in EM a plane access reads nothing and touches nothing (R179). -/
theorem plane_empty {c : Ctx} {base : BitVec 5} {xy : Operand} {c2 c3 : BitVec 6} (s : State) (hem : c.em = 0) :
    c.planeRead base s = (List.replicate 8 0, s) ∧ (∀ ws, c.planeInside xy c2 c3 ws = []) ∧
      c.planeReady xy c2 c3 (List.replicate 8 0, s) = s := by
  have hnone (ws : List W64) : c.planeInside xy c2 c3 ws = [] := by
    rw [Ctx.planeInside, List.isEmpty_iff.1 ((laneList_isEmpty_iff c.em).2 hem), List.filter_nil]
  refine ⟨if_pos hem, hnone, ?_⟩
  unfold Ctx.planeReady
  rw [hnone]
  exact ite_self _

/-- The checks of a plane access's elements, of their scales, and the watch let it through where nothing keeps them. -/
theorem planeLanes_open {c : Ctx} {xy : Operand} {c2 c3 : BitVec 6} {k : AccKind} {kind : WatchKind} {datum : Nat → W32}
    {rd : List W64 × State} {accs : List (Nat × W64 × Nat)} {e : Effect} (h : c.planeLanesOpen xy c2 c3 k rd) :
    let ws := rd.1
    let v := rd.2.viewOf c.gid c.g
    let inside := c.planeInside xy c2 c3 ws
    let n := elemBytes (layCode ws)
    let pas := rd.2.snapOf v (c.planeElem xy c2 c3 ws) n k inside ++
      if isScaled (layCode ws) then rd.2.snapOf v (c.planeScale xy c2 c3 ws) 1 k inside else []
    let open_ := c.watchedSized kind accs datum v rd.2 (c.peerRead k pas rd.2 e)
    c.admitted inside id (c.planeElem xy c2 c3 ws) n n k false rd.2
      (if isScaled (layCode ws) then c.admitted inside id (c.planeScale xy c2 c3 ws) 1 1 k false rd.2 open_ else open_) = e := by
  intro ws v inside n pas open_
  obtain ⟨helem, hscale⟩ := h
  obtain ⟨-, -, hwatch, hpeers⟩ := id helem
  have hpas : k.writes = true ∨ rd.2.peerMiss c.core pas = none := by
    refine or_iff_not_imp_left.2 fun hreads => State.peerMiss_append (hpeers.resolve_left hreads) ?_
    split
    · next hs =>
      obtain ⟨-, -, -, hpeers'⟩ := hscale hs
      exact hpeers'.resolve_left hreads
    · rfl
  have hopen : open_ = e := (watchedSized_nil hwatch).trans (peerRead_open hpas)
  rw [admitted_open helem, hopen]
  split
  · next hs => exact admitted_open (hscale hs)
  · rfl

/-- A plane access that nothing keeps makes its accesses (R174, R179). -/
theorem plane_open {c : Ctx} {base : BitVec 5} {xy : Operand} {c2 c3 : BitVec 6} {k : AccKind} {datum : List W64 → Nat → W32}
    {s : State} {f : View → List W64 → List Nat → State → Effect} (h : c.planeOpen base xy c2 c3 k s) :
    c.plane base xy c2 c3 k datum s f =
      f ((c.planeRead base s).2.viewOf c.gid c.g) (c.planeRead base s).1 (c.planeInside xy c2 c3 (c.planeRead base s).1)
        (c.planeReady xy c2 c3 (c.planeRead base s)) := by
  unfold Ctx.plane
  by_cases hem : c.em = 0
  · obtain ⟨hread, hinside, hready⟩ := plane_empty (base := base) (xy := xy) (c2 := c2) (c3 := c3) s hem
    rw [hread, hready, hinside]
    exact if_pos ((laneList_isEmpty_iff c.em).2 hem)
  · obtain ⟨hheld, hcheck, hpresent, hfmt, hlanes⟩ := h hem
    have hread : c.planeRead base s =
        (s.touchTlb (s.viewOf c.gid c.g) 0 (c.g.sget base.toNat)).readRec (s.viewOf c.gid c.g) (c.g.sget base.toNat) := if_neg hem
    dsimp only
    rw [if_neg (mt (laneList_isEmpty_iff c.em).1 hem), hheld, if_neg Bool.false_ne_true, hcheck, hpresent, ← hread, hfmt]
    exact planeLanes_open hlanes

/-- The record's read and the translations of a plane access leave every byte as it reads (R331, R340). -/
theorem Quiet.planeReady {core b : Nat} {x : Byte} {A : NMap Aperture} {s : State} (h : Quiet core b x A (fun _ => False) s)
    {c : Ctx} (hcore : c.g.core = core) (base : BitVec 5) (xy : Operand) (c2 c3 : BitVec 6) :
    Quiet core b x A (fun _ => False) (c.planeReady xy c2 c3 (c.planeRead base s)) := by
  have hread : Quiet core b x A (fun _ => False) (c.planeRead base s).2 := by
    unfold Ctx.planeRead
    split
    · exact h
    · exact (h.touchTlb _ _ _).readRec _ hcore (fun _ => id) _
  unfold Ctx.planeReady
  split
  · exact Quiet.touchTlbs _ _ _ (Quiet.touchTlbs _ _ _ hread)
  · exact Quiet.touchTlbs _ _ _ hread

/-- Flags that are raised leave every byte as it reads (R37). -/
theorem Quiet.raise {core b : Nat} {x : Byte} {A : NMap Aperture} {P : ApWrite → Prop} {s : State} (h : Quiet core b x A P s)
    (gid : Nat) (tag : BitVec 4) (fl : FpFlags) : Quiet core b x A P (s.raise gid tag fl) :=
  h.modGroup _ _

/-- A lane's element of ldp leaves every byte as it reads (R179). -/
theorem Gather.quiet.plane {core b : Nat} {x : Byte} {A : NMap Aperture} {g : Gather} (h : g.quiet core b x A fun _ => False)
    (v : View) (hv : v.core = core) (pol : Policy) (s : State) (ws : List W64) (co : List Nat) (lane : Nat) :
    (g.plane v pol s ws co lane).quiet core b x A fun _ => False := by
  unfold Gather.plane
  have helem := h.load v hv pol (s.targetOf v lane (elemAddr ws co).1 (elemBytes (layCode ws)) .read) (elemBytes (layCode ws))
    (.raw (planeKey lane false)) fun _ => id
  dsimp only
  split
  · exact helem.load v hv pol _ _ _ fun _ => id
  · exact helem

/-- ldp and stp make their accesses where nothing keeps them (`plane_open`), and store to their lanes' elements alone (R179). -/
theorem planeAccesses : Claims.PlaneAccesses := by
  intro pol d src base xy c2 c3 tl rec_ read inside addr size scaled scale open_ view ready nib loaded code stored
  refine ⟨?_, ?_, ?_, ?_⟩
  · exact completesAsync_of_body (exec_ldp pol d base xy c2 c3 tl) (fun _ _ _ => rfl) fun c s h =>
      (plane_open h.1).trans (finishAccs_launched h.2)
  · exact completesAsync_of_body (exec_stp pol src base xy c2 c3 tl) (fun _ _ _ => rfl) fun c s h =>
      (plane_open h.1).trans (finish_launched h.2)
  · refine keepsMemory_of (fun _ => False) (exec_ldp pol d base xy c2 c3 tl) fun c s b x A hcore hopen _ hq => ?_
    rw [plane_open hopen]
    refine finishAccs_quiet (foldl_quiet (P := fun _ => False) _ _ ?_ fun l _ g hg => hg.plane _ hcore ..) ..
    exact (hq.planeReady hcore base xy c2 c3).gather c tl
  · refine keepsMemory_of (fun _ => False) (exec_stp pol src base xy c2 c3 tl) fun c s b x A hcore hopen hs hq => ?_
    rw [plane_open hopen]
    have hready := hq.planeReady hcore base xy c2 c3
    refine finishAccs_quiet (foldl_quiet _ _ (((hready.raise _ _ _).mono fun _ => False.elim).gather c tl) fun l hl g hg =>
      hg.planeStore _ hcore pol _ _ _ _ hready.aps fun hst => hs ⟨l, hl, ?_⟩) ..
    rwa [storesTo_congr (hready.aps.trans hq.aps.symm)] at hst

/-- Settles O14: each access is made where nothing keeps it, and what it gathers leaves the bytes it does not store to. -/
theorem memoryInstructions : Obligations.MemoryInstructions :=
  ⟨loadsAndStores, scalarAccesses, planeAccesses⟩

end Sys2Proof.Machine

/-! Integer results, and the mask and window moves (O1, O9). -/

namespace Sys2Proof.Machine

-- Integer arithmetic

/-- Integer arithmetic (R75): the model's fit of an exact result is the wrapped or the clamped one. -/
theorem integerArithmetic : Claims.IntegerArithmetic := by
  intro t sat d a b x tl
  exact ⟨givesInt_of_aluInt (exec_iadd t d a b tl) fun _ _ => rfl, givesInt_of_aluInt (exec_isub t d a b tl) fun _ _ => rfl,
    givesInt_of_aluInt (exec_imul t sat d a b tl) fun _ _ => rfl, givesInt_of_aluInt (exec_imulhi t d a b tl) fun _ _ => rfl,
    givesInt_of_aluInt (exec_imad t sat d a b x tl) fun _ _ => rfl⟩

/-- Integer division (R76): the model tests the divisor as the statement does. -/
theorem integerDivision : Claims.IntegerDivision := by
  intro t sat d a b tl
  exact ⟨givesInt_of_aluInt (exec_idiv t sat d a b tl) fun _ _ => rfl, givesInt_of_aluInt (exec_irem t d a b tl) fun _ _ => rfl⟩

/-- Negation, absolute value, selection and saturating sums (R75). -/
theorem integerSelection : Claims.IntegerSelection := by
  intro t sat d a b x tl
  exact ⟨givesInt_of_aluInt (exec_ineg t sat d a tl) fun _ _ => rfl,
    givesInt_of_aluInt (exec_iabs t sat d a tl) fun c l => congrArg (resultInt t sat) (Int.abs_eq_natAbs (c.int t a l)).symm,
    givesInt_of_aluInt (exec_imin t d a b tl) fun _ _ => rfl, givesInt_of_aluInt (exec_imax t d a b tl) fun _ _ => rfl,
    givesInt_of_aluInt (exec_iaddsat t d a b tl) fun _ _ => rfl, givesInt_of_aluInt (exec_isubsat t d a b tl) fun _ _ => rfl,
    givesInt_of_aluInt (exec_iclamp t d a b x tl) fun _ _ => rfl⟩

/-- A product with a power of two is a left shift. -/
theorem mul_ofNat_two_pow {w : Nat} (x : BitVec w) (n : Nat) : x * BitVec.ofNat w (2 ^ n) = x <<< n := by
  apply BitVec.eq_of_toNat_eq
  rw [BitVec.toNat_mul, BitVec.toNat_ofNat, Nat.mul_mod_mod, BitVec.toNat_shiftLeft, Nat.shiftLeft_eq]

/-- The fit of dot4 (R75) is that of the 32-bit type of its sign. -/
theorem fit_eq_resultInt (signed sat : Bool) (x : Int) :
    fit signed sat 32 x = resultInt (if signed then .i32 else .n32) sat x := by
  cases signed <;> rfl

/-- Wide sums (R75, R77): the scale of lea, a product with a power of two, is a shift. -/
theorem wideSums : Claims.WideSums := by
  intro t sat d a b x sh tl
  refine ⟨gives64_of_alu64 (exec_add64 t d a b tl) fun _ _ => rfl, gives64_of_alu64 (exec_lea t d a b sh tl) fun c l => ?_,
    gives32_of_alu32 (exec_dot4 t sat d a b x tl) fun c l => ?_⟩
  · rw [← mul_ofNat_two_pow]
    rfl
  · rw [← fit_eq_resultInt]
    rfl

/-- Settles O1: each instruction is one of the shared integer forms, and each form gives the exact result of its operands. -/
theorem integerResults : Obligations.IntegerResults :=
  ⟨integerArithmetic, integerDivision, integerSelection, wideSums⟩

-- Masks and windows

/-- An instruction on EN completes with the operand's low 32 bits combined with EN (R95). -/
theorem completes_of_aluEn {i : Instr} {a : Operand} {tl : Tail} {f : LaneMask → LaneMask → LaneMask}
    (he : ∀ s, exec i s = aluEn a tl f s) : Completes i [.src a] tl Always fun c s =>
      s.put c { c.g.settleFps (Use.src a).readsFps 0 with en := f c.g.en ((c.bits64 a 0).setWidth 32) } :=
  completes_of_body (pre := fun _ => true) he (fun _ _ _ => rfl) fun _ _ _ => rfl

/-- EN, CM and the routing table (R95, R97). -/
theorem maskMoves : Claims.MaskMoves := by
  intro r v n e a tl
  have hcmset := completes_of_aluCm (f := fun c l => (c.bits32 a l != 0, 0)) (exec_cmset a tl) fun _ _ => rfl
  simp only [flagsOver_zero, List.any_cons, List.any_nil, Bool.or_false] at hcmset
  exact ⟨completes_of_body (pre := fun _ => true) (exec_ensave r tl) (fun _ _ _ => rfl) fun _ _ _ => rfl,
    completes_of_aluEn (exec_enrest a tl), completes_of_aluEn (exec_enand a tl), completes_of_aluEn (exec_enor a tl),
    completes_of_aluEn (exec_enandn a tl),
    completes_of_body (pre := fun _ => true) (exec_cmget v tl) (fun _ _ _ => rfl) fun _ _ _ => rfl, hcmset,
    completes_of_body (pre := fun _ => true) (exec_setrt n e tl) (fun _ _ _ => rfl) fun _ _ _ => rfl⟩

/-- setab (R96): each check of its body passes under the statement's conditions. -/
theorem accumulatorWindow : Claims.AccumulatorWindow := by
  intro a b x tl blk n gid
  refine completes_of_body (pre := fun _ => true) (exec_setab a b x tl) (fun _ _ _ => rfl) ?_
  rintro c s ⟨hblk, hctx, hgix, hle, hmax, hgroup, hbusy, hmrd⟩
  simp only [Ctx.bits64] at hle hmax hgroup
  simp [hblk, hctx, hgix, hle.not_gt, hmax.not_gt, hgroup, hbusy, hmrd, Ctx.bits64]

/-- Settles O9: each move's body takes effect at once, and setab's where its checks pass. -/
theorem maskAndWindowMoves : Obligations.MaskAndWindowMoves :=
  ⟨maskMoves, accumulatorWindow⟩

end Sys2Proof.Machine

/-! Integers as bit vectors, bit counts and reversal (O43). -/

namespace Sys2Proof.Machine

-- Integers as bit vectors

/-- The code of a wrapped integer, at the type's width, is its bit vector (R75). -/
theorem ofNat_wrappedInt {t : IType} {w : Nat} (hw : t.width = w) (x : Int) :
    BitVec.ofNat w (wrappedInt t x) = BitVec.ofInt w x := by
  subst hw
  exact ofNat_wrapNat x

/-- The integer that a type gives a word has the word's bits (R71). -/
theorem ofInt_intOf {w : Nat} (signed : Bool) (x : BitVec w) : BitVec.ofInt w (intOf signed w x.toNat) = x := by
  rw [intOf_eq]
  cases signed with
  | true => exact BitVec.ofInt_toInt
  | false => exact (BitVec.ofInt_natCast ..).trans (BitVec.eq_of_toNat_eq (by simp))

/-- The integer of a source of a 32-bit type has the source's bits. -/
theorem Ctx.ofInt_int32 (c : Ctx) {t : IType} (ht : t.wide = false ∧ t.width = 32) (a : Operand) (l : Nat) :
    BitVec.ofInt 32 (c.int t a l) = c.bits32 a l := by
  have hcode : c.code t a l = (c.bits32 a l).toNat := by
    rw [Ctx.code, Group.readType, ht.1, ht.2]
    exact Nat.mod_eq_of_lt (c.bits32 a l).isLt
  have hint : c.int t a l = intOf t.signed t.width (c.code t a l) := rfl
  rw [hint, hcode, ht.2, ofInt_intOf]

/-- The integer of a source of a 64-bit type has the source's bits. -/
theorem Ctx.ofInt_int64 (c : Ctx) {t : IType} (ht : t.wide = true ∧ t.width = 64) (a : Operand) (l : Nat) :
    BitVec.ofInt 64 (c.int t a l) = c.bits64 a l := by
  have hcode : c.code t a l = (c.bits64 a l).toNat := if_pos ht.1
  have hint : c.int t a l = intOf t.signed t.width (c.code t a l) := rfl
  rw [hint, hcode, ht.2, ofInt_intOf]

/-- The bit vector of a difference is the difference of the bit vectors. -/
theorem ofInt_sub {w : Nat} (x y : Int) : BitVec.ofInt w (x - y) = BitVec.ofInt w x - BitVec.ofInt w y := by
  rw [Int.sub_eq_add_neg, BitVec.ofInt_add, BitVec.ofInt_neg, BitVec.sub_eq_add_neg]

-- Bit counts and reversal

/-- The population count is the number of the places whose bit is 1 (R79). -/
theorem popCount_eq_length (x : Nat) : ∀ w, popCount x w = ((List.range w).filter fun i => x.testBit i).length
  | 0 => rfl
  | w + 1 => by
    rw [popCount, popCount_eq_length x w, List.range_succ, List.filter_append, List.length_append, Nat.add_comm,
      List.filter_singleton, Nat.testBit_eq_decide_div_mod_eq]
    obtain h | h := Nat.mod_two_eq_zero_or_one (x / 2 ^ w) <;> simp [h]

/-- The lowest bit that is 1, below the width, is where the trailing zeros end (R79). -/
theorem trailingZeros_eq_of_lowest : ∀ {w k x : Nat}, k < w → x.testBit k = true → (∀ i < k, x.testBit i = false) →
    trailingZeros x w = k
  | w + 1, 0, x, _, hone, _ => by
    rw [trailingZeros, if_pos (by simpa using hone)]
  | w + 1, k + 1, x, hk, hone, hzero => by
    have heven : ¬ x % 2 = 1 := by simpa using hzero 0 k.succ_pos
    rw [trailingZeros, if_neg heven, Nat.add_comm, trailingZeros_eq_of_lowest (Nat.lt_of_succ_lt_succ hk)]
    · rwa [← Nat.testBit_succ]
    · intro i hi
      rw [← Nat.testBit_succ]
      exact hzero (i + 1) (Nat.succ_lt_succ hi)

/-- With no bit that is 1, the trailing zeros are the whole width (R79). -/
theorem trailingZeros_eq_width : ∀ {w x : Nat}, (∀ i < w, x.testBit i = false) → trailingZeros x w = w
  | 0, _, _ => rfl
  | w + 1, x, hzero => by
    have heven : ¬ x % 2 = 1 := by simpa using hzero 0 w.succ_pos
    rw [trailingZeros, if_neg heven, Nat.add_comm, trailingZeros_eq_width]
    intro i hi
    rw [← Nat.testBit_succ]
    exact hzero (i + 1) (Nat.succ_lt_succ hi)

/-- Reversed bits fit the width. -/
theorem reverseBits_lt : ∀ x w : Nat, reverseBits x w < 2 ^ w
  | _, 0 => Nat.one_pos
  | x, w + 1 => by
    have hrest := reverseBits_lt (x / 2) w
    have hlow : x % 2 < 2 := Nat.mod_lt x two_pos
    rw [reverseBits, pow_succ]
    nlinarith

/-- Each bit of the reversal is the one at the mirrored place (R79). -/
theorem testBit_reverseBits : ∀ {w : Nat} (x : Nat) {i : Nat}, i < w → (reverseBits x w).testBit i = x.testBit (w - 1 - i)
  | w + 1, x, i, hi => by
    rw [reverseBits, Nat.mul_comm, Nat.testBit_two_pow_mul_add _ (reverseBits_lt (x / 2) w)]
    split
    · next hlow =>
      have hplace : w + 1 - 1 - i = w - 1 - i + 1 := by omega
      rw [testBit_reverseBits (x / 2) hlow, hplace, Nat.testBit_succ]
    · next hhigh =>
      have hplace : w + 1 - 1 - i = 0 ∧ i - w = 0 := by omega
      rw [hplace.1, hplace.2]
      simp

/-- Settles O43: an integer's bit vector is its source's (`ofInt_intOf`), and the library's sums and products are those of bit
vectors; each bit function by induction on its width. -/
theorem bitPatterns : Obligations.BitPatterns := by
  intro c a b l x k w
  have narrow : ∀ t ∈ [IType.i32, .n32], t.wide = false ∧ t.width = 32 := by decide
  have wide : ∀ t ∈ [IType.i64, .n64], t.wide = true ∧ t.width = 64 := by decide
  refine ⟨fun t ht => ?_, fun t ht => ?_, popCount_eq_length x w, trailingZeros_eq_of_lowest, trailingZeros_eq_width,
    fun i => testBit_reverseBits x, reverseBits_lt x w⟩
  · have hword := narrow t ht
    simp only [ofNat_wrappedInt hword.2, BitVec.ofInt_add, ofInt_sub, BitVec.ofInt_mul, c.ofInt_int32 hword, and_self]
  · have hword := wide t ht
    simp only [ofNat_wrappedInt hword.2, BitVec.ofInt_add, ofInt_sub, c.ofInt_int64 hword, and_self]

end Sys2Proof.Machine

/-! Rounding to FP32 (R9, R12, R13): the units of a magnitude's last place, and the codes that hold them (O4). -/

namespace Sys2Proof.Machine

-- Rounding a fraction

/-- A fraction rounded at a power of two is the fraction with the power taken in. -/
theorem roundAt_eq_zero_place (mode : Rnd) (neg : Bool) (n d : Nat) (q : Int) :
    roundAt mode neg n d q =
      roundAt mode neg (if q ≥ 0 then n else n * 2 ^ (-q).toNat) (if q ≥ 0 then d * 2 ^ q.toNat else d) 0 := by
  simp [roundAt]

/-- A common factor of numerator and denominator rounds alike. -/
theorem roundAt_scale (mode : Rnd) (neg : Bool) (n d : Nat) {k : Nat} (hk : 0 < k) :
    roundAt mode neg (n * k) (d * k) 0 = roundAt mode neg n d 0 := by
  have htwice : 2 * (n % d * k) = 2 * (n % d) * k := (Nat.mul_assoc ..).symm
  have hzero : (n % d * k != 0) = (n % d != 0) := by simp [bne, hk.ne']
  have hmore : decide (2 * (n % d) * k > d * k) = decide (2 * (n % d) > d) := by simp [hk]
  have htie : (2 * (n % d) * k == d * k) = (2 * (n % d) == d) := by simp [beq_eq_decide, hk.ne']
  simp only [roundAt, ge_iff_le, le_refl, if_true, Int.toNat_zero, pow_zero, mul_one, Nat.mul_div_mul_right _ _ hk,
    Nat.mul_mod_mul_right, htwice, hzero, hmore, htie]

/-- Rounding at the unit 2^(j - 149), in units of 2^-149. -/
theorem roundAt_units (mode : Rnd) (neg : Bool) (n d j : Nat) :
    roundAt mode neg n d ((j : Int) - 149) = roundAt mode neg (n * 2 ^ 149) (d * 2 ^ j) 0 := by
  rw [roundAt_eq_zero_place]
  split
  · next hq =>
    have hpow : d * 2 ^ j = d * 2 ^ ((j : Int) - 149).toNat * 2 ^ 149 := by
      rw [Nat.mul_assoc, ← pow_add]
      congr 2
      omega
    rw [hpow, roundAt_scale _ _ _ _ (by positivity)]
  · next hq =>
    have hpow : n * 2 ^ 149 = n * 2 ^ (-((j : Int) - 149)).toNat * 2 ^ j := by
      rw [Nat.mul_assoc, ← pow_add]
      congr 2
      omega
    rw [hpow, roundAt_scale _ _ _ _ (by positivity)]

/-- The quotient rounded to nearest is at most half a unit away. -/
theorem roundAt_rn_near (neg : Bool) (n : Nat) {d : Nat} (hd : 0 < d) :
    2 * n ≤ 2 * ((roundAt .rn neg n d 0).1 * d) + d ∧ 2 * ((roundAt .rn neg n d 0).1 * d) ≤ 2 * n + d := by
  have hdiv : n / d * d + n % d = n := by
    rw [Nat.mul_comm]
    exact Nat.div_add_mod n d
  have hmod : n % d < d := Nat.mod_lt n hd
  have hround : (roundAt .rn neg n d 0).1 =
      if 2 * (n % d) > d ∨ 2 * (n % d) = d ∧ n / d % 2 = 1 then n / d + 1 else n / d := by
    simp [roundAt]
  by_cases hup : 2 * (n % d) > d ∨ 2 * (n % d) = d ∧ n / d % 2 = 1
  · have hsucc : (n / d + 1) * d = n / d * d + d := Nat.add_one_mul ..
    rw [hround, if_pos hup, hsucc]
    omega
  · rw [hround, if_neg hup]
    omega

/-- A multiple of the unit rounds to itself, exactly. -/
theorem roundAt_multiple (mode : Rnd) (neg : Bool) (s : Nat) {d : Nat} (hd : 0 < d) :
    roundAt mode neg (s * d) d 0 = (s, false) := by
  cases mode <;> simp [roundAt, Nat.mul_div_cancel _ hd, hd.ne]

/-- Rounding toward zero is the quotient. -/
theorem roundAt_rz (neg : Bool) (n d : Nat) : (roundAt .rz neg n d 0).1 = n / d := by
  simp [roundAt]

-- The binade of a fraction

/-- A positive number lies in the binade of its integer logarithm. -/
theorem zpow_log2_bounds {n : Nat} (hn : 0 < n) : (2 : ℚ) ^ (n.log2 : Int) ≤ n ∧ (n : ℚ) < 2 ^ ((n.log2 : Int) + 1) :=
  ⟨mod_cast Nat.log2_self_le hn.ne', mod_cast Nat.lt_log2_self⟩

/-- The comparison of a fraction with a power of 2, in whole numbers. -/
theorem scaled_lt_iff (n : Nat) {d : Nat} (hd : 0 < d) (g : Int) :
    (if g ≥ 0 then n < d * 2 ^ g.toNat else n * 2 ^ (-g).toNat < d) ↔ (n / d : ℚ) < 2 ^ g := by
  have hdq : (0 : ℚ) < d := mod_cast hd
  rw [div_lt_iff₀ hdq]
  split
  · next hpos =>
    have hpow : (2 : ℚ) ^ g = 2 ^ g.toNat := by rw [← zpow_natCast, Int.toNat_of_nonneg hpos]
    rw [hpow, mul_comm]
    exact_mod_cast Iff.rfl
  · next hneg =>
    have hpow : (2 : ℚ) ^ g = (2 ^ (-g).toNat)⁻¹ := by
      rw [← zpow_natCast, Int.toNat_of_nonneg (by omega), zpow_neg, inv_inv]
    rw [hpow, inv_mul_eq_div, lt_div_iff₀ (by positivity)]
    exact_mod_cast Iff.rfl

/-- A fraction lies in the binade of its logarithm: the difference of the logarithms is right, or one too large. -/
theorem log2Frac_bounds {n d : Nat} (hn : 0 < n) (hd : 0 < d) :
    (2 : ℚ) ^ log2Frac n d ≤ n / d ∧ (n / d : ℚ) < 2 ^ (log2Frac n d + 1) := by
  have hdq : (0 : ℚ) < d := mod_cast hd
  obtain ⟨hnlow, hnhigh⟩ := zpow_log2_bounds hn
  obtain ⟨hdlow, hdhigh⟩ := zpow_log2_bounds hd
  set g : Int := (n.log2 : Int) - d.log2 with hg
  have hlow : (2 : ℚ) ^ (g - 1) ≤ n / d := by
    rw [le_div_iff₀ hdq]
    calc (2 : ℚ) ^ (g - 1) * d ≤ 2 ^ (g - 1) * 2 ^ ((d.log2 : Int) + 1) := by gcongr
      _ = 2 ^ (n.log2 : Int) := by rw [← zpow_add₀ two_ne_zero, hg]; congr 1; omega
      _ ≤ n := hnlow
  have hhigh : (n / d : ℚ) < 2 ^ (g + 1) := by
    rw [div_lt_iff₀ hdq]
    calc (n : ℚ) < 2 ^ ((n.log2 : Int) + 1) := hnhigh
      _ = 2 ^ (g + 1) * 2 ^ (d.log2 : Int) := by rw [← zpow_add₀ two_ne_zero, hg]; congr 1; omega
      _ ≤ 2 ^ (g + 1) * d := by gcongr
  have hval : log2Frac n d = if (n / d : ℚ) < 2 ^ g then g - 1 else g := if_congr (scaled_lt_iff n hd g) rfl rfl
  rw [hval]
  split
  · next h => exact ⟨hlow, by rwa [Int.sub_add_cancel]⟩
  · next h => exact ⟨not_lt.1 h, hhigh⟩

/-- The unit in the last place of an FP32 magnitude n / d is 2^ulpExp, in units of 2^-149 (R12). -/
def ulpExp (n d : Nat) : Nat := (log2Frac n d + 126).toNat

/-- The magnitude is below 2^24 of its units. -/
theorem lt_ulpExp {n d : Nat} (hn : 0 < n) (hd : 0 < d) : n * 2 ^ 149 < d * 2 ^ ulpExp n d * 2 ^ 24 := by
  have hdq : (0 : ℚ) < d := mod_cast hd
  have hexp : log2Frac n d + 1 ≤ (ulpExp n d : Int) - 125 := by
    unfold ulpExp
    omega
  have hbound : (n : ℚ) < 2 ^ ((ulpExp n d : Int) - 125) * d := by
    rw [← div_lt_iff₀ hdq]
    exact (log2Frac_bounds hn hd).2.trans_le (zpow_le_zpow_right₀ one_le_two hexp)
  have hscaled : (n * 2 ^ 149 : ℚ) < d * 2 ^ ulpExp n d * 2 ^ 24 :=
    calc (n * 2 ^ 149 : ℚ) < 2 ^ ((ulpExp n d : Int) - 125) * d * 2 ^ 149 := by gcongr
      _ = d * 2 ^ ulpExp n d * 2 ^ 24 := by
        rw [zpow_sub₀ two_ne_zero, zpow_natCast]
        norm_num
        ring
  exact_mod_cast hscaled

/-- The magnitude is at least 2^23 of its units, where it is not subnormal. -/
theorem ulpExp_le {n d : Nat} (hn : 0 < n) (hd : 0 < d) (hnormal : ulpExp n d ≠ 0) :
    d * 2 ^ ulpExp n d * 2 ^ 23 ≤ n * 2 ^ 149 := by
  have hdq : (0 : ℚ) < d := mod_cast hd
  have hexp : log2Frac n d = (ulpExp n d : Int) - 126 := by
    unfold ulpExp at hnormal ⊢
    omega
  have hbound : 2 ^ ((ulpExp n d : Int) - 126) * d ≤ (n : ℚ) := by
    rw [← le_div_iff₀ hdq, ← hexp]
    exact (log2Frac_bounds hn hd).1
  have hscaled : (d * 2 ^ ulpExp n d * 2 ^ 23 : ℚ) ≤ n * 2 ^ 149 :=
    calc (d * 2 ^ ulpExp n d * 2 ^ 23 : ℚ) = 2 ^ ((ulpExp n d : Int) - 126) * d * 2 ^ 149 := by
          rw [zpow_sub₀ two_ne_zero, zpow_natCast]
          norm_num
          ring
      _ ≤ n * 2 ^ 149 := by gcongr
  exact_mod_cast hscaled

-- Rounding a magnitude to FP32

/-- A magnitude n / d rounds to infinity: it is at least the largest FP32 magnitude and half its unit (R13). -/
abbrev Overflows (n d : Nat) : Prop := (2 ^ 25 - 1) * (d * 2 ^ 104) ≤ 2 * n

/-- The magnitude code of s units of 2^(j - 149) (R9). -/
def magCode (j s : Nat) : Nat := j * 2 ^ 23 + s

/-- A magnitude that overflows becomes an infinity (R13). -/
theorem roundMag_of_overflows {n d : Nat} (h : Overflows n d) (neg : Bool) :
    fp32.roundMag .rn false neg n d = (fp32.inf neg, fOF ||| fIX) :=
  if_pos (decide_eq_true h)

/-- The flags of a rounding without overflow. -/
def roundFlags (tiny inexact : Bool) : FpFlags := if inexact then (if tiny then fUF ||| fIX else fIX) else 0

/-- A rounding without overflow raises no overflow. -/
theorem roundFlags_overflow (tiny inexact : Bool) : (roundFlags tiny inexact).getLsbD 2 = false := by
  cases tiny <;> cases inexact <;> rfl

/-- The rounded units of a magnitude, and whether it is no multiple of its unit (R12). -/
def roundedUnits (mode : Rnd) (neg : Bool) (n d : Nat) : Nat × Bool := roundAt mode neg (n * 2 ^ 149) (d * 2 ^ ulpExp n d) 0

/-- Units rounded to nearest are at most half a unit away. -/
theorem units_rn_near (neg : Bool) (n : Nat) {d : Nat} (hd : 0 < d) :
    2 * (n * 2 ^ 149) ≤ 2 * ((roundedUnits .rn neg n d).1 * (d * 2 ^ ulpExp n d)) + d * 2 ^ ulpExp n d ∧
      2 * ((roundedUnits .rn neg n d).1 * (d * 2 ^ ulpExp n d)) ≤ 2 * (n * 2 ^ 149) + d * 2 ^ ulpExp n d :=
  roundAt_rn_near neg (n * 2 ^ 149) (by positivity)

/-- Units rounded to nearest are at most 2^24. -/
theorem units_rn_le (neg : Bool) {n d : Nat} (hn : 0 < n) (hd : 0 < d) : (roundedUnits .rn neg n d).1 ≤ 2 ^ 24 := by
  have hnear := (units_rn_near neg n hd).2
  have hlt := lt_ulpExp hn hd
  have hpos : 0 < d * 2 ^ ulpExp n d := by positivity
  by_contra hmore
  nlinarith

/-- Units rounded to nearest are normal or at the least place. -/
theorem units_rn_normal (neg : Bool) {n d : Nat} (hn : 0 < n) (hd : 0 < d) (hsmall : (roundedUnits .rn neg n d).1 < 2 ^ 23) :
    ulpExp n d = 0 := by
  by_contra hplace
  have hnear := (units_rn_near neg n hd).1
  have hle := ulpExp_le hn hd hplace
  have hpos : 0 < d * 2 ^ ulpExp n d := by positivity
  nlinarith

/-- Units rounded toward zero are normal or at the least place. -/
theorem units_rz_normal (neg : Bool) {n d : Nat} (hn : 0 < n) (hd : 0 < d) (hsmall : (roundedUnits .rz neg n d).1 < 2 ^ 23) :
    ulpExp n d = 0 := by
  by_contra hplace
  rw [roundedUnits, roundAt_rz, Nat.div_lt_iff_lt_mul (by positivity), Nat.mul_comm (2 ^ 23)] at hsmall
  exact absurd (ulpExp_le hn hd hplace) hsmall.not_ge

/-- Units rounded toward zero are below 2^24. -/
theorem units_rz_lt (neg : Bool) {n d : Nat} (hn : 0 < n) (hd : 0 < d) : (roundedUnits .rz neg n d).1 < 2 ^ 24 := by
  rw [roundedUnits, roundAt_rz, Nat.div_lt_iff_lt_mul (by positivity), Nat.mul_comm (2 ^ 24)]
  exact lt_ulpExp hn hd

/-- What a rounding without overflow computes: the code of its units, which are normal or at the least place (R9, R12). -/
theorem rounded_eq {mode : Rnd} {neg : Bool} {n d : Nat} {q : Int} {tiny : Prop} [Decidable tiny]
    (hq : q = if log2Frac n d - 23 < -149 then -149 else log2Frac n d - 23)
    (hnormal : (roundedUnits mode neg n d).1 < 2 ^ 23 → ulpExp n d = 0) :
    (fp32.signed neg (if (roundAt mode neg n d q).1 < 2 ^ 23 then (roundAt mode neg n d q).1
        else (q + 23 + 127).toNat * 2 ^ 23 + ((roundAt mode neg n d q).1 - 2 ^ 23)),
      if (roundAt mode neg n d q).2 then (if tiny then fUF ||| fIX else fIX) else 0) =
    (fp32.signed neg (magCode (ulpExp n d) (roundedUnits mode neg n d).1),
      roundFlags (decide tiny) (roundedUnits mode neg n d).2) := by
  have hplace : q = (ulpExp n d : Int) - 149 := by
    unfold ulpExp
    omega
  have hmag (s : Nat) (hs : s < 2 ^ 23 → ulpExp n d = 0) :
      (if s < 2 ^ 23 then s else (q + 23 + 127).toNat * 2 ^ 23 + (s - 2 ^ 23)) = magCode (ulpExp n d) s := by
    unfold magCode
    split <;> omega
  have hround : roundAt mode neg n d q = roundedUnits mode neg n d := by rw [hplace, roundAt_units, roundedUnits]
  rw [hround, hmag _ hnormal]
  simp [roundFlags]

/-- A magnitude that does not overflow is rounded to nearest at its place (R12); one below 2^-127 is tiny. -/
theorem roundMag_of_not_overflows {n d : Nat} (h : ¬ Overflows n d) (neg : Bool)
    (hnormal : (roundedUnits .rn neg n d).1 < 2 ^ 23 → ulpExp n d = 0) :
    ∃ tiny, (log2Frac n d < -127 → tiny = true) ∧ fp32.roundMag .rn false neg n d =
      (fp32.signed neg (magCode (ulpExp n d) (roundedUnits .rn neg n d).1), roundFlags tiny (roundedUnits .rn neg n d).2) := by
  have hlow {e : Int} {top : Prop} [Decidable top] (he : e < -127) : (if top then e + 1 else e) < 1 - 127 := by
    split <;> omega
  exact ⟨_, fun htiny => decide_eq_true (hlow htiny), (if_neg (decide_eq_true_iff.not.2 h)).trans (rounded_eq rfl hnormal)⟩

/-- Where a magnitude does not overflow, its units are those of an FP32 code (R9). -/
theorem magCode_lt {n d : Nat} (hn : 0 < n) (hd : 0 < d) (h : ¬ Overflows n d) (neg : Bool) :
    ulpExp n d ≤ 253 ∧ magCode (ulpExp n d) (roundedUnits .rn neg n d).1 < 255 * 2 ^ 23 := by
  have hnear := (units_rn_near neg n hd).2
  have hle := units_rn_le neg hn hd
  have hfits : 2 * (n * 2 ^ 149) < (2 ^ 25 - 1) * (d * 2 ^ 253) := by
    have hscale : (2 ^ 25 - 1) * (d * 2 ^ 253) = (2 ^ 25 - 1) * (d * 2 ^ 104) * 2 ^ 149 := by ring
    rw [hscale, ← Nat.mul_assoc]
    exact Nat.mul_lt_mul_of_pos_right (not_le.1 h) (by positivity)
  have hplace : ulpExp n d ≤ 253 := by
    by_contra hbig
    have hlow := ulpExp_le hn hd (by omega)
    have hpow : d * 2 ^ 254 ≤ d * 2 ^ ulpExp n d := Nat.mul_le_mul_left d (Nat.pow_le_pow_right two_pos (by omega))
    omega
  refine ⟨hplace, ?_⟩
  unfold magCode
  obtain hlt | heq := Nat.lt_or_eq_of_le hplace
  · omega
  · rw [heq] at hnear ⊢
    have hunits : (roundedUnits .rn neg n d).1 < 2 ^ 24 := by
      by_contra hmore
      have hmul := Nat.mul_le_mul_right (d * 2 ^ 253) (not_lt.1 hmore)
      omega
    omega

/-- The same of the binade of a magnitude. -/
theorem log2Frac_le {n d : Nat} (hn : 0 < n) (hd : 0 < d) (h : ¬ Overflows n d) : log2Frac n d ≤ 127 := by
  have hplace := (magCode_lt hn hd h false).1
  unfold ulpExp at hplace
  omega

/-- The overflow test of a rounding toward zero fails below 2^128 (R13). -/
theorem rz_fits {e : Int} {s : Nat} (he : e ≤ 127) (hs : e = 127 → s < 2 ^ 24) :
    ¬ (decide ((if s = 2 ^ 24 then e + 1 else e) > 127) ||
      ((if s = 2 ^ 24 then e + 1 else e) == 127 &&
        decide ((if s = 2 ^ 24 then 2 ^ 23 else s) > 2 ^ 23 + (2 ^ 23 - 1)))) = true := by
  simp only [Bool.or_eq_true, Bool.and_eq_true, decide_eq_true_eq, beq_iff_eq]
  split <;> omega

/-- A magnitude below 2^128 rounds toward zero at its place (R12). -/
theorem roundMag_rz {n d : Nat} (hn : 0 < n) (hd : 0 < d) (hsmall : log2Frac n d ≤ 127) (neg : Bool) :
    ∃ tiny, fp32.roundMag .rz false neg n d =
      (fp32.signed neg (magCode (ulpExp n d) (roundedUnits .rz neg n d).1), roundFlags tiny (roundedUnits .rz neg n d).2) := by
  have hunits : log2Frac n d = 127 → (roundAt .rz neg n d (log2Frac n d - 23)).1 < 2 ^ 24 := by
    intro htop
    have hplace : log2Frac n d - 23 = (ulpExp n d : Int) - 149 := by
      unfold ulpExp
      omega
    rw [hplace, roundAt_units]
    exact units_rz_lt neg hn hd
  exact ⟨_, (if_neg (rz_fits hsmall hunits)).trans (rounded_eq rfl (units_rz_normal neg hn hd))⟩

-- FP32 codes

/-- The sign bit of an FP32 code (R9). -/
theorem fp32_signed (neg : Bool) (mag : Nat) : fp32.signed neg mag = (if neg then 2 ^ 31 else 0) + mag := by
  cases neg
  · exact (Nat.zero_add mag).symm
  · rfl

/-- The fields of an FP32 code (R9). -/
theorem signed_fields (neg : Bool) {E M : Nat} (hE : E < 256) (hM : M < 2 ^ 23) :
    let c := fp32.signed neg (E * 2 ^ 23 + M)
    (c / 2 ^ 31 % 2 == 1) = neg ∧ c / 2 ^ 23 % 2 ^ 8 = E ∧ c % 2 ^ 23 = M := by
  rw [fp32_signed]
  refine ⟨?_, ?_, ?_⟩
  · cases neg
    · exact beq_eq_false_iff_ne.2 (by simp only [Bool.false_eq_true, if_false]; omega)
    · exact beq_iff_eq.2 (by simp only [if_true]; omega)
  · split <;> omega
  · split <;> omega

/-- What an FP32 code of a sign, an exponent and a mantissa field holds (R9, R10). -/
theorem dec_fields (neg : Bool) {E M : Nat} (hE : E < 256) (hM : M < 2 ^ 23) :
    fp32.dec (fp32.signed neg (E * 2 ^ 23 + M)) =
      if E = 255 then (if M = 0 then .inf neg else .nan (M < 2 ^ 22))
      else if E = 0 then .fin neg M (-149) else .fin neg (2 ^ 23 + M) (E - 150) := by
  obtain ⟨hsign, hexp, hmant⟩ := signed_fields neg hE hM
  have hdec (c : Nat) : fp32.dec c =
      if (c / 2 ^ 23 % 2 ^ 8 == 255) = true then
        (if c % 2 ^ 23 = 0 then .inf (c / 2 ^ 31 % 2 == 1) else .nan (decide (c % 2 ^ 23 < 2 ^ 22)))
      else if c / 2 ^ 23 % 2 ^ 8 = 0 then .fin (c / 2 ^ 31 % 2 == 1) (c % 2 ^ 23) (-149)
      else .fin (c / 2 ^ 31 % 2 == 1) (2 ^ 23 + c % 2 ^ 23) ((c / 2 ^ 23 % 2 ^ 8 : Nat) - 127 - 23) := rfl
  rw [hdec, hmant, hexp, hsign, Int.sub_sub]
  simp only [beq_iff_eq]
  rfl

/-- Every FP32 code is one of a sign, an exponent and a mantissa field. -/
theorem exists_fields {c : Nat} (hc : c < 2 ^ 32) :
    ∃ neg E M, E < 256 ∧ M < 2 ^ 23 ∧ c = fp32.signed neg (E * 2 ^ 23 + M) := by
  refine ⟨decide (2 ^ 31 ≤ c), c / 2 ^ 23 % 2 ^ 8, c % 2 ^ 23, Nat.mod_lt _ (by positivity), Nat.mod_lt _ (by positivity), ?_⟩
  rw [fp32_signed]
  simp only [decide_eq_true_eq]
  split <;> omega

/-- The number of a magnitude code is its units (R9). -/
theorem dec_magCode (neg : Bool) {j s : Nat} (hj : j ≤ 253) (hs : s < 2 ^ 24) (hnormal : s < 2 ^ 23 → j = 0) :
    fp32.dec (fp32.signed neg (magCode j s)) = .fin neg s ((j : Int) - 149) := by
  by_cases hsub : s < 2 ^ 23
  · have hcode : magCode j s = 0 * 2 ^ 23 + s := by rw [magCode, hnormal hsub]
    rw [hcode, dec_fields neg (by omega) hsub, hnormal hsub]
    rfl
  · have hcode : magCode j s = (j + 1) * 2 ^ 23 + (s - 2 ^ 23) := by
      unfold magCode
      omega
    have hsig : 2 ^ 23 + (s - 2 ^ 23) = s := by omega
    have hexp : ((j + 1 : Nat) : Int) - 150 = j - 149 := by omega
    rw [hcode, dec_fields neg (by omega) (by omega), if_neg (by omega), if_neg (by omega), hsig, hexp]

/-- A finite FP32 code is that of its units. -/
theorem exists_magCode {c : Nat} (hc : c < 2 ^ 32) {neg : Bool} {m : Nat} {e : Int} (hdec : fp32.dec c = .fin neg m e) :
    ∃ j : Nat, j ≤ 253 ∧ m < 2 ^ 24 ∧ (m < 2 ^ 23 → j = 0) ∧ e = (j : Int) - 149 ∧ c = fp32.signed neg (magCode j m) := by
  obtain ⟨neg', E, M, hE, hM, rfl⟩ := exists_fields hc
  rw [dec_fields neg' hE hM] at hdec
  by_cases htop : E = 255
  · rw [if_pos htop] at hdec
    split at hdec <;> cases hdec
  · rw [if_neg htop] at hdec
    by_cases hsub : E = 0
    · rw [if_pos hsub] at hdec
      cases hdec
      exact ⟨0, by omega, by omega, fun _ => rfl, rfl, by rw [hsub, magCode]⟩
    · rw [if_neg hsub] at hdec
      cases hdec
      have hcode : E * 2 ^ 23 + M = magCode (E - 1) (2 ^ 23 + M) := by
        unfold magCode
        omega
      exact ⟨E - 1, by omega, by omega, by omega, by omega, by rw [hcode]⟩

/-- A magnitude code in units of 2^-149. -/
theorem fp32Units_magCode (neg : Bool) {j s : Nat} (hs : s ≤ 2 ^ 24) (hnormal : s < 2 ^ 23 → j = 0)
    (hfits : magCode j s < 255 * 2 ^ 23) :
    fp32Units (fp32.signed neg (magCode j s)) = some ((if neg then -1 else 1 : Int) * (s * 2 ^ j : Nat)) := by
  unfold magCode at hfits
  have hunits {k r : Nat} (hk : k ≤ 253) (hr : r < 2 ^ 24) (hn : r < 2 ^ 23 → k = 0) :
      fp32Units (fp32.signed neg (magCode k r)) = some ((if neg then -1 else 1 : Int) * (r * 2 ^ k : Nat)) := by
    rw [fp32Units, dec_magCode neg hk hr hn]
    simp
  obtain hlt | heq := Nat.lt_or_eq_of_le hs
  · exact hunits (by omega) hlt hnormal
  · have hcode : magCode j s = magCode (j + 1) (2 ^ 23) := by
      unfold magCode
      omega
    have hval : s * 2 ^ j = 2 ^ 23 * 2 ^ (j + 1) := by
      rw [heq, pow_succ 2 j]
      ring
    rw [hcode, hunits (by omega) (by omega) (by omega), hval]

-- Delivering to FP32

/-- A fraction is delivered by rounding its magnitude; a zero keeps its sign (R13, R14). -/
theorem deliver_num (mode : Rnd) (neg : Bool) (n d : Nat) :
    fp32.deliver mode false (.num neg n d) = if n = 0 then (fp32.signed neg 0, 0) else fp32.roundMag mode false neg n d := rfl

/-- A fraction that overflows is delivered as an infinity (R13). -/
theorem deliver_of_overflows {n d : Nat} (hn : 0 < n) (h : Overflows n d) (neg : Bool) :
    fp32.deliver .rn false (.num neg n d) = (fp32.inf neg, fOF ||| fIX) := by
  rw [deliver_num, if_neg hn.ne', roundMag_of_overflows h]

/-- Any other is delivered as the code of its units, to nearest (R12). -/
theorem deliver_of_not_overflows {n d : Nat} (hn : 0 < n) (hd : 0 < d) (h : ¬ Overflows n d) (neg : Bool) :
    ∃ tiny, (log2Frac n d < -127 → tiny = true) ∧ fp32.deliver .rn false (.num neg n d) =
      (fp32.signed neg (magCode (ulpExp n d) (roundedUnits .rn neg n d).1), roundFlags tiny (roundedUnits .rn neg n d).2) := by
  rw [deliver_num, if_neg hn.ne']
  exact roundMag_of_not_overflows h neg (units_rn_normal neg hn hd)

/-- The unit in the last place of a fraction (R88), in units of 2^-149. -/
theorem ulpUnits_num (neg : Bool) {n d : Nat} (hn : 0 < n) (hd : 0 < d) (h : ¬ Overflows n d) :
    ulpUnits (.num neg n d) = 2 ^ ulpExp n d := by
  obtain ⟨tiny, hround⟩ := roundMag_rz hn hd (log2Frac_le hn hd h) neg
  have hlt := units_rz_lt neg hn hd
  have hnormal := units_rz_normal neg hn hd
  have hplace := (magCode_lt hn hd h neg).1
  have hexp : fp32.signed neg (magCode (ulpExp n d) (roundedUnits .rz neg n d).1) % 2 ^ 31 / 2 ^ 23 - 1 = ulpExp n d := by
    rw [fp32_signed, magCode]
    split <;> omega
  rw [ulpUnits, deliver_num, if_neg hn.ne', hround, hexp]

/-- A fraction lies within a distance of a code of its own sign where the magnitudes do (R88). -/
theorem within_of_units {dist n d v : Nat} {neg : Bool} {c : Nat}
    (hunits : fp32Units c = some ((if neg then -1 else 1 : Int) * v)) (hlow : n * 2 ^ 149 ≤ v * d + dist * d)
    (hhigh : v * d ≤ n * 2 ^ 149 + dist * d) : within dist (.num neg n d) c = true := by
  have hmag : ((if neg then -1 else 1 : Int) * (n * 2 ^ 149 : Nat) - (if neg then -1 else 1 : Int) * v * d).natAbs =
      ((n * 2 ^ 149 : Nat) - (v * d : Nat) : Int).natAbs := by
    cases neg
    · simp
    · rw [← Int.natAbs_neg, if_pos rfl]
      congr 1
      push_cast
      ring
  have hdist : ((n * 2 ^ 149 : Nat) - (v * d : Nat) : Int).natAbs ≤ dist * d := by omega
  unfold within
  rw [hunits]
  exact decide_eq_true (hmag.trans_le hdist)

/-- What is delivered of a fraction is within an ulp of it (R88). -/
theorem withinUlps_deliver {k : Nat} (hk : 0 < k) (neg : Bool) (n : Nat) {d : Nat} (hd : 0 < d) (h : ¬ Overflows n d) :
    withinUlps k (.num neg n d) (fp32.deliver .rn false (.num neg n d)).1 = true := by
  obtain rfl | hn := Nat.eq_zero_or_pos n
  · have hzero : fp32Units (fp32.signed neg 0) = some ((if neg then -1 else 1 : Int) * (0 : Nat)) :=
      fp32Units_magCode (j := 0) (s := 0) neg (by omega) (fun _ => rfl) (by decide)
    exact within_of_units hzero (by omega) (by omega)
  · obtain ⟨tiny, -, hround⟩ := deliver_of_not_overflows hn hd h neg
    have hunits := fp32Units_magCode neg (units_rn_le neg hn hd) (units_rn_normal neg hn hd) (magCode_lt hn hd h neg).2
    obtain ⟨hlow, hhigh⟩ := units_rn_near neg n hd
    have hulp : d * 2 ^ ulpExp n d ≤ k * 2 ^ ulpExp n d * d := by
      rw [Nat.mul_comm d, Nat.mul_assoc]
      exact Nat.le_mul_of_pos_left _ hk
    have hmul : (roundedUnits .rn neg n d).1 * (d * 2 ^ ulpExp n d) = (roundedUnits .rn neg n d).1 * 2 ^ ulpExp n d * d := by
      ring
    rw [withinUlps, hround, ulpUnits_num neg hn hd h]
    exact within_of_units hunits (by omega) (by omega)

section
variable {n d j s : Nat} (hd : 0 < d) (hlt : s < 2 ^ 24) (hval : n * 2 ^ 149 = s * (d * 2 ^ j))
include hd hlt hval

/-- A fraction of s units, normal or at the least place, has its last unit at theirs (R9). -/
theorem ulpExp_of_units (hn : 0 < n) (hnormal : s < 2 ^ 23 → j = 0) : ulpExp n d = j := by
  have hupper := lt_ulpExp hn hd
  have hdouble {i k : Nat} (hik : i < k) : 2 * (d * 2 ^ i) ≤ d * 2 ^ k := by
    rw [Nat.mul_left_comm, ← pow_succ']
    exact Nat.mul_le_mul_left d (Nat.pow_le_pow_right two_pos hik)
  obtain hless | heq | hmore := Nat.lt_trichotomy (ulpExp n d) j
  · have hhigh := Nat.mul_le_mul_right (d * 2 ^ j) (not_lt.1 (mt hnormal (by omega)))
    have := hdouble hless
    omega
  · exact heq
  · have hlower := ulpExp_le hn hd (by omega)
    have hlow := Nat.mul_lt_mul_of_pos_right hlt (show 0 < d * 2 ^ j by positivity)
    have := hdouble hmore
    omega

/-- A fraction of the units of an FP32 code does not overflow. -/
theorem not_overflows_of_units (hj : j ≤ 253) : ¬ Overflows n d := by
  have hscale : (2 ^ 25 - 1) * (d * 2 ^ 253) = (2 ^ 25 - 1) * (d * 2 ^ 104) * 2 ^ 149 := by ring
  have hpow : d * 2 ^ j ≤ d * 2 ^ 253 := Nat.mul_le_mul_left d (Nat.pow_le_pow_right two_pos hj)
  have hmul : s * (d * 2 ^ j) ≤ (2 ^ 24 - 1) * (d * 2 ^ 253) := Nat.mul_le_mul (by omega) hpow
  have hpos : 0 < d * 2 ^ 253 := by positivity
  omega

/-- A fraction that is a number of units of an FP32 code is delivered as that code, exactly. -/
theorem deliver_exact (neg : Bool) (hs : 0 < s) (hj : j ≤ 253) (hnormal : s < 2 ^ 23 → j = 0) :
    fp32.deliver .rn false (.num neg n d) = (fp32.signed neg (magCode j s), 0) := by
  have hn : 0 < n := by
    refine Nat.pos_of_ne_zero fun hzero => ?_
    rw [hzero, Nat.zero_mul] at hval
    exact absurd hval (by positivity)
  have hplace := ulpExp_of_units hd hlt hval hn hnormal
  have hunits : roundedUnits .rn neg n d = (s, false) := by
    rw [roundedUnits, hplace, hval, roundAt_multiple _ _ _ (by positivity)]
  obtain ⟨tiny, -, hround⟩ := deliver_of_not_overflows hn hd (not_overflows_of_units hd hlt hval hj) neg
  rw [hround, hunits, hplace]
  rfl

end

end Sys2Proof.Machine

/-! The free results of the functions of R88: within the bound, and canonical (O4). -/

namespace Sys2Proof.Machine

-- Canonical codes

/-- An FP32 code whose NaN, if it holds one, is the canonical one (R10). -/
def Canonical (c : Nat) : Prop := c < 2 ^ 32 ∧ ∀ signalling, fp32.dec c = .nan signalling → c = fp32.nan

/-- A magnitude sig * 2^exp is one fraction, whatever the sign of its exponent. -/
theorem dyadic_eq_num (neg : Bool) (sig : Nat) (e : Int) :
    dyadic neg sig e = .num neg (sig * 2 ^ e.toNat) (2 ^ (-e).toNat) := by
  unfold dyadic
  split
  · next h => rw [Int.toNat_of_nonpos (by omega : -e ≤ 0), pow_zero]
  · next h => rw [Int.toNat_of_nonpos (by omega : e ≤ 0), pow_zero, mul_one]

/-- The number of an FP32 code is delivered as that code, exactly. -/
theorem deliver_dyadic (neg : Bool) {j s : Nat} (hlt : s < 2 ^ 24) (hj : j ≤ 253) (hnormal : s < 2 ^ 23 → j = 0) :
    fp32.deliver .rn false (dyadic neg s ((j : Int) - 149)) = (fp32.signed neg (magCode j s), 0) := by
  rw [dyadic_eq_num]
  obtain rfl | hs := Nat.eq_zero_or_pos s
  · rw [hnormal (by positivity), Nat.zero_mul]
    rfl
  · refine deliver_exact (by positivity) hlt ?_ neg hs hj hnormal
    rw [Nat.mul_assoc, ← pow_add, ← pow_add]
    congr 2
    omega

/-- An FP32 code that holds an infinity is the infinity's (R10). -/
theorem eq_inf_of_dec {c : Nat} (hc : c < 2 ^ 32) {neg : Bool} (hdec : fp32.dec c = .inf neg) : c = fp32.inf neg := by
  obtain ⟨neg', E, M, hE, hM, rfl⟩ := exists_fields hc
  rw [dec_fields neg' hE hM] at hdec
  by_cases htop : E = 255
  · rw [if_pos htop] at hdec
    split at hdec
    · next hzero =>
      cases hdec
      rw [htop, hzero]
      rfl
    · cases hdec
  · rw [if_neg htop] at hdec
    split at hdec <;> cases hdec

/-- A conversion of FP32 to itself keeps a canonical code, and raises no flag (R18). -/
theorem convert_of_canonical {c : Nat} (h : Canonical c) : fp32.convert fp32 .rn false c = (c, 0) := by
  obtain ⟨hc, hnan⟩ := h
  cases hdec : fp32.dec c with
  | nan s =>
    rw [hnan s hdec]
    rfl
  | inf neg =>
    rw [eq_inf_of_dec hc hdec]
    cases neg <;> rfl
  | fin neg m e =>
    obtain ⟨j, hj, hm, hnormal, rfl, rfl⟩ := exists_magCode hc hdec
    simp [Fmt.convert, hdec, Val.exact, Val.snan, deliver_dyadic neg hm hj hnormal]

/-- A finite code is canonical. -/
theorem canonical_of_fin {c : Nat} (hc : c < 2 ^ 32) {neg : Bool} {m : Nat} {e : Int} (hdec : fp32.dec c = .fin neg m e) :
    Canonical c :=
  ⟨hc, fun _ hnan => by rw [hdec] at hnan; cases hnan⟩

/-- A code with a number of units is finite, and so canonical. -/
theorem canonical_of_units {c : Nat} (hc : c < 2 ^ 32) {v : Int} (hunits : fp32Units c = some v) : Canonical c := by
  refine ⟨hc, fun s hnan => ?_⟩
  rw [fp32Units, hnan] at hunits
  cases hunits

/-- An infinity is canonical. -/
theorem canonical_inf (neg : Bool) : Canonical (fp32.inf neg) := by
  have hdec : fp32.dec (fp32.inf neg) = .inf neg := by cases neg <;> rfl
  exact ⟨by cases neg <;> decide, fun _ hnan => by rw [hdec] at hnan; cases hnan⟩

/-- A zero is canonical. -/
theorem canonical_zero (neg : Bool) : Canonical (fp32.signed neg 0) := by
  have hdec : fp32.dec (fp32.signed neg 0) = .fin neg 0 (-149) := by cases neg <;> rfl
  exact canonical_of_fin (by cases neg <;> decide) hdec

/-- What is delivered of a fraction is canonical. -/
theorem canonical_deliver (neg : Bool) (n : Nat) {d : Nat} (hd : 0 < d) :
    Canonical (fp32.deliver .rn false (.num neg n d)).1 := by
  obtain rfl | hn := Nat.eq_zero_or_pos n
  · exact canonical_zero neg
  by_cases h : Overflows n d
  · rw [deliver_of_overflows hn h]
    exact canonical_inf neg
  · obtain ⟨tiny, -, hround⟩ := deliver_of_not_overflows hn hd h neg
    obtain ⟨hplace, hcode⟩ := magCode_lt hn hd h neg
    rw [hround]
    refine canonical_of_units ?_ (fp32Units_magCode neg (units_rn_le neg hn hd) (units_rn_normal neg hn hd) hcode)
    rw [fp32_signed]
    split <;> omega

-- Off the grid

/-- A fraction that overflows is not zero. -/
theorem pos_of_overflows {n d : Nat} (hd : 0 < d) (h : Overflows n d) : 0 < n := by
  unfold Overflows at h
  omega

/-- Moving a fraction off the grid (R88) leaves one that overflows as it is, and makes no other overflow. -/
theorem offGrid_num (neg : Bool) (n : Nat) {d : Nat} (hd : 0 < d) :
    Overflows n d ∧ offGrid (.num neg n d) = .num neg n d ∨
      ¬ Overflows n d ∧ ∃ n' d', 0 < d' ∧ ¬ Overflows n' d' ∧ offGrid (.num neg n d) = .num neg n' d' := by
  by_cases h : Overflows n d
  · refine .inl ⟨h, ?_⟩
    rw [offGrid, deliver_of_overflows (pos_of_overflows hd h) h]
    exact if_neg (show ¬ (fOF ||| fIX) &&& fIX = 0 by decide)
  · refine .inr ⟨h, ?_⟩
    unfold offGrid
    dsimp only
    split
    · refine ⟨_, _, by positivity, fun hover => h ?_, rfl⟩
      rw [Overflows] at hover ⊢
      have hscale : (2 ^ 25 - 1) * (2 ^ 60 * d * 2 ^ 104) = 2 ^ 60 * ((2 ^ 25 - 1) * (d * 2 ^ 104)) := by ring
      rw [hscale] at hover
      refine Nat.le_of_mul_le_mul_left (hover.trans ?_) (by positivity : 0 < 2 ^ 60)
      rw [Nat.mul_left_comm]
      exact Nat.mul_le_mul_left 2 (Nat.sub_le ..)
    · exact ⟨n, d, hd, h, rfl⟩

-- Free results

/-- A fraction that does not overflow raises no overflow (R13). -/
theorem deliver_flag (neg : Bool) (n : Nat) {d : Nat} (hd : 0 < d) (h : ¬ Overflows n d) :
    (fp32.deliver .rn false (.num neg n d)).2.getLsbD 2 = false := by
  obtain rfl | hn := Nat.eq_zero_or_pos n
  · rw [deliver_num, if_pos rfl]
    exact BitVec.getLsbD_zero
  · obtain ⟨tiny, -, hround⟩ := deliver_of_not_overflows hn hd h neg
    rw [hround]
    exact roundFlags_overflow tiny _

/-- A free result that overflows is an infinity (R13). -/
theorem freeResult_of_overflows (f : Func) (a : W32) {neg : Bool} {n d : Nat} (hd : 0 < d) (h : Overflows n d) :
    freeResult f a (.num neg n d) = (fp32.inf neg, fOF ||| fIX) := by
  have hn := pos_of_overflows hd h
  obtain ⟨-, hoff⟩ | ⟨hnot, -⟩ := offGrid_num neg n hd
  · rw [freeResult, hoff, deliver_of_overflows hn h]
    rfl
  · exact absurd h hnot

/-- The bound of a function holds where an ulp does (R88). -/
theorem funcBound_of_withinUlps (f : Func) (a : W32) {x : Exact} {c : Nat} (h : ∀ k, 0 < k → withinUlps k x c = true) :
    funcBound f a x c = true := by
  rw [funcBound, h _ (by split <;> decide), Bool.true_or]

/-- A code within the bound of a function is canonical. -/
theorem canonical_of_funcBound {f : Func} {a : W32} {x : Exact} {c : Nat} (hc : c < 2 ^ 32)
    (h : funcBound f a x c = true) : Canonical c := by
  cases hunits : fp32Units c with
  | some v => exact canonical_of_units hc hunits
  | none =>
    have hout (dist : Nat) : within dist x c = false := by
      unfold within
      rw [hunits]
      cases x <;> rfl
    simp [funcBound, withinUlps, hout] at h

/-- A free result that does not overflow lies within the bound, is inexact and canonical (R88). -/
theorem freeResult_of_not_overflows (f : Func) (a : W32) {neg : Bool} {n d : Nat} (hd : 0 < d) (h : ¬ Overflows n d) :
    funcBound f a (offGrid (.num neg n d)) (freeResult f a (.num neg n d)).1 = true ∧
      (freeResult f a (.num neg n d)).2 &&& fIX = fIX ∧ Canonical (freeResult f a (.num neg n d)).1 := by
  obtain ⟨hover, -⟩ | ⟨-, n', d', hd', hfits, hoff⟩ := offGrid_num neg n hd
  · exact absurd hover h
  have hflag : (fp32.deliver .rn false (.num neg n' d')).2.getLsbD 2 = false := deliver_flag neg n' hd' hfits
  have hbound : funcBound f a (.num neg n' d') (fp32.deliver .rn false (.num neg n' d')).1 = true :=
    funcBound_of_withinUlps f a fun k hk => withinUlps_deliver hk neg n' hd' hfits
  have hix (fl : FpFlags) : (fl ||| fIX) &&& fIX = fIX := by
    revert fl
    decide
  rw [freeResult, hoff]
  simp only [hflag, Bool.false_eq_true, if_false]
  refine ⟨?_, hix _, ?_⟩
  · split
    · next hfree => exact hfree
    · exact hbound
  · split
    · next hfree => exact canonical_of_funcBound (BitVec.isLt _) hfree
    · exact canonical_deliver neg n' hd'

end Sys2Proof.Machine

/-! The fixed-point approximations of R88: fractions that do not overflow where the function does not (O4). -/

namespace Sys2Proof.Machine

/-- A fraction below 2^100 does not overflow. -/
theorem not_overflows_of_le {n d : Nat} (hd : 0 < d) (h : n ≤ 2 ^ 100 * d) : ¬ Overflows n d := by
  unfold Overflows
  omega

-- The sine

/-- One term of the alternating series of R88's sine and cosine: the sum so far, and the next term. -/
def seriesStep (odd : Bool) (t2 : Nat) (acc : Int × Int) (k : Nat) : Int × Int :=
  let j : Int := 2 * k + (if odd then 2 else 1)
  (acc.1 + acc.2, -(acc.2 * t2 / fxOne / (j * (j + 1))))

/-- The square of the angle, in fixed point. -/
def angleSquare (n d : Nat) : Nat := (fxPi * n / d) * (fxPi * n / d) / fxOne

/-- The series folds its step. -/
theorem fxSeries_eq (odd : Bool) (n d : Nat) : fxSeries odd n d =
    ((List.range 40).foldl (seriesStep odd (angleSquare n d)) (0, if odd then (fxPi : Int) else fxOne)).1.toNat := rfl

/-- A term of the series is at most four times the one before, for a square up to four. -/
theorem abs_seriesStep_le {odd : Bool} {t2 : Nat} (ht : t2 ≤ 4 * fxOne) {acc : Int × Int} {B : Int}
    (hsum : |acc.1| ≤ B) (hterm : |acc.2| ≤ B) (k : Nat) :
    |(seriesStep odd t2 acc k).1| ≤ 4 * B ∧ |(seriesStep odd t2 acc k).2| ≤ 4 * B := by
  have hone : (0 : Int) < fxOne := by decide
  have hsquare : (t2 : Int) ≤ 4 * fxOne := mod_cast ht
  have hB : 0 ≤ B := (abs_nonneg _).trans hsum
  refine ⟨?_, ?_⟩
  · calc |acc.1 + acc.2| ≤ |acc.1| + |acc.2| := abs_add_le ..
      _ ≤ 4 * B := by linarith
  · have hproduct : |acc.2 * t2| ≤ 4 * B * fxOne :=
      calc |acc.2 * t2| = |acc.2| * t2 := by rw [abs_mul, Nat.abs_cast]
        _ ≤ B * (4 * fxOne) := by gcongr
        _ = 4 * B * fxOne := by ring
    have hscaled : |acc.2 * t2 / fxOne| ≤ 4 * B := by
      rw [abs_le] at hproduct ⊢
      exact ⟨Int.le_ediv_of_mul_le hone (by linarith [hproduct.1]), Int.ediv_le_of_le_mul hone hproduct.2⟩
    rw [seriesStep, abs_neg]
    exact (Int.abs_ediv_le_abs _ _).trans hscaled

/-- The sum of the series, with a bound that grows fourfold with each term. -/
theorem abs_foldl_seriesStep_le {odd : Bool} {t2 : Nat} (ht : t2 ≤ 4 * fxOne) (ks : List Nat) :
    ∀ {acc : Int × Int} {B : Int}, |acc.1| ≤ B → |acc.2| ≤ B →
      |(ks.foldl (seriesStep odd t2) acc).1| ≤ 4 ^ ks.length * B := by
  induction ks with
  | nil =>
    intro acc B hsum _
    simpa using hsum
  | cons k ks ih =>
    intro acc B hsum hterm
    obtain ⟨hsum', hterm'⟩ := abs_seriesStep_le (odd := odd) ht hsum hterm k
    rw [List.foldl_cons, List.length_cons, pow_succ, mul_assoc]
    exact ih hsum' hterm'

/-- Pi in fixed point is below four. -/
theorem fxPi_le : fxPi ≤ 4 * fxOne := by decide +kernel

/-- The series of an angle up to half a turn is below 2^82. -/
theorem fxSeries_le (odd : Bool) {n d : Nat} (h : 2 * n ≤ d) : fxSeries odd n d ≤ 2 ^ 82 * fxOne := by
  have hone : 0 < fxOne := by decide
  have hangle : fxPi * n / d ≤ 2 * fxOne := by
    refine Nat.div_le_of_le_mul ?_
    have := Nat.mul_le_mul fxPi_le h
    nlinarith
  have hsquare : angleSquare n d ≤ 4 * fxOne := by
    refine Nat.div_le_of_le_mul ?_
    have := Nat.mul_le_mul hangle hangle
    nlinarith
  have hfirst : |if odd then (fxPi : Int) else fxOne| ≤ (4 * fxOne : Nat) := by
    cases odd
    · rw [if_neg Bool.false_ne_true, Nat.abs_cast]
      exact_mod_cast Nat.le_mul_of_pos_left fxOne four_pos
    · rw [if_pos rfl, Nat.abs_cast]
      exact_mod_cast fxPi_le
  have hzero : |(0 : Int)| ≤ (4 * fxOne : Nat) := by
    rw [abs_zero]
    exact Int.natCast_nonneg _
  have hsum := abs_foldl_seriesStep_le (odd := odd) hsquare (List.range 40) (acc := (0, _)) hzero hfirst
  have hpow : (4 : Int) ^ (List.range 40).length * (4 * fxOne : Nat) = (2 ^ 82 * fxOne : Nat) := by
    rw [List.length_range]
    push_cast
    ring
  rw [fxSeries_eq, Int.toNat_le, ← hpow]
  exact (le_abs_self _).trans hsum

/-- The approximation of a sine is a fraction that does not overflow. -/
theorem approxSinPi_num {n d : Nat} (h : n < 2 * d) :
    ∃ g u v, approxSinPi n d = .num g u v ∧ 0 < v ∧ ¬ Overflows u v := by
  have hone : 0 < fxOne := by decide
  have hd : 0 < d := by omega
  unfold approxSinPi
  extract_lets neg n1 n2
  have hfold : 2 * n2 ≤ d := by
    have hn1 : n1 < d := by
      simp only [n1, neg]
      split <;> omega
    simp only [n2]
    split <;> omega
  split
  · next hodd =>
    refine ⟨_, _, _, rfl, by positivity, not_overflows_of_le (by positivity) ?_⟩
    calc fxSeries true n2 d * n2 ≤ 2 ^ 82 * fxOne * d := Nat.mul_le_mul (fxSeries_le true hfold) (by omega)
      _ = 2 ^ 82 * (fxOne * d) := Nat.mul_assoc ..
      _ ≤ 2 ^ 100 * (fxOne * d) := Nat.mul_le_mul_right _ (by norm_num)
  · next heven =>
    refine ⟨_, _, _, rfl, hone, not_overflows_of_le hone ?_⟩
    exact (fxSeries_le false (by omega)).trans (Nat.mul_le_mul_right _ (by norm_num))

-- The logarithm

/-- The bits of a logarithm's fraction are as many as are asked for. -/
theorem fxLog2Bits_lt : ∀ k y acc, fxLog2Bits k y acc < (acc + 1) * 2 ^ k
  | 0, _, acc => by simp [fxLog2Bits]
  | k + 1, y, acc => by
    have hone := fxLog2Bits_lt k (y * y / fxOne / 2) (2 * acc + 1)
    have hzero := fxLog2Bits_lt k (y * y / fxOne) (2 * acc)
    rw [fxLog2Bits, pow_succ]
    split
    · linarith
    · have hpos : 0 < 2 ^ k := by positivity
      linarith

/-- The approximation of a logarithm is a fraction that does not overflow. -/
theorem approxLog2_num (n d : Nat) (hsmall : (log2Frac n d).natAbs < 2 ^ 99) :
    ∃ g u v, approxLog2 n d = .num g u v ∧ 0 < v ∧ ¬ Overflows u v := by
  obtain ⟨b, hb, happrox⟩ : ∃ b : Nat, b < 2 ^ 80 ∧ approxLog2 n d =
      .num (decide (log2Frac n d * 2 ^ 80 + (b : Int) < 0)) (log2Frac n d * 2 ^ 80 + (b : Int)).natAbs (2 ^ 80) :=
    ⟨_, by simpa using fxLog2Bits_lt 80 _ 0, rfl⟩
  exact ⟨_, _, _, happrox, by positivity, not_overflows_of_le (by positivity) (by omega)⟩

-- The power

/-- The approximation of a power is a positive fraction. -/
theorem approxExp2_num (neg : Bool) (n d : Nat) : ∃ u v, approxExp2 neg n d = .num false u v ∧ 0 < v :=
  ⟨_, _, dyadic_eq_num .., by positivity⟩

/-- The exponential in fixed point is at least one. -/
theorem le_fxExp (x : Nat) : fxOne ≤ fxExp x := by
  unfold fxExp
  rw [List.range_succ, List.foldl_append]
  refine List.foldlRecOn (motive := fun acc : Nat × Nat => fxOne ≤ acc.1 + acc.2) (List.range 47) _ ?_ ?_
  · exact Nat.le_add_left ..
  · intro acc hacc k _
    exact Nat.le_add_right_of_le hacc

/-- The approximation of a power of 128 or more overflows. -/
theorem approxExp2_overflows {n d : Nat} (hd : 0 < d) (h : 128 * d ≤ n) :
    ∃ u v, approxExp2 false n d = .num false u v ∧ 0 < v ∧ Overflows u v := by
  have hone : 2 ^ 160 ≤ fxExp (fxLn2 * ((n : Int) % d).toNat / d) := le_fxExp _
  have hquot : 128 ≤ (n : Int) / d := Int.le_ediv_of_mul_le (by omega) (by exact_mod_cast h)
  have hden : 2 ^ (-((n : Int) / d - 160)).toNat ≤ 2 ^ 32 := Nat.pow_le_pow_right two_pos (by omega)
  have hnum : 2 ^ 160 ≤ fxExp (fxLn2 * ((n : Int) % d).toNat / d) * 2 ^ ((n : Int) / d - 160).toNat :=
    hone.trans (Nat.le_mul_of_pos_right _ (by positivity))
  refine ⟨_, _, dyadic_eq_num .., by positivity, ?_⟩
  change (2 ^ 25 - 1) * (2 ^ (-((n : Int) / d - 160)).toNat * 2 ^ 104) ≤
    2 * (fxExp (fxLn2 * ((n : Int) % d).toNat / d) * 2 ^ ((n : Int) / d - 160).toNat)
  omega

-- The hyperbolic tangent

/-- The approximation of a hyperbolic tangent is a fraction that does not overflow. -/
theorem approxTanh_num (n : Nat) {d : Nat} (hd : 0 < d) :
    ∃ u v, approxTanh n d = .num false u v ∧ 0 < v ∧ ¬ Overflows u v := by
  have hone : 0 < fxOne := by decide
  unfold approxTanh
  split
  · next hsmall =>
    extract_lets q q2 q3 q4
    have hscaled {x y : Nat} (hx : x ≤ fxOne) (hy : y ≤ fxOne) : x * y / fxOne ≤ fxOne :=
      Nat.div_le_of_le_mul (Nat.mul_le_mul hx hy)
    have hq : q ≤ fxOne := by
      refine Nat.div_le_of_le_mul ?_
      have hsquare : n * n ≤ d * d := Nat.mul_le_mul (by omega) (by omega)
      exact Nat.mul_le_mul_right fxOne hsquare
    have hq2 : q2 ≤ fxOne := hscaled hq hq
    have hq4 : q4 ≤ fxOne := hscaled (hscaled hq2 hq) hq
    clear_value q q2 q3 q4
    refine ⟨_, _, rfl, by positivity, not_overflows_of_le (by positivity) ?_⟩
    calc (fxOne + 2 * q2 / 15 + 62 * q4 / 2835 - q / 3 - 17 * q3 / 315) * n ≤ (3 * fxOne) * d :=
          Nat.mul_le_mul (by omega) (by omega)
      _ = 3 * (fxOne * d) := Nat.mul_assoc ..
      _ ≤ 2 ^ 100 * (fxOne * d) := Nat.mul_le_mul_right _ (by norm_num)
  · extract_lets i r e1 ei w
    clear_value w
    exact ⟨_, _, rfl, by omega, not_overflows_of_le (by omega) (by omega)⟩

end Sys2Proof.Machine

/-! The functions of R88 on a finite operand, and what they deliver (O4). -/

namespace Sys2Proof.Machine

-- Each function on a finite operand

/-- A fraction with its sign turned where a bit says so. -/
def Exact.turned (n : Bool) : Exact → Exact
  | .num g u v => .num (n != g) u v
  | x => x

section
variable {a : W32} {n : Bool} {m : Nat} {e : Int} (hdec : fp32.dec a.toNat = .fin n m e)
include hdec

/-- 2^x (R88): of a zero 1, of an integer its power, and a free result elsewhere. -/
theorem funcFp32_exp2 (p q : Nat) (hp : p = m * 2 ^ e.toNat) (hq : q = 2 ^ (-e).toNat) : funcFp32 .exp2 a =
    if m = 0 then (0x3F800000, 0)
    else if p ≥ 1000 * q then
      (if n then fp32.deliver .rn false (.num false 1 (2 ^ 1000)) else fp32.deliver .rn false (.num false (2 ^ 1000) 1))
    else if p % q = 0 then fp32.deliver .rn false (dyadic false 1 (if n then -((p / q : Nat) : Int) else p / q))
    else freeResult .exp2 a (approxExp2 n p q) := by
  unfold funcFp32
  rw [hdec]
  dsimp only
  rw [dyadic_eq_num, ← hp, ← hq]

/-- The logarithm (R88): of zeros and negative numbers the exceptional results, of a power its exponent, and a free result
elsewhere. -/
theorem funcFp32_log2 (p q : Nat) (hp : p = m * 2 ^ e.toNat) (hq : q = 2 ^ (-e).toNat) : funcFp32 .log2 a =
    if m = 0 then (fp32.inf true, fDZ)
    else if n then (fp32.nan, fIV)
    else if m = 2 ^ Nat.log2 m then fp32.ofInt .rn false ((Nat.log2 m : Int) + e)
    else freeResult .log2 a (approxLog2 p q) := by
  unfold funcFp32
  rw [hdec]
  dsimp only
  rw [dyadic_eq_num, ← hp, ← hq]

/-- The sine (R88): at integers and their halves exact, and a free result elsewhere. -/
theorem funcFp32_sinpi (p q : Nat) (hp : p = m * 2 ^ e.toNat) (hq : q = 2 ^ (-e).toNat) : funcFp32 .sinpi a =
    if m = 0 then (a.toNat, 0)
    else if p % q = 0 then (fp32.signed n 0, 0)
    else if 2 * p % q = 0 then (fp32.signed (n != decide (p % (2 * q) ≥ q)) 0x3F800000, 0)
    else freeResult .sinpi a ((approxSinPi (p % (2 * q)) q).turned n) := by
  unfold funcFp32
  rw [hdec]
  dsimp only
  rw [dyadic_eq_num, ← hp, ← hq]
  dsimp only
  cases approxSinPi (p % (2 * q)) q <;> rfl

/-- The cosine (R88): at integers and their halves exact, and a free result elsewhere. -/
theorem funcFp32_cospi (p q : Nat) (hp : p = m * 2 ^ e.toNat) (hq : q = 2 ^ (-e).toNat) : funcFp32 .cospi a =
    if p % q = 0 then (fp32.signed (p / q % 2 == 1) 0x3F800000, 0)
    else if 2 * p % q = 0 then (0, 0)
    else freeResult .cospi a (approxSinPi ((2 * p + q) % (4 * q)) (2 * q)) := by
  unfold funcFp32
  rw [hdec]
  dsimp only
  rw [dyadic_eq_num, ← hp, ← hq]

/-- The hyperbolic tangent (R88): of a zero itself, one from 9.125 on, and a free result elsewhere. -/
theorem funcFp32_tanh (p q : Nat) (hp : p = m * 2 ^ e.toNat) (hq : q = 2 ^ (-e).toNat) : funcFp32 .tanh a =
    if m = 0 then (a.toNat, 0)
    else if 8 * p ≥ 73 * q then (fp32.signed n 0x3F800000, 0)
    else freeResult .tanh a ((approxTanh p q).turned n) := by
  unfold funcFp32
  rw [hdec]
  dsimp only
  rw [dyadic_eq_num, ← hp, ← hq]
  obtain ⟨u, v, happrox, -, -⟩ := approxTanh_num p (hq ▸ Nat.two_pow_pos _ : 0 < q)
  dsimp only
  rw [happrox, Exact.turned, Bool.bne_false]

end

-- Powers and integers

/-- The code of 2^k, for k from -149 to 127 (R9). -/
def powerCode (k : Int) : Nat := if -126 ≤ k then (k + 127).toNat * 2 ^ 23 else 2 ^ (k + 149).toNat

/-- A power is its code's number of units. -/
theorem powerCode_eq {k : Int} (hlow : -149 ≤ k) (hhigh : k ≤ 127) :
    ∃ j t : Nat, powerCode k = magCode j (2 ^ t) ∧ j ≤ 253 ∧ t ≤ 23 ∧ (t ≠ 23 → j = 0) ∧ k = t + j - 149 := by
  unfold powerCode magCode
  split
  · exact ⟨(k + 126).toNat, 23, by omega, by omega, le_rfl, by omega, by omega⟩
  · exact ⟨0, (k + 149).toNat, by omega, by omega, by omega, fun _ => rfl, by omega⟩

/-- The units of a power are those of an FP32 code. -/
theorem two_pow_units {t j : Nat} (ht : t ≤ 23) (hj : t ≠ 23 → j = 0) : 2 ^ t < 2 ^ 24 ∧ (2 ^ t < 2 ^ 23 → j = 0) :=
  ⟨Nat.pow_lt_pow_right Nat.one_lt_two (by omega), fun hless => hj fun htop => absurd hless (by rw [htop]; exact lt_irrefl _)⟩

/-- A power of 2 is delivered exactly. -/
theorem deliver_power {k : Int} (hlow : -149 ≤ k) (hhigh : k ≤ 127) :
    fp32.deliver .rn false (dyadic false 1 k) = (powerCode k, 0) := by
  obtain ⟨j, t, hcode, hj, ht, hplace, hk⟩ := powerCode_eq hlow hhigh
  obtain ⟨hlt, hnormal⟩ := two_pow_units ht hplace
  rw [hcode, dyadic_eq_num, Nat.one_mul]
  refine deliver_exact (by positivity) hlt ?_ false (by positivity) hj hnormal
  rw [← pow_add, ← pow_add, ← pow_add]
  congr 1
  omega

/-- A fraction of at most a half rounds to zero (R12). -/
theorem roundAt_rn_half (neg : Bool) {n d : Nat} (hn : 0 < n) (h : 2 * n ≤ d) : roundAt .rn neg n d 0 = (0, true) := by
  have hlt : n < d := by omega
  simp [roundAt, Nat.div_eq_of_lt hlt, Nat.mod_eq_of_lt hlt, h.not_gt, hn.ne']

/-- A power below the least FP32 magnitude's half, or at it, underflows to zero (R13, R16). -/
theorem deliver_underflow {t : Nat} (ht : 150 ≤ t) :
    fp32.deliver .rn false (.num false 1 (2 ^ t)) = (0, fUF ||| fIX) := by
  have hpow : 2 ^ 150 ≤ 2 ^ t := Nat.pow_le_pow_right two_pos ht
  have hfits : ¬ Overflows 1 (2 ^ t) := not_overflows_of_le (by positivity) (by omega)
  have hlog : log2Frac 1 (2 ^ t) < -127 := by
    have hone : Nat.log2 1 = 0 := rfl
    unfold log2Frac
    rw [Nat.log2_two_pow, hone]
    dsimp only
    split <;> omega
  have hplace : ulpExp 1 (2 ^ t) = 0 := by
    unfold ulpExp
    omega
  have hunits : roundedUnits .rn false 1 (2 ^ t) = (0, true) := by
    rw [roundedUnits, hplace]
    exact roundAt_rn_half false (by positivity) (by omega)
  obtain ⟨tiny, htiny, hround⟩ := deliver_of_not_overflows Nat.one_pos (by positivity) hfits false
  rw [hround, htiny hlog, hunits, hplace]
  rfl

/-- A small integer other than zero is delivered exactly: its code holds it as its significand over a power. -/
theorem ofInt_code {k : Int} (hzero : k ≠ 0) (hsmall : k.natAbs < 2 ^ 24) :
    ∃ c t : Nat, fp32.ofInt .rn false k = (c, 0) ∧ c < 2 ^ 32 ∧ t ≤ 23 ∧
      fp32.dec c = .fin (decide (k < 0)) (k.natAbs * 2 ^ t) (-t) := by
  have hn : 0 < k.natAbs := Int.natAbs_pos.2 hzero
  have hlow := Nat.log2_self_le hn.ne'
  have hhigh := Nat.lt_log2_self (n := k.natAbs)
  have hlog : k.natAbs.log2 < 24 := (Nat.log2_lt hn.ne').2 hsmall
  generalize hL : k.natAbs.log2 = L at hlow hhigh hlog
  have hlt : k.natAbs * 2 ^ (23 - L) < 2 ^ 24 := by
    calc k.natAbs * 2 ^ (23 - L) < 2 ^ (L + 1) * 2 ^ (23 - L) := by gcongr
      _ = 2 ^ 24 := by rw [← pow_add]; congr 1; omega
  have hnormal : 2 ^ 23 ≤ k.natAbs * 2 ^ (23 - L) := by
    calc 2 ^ 23 = 2 ^ L * 2 ^ (23 - L) := by rw [← pow_add]; congr 1; omega
      _ ≤ k.natAbs * 2 ^ (23 - L) := by gcongr
  have hval : k.natAbs * 2 ^ 149 = k.natAbs * 2 ^ (23 - L) * (1 * 2 ^ (L + 126)) := by
    rw [Nat.one_mul, Nat.mul_assoc, ← pow_add]
    congr 2
    omega
  refine ⟨_, 23 - L, deliver_exact Nat.one_pos hlt hval _ (by positivity) (by omega) (by omega), ?_, by omega, ?_⟩
  · rw [fp32_signed, magCode]
    split <;> omega
  · have hexp : ((L + 126 : Nat) : Int) - 149 = -(23 - L : Nat) := by omega
    rw [dec_magCode _ (by omega) hlt (by omega), hexp]

-- Results within the bound

/-- A result lies within some ulps of an exact one moved off the grid, and is inexact (R88). -/
def Near (ulps : Nat) (x : Exact) (r : Nat × FpFlags) : Prop :=
  withinUlps ulps (offGrid x) r.1 = true ∧ r.2 &&& fIX = fIX

/-- A free result other than a logarithm's lies within its function's ulps, where it does not overflow (R88). -/
theorem freeResult_near {f : Func} (hf : f ≠ .log2) (a : W32) {neg : Bool} {n d : Nat} (hd : 0 < d)
    (h : ¬ Overflows n d) : Near (if f == .tanh then 2 else 1) (.num neg n d) (freeResult f a (.num neg n d)) := by
  obtain ⟨hbound, hix, -⟩ := freeResult_of_not_overflows f a (neg := neg) hd h
  have hlog : (f == .log2) = false := beq_eq_false_iff_ne.2 hf
  rw [funcBound, hlog, Bool.false_and, Bool.false_and, Bool.false_and, Bool.or_false] at hbound
  exact ⟨hbound, hix⟩

/-- A free result is canonical. -/
theorem canonical_freeResult (f : Func) (a : W32) (neg : Bool) (n : Nat) {d : Nat} (hd : 0 < d) :
    Canonical (freeResult f a (.num neg n d)).1 := by
  by_cases h : Overflows n d
  · rw [freeResult_of_overflows f a hd h]
    exact canonical_inf neg
  · exact (freeResult_of_not_overflows f a hd h).2.2

-- On a finite operand

/-- A power of 128 or more is delivered as an infinity (R13). -/
theorem deliver_large {k : Nat} (hk : 128 ≤ k) :
    fp32.deliver .rn false (.num false (2 ^ k) 1) = (0x7F800000, fOF ||| fIX) := by
  have hpow : 2 ^ 128 ≤ 2 ^ k := Nat.pow_le_pow_right two_pos hk
  have hover : Overflows (2 ^ k) 1 := by
    unfold Overflows
    omega
  exact deliver_of_overflows (Nat.two_pow_pos k) hover false

/-- The denominator of a finite operand is positive. -/
theorem den_pos {q : Nat} {e : Int} (hq : q = 2 ^ (-e).toNat) : 0 < q := hq ▸ Nat.two_pow_pos _

/-- The angle of a cosine, a quarter turn on, is below a full turn (R88). -/
theorem turn_lt {q : Nat} (hden : 0 < q) (p : Nat) : (2 * p + q) % (4 * q) < 2 * (2 * q) := by
  have := Nat.mod_lt (2 * p + q) (by omega : 0 < 4 * q)
  omega

section
variable {a : W32} {n : Bool} {m p q : Nat} {e : Int} (hdec : fp32.dec a.toNat = .fin n m e)
  (hp : p = m * 2 ^ e.toNat) (hq : q = 2 ^ (-e).toNat)
include hdec hp hq

/-- The binade of a finite operand is far from overflow. -/
theorem log2Frac_small : (log2Frac p q).natAbs < 2 ^ 99 := by
  obtain ⟨j, hj, hm, -, rfl, -⟩ := exists_magCode a.isLt hdec
  have hplt : p < 2 ^ 128 := by
    calc p = m * 2 ^ ((j : Int) - 149).toNat := hp
      _ < 2 ^ 24 * 2 ^ ((j : Int) - 149).toNat := by gcongr
      _ ≤ 2 ^ 24 * 2 ^ 104 := Nat.mul_le_mul_left _ (Nat.pow_le_pow_right two_pos (by omega))
      _ = 2 ^ 128 := by rw [← pow_add]
  have hplog : p.log2 < 128 := by
    obtain rfl | hpos := Nat.eq_zero_or_pos p
    · decide
    · exact (Nat.log2_lt hpos.ne').2 hplt
  have hqlog : q.log2 ≤ 149 := by
    rw [hq, Nat.log2_two_pow]
    omega
  unfold log2Frac
  dsimp only
  split <;> omega

/-- 2^x overflows from 128 on (R88). -/
theorem exp2_overflow (hm : m ≠ 0) (hn : n = false) (hbig : 128 * q ≤ p) :
    funcFp32 .exp2 a = (0x7F800000, fOF ||| fIX) := by
  rw [funcFp32_exp2 hdec p q hp hq, if_neg hm, hn]
  by_cases hfar : p ≥ 1000 * q
  · rw [if_pos hfar, if_neg Bool.false_ne_true]
    exact deliver_large (by norm_num)
  rw [if_neg hfar]
  by_cases hwhole : p % q = 0
  · have hquot : 128 ≤ p / q := (Nat.le_div_iff_mul_le (den_pos hq)).2 hbig
    have hpower : dyadic false 1 ((p / q : Nat) : Int) = .num false (2 ^ (p / q)) 1 := by
      rw [dyadic_eq_num, Nat.one_mul, Int.toNat_natCast, Int.toNat_neg_natCast, pow_zero]
    rw [if_pos hwhole, if_neg Bool.false_ne_true, ← Int.natCast_div, hpower]
    exact deliver_large hquot
  · obtain ⟨u, v, happrox, hv, hover⟩ := approxExp2_overflows (den_pos hq) hbig
    rw [if_neg hwhole, happrox]
    exact freeResult_of_overflows .exp2 a hv hover

/-- 2^x of an integer of at most -150 underflows (R88). -/
theorem exp2_underflow (hm : m ≠ 0) (hn : n = true) (hbig : 150 * q ≤ p) (hwhole : p % q = 0) :
    funcFp32 .exp2 a = (0, fUF ||| fIX) := by
  rw [funcFp32_exp2 hdec p q hp hq, if_neg hm, hn]
  by_cases hfar : p ≥ 1000 * q
  · rw [if_pos hfar, if_pos rfl]
    exact deliver_underflow (by norm_num)
  · have hquot : 150 ≤ p / q := (Nat.le_div_iff_mul_le (den_pos hq)).2 hbig
    have hpower : dyadic false 1 (-((p / q : Nat) : Int)) = .num false 1 (2 ^ (p / q)) := by
      rw [dyadic_eq_num, Nat.one_mul, Int.toNat_neg_natCast, neg_neg, Int.toNat_natCast, pow_zero]
    rw [if_neg hfar, if_pos hwhole, if_pos rfl, hpower]
    exact deliver_underflow hquot

/-- 2^x of any other operand lies within an ulp, or overflows (R88). -/
theorem exp2_near (hm : m ≠ 0) (hwhole : ¬ p % q = 0) (hsmall : p < 1000 * q) :
    Near 1 (approxExp2 n p q) (funcFp32 .exp2 a) ∨
      (fp32.deliver .rn false (approxExp2 n p q)).2.getLsbD 2 = true ∧ funcFp32 .exp2 a = (0x7F800000, fOF ||| fIX) := by
  obtain ⟨u, v, happrox, hv⟩ := approxExp2_num n p q
  rw [funcFp32_exp2 hdec p q hp hq, if_neg hm, if_neg hsmall.not_ge, if_neg hwhole, happrox]
  by_cases h : Overflows u v
  · right
    rw [deliver_of_overflows (pos_of_overflows hv h) h, freeResult_of_overflows .exp2 a hv h]
    exact ⟨by decide, rfl⟩
  · exact .inl (freeResult_near (by decide) a hv h)

/-- The logarithm of a positive number that is no power of 2 lies within an ulp, or near 1 within 2^-22 (R88). -/
theorem log2_near (hm : m ≠ 0) (hn : n = false) (hpower : m ≠ 2 ^ Nat.log2 m) :
    (withinUlps 1 (offGrid (approxLog2 p q)) (funcFp32 .log2 a).1 = true ∨
        0x3F000000 ≤ a.toNat ∧ a.toNat ≤ 0x40000000 ∧ within (2 ^ 127) (offGrid (approxLog2 p q)) (funcFp32 .log2 a).1 = true) ∧
      (funcFp32 .log2 a).2 &&& fIX = fIX := by
  obtain ⟨g, u, v, happrox, hv, hfits⟩ := approxLog2_num p q (log2Frac_small hdec hp hq)
  rw [funcFp32_log2 hdec p q hp hq, if_neg hm, hn, if_neg Bool.false_ne_true, if_neg hpower, happrox]
  obtain ⟨hbound, hix, -⟩ := freeResult_of_not_overflows .log2 a (neg := g) hv hfits
  simp only [funcBound, Bool.or_eq_true, Bool.and_eq_true, decide_eq_true_eq, beq_self_eq_true, true_and] at hbound
  obtain hulp | ⟨⟨hlow, hhigh⟩, habs⟩ := hbound
  · exact ⟨.inl hulp, hix⟩
  · exact ⟨.inr ⟨hlow, hhigh, habs⟩, hix⟩

/-- A sine at no multiple of a half lies within an ulp (R88). -/
theorem sinpi_near (hm : m ≠ 0) (hwhole : ¬ p % q = 0) (hhalf : ¬ 2 * p % q = 0) :
    Near 1 ((approxSinPi (p % (2 * q)) q).turned n) (funcFp32 .sinpi a) := by
  obtain ⟨g, u, v, happrox, hv, hfits⟩ := approxSinPi_num (Nat.mod_lt p (by have := den_pos hq; omega) : p % (2 * q) < 2 * q)
  rw [funcFp32_sinpi hdec p q hp hq, if_neg hm, if_neg hwhole, if_neg hhalf, happrox]
  exact freeResult_near (f := .sinpi) (by decide) a hv hfits

/-- A cosine at no multiple of a half lies within an ulp (R88). -/
theorem cospi_near (hwhole : ¬ p % q = 0) (hhalf : ¬ 2 * p % q = 0) :
    Near 1 (approxSinPi ((2 * p + q) % (4 * q)) (2 * q)) (funcFp32 .cospi a) := by
  obtain ⟨g, u, v, happrox, hv, hfits⟩ := approxSinPi_num (turn_lt (den_pos hq) p)
  rw [funcFp32_cospi hdec p q hp hq, if_neg hwhole, if_neg hhalf, happrox]
  exact freeResult_near (f := .cospi) (by decide) a hv hfits

/-- A hyperbolic tangent below 9.125 lies within two ulps (R88). -/
theorem tanh_near (hm : m ≠ 0) (hsmall : 8 * p < 73 * q) :
    Near 2 ((approxTanh p q).turned n) (funcFp32 .tanh a) := by
  obtain ⟨u, v, happrox, hv, hfits⟩ := approxTanh_num p (den_pos hq)
  rw [funcFp32_tanh hdec p q hp hq, if_neg hm, if_neg hsmall.not_ge, happrox]
  exact freeResult_near (f := .tanh) (by decide) a hv hfits

/-- The sine of a half: one, with the sign of its half turn (R88). -/
theorem sinpi_half (hm : m ≠ 0) (hwhole : ¬ p % q = 0) (hhalf : 2 * p % q = 0) :
    funcFp32 .sinpi a = (fp32.signed (n != (p / q % 2 == 1)) 0x3F800000, 0) := by
  have hturn : decide (p % (2 * q) ≥ q) = (p / q % 2 == 1) := by
    have hmod : p % (q * 2) = p % q + q * (p / q % 2) := Nat.mod_mul
    have hlt := Nat.mod_lt p (den_pos hq)
    rw [Nat.mul_comm 2 q, hmod, beq_eq_decide]
    congr 1
    obtain h | h := Nat.mod_two_eq_zero_or_one (p / q) <;> simp [h, hlt]
  rw [funcFp32_sinpi hdec p q hp hq, if_neg hm, if_neg hwhole, if_pos hhalf, hturn]

end

-- Powers and their logarithms

/-- 2^x of an integer operand is the power, exactly (R88). -/
theorem exp2_integer {k : Int} (hlow : -149 ≤ k) (hhigh : k ≤ 127) :
    funcFp32 .exp2 (BitVec.ofNat 32 (fp32.ofInt .rn false k).1) = (powerCode k, 0) := by
  by_cases hzero : k = 0
  · subst hzero
    rfl
  obtain ⟨c, t, hcode, hc, -, hdec⟩ := ofInt_code hzero (by omega)
  have hread : fp32.dec (BitVec.ofNat 32 c).toNat = .fin (decide (k < 0)) (k.natAbs * 2 ^ t) (-t) := by
    rw [BitVec.toNat_ofNat, Nat.mod_eq_of_lt hc, hdec]
  have hden : 0 < 2 ^ t := by positivity
  have hpos : 0 < k.natAbs := Int.natAbs_pos.2 hzero
  have hp : k.natAbs * 2 ^ t = k.natAbs * 2 ^ t * 2 ^ (-(t : Int)).toNat := by
    rw [Int.toNat_neg_natCast, pow_zero, Nat.mul_one]
  have hq : 2 ^ t = 2 ^ (- -(t : Int)).toNat := by rw [neg_neg, Int.toNat_natCast]
  have hnear : ¬ k.natAbs * 2 ^ t ≥ 1000 * 2 ^ t := by
    rw [ge_iff_le, Nat.mul_le_mul_right_iff hden]
    omega
  have hquot : k.natAbs * 2 ^ t / 2 ^ t = k.natAbs := Nat.mul_div_cancel _ hden
  have hvalue : (if decide (k < 0) = true then -(k.natAbs : Int) else k.natAbs) = k := by
    simp only [decide_eq_true_eq]
    split <;> omega
  rw [hcode, funcFp32_exp2 hread _ _ hp hq, if_neg (by positivity), if_neg hnear, if_pos (Nat.mul_mod_left ..),
    ← Int.natCast_div, hquot, hvalue, deliver_power hlow hhigh]

/-- The logarithm of a power is its exponent, exactly (R88). -/
theorem log2_power {k : Int} (hlow : -149 ≤ k) (hhigh : k ≤ 127) :
    funcFp32 .log2 (BitVec.ofNat 32 (powerCode k)) = ((fp32.ofInt .rn false k).1, 0) := by
  obtain ⟨j, t, hcode, hj, ht, hplace, hk⟩ := powerCode_eq hlow hhigh
  obtain ⟨hlt, hnormal⟩ := two_pow_units ht hplace
  have hsmall : magCode j (2 ^ t) < 2 ^ 32 := by
    unfold magCode
    omega
  have hread : fp32.dec (BitVec.ofNat 32 (powerCode k)).toNat = .fin false (2 ^ t) ((j : Int) - 149) := by
    rw [BitVec.toNat_ofNat, hcode, Nat.mod_eq_of_lt hsmall]
    exact dec_magCode false hj hlt hnormal
  have hexact : (fp32.ofInt .rn false k).2 = 0 := by
    by_cases hzero : k = 0
    · subst hzero
      rfl
    · obtain ⟨c, t, hofInt, -⟩ := ofInt_code hzero (by omega)
      rw [hofInt]
  have hexp : ((Nat.log2 (2 ^ t) : Nat) : Int) + ((j : Int) - 149) = k := by
    rw [Nat.log2_two_pow]
    omega
  have hself : 2 ^ t = 2 ^ Nat.log2 (2 ^ t) := by rw [Nat.log2_two_pow]
  rw [funcFp32_log2 hread _ _ rfl rfl, if_neg (by positivity), if_neg Bool.false_ne_true, if_pos hself, hexp]
  exact Prod.ext rfl hexact

-- The types

/-- The canonical NaN is canonical. -/
theorem canonical_nan : Canonical fp32.nan := ⟨by decide, fun _ _ => rfl⟩

/-- One, of either sign, is canonical. -/
theorem canonical_one (neg : Bool) : Canonical (fp32.signed neg 0x3F800000) := by
  have hdec : fp32.dec (fp32.signed neg 0x3F800000) = .fin neg 0x800000 (-23) := by cases neg <;> decide
  exact canonical_of_fin (by cases neg <;> decide) hdec

/-- A delivered power is canonical. -/
theorem canonical_dyadic (neg : Bool) (s : Nat) (e : Int) : Canonical (fp32.deliver .rn false (dyadic neg s e)).1 := by
  rw [dyadic_eq_num]
  exact canonical_deliver _ _ (by positivity)

/-- A function of a finite operand is canonical. -/
theorem canonical_funcFp32_fin (f : Func) {a : W32} {n : Bool} {m : Nat} {e : Int}
    (hdec : fp32.dec a.toNat = .fin n m e) : Canonical (funcFp32 f a).1 := by
  have hself : Canonical a.toNat := canonical_of_fin a.isLt hdec
  have hq : 0 < 2 ^ (-e).toNat := by positivity
  cases f with
  | exp2 =>
    obtain ⟨u, v, happrox, hv⟩ := approxExp2_num n (m * 2 ^ e.toNat) (2 ^ (-e).toNat)
    rw [funcFp32_exp2 hdec _ _ rfl rfl, happrox]
    split_ifs
    · exact canonical_one false
    · rw [deliver_underflow (by norm_num)]
      exact canonical_zero false
    · rw [deliver_large (by norm_num)]
      exact canonical_inf false
    · exact canonical_dyadic ..
    · exact canonical_dyadic ..
    · exact canonical_freeResult _ _ _ _ hv
  | log2 =>
    obtain ⟨g, u, v, happrox, hv, -⟩ := approxLog2_num _ _ (log2Frac_small hdec rfl rfl)
    rw [funcFp32_log2 hdec _ _ rfl rfl, happrox]
    split_ifs
    · exact canonical_inf true
    · exact canonical_nan
    · exact canonical_deliver _ _ Nat.one_pos
    · exact canonical_freeResult _ _ _ _ hv
  | sinpi =>
    obtain ⟨g, u, v, happrox, hv, -⟩ := approxSinPi_num
      (Nat.mod_lt (m * 2 ^ e.toNat) (by omega) : _ % (2 * 2 ^ (-e).toNat) < 2 * 2 ^ (-e).toNat)
    rw [funcFp32_sinpi hdec _ _ rfl rfl, happrox]
    split_ifs
    · exact hself
    · exact canonical_zero n
    · exact canonical_one _
    · exact canonical_freeResult _ _ _ _ hv
  | cospi =>
    obtain ⟨g, u, v, happrox, hv, -⟩ := approxSinPi_num (turn_lt hq (m * 2 ^ e.toNat))
    rw [funcFp32_cospi hdec _ _ rfl rfl, happrox]
    split_ifs
    · exact canonical_one _
    · exact canonical_zero false
    · exact canonical_freeResult _ _ _ _ hv
  | tanh =>
    obtain ⟨u, v, happrox, hv, -⟩ := approxTanh_num (m * 2 ^ e.toNat) hq
    rw [funcFp32_tanh hdec _ _ rfl rfl, happrox]
    split_ifs
    · exact hself
    · exact canonical_one n
    · exact canonical_freeResult _ _ _ _ hv

/-- A function of a NaN is the canonical one (R88). -/
theorem funcFp32_nan (f : Func) {a : W32} {s : Bool} (hdec : fp32.dec a.toNat = .nan s) :
    funcFp32 f a = (fp32.nan, if s then fIV else 0) := by
  unfold funcFp32
  rw [hdec]

/-- Every function's result is canonical. -/
theorem canonical_funcFp32 (f : Func) (a : W32) : Canonical (funcFp32 f a).1 := by
  cases hdec : fp32.dec a.toNat with
  | nan s =>
    rw [funcFp32_nan f hdec]
    exact canonical_nan
  | inf n =>
    unfold funcFp32
    rw [hdec]
    cases f with
    | exp2 => cases n; exacts [canonical_inf false, canonical_zero false]
    | log2 => cases n; exacts [canonical_inf false, canonical_nan]
    | sinpi => exact canonical_nan
    | cospi => exact canonical_nan
    | tanh => exact canonical_one n
  | fin n m e => exact canonical_funcFp32_fin f hdec

/-- At FP32, a function is that of the operand's bits (R88). -/
theorem funcAt_fp32 (f : Func) {code : Nat} (hcode : code < 2 ^ 32) :
    funcAt f fp32 code = funcFp32 f (BitVec.ofNat 32 code) := by
  have hread : (BitVec.ofNat 32 code).toNat = code := Nat.mod_eq_of_lt hcode
  cases hdec : fp32.dec code with
  | nan s =>
    have hself := funcFp32_nan f (a := BitVec.ofNat 32 code) (by rw [hread, hdec])
    have hquiet : funcFp32 f (BitVec.ofNat 32 fp32.nan) = (fp32.nan, 0) :=
      funcFp32_nan f (s := false) rfl
    have hconvert : fp32.convert fp32 .rn false code = (fp32.nan, if s then fIV else 0) := by
      rw [Fmt.convert, hdec]
      cases s <;> rfl
    have hagain : fp32.convert fp32 .rn false fp32.nan = (fp32.nan, 0) := convert_of_canonical canonical_nan
    rw [hself, funcAt, hconvert]
    dsimp only
    rw [hquiet]
    dsimp only
    rw [hagain]
    simp
  | _ =>
    have hcanonical : Canonical code := ⟨hcode, fun s hnan => by rw [hdec] at hnan; cases hnan⟩
    have hresult := convert_of_canonical (canonical_funcFp32 f (BitVec.ofNat 32 code))
    rw [funcAt, convert_of_canonical hcanonical]
    dsimp only
    rw [hresult]
    simp

-- The table of R88

/-- One, with a sign. -/
theorem signed_one (neg : Bool) : fp32.signed neg 0x3F800000 = if neg then 0xBF800000 else 0x3F800000 := by
  cases neg <;> rfl

/-- Zero, with a sign. -/
theorem signed_zero (neg : Bool) : fp32.signed neg 0 = if neg then 0x80000000 else 0 := by
  cases neg <;> rfl

/-- Settles O4: the exact cases by each function's equation on a finite operand, and the bounds elsewhere by the delivery to
nearest, which lies within an ulp of a fraction that does not overflow (`withinUlps_deliver`). -/
theorem floatFunctions : Obligations.FloatFunctions := by
  intro a n quietless m e k f fmt code p q one zero power integer finite whole half near opposite
  refine ⟨funcFp32_nan f, rfl, rfl, exp2_integer, rfl, rfl, ?_, ?_, log2_power, rfl, rfl, rfl, rfl, ?_, rfl, rfl, ?_, ?_,
    rfl, rfl, ?_, ?_, ?_, rfl, rfl, rfl, rfl, ?_, ?_, ?_, ?_, ?_, ?_, funcAt_fp32 f, rfl⟩
  -- 2^x far from zero
  · rintro ⟨hdec, hm⟩ hn hbig
    exact exp2_overflow hdec rfl rfl hm hn hbig
  · rintro ⟨hdec, hm⟩ hn hbig hwhole
    exact exp2_underflow hdec rfl rfl hm hn hbig hwhole
  -- the logarithm of a negative number
  · rintro ⟨hdec, hm⟩ hn
    rw [funcFp32_log2 hdec p q rfl rfl, if_neg hm, if_pos hn]
    rfl
  -- sine and cosine at multiples of a half
  · rintro ⟨hdec, hm⟩ hwhole
    rw [funcFp32_sinpi hdec p q rfl rfl, if_neg hm, if_pos hwhole, signed_zero]
  · rintro ⟨hdec, hm⟩ ⟨hhalf, hwhole⟩
    rw [sinpi_half hdec rfl rfl hm hwhole hhalf, signed_one]
  · rintro ⟨hdec, -⟩ hwhole
    rw [funcFp32_cospi hdec p q rfl rfl, if_pos hwhole, signed_one]
  · rintro ⟨hdec, -⟩ ⟨hhalf, hwhole⟩
    rw [funcFp32_cospi hdec p q rfl rfl, if_neg hwhole, if_pos hhalf]
  · decide
  -- the hyperbolic tangent from 9.125 on
  · rintro ⟨hdec, hm⟩ hbig
    rw [funcFp32_tanh hdec p q rfl rfl, if_neg hm, if_pos hbig, signed_one]
  -- the bounds
  · rintro ⟨hdec, hm⟩ hwhole hpos hneg rfl
    have hsmall : p < 1000 * q := by
      cases n with
      | true => exact hneg rfl
      | false =>
        have := hpos rfl
        omega
    exact exp2_near hdec rfl rfl hm hwhole hsmall
  · rintro ⟨hdec, hm⟩ hn hpower rfl
    exact log2_near hdec rfl rfl hm hn hpower
  · rintro ⟨hdec, hm⟩ hwhole hhalf rfl
    exact sinpi_near hdec rfl rfl hm hwhole fun h => hhalf ⟨h, hwhole⟩
  · rintro ⟨hdec, hm⟩ hwhole hhalf rfl
    exact cospi_near hdec rfl rfl hwhole fun h => hhalf ⟨h, hwhole⟩
  · rintro ⟨hdec, hm⟩ hsmall rfl
    exact tanh_near hdec rfl rfl hm hsmall

end Sys2Proof.Machine

/-! Member-mask instructions and trellis decoding (O6), peer masks (O7) and the lowest lane (O8). -/

namespace Sys2Proof.Machine

-- The member-mask instructions complete, or trap

/-- Each member-mask instruction's body takes effect where its mask is fresh and holds EM (R101, R102, R105 to R110). -/
theorem memberMasks : Claims.MemberMasks := by
  intro mt op ty ex wide mode d a b m tl legal members
  have hlegal (c : Ctx) (s : State) (h : legal c s) : s.maskFresh c m = true ∧ c.em &&& ~~~c.mask m = 0 := h
  exact ⟨completes_of_member (exec_mtest mt d a m tl) hlegal fun _ _ _ => rfl,
    completes_of_member (exec_mbits d a m tl) hlegal fun _ _ _ => rfl,
    completes_of_member (exec_mfold op ty d a m tl) hlegal fun _ _ _ => rfl,
    completes_of_member (exec_scan op ty ex d a m tl) hlegal fun _ _ _ => rfl,
    completes_of_member (exec_lperm mode d a b m tl) hlegal fun _ _ _ => rfl,
    completes_of_member (exec_mpeers wide d a m tl) hlegal fun _ _ _ => rfl,
    completes_of_member (exec_mlow d m tl) hlegal fun _ _ _ => rfl,
    completes_of_member (exec_lsync m tl) hlegal fun _ _ _ => rfl⟩

/-- Both traps of an instruction that is written over `issueMember` (R101). -/
theorem memberTraps {i : Instr} {m : MaskOp} {uses : List Use} {tl : Tail} {body : Ctx → State → Effect}
    (he : ∀ s, exec i s = issueMember m uses tl body s) :
    Traps i uses tl (fun c s => s.maskFresh c m = true ∧ c.em &&& ~~~c.mask m ≠ 0) (fun c _ =>
        { code := 0x03, wr := false, addr := c.word, mask := c.em &&& ~~~c.mask m, resume := c.cl.pc }) ∧
      Traps i uses tl (fun c s => s.maskFresh c m = false) (fun c _ => c.trapAt 0x02 c.word) :=
  ⟨traps_of_member he fun _ _ h => h, illegal_of_member he fun _ _ h => h⟩

/-- The nine member-mask instructions share their traps (R101). -/
theorem memberMaskTraps : Claims.MemberMaskTraps := by
  intro mt op ty ex wide mode sf r d a b m tl
  simp only [List.forall_mem_cons]
  exact ⟨memberTraps (exec_mtest mt d a m tl), memberTraps (exec_mbits d a m tl), memberTraps (exec_mfold op ty d a m tl),
    memberTraps (exec_scan op ty ex d a m tl), memberTraps (exec_lperm mode d a b m tl),
    memberTraps (exec_mpeers wide d a m tl), memberTraps (exec_mlow d m tl), memberTraps (exec_lsync m tl),
    memberTraps (exec_scaleq sf r d a m tl), List.forall_mem_nil _⟩

/-- tdec with a scale operand, in each format without one, and tdec2 (R115, R116). -/
theorem trellis : Claims.Trellis := by
  intro w k2 hi d a b fmt f2 tl weight
  refine ⟨gives32_of_alu32 (exec_tdec w k2 hi (.f32 b) d a tl) fun _ _ => rfl, ?_,
    gives32_of_alu32 (exec_tdec2 w k2 hi f2 d a tl) fun _ _ => rfl⟩
  simp only [List.forall_mem_cons]
  exact ⟨gives32_of_alu32 (exec_tdec w k2 hi .f16 d a tl) fun _ _ => rfl,
    gives32_of_alu32 (exec_tdec w k2 hi .e4m3 d a tl) fun _ _ => rfl,
    gives32_of_alu32 (exec_tdec w k2 hi .s d a tl) fun _ _ => rfl, List.forall_mem_nil _⟩

/-- Settles O6: each member-mask instruction is written over `issueMember`, which completes it or takes one of its two
traps, and trellis decoding over `alu32`. -/
theorem crossLaneResults : Obligations.CrossLaneResults :=
  ⟨memberMasks, memberMaskTraps, trellis⟩

-- Peer masks

/-- What mpeers compares of a lane's source (R108): 64 bits, or 32. -/
def Ctx.peerBits (c : Ctx) (wide : Bool) (a : Operand) (l : Nat) : W64 :=
  if wide then c.bits64 a l else (c.bits32 a l).setWidth 64

/-- The members whose source has the bits of a lane's (R108). -/
def Ctx.peerMask (c : Ctx) (wide : Bool) (a : Operand) (m : MaskOp) (l : Nat) : LaneMask :=
  maskOf fun k => (c.mask m &&& c.g.liveView).getLsbD k && c.peerBits wide a k == c.peerBits wide a l

/-- At either width the bits compared are equal where the sources are. -/
theorem Ctx.peerBits_eq_iff (c : Ctx) (wide : Bool) (a : Operand) (k l : Nat) :
    c.peerBits wide a k = c.peerBits wide a l ↔ if wide then c.bits64 a k = c.bits64 a l else c.bits32 a k = c.bits32 a l := by
  cases wide with
  | true => rfl
  | false => exact ⟨fun h => by simpa [peerBits] using congrArg (BitVec.setWidth 32) h, congrArg (BitVec.setWidth 64)⟩

/-- A lane's peers are the members that hold its own bits. -/
theorem Ctx.peerMask_getLsbD (c : Ctx) (wide : Bool) (a : Operand) (m : MaskOp) (l : Nat) {k : Nat} (hk : k < 32) :
    (c.peerMask wide a m l).getLsbD k = true ↔ (c.mask m &&& c.g.liveView).getLsbD k = true ∧
      if wide then c.bits64 a k = c.bits64 a l else c.bits32 a k = c.bits32 a l := by
  rw [peerMask, maskOf_getLsbD _ _ hk, Bool.and_eq_true, beq_iff_eq, peerBits_eq_iff]

/-- A 32-bit result in V or in the queue alone: a queue entry, and the named register's lanes of EM (R39, R72). -/
theorem Group.write32_vector (g : Group) (em : LaneMask) {d : Dest} {r : BitVec 6} (hd : d = .v r ∨ d = .keep) (sx cleared : Bool)
    (f : Nat → W32 × FpFlags) :
    let x := g.write32 em d sx cleared f
    (x.s = g.s ∧ x.cm = g.cm ∧ x.en = g.en ∧ x.lc = g.lc) ∧
      x.queue = ((lanes.map fun l => if em.getLsbD l then (f l).1 else 0) :: g.queue).take 16 ∧
      (d = .v r → ∀ l < 32, x.vget r.toNat l = if em.getLsbD l then (f l).1 else g.vget r.toNat l) ∧
      ∀ n, d = .keep ∨ n ≠ r.toNat → ∀ l < 32, x.vget n l = g.vget n l := by
  obtain rfl | rfl := hd
  · obtain ⟨hfiles, -, hqueue⟩ := g.write32_v_rest em r sx cleared f
    exact ⟨hfiles, hqueue, fun _ l hl => by simp [Group.vget_write32_v _ _ _ _ _ _ _ hl],
      fun n hn l hl => by simp [Group.vget_write32_v _ _ _ _ _ _ _ hl, hn.resolve_left nofun]⟩
  · obtain ⟨⟨hv, hfiles⟩, -, hqueue⟩ := g.write32_keep em sx cleared f
    exact ⟨hfiles, hqueue, nofun, fun n _ l _ => congrArg (NMap.get 0 · (n * 32 + l)) hv⟩

/-- mpeers with its masks delivered, where its mask is fresh and holds EM (R108). -/
theorem exec_mpeers_next {wide : Bool} {d : Dest} {a : Operand} {m : MaskOp} {tl : Tail} {s : State} {c : Ctx}
    (hissues : Issues s c [if wide then .src64 a else .src a, .dst d false] tl) (hfresh : s.maskFresh c m = true)
    (hcover : c.em &&& ~~~c.mask m = 0) :
    exec (.mpeers wide d a m tl) s = .next ((s.put c (c.g.write32 c.em d false
      (Use.readsFps (if wide then .src64 a else .src a)) fun l => (c.peerMask wide a m l, 0))).retired c tl) :=
  completes_of_member (exec_mpeers wide d a m tl) (fun _ _ h => h) (fun _ _ _ => rfl) s c hissues ⟨hfresh, hcover⟩

/-- Settles O7: mpeers with its masks delivered (`exec_mpeers_next`), each mask bit by bit (`peerMask_getLsbD`), and the retirement
of a result in V or the queue. -/
theorem peerMasks : Obligations.PeerMasks := by
  intro wide d r a m tl s c member same hd hissues hfresh hcover
  obtain ⟨xfiles, xqueue, xown, xother⟩ := c.g.write32_vector c.em hd false
    (Use.readsFps (if wide then .src64 a else .src a)) fun l => (c.peerMask wide a m l, 0)
  obtain ⟨g, ⟨hg, -, -, -, -, hspecials, honly, -⟩, hvget, -, hqueue, -⟩ :=
    retired_vector tl hissues.1 (c.g.write32_keeps ..) xfiles
  have hpeers (l : Nat) {k : Nat} (hk : k < 32) : (c.peerMask wide a m l).getLsbD k = true ↔ member k = true ∧ same k l :=
    c.peerMask_getLsbD wide a m l hk
  have hself (l : Nat) : same l l := by
    cases wide <;> rfl
  exact ⟨_, g, c.peerMask wide a m, exec_mpeers_next hissues hfresh hcover, hg,
    fun l hl _ => ⟨fun k hk => hpeers l hk, (hpeers l hl).trans (and_iff_left (hself l))⟩,
    fun hlast => (hqueue hlast).trans xqueue, fun hv l hl => (hvget ..).trans (xown hv l hl),
    fun n hn l hl => (hvget ..).trans (xother n hn l hl), hspecials, honly⟩

-- The lowest lane

/-- The lowest lane of no lanes is none. -/
theorem lowestLane_zero : lowestLane 0 = none := by
  rw [lowestLane, List.head?_eq_none_iff, ← List.isEmpty_iff, laneList_isEmpty_iff]

/-- A lane of a mask below which the mask holds none is its lowest. -/
theorem lowestLane_eq_some {em : LaneMask} {low : Nat} (hlt : low < 32) (hin : em.getLsbD low = true)
    (hbelow : ∀ k < low, em.getLsbD k = false) : lowestLane em = some low := by
  rw [lowestLane, laneList, List.head?_filter, lanes, List.find?_range_eq_some]
  exact ⟨hin, List.mem_range.2 hlt, fun k hk => by rw [hbelow k hk]; rfl⟩

/-- CM after a test of the lanes of a mask (R36). -/
theorem Group.setCm_getLsbD (g : Group) (em : LaneMask) (f : Nat → Bool) {k : Nat} (hk : k < 32) :
    (g.setCm em f).cm.getLsbD k = if em.getLsbD k then f k else g.cm.getLsbD k := by
  rw [Group.setCm, BitVec.getLsbD_or, BitVec.getLsbD_and, BitVec.getLsbD_not, maskOf_getLsbD _ _ hk]
  cases hem : em.getLsbD k <;> simp [hk]

/-- Writing CM touches no special that a handler saves, no slot, and not the clause. -/
theorem Group.setCm_keeps (g : Group) (em : LaneMask) (f : Nat → Bool) :
    KeepsSpecials none g (g.setCm em f) ∧ (g.setCm em f).clause = g.clause := by
  simp [KeepsSpecials, Group.sbGet]

/-- The same of an S register. -/
theorem Group.sset_keeps (g : Group) (r : Nat) (x : W64) :
    KeepsSpecials none g (g.sset r x) ∧ (g.sset r x).clause = g.clause :=
  ⟨by simp [KeepsSpecials, Group.sbGet], rfl⟩

/-- The number of a mask's lowest lane, all ones where it has none (R109). -/
def lowestNumber (em : LaneMask) : W64 :=
  match lowestLane em with
  | none => 0xFFFFFFFFFFFFFFFF
  | some l => BitVec.ofNat 64 l

/-- mlow in CM, where its mask is fresh and holds EM (R109). -/
theorem exec_mlow_cm {m : MaskOp} {tl : Tail} {s : State} {c : Ctx} (hissues : Issues s c [] tl) (hfresh : s.maskFresh c m = true)
    (hcover : c.em &&& ~~~c.mask m = 0) : exec (.mlow (.sp .cm) m tl) s =
      .next ((s.put c (c.g.setCm c.em fun l => lowestLane c.em == some l)).retired c tl) :=
  completes_of_member (exec_mlow (.sp .cm) m tl) (fun _ _ h => h) (fun _ _ _ => rfl) s c hissues ⟨hfresh, hcover⟩

/-- mlow in an S register, likewise (R109). -/
theorem exec_mlow_s {m : MaskOp} {tl : Tail} {s : State} {c : Ctx} (r : BitVec 5) (hissues : Issues s c [] tl)
    (hfresh : s.maskFresh c m = true) (hcover : c.em &&& ~~~c.mask m = 0) : exec (.mlow (.s r) m tl) s =
      .next ((s.put c (c.g.sset r.toNat (lowestNumber c.em))).retired c tl) :=
  completes_of_member (exec_mlow (.s r) m tl) (fun _ _ h => h) (fun _ _ _ => rfl) s c hissues ⟨hfresh, hcover⟩

/-- Settles O8: mlow in CM and in S (`exec_mlow_cm`, `exec_mlow_s`), with the lowest lane that EM has or none, and the retirement of the
one register written. -/
theorem mlow_lowestLane : Obligations.LowestLane := by
  intro r m tl s c low lowest hissues hfresh hcover
  have hnone (hem : c.em = 0) : lowestLane c.em = none := hem ▸ lowestLane_zero
  have hlow : lowest → lowestLane c.em = some low := fun ⟨hlt, hin, hbelow⟩ => lowestLane_eq_some hlt hin hbelow
  constructor
  · obtain ⟨g, ⟨hg, hv, hspecials, honly, -⟩, ⟨hs, hcm, -⟩, -⟩ := retired_scalar tl hissues.1
      (c.g.setCm_keeps c.em fun l => lowestLane c.em == some l) rfl
    refine ⟨_, g, exec_mlow_cm hissues hfresh hcover, hg, hv, hs, hspecials, honly, fun hem => ?_, fun hlowest k hk => ?_⟩
    · exact hcm.trans (laneMask_ext fun k hk => by rw [Group.setCm_getLsbD _ _ _ hk, hem]; simp)
    · rw [hcm, Group.setCm_getLsbD _ _ _ hk, hlow hlowest, Option.some_beq_some, BEq.comm]
      rfl
  · obtain ⟨g, ⟨hg, hv, hspecials, honly, -⟩, ⟨hs, hcm, -⟩, -⟩ := retired_scalar tl hissues.1
      (c.g.sset_keeps r.toNat (lowestNumber c.em)) rfl
    have hsget (n : Nat) := (congrArg (NMap.get 0 · n) hs).trans (c.g.sget_sset r.toNat n _)
    refine ⟨_, g, exec_mlow_s r hissues hfresh hcover, hg, hv, hcm, hspecials, honly, fun n hn => (hsget n).trans (if_neg hn),
      fun hem => ?_, fun hlowest => ?_⟩
    · exact (hsget _).trans ((if_pos rfl).trans (by rw [lowestNumber, hnone hem]))
    · exact (hsget _).trans ((if_pos rfl).trans (by rw [lowestNumber, hlow hlowest]))

end Sys2Proof.Machine

/-! Scheduling events (O26). -/

namespace Sys2Proof.Machine

section
variable {s : State} {core gid : Nat} {g : Group} {x : Choice}

/-- The next group's choice starts a clause (R122, R127). -/
theorem exec_clauseStart_next (hnext : s.nextGroup core = some (gid, g)) (hchoice : s.choice g = some x) :
    exec (.clauseStart core) s = .next (s.startClause gid x) := by
  simp only [exec_clauseStart, execClauseStart, hnext, hchoice]

/-- So does a starved group's (R127, R128). -/
theorem exec_starved_next (hnext : s.nextGroup core = some (gid, g)) (hwaited : 512 ≤ g.waited s.now)
    (hchoice : s.choice g = some x) : exec (.starved core) s = .next (s.startClause gid x) := by
  simp only [exec_starved, execStarved, hnext, hchoice, if_neg hwaited.not_gt]

/-- And one that breaks a dwell of the core's next group (R124, R125). -/
theorem exec_dwellBreak_next (hg : s.group? gid = some g) (hnext : s.nextGroup g.core = some (gid, g))
    (hchoice : s.choice g = some x) (hbreak : x.brk = true) :
    exec (.dwellBreak gid) s = .next (s.startClause gid x) := by
  simp only [exec_dwellBreak, execDwellBreak, hg, hnext, hchoice, hbreak, bne_self_eq_false, Bool.false_eq_true, if_true, if_false]

/-- Lanes parked beyond the launch's limit for lanes that are missing take the convergence trap (R103). -/
theorem exec_convergenceTimeout_trap {hdr : W64} {la : Launch} {key t : Nat} (hg : s.group? gid = some g)
    (hlaunch : s.launch? g.launch = some la) (htimer : (g.timers.find? fun e => e.1 == hdr.toNat) = some (key, t))
    (hclause : g.clause = none) (hrunning : g.halted = false) (hlimit : t + la.cto ≤ s.now)
    (hhere : g.lanesAt hdr &&& ~~~g.mid ≠ 0) (hmissing : s.membersAt g hdr &&& ~~~g.lanesAt hdr ≠ 0) :
    exec (.convergenceTimeout gid hdr) s = .next (s.takeTrap gid hdr hdr
      { code := 0x10, wr := false, addr := (s.membersAt g hdr &&& ~~~g.lanesAt hdr).setWidth 64,
        mask := g.lanesAt hdr &&& ~~~g.mid, resume := hdr }) := by
  have hdue : (g.clause.isSome || g.halted || decide (s.now < t + la.cto)) = false := by
    simp [hclause, hrunning, hlimit]
  have hlacking : (decide (g.lanesAt hdr &&& ~~~g.mid = 0) || decide (s.membersAt g hdr &&& ~~~g.lanesAt hdr = 0)) = false := by
    rw [decide_eq_false hhere, decide_eq_false hmissing, Bool.or_false]
  simp only [exec_convergenceTimeout, execConvergenceTimeout, hg, hlaunch, htimer, Option.map_some, Option.getD_some, hdue,
    hlacking, Bool.false_eq_true, if_false]

/-- A sleep whose time has come ends (R144). -/
theorem exec_sleepEnd_next {t : Nat} (hg : s.group? gid = some g) (hsleep : g.sleepUntil = some t) (hdue : t ≤ s.now) :
    exec (.sleepEnd gid) s = .next (s.setGroup gid { g with sleepUntil := none }) := by
  simp only [exec_sleepEnd, execSleepEnd, State.modGroup, hg, hsleep, if_neg hdue.not_gt]

end

/-- Settles O26: each event where its conditions hold. -/
theorem schedulingEvents : Obligations.SchedulingEvents :=
  fun _ _ _ _ _ _ _ _ _ => ⟨exec_clauseStart_next, exec_starved_next, exec_dwellBreak_next, exec_convergenceTimeout_trap,
    exec_sleepEnd_next⟩

end Sys2Proof.Machine

/-! Hardware loops, exit, halt, nop, yield and sleep (O11). -/

namespace Sys2Proof.Machine

/-- The three ways of a loop's body: with a live lane missing from EM it traps; otherwise its counter decides whether it falls
through or goes back to a target that passes the check (R145, R146). -/
theorem hardwareLoop : Claims.HardwareLoop := by
  intro n off
  have hstands (c : Ctx) (hlast : c.cl.pc = c.cl.lastWord) : (c.cl.pc == c.cl.lastWord) = true := beq_iff_eq.2 hlast
  have hwhole (c : Ctx) (hem : c.em = c.g.liveView) : ¬(c.em != c.g.liveView) = true := by simp [hem]
  refine ⟨?_, ?_, ?_⟩
  · refine completesTerminal_of_body (exec_loop n off) (fun c _ ⟨hlast, _⟩ => hstands c hlast) fun c s ⟨_, hem, hzero⟩ => ?_
    exact (if_neg (hwhole c hem)).trans (if_pos hzero)
  · refine completesTerminal_of_body (exec_loop n off) (fun c _ ⟨hlast, _⟩ => hstands c hlast)
      fun c s ⟨_, hem, hcount, htarget⟩ => ?_
    exact (if_neg (hwhole c hem)).trans ((if_neg hcount).trans (checkTargets_ok htarget))
  · refine traps_of_body (exec_loop n off) (fun c _ ⟨hlast, _⟩ => hstands c hlast) fun c s ⟨_, hem⟩ => ?_
    exact if_pos (bne_iff_ne.2 hem)

/-- exit outside handlers, halt by the queue's debug bit (log entry 80), and the instructions that write at most their clause
(R127, R139, R140, R144). -/
theorem pauses : Claims.Pauses := by
  intro n
  refine ⟨?_, ?_, ?_, ?_, ?_, ?_⟩
  · exact completesTerminal_of_body exec_exit (fun _ _ houtside => beq_iff_eq.2 houtside) fun _ _ _ => rfl
  · refine completesTerminal_of_body exec_halt (fun _ _ _ => rfl) fun _ _ hdebug => ?_
    exact if_neg (by rw [hdebug]; decide)
  · refine traps_of_body exec_halt (fun _ _ _ => rfl) fun _ _ hdebug => ?_
    exact if_pos (by rw [hdebug]; rfl)
  · exact completes_of_body exec_nop (fun _ _ _ => rfl) fun _ _ _ => rfl
  · exact completes_of_body exec_yield (fun _ _ _ => rfl) fun _ _ _ => rfl
  · exact completes_of_body (exec_sleep n) (fun _ _ _ => rfl) fun _ _ _ => rfl

/-- Settles O11: each body under the conditions that it tests. -/
theorem loopsAndPauses : Obligations.LoopsAndPauses :=
  ⟨hardwareLoop, pauses⟩

end Sys2Proof.Machine

/-! The matrix engine's own steps (O29). -/

namespace Sys2Proof.Machine

/-- The first operation of a context running (R199). -/
def State.startMatOp (s : State) (core ctx : Nat) (o : MatOp) : State :=
  s.modCtx core ctx fun x => { x with ops := x.ops.map fun p => if p.id = o.id then { p with stage := .running } else p }

-- MATRIX_OP_START

section
variable {s : State} {core ctx : Nat} {o : MatOp} (hctx : ctx ≤ 1)
include hctx

/-- An operation that does not use the multiply array starts at once (R199). -/
theorem exec_matrixOpStart_offArray (hready : s.opReady ((s.core core).ctx ctx) = some o) (hkind : o.kind.onArray = false) :
    exec (.matrixOpStart core ctx) s = .next (s.startMatOp core ctx o) := by
  simp [execMatrixOpStart, hctx.not_gt, hready, hkind, State.startMatOp]

/-- One on the array starts when the other context leaves the array alone and it is this one's turn (R133). -/
theorem exec_matrixOpStart_onArray (hready : s.opReady ((s.core core).ctx ctx) = some o) (hkind : o.kind.onArray = true)
    (hidle : ((s.core core).ctx (1 - ctx)).usesArray = false)
    (hturn : s.opReady ((s.core core).ctx (1 - ctx)) = none ∨ (s.core core).lastCtx ≠ ctx) :
    exec (.matrixOpStart core ctx) s = .next ((s.startMatOp core ctx o).modCore core fun c => { c with lastCtx := ctx }) := by
  obtain hnone | hlast := hturn
  · simp [execMatrixOpStart, hctx.not_gt, hready, hkind, hidle, hnone, State.startMatOp]
  · simp [execMatrixOpStart, hctx.not_gt, hready, hkind, hidle, hlast, State.startMatOp]

/-- While none can start, the fired operations go on (R201, log entry 63). -/
theorem exec_matrixOpStart_progress (hkept : s.opReady ((s.core core).ctx ctx) = none ∨
      s.opReady ((s.core core).ctx ctx) = some o ∧ o.kind.onArray = true ∧ ((s.core core).ctx (1 - ctx)).usesArray = true) :
    exec (.matrixOpStart core ctx) s = .next (s.matProgress core ctx ((s.core core).ctx ctx).ops) := by
  obtain hnone | ⟨hready, hkind, hbusy⟩ := hkept
  · simp [execMatrixOpStart, hctx.not_gt, hnone]
  · simp [execMatrixOpStart, hctx.not_gt, hready, hkind, hbusy]

end

-- What ends

/-- The lines of a completing operation are ready at their homes, and their slices have seen its access (R201, R376). -/
def State.visitOpLines (s : State) (core : Nat) (v : View) (o : MatOp) : State :=
  (s.opLines v o).foldl (fun s l => (s.beforeRead core l).l2See (l * 128) 128 o.kind.drains v.l2 (dieOf core)) s

/-- A running operation whose operands translate takes the rest of its effect and leaves its context (R200, R201). -/
theorem exec_matrixOpComplete_next {s : State} {core ctx blk : Nat} {o : MatOp} (hctx : ctx ≤ 1)
    (howner : ((s.core core).ctx ctx).owner = some blk) (hfirst : ((s.core core).ctx ctx).ops.head? = some o)
    (hrunning : o.stage = .running) (hfault : s.opFault (s.viewOfBlock blk) o = none) :
    exec (.matrixOpComplete core ctx) s = .next
      ((((s.visitOpLines core (s.viewOfBlock blk) o).runOp (s.viewOfBlock blk) core ctx ((s.core core).ctx ctx) o).modCtx core ctx
        fun x => { x with ops := x.ops.filter fun p => p.id != o.id }).endOps [o.id]) := by
  obtain ⟨os, hops⟩ := List.head?_eq_some_iff.1 hfirst
  simp [execMatrixOpComplete, howner, hops, hctx.not_gt, hrunning, hfault, State.visitOpLines]

/-- A failed check traps its group between clauses, one check at a time (R217). -/
theorem exec_matrixCheckTrap_trap {s : State} {gid : Nat} {g : Group} {m : LaneMask} {rest : List LaneMask} {pc : W64}
    (hg : s.group? gid = some g) (hclause : g.clause = none) (hgoing : g.halted = false) (hchecks : g.checks = m :: rest)
    (hpc : leastPc (g.pcs (laneList g.live)) = some pc) :
    exec (.matrixCheckTrap gid) s = .next ((s.setGroup gid { g with checks := rest }).takeTrap gid pc (g.headerOf pc)
      { code := 0x14, wr := false, addr := m.setWidth 64, mask := g.live, resume := pc }) := by
  simp [execMatrixCheckTrap, hg, hchecks, hpc, hclause, hgoing]

/-- A dead block's context with no operation left returns to the pool (R221). -/
theorem exec_matrixContextEnd_next {s : State} {blk k : Nat} {b : Block} (hblock : s.block? blk = some b) (hcontext : b.ctx = some k)
    (hhere : b.saved = false) (hdead : s.blockDead blk = true)
    (hops : (((s.cancelAll b.core k (List.range 8)).core b.core).ctx k).ops = []) :
    exec (.matrixContextEnd blk) s = .next
      ((((s.cancelAll b.core k (List.range 8)).modCore b.core fun c => c.setCtx k freeCtx).modBlock blk fun b =>
        { b with ctx := none }).tryEndBlock blk) := by
  simp [execMatrixContextEnd, hblock, hcontext, hhere, hdead, hops]

/-- Settles O29: each event where its conditions hold; an operation that can start does so by its kind and its context's turn on
the array. -/
theorem matrixEngineEvents : Obligations.MatrixEngineEvents :=
  fun _ _ _ _ _ _ _ _ _ _ _ _ => ⟨exec_matrixOpStart_offArray, exec_matrixOpStart_onArray, exec_matrixOpStart_progress,
    exec_matrixOpComplete_next, exec_matrixCheckTrap_trap, exec_matrixContextEnd_next⟩

end Sys2Proof.Machine

/-! The package after reset (O59). -/

namespace Sys2Proof.Machine

/-- At reset every queue, core, die and semaphore is unlisted, and so reads as its record at reset. -/
theorem State.reset_records (n : Nat) : State.reset.queue n = freshQueue ∧ State.reset.core n = freshCore ∧
    State.reset.die n = freshDie ∧ NMap.get 0 State.reset.sems n = 0 :=
  ⟨NMap.get_nil _ n, NMap.get_nil _ n, NMap.get_nil _ n, NMap.get_nil _ n⟩

/-- Settles O59: the lists of the reset state are empty, and so its records are the fresh ones (`State.reset_records`). -/
theorem resetState : Obligations.ResetState := by
  refine ⟨rfl, rfl, rfl, rfl, rfl, rfl, rfl, rfl, fun q => ?_, fun n => ?_, fun n => ?_, rfl⟩
  · obtain ⟨hqueue, -⟩ := State.reset_records q
    rw [hqueue]
    exact ⟨rfl, rfl, rfl, rfl, rfl⟩
  · obtain ⟨-, hcore, hdie, -⟩ := State.reset_records n
    exact ⟨hcore, hdie⟩
  · obtain ⟨-, -, -, hsem⟩ := State.reset_records n
    exact hsem

end Sys2Proof.Machine

/-! trap, brk, illegal words and the return from a handler (O12), and the spawning of threads (O13). -/

namespace Sys2Proof.Machine

-- Traps that a program asks for

/-- What brk tests (R142, log entry 80): lanes in EM, a debug handler, and no handler running. -/
theorem brk_test_iff (s : State) (c : Ctx) : (c.em != 0 && s.dhaOf c.g != 0 && c.g.hkind == 0) = true ↔
    c.em ≠ 0 ∧ s.dhaOf c.g ≠ 0 ∧ c.g.hkind = 0 := by
  rw [Bool.and_eq_true, Bool.and_eq_true, bne_iff_ne, bne_iff_ne, beq_iff_eq, and_assoc]

/-- brk enters the debug handler where the test holds (R142). -/
theorem exec_brk_enters {s : State} {c : Ctx} (code : BitVec 6) (hctx : s.ctx? = some c)
    (htest : c.em ≠ 0 ∧ s.dhaOf c.g ≠ 0 ∧ c.g.hkind = 0) :
    exec (.brk code) s = .next (s.enterDebug c.gid c.cl.pc c.cl.hdr
      { code := 0x21, wr := false, addr := code.setWidth 64, mask := c.em, resume := c.cl.pc + 8 }) := by
  rw [exec_brk, execBrk, hctx]
  exact if_pos ((brk_test_iff s c).2 htest)

/-- Where it fails, brk issues as nop does (R142). -/
theorem exec_brk_nop {s : State} {c : Ctx} (code : BitVec 6) (hctx : s.ctx? = some c)
    (htest : ¬(c.em ≠ 0 ∧ s.dhaOf c.g ≠ 0 ∧ c.g.hkind = 0)) : exec (.brk code) s = exec .nop s := by
  rw [exec_brk, execBrk, hctx]
  exact if_neg (mt (brk_test_iff s c).1 htest)

/-- trap goes by EM, brk by EM, the debug handler and the handler that runs, and an illegal word always traps (R141, R142,
R260). -/
theorem softwareTraps : Claims.SoftwareTraps := by
  intro imm code w
  obtain ⟨-, -, -, hnop, -⟩ := pauses 0
  refine ⟨?_, ?_, fun s c hctx hem hdebug houtside => ?_, fun s c hissues hstays => ?_, ?_⟩
  · exact traps_of_body (exec_trap imm) (fun _ _ _ => rfl) fun _ _ hem => if_neg hem
  · exact completes_of_body (exec_trap imm) (fun _ _ _ => rfl) fun _ _ hem => if_pos hem
  · exact exec_brk_enters code hctx ⟨hem, hdebug, houtside⟩
  · have htest : ¬(c.em ≠ 0 ∧ s.dhaOf c.g ≠ 0 ∧ c.g.hkind = 0) := by tauto
    exact (exec_brk_nop code hissues.1 htest).trans (hnop s c hissues trivial)
  · have hexec : ∀ s, exec (.illegalOpcode w) s = issue [] none (fun c _ => c.fault 0x02 w c.em) s := exec_illegalOpcode w
    exact traps_of_body hexec (fun _ _ _ => rfl) fun _ _ _ => rfl

/-- rtt returns in a handler and is illegal outside, exit the other way round (R136, R143, R258). -/
theorem handlerReturn : Claims.HandlerReturn := by
  refine ⟨?_, ?_, ?_⟩
  · exact completesTerminal_of_body exec_rtt (fun _ _ ⟨hinside, _⟩ => bne_iff_ne.2 hinside)
      fun _ _ ⟨_, htargets⟩ => checkTargets_ok htargets
  · exact traps_of_pre exec_rtt fun _ _ houtside => bne_eq_false_iff_eq.2 houtside
  · exact traps_of_pre exec_exit fun _ _ hinside => beq_eq_false_iff_ne.2 hinside

/-- Settles O12: the conditions that trap, brk, rtt and exit test, each with its outcome. -/
theorem trapsAndReturns : Obligations.TrapsAndReturns :=
  ⟨softwareTraps, handlerReturn⟩

-- Spawning

/-- What spawn names (R150): its three sources, and a register where it has a destination. -/
def spawnUses (d : BitVec 6) (a b x : Operand) : List Use :=
  [.src64 a, .src b, .src x] ++ if d = 0 then [] else [.regs d 1 1]

/-- The lanes of EM put their threads in bins (R151): the mask of those taken, and the state after. -/
def State.spawnThreads (s : State) (c : Ctx) (a b x : Operand) : LaneMask × State :=
  s.spawnLanes c.core c.g.blk (c.bits64 a)
    (fun l => { b := c.bits32 b l, c := c.bits32 x l, ident := BitVec.ofNat 32 (c.g.gix * 32 + l), cov := none })
    (s.ownUpdates c.gid) (laneList c.em)

/-- The issuing group after spawn (R150): with a destination, each lane of EM has the status of its thread. -/
def Group.spawnStatus (g : Group) (c : Ctx) (d : BitVec 6) (b x : Operand) (taken : LaneMask) : Group :=
  let g := g.settleFps ([Use.src b, .src x].any Use.readsFps) 0
  if d = 0 then g else g.vsetLanes d.toNat (fun l => if taken.getLsbD l then 1 else 0) (laneList c.em)

/-- spawn outside handlers, in a block with spawn slots and to targets that pass the check (R150, R151). -/
theorem completes_spawn (d : BitVec 6) (a b x : Operand) (blk : Block) :
    Completes (.spawn d a b x) (spawnUses d a b x) none
      (fun c s => c.g.hkind = 0 ∧ s.block? c.g.blk = some blk ∧ blk.spawn ≠ 0 ∧ TargetsOk c.em (c.bits64 a)) fun c s =>
      (s.spawnThreads c a b x).2.modGroup c.gid fun g => g.spawnStatus c d b x (s.spawnThreads c a b x).1 := by
  refine completes_of_body (exec_spawn d a b x) (fun _ _ ⟨houtside, _⟩ => beq_iff_eq.2 houtside)
    fun c s ⟨_, hblock, hslots, htargets⟩ => ?_
  simp only [hblock, if_neg hslots]
  exact checkTargets_ok htargets

/-- In a handler spawn is an illegal instruction (R136). -/
theorem traps_spawn_inHandler (d : BitVec 6) (a b x : Operand) :
    Traps (.spawn d a b x) (spawnUses d a b x) none (fun c _ => c.g.hkind ≠ 0) fun c _ => c.trapAt 0x02 c.word :=
  traps_of_pre (exec_spawn d a b x) fun _ _ hinside => beq_eq_false_iff_ne.2 hinside

/-- In a block without spawn slots spawn has an illegal operand (R150). -/
theorem traps_spawn_noSlots (d : BitVec 6) (a b x : Operand) (blk : Block) :
    Traps (.spawn d a b x) (spawnUses d a b x) none
      (fun c s => c.g.hkind = 0 ∧ s.block? c.g.blk = some blk ∧ blk.spawn = 0) fun c _ => c.trapAt 0x03 c.word := by
  refine traps_of_body (exec_spawn d a b x) (fun _ _ ⟨houtside, _⟩ => beq_iff_eq.2 houtside)
    fun c s ⟨_, hblock, hslots⟩ => ?_
  simp only [hblock, if_pos hslots]
  rfl

/-- Settles O13: both completions are `completes_spawn`, with its uses and its group as the destination has them. -/
theorem threadSpawning : Obligations.ThreadSpawning := by
  intro d a b x blk taken may clears
  have hspawn := completes_spawn d a b x blk
  refine ⟨fun hd => ?_, fun hd => ?_, traps_spawn_inHandler d a b x, traps_spawn_noSlots d a b x blk⟩
  · simp only [spawnUses, Group.spawnStatus, if_pos hd] at hspawn
    exact hspawn
  · simp only [spawnUses, Group.spawnStatus, if_neg hd] at hspawn
    exact hspawn

end Sys2Proof.Machine

/-! Access faults (O50) and the stack limit (O51). -/

namespace Sys2Proof.Machine

/-- An access that needs no walk that a migration holds, and that fails its checks, traps with the cause, the lanes and the lowest
one's address that the checks name (R174). -/
theorem checked_fault {c : Ctx} {ls : List Nat} {mask : LaneMask → LaneMask} {addr : Nat → W64} {n align : Nat} {k : AccKind}
    {single : Bool} {kind : WatchKind} {datum : Nat → W32} {s : State} {go_ : View → State → Effect} {e : MemErr} {m : LaneMask}
    (hheld : ∀ l ∈ ls, s.heldAddr (s.viewOf c.gid c.g) l (addr l) = false)
    (hcheck : s.memCheck (s.viewOf c.gid c.g) ls addr n align k single = some (e, m)) :
    c.checked ls mask addr n align k single kind datum s go_ = c.memFault e (mask m) addr k.writes := by
  unfold Ctx.checked Ctx.admitted
  dsimp only
  rw [if_neg (by simpa using hheld), hcheck]

/-- An instruction of the shared form of accesses whose access fails its checks takes the precise trap (R174, R252). -/
theorem exec_next_of_checked_fault {i : Instr} {uses : List Use} {tl : Tail} {k : AccKind} {n : Nat} {addr : Ctx → Nat → W64}
    {kind : WatchKind} {datum : Ctx → Nat → W32} {go_ : Ctx → View → State → Effect} {s : State} {c : Ctx} {e : MemErr} {m : LaneMask}
    (he : exec i s = issueAsync (fun _ => true) uses tl
      (fun c s => c.checked (laneList c.em) id (addr c) n n k false kind (datum c) s (go_ c)) s)
    (hissues : Issues s c uses tl)
    (hheld : ∀ l ∈ laneList c.em, (s.settle c uses).heldAddr ((s.settle c uses).viewOf c.gid c.g) l (addr c l) = false)
    (hcheck : (s.settle c uses).memCheck ((s.settle c uses).viewOf c.gid c.g) (laneList c.em) (addr c) n n k false = some (e, m)) :
    exec i s = .next (s.takeTrap c.gid c.cl.pc c.cl.hdr
      { code := e.code, wr := k.writes, addr := addr c ((lowestLane m).getD 0), mask := m, resume := c.cl.pc }) := by
  rw [he, issueAsync]
  exact issueWith_trap hissues rfl (checked_fault hheld hcheck)

/-- Settles O50: the checks of an access are in R174's order, and one that fails them traps as they say
(`exec_next_of_checked_fault`). -/
theorem accessFaults : Obligations.AccessFaults := by
  intro wd sx pol d src base index off tl e m s0 v ls a n al k single addr fails trap lanesOf space misaligned stack trans
  refine ⟨?_, ?_, rfl, rfl, rfl, rfl, ?_⟩
  · exact fun s c hissues hfails =>
      exec_next_of_checked_fault (k := .read) (addr := addr) (exec_ld wd sx pol d base index off tl s) hissues hfails.1 hfails.2
  · exact fun s c hissues hfails =>
      exec_next_of_checked_fault (k := .write) (addr := addr) (exec_st wd pol src base index off tl s) hissues hfails.1 hfails.2
  · simp only [State.memCheck, bne_iff_ne, space, misaligned, stack, trans, lanesOf]

-- The stack limit

/-- The mask of the lanes of a list that satisfy a test is zero where none does. -/
theorem maskFrom_eq_zero {p : Nat → Bool} {ls : List Nat} (h : ∀ l ∈ ls, p l = false) : maskFrom p ls = 0 := by
  induction ls with
  | nil => rfl
  | cons l ls ih =>
    rw [maskFrom, h l (List.mem_cons_self ..), ih fun l hl => h l (List.mem_cons_of_mem _ hl), if_neg Bool.false_ne_true]
    rfl

/-- A lane of EM that satisfies a test is one of the mask of those that do. -/
theorem maskFrom_laneList_getLsbD (p : Nat → Bool) (em : LaneMask) {l : Nat} (hl : l < 32) :
    (maskFrom p (laneList em)).getLsbD l = true ↔ em.getLsbD l = true ∧ p l = true := by
  rw [maskFrom_getLsbD p _ l hl fun k hk => ((mem_laneList em k).1 hk).1]
  simp [mem_laneList, hl]

/-- An access that passes the address-space and alignment checks, and that goes beyond the stack limit in some lane, fails with the
stack-limit fault (R166, R174). -/
theorem memCheck_stack {s : State} {v : View} {ls : List Nat} {addr : Nat → W64} {n align : Nat} {k : AccKind} {single : Bool}
    (hspace : ∀ l ∈ ls, s.spaceErr v (addr l) n k single = false) (halign : ∀ l ∈ ls, (addr l).toNat % align = 0)
    (hstack : maskFrom (fun l => v.stackErr (addr l) n) ls ≠ 0) :
    s.memCheck v ls addr n align k single = some (.stack, maskFrom (fun l => v.stackErr (addr l) n) ls) := by
  simp only [State.memCheck, maskFrom_eq_zero hspace]
  rw [maskFrom_eq_zero (p := fun l => (addr l).toNat % align != 0) fun l hl => by simp [halign l hl]]
  exact if_pos (bne_iff_ne.2 hstack)

/-- A private address (R158). -/
def IsPrivate (a : W64) : Prop := 0xFE00000000000000 ≤ a.toNat ∧ a.toNat < 0xFF00000000000000

/-- The private addresses are those of the private space. -/
theorem spaceOf_eq_priv_iff (a : W64) : spaceOf a = some .priv ↔ IsPrivate a := by
  unfold spaceOf IsPrivate
  simp only [Bool.and_eq_true, decide_eq_true_iff]
  split_ifs <;> simp only [Option.some.injEq, reduceCtorEq, true_iff, false_iff] <;> omega

/-- A private access goes beyond the limit where one of its bytes does (R166). -/
theorem stackErr_iff (v : View) (a : W64) {n : Nat} (hn : 0 < n) :
    v.stackErr a n = true ↔ IsPrivate a ∧ ∃ i < n, 4 * v.la.plim ≤ a.toNat - 0xFE00000000000000 + i := by
  have hlast {x y : Nat} : x + n > y ↔ ∃ i < n, y ≤ x + i :=
    ⟨fun h => ⟨n - 1, by omega, by omega⟩, fun ⟨i, hi, h⟩ => by omega⟩
  rw [View.stackErr, Bool.and_eq_true, beq_iff_eq, spaceOf_eq_priv_iff, decide_eq_true_iff, hlast]
  refine and_congr_right fun ⟨hlow, hhigh⟩ => ?_
  rw [show a.toNat % 2 ^ 56 = a.toNat - 0xFE00000000000000 by omega]

/-- The lowest lane of a mask that holds one is one of its own, and no lane below it is. -/
theorem lowestLane_spec {m : LaneMask} {l : Nat} (hl : l < 32) (hm : m.getLsbD l = true) :
    ∃ low < 32, lowestLane m = some low ∧ m.getLsbD low = true ∧ ∀ k < low, m.getLsbD k ≠ true := by
  have hex : ∃ k, k < 32 ∧ m.getLsbD k = true := ⟨l, hl, hm⟩
  obtain ⟨hlow, hin⟩ := Nat.find_spec hex
  have hbelow (k : Nat) (hk : k < Nat.find hex) : m.getLsbD k ≠ true := fun h => Nat.find_min hex hk ⟨by omega, h⟩
  exact ⟨_, hlow, lowestLane_eq_some hlow hin fun k hk => Bool.eq_false_iff.2 (hbelow k hk), hin, hbelow⟩

/-- An access has a byte. -/
theorem Width.bytes_pos (wd : Width) : 0 < Width.bytes wd := by
  cases wd <;> decide

/-- Settles O51: the lanes that the stack-limit check names are those with a byte beyond the limit (`stackErr_iff`), and where the
checks before it pass the access fails with it (`memCheck_stack`). -/
theorem stackLimit : Obligations.StackLimit := by
  intro wd sx pol d base index off tl s c addr n uses s1 v priv beyond bad hissues hchecks
  have hn : 0 < n := Width.bytes_pos wd
  have hmask (l : Nat) (hl : l < 32) :
      (maskFrom (fun l => v.stackErr (addr l) n) (laneList c.em)).getLsbD l = true ↔ bad l := by
    rw [maskFrom_laneList_getLsbD _ _ hl, stackErr_iff v _ hn]
    rfl
  have hlanes {p : Nat → Prop} (h : ∀ l < 32, c.em.getLsbD l = true → p l) (l : Nat) (hl : l ∈ laneList c.em) : p l :=
    ((mem_laneList c.em l).1 hl).elim (h l)
  refine ⟨fun hzero l hl => ⟨hl, 0, hn, by rw [hzero]; exact Nat.zero_le _⟩, fun ⟨l, hl, hbad⟩ => ?_⟩
  obtain ⟨low, hlow, heq, hin, hbelow⟩ := lowestLane_spec hl ((hmask l hl).2 hbad)
  refine ⟨_, low, hlow, (hmask low hlow).1 hin, fun k hk => mt (hmask k (hk.trans hlow)).2 (hbelow k hk), hmask, ?_⟩
  have hcheck := memCheck_stack (s := s1) (v := v) (ls := laneList c.em) (addr := addr) (n := n) (align := n) (k := .read) (single := false)
    (hlanes fun l hl hem => (hchecks l hl hem).2.1) (hlanes fun l hl hem => (hchecks l hl hem).2.2)
    (fun h0 => by simp [h0] at hin)
  have htrap := exec_next_of_checked_fault (exec_ld wd sx pol d base index off tl s) hissues
    (hlanes fun l hl hem => (hchecks l hl hem).1) hcheck
  rw [htrap, heq]
  rfl

end Sys2Proof.Machine

/-! Atomics (O15). -/

namespace Sys2Proof.Machine

/-- A lane's word, in the one piece that its access has, is the word that its atomic acts on (R184). -/
theorem Gather.quiet.atomic_word {core b : Nat} {x : Byte} {A : NMap Aperture} {s s1 : State} {g : Gather}
    (h : g.quiet core b x A fun _ => False) (v : View) (hv : v.core = core) (l : Nat)
    (va : W64) (k : AccKind) (red : Option (RedOp × W64)) (hred : ∀ o, red = some o → o.1 ≠ .ctrAdd) (dst : Dst)
    (acc : Nat → Access) (hacc : ∀ pa, Access.writes b (acc pa) → pa ≤ b ∧ b < pa + 4)
    (hb : ∀ p ∈ s1.piecesOf v l va 4 k, ¬ s.storesTo core p b) :
    ((s1.piecesOf v l va 4 k).foldl (fun g p => g.atomic v va p.1 red dst acc) g).quiet core b x A fun _ => False := by
  refine foldl_quiet _ _ h fun p hp g hg => hg.atomic (s := s) v hv va p.1 red dst acc ?_ hred hacc
  have hword : (p.1, 4) = p := by rw [← State.piecesOf_word hp]
  rw [hword]
  exact hb p hp

/-- An instruction of the shared form of atomics keeps every byte outside its lanes' words, where its accesses and its contributions
write no more than their words (R184, R427). -/
theorem keepsMemory_of_atomics {i : Instr} {uses : List Use} {tl : Tail} {d : BitVec 6} {addr : Ctx → Nat → W64} {k : AccKind}
    {red : Ctx → Nat → Option (RedOp × W64)} {acc : Ctx → Nat → Nat → Dst → Access}
    (he : ∀ s, exec i s = atomics uses tl d addr k red acc s) (hred : ∀ c l o, red c l = some o → o.1 ≠ .ctrAdd)
    (hacc : ∀ c l pa dst b, Access.writes b (acc c l pa dst) → pa ≤ b ∧ b < pa + 4) :
    KeepsMemory i (uses ++ [.regs d 1 1]) tl (fun c s => c.accessible (laneList c.em) (addr c) 4 4 k true false s)
      fun c => c.touched (laneList c.em) (addr c) 4 k := by
  refine keepsMemory_of_checked (fun _ => False) (fun _ => False) rfl he fun c s b x A hcore hs hq hready => ?_
  refine foldl_quiet _ _ (hready.gather c tl) fun l hl g hg => ?_
  exact hg.atomic_word _ hcore l _ k _ (hred c l) _ _ (fun pa => hacc c l pa _ b) fun p hp hst => hs ⟨l, hl, p, hp, hst⟩

/-- An atom in a reduction window adds, or combines, and is no counter addition (R426). -/
theorem contribOf_ne_ctrAdd (op : AtomOp) (x : W32) : (contribOf op x).1 ≠ .ctrAdd := by
  cases op <;> simp [contribOf]

/-- Settles O15: atomics are of the shared form of accesses (`completesAccess_of`), and what they gather leaves the bytes outside
their lanes' words (`keepsMemory_of_atomics`). -/
theorem atomicInstructions : Obligations.AtomicInstructions := by
  intro op fop d a b x off tl em addr gathered waits kind
  refine ⟨?_, ?_, ?_, ?_, ?_, ?_⟩
  · exact completesAccess_of (fun _ => id) .atomic (fun _ _ => 0) rfl (exec_atom op d a x off tl)
  · exact completesAccess_of (fun _ => id) .atomic (fun _ _ => 0) rfl (exec_atomCas d a b x tl)
  · exact completesAccess_of (fun _ => id) .atomic (fun _ _ => 0) rfl (exec_fatom fop d a x off tl)
  · refine keepsMemory_of_atomics (uses := [.src64 a, .src x]) (exec_atom op d a x off tl) ?_ fun _ _ _ _ _ => id
    rintro c l _ ⟨⟩
    exact contribOf_ne_ctrAdd op _
  · refine keepsMemory_of_atomics (uses := [.src64 a, .src b, .src x]) (exec_atomCas d a b x tl) ?_ ?_
    · exact fun _ _ _ h => (Option.some_ne_none _ h.symm).elim
    · exact fun _ _ _ _ _ => id
  · refine keepsMemory_of_atomics (uses := [.src64 a, .src x]) (exec_fatom fop d a x off tl) ?_ fun _ _ _ _ _ => id
    rintro c l _ ⟨⟩
    exact nofun

end Sys2Proof.Machine

/-! Phases and fences, cache maintenance and addresses (O17). -/

namespace Sys2Proof.Machine

/-- Phases and fences complete with their refresh and their publish (R280, R292, R293). -/
theorem phasesAndFences : Claims.PhasesAndFences := by
  intro sc tl
  refine ⟨?_, ?_, ?_, ?_⟩
  · exact completesAsync_of_body (exec_phase sc tl) (fun _ _ _ => rfl) fun _ _ _ => rfl
  · exact completesAsync_of_body (exec_phaseP sc tl) (fun _ _ _ => rfl) fun _ _ _ => rfl
  · exact completes_of_body (exec_phaseS tl) (fun _ _ _ => rfl) fun _ _ _ => rfl
  · exact completesAsync_of_body (exec_lfence sc tl) (fun _ _ _ => rfl) fun _ _ _ => rfl

/-- cwb and cinv of addresses that pass their checks act on the lines that the lanes name (R181). -/
theorem maintained_line {c : Ctx} {base index : Operand} {off : BitVec 12} {s : State} (go_ : View → List Nat → State → Effect)
    (hheld : ∀ l ∈ laneList c.em, s.heldAddr (s.viewOf c.gid c.g) l (c.addr base index off l) = false)
    (hcheck : s.memCheck (s.viewOf c.gid c.g) (laneList c.em) (c.addr base index off) 1 1 .read false = none) :
    c.maintained (.line base index off) s go_ =
      go_ (s.viewOf c.gid c.g)
        (distinct ((laneList c.em).filterMap fun l => s.lineOf (s.viewOf c.gid c.g) l (c.addr base index off l)))
        (s.touchTlbs (s.viewOf c.gid c.g) (c.addr base index off) (laneList c.em)) := by
  unfold Ctx.maintained
  dsimp only
  rw [if_neg (by simpa using hheld), hcheck]

/-- prefetch, cwb, cinv, aconv and aclass have their effects (R180 to R183). -/
theorem cacheAndAddresses : Claims.CacheAndAddresses := by
  intro pol base index a off tgt sp r v tl addr checked lines touched counted after every
  refine ⟨?_, ?_, ?_, ?_, ?_, ?_, ?_, ?_⟩
  · exact completes_of_body (exec_prefetch pol base index off) (fun _ _ _ => rfl) fun _ _ _ => rfl
  · exact completesAsync_of_body (exec_cwb (.line base index off) tl) (fun _ _ _ => rfl) fun c s h =>
      (maintained_line _ h.1 h.2).trans (by cases tl <;> rfl)
  · exact completesAsync_of_body (exec_cwb .all tl) (fun _ _ _ => rfl) fun c s _ => by cases tl <;> rfl
  · exact completesAsync_of_body (exec_cinv (.line base index off) tl) (fun _ _ _ => rfl) fun c s h =>
      (maintained_line _ h.1 h.2).trans (by cases tl <;> rfl)
  · exact completesAsync_of_body (exec_cinv .all tl) (fun _ _ _ => rfl) fun c s _ => by cases tl <;> rfl
  · exact completes_of_body (exec_aconv tgt (.s r) a) (fun _ _ _ => rfl) fun _ _ _ => rfl
  · exact completes_of_body (exec_aconv tgt (.v v) a) (fun _ _ _ => rfl) fun _ _ _ => rfl
  · exact completes_of_body (exec_aclass sp a) (fun _ _ _ => rfl) fun _ _ _ => rfl

/-- Settles O17: each instruction completes as its body does where the checks of its lines pass. -/
theorem phaseAndCacheInstructions : Obligations.PhaseAndCacheInstructions :=
  ⟨phasesAndFences, cacheAndAddresses⟩

end Sys2Proof.Machine

/-! Own stores through the L1 (O53). -/

namespace Sys2Proof.Machine

/-- A mask of n bytes from an offset holds those bytes. -/
theorem byteMask_getLsbD (off n i : Nat) :
    (byteMask off n).getLsbD i = (decide (i < 128) && (decide (off ≤ i) && decide (i < off + n))) := by
  rw [byteMask, BitVec.getLsbD_ofNat, Nat.mul_comm, Nat.testBit_two_pow_mul, Nat.testBit_two_pow_sub_one]
  congr 1
  by_cases h : off ≤ i
  · simp [h]
    omega
  · simp [h]

/-- The bits of byte i of a line. -/
theorem byteBits_getLsbD (i j : Nat) :
    (BitVec.ofNat 1024 (255 * 2 ^ (8 * i))).getLsbD j = (decide (j < 1024) && decide (j / 8 = i)) := by
  rw [BitVec.getLsbD_ofNat, Nat.mul_comm, Nat.testBit_two_pow_mul, show 255 = 2 ^ 8 - 1 from rfl, Nat.testBit_two_pow_sub_one,
    ← Bool.decide_and]
  congr 2
  exact propext (by omega)

/-- The bits of a mask's bytes are those of the bytes that it holds. -/
theorem bitMask_getLsbD (m : BitVec 128) {j : Nat} (hj : j < 1024) : (bitMask m).getLsbD j = m.getLsbD (j / 8) := by
  have hstep (acc : BitVec 1024) (i : Nat) : (if m.getLsbD i then acc ||| BitVec.ofNat 1024 (255 * 2 ^ (8 * i)) else acc).getLsbD j =
      (acc.getLsbD j || (decide (j / 8 = i) && m.getLsbD (j / 8))) := by
    by_cases hi : j / 8 = i
    · subst hi
      split <;> simp [byteBits_getLsbD, *]
    · split <;> simp [byteBits_getLsbD, hi]
  have hprefix (k : Nat) : ((List.range k).foldl (fun acc i => if m.getLsbD i then acc ||| BitVec.ofNat 1024 (255 * 2 ^ (8 * i)) else acc)
      0).getLsbD j = (decide (j / 8 < k) && m.getLsbD (j / 8)) := by
    induction k with
    | zero => exact BitVec.getLsbD_zero
    | succ k ih =>
      rw [List.range_succ, List.foldl_append, List.foldl_cons, List.foldl_nil, hstep, ih, ← Bool.and_or_distrib_right,
        ← Bool.decide_or]
      congr 2
      exact propext Nat.lt_succ_iff_lt_or_eq.symm
  rw [bitMask, hprefix, decide_eq_true (by omega), Bool.true_and]

/-- n bytes that are put into a line's data read back from it. -/
theorem bytesOfLine_putBytes (d : BitVec 1024) {off n : Nat} (x : Nat) (hfit : off + n ≤ 128) :
    bytesOfLine (putBytes d off n x) off n = x % 2 ^ (8 * n) := by
  refine Nat.eq_of_testBit_eq fun i => ?_
  rw [bytesOfLine, Nat.testBit_mod_two_pow, Nat.testBit_mod_two_pow, Nat.testBit_div_two_pow]
  by_cases hi : i < 8 * n
  · have hmask : (bitMask (byteMask off n)).getLsbD (i + 8 * off) = true := by
      rw [bitMask_getLsbD _ (by omega), byteMask_getLsbD]
      simp
      omega
    rw [← BitVec.getLsbD, putBytes, BitVec.getLsbD_or, BitVec.getLsbD_and, BitVec.getLsbD_not, hmask, BitVec.getLsbD_ofNat,
      Nat.mul_comm _ (2 ^ (8 * off)), Nat.testBit_two_pow_mul, Nat.testBit_mod_two_pow]
    simp [hi]
    omega
  · simp [hi]

/-- A line after a change of it. -/
theorem State.line_modLine (s : State) (core line : Nat) (f : L1Line → L1Line) :
    ((s.modLine core line f).core core).line line = f ((s.core core).line line) := by
  rw [State.modLine, State.core_modCore, if_pos rfl, Core.line, NMap.get_put, if_pos rfl]

/-- A load of bytes that the L1 holds reads them in the line. -/
theorem State.l1Load_hit {s : State} {core : Nat} (pol : Policy) {pa n : Nat}
    (hheld : byteMask (pa % 128) n &&& ~~~((s.core core).line (pa / 128)).held = 0) :
    (s.l1Load core pol pa n).1 = bytesOfLine ((s.core core).line (pa / 128)).data (pa % 128) n := by
  unfold State.l1Load State.l1LoadBy
  exact congrArg Prod.fst (if_pos hheld)

/-- The line of a store that does not bypass the L1 has the store's bytes, and holds them (R161). -/
theorem State.line_l1Store (s : State) (core launch : Nat) (site : Site) {pol : Policy} (hpol : pol ≠ .byp) (pa n x : Nat) :
    ∃ l : L1Line, (((s.l1Store core launch site pol pa n x).core core).line (pa / 128)).data = putBytes l.data (pa % 128) n x ∧
      (((s.l1Store core launch site pol pa n x).core core).line (pa / 128)).held = l.held ||| byteMask (pa % 128) n := by
  refine ⟨(((s.beforeHit core (pa / 128)).allocLine core (pa / 128)).core core).line (pa / 128), ?_⟩
  simp only [State.l1Store, if_neg hpol, State.line_modLine, and_self]

/-- Bytes that a power of two of at most a line aligns are of one line. -/
theorem lineOffset_add_le {pa k : Nat} (hk : k ≤ 7) (halign : pa % 2 ^ k = 0) : pa % 128 + 2 ^ k ≤ 128 := by
  have hline : 2 ^ k ∣ 128 := pow_dvd_pow 2 hk
  have hdvd : 2 ^ k ∣ 128 - pa % 128 := Nat.dvd_sub hline ((Nat.dvd_mod_iff hline).2 (Nat.dvd_of_mod_eq_zero halign))
  have hle := Nat.le_of_dvd (by omega) hdvd
  omega

/-- Settles O53: a store that does not bypass the L1 leaves its bytes in the line (`bytesOfLine_putBytes`), and the load that follows
hits them (`State.l1Load_hit`). -/
theorem ownStoresReadBack : Obligations.OwnStoresReadBack := by
  intro s core launch pa k x site pol pol' n hk halign hpol
  obtain ⟨l, hdata, hheld⟩ := s.line_l1Store core launch site hpol pa n x
  have hhit : byteMask (pa % 128) n &&& ~~~(l.held ||| byteMask (pa % 128) n) = 0 := by
    ext i
    simp +contextual
  rw [State.l1Load_hit pol' (by rw [hheld, hhit]), hdata]
  exact bytesOfLine_putBytes _ x (lineOffset_add_le (by omega) halign)

end Sys2Proof.Machine

/-! Every step keeps the canonical form of memory (O60). One lemma for each function of the model that a step uses
says that it keeps the form: `CanonMem.f` for `State.f`, `Ctx.f` and `execF`, `CanonGather.f` for `Gather.f`. They stand in the order
in which the functions use each other; a record's update that leaves memory alone is `CanonMem.upd`, and what writes memory comes
down to `State.storeBytes` and `State.performWb`. -/

namespace Sys2Proof.Machine

/-- Memory is in its canonical form (log entry 1). -/
def CanonMem (s : State) : Prop := Memory.wf s.mem = true

/-- A result that succeeds leaves memory in its form; f says where the state is in it. -/
def CanonOk {ε α : Type} (f : α → State) : Except ε α → Prop
  | .ok x => CanonMem (f x)
  | .error _ => True

/-- What is there, if anything, has memory in its form; f says where the state is in it. -/
def CanonSome {α : Type} (f : α → State) : Option α → Prop
  | some x => CanonMem (f x)
  | none => True

/-- The state of a gathering of accesses has memory in its form. -/
def CanonGather (g : Gather) : Prop := CanonMem g.s

/-- What an instruction's body leaves has memory in its form. -/
def CanonEffect : Effect → Prop
  | .ok s | .stop s => CanonMem s
  | .trap _ | .stall => True

/-- What a step leaves has memory in its form. -/
def CanonResult : Result → Prop
  | .next s => CanonMem s
  | _ => True

section

variable {s : State}

/-- What leaves memory as it is keeps its form. -/
theorem CanonMem.upd {t : State} (h : CanonMem s) (e : t.mem = s.mem) : CanonMem t := by
  unfold CanonMem
  rw [e]
  exact h

/-- Either of two states. -/
theorem CanonMem.ite {p : Prop} {d : Decidable p} {t : State} (hs : CanonMem s) (ht : CanonMem t) :
    CanonMem (if p then s else t) := by
  split
  · exact hs
  · exact ht

/-- A fold of steps that keep the form. -/
theorem CanonMem.foldl {α : Type} {f : State → α → State} {l : List α} (h : CanonMem s)
    (hf : ∀ s x, CanonMem s → CanonMem (f s x)) : CanonMem (l.foldl f s) := by
  induction l generalizing s with
  | nil => exact h
  | cons x l ih => exact ih (hf s x h)

/-- A fold of gatherings. -/
theorem CanonGather.foldl {α : Type} {f : Gather → α → Gather} {g : Gather} {l : List α} (h : CanonGather g)
    (hf : ∀ g x, CanonGather g → CanonGather (f g x)) : CanonGather (l.foldl f g) := by
  induction l generalizing g with
  | nil => exact h
  | cons x l ih => exact ih (hf g x h)

/-- A gathering of accesses has memory in its form where its state has. -/
theorem CanonMem.gathered {g : Gather} (h : CanonMem g.s) : CanonGather g := h

theorem CanonGather.upd {g g' : Gather} (h : CanonGather g) (e : g'.s = g.s) : CanonGather g' := CanonMem.upd h (congrArg _ e)

theorem CanonGather.mem {g : Gather} (h : CanonGather g) : CanonMem g.s := h

theorem CanonOk.of_eq {ε α : Type} {f : α → State} {r : Except ε α} {x : α} {t : State} (h : CanonOk f r) (e : r = .ok x)
    (et : f x = t) : CanonMem t := by
  rw [e] at h
  rw [← et]
  exact h

theorem CanonSome.of_eq {α : Type} {f : α → State} {r : Option α} {x : α} {t : State} (h : CanonSome f r) (e : r = some x)
    (et : f x = t) : CanonMem t := by
  rw [e] at h
  rw [← et]
  exact h

-- Memory

theorem CanonMem.storeBytes {a : Nat} {bs : List Byte} (h : CanonMem s) : CanonMem (s.storeBytes a bs) :=
  State.wf_storeBytes s a bs h

theorem CanonMem.modDie {d : Nat} {f : Die → Die} (h : CanonMem s) : CanonMem (s.modDie d f) := h.upd rfl

theorem CanonMem.modCore {c : Nat} {f : Core → Core} (h : CanonMem s) : CanonMem (s.modCore c f) := h.upd rfl

theorem CanonMem.modCluster {c : Nat} {f : Cluster → Cluster} (h : CanonMem s) : CanonMem (s.modCluster c f) := h.upd rfl

theorem CanonMem.setGroup {gid : Nat} {g : Group} (h : CanonMem s) : CanonMem (s.setGroup gid g) := h.upd rfl

theorem CanonMem.modGroup {gid : Nat} {f : Group → Group} (h : CanonMem s) : CanonMem (s.modGroup gid f) := by
  unfold State.modGroup
  split
  · exact h.setGroup
  · exact h

theorem CanonMem.put {c : Ctx} {g : Group} (h : CanonMem s) : CanonMem (s.put c g) := h.setGroup

theorem CanonMem.modBlock {b : Nat} {f : Block → Block} (h : CanonMem s) : CanonMem (s.modBlock b f) := by
  unfold State.modBlock
  split
  · exact h.upd rfl
  · exact h

theorem CanonMem.modLaunch {n : Nat} {f : Launch → Launch} (h : CanonMem s) : CanonMem (s.modLaunch n f) := by
  unfold State.modLaunch
  split
  · exact h.upd rfl
  · exact h

theorem CanonMem.fresh (h : CanonMem s) : CanonMem s.fresh.2 := h.upd rfl

theorem CanonMem.pick {n : Nat} (h : CanonMem s) : CanonMem (s.pick n).2 := by
  unfold State.pick
  split
  · exact h
  · exact h.upd rfl

theorem CanonMem.releaseSlot {gid : Nat} {tag : BitVec 4} {slot : Option (BitVec 3)} (h : CanonMem s) :
    CanonMem (s.releaseSlot gid tag slot) := by
  unfold State.releaseSlot
  split
  · exact h
  · exact h.modGroup

theorem CanonMem.store32 {a : Nat} {x : W32} (h : CanonMem s) : CanonMem (s.store32 a x) := h.storeBytes

theorem CanonMem.store64 {a : Nat} {x : W64} (h : CanonMem s) : CanonMem (s.store64 a x) := h.storeBytes

theorem CanonMem.modQueue {q : Nat} {f : Queue → Queue} (h : CanonMem s) : CanonMem (s.modQueue q f) := h.upd rfl

theorem CanonMem.postEvent {q : Nat} {ws : List W64} (h : CanonMem s) : CanonMem (s.postEvent q ws) := h.modQueue

theorem CanonMem.postEvents {ws : List W64} {l : List Nat} (h : CanonMem s) : CanonMem (s.postEvents ws l) := by
  induction l generalizing s with
  | nil => exact h
  | cons x xs ih => exact ih h.postEvent

theorem CanonMem.postAll {ws : List W64} (h : CanonMem s) : CanonMem (s.postAll ws) := h.postEvents

theorem CanonMem.recordAt {die type : Nat} {ws loc : List W64} (h : CanonMem s) : CanonMem (s.recordAt die type ws loc) :=
  CanonMem.ite h h.modDie

theorem CanonMem.record {die type : Nat} {ws : List W64} (h : CanonMem s) : CanonMem (s.record die type ws) := h.recordAt

theorem CanonMem.recordFree {die type : Nat} {ws : List W64} (h : CanonMem s) : CanonMem (s.recordFree die type ws) := h.record

theorem CanonMem.recordTrap {x : Site} {cause addr : W64} {mask : LaneMask} (h : CanonMem s) :
    CanonMem (s.recordTrap x cause addr mask) := h.recordFree

theorem CanonMem.l2Post {pa : Nat} {write : Bool} {who : Nat × Nat} {die : Nat} (h : CanonMem s) :
    CanonMem (s.l2Post pa write who die) := CanonMem.ite h h.record

theorem CanonMem.l2See {a n : Nat} {write : Bool} {who : Nat × Nat} {die : Nat} (h : CanonMem s) :
    CanonMem (s.l2See a n write who die) := by
  unfold State.l2See
  split
  · exact h
  · split
    · exact h
    · exact h.l2Post

theorem CanonMem.hubWalk {root va : Nat} (h : CanonMem s) : CanonMem (s.hubWalk root va) := h.foldl fun _ _ ht => ht.l2See

theorem CanonMem.fillUnit {u : Nat} {e1 : TlbEntry} (h : CanonMem s) : CanonMem (s.fillUnit u e1) := CanonMem.ite h.modCore h

theorem CanonMem.leaf {core asn root va : Nat} (h : CanonMem s) : CanonMem (s.leaf core asn root va).2 := by
  unfold State.leaf
  split
  · exact h
  · split
    · exact h.fillUnit
    · split
      · split
        · exact h.foldl fun _ _ ht => ht.l2See
        · exact (h.foldl fun _ _ ht => ht.l2See).fillUnit.modDie
      · split
        · exact h.foldl fun _ _ ht => ht.l2See
        · exact (h.foldl fun _ _ ht => ht.l2See).fillUnit.modDie

theorem CanonMem.fillTlb {core asn root va : Nat} (h : CanonMem s) : CanonMem (s.fillTlb core asn root va) := by
  unfold State.fillTlb
  split
  · exact h
  · exact h.leaf

theorem CanonMem.modPass {slot : Nat} {f : RenderPass → RenderPass} (h : CanonMem s) : CanonMem (s.modPass slot f) := by
  unfold State.modPass
  split
  · exact h.upd rfl
  · exact h

theorem CanonMem.passCount {slot word n : Nat} (h : CanonMem s) : CanonMem (s.passCount slot word n) := by
  unfold State.passCount
  split
  · exact h
  · split
    · exact h
    · split
      · exact h
      · split
        · exact h.hubWalk.l2See.store64
        · exact h.upd rfl

theorem CanonMem.closeHeld {slot : Nat} (h : CanonMem s) : CanonMem (s.closeHeld slot) := by
  unfold State.closeHeld
  split
  · exact h
  · exact h.passCount.modPass

theorem CanonMem.meshExit {gid : Nat} {tag : BitVec 4} {blk : Nat} (h : CanonMem s) : CanonMem (s.meshExit gid tag blk) := h.upd rfl

theorem CanonMem.primDone {p : Prim} (h : CanonMem s) : CanonMem (s.primDone p) := (h.upd (by rfl)).modPass

theorem CanonMem.dropPrims {slot : Nat} (h : CanonMem s) : CanonMem (s.dropPrims slot) := by
  unfold State.dropPrims
  exact h.passCount.upd (by dsimp only)

theorem CanonMem.modTile {slot t : Nat} {f : Tile → Tile} (h : CanonMem s) : CanonMem (s.modTile slot t f) := h.modPass

theorem CanonMem.modOut {slot t : Nat} {f : TilePass → TilePass} (h : CanonMem s) : CanonMem (s.modOut slot t f) := h.modTile

theorem CanonMem.verdict {g : Group} {lane kept : Nat} (h : CanonMem s) : CanonMem (s.verdict g lane kept) := by
  unfold State.verdict
  split
  · exact h
  · exact h.modOut

theorem CanonMem.verdicts {g : Group} {kept : Nat → Nat} {l : List Nat} (h : CanonMem s) : CanonMem (s.verdicts g kept l) := by
  induction l generalizing s with
  | nil => exact h
  | cons x xs ih => exact ih h.verdict

theorem CanonMem.setHub {off : Nat} {x : W64} (h : CanonMem s) : CanonMem (s.setHub off x) := h.upd rfl

theorem CanonMem.completeCmd {q num : Nat} (h : CanonMem s) : CanonMem (s.completeCmd q num) := by
  unfold State.completeCmd
  split
  · exact h
  · exact CanonMem.ite h.modQueue.postEvent h.modQueue

theorem CanonMem.modCmd {q num : Nat} {f : Cmd → Cmd} (h : CanonMem s) : CanonMem (s.modCmd q num f) := h.modQueue

theorem CanonMem.settleCmd {q num : Nat} (h : CanonMem s) : CanonMem (s.settleCmd q num) := by
  unfold State.settleCmd
  split
  · exact h
  · exact CanonMem.ite h.completeCmd h

theorem CanonMem.failNode {q num node : Nat} (h : CanonMem s) : CanonMem (s.failNode q num node) := by
  unfold State.failNode
  refine CanonMem.settleCmd ?_
  split
  · exact h
  · exact h.modCmd

theorem CanonMem.fallback {n : Nat} (h : CanonMem s) : CanonMem (s.fallback n) := by
  unfold State.fallback
  exact h.setHub.upd (by dsimp only)

theorem CanonMem.mirageFallback {q : Nat} (h : CanonMem s) : CanonMem (s.mirageFallback q) := h.foldl fun _ _ ht => ht.fallback

theorem CanonMem.stopQueue {q reason num : Nat} {skip : Bool} (h : CanonMem s) : CanonMem (s.stopQueue q reason num skip) :=
  h.modQueue.postEvent.mirageFallback

theorem CanonMem.setPresent {l : List Nat} (h : CanonMem s) : CanonMem (s.setPresent l) := by
  induction l generalizing s with
  | nil => exact h
  | cons x xs ih => exact ih h.modCore

theorem CanonMem.clearPresent {l : List Nat} (h : CanonMem s) : CanonMem (s.clearPresent l) := by
  induction l generalizing s with
  | nil => exact h
  | cons x xs ih => exact ih h.modCore

theorem CanonMem.denyTile {blk : Nat} (h : CanonMem s) : CanonMem (s.denyTile blk) := by
  unfold State.denyTile
  split
  · exact h
  · exact (h.upd (by rfl)).modBlock

theorem CanonMem.sendTile {blk : Nat} (h : CanonMem s) : CanonMem (s.sendTile blk) := by
  unfold State.sendTile
  split
  · exact h
  · exact CanonMem.ite (h.upd rfl) h.denyTile

theorem CanonMem.denyTiles {l : List Nat} (h : CanonMem s) : CanonMem (s.denyTiles l) := by
  induction l generalizing s with
  | nil => exact h
  | cons x xs ih => exact ih h.denyTile

theorem CanonMem.spoil {root va n n1 : Nat} (h : CanonMem s) : CanonMem (s.spoil root va n n1) := by
  induction n1 generalizing s va n with
  | zero => exact h
  | succ n ih =>
    unfold State.spoil
    split
    · exact h
    · refine ih ?_
      split
      · exact CanonMem.ite h h.storeBytes
      · exact h

theorem CanonMem.spoilTiles {x : RenderPass} {l : List Nat} (h : CanonMem s) : CanonMem (s.spoilTiles x l) := by
  induction l generalizing s with
  | nil => exact h
  | cons x xs ih => exact ih h.spoil

theorem CanonMem.failPass {slot : Nat} (h : CanonMem s) : CanonMem (s.failPass slot) := by
  unfold State.failPass
  split
  · exact h
  · exact (h.closeHeld.modPass.denyTiles.dropPrims.upd (by dsimp only)).spoilTiles.postEvent.completeCmd

theorem CanonMem.failPasses {l : List Nat} (h : CanonMem s) : CanonMem (s.failPasses l) := by
  induction l generalizing s with
  | nil => exact h
  | cons x xs ih => exact ih h.failPass

theorem CanonMem.dropLaunch {n : Nat} (h : CanonMem s) : CanonMem (s.dropLaunch n) := by
  unfold State.dropLaunch
  exact h.setPresent.upd (by dsimp only)

theorem CanonMem.killReport {la : Launch} {n code : Nat} {addr : W64} {x : Site} (h : CanonMem s) :
    CanonMem (s.killReport la n code addr x) := h.postEvent

theorem CanonMem.pushFw {e1 : FwEvent} (h : CanonMem s) : CanonMem (s.pushFw e1) := h.upd rfl

theorem CanonMem.discard {n : Nat} (h : CanonMem s) : CanonMem (s.discard n) := by
  unfold State.discard
  split
  · exact h
  · refine CanonMem.upd ?_ (by dsimp only)
    exact (h.upd (by rfl)).failPasses.dropLaunch.mirageFallback

theorem CanonMem.dropReport {n code : Nat} {addr : W64} {x : Site} (h : CanonMem s) : CanonMem (s.dropReport n code addr x) := by
  unfold State.dropReport
  split
  · exact h
  · exact h.discard.killReport

theorem CanonMem.sendCtl {tag : Nat} {kind : CtlKind} {dsts : List Nat} (h : CanonMem s) : CanonMem (s.sendCtl tag kind dsts) :=
  h.upd rfl

theorem CanonMem.tellBroken {q num : Nat} (h : CanonMem s) : CanonMem (s.tellBroken q num) := by
  unfold State.tellBroken
  split
  · exact h
  · exact h.sendCtl

theorem CanonMem.discardGang {q : Nat} {l : List Nat} (h : CanonMem s) : CanonMem (s.discardGang q l) := by
  induction l generalizing s with
  | nil => exact h
  | cons x xs ih => exact ih h.dropReport

theorem CanonMem.breakGang {q num : Nat} (h : CanonMem s) : CanonMem (s.breakGang q num) := by
  unfold State.breakGang
  split
  · exact h
  · exact h.discardGang.completeCmd

theorem CanonMem.reportKill {n : Nat} {la : Launch} {code : Nat} {addr : W64} {x : Site} (h : CanonMem s) :
    CanonMem (s.reportKill n la code addr x) := h.killReport.tellBroken.failNode.breakGang

theorem CanonMem.killLaunch {n code : Nat} {addr : W64} {x : Site} (h : CanonMem s) : CanonMem (s.killLaunch n code addr x) := by
  unfold State.killLaunch
  split
  · exact h
  · exact h.discard.pushFw

theorem CanonMem.killNow {n code : Nat} {addr : W64} {x : Site} (h : CanonMem s) : CanonMem (s.killNow n code addr x) := by
  unfold State.killNow
  split
  · exact h
  · exact h.discard.reportKill

theorem CanonMem.killLaunches {code : Nat} {addr : W64} {x : Site} {l : List Nat} (h : CanonMem s) :
    CanonMem (s.killLaunches code addr x l) := by
  induction l generalizing s with
  | nil => exact h
  | cons x xs ih => exact ih h.killLaunch

theorem CanonMem.killOwners {code : Nat} {addr : W64} {l : List Contributor} (h : CanonMem s) :
    CanonMem (s.killOwners code addr l) := by
  induction l generalizing s with
  | nil => exact h
  | cons x xs ih => exact ih h.killLaunch

theorem CanonMem.performWb {w : WriteBack} (h : CanonMem s) : CanonMem (s.performWb w) := wf_writeMasked _ _ _ _ _ h

theorem CanonMem.performWbs {l : List WriteBack} (h : CanonMem s) : CanonMem (s.performWbs l) := by
  induction l generalizing s with
  | nil => exact h
  | cons x xs ih => exact ih h.performWb

theorem CanonMem.performOrdered {n : Nat} {l : List WriteBack} (h : CanonMem s) : CanonMem (s.performOrdered n l) := by
  induction n generalizing s l with
  | zero => exact h.performWbs
  | succ n ih =>
    unfold State.performOrdered
    split
    · exact h.performWbs
    · exact ih h.performWb

theorem CanonMem.performFirst {ws : List WriteBack} (h : CanonMem s) : CanonMem (s.performFirst ws) := h.performOrdered

theorem CanonMem.beforeRead {core line : Nat} (h : CanonMem s) : CanonMem (s.beforeRead core line) := h.performFirst

theorem CanonMem.beforeEngine {core line : Nat} (h : CanonMem s) : CanonMem (s.beforeEngine core line) := h.performFirst

theorem CanonMem.beforeHit {core line : Nat} (h : CanonMem s) : CanonMem (s.beforeHit core line) := h.performFirst

theorem CanonMem.sendWb {core launch line : Nat} {mask : BitVec 128} {data : BitVec 1024} {through : Option Site} (h : CanonMem s) :
    CanonMem (s.sendWb core launch line mask data through) := CanonMem.ite h (h.upd rfl)

theorem CanonMem.evictLine {core line : Nat} (h : CanonMem s) : CanonMem (s.evictLine core line) := by
  unfold State.evictLine
  split
  · exact h
  · exact h.modCore.sendWb

theorem CanonMem.makeRoom {core line : Nat} (h : CanonMem s) : CanonMem (s.makeRoom core line) :=
  CanonMem.ite h (CanonMem.ite (CanonMem.ite h.modCore h) (CanonMem.ite h.modCore h).pick.evictLine)

theorem CanonMem.allocLine {core line : Nat} (h : CanonMem s) : CanonMem (s.allocLine core line) :=
  CanonMem.ite h h.makeRoom.modCore

theorem CanonMem.modLine {core line : Nat} {f : L1Line → L1Line} (h : CanonMem s) : CanonMem (s.modLine core line f) := h.modCore

theorem CanonMem.l1LoadBy {who : Nat × Nat} {core : Nat} {pol : Policy} {pa n : Nat} (h : CanonMem s) :
    CanonMem (s.l1LoadBy who core pol pa n).2 := by
  unfold State.l1LoadBy
  split
  · split
    · dsimp only
      split
      · exact h.beforeHit.modLine
      · exact h.beforeRead.l2See
    · dsimp only
      split
      · exact h.beforeHit.modLine
      · exact h.beforeRead.l2See.allocLine.modLine
  · split
    · dsimp only
      split
      · exact h.beforeHit
      · exact h.beforeRead.l2See
    · dsimp only
      split
      · exact h.beforeHit
      · exact h.beforeRead.l2See.allocLine.modLine

theorem CanonMem.l1Load {core : Nat} {pol : Policy} {pa n : Nat} (h : CanonMem s) : CanonMem (s.l1Load core pol pa n).2 :=
  h.l1LoadBy

theorem CanonMem.l1Store {core launch : Nat} {site : Site} {pol : Policy} {pa n x : Nat} (h : CanonMem s) :
    CanonMem (s.l1Store core launch site pol pa n x) :=
  CanonMem.ite (CanonMem.ite h.beforeHit.modLine h.beforeHit).sendWb h.beforeHit.allocLine.modLine

theorem CanonMem.cleanLine {core launch line : Nat} {mask : BitVec 128} (h : CanonMem s) :
    CanonMem (s.cleanLine core launch line mask) := CanonMem.ite h.modLine.sendWb h

theorem CanonMem.cleanLines {core launch : Nat} {l : List Nat} (h : CanonMem s) : CanonMem (s.cleanLines core launch l) := by
  induction l generalizing s with
  | nil => exact h
  | cons x xs ih => exact ih h.cleanLine

theorem CanonMem.dropBytes {core line : Nat} {mask : BitVec 128} (h : CanonMem s) : CanonMem (s.dropBytes core line mask) :=
  CanonMem.ite h.modCore h

theorem CanonMem.flushLines {core launch : Nat} {l : List Nat} (h : CanonMem s) : CanonMem (s.flushLines core launch l) := by
  induction l generalizing s with
  | nil => exact h
  | cons x xs ih => exact ih h.cleanLine.dropBytes

theorem CanonMem.purgeSector {core launch pa : Nat} (h : CanonMem s) : CanonMem (s.purgeSector core launch pa) :=
  h.cleanLine.dropBytes

theorem CanonMem.touchTlb {v : View} {l : Nat} {a : W64} (h : CanonMem s) : CanonMem (s.touchTlb v l a) := by
  unfold State.touchTlb
  split
  · exact h.fillTlb
  · exact h.fillTlb
  · exact h

theorem CanonMem.touchTlbs {v : View} {addr : Nat → W64} {l : List Nat} (h : CanonMem s) : CanonMem (s.touchTlbs v addr l) := by
  induction l generalizing s with
  | nil => exact h
  | cons x xs ih => exact ih h.touchTlb

theorem CanonMem.trapWalk {gid : Nat} {g : Group} {t : Trap} (h : CanonMem s) : CanonMem (s.trapWalk gid g t) :=
  CanonMem.ite h.touchTlb h

theorem CanonMem.illegal {c : Ctx} : CanonEffect c.illegal := trivial

theorem CanonMem.illegalOperand {c : Ctx} : CanonEffect c.illegalOperand := trivial

theorem CanonMem.takeTrap {gid : Nat} {issuePc hdr : W64} {t : Trap} (h : CanonMem s) : CanonMem (s.takeTrap gid issuePc hdr t) := by
  unfold State.takeTrap
  split
  · exact h
  · exact CanonMem.ite h.trapWalk.killLaunch h.trapWalk.setGroup.recordTrap

theorem CanonMem.launchAsync {a : AsyncOp} (h : CanonMem s) : CanonMem (s.launchAsync a) := by
  unfold State.launchAsync
  split
  · exact h.upd rfl
  · exact (h.upd (by rfl)).modGroup

theorem CanonMem.passWord {c : Ctx} (h : CanonMem s) : CanonMem (s.passWord c) := h.modGroup

theorem CanonMem.holdTail {c : Ctx} {tl : Tail} (h : CanonMem s) : CanonMem (s.holdTail c tl) := by
  unfold State.holdTail
  split
  · exact h
  · exact h.launchAsync

theorem CanonGather.sendAll {g : Gather} {c : Ctx} {v : View} {l : List ((Nat × Bool × Bool × Nat) × List Access)}
    (h : CanonGather g) : CanonGather (g.sendAll c v l) := by
  induction l generalizing g with
  | nil => exact h
  | cons x xs ih => exact ih (h.mem.upd (by dsimp only)).gathered

theorem CanonMem.hashPoint {g : Group} {index ngroups : Nat} {pc : W64} {seq : W32} (h : CanonMem s) :
    CanonMem (s.hashPoint g index ngroups pc seq) := by
  unfold State.hashPoint
  split
  · exact h
  · split
    · exact h
    · split
      · exact CanonMem.ite h (h.upd rfl)
      · split
        · dsimp only
          split
          · exact CanonMem.ite h h.recordAt
          · exact h.recordAt
        · exact h

theorem CanonMem.hashSteps {index ngroups : Nat} {g : Group} {n : Nat} (h : CanonMem s) :
    CanonMem (s.hashSteps index ngroups g n).1 := by
  induction n generalizing s g with
  | zero => exact h
  | succ n ih =>
    unfold State.hashSteps
    split
    · exact h
    · exact ih h
    · exact ih h.hashPoint
    · exact h

theorem CanonMem.drainHash {gid : Nat} {g : Group} (h : CanonMem s) : CanonMem (s.drainHash gid g) := h.hashSteps.setGroup

theorem CanonMem.addHash {gid : Nat} {xs : List HashStep} (h : CanonMem s) : CanonMem (s.addHash gid xs) := by
  unfold State.addHash
  split
  · exact h
  · exact CanonMem.ite h h.drainHash

theorem CanonMem.countAccs {c : Ctx} {v : View} {accs : List (Nat × W64 × Nat)} {op : Nat} (h : CanonMem s) :
    CanonMem (s.countAccs c v accs op) := by
  unfold State.countAccs
  split
  · exact h
  · exact CanonMem.ite h.modCore h.modCore

theorem CanonGather.finishAccs {g : Gather} {c : Ctx} {v : View} {tl : Tail} {isLoad : Bool} {accs : List (Nat × W64 × Nat)}
    {hash : Nat → List HashStep} (h : CanonGather g) : CanonEffect (g.finishAccs c v tl isLoad accs hash) := by
  unfold Gather.finishAccs
  split
  · trivial
  · split
    · dsimp only
      split
      · exact (h.mem.upd (by dsimp only)).gathered.sendAll.mem.addHash.countAccs
      · refine CanonMem.upd ?_ (by dsimp only)
        exact (h.mem.upd (by dsimp only)).gathered.sendAll.mem.addHash.countAccs
    · dsimp only
      split
      · exact (h.mem.upd (by dsimp only)).gathered.sendAll.mem.addHash.countAccs
      · refine (CanonMem.upd ?_ (by dsimp only)).modGroup
        exact (h.mem.upd (by dsimp only)).gathered.sendAll.mem.addHash.countAccs

theorem CanonGather.finish {g : Gather} {c : Ctx} {v : View} {tl : Tail} {isLoad : Bool} {ls : List Nat} {addr : Nat → W64}
    {n : Nat} {hash : Nat → List HashStep} (h : CanonGather g) : CanonEffect (g.finish c v tl isLoad ls addr n hash) := h.finishAccs

theorem CanonMem.issueWith {pre : Ctx → Bool} {uses : List Use} {tl : Tail} {body : Ctx → State → Effect}
    {finish : Ctx → State → State} (h : CanonMem s) (hbody : ∀ c t, CanonMem t → CanonEffect (body c t))
    (hfinish : ∀ c t, CanonMem t → CanonMem (finish c t)) : CanonResult (issueWith pre uses tl body finish s) := by
  unfold Machine.issueWith
  split
  · trivial
  · next c _ =>
    split
    · exact h
    · have he : CanonEffect (if !pre c then c.illegal else if !uses.all c.g.useOk then c.illegalOperand else body c s) := by
        split
        · trivial
        · split
          · trivial
          · exact hbody _ _ h
      revert he
      dsimp only
      generalize (if !pre c then c.illegal else if !uses.all c.g.useOk then c.illegalOperand else body c s) = e
      cases e with
      | stall => exact fun _ => h
      | stop t => exact id
      | trap t => exact fun _ => h.takeTrap
      | ok t => exact hfinish c t

theorem CanonMem.issue {uses : List Use} {tl : Tail} {body : Ctx → State → Effect} (h : CanonMem s)
    (hbody : ∀ (c : Ctx) (t : State), CanonMem t → CanonEffect (body c t)) : CanonResult (issue uses tl body s) :=
  h.issueWith (fun _ _ ht => hbody _ _ ht) (fun _ _ ht => ht.holdTail.passWord)

theorem CanonMem.issueIf {pre : Ctx → Bool} {uses : List Use} {tl : Tail} {body : Ctx → State → Effect} (h : CanonMem s)
    (hbody : ∀ (c : Ctx) (t : State), CanonMem t → CanonEffect (body c t)) : CanonResult (issueIf pre uses tl body s) :=
  h.issueWith (fun _ _ ht => hbody _ _ ht) (fun _ _ ht => ht.holdTail.passWord)

theorem CanonMem.settle {c : Ctx} {uses : List Use} (h : CanonMem s) : CanonMem (s.settle c uses) := CanonMem.ite h.modGroup h

theorem CanonMem.issueAsync {pre : Ctx → Bool} {uses : List Use} {tl : Tail} {body : Ctx → State → Effect} (h : CanonMem s)
    (hbody : ∀ (c : Ctx) (t : State), CanonMem t → CanonEffect (body c t)) : CanonResult (issueAsync pre uses tl body s) :=
  h.issueWith (fun _ _ ht => hbody _ _ ht.settle) (fun _ _ ht => ht.passWord)

theorem CanonMem.issueTerminal {pre : Ctx → Bool} {uses : List Use} {body : Ctx → State → Effect} (h : CanonMem s)
    (hbody : ∀ (c : Ctx) (t : State), CanonMem t → CanonEffect (body c t)) : CanonResult (issueTerminal pre uses body s) :=
  h.issueWith (fun _ _ ht => hbody _ _ ht) (fun _ _ ht => ht.modGroup)

theorem CanonMem.setStream {x : Stream} (h : CanonMem s) : CanonMem (s.setStream x) := h.upd rfl

theorem CanonMem.writeEntry {a : Nat} {q : W64} {run : Nat} {to_ : Bool} (h : CanonMem s) : CanonMem (s.writeEntry a q run to_) :=
  h.store64.store64

theorem CanonMem.logOp {n : Nat} {la : Launch} {die : Nat} {home : List Nat} {q : W64} {to_ : Bool} (h : CanonMem s) :
    CanonMem (s.logOp n la die home q to_) := by
  unfold State.logOp
  split
  · exact h
  · split
    · exact h
    · exact CanonMem.ite h.writeEntry.setStream (CanonMem.ite (h.record.upd (by dsimp only)) h.writeEntry.setStream)

theorem CanonMem.consume {n : Nat} {la : Launch} {home : List Nat} (h : CanonMem s) : CanonMem (s.consume n la home) := by
  unfold State.consume
  split
  · exact CanonMem.ite h h
  · exact CanonMem.ite h h.setStream

theorem CanonMem.diverge {n die : Nat} {home : List Nat} {q : W64} {reason : Nat} {x : Site} (h : CanonMem s) :
    CanonMem (s.diverge n die home q reason x) := h.recordAt.setStream

theorem CanonMem.reportMissed {g : Group} {la : Launch} {index : Nat} {l : List HashEntry} (h : CanonMem s) :
    CanonMem (s.reportMissed g la index l) := by
  induction l generalizing s with
  | nil => exact h
  | cons x xs ih => exact ih h.recordAt

theorem CanonMem.missedPoints {x : HashLeft} (h : CanonMem s) : CanonMem (s.missedPoints x) := by
  unfold State.missedPoints
  split
  · exact h
  · exact CanonMem.ite h h.reportMissed

theorem CanonMem.leaveHash {x : HashLeft} (h : CanonMem s) : CanonMem (s.leaveHash x) :=
  CanonMem.ite h.hashSteps.missedPoints (h.hashSteps.upd (by dsimp only))

theorem CanonMem.leaveHashes {l : List HashLeft} (h : CanonMem s) : CanonMem (s.leaveHashes l) := by
  induction l generalizing s with
  | nil => exact h
  | cons x xs ih => exact ih h.leaveHash

theorem CanonMem.arriveHash {gid op lane : Nat} {d : W64} (h : CanonMem s) : CanonMem (s.arriveHash gid op lane d) := by
  unfold State.arriveHash
  split
  · exact CanonMem.ite h (h.upd (by dsimp only)).leaveHashes
  · exact CanonMem.ite (CanonMem.ite h h.drainHash) ((CanonMem.ite h h.drainHash).upd (by dsimp only)).leaveHashes

theorem CanonMem.watchStop {c : Ctx} {hits : List (Nat × Nat × W32 × Nat)} (h : CanonMem s) : CanonMem (s.watchStop c hits) :=
  h.modCore.setGroup

theorem CanonMem.watchedSized {c : Ctx} {kind : WatchKind} {accs : List (Nat × W64 × Nat)} {datum : Nat → W32} {v : View}
    {go_ : Effect} (h : CanonMem s) (hgo_ : CanonEffect go_) : CanonEffect (c.watchedSized kind accs datum v s go_) := by
  unfold Ctx.watchedSized
  split
  · exact hgo_
  · split
    · dsimp only
      split
      · exact hgo_
      · exact h.watchStop
    · dsimp only
      split
      · exact hgo_
      · exact h.watchStop

theorem CanonMem.watchedAll {c : Ctx} {kind : WatchKind} {accs : List (Nat × W64)} {n : Nat} {datum : Nat → W32} {v : View}
    {go_ : Effect} (h : CanonMem s) (hgo_ : CanonEffect go_) : CanonEffect (c.watchedAll kind accs n datum v s go_) :=
  h.watchedSized hgo_

theorem CanonMem.watched {c : Ctx} {kind : WatchKind} {ls : List Nat} {addr : Nat → W64} {n : Nat} {datum : Nat → W32} {v : View}
    {go_ : Effect} (h : CanonMem s) (hgo_ : CanonEffect go_) : CanonEffect (c.watched kind ls addr n datum v s go_) :=
  h.watchedAll hgo_

theorem CanonMem.execPredicateResult {gid : Nat} (h : CanonMem s) : CanonResult (execPredicateResult gid s) := by
  unfold Machine.execPredicateResult
  split
  · exact h
  · split
    · exact h
    · dsimp only
      split
      · exact h.setGroup
      · exact h.setGroup.recordFree

theorem CanonMem.countMem {c : Ctx} {v : View} {ls : List Nat} {addr : Nat → W64} {n op : Nat} (h : CanonMem s) :
    CanonMem (s.countMem c v ls addr n op) := h.countAccs

theorem CanonMem.execMemorySample {core : Nat} (h : CanonMem s) : CanonResult (execMemorySample core s) := by
  unfold Machine.execMemorySample
  split
  · exact h
  · exact h.modCore.recordAt

theorem CanonMem.deliver {op : Nat} {dst : Dst} {x : Nat} (h : CanonMem s) : CanonMem (s.deliver op dst x) := h.upd rfl

theorem CanonMem.raise {gid : Nat} {tag : BitVec 4} {fl : FpFlags} (h : CanonMem s) : CanonMem (s.raise gid tag fl) := h.modGroup

theorem CanonMem.addCounter {a : Nat} {x va : W64} {launch : Nat} {site : Site} (h : CanonMem s) :
    CanonMem (s.addCounter a x va launch site) := CanonMem.ite h.store64.killLaunch h.store64

theorem CanonMem.giveOld {r : Req} {dst : Dst} {old : W32} (h : CanonMem s) : CanonMem (s.giveOld r dst old) :=
  CanonMem.ite h h.deliver.arriveHash

theorem CanonMem.performAt {r : Req} {a : Access} (h : CanonMem s) : CanonMem (s.performAt r a) := by
  unfold State.performAt
  split
  · exact h.deliver
  · exact h.storeBytes
  · exact h.storeBytes
  · exact h.store32.giveOld
  · exact (CanonMem.ite h.store32 h).giveOld
  · exact h.store32.giveOld
  · exact CanonMem.ite h.store64 h.addCounter
  · exact h.deliver

theorem CanonMem.perform {r : Req} {a : Access} (h : CanonMem s) : CanonMem (s.perform r a) := by
  unfold State.perform
  split
  · exact h.performAt
  · split
    · exact h.l1Load.deliver
    · exact h.l1Store.beforeHit
    · exact h.l1Store.beforeHit
    · exact h.performAt
    · exact h.purgeSector.beforeRead.performAt

theorem CanonMem.reqSeen {r : Req} {a : Access} (h : CanonMem s) : CanonMem (s.reqSeen r a) := by
  unfold State.reqSeen
  split
  · exact h.l2See
  · exact CanonMem.ite h.l2See h

theorem CanonMem.modReq {id : Nat} {f : Req → Req} (h : CanonMem s) : CanonMem (s.modReq id f) := h.upd rfl

theorem CanonMem.reqDone {id : Nat} (h : CanonMem s) : CanonMem (s.reqDone id) := h.upd rfl

theorem CanonMem.performHead {r : Req} (h : CanonMem s) : CanonMem (s.performHead r) := by
  unfold State.performHead
  split
  · exact h
  · exact h.modReq.reqSeen.perform.reqDone

theorem CanonMem.gated {r : Req} (h : CanonMem s) : CanonMem (s.gated r) := by
  unfold State.gated
  split
  · split
    · exact h.performHead
    · split
      · exact h.logOp.performHead
      · dsimp only
        split
        · exact h.consume.performHead
        · exact h.modReq
        · exact h.diverge.performHead
  · exact h.performHead

theorem CanonMem.execTileAccessPerformed {gid : Nat} (h : CanonMem s) : CanonResult (execTileAccessPerformed gid s) := by
  unfold Machine.execTileAccessPerformed
  split
  · exact h
  · exact CanonMem.ite h.gated h

theorem CanonMem.execAtomicAtHome {req : Nat} (h : CanonMem s) : CanonResult (execAtomicAtHome req s) := by
  unfold Machine.execAtomicAtHome
  split
  · exact h
  · exact CanonMem.ite h.gated h

theorem CanonMem.execRemoteAccess {req : Nat} (h : CanonMem s) : CanonResult (execRemoteAccess req s) := by
  unfold Machine.execRemoteAccess
  split
  · exact h
  · exact CanonMem.ite h.gated h

theorem CanonMem.execStoreAck {req : Nat} (h : CanonMem s) : CanonResult (execStoreAck req s) := h.upd rfl

theorem CanonMem.execCounterAdditionAtHome {req : Nat} (h : CanonMem s) : CanonResult (execCounterAdditionAtHome req s) := by
  unfold Machine.execCounterAdditionAtHome
  split
  · exact h
  · exact CanonMem.ite h.gated h

theorem CanonMem.execOrderGate {req : Nat} (h : CanonMem s) : CanonResult (execOrderGate req s) := by
  unfold Machine.execOrderGate
  split
  · exact h
  · exact CanonMem.ite h.gated h

theorem CanonMem.execWriteBackAtHome {wb : Nat} (h : CanonMem s) : CanonResult (execWriteBackAtHome wb s) := by
  unfold Machine.execWriteBackAtHome
  split
  · exact h
  · exact CanonMem.ite h.performWb h

theorem CanonMem.tileWriteAt {die : Nat} {a : Aperture} {off : Nat} {bs : List Byte} (h : CanonMem s) :
    CanonMem (s.tileWriteAt die a off bs) := h.pick.storeBytes.store64

theorem CanonMem.performApWrites {die : Nat} {l : List ApWrite} (h : CanonMem s) : CanonMem (s.performApWrites die l) := by
  induction l generalizing s with
  | nil => exact h
  | cons x xs ih => exact ih h.tileWriteAt.modDie

theorem CanonMem.execTileWrite {die ap : Nat} (h : CanonMem s) : CanonResult (execTileWrite die ap s) := by
  unfold Machine.execTileWrite
  split
  · exact h
  · exact h.performApWrites

theorem CanonMem.beforePort {core a n : Nat} (h : CanonMem s) : CanonMem (s.beforePort core a n) :=
  CanonMem.ite h.beforeRead h.beforeRead.beforeRead

theorem CanonMem.portSeen {core m off n : Nat} {write : Bool} {who : Nat × Nat} (h : CanonMem s) :
    CanonMem (s.portSeen core m off n write who) := by
  unfold State.portSeen
  split
  · exact h
  · exact h.l2See

theorem CanonMem.gatherBytes {core : Nat} {l : List Nat} (h : CanonMem s) : CanonMem (s.gatherBytes core l).2 := by
  induction l generalizing s with
  | nil => exact h
  | cons x xs ih => exact ih h.beforePort

theorem CanonMem.portLoad {core m off n : Nat} (h : CanonMem s) : CanonMem (s.portLoad core m off n).2 := by
  unfold State.portLoad
  dsimp only
  split
  · exact h.performApWrites
  · exact h.gatherBytes
  · exact h.gatherBytes

theorem CanonMem.scatterBytes {core : Nat} {l : List (Nat × Byte)} (h : CanonMem s) : CanonMem (s.scatterBytes core l) := by
  induction l generalizing s with
  | nil => exact h
  | cons x xs ih => exact ih h.beforePort.storeBytes

theorem CanonMem.portStore {core launch m off n x : Nat} (h : CanonMem s) : CanonMem (s.portStore core launch m off n x).2 := by
  unfold State.portStore
  dsimp only
  split
  · exact h.fresh.modDie
  · exact h.scatterBytes
  · exact h.scatterBytes

theorem CanonGather.send {g : Gather} {addr : Nat} {own snap : Bool} {sub : Nat} {a : Access} (h : CanonGather g) :
    CanonGather (g.send addr own snap sub a) := h.upd rfl

theorem CanonMem.gather {c : Ctx} {tl : Tail} (h : CanonMem s) : CanonGather (c.gather s tl) := h.gathered

theorem CanonGather.load {g : Gather} {v : View} {pol : Policy} {t : Target} {n : Nat} {dst : Dst} (h : CanonGather g) :
    CanonGather (g.load v pol t n dst) := by
  unfold Gather.load
  split
  · dsimp only
    split
    · exact (h.upd (by rfl)).send
    · exact h.mem.l1Load.gathered
  · exact h.mem.portSeen.portLoad.gathered
  · exact h.send

theorem CanonGather.store {g : Gather} {v : View} {pol : Policy} {t : Target} {n x : Nat} (h : CanonGather g) :
    CanonGather (g.store v pol t n x) := by
  unfold Gather.store
  split
  · split
    · exact h.send
    · exact h.mem.l1Store.gathered
  · exact h.mem.portSeen.portStore.gathered
  · exact h.send

theorem CanonGather.loads {g : Gather} {v : View} {pol : Policy} {dst : Nat → Nat → Dst} {n : Nat} {l : List (Target × Nat)}
    (h : CanonGather g) : CanonGather (g.loads v pol dst n l) := by
  induction l generalizing g n with
  | nil => exact h
  | cons x xs ih => exact ih h.load

theorem CanonGather.stores {g : Gather} {v : View} {pol : Policy} {x n : Nat} {l : List (Target × Nat)} (h : CanonGather g) :
    CanonGather (g.stores v pol x n l) := by
  induction l generalizing g n with
  | nil => exact h
  | cons x xs ih => exact ih h.store

theorem CanonMem.peerRead {c : Ctx} {k : AccKind} {pas : List (Nat × Nat)} {e1 : Effect} (h : CanonMem s) (he1 : CanonEffect e1) :
    CanonEffect (c.peerRead k pas s e1) := by
  unfold Ctx.peerRead
  split
  · exact he1
  · split
    · exact h.killLaunch
    · exact he1

theorem CanonEffect.admitted {c : Ctx} {ls : List Nat} {mask : LaneMask → LaneMask} {addr : Nat → W64} {n align : Nat}
    {k : AccKind} {single : Bool} {next : Effect} (hnext : CanonEffect next) :
    CanonEffect (c.admitted ls mask addr n align k single s next) := by
  unfold Ctx.admitted
  dsimp only
  split
  · trivial
  · split
    · trivial
    · exact hnext

theorem CanonMem.checked {c : Ctx} {ls : List Nat} {mask : LaneMask → LaneMask} {addr : Nat → W64} {n align : Nat} {k : AccKind}
    {single : Bool} {kind : WatchKind} {datum : Nat → W32} {go_ : View → State → Effect} (h : CanonMem s)
    (hgo_ : ∀ (v : View) (t : State), CanonMem t → CanonEffect (go_ v t)) :
    CanonEffect (c.checked ls mask addr n align k single kind datum s go_) :=
  CanonEffect.admitted (h.watched (h.peerRead (hgo_ _ _ h.touchTlbs)))

theorem CanonMem.checkedWindow {c : Ctx} {a : W64} {k : AccKind} {kind : WatchKind} {datum : W32} {go_ : View → State → Effect}
    (h : CanonMem s) (hgo_ : ∀ (v : View) (t : State), CanonMem t → CanonEffect (go_ v t)) :
    CanonEffect (c.checkedWindow a k kind datum s go_) := by
  unfold Ctx.checkedWindow
  dsimp only
  split
  · trivial
  · split
    · trivial
    · exact h.watched (h.peerRead (hgo_ _ _ h.touchTlbs))

theorem CanonMem.execLd {wd : Width} {sx : Bool} {pol : Policy} {d : BitVec 6} {base index : Operand} {off : BitVec 12}
    {tl : Tail} (h : CanonMem s) : CanonResult (execLd wd sx pol d base index off tl s) := by
  unfold Machine.execLd
  exact h.issueAsync fun _ _ ht => ht.checked fun _ _ hu => (hu.gather.foldl fun _ _ hv => hv.loads).finish

theorem CanonMem.execSt {wd : Width} {pol : Policy} {src : Dest} {base index : Operand} {off : BitVec 12} {tl : Tail}
    (h : CanonMem s) : CanonResult (execSt wd pol src base index off tl s) := by
  unfold Machine.execSt
  exact h.issueAsync fun _ _ ht => ht.checked fun _ _ hu => (hu.gather.foldl fun _ _ hv => hv.stores).finish

theorem CanonMem.execLdsc {wd : Width} {sx : Bool} {pol : Policy} {d : BitVec 5} {base : Option (BitVec 5)}
    {index : Option Operand} {off : BitVec 12} {tl : Tail} (h : CanonMem s) :
    CanonResult (execLdsc wd sx pol d base index off tl s) := by
  unfold Machine.execLdsc
  exact h.issueAsync fun _ _ ht => ht.checked fun _ _ hu => hu.gather.loads.finish

theorem CanonMem.execTwld {pol : Policy} {w : BitVec 2} {base : Option (BitVec 5)} {off : BitVec 12} {tl : Tail} (h : CanonMem s) :
    CanonResult (execTwld pol w base off tl s) :=
  h.issueAsync fun _ _ ht => ht.checkedWindow fun _ _ hu => (hu.gather.foldl fun _ _ hv => hv.loads).finish

theorem CanonMem.execTwst {pol : Policy} {w : BitVec 2} {base : Option (BitVec 5)} {off : BitVec 12} {tl : Tail} (h : CanonMem s) :
    CanonResult (execTwst pol w base off tl s) :=
  h.issueAsync fun _ _ ht => ht.checkedWindow fun _ _ hu => (hu.gather.foldl fun _ _ hv => hv.stores).finish

theorem CanonMem.prefetchLine {core : Nat} {pol : Policy} {line : Nat} (h : CanonMem s) : CanonMem (s.prefetchLine core pol line) :=
  CanonMem.ite h (CanonMem.ite h.beforeRead h.beforeRead.l2See).allocLine.modLine

theorem CanonMem.execPrefetch {pol : Policy} {base index : Operand} {off : BitVec 12} (h : CanonMem s) :
    CanonResult (execPrefetch pol base index off s) := by
  unfold Machine.execPrefetch
  refine h.issue fun _ _ ht => (ht.foldl fun _ _ hu => ?_).countMem
  split
  · exact hu.prefetchLine
  · exact hu

theorem CanonMem.maintained {c : Ctx} {sel : LineSel} {go_ : View → List Nat → State → Effect} (h : CanonMem s)
    (hgo_ : ∀ (v : View) (l : List Nat) (t : State), CanonMem t → CanonEffect (go_ v l t)) :
    CanonEffect (c.maintained sel s go_) := by
  unfold Ctx.maintained
  split
  · exact hgo_ _ _ _ h
  · dsimp only
    split
    · trivial
    · split
      · trivial
      · exact hgo_ _ _ _ h.touchTlbs

theorem CanonMem.maintDone {c : Ctx} {v : View} {sel : LineSel} {old : State} {tl : Tail} (h : CanonMem s) :
    CanonEffect (c.maintDone v sel old s tl) := by
  unfold Ctx.maintDone
  split
  · split
    · exact h.countMem
    · exact h.launchAsync.countMem
  · split
    · exact h.countMem
    · exact h.launchAsync.countMem

theorem CanonMem.execCwb {sel : LineSel} {tl : Tail} (h : CanonMem s) : CanonResult (execCwb sel tl s) :=
  h.issueAsync fun _ _ ht => ht.maintained fun _ _ _ hu => hu.cleanLines.maintDone

theorem CanonMem.execCinv {sel : LineSel} {tl : Tail} (h : CanonMem s) : CanonResult (execCinv sel tl s) :=
  h.issueAsync fun _ _ ht => ht.maintained fun _ _ _ hu => hu.flushLines.maintDone

theorem CanonMem.execAconv {tgt : ConvTarget} {d : Dest} {a : Operand} (h : CanonMem s) : CanonResult (execAconv tgt d a s) :=
  h.issue fun _ _ ht => ht.put.countMem

theorem CanonMem.execAclass {sp : Space} {a : Operand} (h : CanonMem s) : CanonResult (execAclass sp a s) :=
  h.issue fun _ _ ht => ht.put.countMem

theorem CanonMem.visitChildren {r : Ray} {x depth : Nat} {l : List Nat} (h : CanonMem s) :
    CanonMem (s.visitChildren r x depth l).2 := by
  induction l with
  | nil => exact h
  | cons x xs ih =>
    unfold State.visitChildren
    split
    · dsimp only
      split
      · exact ih
      · exact ih
    · dsimp only
      split
      · exact ih
      · exact ih.pick

theorem CanonMem.putRay {r : Ray} (h : CanonMem s) : CanonMem (s.putRay r) := h.upd rfl

/-- What a ray's read leaves has memory in its form. -/
def CanonRead : RayRead → Prop
  | .ok _ s | .bad _ s => CanonMem s
  | .held => True

theorem CanonRead.of_ok {r : RayRead} {x : Nat} {t : State} (h : CanonRead r) (e : r = .ok x t) : CanonMem t := by
  rw [e] at h
  exact h

theorem CanonRead.of_bad {r : RayRead} {a : W64} {t : State} (h : CanonRead r) (e : r = .bad a t) : CanonMem t := by
  rw [e] at h
  exact h

theorem CanonMem.rayRead {r : Ray} {la : Launch} {a : W64} {n k : Nat} (h : CanonMem s) : CanonRead (s.rayRead r la a n k) := by
  induction k generalizing s a n with
  | zero => exact h
  | succ k ih =>
    unfold State.rayRead
    dsimp only
    split
    · split
      · trivial
      · split
        · split
          · exact h
          · split
            · trivial
            · split
              · exact h.fillTlb.l1LoadBy
              · split
                · next e => exact (ih h.fillTlb.l1LoadBy).of_ok e
                · exact ih h.fillTlb.l1LoadBy
        · exact h.fillTlb
    · split
      · split
        · trivial
        · split
          · exact h
          · split
            · next e => exact (ih h).of_ok e
            · exact ih h
      · exact h

theorem CanonMem.rayRun {la : Launch} {n : Nat} {r : Ray} (h : CanonMem s) : CanonMem (State.rayRun la n s r) := by
  induction n generalizing s r with
  | zero => exact h.putRay
  | succ n ih =>
    unfold State.rayRun
    split
    · split
      · exact h.putRay
      · dsimp only
        split
        · split
          · exact ih h.pick
          · split
            · exact h.putRay
            · next e => exact (h.pick.rayRead.of_bad e).killLaunch
            · next e =>
              have hr := h.pick.rayRead.of_ok e
              split
              · exact ih hr
              · exact ih hr.visitChildren
        · split
          · exact h.putRay
          · next e => exact (h.pick.rayRead.of_bad e).killLaunch
          · next e => exact ih (h.pick.rayRead.of_ok e)
    · exact h.putRay

theorem CanonMem.execRayRecordReady {ray : Nat} (h : CanonMem s) : CanonResult (execRayRecordReady ray s) := by
  unfold Machine.execRayRecordReady
  split
  · exact h
  · split
    · exact h
    · exact h.rayRun

theorem CanonMem.pushRays {c : Ctx} {site : Site} {k : Nat} {root flags : W64} {l : List Nat} (h : CanonMem s) :
    CanonMem (s.pushRays c site k root flags l) := by
  induction l generalizing s with
  | nil => exact h
  | cons x xs ih => exact ih (h.upd rfl)

theorem CanonMem.traceEngine {launch type queue : Nat} {x : Site} (h : CanonMem s) : CanonMem (s.traceEngine launch type queue x) :=
  CanonMem.ite h.recordFree h

theorem CanonMem.takeSeq {c : Ctx} {queue : Nat} {d : Option (BitVec 5)} {tl : Tail} (h : CanonMem s) :
    CanonMem (s.takeSeq c queue d tl) := by
  unfold State.takeSeq
  split
  · exact h.traceEngine.modCore
  · exact h.traceEngine.modCore.launchAsync

theorem CanonMem.execXpushXt {d : Option (BitVec 5)} {k : BitVec 6} {sp : BitVec 5} {tl : Tail} (h : CanonMem s) :
    CanonResult (execXpushXt d k sp tl s) := by
  unfold Machine.execXpushXt
  refine h.issueAsync fun _ _ ht => ?_
  split
  · trivial
  · split
    · trivial
    · exact ht.pushRays.takeSeq

theorem CanonMem.execHit {a b : Operand} (h : CanonMem s) : CanonResult (execHit a b s) := by
  unfold Machine.execHit
  refine h.issue fun _ _ ht => ?_
  dsimp only
  split
  · trivial
  · refine ht.settle.foldl fun _ _ hu => ?_
    split
    · exact hu.putRay
    · exact hu

theorem CanonMem.execXpopXt {d : BitVec 6} {slot : BitVec 3} (h : CanonMem s) : CanonResult (execXpopXt d slot s) :=
  h.issueAsync fun _ _ ht => ht.launchAsync

theorem CanonMem.execXpopXe {d : BitVec 5} {slot : BitVec 3} (h : CanonMem s) : CanonResult (execXpopXe d slot s) :=
  h.issueAsync fun _ _ ht => ht.launchAsync

theorem CanonMem.execXpopXm {d : BitVec 5} {slot : BitVec 3} (h : CanonMem s) : CanonResult (execXpopXm d slot s) :=
  h.issueAsync fun _ _ ht => ht.launchAsync

theorem CanonMem.tryEndBlock {blk : Nat} (h : CanonMem s) : CanonMem (s.tryEndBlock blk) := by
  unfold State.tryEndBlock
  split
  · exact h
  · exact CanonMem.ite h (h.modCore.upd (by dsimp only)).modLaunch

theorem CanonMem.tryEndBlocks {l : List Nat} (h : CanonMem s) : CanonMem (s.tryEndBlocks l) := by
  induction l generalizing s with
  | nil => exact h
  | cons x xs ih => exact ih h.tryEndBlock

theorem CanonMem.afterFetch {core n : Nat} {va : W64} (h : CanonMem s) : CanonMem (s.afterFetch core n va) := by
  unfold State.afterFetch
  split
  · split
    · exact h
    · exact h.fillTlb.l2See.modCore
  · exact h

theorem CanonMem.alu32 {uses : List Use} {d : Dest} {tl : Tail} {sx : Bool} {f : Group → Nat → Nat → W32 × FpFlags}
    (h : CanonMem s) : CanonResult (alu32 uses d tl sx f s) := h.issue fun _ _ ht => ht.put

theorem CanonMem.alu64 {uses : List Use} {d : Dest} {tl : Tail} {f : Group → Nat → Nat → W64 × FpFlags} (h : CanonMem s) :
    CanonResult (alu64 uses d tl f s) := h.issue fun _ _ ht => ht.put

theorem CanonMem.aluCm {uses : List Use} {tl : Tail} {f : Group → Nat → Nat → Bool × FpFlags} (h : CanonMem s) :
    CanonResult (aluCm uses tl f s) := h.issue fun _ _ ht => ht.put

theorem CanonMem.aluInt {t : IType} {srcs : List Operand} {d : Dest} {tl : Tail} {f : Group → Nat → Nat → Nat} (h : CanonMem s) :
    CanonResult (aluInt t srcs d tl f s) := by
  unfold Machine.aluInt
  split
  · exact h.alu64
  · exact h.alu32

theorem CanonMem.aluInt1 {t : IType} {d : Dest} {a : Operand} {tl : Tail} {f : Int → Nat} (h : CanonMem s) :
    CanonResult (aluInt1 t d a tl f s) := h.aluInt

theorem CanonMem.aluInt2 {t : IType} {d : Dest} {a b : Operand} {tl : Tail} {f : Int → Int → Nat} (h : CanonMem s) :
    CanonResult (aluInt2 t d a b tl f s) := h.aluInt

theorem CanonMem.aluInt3 {t : IType} {d : Dest} {a b c : Operand} {tl : Tail} {f : Int → Int → Int → Nat} (h : CanonMem s) :
    CanonResult (aluInt3 t d a b c tl f s) := h.aluInt

theorem CanonMem.aluFloat {t : FType} {srcs : List Operand} {d : Dest} {tl : Tail} {f : List Nat → Nat × FpFlags} (h : CanonMem s) :
    CanonResult (aluFloat t srcs d tl f s) := h.alu32

theorem CanonMem.aluF1 {t : FType} {sat : Bool} {rnd : Rnd} {d : Dest} {a : Operand} {tl : Tail} {f : Val → Exact × FpFlags}
    (h : CanonMem s) : CanonResult (aluF1 t sat rnd d a tl f s) := h.aluFloat

theorem CanonMem.aluF2 {t : FType} {sat : Bool} {rnd : Rnd} {d : Dest} {a b : Operand} {tl : Tail}
    {f : Val → Val → Exact × FpFlags} (h : CanonMem s) : CanonResult (aluF2 t sat rnd d a b tl f s) := h.aluFloat

theorem CanonMem.aluF3 {t : FType} {sat : Bool} {rnd : Rnd} {d : Dest} {a b c : Operand} {tl : Tail}
    {f : Val → Val → Val → Exact × FpFlags} (h : CanonMem s) : CanonResult (aluF3 t sat rnd d a b c tl f s) := h.aluFloat

theorem CanonMem.aluCode1 {t : FType} {d : Dest} {a : Operand} {tl : Tail} {f : Nat → Nat × FpFlags} (h : CanonMem s) :
    CanonResult (aluCode1 t d a tl f s) := h.aluFloat

theorem CanonMem.aluCode2 {t : FType} {d : Dest} {a b : Operand} {tl : Tail} {f : Nat → Nat → Nat × FpFlags} (h : CanonMem s) :
    CanonResult (aluCode2 t d a b tl f s) := h.aluFloat

theorem CanonMem.execFadd {t : FType} {sat : Bool} {rnd : Rnd} {d : Dest} {a b : Operand} {tl : Tail} (h : CanonMem s) :
    CanonResult (execFadd t sat rnd d a b tl s) := h.aluF2

theorem CanonMem.execFsub {t : FType} {sat : Bool} {rnd : Rnd} {d : Dest} {a b : Operand} {tl : Tail} (h : CanonMem s) :
    CanonResult (execFsub t sat rnd d a b tl s) := h.aluF2

theorem CanonMem.execFmul {t : FType} {sat : Bool} {rnd : Rnd} {d : Dest} {a b : Operand} {tl : Tail} (h : CanonMem s) :
    CanonResult (execFmul t sat rnd d a b tl s) := h.aluF2

theorem CanonMem.execFfma {t : FType} {sat : Bool} {rnd : Rnd} {d : Dest} {a b c : Operand} {tl : Tail} (h : CanonMem s) :
    CanonResult (execFfma t sat rnd d a b c tl s) := h.aluF3

theorem CanonMem.execFmin {t : FType} {num : Bool} {d : Dest} {a b : Operand} {tl : Tail} (h : CanonMem s) :
    CanonResult (execFmin t num d a b tl s) := h.aluCode2

theorem CanonMem.execFmax {t : FType} {num : Bool} {d : Dest} {a b : Operand} {tl : Tail} (h : CanonMem s) :
    CanonResult (execFmax t num d a b tl s) := h.aluCode2

theorem CanonMem.execFcmp {t : FType} {cond : FCond} {a b : Operand} {tl : Tail} (h : CanonMem s) :
    CanonResult (execFcmp t cond a b tl s) := by
  unfold Machine.execFcmp
  exact h.aluCm

theorem CanonMem.execFclass {t : FType} {d : Dest} {a : Operand} {tl : Tail} (h : CanonMem s) : CanonResult (execFclass t d a tl s) :=
  h.alu32

theorem CanonMem.execFrcp {t : FType} {sat : Bool} {rnd : Rnd} {d : Dest} {a : Operand} {tl : Tail} (h : CanonMem s) :
    CanonResult (execFrcp t sat rnd d a tl s) := h.aluF1

theorem CanonMem.execFrsq {t : FType} {sat : Bool} {rnd : Rnd} {d : Dest} {a : Operand} {tl : Tail} (h : CanonMem s) :
    CanonResult (execFrsq t sat rnd d a tl s) := h.aluF1

theorem CanonMem.execFsqrt {t : FType} {sat : Bool} {rnd : Rnd} {d : Dest} {a : Operand} {tl : Tail} (h : CanonMem s) :
    CanonResult (execFsqrt t sat rnd d a tl s) := h.aluF1

theorem CanonMem.execFdiv {t : FType} {sat : Bool} {rnd : Rnd} {d : Dest} {a b : Operand} {tl : Tail} (h : CanonMem s) :
    CanonResult (execFdiv t sat rnd d a b tl s) := h.aluF2

theorem CanonMem.execFexp2 {t : FType} {d : Dest} {a : Operand} {tl : Tail} (h : CanonMem s) : CanonResult (execFexp2 t d a tl s) :=
  h.aluCode1

theorem CanonMem.execFlog2 {t : FType} {d : Dest} {a : Operand} {tl : Tail} (h : CanonMem s) : CanonResult (execFlog2 t d a tl s) :=
  h.aluCode1

theorem CanonMem.execFsinpi {t : FType} {d : Dest} {a : Operand} {tl : Tail} (h : CanonMem s) : CanonResult (execFsinpi t d a tl s) :=
  h.aluCode1

theorem CanonMem.execFcospi {t : FType} {d : Dest} {a : Operand} {tl : Tail} (h : CanonMem s) : CanonResult (execFcospi t d a tl s) :=
  h.aluCode1

theorem CanonMem.execFtanh {t : FType} {d : Dest} {a : Operand} {tl : Tail} (h : CanonMem s) : CanonResult (execFtanh t d a tl s) :=
  h.aluCode1

theorem CanonMem.execFrnd {t : FType} {rnd : Rnd} {d : Dest} {a : Operand} {tl : Tail} (h : CanonMem s) :
    CanonResult (execFrnd t rnd d a tl s) := h.aluCode1

theorem CanonMem.execFfrac {t : FType} {d : Dest} {a : Operand} {tl : Tail} (h : CanonMem s) : CanonResult (execFfrac t d a tl s) :=
  h.aluCode1

theorem CanonMem.execFldexp {t : FType} {sat : Bool} {rnd : Rnd} {d : Dest} {a b : Operand} {tl : Tail} (h : CanonMem s) :
    CanonResult (execFldexp t sat rnd d a b tl s) := h.alu32

theorem CanonMem.execFgetexp {t : FType} {d : Dest} {a : Operand} {tl : Tail} (h : CanonMem s) :
    CanonResult (execFgetexp t d a tl s) := h.alu32

theorem CanonMem.execFgetmant {t : FType} {d : Dest} {a : Operand} {tl : Tail} (h : CanonMem s) :
    CanonResult (execFgetmant t d a tl s) := h.aluCode1

theorem CanonMem.execHadd2 {t : FType} {sat : Bool} {rnd : Rnd} {d : Dest} {a b : Operand} {tl : Tail} (h : CanonMem s) :
    CanonResult (execHadd2 t sat rnd d a b tl s) := h.aluF2

theorem CanonMem.execHmul2 {t : FType} {sat : Bool} {rnd : Rnd} {d : Dest} {a b : Operand} {tl : Tail} (h : CanonMem s) :
    CanonResult (execHmul2 t sat rnd d a b tl s) := h.aluF2

theorem CanonMem.execHfma2 {t : FType} {sat : Bool} {rnd : Rnd} {d : Dest} {a b c : Operand} {tl : Tail} (h : CanonMem s) :
    CanonResult (execHfma2 t sat rnd d a b c tl s) := h.aluF3

theorem CanonMem.execFdot2 {t : FType} {sat : Bool} {rnd : Rnd} {d : Dest} {a b c : Operand} {tl : Tail} (h : CanonMem s) :
    CanonResult (execFdot2 t sat rnd d a b c tl s) := by
  unfold Machine.execFdot2
  exact h.alu32

theorem CanonMem.execFabs {t : FType} {d : Dest} {a : Operand} {tl : Tail} (h : CanonMem s) : CanonResult (execFabs t d a tl s) :=
  h.aluCode1

theorem CanonMem.execFneg {t : FType} {d : Dest} {a : Operand} {tl : Tail} (h : CanonMem s) : CanonResult (execFneg t d a tl s) :=
  h.aluCode1

theorem CanonMem.execFclamp {t : FType} {d : Dest} {a b c : Operand} {tl : Tail} (h : CanonMem s) :
    CanonResult (execFclamp t d a b c tl s) := h.aluFloat

theorem CanonMem.issueMember {m : MaskOp} {uses : List Use} {tl : Tail} {body : Ctx → State → Effect} (h : CanonMem s)
    (hbody : ∀ (c : Ctx) (t : State), CanonMem t → CanonEffect (body c t)) : CanonResult (issueMember m uses tl body s) := by
  unfold Machine.issueMember
  refine h.issueIf fun _ _ ht => ?_
  split
  · exact hbody _ _ ht
  · trivial

theorem CanonMem.execCvtToInteger {src : CvtSrc} {t : IType} {sat : Bool} {rnd : Rnd} {d : Dest} {a : Operand} {tl : Tail}
    (h : CanonMem s) : CanonResult (execCvtToInteger src t sat rnd d a tl s) := by
  unfold Machine.execCvtToInteger
  split
  · exact h.alu64
  · exact h.alu32

theorem CanonMem.execCvtToFloat {src : CvtSrc} {t : FType} {sat : Bool} {rnd : Rnd} {d : Dest} {a : Operand} {tl : Tail}
    (h : CanonMem s) : CanonResult (execCvtToFloat src t sat rnd d a tl s) := h.alu32

theorem CanonMem.execPk {fmt : PkFmt} {sat : Bool} {rnd : Rnd} {d : Dest} {a b : Operand} {c : BitVec 2} {tl : Tail}
    (h : CanonMem s) : CanonResult (execPk fmt sat rnd d a b c tl s) := h.alu32

theorem CanonMem.execUnpk {fmt : PkFmt} {d : Dest} {a : Operand} {c : BitVec 3} {tl : Tail} (h : CanonMem s) :
    CanonResult (execUnpk fmt d a c tl s) := h.alu32

theorem CanonMem.execScaleq {fmt : ScFmt} {rnd : Rnd} {d : Dest} {a : Operand} {m : MaskOp} {tl : Tail} (h : CanonMem s) :
    CanonResult (execScaleq fmt rnd d a m tl s) := h.issueMember fun _ _ ht => ht.put

theorem CanonMem.checkTargets {c : Ctx} {to_ : LaneMask} {t : Nat → W64} {k : Effect} (hk : CanonEffect k) :
    CanonEffect (c.checkTargets to_ t k) := by
  unfold Ctx.checkTargets
  dsimp only
  split
  · exact hk
  · trivial

theorem CanonMem.branch {h1 : Hint} {off : BitVec 24} {uses : List Use} {sel : Ctx → LaneMask} (h : CanonMem s) :
    CanonResult (branch h1 off uses sel s) := h.issueTerminal fun _ _ ht => CanonMem.checkTargets ht.put

theorem CanonMem.execBra {h1 : Hint} {off : BitVec 24} (h : CanonMem s) : CanonResult (execBra h1 off s) := h.branch

theorem CanonMem.execBrc {cond : BrcCond} {h1 : Hint} {off : BitVec 24} (h : CanonMem s) : CanonResult (execBrc cond h1 off s) :=
  h.branch

theorem CanonMem.execBru {cond : BruCond} {h1 : Hint} {off : BitVec 24} (h : CanonMem s) : CanonResult (execBru cond h1 off s) :=
  h.branch

theorem CanonMem.execCall {link : BitVec 5} {h1 : Hint} {off : BitVec 24} (h : CanonMem s) : CanonResult (execCall link h1 off s) :=
  h.issueTerminal fun _ _ ht => CanonMem.checkTargets ht.put

theorem CanonMem.indirect {a : Operand} (h : CanonMem s) : CanonResult (indirect a s) :=
  h.issueTerminal fun _ _ ht => CanonMem.checkTargets ht.put

theorem CanonMem.execRet {a : Operand} (h : CanonMem s) : CanonResult (execRet a s) := h.indirect

theorem CanonMem.execJmpi {a : Operand} (h : CanonMem s) : CanonResult (execJmpi a s) := h.indirect

theorem CanonMem.execCalli {d : Dest} {a : Operand} (h : CanonMem s) : CanonResult (execCalli d a s) :=
  h.issueTerminal fun _ _ ht => CanonMem.checkTargets ht.put

theorem CanonMem.execExit (h : CanonMem s) : CanonResult (execExit s) :=
  h.issueTerminal fun _ _ ht => CanonMem.ite ht.put.verdicts.addHash ht.put.verdicts

theorem CanonMem.applyDebug {core : Nat} {l : NMap W64} (h : CanonMem s) : CanonMem (s.applyDebug core l) := by
  induction l generalizing s with
  | nil => exact h
  | cons x xs ih => exact ih h.modCore

theorem CanonMem.execRtt (h : CanonMem s) : CanonResult (execRtt s) :=
  h.issueTerminal fun _ _ ht => CanonMem.checkTargets ht.put.applyDebug

theorem CanonMem.execHalt (h : CanonMem s) : CanonResult (execHalt s) := by
  unfold Machine.execHalt
  refine h.issueTerminal fun _ _ ht => ?_
  split
  · trivial
  · exact ht.put.recordFree

theorem CanonMem.execLoop {n : BitVec 2} {off : BitVec 24} (h : CanonMem s) : CanonResult (execLoop n off s) := by
  unfold Machine.execLoop
  refine h.issueTerminal fun _ _ ht => ?_
  dsimp only
  split
  · trivial
  · split
    · exact ht.put
    · exact CanonMem.checkTargets ht.put

theorem CanonMem.execNop (h : CanonMem s) : CanonResult (execNop s) := h.issue fun _ _ ht => ht

theorem CanonMem.execYield (h : CanonMem s) : CanonResult (execYield s) := h.issue fun _ _ ht => ht.put

theorem CanonMem.execSleep {n : BitVec 24} (h : CanonMem s) : CanonResult (execSleep n s) := h.issue fun _ _ ht => ht.put

theorem CanonMem.execTrap {imm : BitVec 24} (h : CanonMem s) : CanonResult (execTrap imm s) := by
  unfold Machine.execTrap
  refine h.issue fun _ _ ht => ?_
  split
  · exact ht
  · trivial

theorem CanonMem.enterDebug {gid : Nat} {issuePc hdr : W64} {t : Trap} (h : CanonMem s) :
    CanonMem (s.enterDebug gid issuePc hdr t) := by
  unfold State.enterDebug
  split
  · exact h
  · exact h.setGroup.recordTrap

theorem CanonMem.execBrk {code : BitVec 6} (h : CanonMem s) : CanonResult (execBrk code s) := by
  unfold Machine.execBrk
  split
  · trivial
  · split
    · exact h.enterDebug
    · exact h.issue fun _ _ ht => ht

theorem CanonMem.execIllegalOpcode {word : W64} (h : CanonMem s) : CanonResult (execIllegalOpcode word s) :=
  h.issue fun _ _ _ => trivial

theorem CanonMem.spawnOne {core blk : Nat} {entry : W64} {t : SpawnThread} {before : List Nat} (h : CanonMem s) :
    CanonMem (s.spawnOne core blk entry t before).2 := by
  unfold State.spawnOne
  split
  · exact h
  · split
    · exact h
    · dsimp only
      split
      · exact h.modCore.modBlock
      · split
        · exact h
        · exact h.modCore.modBlock

theorem CanonMem.spawnLanes {core blk : Nat} {entry : Nat → W64} {t : Nat → SpawnThread} {before l : List Nat} (h : CanonMem s) :
    CanonMem (s.spawnLanes core blk entry t before l).2 := by
  induction l generalizing s with
  | nil => exact h
  | cons x xs ih =>
    unfold State.spawnLanes
    refine ih ?_
    exact h.spawnOne

theorem CanonMem.execSpawn {d : BitVec 6} {a b cc : Operand} (h : CanonMem s) : CanonResult (execSpawn d a b cc s) := by
  unfold Machine.execSpawn
  refine h.issueIf fun _ _ ht => ?_
  split
  · trivial
  · split
    · trivial
    · exact CanonMem.checkTargets ht.spawnLanes.modGroup

theorem CanonMem.clearYields {core : Nat} (h : CanonMem s) : CanonMem (s.clearYields core) := h.upd rfl

theorem CanonMem.startClause {gid : Nat} {c : Choice} (h : CanonMem s) : CanonMem (s.startClause gid c) := by
  unfold State.startClause
  dsimp only
  split
  · exact h.clearYields.setGroup
  · split
    · exact h.clearYields.setGroup.enterDebug
    · split
      · exact h.clearYields.setGroup.takeTrap
      · exact CanonMem.ite h.clearYields.setGroup.afterFetch.takeTrap h.clearYields.setGroup.afterFetch.setGroup

theorem CanonMem.execClauseStart {core : Nat} (h : CanonMem s) : CanonResult (execClauseStart core s) := by
  unfold Machine.execClauseStart
  split
  · exact h
  · split
    · exact h
    · exact h.startClause

theorem CanonMem.execStarved {core : Nat} (h : CanonMem s) : CanonResult (execStarved core s) := by
  unfold Machine.execStarved
  split
  · exact h
  · split
    · exact h
    · split
      · exact h
      · exact h.startClause

theorem CanonMem.execDwellBreak {gid : Nat} (h : CanonMem s) : CanonResult (execDwellBreak gid s) := by
  unfold Machine.execDwellBreak
  split
  · exact h
  · split
    · exact h
    · split
      · exact h
      · split
        · exact h
        · exact CanonMem.ite h.startClause h

theorem CanonMem.execConvergenceTimeout {gid : Nat} {hdr : W64} (h : CanonMem s) :
    CanonResult (execConvergenceTimeout gid hdr s) := by
  unfold Machine.execConvergenceTimeout
  split
  · exact h
  · split
    · exact h
    · exact CanonMem.ite h (CanonMem.ite h h.takeTrap)

theorem CanonMem.execSleepEnd {gid : Nat} (h : CanonMem s) : CanonResult (execSleepEnd gid s) := h.modGroup

theorem CanonMem.takePop {a : AsyncOp} (h : CanonMem s) : CanonMem (s.takePop a) := by
  unfold State.takePop
  split
  · exact h
  · exact h.upd rfl
  · exact h.modCore
  · split
    · exact h
    · exact h.modCore

theorem CanonMem.landSome {a : AsyncOp} {p : Nat → Bool} {vw : List (Nat × W32)} {sw : List (Nat × W64)} {fl : FpFlags}
    (h : CanonMem s) : CanonMem (s.landSome a p vw sw fl) := h.modGroup

theorem CanonMem.execAsyncComplete {op : Nat} (h : CanonMem s) : CanonResult (execAsyncComplete op s) := by
  unfold Machine.execAsyncComplete
  split
  · exact h
  · exact CanonMem.ite h (h.takePop.upd (by dsimp only)).landSome.releaseSlot

theorem CanonMem.endRetire {g : Group} (h : CanonMem s) : CanonMem (s.endRetire g) := by
  unfold State.endRetire
  split
  · exact h
  · exact CanonMem.ite (h.upd rfl) h

theorem CanonMem.execExitDrainingEnd {gid : Nat} (h : CanonMem s) : CanonResult (execExitDrainingEnd gid s) := by
  unfold Machine.execExitDrainingEnd
  split
  · exact h
  · exact CanonMem.ite h (CanonMem.ite (h.upd (by rfl)).meshExit.modBlock.recordFree
      (h.upd (by rfl)).meshExit.modBlock).leaveHash.endRetire.tryEndBlock

theorem CanonMem.execBinTimeExpiry {core bin : Nat} (h : CanonMem s) : CanonResult (execBinTimeExpiry core bin s) := by
  unfold Machine.execBinTimeExpiry
  split
  · exact h
  · exact CanonMem.ite h h.modCore

theorem CanonMem.startSpawned {b : Bin} {x : Block} {la : Launch} {k : Nat} (h : CanonMem s) : CanonMem (s.startSpawned b x la k) :=
  CanonMem.ite h.modCore.setGroup.recordFree h.modCore.setGroup

theorem CanonMem.trySpawned {b : Bin} {drop : State → State} (h : CanonMem s)
    (hdrop : ∀ (t : State), CanonMem t → CanonMem (drop t)) : CanonMem (s.trySpawned b drop) := by
  unfold State.trySpawned
  split
  · exact h
  · split
    · exact h
    · split
      · exact (hdrop _ h).startSpawned
      · exact h

theorem CanonMem.execSpawnedGroupStart {core bin : Nat} (h : CanonMem s) : CanonResult (execSpawnedGroupStart core bin s) := by
  unfold Machine.execSpawnedGroupStart
  split
  · split
    · exact h
    · exact CanonMem.ite h (h.trySpawned (fun _ ht => ht.modCore))
  · split
    · exact CanonMem.ite h (h.trySpawned (fun _ ht => ht.modBlock))
    · exact h

theorem CanonMem.presentRange {core first n : Nat} (h : CanonMem s) : CanonMem (s.presentRange core first n) := h.modCore

theorem CanonMem.startGroups {core blk n : Nat} {la : Launch} {b : Block} {l : List Nat} (h : CanonMem s) :
    CanonMem (s.startGroups core blk n la b l) := by
  induction l generalizing s with
  | nil => exact h
  | cons x xs ih => exact ih (CanonMem.ite h.modCore.setGroup.recordFree h.modCore.setGroup)

theorem CanonMem.placeBlock {n core : Nat} {la : Launch} {rank : Nat} {gr : Grant} (h : CanonMem s) :
    CanonMem (s.placeBlock n core la rank gr) := (h.upd (by rfl)).modCore.presentRange.storeBytes.modLaunch.startGroups

theorem CanonMem.placeAll {n rank : Nat} {l : List Nat} (h : CanonMem s) : CanonSome id (s.placeAll n rank l) := by
  induction l generalizing s rank with
  | nil => exact h
  | cons x xs ih =>
    unfold State.placeAll
    split
    · trivial
    · split
      · trivial
      · dsimp only
        split
        · trivial
        · exact ih h.pick.placeBlock

theorem CanonMem.logPlace {la : Launch} {core : Nat} (h : CanonMem s) : CanonMem (s.logPlace la core) := CanonMem.ite (h.upd rfl) h

theorem CanonMem.placeNext {launch : Nat} {cores : List Nat} (h : CanonMem s) : CanonMem (s.placeNext launch cores) := by
  unfold State.placeNext
  split
  · split
    · exact h
    · split
      · next e2 => exact h.logPlace.placeAll.of_eq e2 rfl
      · exact h
  · exact h

theorem CanonMem.requestEvict {blk : Nat} (h : CanonMem s) : CanonMem (s.requestEvict blk) := by
  unfold State.requestEvict
  split
  · exact h
  · exact CanonMem.ite h (CanonMem.ite h.modBlock (h.modBlock.upd (by dsimp only)).modCore)

theorem CanonMem.requestEvicts {l : List Nat} (h : CanonMem s) : CanonMem (s.requestEvicts l) := by
  induction l generalizing s with
  | nil => exact h
  | cons x xs ih => exact ih h.requestEvict

theorem CanonMem.saveBlock {blk : Nat} (h : CanonMem s) : CanonMem (s.saveBlock blk) := by
  unfold State.saveBlock
  split
  · exact h
  · exact CanonMem.ite h (h.upd (by rfl)).modCore

theorem CanonMem.saveBlocks {l : List Nat} (h : CanonMem s) : CanonMem (s.saveBlocks l) := by
  induction l generalizing s with
  | nil => exact h
  | cons x xs ih => exact ih h.saveBlock

theorem CanonMem.settlePreempts (h : CanonMem s) : CanonMem s.settlePreempts :=
  h.foldl fun _ _ ht => ht.foldl fun _ _ hu => CanonMem.ite (CanonMem.ite hu.completeCmd hu) hu

theorem CanonMem.execEviction {blk : Nat} (h : CanonMem s) : CanonResult (execEviction blk s) := by
  unfold Machine.execEviction
  split
  · exact h
  · exact CanonMem.ite h (CanonMem.ite h.requestEvicts.saveBlocks.settlePreempts h.requestEvicts)

theorem CanonMem.resumeGroups {core blk : Nat} {slots : List Nat} {l : List Group} (h : CanonMem s) :
    CanonMem (s.resumeGroups core blk slots l) := by
  induction l generalizing s with
  | nil => exact h
  | cons x xs ih => exact ih h.modCore.setGroup

theorem CanonMem.rehomeWaits {b : Block} {blk : Nat} (h : CanonMem s) : CanonMem (s.rehomeWaits b blk) := h.upd rfl

theorem CanonMem.arrayRuns {b : Block} {blk : Nat} (h : CanonMem s) : CanonMem (s.arrayRuns b blk) := CanonMem.ite h (h.upd rfl)

theorem CanonMem.askAgain {blk : Nat} {b : Block} (h : CanonMem s) : CanonMem (s.askAgain blk b) := by
  unfold State.askAgain
  split
  · exact h.sendTile
  · exact h

theorem CanonMem.resumeBlock {blk core : Nat} {b : Block} {gr : Grant} (h : CanonMem s) : CanonMem (s.resumeBlock blk core b gr) := by
  unfold State.resumeBlock
  refine (CanonMem.upd ?_ (by dsimp only)).modLaunch.rehomeWaits.arrayRuns.askAgain
  exact (h.upd (by rfl)).modCore.presentRange.storeBytes.storeBytes.resumeGroups.modCore

theorem CanonMem.execBlockResume {blk core : Nat} (h : CanonMem s) : CanonResult (execBlockResume blk core s) := by
  unfold Machine.execBlockResume
  split
  · exact h
  · split
    · exact h
    · split
      · exact h
      · split
        · exact h
        · exact h.resumeBlock

theorem CanonMem.recSeen {x : RecAt} (h : CanonMem s) : CanonMem (s.recSeen x) := by
  unfold State.recSeen
  split
  · exact h.l2See
  · exact h.portSeen
  · exact h

theorem CanonMem.poolFault {slot code : Nat} {a : W64} {site : Site} (h : CanonMem s) : CanonMem (s.poolFault slot code a site) := by
  unfold State.poolFault
  split
  · exact h
  · exact h.killLaunches.failPass

theorem CanonMem.writeChunks {x : RenderPass} {l : List (Nat × Option (Nat × RenderEntry))} (h : CanonMem s) :
    CanonOk id (s.writeChunks x l) := by
  induction l generalizing s with
  | nil => exact h
  | cons x xs ih =>
    unfold State.writeChunks
    split
    · exact ih h
    · split
      · trivial
      · refine ih ?_
        split
        · exact h.hubWalk.l2See.storeBytes.l2See.storeBytes
        · exact h.hubWalk.l2See.storeBytes

theorem CanonMem.heldClock {slot : Nat} (h : CanonMem s) : CanonMem (s.heldClock slot) := by
  unfold State.heldClock
  split
  · exact h
  · exact h.closeHeld.modPass

theorem CanonMem.flushLoop {slot n : Nat} (h : CanonMem s) : CanonMem (State.flushLoop slot n s) := by
  induction n generalizing s with
  | zero => exact h
  | succ n ih =>
    unfold State.flushLoop
    split
    · exact h
    · dsimp only
      split
      · exact h
      · split
        · exact h.modTile.modPass.passCount
        · exact CanonMem.ite h.modTile.modPass.passCount (ih h.modTile.modPass.passCount)

theorem CanonMem.pump {slot : Nat} (h : CanonMem s) : CanonMem (s.pump slot) := by
  unfold State.pump
  dsimp only
  split
  · exact h.heldClock
  · exact CanonMem.ite h.heldClock (CanonMem.ite h.heldClock.flushLoop h.heldClock)

theorem CanonMem.emitPrims {slot : Nat} {mk : State → Nat → Prim} {l : List Nat} (h : CanonMem s) :
    CanonMem (s.emitPrims slot mk l) := by
  induction l generalizing s with
  | nil => exact h
  | cons x xs ih =>
    unfold State.emitPrims
    refine ih ?_
    split
    · exact CanonMem.ite (h.upd rfl) (CanonMem.ite h.passCount h)
    · exact h

theorem CanonMem.execPrim {df : DepthFn} {cov : Option (BitVec 5)} {cull : Cull} {a b : Operand} {tl : Tail} (h : CanonMem s) :
    CanonResult (execPrim df cov cull a b tl s) := by
  unfold Machine.execPrim
  refine h.issueAsync fun _ _ ht => ?_
  split
  · split
    · split
      · dsimp only
        split
        · trivial
        · split
          · split
            · trivial
            · refine CanonMem.checkTargets ?_
              split
              · trivial
              · split
                · trivial
                · exact ht.emitPrims
          · split
            · trivial
            · refine CanonMem.checkTargets ?_
              split
              · trivial
              · split
                · trivial
                · exact ht.emitPrims
      · dsimp only
        split
        · trivial
        · split
          · split
            · trivial
            · refine CanonMem.checkTargets ?_
              split
              · trivial
              · split
                · trivial
                · exact ht.emitPrims.launchAsync
          · split
            · trivial
            · refine CanonMem.checkTargets ?_
              split
              · trivial
              · split
                · trivial
                · exact ht.emitPrims.launchAsync
    · split
      · dsimp only
        split
        · trivial
        · split
          · split
            · trivial
            · refine CanonMem.checkTargets ?_
              split
              · trivial
              · split
                · trivial
                · exact ht.emitPrims
          · split
            · trivial
            · refine CanonMem.checkTargets ?_
              split
              · trivial
              · split
                · trivial
                · exact ht.emitPrims
      · dsimp only
        split
        · trivial
        · split
          · split
            · trivial
            · refine CanonMem.checkTargets ?_
              split
              · trivial
              · split
                · trivial
                · exact ht.emitPrims.launchAsync
          · split
            · trivial
            · refine CanonMem.checkTargets ?_
              split
              · trivial
              · split
                · trivial
                · exact ht.emitPrims.launchAsync
  · split
    · split
      · dsimp only
        split
        · trivial
        · split
          · split
            · trivial
            · refine CanonMem.checkTargets ?_
              split
              · trivial
              · split
                · trivial
                · exact ht.emitPrims
          · split
            · trivial
            · refine CanonMem.checkTargets ?_
              split
              · trivial
              · split
                · trivial
                · exact ht.emitPrims
      · dsimp only
        split
        · trivial
        · split
          · split
            · trivial
            · refine CanonMem.checkTargets ?_
              split
              · trivial
              · split
                · trivial
                · exact ht.emitPrims.launchAsync
          · split
            · trivial
            · refine CanonMem.checkTargets ?_
              split
              · trivial
              · split
                · trivial
                · exact ht.emitPrims.launchAsync
    · split
      · dsimp only
        split
        · trivial
        · split
          · split
            · trivial
            · refine CanonMem.checkTargets ?_
              split
              · trivial
              · split
                · trivial
                · exact ht.emitPrims
          · split
            · trivial
            · refine CanonMem.checkTargets ?_
              split
              · trivial
              · split
                · trivial
                · exact ht.emitPrims
      · dsimp only
        split
        · trivial
        · split
          · split
            · trivial
            · refine CanonMem.checkTargets ?_
              split
              · trivial
              · split
                · trivial
                · exact ht.emitPrims.launchAsync
          · split
            · trivial
            · refine CanonMem.checkTargets ?_
              split
              · trivial
              · split
                · trivial
                · exact ht.emitPrims.launchAsync

theorem CanonMem.execPrimitiveBin {prim : Nat} (h : CanonMem s) : CanonResult (execPrimitiveBin prim s) := by
  unfold Machine.execPrimitiveBin
  split
  · exact h
  · split
    · exact h
    · split
      · exact h
      · split
        · exact CanonMem.ite h.killLaunch h.primDone
        · split
          · exact h.recSeen.upd (by dsimp only)
          · exact h.recSeen.passCount.upd (by dsimp only)

/-- What an append leaves has memory in its form. -/
def CanonAppend : Append → Prop
  | .done s => CanonMem s
  | .held | .bad _ => True

theorem CanonAppend.of_done {r : Append} {t : State} (h : CanonAppend r) (e : r = .done t) : CanonMem t := by
  rw [e] at h
  exact h

theorem CanonMem.append {slot t : Nat} {e : RenderEntry} (h : CanonMem s) : CanonAppend (s.append slot t e) := by
  have give {t : State} {y : RenderPass} {ws : List (Nat × Option (Nat × RenderEntry))} (ht : CanonMem t) :
      CanonAppend (match (t.modPass slot fun _ => y).writeChunks y ws with
        | .ok s1 => .done s1
        | .error a => .bad a) := by
    split
    · next e => exact ht.modPass.writeChunks.of_eq e rfl
    · trivial
  unfold State.append
  split
  · exact h
  · dsimp only
    split
    · split
      · trivial
      · exact give h.pick
    · split
      · split
        · exact h.passCount
        · split
          · exact give h
          · split
            · trivial
            · exact give h.pick
      · exact give h

theorem CanonMem.appendTiles {p : Prim} {l : List Nat} (h : CanonMem s) : CanonMem (s.appendTiles p l) := by
  induction l generalizing s with
  | nil => exact h.primDone
  | cons x xs ih =>
    unfold State.appendTiles
    split
    · next e => exact ih (h.append.of_done e)
    · exact h.upd rfl
    · exact h.poolFault

theorem CanonMem.execListAppend {slot prim : Nat} (h : CanonMem s) : CanonResult (execListAppend slot prim s) := by
  unfold Machine.execListAppend
  split
  · exact h
  · split
    · exact h
    · exact CanonMem.ite h h.appendTiles.pump

theorem CanonMem.enterMesh {slot n : Nat} {la : Launch} {from_ : Nat} (h : CanonMem s) : CanonMem (s.enterMesh slot n la from_) :=
  h.modPass

theorem CanonMem.startMesh {n : Nat} {cores : List Nat} (h : CanonMem s) : CanonMem (s.startMesh n cores) := by
  unfold State.startMesh
  split
  · exact h
  · dsimp only
    split
    · exact h.placeNext
    · exact CanonMem.ite h h.placeNext.enterMesh

theorem CanonMem.execMeshGroupStart {launch core : Nat} (h : CanonMem s) : CanonResult (execMeshGroupStart launch core s) := by
  unfold Machine.execMeshGroupStart
  split
  · exact h
  · exact CanonMem.ite h.startMesh h

theorem CanonMem.execBlockPlacement {launch : Nat} {cores : List Nat} (h : CanonMem s) :
    CanonResult (execBlockPlacement launch cores s) := by
  unfold Machine.execBlockPlacement
  split
  · exact h
  · exact CanonMem.ite h (CanonMem.ite h.startMesh h.placeNext)

theorem CanonGather.contribute {g : Gather} {op : RedOp} {x : W64} {pa : Nat} {va : W64} {launch : Nat} (h : CanonGather g) :
    CanonGather (g.contribute op x pa va launch) := by
  unfold Gather.contribute
  exact (h.mem.upd (by dsimp only)).gathered

theorem CanonGather.atomic {g : Gather} {v : View} {va : W64} {t : Target} {red : Option (RedOp × W64)} {dst : Dst}
    {acc : Nat → Access} (h : CanonGather g) : CanonGather (g.atomic v va t red dst acc) := by
  unfold Gather.atomic
  split
  · exact h.send
  · exact h
  · split
    · exact h.mem.purgeSector.gathered.contribute.upd rfl
    · exact h.mem.purgeSector.gathered.send

theorem CanonMem.atomics {uses : List Use} {tl : Tail} {d : BitVec 6} {addr : Ctx → Nat → W64} {k : AccKind}
    {red : Ctx → Nat → Option (RedOp × W64)} {acc : Ctx → Nat → Nat → Dst → Access} (h : CanonMem s) :
    CanonResult (atomics uses tl d addr k red acc s) :=
  h.issueAsync fun _ _ ht => ht.checked fun _ _ hu => (hu.gather.foldl fun _ _ hv => hv.foldl fun _ _ hw => hw.atomic).finish

theorem CanonMem.execAtom {op : AtomOp} {d : BitVec 6} {base x : Operand} {off : BitVec 12} {tl : Tail} (h : CanonMem s) :
    CanonResult (execAtom op d base x off tl s) := h.atomics

theorem CanonMem.execAtomCas {d : BitVec 6} {a b cc : Operand} {tl : Tail} (h : CanonMem s) :
    CanonResult (execAtomCas d a b cc tl s) := h.atomics

theorem CanonMem.execFatom {op : FatomOp} {d : BitVec 6} {base x : Operand} {off : BitVec 12} {tl : Tail} (h : CanonMem s) :
    CanonResult (execFatom op d base x off tl s) := h.atomics

theorem CanonMem.publish {core gid launch : Nat} {sc : Scope} {op : Nat} {after : AfterPub} (h : CanonMem s) :
    CanonMem (s.publish core gid launch sc op after).2 := by
  unfold State.publish
  exact h.cleanLines.upd (by dsimp only)

theorem CanonMem.acceptWbs {p : Publish} (h : CanonMem s) : CanonMem (s.acceptWbs p) := h.upd rfl

theorem CanonMem.addDep {op dep : Nat} (h : CanonMem s) : CanonMem (s.addDep op dep) := h.upd rfl

theorem CanonMem.sendReq {r : Req} (h : CanonMem s) : CanonMem (s.sendReq r) := (h.upd (by rfl)).addDep

theorem CanonMem.putReq {r : Req} (h : CanonMem s) : CanonMem (s.putReq r) := h.upd rfl

theorem CanonMem.afterPublish {p : Publish} (h : CanonMem s) : CanonMem (s.afterPublish p) := by
  unfold State.afterPublish
  split
  · exact h
  · exact h.putReq
  · exact h.purgeSector.putReq
  · exact h.purgeSector.upd (by dsimp only)
  · exact h.modCluster

theorem CanonMem.execPublishComplete {pub : Nat} (h : CanonMem s) : CanonResult (execPublishComplete pub s) := by
  unfold Machine.execPublishComplete
  split
  · exact h
  · exact CanonMem.ite (h.acceptWbs.upd (by dsimp only)).afterPublish h

theorem CanonMem.startOp {c : Ctx} {tl : Tail} {ready : Bool} (h : CanonMem s) : CanonMem (s.startOp c tl ready).2 := h.launchAsync

theorem CanonMem.counterAdd {c : Ctx} {v : View} {rel : Option Scope} {t : Target} {va x : W64} {op : Nat} (h : CanonMem s) :
    CanonMem (s.counterAdd c v rel t va x op) := by
  unfold State.counterAdd
  split
  · split
    · exact h.publish.addDep
    · exact h
    · exact CanonMem.ite h.publish.addDep h.publish.addDep
  · split
    · exact (h.upd (by rfl)).afterPublish.addDep
    · exact h
    · exact CanonMem.ite (h.upd (by rfl)).afterPublish.addDep (h.upd (by rfl)).afterPublish.addDep

theorem CanonMem.execCtrAdd {rel : Option Scope} {base : Option (BitVec 5)} {x : Operand} {off : BitVec 12} {tl : Tail}
    (h : CanonMem s) : CanonResult (execCtrAdd rel base x off tl s) := by
  unfold Machine.execCtrAdd
  refine h.issueAsync fun _ _ ht => ht.checked fun _ _ hu => ?_
  dsimp only
  split
  · trivial
  · exact hu.startOp.counterAdd.countMem

theorem CanonMem.execCtrWait {acq : Bool} {t : BitVec 3} {d base : Option (BitVec 5)} {x : Operand} {off : BitVec 12}
    {slot : BitVec 3} (h : CanonMem s) : CanonResult (execCtrWait acq t d base x off slot s) :=
  h.issueAsync fun _ _ ht => ht.checked fun _ _ hu => (hu.startOp.upd (by dsimp only)).countMem

theorem CanonMem.execCtrRd {d : BitVec 5} {base : Option (BitVec 5)} {off : BitVec 12} {tl : Tail} (h : CanonMem s) :
    CanonResult (execCtrRd d base off tl s) := by
  unfold Machine.execCtrRd
  refine h.issueAsync fun _ _ ht => ht.checked fun _ _ hu => ?_
  dsimp only
  split
  · trivial
  · exact hu.startOp.sendReq.countMem

theorem CanonMem.endWait {w : Wait} {status : W64} (h : CanonMem s) : CanonMem (s.endWait w status) := h.upd rfl

theorem CanonMem.waitLog {w : Wait} {la : Launch} {to_ : Bool} (h : CanonMem s) : CanonMem (s.waitLog w la to_) :=
  CanonMem.ite h (CanonMem.ite h.logOp (CanonMem.ite h.consume h))

theorem CanonMem.waitDiverge {w : Wait} {n : Nat} (h : CanonMem s) : CanonMem (s.waitDiverge w n) := h.diverge

theorem CanonMem.holdWait {w : Wait} (h : CanonMem s) : CanonMem (s.holdWait w) := h.upd rfl

theorem CanonMem.execCtrWaitComplete {w : Nat} (h : CanonMem s) : CanonResult (execCtrWaitComplete w s) := by
  unfold Machine.execCtrWaitComplete
  split
  · exact h
  · split
    · dsimp only
      split
      · exact h.holdWait
      · exact h
      · exact h.waitDiverge
      · exact CanonMem.ite h h.modCore.waitLog.endWait
    · dsimp only
      split
      · exact h.holdWait
      · exact h
      · exact h.waitDiverge
      · exact CanonMem.ite h h.waitLog.endWait

theorem CanonMem.execCtrWaitTimeout {w : Nat} (h : CanonMem s) : CanonResult (execCtrWaitTimeout w s) := by
  unfold Machine.execCtrWaitTimeout
  split
  · exact h
  · split
    · exact h
    · split
      · dsimp only
        split
        · split
          · exact h.waitLog.endWait
          · exact h.waitDiverge
          · exact h.holdWait
          · exact h
        · exact h
      · dsimp only
        split
        · split
          · exact h.waitLog.endWait
          · exact h.waitDiverge
          · exact h.holdWait
          · exact h
        · exact h.waitLog.endWait

theorem CanonMem.gateWait {id : Nat} (h : CanonMem s) : CanonMem (s.gateWait id) := by
  unfold State.gateWait
  split
  · exact h
  · split
    · exact h
    · exact CanonMem.ite h h.waitDiverge

theorem CanonMem.execGateTimeout {req : Nat} (h : CanonMem s) : CanonResult (execGateTimeout req s) := by
  unfold Machine.execGateTimeout
  split
  · exact h.gateWait
  · split
    · exact CanonMem.ite h h.diverge.performHead
    · exact h

theorem CanonMem.publishes {c : Ctx} {sc : Scope} {after : AfterPub} {tl : Tail} (h : CanonMem s) :
    CanonMem (c.publishes s sc after tl) := h.startOp.publish.addDep.countMem

theorem CanonMem.execPhase {sc : Scope} {tl : Tail} (h : CanonMem s) : CanonResult (execPhase sc tl s) :=
  h.issueAsync fun _ _ ht => ht.modCore.publishes

theorem CanonMem.execPhaseP {sc : Scope} {tl : Tail} (h : CanonMem s) : CanonResult (execPhaseP sc tl s) :=
  h.issueAsync fun _ _ ht => ht.publishes

theorem CanonMem.execPhaseS {tl : Tail} (h : CanonMem s) : CanonResult (execPhaseS tl s) :=
  h.issue fun _ _ ht => ht.modCore.countMem

theorem CanonMem.execLfence {sc : Scope} {tl : Tail} (h : CanonMem s) : CanonResult (execLfence sc tl s) :=
  h.issueAsync fun _ _ ht => ht.publishes

theorem CanonMem.execCapacityRefreshRecord {core : Nat} (h : CanonMem s) : CanonResult (execCapacityRefreshRecord core s) :=
  CanonMem.ite h h.modCore.record

theorem CanonMem.hubAdd {root va : Nat} {x : W64} (h : CanonMem s) : CanonSome (·.2) (s.hubAdd root va x) := by
  unfold State.hubAdd
  split
  · trivial
  · split
    · trivial
    · dsimp only
      split
      · exact h.store64
      · exact h.store64

theorem CanonMem.postBelow {q : Nat} {l : List Nat} (h : CanonMem s) : CanonMem (s.postBelow q l) := by
  induction l generalizing s with
  | nil => exact h
  | cons x xs ih => exact ih h.postEvent

theorem CanonMem.finishNode {n : Nat} {la : Launch} (h : CanonMem s) : CanonMem (s.finishNode n la).1 := by
  unfold State.finishNode
  split
  · dsimp only
    split
    · exact (CanonMem.ite h h.postEvent).postEvent
    · exact (CanonMem.ite h h.postEvent).postEvent.modCmd.postBelow
  · dsimp only
    split
    · refine CanonMem.postEvent ?_
      split
      · exact h
      · split
        · next e4 => exact h.hubAdd.of_eq e4 rfl
        · exact h.postEvent
    · refine (CanonMem.postEvent ?_).modCmd.postBelow
      split
      · exact h
      · split
        · next e4 => exact h.hubAdd.of_eq e4 rfl
        · exact h.postEvent

theorem CanonMem.launchNode {q num node : Nat} (h : CanonMem s) : CanonMem (s.launchNode q num node).1 := by
  unfold State.launchNode
  split
  · exact h
  · split
    · exact h
    · dsimp only
      split
      · exact h.postEvent.failNode
      · split
        · exact (h.upd (by rfl)).modCmd.finishNode
        · exact (h.upd (by rfl)).modCmd

theorem CanonMem.launchNodes {q num n : Nat} {l : List Nat} (h : CanonMem s) : CanonMem (s.launchNodes q num n l) := by
  induction n generalizing s l with
  | zero => exact h
  | succ n ih =>
    cases l with
    | nil => exact h
    | cons x l => exact ih h.launchNode

theorem CanonMem.startNodes {q num first count : Nat} (h : CanonMem s) : CanonMem (s.startNodes q num first count) :=
  h.modCmd.launchNodes.settleCmd

theorem CanonMem.publishAll {launch : Nat} {l : List Nat} (h : CanonMem s) : CanonMem (s.publishAll launch l).2 := by
  induction l generalizing s with
  | nil => exact h
  | cons x xs ih => exact ih h.publish

theorem CanonMem.nodeCompleted {n : Nat} {la : Launch} (h : CanonMem s) : CanonMem (s.nodeCompleted n la) :=
  h.finishNode.launchNodes.settleCmd

theorem CanonMem.execNodeComplete {launch : Nat} (h : CanonMem s) : CanonResult (execNodeComplete launch s) := by
  unfold Machine.execNodeComplete
  split
  · exact h
  · split
    · exact h
    · split
      · exact h.publishAll.modLaunch
      · exact CanonMem.ite h (h.upd (by rfl)).pushFw

theorem CanonMem.hubTake {off : Nat} (h : CanonMem s) : CanonMem (s.hubTake off) :=
  CanonMem.ite h.modQueue
    (CanonMem.ite (h.upd rfl) h)

theorem CanonMem.copyTable {off q n : Nat} (h : CanonMem s) : CanonMem (s.copyTable off q n) := by
  induction n with
  | zero => exact h
  | succ n ih => exact ih.hubTake.setHub

theorem CanonMem.failCommand {q num : Nat} {e1 : CmdErr} (h : CanonMem s) : CanonMem (s.failCommand q num e1) :=
  h.modQueue.stopQueue

theorem CanonMem.started {q num : Nat} (h : CanonMem s) : CanonMem (s.started q num) := h.modQueue

theorem CanonMem.startCommand {q : Nat} (h : CanonMem s) : CanonMem (s.startCommand q) := by
  unfold State.startCommand
  dsimp only
  split
  · exact h
  · split
    · exact h.stopQueue
    · split
      · exact h
      · split
        · exact h.stopQueue
        · split
          · exact h
          · split
            · exact h.stopQueue
            · exact h.modQueue.upd (by dsimp only)

theorem CanonMem.execCommandStart {q : Nat} (h : CanonMem s) : CanonResult (execCommandStart q s) := CanonMem.ite h h.startCommand

theorem CanonMem.onCmd {q c : Nat} {f : Cmd → State} (h : CanonMem s) (hf : ∀ (x : Cmd), CanonMem (f x)) :
    CanonResult (s.onCmd q c f) := by
  unfold State.onCmd
  split
  · exact h
  · exact (hf _).started

theorem CanonMem.execNopCommand {q c : Nat} (h : CanonMem s) : CanonResult (execNopCommand q c s) := h.onCmd fun _ => h.completeCmd

theorem CanonMem.execLaunch {q c first count : Nat} (h : CanonMem s) : CanonResult (execLaunch q c first count s) :=
  h.onCmd fun _ => CanonMem.ite h h.startNodes

theorem CanonMem.execSignal {q c : Nat} {va value : W64} (h : CanonMem s) : CanonResult (execSignal q c va value s) := by
  unfold Machine.execSignal
  refine h.onCmd fun _ => ?_
  split
  · exact h.failCommand
  · split
    · exact h
    · split
      · exact h.failCommand
      · next e3 => exact (h.hubAdd.of_eq e3 rfl).failCommand
      · next e3 => exact (h.hubAdd.of_eq e3 rfl).completeCmd

theorem CanonMem.execWait {q c : Nat} {va target : W64} (h : CanonMem s) : CanonResult (execWait q c va target s) := by
  unfold Machine.execWait
  refine h.onCmd fun _ => ?_
  split
  · exact h.failCommand
  · split
    · exact h
    · split
      · exact h.failCommand
      · exact CanonMem.ite h.failCommand (CanonMem.ite h.completeCmd h)

theorem CanonMem.execRpass {q c slot : Nat} {va : W64} (h : CanonMem s) : CanonResult (execRpass q c slot va s) := by
  unfold Machine.execRpass
  refine h.onCmd fun _ => ?_
  split
  · exact h
  · split
    · exact h.failCommand
    · split
      · exact h
      · split
        · exact h.failCommand
        · exact CanonMem.ite h.failCommand (h.upd (by rfl)).modCmd

theorem CanonMem.execRpend {q c slot : Nat} (h : CanonMem s) : CanonResult (execRpend q c slot s) := by
  unfold Machine.execRpend
  refine h.onCmd fun _ => CanonMem.completeCmd ?_
  split
  · exact h
  · exact h.modPass

theorem CanonMem.execPreempt {q c victim : Nat} {off : W64} (h : CanonMem s) : CanonResult (execPreempt q c victim off s) :=
  h.onCmd fun _ => CanonMem.ite h.settlePreempts
      (CanonMem.ite h.failCommand h.copyTable.modQueue.requestEvicts.modCmd.settlePreempts)

theorem CanonMem.dropRange {asn va len : Nat} (h : CanonMem s) : CanonMem (s.dropRange asn va len) := h.upd rfl

theorem CanonMem.execShootdown {q c : Nat} {va len : W64} (h : CanonMem s) : CanonResult (execShootdown q c va len s) :=
  h.onCmd fun _ => CanonMem.ite (CanonMem.ite h.completeCmd h) h.dropRange.modCmd

theorem CanonMem.flushPages {pages l : List Nat} (h : CanonMem s) : CanonMem (s.flushPages pages l) := by
  induction l generalizing s with
  | nil => exact h
  | cons x xs ih => exact ih h.flushLines

theorem CanonMem.execMigrate {q c : Nat} {va len : W64} (h : CanonMem s) : CanonResult (execMigrate q c va len s) :=
  h.onCmd fun _ => CanonMem.ite (CanonMem.ite h.completeCmd h) (h.dropRange.flushPages.upd (by dsimp only)).modCmd

theorem CanonMem.execRelease {q c : Nat} {va len : W64} (h : CanonMem s) : CanonResult (execRelease q c va len s) :=
  h.onCmd fun _ => (h.upd (by rfl)).completeCmd

theorem CanonMem.endLaunches {q : Nat} {l : List Nat} (h : CanonMem s) : CanonMem (s.endLaunches q l) := by
  induction l generalizing s with
  | nil => exact h
  | cons x xs ih =>
    unfold State.endLaunches
    refine ih ?_
    split
    · exact h
    · exact CanonMem.ite h.completeCmd h

theorem CanonMem.killAll {code : Nat} {a : W64} {l : List Nat} (h : CanonMem s) : CanonMem (s.killAll code a l) := by
  induction l generalizing s with
  | nil => exact h
  | cons x xs ih => exact ih h.killLaunch

theorem CanonMem.killAllNow {code : Nat} {a : W64} {l : List Nat} (h : CanonMem s) : CanonMem (s.killAllNow code a l) := by
  induction l generalizing s with
  | nil => exact h
  | cons x xs ih => exact ih h.killNow

theorem CanonMem.execKill {q c : Nat} {value : W64} (h : CanonMem s) : CanonResult (execKill q c value s) :=
  h.onCmd fun _ => h.killAllNow.endLaunches.completeCmd

theorem CanonMem.writeAperture {die m : Nat} {new : Aperture} (h : CanonMem s) : CanonMem (s.writeAperture die m new) :=
  CanonMem.ite h.modDie.pushFw h.modDie

theorem CanonMem.execAperture {q c die ap : Nat} {ctl vbase size pbase dim : W64} (h : CanonMem s) :
    CanonResult (execAperture q c die ap ctl vbase size pbase dim s) := h.onCmd fun _ => CanonMem.ite h h.writeAperture.completeCmd

theorem CanonMem.execAttest {q c : Nat} {nonce report : W64} (h : CanonMem s) : CanonResult (execAttest q c nonce report s) :=
  h.onCmd fun _ => CanonMem.ite h.failCommand (h.storeBytes.upd (by dsimp only)).completeCmd

theorem CanonMem.areaWrite {core : Nat} {la : Launch} {va : Nat} {bs : List Byte} {n : Nat} (h : CanonMem s) :
    CanonOk id (s.areaWrite core la va bs n) := by
  induction n generalizing s va bs with
  | zero => exact h
  | succ n ih =>
    unfold State.areaWrite
    split
    · exact h
    · split
      · trivial
      · dsimp only
        split
        · split
          · trivial
          · exact ih h.storeBytes
        · trivial

theorem CanonMem.retire {c : Ctx} {ops : List Nat} (h : CanonMem s) : CanonMem (s.retire c ops) :=
  CanonMem.ite (h.upd rfl)
    (h.upd rfl)

theorem CanonMem.execTretNext {d : BitVec 5} {a : Operand} {slot : BitVec 3} (h : CanonMem s) :
    CanonResult (execTretNext d a slot s) := by
  unfold Machine.execTretNext
  refine h.issueAsync fun _ _ ht => ?_
  split
  · trivial
  · split
    · dsimp only
      split
      · split
        · trivial
        · exact ht.launchAsync.modBlock.retire
      · split
        · trivial
        · exact ht.launchAsync.modBlock.retire
    · dsimp only
      split
      · split
        · trivial
        · exact ht.launchAsync.modBlock.sendTile
      · split
        · trivial
        · exact ht.launchAsync.modBlock.sendTile

theorem CanonMem.execTretDone {tl : Tail} (h : CanonMem s) : CanonResult (execTretDone tl s) := by
  unfold Machine.execTretDone
  refine h.issueAsync fun _ _ ht => ?_
  split
  · exact CanonMem.ite ht.retire ht
  · exact CanonMem.ite ht.launchAsync.retire ht.launchAsync

theorem CanonMem.execTilePassGrant {slot : Nat} (h : CanonMem s) : CanonResult (execTilePassGrant slot s) := by
  unfold Machine.execTilePassGrant
  split
  · exact h
  · split
    · exact h
    · exact (h.upd (by rfl)).modTile.modPass.modBlock

theorem CanonMem.putSample {base : Nat} {pid : W64} {w : Nat × Nat × W32} (h : CanonMem s) : CanonMem (s.putSample base pid w) :=
  h.storeBytes.storeBytes

theorem CanonMem.putSamples {base : Nat} {pid : W64} {l : List (Nat × Nat × W32)} (h : CanonMem s) :
    CanonMem (s.putSamples base pid l) := by
  induction l generalizing s with
  | nil => exact h
  | cons x xs ih =>
    unfold State.putSamples
    exact ih h.putSample

theorem CanonMem.beginTile {b : Block} {la : Launch} {x : RenderPass} {t : Nat} (h : CanonMem s) :
    CanonOk (·.1) (s.beginTile b la x t) := by
  unfold State.beginTile
  split
  · exact h.storeBytes.storeBytes
  · split
    · trivial
    · exact h.storeBytes.storeBytes

theorem CanonMem.renderAll {slot t base : Nat} {p : List W64} {l : List RenderEntry} (h : CanonMem s) :
    CanonOk id (s.renderAll slot t base p l) := by
  induction l generalizing s with
  | nil => exact h.modOut
  | cons x xs ih =>
    unfold State.renderAll
    split
    · trivial
    · split
      · dsimp only
        split
        · exact ih h.recSeen.modOut
        · exact h.recSeen.modOut.modOut
      · exact ih h.recSeen.putSamples.modOut

theorem CanonMem.spawnCov {slot t : Nat} {b : Block} {blk : Nat} {p : List W64} {e1 : RenderEntry} {l : List Nat} (h : CanonMem s) :
    CanonMem (s.spawnCov slot t b blk p e1 l) := by
  induction l generalizing s with
  | nil => exact h
  | cons x xs ih => exact CanonMem.ite (ih h.spawnOne.modOut) h

theorem CanonMem.finishTile {slot t : Nat} {b : Block} {blk : Nat} {x : RenderPass} {o : TilePass} (h : CanonMem s) :
    CanonOk id (s.finishTile slot t b blk x o) := by
  unfold State.finishTile
  dsimp only
  split
  · trivial
  · next s2 e =>
    have h3 : CanonMem (s2.storeBytes (visBase b x.p + 49152) (passRecord x.p t (x.tile t) o)) :=
      (h.modPass.modOut.writeChunks.of_eq e rfl).storeBytes
    split
    · exact h3
    · refine CanonMem.modBlock ?_
      exact h3.upd (by dsimp only)

theorem CanonMem.runTile {slot t blk : Nat} {b : Block} {x : RenderPass} {o : TilePass} (h : CanonMem s) :
    CanonMem (s.runTile slot t blk b x o) := by
  unfold State.runTile
  split
  · exact CanonMem.ite h.spawnCov (CanonMem.ite h h.modOut)
  · split
    · split
      · next e2 => exact (h.finishTile.of_eq e2 rfl).pump
      · exact h.poolFault
    · dsimp only
      split
      · next e2 => exact h.renderAll.of_eq e2 rfl
      · exact h.killLaunch

theorem CanonMem.execStartSequence {slot tile : Nat} (h : CanonMem s) : CanonResult (execStartSequence slot tile s) := by
  unfold Machine.execStartSequence
  split
  · exact h
  · split
    · exact h
    · split
      · exact h
      · split
        · exact h
        · split
          · exact h
          · split
            · exact h
            · split
              · exact h.runTile
              · split
                · exact h.killLaunch
                · next e7 => exact (h.beginTile.of_eq e7 rfl).modOut

theorem CanonMem.execCoverageVerdictWrite {slot tile : Nat} (h : CanonMem s) :
    CanonResult (execCoverageVerdictWrite slot tile s) := by
  unfold Machine.execCoverageVerdictWrite
  split
  · split
    · split
      · exact h
      · split
        · exact h.killLaunch
        · exact h.recSeen.putSamples.modOut
    · exact h
  · exact h

theorem CanonMem.settlePass {slot : Nat} (h : CanonMem s) : CanonMem (s.settlePass slot) := by
  unfold State.settlePass
  split
  · exact h
  · exact CanonMem.ite h (h.closeHeld.modPass.denyTiles.upd (by dsimp only)).completeCmd

theorem CanonMem.retireTile {blk : Nat} {b : Block} {r : Retire} (h : CanonMem s) : CanonOk id (s.retireTile blk b r) := by
  unfold State.retireTile
  split
  · exact h
  · split
    · split
      · exact h.modTile.modBlock.settlePass
      · split
        · trivial
        · next e3 => exact (h.areaWrite.of_eq e3 rfl).modTile.modBlock.pump
    · exact h.modBlock

theorem CanonMem.endRetirement {blk : Nat} {r : Retire} (h : CanonMem s) : CanonMem (s.endRetirement blk r) :=
  (h.upd (by rfl)).sendTile.tryEndBlock

theorem CanonMem.execRetirementComplete {blk : Nat} (h : CanonMem s) : CanonResult (execRetirementComplete blk s) := by
  unfold Machine.execRetirementComplete
  split
  · exact h
  · split
    · exact h
    · split
      · exact h
      · split
        · exact CanonMem.ite h (h.publish.upd (by dsimp only))
        · split
          · exact h
          · split
            · exact h.killLaunch
            · next e5 => exact (h.retireTile.of_eq e5 rfl).endRetirement

theorem CanonMem.recUnits {v : View} {t : Target} {l : List Nat} (h : CanonMem s) : CanonMem (s.recUnits v t l).2 := by
  induction l generalizing s with
  | nil => exact h
  | cons x xs ih =>
    unfold State.recUnits
    refine ih ?_
    split
    · exact h.beforeRead.l2See
    · exact h
    · exact h.portSeen.portLoad

theorem CanonMem.readRec {v : View} {a : W64} (h : CanonMem s) : CanonMem (s.readRec v a).2 := by
  unfold State.readRec
  split
  · exact h
  · split
    · exact h.recUnits.modCluster
    · exact h

theorem CanonMem.plane {c : Ctx} {base : BitVec 5} {xy : Operand} {c2 c3 : BitVec 6} {k : AccKind} {datum : List W64 → Nat → W32}
    {go_ : View → List W64 → List Nat → State → Effect} (h : CanonMem s)
    (hgo_ : ∀ (v : View) (l : List W64) (l' : List Nat) (t : State), CanonMem t → CanonEffect (go_ v l l' t)) :
    CanonEffect (c.plane base xy c2 c3 k datum s go_) := by
  unfold Ctx.plane
  split
  · dsimp only
    split
    · exact hgo_ _ _ _ _ h
    · split
      · trivial
      · split
        · trivial
        · split
          · trivial
          · split
            · trivial
            · refine CanonEffect.admitted ?_
              split
              · exact CanonEffect.admitted (h.touchTlb.readRec.watchedSized
                  (h.touchTlb.readRec.peerRead (hgo_ _ _ _ _ h.touchTlb.readRec.touchTlbs.touchTlbs)))
              · exact h.touchTlb.readRec.watchedSized (h.touchTlb.readRec.peerRead (hgo_ _ _ _ _ h.touchTlb.readRec.touchTlbs))
  · dsimp only
    split
    · exact hgo_ _ _ _ _ h
    · split
      · trivial
      · split
        · trivial
        · split
          · trivial
          · split
            · trivial
            · refine CanonEffect.admitted ?_
              split
              · exact CanonEffect.admitted (h.touchTlb.readRec.watchedSized
                  (h.touchTlb.readRec.peerRead (hgo_ _ _ _ _ h.touchTlb.readRec.touchTlbs.touchTlbs)))
              · exact h.touchTlb.readRec.watchedSized (h.touchTlb.readRec.peerRead (hgo_ _ _ _ _ h.touchTlb.readRec.touchTlbs))

theorem CanonGather.plane {g : Gather} {v : View} {pol : Policy} {ws : List W64} {co : List Nat} {lane : Nat} (h : CanonGather g) :
    CanonGather (g.plane v pol s ws co lane) := by
  unfold Gather.plane
  dsimp only
  split
  · exact h.load.load
  · exact h.load

theorem CanonMem.execLdp {pol : Policy} {d : BitVec 6} {base : BitVec 5} {xy : Operand} {c2 c3 : BitVec 6} {tl : Tail}
    (h : CanonMem s) : CanonResult (execLdp pol d base xy c2 c3 tl s) :=
  h.issueAsync fun _ _ ht => ht.plane fun _ _ _ _ hu => (hu.gathered.foldl fun _ _ hv => hv.plane).finishAccs

theorem CanonGather.planeStore {g : Gather} {v : View} {pol : Policy} {ws : List W64} {co : List Nat} {lane code : Nat}
    (h : CanonGather g) : CanonGather (g.planeStore v pol s ws co lane code) := by
  unfold Gather.planeStore
  dsimp only
  split
  · split
    · exact h.send
    · split
      · exact h.send
      · exact h.mem.l1Load.gathered.store
    · exact h.mem.portSeen.portLoad.gathered.store
  · exact h.store

theorem CanonMem.execStp {pol : Policy} {src : Dest} {base : BitVec 5} {xy : Operand} {c2 c3 : BitVec 6} {tl : Tail}
    (h : CanonMem s) : CanonResult (execStp pol src base xy c2 c3 tl s) :=
  h.issueAsync fun _ _ ht => ht.plane fun _ _ _ _ hu => (hu.raise.gather.foldl fun _ _ hv => hv.planeStore).finish

theorem CanonMem.engRead {v : View} {a : W64} {n : Nat} (h : CanonMem s) : CanonOk (·.2) (s.engRead v a n) := by
  unfold State.engRead
  split
  · trivial
  · exact h.touchTlb.beforeEngine.l2See
  · exact h.portSeen.portLoad
  · exact h

theorem CanonMem.portStoreNow {v : View} {m o n x : Nat} (h : CanonMem s) : CanonMem (s.portStoreNow v m o n x) := by
  unfold State.portStoreNow
  dsimp only
  split
  · exact h.portSeen.portStore
  · exact h.portSeen.portStore.performApWrites

theorem CanonMem.engWrite {v : View} {a : W64} {n x : Nat} (h : CanonMem s) : CanonOk id (s.engWrite v a n x) := by
  unfold State.engWrite
  split
  · trivial
  · exact h.touchTlb.l2See.storeBytes
  · exact h.portStoreNow
  · exact h.storeBytes

theorem CanonMem.engNibble {v : View} {a : W64} {hi : Bool} {x : Nat} (h : CanonMem s) : CanonOk id (s.engNibble v a hi x) := by
  unfold State.engNibble
  split
  · trivial
  · next e => exact (h.engRead.of_eq e rfl).engWrite

theorem CanonMem.engAdd {v : View} {job : Nat} {site : Site} {ident a : W64} {x : Nat} (h : CanonMem s) :
    CanonOk (·.2) (s.engAdd v job site ident a x) := by
  unfold State.engAdd
  split
  · trivial
  · exact h.upd rfl
  · exact h.upd rfl
  · trivial

theorem CanonMem.readCard {v : View} {l : List W64} (h : CanonMem s) : CanonSome (·.2) (s.readCard v l) := by
  induction l generalizing s with
  | nil => exact h
  | cons x xs ih =>
    unfold State.readCard
    split
    · trivial
    · dsimp only
      split
      · next e1 => exact (ih h.touchTlb.readRec).of_eq e1 rfl
      · trivial

theorem CanonMem.copyUnit {v : View} {j : CopyJob} {a : W64} {n : Nat} (h : CanonMem s) : CanonOk (·.2) (s.copyUnit v j a n) := by
  unfold State.copyUnit
  split
  · next e =>
    dsimp only
    split
    · next e1 => exact h.engRead.of_eq e1 rfl
    · trivial
    · exact h.engRead.of_eq e rfl
  · dsimp only
    split
    · next e1 => exact h.engRead.of_eq e1 rfl
    · trivial
    · trivial

theorem CanonMem.copyRead {v : View} {j : CopyJob} {a : W64} {n : Nat} (h : CanonMem s) : CanonOk (·.2.2) (s.copyRead v j a n) := by
  unfold State.copyRead
  split
  · exact h
  · split
    · trivial
    · next e1 => exact h.copyUnit.of_eq e1 rfl

theorem CanonMem.copySource {v : View} {j : CopyJob} {c : List Nat} (h : CanonMem s) : CanonOk (·.2.2) (s.copySource v j c) := by
  unfold State.copySource
  split
  · exact h
  · dsimp only
    split
    · trivial
    · next e1 =>
      split
      · split
        · trivial
        · next e3 =>
          split
          · exact (h.copyRead.of_eq e1 rfl).copyRead.of_eq e3 rfl
          · exact (h.copyRead.of_eq e1 rfl).copyRead.of_eq e3 rfl
      · exact h.copyRead.of_eq e1 rfl

theorem CanonMem.copyExact {v : View} {j : CopyJob} {c : List Nat} (h : CanonMem s) : CanonOk (·.2.2) (s.copyExact v j c) := by
  unfold State.copyExact
  split
  · trivial
  · next e => exact h.copySource.of_eq e rfl

theorem CanonMem.copyExacts {v : View} {j : CopyJob} {l : List (List Nat)} (h : CanonMem s) :
    CanonOk (·.2.2) (s.copyExacts v j l) := by
  induction l generalizing s j with
  | nil => exact h
  | cons x xs ih =>
    unfold State.copyExacts
    split
    · trivial
    · next e =>
      split
      · trivial
      · next e1 => exact (ih (h.copyExact.of_eq e rfl)).of_eq e1 rfl

theorem CanonMem.copyBlock {v : View} {j : CopyJob} {b : List Nat} (h : CanonMem s) : CanonOk (·.2) (s.copyBlock v j b) := by
  unfold State.copyBlock
  split
  · exact h
  · dsimp only
    split
    · trivial
    · next e1 => exact h.copyExacts.of_eq e1 rfl

theorem CanonMem.copyCode {v : View} {j : CopyJob} {p : List Nat} (h : CanonMem s) : CanonOk (·.2.2) (s.copyCode v j p) := by
  unfold State.copyCode
  split
  · exact h
  · split
    · dsimp only
      split
      · exact h
      · split
        · trivial
        · next e3 => exact h.copyBlock.of_eq e3 rfl
    · split
      · split
        · dsimp only
          split
          · exact h
          · trivial
        · next e3 =>
          dsimp only
          split
          · exact h
          · exact h.copySource.of_eq e3 rfl
      · split
        · dsimp only
          split
          · exact h
          · trivial
        · next e3 =>
          dsimp only
          split
          · exact h
          · exact h.copyExact.of_eq e3 rfl

theorem CanonMem.copyScale {v : View} {j : CopyJob} {b : List Nat} (h : CanonMem s) : CanonOk (·.2.2) (s.copyScale v j b) := by
  unfold State.copyScale
  split
  · exact h
  · split
    · exact h
    · split
      · exact h
      · split
        · split
          · trivial
          · next e4 => exact h.copyBlock.of_eq e4 rfl
        · split
          · dsimp only
            split
            · exact h
            · split
              · trivial
              · next e6 => exact h.copyRead.of_eq e6 rfl
          · dsimp only
            split
            · exact h
            · split
              · trivial
              · next e6 => exact h.copyRead.of_eq e6 rfl

theorem CanonMem.copyWritten {v : View} {j : CopyJob} {q : List Nat} (h : CanonMem s) : CanonOk (·.2.2) (s.copyWritten v j q) := by
  unfold State.copyWritten
  split
  · exact h
  · split
    · exact h
    · split
      · split
        · trivial
        · next e3 => exact h.copyScale.of_eq e3 rfl
      · exact h

theorem CanonMem.copyVals {v : View} {x : CopyJob} {l : List (List Nat)} (h : CanonMem s) : CanonOk (·.2.2) (s.copyVals v x l) := by
  induction l generalizing s x with
  | nil => exact h
  | cons x xs ih =>
    unfold State.copyVals
    split
    · trivial
    · next e =>
      split
      · trivial
      · next e1 => exact (ih (h.copyWritten.of_eq e rfl)).of_eq e1 rfl

theorem CanonMem.copySum {v : View} {j : CopyJob} {cols : Bool} {i : Nat} (h : CanonMem s) :
    CanonOk (·.2.2) (s.copySum v j cols i) := by
  unfold State.copySum
  split
  · trivial
  · next e => exact h.copyVals.of_eq e rfl

theorem CanonMem.copyAdd {v : View} {j : CopyJob} {word x : Nat} (h : CanonMem s) : CanonOk (·.2) (s.copyAdd v j word x) := by
  unfold State.copyAdd
  split
  · exact h
  · split
    · trivial
    · next e1 => exact h.engAdd.of_eq e1 rfl

theorem CanonMem.engineErr {v : View} {launch : Nat} {site : Site} {e1 : EngErr} (h : CanonMem s) :
    CanonMem (s.engineErr v launch site e1) := by
  unfold State.engineErr
  split
  · exact h
  · exact h.touchTlb.killLaunch

theorem CanonMem.emptyCopy {v : View} {j : CopyJob} (h : CanonMem s) : CanonMem (s.emptyCopy v j) := by
  unfold State.emptyCopy
  split
  · exact h.engineErr
  · next e =>
    split
    · exact (h.copyAdd.of_eq e rfl).engineErr
    · next e1 => exact ((h.copyAdd.of_eq e rfl).copyAdd.of_eq e1 rfl).traceEngine

theorem CanonMem.acceptCopy {c : Ctx} {v : View} {j : CopyJob} {d : Option (BitVec 5)} {tl : Tail} (h : CanonMem s) :
    CanonMem (s.acceptCopy c v j d tl) := by
  unfold State.acceptCopy
  split
  · exact (h.upd (by rfl)).modGroup.takeSeq.emptyCopy
  · refine (CanonMem.upd ?_ (by dsimp only)).clearPresent
    exact (h.upd (by rfl)).modGroup.takeSeq

theorem CanonMem.execXpushXc {d : Option (BitVec 5)} {n : BitVec 5} {tl : Tail} (h : CanonMem s) :
    CanonResult (execXpushXc d n tl s) := by
  unfold Machine.execXpushXc
  refine h.issueAsync fun _ _ ht => ?_
  split
  · trivial
  · split
    · trivial
    · dsimp only
      split
      · trivial
      · split
        · trivial
        · split
          · trivial
          · split
            · trivial
            · next e6 =>
              split
              · trivial
              · split
                · trivial
                · split
                  · trivial
                  · exact (ht.readCard.of_eq e6 rfl).acceptCopy

theorem CanonMem.putCopy {j : CopyJob} (h : CanonMem s) : CanonMem (s.putCopy j) := h.upd rfl

theorem CanonMem.copyAhead {v : View} {x : CopyJob} {l : List (W64 × Nat)} (h : CanonMem s) : CanonMem (s.copyAhead v x l).2 := by
  induction l generalizing s x with
  | nil => exact h
  | cons x xs ih =>
    unfold State.copyAhead
    dsimp only
    split
    · exact ih h.pick
    · split
      · next e1 => exact ih (h.pick.copyRead.of_eq e1 rfl)
      · exact ih h.pick

theorem CanonMem.execCopyJobStart {job engine : Nat} (h : CanonMem s) : CanonResult (execCopyJobStart job engine s) := by
  unfold Machine.execCopyJobStart
  split
  · exact h
  · exact CanonMem.ite h h.copyAhead.putCopy

theorem CanonMem.copyItem {v : View} {j : CopyJob} {x : CopyItem} (h : CanonMem s) : CanonOk (·.2.2) (s.copyItem v j x) := by
  unfold State.copyItem
  split
  · exact h.copyCode
  · exact h.copyScale
  · exact h.copySum

theorem CanonMem.landItems {v : View} {x : CopyJob} {l : List (W64 × CopyItem)} (h : CanonMem s) :
    CanonOk (·.2) (s.landItems v x l) := by
  induction l generalizing s x with
  | nil => exact h
  | cons x xs ih =>
    unfold State.landItems
    split
    · trivial
    · next e =>
      split
      · split
        · dsimp only
          split
          · trivial
          · next e3 => exact ih ((h.copyItem.of_eq e rfl).engNibble.of_eq e3 rfl)
        · dsimp only
          split
          · trivial
          · next e3 => exact ih ((h.copyItem.of_eq e rfl).engWrite.of_eq e3 rfl)
      · dsimp only
        split
        · trivial
        · next e2 => exact ih ((h.copyItem.of_eq e rfl).engWrite.of_eq e2 rfl)
      · dsimp only
        split
        · trivial
        · next e2 => exact ih ((h.copyItem.of_eq e rfl).engWrite.of_eq e2 rfl)

theorem CanonMem.settleLines {v : View} {j : CopyJob} (h : CanonMem s) : CanonMem (s.settleLines v j) := h.putCopy.setPresent

theorem CanonMem.execGranuleLanded {job : Nat} (h : CanonMem s) : CanonResult (execGranuleLanded job s) := by
  unfold Machine.execGranuleLanded
  split
  · exact h
  · dsimp only
    split
    · exact h
    · split
      · exact h.engineErr
      · next e2 =>
        split
        · exact (h.pick.copyAhead.landItems.of_eq e2 rfl).settleLines
        · split
          · exact h.engineErr
          · next e4 => exact ((h.pick.copyAhead.landItems.of_eq e2 rfl).copyAdd.of_eq e4 rfl).settleLines

theorem CanonMem.execCopyJobComplete {job : Nat} (h : CanonMem s) : CanonResult (execCopyJobComplete job s) := by
  unfold Machine.execCopyJobComplete
  split
  · exact h
  · split
    · exact h
    · split
      · exact h.engineErr
      · next e2 => exact ((h.copyAdd.of_eq e2 rfl).upd (by rfl)).traceEngine.tryEndBlocks

theorem CanonMem.execMtest {op : MTest} {d : Dest} {a : Operand} {m : MaskOp} {tl : Tail} (h : CanonMem s) :
    CanonResult (execMtest op d a m tl s) := h.issueMember fun _ _ ht => ht.put

theorem CanonMem.execMbits {d : Dest} {a : Operand} {m : MaskOp} {tl : Tail} (h : CanonMem s) : CanonResult (execMbits d a m tl s) :=
  h.issueMember fun _ _ ht => ht.put

theorem CanonMem.execMfold {op : FoldOp} {ty : FoldTy} {d : Dest} {a : Operand} {m : MaskOp} {tl : Tail} (h : CanonMem s) :
    CanonResult (execMfold op ty d a m tl s) := h.issueMember fun _ _ ht => ht.put

theorem CanonMem.execScan {op : FoldOp} {ty : FoldTy} {ex : Bool} {d : Dest} {a : Operand} {m : MaskOp} {tl : Tail}
    (h : CanonMem s) : CanonResult (execScan op ty ex d a m tl s) := h.issueMember fun _ _ ht => ht.put

theorem CanonMem.execLperm {mode : LpMode} {d : Dest} {a b : Operand} {m : MaskOp} {tl : Tail} (h : CanonMem s) :
    CanonResult (execLperm mode d a b m tl s) := h.issueMember fun _ _ ht => ht.put

theorem CanonMem.execMpeers {wide : Bool} {d : Dest} {a : Operand} {m : MaskOp} {tl : Tail} (h : CanonMem s) :
    CanonResult (execMpeers wide d a m tl s) := h.issueMember fun _ _ ht => ht.put

theorem CanonMem.execMlow {d : Dest} {m : MaskOp} {tl : Tail} (h : CanonMem s) : CanonResult (execMlow d m tl s) :=
  h.issueMember fun _ _ ht => ht.put

theorem CanonMem.execLsync {m : MaskOp} {tl : Tail} (h : CanonMem s) : CanonResult (execLsync m tl s) :=
  h.issueMember fun _ _ ht => ht

theorem CanonMem.execTdec {w : BitVec 2} {k2 hi : Bool} {fmt : TdecFmt} {d : Dest} {a : Operand} {tl : Tail} (h : CanonMem s) :
    CanonResult (execTdec w k2 hi fmt d a tl s) := h.alu32

theorem CanonMem.execTdec2 {w : BitVec 2} {k2 hi : Bool} {fmt : Tdec2Fmt} {d : Dest} {a : Operand} {tl : Tail} (h : CanonMem s) :
    CanonResult (execTdec2 w k2 hi fmt d a tl s) := h.alu32

theorem CanonMem.aluEn {a : Operand} {tl : Tail} {f : LaneMask → LaneMask → LaneMask} (h : CanonMem s) :
    CanonResult (aluEn a tl f s) := h.issue fun _ _ ht => ht.put

theorem CanonMem.execEnsave {d : BitVec 5} {tl : Tail} (h : CanonMem s) : CanonResult (execEnsave d tl s) :=
  h.issue fun _ _ ht => ht.put

theorem CanonMem.execEnrest {a : Operand} {tl : Tail} (h : CanonMem s) : CanonResult (execEnrest a tl s) := h.aluEn

theorem CanonMem.execEnand {a : Operand} {tl : Tail} (h : CanonMem s) : CanonResult (execEnand a tl s) := h.aluEn

theorem CanonMem.execEnor {a : Operand} {tl : Tail} (h : CanonMem s) : CanonResult (execEnor a tl s) := h.aluEn

theorem CanonMem.execEnandn {a : Operand} {tl : Tail} (h : CanonMem s) : CanonResult (execEnandn a tl s) := h.aluEn

theorem CanonMem.execCmget {d : BitVec 6} {tl : Tail} (h : CanonMem s) : CanonResult (execCmget d tl s) :=
  h.issue fun _ _ ht => ht.put

theorem CanonMem.execCmset {a : Operand} {tl : Tail} (h : CanonMem s) : CanonResult (execCmset a tl s) := h.aluCm

theorem CanonMem.execSetrt {n : BitVec 3} {e1 : BitVec 16} {tl : Tail} (h : CanonMem s) : CanonResult (execSetrt n e1 tl s) :=
  h.issue fun _ _ ht => ht.put

theorem CanonMem.execSetab {a b cc : Operand} {tl : Tail} (h : CanonMem s) : CanonResult (execSetab a b cc tl s) := by
  unfold Machine.execSetab
  refine h.issue fun _ _ ht => ?_
  split
  · trivial
  · split
    · trivial
    · dsimp only
      split
      · trivial
      · split
        · trivial
        · split
          · trivial
          · exact ht.modGroup

theorem CanonMem.execXpushXe {d : Option (BitVec 5)} {n : BitVec 5} {tl : Tail} (h : CanonMem s) :
    CanonResult (execXpushXe d n tl s) := by
  unfold Machine.execXpushXe
  refine h.issueAsync fun _ _ ht => ?_
  split
  · trivial
  · split
    · trivial
    · dsimp only
      split
      · trivial
      · split
        · trivial
        · split
          · trivial
          · split
            · trivial
            · next e6 =>
              split
              · trivial
              · split
                · trivial
                · exact ((ht.readCard.of_eq e6 rfl).upd (by rfl)).modGroup.takeSeq

theorem CanonMem.encTargets {v : View} {j : EncJob} {l : List (List Nat)} (h : CanonMem s) : CanonOk (·.2) (s.encTargets v j l) := by
  induction l generalizing s with
  | nil => exact h
  | cons x xs ih =>
    unfold State.encTargets
    split
    · dsimp only
      split
      · trivial
      · next e1 => exact (ih h).of_eq e1 rfl
    · split
      · trivial
      · next e1 =>
        dsimp only
        split
        · trivial
        · next e2 => exact (ih (h.engRead.of_eq e1 rfl)).of_eq e2 rfl

theorem CanonMem.encBlocks {v : View} {j : EncJob} {n : Nat} {l : List (List Nat)} (h : CanonMem s) :
    CanonOk (·.2) (s.encBlocks v j n l) := by
  induction l generalizing s n with
  | nil => exact h
  | cons x xs ih =>
    unfold State.encBlocks
    split
    · trivial
    · next e =>
      split
      · trivial
      · next e1 => exact (ih (h.encTargets.of_eq e rfl)).of_eq e1 rfl

theorem CanonMem.encSome {v : View} {l : List (W64 × List Byte)} (h : CanonMem s) : CanonOk (·.2) (s.encSome v l) := by
  induction l generalizing s with
  | nil => exact h
  | cons x xs ih =>
    unfold State.encSome
    dsimp only
    split
    · split
      · trivial
      · next e1 => exact (ih h.pick).of_eq e1 rfl
    · split
      · trivial
      · next e1 => exact ih (h.pick.engWrite.of_eq e1 rfl)

theorem CanonMem.encAll {v : View} {l : List (W64 × List Byte)} (h : CanonMem s) : CanonOk id (s.encAll v l) := by
  induction l generalizing s with
  | nil => exact h
  | cons x xs ih =>
    unfold State.encAll
    split
    · trivial
    · next e => exact ih (h.engWrite.of_eq e rfl)

theorem CanonMem.execEncoderJob {die : Nat} (h : CanonMem s) : CanonResult (execEncoderJob die s) := by
  unfold Machine.execEncoderJob
  split
  · exact h
  · split
    · exact h
    · dsimp only
      split
      · exact h.engineErr
      · next e2 =>
        split
        · exact h.engineErr
        · next e3 => exact ((h.encBlocks.of_eq e2 rfl).encSome.of_eq e3 rfl).upd rfl

theorem CanonMem.endEncode {j : EncJob} {n : Nat} (h : CanonMem s) : CanonMem (s.endEncode j n) :=
  (h.upd (by rfl)).traceEngine.modCore

theorem CanonMem.finishEncode {j : EncJob} {left : List (W64 × List Byte)} {n : Nat} (h : CanonMem s) :
    CanonOk id (s.finishEncode j left n) := by
  unfold State.finishEncode
  split
  · trivial
  · next e =>
    split
    · exact (h.encAll.of_eq e rfl).endEncode
    · split
      · trivial
      · next e2 => exact ((h.encAll.of_eq e rfl).engAdd.of_eq e2 rfl).upd rfl

theorem CanonMem.execEncoderJobComplete {job : Nat} (h : CanonMem s) : CanonResult (execEncoderJobComplete job s) := by
  unfold Machine.execEncoderJobComplete
  split
  · exact h
  · split
    · exact h
    · split
      · exact h.engineErr
      · next e2 => exact h.finishEncode.of_eq e2 rfl
    · exact CanonMem.ite h h.endEncode

theorem CanonMem.execXstat {q : EngineQ} {d : BitVec 5} (h : CanonMem s) : CanonResult (execXstat q d s) :=
  h.issue fun _ _ ht => ht.put

theorem CanonMem.execAsyncEngineFault {e1 : EngineRef} {addr : W64} (h : CanonMem s) :
    CanonResult (execAsyncEngineFault e1 addr s) := by
  unfold Machine.execAsyncEngineFault
  split
  · exact h
  · split
    · exact h.poolFault
    · split
      · exact h.killLaunch
      · exact h

theorem CanonMem.meetError {a : W64} {x : ErrorAccess} (h : CanonMem s) : CanonMem (s.meetError a x) := by
  unfold State.meetError
  split
  · split
    · exact h.killLaunch
    · exact h
  · split
    · exact h.killLaunch
    · exact h
  · exact h.poolFault
  · split
    · exact CanonMem.ite h.killLaunch h.killLaunch
    · exact h
  · split
    · exact h.failCommand
    · exact h
  · exact h.killLaunch

theorem CanonMem.meetErrors {a : W64} {l : List ErrorAccess} (h : CanonMem s) : CanonMem (s.meetErrors a l) := by
  induction l generalizing s with
  | nil => exact h
  | cons x xs ih => exact ih h.meetError

theorem CanonMem.execUncorrectableError {u : MemUnit} {die loc : Nat} {accesses : List ErrorAccess} (h : CanonMem s) :
    CanonResult (execUncorrectableError u die loc accesses s) := h.meetErrors

theorem CanonMem.execSoftErrorCorrected {u : MemUnit} {die loc : Nat} (h : CanonMem s) :
    CanonResult (execSoftErrorCorrected u die loc s) := h.modDie.record

theorem CanonMem.modCtx {core n : Nat} {f : MatCtx → MatCtx} (h : CanonMem s) : CanonMem (s.modCtx core n f) := h.modCore

theorem CanonMem.endOps {l : List Nat} (h : CanonMem s) : CanonMem (s.endOps l) := by
  induction l generalizing s with
  | nil => exact h
  | cons x xs ih =>
    unfold State.endOps
    split
    · exact ih h
    · exact ih (h.upd (by rfl)).releaseSlot

theorem CanonMem.readRecs {v : View} {o : MatOp} (h : CanonMem s) : CanonMem (s.readRecs v o).2 := by
  unfold State.readRecs
  split
  · exact h
  · exact h.touchTlb.readRec
  · exact h.touchTlb.readRec.touchTlb.readRec

/-- What a fire's check leaves has memory in its form. -/
def CanonFire : FireCheck → Prop
  | .ok _ s => CanonMem s
  | _ => True

theorem CanonFire.of_ok {r : FireCheck} {o : MatOp} {t : State} (h : CanonFire r) (e : r = .ok o t) : CanonMem t := by
  rw [e] at h
  exact h

theorem CanonMem.fireCheck {v : View} {o : MatOp} (h : CanonMem s) : CanonFire (s.fireCheck v o) := by
  unfold State.fireCheck
  dsimp only
  split
  · trivial
  · split
    · trivial
    · split
      · trivial
      · split
        · trivial
        · split
          · trivial
          · split
            · trivial
            · split
              · trivial
              · exact h.readRecs

theorem CanonMem.fires {c : Ctx} {mask : LaneMask} {o : MatOp} {go_ : MatOp → State → State} (h : CanonMem s)
    (hgo_ : ∀ o t, CanonMem t → CanonMem (go_ o t)) : CanonEffect (c.fires mask o s go_) := by
  unfold Ctx.fires
  split
  · trivial
  · trivial
  · exact h.touchTlb.killLaunch
  · next e => exact hgo_ _ _ (h.fireCheck.of_ok e)

theorem CanonEffect.withCtx {c : Ctx} {go_ : Nat → MatCtx → Effect} (hgo_ : ∀ (n : Nat) (x : MatCtx), CanonEffect (go_ n x)) :
    CanonEffect (c.withCtx s go_) := by
  unfold Ctx.withCtx
  split
  · trivial
  · exact hgo_ _ _

theorem CanonMem.signs {c : Ctx} {n size : Nat} {b : Nat → W32} {slot : BitVec 3} {k : Nat} {x : MatCtx} (h : CanonMem s) :
    CanonEffect (c.signs n size b slot k x s) := by
  unfold Ctx.signs
  dsimp only
  split
  · split
    · trivial
    · split
      · split
        · exact h.launchAsync.modCtx
        · split
          · exact h.launchAsync.modCtx
          · exact h.fires fun _ _ ht => ht.launchAsync.modCtx.endOps
      · exact h.launchAsync.modCtx
  · split
    · trivial
    · split
      · split
        · exact h.launchAsync.modCtx
        · split
          · exact h.launchAsync.modCtx
          · exact h.fires fun _ _ ht => ht.launchAsync.modCtx.endOps
      · exact h.launchAsync.modCtx

theorem CanonMem.execSign {n : BitVec 3} {a b : Operand} {slot : BitVec 3} (h : CanonMem s) :
    CanonResult (execSign n a b slot s) := by
  unfold Machine.execSign
  refine h.issueAsync fun _ _ ht => ?_
  split
  · trivial
  · split
    · exact ht.launchAsync
    · refine CanonEffect.withCtx fun _ _ => ?_
      dsimp only
      split
      · trivial
      · exact ht.signs

theorem CanonMem.attach {c : Ctx} {k : Nat} {tl : Tail} {o : MatOp} (h : CanonMem s) : CanonMem (s.attach c k tl o) := by
  unfold State.attach
  refine CanonMem.modCtx ?_
  split
  · exact h.upd rfl
  · exact h.launchAsync

theorem CanonMem.tileOp {kind : MatKind} {cv : CvAttach} {set sat : Bool} {rnd : Rnd} {acc : AccField} {b cc : Option (BitVec 5)}
    {tl : Tail} (h : CanonMem s) : CanonResult (tileOp kind cv set sat rnd acc b cc tl s) := by
  unfold Machine.tileOp
  refine h.issueAsync fun _ _ ht => CanonEffect.withCtx fun _ _ => ?_
  split
  · dsimp only
    split
    · trivial
    · exact ht.fires fun _ _ hu => hu.attach
  · dsimp only
    split
    · trivial
    · split
      · trivial
      · split
        · exact ht.fires fun _ _ hu => hu.attach.modCtx.endOps
        · exact ht.attach.modCtx

theorem CanonMem.execMma {cv : BitVec 3} {set sat : Bool} {acc : AccField} {b c : BitVec 5} {tl : Tail} (h : CanonMem s) :
    CanonResult (execMma cv set sat acc b c tl s) := h.tileOp

theorem CanonMem.execMmas {cv : BitVec 3} {set sat : Bool} {acc : AccField} {b c : BitVec 5} {tl : Tail} (h : CanonMem s) :
    CanonResult (execMmas cv set sat acc b c tl s) := h.tileOp

theorem CanonMem.execMmt {cv : BitVec 3} {set sat : Bool} {acc : AccField} {b c : BitVec 5} {tl : Tail} (h : CanonMem s) :
    CanonResult (execMmt cv set sat acc b c tl s) := h.tileOp

theorem CanonMem.execMzero {cv : CvAttach} {acc : AccField} {tl : Tail} (h : CanonMem s) : CanonResult (execMzero cv acc tl s) :=
  h.tileOp

theorem CanonMem.execMld {cv : CvAttach} {acc : AccField} {b : BitVec 5} {tl : Tail} (h : CanonMem s) :
    CanonResult (execMld cv acc b tl s) := h.tileOp

theorem CanonMem.execMdrain {cv : CvAttach} {rnd : Rnd} {acc : AccField} {b : BitVec 5} {tl : Tail} (h : CanonMem s) :
    CanonResult (execMdrain cv rnd acc b tl s) := h.tileOp

theorem CanonMem.execMdraint {cv : CvAttach} {rnd : Rnd} {acc : AccField} {b c : BitVec 5} {tl : Tail} (h : CanonMem s) :
    CanonResult (execMdraint cv rnd acc b c tl s) := h.tileOp

theorem CanonMem.execMchk {cv : CvAttach} {acc : AccField} {b c : BitVec 5} {tl : Tail} (h : CanonMem s) :
    CanonResult (execMchk cv acc b c tl s) := h.tileOp

theorem CanonMem.execMrd {n : BitVec 3} {d : BitVec 6} {acc : AccField} {c0 : Operand} {tl : Tail} (h : CanonMem s) :
    CanonResult (execMrd n d acc c0 tl s) := by
  unfold Machine.execMrd
  refine h.issueAsync fun _ _ ht => CanonEffect.withCtx fun _ _ => ?_
  dsimp only
  split
  · trivial
  · exact ht.launchAsync

theorem CanonMem.execMstat {item : MstatItem} {tl : Tail} (h : CanonMem s) : CanonResult (execMstat item tl s) := by
  unfold Machine.execMstat
  refine h.issue fun _ _ ht => CanonEffect.withCtx fun _ _ => ?_
  split
  · exact ht.put
  · exact ht.put
  · exact ht.put
  · exact ht.put.modCtx
  · dsimp only
    split
    · trivial
    · exact ht.modCtx

theorem CanonMem.cancelCv {core k n : Nat} (h : CanonMem s) : CanonMem (s.cancelCv core k n) := h.modCtx.endOps

theorem CanonMem.execMrel {n : BitVec 3} (h : CanonMem s) : CanonResult (execMrel n s) :=
  h.issue fun _ _ ht => CanonEffect.withCtx fun _ _ => ht.cancelCv

theorem CanonMem.copyBytes {src : State} {l : List (Nat × Nat)} (h : CanonMem s) : CanonMem (s.copyBytes src l) := by
  induction l generalizing s with
  | nil => exact h
  | cons x xs ih => exact ih h.storeBytes

theorem CanonMem.matReads {core ctx : Nat} {v : View} {o : MatOp} (h : CanonMem s) : CanonMem (s.matReads core ctx v o) := by
  unfold State.matReads
  exact (h.foldl fun _ _ ht => ht.beforeRead.l2See).modCtx

theorem CanonMem.matWrites {core ctx : Nat} {v : View} {x : MatCtx} {o : MatOp} (h : CanonMem s) :
    CanonMem (s.matWrites core ctx v x o) := h.copyBytes.modCtx

theorem CanonMem.matProgress {core ctx : Nat} {l : List MatOp} (h : CanonMem s) : CanonMem (s.matProgress core ctx l) := by
  induction l generalizing s with
  | nil => exact h
  | cons x xs ih =>
    unfold State.matProgress
    split
    · dsimp only
      split
      · exact h
      · exact ih h
    · split
      · dsimp only
        split
        · exact h
        · exact ih h.matReads
      · split
        · dsimp only
          split
          · exact h
          · exact ih h.matWrites
        · dsimp only
          split
          · exact h
          · exact ih h

theorem CanonMem.execMatrixOpStart {core ctx : Nat} (h : CanonMem s) : CanonResult (execMatrixOpStart core ctx s) := by
  unfold Machine.execMatrixOpStart
  split
  · exact h
  · dsimp only
    split
    · exact h.matProgress
    · exact CanonMem.ite h.matProgress (CanonMem.ite h.modCtx.modCore h.modCtx)

theorem CanonMem.reportRows {site : Site} {n : Nat} (h : CanonMem s) : CanonMem (s.reportRows site n) := by
  induction n generalizing s with
  | zero => exact h
  | succ n ih => exact ih h.recordAt

theorem CanonMem.endCheck {core ctx : Nat} {x : MatCtx} {o : MatOp} {r : LaneMask × LaneMask} (h : CanonMem s) :
    CanonMem (s.endCheck core ctx x o r) := CanonMem.ite h.modCtx.reportRows.modGroup h.modCtx.reportRows

theorem CanonMem.runOp {v : View} {core ctx : Nat} {x : MatCtx} {o : MatOp} (h : CanonMem s) : CanonMem (s.runOp v core ctx x o) := by
  unfold State.runOp
  split
  · exact h.modCtx
  · exact h.modCtx
  · exact h.copyBytes
  · exact h.copyBytes
  · exact h.endCheck
  · exact h.modCtx

theorem CanonMem.execMatrixOpComplete {core ctx : Nat} (h : CanonMem s) : CanonResult (execMatrixOpComplete core ctx s) := by
  unfold Machine.execMatrixOpComplete
  dsimp only
  split
  · split
    · exact h
    · split
      · exact h.touchTlb.killLaunch
      · exact (h.foldl fun _ _ ht => ht.beforeRead.l2See).runOp.modCtx.endOps
  · exact h

theorem CanonMem.execMatrixCheckTrap {gid : Nat} (h : CanonMem s) : CanonResult (execMatrixCheckTrap gid s) := by
  unfold Machine.execMatrixCheckTrap
  split
  · exact h
  · split
    · exact CanonMem.ite h h.setGroup.takeTrap
    · exact h

theorem CanonMem.cancelAll {core k : Nat} {l : List Nat} (h : CanonMem s) : CanonMem (s.cancelAll core k l) := by
  induction l generalizing s with
  | nil => exact h
  | cons x xs ih => exact ih h.cancelCv

theorem CanonMem.execMatrixContextEnd {blk : Nat} (h : CanonMem s) : CanonResult (execMatrixContextEnd blk s) := by
  unfold Machine.execMatrixContextEnd
  split
  · exact h
  · split
    · exact h
    · exact CanonMem.ite h (CanonMem.ite h.cancelAll h.cancelAll.modCore.modBlock.tryEndBlock)

theorem CanonMem.execCsrr {d : Dest} {csr : BitVec 24} (h : CanonMem s) : CanonResult (execCsrr d csr s) :=
  h.issueIf fun _ _ ht => ht.put

theorem CanonMem.execCsrw {csr : BitVec 24} {a : Operand} (h : CanonMem s) : CanonResult (execCsrw csr a s) := by
  unfold Machine.execCsrw
  refine h.issueIf fun _ _ ht => ?_
  split
  · exact ht.put
  · exact ht.put

theorem CanonMem.note {q : Nat} {ws : List W64} (h : CanonMem s) : CanonMem (s.note q ws) := CanonMem.ite h.modQueue h.postEvent

theorem CanonMem.execSyscNote {a : Operand} {tl : Tail} (h : CanonMem s) : CanonResult (execSyscNote a tl s) :=
  h.issue fun _ _ ht => ht.note.addHash

theorem CanonMem.execSyscKill {a : Operand} {tl : Tail} (h : CanonMem s) : CanonResult (execSyscKill a tl s) :=
  h.issueAsync fun _ _ ht => ht.killLaunch

theorem CanonMem.execDbgr {d : BitVec 5} {a : Tailed Operand} (h : CanonMem s) : CanonResult (execDbgr d a s) := by
  unfold Machine.execDbgr
  refine h.issueIf fun _ _ ht => ?_
  dsimp only
  split
  · trivial
  · exact ht.put

theorem CanonMem.execDbgw {a : Operand} {b : Tailed Operand} (h : CanonMem s) : CanonResult (execDbgw a b s) := by
  unfold Machine.execDbgw
  refine h.issueIf fun _ _ ht => ?_
  dsimp only
  split
  · trivial
  · exact ht.put

theorem CanonMem.iinvWord {v : View} {lo hi w : Nat} (h : CanonMem s) : CanonMem (s.iinvWord v lo hi w) := by
  unfold State.iinvWord
  split
  · exact h
  · exact h.cleanLine.performFirst.modCore

theorem CanonMem.iinvWords {v : View} {lo hi w n : Nat} (h : CanonMem s) : CanonMem (s.iinvWords v lo hi w n) := by
  induction n generalizing s w with
  | zero => exact h
  | succ n ih => exact ih h.iinvWord

theorem CanonMem.execIinv {a : BitVec 5} {b : Tailed (BitVec 5)} (h : CanonMem s) : CanonResult (execIinv a b s) := by
  unfold Machine.execIinv
  refine h.issueIf fun _ _ ht => ?_
  dsimp only
  split
  · exact ht
  · split
    · trivial
    · split
      · trivial
      · exact ht.iinvWords

theorem CanonMem.onData {q c : Nat} {pa : W64} {n : Nat} {f : List W64 → Except CmdErr State} (h : CanonMem s)
    (hf : ∀ l, CanonOk id (f l)) : CanonResult (s.onData q c pa n f) := by
  unfold State.onData
  refine h.onCmd fun _ => ?_
  split
  · exact h.failCommand
  · split
    · exact h.failCommand
    · next e => exact ((hf _).of_eq e rfl).completeCmd

theorem CanonMem.setSampling {die n m : Nat} (h : CanonMem s) : CanonMem (s.setSampling die n m) := by
  unfold State.setSampling
  exact h.modDie.upd (by dsimp only)

theorem CanonMem.execDebugSampling {q c : Nat} {k1 k2 : W64} (h : CanonMem s) : CanonResult (execDebugSampling q c k1 k2 s) := by
  unfold Machine.execDebugSampling
  refine h.onData fun _ => ?_
  dsimp only
  split
  · exact h.setSampling
  · trivial

theorem CanonMem.execDebugRing {q c : Nat} {k1 k2 : W64} (h : CanonMem s) : CanonResult (execDebugRing q c k1 k2 s) := by
  unfold Machine.execDebugRing
  refine h.onData fun _ => ?_
  split
  · trivial
  · exact h.store64.store64.store64.modDie

theorem CanonMem.execDebugBreakpoints {q c : Nat} {k1 k2 : W64} (h : CanonMem s) :
    CanonResult (execDebugBreakpoints q c k1 k2 s) := by
  unfold Machine.execDebugBreakpoints
  refine h.onData fun _ => ?_
  split
  · trivial
  · split
    · trivial
    · exact h.modCore

theorem CanonMem.execDebugPredicate {q c : Nat} {k1 k2 : W64} (h : CanonMem s) : CanonResult (execDebugPredicate q c k1 k2 s) :=
  h.onData fun _ => h.modDie

theorem CanonMem.execDebugL2Watch {q c : Nat} {k1 k2 : W64} (h : CanonMem s) : CanonResult (execDebugL2Watch q c k1 k2 s) := by
  unfold Machine.execDebugL2Watch
  refine h.onData fun _ => ?_
  split
  · trivial
  · exact h.modDie

theorem CanonMem.debugHalted {gid : Nat} {g : Group} (h : CanonMem s) : CanonMem (s.debugHalted gid g) := h.setGroup.enterDebug

theorem CanonMem.execDebugResume {q c : Nat} {k1 _k2 : W64} (h : CanonMem s) : CanonResult (execDebugResume q c k1 _k2 s) := by
  unfold Machine.execDebugResume
  refine h.onCmd fun _ => ?_
  split
  · exact h.failCommand
  · split
    · exact h.completeCmd
    · exact (CanonMem.ite h.pick.setGroup h.pick.debugHalted).completeCmd

/-- A write of any of the fields keeps memory in its form. -/
def CanonFields (l : List ImageField) : Prop := ∀ f ∈ l, ∀ n s, CanonMem s → CanonMem (f.put n s)

theorem CanonFields.append {l k : List ImageField} (hl : CanonFields l) (hk : CanonFields k) : CanonFields (l ++ k) :=
  fun f hf => (List.mem_append.1 hf).elim (hl f) (hk f)

theorem CanonFields.nil : CanonFields [] := fun _ hf => nomatch hf

theorem CanonFields.cons {f : ImageField} {l : List ImageField} (hf : ∀ n s, CanonMem s → CanonMem (f.put n s))
    (hl : CanonFields l) : CanonFields (f :: l) := List.forall_mem_cons.2 ⟨hf, hl⟩

theorem CanonFields.map {α : Type} {f : α → ImageField} {l : List α} (hf : ∀ x n s, CanonMem s → CanonMem ((f x).put n s)) :
    CanonFields (l.map f) := List.forall_mem_map.2 fun x _ => hf x

theorem CanonFields.flatMap {α : Type} {f : α → List ImageField} {l : List α} (hf : ∀ x, CanonFields (f x)) :
    CanonFields (l.flatMap f) :=
  fun g hg => by
  obtain ⟨x, -, hx⟩ := List.mem_flatMap.1 hg
  exact hf x g hx

theorem canonFields_group {gid n count : Nat} {get : Nat → Nat} {put : Nat → Nat → Group → Group} :
    CanonFields (groupFields gid n count get put) := CanonFields.map fun _ _ _ h => h.modGroup

theorem canonFields_register (g : Group) (gid : Nat) : CanonFields (g.registerFields gid) := by
  unfold Group.registerFields
  repeat' apply CanonFields.append
  all_goals exact canonFields_group

theorem canonFields_handler (g : Group) (gid : Nat) : CanonFields (g.handlerFields gid) := by
  unfold Group.handlerFields
  dsimp only
  repeat' apply CanonFields.append
  case hk =>
    split
    · exact .nil
    · exact canonFields_group
  all_goals exact canonFields_group

theorem canonFields_ray (r : Ray) : CanonFields r.fields := by
  unfold Ray.fields
  refine .append (.append (.map fun _ _ _ h => h.upd rfl) (.cons (fun _ _ h => h.upd rfl) .nil)) ?_
  split
  · exact .map fun _ _ _ h => h.upd rfl
  · exact .nil

theorem canonFields_wait (s : State) (w : Wait) : CanonFields (s.waitFields w) := by
  unfold State.waitFields
  refine .cons (fun _ t h => ?_) (.cons (fun _ _ h => h.upd rfl) (.cons (fun _ _ h => h.upd rfl) (.cons (fun _ _ h => h.upd rfl)
    (.cons (fun _ _ h => h.upd rfl) (.cons (fun _ _ h => h.upd rfl) .nil)))))
  dsimp only
  split
  · exact h.upd rfl
  · exact h

theorem canonFields_cv {x : MatCtx} {core k n : Nat} : CanonFields (x.cvFields core k n) :=
  .cons (fun _ _ h => h.modCtx) (.cons (fun _ _ h => h.modCtx) .nil)

/-- So does a write of any field of a group's image. -/
theorem canonFields_image (s : State) (gid : Nat) (g : Group) : CanonFields (s.imageFields gid g) := by
  unfold State.imageFields
  refine .append (.append (.append (.append (.append (.append ?_ ?_) ?_) ?_) ?_) ?_) ?_
  · exact canonFields_register g gid
  · exact canonFields_handler g gid
  · exact .flatMap canonFields_ray
  · exact .flatMap (canonFields_wait s)
  · split
    · exact .nil
    · exact .flatMap fun _ => canonFields_cv
  · exact canonFields_group
  · exact .map fun _ _ _ h => h

theorem CanonMem.putImage {fs : List ImageField} {bs : List Byte} (h : CanonMem s) (hf : CanonFields fs) :
    CanonMem (s.putImage fs bs) := by
  induction fs generalizing s bs with
  | nil => exact h
  | cons f fs ih => exact ih (hf f List.mem_cons_self _ _ h) fun g hg => hf g (List.mem_cons_of_mem f hg)

theorem CanonMem.writeImage {gid : Nat} {g : Group} {bs : List Byte} (h : CanonMem s) : CanonMem (s.writeImage gid g bs) :=
  (h.putImage (canonFields_image s gid g)).modGroup

theorem CanonMem.onHalted {q c : Nat} {k1 k2 : W64} {f : Nat → Group → State} (h : CanonMem s)
    (hf : ∀ (n : Nat) (g : Group), CanonMem (f n g)) : CanonResult (s.onHalted q c k1 k2 f) := by
  unfold State.onHalted
  refine h.onCmd fun _ => ?_
  split
  · exact h.failCommand
  · split
    · exact h.completeCmd
    · exact CanonMem.ite h.failCommand (hf _ _).completeCmd

theorem CanonMem.execDebugReadState {q c : Nat} {k1 k2 : W64} (h : CanonMem s) : CanonResult (execDebugReadState q c k1 k2 s) :=
  h.onHalted fun _ _ => h.storeBytes

theorem CanonMem.execDebugWriteState {q c : Nat} {k1 k2 : W64} (h : CanonMem s) : CanonResult (execDebugWriteState q c k1 k2 s) :=
  h.onHalted fun _ _ => h.writeImage

theorem CanonMem.execPcSample {core : Nat} (h : CanonMem s) : CanonResult (execPcSample core s) := by
  unfold Machine.execPcSample
  split
  · exact h
  · split
    · exact h.modCore
    · exact h.modCore.modCore.recordAt

theorem CanonMem.storeWords {a : Nat} {l : List W64} (h : CanonMem s) : CanonMem (s.storeWords a l) := by
  induction l generalizing s a with
  | nil => exact h
  | cons x xs ih => exact ih h.store64

theorem CanonMem.execDebugRecord {die : Nat} (h : CanonMem s) : CanonResult (execDebugRecord die s) := by
  unfold Machine.execDebugRecord
  dsimp only
  split
  · exact CanonMem.ite h.modDie.store64 h.modDie.storeWords.store64
  · exact h

theorem CanonMem.execL2WatchHit {die slice pa : Nat} {write : Bool} {cls unit reqDie : Nat} (h : CanonMem s) :
    CanonResult (execL2WatchHit die slice pa write cls unit reqDie s) := CanonMem.ite h.l2Post h

theorem CanonMem.respond {port : Nat} {err : Bool} (h : CanonMem s) : CanonMem (s.respond port err) := h.upd rfl

theorem CanonMem.host {f : State} (h : CanonMem s) (hf : CanonMem f) : CanonResult (s.host f) := CanonMem.ite hf h

theorem CanonMem.execTailWrite {q : Nat} {x : W64} {size : Nat} {aligned : Bool} (h : CanonMem s) :
    CanonResult (execTailWrite q x size aligned s) :=
  h.host (CanonMem.ite h (CanonMem.ite h.respond (CanonMem.ite h.respond
      (CanonMem.ite h.respond.pushFw h.respond.modQueue.pushFw))))

theorem CanonMem.reply {port : Nat} {x : W64} (h : CanonMem s) : CanonMem (s.reply port x) := h.upd rfl

theorem CanonMem.takeSem {n port : Nat} {tie : Bool} (h : CanonMem s) : CanonMem (s.takeSem n port tie) := h.upd rfl

theorem CanonMem.replySem {n : Nat} {r0 r1 : Bool} {winner : Option Nat} (h : CanonMem s) : CanonMem (s.replySem n r0 r1 winner) :=
  CanonMem.ite (CanonMem.ite h.reply h).reply (CanonMem.ite h.reply h)

theorem CanonMem.execSemRead {n : Nat} {port0 port1 : Bool} (h : CanonMem s) : CanonResult (execSemRead n port0 port1 s) :=
  h.host (CanonMem.ite h (CanonMem.ite h.replySem (CanonMem.ite h.takeSem.replySem
      (CanonMem.ite h.takeSem.replySem (CanonMem.ite h.takeSem.replySem h)))))

theorem CanonMem.execSemWrite {n port : Nat} {value : W64} (h : CanonMem s) : CanonResult (execSemWrite n port value s) :=
  h.host (CanonMem.ite (h.upd rfl) h)

theorem CanonMem.execEvheadWrite {q : Nat} {value : W64} (h : CanonMem s) : CanonResult (execEvheadWrite q value s) :=
  h.host (CanonMem.ite h h.modQueue)

theorem CanonMem.execQueueEnable {q : Nat} {value : W64} (h : CanonMem s) : CanonResult (execQueueEnable q value s) :=
  h.host (CanonMem.ite h (CanonMem.ite (CanonMem.ite h h.modQueue) (CanonMem.ite h.modQueue.pushFw h.modQueue)))

theorem CanonMem.readRc {off : Nat} (h : CanonMem s) : CanonMem (s.readRc off) := h.hubTake.reply

theorem CanonMem.execNdropRead {q : Nat} (h : CanonMem s) : CanonResult (execNdropRead q s) := h.host (CanonMem.ite h h.readRc)

theorem CanonMem.execMmissRead {surface : Nat} (h : CanonMem s) : CanonResult (execMmissRead surface s) :=
  h.host (CanonMem.ite h.readRc h)

theorem CanonMem.writeMirage {n reg : Nat} {value : W64} (h : CanonMem s) : CanonMem (s.writeMirage n reg value) :=
  CanonMem.ite (CanonMem.ite (h.setHub.upd (by dsimp only)) h.setHub) (CanonMem.ite h.setHub h)

theorem CanonMem.execRegisterWrite {off : Nat} {value : W64} (h : CanonMem s) : CanonResult (execRegisterWrite off value s) :=
  h.host (CanonMem.ite h (CanonMem.ite (CanonMem.ite h h.modQueue)
      (CanonMem.ite (CanonMem.ite h h.setHub) (CanonMem.ite h.writeMirage (CanonMem.ite h.setHub (CanonMem.ite h.setHub h))))))

theorem CanonMem.execHostWrite {port pa : Nat} {bytes : List Byte} (h : CanonMem s) : CanonResult (execHostWrite port pa bytes s) :=
  h.host (CanonMem.ite h (CanonMem.ite h.respond h.respond.l2See.storeBytes))

theorem CanonMem.execEventPost {q : Nat} (h : CanonMem s) : CanonResult (execEventPost q s) := by
  unfold Machine.execEventPost
  dsimp only
  split
  · exact h
  · exact CanonMem.ite h (CanonMem.ite h.storeWords h).modQueue

theorem CanonMem.execHostPortDown {port : Nat} (h : CanonMem s) : CanonResult (execHostPortDown port s) :=
  CanonMem.ite h (h.upd (by rfl)).pushFw

theorem CanonMem.newTopology {die : Nat} {l : List Nat} (h : CanonMem s) : CanonMem (s.newTopology die l) := by
  induction l generalizing s with
  | nil => exact h
  | cons x xs ih => exact ih h.setHub

theorem CanonMem.replaceCore {die cluster worn spare : Nat} (h : CanonMem s) : CanonMem (s.replaceCore die cluster worn spare) :=
  (h.flushLines.modCore.modCluster.newTopology.upd (by dsimp only)).postAll

theorem CanonMem.substitute {p : WornPart} (h : CanonMem s) : CanonMem (s.substitute p) := by
  unfold State.substitute
  split
  · exact CanonMem.ite h (CanonMem.ite h.replaceCore h.modCluster.requestEvicts.pushFw)
  · exact CanonMem.ite h (h.modDie.newTopology.upd (by dsimp only)).postAll

theorem CanonMem.execOasisSubstitution {p : WornPart} (h : CanonMem s) : CanonResult (execOasisSubstitution p s) := h.pushFw

theorem CanonMem.execFirmwareCoreWear {core : Nat} (h : CanonMem s) : CanonResult (execFirmwareCoreWear core s) := by
  unfold Machine.execFirmwareCoreWear
  split
  · exact h
  · dsimp only
    split
    · refine CanonMem.upd ?_ (by dsimp only)
      exact (h.upd (by rfl)).pushFw
    · exact (h.upd (by rfl)).pushFw

theorem CanonMem.execSupplySag {die : Nat} (h : CanonMem s) : CanonResult (execSupplySag die s) := CanonMem.ite h h.modDie.pushFw

theorem CanonMem.stepClock {die : Nat} {up : Bool} (h : CanonMem s) : CanonMem (s.stepClock die up) :=
  CanonMem.ite h (CanonMem.ite (CanonMem.ite h h.modDie.postAll) (CanonMem.ite h h.modDie.postAll))

theorem CanonMem.execClockStep {die : Nat} {up : Bool} (h : CanonMem s) : CanonResult (execClockStep die up s) := h.pushFw

theorem CanonMem.killDevice {now : Bool} {l : List Nat} (h : CanonMem s) : CanonMem (s.killDevice now l) := by
  induction l generalizing s with
  | nil => exact h
  | cons x xs ih => exact ih (CanonMem.ite h.killNow h.killLaunch)

theorem CanonMem.runFw {x : FwEvent} (h : CanonMem s) : CanonMem (s.runFw x) := by
  unfold State.runFw
  split
  · exact h.startCommand
  · exact h.stopQueue
  · exact h.killDevice.stopQueue
  · exact h.postAll
  · exact h.nodeCompleted
  · exact h.reportKill
  · exact h.substitute
  · exact h.stepClock
  · exact h.postAll
  · exact h.postAll
  · exact h

theorem CanonMem.execFirmwareEvent {core : Nat} (h : CanonMem s) : CanonResult (execFirmwareEvent core s) := by
  unfold Machine.execFirmwareEvent
  split
  · exact h
  · split
    · exact h
    · exact (h.upd (by rfl)).runFw

theorem CanonMem.execDeviceLevelError (h : CanonMem s) : CanonResult (execDeviceLevelError s) := h.killDevice.upd (by dsimp only)

theorem CanonMem.execPackageReset {verified : Bool} {l2Vaults : Nat} (h : CanonMem s) :
    CanonResult (execPackageReset verified l2Vaults s) := CanonMem.ite h (h.upd rfl)

theorem CanonMem.execLaneFailure {port : Nat} (h : CanonMem s) : CanonResult (execLaneFailure port s) :=
  CanonMem.ite h (h.upd (by rfl)).pushFw

theorem CanonMem.settleGone (h : CanonMem s) : CanonMem s.settleGone := CanonMem.ite h.setHub h

theorem CanonMem.execRouteChange {src dst port : Nat} (h : CanonMem s) : CanonResult (execRouteChange src dst port s) :=
  CanonMem.ite h (h.upd (by rfl)).settleGone

theorem CanonMem.execPacketDrop {cls dst : Nat} (h : CanonMem s) : CanonResult (execPacketDrop cls dst s) :=
  CanonMem.ite
    (h.upd rfl) h

theorem CanonMem.execPackageJoin {number : Nat} {routes : List (Nat × Nat)} (h : CanonMem s) :
    CanonResult (execPackageJoin number routes s) := CanonMem.ite h (h.upd (by rfl)).setHub

theorem CanonMem.breakGangs {l : List (Nat × Nat)} (h : CanonMem s) : CanonMem (s.breakGangs l) := by
  induction l generalizing s with
  | nil => exact h
  | cons x xs ih => exact ih h.tellBroken.breakGang

theorem CanonMem.execLeave {value : W64} (h : CanonMem s) : CanonResult (execLeave value s) :=
  h.host (CanonMem.ite h.breakGangs.setHub.settleGone h)

theorem CanonMem.peerPerform {a : Nat} {op : PeerOp} (h : CanonMem s) : CanonMem (s.peerPerform a op) := by
  unfold State.peerPerform
  split
  · exact h
  · exact h.storeBytes
  · exact h.store32
  · exact CanonMem.ite h.store32 h
  · exact h.store32
  · exact h.store64
  · exact h

theorem CanonMem.peerTurn {src a : Nat} {op : PeerOp} {go_ : State → State} (h : CanonMem s)
    (hgo_ : ∀ (t : State), CanonMem t → CanonMem (go_ t)) : CanonMem (s.peerTurn src a op go_) := by
  unfold State.peerTurn
  split
  · exact hgo_ _ h
  · split
    · exact hgo_ _ h
    · split
      · exact hgo_ _ h.logOp
      · dsimp only
        split
        · exact hgo_ _ h.consume
        · exact hgo_ _ h.diverge
        · exact h

theorem CanonMem.peerContribution {src a : Nat} {o : RedOp} {x va : W64} (h : CanonMem s) :
    CanonMem (s.peerContribution src a o x va) := h.upd rfl

theorem CanonMem.execPeerAccess {src fa : Nat} {op : PeerOp} (h : CanonMem s) : CanonResult (execPeerAccess src fa op s) := by
  unfold Machine.execPeerAccess
  split
  · exact h
  · split
    · split
      · exact CanonMem.ite h h.peerContribution
      · exact h
    · split
      · exact h
      · split
        · exact CanonMem.ite (h.pick.peerTurn (fun _ ht => ht.l2See.peerPerform)) h.pick.peerContribution
        · exact h.peerTurn fun _ ht => ht.l2See.peerPerform

theorem CanonMem.execPeerAccessFail {id : Nat} (h : CanonMem s) : CanonResult (execPeerAccessFail id s) := by
  unfold Machine.execPeerAccessFail
  split
  · exact CanonMem.ite h (h.upd (by rfl)).killLaunch
  · split
    · split
      · exact h
      · split
        · exact (h.upd (by rfl)).killLaunch
        · exact (h.upd (by rfl)).killAll
    · split
      · exact CanonMem.ite h h.killLaunch
      · split
        · exact CanonMem.ite h (h.upd (by rfl)).killOwners
        · exact h

theorem CanonMem.modContrib {id : Nat} {f : Contrib → Contrib} (h : CanonMem s) : CanonMem (s.modContrib id f) := h.upd rfl

theorem CanonMem.leaveUnit {id : Nat} {alone : Bool} (h : CanonMem s) : CanonMem (s.leaveUnit id alone) := h.upd rfl

theorem CanonMem.passUnit {k : Contrib} (h : CanonMem s) : CanonMem (s.passUnit k) := h.leaveUnit

theorem CanonMem.mergeAt {die : Nat} {k : Contrib} (h : CanonMem s) : CanonMem (s.mergeAt die k) := by
  unfold State.mergeAt
  split
  · exact (h.upd (by rfl)).modContrib
  · exact CanonMem.ite h.modContrib h.passUnit

theorem CanonMem.holdContrib {k : Contrib} {n die : Nat} {home : List Nat} {q : W64} {go_ : State → State} (h : CanonMem s)
    (hgo_ : ∀ (t : State), CanonMem t → CanonMem (go_ t)) : CanonMem (s.holdContrib k n die home q go_) := by
  unfold State.holdContrib
  split
  · exact h.modContrib
  · exact CanonMem.ite h (hgo_ _ h.diverge)

theorem CanonMem.unitTurn {k : Contrib} {die : Nat} (h : CanonMem s) : CanonMem (s.unitTurn k die) := by
  unfold State.unitTurn
  split
  · exact h.mergeAt
  · split
    · exact h.mergeAt
    · split
      · exact h.logOp.mergeAt
      · split
        · dsimp only
          split
          · exact CanonMem.ite h.mergeAt (CanonMem.ite h.consume.passUnit h.consume.mergeAt)
          · exact h.diverge.mergeAt
          · exact h.holdContrib fun _ ht => ht.mergeAt
        · dsimp only
          split
          · exact CanonMem.ite h.mergeAt (CanonMem.ite h.consume.passUnit (h.holdContrib (fun _ ht => ht.mergeAt)))
          · exact h.diverge.mergeAt
          · exact h.holdContrib fun _ ht => ht.mergeAt

theorem CanonMem.homeTurn {k : Contrib} {go_ : State → State} (h : CanonMem s)
    (hgo_ : ∀ (t : State), CanonMem t → CanonMem (go_ t)) : CanonMem (s.homeTurn k go_) := by
  unfold State.homeTurn
  split
  · exact hgo_ _ h
  · split
    · exact hgo_ _ h
    · split
      · exact hgo_ _ h.logOp
      · dsimp only
        split
        · exact hgo_ _ h.consume
        · exact hgo_ _ h.diverge
        · exact h.holdContrib fun _ ht => hgo_ _ ht

theorem CanonMem.execContributionArrival {die contrib : Nat} (h : CanonMem s) :
    CanonResult (execContributionArrival die contrib s) := by
  unfold Machine.execContributionArrival
  split
  · exact h
  · exact CanonMem.ite h h.unitTurn

theorem CanonMem.forward {id : Nat} (h : CanonMem s) : CanonMem (s.forward id) := h.leaveUnit

theorem CanonMem.forwards {l : List Nat} (h : CanonMem s) : CanonMem (s.forwards l) := by
  induction l generalizing s with
  | nil => exact h
  | cons x xs ih => exact ih h.forward

theorem CanonMem.execMergeHoldExpiry {die entry : Nat} (h : CanonMem s) : CanonResult (execMergeHoldExpiry die entry s) := by
  unfold Machine.execMergeHoldExpiry
  split
  · exact h
  · split
    · exact CanonMem.ite h.forward h
    · exact h

theorem CanonMem.flushSlots {l : List Nat} (h : CanonMem s) : CanonMem (s.flushSlots l) := by
  induction l generalizing s with
  | nil => exact h
  | cons x xs ih =>
    unfold State.flushSlots
    dsimp only
    split
    · exact ih h
    · refine ih ?_
      split
      · exact h.pick.forward
      · exact h.pick

theorem CanonMem.execReductionFlush {pub : Nat} (h : CanonMem s) : CanonResult (execReductionFlush pub s) := by
  unfold Machine.execReductionFlush
  split
  · exact h
  · exact CanonMem.ite h h.forwards.flushSlots

theorem CanonMem.performContrib {k : Contrib} (h : CanonMem s) : CanonMem (s.performContrib k) := by
  unfold State.performContrib
  split
  · split
    · split
      · exact (h.upd (by rfl)).l2See.store32
      · exact (h.upd (by rfl)).l2See.store32
      · exact CanonMem.ite (h.upd (by rfl)).l2See.store64.killOwners (h.upd (by rfl)).l2See.store64
    · split
      · exact (h.upd (by rfl)).l2See.store32
      · exact (h.upd (by rfl)).l2See.store32
      · exact CanonMem.ite (h.upd (by rfl)).l2See.store64.killOwners (h.upd (by rfl)).l2See.store64
  · split
    · split
      · exact (h.upd (by rfl)).l2See.store32
      · exact (h.upd (by rfl)).l2See.store32
      · exact CanonMem.ite (h.upd (by rfl)).l2See.store64.killOwners (h.upd (by rfl)).l2See.store64
    · split
      · exact (h.upd (by rfl)).l2See.store32
      · exact (h.upd (by rfl)).l2See.store32
      · exact CanonMem.ite (h.upd (by rfl)).l2See.store64.killOwners (h.upd (by rfl)).l2See.store64

theorem CanonMem.execReductionAck {contrib : Nat} (h : CanonMem s) : CanonResult (execReductionAck contrib s) := by
  unfold Machine.execReductionAck
  split
  · exact h
  · exact CanonMem.ite h (CanonMem.ite h.performContrib (h.homeTurn (fun _ ht => ht.performContrib)))

theorem CanonMem.modGang {q num : Nat} {f : Gang → Gang} (h : CanonMem s) : CanonMem (s.modGang q num f) := h.modCmd

theorem CanonMem.releaseLaunches {l : List Nat} (h : CanonMem s) : CanonMem (s.releaseLaunches l) := by
  induction l generalizing s with
  | nil => exact h
  | cons x xs ih => exact ih (h.dropLaunch.upd (by dsimp only))

theorem CanonMem.releaseGang {q num : Nat} (h : CanonMem s) : CanonMem (s.releaseGang q num) :=
  h.releaseLaunches.postEvent.completeCmd

theorem CanonMem.abortGang {q num tag : Nat} (h : CanonMem s) : CanonMem (s.abortGang q num tag) := (h.upd (by rfl)).releaseGang

theorem CanonMem.leaderAbort {q num : Nat} {g : Gang} (h : CanonMem s) : CanonMem (s.leaderAbort q num g) := h.sendCtl.abortGang

theorem CanonMem.giveUp {q num : Nat} {g : Gang} (h : CanonMem s) : CanonMem (s.giveUp q num g) :=
  CanonMem.ite h.leaderAbort h.releaseGang

theorem CanonMem.tryGo {q num : Nat} {g : Gang} (h : CanonMem s) : CanonMem (s.tryGo q num g) :=
  CanonMem.ite h (CanonMem.ite h.leaderAbort (CanonMem.ite h.modGang.sendCtl h))

theorem CanonMem.armMember {q num : Nat} {g : Gang} (h : CanonMem s) : CanonMem (s.armMember q num g) := h.modGang.sendCtl.tryGo

theorem CanonMem.execGang {q c first count : Nat} {k1 k2 k3 : W64} (h : CanonMem s) :
    CanonResult (execGang q c first count k1 k2 k3 s) := by
  unfold Machine.execGang
  refine h.onCmd fun _ => ?_
  split
  · split
    · exact CanonMem.ite h.tryGo (CanonMem.ite h.giveUp (CanonMem.ite h.armMember h))
    · exact h
  · split
    · exact h.failCommand
    · exact CanonMem.ite h.releaseGang h.modCmd.startNodes

theorem CanonMem.onGang {tag : Nat} {f : Nat → Cmd → Gang → State} (h : CanonMem s)
    (hf : ∀ (n : Nat) (x : Cmd) (x' : Gang), CanonMem (f n x x')) : CanonResult (s.onGang tag f) := by
  unfold State.onGang
  split
  · exact h.upd rfl
  · exact hf _ _ _

theorem CanonMem.gangTimer {tag : Nat} {f : Nat → Cmd → Gang → State} (h : CanonMem s)
    (hf : ∀ (n : Nat) (x : Cmd) (x' : Gang), CanonMem (f n x x')) : CanonResult (s.gangTimer tag f) := by
  unfold State.gangTimer
  split
  · exact h
  · exact hf _ _ _

theorem CanonMem.execArm {member : Nat} {k1 k2 k3 hash : W64} (h : CanonMem s) : CanonResult (execArm member k1 k2 k3 hash s) :=
  h.onGang fun _ _ _ => CanonMem.ite h (CanonMem.ite h.leaderAbort h.modGang.tryGo)

theorem CanonMem.missGang {q num : Nat} (h : CanonMem s) : CanonMem (s.missGang q num) := h.tellBroken.breakGang

theorem CanonMem.execGo {tag time : Nat} (h : CanonMem s) : CanonResult (execGo tag time s) :=
  h.onGang fun _ _ _ => CanonMem.ite h (CanonMem.ite h.missGang h.modGang)

theorem CanonMem.unhold {l : List Nat} (h : CanonMem s) : CanonMem (s.unhold l) := by
  induction l generalizing s with
  | nil => exact h
  | cons x xs ih => exact ih h.modLaunch

theorem CanonMem.execGoTime {tag : Nat} (h : CanonMem s) : CanonResult (execGoTime tag s) := by
  unfold Machine.execGoTime
  refine h.gangTimer fun _ _ _ => ?_
  split
  · exact h
  · exact CanonMem.ite h (CanonMem.ite h.missGang h.unhold.modGang.sendCtl)

theorem CanonMem.execStarted {tag member : Nat} (h : CanonMem s) : CanonResult (execStarted tag member s) := by
  unfold Machine.execStarted
  refine h.onGang fun _ _ _ => ?_
  split
  · exact h
  · exact CanonMem.ite h (CanonMem.ite h.missGang h.modGang.settleCmd)

theorem CanonMem.execAbort {tag : Nat} (h : CanonMem s) : CanonResult (execAbort tag s) := by
  unfold Machine.execAbort
  split
  · exact h.upd rfl
  · exact CanonMem.ite h h.abortGang

theorem CanonMem.execMiss {tag : Nat} (h : CanonMem s) : CanonResult (execMiss tag s) := h.onGang fun _ _ _ => h.breakGang

theorem CanonMem.execBroken {tag : Nat} (h : CanonMem s) : CanonResult (execBroken tag s) := h.onGang fun _ _ _ => h.breakGang

theorem CanonMem.execArmTimeout {tag : Nat} (h : CanonMem s) : CanonResult (execArmTimeout tag s) :=
  h.gangTimer fun _ _ _ => CanonMem.ite h.giveUp h

theorem CanonMem.execStartedDeadline {tag : Nat} (h : CanonMem s) : CanonResult (execStartedDeadline tag s) := by
  unfold Machine.execStartedDeadline
  refine h.gangTimer fun _ _ _ => ?_
  split
  · exact h
  · exact CanonMem.ite h.missGang h

theorem CanonMem.execGangReleaseTimeout {tag : Nat} (h : CanonMem s) : CanonResult (execGangReleaseTimeout tag s) := by
  unfold Machine.execGangReleaseTimeout
  refine h.gangTimer fun _ _ _ => ?_
  split
  · exact h
  · exact CanonMem.ite h.releaseGang h

theorem CanonMem.execTimePacket {delta : Int} {pathChanged : Bool} (h : CanonMem s) :
    CanonResult (execTimePacket delta pathChanged s) := h.upd rfl

theorem CanonMem.execTimeLock (h : CanonMem s) : CanonResult (execTimeLock s) := CanonMem.ite (h.upd rfl) h

theorem CanonMem.execMirageDeadline {surface : Nat} (h : CanonMem s) : CanonResult (execMirageDeadline surface s) := by
  unfold Machine.execMirageDeadline
  split
  · dsimp only
    exact CanonMem.ite h (CanonMem.ite (h.upd rfl) (h.upd (by rfl)).postEvent)
  · dsimp only
    exact CanonMem.ite h (CanonMem.ite (h.upd rfl) (h.upd rfl))

theorem CanonMem.execVsync {surface : Nat} (h : CanonMem s) : CanonResult (execVsync surface s) := by
  unfold Machine.execVsync
  dsimp only
  split
  · exact h
  · exact CanonMem.ite h (h.setHub.setHub.upd (by dsimp only))

theorem CanonMem.nextMove {n : Nat} (h : CanonMem s) : CanonMem (s.nextMove n).2 := by
  unfold State.nextMove
  split
  · exact h.upd rfl
  · exact h
  · exact h

theorem CanonEffect.accTrap {c : Ctx} {x : MemErr × LaneMask × W64} : CanonEffect (c.accTrap x) := trivial

theorem CanonMem.accSettle {v : View} {es : List (Nat × W64)} (h : CanonMem s) : CanonMem (s.accSettle v es) :=
  h.foldl fun _ _ ht => ht.touchTlb

theorem CanonMem.readNow {v : View} {l : Nat} {a : W64} {n : Nat} (h : CanonMem s) : CanonSome (·.2) (s.readNow v l a n) := by
  unfold State.readNow
  split
  · split
    · trivial
    · exact h.accSettle.l1Load
  · exact h.portSeen.portLoad
  · split
    · exact h
    · trivial

theorem CanonMem.readsNow {v : View} {n : Nat} {l : List (Nat × W64)} (h : CanonMem s) : CanonSome (·.2) (s.readsNow v n l) := by
  induction l generalizing s with
  | nil => exact h
  | cons x xs ih =>
    unfold State.readsNow
    split
    · trivial
    · next e =>
      split
      · trivial
      · next e1 => exact (ih (h.readNow.of_eq e rfl)).of_eq e1 rfl

theorem CanonGather.depart {g : Gather} {c : Ctx} {v : View} {tl : Tail} (h : CanonGather g) : CanonEffect (g.depart c v tl) := by
  unfold Gather.depart
  split
  · trivial
  · split
    · refine CanonMem.upd ?_ (by dsimp only)
      exact (h.mem.upd (by dsimp only)).gathered.sendAll.mem
    · refine (CanonMem.upd ?_ (by dsimp only)).modGroup
      exact (h.mem.upd (by dsimp only)).gathered.sendAll.mem

theorem CanonMem.gfxLoads {c : Ctx} {v : View} {n : Nat} {es : List (Nat × W64 × Dst)} {mis extra : List (Nat × W64)} {tl : Tail}
    {g : Option Gfx} (h : CanonMem s) : CanonEffect (c.gfxLoads v n es mis extra tl g s) := by
  unfold Ctx.gfxLoads
  dsimp only
  split
  · trivial
  · split
    · exact CanonEffect.accTrap
    · exact h.watchedAll (h.peerRead (h.accSettle.gathered.foldl fun _ _ ht => ht.loads).depart)

theorem CanonMem.execVbld {n : BitVec 2} {d : BitVec 6} {a : BitVec 5} {b : Operand} {tl : Tail} (h : CanonMem s) :
    CanonResult (execVbld n d a b tl s) := by
  unfold Machine.execVbld
  refine h.issueAsync fun _ _ ht => ?_
  dsimp only
  split
  · trivial
  · split
    · trivial
    · exact ht.gfxLoads

theorem CanonMem.execAttr {mode : AttrMode} {d : BitVec 6} {a b : Operand} {tl : Tail} (h : CanonMem s) :
    CanonResult (execAttr mode d a b tl s) := by
  unfold Machine.execAttr
  refine h.issueAsync fun _ _ ht => ?_
  dsimp only
  split
  · trivial
  · split
    · exact CanonEffect.accTrap
    · refine ht.peerRead ?_
      split
      · trivial
      · next e4 => exact (ht.readsNow.of_eq e4 rfl).gfxLoads

theorem CanonMem.texture {c : Ctx} {d : BitVec 6} {b : BitVec 5} {useSampler : Bool} {named : W64 → Bool} {tl : Tail}
    {taps : TexDesc → W64 → Nat → List Texel} (h : CanonMem s) : CanonEffect (c.texture d b useSampler named tl s taps) := by
  unfold Ctx.texture
  split
  · trivial
  · dsimp only
    split
    · exact h.gfxLoads
    · split
      · trivial
      · split
        · exact CanonEffect.accTrap
        · refine h.peerRead ?_
          split
          · trivial
          · next e5 =>
            split
            · trivial
            · split
              · trivial
              · split
                · split
                  · trivial
                  · split
                    · exact CanonEffect.accTrap
                    · trivial
                · exact (h.readNow.of_eq e5 rfl).gfxLoads

theorem CanonMem.execSample {d : BitVec 6} {a : Operand} {b : BitVec 5} {cc : Operand} {tl : Tail} (h : CanonMem s) :
    CanonResult (execSample d a b cc tl s) := h.issueAsync fun _ _ ht => ht.texture

theorem CanonMem.execSampleg {d : BitVec 6} {a : Operand} {b : BitVec 5} {g : BitVec 6} {rt : BitVec 4} {tl : Tail}
    (h : CanonMem s) : CanonResult (execSampleg d a b g rt tl s) := h.issueAsync fun _ _ ht => ht.texture

theorem CanonMem.execTexld {d : BitVec 6} {a : Operand} {b : BitVec 5} {cc : Operand} {tl : Tail} (h : CanonMem s) :
    CanonResult (execTexld d a b cc tl s) := h.issueAsync fun _ _ ht => ht.texture

theorem CanonMem.execCovw {a : Operand} (h : CanonMem s) : CanonResult (execCovw a s) := by
  unfold Machine.execCovw
  refine h.issue fun _ _ ht => ?_
  dsimp only
  split
  · trivial
  · exact ht.settle.verdicts.modGroup

theorem CanonMem.execIadd {t : IType} {d : Dest} {a b : Operand} {tl : Tail} (h : CanonMem s) : CanonResult (execIadd t d a b tl s) :=
  h.aluInt2

theorem CanonMem.execIsub {t : IType} {d : Dest} {a b : Operand} {tl : Tail} (h : CanonMem s) : CanonResult (execIsub t d a b tl s) :=
  h.aluInt2

theorem CanonMem.execImul {t : IType} {sat : Bool} {d : Dest} {a b : Operand} {tl : Tail} (h : CanonMem s) :
    CanonResult (execImul t sat d a b tl s) := h.aluInt2

theorem CanonMem.execImulhi {t : IType} {d : Dest} {a b : Operand} {tl : Tail} (h : CanonMem s) :
    CanonResult (execImulhi t d a b tl s) := h.aluInt2

theorem CanonMem.execImad {t : IType} {sat : Bool} {d : Dest} {a b c : Operand} {tl : Tail} (h : CanonMem s) :
    CanonResult (execImad t sat d a b c tl s) := h.aluInt3

theorem CanonMem.execIdiv {t : IType} {sat : Bool} {d : Dest} {a b : Operand} {tl : Tail} (h : CanonMem s) :
    CanonResult (execIdiv t sat d a b tl s) := h.aluInt2

theorem CanonMem.execIrem {t : IType} {d : Dest} {a b : Operand} {tl : Tail} (h : CanonMem s) : CanonResult (execIrem t d a b tl s) :=
  h.aluInt2

theorem CanonMem.execIneg {t : IType} {sat : Bool} {d : Dest} {a : Operand} {tl : Tail} (h : CanonMem s) :
    CanonResult (execIneg t sat d a tl s) := h.aluInt1

theorem CanonMem.execIabs {t : IType} {sat : Bool} {d : Dest} {a : Operand} {tl : Tail} (h : CanonMem s) :
    CanonResult (execIabs t sat d a tl s) := h.aluInt1

theorem CanonMem.execImin {t : IType} {d : Dest} {a b : Operand} {tl : Tail} (h : CanonMem s) : CanonResult (execImin t d a b tl s) :=
  h.aluInt2

theorem CanonMem.execImax {t : IType} {d : Dest} {a b : Operand} {tl : Tail} (h : CanonMem s) : CanonResult (execImax t d a b tl s) :=
  h.aluInt2

theorem CanonMem.execIaddsat {t : IType} {d : Dest} {a b : Operand} {tl : Tail} (h : CanonMem s) :
    CanonResult (execIaddsat t d a b tl s) := h.aluInt2

theorem CanonMem.execIsubsat {t : IType} {d : Dest} {a b : Operand} {tl : Tail} (h : CanonMem s) :
    CanonResult (execIsubsat t d a b tl s) := h.aluInt2

theorem CanonMem.execIclamp {t : IType} {d : Dest} {a b c : Operand} {tl : Tail} (h : CanonMem s) :
    CanonResult (execIclamp t d a b c tl s) := h.aluInt3

theorem CanonMem.execAdd64 {t : IType} {d : Dest} {a b : Operand} {tl : Tail} (h : CanonMem s) :
    CanonResult (execAdd64 t d a b tl s) := h.alu64

theorem CanonMem.execLea {t : IType} {d : Dest} {a b : Operand} {sh : BitVec 3} {tl : Tail} (h : CanonMem s) :
    CanonResult (execLea t d a b sh tl s) := h.alu64

theorem CanonMem.execDot4 {t : IType} {sat : Bool} {d : Dest} {a b c : Operand} {tl : Tail} (h : CanonMem s) :
    CanonResult (execDot4 t sat d a b c tl s) := h.alu32

theorem CanonMem.execIcmp {t : IType} {cond : ICond} {a b : Operand} {tl : Tail} (h : CanonMem s) :
    CanonResult (execIcmp t cond a b tl s) := h.aluCm

theorem CanonMem.aluBits2 {t : IType} {d : Dest} {a b : Operand} {tl : Tail} {f : Nat → Nat → Nat} (h : CanonMem s) :
    CanonResult (aluBits2 t d a b tl f s) := h.aluInt

theorem CanonMem.execAnd {t : IType} {d : Dest} {a b : Operand} {tl : Tail} (h : CanonMem s) : CanonResult (execAnd t d a b tl s) :=
  h.aluBits2

theorem CanonMem.execOr {t : IType} {d : Dest} {a b : Operand} {tl : Tail} (h : CanonMem s) : CanonResult (execOr t d a b tl s) :=
  h.aluBits2

theorem CanonMem.execXor {t : IType} {d : Dest} {a b : Operand} {tl : Tail} (h : CanonMem s) : CanonResult (execXor t d a b tl s) :=
  h.aluBits2

theorem CanonMem.execNot {t : IType} {d : Dest} {a : Operand} {tl : Tail} (h : CanonMem s) : CanonResult (execNot t d a tl s) :=
  h.aluInt

theorem CanonMem.execAndn {t : IType} {d : Dest} {a b : Operand} {tl : Tail} (h : CanonMem s) : CanonResult (execAndn t d a b tl s) :=
  h.aluBits2

theorem CanonMem.aluShift {t : IType} {d : Dest} {a b : Operand} {tl : Tail} {f : Nat → Nat → Nat} (h : CanonMem s) :
    CanonResult (aluShift t d a b tl f s) := by
  unfold Machine.aluShift
  split
  · exact h.alu64
  · exact h.alu32

theorem CanonMem.execShl {t : IType} {d : Dest} {a b : Operand} {tl : Tail} (h : CanonMem s) : CanonResult (execShl t d a b tl s) :=
  h.aluShift

theorem CanonMem.execShr {t : IType} {d : Dest} {a b : Operand} {tl : Tail} (h : CanonMem s) : CanonResult (execShr t d a b tl s) :=
  h.aluShift

theorem CanonMem.execSar {t : IType} {d : Dest} {a b : Operand} {tl : Tail} (h : CanonMem s) : CanonResult (execSar t d a b tl s) :=
  h.aluShift

theorem CanonMem.execRot {t : IType} {d : Dest} {a b : Operand} {tl : Tail} (h : CanonMem s) : CanonResult (execRot t d a b tl s) :=
  h.aluShift

theorem CanonMem.aluCount {t : IType} {d : Dest} {a : Operand} {tl : Tail} {f : Nat → Nat} (h : CanonMem s) :
    CanonResult (aluCount t d a tl f s) := h.alu32

theorem CanonMem.execPopc {t : IType} {d : Dest} {a : Operand} {tl : Tail} (h : CanonMem s) : CanonResult (execPopc t d a tl s) :=
  h.aluCount

theorem CanonMem.execClz {t : IType} {d : Dest} {a : Operand} {tl : Tail} (h : CanonMem s) : CanonResult (execClz t d a tl s) :=
  h.aluCount

theorem CanonMem.execCtz {t : IType} {d : Dest} {a : Operand} {tl : Tail} (h : CanonMem s) : CanonResult (execCtz t d a tl s) :=
  h.aluCount

theorem CanonMem.execBrev {t : IType} {d : Dest} {a : Operand} {tl : Tail} (h : CanonMem s) : CanonResult (execBrev t d a tl s) :=
  h.aluInt

theorem CanonMem.execBfx {t : IType} {d : Dest} {a b c : Operand} {tl : Tail} (h : CanonMem s) :
    CanonResult (execBfx t d a b c tl s) := h.alu32

theorem CanonMem.execBfi {d : Dest} {a b c : Operand} {tl : Tail} (h : CanonMem s) : CanonResult (execBfi d a b c tl s) := h.alu32

theorem CanonMem.execPerm8 {d : Dest} {a b c : Operand} {tl : Tail} (h : CanonMem s) : CanonResult (execPerm8 d a b c tl s) :=
  h.alu32

theorem CanonMem.execSel {t : IType} {d : Dest} {a b : Operand} {tl : Tail} (h : CanonMem s) : CanonResult (execSel t d a b tl s) :=
  h.aluInt

theorem CanonMem.execMov {t : IType} {d : Dest} {a : Operand} {tl : Tail} (h : CanonMem s) : CanonResult (execMov t d a tl s) :=
  h.aluInt

theorem CanonMem.execMovi {t : IType} {d : Dest} {imm : BitVec 24} {tl : Tail} (h : CanonMem s) :
    CanonResult (execMovi t d imm tl s) := h.aluInt

theorem CanonMem.execLit {t : IType} {d : Dest} {a : Operand} {imm : BitVec 24} {tl : Tail} (h : CanonMem s) :
    CanonResult (execLit t d a imm tl s) := h.aluInt

theorem CanonMem.exec {i : Instr} (h : CanonMem s) : CanonResult (exec i s) := by
  unfold Machine.exec
  split
  · exact h.execIadd
  · exact h.execIsub
  · exact h.execImul
  · exact h.execImulhi
  · exact h.execImad
  · exact h.execIdiv
  · exact h.execIrem
  · exact h.execIneg
  · exact h.execIabs
  · exact h.execImin
  · exact h.execImax
  · exact h.execIaddsat
  · exact h.execIsubsat
  · exact h.execIclamp
  · exact h.execAdd64
  · exact h.execLea
  · exact h.execDot4
  · exact h.execIcmp
  · exact h.execAnd
  · exact h.execOr
  · exact h.execXor
  · exact h.execNot
  · exact h.execAndn
  · exact h.execShl
  · exact h.execShr
  · exact h.execSar
  · exact h.execRot
  · exact h.execPopc
  · exact h.execClz
  · exact h.execCtz
  · exact h.execBrev
  · exact h.execBfx
  · exact h.execBfi
  · exact h.execPerm8
  · exact h.execSel
  · exact h.execMov
  · exact h.execMovi
  · exact h.execLit
  · exact h.execFadd
  · exact h.execFsub
  · exact h.execFmul
  · exact h.execFfma
  · exact h.execFmin
  · exact h.execFmax
  · exact h.execFcmp
  · exact h.execFclass
  · exact h.execFrcp
  · exact h.execFrsq
  · exact h.execFsqrt
  · exact h.execFdiv
  · exact h.execFexp2
  · exact h.execFlog2
  · exact h.execFsinpi
  · exact h.execFcospi
  · exact h.execFtanh
  · exact h.execFrnd
  · exact h.execFfrac
  · exact h.execFldexp
  · exact h.execFgetexp
  · exact h.execFgetmant
  · exact h.execHadd2
  · exact h.execHmul2
  · exact h.execHfma2
  · exact h.execFdot2
  · exact h.execFabs
  · exact h.execFneg
  · exact h.execFclamp
  · exact h.execCvtToInteger
  · exact h.execCvtToFloat
  · exact h.execPk
  · exact h.execUnpk
  · exact h.execScaleq
  · exact h.execMtest
  · exact h.execMbits
  · exact h.execMfold
  · exact h.execScan
  · exact h.execLperm
  · exact h.execMpeers
  · exact h.execMlow
  · exact h.execLsync
  · exact h.execTwld
  · exact h.execTwst
  · exact h.execTdec
  · exact h.execTdec2
  · exact h.execEnsave
  · exact h.execEnrest
  · exact h.execEnand
  · exact h.execEnor
  · exact h.execEnandn
  · exact h.execCmget
  · exact h.execCmset
  · exact h.execSetab
  · exact h.execSetrt
  · exact h.execBra
  · exact h.execBrc
  · exact h.execBru
  · exact h.execCall
  · exact h.execRet
  · exact h.execJmpi
  · exact h.execCalli
  · exact h.execLoop
  · exact h.execSpawn
  · exact h.execTrap
  · exact h.execBrk
  · exact h.execSleep
  · exact h.execIllegalOpcode
  · exact h.execLd
  · exact h.execSt
  · exact h.execLdsc
  · exact h.execLdp
  · exact h.execStp
  · exact h.execPrefetch
  · exact h.execCwb
  · exact h.execCinv
  · exact h.execAconv
  · exact h.execAclass
  · exact h.execAtom
  · exact h.execAtomCas
  · exact h.execFatom
  · exact h.execCtrAdd
  · exact h.execCtrWait
  · exact h.execCtrRd
  · exact h.execPhase
  · exact h.execPhaseP
  · exact h.execPhaseS
  · exact h.execLfence
  · exact h.execSign
  · exact h.execMma
  · exact h.execMmas
  · exact h.execMmt
  · exact h.execMzero
  · exact h.execMld
  · exact h.execMrd
  · exact h.execMdrain
  · exact h.execMdraint
  · exact h.execMchk
  · exact h.execMstat
  · exact h.execMrel
  · exact h.execAttr
  · exact h.execVbld
  · exact h.execPrim
  · exact h.execSample
  · exact h.execSampleg
  · exact h.execTexld
  · exact h.execHit
  · exact h.execTretNext
  · exact h.execTretDone
  · exact h.execCovw
  · exact h.execXpushXc
  · exact h.execXpushXe
  · exact h.execXpushXt
  · exact h.execXpopXt
  · exact h.execXpopXe
  · exact h.execXpopXm
  · exact h.execXstat
  · exact h.execCsrr
  · exact h.execCsrw
  · exact h.execSyscNote
  · exact h.execSyscKill
  · exact h.execDbgr
  · exact h.execDbgw
  · exact h.execIinv
  · exact h.execClauseStart
  · exact h.execDwellBreak
  · exact h.execConvergenceTimeout
  · exact h.execSleepEnd
  · exact h.execAsyncComplete
  · exact h.execExitDrainingEnd
  · exact h.execBinTimeExpiry
  · exact h.execSpawnedGroupStart
  · exact h.execBlockPlacement
  · exact h.execTileAccessPerformed
  · exact h.execAtomicAtHome
  · exact h.execRemoteAccess
  · exact h.execStoreAck
  · exact h.execPublishComplete
  · exact h.execCounterAdditionAtHome
  · exact h.execCtrWaitComplete
  · exact h.execCtrWaitTimeout
  · exact h.execMatrixOpStart
  · exact h.execMatrixOpComplete
  · exact h.execMatrixCheckTrap
  · exact h.execMatrixContextEnd
  · exact h.execRayRecordReady
  · exact h.execEviction
  · exact h.execBlockResume
  · exact h.execCopyJobStart
  · exact h.execGranuleLanded
  · exact h.execCopyJobComplete
  · exact h.execEncoderJob
  · exact h.execEncoderJobComplete
  · exact h.execTileWrite
  · exact h.execMeshGroupStart
  · exact h.execPrimitiveBin
  · exact h.execListAppend
  · exact h.execTilePassGrant
  · exact h.execStartSequence
  · exact h.execCoverageVerdictWrite
  · exact h.execRetirementComplete
  · exact h.execNodeComplete
  · exact h.execCommandStart
  · exact h.execNopCommand
  · exact h.execLaunch
  · exact h.execSignal
  · exact h.execWait
  · exact h.execRpass
  · exact h.execRpend
  · exact h.execPreempt
  · exact h.execShootdown
  · exact h.execMigrate
  · exact h.execRelease
  · exact h.execGang
  · exact h.execKill
  · exact h.execDebugSampling
  · exact h.execDebugRing
  · exact h.execDebugBreakpoints
  · exact h.execDebugPredicate
  · exact h.execDebugL2Watch
  · exact h.execDebugResume
  · exact h.execDebugReadState
  · exact h.execDebugWriteState
  · exact h.execAperture
  · exact h.execAttest
  · exact h.execEventPost
  · exact h.execFirmwareEvent
  · exact h.execPcSample
  · exact h.execMemorySample
  · exact h.execPredicateResult
  · exact h.execCapacityRefreshRecord
  · exact h.execDebugRecord
  · exact h.execOrderGate
  · exact h.execGateTimeout
  · exact h.execPeerAccessFail
  · exact h.execContributionArrival
  · exact h.execMergeHoldExpiry
  · exact h.execReductionFlush
  · exact h.execReductionAck
  · exact h.execGoTime
  · exact h.execArmTimeout
  · exact h.execStartedDeadline
  · exact h.execGangReleaseTimeout
  · exact h.execMirageDeadline
  · exact h.execVsync
  · exact h.execWriteBackAtHome
  · exact h.execExit
  · exact h.execRtt
  · exact h.execHalt
  · exact h.execYield
  · exact h.execNop
  · exact h.execDeviceLevelError
  · exact h.execTimeLock
  · exact h.execTailWrite
  · exact h.execSemRead
  · exact h.execSemWrite
  · exact h.execEvheadWrite
  · exact h.execQueueEnable
  · exact h.execNdropRead
  · exact h.execMmissRead
  · exact h.execLeave
  · exact h.execRegisterWrite
  · exact h.execHostWrite
  · exact h.execHostPortDown
  · exact h.execOasisSubstitution
  · exact h.execFirmwareCoreWear
  · exact h.execSupplySag
  · exact h.execClockStep
  · exact h.execPackageReset
  · exact h.execAsyncEngineFault
  · exact h.execUncorrectableError
  · exact h.execSoftErrorCorrected
  · exact h.execL2WatchHit
  · exact h.execLaneFailure
  · exact h.execPeerAccess
  · exact h.execTimePacket
  · exact h.execRouteChange
  · exact h.execPacketDrop
  · exact h.execPackageJoin
  · exact h.execArm
  · exact h.execStarted
  · exact h.execGo
  · exact h.execAbort
  · exact h.execMiss
  · exact h.execBroken
  · exact h.execStarved

/-- What a group's turn comes to has memory in its form. -/
def CanonTurn : Turn → Prop
  | .done s | .issue _ s => CanonMem s

theorem CanonTurn.of_done {r : Turn} {t : State} (h : CanonTurn r) (e : r = .done t) : CanonMem t := by
  rw [e] at h
  exact h

theorem CanonTurn.of_issue {r : Turn} {i : Instr} {t : State} (h : CanonTurn r) (e : r = .issue i t) : CanonMem t := by
  rw [e] at h
  exact h

theorem CanonMem.turn {gid : Nat} (h : CanonMem s) : CanonTurn (s.turn gid) := by
  unfold State.turn
  split
  · exact h
  · split
    · exact h
    · dsimp only
      split
      · exact h.enterDebug
      · split
        · exact h.upd rfl
        · exact h.takeTrap
        · split
          · exact h
          · split
            · exact h.takeTrap
            · exact h.afterFetch.upd (by dsimp only)

theorem CanonMem.tend (h : CanonMem s) : CanonMem s.tend := h.upd s.tend_mem

theorem CanonMem.runMove {m : Move} (h : CanonMem s) : CanonResult (s.runMove m) := by
  unfold State.runMove
  split
  · exact h.exec
  · split
    · next e => exact h.turn.of_done e
    · next e => exact (h.turn.of_issue e).exec

/-- A step keeps memory in its form. -/
theorem CanonMem.step (h : CanonMem s) : CanonResult (step s) := by
  have hn : CanonMem (s.tend.nextMove (Config.choice s.tick)).2 := h.tend.nextMove
  unfold Machine.step
  split
  · next e => rw [e] at hn; exact hn
  · next e => rw [e] at hn; exact CanonMem.runMove hn

end

/-- Settles O60: a step's result has memory in its form where the state has (`CanonMem.step`). -/
theorem canonicalMemory : Obligations.CanonicalMemory := by
  intro s t h e
  have ht : CanonResult (step s) := CanonMem.step h
  rw [e] at ht
  exact ht

end Sys2Proof.Machine

/-! What memory reads back (towards O52). All of it holds of memory; a word that is loaded from 2 ^ 60 on is one of a peer, which
answers with what `Config.peerByte` leaves open (R423, log entry 35). -/

namespace Sys2Proof.Machine

/-- What is written at an address reads back. -/
theorem read_writes_of_lt {bs : List Byte} {a n : Nat} {m : List Host.Cell} (hm : Memory.wf m = true) (hn : n < bs.length) :
    Memory.read (Memory.writes m a bs) (a + n) = bs.getD n 0 := by
  induction bs generalizing a n with
  | nil => exact absurd hn (Nat.not_lt_zero n)
  | cons y bs ih =>
    rw [Memory.writes, Memory.read_write _ _ _ _ (Memory.wf_writes _ _ _ hm)]
    cases n with
    | zero => rw [Nat.add_zero, if_pos rfl, List.getD_cons_zero]
    | succ n =>
      rw [if_neg (by omega), show a + (n + 1) = a + 1 + n by omega, ih (Nat.lt_of_succ_lt_succ hn), List.getD_cons_succ]

/-- Bytes that read as those of a list are that list. -/
theorem reads_eq_of_read {bs : List Byte} {a : Nat} {m : List Host.Cell}
    (h : ∀ n < bs.length, Memory.read m (a + n) = bs.getD n 0) : Memory.reads m a bs.length = bs := by
  induction bs generalizing a with
  | nil => rfl
  | cons y bs ih =>
    rw [List.length_cons, Memory.reads, ih fun n hn => ?_]
    · rw [← Nat.add_zero a, h 0 (Nat.succ_pos _), List.getD_cons_zero]
    · rw [show a + 1 + n = a + (n + 1) by omega, h (n + 1) (Nat.succ_lt_succ hn), List.getD_cons_succ]

/-- The n bytes of a number, read as a number. -/
theorem bytesNat_natBytes (v n : Nat) : bytesNat (natBytes v n) = v % 256 ^ n := by
  induction n generalizing v with
  | zero => rw [pow_zero, Nat.mod_one, natBytes, bytesNat]
  | succ n ih =>
    rw [natBytes, bytesNat, ih, BitVec.toNat_ofNat, pow_succ' 256 n]
    exact Nat.mod_mul.symm

/-- Byte i of a number's bytes. -/
theorem natBytes_getD {v n i : Nat} (hi : i < n) : (natBytes v n).getD i 0 = BitVec.ofNat 8 (v / 256 ^ i) := by
  induction n generalizing v i with
  | zero => exact absurd hi (Nat.not_lt_zero i)
  | succ n ih =>
    cases i with
    | zero => rw [natBytes, List.getD_cons_zero, pow_zero, Nat.div_one]
    | succ i => rw [natBytes, List.getD_cons_succ, ih (Nat.lt_of_succ_lt_succ hi), Nat.div_div_eq_div_mul, ← pow_succ']

/-- A word's bytes are little-endian. -/
theorem natBytes_getD_toNat {w n i : Nat} (v : BitVec w) (hi : i < n) :
    (natBytes v.toNat n).getD i 0 = v.extractLsb' (8 * i) 8 := by
  rw [natBytes_getD hi, BitVec.extractLsb', Nat.shiftRight_eq_div_pow, pow_mul,
    show (2 : Nat) ^ 8 = 256 from rfl]

/-- Bytes i < 4 of a word and of its low half agree. -/
theorem extractLsb'_setWidth_32 (v : W64) {i : Nat} (hi : i < 4) :
    (v.setWidth 32).extractLsb' (8 * i) 8 = v.extractLsb' (8 * i) 8 := by
  ext j hj
  simp only [BitVec.getElem_extractLsb', BitVec.getLsbD_setWidth]
  rw [decide_eq_true (by omega), Bool.true_and]

/-- What is written reads back at the home, below the peers' addresses. -/
theorem State.homeBytes_storeBytes {s : State} {a : Nat} {bs : List Byte} (hs : Memory.wf s.mem = true) (ha : a < 2 ^ 60) :
    (s.storeBytes a bs).homeBytes a bs.length = bs := by
  rw [State.homeBytes, if_pos ha]
  exact reads_eq_of_read fun n hn => read_writes_of_lt hs hn

/-- A peer that answers with what was written last reads back what was written. -/
theorem State.homeBytes_storeBytes_peer {s : State} {a : Nat} {bs : List Byte} (hs : Memory.wf s.mem = true) (ha : ¬ a < 2 ^ 60)
    (hp : ∀ t a x, 2 ^ 60 ≤ a → Config.peerByte t a x = x) : (s.storeBytes a bs).homeBytes a bs.length = bs := by
  rw [State.homeBytes, if_neg ha]
  refine List.ext_getElem (by simp) fun n h1 h2 => ?_
  rw [List.getElem_map, List.getElem_range, hp _ _ _ (by omega)]
  rw [show (s.storeBytes a bs).mem = Memory.writes s.mem a bs from rfl, read_writes_of_lt hs h2, List.getD_eq_getElem _ _ h2]

/-- A word that reads back byte by byte is loaded. -/
theorem State.load64_of_homeBytes {s : State} {a : Nat} {v : W64} (h : s.homeBytes a 8 = natBytes v.toNat 8) : s.load64 a = v := by
  rw [State.load64, State.loadN, h, bytesNat_natBytes, show 256 ^ 8 = 2 ^ 64 from rfl, Nat.mod_eq_of_lt v.isLt, BitVec.ofNat_toNat, BitVec.setWidth_eq]

theorem State.load32_of_homeBytes {s : State} {a : Nat} {v : W32} (h : s.homeBytes a 4 = natBytes v.toNat 4) : s.load32 a = v := by
  rw [State.load32, State.loadN, h, bytesNat_natBytes, show 256 ^ 4 = 2 ^ 32 from rfl, Nat.mod_eq_of_lt v.isLt, BitVec.ofNat_toNat, BitVec.setWidth_eq]

/-- The clauses of `Obligations.MemoryBytes` that speak of memory's bytes hold at every address. -/
theorem memory_bytes (s : State) (a b n : Nat) (bs : List Byte) (v : W64) (hs : Memory.wf s.mem = true) :
    (n < bs.length → Memory.read (s.storeBytes a bs).mem (a + n) = bs.getD n 0) ∧
    (b < a ∨ a + bs.length ≤ b → Memory.read (s.storeBytes a bs).mem b = Memory.read s.mem b) ∧
    (∀ i < 8, Memory.read (s.store64 a v).mem (a + i) = v.extractLsb' (8 * i) 8) ∧
    (∀ i < 4, Memory.read (s.store32 a (v.setWidth 32)).mem (a + i) = v.extractLsb' (8 * i) 8) ∧
    Memory.wf (s.storeBytes a bs).mem = true := by
  refine ⟨fun hn => read_writes_of_lt hs hn, fun hb => read_writes bs a s.mem hs (by omega), fun i hi => ?_, fun i hi => ?_,
    State.wf_storeBytes s a bs hs⟩
  · rw [← natBytes_getD_toNat v hi]
    exact read_writes_of_lt hs (by rwa [natBytes_length])
  · rw [← extractLsb'_setWidth_32 v hi, ← natBytes_getD_toNat _ hi]
    exact read_writes_of_lt hs (by rwa [natBytes_length])

/-- The bytes of a number at their home, where a peer answers with what was written last. -/
theorem State.homeBytes_store {s : State} {a x n : Nat} (hs : Memory.wf s.mem = true)
    (hp : 2 ^ 60 ≤ a → ∀ t a x, 2 ^ 60 ≤ a → Config.peerByte t a x = x) :
    (s.storeBytes a (natBytes x n)).homeBytes a n = natBytes x n := by
  have hlen := natBytes_length x n
  by_cases ha : a < 2 ^ 60
  · simpa only [hlen] using State.homeBytes_storeBytes (bs := natBytes x n) hs ha
  · simpa only [hlen] using State.homeBytes_storeBytes_peer (bs := natBytes x n) hs ha (hp (by omega))

/-- Words read back below the peers' addresses. -/
theorem load_store_of_lt {s : State} {a : Nat} (v : W64) (hs : Memory.wf s.mem = true) (ha : a < 2 ^ 60) :
    (s.store64 a v).load64 a = v ∧ (s.store32 a (v.setWidth 32)).load32 a = v.setWidth 32 :=
  ⟨State.load64_of_homeBytes (State.homeBytes_store hs fun h => absurd ha (by omega)),
    State.load32_of_homeBytes (State.homeBytes_store hs fun h => absurd ha (by omega))⟩

/-- The low byte of a loaded word is the first that is read. -/
theorem State.load64_setWidth_8 {s : State} {a : Nat} {y : Byte} {bs : List Byte} (h : s.homeBytes a 8 = y :: bs) :
    (s.load64 a).setWidth 8 = y := by
  rw [State.load64, State.loadN, h, bytesNat]
  apply BitVec.eq_of_toNat_eq
  rw [BitVec.toNat_setWidth, BitVec.toNat_ofNat]
  omega

/-- The first byte that is read at an address of a peer is what it answers. -/
theorem State.homeBytes_peer {s : State} {a n : Nat} (ha : 2 ^ 60 ≤ a) :
    ∃ bs, s.homeBytes a (n + 1) = Config.peerByte s.tick a (Memory.read s.mem a) :: bs := by
  rw [State.homeBytes, if_neg (by omega), List.range_succ_eq_map, List.map_cons]
  exact ⟨_, rfl⟩

/-- A byte is the low byte of its word. -/
theorem setWidth_setWidth_byte (x : Byte) : (x.setWidth 64).setWidth 8 = x := by
  apply BitVec.eq_of_toNat_eq
  simp only [BitVec.toNat_setWidth]
  omega

/-- What `Obligations.MemoryBytes` says comes to this: a peer's memory answers with the byte that this package wrote last. The model
leaves that open, as every package may write there (R423, log entry 35), so neither the statement nor its negation follows; all
else that it says holds (`memory_bytes`, `load_store_of_lt`). -/
theorem memoryBytes_iff : Obligations.MemoryBytes ↔ ∀ t a x, 2 ^ 60 ≤ a → Config.peerByte t a x = x := by
  constructor
  · intro h t a x ha
    let s : State := { State.reset with tick := t }
    obtain ⟨-, -, hload, -, -, -, -⟩ := h s a 0 0 [] (x.setWidth 64) rfl
    have hread : Memory.read (s.store64 a (x.setWidth 64)).mem a = x := by
      have hfirst : Memory.read (s.store64 a (x.setWidth 64)).mem (a + 0) = (natBytes (x.setWidth 64).toNat 8).getD 0 0 :=
        read_writes_of_lt rfl (by rw [natBytes_length]; omega)
      rw [Nat.add_zero, natBytes_getD (by omega), pow_zero, Nat.div_one] at hfirst
      rw [hfirst]
      exact setWidth_setWidth_byte x
    obtain ⟨bs, hbs⟩ := State.homeBytes_peer (s := s.store64 a (x.setWidth 64)) (n := 7) ha
    rw [hread] at hbs
    have hlow := State.load64_setWidth_8 hbs
    rw [hload, setWidth_setWidth_byte] at hlow
    exact hlow.symm
  · intro hp s a b n bs v hs
    obtain ⟨hread, hother, h64, h32, hwf⟩ := memory_bytes s a b n bs v hs
    exact ⟨hread, hother, State.load64_of_homeBytes (State.homeBytes_store hs fun _ => hp),
      State.load32_of_homeBytes (State.homeBytes_store hs fun _ => hp), h64, h32, hwf⟩

end Sys2Proof.Machine

/-! The tile instructions (O18), and mrd, mstat and mrel with where the matrix instructions do not run (O20). -/

namespace Sys2Proof.Machine

/-- Settles O18: every tile instruction is of the shared form `tileOp` (R198), whose completions are `tile_of`. -/
theorem tileInstructions : Obligations.TileInstructions :=
  fun v cv set sat rnd acc b x tl =>
    ⟨tile_of (exec_mma v set sat acc b x tl), tile_of (exec_mmas v set sat acc b x tl), tile_of (exec_mmt v set sat acc b x tl),
      tile_of (exec_mzero cv acc tl), tile_of (exec_mld cv acc b tl), tile_of (exec_mdrain cv rnd acc b tl),
      tile_of (exec_mdraint cv rnd acc b x tl), tile_of (exec_mchk cv acc b x tl)⟩

/-- In a block with a context an instruction goes on with it (R192). -/
theorem withCtx_some {c : Ctx} {s : State} {k : Nat} (go_ : Nat → MatCtx → Effect) (hctx : s.ctxNum c.g.blk = some k) :
    c.withCtx s go_ = go_ k ((s.core c.core).ctx k) := by
  rw [Ctx.withCtx, hctx]

/-- In one without it is an illegal operand (R192). -/
theorem withCtx_none {c : Ctx} {s : State} (go_ : Nat → MatCtx → Effect) (hbare : s.ctxNum c.g.blk = none) :
    c.withCtx s go_ = c.illegalOperand := by
  rw [Ctx.withCtx, hbare]

/-- An instruction that has an illegal operand in every context has one. -/
theorem withCtx_illegal {c : Ctx} {s : State} {go_ : Nat → MatCtx → Effect} (hgo : ∀ k x, go_ k x = c.illegalOperand) :
    c.withCtx s go_ = c.illegalOperand := by
  unfold Ctx.withCtx
  split
  · rfl
  · exact hgo _ _

/-- An operand's low bits as a field and as a remainder. -/
theorem toNat_lowBits (y : W64) (n : Nat) : (y.extractLsb' 0 n).toNat = y.toNat % 2 ^ n := by
  rw [BitVec.extractLsb'_toNat, Nat.shiftRight_zero]

-- Reads

/-- mrd, mstat and mrel, once the block has its context and the operands are legal (R197, R214, R218). -/
theorem matrixReads : Claims.MatrixReads := by
  intro n e d v acc a tl k owns ctx column
  refine ⟨?_, ?_, ?_, ?_, ?_, ?_, ?_⟩
  · refine completesAsync_of_body (fun s => by rw [exec_mrd, execMrd]) (fun _ _ _ => rfl) fun c s ⟨hctx, htile, hcolumn, hfits⟩ => ?_
    refine (withCtx_some _ hctx).trans ?_
    have hlegal : (!c.g.tileInWindow (c.g.accTile acc) || column c % 2 ^ n.toNat != 0 || decide (column c + 2 ^ n.toNat > 64)) = false := by
      simp [htile, hcolumn, hfits]
    simp only [toNat_lowBits]
    exact if_neg (Bool.eq_false_iff.1 hlegal)
  · exact completes_of_body (exec_mstat (.state d n) tl) (fun _ _ _ => rfl) fun _ _ hctx => withCtx_some _ hctx
  · exact completes_of_body (exec_mstat (.fmt d n) tl) (fun _ _ _ => rfl) fun _ _ hctx => withCtx_some _ hctx
  · exact completes_of_body (exec_mstat (.tol d) tl) (fun _ _ _ => rfl) fun _ _ hctx => withCtx_some _ hctx
  · exact completes_of_body (exec_mstat (.mmc d) tl) (fun _ _ _ => rfl) fun _ _ hctx => withCtx_some _ hctx
  · refine completes_of_body (exec_mstat (.settol a) tl) (fun _ _ _ => rfl) fun c s ⟨hctx, hleast, hmost⟩ => ?_
    refine (withCtx_some _ hctx).trans ?_
    have hlegal : (decide ((c.bits64 a 0).toNat % 32 < 4) || decide ((c.bits64 a 0).toNat % 32 > 23)) = false := by
      simp [hleast, hmost]
    simp only [toNat_lowBits]
    exact if_neg (Bool.eq_false_iff.1 hlegal)
  · exact completes_of_body (exec_mrel n) (fun _ _ _ => rfl) fun _ _ hctx => withCtx_some _ hctx

-- Traps

/-- Where an instruction of the shared form of the tile instructions does not run (R192, R198, R204, R220). -/
theorem tile_traps {i kind cv set sat rnd acc b x tl} (he : ∀ s, exec i s = tileOp kind cv set sat rnd acc b x tl s) (k : Nat) :
    Traps i [] tl (fun c _ => c.g.hkind ≠ 0) (fun c _ => c.trapAt 0x02 c.word) ∧
    Traps i [] tl (fun c s => c.g.hkind = 0 ∧ s.ctxNum c.g.blk = none) (fun c _ => c.trapAt 0x03 c.word) ∧
    Traps i [] tl (fun c _ => c.g.hkind = 0 ∧ (c.g.tileInWindow (c.g.accTile acc) = false ∨ oddPair b = true ∨ oddPair x = true))
      (fun c _ => c.trapAt 0x03 c.word) ∧
    ∀ m, cv = some m → Traps i [] tl (fun c s => c.tileLegal s k acc b x ∧ (((s.core c.core).ctx k).cv m.toNat).st = 3)
      fun c _ => c.trapAt 0x03 c.word := by
  refine ⟨?_, ?_, ?_, ?_⟩
  · exact traps_of_pre he fun _ _ hinside => beq_eq_false_iff_ne.2 hinside
  · exact traps_of_body he (fun _ _ ⟨houtside, _⟩ => beq_iff_eq.2 houtside) fun _ _ ⟨_, hbare⟩ => withCtx_none _ hbare
  · refine traps_of_body he (fun _ _ ⟨houtside, _⟩ => beq_iff_eq.2 houtside) fun c s ⟨_, hbad⟩ => withCtx_illegal fun _ _ => if_pos ?_
    obtain h | h | h := hbad <;> simp [h]
  · rintro m rfl
    refine traps_of_body he (fun _ _ ⟨⟨houtside, _⟩, _⟩ => beq_iff_eq.2 houtside)
      fun c s ⟨⟨_, hctx, htile, hb, hx⟩, hattached⟩ => (withCtx_some _ hctx).trans ?_
    simp only [htile, hb, hx, Bool.not_true, Bool.or_self, Bool.false_eq_true, if_false]
    exact if_pos hattached

/-- The tile instructions by their shared form, the others by their context and tile (R192, R198, R204, R220). -/
theorem matrixTraps : Claims.MatrixTraps := by
  intro v n cv set sat rnd acc a o b x slot e r q tl k operand illegal bare
  refine ⟨?_, ?_, ?_, ?_, ?_⟩
  · simp only [List.forall_mem_cons]
    exact ⟨tile_traps (exec_mma v set sat acc b x tl) k, tile_traps (exec_mmas v set sat acc b x tl) k,
      tile_traps (exec_mmt v set sat acc b x tl) k, tile_traps (exec_mzero cv acc tl) k, tile_traps (exec_mld cv acc b tl) k,
      tile_traps (exec_mdrain cv rnd acc b tl) k, tile_traps (exec_mdraint cv rnd acc b x tl) k,
      tile_traps (exec_mchk cv acc b x tl) k, List.forall_mem_nil _⟩
  · exact traps_of_pre (exec_sign n a o slot) fun _ _ hinside => beq_eq_false_iff_ne.2 hinside
  · refine traps_of_body (exec_mrd e r acc a tl) (fun _ _ _ => rfl) fun c s hbad => ?_
    obtain hbare | htile := hbad
    · exact withCtx_none _ hbare
    · exact withCtx_illegal fun _ _ => if_pos (by simp [htile])
  · exact traps_of_body (exec_mstat q tl) (fun _ _ _ => rfl) fun _ _ hbare => withCtx_none _ hbare
  · exact traps_of_body (exec_mrel n) (fun _ _ _ => rfl) fun _ _ hbare => withCtx_none _ hbare

/-- Settles O20: the reads in a block with a context, and each trap by the check that fails. -/
theorem matrixReadsAndTraps : Obligations.MatrixReadsAndTraps :=
  ⟨matrixReads, matrixTraps⟩

end Sys2Proof.Machine

/-! sign (O19). -/

namespace Sys2Proof.Machine

-- A firing operation's checks (R219)

/-- An operation whose checks pass fires (R198). -/
theorem fires_ok {c : Ctx} {mask : LaneMask} {o o' : MatOp} {s s' : State} (go_ : MatOp → State → State)
    (hcheck : s.fireCheck (s.viewOf c.gid c.g) o = .ok o' s') : c.fires mask o s go_ = .ok (go_ o' s') := by
  rw [Ctx.fires, hcheck]

/-- One that fails a check traps (R219). -/
theorem fires_trap {c : Ctx} {mask : LaneMask} {o : MatOp} {s : State} {code : Nat} {addr : W64} (go_ : MatOp → State → State)
    (hcheck : s.fireCheck (s.viewOf c.gid c.g) o = .trap code addr) : c.fires mask o s go_ = c.fault code addr mask := by
  rw [Ctx.fires, hcheck]

-- What a sign finds and leaves in its register

/-- The reference word of a set after a sign of the lanes em (R195): the first signing lane's. -/
def CvReg.signRef (v : CvReg) (em : LaneMask) (b : Nat → W32) : W32 :=
  if v.signed == 0 then b ((lowestLane em).getD 0) else v.ref

/-- The lanes whose word differs from it (R196). -/
def CvReg.signDiffer (v : CvReg) (em : LaneMask) (b : Nat → W32) : LaneMask :=
  maskOf fun l => em.getLsbD l && b l != v.signRef em b

/-- The dissenting group of the signs before (R196); a set that begins has none. -/
def CvReg.dissenter (v : CvReg) : Option Nat := if v.signed == 0 then none else v.dgix

/-- No lane of the set dissents, of this sign or before it (R196). -/
def CvReg.signAgrees (v : CvReg) (em : LaneMask) (b : Nat → W32) : Prop :=
  (v.dis = false ∨ (v.signed == 0) = true) ∧ v.signDiffer em b = 0

/-- The register after a sign of a group's lanes has counted in it (R195). -/
def CvReg.afterSign (v : CvReg) (em : LaneMask) (b : Nat → W32) (size gix id st : Nat) : CvReg :=
  { v with
    st := st, signed := v.signed + laneCount em, size := BitVec.ofNat 11 size, ref := v.signRef em b,
    dis := (v.dis && !(v.signed == 0)) || v.signDiffer em b != 0,
    dgix := if v.signDiffer em b = 0 then v.dissenter else some (Nat.min (v.dissenter.getD gix) gix), signOps := v.signOps ++ [id] }

/-- sign refuses a set of more than 1536 lanes, one of another size than the set in progress, a complete one, and a count beyond
the set (R195). -/
def CvReg.refuses (v : CvReg) (em : LaneMask) (size : Nat) : Prop :=
  size + 1 > 1536 ∨ ((v.st = 1 ∨ v.st = 3) ∧ v.signed ≠ 0 ∧ size ≠ v.size.toNat) ∨ v.st = 2 ∨ v.signed + laneCount em > size + 1

section
variable {v : CvReg} {em : LaneMask} {b : Nat → W32} {size : Nat}

/-- The model's test of a set that does not agree. -/
theorem dissents_iff : ((v.dis && !(v.signed == 0)) || v.signDiffer em b != 0) = true ↔ ¬ v.signAgrees em b := by
  rw [Bool.or_eq_true, bne_iff_ne, Bool.and_eq_true, CvReg.signAgrees]
  cases v.dis <;> cases v.signed == 0 <;> simp

/-- The model's test of a sign that is refused. -/
theorem refuses_iff : (decide (size + 1 > 1536) || ((v.st == 1 || v.st == 3) && v.signed != 0 && size != v.size.toNat) || v.st == 2 ||
    decide (v.signed + laneCount em > size + 1)) = true ↔ v.refuses em size := by
  simp only [Bool.or_eq_true, Bool.and_eq_true, decide_eq_true_iff, beq_iff_eq, bne_iff_ne, CvReg.refuses, or_assoc, and_assoc]

/-- A set in order is not refused (R195). -/
theorem not_refuses (hmost : size + 1 ≤ 1536) (hopen : v.st ≠ 2)
    (hsame : v.signed = 0 ∨ (v.st ≠ 1 ∧ v.st ≠ 3) ∨ size = v.size.toNat) (hfits : v.signed + laneCount em ≤ size + 1) :
    ¬ v.refuses em size := by
  rintro (h | ⟨hst, hsigned, hsize⟩ | h | h)
  · omega
  · omega
  · exact hopen h
  · omega

end

-- A sign that counts

/-- A sign's operation waits with its slot, and its lanes count in the register (R195). -/
def State.countSign (s : State) (c : Ctx) (k n : Nat) (slot : BitVec 3) (v : CvReg) (b : Nat → W32) (size st : Nat) : State :=
  (s.launchAsync { c.async (some slot) with ready := false, site := s.siteOf c.g c.cl.pc }).modCtx c.core k fun x =>
    x.setCv n (v.afterSign c.em b size c.g.gix s.nextId st)

/-- The operation that fires with a set (R198). -/
def Ctx.firing (c : Ctx) (s : State) (v : CvReg) (b : Nat → W32) (o : MatOp) : MatOp :=
  { o with fmt := v.signRef c.em b, firing := s.siteOf c.g c.cl.pc }

/-- What the checks of the operation that is attached to a register come to (R219). -/
def Ctx.attachedCheck (c : Ctx) (s : State) (x : MatCtx) (v : CvReg) (b : Nat → W32) : Option FireCheck :=
  match v.op with
  | none => none
  | some id => (x.ops.find? fun o => o.id == id).map fun o => s.fireCheck (s.viewOf c.gid c.g) (c.firing s v b o)

/-- A sign that fires (R198): its context takes the fired operation and the idle register, and the signs of the set end. -/
def State.fireSign (c : Ctx) (k n : Nat) (slot : BitVec 3) (v : CvReg) (b : Nat → W32) (o : MatOp) (s : State) : State :=
  ((s.launchAsync { c.async (some slot) with ready := false }).modCtx c.core k fun x =>
    { x.setCv n { idleCv with fires := v.fires + 1, ref := v.signRef c.em b } with
      ops := x.ops.map fun y => if y.id = o.id then o else y }).endOps (v.signOps ++ [s.nextId])

section
variable {c : Ctx} {n size k : Nat} {b : Nat → W32} {slot : BitVec 3} {x : MatCtx} {s : State}

/-- A set that is not complete yet keeps collecting (R195). -/
theorem signs_collects (hless : (x.cv n).signed + laneCount c.em < size + 1) :
    c.signs n size b slot k x s =
      .ok (s.countSign c k n slot (x.cv n) b size (if (x.cv n).st = 3 then 3 else 1)) := by
  have hopen : ((x.cv n).signed + laneCount c.em == size + 1) = false := beq_eq_false_iff_ne.2 hless.ne
  simp only [Ctx.signs, hopen, Bool.false_and, Bool.false_eq_true, if_false]
  rfl

variable (hfull : (x.cv n).signed + laneCount c.em = size + 1)
include hfull

/-- One that would complete with a dissenting lane is a format divergence (R196). -/
theorem signs_diverges (hdissents : ¬ (x.cv n).signAgrees c.em b) :
    c.signs n size b slot k x s = c.fault 0x12 (BitVec.ofNat 64 (((x.cv n).signDiffer c.em b).toNat +
      if (x.cv n).dis then 2 ^ 32 + (x.cv n).dissenter.getD 0 * 2 ^ 33 else 0)) c.em :=
  if_pos (Bool.and_eq_true_iff.2 ⟨beq_iff_eq.2 hfull, dissents_iff.2 hdissents⟩)

variable (hagrees : (x.cv n).signAgrees c.em b)
include hagrees

/-- One that agrees, and to which nothing is attached, is complete (R195). -/
theorem signs_completes (hbare : (x.cv n).op = none) :
    c.signs n size b slot k x s = .ok (s.countSign c k n slot (x.cv n) b size 2) := by
  refine (if_neg fun h => dissents_iff.1 (Bool.and_eq_true_iff.1 h).2 hagrees).trans ((if_pos (beq_iff_eq.2 hfull)).trans ?_)
  split
  · rfl
  · next hop => exact absurd (hop.symm.trans hbare) nofun

/-- One that agrees makes the checks of the operation that is attached to it (R198, R219). -/
theorem signs_fires {id : Nat} {o : MatOp} (hop : (x.cv n).op = some id) (hfind : (x.ops.find? fun o => o.id == id) = some o) :
    c.signs n size b slot k x s = c.fires c.em (c.firing s (x.cv n) b o) s (State.fireSign c k n slot (x.cv n) b) := by
  refine (if_neg fun h => dissents_iff.1 (Bool.and_eq_true_iff.1 h).2 hagrees).trans ((if_pos (beq_iff_eq.2 hfull)).trans ?_)
  simp only [hop, hfind]
  rfl

end

/-- The checks of an attached operation are those of an operation of the context (R198). -/
theorem attachedCheck_eq_some {c : Ctx} {s : State} {x : MatCtx} {v : CvReg} {b : Nat → W32} {r : FireCheck}
    (hcheck : c.attachedCheck s x v b = some r) : ∃ id o, v.op = some id ∧ (x.ops.find? fun o => o.id == id) = some o ∧
      s.fireCheck (s.viewOf c.gid c.g) (c.firing s v b o) = r := by
  unfold Ctx.attachedCheck at hcheck
  split at hcheck
  · exact absurd hcheck nofun
  · next id hop =>
    obtain ⟨o, hfind, hr⟩ := Option.map_eq_some_iff.1 hcheck
    exact ⟨id, o, hop, hfind, hr⟩

-- The word

/-- The lanes of the set that a sign names, less one (R195). -/
def Ctx.signSize (c : Ctx) (a : Operand) : Nat := (c.bits64 a 0).toNat % 2048

/-- The register that a sign names (R194). -/
def Ctx.signReg (c : Ctx) (s : State) (k : Nat) (n : BitVec 3) : CvReg := ((s.core c.core).ctx k).cv n.toNat

/-- What a sign outside handlers does (R195): the body of the model's `execSign`. -/
def Ctx.signEffect (c : Ctx) (n : BitVec 3) (a b : Operand) (slot : BitVec 3) (s : State) : Effect :=
  if s.tileWaiting c.gid then .stall
  else if c.em = 0 then .ok (s.launchAsync (c.async (some slot)))
  else c.withCtx s fun k x =>
    let size := ((c.g.read64 c.rank a 0).extractLsb' 0 11).toNat
    let v := x.cv n.toNat
    let e := laneCount c.em
    if size + 1 > 1536 || ((v.st == 1 || v.st == 3) && v.signed != 0 && size != v.size.toNat) || v.st == 2 ||
        v.signed + e > size + 1 then c.illegalOperand
    else c.signs n.toNat size (fun l => c.g.read32 c.rank .word b l) slot k x s

/-- sign is a word with that effect. -/
theorem exec_sign_signEffect (n : BitVec 3) (a b : Operand) (slot : BitVec 3) (s : State) :
    exec (.sign n a b slot) s = issueAsync Ctx.noHandler [.src b] (some slot) (fun c s => c.signEffect n a b slot s) s :=
  rfl

/-- sign traps where its effect does, on the state whose flags an operand's read has settled (R37). -/
theorem exec_sign_trap {n : BitVec 3} {a b : Operand} {slot : BitVec 3} {s : State} {c : Ctx} {t : Trap}
    (hissues : Issues s c [.src b] (some slot)) (houtside : c.g.hkind = 0)
    (htrap : c.signEffect n a b slot (s.settle c [.src b]) = .trap t) :
    exec (.sign n a b slot) s = .next (s.takeTrap c.gid c.cl.pc c.cl.hdr t) :=
  issueWith_trap (body := fun c s => c.signEffect n a b slot (s.settle c [.src b])) hissues (beq_iff_eq.2 houtside) htrap

section
variable {c : Ctx} {s : State} {n : BitVec 3} {a b : Operand} {slot : BitVec 3} {k : Nat} (htile : s.tileWaiting c.gid = false)
include htile

/-- A group with no lane of EM only holds its slot (R195). -/
theorem signEffect_empty (hem : c.em = 0) : c.signEffect n a b slot s = .ok (s.launchAsync (c.async (some slot))) :=
  (if_neg (Bool.eq_false_iff.1 htile)).trans (if_pos hem)

variable (hem : c.em ≠ 0)
include hem

/-- In a block with no context sign is an illegal operand (R192). -/
theorem signEffect_bare (hbare : s.ctxNum c.g.blk = none) : c.signEffect n a b slot s = c.illegalOperand :=
  (if_neg (Bool.eq_false_iff.1 htile)).trans ((if_neg hem).trans (withCtx_none _ hbare))

variable (hctx : s.ctxNum c.g.blk = some k)
include hctx

/-- So is one that its register refuses (R195). -/
theorem signEffect_refused (hrefuses : (c.signReg s k n).refuses c.em (c.signSize a)) :
    c.signEffect n a b slot s = c.illegalOperand := by
  refine (if_neg (Bool.eq_false_iff.1 htile)).trans ((if_neg hem).trans ((withCtx_some _ hctx).trans ?_))
  simp only [toNat_lowBits]
  exact if_pos (refuses_iff.2 hrefuses)

/-- The others count. -/
theorem signEffect_counts (haccepts : ¬ (c.signReg s k n).refuses c.em (c.signSize a)) :
    c.signEffect n a b slot s = c.signs n.toNat (c.signSize a) (c.bits32 b) slot k ((s.core c.core).ctx k) s := by
  refine (if_neg (Bool.eq_false_iff.1 htile)).trans ((if_neg hem).trans ((withCtx_some _ hctx).trans ?_))
  simp only [toNat_lowBits]
  exact if_neg (mt refuses_iff.1 haccepts)

end

/-- A sign that is legal as far as its set is in order (R192, R195, R220). -/
def Ctx.signLegal (c : Ctx) (s : State) (k : Nat) (n : BitVec 3) (a : Operand) : Prop :=
  c.g.hkind = 0 ∧ s.tileWaiting c.gid = false ∧ c.em ≠ 0 ∧ s.ctxNum c.g.blk = some k ∧ c.signSize a + 1 ≤ 1536 ∧
    (c.signReg s k n).st ≠ 2 ∧ ((c.signReg s k n).signed = 0 ∨ ((c.signReg s k n).st ≠ 1 ∧ (c.signReg s k n).st ≠ 3) ∨
      c.signSize a = (c.signReg s k n).size.toNat)

/-- It counts, as long as its lanes are not beyond the set. -/
theorem signEffect_legal {c : Ctx} {s : State} {k : Nat} {n : BitVec 3} {a b : Operand} {slot : BitVec 3}
    (hlegal : c.signLegal s k n a) (hfits : (c.signReg s k n).signed + laneCount c.em ≤ c.signSize a + 1) :
    c.signEffect n a b slot s = c.signs n.toNat (c.signSize a) (c.bits32 b) slot k ((s.core c.core).ctx k) s := by
  obtain ⟨-, htile, hem, hctx, hmost, hopen, hsame⟩ := hlegal
  exact signEffect_counts htile hem hctx (not_refuses hmost hopen hsame hfits)

/-- Settles O19: a legal sign by its count, by whether the set agrees, and by the attached operation's checks; the others by the
check that fails. -/
theorem signInstruction : Obligations.SignInstruction := by
  intro n a b slot k reg size total first ref differ agrees fires traps next legal
  refine ⟨?_, ?_, ?_, ?_, fun code addr s c hissues hcond => ?_, fun s c hissues hcond => ?_, fun s c hissues hcond => ?_⟩
  · exact completesAsync_of_body (exec_sign_signEffect n a b slot) (fun _ _ ⟨⟨houtside, _⟩, _⟩ => beq_iff_eq.2 houtside)
      fun _ _ ⟨hlegal, hless⟩ => (signEffect_legal hlegal hless.le).trans (signs_collects hless)
  · exact completesAsync_of_body (exec_sign_signEffect n a b slot) (fun _ _ ⟨⟨houtside, _⟩, _⟩ => beq_iff_eq.2 houtside)
      fun _ _ ⟨hlegal, hfull, hagrees, hbare⟩ => (signEffect_legal hlegal hfull.le).trans (signs_completes hfull hagrees hbare)
  · exact completesAsync_of_body (exec_sign_signEffect n a b slot) (fun _ _ ⟨houtside, _⟩ => beq_iff_eq.2 houtside)
      fun _ _ ⟨_, htile, hem⟩ => signEffect_empty htile hem
  · refine completesAsync_of_body (exec_sign_signEffect n a b slot) (fun _ _ ⟨⟨houtside, _⟩, _⟩ => beq_iff_eq.2 houtside)
      fun c s ⟨hlegal, hfull, hagrees, o, s', hfires⟩ => (signEffect_legal hlegal hfull.le).trans ?_
    obtain ⟨id, o₀, hop, hfind, hcheck⟩ := attachedCheck_eq_some hfires
    simp only [hfires]
    exact (signs_fires hfull hagrees hop hfind).trans (fires_ok _ hcheck)
  · obtain ⟨hlegal, hfull, hagrees, hfires⟩ := hcond
    obtain ⟨id, o, hop, hfind, hcheck⟩ := attachedCheck_eq_some hfires
    exact exec_sign_trap hissues hlegal.1
      ((signEffect_legal hlegal hfull.le).trans ((signs_fires hfull hagrees hop hfind).trans (fires_trap _ hcheck)))
  · obtain ⟨hlegal, hfull, hdissents⟩ := hcond
    exact exec_sign_trap hissues hlegal.1 ((signEffect_legal hlegal hfull.le).trans (signs_diverges hfull hdissents))
  · obtain ⟨houtside, htile, hem, hbare | ⟨hctx, hrefuses⟩⟩ := hcond
    · exact exec_sign_trap hissues houtside (signEffect_bare htile hem hbare)
    · exact exec_sign_trap hissues houtside (signEffect_refused htile hem hctx hrefuses)

end Sys2Proof.Machine

/-! Faults of the engines and of memory (O39). -/

namespace Sys2Proof.Machine

section
variable {s : State} {e : EngineRef} {addr : W64}

/-- A failing access of an engine that works for a launch kills it at the instruction that started the work (R314). -/
theorem exec_asyncEngineFault_kills {n : Nat} {x : Site} (hfails : s.engineFails e addr = true)
    (hwork : s.engineWork e addr = some (n, x)) : exec (.asyncEngineFault e addr) s = .next (s.killLaunch n 0x30 addr x) := by
  cases e with
  | pool slot => exact absurd hwork nofun
  | _ => simp only [exec_asyncEngineFault, execAsyncEngineFault, hfails, hwork, Bool.not_true, Bool.false_eq_true, if_false]

/-- A failing access of a pool kills every launch of its pass (R356). -/
theorem exec_asyncEngineFault_pool {slot : Nat} (hfails : s.engineFails (.pool slot) addr = true) :
    exec (.asyncEngineFault (.pool slot) addr) s = .next (s.poolFault slot 0x30 addr (Site.of 0)) := by
  rw [exec_asyncEngineFault, execAsyncEngineFault, hfails]
  rfl

/-- An uncorrectable error ends the access of an engine that works for a launch: a job's as an engine fault, the others' with CODE
0x31 at the error's place (R314, R323, log entry 23). -/
theorem meetError_engine {n : Nat} {x : Site} (place : W64) (hwork : s.engineWork e addr = some (n, x)) :
    s.meetError place (.engine e addr) =
      if jobEngine e then s.killLaunch n 0x30 addr x else s.killLaunch n 0x31 place x := by
  cases e with
  | pool slot => exact absurd hwork nofun
  | _ => simp only [State.meetError, hwork]

end

/-- Settles O39: an engine's fault by whether it is a pool's, an uncorrectable error by the access that met it. -/
theorem memoryFaultEvents : Obligations.MemoryFaultEvents := by
  intro s n m die loc slot addr u e x g cmd place met
  have hmet (a : ErrorAccess) : met a = .next (s.meetError place a) := exec_uncorrectableError u die loc [a] s
  refine ⟨exec_asyncEngineFault_kills, exec_asyncEngineFault_pool, fun hgroup => ?_, fun hop => ?_, fun hjob => ?_, fun hjob => ?_,
    fun e he hwork => ?_, hmet _, fun hcmd => ?_, exec_softErrorCorrected u die loc s⟩
  · simp only [hmet, State.meetError, hgroup]
  · simp only [hmet, State.meetError, hop]
  · rw [hmet, meetError_engine place hjob]
    rfl
  · rw [hmet, meetError_engine place hjob]
    rfl
  · have hother : jobEngine e = false := by
      simp only [List.mem_cons, List.not_mem_nil, or_false] at he
      obtain rfl | rfl | rfl | rfl := he <;> rfl
    rw [hmet, meetError_engine place hwork, hother]
    rfl
  · simp only [hmet, State.meetError, hcmd]

end Sys2Proof.Machine

/-! attr, vbld and the texture instructions (O21). -/

namespace Sys2Proof.Machine

/-- A field of a word as a quotient and a remainder. -/
theorem toNat_field {w : Nat} (x : BitVec w) (start len : Nat) :
    (x.extractLsb' start len).toNat = x.toNat / 2 ^ start % 2 ^ len := by
  rw [BitVec.extractLsb'_toNat, Nat.shiftRight_eq_div_pow]

-- The visibility buffer

/-- The words of the visibility buffer that a lane of vbld reads (R228, R229): the two of its pixel's entry, and the pixel's word of
the plane after the entries. -/
def visibleWords (base : W64) (n : BitVec 2) (d : BitVec 6) (p : W32) (l : Nat) : List (Nat × W64 × Dst) :=
  let k := n.toNat * 1024 + p.toNat / 32 % 32 * 32 + p.toNat % 32
  [(l, base + BitVec.ofNat 64 (8 * k), .v l (d.toNat + 0) 4 false), (l, base + BitVec.ofNat 64 (8 * k + 4), .v l (d.toNat + 1) 4 false),
   (l, base + BitVec.ofNat 64 (32768 + 4 * k), .v l (d.toNat + 2) 4 false)]

/-- vbld loads the words of its lanes where its base is an aligned buffer in the block's reservation and nothing keeps them
(R229). -/
theorem completesAsync_vbld (n : BitVec 2) (d : BitVec 6) (r : BitVec 5) (b : Operand) (tl : Tail) :
    let base (c : Ctx) := c.g.sget r.toNat
    let words (c : Ctx) := (laneList c.em).flatMap fun l => visibleWords (base c) n d (c.bits32 b l) l
    CompletesAsync (.vbld n d r b tl) [.src b, .regs d 3 4] tl
      (fun c s => (c.em ≠ 0 → spaceOf (base c) = some .tile ∧
          (s.viewOf c.gid c.g).tileOk ((base c).toNat % 2 ^ 19) 49152 = true ∧ (base c).toNat % 1024 = 0) ∧
        c.gfxOpen (s.viewOf c.gid c.g) 4 (words c) [] tl none s)
      (fun c s => (c.gfxGather (s.viewOf c.gid c.g) 4 (words c) tl none s).departed c (s.viewOf c.gid c.g) tl) := by
  intro base words
  refine completesAsync_of_body (exec_vbld n d r b tl) (fun _ _ _ => rfl) fun c s ⟨hbase, hopen⟩ => ?_
  have hplaced : (c.em != 0 && !(spaceOf (base c) == some .tile &&
      (s.viewOf c.gid c.g).tileOk ((base c).toNat % 2 ^ 19) 49152)) = false := by
    simpa only [Bool.and_eq_false_imp, bne_iff_ne, Bool.not_eq_false', Bool.and_eq_true, beq_iff_eq] using
      fun hem => ⟨(hbase hem).1, (hbase hem).2.1⟩
  have haligned : (c.em != 0 && (base c).toNat % 1024 != 0) = false := by
    simpa only [Bool.and_eq_false_imp, bne_iff_ne, bne_eq_false_iff_eq] using fun hem => (hbase hem).2.2
  refine (if_neg (Bool.eq_false_iff.1 hplaced)).trans ((if_neg (Bool.eq_false_iff.1 haligned)).trans ?_)
  simp only [toNat_field, Nat.pow_zero, Nat.div_one]
  exact gfxLoads_open hopen

-- Attributes

section
variable (c : Ctx) (mode : AttrMode) (d : BitVec 6) (a b : Operand) (na : Nat → Nat)

/-- The words that the lanes of attr load of their records (R231); na gives the records' counts of attributes. -/
def Ctx.attrLoads : List (Nat × W64 × Dst) :=
  (laneList c.em).flatMap fun l => (attrWords (AttrMode.code mode) (na l) (c.attrIndex mode l)).map fun w =>
    (l, c.bits64 a l + BitVec.ofNat 64 w.1, .raw (l * 16 + w.2))

/-- What attr computes from them (R232). -/
def Ctx.attrWeights : Option Gfx :=
  some (.attr (AttrMode.code mode) d.toNat ((laneList c.em).map fun l => (l, c.bits32 b l, na l, c.attrIndex mode l)))

end

/-- attr reads the counts of its lanes' records when it issues, and loads the words that they name (R230, R231). -/
theorem completesAsync_attr (mode : AttrMode) (d : BitVec 6) (a b : Operand) (tl : Tail) :
    let view (c : Ctx) (s : State) : View := s.viewOf c.gid c.g
    let recs (c : Ctx) := (laneList c.em).map fun l => (l, c.bits64 a l)
    let heads (c : Ctx) := (laneList c.em).map fun l => (l, c.bits64 a l + 48)
    let counts (c : Ctx) (s : State) := (s.readsNow (view c s) 4 (heads c)).getD ([], s)
    let na (c : Ctx) (s : State) (l : Nat) := NMap.get 0 (counts c s).1 l
    CompletesAsync (.attr mode d a b tl) [.src64 a, .src b, AttrMode.use d mode] tl
      (fun c s => s.accHeld (view c s) (recs c ++ heads c) = false ∧
        s.multiErr (view c s) (recs c ++ heads c) 4 (misaligned 64 (recs c)) = none ∧
        s.peerMiss c.core (s.accSnap (view c s) 4 (heads c)) = none ∧ (s.readsNow (view c s) 4 (heads c)).isSome = true ∧
        c.gfxOpen (view c s) 4 (c.attrLoads mode a (na c s)) [] tl (c.attrWeights mode d b (na c s)) (counts c s).2)
      (fun c s => (c.gfxGather (view c s) 4 (c.attrLoads mode a (na c s)) tl (c.attrWeights mode d b (na c s))
        (counts c s).2).departed c (view c s) tl) := by
  intro view recs heads counts na
  refine completesAsync_of_body (exec_attr mode d a b tl) (fun _ _ _ => rfl) fun c s ⟨hheld, hchecks, hpeers, hread, hopen⟩ => ?_
  obtain ⟨p, hread⟩ := Option.isSome_iff_exists.1 hread
  have hcounts : counts c s = p := by simp only [counts, hread, Option.getD_some]
  simp only [na, hcounts] at hopen ⊢
  simp only [view, recs, heads, Ctx.bits64] at hheld hchecks hpeers hread
  simp only [hheld, Bool.false_eq_true, if_false, hchecks, peerRead_open (.inr hpeers), hread]
  exact gfxLoads_open hopen

-- Textures

section
variable (c : Ctx) (t : TexDesc) (taps : Nat → List Texel)

/-- The blocks that each lane of a texture instruction reads, and what it takes from them (R235, R241). -/
def Ctx.texWork : List (Nat × List W64 × List Tap) := (laneList c.em).map fun l => (l, tapsOf t l (taps l))

/-- The loads of those blocks (R227). -/
def Ctx.texLoads : List (Nat × W64 × Dst) :=
  (c.texWork t taps).flatMap fun w => (List.range w.2.1.length).map fun i => (w.1, w.2.1.getD i 0, .raw (w.1 * 4096 + i))

/-- Those that are not aligned to their size. -/
def Ctx.texMisaligned : List (Nat × W64) := misaligned (texBlock t.fmt).2 ((c.texLoads t taps).map fun e => (e.1, e.2.1))

/-- What the instruction computes from them (R240). -/
def Ctx.texFilter (d : BitVec 6) : Option Gfx := some (.tex d.toNat ((c.texWork t taps).map fun w => (w.1, w.2.2)))

end

/-- A sampler word in order tells which texels sampleg reads (R239). -/
theorem samplerFilters_of_ok {w : W64} (h : samplerOk w = true) : samplerFilters w = true := by
  rw [samplerOk, Bool.and_eq_true] at h
  exact h.2

/-- Where the descriptor t at the address in S register r can be read at issue and is legal, and so is the sampler if it is used
(R239, R241, R242). -/
def Ctx.describes (c : Ctx) (r : BitVec 5) (t : TexDesc) (useSampler : Bool) (s : State) : Prop :=
  let desc := c.g.sget r.toNat
  let descs := (laneList c.em).map fun l => (l, desc)
  let v := s.viewOf c.gid c.g
  r.toNat % 2 = 0 ∧ c.em ≠ 0 ∧ s.accHeld v [(0, desc)] = false ∧ s.multiErr v descs 32 (misaligned 32 descs) = none ∧
    s.peerMiss c.core (s.accSnap v 32 [(0, desc)]) = none ∧
    (∃ y s', s.readNow v 0 desc 32 = some (y, s') ∧ texDesc y = some t) ∧
    (useSampler = false ∨ samplerOk (c.g.sget (r.toNat + 1)) = true)

/-- The state after that read. -/
def Ctx.afterDesc (c : Ctx) (r : BitVec 5) (s : State) : State :=
  ((s.readNow (s.viewOf c.gid c.g) 0 (c.g.sget r.toNat) 32).getD (0, s)).2

/-- A texture instruction loads the texels that its lanes' values need once its descriptor and sampler are in order, and loads
nothing where no lane is in EM (R227, R241, R242). -/
theorem completesAsync_texture {i : Instr} {d : BitVec 6} {r : BitVec 5} {uses : List Use} {tl : Tail} {useSampler : Bool}
    {named : W64 → Bool} {taps : Ctx → TexDesc → W64 → Nat → List Texel} (t : TexDesc)
    (he : ∀ s, exec i s = issueAsync (fun _ => true) uses tl (fun c s => c.texture d r useSampler named tl s (taps c)) s)
    (hnamed : ∀ w, useSampler = false ∨ samplerOk w = true → named w = true) :
    let texels (c : Ctx) : Nat → List Texel := taps c t (c.g.sget (r.toNat + 1))
    let size : Nat := (texBlock t.fmt).2
    CompletesAsync i uses tl
      (fun c s => c.describes r t useSampler s ∧ c.gfxOpen (s.viewOf c.gid c.g) size (c.texLoads t (texels c))
        (c.texMisaligned t (texels c)) tl (c.texFilter t (texels c) d) (c.afterDesc r s))
      (fun c s => (c.gfxGather (s.viewOf c.gid c.g) size (c.texLoads t (texels c)) tl (c.texFilter t (texels c) d)
        (c.afterDesc r s)).departed c (s.viewOf c.gid c.g) tl) ∧
    CompletesAsync i uses tl
      (fun c s => r.toNat % 2 = 0 ∧ c.em = 0 ∧ c.gfxOpen (s.viewOf c.gid c.g) 1 [] [] tl none s)
      (fun c s => (c.gfxGather (s.viewOf c.gid c.g) 1 [] tl none s).departed c (s.viewOf c.gid c.g) tl) := by
  refine ⟨completesAsync_of_body he (fun _ _ _ => rfl) fun c s ⟨hdesc, hopen⟩ => ?_,
    completesAsync_of_body he (fun _ _ _ => rfl) fun c s ⟨heven, hem, hopen⟩ => ?_⟩
  · obtain ⟨heven, hem, hheld, hchecks, hpeers, ⟨y, s', hread, hlegal⟩, hsampler⟩ := hdesc
    have hlanes : (laneList c.em).isEmpty = false := Bool.eq_false_iff.2 (mt (laneList_isEmpty_iff c.em).1 hem)
    have hafter : c.afterDesc r s = s' := by simp only [Ctx.afterDesc, hread, Option.getD_some]
    rw [hafter] at hopen ⊢
    exact (texture_open heven hem hlanes hheld hchecks hpeers hread hlegal (hnamed _ hsampler) hsampler).trans
      (gfxLoads_open hopen)
  · have hpair : (r.toNat % 2 != 0) = false := bne_eq_false_iff_eq.2 heven
    refine (if_neg (Bool.eq_false_iff.1 hpair)).trans ((if_pos ((laneList_isEmpty_iff c.em).2 hem)).trans ?_)
    exact gfxLoads_open hopen

/-- Settles O21: vbld and attr by their own words (`completesAsync_vbld`, `completesAsync_attr`), the texture instructions by what
they share (`completesAsync_texture`), each with its own choice of texels. -/
theorem graphicsLoads : Obligations.GraphicsLoads := by
  intro n mode d g rt r a b x tl t
  have hsample := completesAsync_texture t (exec_sample d a r x tl) fun _ _ => rfl
  have hgradient := completesAsync_texture t (exec_sampleg d a r g rt tl) fun w hok => samplerFilters_of_ok (hok.resolve_left nofun)
  have htexel := completesAsync_texture t (exec_texld d a r x tl) fun _ _ => rfl
  exact ⟨completesAsync_vbld n d r b tl, completesAsync_attr mode d a b tl, hsample, hgradient, htexel⟩

end Sys2Proof.Machine

/-! prim, covw, hit and the tile returns (O22). -/

namespace Sys2Proof.Machine

/-- No lane of a list is named at fault where none satisfies the test. -/
theorem not_maskFrom_bne_zero {p : Nat → Bool} {ls : List Nat} (h : ∀ l ∈ ls, p l = false) : ¬ (maskFrom p ls != 0) = true := by
  rw [maskFrom_eq_zero h]
  exact Bool.false_ne_true

-- Verdicts

/-- The identity word of a primitive has no high bits and a view of the pass (R351). -/
theorem primIdent_ok {x : W32} {views : Nat} (hhigh : x.toNat / 2 ^ 20 = 0) (hview : x.toNat / 2 ^ 12 % 256 < views) :
    (x.extractLsb' 20 12 != 0 || decide ((x.extractLsb' 12 8).toNat ≥ views)) = false := by
  have hzero : x.extractLsb' 20 12 = 0 := BitVec.eq_of_toNat_eq (by rw [toNat_field, hhigh]; rfl)
  have hbelow : ¬ (x.extractLsb' 12 8).toNat ≥ views := by rw [toNat_field]; exact Nat.not_le.2 hview
  rw [hzero, decide_eq_false hbelow]
  rfl

/-- The entry that a primitive names is a target where it names one in some lane (R351). -/
theorem primEntry_ok {named : Bool} {em : LaneMask} {entry : W64} (h : named = true → em ≠ 0 → targetOk entry = true) :
    TargetsOk (if named then em else 0) fun _ => entry := by
  intro l _ hl
  split at hl
  · next hnamed => exact h hnamed (by rintro rfl; simp at hl)
  · simp at hl

/-- A primitive's record lies in device, vault or tile space (R351). -/
theorem primRecord_ok {a : W64} (h : spaceOf a ∈ [some Space.dev, some Space.vault, some Space.tile]) :
    (!(spaceOf a == some .dev || spaceOf a == some .vault || spaceOf a == some .tile)) = false := by
  simp only [List.mem_cons, List.not_mem_nil, or_false] at h
  obtain h | h | h := h <;> rw [h] <;> rfl

/-- prim once its group, operands, entry and records pass R351's checks; covw where every lane has a verdict to give (R234), which
traps otherwise; hit where every lane's handle names a ray that asks (R249). -/
theorem graphicsVerdicts : Claims.GraphicsVerdicts := by
  intro df cov cull a b tl view slot entry emitted held
  refine ⟨completesAsync_of_body (exec_prim df cov cull a b tl) (fun _ _ _ => rfl) fun c s ⟨hmesh, hentry, hlanes⟩ => ?_,
    completes_of_body (exec_covw a) (fun _ _ _ => rfl) fun c s hdue =>
      if_neg (Bool.eq_false_iff.1 (bne_eq_false_iff_eq.2 hdue)),
    completes_of_body (exec_hit a b) (fun _ _ _ => rfl) fun c s hasked => if_neg (not_maskFrom_bne_zero fun l hl => ?_),
    traps_of_body (exec_covw a) (fun _ _ _ => rfl) fun c s hbad => if_pos (bne_iff_ne.2 hbad)⟩
  · have hgroup : (c.em != 0 && !((view c s).la.mesh && decide (c.g.gix < (view c s).la.groups))) = false := by
      obtain hnone | ⟨hmesh, hgix⟩ := hmesh
      · simp [hnone]
      · simp [hmesh, hgix]
    have hviews (o : Option RenderPass) :
        (o.map fun x => passViews x.p).getD 256 = match o with | some x => passViews x.p | none => 256 := by
      cases o <;> rfl
    refine (if_neg (Bool.eq_false_iff.1 hgroup)).trans ((if_neg (not_maskFrom_bne_zero fun l hl => ?_)).trans
      ((checkTargets_ok (primEntry_ok hentry)).trans ((if_neg (not_maskFrom_bne_zero fun l hl => ?_)).trans
        ((if_neg (not_maskFrom_bne_zero fun l hl => ?_)).trans ?_))))
    · obtain ⟨hhigh, hview, -, -⟩ := hlanes l hl
      exact primIdent_ok hhigh (hview.trans_eq (hviews _))
    · obtain ⟨-, -, haligned, -⟩ := hlanes l hl
      exact bne_eq_false_iff_eq.2 haligned
    · obtain ⟨-, -, -, hspace⟩ := hlanes l hl
      exact primRecord_ok hspace
    · cases tl <;> rfl
  · obtain ⟨hverdict, hray⟩ := hasked l hl
    exact Bool.or_eq_false_iff.2 ⟨beq_eq_false_iff_ne.2 hverdict, Option.isNone_eq_false_iff.2 hray⟩

-- Tile returns

/-- tret.next asks once its block has no request and its operand names a pass that fits the block; tret.done gives back what the
block owns (R412). -/
theorem tileReturns : Claims.TileReturns := by
  intro d a slot tl b pass asked
  refine ⟨completesAsync_of_body (exec_tretNext d a slot) (fun _ _ ⟨houtside, _⟩ => beq_iff_eq.2 houtside)
      fun c s ⟨_, hblock, hfree, hpass, hfits⟩ => ?_,
    completesAsync_of_body (exec_tretDone none) (fun _ _ houtside => beq_iff_eq.2 houtside) fun c s _ => ?_,
    completesAsync_of_body (exec_tretDone (some slot)) (fun _ _ houtside => beq_iff_eq.2 houtside) fun c s _ => ?_⟩
  · have hlegal : (decide (pass c ≥ 8) || b.tret.isSome || match s.runningPass (pass c) with
        | some x => !tileFits b x.p
        | none => false) = false := by
      rw [decide_eq_false (Nat.not_le.2 hpass), hfree]
      split
      · next x hrunning => simp [hfits x hrunning]
      · rfl
    simp only [hblock]
    exact if_neg (Bool.eq_false_iff.1 hlegal)
  · rfl
  · rfl

/-- Settles O22: the verdicts by their checks (`graphicsVerdicts`), the tile returns by the pass that their block owns
(`tileReturns`). -/
theorem verdictsAndTileReturns : Obligations.VerdictsAndTileReturns :=
  ⟨graphicsVerdicts, tileReturns⟩

end Sys2Proof.Machine

/-! Pushes to the engines, their pops, and xstat (O23). -/

namespace Sys2Proof.Machine

/-- A card's register is a multiple of 8 (R302). -/
theorem cardReg_ok {n : BitVec 5} (h : n.toNat % 8 = 0) : ¬ (!cardRegOk n) = true := by
  rw [cardRegOk, h]
  exact Bool.false_ne_true

/-- The walks of a list of addresses are not held where none of them is (R333). -/
theorem not_any_heldAddr {s : State} {v : View} {as : List W64} (h : ∀ a ∈ as, s.heldAddr v 0 a = false) :
    ¬ (as.any fun a => s.heldAddr v 0 a) = true := by
  simpa using h

/-- A card that is readable, and whose job the copy engine takes, is accepted (R301, R303, R315); so is one of the encoder (R343,
R345), and so are the rays of lanes that have room for one more (R243). -/
theorem enginePushes : Claims.EnginePushes := by
  intro d n k tl recs s1 view card readable copyRecs copy encRecs encode_
  refine ⟨completesAsync_of_body (exec_xpushXc d n tl) (fun _ _ ⟨⟨houtside, _⟩, _⟩ => beq_iff_eq.2 houtside)
      fun c s ⟨⟨_, haligned, hheld, hrecords, hread⟩, hquiet, hroom, hlegal, hcluster, hformat, hrange⟩ => ?_,
    completesAsync_of_body (exec_xpushXe d n tl) (fun _ _ ⟨⟨houtside, _⟩, _⟩ => beq_iff_eq.2 houtside)
      fun c s ⟨⟨_, haligned, hheld, hrecords, hread⟩, hroom, hlegal, hformat, hrange⟩ => ?_,
    completesAsync_of_body (exec_xpushXt d k n tl) (fun _ _ ⟨houtside, _⟩ => beq_iff_eq.2 houtside)
      fun c s ⟨_, heven, hroom⟩ => ?_⟩
  · have hfree : (!(s.tileReqsOf c.gid).isEmpty || decide ((s.copies.filter fun j => j.core == c.core).length ≥ 16)) = false := by
      rw [hquiet, decide_eq_false (Nat.not_le.2 hroom)]
      rfl
    have hdest : ((copy c s).mcnt != 0 && spaceOf (recWord (copy c s).dst 0) != some .cl) = false := by
      simpa using hcluster
    refine (if_neg (cardReg_ok haligned)).trans ((if_neg (Bool.eq_false_iff.1 hfree)).trans
      ((if_neg (Bool.eq_false_iff.1 hlegal)).trans ((if_neg (not_any_heldAddr hheld)).trans ?_)))
    simp only [view, card, copyRecs] at hrecords hread
    simp only [hrecords, hread]
    refine (if_neg (Bool.eq_false_iff.1 hdest)).trans ?_
    simp only [copy, view, card] at hformat hrange
    simp only [hformat, hrange]
    rfl
  · refine (if_neg (cardReg_ok haligned)).trans ((if_neg (mt of_decide_eq_true (Nat.not_le.2 hroom))).trans
      ((if_neg (Bool.eq_false_iff.1 hlegal)).trans ((if_neg (not_any_heldAddr hheld)).trans ?_)))
    simp only [view, card, encRecs] at hrecords hread
    simp only [hrecords, hread]
    simp only [encode_, view, card] at hformat hrange
    simp only [hformat, hrange]
    rfl
  · have hpair : (n.toNat % 2 != 0) = false := bne_eq_false_iff_eq.2 heven
    have hfree : ((laneList c.em).any fun l => decide (s.lanesRays c.gid c.g.tag l ≥ 4)) = false := by simpa using hroom
    exact (if_neg (Bool.eq_false_iff.1 hpair)).trans (if_neg (Bool.eq_false_iff.1 hfree))

/-- A pop outside handlers is in flight with its slot, and in one is illegal; xstat writes its counts at once (R301). -/
theorem enginePops : Claims.EnginePops := by
  intro v d slot q outside inside illegal popped
  refine ⟨?_, ?_, ?_, completes_of_body (exec_xstat q d) (fun _ _ _ => rfl) fun _ _ _ => rfl, ?_, ?_, ?_⟩
  · exact completesAsync_of_body (exec_xpopXt v slot) (fun _ _ houtside => beq_iff_eq.2 houtside) fun _ _ _ => rfl
  · exact completesAsync_of_body (exec_xpopXe d slot) (fun _ _ houtside => beq_iff_eq.2 houtside) fun _ _ _ => rfl
  · exact completesAsync_of_body (exec_xpopXm d slot) (fun _ _ houtside => beq_iff_eq.2 houtside) fun _ _ _ => rfl
  · exact traps_of_pre (exec_xpopXt v slot) fun _ _ hinside => beq_eq_false_iff_ne.2 hinside
  · exact traps_of_pre (exec_xpopXe d slot) fun _ _ hinside => beq_eq_false_iff_ne.2 hinside
  · exact traps_of_pre (exec_xpopXm d slot) fun _ _ hinside => beq_eq_false_iff_ne.2 hinside

/-- Settles O23: each push by the checks of its card or its lanes (`enginePushes`), each pop as an operation of its slot
(`enginePops`). -/
theorem engineQueues : Obligations.EngineQueues :=
  ⟨enginePushes, enginePops⟩

end Sys2Proof.Machine

/-! Rays, evictions, watches and memory samples (O30). -/

namespace Sys2Proof.Machine

section
variable {s : State}

/-- A ray of a launch runs to its next record (R243, R248). -/
theorem exec_rayRecordReady_runs {ray : Nat} {r : Ray} {la : Launch} (hray : (s.rays.find? fun r => r.id == ray) = some r)
    (hlaunch : s.launch? r.launch = some la) : exec (.rayRecordReady ray) s = .next (State.rayRun la 4096 s r) := by
  simp only [exec_rayRecordReady, execRayRecordReady, hray, hlaunch]

section
variable {blk : Nat} {b : Block} (hblock : s.block? blk = some b)
include hblock

/-- A block that is being evicted is saved with its set once every block of it is quiet (R269, R276). -/
theorem exec_eviction_saves (hevicting : b.evicting = true)
    (hquiet : (s.evictSet blk).all (s.requestEvicts (s.evictSet blk)).evictReady = true) :
    exec (.eviction blk) s = .next (((s.requestEvicts (s.evictSet blk)).saveBlocks (s.evictSet blk)).settlePreempts) := by
  simp only [exec_eviction, execEviction, hblock, hevicting, hquiet, Bool.not_true, Bool.false_eq_true, if_false, if_true]

/-- Until then its set is asked to come to rest (R269). -/
theorem exec_eviction_waits (hevicting : b.evicting = true)
    (hbusy : (s.evictSet blk).all (s.requestEvicts (s.evictSet blk)).evictReady = false) :
    exec (.eviction blk) s = .next (s.requestEvicts (s.evictSet blk)) := by
  simp only [exec_eviction, execEviction, hblock, hevicting, hbusy, Bool.not_true, Bool.false_eq_true, if_false]

/-- A saved block resumes on a core of its cluster that its queue allows and that grants what it reserves (R271). -/
theorem exec_blockResume_resumes {core : Nat} {la : Launch} {gr : Grant} (hlaunch : s.launch? b.launch = some la)
    (hsaved : b.saved = true) (hcluster : clusterOf core = clusterOf b.core) (hallows : s.maskAllows la.queue core = true)
    (hgrant : s.grantAt core la (b.res / 1024) b.ctr0 = some gr) :
    exec (.blockResume blk core) s = .next (s.resumeBlock blk core b gr) := by
  simp only [exec_blockResume, execBlockResume, hblock, hlaunch, hsaved, hcluster, hallows, hgrant, bne_self_eq_false, Bool.not_true,
    Bool.or_self, Bool.false_eq_true, if_false]

end

section
variable {gid : Nat} {g : Group} (hgroup : s.group? gid = some g)
include hgroup

/-- A group that a watch stopped goes on where every comparator's predicate is false (R372, R373). -/
theorem exec_predicateResult_unwatches {w : WatchSave} (hstopped : g.watchHit ≠ []) (hsave : g.watchSave = some w)
    (hfalse : ∀ h ∈ g.watchHit, (NMap.get 0 (s.core g.core).dwc h.1).getLsbD 1 = true ∧ s.predTrue g h = false) :
    exec (.predicateResult gid) s = .next (s.setGroup gid (g.unwatch w)) := by
  have hall : (g.watchHit.all fun h => (NMap.get 0 (s.core g.core).dwc h.1).getLsbD 1 && !s.predTrue g h) = true :=
    List.all_eq_true.2 fun h hmem => by rw [(hfalse h hmem).1, (hfalse h hmem).2]; rfl
  simp only [exec_predicateResult, execPredicateResult, hgroup, List.isEmpty_eq_false_iff.2 hstopped, hsave, hall,
    Bool.false_eq_true, if_false]

/-- Where some comparator has no predicate it stays stopped, and reports (R369, R372). -/
theorem exec_predicateResult_reports
    (hbare : ∃ h ∈ g.watchHit, (NMap.get 0 (s.core g.core).dwc h.1).getLsbD 1 = false) :
    ∃ ws, exec (.predicateResult gid) s = .next ((s.setGroup gid { g with watchHit := [] }).recordFree (dieOf g.core) 6 ws) := by
  obtain ⟨h, hmem, hpred⟩ := hbare
  have hstopped : g.watchHit.isEmpty = false := List.isEmpty_eq_false_iff.2 (List.ne_nil_of_mem hmem)
  have hall : (g.watchHit.all fun h => (NMap.get 0 (s.core g.core).dwc h.1).getLsbD 1 && !s.predTrue g h) = false :=
    List.all_eq_false.2 ⟨h, hmem, by rw [hpred]; exact Bool.false_ne_true⟩
  simp only [exec_predicateResult, execPredicateResult, hgroup, hstopped, hall, Bool.false_eq_true, if_false]
  cases g.watchSave <;> exact ⟨_, rfl⟩

end

/-- The oldest sample whose instruction has completed becomes a record (R377). -/
theorem exec_memorySample_records {core : Nat} {e : Nat × List W64 × List W64}
    (hdone : ((s.core core).samples.find? fun e => s.asyncs.all fun a => a.id != e.1) = some e) :
    ∃ ws, exec (.memorySample core) s = .next
      ((s.modCore core fun x => { x with samples := x.samples.erase e }).recordAt (dieOf core) 2 (e.2.1 ++ ws) e.2.2) := by
  simp only [exec_memorySample, execMemorySample, hdone]
  exact ⟨_, rfl⟩

end

/-- Settles O30: each event where its conditions hold. -/
theorem rayAndEvictionEvents : Obligations.RayAndEvictionEvents := by
  intro s ray blk core gid r la b gr g w
  refine ⟨exec_rayRecordReady_runs,
    fun hblock hevicting => ⟨exec_eviction_saves hblock hevicting, exec_eviction_waits hblock hevicting⟩,
    fun hblock => exec_blockResume_resumes hblock, fun hgroup => exec_predicateResult_unwatches hgroup, fun hgroup hbare => ?_,
    fun e hdone => ?_⟩
  · obtain ⟨ws, hexec⟩ := exec_predicateResult_reports hgroup hbare
    exact ⟨_, ws, hexec, rfl⟩
  · obtain ⟨ws, hexec⟩ := exec_memorySample_records hdone
    exact ⟨_, ws, hexec, rfl⟩

end Sys2Proof.Machine

/-! What trapping and reporting leave (O46), and what a discarded launch leaves behind (O47). -/

namespace Sys2Proof.Machine

-- What a trap's walk changes

/-- The walk of a trapped access fills a TLB, or nothing (R376). -/
theorem State.trapWalk_cases (s : State) (gid : Nat) (g : Group) (t : Trap) :
    s.trapWalk gid g t = s ∨ ∃ core asn root va, s.trapWalk gid g t = s.fillTlb core asn root va := by
  unfold State.trapWalk State.touchTlb
  split
  · split
    · exact .inr ⟨_, _, _, _, rfl⟩
    · exact .inr ⟨_, _, _, _, rfl⟩
    · exact .inl rfl
  · exact .inl rfl

@[simp] theorem State.trapWalk_groups (s : State) (gid : Nat) (g : Group) (t : Trap) :
    (s.trapWalk gid g t).groups = s.groups := by
  obtain h | ⟨core, asn, root, va, h⟩ := s.trapWalk_cases gid g t
  · rw [h]
  · rw [h, State.fillTlb_groups]

@[simp] theorem State.trapWalk_mem (s : State) (gid : Nat) (g : Group) (t : Trap) : (s.trapWalk gid g t).mem = s.mem := by
  obtain h | ⟨core, asn, root, va, h⟩ := s.trapWalk_cases gid g t
  · rw [h]
  · obtain ⟨-, hmem⟩ := s.fillTlb_samePlan core asn root va
    rw [h, hmem]

@[simp] theorem State.recordTrap_groups (s : State) (x : Site) (cause addr : W64) (mask : LaneMask) :
    (s.recordTrap x cause addr mask).groups = s.groups := by
  obtain h | ⟨f, h⟩ := State.recordAt_cases s (dieOf x.core) 5 _ []
  · exact congrArg State.groups h
  · exact (congrArg State.groups h).trans (s.modDie_groups _ _)

@[simp] theorem State.recordTrap_mem (s : State) (x : Site) (cause addr : W64) (mask : LaneMask) :
    (s.recordTrap x cause addr mask).mem = s.mem := by
  obtain h | ⟨f, h⟩ := State.recordAt_cases s (dieOf x.core) 5 _ []
  · exact congrArg State.mem h
  · exact (congrArg State.mem h).trans (s.modDie_mem _ _)

-- What the entry of a handler changes

/-- The end of a clause by its last word before a handler leaves all but the group's pause as the entry made it (R144). -/
theorem Group.pauseAfter_cases (g : Group) (cl : Option Clause) (t : Trap) (now : Nat) :
    ∃ yld sleep e, g.pauseAfter cl t now = { g with yielded := yld, sleepUntil := sleep, shadowEnd := e } := by
  unfold Group.pauseAfter
  split
  · exact ⟨_, _, _, rfl⟩
  · split
    · exact ⟨_, _, _, rfl⟩
    · exact ⟨_, _, _, rfl⟩

/-- What a handler's entry records of the trap, and how it leaves the group (R255, R260). -/
theorem Group.enterHandler_records (g : Group) (kind : BitVec 2) (target pc hdr : W64) (t : Trap) :
    let h := g.enterHandler kind target pc hdr t
    (h.queue = [] ∧ h.ecause = t.cause ∧ h.eaddr = t.addr ∧ h.emask = t.mask ∧ h.hkind = kind ∧ h.en = t.mask ∧
        h.clause = none) ∧
      h.cm = g.cm ∧ h.w = g.w ∧ h.t = g.t ∧ h.escr = g.escr := by
  simp [Group.enterHandler]

/-- A lane that is not live keeps its EPC element (R255). -/
theorem Group.epc_enterHandler_of_dead (g : Group) (kind : BitVec 2) (target pc hdr : W64) (t : Trap) {l : Nat}
    (hdead : l ∉ laneList g.live) : NMap.get 0 (g.enterHandler kind target pc hdr t).epc l = NMap.get 0 g.epc l := by
  simp [Group.enterHandler, get_setLanes, hdead]

section
variable {s : State} {gid : Nat} {g : Group} {la : Launch} {pc hdr : W64} {t : Trap}
variable (hgroup : s.group? gid = some g) (hlaunch : s.launch? g.launch = some la)
include hgroup hlaunch

/-- A trap outside handlers, with a trap handler, enters it and is recorded (R255). -/
theorem State.takeTrap_enters (houtside : g.hkind = 0) (hhandler : la.tha ≠ 0) :
    s.takeTrap gid pc hdr t = ((s.trapWalk gid g t).setGroup gid
      ((g.enterHandler 1 la.tha pc hdr t).pauseAfter g.clause t (s.trapWalk gid g t).now)).recordTrap (s.siteOf g pc) t.cause
        t.addr t.mask := by
  simp only [State.takeTrap, hgroup, hlaunch, houtside, Option.map_some, Option.getD_some, bne_self_eq_false, Bool.false_or,
    beq_eq_false_iff_ne.2 hhandler, Bool.false_eq_true, if_false]

/-- A trap in a handler, or with none to go to, kills the launch at the trapping word (R257). -/
theorem State.takeTrap_kills (hunhandled : g.hkind ≠ 0 ∨ la.tha = 0) :
    s.takeTrap gid pc hdr t = (s.trapWalk gid g t).killLaunch g.launch t.code t.addr (s.siteOf g pc) := by
  have hkills : (g.hkind != 0 || la.tha == 0) = true := by
    obtain hinside | hnone := hunhandled
    · rw [bne_iff_ne.2 hinside, Bool.true_or]
    · rw [beq_iff_eq.2 hnone, Bool.or_true]
  simp only [State.takeTrap, hgroup, hlaunch, Option.map_some, Option.getD_some, hkills, if_true]

end

/-- Settles O46: the group is the one that the entry makes (`State.takeTrap_enters`), whose pause is all that the end of its clause
may change; walk and record leave the groups and memory. -/
theorem trapEntry : Obligations.TrapEntry := by
  intro s gid g la pc hdr t inside hgroup hlaunch houtside hhandler
  have hentry := State.takeTrap_enters (pc := pc) (hdr := hdr) (t := t) hgroup hlaunch houtside hhandler
  have hmap (n : Nat) : (s.takeTrap gid pc hdr t).group? n = if n = gid
      then some ((g.enterHandler 1 la.tha pc hdr t).pauseAfter g.clause t (s.trapWalk gid g t).now) else s.group? n := by
    rw [hentry, State.group?_of_groups (State.recordTrap_groups ..), State.group?_setGroup,
      State.group?_of_groups (State.trapWalk_groups ..)]
  refine ⟨_, (hmap gid).trans (if_pos rfl), ?_⟩
  obtain ⟨yld, sleep, e, hpause⟩ := (g.enterHandler 1 la.tha pc hdr t).pauseAfter_cases g.clause t (s.trapWalk gid g t).now
  obtain ⟨⟨hlive, hv, hs, hfps, hlc, hsb⟩, hsen, hscm, hehdr, hshadow⟩ := g.enterHandler_saves 1 la.tha pc hdr t
  obtain ⟨⟨hqueue, hecause, headdr, hemask, hkind, hen, hclause⟩, hcm, hw, ht, hescr⟩ :=
    g.enterHandler_records 1 la.tha pc hdr t
  rw [hpause]
  refine ⟨fun l hl hbit => ?_, fun l hl hbit => ?_, hehdr, hsen, hscm, fun hin => hshadow.trans (if_pos hin),
    fun hout => hshadow.trans (if_neg hout), hqueue, hecause, headdr, hemask, hkind, hen, hclause, hv, hs, hcm, hfps, hlc, hw, ht,
    hsb, hlive, hescr, fun n hn => (hmap n).trans (if_neg hn), fun a => ?_⟩
  · have hlane : l ∈ laneList g.live := (mem_laneList ..).2 ⟨hl, hbit⟩
    exact ⟨g.epc_enterHandler 1 la.tha pc hdr t hlane, (g.pc_enterHandler 1 la.tha pc hdr t l).trans (if_pos hlane)⟩
  · have hlane : l ∉ laneList g.live := fun hmem => by
      obtain ⟨-, hlive⟩ := (mem_laneList ..).1 hmem
      exact Bool.false_ne_true (hbit.symm.trans hlive)
    exact ⟨g.epc_enterHandler_of_dead 1 la.tha pc hdr t hlane, (g.pc_enterHandler 1 la.tha pc hdr t l).trans (if_neg hlane)⟩
  · rw [hentry, State.recordTrap_mem, State.setGroup_mem, State.trapWalk_mem]

-- What is left of a discarded launch

/-- Setting presence bits changes the cores alone (R170). -/
theorem State.setPresent_cores : ∀ (ks : List Nat) (s : State), ∃ cores, s.setPresent ks = { s with cores := cores }
  | [], s => ⟨s.cores, rfl⟩
  | k :: ks, s => by
    obtain ⟨cores, h⟩ := State.setPresent_cores ks (s.modCore (k / 8192) fun c => { c with absent := NMap.erase c.absent (k % 8192) })
    exact ⟨cores, h⟩

/-- Surfaces that fall back change the hub's registers and the misses alone (R437). -/
theorem State.foldl_fallback : ∀ (ns : List Nat) (s : State),
    ∃ hub misses, ns.foldl State.fallback s = { s with hub := hub, misses := misses }
  | [], s => ⟨s.hub, s.misses, rfl⟩
  | n :: ns, s => by
    obtain ⟨hub, misses, h⟩ := State.foldl_fallback ns (s.fallback n)
    exact ⟨hub, misses, h⟩

/-- So do those of a queue. -/
theorem State.mirageFallback_eq (s : State) (q : Nat) : ∃ hub misses, s.mirageFallback q = { s with hub := hub, misses := misses } :=
  State.foldl_fallback _ s

/-- A discarded launch has left with its own work, dropped in some state, and the surfaces that fell back (R267, R437). -/
theorem State.discard_eq {s : State} {n : Nat} {la : Launch} (hlaunch : s.launch? n = some la) :
    ∃ t : State, ∃ hub misses, s.discard n =
      { t.dropLaunch n with hub := hub, misses := misses, launches := NMap.erase (t.dropLaunch n).launches n } := by
  simp only [State.discard, hlaunch]
  generalize State.failPasses _ _ = dropped
  obtain ⟨hub, misses, h⟩ := State.mirageFallback_eq (dropped.dropLaunch n) la.queue
  exact ⟨dropped, hub, misses, by rw [h]⟩

/-- What a filter by launch keeps is another launch's. -/
theorem launch_ne_of_mem_filter {α : Type} {f : α → Nat} {n : Nat} {xs : List α} :
    ∀ x ∈ xs.filter (fun x => f x != n), f x ≠ n := fun _ hx => bne_iff_ne.1 (List.mem_filter.1 hx).2

/-- Settles O47: a trap that no handler takes by `State.takeTrap_kills`; a discarded launch by what dropping its work filters out
(`State.discard_eq`). -/
theorem killedContexts : Obligations.KilledContexts := by
  intro s gid n code g la pc hdr addr t x
  refine ⟨State.takeTrap_kills, fun hlaunch => ?_⟩
  have hkill : s.killLaunch n code addr x = (s.discard n).pushFw (.killed n la code addr x) := by
    simp only [State.killLaunch, hlaunch]
  obtain ⟨u, hub, misses, hdiscard⟩ := State.discard_eq hlaunch
  obtain ⟨cores, hpresent⟩ := State.setPresent_cores (u.freedLines n) u
  refine ⟨hkill, ?_⟩
  rw [hdiscard, State.dropLaunch, hpresent]
  refine ⟨?_, launch_ne_of_mem_filter, launch_ne_of_mem_filter, launch_ne_of_mem_filter, launch_ne_of_mem_filter, ?_,
    launch_ne_of_mem_filter, launch_ne_of_mem_filter, launch_ne_of_mem_filter, launch_ne_of_mem_filter⟩
  · rw [State.launch?, NMap.map_erase, NMap.get_erase, if_pos rfl]
  · intro e he w hw
    obtain ⟨d, -, rfl⟩ := List.mem_map.1 he
    exact launch_ne_of_mem_filter w hw

end Sys2Proof.Machine

/-! Counters (O16), the events of publishes and waits (O28), and system calls, debug registers and iinv (O25). -/

namespace Sys2Proof.Machine

/-- Settles O16: each act is an access that nothing keeps (`checked_open`), of one 8-byte counter, and ctr.add and ctr.rd need their
port's room. -/
theorem counterInstructions : Obligations.CounterInstructions := by
  intro rel acq t dw base d x off slot tl addr free_ ready target room
  refine ⟨?_, ?_, ?_⟩
  · refine completesAsync_of_body (exec_ctrAdd rel base x off tl) (fun _ _ _ => rfl) fun c s ⟨hopen, hroom⟩ => ?_
    exact (checked_open rfl hopen).trans (if_neg (Bool.eq_false_iff.1 hroom))
  · exact completesAsync_of_body (exec_ctrWait acq t dw base x off slot) (fun _ _ _ => rfl) fun c s hopen => checked_open rfl hopen
  · refine completesAsync_of_body (exec_ctrRd d base off tl) (fun _ _ _ => rfl) fun c s ⟨hopen, hroom⟩ => ?_
    exact (checked_open rfl hopen).trans (if_neg (Bool.eq_false_iff.1 hroom))

-- Publishes and waits

section
variable {s : State}

/-- A publish whose bytes have reached its scope leaves, and what follows it starts (R282, R292). -/
theorem exec_publishComplete_ends {pub : Nat} {p : Publish} (hpub : (s.pubs.find? fun p => p.id == pub) = some p)
    (hready : s.pubReady p = true) : exec (.publishComplete pub) s = .next
      (State.afterPublish { s.acceptWbs p with pubs := s.pubs.filter fun y => y.id != pub } p) := by
  simp only [exec_publishComplete, execPublishComplete, hpub, hready, if_true]

section
variable {w : Nat} {x : Wait} (hwait : (s.ctrWaits.find? fun y => y.id == w) = some x)
include hwait

/-- A wait without a limit completes with status 0 once its target is met (R289). -/
theorem exec_ctrWaitComplete_unlimited (hmet : s.waitMet x = true) (hlimit : x.limit = none) :
    exec (.ctrWaitComplete w) s = .next ((if x.acq then s.modCore x.core Core.refresh else s).endWait x 0) := by
  simp only [exec_ctrWaitComplete, execCtrWaitComplete, hwait, State.waitGate, State.metInTime, State.waitLog, hmet, hlimit,
    Option.isNone_none, Option.isSome_none, Bool.true_or, Bool.false_and, Bool.true_and, Bool.or_true, Bool.not_true,
    Bool.false_eq_true, if_true, if_false]

/-- One with a limit does outside a replay, if the target was met in time, and its outcome is logged (R289, R380). -/
theorem exec_ctrWaitComplete_inTime {t : Nat} (hlimit : x.limit = some t)
    (hmet : x.met = true ∨ s.waitMet x = true ∧ s.now ≤ t) (hmode : ((s.launch? x.launch).getD noLaunch).mode ≠ 2) :
    exec (.ctrWaitComplete w) s = .next
      (((if x.acq then s.modCore x.core Core.refresh else s).waitLog x ((s.launch? x.launch).getD noLaunch) false).endWait x 0) := by
  have hintime : s.metInTime x = true := by
    obtain hmet | ⟨hmet, hnow⟩ := hmet
    · simp [State.metInTime, hmet]
    · simp [State.metInTime, hmet, hlimit, hnow]
  have hgate : s.waitGate x ((s.launch? x.launch).getD noLaunch) = .open_ false := by
    rw [State.waitGate, bne_iff_ne.2 hmode, Bool.or_true, if_pos rfl]
  simp only [exec_ctrWaitComplete, execCtrWaitComplete, hwait, hgate, hintime, beq_eq_false_iff_ne.2 hmode, Bool.and_false,
    Bool.false_and, Bool.not_true, Bool.false_eq_true, if_false]

/-- A wait whose limit elapses first completes with status 1 (R289). -/
theorem exec_ctrWaitTimeout_elapses {t : Nat} (hlimit : x.limit = some t) (hunmet : x.met = false) (hnow : t < s.now)
    (hfree : ((s.launch? x.launch).getD noLaunch).mode ≠ 2 ∨ (s.stream x.launch (s.homeOf x.addr)).free = true) :
    exec (.ctrWaitTimeout w) s = .next ((s.waitLog x ((s.launch? x.launch).getD noLaunch) true).endWait x 1) := by
  have hopen : ¬ (decide (((s.launch? x.launch).getD noLaunch).mode = 2) && !(s.stream x.launch (s.homeOf x.addr)).free) = true := by
    obtain hmode | hfree := hfree
    · simp [hmode]
    · simp [hfree]
  have hlate : ¬ (decide (s.now ≤ t) || s.metInTime x) = true := by
    simp [State.metInTime, hunmet, hlimit, hnow]
  simp only [exec_ctrWaitTimeout, execCtrWaitTimeout, hwait, hlimit, if_neg hopen, if_neg hlate]

end

/-- The refreshes that a core's capacity forced are recorded, at most once in 2 ^ 20 cycles (R378). -/
theorem exec_capacityRefreshRecord_records {core : Nat} (hdue : (s.core core).refreshesAt + 2 ^ 20 ≤ s.now)
    (hnew : (s.core core).refreshes ≠ (s.core core).refreshesSeen) :
    exec (.capacityRefreshRecord core) s = .next
      ((s.modCore core fun c => { c with refreshesSeen := c.refreshes, refreshesAt := s.now }).record (dieOf core) 11
        [BitVec.ofNat 64 (s.core core).refreshes]) := by
  simp only [exec_capacityRefreshRecord, execCapacityRefreshRecord, decide_eq_false (Nat.not_lt.2 hdue), decide_eq_false hnew,
    Bool.or_self, Bool.false_eq_true, if_false]

end

/-- Settles O28: each event where its conditions hold. -/
theorem publishAndWaitEvents : Obligations.PublishAndWaitEvents := by
  intro s pub w t core p x
  exact ⟨exec_publishComplete_ends, exec_ctrWaitComplete_unlimited, fun hwait => exec_ctrWaitComplete_inTime hwait,
    fun hwait => exec_ctrWaitTimeout_elapses hwait, exec_capacityRefreshRecord_records⟩

-- System calls and debug registers

section
variable {n : Nat} {x : W64}

/-- A value for a debug register that is there, without reserved bits, is taken (R264, R370). -/
theorem debugWrite_legal (hnumber : n < 32) (hvalue : debugOk n x = true) : ¬ (decide (n ≥ 32) || !debugOk n x) = true := by
  simp [hnumber, hvalue]

/-- Another is refused (R264). -/
theorem debugWrite_illegal (hbad : 32 ≤ n ∨ debugOk n x = false) : (decide (n ≥ 32) || !debugOk n x) = true := by
  obtain hnumber | hvalue := hbad
  · simp [hnumber]
  · simp [hvalue]

end

/-- Settles O25: the system calls run in every mode; dbgr, dbgw and iinv have the debug handler's mode as what they ask of the group
(R264, R265), and trap by their operands in it. -/
theorem systemCalls : Obligations.SystemCalls := by
  intro a b x y d tl debug outside illegal badOperand site lo len
  refine ⟨completes_of_body (exec_syscNote a tl) (fun _ _ _ => rfl) fun _ _ _ => rfl,
    completesAsync_of_body (exec_syscKill a tl) (fun _ _ _ => rfl) fun _ _ _ => rfl, ?_, ?_, ?_, ?_, ?_, ?_, ?_, ?_, ?_, ?_⟩
  · exact completes_of_body (exec_dbgr d ⟨a, tl⟩) (fun _ _ ⟨hdebug, _⟩ => beq_iff_eq.2 hdebug) fun c s ⟨_, hnumber⟩ =>
      if_neg (Nat.not_le.2 hnumber)
  · exact completes_of_body (exec_dbgw a ⟨b, tl⟩) (fun _ _ ⟨hdebug, _⟩ => beq_iff_eq.2 hdebug) fun c s ⟨_, hnumber, hvalue⟩ =>
      if_neg (debugWrite_legal hnumber hvalue)
  · exact completes_of_body (exec_iinv x ⟨y, tl⟩) (fun _ _ ⟨hdebug, _⟩ => beq_iff_eq.2 hdebug)
      fun c s ⟨_, hempty⟩ => if_pos hempty
  · exact completes_of_body (exec_iinv x ⟨y, tl⟩) (fun _ _ ⟨hdebug, _⟩ => beq_iff_eq.2 hdebug)
      fun c s ⟨_, hbytes, hrange, hfree⟩ =>
        (if_neg hbytes).trans ((if_neg (Nat.not_lt.2 hrange)).trans (if_neg (Bool.eq_false_iff.1 hfree)))
  · exact traps_of_pre (exec_dbgr d ⟨a, tl⟩) fun _ _ houtside => beq_eq_false_iff_ne.2 houtside
  · exact traps_of_pre (exec_dbgw a ⟨b, tl⟩) fun _ _ houtside => beq_eq_false_iff_ne.2 houtside
  · exact traps_of_pre (exec_iinv x ⟨y, tl⟩) fun _ _ houtside => beq_eq_false_iff_ne.2 houtside
  · exact traps_of_body (exec_dbgr d ⟨a, tl⟩) (fun _ _ ⟨hdebug, _⟩ => beq_iff_eq.2 hdebug)
      fun c s ⟨_, hnumber⟩ => if_pos hnumber
  · exact traps_of_body (exec_dbgw a ⟨b, tl⟩) (fun _ _ ⟨hdebug, _⟩ => beq_iff_eq.2 hdebug) fun c s ⟨_, hbad⟩ =>
      if_pos (debugWrite_illegal hbad)
  · exact traps_of_body (exec_iinv x ⟨y, tl⟩) (fun _ _ ⟨hdebug, _⟩ => beq_iff_eq.2 hdebug) fun c s ⟨_, hbytes, hrange⟩ =>
      (if_neg hbytes).trans (if_pos hrange)

end Sys2Proof.Machine

/-! Copy and encoder jobs, and rendering's own steps (O31). -/

namespace Sys2Proof.Machine

/-- The granules that may land next: those of data, or the checksums once no other is left (R310). -/
def CopyJob.candidates (j : CopyJob) : List Granule :=
  if (j.todo.filter fun g => !g.sums).isEmpty then j.todo else j.todo.filter fun g => !g.sums

section
variable {s : State}

-- Copy jobs

/-- A job starts on a free engine of its cluster once no earlier job holds it back, and may read ahead (R315, log entry 69). -/
theorem exec_copyJobStart_starts {job engine : Nat} {j : CopyJob} (hjob : (s.copies.find? fun j => j.id == job) = some j)
    (hnew : j.engine = none) (hengine : engine < 8)
    (hfree : (s.copies.any fun i => clusterOf i.core == clusterOf j.core && i.engine == some engine) = false)
    (hafter : (s.copiesBefore j).any j.after = false) :
    exec (.copyJobStart job engine) s = .next
      (let started : CopyJob := { j with engine := some engine }
       let r := s.copyAhead (s.copyView started) started j.sources
       r.2.putCopy r.1) := by
  simp only [exec_copyJobStart, execCopyJobStart, hjob, hnew, Option.isSome_none, decide_eq_false (Nat.not_le.2 hengine), hfree,
    hafter, Bool.or_self, Bool.false_eq_true, if_false]

section
variable {job : Nat} {j : CopyJob} (hjob : (s.copies.find? fun j => j.id == job && j.engine.isSome) = some j)
include hjob

/-- A granule lands: its items are written, its bytes are added to the job's counter, and its lines settle (R310, R311). -/
theorem exec_granuleLanded_lands {j1 : CopyJob} {s1 : State} {g : Granule} {rest : List Granule}
    (hnext : j.candidates.drop (s.pick j.candidates.length).1 = g :: rest) :
    let v := s.copyView j
    let read := (s.pick j.candidates.length).2.copyAhead v j j.sources
    let others := j.candidates.take (s.pick j.candidates.length).1 ++ rest ++
      if (j.todo.filter fun g => !g.sums).isEmpty then [] else j.todo.filter Granule.sums
    read.2.landItems v { read.1 with todo := others } g.items = .ok (j1, s1) →
    (j.dataBytes g = 0 → exec (.granuleLanded job) s = .next (s1.settleLines v j1)) ∧
    ∀ ids s2, j.dataBytes g ≠ 0 → s1.copyAdd v j1 6 (j.dataBytes g) = .ok (ids, s2) →
      exec (.granuleLanded job) s = .next (s2.settleLines v { j1 with adds := j1.adds ++ ids }) := by
  intro v read others hitems
  unfold CopyJob.candidates at hnext
  simp only [read, others, v, CopyJob.candidates] at hitems
  refine ⟨fun hnone => ?_, fun ids s2 hdata hadd => ?_⟩
  · simp only [exec_granuleLanded, execGranuleLanded, hjob, hnext, hitems, hnone, if_true]
    rfl
  · simp only [exec_granuleLanded, execGranuleLanded, hjob, hnext, hitems, if_neg hdata, v] at hadd ⊢
    rw [hadd]

/-- A job whose granules have landed leaves once its additions are performed (R311). -/
theorem exec_copyJobComplete_leaves {ids : List Nat} {s1 : State} (hlanded : j.todo = [])
    (hadds : (j.adds.any fun n => s.reqs.any fun r => r.id == n) = false) (hadd : s.copyAdd (s.copyView j) j 7 1 = .ok (ids, s1)) :
    exec (.copyJobComplete job) s = .next
      (let s2 : State := State.traceEngine { s1 with copies := s1.copies.filter fun i => i.id != job } j.launch 8 0 j.site
       s2.tryEndBlocks (s2.blocks.map (·.1))) := by
  simp only [exec_copyJobComplete, execCopyJobComplete, hjob, hlanded, List.isEmpty_nil, hadds, hadd, Bool.not_true, Bool.or_self,
    Bool.false_eq_true, if_false]

end

-- Encoder jobs

/-- The oldest job of a die fills its blocks and writes some of them (R345, log entry 71). -/
theorem exec_encoderJob_fills {die n : Nat} {e : EncJob} {ws left : List (W64 × List Byte)} {s1 s2 : State}
    (hfirst : s.firstEncode die = some e) (hnew : e.out = none)
    (hblocks : s.encBlocks (s.encView e) e 0 e.starts = .ok ((ws, n), s1))
    (hsome : s1.encSome (s.encView e) ws = .ok (left, s2)) :
    exec (.encoderJob die) s = .next
      { s2 with encodes := s2.encodes.map fun i => if i.id = e.id then { i with out := some (left, n) } else i } := by
  simp only [exec_encoderJob, execEncoderJob, hfirst, hnew, Option.isSome_none, hblocks, hsome, Bool.false_eq_true, if_false]

section
variable {job n : Nat} {e : EncJob} {left : List (W64 × List Byte)}
variable (hjob : (s.encodes.find? fun j => j.id == job) = some e) (hout : e.out = some (left, n))
include hjob hout

/-- The rest of the blocks are written; without a counter the job ends and leaves its record (R346). -/
theorem exec_encoderJobComplete_ends {s1 : State} (hnone : e.added = none) (hall : s.encAll (s.encView e) left = .ok s1)
    (hcard : cardWord e.card 7 = 0) : exec (.encoderJobComplete job) s = .next (s1.endEncode e n) := by
  simp only [exec_encoderJobComplete, execEncoderJobComplete, hjob, hout, hnone, State.finishEncode, hall, hcard, if_true]

/-- With one its addition leaves first (R346). -/
theorem exec_encoderJobComplete_adds {m : Nat} {s1 s2 : State} (hnone : e.added = none)
    (hall : s.encAll (s.encView e) left = .ok s1) (hcard : cardWord e.card 7 ≠ 0)
    (hadd : s1.engAdd (s.encView e) e.id e.site e.ident (cardWord e.card 7) 1 = .ok (m, s2)) :
    exec (.encoderJobComplete job) s = .next
      { s2 with encodes := s2.encodes.map fun (i : EncJob) =>
          if i.id = e.id then { i with out := some ([], n), added := some m } else i } := by
  simp only [exec_encoderJobComplete, execEncoderJobComplete, hjob, hout, hnone, State.finishEncode, hall, if_neg hcard, hadd]

/-- And the job ends once that is performed (R346). -/
theorem exec_encoderJobComplete_ends_after {m : Nat} (hadded : e.added = some m)
    (hperformed : (s.reqs.any fun r => r.id == m) = false) :
    exec (.encoderJobComplete job) s = .next (s.endEncode e n) := by
  simp only [exec_encoderJobComplete, execEncoderJobComplete, hjob, hout, hadded, hperformed, Bool.false_eq_true, if_false]

end

end

/-- Each step of a copy or encoder job where its conditions hold. -/
theorem engineJobs : Claims.EngineJobs := by
  intro s s1 s2 s3 job engine die n m j j1 e g rest ids ws left cands v
  refine ⟨exec_copyJobStart_starts, fun hjob hnext => ?_, fun hjob hlanded hadds hadd =>
    ⟨_, exec_copyJobComplete_leaves hjob hlanded hadds hadd, rfl⟩, exec_encoderJob_fills, fun hjob hout => ?_⟩
  · intro read others hitems
    obtain ⟨hnone, hsome⟩ := exec_granuleLanded_lands hjob hnext hitems
    exact ⟨hnone, hsome ids s2⟩
  · intro ended
    have hid : e.id = job := by simpa using List.find?_some hjob
    subst hid
    exact ⟨exec_encoderJobComplete_ends hjob hout, exec_encoderJobComplete_adds hjob hout,
      exec_encoderJobComplete_ends_after hjob hout⟩

-- Rendering

section
variable {s : State}

/-- A primitive whose record can be read is binned, or counted where it has no tile (R352, R353). -/
theorem exec_primitiveBin_bins {prim w : Nat} {p : Prim} {x : RenderPass}
    (hprim : (s.prims.find? fun p => p.id == prim && p.tiles.isNone) = some p) (hpass : s.runningPass p.slot = some x)
    (hrecord : s.recHeld p.e.at_ = false) (hstatus : s.statusHeld x = false) (hread : s.recRead p.e.at_ = .ok w) :
    exec (.primitiveBin prim) s = .next (match binTiles x.p p.e.pid p.cull w with
      | some ts =>
        let s' := s.recSeen p.e.at_
        { s' with prims := s'.prims.map fun q => if q.id = p.id then { q with tiles := some ts } else q }
      | none =>
        let s' := (s.recSeen p.e.at_).passCount p.slot 2 1
        { s' with prims := s'.prims.map fun q => if q.id = p.id then { q with tiles := some [] } else q }) := by
  cases htiles : binTiles x.p p.e.pid p.cull w <;>
    simp only [exec_primitiveBin, execPrimitiveBin, hprim, hpass, hrecord, hstatus, hread, htiles, Bool.or_self,
      Bool.false_eq_true, if_false]

/-- The first primitive in order is appended to its tiles' lists (R354). -/
theorem exec_listAppend_appends {slot prim : Nat} {p : Prim} {ts : List Nat}
    (hprim : (s.prims.find? fun p => p.id == prim && p.slot == slot) = some p) (htiles : p.tiles = some ts)
    (hfirst : s.primFirst p = true) (hlists : ∀ y, s.runningPass slot = some y → s.listHeld y = false) :
    exec (.listAppend slot prim) s = .next ((s.appendTiles p ts).pump slot) := by
  have hfree : ((s.runningPass slot).map s.listHeld).getD false = false := by
    cases hpass : s.runningPass slot with
    | none => rfl
    | some y => exact hlists y hpass
  simp only [exec_listAppend, execListAppend, hprim, htiles, hfirst, hfree, Bool.not_true, Bool.or_self, Bool.false_eq_true, if_false]

section
variable {launch : Nat} {la : Launch} (hlaunch : s.launch? launch = some la)
include hlaunch

/-- A mesh launch that its core serves next starts a group (R358). -/
theorem exec_meshGroupStart_starts {core : Nat} (hmesh : la.mesh = true) (hserves : s.servesNow launch [core] = true) :
    exec (.meshGroupStart launch core) s = .next (s.startMesh launch [core]) := by
  simp only [exec_meshGroupStart, execMeshGroupStart, hlaunch, hmesh, hserves, Bool.and_self, if_true]

/-- Another launch that its cores serve next places a block (R358). -/
theorem exec_blockPlacement_places {cores : List Nat} (hplain : la.mesh = false) (hserves : s.servesNow launch cores = true) :
    exec (.blockPlacement launch cores) s = .next (s.placeNext launch cores) := by
  simp only [exec_blockPlacement, execBlockPlacement, hlaunch, hplain, hserves, Bool.not_true, Bool.false_eq_true, if_false]

end

section
variable {slot : Nat} {x : RenderPass} (hpass : s.runningPass slot = some x)
include hpass

/-- A ready pass of a tile is granted to a block that waits for one (R408). -/
theorem exec_tilePassGrant_grants {t blk : Nat} {final : Bool} {hi : W64}
    (hgrant : s.nextGrant slot x = some ((t, final, hi), blk)) :
    exec (.tilePassGrant slot) s = .next
      (let s1 : State := { s with tileReqs := s.tileReqs.filter fun q => q.blk != blk }
       ((s1.modTile slot t fun y => { y with out := some { newTilePass final hi with owner := some blk } }).modPass slot fun x =>
          { x with forced := x.forced.filter fun k => k != t }).modBlock blk fun b =>
        { b with pass := some (slot, t), tret := b.tret.map fun r => (r.1, r.2.1, r.2.2.1, true) }) := by
  simp only [exec_tilePassGrant, execTilePassGrant, hpass, hgrant]

section
variable {tile blk : Nat} {o : TilePass} {b : Block} {la : Launch}
variable (hout : (x.tile tile).out = some o) (howner : o.owner = some blk) (hblock : s.block? blk = some b)
variable (hlaunch : s.launch? b.launch = some la) (hnew : o.started = false) (hfree : s.tileHeld la x tile o.todo = false)
include hout howner hblock hlaunch hnew hfree

/-- The sequence of a tile that has begun runs on (R409). -/
theorem exec_startSequence_runs (hbegan : o.began = true) :
    exec (.startSequence slot tile) s = .next (s.runTile slot tile blk b x o) := by
  simp only [exec_startSequence, execStartSequence, hpass, hout, howner, hblock, hlaunch, hnew, hfree, hbegan, Bool.or_self,
    Bool.false_eq_true, if_false, if_true]

/-- One that has not begun loads or clears its buffers first (R409). -/
theorem exec_startSequence_begins {s1 : State} {h : NMap W32} (hbegan : o.began = false)
    (hbegins : s.beginTile b la x tile = .ok (s1, h)) :
    exec (.startSequence slot tile) s = .next
      (s1.modOut slot tile fun o => { o with began := true, hiz := h, todo := x.work tile (x.tile tile).lo o.hi }) := by
  simp only [exec_startSequence, execStartSequence, hpass, hout, howner, hblock, hlaunch, hnew, hfree, hbegan, hbegins,
    Bool.or_self, Bool.false_eq_true, if_false]

end

/-- The verdicts of a primitive's samples are written to the visibility buffer (R413). -/
theorem exec_coverageVerdictWrite_writes {tile w : Nat} {o : TilePass} {b : Block} {e : RenderEntry} (hout : s.outOf slot tile = some o)
    (hblock : o.owner.bind s.block? = some b) (hgot : o.covGot ≠ []) (hcur : o.cur = some e) (hfree : s.recHeld e.at_ = false)
    (hread : s.recRead e.at_ = .ok w) :
    exec (.coverageVerdictWrite slot tile) s = .next
      (let ws := match rasterTri w with
         | none => []
         | some tri => (tri.samples (passSamples x.p) (tileCol x.p tile) (tileRow x.p tile)).filter fun v =>
             o.covGot.any fun g => g / 16 == v.1 && (g % 16).testBit v.2.1
       ((s.recSeen e.at_).putSamples (visBase b x.p) e.pid ws).modOut slot tile fun o =>
         { o with covGot := [], hiz := widenHiz o.hiz ws }) := by
  cases htri : rasterTri w <;>
    simp only [exec_coverageVerdictWrite, execCoverageVerdictWrite, hpass, hout, hblock, hcur, List.isEmpty_eq_false_iff.2 hgot,
      hfree, hread, htri, Bool.or_self, Bool.false_eq_true, if_false]

end

section
variable {blk : Nat} {r : Retire} {b : Block} (hretire : (s.retires.find? fun r => r.blk == blk) = some r)
variable (hblock : s.block? blk = some b) (hidle : b.starting = false)
include hretire hblock hidle

/-- A retirement publishes what its block wrote, once nothing of that is in flight (R413). -/
theorem exec_retirementComplete_publishes (hnone : r.pub = none) (hwaits : (r.waits.any fun w => s.inFlight w) = false) :
    exec (.retirementComplete blk) s = .next
      (let p := s.publish b.core r.gid b.launch .sys 0 .nothing
       { p.2 with retires := p.2.retires.map fun x => if x.blk = blk then { x with pub := some p.1 } else x }) := by
  simp only [exec_retirementComplete, execRetirementComplete, hretire, hblock, hidle, hnone, hwaits, Bool.false_eq_true, if_false]

/-- And ends once that has arrived: the tile retires (R413). -/
theorem exec_retirementComplete_ends {n : Nat} {s1 : State} (hpub : r.pub = some n) (harrived : (s.pubs.any fun q => q.id == n) = false)
    (hfree : s.retireHeld b = false) (htile : s.retireTile blk b r = .ok s1) :
    exec (.retirementComplete blk) s = .next (s1.endRetirement blk r) := by
  simp only [exec_retirementComplete, execRetirementComplete, hretire, hblock, hidle, hpub, harrived, hfree, htile, Bool.or_self,
    Bool.false_eq_true, if_false]

end

/-- A write through an aperture reaches its tile (R339). -/
theorem exec_tileWrite_performs {die ap : Nat} {y : ApWrite} (hwrite : ((s.die die).apWrites.find? fun w => w.ap == ap) = some y) :
    exec (.tileWrite die ap) s = .next (s.performApWrites die [y]) := by
  simp only [exec_tileWrite, execTileWrite, hwrite]

end

/-- Each of rendering's steps where its conditions hold. -/
theorem rendering : Claims.Rendering := by
  intro s s1 prim slot tile blk die ap core launch cores p x w ts t final hi o b la r h n
  refine ⟨fun hprim hpass hrecord hstatus hread => (exec_primitiveBin_bins hprim hpass hrecord hstatus hread).trans ?_,
    exec_listAppend_appends, fun hlaunch => exec_meshGroupStart_starts hlaunch, fun hlaunch => exec_blockPlacement_places hlaunch,
    fun hpass => exec_tilePassGrant_grants hpass,
    fun hpass hout howner hblock hlaunch hnew hfree => ⟨exec_startSequence_runs hpass hout howner hblock hlaunch hnew hfree,
      exec_startSequence_begins hpass hout howner hblock hlaunch hnew hfree⟩,
    fun hpass hout hblock hgot e hcur hfree hread =>
      (exec_coverageVerdictWrite_writes hpass hout hblock hgot hcur hfree hread).trans ?_,
    fun hretire hblock hidle => ⟨exec_retirementComplete_publishes hretire hblock hidle,
      exec_retirementComplete_ends hretire hblock hidle⟩, fun y => exec_tileWrite_performs⟩
  · cases binTiles x.p p.e.pid p.cull w <;> rfl
  · cases rasterTri w <;> rfl

/-- Settles O31: the engines' jobs (`engineJobs`), and rendering's steps (`rendering`). -/
theorem engineAndRenderEvents : Obligations.EngineAndRenderEvents :=
  ⟨engineJobs, rendering⟩

end Sys2Proof.Machine

/-! The start of a command and the commands other than DEBUG (O32). -/

namespace Sys2Proof.Machine

-- The start of a command

section
variable {s : State} {q : Nat}

/-- While another event of the queue waits for the firmware, nothing starts (R396). -/
theorem exec_commandStart_waits (hbusy : ¬ ∀ e ∈ s.fwEvents, e.queue = some q → e = .start q) :
    exec (.commandStart q) s = .next s := by
  have hany : (s.fwEvents.any fun e => e.queue == some q && e != .start q) = true := by
    simpa using hbusy
  simp only [exec_commandStart, execCommandStart, hany, if_true]

/-- Otherwise the queue starts its command (R396). -/
theorem exec_commandStart_free (hfree : ∀ e ∈ s.fwEvents, e.queue = some q → e = .start q) :
    exec (.commandStart q) s = .next (s.startCommand q) := by
  have hany : (s.fwEvents.any fun e => e.queue == some q && e != .start q) = false := by
    simpa using hfree
  simp only [exec_commandStart, execCommandStart, hany, Bool.false_eq_true, if_false]

/-- The words of the command at HEAD (R392). -/
def State.headWords (s : State) (q : Nat) : List W64 :=
  (List.range 8).map fun n => s.load64 ((s.queue q).slotAddr (s.queue q).head.toNat + 8 * n)

section
variable (henabled : (s.queue q).enabled = true) (hrunning : (s.queue q).stopped = false)
variable (hahead : (s.queue q).head.toNat < (s.queue q).tail.toNat)
variable (hnew : ∀ y ∈ (s.queue q).cmds, y.num ≠ (s.queue q).head.toNat)
include henabled hrunning hahead hnew

/-- A queue with a command at HEAD that is not in progress looks at it. -/
theorem State.startCommand_guard :
    (!(s.queue q).enabled || (s.queue q).stopped || decide ((s.queue q).tail.toNat ≤ (s.queue q).head.toNat) ||
      (s.queue q).cmds.any fun y => y.num == (s.queue q).head.toNat) = false := by
  have hany : ((s.queue q).cmds.any fun y => y.num == (s.queue q).head.toNat) = false := by simpa using hnew
  rw [henabled, hrunning, decide_eq_false (Nat.not_le.2 hahead), hany]
  rfl

/-- A TAIL too far ahead of HEAD stops the queue with reason 2 (R392, R395). -/
theorem State.startCommand_overflows (hfar : (s.queue q).head.toNat + 2 ^ (((s.queue q).read 0).toNat % 32) < (s.queue q).tail.toNat) :
    s.startCommand q = s.stopQueue q 2 (s.queue q).head.toNat true := by
  have hdue := State.startCommand_guard henabled hrunning hahead hnew
  simp only [State.startCommand, hdue, Bool.false_eq_true, if_false]
  exact if_pos hfar

section
variable (hidle : ∀ y ∈ (s.queue q).cmds, y.waits = false)
variable (hnear : (s.queue q).tail.toNat ≤ (s.queue q).head.toNat + 2 ^ (((s.queue q).read 0).toNat % 32))
variable (hslot : (s.queue q).slotAddr (s.queue q).head.toNat + 64 ≤ s.capacity)
variable (hunheld : ¬ (((cmdWord (s.headWords q) 0).getLsbD 55 = true ∧ (s.queue q).cmds ≠ []) ∨ s.passHolds (s.headWords q) = true))
include hidle hnear hslot hunheld

/-- With no WAIT in progress, and nothing that holds the command, the queue does as its words say (R392, R393, R395). -/
theorem State.startCommand_reads :
    s.startCommand q = match commandEvent q (s.queue q).head.toNat (s.headWords q) with
      | .error e => s.stopQueue q e.reason (s.queue q).head.toNat true
      | .ok i =>
        let s1 := s.modQueue q fun y =>
          { y with cmds := y.cmds ++
              [{ num := (s.queue q).head.toNat, words := s.headWords q, first := 0, count := 0, nodes := [], counters := [],
                 succWords := [], blocks := [], gang := none, begun := false }] }
        { s1 with agenda := .event i :: s1.agenda } := by
  have hdue := State.startCommand_guard henabled hrunning hahead hnew
  have hwaits : (s.queue q).cmds.any Cmd.waits = false := by simpa using hidle
  have hheld : ((cmdWord (s.headWords q) 0).getLsbD 55 && !(s.queue q).cmds.isEmpty || s.passHolds (s.headWords q)) = false := by
    simpa [List.isEmpty_iff] using hunheld
  unfold State.headWords at hheld
  simp only [State.startCommand, State.headWords, hdue, hwaits, hheld, Bool.false_eq_true, if_false]
  exact (if_neg (Nat.not_lt.2 hnear)).trans (if_neg (Nat.not_lt.2 hslot))

end
end
end

/-- A queue with a command at HEAD starts it, stops on its fault or on a TAIL too far ahead, and waits for its other events. -/
theorem commandStart : Claims.CommandStart := by
  intro s q i e x c k free due starts held size
  refine ⟨fun hstarts hnear hslot hunheld hok => ?_, fun hstarts hnear hslot hunheld herr => ?_, fun hdue hfar => ?_,
    exec_commandStart_waits⟩
  · obtain ⟨⟨hfree, henabled, hrunning, hahead, hnew⟩, hidle⟩ := hstarts
    rw [exec_commandStart_free hfree, State.startCommand_reads henabled hrunning hahead hnew hidle hnear hslot hunheld]
    simp only [k, x, c, State.headWords] at hok ⊢
    rw [hok]
  · obtain ⟨⟨hfree, henabled, hrunning, hahead, hnew⟩, hidle⟩ := hstarts
    rw [exec_commandStart_free hfree, State.startCommand_reads henabled hrunning hahead hnew hidle hnear hslot hunheld]
    simp only [k, x, c, State.headWords] at herr ⊢
    rw [herr]
  · obtain ⟨hfree, henabled, hrunning, hahead, hnew⟩ := hdue
    rw [exec_commandStart_free hfree, State.startCommand_overflows henabled hrunning hahead hnew hfar]

-- The commands

/-- A command in progress does its work, and HEAD passes it with its first step (R393). -/
theorem State.onCmd_some {s : State} {q c : Nat} {cmd : Cmd} {f : Cmd → State} (hcmd : s.cmd? q c = some cmd) :
    s.onCmd q c f = .next ((f cmd).started q c) := by
  simp only [State.onCmd, hcmd]

section
variable {s : State} {q c : Nat} {cmd : Cmd} (hcmd : s.cmd? q c = some cmd)
include hcmd

section
variable {va x : W64} (haligned : va.toNat % 8 = 0)
include haligned

/-- SIGNAL stays in progress while a migration holds its walk (R333, R393). -/
theorem exec_signal_held (hheld : s.rangeHeld (s.queue q).asn va.toNat 8 = true) :
    exec (.signal q c va x) s = .next (s.started q c) := by
  simp only [exec_signal, execSignal, State.onCmd_some hcmd, bne_eq_false_iff_eq.2 haligned, hheld, Bool.false_eq_true, if_false, if_true]

/-- So does WAIT (R333, R393). -/
theorem exec_wait_held (hheld : s.rangeHeld (s.queue q).asn va.toNat 8 = true) :
    exec (.wait q c va x) s = .next (s.started q c) := by
  simp only [exec_wait, execWait, State.onCmd_some hcmd, bne_eq_false_iff_eq.2 haligned, hheld, Bool.false_eq_true, if_false, if_true]

variable (hfree : s.rangeHeld (s.queue q).asn va.toNat 8 = false)
include hfree

/-- SIGNAL adds to its counter and completes (R393). -/
theorem exec_signal_adds {s1 : State} (hadd : s.hubAdd (s.queue q).root va.toNat x = some (false, s1)) :
    exec (.signal q c va x) s = .next ((s1.completeCmd q c).started q c) := by
  simp only [exec_signal, execSignal, State.onCmd_some hcmd, bne_eq_false_iff_eq.2 haligned, hfree, hadd, Bool.false_eq_true, if_false]

/-- One whose counter overflows stops its queue (R288, R395). -/
theorem exec_signal_overflows {s1 : State} (hadd : s.hubAdd (s.queue q).root va.toNat x = some (true, s1)) :
    exec (.signal q c va x) s = .next ((s1.failCommand q c .overflow).started q c) := by
  simp only [exec_signal, execSignal, State.onCmd_some hcmd, bne_eq_false_iff_eq.2 haligned, hfree, hadd, Bool.false_eq_true, if_false]

/-- WAIT compares its counter with its target, and completes or stays in progress (R393). -/
theorem exec_wait_compares {a : Nat} (hhome : s.tableHome (s.queue q).root va.toNat false = some a) (hup : s.peerDown a = false) :
    exec (.wait q c va x) s = .next ((if x.toNat ≤ (s.load64 a).toNat then s.completeCmd q c else s).started q c) := by
  simp only [exec_wait, execWait, State.onCmd_some hcmd, bne_eq_false_iff_eq.2 haligned, hfree, hhome, hup, Bool.false_eq_true, if_false]

end

/-- RPASS starts a pass in a free slot with legal parameters (R348, R393). -/
theorem exec_rpass_starts {slot : Nat} {va : W64} {p : List W64} (hnew : cmd.begun = false) (hslot : s.runningPass slot = none)
    (haligned : va.toNat % 8 = 0) (hfree : s.rangeHeld (s.queue q).asn va.toNat 64 = false)
    (hread : s.readPass (s.queue q).root va.toNat = some p) (hlegal : passOk p = true) :
    exec (.rpass q c slot va) s = .next
      (let pass : RenderPass :=
         { queue := q, cmd := c, asn := (s.queue q).asn, root := (s.queue q).root, p := p, running := true, failed := false,
           ended := false, groups := [], chunks := [], tiles := [], forced := [], heldSince := none }
       (State.modCmd { s with passes := NMap.put s.passes slot pass } q c fun y => { y with begun := true }).started q c) := by
  simp only [exec_rpass, execRpass, State.onCmd_some hcmd, hnew, hslot, bne_eq_false_iff_eq.2 haligned, hfree, hread, hlegal,
    Option.isSome_none, Bool.or_self, Bool.not_true, Bool.false_eq_true, if_false]

/-- RPEND ends the slot's running pass and completes (R393). -/
theorem exec_rpend_ends {slot : Nat} (hruns : (s.runningPass slot).isSome = true) :
    exec (.rpend q c slot) s = .next (((s.modPass slot fun y => { y with ended := true }).completeCmd q c).started q c) := by
  obtain ⟨x, hpass⟩ := Option.isSome_iff_exists.1 hruns
  simp only [exec_rpend, execRpend, State.onCmd_some hcmd, hpass]

/-- PREEMPT writes its victim's mask and evicts the blocks that it forbids (R393, R400). -/
theorem exec_preempt_begins {victim : Nat} {off : W64} (hnew : cmd.begun = false) (haligned : off.toNat % 8 = 0) :
    exec (.preempt q c victim off) s = .next
      (let s0 := s.copyTable off.toNat victim 128
       let s1 := s0.modQueue victim fun y => { y with mask := s0.maskTable (maskBase victim) }
       (((s1.requestEvicts (s1.forbidden victim)).modCmd q c fun y =>
         { y with blocks := s1.forbidden victim, begun := true }).settlePreempts).started q c) := by
  simp only [exec_preempt, execPreempt, State.onCmd_some hcmd, hnew, bne_eq_false_iff_eq.2 haligned, Bool.false_eq_true, if_false]

/-- SHOOTDOWN drops its range and notes the accesses in progress (R333, R393). -/
theorem exec_shootdown_begins {va x : W64} (hnew : cmd.begun = false) : exec (.shootdown q c va x) s = .next
    (((s.dropRange (s.queue q).asn va.toNat x.toNat).modCmd q c fun y =>
      { y with begun := true, blocks := s.openAccesses }).started q c) := by
  simp only [exec_shootdown, execShootdown, State.onCmd_some hcmd, hnew, Bool.false_eq_true, if_false]

/-- MIGRATE drops its range, has the cores write its pages back, and holds the walks that meet it (R333, R393). -/
theorem exec_migrate_begins {va x : W64} (hnew : cmd.begun = false) : exec (.migrate q c va x) s = .next
    (let s1 := (s.dropRange (s.queue q).asn va.toNat x.toNat).flushPages (s.homePages (s.queue q).root va.toNat x.toNat)
       (s.cores.map (·.1))
     (State.modCmd { s1 with migrating := s1.migrating ++ [((s.queue q).asn, va.toNat, x.toNat)] } q c fun y =>
       { y with begun := true, blocks := s1.openAccesses ++ s1.wbs.map WriteBack.id }).started q c) := by
  simp only [exec_migrate, execMigrate, State.onCmd_some hcmd, hnew, Bool.false_eq_true, if_false]

/-- SHOOTDOWN completes once those accesses are performed (R333, R393). -/
theorem exec_shootdown_completes {va x : W64} (hbegun : cmd.begun = true) (hdone : s.performed cmd.blocks = true) :
    exec (.shootdown q c va x) s = .next ((s.completeCmd q c).started q c) := by
  simp only [exec_shootdown, execShootdown, State.onCmd_some hcmd, hbegun, hdone, if_true]

/-- So does MIGRATE (R333, R393). -/
theorem exec_migrate_completes {va x : W64} (hbegun : cmd.begun = true) (hdone : s.performed cmd.blocks = true) :
    exec (.migrate q c va x) s = .next ((s.completeCmd q c).started q c) := by
  simp only [exec_migrate, execMigrate, State.onCmd_some hcmd, hbegun, hdone, if_true]

/-- GANG starts its nodes once its operands make a gang whose tag no ABORT has named (R429, R431). -/
theorem exec_gang_starts {first count : Nat} {k1 k2 k3 : W64} {g : Gang} (hnew : cmd.begun = false)
    (hgang : s.gangOf k1 k2 k3 = .ok g) (htag : s.aborted.contains g.tag = false) :
    exec (.gang q c first count k1 k2 k3) s = .next
      (((s.modCmd q c fun y => { y with gang := some g }).startNodes q c first count).started q c) := by
  simp only [exec_gang, execGang, State.onCmd_some hcmd, hnew, hgang, htag, Bool.false_eq_true, if_false]

/-- LAUNCH starts its nodes once no migration holds their DONE counters (R333, R398). -/
theorem exec_launch_starts {first count : Nat} (hnew : cmd.begun = false)
    (hfree : s.doneHeld (s.queue q).asn first count = false) :
    exec (.launch q c first count) s = .next ((s.startNodes q c first count).started q c) := by
  simp only [exec_launch, execLaunch, State.onCmd_some hcmd, hnew, hfree, Bool.or_self, Bool.false_eq_true, if_false]

/-- APERTURE writes its aperture's registers once nothing is on its way through it (R335, R393). -/
theorem exec_aperture_writes {die ap : Nat} {ctl vbase size pbase dim : W64} (hidle : s.throughAperture die ap = false) :
    exec (.aperture q c die ap ctl vbase size pbase dim) s = .next
      (((s.writeAperture die ap (apertureOf ctl vbase size pbase dim)).completeCmd q c).started q c) := by
  simp only [exec_aperture, execAperture, State.onCmd_some hcmd, hidle, Bool.false_eq_true, if_false]

-- Attestation

/-- The bytes that ATTEST writes: a report while a leaf is left, then a status (R405). -/
def State.attestBytes (s : State) (nonce : W64) : List Byte :=
  if s.leavesUsed < leaves then Config.attestReport (Memory.reads s.mem nonce.toNat 32) s.leavesUsed else Config.attestStatus 7

section
variable {nonce report : W64}

/-- ATTEST within the capacity writes its bytes; a report uses a leaf (R405). -/
theorem exec_attest_writes (hnonce : nonce.toNat + 32 ≤ s.capacity)
    (hreport : report.toNat + (s.attestBytes nonce).length ≤ s.capacity) :
    exec (.attest q c nonce report) s = .next ((State.completeCmd { s.storeBytes report.toNat (s.attestBytes nonce) with
      leavesUsed := if s.leavesUsed < leaves then s.leavesUsed + 1 else s.leavesUsed } q c).started q c) := by
  have hinside : (decide (nonce.toNat + 32 > s.capacity) || decide (report.toNat + (s.attestBytes nonce).length > s.capacity)) = false := by
    rw [decide_eq_false (Nat.not_lt.2 hnonce), decide_eq_false (Nat.not_lt.2 hreport)]
    rfl
  unfold State.attestBytes at hinside ⊢
  simp only [exec_attest, execAttest, State.onCmd_some hcmd, hinside, Bool.false_eq_true, if_false]

/-- Beyond it its operands are at fault (R395). -/
theorem exec_attest_fails (hbeyond : s.capacity < nonce.toNat + 32 ∨ s.capacity < report.toNat + (s.attestBytes nonce).length) :
    exec (.attest q c nonce report) s = .next ((s.failCommand q c .operand).started q c) := by
  have houtside : (decide (nonce.toNat + 32 > s.capacity) || decide (report.toNat + (s.attestBytes nonce).length > s.capacity)) = true := by
    simpa using hbeyond
  unfold State.attestBytes at houtside
  simp only [exec_attest, execAttest, State.onCmd_some hcmd, houtside, if_true]

end
end

/-- Each command where its conditions hold. -/
theorem commands : Claims.Commands := by
  intro s s1 q c first count slot victim die ap a va x k1 k2 k3 ctl vbase size pbase dim cmd p g root asn did hcmd
  refine ⟨State.onCmd_some hcmd, exec_launch_starts hcmd,
    fun haligned hheld => ⟨exec_signal_held hcmd haligned hheld, exec_wait_held hcmd haligned hheld⟩,
    fun haligned hfree => exec_signal_adds hcmd haligned hfree, fun haligned hfree => exec_signal_overflows hcmd haligned hfree,
    fun haligned hfree hhome hup hmet => ?_, fun haligned hfree hhome hup hunmet => ?_, exec_rpass_starts hcmd, exec_rpend_ends hcmd,
    exec_preempt_begins hcmd, exec_shootdown_begins hcmd,
    fun hbegun hdone => ⟨exec_shootdown_completes hcmd hbegun hdone, exec_migrate_completes hcmd hbegun hdone⟩,
    exec_migrate_begins hcmd, State.onCmd_some hcmd, exec_gang_starts hcmd, ⟨_, rfl, State.onCmd_some hcmd⟩,
    exec_aperture_writes hcmd, fun hnonce hreport => ⟨fun hleft => ?_, fun hused => ?_⟩, exec_attest_fails hcmd⟩
  · exact (exec_wait_compares hcmd haligned hfree hhome hup).trans (by rw [if_pos hmet])
  · exact (exec_wait_compares hcmd haligned hfree hhome hup).trans (by rw [if_neg (Nat.not_le.2 hunmet)])
  · exact (exec_attest_writes hcmd hnonce hreport).trans (by rw [if_pos hleft]; rfl)
  · refine (exec_attest_writes hcmd hnonce hreport).trans ?_
    rw [if_neg (Nat.not_lt.2 hused), ← State.storeBytes_leavesUsed s x.toNat (s.attestBytes va)]
    rfl

/-- Settles O32: the start of a command (`commandStart`), and the commands other than DEBUG (`commands`). -/
theorem commandMoves : Obligations.CommandMoves :=
  ⟨commandStart, commands⟩

end Sys2Proof.Machine

/-! The end of a node, and the DEBUG commands with their records (O33). -/

namespace Sys2Proof.Machine

section
variable {s : State}

-- Nodes

section
variable {launch : Nat} {la : Launch} (hlaunch : s.launch? launch = some la) (hissued : la.held = false)
variable (hfinished : la.nblocks ≤ la.finished) (hjobs : s.jobsOpen launch = false)
include hlaunch hissued hfinished hjobs

/-- A node whose blocks have ended and whose jobs are done publishes (R398). -/
theorem exec_nodeComplete_publishes (hnew : la.pubs = none) :
    exec (.nodeComplete launch) s = .next
      (let r := s.publishAll launch la.cores
       r.2.modLaunch launch fun x => { x with pubs := some r.1 }) := by
  simp only [exec_nodeComplete, execNodeComplete, hlaunch, hissued, decide_eq_false (Nat.not_lt.2 hfinished), hjobs, hnew,
    Bool.or_self, Bool.false_eq_true, if_false]

/-- And is complete once its publishes have arrived (R396, R398). -/
theorem exec_nodeComplete_ends {ids : List Nat} (hpubs : la.pubs = some ids) (harrived : (s.pubs.any fun p => ids.contains p.id) = false) :
    exec (.nodeComplete launch) s = .next
      (State.pushFw { s with launches := NMap.erase s.launches launch } (.completed launch la)) := by
  simp only [exec_nodeComplete, execNodeComplete, hlaunch, hissued, decide_eq_false (Nat.not_lt.2 hfinished), hjobs, hpubs,
    harrived, Bool.or_self, Bool.false_eq_true, if_false]

end

/-- A healthy core runs the oldest event that can run (R396). -/
theorem exec_firmwareEvent_runs {core : Nat} {e : FwEvent} {rest : List FwEvent} (hcore : core < 12)
    (hhealthy : s.fwWorn.contains core = false) (hverified : s.verified = true) (hnext : s.fwNext [] s.fwEvents = some (e, rest)) :
    exec (.firmwareEvent core) s = .next (State.runFw { s with fwEvents := rest } e) := by
  simp only [exec_firmwareEvent, execFirmwareEvent, decide_eq_false (Nat.not_le.2 hcore), hhealthy, hverified, hnext, Bool.or_self,
    Bool.not_true, Bool.false_eq_true, if_false]

end

/-- Each step of a node's end where its conditions hold. -/
theorem nodeEnds : Claims.NodeEnds := by
  intro s launch core la ids rest count fw ended
  exact ⟨fun hlaunch hissued hfinished hjobs => ⟨exec_nodeComplete_publishes hlaunch hissued hfinished hjobs,
    exec_nodeComplete_ends hlaunch hissued hfinished hjobs⟩, exec_firmwareEvent_runs⟩

-- DEBUG commands

section
variable {s : State}

/-- A group that DEBUG_RESUME lets go resumes, or enters the debug handler (R374, log entry 50). -/
theorem State.resumed_cases (n gid : Nat) (g : Group) :
    let t := if (s.pick n).1 = 0 then (s.pick n).2.setGroup gid g.resumeHalt else (s.pick n).2.debugHalted gid g
    t = (s.pick n).2.setGroup gid g.resumeHalt ∨ t = (s.pick n).2.debugHalted gid g := by
  intro t
  by_cases hresumes : (s.pick n).1 = 0
  · exact .inl (if_pos hresumes)
  · exact .inr (if_neg hresumes)

section
variable {q c : Nat} {k1 k2 : W64} {cmd : Cmd} (hcmd : s.cmd? q c = some cmd)
include hcmd

/-- A command whose data lies in memory and is legal does its work and completes (R394). -/
theorem State.onData_completes {n : Nat} {f : List W64 → Except CmdErr State} {t : State} (hdata : s.physOk k2 (8 * n) = true)
    (hlegal : f (s.physWords k2 n) = .ok t) : s.onData q c k2 n f = .next ((t.completeCmd q c).started q c) := by
  simp only [State.onData, State.onCmd, hcmd, hdata, hlegal, Bool.not_true, Bool.false_eq_true, if_false]

/-- DEBUG_SAMPLING with periods in range sets a die's samplers (R368, R377). -/
theorem exec_debugSampling_sets (hdata : s.physOk k2 8 = true)
    (hpc : let n := (((s.physWords k2 1).getD 0 0).extractLsb' 0 5).toNat; 8 ≤ n ∧ n ≤ 24)
    (hmem : let m := (((s.physWords k2 1).getD 0 0).extractLsb' 8 5).toNat; 4 ≤ m ∧ m ≤ 20) :
    exec (.debugSampling q c k1 k2) s = .next (((s.setSampling (debugDie k1)
      (((s.physWords k2 1).getD 0 0).extractLsb' 0 5).toNat (((s.physWords k2 1).getD 0 0).extractLsb' 8 5).toNat).completeCmd
        q c).started q c) := by
  rw [exec_debugSampling, execDebugSampling]
  refine State.onData_completes (n := 1) hcmd hdata (if_pos ?_)
  simp only [Bool.and_eq_true, decide_eq_true_eq]
  exact ⟨⟨hpc, hmem.1⟩, hmem.2⟩

/-- DEBUG_RING with a legal ring makes it a die's, its counters zero (R369). -/
theorem exec_debugRing_sets (hdata : s.physOk k2 40 = true) (hring : s.ringError (s.physWords k2 5) = none) :
    exec (.debugRing q c k1 k2) s = .next
      (let words := s.physWords k2 5
       let ring : DebugRing :=
         { base := (words.getD 0 0).toNat, n := (words.getD 1 0).toNat, written := (words.getD 2 0).toNat,
           consumed := (words.getD 3 0).toNat }
       (((((s.store64 ring.written 0).store64 (ring.written + 8) 0).store64 ring.consumed 0).modDie (debugDie k1) fun d =>
         { d with ring := some ring }).completeCmd q c).started q c) := by
  rw [exec_debugRing, execDebugRing]
  refine State.onData_completes (n := 5) hcmd hdata ?_
  simp only [hring]

/-- DEBUG_BREAKPOINTS with legal comparators sets those of a core (R370, R371). -/
theorem exec_debugBreakpoints_sets {core : Nat} (hdata : s.physOk k2 256 = true) (hcore : debugCore k1 = some core)
    (hlegal : ∀ w ∈ (s.physWords k2 32).drop 24, (w.extractLsb' 20 4).toNat ≤ 12) :
    exec (.debugBreakpoints q c k1 k2) s = .next
      (((s.modCore core fun x => x.setDebugs 0 (s.physWords k2 32)).completeCmd q c).started q c) := by
  rw [exec_debugBreakpoints, execDebugBreakpoints]
  refine State.onData_completes (n := 32) hcmd hdata ?_
  have hany : ((s.physWords k2 32).drop 24).any (fun w => decide ((w.extractLsb' 20 4).toNat > 12)) = false :=
    List.any_eq_false.2 fun w hw => by simpa using hlegal w hw
  simp only [hcore, hany, Bool.false_eq_true, if_false]

/-- DEBUG_PREDICATE sets the predicates of a die (R373). -/
theorem exec_debugPredicate_sets (hdata : s.physOk k2 64 = true) :
    exec (.debugPredicate q c k1 k2) s = .next (((s.modDie (debugDie k1) fun d =>
      { d with preds := putWords d.preds (k1.toNat % 256 * 8) (s.physWords k2 8) }).completeCmd q c).started q c) := by
  rw [exec_debugPredicate, execDebugPredicate]
  exact State.onData_completes (n := 8) hcmd hdata rfl

/-- DEBUG_L2WATCH with legal comparators sets those of a slice (R375). -/
theorem exec_debugL2Watch_sets (hdata : s.physOk k2 32 = true) (hslice : k1.toNat % 256 < s.l2n)
    (hlegal : ∀ w ∈ s.physWords k2 4, w.extractLsb' 48 2 = 0) :
    exec (.debugL2Watch q c k1 k2) s = .next (((s.modDie (debugDie k1) fun d =>
      { d with l2w := putWords d.l2w (k1.toNat % 256 * 4) ((s.physWords k2 4).map fun w => w &&& 0x0003FFFFFFFFFFFF) }).completeCmd
        q c).started q c) := by
  rw [exec_debugL2Watch, execDebugL2Watch]
  refine State.onData_completes (n := 4) hcmd hdata (if_neg ?_)
  have hany : (s.physWords k2 4).any (fun w => w.extractLsb' 48 2 != 0) = false :=
    List.any_eq_false.2 fun w hw => by simpa using hlegal w hw
  rw [hany, decide_eq_false (Nat.not_le.2 hslice)]
  exact Bool.false_ne_true

variable (hgix : debugGixOk k1 = true)
include hgix

/-- A command on a group that is not halted completes without effect (log entry 52). -/
theorem State.onHalted_none {f : Nat → Group → State} (hnone : s.haltedGroup k1 = none) :
    s.onHalted q c k1 k2 f = .next ((s.completeCmd q c).started q c) := by
  simp only [State.onHalted, State.onCmd, hcmd, hgix, hnone, Bool.not_true, Bool.false_eq_true, if_false]

/-- So does a resume of one (log entry 52). -/
theorem exec_debugResume_none (hnone : s.haltedGroup k1 = none) :
    exec (.debugResume q c k1 k2) s = .next ((s.completeCmd q c).started q c) := by
  simp only [exec_debugResume, execDebugResume, State.onCmd, hcmd, hgix, hnone, Bool.not_true, Bool.false_eq_true, if_false]

section
variable {gid : Nat} {g : Group} (hhalted : s.haltedGroup k1 = some (gid, g))
include hhalted

/-- One on a halted group does its work with its image in memory (R374, R394). -/
theorem State.onHalted_some {f : Nat → Group → State} (himage : s.physOk k2 (s.imageSize gid g) = true) :
    s.onHalted q c k1 k2 f = .next (((f gid g).completeCmd q c).started q c) := by
  simp only [State.onHalted, State.onCmd, hcmd, hgix, hhalted, himage, Bool.not_true, Bool.false_eq_true, if_false]

/-- DEBUG_RESUME lets a halted group go one of the two ways, and completes (R374, log entry 50). -/
theorem exec_debugResume_goes :
    ∃ n t, (t = (s.pick n).2.setGroup gid g.resumeHalt ∨ t = (s.pick n).2.debugHalted gid g) ∧
      exec (.debugResume q c k1 k2) s = .next ((t.completeCmd q c).started q c) := by
  refine ⟨if g.hkind = 0 && s.dhaOf g != 0 then 2 else 1, _, State.resumed_cases _ gid g, ?_⟩
  simp only [exec_debugResume, execDebugResume, State.onCmd, hcmd, hgix, hhalted, Bool.not_true, Bool.false_eq_true, if_false]

end
end

-- Records

section
variable {die : Nat} {r : Nat × List W64 × List W64} {rest : List (Nat × List W64 × List W64)} {ring : DebugRing}
variable (hrecords : (s.die die).records = r :: rest) (hring : (s.die die).ring = some ring)
include hrecords hring

/-- The oldest record of a die goes to its ring while a slot is free (R369). -/
theorem exec_debugRecord_writes (hroom : (s.load64 ring.written).toNat -
      Nat.min (s.load64 ring.consumed).toNat (s.load64 ring.written).toNat < 2 ^ ring.n) :
    exec (.debugRecord die) s = .next
      (((s.modDie die fun x => { x with records := rest }).storeWords
        (ring.base + 64 * ((s.load64 ring.written).toNat % 2 ^ ring.n)) (recordWords r.1 r.2.1 r.2.2)).store64 ring.written
        (s.load64 ring.written + 1)) := by
  simp only [exec_debugRecord, execDebugRecord, hrecords, hring]
  rw [if_neg (Nat.not_le.2 hroom)]

/-- In a full ring it is dropped and counted (R369). -/
theorem exec_debugRecord_drops (hfull : 2 ^ ring.n ≤ (s.load64 ring.written).toNat -
      Nat.min (s.load64 ring.consumed).toNat (s.load64 ring.written).toNat) :
    exec (.debugRecord die) s = .next ((s.modDie die fun x => { x with records := rest }).store64 (ring.written + 8)
      (s.load64 (ring.written + 8) + 1)) := by
  simp only [exec_debugRecord, execDebugRecord, hrecords, hring]
  rw [if_pos hfull]

end

/-- An access that a comparator of its slice sees posts its record (R376). -/
theorem exec_l2WatchHit_records {die slice pa cls unit reqDie : Nat} {write : Bool} (hhome : s.homeOf pa = [2, die, slice])
    (hslices : s.l2n ≠ 0) (haddr : pa < 2 ^ 48) (hunit : unit < l2Units cls) (hseen : s.l2Sees pa (write || cls == 1) = true) :
    exec (.l2WatchHit die slice pa write cls unit reqDie) s = .next (s.record (pa / 4096 % 16) 9 [BitVec.ofNat 64 pa,
      BitVec.ofNat 64 (reqDie % 256 * 2 ^ 56 + cls % 256 * 2 ^ 48 + unit % 2 ^ 16 * 2 ^ 32 +
        if write || cls == 1 then 1 else 0)]) := by
  simp only [exec_l2WatchHit, execL2WatchHit, hhome, beq_self_eq_true, if_true, State.l2Post, hseen, hslices,
    decide_eq_false (Nat.not_le.2 haddr), decide_eq_false (Nat.not_le.2 hunit), decide_false, Bool.not_true, Bool.or_self,
    Bool.false_eq_true, if_false]

/-- A sample that is due names the group of the next occupied slot (R368). -/
theorem exec_pcSample_records {core slot n : Nat} {g : Group} (hrate : (s.die (dieOf core)).pcRate = some n)
    (hdue : (s.die (dieOf core)).pcSince + ((s.core core).pcTaken + 1) * 2 ^ n ≤ s.now) (hnext : s.nextSampled core = some (slot, g)) :
    exec (.pcSample core) s = .next
      (let x := s.statusSite g
       let s1 := s.modCore core fun y => { y with pcTaken := y.pcTaken + 1 }
       (s1.modCore core fun y => { y with lastSampled := slot }).recordAt (dieOf core) 1
         [x.pc, x.sample1 (256 * s.statusCode g), BitVec.ofNat 64 (x.block % 2 ^ 32 + x.launch * 2 ^ 32)] x.words) := by
  have hsample : s.sampleDue core = true := by
    simp only [State.sampleDue, hrate, decide_eq_true hdue]
  simp only [exec_pcSample, execPcSample, hsample, hnext, Bool.not_true, Bool.false_eq_true, if_false]

end

/-- Each DEBUG command with legal data, and each record, where its conditions hold. -/
theorem debugCommands : Claims.DebugCommands := by
  intro s q c die core gid slice pa cls unit reqDie k1 k2 cmd g write r rest ring did words field
  refine ⟨fun hcmd => ⟨fun hdata hpcLow hpcHigh hmemLow hmemHigh => exec_debugSampling_sets hcmd hdata ⟨hpcLow, hpcHigh⟩
      ⟨hmemLow, hmemHigh⟩, exec_debugRing_sets hcmd, exec_debugBreakpoints_sets hcmd,
      exec_debugPredicate_sets hcmd, exec_debugL2Watch_sets hcmd,
      fun hgix hhalted => ⟨exec_debugResume_goes hcmd hgix hhalted, fun himage =>
        ⟨State.onHalted_some hcmd hgix hhalted himage, State.onHalted_some hcmd hgix hhalted himage⟩⟩,
      fun hgix hnone i hi => ?_⟩,
    exec_debugRecord_writes, exec_debugRecord_drops, exec_l2WatchHit_records, fun slot n => exec_pcSample_records⟩
  simp only [List.mem_cons, List.not_mem_nil, or_false] at hi
  obtain rfl | rfl | rfl := hi
  · exact exec_debugResume_none hcmd hgix hnone
  · exact State.onHalted_none hcmd hgix hnone
  · exact State.onHalted_none hcmd hgix hnone

/-- Settles O33: the end of a node (`nodeEnds`), and the DEBUG commands with their records (`debugCommands`). -/
theorem nodeAndDebugMoves : Obligations.NodeAndDebugMoves :=
  ⟨nodeEnds, debugCommands⟩

end Sys2Proof.Machine

/-! What the hosts do at their ports (O34), and the package's own events (O35). -/

namespace Sys2Proof.Machine

section
variable {s : State}

/-- A package whose firmware is verified does what a host's access says (R405). -/
theorem State.host_verified {f : State} (hverified : s.verified = true) : s.host f = .next f := by
  rw [State.host, if_pos hverified]

/-- One whose firmware is not ignores it (R405, log entry 56). -/
theorem State.host_unverified {f : State} (hunverified : s.verified = false) : s.host f = .next s := by
  rw [State.host, hunverified, if_neg Bool.false_ne_true]

section
variable (hverified : s.verified = true)
include hverified

-- TAIL

section
variable {q : Nat} {x : W64} (hq : q < 1024)
include hq

/-- A whole write adds to TAIL, and the queue's start is an event (R392, R396). -/
theorem exec_tailWrite_adds (hx : x ≠ 0) (hsum : (s.queue q).tail.toNat + x.toNat < 2 ^ 64) :
    exec (.tailWrite q x 8 true) s = .next (((s.respond 2 false).modQueue q fun y =>
      { y with tail := BitVec.ofNat 64 ((s.queue q).tail.toNat + x.toNat) }).pushFw (.start q)) := by
  simp only [exec_tailWrite, execTailWrite, State.host_verified hverified, bne_self_eq_false, Bool.not_true, Bool.or_self,
    Bool.false_eq_true, if_false, if_neg (Nat.not_le.2 hq), if_neg hx, if_neg (Nat.not_le.2 hsum)]

/-- One that would carry out of TAIL stops the queue in its event (R392, R396). -/
theorem exec_tailWrite_overflows (hx : x ≠ 0) (hsum : 2 ^ 64 ≤ (s.queue q).tail.toNat + x.toNat) :
    exec (.tailWrite q x 8 true) s = .next ((s.respond 2 false).pushFw (.overflow q)) := by
  simp only [exec_tailWrite, execTailWrite, State.host_verified hverified, bne_self_eq_false, Bool.not_true, Bool.or_self,
    Bool.false_eq_true, if_false, if_neg (Nat.not_le.2 hq), if_neg hx]
  rw [if_pos hsum]

/-- A narrow or misaligned write gets an error response (R389, R392). -/
theorem exec_tailWrite_errs {size : Nat} {aligned : Bool} (hbad : size ≠ 8 ∨ aligned = false) :
    exec (.tailWrite q x size aligned) s = .next (s.respond 2 true) := by
  have herr : (size != 8 || !aligned) = true := by simpa using hbad
  simp only [exec_tailWrite, execTailWrite, State.host_verified hverified, if_neg (Nat.not_le.2 hq), herr, if_true]

end

-- Semaphores

section
variable {n : Nat} (hn : n < 32)
include hn

section
variable (hports : s.portsDown = [])
include hports

/-- The reads of the ports that are up, of a semaphore whose owner is known (R390). -/
theorem exec_semRead_owned {r0 r1 : Bool} (howned : NMap.get 0 s.sems n ≠ 0) :
    exec (.semRead n r0 r1) s = .next (s.replySem n r0 r1 none) := by
  simp only [exec_semRead, execSemRead, State.host_verified hverified, if_neg (Nat.not_le.2 hn), hports, List.contains_nil,
    Bool.not_false, Bool.and_true, bne_iff_ne.2 howned, if_true]

/-- A read of one port takes a free semaphore; reads of both go to the port that lost the tie before (R390). -/
theorem exec_semRead_takes {r0 r1 : Bool} (hfree : NMap.get 0 s.sems n = 0) (hread : (r0 || r1) = true) :
    let winner := if r0 && r1 then NMap.get 0 s.semLost n else if r0 then 0 else 1
    exec (.semRead n r0 r1) s = .next ((s.takeSem n winner (r0 && r1)).replySem n r0 r1 (some winner)) := by
  have hbody : exec (.semRead n r0 r1) s = .next (
      if r0 && r1 then (s.takeSem n (NMap.get 0 s.semLost n) true).replySem n r0 r1 (some (NMap.get 0 s.semLost n))
      else if r0 then (s.takeSem n 0 false).replySem n r0 r1 (some 0)
      else if r1 then (s.takeSem n 1 false).replySem n r0 r1 (some 1) else s) := by
    simp only [exec_semRead, execSemRead, State.host_verified hverified, if_neg (Nat.not_le.2 hn), hports, List.contains_nil,
      Bool.not_false, Bool.and_true, hfree, bne_self_eq_false, Bool.false_eq_true, if_false]
  rw [hbody]
  cases r0 with
  | true => cases r1 <;> rfl
  | false =>
    rw [Bool.false_or] at hread
    rw [hread]
    rfl

end

omit hverified hn in
/-- A semaphore that a port has taken reads as the port's number plus one. -/
theorem State.sem_takeSem (port : Nat) (tie : Bool) : NMap.get 0 (s.takeSem n port tie).sems n = port + 1 :=
  (NMap.get_put 0 s.sems n n (port + 1)).trans (if_pos rfl)

/-- The owner's write of 0 frees a semaphore (R390). -/
theorem exec_semWrite_frees {port : Nat} {value : W64} (hport : port < 2) (hvalue : value.extractLsb' 0 2 = 0)
    (howner : NMap.get 0 s.sems n = port + 1) :
    exec (.semWrite n port value) s = .next { s with sems := NMap.put s.sems n 0 } := by
  simp only [exec_semWrite, execSemWrite, State.host_verified hverified, decide_eq_true hn, decide_eq_true hport, hvalue, howner,
    beq_self_eq_true, Bool.and_self, if_true]

end

-- Queues and registers

section
variable {q : Nat} (hq : q < 1024)
include hq

/-- A write of EVHEAD between it and EVCNT takes effect (R401). -/
theorem exec_evheadWrite_writes {value : W64} (hlow : (s.queue q).evhead.toNat ≤ value.toNat)
    (hhigh : value.toNat ≤ (s.queue q).evcnt.toNat) :
    exec (.evheadWrite q value) s = .next (s.modQueue q fun y => { y with evhead := value }) := by
  simp only [exec_evheadWrite, execEvheadWrite, State.host_verified hverified, decide_eq_false (Nat.not_le.2 hq),
    decide_eq_false (Nat.not_lt.2 hlow), decide_eq_false (Nat.not_lt.2 hhigh), Bool.or_self, Bool.false_eq_true, if_false]

/-- A write of QD1 with EN zero disables an enabled queue (R391). -/
theorem exec_queueEnable_disables {value : W64} (henabled : (s.queue q).enabled = true) (hclear : value.getLsbD 0 = false) :
    exec (.queueEnable q value) s = .next (s.modQueue q fun y => y.setWord 1 (y.word 1 &&& ~~~1)) := by
  simp only [exec_queueEnable, execQueueEnable, State.host_verified hverified, if_neg (Nat.not_le.2 hq), henabled, hclear,
    Bool.false_eq_true, if_false, if_true]

/-- One with EN set enables a disabled queue whose descriptor is legal, and its start is an event (R391, R396). -/
theorem exec_queueEnable_enables {value : W64} (hdisabled : (s.queue q).enabled = false) (hset : value.getLsbD 0 = true)
    (hlegal : ((s.queue q).setWord 1 (((s.queue q).word 1 &&& 2) ||| (value &&& qd1Mask))).canEnable = true) :
    exec (.queueEnable q value) s = .next ((s.modQueue q fun _ =>
      ((s.queue q).setWord 1 (((s.queue q).word 1 &&& 2) ||| (value &&& qd1Mask))).enable (s.maskTable (maskBase q))).pushFw
        (.start q)) := by
  simp only [exec_queueEnable, execQueueEnable, State.host_verified hverified, if_neg (Nat.not_le.2 hq), hdisabled, hset, hlegal,
    Bool.and_self, Bool.false_eq_true, if_false, if_true]

omit hverified in
/-- A read of a queue's QD6 (R391). -/
theorem State.hubRead_ndrop : s.hubRead (0x20030 + 64 * q) = (s.queue q).word 6 := by
  have hqueue : (0x20030 + 64 * q - 0x20000) / 64 = q := by omega
  have hword : (0x20030 + 64 * q) / 8 % 8 = 6 := by omega
  simp only [State.hubRead, hqueue, hword]
  rw [if_neg (by omega), if_neg (by simp only [Bool.and_eq_true, decide_eq_true_eq]; omega),
    if_pos (by simp only [Bool.and_eq_true, decide_eq_true_eq]; omega)]

omit hverified in
/-- And what it clears. -/
theorem State.hubTake_ndrop : s.hubTake (0x20030 + 64 * q) =
    s.modQueue q fun y => y.setWord 6 (((y.word 6).extractLsb' 0 32).setWidth 64) := by
  have hqueue : (0x20030 + 64 * q - 0x20000) / 64 = q := by omega
  have hword : (0x20030 + 64 * q) / 8 % 8 = 6 := by omega
  have hlow : 0x20000 ≤ 0x20030 + 64 * q := by omega
  have hhigh : 0x20030 + 64 * q < 0x30000 := by omega
  simp only [State.hubTake, hqueue, hword, hlow, hhigh, decide_true, Bool.and_self, if_true]

/-- A read of NDROP is answered and clears the count (R391). -/
theorem exec_ndropRead_takes : exec (.ndropRead q) s = .next
    ((s.modQueue q fun y => y.setWord 6 (((y.word 6).extractLsb' 0 32).setWidth 64)).reply 2 ((s.queue q).word 6)) := by
  simp only [exec_ndropRead, execNdropRead, State.host_verified hverified, if_neg (Nat.not_le.2 hq), State.readRc,
    State.hubRead_ndrop hq, State.hubTake_ndrop hq]

end

section
variable {surface : Nat} (hsurface : surface < 8)
include hsurface

omit hverified in
/-- A read of a surface's misses (R436). -/
theorem State.hubRead_mmiss : s.hubRead (mirageBase surface + 56) = BitVec.ofNat 64 (NMap.get 0 s.misses surface) := by
  have hindex : (mirageBase surface + 56 - 0x62000) / 64 = surface := by unfold mirageBase; omega
  have hword : (mirageBase surface + 56) / 8 % 8 = 7 := by unfold mirageBase; omega
  have hlow : 0x62000 ≤ mirageBase surface + 56 := by unfold mirageBase; omega
  have hhigh : mirageBase surface + 56 < 0x62200 := by unfold mirageBase; omega
  simp only [State.hubRead, hindex, hword]
  generalize mirageBase surface + 56 = off at hlow hhigh ⊢
  simp only [show ¬ off < 0x10000 by omega, show ¬ off < 0x10100 by omega, show ¬ off < 0x30000 by omega,
    show ¬ off < 0x32000 by omega, show ¬ off < 0x34000 by omega, show ¬ off < 0x36000 by omega, show ¬ off < 0x38000 by omega,
    show ¬ off < 0x42000 by omega, show ¬ off = 0x61000 by omega, hlow, hhigh, decide_true, decide_false, Bool.and_false,
    Bool.and_self, Bool.false_eq_true, if_false, if_true]

omit hverified in
/-- And what it clears. -/
theorem State.hubTake_mmiss :
    s.hubTake (mirageBase surface + 56) = { s with misses := NMap.set 0 s.misses surface 0 } := by
  have hindex : (mirageBase surface + 56 - 0x62000) / 64 = surface := by unfold mirageBase; omega
  have hword : (mirageBase surface + 56) / 8 % 8 = 7 := by unfold mirageBase; omega
  have hlow : 0x62000 ≤ mirageBase surface + 56 := by unfold mirageBase; omega
  have hhigh : mirageBase surface + 56 < 0x62200 := by unfold mirageBase; omega
  have hother : ¬ mirageBase surface + 56 < 0x30000 := by omega
  simp only [State.hubTake, hindex, hword, hlow, hhigh, hother, decide_true, decide_false, Bool.and_false, Bool.false_and,
    Bool.and_self, Bool.false_eq_true, if_false, if_true]

/-- A read of MMISS is answered and clears the count (R436). -/
theorem exec_mmissRead_takes : exec (.mmissRead surface) s = .next (State.reply
    { s with misses := NMap.set 0 s.misses surface 0 } 2 (BitVec.ofNat 64 (NMap.get 0 s.misses surface))) := by
  simp only [exec_mmissRead, execMmissRead, State.host_verified hverified, if_pos hsurface, State.readRc,
    State.hubRead_mmiss hsurface, State.hubTake_mmiss hsurface]

end

section
variable {off : Nat} {value : W64} (haligned : off % 8 = 0)
include haligned

/-- A word of a disabled queue's descriptor is written but for its reserved bits (R5, R391). -/
theorem exec_registerWrite_descriptor (hlow : 0x20000 ≤ off) (hhigh : off < 0x30000) (hword : off / 8 % 8 ≠ 1)
    (hwords : off / 8 % 8 < 6)
    (hdisabled : (s.queue ((off - 0x20000) / 64)).enabled = false) :
    exec (.registerWrite off value) s = .next
      (s.modQueue ((off - 0x20000) / 64) fun y => y.setWord (off / 8 % 8) (value &&& qdMask (off / 8 % 8))) := by
  have hplain : (decide (off / 8 % 8 = 1) || decide (off / 8 % 8 ≥ 6) || (s.queue ((off - 0x20000) / 64)).enabled) = false := by
    rw [decide_eq_false hword, decide_eq_false (Nat.not_le.2 hwords), hdisabled]
    rfl
  simp only [exec_registerWrite, execRegisterWrite, State.host_verified hverified, haligned, bne_self_eq_false, hlow, hhigh,
    decide_true, Bool.and_self, hplain, Bool.false_eq_true, if_false, if_true]

/-- A word of hub memory is written (R388). -/
theorem exec_registerWrite_hub (hlow : 0x800000 ≤ off) (hhigh : off < 0x1000000) :
    exec (.registerWrite off value) s = .next (s.setHub off value) := by
  simp only [exec_registerWrite, execRegisterWrite, State.host_verified hverified, haligned, bne_self_eq_false,
    show ¬ off < 0x30000 by omega, show ¬ off < 0x60800 by omega, show ¬ off < 0x62200 by omega, show ¬ off < 0x200000 by omega,
    hlow, hhigh, decide_true, decide_false, Bool.and_self, Bool.and_false, Bool.false_eq_true, if_false, if_true]

end

section
variable {port pa : Nat} {bytes : List Byte} (hport : port < 2) (hup : s.portsDown.contains port = false)
include hport hup

/-- A write of memory is performed after its bytes have reached their slice (R376, R388). -/
theorem exec_hostWrite_stores (hinside : pa + bytes.length ≤ s.capacity) :
    exec (.hostWrite port pa bytes) s = .next
      (((s.respond port false).l2See pa bytes.length true (9, port) 0).storeBytes pa bytes) := by
  simp only [exec_hostWrite, execHostWrite, State.host_verified hverified, decide_eq_false (Nat.not_le.2 hport), hup, Bool.or_self,
    Bool.false_eq_true, if_false, if_neg (Nat.not_lt.2 hinside)]

/-- One beyond the capacity gets an error response (R389). -/
theorem exec_hostWrite_errs (houtside : s.capacity < pa + bytes.length) :
    exec (.hostWrite port pa bytes) s = .next (s.respond port true) := by
  simp only [exec_hostWrite, execHostWrite, State.host_verified hverified, decide_eq_false (Nat.not_le.2 hport), hup, Bool.or_self,
    Bool.false_eq_true, if_false]
  rw [if_pos houtside]

end
end
end

/-- Each access of a host where its conditions hold. -/
theorem hostPorts : Claims.HostPorts := by
  intro s q n port surface off pa size x value bytes aligned y hverified
  refine ⟨exec_tailWrite_adds hverified, exec_tailWrite_overflows hverified, fun hq => exec_tailWrite_errs hverified hq,
    fun hn hfree hports => ⟨?_, ?_, fun w hlost hw => ?_⟩, fun hn howned hports => exec_semRead_owned hverified hn hports howned,
    fun hn => exec_semWrite_frees hverified hn, fun hq => exec_evheadWrite_writes hverified hq,
    fun hq => exec_queueEnable_disables hverified hq, fun hq => exec_queueEnable_enables hverified hq,
    exec_ndropRead_takes hverified, exec_mmissRead_takes hverified,
    fun haligned => exec_registerWrite_descriptor hverified haligned, fun haligned => exec_registerWrite_hub hverified haligned,
    fun hport hup => ⟨exec_hostWrite_stores hverified hport hup, exec_hostWrite_errs hverified hport hup⟩⟩
  · refine (exec_semRead_takes hverified hn hports hfree rfl).trans ?_
    simp only [State.replySem, State.sem_takeSem]
    rfl
  · refine (exec_semRead_takes hverified hn hports hfree rfl).trans ?_
    simp only [State.replySem, State.sem_takeSem]
    rfl
  · refine (exec_semRead_takes hverified hn hports hfree rfl).trans ?_
    simp only [Bool.and_self, if_true, hlost, State.replySem, State.sem_takeSem]
    rfl

/-- An unverified package answers no host (`State.host_unverified`). -/
theorem unverifiedHosts : Claims.UnverifiedHosts := by
  intro s q n port surface off pa size x value bytes a b hunverified i hi
  simp only [List.mem_cons, List.not_mem_nil, or_false] at hi
  obtain rfl | rfl | rfl | rfl | rfl | rfl | rfl | rfl | rfl | rfl := hi <;> exact State.host_unverified hunverified

/-- Settles O34: the accesses of the hosts (`hostPorts`), and a package that ignores them (`unverifiedHosts`). -/
theorem hostPortMoves : Obligations.HostPortMoves :=
  ⟨hostPorts, unverifiedHosts⟩

-- The package's own events

section
variable {s : State}

/-- The oldest record of an enabled queue goes to a free slot of its ring within the capacity (R401). -/
theorem exec_eventPost_posts {q : Nat} {e : List W64} {rest : List (List W64)} (hevents : (s.queue q).events = e :: rest)
    (henabled : (s.queue q).enabled = true)
    (hroom : (s.queue q).evcnt.toNat - (s.queue q).evhead.toNat < 2 ^ (((s.queue q).read 4).extractLsb' 0 5).toNat)
    (hslot : ((s.queue q).read 4).toNat / 2 ^ 12 % 2 ^ 36 * 2 ^ 12 +
      64 * ((s.queue q).evcnt.toNat % 2 ^ (((s.queue q).read 4).extractLsb' 0 5).toNat) + 64 ≤ s.capacity) :
    exec (.eventPost q) s = .next ((s.storeWords (((s.queue q).read 4).toNat / 2 ^ 12 % 2 ^ 36 * 2 ^ 12 +
        64 * ((s.queue q).evcnt.toNat % 2 ^ (((s.queue q).read 4).extractLsb' 0 5).toNat)) (e.take 8)).modQueue q fun y =>
      { y with events := rest, evcnt := y.evcnt + 1 }) := by
  simp only [exec_eventPost, execEventPost, hevents, henabled, decide_eq_false (Nat.not_le.2 hroom), Bool.not_true, Bool.or_self,
    Bool.false_eq_true, if_false, if_pos hslot]

/-- A port that goes down frees its semaphores, and the firmware reports it (R390, R396). -/
theorem exec_hostPortDown_frees {port : Nat} (hport : port < 2) (hup : s.portsDown.contains port = false) :
    exec (.hostPortDown port) s = .next (State.pushFw
      { s with portsDown := port :: s.portsDown,
               sems := s.sems.map fun e => (e.1, if e.2 = port + 1 then 0 else e.2) } (.portDown port)) := by
  simp only [exec_hostPortDown, execHostPortDown, decide_eq_false (Nat.not_le.2 hport), hup, Bool.or_self, Bool.false_eq_true, if_false]

section
variable {core : Nat} (hcore : core < 12) (hhealthy : s.fwWorn.contains core = false)
include hcore hhealthy

/-- A firmware core that wears out is reported (R396, R403). -/
theorem exec_firmwareCoreWear_reports (hfew : s.fwWorn.length < 4) :
    exec (.firmwareCoreWear core) s = .next (State.pushFw { s with fwWorn := core :: s.fwWorn } (.coreWear core)) := by
  simp only [exec_firmwareCoreWear, execFirmwareCoreWear, decide_eq_false (Nat.not_le.2 hcore), hhealthy, Bool.or_self,
    Bool.false_eq_true, if_false]
  exact congrArg Host.Outcome.next (if_neg (Nat.not_lt.2 (Nat.succ_le_of_lt hfew)))

/-- One more than the spares is a device-level error (R402, R403). -/
theorem exec_firmwareCoreWear_ends (hmany : 4 ≤ s.fwWorn.length) :
    exec (.firmwareCoreWear core) s = .next
      (let s1 := State.pushFw { s with fwWorn := core :: s.fwWorn } (.coreWear core)
       { s1 with agenda := .event .deviceLevelError :: s1.agenda }) := by
  simp only [exec_firmwareCoreWear, execFirmwareCoreWear, decide_eq_false (Nat.not_le.2 hcore), hhealthy, Bool.or_self,
    Bool.false_eq_true, if_false]
  exact congrArg Host.Outcome.next (if_pos (Nat.lt_succ_of_le hmany))

end

/-- A sag stretches its die's clock, and the firmware lowers the frequency (R404). -/
theorem exec_supplySag_sags {die : Nat} (hdie : die < 16) :
    exec (.supplySag die) s = .next ((s.modDie die fun d => { d with sag := true }).pushFw (.clock die false)) := by
  simp only [exec_supplySag, execSupplySag, if_neg (Nat.not_le.2 hdie)]

/-- A reset takes everything but the parts to its reset value (R324, R405, log entry 4). -/
theorem exec_packageReset_resets {verified : Bool} {v : Nat} (hv : v ∈ [0, 8, 16, 32]) :
    exec (.packageReset verified v) s = .next
      { State.reset with
        tick := s.tick, mem := s.mem, capacity := s.capacity, l2n := v, importRoot := s.importRoot, verified := verified,
        fwWorn := s.fwWorn, ports := s.ports, leavesUsed := s.leavesUsed,
        clusters := s.clusters.map (fun e => (e.1, { e.2 with recs := [] })),
        dies := s.dies.map (fun e => (e.1, { freshDie with vaults := e.2.vaults })) } := by
  have hlegal : [0, 8, 16, 32].contains v = true := List.contains_iff_mem.2 hv
  simp only [exec_packageReset, execPackageReset, hlegal, Bool.not_true, Bool.false_eq_true, if_false]

end

/-- Settles O35: each event where its conditions hold; the firmware's by `State.runFw`. -/
theorem packageEvents : Obligations.PackageEvents := by
  intro s q port core die v p up e rest f fs x size a
  refine ⟨exec_eventPost_posts, exec_hostPortDown_frees, rfl, exec_firmwareCoreWear_reports,
    fun hcore hhealthy hmany => ⟨_, exec_firmwareCoreWear_ends hcore hhealthy hmany, rfl, rfl⟩, exec_supplySag_sags, rfl,
    fun hcore hhealthy hverified hnext => (exec_firmwareEvent_runs hcore hhealthy hverified hnext).trans ?_, ⟨_, rfl, rfl⟩,
    fun hv => ⟨_, exec_packageReset_resets hv, rfl, rfl, rfl, rfl, rfl, rfl⟩⟩
  cases f <;> rfl

end Sys2Proof.Machine

/-! Lanes, routes, drops, joins, peers' accesses, and contributions of reduction windows (O36). -/

namespace Sys2Proof.Machine

section
variable {s : State}

-- Ports, routes and membership

/-- A failure of a lane that leaves its port one narrows it, and is reported (R396, R421). -/
theorem exec_laneFailure_narrows {port : Nat} (hport : port < 48)
    (hfew : (NMap.get { failures := 0 } s.ports port).failures < 3) :
    exec (.laneFailure port) s = .next
      (let n := (NMap.get { failures := 0 } s.ports port).failures
       State.pushFw { s with ports := NMap.put s.ports port { failures := n + 1 } } (.lane port (activeLanes (n + 1)))) := by
  simp only [exec_laneFailure, execLaneFailure, decide_eq_false (Nat.not_le.2 hport), decide_eq_false (Nat.not_le.2 hfew), Bool.or_self,
    Bool.false_eq_true, if_false]

/-- A route changes once the packets of its pair have been delivered (R422, R438, log entry 35). -/
theorem exec_routeChange_changes {src dst port : Nat} (hsrc : src < 4096) (hdst : dst < 4096)
    (hown : src = s.pkg → s.delivered dst = true)
    (hother : src ≠ s.pkg → ∀ k ∈ s.contribs, src ∈ k.peers → s.homePackage k.addr ≠ dst) (hport : port < 48) :
    exec (.routeChange src dst port) s = .next
      (State.settleGone { s with routes := NMap.put s.routes (src * 4096 + dst) port }) := by
  have hdelivered : (src == s.pkg && !s.delivered dst) = false := by simpa using hown
  have hpassed : (src != s.pkg && s.contribs.any fun k => k.peers.contains src && s.homePackage k.addr == dst) = false := by
    simpa using hother
  simp only [exec_routeChange, execRouteChange, decide_eq_false (Nat.not_le.2 hsrc), decide_eq_false (Nat.not_le.2 hdst), hdelivered,
    hpassed, Bool.or_self, Bool.false_eq_true, if_false, if_pos hport]

/-- A packet of an unknown class is counted (R420). -/
theorem exec_packetDrop_counts {cls dst : Nat} (hclass : 4 < cls) :
    exec (.packetDrop cls dst) s = .next { s with drops := s.drops + 1 } := by
  simp only [exec_packetDrop, execPacketDrop, decide_eq_true hclass, Bool.true_or, if_true]

/-- A package that joins receives its number and its routes (R435, R438). -/
theorem exec_packageJoin_joins {number : Nat} {routes : List (Nat × Nat)} (hnumber : number < 4096) :
    exec (.packageJoin number routes) s = .next
      (State.setHub { s with pkg := number, routes := routesOf routes, ftChanged := s.ft, locked := false } fctl 0) := by
  simp only [exec_packageJoin, execPackageJoin, if_neg (Nat.not_le.2 hnumber)]

/-- LEAVE breaks the gangs of its package (R432, R438, log entry 57). -/
theorem exec_leave_leaves {value : W64} (hverified : s.verified = true) (hset : value.getLsbD 0 = true) :
    exec (.leave value) s = .next (((s.breakGangs s.gangCmds).setHub fctl (s.hubWord fctl ||| 1)).settleGone) := by
  simp only [exec_leave, execLeave, State.host_verified hverified, hset, if_true]

-- Peers' accesses

/-- What a peer's access at a home does where it may contribute to nothing: it has its turn at the home, after the bytes that
their slice sees (R376, R380, R423). -/
def State.peerDirect (s : State) (src a : Nat) (op : PeerOp) : State :=
  s.peerTurn src a op fun u =>
    (u.l2See a (peerShape op).1 (peerShape op).2.1.writes (8, (u.route u.pkg src).getD 0) 0).peerPerform a op

/-- No turn is waited for where no launch records or replays (R380). -/
theorem State.peerTurn_none {src a : Nat} {op : PeerOp} {f : State → State} (hnone : s.peerLaunch = none) :
    s.peerTurn src a op f = f s := by
  simp only [State.peerTurn, hnone]

/-- Nor for an operation that is not logged (R380). -/
theorem State.peerTurn_unlogged {src a : Nat} {op : PeerOp} {f : State → State} (hplain : peerLogged op = false) :
    s.peerTurn src a op f = f s := by
  unfold State.peerTurn
  split
  · rfl
  · simp only [hplain, Bool.not_false, if_true]

section
variable {src fa : Nat} {op : PeerOp} (hthere : s.gone = false)
include hthere

section
variable (haddr : fa < 2 ^ 48)
include haddr

section
variable {a : Nat} (hhome : s.importHome fa (peerShape op).1 (peerShape op).2.2 (peerShape op).2.1 = some a)
include hhome

/-- An operation that is no contribution, or meets no window, is performed at its home (R423). -/
theorem exec_peerAccess_direct (hplain : s.someWindow = none ∨ peerContrib op = none) :
    exec (.peerAccess src fa op) s = .next (s.peerDirect src a op) := by
  simp only [exec_peerAccess, execPeerAccess, hthere, if_neg (Nat.not_le.2 haddr), hhome, Bool.false_eq_true, if_false]
  obtain hnone | hnone := hplain
  · rw [hnone]
    cases peerContrib op <;> rfl
  · rw [hnone]
    rfl

/-- While a window is enabled, one that may contribute is either (R427, log entry 39). -/
theorem exec_peerAccess_chooses {vb x : W64} {o : RedOp} (hwindow : s.someWindow = some vb) (hcontrib : peerContrib op = some (o, x)) :
    ∃ t, exec (.peerAccess src fa op) s = .next t ∧
      (t = (s.pick 2).2.peerDirect src a op ∨ t = (s.pick 2).2.peerContribution src a o x vb) := by
  simp only [exec_peerAccess, execPeerAccess, hthere, if_neg (Nat.not_le.2 haddr), hhome, hwindow, hcontrib, Bool.false_eq_true,
    if_false]
  refine ⟨_, rfl, ?_⟩
  split
  · exact .inl rfl
  · exact .inr rfl

end

/-- One that the import table refuses has no effect here (R424). -/
theorem exec_peerAccess_refused (hrefused : s.importHome fa (peerShape op).1 (peerShape op).2.2 (peerShape op).2.1 = none) :
    exec (.peerAccess src fa op) s = .next s := by
  simp only [exec_peerAccess, execPeerAccess, hthere, if_neg (Nat.not_le.2 haddr), hrefused, Bool.false_eq_true, if_false]

/-- A contribution in transit to another package meets this one's units (R427). -/
theorem exec_peerAccess_transits {dst : Nat} {vb x : W64} {o : RedOp} (hwindow : s.someWindow = some vb)
    (hcontrib : peerContrib op = some (o, x)) (hdst : dst < 4096) (hother : dst ≠ s.pkg) (hroute : s.cutOff dst = false) :
    exec (.peerAccess src ((dst + 1) * 2 ^ 48 + fa) op) s = .next (s.peerContribution src (peerAddr dst fa) o x vb) := by
  have hpackage : ((dst + 1) * 2 ^ 48 + fa) / 2 ^ 48 - 1 = dst := by omega
  have hoffset : ((dst + 1) * 2 ^ 48 + fa) % 2 ^ 48 = fa := by omega
  have htransit : (dst + 1) * 2 ^ 48 + fa ≥ 2 ^ 48 := by omega
  simp only [exec_peerAccess, execPeerAccess, hthere, if_pos htransit, hwindow, hcontrib, hpackage, hoffset,
    decide_eq_false (Nat.not_le.2 hdst), beq_eq_false_iff_ne.2 hother, hroute, Bool.or_self, Bool.false_eq_true, if_false]

end
end

/-- None arrives once the ports are down (R438). -/
theorem exec_peerAccess_gone {src fa : Nat} {op : PeerOp} (hgone : s.gone = true) : exec (.peerAccess src fa op) s = .next s := by
  simp only [exec_peerAccess, execPeerAccess, hgone, if_true]

/-- A write of a peer is logged by nothing, and is performed at its home (R423). -/
theorem exec_peerAccess_writes {src fa a : Nat} {bs : List Byte} (hthere : s.gone = false) (haddr : fa < 2 ^ 48)
    (hhome : s.importHome fa (peerShape (.write bs)).1 (peerShape (.write bs)).2.2 (peerShape (.write bs)).2.1 = some a) :
    exec (.peerAccess src fa (.write bs)) s = .next
      ((s.l2See a bs.length true (8, (s.route s.pkg src).getD 0) 0).storeBytes a bs) :=
  (exec_peerAccess_direct hthere haddr hhome (.inr rfl)).trans (congrArg Host.Outcome.next (State.peerTurn_unlogged rfl))

-- Lost peers

/-- An access whose peer is lost kills its launch at its instruction (R424). -/
theorem exec_peerAccessFail_request {id : Nat} {r : Req} (hreq : s.req? id = some r) (hpeer : 2 ^ 20 ≤ r.arr) (htodo : r.todo ≠ []) :
    exec (.peerAccessFail id) s = .next
      (State.killLaunch { s with reqs := s.reqs.filter fun x => x.id != id } r.launch 0x30
        (fabricAddr ((r.todo.head?.map Access.addr).getD 0)) r.site) := by
  simp only [exec_peerAccessFail, execPeerAccessFail, hreq, decide_eq_false (Nat.not_lt.2 hpeer), List.isEmpty_eq_false_iff.2 htodo,
    Bool.or_self, Bool.false_eq_true, if_false]

section
variable {id : Nat} {w : WriteBack} (hreq : s.req? id = none) (hwb : (s.wbs.find? fun w => w.id == id) = some w)
variable (hpeer : 2 ^ 60 ≤ w.line * 128)
include hreq hwb hpeer

/-- So does a store that bypasses the L1 (R424). -/
theorem exec_peerAccessFail_through {site : Site} (hthrough : w.through = some site) :
    exec (.peerAccessFail id) s = .next
      (State.killLaunch { s with wbs := s.wbs.filter fun x => x.id != id } w.launch 0x30
        (fabricAddr (w.line * 128 + (maskSpan w.mask).1)) site) := by
  simp only [exec_peerAccessFail, execPeerAccessFail, hreq, hwb, if_neg (Nat.not_lt.2 hpeer), hthrough]

/-- A write-back that no instruction names kills every launch with a block on its core (R424). -/
theorem exec_peerAccessFail_writeBack (hthrough : w.through = none) :
    exec (.peerAccessFail id) s = .next
      (State.killAll { s with wbs := s.wbs.filter fun x => x.id != id } 0x30 (fabricAddr (w.line * 128)) (s.launchesOn w.core)) := by
  simp only [exec_peerAccessFail, execPeerAccessFail, hreq, hwb, if_neg (Nat.not_lt.2 hpeer), hthrough]

end

-- Contributions

/-- A contribution arrives at its edge die's unit behind those that lead it (R422, R427). -/
theorem exec_contributionArrival_turns {die id : Nat} {k : Contrib} (hcontrib : (s.contribs.find? fun k => k.id == id) = some k)
    (hfree : k.unit = none) (hbefore : k.past = false) (hdie : die = s.edgeDie k.addr)
    (hfirst : ((s.contribsBefore k).any fun x => x.leads k) = false) :
    exec (.contributionArrival die id) s = .next (s.unitTurn k die) := by
  simp only [exec_contributionArrival, execContributionArrival, hcontrib, hfree, hbefore, bne_eq_false_iff_eq.2 hdie, hfirst,
    Option.isSome_none, Bool.or_self, Bool.false_eq_true, if_false]

/-- An entry leaves its unit once its hold has run out (R427). -/
theorem exec_mergeHoldExpiry_forwards {die entry t : Nat} {k : Contrib} (hcontrib : (s.contribs.find? fun k => k.id == entry) = some k)
    (hunit : k.unit = some (die, t)) (hdue : t ≤ s.ft) : exec (.mergeHoldExpiry die entry) s = .next (s.forward entry) := by
  simp only [exec_mergeHoldExpiry, execMergeHoldExpiry, hcontrib, hunit, beq_self_eq_true, decide_eq_true hdue, Bool.and_self, if_true]

/-- A publish's flush forwards every entry that holds one of its contributions (R427, R428). -/
theorem exec_reductionFlush_forwards {pub : Nat} {p : Publish} (hpub : (s.pubs.find? fun p => p.id == pub) = some p)
    (hnone : (s.contribs.any fun k => k.ownedBy p && k.unit.isNone && !k.past) = false)
    (hpubs : (s.pubs.any fun x => p.contribs.contains x.id) = false) :
    exec (.reductionFlush pub) s = .next
      ((s.forwards ((s.contribs.filter fun k => k.ownedBy p && k.unit.isSome).map Contrib.id)).flushSlots (List.range 4)) := by
  simp only [exec_reductionFlush, execReductionFlush, hpub, hnone, hpubs, Bool.or_self, Bool.false_eq_true, if_false]

/-- A contribution that has passed the units is performed at its home: at once at a peer's, and in its turn at one here (R380,
R428). -/
theorem exec_reductionAck_performs {id : Nat} {k : Contrib} (hcontrib : (s.contribs.find? fun k => k.id == id) = some k)
    (hpast : k.past = true) (hup : s.peerDown k.addr = false) (hfirst : s.contribFirst k = true) :
    exec (.reductionAck id) s = .next
      (if 2 ^ 60 ≤ k.addr then s.performContrib k else s.homeTurn k fun t => t.performContrib k) := by
  simp only [exec_reductionAck, execReductionAck, hcontrib, hpast, hup, hfirst, Bool.not_true, Bool.or_self, Bool.false_eq_true,
    if_false, ge_iff_le]

end

/-- Settles O36: each event where its conditions hold; a peer's access by its home and by whether it may contribute. -/
theorem fabricEvents : Obligations.FabricEvents := by
  intro s port src dst cls number id die entry pub fa a t d value x vb routes op r k w site p bs o seen direct n
  refine ⟨fun hport hfew => ⟨_, exec_laneFailure_narrows hport hfew, rfl⟩, exec_routeChange_changes, exec_packetDrop_counts,
    fun hnumber => ⟨_, exec_packageJoin_joins hnumber, rfl⟩, exec_leave_leaves, exec_peerAccess_writes,
    fun hthere haddr hhome => ⟨fun hplain => ⟨exec_peerAccess_direct hthere haddr hhome hplain, fun hnone => ?_⟩,
      exec_peerAccess_chooses hthere haddr hhome⟩,
    fun hthere hwindow hcontrib hdst hother hroute haddr =>
      exec_peerAccess_transits hthere haddr hwindow hcontrib hdst hother hroute,
    fun hnothing => ?_, exec_peerAccessFail_request,
    fun hreq hwb hpeer => ⟨exec_peerAccessFail_through hreq hwb hpeer, exec_peerAccessFail_writeBack hreq hwb hpeer⟩,
    exec_contributionArrival_turns, exec_mergeHoldExpiry_forwards, exec_reductionFlush_forwards,
    fun hcontrib hpast hup hfirst hpeer => ?_, fun hcontrib hpast hup hfirst hhere => ?_⟩
  · exact (exec_peerAccess_direct hthere haddr hhome hplain).trans (congrArg Host.Outcome.next (State.peerTurn_none hnone))
  · by_cases hgone : s.gone = true
    · exact exec_peerAccess_gone hgone
    · obtain ⟨haddr, hrefused⟩ := hnothing.resolve_left hgone
      exact exec_peerAccess_refused (Bool.eq_false_iff.2 hgone) haddr hrefused
  · exact (exec_reductionAck_performs hcontrib hpast hup hfirst).trans (by rw [if_pos hpeer])
  · exact (exec_reductionAck_performs hcontrib hpast hup hfirst).trans (by rw [if_neg (Nat.not_le.2 hhere)])

end Sys2Proof.Machine

/-! Gangs (O37), fabric time and the output surfaces (O38). -/

namespace Sys2Proof.Machine

section
variable {s : State} {tag : Nat}

-- The GANG command in progress

/-- A member that has not armed arms once its blocks are placed and time is locked, before its timeout (R430, R431). -/
theorem exec_gang_arms {q c first count : Nat} {k1 k2 k3 : W64} {cmd : Cmd} {g : Gang} (hcmd : s.cmd? q c = some cmd)
    (hbegun : cmd.begun = true) (hgang : cmd.gang = some g) (hunarmed : g.armedAt = none)
    (hintime : s.ft ≤ g.start + usTicks g.armTimeout) (hlocked : s.locked = true) (hplaced : s.gangPlaced q c = true) :
    exec (.gang q c first count k1 k2 k3) s = .next ((s.armMember q c g).started q c) := by
  have hunexpired : s.armExpired g = false := decide_eq_false (Nat.not_lt.2 hintime)
  simp only [exec_gang, execGang, State.onCmd_some hcmd, hbegun, hgang, hunarmed, hunexpired, hlocked, hplaced, Option.isSome_none,
    Bool.and_self, Bool.false_eq_true, if_false, if_true]

-- Packets of a gang that is not here

/-- A packet of a gang that is not here is counted as a drop (R433). -/
theorem State.onGang_none {f : Nat → Cmd → Gang → State} (hnone : s.gangFor tag = none) :
    s.onGang tag f = .next { s with drops := s.drops + 1 } := by
  simp only [State.onGang, hnone]

/-- An ABORT of one is remembered too (R431, log entry 61). -/
theorem exec_abort_remembers (hnone : s.gangFor tag = none) :
    exec (.abort tag) s = .next { s with drops := s.drops + 1, aborted := tag :: s.aborted.filter (· != tag) } := by
  simp only [exec_abort, execAbort, hnone]

-- Packets and times of one that is

section
variable {q : Nat} {c : Cmd} {g : Gang} (hhere : s.gangFor tag = some (q, c, g))
include hhere

/-- A packet finds the gang of its tag (R433, log entry 61). -/
theorem State.onGang_some {f : Nat → Cmd → Gang → State} : s.onGang tag f = .next (f q c g) := by
  simp only [State.onGang, hhere]

/-- So does a time that a member watches. -/
theorem State.gangTimer_some {f : Nat → Cmd → Gang → State} : s.gangTimer tag f = .next (f q c g) := by
  simp only [State.gangTimer, hhere]

section
variable {time : Nat} (harmed : g.armedAt.isSome = true) (hnew : g.go = none)
include harmed hnew

/-- GO sets the time of an armed member, if it comes by then and time is locked (R430). -/
theorem exec_go_sets (hintime : s.ft ≤ time) (hlocked : s.locked = true) :
    exec (.go tag time) s = .next (s.modGang q c.num fun x => { x with go := some time }) := by
  simp only [exec_go, execGo, State.onGang_some hhere, hnew, Option.isNone_eq_false_iff.2 harmed, Option.isSome_none,
    decide_eq_false (Nat.not_lt.2 hintime), hlocked, Bool.not_true, Bool.or_self, Bool.false_eq_true, if_false]

/-- Otherwise the gang breaks (R432, R435). -/
theorem exec_go_misses (hlate : time < s.ft ∨ s.locked = false) : exec (.go tag time) s = .next (s.missGang q c.num) := by
  have hmiss : (decide (s.ft > time) || !s.locked) = true := by simpa using hlate
  simp only [exec_go, execGo, State.onGang_some hhere, hnew, Option.isNone_eq_false_iff.2 harmed, Option.isSome_none, hmiss,
    Bool.or_self, Bool.false_eq_true, if_false, if_true]

end

section
variable {t : Nat} (hgo : g.go = some t)
include hgo

section
variable (hheld : g.issued = false)
include hheld

/-- At its time a member's blocks issue, and STARTED goes to the leader (R430, R432). -/
theorem exec_goTime_issues (htime : t = s.ft) (hlocked : s.locked = true) (hplaced : s.gangPlaced q c.num = true)
    (hcan : (s.launchesOf q c.num).all s.canIssue = true) :
    exec (.goTime tag) s = .next (((s.unhold (s.launchesOf q c.num)).modGang q c.num fun x =>
      { x with issued := true, started := if x.leader = s.pkg then x.me :: x.started else x.started }).sendCtl tag .started
        [g.leader]) := by
  subst htime
  simp only [exec_goTime, execGoTime, State.gangTimer_some hhere, hgo, hheld, hlocked, hplaced, hcan, Nat.lt_irrefl, gt_iff_lt,
    decide_false, Bool.not_true, Bool.or_self, Bool.false_eq_true, if_false]

/-- Blocks that cannot issue by then, or a time that is not locked, break the gang (R432, R435). -/
theorem exec_goTime_misses (htime : t ≤ s.ft) (hlate : t < s.ft ∨ s.locked = false ∨ s.gangPlaced q c.num = false ∨
      (s.launchesOf q c.num).all s.canIssue = false) :
    exec (.goTime tag) s = .next (s.missGang q c.num) := by
  have hmiss : (decide (s.ft > t) || !s.locked || !s.gangPlaced q c.num || !(s.launchesOf q c.num).all s.canIssue) = true := by
    simpa only [Bool.or_eq_true, decide_eq_true_eq, gt_iff_lt, Bool.not_eq_true', or_assoc] using hlate
  simp only [exec_goTime, execGoTime, State.gangTimer_some hhere, hgo, hheld, decide_eq_false (Nat.not_lt.2 htime), hmiss,
    Bool.or_self, Bool.false_eq_true, if_false, if_true]

end

section
variable (hleader : g.leader = s.pkg)
include hleader

section
variable {member : Nat} (hnew : g.started.contains member = false) (hmember : member < g.members.length)
include hnew hmember

/-- A STARTED that comes two microseconds late finds the gang broken (R432). -/
theorem exec_started_misses (hlate : t + usTicks 2 ≤ s.ft) : exec (.started tag member) s = .next (s.missGang q c.num) := by
  simp only [exec_started, execStarted, State.onGang_some hhere, hgo, hleader, bne_self_eq_false, hnew,
    decide_eq_false (Nat.not_le.2 hmember), Bool.or_self, Bool.false_eq_true, if_false, if_pos hlate]

/-- One in time is noted, and the command may complete with it (R432). -/
theorem exec_started_notes (hintime : s.ft < t + usTicks 2) :
    exec (.started tag member) s = .next
      ((s.modGang q c.num fun x => { x with started := member :: x.started }).settleCmd q c.num) := by
  simp only [exec_started, execStarted, State.onGang_some hhere, hgo, hleader, bne_self_eq_false, hnew,
    decide_eq_false (Nat.not_le.2 hmember), Bool.or_self, Bool.false_eq_true, if_false, if_neg (Nat.not_le.2 hintime)]

end

/-- The leader breaks a gang of which some STARTED is missing two microseconds after its time (R432). -/
theorem exec_startedDeadline_misses (hlate : t + usTicks 2 ≤ s.ft) (hmissing : g.started.length < g.members.length) :
    exec (.startedDeadline tag) s = .next (s.missGang q c.num) := by
  simp only [exec_startedDeadline, execStartedDeadline, State.gangTimer_some hhere, hgo, hleader, decide_true, decide_eq_true hlate,
    decide_eq_true hmissing, Bool.and_self, if_true]

end
end

/-- ABORT releases a gang that has not issued (R431). -/
theorem exec_abort_aborts (hheld : g.issued = false) : exec (.abort tag) s = .next (s.abortGang q c.num tag) := by
  simp only [exec_abort, execAbort, hhere, hheld, Bool.false_eq_true, if_false]

/-- The leader's timeout without every ARM aborts the gang (R430, R431). -/
theorem exec_armTimeout_leader (hleader : g.leader = s.pkg) (hnew : g.go = none) (hlate : g.start + usTicks g.armTimeout ≤ s.ft) :
    exec (.armTimeout tag) s = .next (s.leaderAbort q c.num g) := by
  simp only [exec_armTimeout, execArmTimeout, State.gangTimer_some hhere, State.giveUp, hleader, hnew, decide_true, Option.isNone_none,
    decide_eq_true hlate, Bool.and_self, Bool.true_or, if_true]

/-- That of another member that has not armed releases its blocks (R431). -/
theorem exec_armTimeout_member (hother : g.leader ≠ s.pkg) (hunarmed : g.armedAt = none)
    (hlate : g.start + usTicks g.armTimeout ≤ s.ft) :
    exec (.armTimeout tag) s = .next (s.releaseGang q c.num) := by
  simp only [exec_armTimeout, execArmTimeout, State.gangTimer_some hhere, State.giveUp, if_neg hother, hunarmed, Option.isNone_none,
    decide_eq_true hlate, Bool.or_true, Bool.and_self, if_true]

/-- An armed member that has seen neither GO nor ABORT releases its blocks in time (R431). -/
theorem exec_gangReleaseTimeout_releases {t : Nat} (harmed : g.armedAt = some t) (hnew : g.go = none)
    (hlate : t + usTicks g.armTimeout + nsTicks g.goLead + usTicks 2 ≤ s.ft) :
    exec (.gangReleaseTimeout tag) s = .next (s.releaseGang q c.num) := by
  simp only [exec_gangReleaseTimeout, execGangReleaseTimeout, State.gangTimer_some hhere, harmed, hnew, Option.isNone_none,
    decide_eq_true hlate, Bool.and_self, if_true]

end

-- ARM at the leader

section
variable {member q : Nat} {k1 k2 k3 hash : W64} {c : Cmd} {g : Gang}
variable (hhere : s.gangFor (k1.extractLsb' 0 40).toNat = some (q, c, g)) (hleader : g.leader = s.pkg) (hnew : g.go = none)
variable (hmember : member < g.members.length)
include hhere hleader hnew hmember

/-- An ARM of the command's own words is noted, and GO goes out with the last (R430). -/
theorem exec_arm_notes (hword1 : cmdWord c.words 1 = k1) (hword2 : cmdWord c.words 2 = k2) (hword3 : cmdWord c.words 3 = k3)
    (hhash : g.hash = hash) :
    exec (.arm member k1 k2 k3 hash) s = .next
      (let g1 : Gang := { g with arms := (member, true) :: g.arms.filter fun e => e.1 != member }
       (s.modGang q c.num fun _ => g1).tryGo q c.num g1) := by
  simp only [exec_arm, execArm, State.onGang_some hhere, hnew, Option.isSome_none, decide_eq_false (Nat.not_le.2 hmember),
    bne_eq_false_iff_eq.2 hleader, bne_eq_false_iff_eq.2 hword1, bne_eq_false_iff_eq.2 hword2, bne_eq_false_iff_eq.2 hword3,
    bne_eq_false_iff_eq.2 hhash, Bool.or_self, Bool.false_eq_true, if_false]

/-- One of another member list aborts the gang (R431, log entry 61). -/
theorem exec_arm_aborts (hhash : g.hash ≠ hash) : exec (.arm member k1 k2 k3 hash) s = .next (s.leaderAbort q c.num g) := by
  simp only [exec_arm, execArm, State.onGang_some hhere, hnew, Option.isSome_none, decide_eq_false (Nat.not_le.2 hmember),
    bne_eq_false_iff_eq.2 hleader, bne_iff_ne.2 hhash, Bool.or_true, Bool.or_self, Bool.false_eq_true, if_false, if_true]

end
end

/-- Settles O37: each packet and each time by what the gang that is here has seen. -/
theorem gangEvents : Obligations.GangEvents := by
  intro s q tag member time t k1 k2 k3 hash c g
  refine ⟨fun hnone => ⟨fun i hi => ?_, exec_abort_remembers hnone⟩,
    fun hhere hleader hnew hmember => ⟨exec_arm_notes hhere hleader hnew hmember, exec_arm_aborts hhere hleader hnew hmember⟩,
    exec_gang_arms, fun hhere => ⟨exec_go_sets hhere, exec_go_misses hhere, exec_goTime_issues hhere, exec_goTime_misses hhere,
      fun hgo hleader => exec_started_misses hhere hgo hleader, fun hgo hleader => exec_started_notes hhere hgo hleader,
      exec_abort_aborts hhere, State.onGang_some hhere, State.onGang_some hhere,
      exec_armTimeout_leader hhere, exec_armTimeout_member hhere, fun hleader hgo => exec_startedDeadline_misses hhere hgo hleader,
      exec_gangReleaseTimeout_releases hhere⟩⟩
  simp only [List.mem_cons, List.not_mem_nil, or_false] at hi
  obtain rfl | rfl | rfl | rfl := hi <;> exact State.onGang_none hnone

-- Fabric time

section
variable {s : State}

/-- A packet corrects the time (R435). -/
theorem exec_timePacket_corrects (delta : Int) : exec (.timePacket delta false) s = .next { s with ft := ((s.ft : Int) + delta).toNat } := by
  simp only [exec_timePacket, execTimePacket, Bool.false_eq_true, if_false, Bool.not_false, Bool.and_true]

/-- A path that has not changed for a millisecond locks it (R435). -/
theorem exec_timeLock_locks (hdue : s.ftChanged + usTicks 1000 ≤ s.ft) : exec .timeLock s = .next { s with locked := true } := by
  simp only [exec_timeLock, execTimeLock, if_pos hdue]

-- Surfaces

section
variable {surface : Nat}

section
variable (hsurface : surface < 8) (hon : (s.mirage surface 0).getLsbD 0 = true) (hidle : (s.surface surface).chosen = none)
variable (hperiod : s.mirage surface 1 ≠ 0)
variable (hdue : (s.mirage surface 2).toNat + (s.surface surface).checked * (s.mirage surface 1).toNat ≤
  s.ft + (s.mirage surface 3).toNat)
include hsurface hon hidle hperiod hdue

/-- A surface with a frame to choose, at its deadline (R437). -/
theorem State.mirageDeadline_guard :
    (decide (surface ≥ 8) || !(s.mirage surface 0).getLsbD 0 || (s.surface surface).chosen.isSome || s.mirage surface 1 == 0 ||
      decide (s.ft + (s.mirage surface 3).toNat <
        (s.mirage surface 2).toNat + (s.surface surface).checked * (s.mirage surface 1).toNat)) = false := by
  rw [decide_eq_false (Nat.not_le.2 hsurface), hon, hidle, beq_eq_false_iff_ne.2 hperiod, decide_eq_false (Nat.not_lt.2 hdue)]
  rfl

/-- Chooses its producer's frame if that is ready (R437). -/
theorem exec_mirageDeadline_ready
    (hready : (s.surface surface).checked ≤ (s.load64 ((s.mirage surface 4).toNat + 16)).toNat) :
    exec (.mirageDeadline surface) s = .next
      { s with surfaces := NMap.put s.surfaces surface
                 { chosen := some ((s.surface surface).checked, s.load64 (s.mirage surface 4).toNat),
                   checked := (s.surface surface).checked + 1 } } := by
  have hframe := State.mirageDeadline_guard hsurface hon hidle hperiod hdue
  simp only [exec_mirageDeadline, execMirageDeadline, hframe, Bool.false_eq_true, if_false, if_pos hready]

/-- And the fallback otherwise, which is counted, and reported while time is locked (R435, R437). -/
theorem exec_mirageDeadline_misses
    (hlate : (s.load64 ((s.mirage surface 4).toNat + 16)).toNat < (s.surface surface).checked) :
    exec (.mirageDeadline surface) s = .next
      (let p := s.load64 ((s.mirage surface 4).toNat + 8)
       let s1 : State :=
         { s with surfaces := NMap.put s.surfaces surface
                    { chosen := some ((s.surface surface).checked, p), checked := (s.surface surface).checked + 1 },
                  misses := NMap.set 0 s.misses surface (NMap.get 0 s.misses surface + 1) }
       if s.locked then
         s1.postEvent ((s.mirage surface 0).extractLsb' 16 10).toNat
           [ev0 9 surface, BitVec.ofNat 64 (s.surface surface).checked, p, s.load64 ((s.mirage surface 4).toNat + 16)]
       else s1) := by
  have hframe := State.mirageDeadline_guard hsurface hon hidle hperiod hdue
  simp only [exec_mirageDeadline, execMirageDeadline, hframe, Bool.false_eq_true, if_false, if_neg (Nat.not_le.2 hlate)]

end

/-- A chosen frame is delivered at its edge (R437). -/
theorem exec_vsync_delivers {n : Nat} {p : W64} (hchosen : (s.surface surface).chosen = some (n, p))
    (hon : (s.mirage surface 0).getLsbD 0 = true)
    (hedge : (s.mirage surface 2).toNat + n * (s.mirage surface 1).toNat ≤ s.ft) :
    exec (.vsync surface) s = .next
      (let s1 := (s.setHub (mirageBase surface + 40) p).setHub (mirageBase surface + 48) (BitVec.ofNat 64 n)
       { s1 with surfaces := NMap.put s1.surfaces surface { s.surface surface with chosen := none } }) := by
  simp only [exec_vsync, execVsync, hchosen, hon, decide_eq_false (Nat.not_lt.2 hedge), Bool.not_true, Bool.or_self,
    Bool.false_eq_true, if_false]

end
end

/-- Settles O38: the time by its packets, a surface by its deadline and its edge. -/
theorem timeAndSurfaces : Obligations.TimeAndSurfaces := by
  intro s surface n p delta x m pb chosen due
  exact ⟨exec_timePacket_corrects delta, ⟨_, rfl, rfl, Bool.and_false _⟩, exec_timeLock_locks,
    fun ⟨hsurface, hon, hidle, hperiod, hdue⟩ => exec_mirageDeadline_ready hsurface hon hidle hperiod hdue,
    fun ⟨hsurface, hon, hidle, hperiod, hdue⟩ => exec_mirageDeadline_misses hsurface hon hidle hperiod hdue, exec_vsync_delivers⟩

end Sys2Proof.Machine
